-- ==== Sys2Proof/Word.lean ====
section
/-!
DEFINITION. Word.lean: the widths and the identifiers of the units (00_scope Table 6; R10, R11, R12).
-/

namespace Sys2Proof

/-- One byte of any memory. -/
abbrev Byte := BitVec 8

/-- A 32-bit pattern: an FP32 value, a lane, an accumulator word. -/
abbrev W32 := BitVec 32

/-- A 64-bit pattern: a scalar register, a wide register. -/
abbrev W64 := BitVec 64

/-- One slot of the instruction buffer (R30). -/
abbrev Slot := BitVec 128

/-- A descriptor register (R41): 64 bytes. -/
abbrev Desc := BitVec 512

/-- Global tile index 0-95 = 12 x die + tile (00_scope Table 6). -/
abbrev Tile := Fin 96

/-- Compute die CD0-CD7. -/
abbrev Die := Fin 8

/-- Memory stack ST00-ST31. -/
abbrev Stack := Fin 32

/-- Edge die ED0-ED3. -/
abbrev Edge := Fin 4

/-- Link L00-L23. -/
abbrev Link := Fin 24

/-- Ring pair 0-255 (R397). -/
abbrev Ring := Fin 256

/-- Function: 0 physical, 1-63 virtual (R392). -/
abbrev Func := Fin 64

/-- Collective channel 0-15 (R362). -/
abbrev Chan := Fin 16

/-- Error code (R7). -/
abbrev Code := BitVec 16

/-- The compute die that holds a tile. -/
def Tile.die (t : Tile) : Die := ⟨t.val / 12, by omega⟩

/-- The tile's index within its die, T0-T11. -/
def Tile.idx (t : Tile) : Fin 12 := ⟨t.val % 12, by omega⟩

/-- Tile `i` of compute die `d`. -/
def Die.tile (d : Die) (i : Fin 12) : Tile := ⟨d.val * 12 + i.val, by omega⟩

/-- The compute die to which a stack is attached: stack k belongs to die k div 4. -/
def Stack.die (k : Stack) : Die := ⟨k.val / 4, by omega⟩

/-- Every tile in ascending global index. -/
def allTiles : List Tile := List.finRange 96

/-- Every compute die in ascending order. -/
def allDies : List Die := List.finRange 8

/-- Every stack in ascending order. -/
def allStacks : List Stack := List.finRange 32

end Sys2Proof
end

