-- ==== Sys2Proof/Syntax.lean ====
section
/-!
DEFINITION. Syntax.lean: the commands of the block, one constructor of `Instr` per row of spec/opcode_table.json,
and the operand types they carry.
-/

namespace Sys2Proof

/-- The guard of a tile instruction (R30, R33): the predicate register and GINV. -/
structure Guard where
  reg : BitVec 3
  inv : Bool
  deriving DecidableEq, Repr

/-- op2 of a scalar instruction (Table 11 of 02): `s[RS2]` or IMM64. -/
inductive Op2 where
  | reg (rs2 : BitVec 5)
  | imm (v : W64)
  deriving DecidableEq, Repr

/-- A 32-bit count or target of LOOP and WAIT (Table 9 of 02): a register's low half or IMM32. -/
inductive Cnt where
  | reg (sx : BitVec 5)
  | imm (v : W32)
  deriving DecidableEq, Repr

/-- Which side makes a register access (R392, R431, R458, R490): a host function or board management over I3C. -/
inductive Iface where
  /-- BAR2 of the physical function; a virtual function has none. -/
  | host (f : Func)
  /-- BAR0 of a function (R393). -/
  | bar0 (f : Func)
  | board
  deriving DecidableEq, Repr

/-- What the memory system meets at the words an access reads (R285, R287): physical, so the environment says. -/
inductive Ecc where
  | clean
  | corrected (count : Nat)
  | uncorrectable
  deriving DecidableEq, Repr

/-- Who makes an access at a fabric port (R274). -/
inductive Requester where
  | tile (t : Tile)
  | dealer (d : Die) (job : Nat)
  | engine (k : Stack) (job : Nat)
  | codec (job : Nat)
  deriving DecidableEq, Repr

/-- Direction of an access. -/
inductive Access where
  | read (len : Nat)
  | write (data : List Byte)
  deriving DecidableEq, Repr

/-- Operation of a memory-side request (Table 4 of 09). -/
inductive MsOp where
  | add | min | max
  deriving DecidableEq, Repr

/-- Element type of a memory-side request (Table 4 of 09). -/
inductive MsTy where
  | fp32 | bf16 | fp16 | int32 | int64
  deriving DecidableEq, Repr

/-- Where a stack-engine command comes from (R295): the engine's queue (posted for a hand), or the conductor. -/
inductive SeSrc where
  | queued
  | conductor (job : Nat) (cmd : BitVec 512)
  deriving DecidableEq, Repr

/-- Passing steps of one margined channel or lane (R303, R358). -/
structure Margins where
  left  : Nat
  right : Nat
  low   : Nat
  high  : Nat
  deriving DecidableEq, Repr

/-- What a sequence activation reports about a coded sequence (R320, R327). -/
structure SeqInfo where
  width     : Nat
  height    : Nat
  cropW     : Nat
  cropH     : Nat
  depth     : Nat
  /-- 0 4:0:0, 1 4:2:0, 2 4:2:2, 3 4:4:4 -/
  chroma    : Nat
  /-- Profile, depth and chroma are in Table 1 of 10 and no field or MBAFF coding is used. -/
  supported : Bool
  dpb       : Nat
  deriving DecidableEq, Repr

/-- One picture that an access unit decodes to, as the codec standard's decoding process has it (Table 4 of 10). -/
structure PicOutcome where
  /-- A coded sequence activates with it. -/
  newSeq  : Option SeqInfo
  isRef   : Bool
  /-- It awaits output. -/
  shown   : Bool
  /-- Buffers whose reference marks its headers clear. -/
  dropRefs : List Nat
  /-- Lowest error class met, 0 none; concealed 16 x 16 blocks, the first of them, and the byte offset of the fault. -/
  cls     : Nat
  concealed : Nat
  first   : Nat
  offset  : Nat
  /-- A substitute reference was used (class 4). -/
  substitute : Bool
  deriving DecidableEq, Repr

/-- How the codec standard's decoding process sorts one access unit (Table 4 of 10). -/
inductive AuOutcome where
  /-- Pictures decode; then the listed buffers are the next in output order. -/
  | pictures (ps : List PicOutcome) (outputs : List Nat)
  /-- Class 3: a discard run starts or goes on. -/
  | discard (offset : Nat)
  /-- Class 5: the sequence lies outside the limits of R320. -/
  | unsupported
  deriving DecidableEq, Repr

/-- An arrived far frame (R354), after the port's tag check. -/
structure FarFrame where
  session   : BitVec 32
  seq       : Nat
  ack       : Nat
  src       : BitVec 15
  dst       : BitVec 15
  /-- The AES-256-GCM tag verifies under the key of the session's receiving direction. -/
  authentic : Bool
  /-- Under the new keys of a rekey (R357). -/
  newKeys   : Bool
  /-- The decrypted whole transactions. -/
  payload   : List Byte
  deriving DecidableEq, Repr

/-- A transaction header (R353). -/
structure TxHeader where
  type  : BitVec 4
  chan  : BitVec 4
  src   : BitVec 15
  dst   : BitVec 15
  len   : BitVec 13
  tag   : BitVec 13
  addr  : W64
  deriving DecidableEq, Repr

/-- The stages of a collective (Table 3 of 12). -/
inductive Trick where
  | package | tray | row | column | racks
  deriving DecidableEq, Repr

/-- Sensor readings taken at the end of a control interval (Table 1 of 14). -/
structure Readings where
  inlet  : Option Nat
  tileC  : List (Tile × Nat)
  stackC : List (Stack × Nat)
  deriving DecidableEq, Repr

/-- Whether the two signatures of a firmware image verify under its own keys (R455 steps 5 and 6; log entry 13). -/
structure SigCheck where
  ed : Bool
  ml : Bool
  deriving DecidableEq, Repr

/-- The grade vote of a job's group (R435): how many other members it has, none for a job on one module, and the sum of
their offers per grade; or the code with which the vote aborted. -/
inductive Vote where
  | sums (others : Nat) (xs : List Nat)
  | aborted (code : Code)
  deriving DecidableEq, Repr

/-- What the boot finds in the hardware (Table 2 of 16): physical outcomes, supplied by the environment. -/
structure BootEnv where
  slotPins    : BitVec 2
  hostMode    : Bool
  /-- Signatures of the images in slots A and B. -/
  sigA        : SigCheck
  sigB        : SigCheck
  /-- The two certificate chains are accepted (R453). -/
  chainEd     : Bool
  chainMl     : Bool
  /-- Tiles that fail self-test. -/
  badTiles    : List Tile
  /-- Edge dies that fail self-test. -/
  badEdges    : List Edge
  /-- Stacks that fail self-test. -/
  badStacks   : List Stack
  /-- Channels FC0-FC15 with usable targets, good raw bytes in the tier, least rated erase count, superblocks, spare blocks. -/
  flashChans  : BitVec 16
  badTargets  : Nat
  rawBytes    : Nat
  rated       : Nat
  superblocks : Nat
  spares      : Nat
  /-- Margin results of ST00, used when BOOT.CTRL.MARGIN_ST00 is 1. -/
  st00        : List Margins
  deriving DecidableEq, Repr

/-- One member's handshake message checks (R356): whether signatures, chain and member list accept the peer. -/
structure FinishMsg where
  edSig     : Bool
  mlSig     : Bool
  chainRoot : Bool
  inList    : Bool
  deriving DecidableEq, Repr

/-- The commands of the block. -/
inductive Instr where
  -- registers
  | registerWrite (who : Iface) (off : BitVec 40) (width : Nat) (v : W64)
  -- class 0, control and sync (Tables 8, 9 of 02)
  | nop (t : Tile) (g : Guard)
  | halt (t : Tile) (g : Guard)
  | handEnd (t : Tile)
  | br (t : Tile) (g : Guard) (target : BitVec 12)
  | brr (t : Tile) (g : Guard) (sx : BitVec 5)
  | loop (t : Tile) (g : Guard) (last : BitVec 12) (cnt : Cnt)
  | wait (t : Tile) (g : Guard) (evt : BitVec 4) (tgt : Cnt)
  | isaWaitTimeout (t : Tile)
  | signal (t : Tile) (g : Guard) (evt : BitVec 4) (tgt : BitVec 7) (inc : BitVec 16)
  | barrier (t : Tile) (g : Guard) (bid : BitVec 4)
  | barrierWaveRelease (job : Nat) (wave : Nat)
  | fence (t : Tile) (g : Guard) (scope : BitVec 2)
  | trap (t : Tile) (g : Guard) (code : BitVec 16)
  | runPastEnd (t : Tile)
  -- class 1, scalar (Tables 10, 11 of 02)
  | add (t : Tile) (g : Guard) (rd rs1 : BitVec 5) (op2 : Op2)
  | sub (t : Tile) (g : Guard) (rd rs1 : BitVec 5) (op2 : Op2)
  | mul (t : Tile) (g : Guard) (rd rs1 : BitVec 5) (op2 : Op2)
  | and (t : Tile) (g : Guard) (rd rs1 : BitVec 5) (op2 : Op2)
  | or (t : Tile) (g : Guard) (rd rs1 : BitVec 5) (op2 : Op2)
  | xor (t : Tile) (g : Guard) (rd rs1 : BitVec 5) (op2 : Op2)
  | shl (t : Tile) (g : Guard) (rd rs1 : BitVec 5) (op2 : Op2)
  | shr (t : Tile) (g : Guard) (rd rs1 : BitVec 5) (op2 : Op2)
  | sra (t : Tile) (g : Guard) (rd rs1 : BitVec 5) (op2 : Op2)
  | mins (t : Tile) (g : Guard) (rd rs1 : BitVec 5) (op2 : Op2)
  | maxs (t : Tile) (g : Guard) (rd rs1 : BitVec 5) (op2 : Op2)
  | minu (t : Tile) (g : Guard) (rd rs1 : BitVec 5) (op2 : Op2)
  | maxu (t : Tile) (g : Guard) (rd rs1 : BitVec 5) (op2 : Op2)
  | cmp (t : Tile) (g : Guard) (cond : BitVec 3) (rd rs1 : BitVec 5) (op2 : Op2)
  | ld (t : Tile) (g : Guard) (rd rs1 : BitVec 5) (imm : W64)
  | st (t : Tile) (g : Guard) (rs1 rs2 : BitVec 5) (imm : W64)
  | mfe (t : Tile) (g : Guard) (rd rs1 : BitVec 5)
  -- class 2, DMA and descriptor (Tables 12, 13 of 02)
  | dload (t : Tile) (g : Guard) (dd : BitVec 6) (sx : BitVec 5) (imm : W64)
  | dset (t : Tile) (g : Guard) (dd : BitVec 6) (sx : BitVec 5) (fsel : BitVec 6)
  | dcopy (t : Tile) (g : Guard) (trans : Bool) (rnd : BitVec 2) (dd ds : BitVec 6) (so sd : BitVec 5) (evt : BitVec 4)
  | dgather (t : Tile) (g : Guard) (dd dp : BitVec 6) (st sn : BitVec 5) (evt : BitVec 4)
  | dwin (t : Tile) (g : Guard) (dd ds dw : BitVec 6) (so : BitVec 5) (evt : BitVec 4)
  | dmaComplete (t : Tile) (n : Nat)
  | dmaFaultReport (t : Tile) (n : Nat) (ecc : Ecc)
  -- class 3, matrix (Tables 14, 15 of 02)
  | mma (t : Tile) (g : Guard) (quart transA transB : Bool) (da db : BitVec 6) (acc sa sb sk : BitVec 5) (dr : Option (BitVec 6))
  | mzero (t : Tile) (g : Guard) (quart : Bool) (acc : BitVec 5)
  | mstore (t : Tile) (g : Guard) (quart : Bool) (rnd : BitVec 2) (acc : BitVec 5) (dd : BitVec 6) (so : BitVec 5)
      (dpb : Option (BitVec 6))
  | mload (t : Tile) (g : Guard) (quart : Bool) (acc : BitVec 5) (ds : BitVec 6) (so : BitVec 5)
  -- class 4, attention (Tables 17, 18 of 02)
  | abind (t : Tile) (g : Guard) (rope : Bool) (ctx : BitVec 2) (dw dpk dpv : BitVec 6)
  | afwd (t : Tile) (g : Guard) (start fin : Bool) (ctx : BitVec 2) (dq dout dl : BitVec 6) (sq skr acc : BitVec 5)
  | abwd (t : Tile) (g : Guard) (ctx : BitVec 2) (dq dg dl : BitVec 6) (sq skr acc : BitVec 5) (dkv : BitVec 6)
  | aappend (t : Tile) (g : Guard) (isV : Bool) (ctx : BitVec 2) (acc st sn : BitVec 5) (head : BitVec 6)
  | appendPageWrite (t : Tile) (n : Nat)
  | averify (t : Tile) (g : Guard) (ctx : BitVec 2) (dc ds : BitVec 6) (rd : BitVec 5)
  -- class 5, vector (Tables 19, 20 of 02)
  | vadd (t : Tile) (g : Guard) (vd va vb : BitVec 4)
  | vsub (t : Tile) (g : Guard) (vd va vb : BitVec 4)
  | vmul (t : Tile) (g : Guard) (vd va vb : BitVec 4)
  | vfma (t : Tile) (g : Guard) (vd va vb vc : BitVec 4)
  | vmin (t : Tile) (g : Guard) (vd va vb : BitVec 4)
  | vmax (t : Tile) (g : Guard) (vd va vb : BitVec 4)
  | vcmp (t : Tile) (g : Guard) (cond : BitVec 3) (pd : BitVec 3) (va vb : BitVec 4)
  | vsel (t : Tile) (g : Guard) (vd va vb : BitVec 4) (pd : BitVec 3)
  | vld (t : Tile) (g : Guard) (vd : BitVec 4) (sx : BitVec 5) (ds : BitVec 6)
  | vst (t : Tile) (g : Guard) (rnd : BitVec 2) (va : BitVec 4) (sx : BitVec 5) (ds : BitVec 6)
  | vbcast (t : Tile) (g : Guard) (vd : BitVec 4) (sx : BitVec 5)
  | vred (t : Tile) (g : Guard) (op : BitVec 2) (va : BitVec 4) (sx : BitVec 5)
  | vstat (t : Tile) (g : Guard) (vd : BitVec 4) (sx : BitVec 5) (ds : BitVec 6)
  | vcvt (t : Tile) (g : Guard) (rnd : BitVec 2) (vd va : BitVec 4) (fmt : BitVec 6)
  -- class 6, special function (Tables 21, 22 of 02)
  | exp2 (t : Tile) (g : Guard) (k1 : Bool) (vd va : BitVec 4)
  | exp (t : Tile) (g : Guard) (k1 : Bool) (vd va : BitVec 4)
  | log2 (t : Tile) (g : Guard) (k1 : Bool) (vd va : BitVec 4)
  | rcp (t : Tile) (g : Guard) (k1 : Bool) (vd va : BitVec 4)
  | rsqrt (t : Tile) (g : Guard) (k1 : Bool) (vd va : BitVec 4)
  | sigmoid (t : Tile) (g : Guard) (k1 : Bool) (vd va : BitVec 4)
  | tanh (t : Tile) (g : Guard) (k1 : Bool) (vd va : BitVec 4)
  | gelu (t : Tile) (g : Guard) (k1 : Bool) (vd va : BitVec 4)
  | silu (t : Tile) (g : Guard) (k1 : Bool) (vd va : BitVec 4)
  | softplus (t : Tile) (g : Guard) (k1 : Bool) (vd va : BitVec 4)
  | erf (t : Tile) (g : Guard) (k1 : Bool) (vd va : BitVec 4)
  | sin (t : Tile) (g : Guard) (k1 : Bool) (vd va : BitVec 4)
  | cos (t : Tile) (g : Guard) (k1 : Bool) (vd va : BitVec 4)
  -- class 7, power and trace (Tables 23, 24 of 02)
  | ante (t : Tile) (g : Guard) (phase : BitVec 8) (density : BitVec 7) (durK : BitVec 20)
  | phaseExpiry (t : Tile)
  | trace (t : Tile) (g : Guard) (tag : BitVec 16) (sx : BitVec 5)
  | cntrd (t : Tile) (g : Guard) (sx : BitVec 5) (sel : BitVec 8)
  -- deals (Table 2 of 03): the Dealer of die `d` takes its next record
  | gemm (d : Die)
  | attnFwd (d : Die)
  | attnBwd (d : Die)
  | attnBwdSetStart (d : Die) (job : Nat)
  | conv (d : Die)
  | regroup (d : Die)
  | crop (d : Die)
  | detect (d : Die)
  | sync (d : Die)
  | rawHand (d : Die)
  -- training (07)
  | unitBoundary (job : Nat)
  | stashPageMap (job : Nat)
  | stashReleasePhysical (job : Nat) (unit : Nat)
  | stashWrite (t : Tile) (addr : BitVec 48) (data : List Byte)
  | stashRead (t : Tile) (addr : BitVec 48) (count : Nat) (fmt : BitVec 6) (dst : BitVec 25)
  | trainingStepStart (job : Nat)
  | updateUnitStart (job : Nat)
  -- serving (06)
  | reserveStepPages (job : Nat)
  | stepBoundary (job : Nat) (verified : List Nat) (batchList : BitVec 48)
  -- memory (09)
  | memorySideOperation (rq : Requester) (op : MsOp) (ty : MsTy) (addr : BitVec 48) (data : List Byte)
  | hostAtomicFetchAdd (f : Func) (off : BitVec 36) (wide : Bool) (v : W64)
  | unifiedAccess (rq : Requester) (addr : BitVec 48) (acc : Access) (ecc : Ecc)
  | migrationStart
  | evictionComplete (page : Nat)
  | migrationComplete (page : Nat) (flashOk : Bool)
  | alloc (r : Ring)
  | free (r : Ring)
  | objectSync (r : Ring)
  | attach (r : Ring)
  | hostBar4Access (f : Func) (off : BitVec 36) (acc : Access)
  | patrolRead (k : Stack) (ch : Fin 32) (ecc : Ecc)
  | seCopy (k : Stack) (src : SeSrc)
  | seFill (k : Stack) (src : SeSrc)
  | seAdd (k : Stack) (src : SeSrc)
  | seMin (k : Stack) (src : SeSrc)
  | seMax (k : Stack) (src : SeSrc)
  | sePack (k : Stack) (src : SeSrc)
  | seUnpack (k : Stack) (src : SeSrc)
  | seGather (k : Stack) (src : SeSrc)
  | seWalk (k : Stack) (src : SeSrc)
  | sePrefetch (k : Stack) (src : SeSrc)
  | seUpdate (k : Stack) (src : SeSrc)
  | seEvict (k : Stack) (src : SeSrc)
  | seScrub (k : Stack) (src : SeSrc)
  | seMargin (k : Stack) (src : SeSrc) (results : List Margins)
  | seCommandComplete (k : Stack)
  | garbageCollection
  | staticWearLevelling
  | readDisturbCollect (sb : Nat)
  | journalProgram
  | mapCheckpoint
  | writeBudgetWindow
  -- codec (10)
  | codecOpen (r : Ring)
  | codecClose (r : Ring)
  | decodeAccessUnit (e : Fin 16) (out : AuOutcome)
  | pictureOutput (e : Fin 16) (slot : Fin 64)
  | encodeFrame (e : Fin 8)
  -- links (11)
  | lnkRankWrite (v : W32)
  | linkEnable (l : Link) (en : Bool)
  | trainingStepComplete (l : Link)
  | trainingStepTimeout (l : Link)
  | trainingRetry (l : Link)
  | negotiateFlit (l : Link) (versions : BitVec 4) (rank : BitVec 15) (peerLink : BitVec 5)
  | nearFlitReceive (l : Link) (fecBad : Bool) (flit : List Byte)
  | replayTimeout (l : Link)
  | retrain (l : Link)
  | linkWriteReceive (l : Link) (h : TxHeader) (data : List Byte)
  | farFrameReceive (l : Link) (f : FarFrame)
  | farResendTimeout (peer : BitVec 15) (seq : Nat)
  | hello (peer : BitVec 15) (versions : BitVec 4)
  | reply (peer : BitVec 15) (version : Nat)
  | finish (peer : BitVec 15) (m : FinishMsg)
  | handshakeTimeout (peer : BitVec 15)
  | handshakeRetry (peer : BitVec 15)
  | rekey (peer : BitVec 15)
  | linkMarginDone (l : Link) (results : List Margins)
  -- collectives (12)
  | allReduce (job : Nat) (desc : BitVec 48)
  | broadcast (job : Nat) (desc : BitVec 48)
  | allGather (job : Nat) (desc : BitVec 48)
  | shuffle (job : Nat) (desc : BitVec 48)
  | collectiveBarrier (job : Nat) (desc : BitVec 48)
  | digest (job : Nat) (desc : BitVec 48)
  | contributionReady (c : Chan)
  | packageTrickComplete (c : Chan)
  | post (c : Chan) (sender : BitVec 14) (header : List Byte)
  | ready (c : Chan) (seq : Nat) (k : Trick) (root : Bool) (unit : BitVec 14) (count : Nat) (ranks : List Nat)
  | go (c : Chan) (seq : Nat) (k : Trick) (units : List Nat) (count : Nat) (ranks : List Nat)
  | deadlineExpiry (c : Chan) (k : Trick)
  | twinSetExchange (c : Chan) (seq : Nat) (k : Trick) (units : List Nat)
  | potChunk (c : Chan) (k : Trick) (descending : Bool) (sender : BitVec 14) (seq : Nat) (offset : Nat) (tag : BitVec 13) (data : List Byte)
  | complete (c : Chan) (peer : BitVec 14) (seq : Nat)
  | shuffleData (c : Chan) (src dst : BitVec 14) (seq : Nat) (offset : Nat) (sent : Nat) (tag : BitVec 13) (data : List Byte)
  | abort (c : Chan) (seq : Nat) (code : Code)
  | finalAbort (c : Chan) (seq : Nat) (code : Code)
  | colStallExpiry (c : Chan)
  | digestRecord (c : Chan) (seq step : Nat) (dig : BitVec 256)
  -- host port, jobs, scheduling (13)
  | doorbell (f : Func) (r : Ring) (sqTail cqHead : Option W32)
  | ringEnable (f : Func) (r : Ring)
  | ringDisable (f : Func) (r : Ring)
  | job (r : Ring) (twinPresent : Bool) (vote : Vote)
  | saveComplete (j : Nat) (late : Bool)
  | swapEvaluation (blockedLong : List (Die × Nat × Nat))
  | anteSlotPromotion
  | jobComplete (j : Nat)
  | jobFault (j : Nat)
  | cancel (r : Ring)
  | partition (r : Ring)
  | partitionScrubComplete (f : Func)
  | nopEntry (r : Ring)
  | pfFlr (env : BootEnv)
  | vfFlr (f : Func)
  -- power (14)
  | controlInterval (r : Readings)
  | gradeUnholdable
  | gradeChange
  | meterSample (milliVolt tenMilliAmp watt : Nat)
  | powerRecovery
  | droopTrip (t : Tile)
  | droopSuppressionEnd (t : Tile)
  | rampEnd (t : Tile)
  | comparatorTrip
  | comparatorRelease
  | analogThermalTrip
  | recalibration
  | capWrite (who : Iface) (v : W32)
  | demoteClear (who : Iface)
  -- security (15)
  | verify (who : Iface) (sig : SigCheck)
  | stagingComplete
  | activate (who : Iface) (sig : SigCheck)
  | activationComplete
  | commit (who : Iface)
  | writeBudgetSet (stripes : W32)
  | getVersion
  | getCertificate (slot : Nat)
  | challenge (slot : Nat)
  | getMeasurements (index : Nat) (signed : Bool)
  | dualSig
  | pldmFirmwareUpdate (image : List Byte) (sig : SigCheck)
  -- reset, boot, tests, errors (16, 17)
  | powerOn
  | coldBoot (env : BootEnv)
  | bootStageTimeout
  | resetNPulse (nanoseconds : Nat)
  | perstAssert (env : BootEnv)
  | hotReset (env : BootEnv)
  | warmReset (who : Iface) (v : W32) (env : BootEnv)
  | conductorWatchdog (env : BootEnv)
  | perDieReset (who : Iface) (v : W32)
  | perDieResetComplete (die : Nat) (ok : Bool)
  | dieWatchdogExpiry (die : Nat)
  | tileSelfTestRequest (who : Iface) (target : BitVec 8)
  | stackSelfTestRequest (who : Iface) (target : BitVec 8)
  | stackMarginRequest (who : Iface) (target : BitVec 8)
  | linkRetrainRequest (who : Iface) (target : BitVec 8)
  | linkMarginRequest (who : Iface) (target : BitVec 8)
  | testCancel (who : Iface) (target : BitVec 8)
  | testQueueScan
  | testComplete (ticket : Nat) (pass : Bool) (results : List Margins)
  | calWrite (who : Iface) (addr : W64)
  | calWriteComplete
  | errorLogCollection (cls idx : Nat)
  | errorVectorSend (f : Func)
  | errStatusRead (who : Iface)
  | inputPowerLoss
  | objectSyncComplete (base : BitVec 48)
  | linkReferenceClockLoss (q : Edge)
  deriving DecidableEq, Repr

end Sys2Proof
end

