-- ==== Sys2Proof/Machine/Encode.lean ====
section
/-!
DEFINITION. Machine/Encode.lean: the 128-bit slots of the tile instructions (R30 to R34, Tables 5, 9, 11, 13, 15, 18, 20,
22, 24 of 02).
-/

namespace Sys2Proof.Machine

/-- A value placed with its lowest bit at `lo`. -/
def at_ (lo v : Nat) : Nat := v * 2 ^ lo

/-- Common fields of Table 5. -/
def slotWord (cls op : Nat) (g : Guard) (mod : Nat) (operands : Nat) : Slot :=
  BitVec.ofNat 128 (at_ 125 cls + at_ 120 op + at_ 117 g.reg.toNat + at_ 116 g.inv.toNat + at_ 112 mod + operands)

/-- Count field of LOOP and WAIT: MOD[0] and operand bits with SX at `lo`. -/
def cntField (lo : Nat) : Cnt → Nat × Nat
  | .reg sx => (0, at_ lo sx.toNat)
  | .imm v => (1, at_ 32 v.toNat)

def encScalar (op : Nat) (g : Guard) (rd rs1 : BitVec 5) (x : Op2) : Slot :=
  match x with
  | .reg rs2 => slotWord 1 op g 0 (at_ 107 rd.toNat + at_ 102 rs1.toNat + at_ 97 rs2.toNat)
  | .imm v => slotWord 1 op g 1 (at_ 107 rd.toNat + at_ 102 rs1.toNat + v.toNat)

def encCmp (g : Guard) (cond : BitVec 3) (rd rs1 : BitVec 5) (x : Op2) : Slot :=
  match x with
  | .reg rs2 => slotWord 1 0x0D g (2 * cond.toNat) (at_ 107 rd.toNat + at_ 102 rs1.toNat + at_ 97 rs2.toNat)
  | .imm v => slotWord 1 0x0D g (2 * cond.toNat + 1) (at_ 107 rd.toNat + at_ 102 rs1.toNat + v.toNat)

def encVec (op : Nat) (g : Guard) (mod : Nat) (vd va vb vc pd sx ds fmt : Nat) : Slot :=
  slotWord 5 op g mod (at_ 108 vd + at_ 104 va + at_ 100 vb + at_ 96 vc + at_ 93 pd + at_ 88 sx + at_ 82 ds + at_ 76 fmt)

def encSfu (op : Nat) (g : Guard) (k1 : Bool) (vd va : BitVec 4) : Slot :=
  slotWord 6 op g k1.toNat (at_ 108 vd.toNat + at_ 104 va.toNat)

def encAtt (op : Nat) (g : Guard) (mod : Nat) (ctx : BitVec 2) (operands : Nat) : Slot :=
  slotWord 4 op g mod (at_ 110 ctx.toNat + operands)

/-- The slot that holds a tile instruction; none for the commands that are no instruction. -/
def encodeSlot : Instr → Option (Tile × Slot)
  | .nop t g => some (t, slotWord 0 0x00 g 0 0)
  | .halt t g => some (t, slotWord 0 0x01 g 0 0)
  | .br t g target => some (t, slotWord 0 0x02 g 0 (at_ 100 target.toNat))
  | .brr t g sx => some (t, slotWord 0 0x03 g 0 (at_ 107 sx.toNat))
  | .loop t g last cnt => let c := cntField 95 cnt; some (t, slotWord 0 0x04 g c.1 (at_ 100 last.toNat + c.2))
  | .wait t g evt tgt => let c := cntField 103 tgt; some (t, slotWord 0 0x05 g c.1 (at_ 108 evt.toNat + c.2))
  | .signal t g evt tgt inc =>
    some (t, slotWord 0 0x06 g 0 (at_ 108 evt.toNat + at_ 101 tgt.toNat + at_ 85 inc.toNat))
  | .barrier t g bid => some (t, slotWord 0 0x07 g 0 (at_ 108 bid.toNat))
  | .fence t g scope => some (t, slotWord 0 0x08 g scope.toNat 0)
  | .trap t g code => some (t, slotWord 0 0x09 g 0 (at_ 96 code.toNat))
  | .add t g rd rs1 x => some (t, encScalar 0x00 g rd rs1 x)
  | .sub t g rd rs1 x => some (t, encScalar 0x01 g rd rs1 x)
  | .mul t g rd rs1 x => some (t, encScalar 0x02 g rd rs1 x)
  | .and t g rd rs1 x => some (t, encScalar 0x03 g rd rs1 x)
  | .or t g rd rs1 x => some (t, encScalar 0x04 g rd rs1 x)
  | .xor t g rd rs1 x => some (t, encScalar 0x05 g rd rs1 x)
  | .shl t g rd rs1 x => some (t, encScalar 0x06 g rd rs1 x)
  | .shr t g rd rs1 x => some (t, encScalar 0x07 g rd rs1 x)
  | .sra t g rd rs1 x => some (t, encScalar 0x08 g rd rs1 x)
  | .mins t g rd rs1 x => some (t, encScalar 0x09 g rd rs1 x)
  | .maxs t g rd rs1 x => some (t, encScalar 0x0A g rd rs1 x)
  | .minu t g rd rs1 x => some (t, encScalar 0x0B g rd rs1 x)
  | .maxu t g rd rs1 x => some (t, encScalar 0x0C g rd rs1 x)
  | .cmp t g cond rd rs1 x => some (t, encCmp g cond rd rs1 x)
  | .ld t g rd rs1 imm => some (t, slotWord 1 0x0E g 0 (at_ 107 rd.toNat + at_ 102 rs1.toNat + imm.toNat))
  | .st t g rs1 rs2 imm => some (t, slotWord 1 0x0F g 0 (at_ 102 rs1.toNat + at_ 97 rs2.toNat + imm.toNat))
  | .mfe t g rd rs1 => some (t, slotWord 1 0x10 g 0 (at_ 107 rd.toNat + at_ 102 rs1.toNat))
  | .dload t g dd sx imm => some (t, slotWord 2 0x00 g 0 (at_ 106 dd.toNat + at_ 101 sx.toNat + imm.toNat))
  | .dset t g dd sx fsel => some (t, slotWord 2 0x01 g 0 (at_ 106 dd.toNat + at_ 101 sx.toNat + at_ 95 fsel.toNat))
  | .dcopy t g tr rnd dd ds so sd evt =>
    some (t, slotWord 2 0x02 g (tr.toNat + 2 * rnd.toNat)
      (at_ 106 dd.toNat + at_ 100 ds.toNat + at_ 95 so.toNat + at_ 90 sd.toNat + at_ 86 evt.toNat))
  | .dgather t g dd dp st sn evt =>
    some (t, slotWord 2 0x03 g 0
      (at_ 106 dd.toNat + at_ 100 dp.toNat + at_ 95 st.toNat + at_ 90 sn.toNat + at_ 86 evt.toNat))
  | .dwin t g dd ds dw so evt =>
    some (t, slotWord 2 0x04 g 0
      (at_ 106 dd.toNat + at_ 100 ds.toNat + at_ 94 dw.toNat + at_ 89 so.toNat + at_ 85 evt.toNat))
  | .mma t g quart transA transB da db acc sa sb sk dr =>
    some (t, slotWord 3 0x00 g (quart.toNat + 2 * transA.toNat + 4 * transB.toNat + 8 * dr.isSome.toNat)
      (at_ 106 da.toNat + at_ 100 db.toNat + at_ 95 acc.toNat + at_ 90 sa.toNat + at_ 85 sb.toNat + at_ 80 sk.toNat
        + at_ 74 (dr.getD 0).toNat))
  | .mzero t g quart acc => some (t, slotWord 3 0x01 g quart.toNat (at_ 107 acc.toNat))
  | .mstore t g quart rnd acc dd so dpb =>
    some (t, slotWord 3 0x02 g (quart.toNat + 2 * rnd.toNat + 8 * dpb.isSome.toNat)
      (at_ 107 acc.toNat + at_ 101 dd.toNat + at_ 96 so.toNat + at_ 90 (dpb.getD 0).toNat))
  | .mload t g quart acc ds so =>
    some (t, slotWord 3 0x03 g quart.toNat (at_ 107 acc.toNat + at_ 101 ds.toNat + at_ 96 so.toNat))
  | .abind t g rope ctx dw dpk dpv =>
    some (t, encAtt 0x00 g rope.toNat ctx (at_ 104 dw.toNat + at_ 98 dpk.toNat + at_ 92 dpv.toNat))
  | .afwd t g start fin ctx dq dout dl sq skr acc =>
    some (t, encAtt 0x01 g (start.toNat + 2 * fin.toNat) ctx
      (at_ 104 dq.toNat + at_ 98 dout.toNat + at_ 92 dl.toNat + at_ 87 sq.toNat + at_ 82 skr.toNat + at_ 77 acc.toNat))
  | .abwd t g ctx dq dg dl sq skr acc dkv =>
    some (t, encAtt 0x02 g 0 ctx
      (at_ 104 dq.toNat + at_ 98 dg.toNat + at_ 92 dl.toNat + at_ 87 sq.toNat + at_ 82 skr.toNat + at_ 77 acc.toNat
        + at_ 71 dkv.toNat))
  | .aappend t g isV ctx acc st sn head =>
    some (t, encAtt 0x03 g isV.toNat ctx
      (at_ 105 acc.toNat + at_ 100 st.toNat + at_ 95 sn.toNat + at_ 89 head.toNat))
  | .averify t g ctx dc ds rd =>
    some (t, encAtt 0x04 g 0 ctx (at_ 104 dc.toNat + at_ 98 ds.toNat + at_ 93 rd.toNat))
  | .vadd t g vd va vb => some (t, encVec 0x00 g 0 vd.toNat va.toNat vb.toNat 0 0 0 0 0)
  | .vsub t g vd va vb => some (t, encVec 0x01 g 0 vd.toNat va.toNat vb.toNat 0 0 0 0 0)
  | .vmul t g vd va vb => some (t, encVec 0x02 g 0 vd.toNat va.toNat vb.toNat 0 0 0 0 0)
  | .vfma t g vd va vb vc => some (t, encVec 0x03 g 0 vd.toNat va.toNat vb.toNat vc.toNat 0 0 0 0)
  | .vmin t g vd va vb => some (t, encVec 0x04 g 0 vd.toNat va.toNat vb.toNat 0 0 0 0 0)
  | .vmax t g vd va vb => some (t, encVec 0x05 g 0 vd.toNat va.toNat vb.toNat 0 0 0 0 0)
  | .vcmp t g cond pd va vb => some (t, encVec 0x06 g cond.toNat 0 va.toNat vb.toNat 0 pd.toNat 0 0 0)
  | .vsel t g vd va vb pd => some (t, encVec 0x07 g 0 vd.toNat va.toNat vb.toNat 0 pd.toNat 0 0 0)
  | .vld t g vd sx ds => some (t, encVec 0x08 g 0 vd.toNat 0 0 0 0 sx.toNat ds.toNat 0)
  | .vst t g rnd va sx ds => some (t, encVec 0x09 g (2 * rnd.toNat) 0 va.toNat 0 0 0 sx.toNat ds.toNat 0)
  | .vbcast t g vd sx => some (t, encVec 0x0A g 0 vd.toNat 0 0 0 0 sx.toNat 0 0)
  | .vred t g op va sx => some (t, encVec 0x0B g op.toNat 0 va.toNat 0 0 0 sx.toNat 0 0)
  | .vstat t g vd sx ds => some (t, encVec 0x0C g 0 vd.toNat 0 0 0 0 sx.toNat ds.toNat 0)
  | .vcvt t g rnd vd va fmt => some (t, encVec 0x0D g (2 * rnd.toNat) vd.toNat va.toNat 0 0 0 0 0 fmt.toNat)
  | .exp2 t g k1 vd va => some (t, encSfu 0x00 g k1 vd va)
  | .exp t g k1 vd va => some (t, encSfu 0x01 g k1 vd va)
  | .log2 t g k1 vd va => some (t, encSfu 0x02 g k1 vd va)
  | .rcp t g k1 vd va => some (t, encSfu 0x03 g k1 vd va)
  | .rsqrt t g k1 vd va => some (t, encSfu 0x04 g k1 vd va)
  | .sigmoid t g k1 vd va => some (t, encSfu 0x05 g k1 vd va)
  | .tanh t g k1 vd va => some (t, encSfu 0x06 g k1 vd va)
  | .gelu t g k1 vd va => some (t, encSfu 0x07 g k1 vd va)
  | .silu t g k1 vd va => some (t, encSfu 0x08 g k1 vd va)
  | .softplus t g k1 vd va => some (t, encSfu 0x09 g k1 vd va)
  | .erf t g k1 vd va => some (t, encSfu 0x0A g k1 vd va)
  | .sin t g k1 vd va => some (t, encSfu 0x0B g k1 vd va)
  | .cos t g k1 vd va => some (t, encSfu 0x0C g k1 vd va)
  | .ante t g phase density durK =>
    some (t, slotWord 7 0x00 g 0 (at_ 104 phase.toNat + at_ 97 density.toNat + at_ 77 durK.toNat))
  | .trace t g tag sx => some (t, slotWord 7 0x01 g 0 (at_ 96 tag.toNat + at_ 91 sx.toNat))
  | .cntrd t g sx sel => some (t, slotWord 7 0x02 g 0 (at_ 107 sx.toNat + at_ 99 sel.toNat))
  | _ => none

/-- The slot of a tile instruction as a word. -/
def slotOf (i : Instr) : Slot :=
  match encodeSlot i with
  | some p => p.2
  | none => 0

end Sys2Proof.Machine
end

