-- ==== Sys2Proof/Config.lean ====
section
/-!
DEFINITION. Config.lean: what the spec leaves open: free values, fused values, and functions of the standards it names.
-/

namespace Sys2Proof

/-- Free values: the value at each use, by the model's own counter `State.freeCtr` (log entries 3 and 11). -/
opaque Config.freeWord : Nat → W64

/-- Free bytes of a region left undefined: by draw and by position (log entry 11). -/
opaque Config.freeByte : Nat → Nat → Byte

/-- A decoded sample of the decoding process of a codec's standard (R319, R321): by codec, the access units since the
stream was opened, the picture's number, plane, column and row (log entry 14). -/
opaque Config.sample : Nat → List (List Byte) → Nat → Nat → Nat → Nat → Nat

/-- What that process says of a block of a picture (R336): by codec, access units, picture and record (log entry 14). -/
opaque Config.blockStat : Nat → List (List Byte) → Nat → Nat → W64

/-- Early allowance of a far peer's port, in units of 4,096 B, as it states it (R372). -/
opaque Config.farAllowance : Nat → Nat

end Sys2Proof
end

