-- ==== Sys2Proof/Machine/Codes.lean ====
section
/-!
DEFINITION. Machine/Codes.lean: the error codes of every class (R7; R70, R94, R134, R206, R317, R340, R359, R390, R426,
R449, R471, R489) and the severity rule (R508).
-/

namespace Sys2Proof.Machine

def Codes.dealVersion : Code := 0x0101#16
def Codes.dealType : Code := 0x0102#16
def Codes.dealField : Code := 0x0103#16
def Codes.boundSource : Code := 0x0104#16
def Codes.boundExceeds : Code := 0x0105#16
def Codes.shapeEmpty : Code := 0x0106#16
def Codes.addrWindow : Code := 0x0107#16
def Codes.alignStack : Code := 0x0108#16
def Codes.alignScratch : Code := 0x0109#16
def Codes.bufFit : Code := 0x010A#16
def Codes.bufOverlap : Code := 0x010B#16
def Codes.descCount : Code := 0x010C#16
def Codes.accOvercommit : Code := 0x010D#16
def Codes.stashBudget : Code := 0x010E#16
def Codes.pageListLength : Code := 0x010F#16
def Codes.seCount : Code := 0x0110#16
def Codes.isaVersion : Code := 0x0141#16
def Codes.isaGen3Opcode : Code := 0x0142#16
def Codes.isaUndefined : Code := 0x0143#16
def Codes.isaReserved : Code := 0x0144#16
def Codes.isaFieldRange : Code := 0x0145#16
def Codes.isaPcRange : Code := 0x0146#16
def Codes.isaLoopDepth : Code := 0x0147#16
def Codes.isaDescInvalid : Code := 0x0148#16
def Codes.isaDescType : Code := 0x0149#16
def Codes.isaFormat : Code := 0x014A#16
def Codes.isaTranspose : Code := 0x014B#16
def Codes.isaAccRange : Code := 0x014C#16
def Codes.isaMisalign : Code := 0x014D#16
def Codes.isaAddrRange : Code := 0x014E#16
def Codes.isaSignalTarget : Code := 0x014F#16
def Codes.isaCtxUnbound : Code := 0x0150#16
def Codes.isaWaitTimeout : Code := 0x0151#16
def Codes.isaTrap : Code := 0x0152#16
def Codes.precisionFlag : Code := 0x0201#16
def Codes.precisionStorm : Code := 0x0202#16
def Codes.precisionLogFull : Code := 0x0203#16
def Codes.pageIndex : Code := 0x0301#16
def Codes.pageNone : Code := 0x0302#16
def Codes.pageRange : Code := 0x0303#16
def Codes.pageNotResident : Code := 0x0304#16
def Codes.seqRecord : Code := 0x0305#16
def Codes.seqConflict : Code := 0x0306#16
def Codes.ctxNotOwned : Code := 0x0307#16
def Codes.appendCommitted : Code := 0x0308#16
def Codes.appendUnbacked : Code := 0x0309#16
def Codes.verifyPaused : Code := 0x030A#16
def Codes.seqPaused : Code := 0x030B#16
def Codes.seqDeferred : Code := 0x030C#16
def Codes.memUncorrectable : Code := 0x0401#16
def Codes.memWindow : Code := 0x0402#16
def Codes.memUnmapped : Code := 0x0403#16
def Codes.seCommand : Code := 0x0404#16
def Codes.memObject : Code := 0x0405#16
def Codes.memNoFrames : Code := 0x0406#16
def Codes.flashFull : Code := 0x0407#16
def Codes.flashUncorrectable : Code := 0x0408#16
def Codes.flashWorn : Code := 0x0409#16
def Codes.flashDevice : Code := 0x040A#16
def Codes.ftlRecovered : Code := 0x040B#16
def Codes.ftlJournalLost : Code := 0x040C#16
def Codes.memCeThreshold : Code := 0x040D#16
def Codes.channelMappedOut : Code := 0x040E#16
def Codes.marginFail : Code := 0x040F#16
def Codes.hostNotResident : Code := 0x0410#16
def Codes.stashFull : Code := 0x0411#16
def Codes.stashExhausted : Code := 0x0412#16
def Codes.stashAccess : Code := 0x0413#16
def Codes.stashLayout : Code := 0x0414#16
def Codes.updateDesc : Code := 0x0415#16
def Codes.frameRetired : Code := 0x0416#16
def Codes.flashGoverned : Code := 0x0417#16
def Codes.linkVersion : Code := 0x0501#16
def Codes.linkMiswired : Code := 0x0502#16
def Codes.linkRankUnset : Code := 0x0503#16
def Codes.linkRetrain : Code := 0x0504#16
def Codes.linkFailed : Code := 0x0505#16
def Codes.linkFailover : Code := 0x0506#16
def Codes.linkPeerLost : Code := 0x0507#16
def Codes.linkAuth : Code := 0x0508#16
def Codes.linkSessionLost : Code := 0x0509#16
def Codes.linkFiltered : Code := 0x050A#16
def Codes.linkPlaintext : Code := 0x050B#16
def Codes.linkMarginFail : Code := 0x050C#16
def Codes.misdeal : Code := 0x0601#16
def Codes.colTimeout : Code := 0x0602#16
def Codes.colQuorum : Code := 0x0603#16
def Codes.colExcluded : Code := 0x0604#16
def Codes.colDiscard : Code := 0x0605#16
def Codes.twinDiverged : Code := 0x0606#16
def Codes.twinLost : Code := 0x0607#16
def Codes.colDesc : Code := 0x0608#16
def Codes.colPath : Code := 0x0609#16
def Codes.colMemberFault : Code := 0x060A#16
def Codes.colRootLost : Code := 0x060B#16
def Codes.schedRingConfig : Code := 0x0701#16
def Codes.schedRingOverflow : Code := 0x0702#16
def Codes.schedNotOwner : Code := 0x0703#16
def Codes.schedEntry : Code := 0x0704#16
def Codes.schedEntryVersion : Code := 0x0705#16
def Codes.schedDesc : Code := 0x0706#16
def Codes.schedNoPartition : Code := 0x0707#16
def Codes.schedTooLarge : Code := 0x0708#16
def Codes.schedNoBound : Code := 0x0709#16
def Codes.schedLcCapacity : Code := 0x070A#16
def Codes.schedTwinAbsent : Code := 0x070B#16
def Codes.schedCancelled : Code := 0x070C#16
def Codes.schedNoJob : Code := 0x070D#16
def Codes.schedPartition : Code := 0x070E#16
def Codes.schedSaveSpace : Code := 0x070F#16
def Codes.schedSwapped : Code := 0x0710#16
def Codes.schedAged : Code := 0x0711#16
def Codes.schedPreemptLate : Code := 0x0712#16
def Codes.gradeUnholdable : Code := 0x0801#16
def Codes.gradeNoCommon : Code := 0x0802#16
def Codes.pwrCeiling : Code := 0x0803#16
def Codes.thermalThrottle : Code := 0x0804#16
def Codes.thermalTrip : Code := 0x0805#16
def Codes.droopStorm : Code := 0x0806#16
def Codes.powerFail : Code := 0x0807#16
def Codes.pwrFloorOver : Code := 0x0808#16
def Codes.pwrCalibration : Code := 0x0809#16
def Codes.pwrCapRange : Code := 0x080A#16
def Codes.inputRange : Code := 0x080B#16
def Codes.fwFormat : Code := 0x0901#16
def Codes.fwKeyRevoked : Code := 0x0902#16
def Codes.fwSignature : Code := 0x0903#16
def Codes.fwRollback : Code := 0x0904#16
def Codes.fwComponent : Code := 0x0905#16
def Codes.fwNoValidImage : Code := 0x0906#16
def Codes.fwBusy : Code := 0x0907#16
def Codes.secCert : Code := 0x0908#16
def Codes.secBudgetClamped : Code := 0x0909#16
def Codes.codecDesc : Code := 0x0A01#16
def Codes.codecStreamLimit : Code := 0x0A02#16
def Codes.codecUnsupported : Code := 0x0A03#16
def Codes.codecPoolSmall : Code := 0x0A04#16
def Codes.codecConcealed : Code := 0x0A05#16
def Codes.codecDiscarded : Code := 0x0A06#16
def Codes.codecLogFull : Code := 0x0A07#16
def Codes.codecOutputOverflow : Code := 0x0A08#16
def Codes.codecInput : Code := 0x0A09#16
def Codes.badRegAccess : Code := 0x0B01#16
def Codes.bootComplete : Code := 0x0B02#16
def Codes.bootStageTimeout : Code := 0x0B03#16
def Codes.bistFail : Code := 0x0B04#16
def Codes.dieReset : Code := 0x0B05#16
def Codes.dieWatchdog : Code := 0x0B06#16
def Codes.deviceReset : Code := 0x0B07#16
def Codes.calInvalid : Code := 0x0B08#16
def Codes.calClamped : Code := 0x0B09#16
def Codes.calRejected : Code := 0x0B0A#16
def Codes.testDone : Code := 0x0B0B#16
def Codes.testFailed : Code := 0x0B0C#16
def Codes.testAborted : Code := 0x0B0D#16
def Codes.testQueueFull : Code := 0x0B0E#16
def Codes.logOverrun : Code := 0x0B0F#16

/-- R508, first line: codes that carry severity 2 in every record. -/
def Codes.deviceCodes : List Code :=
  [Codes.bootStageTimeout, Codes.bistFail, Codes.dieReset, Codes.dieWatchdog, Codes.deviceReset, Codes.thermalTrip,
   Codes.powerFail, Codes.fwNoValidImage, Codes.linkFailed, Codes.memUncorrectable, Codes.flashUncorrectable,
   Codes.flashWorn, Codes.ftlJournalLost]

/-- Severity of a record (R508): `jobFaults` says that it reports a job faulting, being cancelled or being refused. -/
def severity (code : Code) (jobFaults : Bool) : Nat :=
  if Codes.deviceCodes.contains code then 2 else if jobFaults then 1 else 0

end Sys2Proof.Machine
end

