-- ==== Sys2Proof/Machine/Float.lean ====
section
/-!
DEFINITION. Machine/Float.lean: exact binary values and their roundings (R104, R105, R113, R114, R116).
-/

namespace Sys2Proof.Machine

/-- An exact value: NaN, an infinity, or (-1)^neg * m * 2^e with the sign of a zero kept. -/
inductive FV where
  | nan
  | inf (neg : Bool)
  | fin (neg : Bool) (m : Nat) (e : Int)
  deriving DecidableEq, Repr

/-- A magnitude num / den * 2^e, den > 0. -/
structure Mag where
  num : Nat
  den : Nat
  e   : Int
  deriving DecidableEq, Repr

/-- How a conversion rounds (R113): to nearest even, or with the 16 random bits of R114. -/
inductive Rnd where
  | rne
  | sr (r : Nat)
  deriving DecidableEq, Repr

/-- An element encoding with sign, exponent and mantissa: its width, mantissa bits, exponent bias, the code of its
largest finite magnitude, the code of infinity where it has one, and the canonical NaN (R104, R105, R107). -/
structure FloatEnc where
  bits    : Nat
  mb      : Nat
  bias    : Nat
  maxCode : Nat
  infCode : Option Nat
  nanCode : Nat
  deriving DecidableEq, Repr

def encFp32 : FloatEnc := ⟨32, 23, 127, 0x7F7FFFFF, some 0x7F800000, 0x7FC00000⟩
def encBf16 : FloatEnc := ⟨16, 7, 127, 0x7F7F, some 0x7F80, 0x7FC0⟩
def encFp16 : FloatEnc := ⟨16, 10, 15, 0x7BFF, some 0x7C00, 0x7E00⟩
def encE4m3 : FloatEnc := ⟨8, 3, 7, 0x7E, none, 0x7F⟩
def encE5m2 : FloatEnc := ⟨8, 2, 15, 0x7B, some 0x7C, 0x7F⟩
def encE2m1 : FloatEnc := ⟨4, 1, 1, 0x7, none, 0x7⟩
def encE2m3 : FloatEnc := ⟨6, 3, 1, 0x1F, none, 0x1F⟩
def encE3m2 : FloatEnc := ⟨6, 2, 3, 0x1F, none, 0x1F⟩

/-- Exponent of the last place of the smallest binade. -/
def FloatEnc.qmin (f : FloatEnc) : Int := 1 - (f.bias : Int) - (f.mb : Int)

/-- The exact value of a code. -/
def FloatEnc.decode (f : FloatEnc) (x : Nat) : FV :=
  let half := 2 ^ (f.bits - 1)
  let neg := decide (half ≤ x % (2 * half))
  let mag := x % half
  if mag ≤ f.maxCode then
    let ef := mag / 2 ^ f.mb
    if ef = 0 then .fin neg mag f.qmin
    else .fin neg (2 ^ f.mb + mag % 2 ^ f.mb) (f.qmin + (ef : Int) - 1)
  else if f.infCode = some mag then .inf neg
  else .nan

/-- num/den * 2^e as a quotient of naturals. -/
def Mag.frac (v : Mag) (q : Int) : Nat × Nat :=
  let s := v.e - q
  if 0 ≤ s then (v.num * 2 ^ s.toNat, v.den) else (v.num, v.den * 2 ^ (-s).toNat)

/-- floor(log2 v) of a nonzero magnitude. -/
def Mag.log2 (v : Mag) : Int :=
  let k : Int := (Nat.log2 v.num : Int) - (Nat.log2 v.den : Int)
  let f := Mag.frac ⟨v.num, v.den, 0⟩ k
  (if f.1 < f.2 then k - 1 else k) + v.e

/-- Rounds `n/d` to an integer: to nearest even, or upward when the random bits lie below the fraction (R114). -/
def roundQuot (r : Rnd) (n d : Nat) : Nat :=
  let m := n / d
  let rem := n % d
  match r with
  | .rne => if d < 2 * rem ∨ (2 * rem = d ∧ m % 2 = 1) then m + 1 else m
  | .sr x => if x < rem * 65536 / d then m + 1 else m

/-- The code of a magnitude rounded in an encoding of `mb` mantissa bits with last place 2^qmin, before any overflow
rule; `maxCode` bounds stochastic rounding (R114: at the largest finite magnitude it is nearest even). Codes rise with
the magnitude, so that a code above `maxCode` is an overflow; far below 2^qmin every rounding gives 0. -/
def roundCode (mb : Nat) (qmin : Int) (maxCode : Nat) (r : Rnd) (v : Mag) : Nat :=
  if v.num = 0 ∨ v.log2 + 32 < qmin then 0
  else
    let q := max (v.log2 - (mb : Int)) qmin
    let f := v.frac q
    let off := (q - qmin).toNat * 2 ^ mb
    let lo := f.1 / f.2 + off
    let r' := if maxCode ≤ lo then .rne else r
    roundQuot r' f.1 f.2 + off

/-- Puts a sign on a magnitude code. -/
def FloatEnc.signed (f : FloatEnc) (neg : Bool) (code : Nat) : Nat :=
  if neg then code + 2 ^ (f.bits - 1) else code

/-- Code of an overflow: infinity for FP32, BF16 and FP16, the largest finite magnitude for the FP8 encodings (R113). -/
def FloatEnc.overflow (f : FloatEnc) : Nat :=
  if f.bits ≤ 8 then f.maxCode else f.infCode.getD f.maxCode

/-- Rounds a signed magnitude into an encoding (R113). -/
def FloatEnc.ofMag (f : FloatEnc) (r : Rnd) (neg : Bool) (v : Mag) : Nat :=
  let c := roundCode f.mb f.qmin f.maxCode r v
  f.signed neg (if f.maxCode < c then f.overflow else c)

/-- Rounds an exact value into an encoding (R113). -/
def FloatEnc.encode (f : FloatEnc) (r : Rnd) : FV → Nat
  | .nan => f.nanCode
  | .inf neg => f.signed neg (f.infCode.getD f.maxCode)
  | .fin neg m e => f.ofMag r neg ⟨m, 1, e⟩

namespace FV

def isNaN : FV → Bool
  | .nan => true
  | _ => false

def isZero : FV → Bool
  | .fin _ m _ => m = 0
  | _ => false

def isNeg : FV → Bool
  | .nan => false
  | .inf n => n
  | .fin n _ _ => n

/-- The signed mantissa of a finite value. -/
def smant (neg : Bool) (m : Nat) : Int := if neg then -(m : Int) else m

def neg : FV → FV
  | .nan => .nan
  | .inf n => .inf (!n)
  | .fin n m e => .fin (!n) m e

def abs : FV → FV
  | .nan => .nan
  | .inf _ => .inf false
  | .fin _ m e => .fin false m e

/-- Exact product; zero times infinity is NaN (R116). -/
def mul : FV → FV → FV
  | .nan, _ => .nan
  | _, .nan => .nan
  | .inf a, .inf b => .inf (a != b)
  | .inf a, .fin b m _ => if m = 0 then .nan else .inf (a != b)
  | .fin a m _, .inf b => if m = 0 then .nan else .inf (a != b)
  | .fin a m e, .fin b n f => .fin (a != b) (m * n) (e + f)

/-- Exact sum; opposite infinities give NaN, an exact zero is +0 unless both terms are -0 (R116, IEEE 754). -/
def add : FV → FV → FV
  | .nan, _ => .nan
  | _, .nan => .nan
  | .inf a, .inf b => if a = b then .inf a else .nan
  | .inf a, .fin _ _ _ => .inf a
  | .fin _ _ _, .inf b => .inf b
  | .fin a m e, .fin b n f =>
    if m = 0 ∧ n = 0 then .fin (a && b) 0 0
    else if m = 0 then .fin b n f
    else if n = 0 then .fin a m e
    else
      let q := min e f
      let x : Int := smant a m * (2 ^ (e - q).toNat : Nat) + smant b n * (2 ^ (f - q).toNat : Nat)
      .fin (decide (x < 0)) x.natAbs q

def sub (a b : FV) : FV := add a (neg b)

/-- Multiplies by 2^k exactly. -/
def scale (k : Int) : FV → FV
  | .fin n m e => .fin n m (e + k)
  | x => x

/-- Exact sum of a list, left to right; the empty sum is +0. -/
def sum : List FV → FV
  | [] => .fin false 0 0
  | x :: xs => xs.foldl add x

/-- Ordering of two values that are not NaN: -1, 0 or 1; both zeros are equal. -/
def cmp : FV → FV → Int
  | .nan, _ => 0
  | _, .nan => 0
  | .inf a, .inf b => if a = b then 0 else if a then -1 else 1
  | .inf a, .fin _ _ _ => if a then -1 else 1
  | .fin _ _ _, .inf b => if b then 1 else -1
  | .fin a m e, .fin b n f =>
    let q := min e f
    let x : Int := smant a m * (2 ^ (e - q).toNat : Nat) - smant b n * (2 ^ (f - q).toNat : Nat)
    if x < 0 then -1 else if x = 0 then 0 else 1

end FV

/-- The exact value of an FP32 pattern. -/
def val32 (x : W32) : FV := encFp32.decode x.toNat

/-- FP32 by round to nearest even. -/
def to32 (v : FV) : W32 := BitVec.ofNat 32 (encFp32.encode .rne v)

/-- FP32 of a signed quotient n/d * 2^e by round to nearest even. -/
def quot32 (neg : Bool) (n d : Nat) (e : Int) : W32 := BitVec.ofNat 32 (encFp32.ofMag .rne neg ⟨n, d, e⟩)

/-- The canonical NaN of FP32 (R104). -/
def nan32 : W32 := 0x7FC00000#32

def inf32 : W32 := 0x7F800000#32

def negInf32 : W32 := 0xFF800000#32

def isNaN32 (x : W32) : Bool := (val32 x).isNaN

def fadd (a b : W32) : W32 := to32 ((val32 a).add (val32 b))
def fsub (a b : W32) : W32 := to32 ((val32 a).sub (val32 b))
def fmul (a b : W32) : W32 := to32 ((val32 a).mul (val32 b))
/-- a * b + c with one rounding. -/
def ffma (a b c : W32) : W32 := to32 (((val32 a).mul (val32 b)).add (val32 c))

/-- FP32 value of an integer. -/
def intTo32 (x : Int) : W32 := to32 (.fin (decide (x < 0)) x.natAbs 0)

/-- a / b rounded once (IEEE 754 division). -/
def fdiv (a b : W32) : W32 :=
  match val32 a, val32 b with
  | .nan, _ => nan32
  | _, .nan => nan32
  | .inf _, .inf _ => nan32
  | .inf x, .fin y _ _ => to32 (.inf (x != y))
  | .fin x _ _, .inf y => to32 (.fin (x != y) 0 0)
  | .fin x m e, .fin y n f =>
    if n = 0 then (if m = 0 then nan32 else to32 (.inf (x != y)))
    else quot32 (x != y) m n (e - f)

/-- R114: the 16 random bits of an element, from the job's seed and where it is written. -/
def srBits (seed : W64) (space : Nat) (bitaddr : Nat) : Nat :=
  let x0 : W64 := seed ^^^ (BitVec.ofNat 64 space <<< 56) ^^^ BitVec.ofNat 64 bitaddr
  let x1 := (x0 ^^^ (x0 >>> 30)) * 0xBF58476D1CE4E5B9#64
  let x2 := (x1 ^^^ (x1 >>> 27)) * 0x94D049BB133111EB#64
  let x3 := x2 ^^^ (x2 >>> 31)
  (x3 >>> 48).toNat

end Sys2Proof.Machine
end

