-- ==== Sys2Proof/Machine/Formats.lean ====
section
/-!
DEFINITION. Machine/Formats.lean: element formats, block quantisation and conversion (R44, R53, R101, R105 to R113).
-/

namespace Sys2Proof.Machine

/-- How the elements of a format are encoded (Table 7 of 02, Table 2 of 04). -/
inductive ElemEnc where
  | flt (f : FloatEnc)
  /-- Two's complement, worth q * 2^-(w-2) (R107). -/
  | frac (w : Nat)
  | kb1
  /-- Signed integer of `w` bits. -/
  | sint (w : Nat)
  /-- Unsigned integer of `w` bits. -/
  | uint (w : Nat)
  deriving DecidableEq, Repr

/-- Encoding of each assigned FMT code (Table 7 of 02). -/
def fmtEnc (fmt : Nat) : Option ElemEnc :=
  match fmt with
  | 0x00 => some (.flt encFp32)
  | 0x01 => some (.flt encBf16)
  | 0x02 => some (.flt encFp16)
  | 0x03 => some (.flt encE4m3)
  | 0x04 => some (.flt encE5m2)
  | 0x05 => some (.sint 32)
  | 0x06 => some (.sint 8)
  | 0x07 => some (.uint 32)
  | 0x10 => some .kb1
  | 0x11 => some (.frac 2)
  | 0x12 => some (.frac 3)
  | 0x13 => some (.frac 4)
  | 0x14 => some (.flt encE2m1)
  | 0x15 => some (.frac 5)
  | 0x16 => some (.frac 6)
  | 0x17 => some (.flt encE2m3)
  | 0x18 => some (.flt encE3m2)
  | 0x19 => some (.frac 7)
  | 0x1A => some (.frac 8)
  | 0x1B => some (.flt encE4m3)
  | 0x1C => some (.flt encE5m2)
  | 0x20 => some (.flt encE4m3)
  | 0x21 => some (.flt encE5m2)
  | 0x22 => some (.flt encE2m3)
  | 0x23 => some (.flt encE3m2)
  | 0x24 => some (.flt encE2m1)
  | 0x25 => some (.frac 8)
  | _ => none

/-- Bits per element of an encoding. -/
def ElemEnc.width : ElemEnc → Nat
  | .flt f => f.bits
  | .frac w => w
  | .kb1 => 1
  | .sint w => w
  | .uint w => w

/-- Bits per element of a format (Table 7 of 02); 0 for an unassigned code. -/
def fmtBits (fmt : Nat) : Nat :=
  match fmtEnc fmt with
  | some e => e.width
  | none => 0

/-- The format is a Kremor block format. -/
def fmtKremor (fmt : Nat) : Bool := decide (0x10 ≤ fmt ∧ fmt ≤ 0x1C)

/-- The format is an MX format (R44). -/
def fmtMx (fmt : Nat) : Bool := decide (0x20 ≤ fmt ∧ fmt ≤ 0x25)

/-- The format has block scales. -/
def fmtScaled (fmt : Nat) : Bool := fmtKremor fmt || fmtMx fmt

/-- INT32, INT8 or UINT32 (R53). -/
def fmtInt (fmt : Nat) : Bool := decide (0x05 ≤ fmt ∧ fmt ≤ 0x07)

/-- The Kremor format of the same element encoding as an MX format (Table 3 of 04); other codes as they are. -/
def mxPair (fmt : Nat) : Nat :=
  match fmt with
  | 0x20 => 0x1B
  | 0x21 => 0x1C
  | 0x22 => 0x17
  | 0x23 => 0x18
  | 0x24 => 0x14
  | 0x25 => 0x1A
  | f => f

/-- Block length (R42). -/
def blockLen (fine : Bool) : Nat := if fine then 16 else 32

/-- Lane width (R101); 16 stands for BF16 and FP16, 32 for FP32. -/
def laneWidth (fmt : Nat) : Nat :=
  let b := fmtBits fmt
  if b ≤ 2 then b else if b ≤ 4 then 4 else b.max 8

/-- Array cycles per K element times 8, for the wider lane width (Table 1 of 04, Table 16 of 02). -/
def cpe8 (lane : Nat) : Nat :=
  if lane ≤ 8 then lane else if lane = 16 then 16 else 48

/-- Largest K of one MMA (Table 16 of 02). -/
def kMax (lane : Nat) : Nat :=
  match lane with
  | 1 => 524288
  | 2 => 262144
  | 4 => 131072
  | 8 => 65536
  | 16 => 32768
  | _ => 10922

/-- Two's complement value of the low `w` bits. -/
def sintVal (w x : Nat) : Int :=
  let y := x % 2 ^ w
  if y < 2 ^ (w - 1) then y else (y : Int) - (2 ^ w : Nat)

/-- Two's complement bits of an integer. -/
def sintBits (w : Nat) (x : Int) : Nat := (x % (2 ^ w : Nat)).toNat

/-- Exact value of an element's bits, its block scale apart. -/
def ElemEnc.decode (e : ElemEnc) (x : Nat) : FV :=
  match e with
  | .flt f => f.decode x
  | .frac w => let q := sintVal w x; .fin (decide (q < 0)) q.natAbs (-((w : Int) - 2))
  | .kb1 => .fin (decide (x % 2 = 1)) 1 0
  | .sint w => let q := sintVal w x; .fin (decide (q < 0)) q.natAbs 0
  | .uint w => .fin false (x % 2 ^ w) 0

/-- Exact value of an element: its bits and, in a format with scales, its block's scale code (R106). -/
def decodeElem (fmt raw scale : Nat) : FV :=
  match fmtEnc fmt with
  | none => .nan
  | some e =>
    if fmtScaled fmt then
      if scale = 0xFF then .nan else (e.decode raw).scale ((scale : Int) - 127)
    else e.decode raw

/-- Largest element magnitude (maxv of Table 2 of 04). -/
def ElemEnc.maxv : ElemEnc → Mag
  | .flt f =>
    match f.decode f.maxCode with
    | .fin _ m e => ⟨m, 1, e⟩
    | _ => ⟨0, 1, 0⟩
  | .frac w => ⟨2 ^ (w - 1) - 1, 1, -((w : Int) - 2)⟩
  | .kb1 => ⟨1, 1, 0⟩
  | .sint w => ⟨2 ^ (w - 1) - 1, 1, 0⟩
  | .uint w => ⟨2 ^ w - 1, 1, 0⟩

/-- Clamps a scale exponent to a code 0 to 254 (R109, R110). -/
def clampCode (e : Int) : Nat :=
  if e + 127 < 0 then 0 else if 254 < e + 127 then 254 else (e + 127).toNat

/-- The smallest e with m * 2^k ≤ maxv * 2^e (R109, step 4). -/
def fitExp (m : Nat) (k : Int) (mx : Mag) : Int :=
  let v : Mag := ⟨m * mx.den, mx.num, k - mx.e⟩
  let l := v.log2
  let f := v.frac l
  if f.1 = f.2 then l else l + 1

/-- The larger of two magnitudes, infinities included; NaN never reaches it. -/
def maxMag (a b : FV) : FV := if FV.cmp a.abs b.abs < 0 then b.abs else a.abs

/-- Scale code of a block that holds no NaN, for every format but KB1 (R109). -/
def scaleCode (e : ElemEnc) (xs : List FV) : Nat :=
  match xs.foldl maxMag (.fin false 0 0) with
  | .fin _ m k => if m = 0 then 0 else clampCode (fitExp m k e.maxv)
  | _ => 254

/-- Scale code of a KB1 block that holds no NaN (R110). -/
def scaleCodeKb1 (xs : List FV) : Nat :=
  let s := xs.foldl (fun acc x => fadd acc (to32 x.abs)) 0#32
  match val32 s with
  | .fin _ m k =>
    if m = 0 then 0
    else
      let v : Mag := ⟨m, xs.length, k⟩
      let e := v.log2
      let f := v.frac e
      -- f >= 1.4142135, the FP32 value 0x3FB504F3 = 11863283 * 2^-23
      clampCode (if 11863283 * f.2 ≤ f.1 * 2 ^ 23 then e + 1 else e)
  | _ => 254

/-- One quantised block: its scale code, element bits and counts (R112). -/
structure QBlock where
  code  : Nat
  elems : List Nat
  sat   : Nat
  zero  : Nat
  nan   : Bool
  deriving DecidableEq, Repr

/-- One element of a block: its bits and whether it saturated and was zeroed (R111, R112). -/
structure QElem where
  bits : Nat
  sat  : Bool
  zero : Bool
  deriving DecidableEq, Repr

/-- Bits of ±maxv. -/
def ElemEnc.maxBits (e : ElemEnc) (neg : Bool) : Nat :=
  match e with
  | .flt f => f.signed neg f.maxCode
  | .frac w => sintBits w (if neg then -((2 ^ (w - 1) - 1 : Nat) : Int) else (2 ^ (w - 1) - 1 : Nat))
  | _ => 0

/-- The magnitude n/d * 2^e exceeds another. -/
def Mag.gt (a b : Mag) : Bool :=
  let q := min a.e b.e
  decide (b.num * a.den * 2 ^ (b.e - q).toNat < a.num * b.den * 2 ^ (a.e - q).toNat)

/-- Quantises one element of a block with scale code `code` (R111, R112). -/
def quantElem (e : ElemEnc) (code : Nat) (r : Rnd) (x : FV) : QElem :=
  match e, x with
  | .kb1, x =>
    let big := match x with
      | .inf _ => true
      | .fin _ m k => decide (m ≠ 0) && !(Mag.gt ⟨1, 1, (code : Int) - 126⟩ ⟨m, 1, k⟩)
      | .nan => false
    ⟨if x.isNeg && !x.isZero then 1 else 0, big, false⟩
  | _, .nan => ⟨0, false, false⟩
  | .flt f, .inf n =>
    match f.infCode with
    | some c => ⟨f.signed n c, false, false⟩
    | none => ⟨e.maxBits n, true, false⟩
  | _, .inf n => ⟨e.maxBits n, true, false⟩
  | _, .fin n m k =>
    let v : Mag := ⟨m, 1, k - ((code : Int) - 127)⟩
    if v.gt e.maxv then ⟨e.maxBits n, true, false⟩
    else
      let bits := match e with
        | .flt f =>
          let c := roundCode f.mb f.qmin f.maxCode r v
          if c = 0 then 0 else f.signed n (min c f.maxCode)
        | .frac w =>
          let c := roundCode 64 (-((w : Int) - 2)) (2 ^ (w - 1) - 1) r v
          sintBits w (if n then -(min c (2 ^ (w - 1) - 1) : Int) else (min c (2 ^ (w - 1) - 1) : Nat))
        | _ => 0
      ⟨bits, false, decide (m ≠ 0 ∧ bits = 0)⟩

/-- Quantises one block: the elements that the instruction writes, each with its rounding (R109 to R112). -/
def quantBlock (fmt : Nat) (xs : List (FV × Rnd)) : QBlock :=
  match fmtEnc fmt with
  | none => ⟨0, [], 0, 0, false⟩
  | some e =>
    let vs := xs.map Prod.fst
    if vs.any FV.isNaN then ⟨0xFF, xs.map (fun _ => 0), 0, 0, true⟩
    else
      let code := match e with
        | .kb1 => scaleCodeKb1 vs
        | _ => scaleCode e vs
      let qs := xs.map (fun p => quantElem e code p.2 p.1)
      ⟨code, qs.map (·.bits), (qs.filter (·.sat)).length, (qs.filter (·.zero)).length, false⟩

/-- Element bits of a value in a format without scales (R113); an integer format takes the integer value saturated to
its range (R53). -/
def encodeElem (fmt : Nat) (r : Rnd) (x : FV) : Nat :=
  match fmtEnc fmt with
  | some (.flt f) => f.encode r x
  | some (.sint w) =>
    match x with
    | .fin n m _ =>
      let v := FV.smant n m
      let hi : Int := (2 ^ (w - 1) : Nat)
      sintBits w (if v < -hi then -hi else if hi - 1 < v then hi - 1 else v)
    | _ => 0
  | some (.uint w) =>
    match x with
    | .fin n m _ => if n then 0 else min m (2 ^ w - 1)
    | _ => 0
  | _ => 0

/-- Formats between which a conversion is defined (R53). -/
def convertible (src dst : Nat) : Bool := fmtInt src == fmtInt dst

end Sys2Proof.Machine
end

