-- ==== Sys2Proof/Machine/TileState.lean ====
section
/-!
DEFINITION. Machine/TileState.lean: the state of one tile and of one Dealer (Table 1 of 02; R74, R100, R119, R127,
R135, R160, R207, R267, R450).
-/

namespace Sys2Proof.Machine

/-- A sparse map: pairs in strictly rising key order, none equal to what an unlisted key reads as. -/
abbrev SMap (α : Type) := List (Nat × α)

/-- One loop-stack entry (R46). -/
structure LoopEnt where
  start : Nat
  stop  : Nat
  left  : Nat
  deriving DecidableEq, Repr

/-- What a tile is doing. -/
inductive TileRun where
  /-- No hand. -/
  | idle
  /-- Issues its next instruction when commanded. -/
  | running
  /-- A WAIT that has not completed (R47). -/
  | waitEvt (evt : Nat) (target : W32)
  /-- A BARRIER that has not completed (R49). -/
  | waitBar (bid : Nat)
  /-- A completed BARRIER, held for its release wave (R441). -/
  | held
  /-- HALT issued; outstanding DMAs remain (Table 8 of 02). -/
  | halting
  /-- Stopped by a fault (R72). -/
  | faulted
  /-- Stopped at an instruction boundary, for a save or because the job ends (R40, R413, R424). -/
  | stopped
  deriving DecidableEq, Repr

/-- State of an accumulator tile in quartered units (R119). -/
inductive AccState where
  | empty
  | plain
  | paired
  deriving DecidableEq, Repr

/-- A replay record (R127): descriptor registers, offsets and K as read at issue, mode and transpose bits. -/
structure ReplayRec where
  da : Nat
  dr : Nat
  sa : W64
  sb : W64
  k  : Nat
  quart : Bool
  transA : Bool
  transB : Bool
  db : Nat
  deriving DecidableEq, Repr

/-- History of an accumulator unit since its MZERO (R127). -/
structure AccHist where
  recs : List ReplayRec
  bad  : Bool
  deriving DecidableEq, Repr

/-- One accumulator tile of 128 columns: state, the history of the quartered tile, and of the full tile for unit 4i. -/
structure AccUnit where
  state : AccState
  quart : AccHist
  full  : AccHist
  deriving DecidableEq, Repr

/-- The binding of a context by ABIND (R62): window descriptor, K and V page lists, rotary flag, and L as of the bind. -/
structure Binding where
  win  : Desc
  kl   : Desc
  vl   : Desc
  rope : Bool
  len  : Nat
  deriving DecidableEq, Repr

inductive DmaKind where
  | copy (trans : Bool) (stoch : Bool)
  | gather
  | window
  deriving DecidableEq, Repr

/-- An outstanding DMA: what it was issued with (R35, R38). -/
structure DmaRec where
  kind : DmaKind
  slot : Nat
  evt  : Nat
  dst  : Desc
  src  : Desc
  par  : Desc
  so   : W64
  sd   : W64
  /-- Posted for a stack-engine command or waiting on a migration (R280, R415). -/
  waiting : Bool
  deriving DecidableEq, Repr

/-- An outstanding append (R187, R189): the tile's request to the stack engine. -/
structure AppendRec where
  slot  : Nat
  ctx   : Nat
  list  : Desc
  first : Nat
  head  : Nat
  /-- Rows of 128 FP32 values. -/
  rows  : List (List W32)
  deriving DecidableEq, Repr

/-- What a generated hand computes (R86): the record, its parameter block and piece runs as dealt, its bounds as read, and
the ordinal's run of units. -/
structure GenPlan where
  record : List Byte
  aux    : List Byte
  pieces : List (List (Nat × Nat))
  m : Nat
  n : Nat
  k : Nat
  ordinal : Nat
  ntiles  : Nat
  first   : Nat
  count   : Nat
  /-- The set of hands of an ATTN_BWD record (R204). -/
  set     : Nat
  density : Nat
  deriving DecidableEq, Repr

/-- The hand on a tile, with the registers latched at its start (R75, R123, R135). -/
structure Hand where
  id     : W64
  count  : Nat
  job    : Nat
  /-- Index of the deal record it comes from. -/
  record : Nat
  gen    : Option GenPlan
  waitLimit : W32
  thresh : W32
  rate   : Nat
  seed   : W64
  phase  : Nat
  /-- PRECISION_STORM has been reported (R132). -/
  storm  : Bool
  /-- Job is latency-critical. -/
  lc     : Bool
  deriving DecidableEq, Repr

/-- Summary counts (R121). -/
structure Sums where
  blocks : Nat
  sat    : Nat
  zero   : Nat
  flagged : Nat
  nan    : Nat
  replayed : Nat
  unreplayed : Nat
  deriving DecidableEq, Repr

/-- TILE.FAULT (Table 27 of 02). -/
structure FaultReg where
  handLo : W32
  valid  : Bool
  precise : Bool
  slot   : Nat
  code   : Code
  deriving DecidableEq, Repr

/-- Registers of a tile that the host reads or writes (R74, R135, R160, R207, R267, R450). -/
structure TileRegs where
  fault      : FaultReg
  waitLimit  : W32
  traceNext  : Nat
  /-- Records in the trace buffer, at most 256. -/
  traceCount : Nat
  traceWrap  : Bool
  thresh     : W32
  rate       : Nat
  seed       : W64
  phase      : Nat
  sums       : Sums
  compat     : Nat
  pairsIssued  : Nat
  pairsSkipped : Nat
  appendDropped : Nat
  degenerate : Nat
  deriving DecidableEq, Repr

/-- Power state of a tile: PWR.TILE and the limiter (R436 to R443). -/
structure TilePower where
  phase      : Nat
  phaseValid : Bool
  density    : Nat
  droops     : Nat
  tempC      : Nat
  budget     : Nat
  /-- Step of the soft-start ramp, none when no ramp runs (R442). -/
  ramp       : Option Nat
  suppressed : Bool
  throttled  : Bool
  deriving DecidableEq, Repr

structure TileSt where
  s    : SMap W64
  /-- Lane `i` of register `r` at key 512 r + i. -/
  v    : SMap W32
  p    : SMap (BitVec 512)
  d    : SMap Desc
  e    : SMap W32
  loops : List LoopEnt
  pc   : Nat
  ibuf : SMap Slot
  spad : SMap Byte
  /-- Row r, column c of full tile i at key (128 i + r) * 512 + c. -/
  acc  : SMap W32
  units : SMap AccUnit
  ctx  : SMap Binding
  run  : TileRun
  hand : Option Hand
  dmas : List DmaRec
  appends : List AppendRec
  trace : SMap (BitVec 128)
  /-- CNTRD counters 1 and 3 (R69). -/
  busy   : Nat
  issued : Nat
  regs : TileRegs
  pwr  : TilePower
  deriving DecidableEq, Repr

/-- One head context register of a Dealer, ATT.CTX_OWNER (R207). -/
structure CtxOwner where
  valid : Bool
  queue : Nat
  deriving DecidableEq, Repr

/-- ATT.CTX_HOLD (R195, R207): record held and the tiles that hold the context. -/
structure CtxHold where
  base  : Nat
  tiles : List Nat
  deriving DecidableEq, Repr

/-- The ATTN_BWD record that a deal queue has in hand: the set of hands that runs, and what every set is dealt with
(R99, R204). -/
structure DealInHand where
  set  : Nat
  plan : GenPlan
  deriving DecidableEq, Repr

/-- One deal queue (R76): its job, 0 when none, the stream's address and record count, the index of its head record. -/
structure DealQueue where
  job   : Nat
  addr  : Nat
  count : Nat
  next  : Nat
  mask  : Nat
  inHand : Option DealInHand
  /-- SYNC records reported to the runtime. -/
  syncs : Nat
  deriving DecidableEq, Repr

/-- DLR.REJECT (Table 9 of 03). -/
structure DlrReject where
  macroId : W32
  valid   : Bool
  tile    : Nat
  code    : Code
  deriving DecidableEq, Repr

/-- One Dealer with its die's attention contexts. -/
structure DealerSt where
  /-- Deal queues 0 to 11. -/
  queues : SMap DealQueue
  /-- Admission order of the latency-critical job, and number of the best-effort job, whose record was dealt last (R76). -/
  lastLc : Nat
  lastBe : Nat
  reject : DlrReject
  bound  : SMap (BitVec 24)
  owner  : SMap CtxOwner
  hold   : SMap CtxHold
  /-- Droop trips of the control interval and intervals of storm left (R443). -/
  trips  : Nat
  storm  : Nat
  deriving DecidableEq, Repr

def Sums.zeros : Sums := ⟨0, 0, 0, 0, 0, 0, 0⟩

def FaultReg.none : FaultReg := ⟨0, false, false, 0, 0⟩

/-- Reset values of Tables 26 to 29 of 02, 9 to 15 of 04 and of the VEC, ATT and WIN registers. -/
def TileRegs.init : TileRegs :=
  { fault := .none, waitLimit := 0x01000000#32, traceNext := 0, traceCount := 0, traceWrap := false,
    thresh := 0x00100401#32, rate := 4, seed := 0, phase := 0, sums := .zeros, compat := 0,
    pairsIssued := 0, pairsSkipped := 0, appendDropped := 0, degenerate := 0 }

/-- Reset values of PWR.TILE (R450). -/
def TilePower.init : TilePower :=
  { phase := 0, phaseValid := false, density := 0, droops := 0, tempC := 0, budget := 0x40, ramp := none,
    suppressed := false, throttled := false }

def AccHist.init : AccHist := ⟨[], false⟩

def AccUnit.init : AccUnit := ⟨.empty, .init, .init⟩

/-- A tile at reset: registers the spec gives no reset value are zero (DESIGN CHOICE, log entry 8). -/
def TileSt.init : TileSt :=
  { s := [], v := [], p := [], d := [], e := [], loops := [], pc := 0, ibuf := [], spad := [], acc := [],
    units := [], ctx := [], run := .idle, hand := none, dmas := [], appends := [], trace := [], busy := 0,
    issued := 0, regs := .init, pwr := .init }

def Binding.none : Binding := ⟨0, 0, 0, false, 0⟩

def DealQueue.init : DealQueue := ⟨0, 0, 0, 0, 0, .none, 0⟩

def DlrReject.none : DlrReject := ⟨0, false, 0, 0⟩

def DealerSt.init : DealerSt :=
  { queues := [], lastLc := 0, lastBe := 0, reject := .none, bound := [], owner := [], hold := [], trips := 0,
    storm := 0 }

end Sys2Proof.Machine
end

