-- ==== Sys2Proof/Machine/CodecState.lean ====
section
/-!
DEFINITION. Machine/CodecState.lean: the video engines and their streams (R322 to R341).
-/

namespace Sys2Proof.Machine

/-- The static fields of a stream descriptor (Table 3 of 10). -/
structure StreamDesc where
  encode  : Bool
  codec   : Nat
  surf    : Bool
  tensor  : Bool
  stats   : Bool
  poolBufs : Nat
  poolBase : Nat
  bufBytes : Nat
  inBase  : Nat
  inEntries : Nat
  outEntries : Nat
  outBase : Nat
  aux     : Nat
  statsBase : Nat
  logBase : Nat
  logEntries : Nat
  deriving DecidableEq, Repr

/-- A frame buffer (R328): its marks and the picture in it. -/
structure PicBuf where
  ref   : Bool
  out   : Bool
  conv  : Bool
  seq   : SeqInfo
  /-- Access units read when it was decoded, and its number among the pictures of the stream. -/
  au    : Nat
  pic   : Nat
  /-- IN_RD of its access unit. -/
  input : Nat
  cls   : Nat
  concealed : Nat
  first : Nat
  offset : Nat
  substitute : Bool
  /-- First picture after a discard. -/
  resumed : Bool
  deriving DecidableEq, Repr

/-- A discard run (R333, R335): access units discarded, INPUT and OFFSET of its start. -/
structure DiscardRun where
  count  : Nat
  input  : Nat
  offset : Nat
  deriving DecidableEq, Repr

/-- An open stream. IN_RD, OUT_DONE and LOG_NEXT are bytes of its descriptor. -/
structure StreamSt where
  addr   : Nat
  job    : Nat
  desc   : StreamDesc
  /-- STATUS: 0 open, 1 discarding, 2 stopped. -/
  status : Nat
  bufs   : SMap (Option PicBuf)
  /-- The active coded sequence. -/
  seq    : Option SeqInfo
  /-- Access units decoded since the stream was opened: what the decoder's inner state follows from (R321). -/
  inputs : List (List Byte)
  /-- Pictures decoded. -/
  pics   : Nat
  /-- Buffers next in output order, each with its output index. -/
  order  : List (Nat × Nat)
  /-- Output index of the next picture to enter that order, or of the next encoded frame. -/
  frame  : Nat
  run    : Option DiscardRun
  resumed : Bool
  loggedConceal : Bool
  loggedFull : Bool
  /-- Encoding: frames since the sequence began, QP of the last inter frame, bits of the last frame. -/
  sinceKey : Nat
  lastQp  : Option Nat
  lastBits : Nat
  deriving DecidableEq, Repr

/-- One engine: VD0 to VD15 are 0 to 15, VE0 to VE7 are 16 to 23 (log entry 39). -/
structure EngineSt where
  streams : SMap (Option StreamSt)
  /-- Slot last served. -/
  last   : Nat
  /-- VDEC.COUNTS and VENC.COUNTS. -/
  frames : W32
  events : W32
  /-- Unused since its die failed self-test (R480). -/
  unused : Bool
  deriving DecidableEq, Repr

def EngineSt.init : EngineSt := ⟨[], 63, 0, 0, false⟩

end Sys2Proof.Machine
end

