-- ==== Sys2Proof/Machine/LinkState.lean ====
section
/-!
DEFINITION. Machine/LinkState.lean: the links, their retry, and the far sessions (R342 to R360).
-/

namespace Sys2Proof.Machine

/-- States of a link, numbered as `LNK.STATUS.STATE` numbers them (Tables 2 and 9 of 11). -/
inductive LinkPhase where
  | down | detect | equalize | align | negotiate | up | retrain | margin | disabled
  deriving DecidableEq, Repr

/-- A transaction that the module sends (R353): its header, and what a control message or a Pot chunk says beside it. -/
structure OutTx where
  type : Nat
  chan : Nat
  src  : Nat
  dst  : Nat
  tag  : Nat
  /-- Address, or collective sequence. -/
  addr : Nat
  kind : Nat
  nums : List Nat
  data : List Byte
  deriving DecidableEq, Repr

/-- A transaction in the replay buffer (R350): its VC and the SEQ of its first flit and of the flit after its last. -/
structure TxItem where
  vc    : Nat
  first : Nat
  count : Nat
  tx    : OutTx
  deriving DecidableEq, Repr

/-- `LNK.MARGIN` of one lane (R358). -/
structure LaneMargin where
  valid : Bool
  pass  : Bool
  high  : Nat
  low   : Nat
  right : Nat
  left  : Nat
  deriving DecidableEq, Repr

structure LinkSt where
  rto    : W32
  etype  : Nat
  encap  : Nat
  media  : Nat
  enable : Bool
  peer   : Nat
  phase  : LinkPhase
  version : Nat
  error  : Nat
  /-- Discards of R353 and R355, one by one; the registers count them in units of 1,024. -/
  filtered : Nat
  authFail : Nat
  replays  : Nat
  retrains : Nat
  trainFail : Nat
  limitVolt : Nat
  limitPhase : Nat
  margins : SMap LaneMargin
  /-- DOWN after a failure, until training starts again (R347). -/
  retryDue : Bool
  /-- States that a RETRAIN has still to pass (R351). -/
  retrainLeft : Nat
  /-- RETRAINs since the link was last trained from DOWN (R351). -/
  recent : Nat
  /-- Retry: last SEQ sent, ACK received, highest SEQ received in order; a NAK is out; replays without progress. -/
  txSeq  : Nat
  acked  : Nat
  rxSeq  : Nat
  naked  : Bool
  futile : Nat
  replay : List TxItem
  /-- Transactions that wait for credits, for room in the replay buffer or for the link, by VC. -/
  txq    : List (Nat × OutTx)
  credits : List Nat
  owed   : List Nat
  /-- Bytes of a transaction that still arrives, by VC. -/
  asm    : SMap (List Byte)
  /-- The parity link of the pair takes the next transaction of no channel (R352). -/
  odd    : Bool
  /-- `POT.COUNTS.BYTES`. -/
  potBytes : W64
  deriving DecidableEq, Repr

/-- Credits of the receive buffers (Table 5 of 11). -/
def vcBuffers : List Nat := [64, 1024, 1024, 64]

def LinkSt.init : LinkSt :=
  { rto := 0x0002625A#32, etype := 0x88B5, encap := 0, media := 0, enable := false, peer := 0, phase := .down, version := 0,
    error := 0, filtered := 0, authFail := 0, replays := 0, retrains := 0, trainFail := 0, limitVolt := 4,
    limitPhase := 8, margins := [], retryDue := false, retrainLeft := 0, recent := 0, txSeq := 0, acked := 0, rxSeq := 0,
    naked := false, futile := 0, replay := [], txq := [], credits := vcBuffers, owed := [0, 0, 0, 0], asm := [], odd := false,
    potBytes := 0 }

def LaneMargin.init : LaneMargin := ⟨false, false, 0, 0, 0, 0⟩

/-- An unacknowledged far frame (R355). -/
structure FarItem where
  seq    : Nat
  resends : Nat
  tx     : OutTx
  deriving DecidableEq, Repr

/-- The handshake with a peer (R356, R357). -/
inductive HsPhase where
  | idle
  /-- HELLO sent, as initiator. -/
  | helloSent
  /-- REPLY sent or received: FINISH is exchanged. -/
  | finishing
  /-- Failed: another attempt is due. -/
  | failed
  deriving DecidableEq, Repr

/-- The session with one peer (R355 to R357). -/
structure FarSess where
  up     : Bool
  id     : BitVec 32
  initiator : Bool
  version : Nat
  hs     : HsPhase
  /-- The handshake under way renews the keys of a session (R357). -/
  rekey  : Bool
  txSeq  : Nat
  rxNext : Nat
  /-- Frames sent and received under the present keys. -/
  txFrames : Nat
  rxFrames : Nat
  /-- A rekey has completed: the new keys send, and frames under the old keys are accepted until a new one arrives. -/
  newKeys : Bool
  /-- The same for the sending side: frames wait until those under the old keys are acknowledged (log entry 46). -/
  txNew  : Bool
  /-- Frames that arrived before their turn. -/
  held   : List (Nat × List Byte)
  unacked : List FarItem
  txq    : List OutTx
  deriving DecidableEq, Repr

def FarSess.init : FarSess :=
  { up := false, id := 0, initiator := false, version := 0, hs := .idle, rekey := false, txSeq := 0, rxNext := 0,
    txFrames := 0, rxFrames := 0, newKeys := false, txNew := false, held := [], unacked := [], txq := [] }

/-- Links, sessions and the module's rank. -/
structure LinksSt where
  rankValid : Bool
  twin   : Bool
  /-- Rank bits [13:2]. -/
  rrc    : Nat
  links  : SMap LinkSt
  sess   : SMap FarSess
  deriving DecidableEq, Repr

def LinksSt.init : LinksSt := ⟨false, false, 0, [], []⟩

end Sys2Proof.Machine
end

