-- ==== Sys2Proof/Machine/ColState.lean ====
section
/-!
DEFINITION. Machine/ColState.lean: collectives, their channels and the Pots (R361 to R391).
-/

namespace Sys2Proof.Machine

/-- A collective descriptor (Table 1 of 12). -/
structure ColDesc where
  header : List Byte
  hdr    : Nat
  op     : Nat
  flags  : Nat
  chan   : Nat
  inFmt  : Nat
  outFmt : Nat
  quorum : Nat
  seq    : Nat
  count  : Nat
  div    : Nat
  root   : Nat
  parts  : Nat
  deadline : List Nat
  rsvd   : Nat
  src    : Nat
  stride : Nat
  dst    : Nat
  scratch : Nat
  incl   : Nat
  aux    : Nat
  mset   : Nat
  deriving DecidableEq, Repr

/-- A message between the members of a collective (R375 to R384, R389). -/
inductive ColMsg where
  | post (sender : Nat) (header : List Byte)
  /-- A segment root has finished the trick before trick `k`; it tells its unit's decider. -/
  | rootReady (k member : Nat)
  | ready (k unit count : Nat) (ranks : List Nat)
  | go (k : Nat) (units : List Nat) (count : Nat) (ranks : List Nat)
  | twinSet (k : Nat) (units : List Nat)
  | pot (k : Nat) (down : Bool) (sender offset : Nat) (data : List Byte)
  | shuffle (src dst offset sent : Nat) (data : List Byte)
  | complete
  | abort (code : Code)
  | finalAbort (code : Code)
  | digest (step : Nat) (dig : List Byte)
  deriving DecidableEq, Repr

/-- A unit's readiness at a trick: its included modules. -/
structure ReadyRec where
  unit  : Nat
  count : Nat
  ranks : List Nat
  deriving DecidableEq, Repr

/-- GO of a trick. -/
structure GoRec where
  units : List Nat
  count : Nat
  ranks : List Nat
  deriving DecidableEq, Repr

/-- Where a posted collective is on the module. -/
inductive ColPhase where
  | posted
  /-- The contribution is ready (R363, R370). -/
  | running
  /-- Stopped by an abort, FINAL_ABORT still to come (R384). -/
  | stopped
  deriving DecidableEq, Repr

/-- A posted collective. Tricks are numbered 0 package, 1 tray, 2 row, 3 column, 4 racks, and a unit is named by its member
of lowest rank. -/
structure ColRun where
  job     : Nat
  desc    : ColDesc
  /-- Ranks [13:0] of the members, ascending. -/
  members : List Nat
  phase   : ColPhase
  /-- POSTs received, by trick and unit. -/
  posts   : List (Nat × Nat)
  /-- This module has sent its own POST up. -/
  posted  : Bool
  /-- Modules whose root stage before a trick is done, as their unit's decider hears. -/
  rootReady : List (Nat × Nat)
  /-- Tricks whose READY has gone up. -/
  readySent : List Nat
  /-- READYs received as decider. -/
  readies : List (Nat × ReadyRec)
  /-- Included sets fixed as decider, tricks whose GO has been sent, and sets of the twin's decider. -/
  fixed   : List (Nat × List Nat)
  goSent  : List Nat
  twins   : List (Nat × List Nat)
  gos     : List (Nat × GoRec)
  /-- The package trick is done; and how many of the later tricks this module has finished as root. -/
  packaged : Bool
  level   : Nat
  /-- Tricks at which it has sent its data up, and its finished segment down. -/
  sentUp  : List Nat
  sentDown : List Nat
  /-- Values of its range after the last stage done, by element; contributions by trick, sender and element; and how many
  elements each sender has delivered, by trick, direction and sender. -/
  vals    : SMap W32
  arr     : SMap W32
  got     : SMap Nat
  /-- Bytes sent to each peer before its COMPLETE (R372). -/
  out     : SMap Nat
  /-- Elements of DST that are in place. -/
  placed  : Nat
  /-- COL_EXCLUDED has been logged. -/
  excluded : Bool
  /-- A DIGEST: flag of its own comparison, none until then, and the twin's digest (R389). -/
  flag    : Option Nat
  twinDig : List Byte
  deriving DecidableEq, Repr

/-- One of the 16 channels. -/
structure ChanCol where
  /-- Job whose sequence the channel carries, the last sequence posted and the last one completed. -/
  job    : Nat
  posted : Nat
  done   : Nat
  /-- The last collective was aborted, and no other has been posted. -/
  aborted : Bool
  run    : Option ColRun
  /-- Posts that wait for the one before to end: job and descriptor (log entry 47). -/
  queue  : List (Nat × Nat)
  /-- Messages not yet taken: those of the running collective, and of a sequence that is not yet posted here (R372). -/
  inbox  : List (Nat × ColMsg)
  /-- COMPLETE sequences of the peers. -/
  peers  : SMap Nat
  /-- Data held back until a peer's COMPLETE (R372), with its sequence. -/
  hold   : List (Nat × OutTx)
  deriving DecidableEq, Repr

/-- A bucket digest of the step (R388). -/
structure Bucket where
  job  : Nat
  chan : Nat
  seq  : Nat
  h    : List Byte
  deriving DecidableEq, Repr

structure ColSt where
  chans  : SMap ChanCol
  stall  : W32
  errValid : Bool
  errChan : Nat
  errSeq : Nat
  errCode : Code
  /-- The last closed step digest, 32 bytes, and its STEP. -/
  digest : List Byte
  step   : Nat
  buckets : List Bucket
  /-- DIGEST collectives completed, by job. -/
  steps  : SMap Nat
  deriving DecidableEq, Repr

def ChanCol.init : ChanCol := ⟨0, 0, 0, false, none, [], [], [], []⟩

def ColSt.init : ColSt :=
  { chans := [], stall := 0x00989680#32, errValid := false, errChan := 0, errSeq := 0, errCode := 0,
    digest := List.replicate 32 0, step := 0, buckets := [], steps := [] }

end Sys2Proof.Machine
end

