-- ==== Sys2Proof/Machine/MemState.lean ====
section
/-!
DEFINITION. Machine/MemState.lean: stacks, stack engines, the unified range, its objects and the flash tier
(R268 to R318).
-/

namespace Sys2Proof.Machine

/-- State of an allocated range page (R273). -/
inductive PageWhere where
  | resident (frame : Nat)
  | flash
  | migratingIn (frame : Nat)
  | migratingOut (frame : Nat)
  deriving DecidableEq, Repr

/-- An allocated range page. -/
structure PageSt where
  /-- First range page of its object. -/
  object  : Nat
  place   : PageWhere
  /-- Written since it last arrived (R279). -/
  written : Bool
  /-- Order of its most recent arrival in stack DRAM (R279). -/
  arrived : Nat
  /-- Its logical page (R305), none for PIN_STACK. -/
  logical : Option Nat
  deriving DecidableEq, Repr

/-- Who owns an object (R276, R463). -/
inductive Owner where
  | ring (r : Nat)
  | job (j : Nat)
  | conductor
  deriving DecidableEq, Repr

/-- A request that completes later: the ring (none for a request of the conductor's own), tag and kind of its completion,
and the request block's address. -/
structure Pending where
  ring : Option Nat
  tag  : W64
  kind : Nat
  req  : Nat
  deriving DecidableEq, Repr

structure ObjectSt where
  pages : Nat
  attr  : Nat
  place : Nat
  arg   : Nat
  name  : W64
  owner : Owner
  func  : Nat
  /-- FREE waits for migrations of its pages (R281), with the name given in the request. -/
  freeing : Option Pending
  /-- SYNC waits for its programs (R310). -/
  syncing : Option Pending
  /-- FREE removes a stored object from the directory (R316). -/
  removeName : Bool
  deriving DecidableEq, Repr

/-- Who waits on a page that is not resident (R280). -/
structure Waiter where
  page : Nat
  job  : Nat
  /-- Requester: tile, Dealer, engine or codec as a number in its own class. -/
  cls  : Nat
  idx  : Nat
  deriving DecidableEq, Repr

/-- A queued migration (R280). -/
structure Migration where
  page : Nat
  lc   : Bool
  deriving DecidableEq, Repr

/-- A frame allocation or the name of a stored object (R316). -/
structure NamedObj where
  pages   : Nat
  logical : List Nat
  deriving DecidableEq, Repr

inductive SbState where
  | free
  | open
  | closed
  deriving DecidableEq, Repr

/-- One superblock (R305): its stripes in the order written, each naming the logical page it holds if still valid. -/
structure Superblock where
  state   : SbState
  stripes : List (Option Nat)
  erases  : Nat
  reads   : Nat
  deriving DecidableEq, Repr

/-- The flash translation layer. -/
structure FtlSt where
  channels : BitVec 16
  logicalPages : Nat
  readOnly : Bool
  spares   : Nat
  superblocks : Nat
  stripesPerSb : Nat
  /-- Good raw bytes of the tier and least rated erase count, as found at boot (R304, R468). -/
  rawBytes : Nat
  rated    : Nat
  rdLimit  : Nat
  wlDelta  : Nat
  gcLow    : Nat
  budget   : W32
  /-- Index of each superblock's state; an unlisted one is free and unworn. -/
  sbs      : SMap Superblock
  /-- Stored logical pages' bytes, keyed logical page * 2 MiB + offset. -/
  store    : SMap Byte
  /-- Logical pages reserved (R315): 1 where taken. -/
  taken    : SMap Nat
  /-- Logical pages marked lost (R313). -/
  lost     : SMap Nat
  /-- Logical pages whose last stripe has no programmed journal record yet (R310, R311). -/
  unjournaled : List Nat
  /-- Records in the journal buffer. -/
  journal  : Nat
  programs : Nat
  /-- Stripes programmed in the window and whether FLASH_GOVERNED was logged (R314). -/
  spent    : Nat
  governed : Bool
  names    : List (W64 × NamedObj)
  /-- POWER_FAIL: no new flash write is accepted (R311). -/
  frozen   : Bool
  /-- The last power loss came before the journal was programmed (R311). -/
  journalLost : Bool
  deriving DecidableEq, Repr

/-- One channel of a stack: MEM.MARGIN and the patrol (R286, R303). -/
structure ChanSt where
  valid  : Bool
  pass   : Bool
  high   : Nat
  low    : Nat
  right  : Nat
  left   : Nat
  patrol : Nat
  ce     : Nat
  logged : Bool
  deriving DecidableEq, Repr

/-- A command in an engine's queue (R89, R295): its 64 bytes, the issuing tile and hand, or the conductor. -/
structure SeCmd where
  cmd  : BitVec 512
  job  : Nat
  /-- Issuing tile; none for the conductor. -/
  tile : Option Nat
  hand : W64
  /-- Its writes are made and it has not yet counted (R297). -/
  done : Bool
  /-- Waits on pages that are not resident. -/
  waiting : Bool
  deriving DecidableEq, Repr

/-- One stack with its engine. -/
structure StackSt where
  factory : W32
  good    : W32
  ue      : Nat
  ce      : Nat
  ueValid : Bool
  ueAddr  : Nat
  ceLimit : Nat
  interval : Nat
  limitVddq : Nat
  limitDq : Nat
  chans   : SMap ChanSt
  queue   : List SeCmd
  margining : Bool
  tempC   : Nat
  throttled : Bool
  deriving DecidableEq, Repr

/-- Memory as a whole. -/
structure MemSt where
  /-- Bytes of the unified range, by unified address; unlisted bytes read zero (R277). -/
  bytes   : SMap Byte
  pages   : SMap (Option PageSt)
  objects : SMap (Option ObjectSt)
  /-- Frames in use: page number + 1. -/
  frames  : SMap Nat
  /-- Frames that returned an uncorrectable error (1), are retired (2), or retired until the next reset (3) (R288). -/
  badFrames : SMap Nat
  arrivals : Nat
  queue   : List Migration
  waiters : List Waiter
  stk     : SMap StackSt
  ftl     : FtlSt
  deriving DecidableEq, Repr

def ChanSt.init : ChanSt := ⟨false, false, 0, 0, 0, 0, 0, 0, false⟩

def Superblock.init : Superblock := ⟨.free, [], 0, 0⟩

/-- A stack at reset (R318, R450): the fused maps and limits read zero until boot loads them (log entry 12). -/
def StackSt.init : StackSt :=
  { factory := 0, good := 0, ue := 0, ce := 0, ueValid := false, ueAddr := 0, ceLimit := 0x40, interval := 0x1000,
    limitVddq := 2, limitDq := 8, chans := [], queue := [], margining := false, tempC := 0, throttled := false }

def FtlSt.init : FtlSt :=
  { channels := 0, logicalPages := 0, readOnly := false, spares := 0, superblocks := 0, stripesPerSb := 0, rawBytes := 0, rated := 0,
    rdLimit := 0x64, wlDelta := 0x1F4, gcLow := 0x10, budget := 0, sbs := [], store := [], taken := [], lost := [],
    unjournaled := [], journal := 0, programs := 0, spent := 0, governed := false, names := [], frozen := false,
    journalLost := false }

def MemSt.init : MemSt :=
  { bytes := [], pages := [], objects := [], frames := [], badFrames := [], arrivals := 0, queue := [], waiters := [],
    stk := [], ftl := .init }

end Sys2Proof.Machine
end

