-- ==== Sys2Proof/Machine/HostState.lean ====
section
/-!
DEFINITION. Machine/HostState.lean: rings, jobs, scheduling and error reporting (R392 to R427, R487 to R490).
-/

namespace Sys2Proof.Machine

/-- Registers of a ring (Table 11 of 13) and its doorbell (R399). -/
structure RingSt where
  sq     : W64
  cq     : W64
  cfg    : W64
  enable : Bool
  error  : Code
  negMinor : Nat
  negGen : Nat
  stopped : Bool
  active : Bool
  cqTail : W32
  sqHead : W32
  submitted : W32
  completed : W32
  preempted : W32
  faulted : W32
  ownerValid : Bool
  owner  : BitVec 6
  /-- Doorbell: entries posted and completions read. -/
  sqTail : W32
  cqHead : W32
  /-- Entries consumed whose completion is still to be written. -/
  owed   : Nat
  /-- ENABLE = 1 held until ACTIVE clears (R398). -/
  held   : Bool
  /-- Completions of the ending jobs are discarded (R398). -/
  closing : Bool
  /-- Energy of the ring's jobs, PWR.ENERGY_RING. -/
  energy : W64
  deriving DecidableEq, Repr

/-- Where a job is in its life (R405 to R424). -/
inductive JobPhase where
  | waiting
  | running
  | saving
  | saved
  | ending
  deriving DecidableEq, Repr

/-- The job descriptor's fields (Table 4 of 13). -/
structure JobDesc where
  cls     : Nat
  stop    : Bool
  twin    : Bool
  dies    : Nat
  tpd     : Nat
  replayRate : Nat
  ctxMask : Nat
  group   : W64
  wcet    : List Nat
  streams : Nat
  seed    : W64
  precTable : Nat
  precLog : Nat
  interleave : Nat
  stashLimit : Nat
  colPlan : Nat
  kvPool  : Nat
  kvPages : Nat
  seqCount : Nat
  kvFree  : Nat
  seqTable : Nat
  deriving DecidableEq, Repr

/-- The tiles a job holds on one die. -/
structure DiePlace where
  die  : Nat
  mask : Nat
  /-- Base of the save object on the die (R410). -/
  save : Option Nat
  deriving DecidableEq, Repr

/-- What a save keeps beside the bytes of the save object: the parts of a tile that have no layout there (R120, R418), by
die in the order of the placement and ordinal on it. -/
structure SavedTile where
  die     : Nat
  ordinal : Nat
  ibuf    : SMap Slot
  units   : SMap AccUnit
  ctx     : SMap Binding
  run     : TileRun
  hand    : Option Hand
  dmas    : List DmaRec
  deriving DecidableEq, Repr

/-- A saved Dealer queue (R99), by die in the order of the placement. -/
structure SavedQueue where
  die   : Nat
  queue : DealQueue
  deriving DecidableEq, Repr

/-- One serving sequence of a job (R197 to R199): its record, the STATE last seen in it, and its place in the orders of
joining and of entering that state. -/
structure SeqSt where
  record : Nat
  state  : Nat
  joined : Nat
  since  : Nat
  deriving DecidableEq, Repr

/-- Where the conductor is at an interleave unit (R216, R222, R238). -/
inductive UnitPhase where
  /-- The next unit's boundary is still to come. -/
  | ready
  /-- Mappings of the next unit wait for pages (R222, R225). -/
  | mapping
  /-- The next unit is of KIND 3 and its updates are still to start. -/
  | update
  /-- Its updates run. -/
  | updating
  deriving DecidableEq, Repr

/-- Training progress of a job (R215 to R239). -/
structure TrainSt where
  /-- A step has been started. -/
  active : Bool
  /-- Units forwarded in this step. -/
  unit   : Nat
  phase  : UnitPhase
  /-- The fault met by an update group of the unit (R231). -/
  updFault : Option Code
  /-- Physical pages of each entry: entry index * 2^24 + page ordinal to page number + 1. -/
  map    : SMap Nat
  /-- Row count of each entry as read at its reservation (R219). -/
  rows   : SMap Nat
  deriving DecidableEq, Repr

structure JobSt where
  ring   : Nat
  tag    : W64
  func   : Nat
  desc   : JobDesc
  phase  : JobPhase
  places : List DiePlace
  preempts : Nat
  fault  : Option Code
  /-- Completions counted while waiting (R422). -/
  age    : Nat
  /-- Admission order and order of entering the wait (R76, R412). -/
  admitted : Nat
  waitOrder : Nat
  /-- Codes logged once for the job. -/
  logged : List Nat
  savedTiles : List SavedTile
  savedQueues : List SavedQueue
  /-- REASON of the last save: 1 pre-empted, 2 swapped. -/
  reason : Nat
  seqs   : List SeqSt
  stepNo : Nat
  train  : TrainSt
  /-- The conductor holds its records back (R420). -/
  heldBack : Bool
  grade  : Nat
  deriving DecidableEq, Repr

/-- One error record (Table 9 of 16), SEQ and KTIME apart. -/
structure ErrRec where
  code : Code
  sev  : Nat
  cls  : Nat
  idx  : Nat
  func : Nat
  unit : Nat
  job  : Nat
  data : List Byte
  /-- Low half of the source island's cycle count: a free value. -/
  time : W32
  deriving DecidableEq, Repr

/-- A die's local log (R487). -/
structure LocalLog where
  recs    : List ErrRec
  dropped : Nat
  deriving DecidableEq, Repr

/-- A record in the global log, as its 64 bytes. -/
structure GlobalLog where
  /-- SEQ of the next record. -/
  seq     : Nat
  lost    : Nat
  /-- Slot n mod 4,096. -/
  slots   : SMap (BitVec 512)
  deriving DecidableEq, Repr

/-- A function's error window (R488): records written, the slots, vector 0 due. -/
structure FuncLog where
  count   : Nat
  slots   : SMap (BitVec 512)
  pending : Bool
  deriving DecidableEq, Repr

/-- A message that leaves the module. -/
inductive OutMsg where
  /-- MSI-X vector of a function. -/
  | msix (func vector : Nat)
  /-- I3C in-band interrupt. -/
  | i3c
  /-- Data of a read, returned to the requester. -/
  | readData (data : List Byte)
  /-- Completion status of a host access: Unsupported Request or Completer Abort, or poison in CXL mode. -/
  | hostStatus (code : Nat)
  /-- An SPDM or PLDM response. -/
  | response (bytes : List Byte)
  /-- A transaction sent on a near link, from flit SEQ on, and a NAK with its ACK (R349, R350). -/
  | near (l seq : Nat) (tx : OutTx)
  | nak (l ack : Nat)
  /-- A frame of a far session, and a handshake message: 1 HELLO, 2 REPLY, 3 FINISH (R355, R356). -/
  | far (l seq : Nat) (tx : OutTx)
  | handshake (peer kind : Nat)
  /-- The control flit of NEGOTIATE: versions, rank, link number (R348). -/
  | control (l versions rank : Nat)
  deriving DecidableEq, Repr

/-- A PARTITION entry whose scrub runs (R403, R466). -/
structure ScrubSt where
  func : Nat
  dies : Nat
  /-- Dies being scrubbed. -/
  scrubbing : List Nat
  pend : Pending
  deriving DecidableEq, Repr

/-- The scheduler and the host port (R392 to R427). -/
structure SchedSt where
  rings    : SMap RingSt
  jobs     : SMap (Option JobSt)
  swapWait : W32
  ageLimit : W32
  /-- Job in the ante slot, 0 when free. -/
  ante     : Nat
  /-- Function + 1 of each die. -/
  partition : SMap Nat
  scrubs   : List ScrubSt
  aperture : SMap W64
  /-- Vectors unmasked in the MSI-X tables (1), keyed function * 2048 + vector; messages held pending (2). -/
  msix     : SMap Nat
  admitCtr : Nat
  waitCtr  : Nat
  deriving DecidableEq, Repr

/-- Error logs (R487, R488, R490, R496). -/
structure LogSt where
  locals : SMap LocalLog
  global : GlobalLog
  funcs  : SMap FuncLog
  /-- A record of severity 2 has entered the log since ERR.STATUS was last read (R496). -/
  alert  : Bool
  deriving DecidableEq, Repr

def RingSt.init : RingSt :=
  { sq := 0, cq := 0, cfg := 0, enable := false, error := 0, negMinor := 0, negGen := 0, stopped := false,
    active := false, cqTail := 0, sqHead := 0, submitted := 0, completed := 0, preempted := 0, faulted := 0,
    ownerValid := false, owner := 0, sqTail := 0, cqHead := 0, owed := 0, held := false, closing := false,
    energy := 0 }

def LocalLog.init : LocalLog := ⟨[], 0⟩

def GlobalLog.init : GlobalLog := ⟨0, 0, []⟩

def FuncLog.init : FuncLog := ⟨0, [], false⟩

def SchedSt.init : SchedSt :=
  { rings := [], jobs := [], swapWait := 0x001E8480#32, ageLimit := 0x40#32, ante := 0, partition := [], scrubs := [],
    aperture := [], msix := [], admitCtr := 0, waitCtr := 0 }

def LogSt.init : LogSt := ⟨[], .init, [], false⟩

def TrainSt.init : TrainSt := ⟨false, 0, .ready, none, [], []⟩

end Sys2Proof.Machine
end

