-- ==== Sys2Proof/Machine/SysState.lean ====
section
/-!
DEFINITION. Machine/SysState.lean: power (R429 to R450), security (R451 to R472), boot, tests and calibration (R473 to R486),
fuses and pins (R432, R451, R495, R496).
-/

namespace Sys2Proof.Machine

/-- The fuse macro and the factory cells (R432, R433, R445, R451, R482). What a part's fuses hold is its own; the values of
`Fuses.typical` are those that the spec calls typical (log entry 12). -/
structure Fuses where
  /-- S and D in W and availability, per grade G0 to G4. -/
  gradeS  : List Nat
  gradeD  : List Nat
  avail   : List Bool
  /-- Voltage in mV per compute die and grade, VMAX and analog trip per die. -/
  volts   : List (List Nat)
  vmax    : List Nat
  tileTrip : List Nat
  /-- Analog trip and largest VDDQ per stack; factory map-out per stack. -/
  stackTrip : List Nat
  vddqMax : List Nat
  mapOut  : List W32
  fusedW  : Nat
  serial  : W64
  /-- SHA-384 of the two public identity keys. -/
  identity : List W64
  /-- Secrets, which no command reads: identity seeds, flash keys, root hashes, firmware key hashes. -/
  seeds   : List (BitVec 256)
  flashKeys : List (BitVec 256)
  roots   : List (BitVec 384)
  fwKeys  : List (BitVec 384)
  revoked : BitVec 4
  rollback : Nat
  deriving DecidableEq, Repr

def Fuses.typical : Fuses :=
  { gradeS := [900, 1000, 1120, 1250, 1400], gradeD := [1900, 2350, 2850, 3200, 3600],
    avail := List.replicate 5 true, volts := List.replicate 8 [650, 700, 760, 800, 850], vmax := List.replicate 8 900,
    tileTrip := List.replicate 8 115, stackTrip := List.replicate 32 105, vddqMax := List.replicate 32 800,
    mapOut := List.replicate 32 0, fusedW := 5000, serial := 0, identity := List.replicate 12 0,
    seeds := [0, 0], flashKeys := [0, 0], roots := [0, 0], fwKeys := List.replicate 8 0, revoked := 0, rollback := 0 }

/-- The writable `PWR` registers (R431, R450). -/
structure PowerCfg where
  capW    : Nat
  quadCap : W64
  holdDensity : Nat
  beFloor : Nat
  lcFloor : Nat
  holdWindow : W32
  spacing : Nat
  /-- The field WAVES. -/
  waves   : Nat
  rampLen : Nat
  stackC  : Nat
  tileC   : Nat
  droopMv : Nat
  droopLimit : Nat
  partCap : SMap Nat
  deriving DecidableEq, Repr

/-- The `PWR` registers of block 0x040 to 0x043 and the power manager (R429 to R448). -/
structure PowerSt where
  /-- As written, and as in force since the last control interval (R431, R450). -/
  cfg     : PowerCfg
  live    : PowerCfg
  volt    : Nat
  current : Nat
  watt    : Nat
  /-- Inlet reading with its offset; none when it cannot be taken (R505). -/
  inlet   : Option Nat
  demote  : Bool
  /-- Grade at which GRADE_UNHOLDABLE was raised (R434). -/
  demotedAt : Nat
  ceiling : Bool
  powerFail : Bool
  tripSeen : Bool
  energyPart : SMap W64
  energyUnattr : W64
  calK    : Nat
  /-- Meter samples of the current interval: their sum and number (R439). -/
  sumW    : Nat
  samples : Nat
  /-- kclk cycles for which the units per active tile have stayed below HOLD_DENSITY (R444). -/
  below   : Nat
  /-- kclk cycles for which the input has read at or above 44 V (R446). -/
  good    : Nat
  /-- An excursion above 58 V lasts (R446). -/
  overVolt : Bool
  /-- An analog trip has removed power, until the next cold reset (R445). -/
  tripped : Bool
  /-- Grade that the module changes to (R435). -/
  target  : Option Nat
  deriving DecidableEq, Repr

/-- Reset values of Tables 8 and 9 of 14. -/
def PowerCfg.init : PowerCfg :=
  { capW := 0x1388, quadCap := 0, holdDensity := 0x20, beFloor := 4, lcFloor := 0x20, holdWindow := 0x01312D00#32,
    spacing := 0x40, waves := 0, rampLen := 0x2328, stackC := 0x5A, tileC := 0x5F, droopMv := 0x28, droopLimit := 0x100,
    partCap := [] }

def PowerSt.init : PowerSt :=
  { cfg := .init, live := .init, volt := 0, current := 0, watt := 0, inlet := some 0, demote := false, demotedAt := 0,
    ceiling := false, powerFail := false, tripSeen := false, energyPart := [], energyUnattr := 0, calK := 0x4000,
    sumW := 0, samples := 0, below := 0, good := 0, overVolt := false, tripped := false, target := none }

/-- What the SPDM responder holds (R459 to R462). -/
structure SpdmSt where
  /-- GET_VERSION has opened negotiation since the last reset of the responder. -/
  open_  : Bool
  /-- The last request was answered by a signed response; its message hash is DUAL_SIG's. -/
  signed : Bool
  deriving DecidableEq, Repr

/-- The security core (R451 to R472). -/
structure SecSt where
  lastCode : Code
  /-- 0 none, 1 verified, 2 failed, 3 staging. -/
  staged  : Nat
  activating : Bool
  /-- Slot B is active. -/
  slotB   : Bool
  svn     : Nat
  keyIndex : Nat
  stageAddr : Nat
  writeCap : W32
  /-- VALID and TAG of each function. -/
  tags    : SMap W32
  /-- The SPI boot flash: slots A and B at 0 and 0x200_0000, calibration copies at 0x400_0000 and 0x401_0000. -/
  spi     : SMap Byte
  /-- The slot record names slot B. -/
  recordB : Bool
  /-- The chains of the Ed25519 and ML-DSA-65 keys: their bytes, and whether boot accepted them (R453). -/
  chains  : List (List Byte)
  chainOk : List Bool
  spdm    : SpdmSt
  /-- Digests of the measurement indices as last taken (R460, R461). -/
  measures : SMap (BitVec 384)
  /-- Outcome of the image being staged, and the image that ACTIVATE loads. -/
  verdict : Code
  image   : List Byte
  deriving DecidableEq, Repr

def SecSt.init : SecSt :=
  { lastCode := 0, staged := 0, activating := false, slotB := false, svn := 0, keyIndex := 0, stageAddr := 0, writeCap := 0,
    tags := [], spi := [], recordB := false, chains := [[], []], chainOk := [false, false], spdm := ⟨false, false⟩,
    measures := [], verdict := 0, image := [] }

/-- A queued test request (R484, R485). -/
structure TestReq where
  ticket : Nat
  op     : Nat
  target : Nat
  /-- Written over I3C. -/
  board  : Bool
  running : Bool
  deriving DecidableEq, Repr

/-- BOOT.REQ_ACK of one interface. -/
structure ReqAck where
  valid  : Bool
  ticket : Nat
  position : Nat
  status : Nat
  deriving DecidableEq, Repr

/-- Reset, boot and tests (R473 to R490), straps and pins (R495, R496). -/
structure BootSt where
  /-- RESET_N is low or the input is off: nothing runs. -/
  held   : Bool
  stage  : Nat
  cause  : Nat
  cal    : Nat
  lastCode : Code
  marginSt00 : Bool
  /-- BOOT.BIST_FAIL: a bit per die in the order of R461. -/
  bistFail : Nat
  /-- Measurement byte of each die in the order of R461, plus 1; an unlisted die is resetting (R461). -/
  dies   : SMap Nat
  /-- Dies in a per-die reset, and those whose reset waits for an activation window to close (R478). -/
  resetting : List Nat
  waiting : List Nat
  slot   : BitVec 2
  cxl    : Bool
  /-- Edge dies without a link reference clock (R501). -/
  noClock : List Nat
  queue  : List TestReq
  ticket : Nat
  ackHost : ReqAck
  ackBoard : ReqAck
  calAddr : Nat
  /-- The user calibration region in force since the last cold or warm reset; empty for zero offsets (R481, R483). -/
  userCal : List Byte
  /-- The checked image that a region write puts into SPI flash (R483). -/
  calImage : List Byte
  deriving DecidableEq, Repr

def ReqAck.none : ReqAck := ⟨false, 0, 0, 0⟩

/-- Before the first release of RESET_N (log entry 4). -/
def BootSt.init : BootSt :=
  { held := true, stage := 1, cause := 0, cal := 0, lastCode := 0, marginSt00 := false, bistFail := 0, dies := [],
    resetting := [], waiting := [], slot := 0, cxl := false, noClock := [], queue := [], ticket := 0,
    ackHost := .none, ackBoard := .none, calAddr := 0, userCal := [], calImage := [] }

end Sys2Proof.Machine
end

