-- ==== Sys2Proof/Machine/State.lean ====
section
/-!
DEFINITION. Machine/State.lean: the state of the block, and the reasons a step can stop.
-/

namespace Sys2Proof.Machine

/-- Why a step stops with a fault. -/
inductive Fault where
  /-- Raised by no command: every fault the spec gives is the effect of a command on the state. Safe. -/
  | notRaised
  deriving DecidableEq, Repr

/-- Why a command has no meaning. -/
inductive Refusal where
  /-- A command whose arm is not written; raised by `exec` only. Safe. -/
  | notModelled (mnemonic : String)
  deriving DecidableEq, Repr

structure State where
  /-- Commands waiting, first in first out. -/
  pending : List Instr
  /-- The model's own counter of free values; nothing of the spec. -/
  freeCtr : Nat
  tiles   : SMap TileSt
  dealers : SMap DealerSt
  mem     : MemSt
  hostMem : SMap Byte
  sched   : SchedSt
  logs    : LogSt
  outbox  : List OutMsg
  /-- Grade G0 to G4 of the module (R18). -/
  grade   : Nat
  codec   : SMap EngineSt
  links   : LinksSt
  col     : ColSt
  power   : PowerSt
  sec     : SecSt
  boot    : BootSt
  fuses   : Fuses
  deriving DecidableEq, Repr

/-- The machine as power finds it: in reset, before the cold boot (log entry 4). -/
def State.reset : State :=
  { pending := [], freeCtr := 0, tiles := [], dealers := [], mem := .init, hostMem := [], sched := .init,
    logs := .init, outbox := [], grade := 0, codec := [], links := .init, col := .init, power := .init, sec := .init,
    boot := .init, fuses := .typical }

end Sys2Proof.Machine
end

