-- ==== Sys2Proof/Machine/Ops.lean ====
section
/-!
DEFINITION. Machine/Ops.lean: the shared operations: sparse maps, bytes, access to the units, the unified range with its
window check (R273 to R280, R463), error records (R487, R508) and the fault of a tile and of a job (R72, R424).
-/

namespace Sys2Proof.Machine

/-! Sparse maps. -/

/-- Value at a key; `dflt` where the key is not listed. -/
def SMap.get {α : Type} (dflt : α) (m : SMap α) (k : Nat) : α :=
  match m.find? (fun p => p.1 == k) with
  | some p => p.2
  | none => dflt

/-- Replaces the keys from `lo` below `hi` by `mid`. -/
def SMap.splice {α : Type} (m : SMap α) (lo hi : Nat) (mid : SMap α) : SMap α :=
  m.filter (fun p => decide (p.1 < lo)) ++ mid ++ m.filter (fun p => decide (hi ≤ p.1))

/-- Writes one key; writing the default removes the entry. -/
def SMap.set {α : Type} [DecidableEq α] (dflt : α) (m : SMap α) (k : Nat) (v : α) : SMap α :=
  m.splice k (k + 1) (if v = dflt then [] else [(k, v)])

/-- The entries of consecutive keys, defaults left out. -/
def SMap.entries {α : Type} [DecidableEq α] (dflt : α) : Nat → List α → SMap α
  | _, [] => []
  | k, v :: vs => if v = dflt then SMap.entries dflt (k + 1) vs else (k, v) :: SMap.entries dflt (k + 1) vs

/-- Writes consecutive keys from `base`. -/
def SMap.setRange {α : Type} [DecidableEq α] (dflt : α) (m : SMap α) (base : Nat) (vs : List α) : SMap α :=
  m.splice base (base + vs.length) (SMap.entries dflt base vs)

/-- The entries of `n` keys from `base`, with keys counted from 0. -/
def SMap.slice {α : Type} (m : SMap α) (base n : Nat) : SMap α :=
  (m.filter (fun p => decide (base ≤ p.1 ∧ p.1 < base + n))).map (fun p => (p.1 - base, p.2))

/-- Values of `n` consecutive keys. -/
def SMap.getRange {α : Type} (dflt : α) (m : SMap α) (base n : Nat) : List α :=
  let w := m.slice base n
  (List.range n).map (fun i => w.get dflt i)

/-- Puts a slice of `n` keys at `base`. -/
def SMap.paste {α : Type} (m : SMap α) (base n : Nat) (w : SMap α) : SMap α :=
  m.splice base (base + n) (w.map (fun p => (p.1 + base, p.2)))

/-- Makes `n` keys from `base` read as the default. -/
def SMap.clear {α : Type} (m : SMap α) (base n : Nat) : SMap α := m.splice base (base + n) []

/-- Canonical form: keys strictly rising, no entry equal to the default. -/
def SMap.wf {α : Type} [DecidableEq α] (dflt : α) : SMap α → Bool
  | [] => true
  | [(_, v)] => v != dflt
  | (k, v) :: (k', v') :: rest => v != dflt && decide (k < k') && SMap.wf dflt ((k', v') :: rest)

/-- Canonical form of a memory (log entry 18 names what an unlisted byte reads as). -/
def Memory.wf (m : SMap Byte) : Bool := m.wf 0

/-! Bytes and fields. -/

/-- Little-endian value of bytes. -/
def leNat : List Byte → Nat
  | [] => 0
  | b :: bs => b.toNat + 256 * leNat bs

/-- `n` little-endian bytes of a value. -/
def natLe : Nat → Nat → List Byte
  | 0, _ => []
  | n + 1, x => BitVec.ofNat 8 x :: natLe n (x / 256)

def fieldLe (bs : List Byte) (o n : Nat) : Nat := leNat ((bs.drop o).take n)

/-- Bits [hi:lo] of a natural. -/
def bitsOf (x hi lo : Nat) : Nat := x / 2 ^ lo % 2 ^ (hi + 1 - lo)

/-- Bit `n` of a natural. -/
def bitOf (x n : Nat) : Bool := x / 2 ^ n % 2 == 1

/-- ceil(a / b). -/
def ceilDiv (a b : Nat) : Nat := (a + b - 1) / b

/-- `a` rounded up to a multiple of `b`. -/
def roundUp (a b : Nat) : Nat := ceilDiv a b * b

/-- The indices of the set bits of a mask below `n`, ascending. -/
def maskBits (mask n : Nat) : List Nat := (List.range n).filter (fun i => bitOf mask i)

/-- Adds with a largest value at which a counter stops. -/
def satAdd (limit a b : Nat) : Nat := min limit (a + b)

def size2MiB : Nat := 2097152

/-- Bytes of a scratchpad. -/
def spadSize : Nat := 25165824

/-! Units. -/

def State.tile (s : State) (t : Nat) : TileSt := s.tiles.get .init t

def State.setTile (s : State) (t : Nat) (x : TileSt) : State := { s with tiles := s.tiles.set .init t x }

def State.modTile (s : State) (t : Nat) (f : TileSt → TileSt) : State := s.setTile t (f (s.tile t))

def State.dealer (s : State) (d : Nat) : DealerSt := s.dealers.get .init d

def State.setDealer (s : State) (d : Nat) (x : DealerSt) : State := { s with dealers := s.dealers.set .init d x }

def State.modDealer (s : State) (d : Nat) (f : DealerSt → DealerSt) : State := s.setDealer d (f (s.dealer d))

def State.stack (s : State) (k : Nat) : StackSt := s.mem.stk.get .init k

def State.setStack (s : State) (k : Nat) (x : StackSt) : State :=
  { s with mem := { s.mem with stk := s.mem.stk.set .init k x } }

def State.modStack (s : State) (k : Nat) (f : StackSt → StackSt) : State := s.setStack k (f (s.stack k))

def State.ring (s : State) (r : Nat) : RingSt := s.sched.rings.get .init r

def State.setRing (s : State) (r : Nat) (x : RingSt) : State :=
  { s with sched := { s.sched with rings := s.sched.rings.set .init r x } }

def State.modRing (s : State) (r : Nat) (f : RingSt → RingSt) : State := s.setRing r (f (s.ring r))

def State.job (s : State) (j : Nat) : Option JobSt := s.sched.jobs.get none j

def State.setJob (s : State) (j : Nat) (x : Option JobSt) : State :=
  { s with sched := { s.sched with jobs := s.sched.jobs.set none j x } }

def State.modJob (s : State) (j : Nat) (f : JobSt → JobSt) : State :=
  match s.job j with
  | some x => s.setJob j (some (f x))
  | none => s

/-- A fresh free value: it and the counter's advance (log entry 11). -/
def State.draw (s : State) : W64 × State := (Config.freeWord s.freeCtr, { s with freeCtr := s.freeCtr + 1 })

/-- Sends a message out of the module (log entry 20). -/
def State.send (s : State) (m : OutMsg) : State := { s with outbox := s.outbox ++ [m] }

/-! Error records. -/

/-- Die class and index of a tile, a Dealer, a stack, an edge die and the conductor (R3). -/
def dieOfTile (t : Nat) : Nat × Nat := (2, t / 12)

/-- Adds a record to its die's local log of 16; a full log drops and counts it (R487). -/
def State.logRec (s : State) (r : ErrRec) : State :=
  let k := r.cls * 64 + r.idx
  let l := s.logs.locals.get .init k
  let l' := if l.recs.length < 16 then { l with recs := l.recs ++ [r] } else { l with dropped := l.dropped + 1 }
  { s with logs := { s.logs with locals := s.logs.locals.set .init k l' } }

/-- Function that owns a job, 0xFF when none (Table 9 of 16). -/
def State.jobFunc (s : State) (j : Nat) : Nat :=
  match s.job j with
  | some x => x.func
  | none => 0xFF

/-- What a record says beside its code (Table 9 of 16). -/
structure RecInfo where
  cls  : Nat := 0
  idx  : Nat := 0
  unit : Nat := 0xFFFF
  job  : Nat := 0
  func : Nat := 0xFF
  data : List Byte := []
  /-- It reports a job faulting, being cancelled or being refused (R508). -/
  jobFaults : Bool := false
  deriving DecidableEq, Repr

/-- LAST_CODE of the security class and of the reset class (R472, R490). -/
def State.noteCode (s : State) (code : Code) : State :=
  if code.toNat / 256 = 9 then { s with sec := { s.sec with lastCode := code } }
  else if code.toNat / 256 = 11 then { s with boot := { s.boot with lastCode := code } }
  else s

/-- Reports one error code as one record (R487); DIE_TIME is a free value (log entry 3). -/
def State.report (s : State) (code : Code) (i : RecInfo) : State :=
  let (w, s) := s.draw
  (s.logRec
    { code := code, sev := severity code i.jobFaults, cls := i.cls, idx := i.idx,
      func := if i.job = 0 then i.func else s.jobFunc i.job, unit := i.unit, job := i.job, data := i.data,
      time := w.truncate 32 }).noteCode code

/-- Reports a code once for a job (R133, R410, R439, R443, R444). -/
def State.reportOnce (s : State) (j : Nat) (code : Code) (i : RecInfo) : State :=
  match s.job j with
  | some x =>
    if x.logged.contains code.toNat then s
    else (s.setJob j (some { x with logged := code.toNat :: x.logged })).report code i
  | none => s

/-- A fault code reaches the conductor for a job: the first one is kept (R424). -/
def State.faultJob (s : State) (j : Nat) (code : Code) : State :=
  s.modJob j (fun x => if x.fault.isSome then x else { x with fault := some code })

/-- A job faults with a code, and the record says so. -/
def State.jobFaults (s : State) (j : Nat) (code : Code) (i : RecInfo) : State :=
  (s.report code { i with job := j, jobFaults := true }).faultJob j code

/-! The unified range. -/

/-- Good channels of a stack. -/
def StackSt.goodCount (k : StackSt) : Nat := (maskBits k.good.toNat 32).length

/-- Frames of a stack (R271). -/
def State.stackFrames (s : State) (k : Nat) : Nat := 1024 * (s.stack k).goodCount

/-- Frames available to jobs: those of the good channels, the reserved 512 and the retired ones apart (R272, R288). -/
def State.framesAvail (s : State) : Nat :=
  ((List.range 32).map s.stackFrames).sum - 512 - (s.mem.badFrames.filter (fun p => decide (2 ≤ p.2))).length

/-- Range pages of the unified range (R273). -/
def State.rangePages (s : State) : Nat := s.framesAvail + s.mem.ftl.logicalPages

def State.page (s : State) (p : Nat) : Option PageSt := s.mem.pages.get none p

def State.setPage (s : State) (p : Nat) (x : Option PageSt) : State :=
  { s with mem := { s.mem with pages := s.mem.pages.set none p x } }

def State.object (s : State) (base : Nat) : Option ObjectSt := s.mem.objects.get none base

def State.setObject (s : State) (base : Nat) (x : Option ObjectSt) : State :=
  { s with mem := { s.mem with objects := s.mem.objects.set none base x } }

/-- Global frame number of a resident or arriving page. -/
def PageSt.frame (p : PageSt) : Option Nat :=
  match p.place with
  | .resident f => some f
  | .migratingIn f => some f
  | .migratingOut f => some f
  | .flash => none

def PageSt.isResident (p : PageSt) : Bool :=
  match p.place with
  | .resident _ => true
  | _ => false

/-- A job may reach an object: it owns it, or a ring of its function does (R463). -/
def State.jobReaches (s : State) (j : Nat) (o : ObjectSt) : Bool :=
  match o.owner with
  | .job k => k == j
  | .ring _ => s.jobFunc j == o.func
  | .conductor => false

/-- Who makes an access: a job, or a function through the host port (R463). -/
inductive Who where
  | job (j : Nat)
  | func (f : Nat)
  | conductor
  deriving DecidableEq, Repr

def State.reaches (s : State) (w : Who) (o : ObjectSt) : Bool :=
  match w with
  | .job j => s.jobReaches j o
  | .func f =>
    match o.owner with
    | .conductor => false
    | _ => o.func == f
  | .conductor => true

/-- Range pages that `n` bytes at an address touch. -/
def pagesOf (addr n : Nat) : List Nat :=
  if n = 0 then []
  else (List.range ((addr + n - 1) / size2MiB + 1 - addr / size2MiB)).map (· + addr / size2MiB)

/-- The window check of one page (R274): the code it raises. -/
def State.checkPage (s : State) (w : Who) (p : Nat) : Option Code :=
  if s.rangePages ≤ p then some Codes.memWindow
  else
    match s.page p with
    | none => some Codes.memUnmapped
    | some x =>
      match s.object x.object with
      | none => some Codes.memUnmapped
      | some o => if s.reaches w o then none else some Codes.memWindow

/-- The window check of the bytes an access touches: the first page that fails says the code (R274). -/
def State.checkRange (s : State) (w : Who) (addr n : Nat) : Option Code :=
  (pagesOf addr n).findSome? (s.checkPage w)

/-- Pages of an access that are not resident (R280). -/
def State.absentPages (s : State) (addr n : Nat) : List Nat :=
  (pagesOf addr n).filter (fun p =>
    match s.page p with
    | some x => !x.isResident
    | none => false)

/-- Reads bytes of the unified range. -/
def State.readMem (s : State) (addr n : Nat) : List Byte := s.mem.bytes.getRange 0 addr n

/-- Reads a little-endian value. -/
def State.readLe (s : State) (addr n : Nat) : Nat := leNat (s.readMem addr n)

/-- Marks pages as written since their arrival (R279). -/
def State.touchPages (s : State) (ps : List Nat) : State :=
  ps.foldl (fun s p =>
    match s.page p with
    | some x => s.setPage p (some { x with written := true })
    | none => s) s

/-- Writes bytes of the unified range. -/
def State.writeMem (s : State) (addr : Nat) (bs : List Byte) : State :=
  let s := { s with mem := { s.mem with bytes := s.mem.bytes.setRange 0 addr bs } }
  s.touchPages (pagesOf addr bs.length)

def State.writeLe (s : State) (addr n x : Nat) : State := s.writeMem addr (natLe n x)

/-- Job is latency-critical. -/
def State.isLc (s : State) (j : Nat) : Bool :=
  match s.job j with
  | some x => x.desc.cls == 1
  | none => false

/-- An access waits on pages: each flash page queues one migration, and the wait is reported (R280, R281). -/
def State.waitOn (s : State) (job cls idx : Nat) (ps : List Nat) : State :=
  ps.foldl (fun s p =>
    let w : Waiter := ⟨p, job, cls, idx⟩
    let ws := if s.mem.waiters.contains w then s.mem.waiters else s.mem.waiters ++ [w]
    let q := if s.mem.queue.any (fun m => m.page == p) then
        s.mem.queue.map (fun m => if m.page == p then { m with lc := m.lc || s.isLc job } else m)
      else
        match s.page p with
        | some x =>
          match x.place with
          | .migratingIn _ => s.mem.queue
          | _ => s.mem.queue ++ [⟨p, s.isLc job⟩]
        | none => s.mem.queue
    { s with mem := { s.mem with waiters := ws, queue := q } }) s

/-- Requester classes of `Waiter`. -/
def reqTile : Nat := 0
def reqDealer : Nat := 1
def reqEngine : Nat := 2
def reqCodec : Nat := 3

/-! Tiles. -/

/-- Job that holds a tile on this module, from the places of the running jobs. -/
def State.tileJob (s : State) (t : Nat) : Option Nat :=
  (s.sched.jobs.find? (fun p =>
    match p.2 with
    | some x =>
      x.places.any (fun pl => pl.die == t / 12 && bitOf pl.mask (t % 12)) && x.phase != .saved && x.phase != .waiting
    | none => false)).map (·.1)

/-- Global indices of the tiles a job holds, ascending (die order of its places). -/
def JobSt.tiles (x : JobSt) : List Nat :=
  x.places.flatMap (fun p => (maskBits p.mask 12).map (fun i => p.die * 12 + i))

def State.jobTiles (s : State) (j : Nat) : List Nat :=
  match s.job j with
  | some x => x.tiles
  | none => []

/-- Job number of the hand on a tile, 0 when none. -/
def TileSt.job (x : TileSt) : Nat :=
  match x.hand with
  | some h => h.job
  | none => 0

def TileSt.handId (x : TileSt) : W64 :=
  match x.hand with
  | some h => h.id
  | none => 0

/-- DATA of a tile fault: HAND_ID, SLOT, PRECISE, TRAP CODE (Table 10 of 16). -/
def tileFaultData (hand : W64) (slot : Nat) (precise : Bool) (trap : Nat) : List Byte :=
  natLe 8 hand.toNat ++ natLe 2 slot ++ natLe 1 (if precise then 1 else 0) ++ natLe 1 0 ++ natLe 2 trap

/-- Record of a tile. -/
def tileInfo (s : State) (t : Nat) (data : List Byte) : RecInfo :=
  { cls := 2, idx := t / 12, unit := t % 12, job := (s.tile t).job, data := data }

/-- A precise fault found by a tile (R72): issue stops, TILE.FAULT is written, the Dealer and the conductor learn. -/
def State.tileFaultTrap (s : State) (t slot : Nat) (code : Code) (trap : Nat) : State :=
  let x := s.tile t
  let id := x.handId
  let s' := s.setTile t { x with run := .faulted,
                                 regs := { x.regs with fault := ⟨id.truncate 32, true, true, slot, code⟩ } }
  s'.jobFaults x.job code (tileInfo s' t (tileFaultData id slot true trap))

def State.tileFault (s : State) (t slot : Nat) (code : Code) : State := s.tileFaultTrap t slot code 0

/-- An imprecise report against a slot of the hand on a tile (R54, R298): TILE.FAULT takes it when it holds no fault. -/
def State.tileReport (s : State) (t slot : Nat) (code : Code) (job : Nat) (hand : W64) (data : List Byte) : State :=
  let x := s.tile t
  let s' :=
    if x.regs.fault.valid || (match x.hand with | some h => h.id != hand || h.job != job | none => true) then s
    else s.setTile t { x with regs := { x.regs with fault := ⟨hand.truncate 32, true, false, slot, code⟩ } }
  s'.jobFaults job code { cls := 2, idx := t / 12, unit := t % 12, data := data }

end Sys2Proof.Machine
end

