-- ==== Sys2Proof/Machine/Issue.lean ====
section
/-!
DEFINITION. Machine/Issue.lean: how a tile issues one instruction: the slot at the program counter, the guard, the
faults, the loop ends (R25, R33, R35, R45, R46, R71, R72).
-/

namespace Sys2Proof.Machine

/-- Scalar register; `s0` reads as zero (Table 1 of 02). -/
def TileSt.sreg (x : TileSt) (r : BitVec 5) : W64 := if r = 0 then 0 else x.s.get 0 r.toNat

/-- Writes a scalar register; writes to `s0` are discarded. -/
def TileSt.setS (x : TileSt) (r : BitVec 5) (v : W64) : TileSt :=
  if r = 0 then x else { x with s := x.s.set 0 r.toNat v }

/-- Predicate register; `p0` reads as all ones. -/
def TileSt.preg (x : TileSt) (r : BitVec 3) : BitVec 512 := if r = 0 then BitVec.allOnes 512 else x.p.get 0 r.toNat

/-- Writes a predicate register; writes to `p0` are discarded. -/
def TileSt.setP (x : TileSt) (r : BitVec 3) (v : BitVec 512) : TileSt :=
  if r = 0 then x else { x with p := x.p.set 0 r.toNat v }

/-- The 512 lanes of a vector register. -/
def TileSt.vreg (x : TileSt) (r : BitVec 4) : List W32 := x.v.getRange 0 (512 * r.toNat) 512

/-- Writes the 512 lanes of a vector register. -/
def TileSt.setV (x : TileSt) (r : BitVec 4) (lanes : List W32) : TileSt :=
  { x with v := x.v.setRange 0 (512 * r.toNat) (lanes.take 512) }

def TileSt.dreg (x : TileSt) (r : BitVec 6) : Desc := x.d.get 0 r.toNat

def TileSt.setD (x : TileSt) (r : BitVec 6) (v : Desc) : TileSt := { x with d := x.d.set 0 r.toNat v }

def TileSt.ereg (x : TileSt) (i : Nat) : W32 := x.e.get 0 i

def TileSt.setE (x : TileSt) (i : Nat) (v : W32) : TileSt := { x with e := x.e.set 0 i v }

/-- The guard as it applies to lanes: bit i says that lane i executes (R33). -/
def TileSt.lanes (x : TileSt) (g : Guard) : BitVec 512 :=
  if g.inv then ~~~(x.preg g.reg) else x.preg g.reg

/-- Whether an instruction of classes 0 to 4 and 7 executes (R33). -/
def TileSt.executes (x : TileSt) (g : Guard) : Bool := (x.lanes g).getLsbD 0

/-- Where execution goes after slot `pc`: a loop whose END is this slot runs another pass or ends (R46). -/
def nextSlot : List LoopEnt → Nat → List LoopEnt × Nat
  | [], pc => ([], pc + 1)
  | l :: ls, pc =>
    if l.stop = pc then
      if 1 < l.left then ({ l with left := l.left - 1 } :: ls, l.start) else nextSlot ls pc
    else (l :: ls, pc + 1)

/-- Pops every loop whose body excludes a branch target (R46). -/
def popLoops : List LoopEnt → Nat → List LoopEnt
  | [], _ => []
  | l :: ls, target => if l.start ≤ target ∧ target ≤ l.stop then l :: ls else popLoops ls target

/-- The instruction at the program counter has completed. -/
def TileSt.advance (x : TileSt) : TileSt :=
  let n := nextSlot x.loops x.pc
  { x with loops := n.1, pc := n.2 }

/-- Jumps to a slot. -/
def TileSt.jump (x : TileSt) (target : Nat) : TileSt := { x with loops := popLoops x.loops target, pc := target }

/-- Counts an issued instruction (counter 3 of Table 24 of 02). -/
def TileSt.countIssue (x : TileSt) : TileSt := { x with issued := (x.issued + 1) % 2 ^ 64 }

/-- What an instruction does when it issues at a tile. -/
inductive Eff where
  /-- The effect on the machine; the program counter then moves on. -/
  | done (s : State)
  /-- The effect, the program counter already set. -/
  | moved (s : State)
  /-- A precise fault (R72). -/
  | fault (code : Code)
  /-- A precise fault of TRAP with its CODE. -/
  | trap (code : Code) (n : Nat)
  /-- The instruction has not issued: it stalls, and the state says what it waits for (R38, R280). -/
  | stall (s : State)
  deriving DecidableEq, Repr

/-- INSN_COUNT of the running hand. -/
def TileSt.insnCount (x : TileSt) : Nat :=
  match x.hand with
  | some h => h.count
  | none => 0

/-- A tile can issue the instruction `word`: it runs a hand dealt as an image, and the word stands at its program
counter (R25, R35; log entry 1). -/
def TileSt.canIssue (x : TileSt) (word : Slot) : Bool :=
  (x.run == .running)
    && (match x.hand with | some h => h.gen.isNone | none => false)
    && decide (1 ≤ x.pc) && decide (x.pc ≤ x.insnCount) && x.ibuf.get 0 x.pc == word

/-- Issues one instruction whose guard decides as a whole (R33). -/
def issue (t : Tile) (g : Guard) (word : Slot) (body : State → Eff) (s : State) : State :=
  let x := s.tile t
  if x.canIssue word then
    if x.executes g then
      match body s with
      | .done s' => s'.modTile t (fun y => y.countIssue.advance)
      | .moved s' => s'.modTile t TileSt.countIssue
      | .fault code => s.tileFault t x.pc code
      | .trap code n => s.tileFaultTrap t x.pc code n
      | .stall s' => s'
    else s.setTile t x.countIssue.advance
  else s

/-- Issues one vector or special-function instruction: it always issues, and the guard decides lane by lane (R33). -/
def issueLanes (t : Tile) (g : Guard) (word : Slot) (body : BitVec 512 → State → Eff) (s : State) : State :=
  let x := s.tile t
  if x.canIssue word then
    match body (x.lanes g) s with
    | .done s' => s'.modTile t (fun y => y.countIssue.advance)
    | .moved s' => s'.modTile t TileSt.countIssue
    | .fault code => s.tileFault t x.pc code
    | .trap code n => s.tileFaultTrap t x.pc code n
    | .stall s' => s'
  else s

/-- An instruction that changes only its tile. -/
def onTile (t : Tile) (f : TileSt → TileSt) (s : State) : Eff := .done (s.modTile t f)

end Sys2Proof.Machine
end

