-- ==== Sys2Proof/Machine/Control.lean ====
section
/-!
DEFINITION. Machine/Control.lean: class 0, control and sync, but for HALT and the end of a hand (R45 to R49, R441, R442).
-/

namespace Sys2Proof.Machine

/-- A WAIT completes when (counter - target) mod 2^32 is below 2^31 (R47). -/
def waitReached (counter target : W32) : Bool := decide ((counter - target).toNat < 2 ^ 31)

/-- A waiting WAIT finishes when its counter has reached its target (R47). -/
def TileSt.wake (x : TileSt) : TileSt :=
  match x.run with
  | .waitEvt e tgt => if waitReached (x.ereg e) tgt then { x with run := .running }.advance else x
  | _ => x

/-- Adds to an event counter, modulo 2^32 (R47). -/
def TileSt.bump (x : TileSt) (e inc : Nat) : TileSt := (x.setE e (x.ereg e + BitVec.ofNat 32 inc)).wake

def execNop (t : Tile) (g : Guard) (s : State) : Host.Outcome State Fault Refusal :=
  .next (issue t g (slotOf (.nop t g)) (onTile t (fun x => x)) s)

/-- Jumps to a slot from 1 to INSN_COUNT (R45, R46). -/
def brEff (t : Tile) (target : Nat) (s : State) : Eff :=
  let x := s.tile t
  if 1 ≤ target ∧ target ≤ x.insnCount then .moved (s.setTile t (x.jump target))
  else .fault Codes.isaPcRange

def execBr (t : Tile) (g : Guard) (target : BitVec 12) (s : State) : Host.Outcome State Fault Refusal :=
  .next (issue t g (slotOf (.br t g target)) (brEff t target.toNat) s)

def execBrr (t : Tile) (g : Guard) (sx : BitVec 5) (s : State) : Host.Outcome State Fault Refusal :=
  .next (issue t g (slotOf (.brr t g sx)) (fun s => brEff t ((s.tile t).sreg sx).toNat s) s)

/-- Value of a 32-bit count or target. -/
def TileSt.cnt (x : TileSt) : Cnt → W32
  | .reg r => (x.sreg r).truncate 32
  | .imm v => v

/-- LOOP (R46): a zero count goes past END without pushing; else an entry is pushed, at most four, and no inner loop ends
past the innermost active one. -/
def loopEff (t : Tile) (last : Nat) (cnt : Cnt) (s : State) : Eff :=
  let x := s.tile t
  let n := (x.cnt cnt).toNat
  if ¬(x.pc < last ∧ last ≤ x.insnCount) then .fault Codes.isaPcRange
  else if n = 0 then
    .moved (s.setTile t ({ x with loops := popLoops x.loops last, pc := last }.advance))
  else if (match x.loops with | l :: _ => decide (l.stop < last) | [] => false) then .fault Codes.isaPcRange
  else if 4 ≤ x.loops.length then .fault Codes.isaLoopDepth
  else .moved (s.setTile t { x with loops := ⟨x.pc + 1, last, n⟩ :: x.loops, pc := x.pc + 1 })

def execLoop (t : Tile) (g : Guard) (last : BitVec 12) (cnt : Cnt) (s : State) : Host.Outcome State Fault Refusal :=
  .next (issue t g (slotOf (.loop t g last cnt)) (loopEff t last.toNat cnt) s)

/-- WAIT (R47): completes at once when the counter has reached the target, else the tile waits. -/
def waitEff (t : Tile) (evt : Nat) (tgt : Cnt) (s : State) : Eff :=
  let x := s.tile t
  .moved (s.setTile t ({ x with run := .waitEvt evt (x.cnt tgt) }.wake))

def execWait (t : Tile) (g : Guard) (evt : BitVec 4) (tgt : Cnt) (s : State) : Host.Outcome State Fault Refusal :=
  .next (issue t g (slotOf (.wait t g evt tgt)) (waitEff t evt.toNat tgt) s)

/-- A WAIT or BARRIER still waiting when its limit expires; a limit of zero never does (R47). -/
def waitTimeout (t : Tile) (s : State) : State :=
  let x := s.tile t
  let waits := match x.run with
    | .waitEvt _ _ => true
    | .waitBar _ => true
    | _ => false
  let limit := match x.hand with
    | some h => h.waitLimit
    | none => 0
  if waits && limit != 0 then s.tileFault t x.pc Codes.isaWaitTimeout else s

def execIsaWaitTimeout (t : Tile) (s : State) : Host.Outcome State Fault Refusal := .next (waitTimeout t s)

/-- SIGNAL (R48): the target must be a tile of the job on this module. -/
def signalEff (t : Tile) (evt tgt inc : Nat) (s : State) : Eff :=
  if 95 < tgt ∨ inc = 0 then .fault Codes.isaFieldRange
  else if (s.jobTiles (s.tile t).job).contains tgt then .done (s.modTile tgt (fun y => y.bump evt inc))
  else .fault Codes.isaSignalTarget

def execSignal (t : Tile) (g : Guard) (evt : BitVec 4) (tgt : BitVec 7) (inc : BitVec 16) (s : State) :
    Host.Outcome State Fault Refusal :=
  .next (issue t g (slotOf (.signal t g evt tgt inc)) (signalEff t evt.toNat tgt.toNat inc.toNat) s)

/-- Every tile that the job holds waits at barrier `bid` (R49). -/
def barrierFull (s : State) (j bid : Nat) : Bool :=
  (s.jobTiles j).all (fun t => (s.tile t).run == .waitBar bid)

/-- BARRIER (R49, R441): the last tile completes it for all, and each tile is held for its wave. -/
def barrierEff (t : Tile) (bid : Nat) (s : State) : Eff :=
  let j := (s.tile t).job
  let s' := s.modTile t (fun x => { x with run := .waitBar bid })
  if barrierFull s' j bid then
    .moved ((s'.jobTiles j).foldl (fun s u => s.modTile u (fun x => { x with run := .held })) s')
  else .moved s'

def execBarrier (t : Tile) (g : Guard) (bid : BitVec 4) (s : State) : Host.Outcome State Fault Refusal :=
  .next (issue t g (slotOf (.barrier t g bid)) (barrierEff t bid.toNat) s)

/-- A DMA writes to the scope of a FENCE: 01 scratchpad, 10 stack memory, 00 and 11 both (Table 9 of 02). -/
def inScope (scope : Nat) (dst : Desc) : Bool :=
  let space := bitsOf dst.toNat 19 16
  match scope with
  | 1 => space == 0
  | 2 => space == 1
  | _ => true

/-- FENCE waits until this tile's earlier DMAs and stores in its scope are visible. -/
def fenceEff (t : Tile) (scope : Nat) (s : State) : Eff :=
  let x := s.tile t
  if x.dmas.any (fun r => inScope scope r.dst) || (scope != 1 && !x.appends.isEmpty) then .stall s
  else .done s

def execFence (t : Tile) (g : Guard) (scope : BitVec 2) (s : State) : Host.Outcome State Fault Refusal :=
  .next (issue t g (slotOf (.fence t g scope)) (fenceEff t scope.toNat) s)

def execTrap (t : Tile) (g : Guard) (code : BitVec 16) (s : State) : Host.Outcome State Fault Refusal :=
  .next (issue t g (slotOf (.trap t g code)) (fun _ => .trap Codes.isaTrap code.toNat) s)

/-- Running past slot INSN_COUNT without a HALT (R45). -/
def pastEnd (t : Tile) (s : State) : State :=
  let x := s.tile t
  if x.run == .running && x.pc == x.insnCount + 1 && x.insnCount != 0 then
    s.tileFault t x.insnCount Codes.isaPcRange
  else s

def execRunPastEnd (t : Tile) (s : State) : Host.Outcome State Fault Refusal := .next (pastEnd t s)

end Sys2Proof.Machine
end

