-- ==== Sys2Proof/Machine/Scalar.lean ====
section
/-!
DEFINITION. Machine/Scalar.lean: class 1, scalar instructions (R50, Tables 10 and 11 of 02).
-/

namespace Sys2Proof.Machine

/-- op2 (Table 11 of 02). -/
def TileSt.op2 (x : TileSt) : Op2 → W64
  | .reg r => x.sreg r
  | .imm v => v

/-- rd takes f(rs1, op2). -/
def scalarOp (word : Slot) (f : W64 → W64 → W64) (t : Tile) (g : Guard) (rd rs1 : BitVec 5) (y : Op2) (s : State) :
    State :=
  issue t g word (onTile t (fun x => x.setS rd (f (x.sreg rs1) (x.op2 y)))) s

/-- Shift amount: op2 mod 64 (Table 10 of 02). -/
def shiftAmount (y : W64) : Nat := y.toNat % 64

/-- The conditions of CMP: 000 EQ, 001 NE, 010 signed LT, 011 unsigned LT, 100 signed GE, 101 unsigned GE. -/
def cmpCond (cond : BitVec 3) (a b : W64) : Option Bool :=
  match cond.toNat with
  | 0 => some (a == b)
  | 1 => some (a != b)
  | 2 => some (a.slt b)
  | 3 => some (a.ult b)
  | 4 => some (!(a.slt b))
  | 5 => some (!(a.ult b))
  | _ => none

/-- A scratchpad address of `n` bytes: aligned to `n` and below 24 MiB (R50). -/
def spadFault (n : Nat) (a : W64) : Option Code :=
  if a.toNat % n ≠ 0 then some Codes.isaMisalign
  else if spadSize ≤ a.toNat then some Codes.isaAddrRange
  else none

def execAdd (t : Tile) (g : Guard) (rd rs1 : BitVec 5) (y : Op2) (s : State) : Host.Outcome State Fault Refusal :=
  .next (scalarOp (encScalar 0x00 g rd rs1 y) (· + ·) t g rd rs1 y s)

def execSub (t : Tile) (g : Guard) (rd rs1 : BitVec 5) (y : Op2) (s : State) : Host.Outcome State Fault Refusal :=
  .next (scalarOp (encScalar 0x01 g rd rs1 y) (· - ·) t g rd rs1 y s)

/-- Low 64 bits of the product. -/
def execMul (t : Tile) (g : Guard) (rd rs1 : BitVec 5) (y : Op2) (s : State) : Host.Outcome State Fault Refusal :=
  .next (scalarOp (encScalar 0x02 g rd rs1 y) (· * ·) t g rd rs1 y s)

def execAnd (t : Tile) (g : Guard) (rd rs1 : BitVec 5) (y : Op2) (s : State) : Host.Outcome State Fault Refusal :=
  .next (scalarOp (encScalar 0x03 g rd rs1 y) (· &&& ·) t g rd rs1 y s)

def execOr (t : Tile) (g : Guard) (rd rs1 : BitVec 5) (y : Op2) (s : State) : Host.Outcome State Fault Refusal :=
  .next (scalarOp (encScalar 0x04 g rd rs1 y) (· ||| ·) t g rd rs1 y s)

def execXor (t : Tile) (g : Guard) (rd rs1 : BitVec 5) (y : Op2) (s : State) : Host.Outcome State Fault Refusal :=
  .next (scalarOp (encScalar 0x05 g rd rs1 y) (· ^^^ ·) t g rd rs1 y s)

def execShl (t : Tile) (g : Guard) (rd rs1 : BitVec 5) (y : Op2) (s : State) : Host.Outcome State Fault Refusal :=
  .next (scalarOp (encScalar 0x06 g rd rs1 y) (fun a b => a <<< shiftAmount b) t g rd rs1 y s)

def execShr (t : Tile) (g : Guard) (rd rs1 : BitVec 5) (y : Op2) (s : State) : Host.Outcome State Fault Refusal :=
  .next (scalarOp (encScalar 0x07 g rd rs1 y) (fun a b => a >>> shiftAmount b) t g rd rs1 y s)

def execSra (t : Tile) (g : Guard) (rd rs1 : BitVec 5) (y : Op2) (s : State) : Host.Outcome State Fault Refusal :=
  .next (scalarOp (encScalar 0x08 g rd rs1 y) (fun a b => a.sshiftRight (shiftAmount b)) t g rd rs1 y s)

def execMins (t : Tile) (g : Guard) (rd rs1 : BitVec 5) (y : Op2) (s : State) : Host.Outcome State Fault Refusal :=
  .next (scalarOp (encScalar 0x09 g rd rs1 y) (fun a b => if b.slt a then b else a) t g rd rs1 y s)

def execMaxs (t : Tile) (g : Guard) (rd rs1 : BitVec 5) (y : Op2) (s : State) : Host.Outcome State Fault Refusal :=
  .next (scalarOp (encScalar 0x0A g rd rs1 y) (fun a b => if a.slt b then b else a) t g rd rs1 y s)

def execMinu (t : Tile) (g : Guard) (rd rs1 : BitVec 5) (y : Op2) (s : State) : Host.Outcome State Fault Refusal :=
  .next (scalarOp (encScalar 0x0B g rd rs1 y) (fun a b => if b.ult a then b else a) t g rd rs1 y s)

def execMaxu (t : Tile) (g : Guard) (rd rs1 : BitVec 5) (y : Op2) (s : State) : Host.Outcome State Fault Refusal :=
  .next (scalarOp (encScalar 0x0C g rd rs1 y) (fun a b => if a.ult b then b else a) t g rd rs1 y s)

/-- Sets every lane of predicate rd; RD above 7 or a condition of 110 or 111 raises ISA_FIELD_RANGE (R50). -/
def cmpEff (t : Tile) (cond : BitVec 3) (rd rs1 : BitVec 5) (y : Op2) (s : State) : Eff :=
  let x := s.tile t
  match cmpCond cond (x.sreg rs1) (x.op2 y) with
  | none => .fault Codes.isaFieldRange
  | some b =>
    if 7 < rd.toNat then .fault Codes.isaFieldRange
    else onTile t (fun x => x.setP (rd.truncate 3) (if b then BitVec.allOnes 512 else 0)) s

def execCmp (t : Tile) (g : Guard) (cond : BitVec 3) (rd rs1 : BitVec 5) (y : Op2) (s : State) :
    Host.Outcome State Fault Refusal :=
  .next (issue t g (encCmp g cond rd rs1 y) (cmpEff t cond rd rs1 y) s)

/-- rd takes 64 bits at scratchpad address rs1 + IMM64 (R50). -/
def ldEff (t : Tile) (rd rs1 : BitVec 5) (imm : W64) (s : State) : Eff :=
  let x := s.tile t
  let a := x.sreg rs1 + imm
  match spadFault 8 a with
  | some c => .fault c
  | none => onTile t (fun x => x.setS rd (BitVec.ofNat 64 (leNat (x.spad.getRange 0 a.toNat 8)))) s

def execLd (t : Tile) (g : Guard) (rd rs1 : BitVec 5) (imm : W64) (s : State) : Host.Outcome State Fault Refusal :=
  .next (issue t g (slotOf (.ld t g rd rs1 imm)) (ldEff t rd rs1 imm) s)

/-- 64 bits at scratchpad address rs1 + IMM64 take rs2 (R50). -/
def stEff (t : Tile) (rs1 rs2 : BitVec 5) (imm : W64) (s : State) : Eff :=
  let x := s.tile t
  let a := x.sreg rs1 + imm
  match spadFault 8 a with
  | some c => .fault c
  | none => onTile t (fun x => { x with spad := x.spad.setRange 0 a.toNat (natLe 8 (x.sreg rs2).toNat) }) s

def execSt (t : Tile) (g : Guard) (rs1 rs2 : BitVec 5) (imm : W64) (s : State) : Host.Outcome State Fault Refusal :=
  .next (issue t g (slotOf (.st t g rs1 rs2 imm)) (stEff t rs1 rs2 imm) s)

/-- rd takes an event counter, zero-extended; a counter above 15 raises ISA_FIELD_RANGE (Table 10 of 02). -/
def mfeEff (t : Tile) (rd rs1 : BitVec 5) (s : State) : Eff :=
  if 15 < rs1.toNat then .fault Codes.isaFieldRange
  else onTile t (fun x => x.setS rd ((x.ereg rs1.toNat).zeroExtend 64)) s

def execMfe (t : Tile) (g : Guard) (rd rs1 : BitVec 5) (s : State) : Host.Outcome State Fault Refusal :=
  .next (issue t g (slotOf (.mfe t g rd rs1)) (mfeEff t rd rs1) s)

end Sys2Proof.Machine
end

