-- ==== Sys2Proof/Machine/Operands.lean ====
section
/-!
DEFINITION. Machine/Operands.lean: descriptors, their checks, and the elements they name (R27, R28, R34, R41 to R43, R172,
R173, R183, R243, R244).
-/

namespace Sys2Proof.Machine

/-! Headers (R27, R28). -/

/-- A header of generation 2, minor version 0 and the given TYPE. -/
def hdrOk (h type : Nat) : Bool := h == 0x2000 + type

/-- GEN = 2 and MINOR no greater than 0, whatever the TYPE. -/
def hdrVersionOk (h : Nat) : Bool := h / 256 == 0x20

def descType (d : Desc) : Nat := d.toNat % 256

def descHdr (d : Desc) : Nat := d.toNat % 65536

/-! Tensor descriptors (R41). -/

structure Tensor where
  fmt   : Nat
  fine  : Bool
  space : Nat
  rank  : Nat
  base  : Nat
  scaleBase   : Nat
  scaleStride : Nat
  e0 : Nat
  e1 : Nat
  e2 : Nat
  e3 : Nat
  e4 : Nat
  st1 : Nat
  st2 : Nat
  st3 : Nat
  st4 : Nat
  deriving DecidableEq, Repr

/-- Fields of Table 6 of 02; dimensions at or above RANK have extent 1 (R42). -/
def tensorOf (d : Desc) : Tensor :=
  let x := d.toNat
  let rank := bitsOf x 30 28
  let ext (i hi lo : Nat) : Nat := if i < rank then bitsOf x hi lo else 1
  { fmt := bitsOf x 25 20, fine := bitOf x 26, space := bitsOf x 19 16, rank := rank, base := bitsOf x 111 64,
    scaleBase := bitsOf x 175 128, scaleStride := bitsOf x 63 32,
    e0 := ext 0 215 192, e1 := ext 1 239 216, e2 := ext 2 263 240, e3 := ext 3 287 264, e4 := ext 4 311 288,
    st1 := bitsOf x 351 312, st2 := bitsOf x 391 352, st3 := bitsOf x 431 392, st4 := bitsOf x 471 432 }

/-- Block length of a tensor's format; 1 for a format without scales (R42, R44). -/
def Tensor.block (t : Tensor) : Nat :=
  if fmtMx t.fmt then 32 else if fmtKremor t.fmt then blockLen t.fine else 1

/-- Bytes of a space (R43). -/
def State.spaceBytes (s : State) (space : Nat) : Nat :=
  match space with
  | 0 => spadSize
  | 2 => 2097152
  | _ => s.rangePages * size2MiB

/-- End of the region of elements (R42, R43). -/
def Tensor.regionEnd (t : Tensor) : Nat :=
  t.base + (t.e1 - 1) * t.st1 + (t.e2 - 1) * t.st2 + (t.e3 - 1) * t.st3 + (t.e4 - 1) * t.st4
    + ceilDiv (t.e0 * fmtBits t.fmt) 8

/-- End of the region of scales. -/
def Tensor.scaleEnd (t : Tensor) : Nat :=
  t.scaleBase + (t.e1 * t.e2 * t.e3 * t.e4 - 1) * t.scaleStride + ceilDiv t.e0 t.block

/-- R43: what makes a tensor descriptor valid, its header's TYPE and version apart. -/
def State.tensorValid (s : State) (d : Desc) : Bool :=
  let x := d.toNat
  let t := tensorOf d
  decide (t.space ≤ 2) && decide (1 ≤ t.rank) && decide (t.rank ≤ 5) && (fmtEnc t.fmt).isSome
    && decide (1 ≤ t.e0) && decide (1 ≤ t.e1) && decide (1 ≤ t.e2) && decide (1 ≤ t.e3) && decide (1 ≤ t.e4)
    && bitsOf x 511 472 == 0 && bitsOf x 191 176 == 0 && bitsOf x 127 112 == 0 && !bitOf x 31 && !bitOf x 27
    && decide (t.regionEnd ≤ s.spaceBytes t.space)
    && (!fmtScaled t.fmt || decide (t.scaleEnd ≤ s.spaceBytes t.space))
    && (t.space != 2 || t.fmt == 0) && !(t.fine && fmtMx t.fmt)

/-! Page list descriptors (R183). -/

structure PageList where
  locus : Nat
  isV   : Bool
  fmt   : Nat
  entries : Nat
  heads : Nat
  layer : Nat
  seqBase : Nat
  poolBase : Nat
  poolPages : Nat
  pos0  : Nat
  headStride : Nat
  deriving DecidableEq, Repr

def pageListOf (d : Desc) : PageList :=
  let x := d.toNat
  { locus := bitsOf x 17 16, isV := bitOf x 18, fmt := bitsOf x 24 19, entries := bitsOf x 63 32,
    heads := bitsOf x 71 64, layer := bitsOf x 79 72, seqBase := bitsOf x 127 80, poolBase := bitsOf x 175 128,
    poolPages := bitsOf x 207 176, pos0 := bitsOf x 239 208, headStride := bitsOf x 303 256 }

/-- Conditions of R183 that concern one list. -/
def State.pageListValid (s : State) (d : Desc) : Bool :=
  let x := d.toNat
  let l := pageListOf d
  let limit := s.spaceBytes (if l.locus = 2 then 0 else 1)
  decide (l.locus ≤ 2)
    && (if l.locus = 0 then l.fmt == 3 || l.fmt == 4 else l.fmt == 1 || l.fmt == 3 || l.fmt == 4)
    && decide (1 ≤ l.entries) && decide (l.entries ≤ 65536) && decide (1 ≤ l.heads) && decide (l.heads ≤ 64)
    && bitsOf x 511 304 == 0 && bitsOf x 255 240 == 0 && bitsOf x 31 25 == 0
    && (match l.locus with
        | 0 => l.poolBase % 65536 == 0 && l.seqBase % 256 == 0 && decide (l.seqBase < limit)
                && decide (l.poolBase + l.poolPages * 65536 ≤ limit)
        | 1 => l.poolBase % 256 == 0 && decide (l.poolBase < limit) && l.seqBase == 0
        | _ => l.poolBase % 64 == 0 && decide (l.poolBase < limit) && l.seqBase == 0)

/-! Space-time window descriptors (R172, R173). -/

structure Window where
  order  : Bool
  causal : Nat
  tree   : Bool
  pfmt   : Nat
  chunk  : Nat
  back   : Nat
  fwd    : Nat
  h      : Nat
  w      : Nat
  ltH    : Nat
  ltW    : Nat
  swinH  : Nat
  swinW  : Nat
  globals : Nat
  kvHeads : Nat
  ropeT  : Nat
  ropeH  : Nat
  ropeW  : Nat
  scale  : W32
  freq   : Nat
  treeAddr : Nat
  deriving DecidableEq, Repr

def windowOf (d : Desc) : Window :=
  let x := d.toNat
  { order := bitOf x 16, causal := bitsOf x 18 17, tree := bitOf x 19, pfmt := bitsOf x 25 20, chunk := bitsOf x 39 32,
    back := bitsOf x 63 48, fwd := bitsOf x 79 64, h := bitsOf x 95 80, w := bitsOf x 111 96, ltH := bitsOf x 127 112,
    ltW := bitsOf x 143 128, swinH := bitsOf x 159 144, swinW := bitsOf x 175 160, globals := bitsOf x 191 176,
    kvHeads := bitsOf x 199 192, ropeT := bitsOf x 207 200, ropeH := bitsOf x 215 208, ropeW := bitsOf x 223 216,
    scale := BitVec.ofNat 32 (bitsOf x 255 224), freq := bitsOf x 280 256, treeAddr := bitsOf x 312 288 }

/-- End of the part of the scratchpad that is not reserved to the Dealer (R88). -/
def spadFree : Nat := 0x17F0000

/-- R173. -/
def windowValid (d : Desc) : Bool :=
  let x := d.toNat
  let w := windowOf d
  bitsOf x 511 313 == 0 && bitsOf x 287 281 == 0 && bitsOf x 47 40 == 0 && bitsOf x 31 26 == 0
    && w.h != 0 && w.w != 0 && !(w.order && (w.ltH == 0 || w.ltW == 0))
    && w.causal != 3 && !(w.causal == 2 && w.chunk == 0) && decide (w.ropeT + w.ropeH + w.ropeW ≤ 64)
    && (match val32 w.scale with | .fin _ m _ => m != 0 | _ => false)
    && (w.pfmt == 1 || w.pfmt == 3) && decide (1 ≤ w.kvHeads) && decide (w.kvHeads ≤ 64)
    && decide (w.globals ≤ 8192)
    && w.freq % 64 == 0 && decide (w.freq + 256 ≤ spadFree)
    && w.treeAddr % 64 == 0 && decide (w.treeAddr + 64 ≤ spadFree)

/-! Window-operation parameters (R243, R244). -/

structure WinOp where
  mode : Nat
  replicate : Bool
  affine : Bool
  boxUni : Bool
  cin  : Nat
  inW  : Nat
  inH  : Nat
  inT  : Nat
  inN  : Nat
  kW : Nat
  kH : Nat
  kT : Nat
  sW : Nat
  sH : Nat
  sT : Nat
  dW : Nat
  dH : Nat
  dT : Nat
  pWlo : Nat
  pWhi : Nat
  pHlo : Nat
  pHhi : Nat
  pTlo : Nat
  pThi : Nat
  fW : Nat
  fH : Nat
  fT : Nat
  boxAddr  : Nat
  boxCount : Nat
  outW : Nat
  outH : Nat
  extrap : W32
  deriving DecidableEq, Repr

def winOpOf (d : Desc) : WinOp :=
  let x := d.toNat
  { mode := bitsOf x 17 16, replicate := bitOf x 18, affine := bitOf x 19, boxUni := bitOf x 20,
    cin := bitsOf x 47 32, inW := bitsOf x 63 48, inH := bitsOf x 79 64, inT := bitsOf x 95 80, inN := bitsOf x 111 96,
    kW := bitsOf x 119 112, kH := bitsOf x 127 120, kT := bitsOf x 135 128,
    sW := bitsOf x 143 136, sH := bitsOf x 151 144, sT := bitsOf x 159 152,
    dW := bitsOf x 167 160, dH := bitsOf x 175 168, dT := bitsOf x 183 176,
    pWlo := bitsOf x 191 184, pWhi := bitsOf x 199 192, pHlo := bitsOf x 207 200, pHhi := bitsOf x 215 208,
    pTlo := bitsOf x 223 216, pThi := bitsOf x 231 224,
    fW := 2 ^ bitsOf x 113 112, fH := 2 ^ bitsOf x 115 114, fT := 2 ^ (bitOf x 116).toNat,
    boxAddr := bitsOf x 159 112, boxCount := bitsOf x 175 160, outW := bitsOf x 191 176, outH := bitsOf x 207 192,
    extrap := BitVec.ofNat 32 (bitsOf x 239 208) }

/-- Output extent of a dimension in MODE 0 (R248). -/
def convOut (i k stride dil plo phi : Nat) : Nat :=
  let k' := (k - 1) * dil + 1
  if k' ≤ i + plo + phi then (i + plo + phi - k') / stride + 1 else 0

/-- Output extents T, H, W (Table 3 of 08). -/
def WinOp.outExt (p : WinOp) : Nat × Nat × Nat :=
  match p.mode with
  | 0 => (convOut p.inT p.kT p.sT p.dT p.pTlo p.pThi, convOut p.inH p.kH p.sH p.dH p.pHlo p.pHhi,
          convOut p.inW p.kW p.sW p.dW p.pWlo p.pWhi)
  | 1 => (ceilDiv p.inT p.fT, ceilDiv p.inH p.fH, ceilDiv p.inW p.fW)
  | 2 => (p.inT * p.fT, p.inH * p.fH, p.inW * p.fW)
  | _ => (1, p.outH, p.outW)

/-- Row count of R246. -/
def WinOp.rows (p : WinOp) : Nat :=
  let o := p.outExt
  if p.mode = 3 then p.boxCount * p.outH * p.outW else p.inN * o.1 * o.2.1 * o.2.2

/-- Column count of R246. -/
def WinOp.cols (p : WinOp) : Nat :=
  match p.mode with
  | 0 => p.cin * p.kT * p.kH * p.kW
  | 1 => p.cin * p.fT * p.fH * p.fW
  | 2 => p.cin / (p.fT * p.fH * p.fW)
  | _ => p.cin

/-- R244. -/
def winOpValid (d : Desc) : Bool :=
  let x := d.toNat
  let p := winOpOf d
  bitsOf x 511 256 == 0 && bitsOf x 31 21 == 0
    && p.cin != 0 && p.inW != 0 && p.inH != 0 && p.inT != 0 && p.inN != 0
    && (p.mode == 3 || (!p.boxUni && !p.affine)) && (p.mode == 0 || !p.replicate)
    && (match p.mode with
        | 0 => bitsOf x 255 232 == 0 && p.kW != 0 && p.kH != 0 && p.kT != 0 && p.sW != 0 && p.sH != 0 && p.sT != 0
                && p.dW != 0 && p.dH != 0 && p.dT != 0
        | 1 => bitsOf x 255 117 == 0
        | 2 => bitsOf x 255 117 == 0 && p.cin % (p.fT * p.fH * p.fW) == 0
        | _ => bitsOf x 255 240 == 0 && decide (1 ≤ p.outW) && decide (p.outW ≤ 4096) && decide (1 ≤ p.outH)
                && decide (p.outH ≤ 4096) && decide (1 ≤ p.boxCount) && p.boxAddr % 32 == 0
                && (p.boxUni || decide (p.boxAddr + 32 * p.boxCount ≤ spadFree)))
    && decide (p.rows < 2 ^ 32) && decide (p.cols < 2 ^ 24)

/-- The check of a descriptor by its TYPE when it is loaded (R28, R43): none when it is accepted. -/
def State.descFault (s : State) (d : Desc) : Option Code :=
  if !hdrVersionOk (descHdr d) then some Codes.isaVersion
  else
    let bad (ok : Bool) : Option Code := if ok then none else some Codes.isaDescInvalid
    match descType d with
    | 0x10 => bad (s.tensorValid d)
    | 0x11 => bad (s.pageListValid d)
    | 0x12 => bad (winOpValid d)
    | 0x13 => bad (windowValid d)
    | _ => some Codes.isaDescType

/-- The check of a descriptor that an instruction names (R26, R41, Table 25 of 02): invalid with a zero header, of the
wrong TYPE otherwise. -/
def nameFault (type : Nat) (d : Desc) : Option Code :=
  if descHdr d = 0 then some Codes.isaDescInvalid
  else if descType d = type then none
  else some Codes.isaDescType

/-- BASE is aligned as its space asks, 64 B in SRAM and 256 B in stack memory (R43). -/
def Tensor.aligned (t : Tensor) : Bool :=
  if t.space = 1 then t.base % 256 == 0 && (!fmtScaled t.fmt || t.scaleBase % 256 == 0) else t.base % 64 == 0

/-- The lowest code of the conditions that hold (R71). -/
def lowest : List (Bool × Code) → Option Code
  | [] => none
  | (b, c) :: rest =>
    match b, lowest rest with
    | false, r => r
    | true, none => some c
    | true, some c' => if c'.toNat < c.toNat then some c' else some c

/-- Offsets of R34: dimension 0 in the low half, dimension 1 in the high half. -/
def off0 (w : W64) : Nat := w.toNat % 2 ^ 32
def off1 (w : W64) : Nat := w.toNat / 2 ^ 32

/-- Offset along dimension 0 not a multiple of the block length (R34). -/
def Tensor.blockMisaligned (t : Tensor) (w : W64) : Bool := off0 w % t.block != 0

/-! Bytes of the three spaces. -/

/-- Bytes of FP32 words of accumulator memory. -/
def accBytes (acc : SMap W32) (addr n : Nat) : List Byte :=
  (List.range n).map (fun i =>
    let a := addr + i
    BitVec.ofNat 8 ((acc.get 0 (a / 4)).toNat / 256 ^ (a % 4)))

/-- Reads bytes of a space as tile `t` sees it: 0 scratchpad, 1 unified range, 2 accumulator memory. -/
def State.peek (s : State) (t space addr n : Nat) : List Byte :=
  match space with
  | 0 => (s.tile t).spad.getRange 0 addr n
  | 2 => accBytes (s.tile t).acc addr n
  | _ => s.readMem addr n

/-- Writes whole words of accumulator memory. -/
def wordsOf : List Byte → List W32
  | a :: b :: c :: d :: rest => BitVec.ofNat 32 (leNat [a, b, c, d]) :: wordsOf rest
  | _ => []

def State.poke (s : State) (t space addr : Nat) (bs : List Byte) : State :=
  match space with
  | 0 => s.modTile t (fun x => { x with spad := x.spad.setRange 0 addr bs })
  | 2 => s.modTile t (fun x => { x with acc := x.acc.setRange 0 (addr / 4) (wordsOf bs) })
  | _ => s.writeMem addr bs

/-- Writes `nbits` bits at a bit offset of a byte address, the other bits of those bytes kept (R42). -/
def State.pokeBits (s : State) (t space addr bit nbits v : Nat) : State :=
  let a := addr + bit / 8
  let b := bit % 8
  let n := ceilDiv (b + nbits) 8
  let old := leNat (s.peek t space a n)
  let kept := old % 2 ^ b + old / 2 ^ (b + nbits) * 2 ^ (b + nbits)
  s.poke t space a (natLe n (kept + v % 2 ^ nbits * 2 ^ b))

/-- Reads `nbits` bits. -/
def State.peekBits (s : State) (t space addr bit nbits : Nat) : Nat :=
  let a := addr + bit / 8
  let b := bit % 8
  leNat (s.peek t space a (ceilDiv (b + nbits) 8)) / 2 ^ b % 2 ^ nbits

/-! Rows of a tensor. -/

/-- Indices along dimensions 1 to 4. -/
structure RowIx where
  i1 : Nat
  i2 : Nat
  i3 : Nat
  i4 : Nat
  deriving DecidableEq, Repr

/-- Byte address of a row (R42). -/
def Tensor.rowAddr (t : Tensor) (r : RowIx) : Nat :=
  t.base + r.i1 * t.st1 + r.i2 * t.st2 + r.i3 * t.st3 + r.i4 * t.st4

/-- Byte address of a row's first scale (R42). -/
def Tensor.scaleAddr (t : Tensor) (r : RowIx) : Nat :=
  t.scaleBase + (((r.i4 * t.e3 + r.i3) * t.e2 + r.i2) * t.e1 + r.i1) * t.scaleStride

/-- The row lies inside the extents. -/
def Tensor.hasRow (t : Tensor) (r : RowIx) : Bool :=
  decide (r.i1 < t.e1) && decide (r.i2 < t.e2) && decide (r.i3 < t.e3) && decide (r.i4 < t.e4)

/-- Bits of element `i` of a row. -/
def State.elemBits (s : State) (tile : Nat) (t : Tensor) (r : RowIx) (i : Nat) : Nat :=
  let w := fmtBits t.fmt
  s.peekBits tile t.space (t.rowAddr r) (i * w) w

/-- Scale code of the block that holds element `i` of a row; 127 in a format without scales. -/
def State.elemScale (s : State) (tile : Nat) (t : Tensor) (r : RowIx) (i : Nat) : Nat :=
  if fmtScaled t.fmt then leNat (s.peek tile t.space (t.scaleAddr r + i / t.block) 1) else 127

/-- Exact value of element `i` of a row; +0 outside the extents (R52, R64). -/
def State.elemVal (s : State) (tile : Nat) (t : Tensor) (r : RowIx) (i : Nat) : FV :=
  if t.hasRow r && decide (i < t.e0) then decodeElem t.fmt (s.elemBits tile t r i) (s.elemScale tile t r i)
  else .fin false 0 0

/-- Rows of a tensor in ascending order of dimension 4, 3, 2, 1. -/
def Tensor.rows (t : Tensor) : List RowIx :=
  (List.range t.e4).flatMap (fun i4 => (List.range t.e3).flatMap (fun i3 =>
    (List.range t.e2).flatMap (fun i2 => (List.range t.e1).map (fun i1 => ⟨i1, i2, i3, i4⟩))))

/-- Every element of a row's written run packed from bit 0 upward (R42). -/
def packBits (w : Nat) : List Nat → Nat
  | [] => 0
  | x :: xs => x % 2 ^ w + 2 ^ w * packBits w xs

end Sys2Proof.Machine
end

