-- ==== Sys2Proof/Machine/Flags.lean ====
section
/-!
DEFINITION. Machine/Flags.lean: damage counts, flagged blocks and the row writes that count them (R60, R64, R109 to R114,
R121, R122).
-/

namespace Sys2Proof.Machine

/-- Fields of MTX.THRESH (Table 9 of 04). -/
def threshSat (x : W32) : Nat := bitsOf x.toNat 5 0
def threshZero (x : W32) : Nat := bitsOf x.toNat 13 8
def threshFlag (x : W32) : Nat := bitsOf x.toNat 25 16

/-- A block is flagged when a count meets its threshold; 0 disables a test (R122). -/
def QBlock.flagged (b : QBlock) (thresh : W32) : Bool :=
  (threshSat thresh != 0 && decide (threshSat thresh ≤ b.sat))
    || (threshZero thresh != 0 && decide (threshZero thresh ≤ b.zero))

/-- Counts of one quantised block (R112, R121). -/
def QBlock.sums (b : QBlock) (thresh : W32) : Sums :=
  { blocks := 1, sat := b.sat, zero := b.zero, flagged := (b.flagged thresh).toNat, nan := b.nan.toNat, replayed := 0,
    unreplayed := 0 }

/-- Adds counts; each field stops at its largest value (R121, Tables 13 to 15 of 04). -/
def Sums.add (a b : Sums) : Sums :=
  { blocks := satAdd (2 ^ 64 - 1) a.blocks b.blocks, sat := satAdd (2 ^ 32 - 1) a.sat b.sat,
    zero := satAdd (2 ^ 32 - 1) a.zero b.zero, flagged := satAdd (2 ^ 32 - 1) a.flagged b.flagged,
    nan := satAdd 65535 a.nan b.nan, replayed := satAdd 255 a.replayed b.replayed,
    unreplayed := satAdd 255 a.unreplayed b.unreplayed }

/-- Adds counts to the summary of a tile's hand (R121). -/
def State.addSums (s : State) (t : Nat) (c : Sums) : State :=
  s.modTile t (fun x => { x with regs := { x.regs with sums := x.regs.sums.add c } })

/-- How a row write rounds: the seed of stochastic rounding, if that is the mode (R113, R114). -/
structure RndMode where
  stoch : Bool
  seed  : W64
  deriving DecidableEq, Repr

/-- Rounding of an element written at a bit address of a space (R114). -/
def RndMode.at (m : RndMode) (space bitaddr : Nat) : Rnd :=
  if m.stoch then .sr (srBits m.seed space bitaddr) else .rne

/-- Bit address of element `i` of a row (R42, R114). -/
def Tensor.bitAddr (t : Tensor) (r : RowIx) (i : Nat) : Nat := t.rowAddr r * 8 + i * fmtBits t.fmt

/-- One block of a row write: first element, and the values written there. -/
structure BlockRun where
  first : Nat
  vals  : List FV
  deriving DecidableEq, Repr

/-- Cuts a run that starts on a block boundary into blocks, those inside the extents; elements past EXT0 are dropped. -/
def blocksOf (b e0 : Nat) : Nat → Nat → List FV → List BlockRun
  | 0, _, _ => []
  | fuel + 1, o, vs =>
    if e0 ≤ o then []
    else
      match vs with
      | [] => []
      | _ => ⟨o, (vs.take b).take (e0 - o)⟩ :: blocksOf b e0 fuel (o + b) (vs.drop b)

/-- Quantises one block of a row. -/
def Tensor.quant (t : Tensor) (m : RndMode) (r : RowIx) (b : BlockRun) : QBlock :=
  quantBlock (mxPair t.fmt) ((b.vals.zipIdx).map (fun p => (p.1, m.at t.space (t.bitAddr r (b.first + p.2)))))

/-- Writes a quantised block: its element bits and its scale byte (R42). -/
def State.putBlock (s : State) (tile : Nat) (t : Tensor) (r : RowIx) (first : Nat) (q : QBlock) : State :=
  let w := fmtBits t.fmt
  let s := s.pokeBits tile t.space (t.rowAddr r) (first * w) (q.elems.length * w) (packBits w q.elems)
  s.poke tile t.space (t.scaleAddr r + first / t.block) (natLe 1 q.code)

/-- Quantises and writes a run of values of one row into a block format; the counts of its blocks. -/
def State.putBlocks (s : State) (tile : Nat) (t : Tensor) (m : RndMode) (thresh : W32) (r : RowIx) (o : Nat)
    (vs : List FV) : State × Sums :=
  (blocksOf t.block t.e0 (vs.length + 1) o vs).foldl (fun p b =>
    let q := t.quant m r b
    (p.1.putBlock tile t r b.first q, p.2.add (q.sums thresh))) (s, .zeros)

/-- Writes values of one row into a format without scales; a `none` is not written, nor is an element past EXT0. -/
def State.putElems (s : State) (tile : Nat) (t : Tensor) (m : RndMode) (r : RowIx) (o : Nat) (vs : List (Option FV)) :
    State :=
  let w := fmtBits t.fmt / 8
  let vs := vs.take (t.e0 - o)
  let base := t.rowAddr r + o * w
  let old := s.peek tile t.space base (vs.length * w)
  s.poke tile t.space base
    ((vs.zipIdx).flatMap (fun p =>
      match p.1 with
      | none => (old.drop (p.2 * w)).take w
      | some v => natLe w (encodeElem t.fmt (m.at t.space (t.bitAddr r (o + p.2))) v)))

/-- Writes a run of values of one row, rows outside the extents left out; the counts of its blocks. -/
def State.putRun (s : State) (tile : Nat) (t : Tensor) (m : RndMode) (thresh : W32) (r : RowIx) (o : Nat)
    (vs : List FV) : State × Sums :=
  if t.hasRow r then
    if fmtScaled t.fmt then s.putBlocks tile t m thresh r o vs
    else (s.putElems tile t m r o (vs.map some), .zeros)
  else (s, .zeros)

end Sys2Proof.Machine
end

