-- ==== Sys2Proof/Machine/Stash.lean ====
section
/-!
DEFINITION. Machine/Stash.lean: the activation stash as tiles see it: the logical range of an entry, packed and unpacked by
the stack engines (R215, R218 to R221, R300).
-/

namespace Sys2Proof.Machine

/-- A stash entry (Table 7 of 07). -/
structure StashEnt where
  idx    : Nat
  addr   : Nat
  srcFmt : Nat
  fmt    : Nat
  fine   : Bool
  stoch  : Bool
  eligible : Bool
  state  : Nat
  rowElems : Nat
  rows   : Nat
  logical : Nat
  reserveUnit : Nat
  recompUnit  : Nat
  releaseUnit : Nat
  maxRows : Nat
  recompRows : Nat
  deriving DecidableEq, Repr

/-- Address of the job's stash map; none without an interleave (R215). -/
def State.stashMap (s : State) (j : Nat) : Option Nat :=
  match s.job j with
  | some x => if x.desc.interleave = 0 then none else some (s.readLe (x.desc.interleave + 0x10) 8)
  | none => none

/-- Reads entry `i` of the stash map at `m`. -/
def State.stashEnt (s : State) (m i : Nat) : StashEnt :=
  let a := m + 64 + 64 * i
  let b := s.readLe (a + 3) 1
  { idx := i, addr := a, srcFmt := s.readLe (a + 2) 1, fmt := b % 64, fine := bitOf b 6, stoch := bitOf b 7,
    eligible := bitOf (s.readLe (a + 4) 1) 0, state := s.readLe (a + 5) 1, rowElems := s.readLe (a + 0xC) 4,
    rows := s.readLe (a + 0x10) 8, logical := s.readLe (a + 0x18) 8, reserveUnit := s.readLe (a + 0x20) 4,
    recompUnit := s.readLe (a + 0x24) 4, releaseUnit := s.readLe (a + 0x28) 4, maxRows := s.readLe (a + 0x2C) 4,
    recompRows := s.readLe (a + 0x30) 8 }

/-- Entries of a stash map. -/
def State.stashCount (s : State) (m : Nat) : Nat := s.readLe (m + 4) 4

/-- Bytes per element of the logical tensor. -/
def StashEnt.srcBytes (e : StashEnt) : Nat := fmtBits e.srcFmt / 8

/-- Bytes of the logical range. -/
def StashEnt.logicalBytes (e : StashEnt) : Nat := e.maxRows * e.rowElems * e.srcBytes

def StashEnt.packed (e : StashEnt) : Bool := fmtKremor e.fmt

def StashEnt.block (e : StashEnt) : Nat := blockLen e.fine

/-- Bytes of a packed block: its elements and its scale byte (R219, R300). -/
def StashEnt.blockBytes (e : StashEnt) : Nat := e.block * fmtBits e.fmt / 8 + 1

/-- Packed size of one row (R219). -/
def StashEnt.rowBytes (e : StashEnt) : Nat :=
  if e.packed then e.rowElems / e.block * e.blockBytes else e.rowElems * e.srcBytes

/-- Physical pages of an entry with `r` rows (R219). -/
def StashEnt.pageCount (e : StashEnt) (r : Nat) : Nat := ceilDiv (r * e.rowBytes) size2MiB

/-- The entry whose logical range holds an address. -/
def State.stashFind (s : State) (j addr : Nat) : Option StashEnt :=
  match s.stashMap j with
  | none => none
  | some m =>
    ((List.range (s.stashCount m)).map (s.stashEnt m)).find?
      (fun e => decide (e.logical ≤ addr ∧ addr < e.logical + e.logicalBytes))

/-- Unified address of byte `o` of an entry's packed form. -/
def State.stashPhys (s : State) (j : Nat) (e : StashEnt) (o : Nat) : Nat :=
  match s.job j with
  | some x => (x.train.map.get 0 (e.idx * 2 ^ 24 + o / size2MiB) - 1) * size2MiB + o % size2MiB
  | none => 0

/-- Row count of an entry as read at its reservation. -/
def State.stashRows (s : State) (j : Nat) (e : StashEnt) : Nat :=
  match s.job j with
  | some x => x.train.rows.get 0 e.idx
  | none => 0

/-- Writes packed bytes one by one, across page boundaries (R300). -/
def State.stashPut (s : State) (j : Nat) (e : StashEnt) (o : Nat) : List Byte → State
  | [] => s
  | b :: bs => (s.writeMem (s.stashPhys j e o) [b]).stashPut j e (o + 1) bs

def State.stashGet (s : State) (j : Nat) (e : StashEnt) (o n : Nat) : List Byte :=
  (List.range n).flatMap (fun i => s.readMem (s.stashPhys j e (o + i)) 1)

/-- INT32 memory-side add, wrapping (R292). -/
def State.addInt32 (s : State) (addr v : Nat) : State := s.writeLe addr 4 ((s.readLe addr 4 + v) % 2 ^ 32)

/-- INT64 memory-side add, wrapping (R292). -/
def State.addInt64 (s : State) (addr v : Nat) : State := s.writeLe addr 8 ((s.readLe addr 8 + v) % 2 ^ 64)

/-- Elements of width `w` bytes. -/
def elemsOf (w : Nat) : Nat → List Byte → List Nat
  | 0, _ => []
  | n + 1, bs => leNat (bs.take w) :: elemsOf w n (bs.drop w)

/-- Cuts a list into pieces of `n`. -/
def chunk {α : Type} (n : Nat) : Nat → List α → List (List α)
  | 0, _ => []
  | fuel + 1, xs => if xs.isEmpty then [] else xs.take n :: chunk n fuel (xs.drop n)

/-- A write into the logical range (R220): whole blocks of one row below R, in an entry of STATE 1 or 3; packed block by
block, with the counts added to the entry. -/
def State.stashWriteAt (s : State) (j : Nat) (e : StashEnt) (addr : Nat) (bs : List Byte) : Except Code State :=
  let w := e.srcBytes
  let off := addr - e.logical
  let first := off / w
  let row := first / e.rowElems
  let i0 := first % e.rowElems
  let n := bs.length / w
  let b := if e.packed then e.block else 1
  if !(e.state == 1 || e.state == 3) || off % w != 0 || bs.length % w != 0 || i0 % b != 0 || n % b != 0
      || decide (e.rowElems < i0 + n) || decide (s.stashRows j e ≤ row) then .error Codes.stashAccess
  else if e.packed then
    let seed := match s.job j with
      | some x => x.desc.seed
      | none => 0
    let vals := (elemsOf w n bs).map (fun x => decodeElem e.srcFmt x 127)
    let blocks := chunk b n vals
    .ok ((blocks.zipIdx).foldl (fun s p =>
      let elem (i : Nat) : Nat := addr + (p.2 * b + i) * w
      let q := quantBlock e.fmt ((p.1.zipIdx).map (fun v =>
        (v.1, if e.stoch then .sr (srBits seed 1 (elem v.2 * 8)) else .rne)))
      let bytes := natLe (e.blockBytes - 1) (packBits (fmtBits e.fmt) q.elems) ++ natLe 1 q.code
      let s := s.stashPut j e (row * e.rowBytes + (i0 / b + p.2) * e.blockBytes) bytes
      (s.addInt32 (e.addr + 0x38) q.sat).addInt32 (e.addr + 0x3C) q.zero) s)
  else .ok (s.stashPut j e (row * e.rowBytes + i0 * w) bs)

/-- The exact value of the element at a logical address (R221). -/
def State.stashValue (s : State) (j : Nat) (e : StashEnt) (addr : Nat) : Except Code FV :=
  let w := e.srcBytes
  let first := (addr - e.logical) / w
  let row := first / e.rowElems
  let i := first % e.rowElems
  if !(e.state == 1 || e.state == 3) then .error Codes.stashAccess
  else if e.packed then
    let o := row * e.rowBytes + i / e.block * e.blockBytes
    let bits := leNat (s.stashGet j e o (e.blockBytes - 1))
    let code := leNat (s.stashGet j e (o + e.blockBytes - 1) 1)
    let bw := fmtBits e.fmt
    .ok (decodeElem e.fmt (bits / 2 ^ (i % e.block * bw) % 2 ^ bw) code)
  else .ok (decodeElem e.srcFmt (leNat (s.stashGet j e (row * e.rowBytes + i * w) w)) 127)

/-- Writes bytes of the unified range as a tile's job does: into a stash entry they are packed. -/
def State.uniPut (s : State) (j addr : Nat) (bs : List Byte) : Except Code State :=
  match s.stashFind j addr with
  | none => .ok (s.writeMem addr bs)
  | some e => s.stashWriteAt j e addr bs

/-- Bytes that a write of `n` values puts into a format without scales. -/
def elemBytes (t : Tensor) (m : RndMode) (r : RowIx) (o : Nat) (vs : List FV) : List Byte :=
  (vs.zipIdx).flatMap (fun p =>
    natLe (fmtBits t.fmt / 8) (encodeElem t.fmt (m.at t.space (t.bitAddr r (o + p.2))) p.1))

/-- Writes a run of one row for a job: as `putRun`, but a row in a stash entry's logical range is packed. -/
def State.putRunFor (s : State) (j tile : Nat) (t : Tensor) (m : RndMode) (thresh : W32) (r : RowIx) (o : Nat)
    (vs : List FV) : Except Code (State × Sums) :=
  let a := t.rowAddr r + o * fmtBits t.fmt / 8
  if t.space = 1 && t.hasRow r && decide (o < t.e0) && (s.stashFind j a).isSome then
    if fmtScaled t.fmt then .error Codes.stashAccess
    else
      match s.uniPut j a (elemBytes t m r o (vs.take (t.e0 - o))) with
      | .ok s' => .ok (s', .zeros)
      | .error c => .error c
  else .ok (s.putRun tile t m thresh r o vs)

/-- Value of an element for a job: as `elemVal`, but unpacked from a stash entry. -/
def State.elemValFor (s : State) (j tile : Nat) (t : Tensor) (r : RowIx) (i : Nat) : Except Code FV :=
  if t.space = 1 && t.hasRow r && decide (i < t.e0) then
    let a := t.rowAddr r + i * fmtBits t.fmt / 8
    match s.stashFind j a with
    | some e => s.stashValue j e a
    | none => .ok (s.elemVal tile t r i)
  else .ok (s.elemVal tile t r i)

/-- All results, or the first error. -/
def sequenceE {α : Type} : List (Except Code α) → Except Code (List α)
  | [] => .ok []
  | .error c :: _ => .error c
  | .ok x :: rest =>
    match sequenceE rest with
    | .ok xs => .ok (x :: xs)
    | .error c => .error c

/-- Values of a run of one row for a job. -/
def State.runValsFor (s : State) (j tile : Nat) (t : Tensor) (r : RowIx) (o n : Nat) : Except Code (List FV) :=
  sequenceE ((List.range n).map (fun i => s.elemValFor j tile t r (o + i)))

end Sys2Proof.Machine
end

