-- ==== Sys2Proof/Machine/Pages.lean ====
section
/-!
DEFINITION. Machine/Pages.lean: positions of a K/V list (R182 to R185) and checks of accesses with what their records say
(R274, Table 10 of 16).
-/

namespace Sys2Proof.Machine

/-- An error of an access: its code and the DATA of its record. -/
structure AccErr where
  code : Code
  data : List Byte
  deriving DecidableEq, Repr

/-- Physical address of a resident byte (R269). -/
def State.physOf (s : State) (addr : Nat) : Nat × Nat :=
  match s.page (addr / size2MiB) with
  | some p =>
    match p.frame with
    | some f => (f / 32768 * 2 ^ 36 + f % 32768 * size2MiB + addr % size2MiB, f)
    | none => (0, 0)
  | none => (0, 0)

/-- DATA of a memory record: P, unified address, frame. -/
def State.memData (s : State) (addr : Nat) : List Byte :=
  let p := s.physOf addr
  natLe 8 p.1 ++ natLe 8 addr ++ natLe 4 p.2

/-- DATA of a record of attention and pages: SEQ_ID and position. -/
def pageData (seqId pos : Nat) : List Byte := natLe 4 seqId ++ natLe 8 pos

/-- The window check of a list of accesses (address, bytes): the first that fails (R274). -/
def State.checkAccesses (s : State) (w : Who) : List (Nat × Nat) → Option AccErr
  | [] => none
  | (a, n) :: rest =>
    match s.checkRange w a n with
    | some c => some ⟨c, s.memData a⟩
    | none => s.checkAccesses w rest

/-- The pages of a list of accesses that are not resident. -/
def State.absentOf (s : State) (xs : List (Nat × Nat)) : List Nat :=
  (xs.flatMap (fun p => s.absentPages p.1 p.2)).dedup

/-- LAYERS, HEADS, ENTRIES and SEQ_ID of a sequence record (Table 5 of 06). -/
def State.seqLayers (s : State) (rec : Nat) : Nat := s.readLe (rec + 4) 1
def State.seqHeads (s : State) (rec : Nat) : Nat := s.readLe (rec + 5) 1
def State.seqEntries (s : State) (rec : Nat) : Nat := s.readLe (rec + 0x18) 4
def State.seqId (s : State) (rec : Nat) : Nat := s.readLe (rec + 0x1C) 4
def State.seqTail (s : State) (rec : Nat) : Nat := s.readLe (rec + 8) 8
def State.seqReserve (s : State) (rec : Nat) : Nat := s.readLe (rec + 0x10) 8
def State.seqState (s : State) (rec : Nat) : Nat := s.readLe (rec + 2) 1

/-- Address of the page entry (kv, layer, head, e) (R184). -/
def State.pageEntryAddr (s : State) (rec kv layer head e : Nat) : Nat :=
  rec + 0x40 + 4 * (((kv * s.seqLayers rec + layer) * s.seqHeads rec + head) * s.seqEntries rec + e)

/-- Bytes per element of a list's format. -/
def PageList.elemBytes (l : PageList) : Nat := fmtBits l.fmt / 8

/-- Space and address of position `p` of a head (R185). -/
def State.posAddr (s : State) (l : PageList) (head p : Nat) : Except AccErr (Nat × Nat) :=
  if l.locus = 0 then
    let err (c : Code) : Except AccErr (Nat × Nat) := .error ⟨c, pageData (s.seqId l.seqBase) p⟩
    let e := p / 512
    if l.entries ≤ e then err Codes.pageIndex
    else
      let ent := s.readLe (s.pageEntryAddr l.seqBase l.isV.toNat l.layer head e) 4
      if ent = 0xFFFFFFFF then err Codes.pageNone
      else if l.poolPages ≤ ent then err Codes.pageRange
      else
        let a := l.poolBase + ent * 65536 + p % 512 * 128
        if s.absentPages a 128 = [] then .ok (1, a) else err Codes.pageNotResident
  else if p < l.pos0 ∨ l.pos0 + 512 * l.entries ≤ p then .error ⟨Codes.pageIndex, pageData 0 p⟩
  else .ok (if l.locus = 1 then 1 else 0,
            l.poolBase + head * l.headStride + (p - l.pos0) * 128 * l.elemBytes)

/-- The 128 element bit patterns of a position. -/
def State.posBits (s : State) (tile : Nat) (l : PageList) (head p : Nat) : Except AccErr (List Nat) :=
  match s.posAddr l head p with
  | .ok (space, a) => .ok (elemsOf l.elemBytes 128 (s.peek tile space a (128 * l.elemBytes)))
  | .error e => .error e

/-- The 128 values of a position. -/
def State.posVals (s : State) (tile : Nat) (l : PageList) (head p : Nat) : Except AccErr (List FV) :=
  match s.posBits tile l head p with
  | .ok xs => .ok (xs.map (fun x => decodeElem l.fmt x 127))
  | .error e => .error e

/-- All results, or the first error. -/
def sequenceA {α : Type} : List (Except AccErr α) → Except AccErr (List α)
  | [] => .ok []
  | .error c :: _ => .error c
  | .ok x :: rest =>
    match sequenceA rest with
    | .ok xs => .ok (x :: xs)
    | .error c => .error c

end Sys2Proof.Machine
end

