-- ==== Sys2Proof/Machine/Window.lean ====
section
/-!
DEFINITION. Machine/Window.lean: the cells that DWIN writes: window, regrouping and crop-and-resize (R241 to R257).
-/

namespace Sys2Proof.Machine

/-- Where one cell of the matrix of R246 comes from. -/
inductive Cell where
  /-- +0, nothing fetched. -/
  | zero
  /-- Input element: channel `c` of a pixel (w, h, t, n). -/
  | copy (r : RowIx) (c : Nat)
  /-- EXTRAP, rounded into the destination format. -/
  | extrap
  /-- Weighted pixels of a crop sample, zero weights left out (R256). -/
  | blend (taps : List (FV × RowIx)) (c : Nat)
  deriving DecidableEq, Repr

/-- Input coordinate of a tap in one dimension: none outside the padded input, else the coordinate after padding and
whether it lies in the padding (R249). -/
def tapCoord (i o stride dil plo phi k : Nat) : Option (Nat × Bool) :=
  let x : Int := (o * stride + k * dil : Nat) - (plo : Int)
  if x < -(plo : Int) ∨ ((i + phi : Nat) : Int) ≤ x then none
  else if x < 0 then some (0, true)
  else if (i : Int) ≤ x then some (i - 1, true)
  else some (x.toNat, false)

/-- MODE 0 (R249). -/
def convCell (p : WinOp) (n t h w j : Nat) : Cell :=
  let c := j % p.cin
  let k := j / p.cin
  let kw := k % p.kW
  let kh := k / p.kW % p.kH
  let kt := k / (p.kW * p.kH)
  match tapCoord p.inT t p.sT p.dT p.pTlo p.pThi kt, tapCoord p.inH h p.sH p.dH p.pHlo p.pHhi kh,
      tapCoord p.inW w p.sW p.dW p.pWlo p.pWhi kw with
  | some (xt, bt), some (xh, bh), some (xw, bw) =>
    if (bt || bh || bw) && !p.replicate then .zero else .copy ⟨xw, xh, xt, n⟩ c
  | _, _, _ => .zero

/-- MODE 1, space-to-depth (R252). -/
def packCell (p : WinOp) (n t h w j : Nat) : Cell :=
  let c := j % p.cin
  let k := j / p.cin
  let xw := w * p.fW + k % p.fW
  let xh := h * p.fH + k / p.fW % p.fH
  let xt := t * p.fT + k / (p.fW * p.fH)
  if xw < p.inW ∧ xh < p.inH ∧ xt < p.inT then .copy ⟨xw, xh, xt, n⟩ c else .zero

/-- MODE 2, depth-to-space (R253). -/
def spreadCell (p : WinOp) (n t h w c : Nat) : Cell :=
  let k := ((t % p.fT) * p.fH + h % p.fH) * p.fW + w % p.fW
  .copy ⟨w / p.fW, h / p.fH, t / p.fT, n⟩ (k * (p.cin / (p.fT * p.fH * p.fW)) + c)

/-- A box record (R254): six FP32 values, frame, item, and whether its reserved bytes are zero. -/
structure Box where
  f : List W32
  t : Nat
  n : Nat
  clean : Bool
  deriving DecidableEq, Repr

def boxOf (affine : Bool) (bs : List Byte) : Box :=
  let fld (i : Nat) : W32 := BitVec.ofNat 32 (leNat ((bs.drop (4 * i)).take 4))
  { f := (List.range 6).map fld, t := leNat ((bs.drop 0x18).take 2), n := leNat ((bs.drop 0x1A).take 2),
    clean := (leNat ((bs.drop 0x1C).take 4) == 0) && (affine || (fld 4 == 0 && fld 5 == 0)) }

def Box.fld (b : Box) (i : Nat) : FV := val32 (b.f.getD i 0)

/-- det of an affine box, rounded once (R255). -/
def Box.det (b : Box) : W32 := to32 (((b.fld 0).mul (b.fld 4)).sub ((b.fld 1).mul (b.fld 3)))

def FV.isFinite : FV → Bool
  | .fin _ _ _ => true
  | _ => false

/-- R255. -/
def Box.degenerate (b : Box) (p : WinOp) : Bool :=
  !((List.range (if p.affine then 6 else 4)).all (fun i => (b.fld i).isFinite))
    || decide (p.inT ≤ b.t) || decide (p.inN ≤ b.n) || !b.clean
    || (p.affine && decide ((FV.cmp (val32 b.det).abs (.fin false 1 (-24))) < 0))

/-- Exact quotient rounded once to FP32; a zero or infinite divisor as IEEE 754 gives. -/
def divRound (n d : FV) : W32 :=
  match n, d with
  | .fin a m e, .fin b k f =>
    if k = 0 then (if m = 0 then nan32 else to32 (.inf (a != b))) else quot32 (a != b) m k (e - f)
  | .fin a _ _, .inf b => to32 (.fin (a != b) 0 0)
  | _, _ => nan32

/-- floor of a finite value. -/
def FV.floor : FV → Int
  | .fin n m e =>
    if 0 ≤ e then FV.smant n m * (2 ^ e.toNat : Nat) else FV.smant n m / ((2 ^ (-e).toNat : Nat) : Int)
  | _ => 0

def clampInt (x : Int) (hi : Nat) : Nat := if x < 0 then 0 else min x.toNat hi

def FV.ofInt (x : Int) : FV := .fin (decide (x < 0)) x.natAbs 0

/-- MODE 3 for a box that is not degenerate (R256). -/
def cropCell (p : WinOp) (b : Box) (ox oy c : Nat) : Cell :=
  let bx := val32 (quot32 false (2 * ox + 1) (2 * p.outW) 0)
  let by_ := val32 (quot32 false (2 * oy + 1) (2 * p.outH) 0)
  let uv : W32 × W32 :=
    if p.affine then
      let ex := val32 (to32 (bx.sub (b.fld 2)))
      let ey := val32 (to32 (by_.sub (b.fld 5)))
      (divRound (((b.fld 4).mul ex).sub ((b.fld 1).mul ey)) (val32 b.det),
       divRound (((b.fld 0).mul ey).sub ((b.fld 3).mul ex)) (val32 b.det))
    else
      (to32 ((b.fld 0).add (bx.mul (val32 (to32 ((b.fld 2).sub (b.fld 0)))))),
       to32 ((b.fld 1).add (by_.mul (val32 (to32 ((b.fld 3).sub (b.fld 1)))))))
  let u := val32 uv.1
  let v := val32 uv.2
  let zero : FV := .fin false 0 0
  if !u.isFinite || !v.isFinite || decide (FV.cmp u zero < 0) || decide (FV.cmp v zero < 0)
      || decide (0 < FV.cmp u (.ofInt p.inW)) || decide (0 < FV.cmp v (.ofInt p.inH)) then .extrap
  else
    let half : FV := .fin false 1 (-1)
    let one : FV := .fin false 1 0
    let px := val32 (to32 (u.sub half))
    let py := val32 (to32 (v.sub half))
    let xa := px.floor
    let ya := py.floor
    let fx := px.sub (.ofInt xa)
    let fy := py.sub (.ofInt ya)
    let x0 := clampInt xa (p.inW - 1)
    let x1 := clampInt (xa + 1) (p.inW - 1)
    let y0 := clampInt ya (p.inH - 1)
    let y1 := clampInt (ya + 1) (p.inH - 1)
    let gx := one.sub fx
    let gy := one.sub fy
    .blend (([(gy.mul gx, (⟨x0, y0, b.t, b.n⟩ : RowIx)), (gy.mul fx, ⟨x1, y0, b.t, b.n⟩),
      (fy.mul gx, ⟨x0, y1, b.t, b.n⟩), (fy.mul fx, ⟨x1, y1, b.t, b.n⟩)]).filter (fun q => !q.1.isZero)) c

/-- Cell (row q, column j) of the matrix; rows and columns at or beyond the counts are +0 (R247). -/
def winCell (p : WinOp) (box : Nat → Box) (q j : Nat) : Cell :=
  if p.rows ≤ q ∨ p.cols ≤ j then .zero
  else if p.mode = 3 then
    let bi := q / (p.outW * p.outH)
    let b := box bi
    if b.degenerate p then .extrap else cropCell p b (q % p.outW) (q / p.outW % p.outH) j
  else
    let o := p.outExt
    let w := q % o.2.2
    let h := q / o.2.2 % o.2.1
    let t := q / (o.2.2 * o.2.1) % o.1
    let n := q / (o.2.2 * o.2.1 * o.1)
    match p.mode with
    | 0 => convCell p n t h w j
    | 1 => packCell p n t h w j
    | _ => spreadCell p n t h w j

/-- Box `i` of a list (R254). -/
def State.boxAt (s : State) (tile : Nat) (p : WinOp) (i : Nat) : Box :=
  boxOf p.affine (s.peek tile (if p.boxUni then 1 else 0) (p.boxAddr + 32 * i) 32)

/-- Bits of a source element, unpacked from the stash where it lies there. -/
def State.srcBits (s : State) (j tile : Nat) (t : Tensor) (r : RowIx) (i : Nat) : Except Code Nat :=
  let a := t.rowAddr r + i * fmtBits t.fmt / 8
  if t.space = 1 then
    match s.stashFind j a with
    | some e =>
      match s.stashValue j e a with
      | .ok v => .ok (encodeElem t.fmt .rne v)
      | .error c => .error c
    | none => .ok (s.elemBits tile t r i)
  else .ok (s.elemBits tile t r i)

/-- Bits that a cell writes, in the format of source and destination. -/
def State.cellBits (s : State) (j tile : Nat) (t : Tensor) (p : WinOp) : Cell → Except Code Nat
  | .zero => .ok 0
  | .extrap => .ok (encodeElem t.fmt .rne (val32 p.extrap))
  | .copy r c => s.srcBits j tile t r c
  | .blend taps c =>
    match sequenceE (taps.map (fun q => s.srcBits j tile t q.2 c)) with
    | .error e => .error e
    | .ok bits =>
      .ok (encodeElem t.fmt .rne
        (FV.sum ((taps.zip bits).map (fun q => q.1.1.mul (decodeElem t.fmt q.2 127)))))

/-- Source elements that a cell fetches (R250). -/
def Cell.fetched : Cell → List (RowIx × Nat)
  | .zero => []
  | .extrap => []
  | .copy r c => [(r, c)]
  | .blend taps c => taps.map (fun q => (q.2, c))

/-- Boxes whose first row lies in the rectangle of `n` rows from `q0` (R257). -/
def boxesIn (p : WinOp) (q0 n : Nat) : List Nat :=
  (List.range p.boxCount).filter (fun b =>
    decide (q0 ≤ b * p.outH * p.outW ∧ b * p.outH * p.outW < q0 + n))

end Sys2Proof.Machine
end

