-- ==== Sys2Proof/Machine/Dma.lean ====
section
/-!
DEFINITION. Machine/Dma.lean: class 2, DMA and descriptor, and what a DMA does when it completes or fails
(R38, R43, R44, R51 to R54, R108, R186, R242, R247).
-/

namespace Sys2Proof.Machine

/-! Descriptor loads and fields. -/

def dloadEff (t : Tile) (dd : BitVec 6) (sx : BitVec 5) (imm : W64) (s : State) : Eff :=
  let x := s.tile t
  let a := x.sreg sx + imm
  match spadFault 64 a with
  | some c => .fault c
  | none =>
    let d : Desc := BitVec.ofNat 512 (leNat (x.spad.getRange 0 a.toNat 64))
    match s.descFault d with
    | some c => .fault c
    | none => onTile t (fun x => x.setD dd d) s

def execDload (t : Tile) (g : Guard) (dd : BitVec 6) (sx : BitVec 5) (imm : W64) (s : State) :
    Host.Outcome State Fault Refusal :=
  .next (issue t g (slotOf (.dload t g dd sx imm)) (dloadEff t dd sx imm) s)

/-- Low bit and width of the field that FSEL chooses (Table 13 of 02). -/
def dsetField (fsel : Nat) : Option (Nat × Nat) :=
  match fsel with
  | 0 => some (64, 48)
  | 1 => some (128, 48)
  | 2 => some (32, 32)
  | 3 => some (192, 24)
  | 4 => some (216, 24)
  | 5 => some (240, 24)
  | 6 => some (264, 24)
  | 7 => some (288, 24)
  | 8 => some (312, 40)
  | 9 => some (352, 40)
  | 10 => some (392, 40)
  | 11 => some (432, 40)
  | 12 => some (20, 6)
  | 13 => some (16, 4)
  | 14 => some (28, 3)
  | 15 => some (26, 1)
  | _ => none

/-- A descriptor with one field replaced. -/
def putField (d : Desc) (lo w v : Nat) : Desc :=
  BitVec.ofNat 512 (d.toNat % 2 ^ lo + v * 2 ^ lo + d.toNat / 2 ^ (lo + w) * 2 ^ (lo + w))

/-- DSET (R51, R245): a wide value or FSEL raises ISA_FIELD_RANGE; the register must hold a tensor descriptor and the
result must be valid. -/
def dsetEff (t : Tile) (dd : BitVec 6) (sx : BitVec 5) (fsel : BitVec 6) (s : State) : Eff :=
  let x := s.tile t
  let v := (x.sreg sx).toNat
  match dsetField fsel.toNat with
  | none => .fault Codes.isaFieldRange
  | some (lo, w) =>
    if 2 ^ w ≤ v then .fault Codes.isaFieldRange
    else
      let d := putField (x.dreg dd) lo w v
      if descHdr (x.dreg dd) = 0x2010 ∧ s.tensorValid d then onTile t (fun x => x.setD dd d) s
      else .fault Codes.isaDescInvalid

def execDset (t : Tile) (g : Guard) (dd : BitVec 6) (sx : BitVec 5) (fsel : BitVec 6) (s : State) :
    Host.Outcome State Fault Refusal :=
  .next (issue t g (slotOf (.dset t g dd sx fsel)) (dsetEff t dd sx fsel) s)

/-! Issue of a DMA. -/

/-- The first fault of a list of optional ones, lowest code first (R71). -/
def lowestOf (xs : List (Option Code)) : Option Code :=
  lowest (xs.map (fun o => (o.isSome, o.getD 0)))

/-- Issues a DMA; a 33rd outstanding one stalls (R38). -/
def pushDma (t : Tile) (r : DmaRec) (s : State) : Eff :=
  if 32 ≤ (s.tile t).dmas.length then .stall s else onTile t (fun x => { x with dmas := x.dmas ++ [r] }) s

/-- MX codes only in a conversion from or to a Kremor block format or FP32 (R44). -/
def mxPairOk (a b : Nat) : Bool :=
  let ok (f : Nat) : Bool := fmtKremor f || f == 0
  (!fmtMx a || ok b) && (!fmtMx b || ok a)

/-- A tensor that lies in a stash entry's logical range. -/
def State.inStash (s : State) (j : Nat) (t : Tensor) : Bool := t.space == 1 && (s.stashFind j t.base).isSome

def dcopyFault (s : State) (t : Tile) (trans : Bool) (rnd : Nat) (dd ds : BitVec 6) (so sd : BitVec 5) : Option Code :=
  let x := s.tile t
  match lowestOf [if 1 < rnd then some Codes.isaFieldRange else none, nameFault 0x10 (x.dreg dd),
      nameFault 0x10 (x.dreg ds)] with
  | some c => some c
  | none =>
    let a := tensorOf (x.dreg ds)
    let b := tensorOf (x.dreg dd)
    lowest
      [(!convertible a.fmt b.fmt || b.space == 2 || !mxPairOk a.fmt b.fmt
          || (s.inStash x.job a && decide (2 < b.fmt)), Codes.isaFormat),
       (trans && a.space != 1, Codes.isaTranspose),
       (!a.aligned || !b.aligned || a.blockMisaligned (x.sreg so) || b.blockMisaligned (x.sreg sd), Codes.isaMisalign)]

def dcopyEff (t : Tile) (trans : Bool) (rnd : Nat) (dd ds : BitVec 6) (so sd : BitVec 5) (evt : Nat) (s : State) :
    Eff :=
  match dcopyFault s t trans rnd dd ds so sd with
  | some c => .fault c
  | none =>
    let x := s.tile t
    pushDma t ⟨.copy trans (rnd == 1), x.pc, evt, x.dreg dd, x.dreg ds, 0, x.sreg so, x.sreg sd, false⟩ s

def execDcopy (t : Tile) (g : Guard) (trans : Bool) (rnd : BitVec 2) (dd ds : BitVec 6) (so sd : BitVec 5)
    (evt : BitVec 4) (s : State) : Host.Outcome State Fault Refusal :=
  .next (issue t g (slotOf (.dcopy t g trans rnd dd ds so sd evt)) (dcopyEff t trans rnd.toNat dd ds so sd evt.toNat) s)

/-- R53, R183, R186. -/
def dgatherFault (s : State) (t : Tile) (dd dp : BitVec 6) (st sn : BitVec 5) : Option Code :=
  let x := s.tile t
  match lowestOf [nameFault 0x10 (x.dreg dd), nameFault 0x11 (x.dreg dp)] with
  | some c => some c
  | none =>
    let b := tensorOf (x.dreg dd)
    let l := pageListOf (x.dreg dp)
    let first := (x.sreg st).toNat
    let n := (x.sreg sn).toNat
    lowest
      [(decide (l.heads < bitsOf first 39 32 + b.e2) || n == 0 || decide (b.e1 < n) || decide (2 ^ 40 ≤ first),
          Codes.isaFieldRange),
       (!s.pageListValid (x.dreg dp), Codes.isaDescInvalid),
       (l.locus == 2, Codes.isaDescType),
       (b.space != 0 || b.rank != 3 || b.e0 != 128 || b.fmt != l.fmt, Codes.isaFormat)]

def dgatherEff (t : Tile) (dd dp : BitVec 6) (st sn : BitVec 5) (evt : Nat) (s : State) : Eff :=
  match dgatherFault s t dd dp st sn with
  | some c => .fault c
  | none =>
    let x := s.tile t
    pushDma t ⟨.gather, x.pc, evt, x.dreg dd, x.dreg dp, 0, x.sreg st, x.sreg sn, false⟩ s

def execDgather (t : Tile) (g : Guard) (dd dp : BitVec 6) (st sn : BitVec 5) (evt : BitVec 4) (s : State) :
    Host.Outcome State Fault Refusal :=
  .next (issue t g (slotOf (.dgather t g dd dp st sn evt)) (dgatherEff t dd dp st sn evt.toNat) s)

/-- Formats that DWIN accepts (Table 1 of 08). -/
def dwinFmtOk (mode fmt : Nat) : Bool :=
  decide (fmt ≤ 4) || ((mode == 1 || mode == 2) && decide (fmt ≤ 7))

def dwinFault (s : State) (t : Tile) (dd ds dw : BitVec 6) : Option Code :=
  let x := s.tile t
  match lowestOf [nameFault 0x10 (x.dreg dd), nameFault 0x10 (x.dreg ds), nameFault 0x12 (x.dreg dw)] with
  | some c => some c
  | none =>
    let a := tensorOf (x.dreg ds)
    let b := tensorOf (x.dreg dd)
    lowest [(decide (1 < a.space) || b.space != 0 || b.rank != 2 || a.fmt != b.fmt
      || !dwinFmtOk (winOpOf (x.dreg dw)).mode a.fmt || (s.inStash x.job a && decide (2 < b.fmt)), Codes.isaFormat)]

def dwinEff (t : Tile) (dd ds dw : BitVec 6) (so : BitVec 5) (evt : Nat) (s : State) : Eff :=
  match dwinFault s t dd ds dw with
  | some c => .fault c
  | none =>
    let x := s.tile t
    pushDma t ⟨.window, x.pc, evt, x.dreg dd, x.dreg ds, x.dreg dw, x.sreg so, 0, false⟩ s

def execDwin (t : Tile) (g : Guard) (dd ds dw : BitVec 6) (so : BitVec 5) (evt : BitVec 4) (s : State) :
    Host.Outcome State Fault Refusal :=
  .next (issue t g (slotOf (.dwin t g dd ds dw so evt)) (dwinEff t dd ds dw so evt.toNat) s)

/-! What a DMA does. -/

/-- Rows of the destination that a copy writes, from the offset on (R52). -/
def copyRows (b : Tensor) (sd : W64) : List RowIx := b.rows.filter (fun r => decide (off1 sd ≤ r.i1))

/-- Source row and first element of a destination row; transposed, the row is read down dimension 1 (R52). -/
def copySrc (trans : Bool) (so sd : W64) (r : RowIx) (i : Nat) : RowIx × Nat :=
  let u := off0 so + (i - off0 sd)
  let v := off1 so + (r.i1 - off1 sd)
  if trans then (⟨off1 so + (i - off0 sd), r.i2, r.i3, r.i4⟩, off0 so + (r.i1 - off1 sd))
  else (⟨v, r.i2, r.i3, r.i4⟩, u)

/-- A copy of equal element encodings and block lengths, not transposed (R108). -/
def bitCopy (trans : Bool) (a b : Tensor) : Bool :=
  !trans && fmtScaled a.fmt && fmtScaled b.fmt && mxPair a.fmt == mxPair b.fmt && a.block == b.block

/-- A copy within one format without scales moves the bits. -/
def sameFmt (a b : Tensor) : Bool := a.fmt == b.fmt && !fmtScaled a.fmt

/-- Values that a copy writes to a row from element `o`. -/
def State.copyVals (s : State) (j t : Nat) (trans : Bool) (so sd : W64) (a : Tensor) (r : RowIx) (o n : Nat) :
    Except Code (List FV) :=
  sequenceE ((List.range n).map (fun i =>
    let p := copySrc trans so sd r (o + i)
    s.elemValFor j t a p.1 p.2))

/-- Raw bits that a copy within one format writes. -/
def State.copyBits (s : State) (j t : Nat) (trans : Bool) (so sd : W64) (a : Tensor) (r : RowIx) (o n : Nat) :
    Except Code (List Nat) :=
  sequenceE ((List.range n).map (fun i =>
    let p := copySrc trans so sd r (o + i)
    if a.hasRow p.1 && decide (p.2 < a.e0) then s.srcBits j t a p.1 p.2 else .ok 0))

/-- Bytes of elements without scales, put into a row for a job. -/
def State.putRawFor (s : State) (j t : Nat) (b : Tensor) (r : RowIx) (o : Nat) (bits : List Nat) : Except Code State :=
  let w := fmtBits b.fmt / 8
  let a := b.rowAddr r + o * w
  let bytes := bits.flatMap (fun x => natLe w x)
  if b.space = 1 then s.uniPut j a bytes else .ok (s.poke t b.space a bytes)

/-- One row of a copy (R52, R53, R108). -/
def State.copyRow (s : State) (j t : Nat) (trans : Bool) (m : RndMode) (thresh : W32) (so sd : W64) (a b : Tensor)
    (r : RowIx) : Except Code (State × Sums) :=
  let o := off0 sd
  let n := b.e0 - o
  if n = 0 then .ok (s, .zeros)
  else if sameFmt a b then
    match s.copyBits j t trans so sd a r o n with
    | .error e => .error e
    | .ok bits =>
      match s.putRawFor j t b r o bits with
      | .error e => .error e
      | .ok s' => .ok (s', .zeros)
  else
    match s.copyVals j t trans so sd a r o n with
    | .error e => .error e
    | .ok vs =>
      if bitCopy trans a b then
        .ok ((blocksOf b.block b.e0 (n + 1) o vs).foldl (fun p k =>
          let src := copySrc trans so sd r k.first
          if a.hasRow src.1 && decide (src.2 + k.vals.length ≤ a.e0) then
            let q : QBlock := ⟨p.1.elemScale t a src.1 src.2,
              (List.range k.vals.length).map (fun i => p.1.elemBits t a src.1 (src.2 + i)), 0, 0, false⟩
            (p.1.putBlock t b r k.first q, p.2)
          else
            let q := b.quant m r k
            (p.1.putBlock t b r k.first q, p.2.add (q.sums thresh))) (s, .zeros))
      else s.putRunFor j t b m thresh r o vs

/-- Threads a state and counts through rows, to the first error. -/
def foldRows (f : State → RowIx → Except Code (State × Sums)) : List RowIx → State × Sums → Except Code (State × Sums)
  | [], p => .ok p
  | r :: rs, p =>
    match f p.1 r with
    | .error e => .error e
    | .ok q => foldRows f rs (q.1, p.2.add q.2)

/-- Thresholds and seed of the hand on a tile. -/
def TileSt.thresh (x : TileSt) : W32 :=
  match x.hand with
  | some h => h.thresh
  | none => x.regs.thresh

def TileSt.seed (x : TileSt) : W64 :=
  match x.hand with
  | some h => h.seed
  | none => x.regs.seed

/-- Bytes of elements `o` to `o + n - 1` of a row inside the extents, and of their scales. -/
def Tensor.runAccess (t : Tensor) (r : RowIx) (o n : Nat) : List (Nat × Nat) :=
  let n := min n (t.e0 - o)
  if t.hasRow r && decide (0 < n) then
    let w := fmtBits t.fmt
    let lo := o * w / 8
    (t.rowAddr r + lo, ceilDiv ((o + n) * w) 8 - lo)
      :: (if fmtScaled t.fmt then [(t.scaleAddr r + o / t.block, (o + n - 1) / t.block - o / t.block + 1)] else [])
  else []

/-- Bytes of the unified range that a DMA fetches and writes (R54). -/
def State.dmaAccesses (s : State) (t : Nat) (d : DmaRec) : List (Nat × Nat) :=
  let b := tensorOf d.dst
  let a := tensorOf d.src
  match d.kind with
  | .copy tr _ =>
    let rows := copyRows b d.sd
    let o := off0 d.sd
    let n := b.e0 - o
    (if a.space = 1 then
        rows.flatMap (fun r =>
          if tr then
            (List.range n).flatMap (fun i => let p := copySrc true d.so d.sd r (o + i); a.runAccess p.1 p.2 1)
          else let p := copySrc false d.so d.sd r o; a.runAccess p.1 p.2 n)
      else [])
      ++ (if b.space = 1 then rows.flatMap (fun r => b.runAccess r o n) else [])
  | .gather => []
  | .window =>
    let p := winOpOf d.par
    let box := s.boxAt t p
    (if p.boxUni && p.mode == 3 then [(p.boxAddr, 32 * p.boxCount)] else [])
      ++ (if a.space = 1 then
        (List.range b.e1).flatMap (fun i => (List.range b.e0).flatMap (fun j =>
          (winCell p box (off0 d.so + i) (off1 d.so + j)).fetched.map (fun f =>
            (a.rowAddr f.1 + f.2 * fmtBits a.fmt / 8, fmtBits a.fmt / 8))))
        else [])

/-- The copy of a DGATHER (R186). -/
def State.gatherDo (s : State) (t : Nat) (d : DmaRec) : Except AccErr State :=
  let b := tensorOf d.dst
  let l := pageListOf d.src
  let first := off0 d.so
  let head := bitsOf d.so.toNat 39 32
  let cells := (List.range b.e2).flatMap (fun k => (List.range d.sd.toNat).map (fun i => (k, i)))
  match sequenceA (cells.map (fun c => s.posBits t l (head + c.1) (first + c.2))) with
  | .error e => .error e
  | .ok rows =>
    .ok ((cells.zip rows).foldl (fun s c =>
      s.poke t 0 (b.rowAddr ⟨c.1.2, c.1.1, 0, 0⟩) (c.2.flatMap (fun x => natLe (fmtBits b.fmt / 8) x))) s)

/-- The panel of a DWIN (R247) and its count of degenerate boxes (R257). -/
def State.windowDo (s : State) (j t : Nat) (d : DmaRec) : Except Code State :=
  let b := tensorOf d.dst
  let a := tensorOf d.src
  let p := winOpOf d.par
  let box := s.boxAt t p
  let rows := (List.range b.e1).map (fun i => (i, (List.range b.e0).map (fun k =>
    s.cellBits j t a p (winCell p box (off0 d.so + i) (off1 d.so + k)))))
  match sequenceE (rows.map (fun r => sequenceE r.2)) with
  | .error e => .error e
  | .ok bits =>
    let s' := (bits.zipIdx).foldl (fun s r =>
      s.poke t 0 (b.rowAddr ⟨r.2, 0, 0, 0⟩) (r.1.flatMap (fun x => natLe (fmtBits b.fmt / 8) x))) s
    let deg := if p.mode = 3 ∧ off1 d.so = 0 then
        ((boxesIn p (off0 d.so) b.e1).filter (fun i => (box i).degenerate p)).length
      else 0
    .ok (s'.modTile t (fun x =>
      { x with regs := { x.regs with degenerate := satAdd (2 ^ 32 - 1) x.regs.degenerate deg } }))

/-- Everything a DMA writes, or the error it meets. -/
def State.dmaDo (s : State) (t : Nat) (d : DmaRec) : Except AccErr State :=
  let x := s.tile t
  let j := x.job
  match s.checkAccesses (.job j) (s.dmaAccesses t d) with
  | some e => .error e
  | none =>
    match d.kind with
    | .gather => s.gatherDo t d
    | .window =>
      match s.windowDo j t d with
      | .ok s' => .ok s'
      | .error c => .error ⟨c, s.memData (tensorOf d.src).base⟩
    | .copy tr stoch =>
      let a := tensorOf d.src
      let b := tensorOf d.dst
      match foldRows (fun s r => s.copyRow j t tr ⟨stoch, x.seed⟩ x.thresh d.so d.sd a b r) (copyRows b d.sd)
          (s, .zeros) with
      | .ok p => .ok (p.1.addSums t p.2)
      | .error c => .error ⟨c, s.memData b.base⟩

/-- Removes outstanding DMA `n`. -/
def TileSt.dropDma (x : TileSt) (n : Nat) : TileSt := { x with dmas := x.dmas.eraseIdx n }

/-- Fills with free values the region that a failed DMA would have written (R54); a page outside the windows keeps its
bytes. -/
def State.freeRegion (s : State) (t : Nat) (d : DmaRec) : State :=
  let b := tensorOf d.dst
  let rows := match d.kind with
    | .copy _ _ => (copyRows b d.sd).flatMap (fun r => b.runAccess r (off0 d.sd) (b.e0 - off0 d.sd))
    | _ => b.rows.flatMap (fun r => b.runAccess r 0 b.e0)
  let j := (s.tile t).job
  rows.foldl (fun s p =>
    if b.space = 1 && (s.checkRange (.job j) p.1 p.2).isSome then s
    else
      let k := s.freeCtr
      { s with freeCtr := k + 1 }.poke t b.space p.1 ((List.range p.2).map (Config.freeByte k))) s

/-- A DMA's error reaches the tile: the region is left undefined, the report is imprecise and the job faults (R54). -/
def State.dmaFail (s : State) (t n : Nat) (d : DmaRec) (e : AccErr) : State :=
  let x := s.tile t
  let hand := match x.hand with
    | some h => h.id
    | none => 0
  ((s.freeRegion t d).modTile t (fun x => x.dropDma n)).tileReport t d.slot e.code x.job hand e.data

/-- Pages that a DMA waits on (R280); a page walk does not wait (R185), and stash pages are mapped by the conductor. -/
def State.dmaAbsent (s : State) (t : Nat) (d : DmaRec) : List Nat :=
  let j := (s.tile t).job
  s.absentOf ((s.dmaAccesses t d).filter (fun p => (s.stashFind j p.1).isNone))

/-- DMA_COMPLETE: the writes become visible and the event counter counts 1 (R38); on a page that is not resident the DMA
waits (R280), and a failed check is reported (R54). -/
def dmaComplete (t : Nat) (n : Nat) (s : State) : State :=
  match (s.tile t).dmas[n]? with
  | none => s
  | some d =>
    match s.dmaAbsent t d with
    | p :: ps =>
      (s.waitOn (s.tile t).job reqTile t (p :: ps)).modTile t
        (fun x => { x with dmas := x.dmas.set n { d with waiting := true } })
    | [] =>
      match s.dmaDo t d with
      | .ok s' => s'.modTile t (fun x => (x.dropDma n).bump d.evt 1)
      | .error e => s.dmaFail t n d e

def execDmaComplete (t : Tile) (n : Nat) (s : State) : Host.Outcome State Fault Refusal := .next (dmaComplete t n s)

/-- An uncorrectable error at a physical address in a frame: the stack counts it and records the first (Tables 11 and 12
of 09), and the frame is to be retired (R288). -/
def State.noteUeAt (s : State) (p f : Nat) : State :=
  let s := s.modStack (p / 2 ^ 36) (fun x =>
    { x with ue := satAdd (2 ^ 32 - 1) x.ue 1, ueValid := true, ueAddr := if x.ueValid then x.ueAddr else p })
  if s.mem.badFrames.get 0 f = 0 then { s with mem := { s.mem with badFrames := s.mem.badFrames.set 0 f 1 } } else s

/-- An uncorrectable error at a word of the unified range (R287). -/
def State.noteUe (s : State) (addr : Nat) : State :=
  let p := s.physOf addr
  s.noteUeAt p.1 p.2

/-- An address of the unified range that a DMA reads. -/
def State.dmaReads (s : State) (t : Nat) (d : DmaRec) : List Nat :=
  match d.kind with
  | .gather =>
    let l := pageListOf d.src
    (List.range d.sd.toNat).filterMap (fun i =>
      match s.posAddr l (bitsOf d.so.toNat 39 32) (off0 d.so + i) with
      | .ok p => some p.2
      | .error _ => none)
  | _ => (s.dmaAccesses t d).map (·.1)

/-- DMA_FAULT_REPORT: the stack engine cannot serve an address of an outstanding DMA (R54). -/
def dmaFaultReport (t : Nat) (n : Nat) (ecc : Ecc) (s : State) : State :=
  match (s.tile t).dmas[n]? with
  | none => s
  | some d =>
    match s.dmaDo t d with
    | .error e => s.dmaFail t n d e
    | .ok _ =>
      match ecc, s.dmaReads t d with
      | .uncorrectable, a :: _ => (s.noteUe a).dmaFail t n d ⟨Codes.memUncorrectable, s.memData a⟩
      | _, _ => s

def execDmaFaultReport (t : Tile) (n : Nat) (ecc : Ecc) (s : State) : Host.Outcome State Fault Refusal :=
  .next (dmaFaultReport t n ecc s)

end Sys2Proof.Machine
end

