-- ==== Sys2Proof/Machine/Precision.lean ====
section
/-!
DEFINITION. Machine/Precision.lean: the precision log and the reports of a hand (R124, R132, R133).
-/

namespace Sys2Proof.Machine

/-- Address of the precision log of a job (R404). -/
def State.precLog (s : State) (j : Nat) : Nat :=
  match s.job j with
  | some x => x.desc.precLog
  | none => 0

/-- Claims an entry of the precision log by an INT64 add to NEXT and writes it; past the capacity DROPPED counts 1 and
PRECISION_LOG_FULL is reported once per job (R133). -/
def State.logEntry (s : State) (t j : Nat) (entry : List Byte) : State :=
  let a := s.precLog j
  let cap := s.readLe (a + 0x08) 8
  let next := s.readLe (a + 0x10) 8
  let s := s.addInt64 (a + 0x10) 1
  if next < cap then s.writeMem (a + 64 + 64 * next) entry
  else (s.addInt64 (a + 0x18) 1).reportOnce j Codes.precisionLogFull { (tileInfo s t []) with job := j }

/-- First 16 bytes of an entry (Table 8 of 04). -/
def logHead (kind reason phase tile : Nat) (hand : W64) : List Byte :=
  natLe 2 0x2033 ++ natLe 1 kind ++ natLe 1 reason ++ natLe 1 phase ++ natLe 1 tile ++ natLe 2 0
    ++ natLe 8 hand.toNat

/-- Kind 2: the summary of a hand (Table 8 of 04). -/
def summaryEntry (h : Hand) (t : Nat) (c : Sums) : List Byte :=
  logHead 2 0 h.phase t h.id ++ natLe 8 c.blocks ++ natLe 8 0 ++ natLe 4 c.sat ++ natLe 4 c.zero
    ++ natLe 4 c.flagged ++ natLe 4 c.nan ++ natLe 4 c.replayed ++ natLe 4 c.unreplayed ++ natLe 8 0

/-- Kind 1: a column group committed unreplayed (Table 8 of 04). -/
def groupEntry (h : Hand) (t reason addr space cg rows : Nat) (c : Sums) : List Byte :=
  logHead 1 reason h.phase t h.id ++ natLe 8 addr ++ natLe 1 space ++ natLe 1 cg ++ natLe 6 0 ++ natLe 16 rows
    ++ natLe 4 c.sat ++ natLe 4 c.zero ++ natLe 8 0

/-- DATA of a precision record: HAND_ID and PHASE (log entry 23). -/
def precData (h : Hand) : List Byte := natLe 8 h.id.toNat ++ natLe 1 h.phase

/-- The flag test and the summary entry of a hand that halts or is saved (R124). -/
def State.handSummary (s : State) (t : Nat) (halted : Bool) : State :=
  let x := s.tile t
  match x.hand with
  | none => s
  | some h =>
    let c := x.regs.sums
    let f := threshFlag h.thresh
    let s := if halted && f != 0 && decide (f * c.blocks < c.flagged * 1024) then
        s.report Codes.precisionFlag (tileInfo s t (precData h))
      else s
    if c.blocks = 0 then s else s.logEntry t h.job (summaryEntry h t c)

/-- Pages of the precision log that are not resident. -/
def State.logAbsent (s : State) (j : Nat) : List Nat := s.absentPages (s.precLog j) 64

end Sys2Proof.Machine
end

