-- ==== Sys2Proof/Machine/Matrix.lean ====
section
/-!
DEFINITION. Machine/Matrix.lean: class 3, matrix instructions, accumulation and replay (R55 to R60, R101, R102, R115 to
R119, R125 to R132).
-/

namespace Sys2Proof.Machine

/-! Accumulator tiles. -/

/-- An accumulator tile: full tile, first column, columns, and the quartered units it covers (R55). -/
structure AccTile where
  full : Nat
  col0 : Nat
  cols : Nat
  units : List Nat
  deriving DecidableEq, Repr

/-- The tile that an index names in a mode; none outside R55. -/
def accTile (quart : Bool) (i : Nat) : Option AccTile :=
  if quart then
    if i < 32 then some ⟨i / 4, 128 * (i % 4), 128, [i]⟩ else none
  else if i < 8 then some ⟨i, 0, 512, [4 * i, 4 * i + 1, 4 * i + 2, 4 * i + 3]⟩
  else none

/-- Key of a word (log entry 9). -/
def AccTile.key (a : AccTile) (r c : Nat) : Nat := (a.full * 128 + r) * 512 + a.col0 + c

def TileSt.accRow (x : TileSt) (a : AccTile) (r : Nat) : List W32 := x.acc.getRange 0 (a.key r 0) a.cols

def TileSt.setAccRow (x : TileSt) (a : AccTile) (r : Nat) (ws : List W32) : TileSt :=
  { x with acc := x.acc.setRange 0 (a.key r 0) ws }

/-- Writes all 128 rows. -/
def TileSt.setAcc (x : TileSt) (a : AccTile) (rows : List (List W32)) : TileSt :=
  (rows.zipIdx).foldl (fun x p => x.setAccRow a p.2 p.1) x

def TileSt.unit (x : TileSt) (u : Nat) : AccUnit := x.units.get .init u

def TileSt.modUnit (x : TileSt) (u : Nat) (f : AccUnit → AccUnit) : TileSt :=
  { x with units := x.units.set .init u (f (x.unit u)) }

/-- State of an accumulator tile: none when its units differ (R119). -/
def TileSt.accState (x : TileSt) (a : AccTile) : Option AccState :=
  match a.units.map (fun u => (x.unit u).state) with
  | [] => none
  | st :: rest => if rest.all (· == st) then some st else none

def TileSt.setAccState (x : TileSt) (a : AccTile) (st : AccState) : TileSt :=
  a.units.foldl (fun x u => x.modUnit u (fun y => { y with state := st })) x

/-- History after an instruction with a record (R127). -/
def AccHist.add (h : AccHist) (r : ReplayRec) : AccHist :=
  if 4 ≤ h.recs.length then { h with bad := true } else { h with recs := h.recs ++ [r] }

/-- Changes the histories that an instruction on an accumulator tile touches: a quartered instruction makes the full
tile unreplayable, a full one belongs to the history of each of its units (R127). -/
def TileSt.modHist (x : TileSt) (quart : Bool) (a : AccTile) (f : AccHist → AccHist) : TileSt :=
  let x := a.units.foldl (fun x u => x.modUnit u (fun y => { y with quart := f y.quart })) x
  x.modUnit (4 * a.full) (fun y =>
    { y with full := if quart then { y.full with bad := true } else f y.full })

/-- History of an accumulator tile for a store (R127). -/
def TileSt.hist (x : TileSt) (quart : Bool) (a : AccTile) : AccHist :=
  if quart then
    match a.units with
    | u :: _ => (x.unit u).quart
    | [] => .init
  else (x.unit (4 * a.full)).full

/-! Products. -/

/-- Pairs of formats that the array accepts (R56). -/
def pairOk (a b : Nat) : Bool :=
  let narrow (f : Nat) : Bool := f == 3 || f == 4 || fmtKremor f
  (a == 0 && b == 0) || ((a == 1 || a == 2) && (b == 1 || b == 2)) || (narrow a && narrow b)

/-- The wider lane width of two formats (R57, R101). -/
def pairLane (a b : Nat) : Nat := max (laneWidth a) (laneWidth b)

/-- Element (k, i) of an operand, i its row of A or column of B; read transposed where asked (R59, R102). -/
def State.opVal (s : State) (t : Nat) (d : Tensor) (off : W64) (tr : Bool) (k i : Nat) : FV :=
  if tr then s.elemVal t d ⟨off1 off + k, 0, 0, 0⟩ (off0 off + i)
  else s.elemVal t d ⟨off1 off + i, 0, 0, 0⟩ (off0 off + k)

/-- Element index along dimension 0 of K element `k`, where the operand is read along dimension 0. -/
def blockIx (d : Tensor) (off : W64) (k : Nat) : Nat := (off0 off + k) / d.block

/-- Run length of a group counted from the first K element (R115): 32 for FP8, 4 for BF16, FP16 and the passes of FP32,
none for a block format. -/
def groupRun (fmt : Nat) : Nat :=
  if fmt == 3 || fmt == 4 then 32 else if fmtKremor fmt then 0 else 4

def runIx (fmt k : Nat) : Nat := if groupRun fmt = 0 then 0 else k / groupRun fmt

/-- Two consecutive K elements belong to one group (R115). -/
def sameGroup (a b : Tensor) (sa sb : W64) (k : Nat) : Bool :=
  blockIx a sa k == blockIx a sa (k + 1) && blockIx b sb k == blockIx b sb (k + 1)
    && runIx a.fmt k == runIx a.fmt (k + 1) && runIx b.fmt k == runIx b.fmt (k + 1)

/-- Cuts the K elements from `lo` below `hi` into groups (R115). -/
def groupsFrom (a b : Tensor) (sa sb : W64) : Nat → Nat → Nat → List Nat → List (List Nat)
  | 0, _, _, cur => if cur.isEmpty then [] else [cur.reverse]
  | fuel + 1, k, hi, cur =>
    if hi ≤ k then (if cur.isEmpty then [] else [cur.reverse])
    else if k + 1 < hi ∧ sameGroup a b sa sb k then groupsFrom a b sa sb fuel (k + 1) hi (k :: cur)
    else (k :: cur).reverse :: groupsFrom a b sa sb fuel (k + 1) hi []

def groups (a b : Tensor) (sa sb : W64) (lo hi : Nat) : List (List Nat) :=
  groupsFrom a b sa sb (hi - lo + 1) lo hi []

/-- One fused step per group: the exact sum of the group's products is added to acc with one rounding (R116). -/
def accumGroups (va vb : Nat → FV) (acc : W32) (gs : List (List Nat)) : W32 :=
  gs.foldl (fun acc g => to32 ((val32 acc).add (FV.sum (g.map (fun k => (va k).mul (vb k)))))) acc

/-- The leading part of an FP32 operand value (R118). -/
def hiPart (v : FV) : FV := val32 ((to32 v) &&& 0xFFFF0000#32)

/-- An infinite or NaN value is its own leading part; else the low 16 bits are cleared (R118). -/
def splitHi (v : FV) : FV :=
  match v with
  | .fin _ _ _ => hiPart v
  | x => x

/-- The remainder rounded to BF16; zero for an infinite or NaN value (R118). -/
def splitLo (v : FV) : FV :=
  match v with
  | .fin _ _ _ => encBf16.decode (encBf16.encode .rne (v.sub (hiPart v)))
  | _ => .fin false 0 0

/-- K elements of engine `j` of four (R58). -/
def engineShare (k j : Nat) : Nat × Nat :=
  let q := ceilDiv k 4
  (min k (j * q), min k ((j + 1) * q))

/-- Sum of the four engines' parts, then the accumulator, each addition rounded (R58). -/
def combine (acc e0 e1 e2 e3 : W32) : W32 := fadd acc (fadd (fadd e0 e1) (fadd e2 e3))

/-- One output element that is not emulated: full mode accumulates over all of K, quartered mode by engines. -/
def dotPlain (quart : Bool) (a b : Tensor) (sa sb : W64) (k : Nat) (va vb : Nat → FV) (acc : W32) : W32 :=
  if quart then
    let e (j : Nat) : W32 := let p := engineShare k j; accumGroups va vb 0 (groups a b sa sb p.1 p.2)
    combine acc (e 0) (e 1) (e 2) (e 3)
  else accumGroups va vb acc (groups a b sa sb 0 k)

/-- Even and odd columns of one emulated FP32 result: three passes over K (R118). -/
def dotPaired (quart : Bool) (a b : Tensor) (sa sb : W64) (k : Nat) (va vb : Nat → FV) (even odd : W32) :
    W32 × W32 :=
  let ah (i : Nat) : FV := splitHi (va i)
  let al (i : Nat) : FV := splitLo (va i)
  let bh (i : Nat) : FV := splitHi (vb i)
  let bl (i : Nat) : FV := splitLo (vb i)
  let evenOf (acc : W32) (gs : List (List Nat)) : W32 := accumGroups ah bh acc gs
  let oddOf (acc : W32) (gs : List (List Nat)) : W32 :=
    accumGroups al bl (accumGroups al bh (accumGroups ah bl acc gs) gs) gs
  if quart then
    let gs (j : Nat) : List (List Nat) := let p := engineShare k j; groups a b sa sb p.1 p.2
    (combine even (evenOf 0 (gs 0)) (evenOf 0 (gs 1)) (evenOf 0 (gs 2)) (evenOf 0 (gs 3)),
     combine odd (oddOf 0 (gs 0)) (oddOf 0 (gs 1)) (oddOf 0 (gs 2)) (oddOf 0 (gs 3)))
  else (evenOf even (groups a b sa sb 0 k), oddOf odd (groups a b sa sb 0 k))

/-- A row of K values of an operand, read once. -/
def State.opRow (s : State) (t : Nat) (d : Tensor) (off : W64) (tr : Bool) (k i : Nat) : List FV :=
  (List.range k).map (fun n => s.opVal t d off tr n i)

def nth (xs : List FV) (i : Nat) : FV := xs.getD i (.fin false 0 0)

/-- New words of one accumulator row after a product (R115 to R118); output column `c` of the product is column
`first + c` of B. -/
def mmaRow (quart : Bool) (a b : Tensor) (sa sb : W64) (k : Nat) (arow : List FV) (bcols : List (List FV))
    (old : List W32) : List W32 :=
  if a.fmt = 0 then
    (bcols.zipIdx).flatMap (fun p =>
      let r := dotPaired quart a b sa sb k (nth arow) (nth p.1) (old.getD (2 * p.2) 0) (old.getD (2 * p.2 + 1) 0)
      [r.1, r.2])
  else (bcols.zipIdx).map (fun p => dotPlain quart a b sa sb k (nth arow) (nth p.1) (old.getD p.2 0))

/-- Columns of B that an accumulator tile takes: half as many results for FP32 (R118). -/
def resultCols (fmt cols : Nat) : Nat := if fmt = 0 then cols / 2 else cols

/-- The product of an MMA into an accumulator tile (R116). -/
def State.mmaDo (s : State) (t : Nat) (quart tra trb : Bool) (a b : Tensor) (sa sb : W64) (k : Nat) (at_ : AccTile) :
    State :=
  let x := s.tile t
  let bcols := (List.range (resultCols a.fmt at_.cols)).map (fun c => s.opRow t b sb trb k c)
  let rows := (List.range 128).map (fun r =>
    mmaRow quart a b sa sb k (s.opRow t a sa tra k r) bcols (x.accRow at_ r))
  s.setTile t (x.setAcc at_ rows)

/-! MMA. -/

/-- A transposed read is allowed (R59). -/
def transposeOk (d : Tensor) (off : W64) : Bool :=
  decide (1 ≤ d.fmt) && decide (d.fmt ≤ 4) && off0 off % 128 == 0 && off1 off % 128 == 0 && d.e0 % 128 == 0
    && d.e1 % 128 == 0

/-- The wider operand of a replay (R125). -/
def replayOk (b dr : Tensor) : Bool :=
  dr.space == 0 && (fmtKremor b.fmt || b.fmt == 3 || b.fmt == 4) && decide (laneWidth b.fmt ≤ 4)
    && laneWidth dr.fmt == 2 * laneWidth b.fmt

/-- Array cycles of a product (Table 1 of 04). -/
def mmaCycles (quart : Bool) (lane k : Nat) : Nat := ceilDiv (k * cpe8 lane) (if quart then 32 else 8)

def mmaFault (s : State) (t : Tile) (quart tra trb : Bool) (da db : BitVec 6) (acc sa sb sk : BitVec 5)
    (dr : Option (BitVec 6)) : Option Code :=
  let x := s.tile t
  let k := (x.sreg sk).toNat % 2 ^ 32
  let drName := match dr with
    | some r => nameFault 0x10 (x.dreg r)
    | none => none
  match lowestOf [nameFault 0x10 (x.dreg da), nameFault 0x10 (x.dreg db), drName] with
  | some c => if k = 0 then some Codes.isaFieldRange else some c
  | none =>
    let a := tensorOf (x.dreg da)
    let b := tensorOf (x.dreg db)
    let at_ := accTile quart acc.toNat
    let pair := pairOk a.fmt b.fmt
    let st := match at_ with
      | some y => x.accState y
      | none => none
    let stateBad := at_.isSome && (match st with
      | none => true
      | some .empty => false
      | some .plain => a.fmt == 0
      | some .paired => a.fmt != 0)
    let drBad := match dr with
      | some r => !replayOk b (tensorOf (x.dreg r)) || !pairOk a.fmt (tensorOf (x.dreg r)).fmt
      | none => false
    lowest
      [(k == 0 || (pair && decide (kMax (pairLane a.fmt b.fmt) < k)), Codes.isaFieldRange),
       (!pair || a.space != 0 || b.space != 0 || stateBad || drBad, Codes.isaFormat),
       ((tra && !transposeOk a (x.sreg sa)) || (trb && !transposeOk b (x.sreg sb)), Codes.isaTranspose),
       (at_.isNone, Codes.isaAccRange),
       (!a.aligned || !b.aligned || a.blockMisaligned (x.sreg sa) || b.blockMisaligned (x.sreg sb),
          Codes.isaMisalign)]

/-- Histories and states after an MMA (R119, R127). -/
def mmaNote (quart tra trb : Bool) (fp32 : Bool) (at_ : AccTile) (da db : Nat) (sa sb : W64) (k : Nat)
    (dr : Option Nat) (x : TileSt) : TileSt :=
  let x := match x.accState at_ with
    | some .empty => x.setAccState at_ (if fp32 then .paired else .plain)
    | _ => x
  match dr with
  | some r => x.modHist quart at_ (fun h => h.add ⟨da, r, sa, sb, k, quart, tra, trb, db⟩)
  | none => x.modHist quart at_ (fun h => { h with bad := true })

def mmaEff (t : Tile) (quart tra trb : Bool) (da db : BitVec 6) (acc sa sb sk : BitVec 5) (dr : Option (BitVec 6))
    (s : State) : Eff :=
  match mmaFault s t quart tra trb da db acc sa sb sk dr, accTile quart acc.toNat with
  | some c, _ => .fault c
  | none, none => .fault Codes.isaAccRange
  | none, some at_ =>
    let x := s.tile t
    let a := tensorOf (x.dreg da)
    let b := tensorOf (x.dreg db)
    let k := (x.sreg sk).toNat % 2 ^ 32
    let s := s.mmaDo t quart tra trb a b (x.sreg sa) (x.sreg sb) k at_
    onTile t (fun y =>
      { (mmaNote quart tra trb (a.fmt == 0) at_ da.toNat db.toNat (x.sreg sa) (x.sreg sb) k (dr.map (·.toNat)) y) with
        busy := (y.busy + mmaCycles quart (pairLane a.fmt b.fmt) k) % 2 ^ 64 }) s

def execMma (t : Tile) (g : Guard) (quart tra trb : Bool) (da db : BitVec 6) (acc sa sb sk : BitVec 5)
    (dr : Option (BitVec 6)) (s : State) : Host.Outcome State Fault Refusal :=
  .next (issue t g (slotOf (.mma t g quart tra trb da db acc sa sb sk dr))
    (mmaEff t quart tra trb da db acc sa sb sk dr) s)

/-! MZERO. -/

/-- ACC takes +0, becomes empty and starts its history afresh (R119, R127). -/
def TileSt.mzero (x : TileSt) (quart : Bool) (at_ : AccTile) : TileSt :=
  let x := x.setAcc at_ (List.replicate 128 (List.replicate at_.cols 0))
  (x.setAccState at_ .empty).modHist quart at_ (fun _ => .init)

def mzeroEff (t : Tile) (quart : Bool) (acc : BitVec 5) (s : State) : Eff :=
  match accTile quart acc.toNat with
  | none => .fault Codes.isaAccRange
  | some at_ => onTile t (fun x => x.mzero quart at_) s

def execMzero (t : Tile) (g : Guard) (quart : Bool) (acc : BitVec 5) (s : State) :
    Host.Outcome State Fault Refusal :=
  .next (issue t g (slotOf (.mzero t g quart acc)) (mzeroEff t quart acc) s)

/-! MLOAD. -/

/-- FP32 pattern of an element: its own bits in FP32, the exact value else (R117). -/
def State.loadWord (s : State) (j t : Nat) (d : Tensor) (r : RowIx) (i : Nat) : Except Code W32 :=
  if d.fmt = 0 then
    if d.hasRow r && decide (i < d.e0) then
      match s.srcBits j t d r i with
      | .ok x => .ok (BitVec.ofNat 32 x)
      | .error c => .error c
    else .ok 0
  else
    match s.elemValFor j t d r i with
    | .ok v => .ok (to32 v)
    | .error c => .error c

def mloadFault (s : State) (t : Tile) (quart : Bool) (acc : BitVec 5) (ds : BitVec 6) (so : BitVec 5) : Option Code :=
  let x := s.tile t
  match nameFault 0x10 (x.dreg ds) with
  | some c => some c
  | none =>
    let d := tensorOf (x.dreg ds)
    let at_ := accTile quart acc.toNat
    lowest
      [(fmtInt d.fmt || fmtMx d.fmt || (match at_ with | some y => (x.accState y).isNone | none => false),
          Codes.isaFormat),
       (at_.isNone, Codes.isaAccRange),
       (!d.aligned || d.blockMisaligned (x.sreg so), Codes.isaMisalign)]

/-- Rows of words that an MLOAD puts into the accumulator tile; a paired one takes results in even columns (R119). -/
def State.mloadRows (s : State) (j t : Nat) (d : Tensor) (off : W64) (at_ : AccTile) (paired : Bool) :
    Except Code (List (List W32)) :=
  let n := if paired then at_.cols / 2 else at_.cols
  match sequenceE ((List.range 128).map (fun r =>
      sequenceE ((List.range n).map (fun c => s.loadWord j t d ⟨off1 off + r, 0, 0, 0⟩ (off0 off + c))))) with
  | .error c => .error c
  | .ok rows => .ok (if paired then rows.map (fun ws => ws.flatMap (fun w => [w, 0])) else rows)

/-- Bytes of the unified range of 128 rows of a tensor from an offset. -/
def tileAccesses (d : Tensor) (off : W64) (n : Nat) : List (Nat × Nat) :=
  if d.space = 1 then
    (List.range 128).flatMap (fun r => d.runAccess ⟨off1 off + r, 0, 0, 0⟩ (off0 off) n)
  else []

/-- Pages on which a direct access of a tile waits; stash pages are mapped by the conductor. -/
def State.tileAbsent (s : State) (j : Nat) (xs : List (Nat × Nat)) : List Nat :=
  s.absentOf (xs.filter (fun p => (s.stashFind j p.1).isNone))

/-- Fills an accumulator tile with free values (R54). -/
def State.freeAcc (s : State) (t : Nat) (at_ : AccTile) : State :=
  let k := s.freeCtr
  ({ s with freeCtr := k + 1 }).modTile t (fun x =>
    x.setAcc at_ ((List.range 128).map (fun r =>
      wordsOf ((List.range (4 * at_.cols)).map (fun i => Config.freeByte k (r * 4 * at_.cols + i))))))

def mloadEff (t : Tile) (quart : Bool) (acc : BitVec 5) (ds : BitVec 6) (so : BitVec 5) (s : State) : Eff :=
  match mloadFault s t quart acc ds so, accTile quart acc.toNat with
  | some c, _ => .fault c
  | none, none => .fault Codes.isaAccRange
  | none, some at_ =>
    let x := s.tile t
    let d := tensorOf (x.dreg ds)
    let paired := x.accState at_ == some .paired
    let acs := tileAccesses d (x.sreg so) (if paired then at_.cols / 2 else at_.cols)
    let note (y : TileSt) : TileSt :=
      (if paired then y else y.setAccState at_ .plain).modHist quart at_ (fun h => { h with bad := true })
    let fail (e : AccErr) : Eff :=
      .done (((s.freeAcc t at_).modTile t note).tileReport t x.pc e.code x.job x.handId e.data)
    match s.checkAccesses (.job x.job) acs with
    | some e => fail e
    | none =>
      match s.tileAbsent x.job acs with
      | p :: ps => .stall (s.waitOn x.job reqTile t (p :: ps))
      | [] =>
        match s.mloadRows x.job t d (x.sreg so) at_ paired with
        | .error c => fail ⟨c, s.memData d.base⟩
        | .ok rows => onTile t (fun y => note (y.setAcc at_ rows)) s

def execMload (t : Tile) (g : Guard) (quart : Bool) (acc : BitVec 5) (ds : BitVec 6) (so : BitVec 5) (s : State) :
    Host.Outcome State Fault Refusal :=
  .next (issue t g (slotOf (.mload t g quart acc ds so)) (mloadEff t quart acc ds so) s)

/-! MSTORE. -/

/-- Values of the results of an accumulator row: a paired tile rounds even + odd (R118). -/
def rowResults (paired : Bool) : List W32 → List W32
  | a :: b :: rest => if paired then fadd a b :: rowResults paired rest else a :: rowResults paired (b :: rest)
  | ws => if paired then [] else ws

/-- Marked columns of a bitmap among the columns stored (R126). -/
def State.marked (s : State) (t : Nat) (bm : Tensor) (col : Nat) : Bool :=
  bitOf (s.elemBits t bm ⟨0, 0, 0, 0⟩ (col / 32)) (col % 32)

/-- R126: what makes the bitmap invalid. -/
def bitmapBad (bm : Tensor) (lastCol : Nat) : Bool :=
  bm.space != 0 || bm.fmt != 7 || bm.rank != 1 || decide (bm.e0 < ceilDiv (lastCol + 1) 32)

/-- Last destination column that a store writes, plus 1; 0 when it writes none. -/
def storedCols (d : Tensor) (off : W64) (n : Nat) : Nat := min n (d.e0 - off0 off)

def mstoreFault (s : State) (t : Tile) (quart : Bool) (rnd : Nat) (acc : BitVec 5) (dd : BitVec 6) (so : BitVec 5)
    (dpb : Option (BitVec 6)) : Option Code :=
  let x := s.tile t
  let bmName := match dpb with
    | some r => nameFault 0x10 (x.dreg r)
    | none => none
  match lowestOf [if 1 < rnd then some Codes.isaFieldRange else none, nameFault 0x10 (x.dreg dd), bmName] with
  | some c => some c
  | none =>
    let d := tensorOf (x.dreg dd)
    let at_ := accTile quart acc.toNat
    let st := match at_ with
      | some y => x.accState y
      | none => some .empty
    let n := storedCols d (x.sreg so) (match at_ with | some y => y.cols | none => 0)
    let marks := match dpb with
      | some r => ((List.range n).filter (fun c => s.marked t (tensorOf (x.dreg r)) (off0 (x.sreg so) + c))).length
      | none => 0
    let bmBad := match dpb with
      | some r => decide (0 < n) && bitmapBad (tensorOf (x.dreg r)) (off0 (x.sreg so) + n - 1)
      | none => false
    lowest
      [(decide ((if quart then 8 else 32) < marks) && !bmBad, Codes.isaFieldRange),
       (bmBad, Codes.isaDescInvalid),
       (fmtInt d.fmt || fmtMx d.fmt || st.isNone || (dpb.isSome && (!fmtKremor d.fmt || st == some .paired)),
          Codes.isaFormat),
       (at_.isNone, Codes.isaAccRange),
       (!d.aligned || d.blockMisaligned (x.sreg so), Codes.isaMisalign)]

/-- One row of a plain store: FP32 keeps the bits, any other format converts (R60, R117). -/
def State.storeRow (s : State) (j t : Nat) (d : Tensor) (m : RndMode) (thresh : W32) (off : W64) (r : Nat)
    (ws : List W32) : Except Code (State × Sums) :=
  let ix : RowIx := ⟨off1 off + r, 0, 0, 0⟩
  let o := off0 off
  if d.fmt = 0 then
    if d.hasRow ix then
      match s.putRawFor j t d ix o ((ws.take (d.e0 - o)).map (·.toNat)) with
      | .ok s' => .ok (s', .zeros)
      | .error c => .error c
    else .ok (s, .zeros)
  else s.putRunFor j t d m thresh ix o (ws.map val32)

/-- All rows of a plain store, values as they stood when it issued (R60). -/
def State.storeRows (s : State) (j t : Nat) (d : Tensor) (m : RndMode) (thresh : W32) (off : W64) :
    Nat → List (List W32) → State × Sums → Except Code (State × Sums)
  | _, [], p => .ok p
  | r, ws :: rest, p =>
    match p.1.storeRow j t d m thresh off r ws with
    | .error c => .error c
    | .ok q => State.storeRows s j t d m thresh off (r + 1) rest (q.1, p.2.add q.2)

/-- One quantised block of a store with replay: row, first column in the tile, the block. -/
structure ScanBlock where
  row   : Nat
  col   : Nat
  block : QBlock
  deriving DecidableEq, Repr

/-- Scan of a row (R128): its blocks, in the extents. -/
def scanRow (d : Tensor) (m : RndMode) (off : W64) (r : Nat) (ws : List W32) : List ScanBlock :=
  let ix : RowIx := ⟨off1 off + r, 0, 0, 0⟩
  if d.hasRow ix then
    (blocksOf d.block d.e0 (ws.length + 1) (off0 off) (ws.map val32)).map (fun b =>
      ⟨r, b.first - off0 off, d.quant m ix b⟩)
  else []

/-- Column group of a tile's column (R128). -/
def colGroup (c : Nat) : Nat := c / 64

/-- Groups that need replay: a flagged block holds a privileged column (R128). -/
def needReplay (thresh : W32) (mark : Nat → Bool) (blocks : List ScanBlock) (groups : Nat) : List Nat :=
  (List.range groups).filter (fun cg => blocks.any (fun b =>
    colGroup b.col == cg && b.block.flagged thresh
      && (List.range b.block.elems.length).any (fun i => mark (b.col + i))))

/-- A record's descriptors still form a pair that R56 and R125 accept (R127). -/
def recValid (x : TileSt) (r : ReplayRec) : Bool :=
  let ok (i : Nat) : Bool := nameFault 0x10 (x.d.get 0 i) == none
  let a := tensorOf (x.d.get 0 r.da)
  let b := tensorOf (x.d.get 0 r.db)
  let dr := tensorOf (x.d.get 0 r.dr)
  ok r.da && ok r.dr && ok r.db && pairOk a.fmt dr.fmt && a.space == 0 && replayOk b dr

/-- One column of a replay over one record: a privileged column takes DR (R128). -/
def State.replayCol (s : State) (t : Nat) (at_ : AccTile) (priv : Bool) (row col : Nat) (acc : W32) (r : ReplayRec) :
    W32 :=
  let x := s.tile t
  let a := tensorOf (x.d.get 0 r.da)
  let b := tensorOf (x.d.get 0 (if priv then r.dr else r.db))
  let c := if r.quart then col else at_.col0 + col
  dotPlain r.quart a b r.sa r.sb r.k (fun k => s.opVal t a r.sa r.transA k row)
    (fun k => s.opVal t b r.sb r.transB k c) acc

/-- The rows of an accumulator tile with the columns of the replayed groups recomputed from +0 (R128). -/
def State.replayRows (s : State) (t : Nat) (at_ : AccTile) (mark : Nat → Bool) (recs : List ReplayRec)
    (cgs : List Nat) (rows : List (List W32)) : List (List W32) :=
  (rows.zipIdx).map (fun p => (p.1.zipIdx).map (fun w =>
    if cgs.contains (colGroup w.2) then
      recs.foldl (fun acc r => s.replayCol t at_ (mark w.2) p.2 w.2 acc r) 0
    else w.1))

/-- Cycles of one replayed group: the products, 8 of drain and 8 of requantisation (R129). -/
def State.replayCycles (s : State) (t : Nat) (recs : List ReplayRec) : Nat :=
  let x := s.tile t
  (recs.map (fun r => mmaCycles r.quart
    (pairLane (tensorOf (x.d.get 0 r.da)).fmt (tensorOf (x.d.get 0 r.dr)).fmt) r.k)).sum + 16

/-- What a store with MOD[3] = 1 decides (R128, R132). -/
structure Decision where
  replay : List Nat
  /-- Groups committed unreplayed, with REASON. -/
  skip   : List (Nat × Nat)
  /-- Storm events. -/
  storms : Nat
  deriving DecidableEq, Repr

def decide128 (rate blocks : Nat) (replayable : Bool) (need : List Nat) : Decision :=
  if rate = 0 then ⟨[], need.map (fun g => (g, 3)), 0⟩
  else if !replayable then ⟨[], need.map (fun g => (g, 2)), 0⟩
  else
    let c := ceilDiv (rate * blocks) 1024
    ⟨need.take c, (need.drop c).map (fun g => (g, 1)), (need.drop c).length⟩

/-- Rows of a group with a flagged block that holds a privileged column (Table 8 of 04). -/
def flaggedRows (thresh : W32) (mark : Nat → Bool) (blocks : List ScanBlock) (cg : Nat) : Nat :=
  ((List.range 128).map (fun r =>
    if blocks.any (fun b => b.row == r && colGroup b.col == cg && b.block.flagged thresh
        && (List.range b.block.elems.length).any (fun i => mark (b.col + i))) then 2 ^ r else 0)).sum

/-- Counts of the blocks of a store: replayed groups count their second quantisation, and a block flagged at the scan
counts as flagged once (R128). -/
def storeSums (thresh : W32) (scan second : List ScanBlock) (replay : List Nat) : Sums :=
  (scan.zip second).foldl (fun c p =>
    if replay.contains (colGroup p.1.col) then
      c.add { (p.2.block.sums thresh) with
        flagged := (p.1.block.flagged thresh || p.2.block.flagged thresh).toNat }
    else c.add (p.1.block.sums thresh)) .zeros

/-- Writes a scanned block: its element bits and its scale (R42). -/
def State.putScan (s : State) (t : Nat) (d : Tensor) (off : W64) (b : ScanBlock) : State :=
  s.putBlock t d ⟨off1 off + b.row, 0, 0, 0⟩ (off0 off + b.col) b.block

/-- The log entries of the groups committed unreplayed (R128, R133). -/
def State.logGroups (s : State) (t : Nat) (h : Hand) (d : Tensor) (off : W64) (thresh : W32) (mark : Nat → Bool)
    (blocks : List ScanBlock) (skip : List (Nat × Nat)) : State :=
  skip.foldl (fun s g =>
    let bs := blocks.filter (fun b => colGroup b.col == g.1)
    let c := bs.foldl (fun c b => c.add (b.block.sums thresh)) .zeros
    let addr := d.rowAddr ⟨off1 off, 0, 0, 0⟩ + (off0 off + 64 * g.1) * fmtBits d.fmt / 8
    s.logEntry t h.job (groupEntry h t g.2 addr d.space g.1 (flaggedRows thresh mark blocks g.1) c)) s

/-- Storm events: STORMS counts them, and the first of a hand is reported (R132). -/
def State.noteStorms (s : State) (t : Nat) (h : Hand) (n : Nat) : State :=
  if n = 0 then s
  else
    let s := s.addInt64 (s.precLog h.job + 0x20) n
    if h.storm then s
    else
      (s.modTile t (fun x => { x with hand := some { h with storm := true } })).report Codes.precisionStorm
        (tileInfo s t (precData h))

/-- The stop policy of the job (R132). -/
def State.stopPolicy (s : State) (j : Nat) : Bool :=
  match s.job j with
  | some x => x.desc.stop
  | none => false

/-- A store with the privileged-channel response (R128). -/
def State.storeReplay (s : State) (t : Nat) (h : Hand) (quart : Bool) (at_ : AccTile) (d bm : Tensor) (m : RndMode)
    (off : W64) : Eff :=
  let x := s.tile t
  let mark (c : Nat) : Bool := s.marked t bm (off0 off + c)
  let rows := (List.range 128).map (fun r => x.accRow at_ r)
  let scanAll (rows : List (List W32)) : List ScanBlock :=
    (rows.zipIdx).flatMap (fun p => scanRow d m off p.2 p.1)
  let scan := scanAll rows
  let need := needReplay h.thresh mark scan (at_.cols / 64)
  let hist := x.hist quart at_
  let dec := decide128 h.rate scan.length (!hist.bad && hist.recs.all (recValid x)) need
  if dec.storms != 0 && s.stopPolicy h.job then .fault Codes.precisionStorm
  else
    let rows2 := if dec.replay.isEmpty then rows else s.replayRows t at_ mark hist.recs dec.replay rows
    let second := if dec.replay.isEmpty then scan else scanAll rows2
    let s1 := s.setTile t { (x.setAcc at_ rows2) with
      busy := (x.busy + dec.replay.length * s.replayCycles t hist.recs) % 2 ^ 64 }
    let s2 := second.foldl (fun s b => s.putScan t d off b) s1
    let sums := storeSums h.thresh scan second dec.replay
    let s3 := s2.addSums t { sums with replayed := dec.replay.length, unreplayed := dec.skip.length }
    .done ((s3.logGroups t h d off h.thresh mark scan dec.skip).noteStorms t h dec.storms)

/-- Fills with free values the rows that a failed store would have written (R54). -/
def State.freeRuns (s : State) (j : Nat) (xs : List (Nat × Nat)) : State :=
  xs.foldl (fun s p =>
    if (s.checkRange (.job j) p.1 p.2).isSome then s
    else
      let k := s.freeCtr
      ({ s with freeCtr := k + 1 }).writeMem p.1 ((List.range p.2).map (Config.freeByte k))) s

def mstoreEff (t : Tile) (quart : Bool) (rnd : Nat) (acc : BitVec 5) (dd : BitVec 6) (so : BitVec 5)
    (dpb : Option (BitVec 6)) (s : State) : Eff :=
  match mstoreFault s t quart rnd acc dd so dpb, accTile quart acc.toNat, (s.tile t).hand with
  | some c, _, _ => .fault c
  | none, some at_, some h =>
    let x := s.tile t
    let d := tensorOf (x.dreg dd)
    let off := x.sreg so
    let paired := x.accState at_ == some .paired
    let acs := tileAccesses d off (if paired then at_.cols / 2 else at_.cols)
    let fail (e : AccErr) : Eff := .done ((s.freeRuns x.job acs).tileReport t x.pc e.code x.job x.handId e.data)
    match s.checkAccesses (.job x.job) acs with
    | some e => fail e
    | none =>
      match s.tileAbsent x.job acs ++ (if dpb.isSome then s.logAbsent x.job else []) with
      | p :: ps => .stall (s.waitOn x.job reqTile t (p :: ps))
      | [] =>
        match dpb with
        | some r => s.storeReplay t h quart at_ d (tensorOf (x.dreg r)) ⟨rnd == 1, h.seed⟩ off
        | none =>
          let rows := (List.range 128).map (fun r => rowResults paired (x.accRow at_ r))
          match s.storeRows x.job t d ⟨rnd == 1, h.seed⟩ h.thresh off 0 rows (s, .zeros) with
          | .error c => fail ⟨c, s.memData d.base⟩
          | .ok p => .done (p.1.addSums t p.2)
  | none, _, _ => .fault Codes.isaAccRange

def execMstore (t : Tile) (g : Guard) (quart : Bool) (rnd : BitVec 2) (acc : BitVec 5) (dd : BitVec 6)
    (so : BitVec 5) (dpb : Option (BitVec 6)) (s : State) : Host.Outcome State Fault Refusal :=
  .next (issue t g (slotOf (.mstore t g quart rnd acc dd so dpb)) (mstoreEff t quart rnd.toNat acc dd so dpb) s)

end Sys2Proof.Machine
end

