-- ==== Sys2Proof/Machine/Hash.lean ====
section
/-!
DEFINITION. Machine/Hash.lean: the codes and hashes that the spec names: CRC-32C (R481), CRC-64 of ECMA-182 (R349), SHA3-256
(R388) and SHA-384 (R455, R460).
-/

namespace Sys2Proof.Machine

/-! CRCs. -/

/-- One byte of a reflected CRC. -/
def crcByteR (poly : BitVec 32) (c : BitVec 32) (b : Byte) : BitVec 32 :=
  (List.range 8).foldl (fun c _ => if c.getLsbD 0 then (c >>> 1) ^^^ poly else c >>> 1) (c ^^^ b.zeroExtend 32)

/-- CRC-32C. -/
def crc32c (bs : List Byte) : BitVec 32 := ~~~ (bs.foldl (crcByteR 0x82F63B78#32) 0xFFFFFFFF#32)

/-- One byte of a CRC taken most significant bit first. -/
def crcByte64 (poly : BitVec 64) (c : BitVec 64) (b : Byte) : BitVec 64 :=
  (List.range 8).foldl (fun c _ => if c.getLsbD 63 then (c <<< 1) ^^^ poly else c <<< 1) (c ^^^ (b.zeroExtend 64 <<< 56))

/-- CRC-64 of R349: initial value all ones, result inverted. -/
def crc64 (bs : List Byte) : BitVec 64 :=
  ~~~ (bs.foldl (crcByte64 0x42F0E1EBA9EA3693#64) 0xFFFFFFFFFFFFFFFF#64)

/-! SHA3-256. -/

def keccakRc : List W64 :=
  [0x0000000000000001#64, 0x0000000000008082#64, 0x800000000000808A#64, 0x8000000080008000#64,
   0x000000000000808B#64, 0x0000000080000001#64, 0x8000000080008081#64, 0x8000000000008009#64,
   0x000000000000008A#64, 0x0000000000000088#64, 0x0000000080008009#64, 0x000000008000000A#64]
  ++ [0x000000008000808B#64, 0x800000000000008B#64, 0x8000000000008089#64, 0x8000000000008003#64,
   0x8000000000008002#64, 0x8000000000000080#64, 0x000000000000800A#64, 0x800000008000000A#64,
   0x8000000080008081#64, 0x8000000000008080#64, 0x0000000080000001#64, 0x8000000080008008#64]

/-- Rotation of lane x + 5 y. -/
def keccakRot : List Nat :=
  [0, 1, 62, 28, 27, 36, 44, 6, 55, 20, 3, 10, 43, 25, 39, 41, 45, 15, 21, 8, 18, 2, 61, 56, 14]

def keccakRound (a : List W64) (rc : W64) : List W64 :=
  let at_ (a : List W64) (x y : Nat) : W64 := a.getD (x % 5 + 5 * (y % 5)) 0
  let c := (List.range 5).map (fun x => at_ a x 0 ^^^ at_ a x 1 ^^^ at_ a x 2 ^^^ at_ a x 3 ^^^ at_ a x 4)
  let d := (List.range 5).map (fun x => c.getD ((x + 4) % 5) 0 ^^^ (c.getD ((x + 1) % 5) 0).rotateLeft 1)
  let t := (List.range 25).map (fun i => a.getD i 0 ^^^ d.getD (i % 5) 0)
  -- lane (x, y) of b comes from lane (x + 3 y, x) of t
  let b := (List.range 25).map (fun i =>
    let x := i % 5
    let y := i / 5
    let j := (x + 3 * y) % 5 + 5 * x
    (t.getD j 0).rotateLeft (keccakRot.getD j 0))
  let e := (List.range 25).map (fun i =>
    let x := i % 5
    let y := i / 5
    at_ b x y ^^^ (~~~ (at_ b (x + 1) y) &&& at_ b (x + 2) y))
  match e with
  | [] => []
  | h :: rest => (h ^^^ rc) :: rest

def keccakF (a : List W64) : List W64 := keccakRc.foldl keccakRound a

/-- Absorbs whole blocks of 136 bytes; the first argument counts them. -/
def keccakAbsorb : Nat → List W64 → List Byte → List W64
  | 0, a, _ => a
  | n + 1, a, bs =>
    let ws := (List.range 17).map (fun i => BitVec.ofNat 64 (leNat ((bs.drop (8 * i)).take 8)))
    keccakAbsorb n (keccakF ((List.range 25).map (fun i => a.getD i 0 ^^^ ws.getD i 0))) (bs.drop 136)

/-- SHA3-256, as 32 bytes. -/
def sha3 (bs : List Byte) : List Byte :=
  let n := bs.length / 136 + 1
  let pad := n * 136 - bs.length
  let tail : List Byte :=
    if pad = 1 then [0x86#8] else [0x06#8] ++ List.replicate (pad - 2) 0#8 ++ [0x80#8]
  let a := keccakAbsorb n (List.replicate 25 0) (bs ++ tail)
  (a.take 4).flatMap (fun w => natLe 8 w.toNat)

/-! SHA-384. -/

/-- The largest x with x^k <= n, among the numbers of `bits` bits. -/
def rootFloor (k n : Nat) : Nat → Nat → Nat
  | 0, acc => acc
  | b + 1, acc => let y := acc + 2 ^ b; rootFloor k n b (if y ^ k ≤ n then y else acc)

/-- The first 64 bits of the fractional part of the k-th root of a prime. -/
def rootFrac (k p : Nat) : W64 := BitVec.ofNat 64 (rootFloor k (p * 2 ^ (64 * k)) 70 0)

def primesBelow (n : Nat) : List Nat :=
  (List.range n).filter (fun p => decide (2 ≤ p) && (List.range p).all (fun d => decide (d < 2) || p % d != 0))

/-- The 80 round constants. -/
def sha512K : List W64 := (primesBelow 410).map (rootFrac 3)

/-- Initial value of SHA-384: square roots of the 9th to 16th primes. -/
def sha384Init : List W64 := (((primesBelow 54).drop 8).map (rootFrac 2))

def shaSig (r1 r2 r3 : Nat) (x : W64) : W64 := x.rotateRight r1 ^^^ x.rotateRight r2 ^^^ x.rotateRight r3
def shaSmall (r1 r2 sh : Nat) (x : W64) : W64 := x.rotateRight r1 ^^^ x.rotateRight r2 ^^^ (x >>> sh)

/-- Message schedule: `n` more words, newest first. -/
def shaSchedule : Nat → List W64 → List W64
  | 0, w => w
  | n + 1, w =>
    let g (i : Nat) : W64 := w.getD (i - 1) 0
    shaSchedule n ((shaSmall 19 61 6 (g 2) + g 7 + shaSmall 1 8 7 (g 15) + g 16) :: w)

def shaRound (h : List W64) (kw : W64) : List W64 :=
  let g (i : Nat) : W64 := h.getD i 0
  let t1 := g 7 + shaSig 14 18 41 (g 4) + ((g 4 &&& g 5) ^^^ (~~~ (g 4) &&& g 6)) + kw
  let t2 := shaSig 28 34 39 (g 0) + ((g 0 &&& g 1) ^^^ (g 0 &&& g 2) ^^^ (g 1 &&& g 2))
  [t1 + t2, g 0, g 1, g 2, g 3 + t1, g 4, g 5, g 6]

def shaBlock (h : List W64) (bs : List Byte) : List W64 :=
  let w := (List.range 16).map (fun i => BitVec.ofNat 64 (leNat ((bs.drop (8 * i)).take 8).reverse))
  let ws := (shaSchedule 64 w.reverse).reverse
  let h' := ((ws.zip sha512K).map (fun p => p.1 + p.2)).foldl shaRound h
  (h.zip h').map (fun p => p.1 + p.2)

def shaBlocks : Nat → List W64 → List Byte → List W64
  | 0, h, _ => h
  | n + 1, h, bs => shaBlocks n (shaBlock h bs) (bs.drop 128)

/-- SHA-384; its first byte is the most significant. -/
def sha384 (bs : List Byte) : BitVec 384 :=
  let n := (bs.length + 17 + 127) / 128
  let m := bs ++ [0x80#8] ++ List.replicate (n * 128 - bs.length - 17) 0#8 ++ (natLe 16 (8 * bs.length)).reverse
  let h := (shaBlocks n sha384Init m).take 6
  BitVec.ofNat 384 (h.foldl (fun x w => x * 2 ^ 64 + w.toNat) 0)

end Sys2Proof.Machine
end

