-- ==== Sys2Proof/Machine/Calib.lean ====
section
/-!
DEFINITION. Machine/Calib.lean: the user calibration region in SPI flash (R288, R481 to R483).
-/

namespace Sys2Proof.Machine

def State.modSec (s : State) (f : SecSt → SecSt) : State := { s with sec := f s.sec }

def State.modBoot (s : State) (f : BootSt → BootSt) : State := { s with boot := f s.boot }

/-- Bytes of one copy. -/
def calSize : Nat := 0x10000

/-- SPI offset of copy `i`. -/
def calBase (i : Nat) : Nat := 0x4000000 + i * calSize

def State.calCopy (s : State) (i : Nat) : List Byte := s.sec.spi.getRange 0 (calBase i) calSize

/-- CRC of bytes 0x0040 to 0xFFFF. -/
def calCrc (bs : List Byte) : Nat := (crc32c (bs.drop 0x40)).toNat

def calValid (bs : List Byte) : Bool := hdrOk (fieldLe bs 0 2) 0xB0 && fieldLe bs 4 4 == calCrc bs

def calSeq (bs : List Byte) : Nat := fieldLe bs 8 8

/-- The valid copy of higher SEQ. -/
def State.calNewest (s : State) : Option Nat :=
  let a := s.calCopy 0
  let b := s.calCopy 1
  if calValid a && (!calValid b || decide (calSeq b ≤ calSeq a)) then some 0 else if calValid b then some 1 else none

/-- Frames of the retired list. -/
def calRetired (bs : List Byte) : List Nat :=
  (List.range (min 4096 (fieldLe bs 0x928 4))).map (fun i => fieldLe bs (0x1000 + 4 * i) 4)

/-- Overwrites bytes from an offset. -/
def putBytes (bs : List Byte) (o : Nat) (v : List Byte) : List Byte := bs.take o ++ v ++ bs.drop (o + v.length)

/-- An image with frames added to its retired list, its SEQ and its CRC. -/
def calFinish (bs : List Byte) (frames : List Nat) (seq : Nat) : List Byte :=
  let old := calRetired bs
  let rs := (old ++ frames.filter (fun f => !old.contains f)).take 4096
  let b1 := putBytes (putBytes bs 0x928 (natLe 4 rs.length)) 0x1000 (rs.flatMap (natLe 4))
  let b2 := putBytes b1 8 (natLe 8 seq)
  putBytes b2 4 (natLe 4 (calCrc b2))

/-- Frames that the module has retired for good. -/
def State.retiredFrames (s : State) : List Nat := (s.mem.badFrames.filter (fun p => p.2 == 2)).map (·.1)

/-- Writes an image over the copy of lower SEQ, a copy that is not valid being the lower: the retired frames it lacks are
added, and its SEQ is one more than the higher one stored. -/
def State.calStore (s : State) (bs : List Byte) : State :=
  let seq := match s.calNewest with
    | some i => calSeq (s.calCopy i) + 1
    | none => 1
  let at_ := if s.calNewest = some 0 then 1 else 0
  s.modSec (fun x => { x with spi := x.spi.setRange 0 (calBase at_) (calFinish bs s.retiredFrames seq) })

/-- The stored region; a blank one where no copy is valid. -/
def State.calStored (s : State) : List Byte :=
  match s.calNewest with
  | some i => s.calCopy i
  | none => putBytes (List.replicate calSize 0#8) 0 (natLe 2 0x20B0)

end Sys2Proof.Machine
end

