-- ==== Sys2Proof/Machine/Tiers.lean ====
section
/-!
DEFINITION. Machine/Tiers.lean: frames, eviction, migration and the flash translation layer (R271, R272, R277 to R281, R288,
R305 to R314).
-/

namespace Sys2Proof.Machine

def State.modMem (s : State) (f : MemSt → MemSt) : State := { s with mem := f s.mem }

def State.modFtl (s : State) (f : FtlSt → FtlSt) : State := s.modMem (fun m => { m with ftl := f m.ftl })

def State.modPage (s : State) (p : Nat) (f : PageSt → PageSt) : State :=
  match s.page p with
  | some x => s.setPage p (some (f x))
  | none => s

/-! Frames (R271, R272, R278, R288). -/

/-- Stack of a global frame. -/
def frameStack (f : Nat) : Nat := f / 32768

/-- The 512 frames that the conductor reserves (R272). -/
def frameReserved (f : Nat) : Bool := decide (f < 512)

/-- A frame can be taken: it holds no page, is not reserved and is not to be retired. -/
def State.frameFree (s : State) (f : Nat) : Bool :=
  !frameReserved f && s.mem.frames.get 0 f == 0 && s.mem.badFrames.get 0 f == 0

/-- A self-test or margining runs on a stack: new accesses to it are blocked (R302). -/
def State.stackTested (s : State) (k : Nat) : Bool :=
  s.boot.queue.any (fun q => q.running && (q.op == 2 || q.op == 3) && q.target == k)

/-- Lowest free frame of a stack (log entry 35). -/
def State.freeFrameOf (s : State) (k : Nat) : Option Nat :=
  if s.stackTested k then none
  else ((List.range (s.stackFrames k)).find? (fun i => s.frameFree (k * 32768 + i))).map (· + k * 32768)

/-- Dies of a function's partition, ascending. -/
def State.funcDies (s : State) (func : Nat) : List Nat :=
  (List.range 8).filter (fun d => s.sched.partition.get 0 d == func + 1)

/-- Placement set of an object: its stacks with a good channel (R278), of the function's partition if it has one (R463). -/
def State.placementSet (s : State) (func place arg : Nat) : List Nat :=
  let all := match place with
    | 0 => List.range 32
    | 1 => (List.range 8).map (· + 8 * arg)
    | 2 => (List.range 4).map (· + 4 * arg)
    | _ => [arg]
  let dies := s.funcDies func
  all.filter (fun k => (s.stack k).goodCount != 0 && (dies.isEmpty || dies.contains (k / 4)))

/-- The set from the stack that page `j` prefers, wrapping (R278). -/
def rotateSet (set : List Nat) (j : Nat) : List Nat :=
  let i := j % set.length
  set.drop i ++ set.take i

def State.takeFrame (s : State) (f p : Nat) : State :=
  s.modMem (fun m => { m with frames := m.frames.set 0 f (p + 1) })

/-- DATA of FRAME_RETIRED: the frame's physical address, no unified address, the frame. -/
def frameData (f : Nat) : List Byte := natLe 8 (f / 32768 * 2 ^ 36 + f % 32768 * size2MiB) ++ natLe 8 0 ++ natLe 4 f

/-- Enters a frame in the retired list, and in the stored region; past 4,096 entries it lasts until the next reset (R288,
R483). -/
def State.retireFrame (s : State) (f : Nat) : State :=
  let kept := decide (s.retiredFrames.length < 4096)
  let s1 := s.modMem (fun m => { m with badFrames := m.badFrames.set 0 f (if kept then 2 else 3) })
  (if kept then s1.calStore s1.calStored else s1).report
    Codes.frameRetired { cls := 3, idx := frameStack f, data := frameData f }

/-- A frame becomes free; one that returned an uncorrectable error is retired (R288). -/
def State.freeFrame (s : State) (f : Nat) : State :=
  let s := s.modMem (fun m => { m with frames := m.frames.set 0 f 0 })
  if s.mem.badFrames.get 0 f = 1 then s.retireFrame f else s

/-- A frame free in the first stack of the set that has one (R278). -/
def State.findFrame (s : State) (set : List Nat) (j : Nat) : Option Nat := (rotateSet set j).findSome? s.freeFrameOf

/-- A page arrives in a frame: its most recent arrival (R279). -/
def State.arrive (s : State) (p f : Nat) : State :=
  let k := s.mem.arrivals + 1
  (s.modMem (fun m => { m with arrivals := k })).modPage p (fun x =>
    { x with place := .resident f, written := false, arrived := k })

/-! Eviction (R279). -/

/-- Eviction class of an attribute: 1 first, 2 second, none for PIN_STACK (Table 3 of 09). -/
def evictClass (attr : Nat) : Option Nat :=
  match attr with
  | 0 => none
  | 1 => some 2
  | _ => some 1

/-- What orders the candidates of a stack: class, latency-critical owner, arrival, page number. -/
structure Victim where
  cls  : Nat
  lc   : Bool
  arrived : Nat
  page : Nat
  frame : Nat
  deriving DecidableEq, Repr

def Victim.before (a b : Victim) : Bool :=
  if a.cls != b.cls then decide (a.cls < b.cls)
  else if a.lc != b.lc then !a.lc
  else if a.arrived != b.arrived then decide (a.arrived < b.arrived)
  else decide (a.page < b.page)

/-- An object belongs to a latency-critical job. -/
def State.objectLc (s : State) (o : ObjectSt) : Bool :=
  match o.owner with
  | .job j => s.isLc j
  | _ => false

/-- Resident pages of a stack that may be evicted. -/
def State.victims (s : State) (k : Nat) : List Victim :=
  s.mem.pages.filterMap (fun q =>
    match q.2 with
    | some x =>
      match x.place, s.object x.object with
      | .resident f, some o =>
        match evictClass o.attr with
        | some c => if frameStack f = k then some ⟨c, s.objectLc o, x.arrived, q.1, f⟩ else none
        | none => none
      | _, _ => none
    | none => none)

/-- The victim of a stack (R279). -/
def State.victimOf (s : State) (k : Nat) : Option Victim :=
  (s.victims k).foldl (fun b v =>
    match b with
    | none => some v
    | some w => if v.before w then some v else some w) none

/-- Evicts a victim: a page not written since it arrived frees its frame at once, another migrates out (R279). -/
def State.evict (s : State) (v : Victim) : State :=
  match s.page v.page with
  | some x =>
    if x.written then s.setPage v.page (some { x with place := .migratingOut v.frame })
    else (s.setPage v.page (some { x with place := .flash })).freeFrame v.frame
  | none => s

/-- Some page of the set migrates out. -/
def State.evicting (s : State) (set : List Nat) : Bool :=
  s.mem.pages.any (fun q => match q.2 with
    | some x => (match x.place with | .migratingOut f => set.contains (frameStack f) | _ => false)
    | none => false)

/-! Migration (R280, R281). -/

/-- The flash tier pauses while an edge die resets (Table 3 of 16). -/
def State.flashPaused (s : State) : Bool := s.boot.resetting.any (fun d => decide (1 ≤ d ∧ d ≤ 4))

/-- Queued migrations of pages in the flash state: those of latency-critical jobs first, then by first touch (R280). -/
def State.nextMigration (s : State) : Option Nat :=
  let ready := s.mem.queue.filter (fun m => match s.page m.page with
    | some x => x.place == .flash
    | none => false)
  ((ready.filter (·.lc) ++ ready.filter (fun m => !m.lc)).head?).map (·.page)

/-- The next queued migration starts into a frame of its placement set, after an eviction where none is free; where no
victim exists it waits (R279). -/
def migrationStart (s : State) : State :=
  match (if s.flashPaused then none else s.nextMigration) with
  | none => s
  | some p =>
    match s.page p with
    | none => s
    | some x =>
      match s.object x.object with
      | none => s
      | some o =>
        let set := s.placementSet o.func o.place o.arg
        let go (s : State) (f : Nat) : State :=
          ((s.takeFrame f p).modPage p (fun y => { y with place := .migratingIn f })).modMem (fun m =>
            { m with queue := m.queue.filter (fun q => q.page != p) })
        match s.findFrame set (p - x.object) with
        | some f => go s f
        | none =>
          if s.evicting set then s
          else
            match (rotateSet set (p - x.object)).findSome? s.victimOf with
            | none => s
            | some v =>
              let s := s.evict v
              match s.findFrame set (p - x.object) with
              | some f => go s f
              | none => s

def execMigrationStart (s : State) : Host.Outcome State Fault Refusal := .next (migrationStart s)

/-- Job that owns an object, 0 when none. -/
def ObjectSt.job (o : ObjectSt) : Nat :=
  match o.owner with
  | .job j => j
  | _ => 0

/-- Job that owns a page, 0 when none. -/
def State.pageJob (s : State) (p : Nat) : Nat :=
  match s.page p with
  | some x => (match s.object x.object with | some o => o.job | none => 0)
  | none => 0

/-- An error at a page of the unified range: logged, and its owning job faults (R287, R313). -/
def State.pageError (s : State) (p : Nat) (code : Code) (i : RecInfo) : State :=
  if s.pageJob p = 0 then s.report code i else s.jobFaults (s.pageJob p) code i

/-- Waiting accesses of a page go on (R280). -/
def State.wakePage (s : State) (p : Nat) : State :=
  s.modMem (fun m => { m with waiters := m.waiters.filter (fun w => w.page != p) })

/-- A logical page has a stripe in flash. -/
def FtlSt.stored (f : FtlSt) (l : Nat) : Bool := f.sbs.any (fun q => q.2.stripes.contains (some l))

/-- A read of a logical page counts against its superblock (R309). -/
def FtlSt.noteRead (f : FtlSt) (l : Nat) : FtlSt :=
  { f with sbs := f.sbs.map (fun q =>
      if q.2.stripes.contains (some l) then (q.1, { q.2 with reads := q.2.reads + 1 }) else q) }

/-- A migration's page has been read and written into its frame; a flash read that fails at every retry marks the page
lost (R280, R313). A page never programmed is read without any NAND access (R277). -/
def migrationComplete (p : Nat) (flashOk : Bool) (s : State) : State :=
  match s.page p with
  | some x =>
    match x.place with
    | .migratingIn f =>
      let l := x.logical.getD 0
      let stored := x.logical.isSome && s.mem.ftl.stored l
      let s1 := if stored then s.modFtl (fun y => y.noteRead l) else s
      if stored && (!flashOk || s.mem.ftl.lost.get 0 l == 1) then
        let s2 := s1.modFtl (fun y => { y with lost := y.lost.set 0 l 1 })
        (((s2.modPage p (fun y => { y with place := .flash })).freeFrame f).wakePage p).pageError p
          Codes.flashUncorrectable { cls := 4, data := s.memData (p * size2MiB) }
      else
        let s2 := if stored then s1.modMem (fun m =>
            { m with bytes := m.bytes.paste (p * size2MiB) size2MiB (m.ftl.store.slice (l * size2MiB) size2MiB) }) else s1
        (s2.arrive p f).wakePage p
    | _ => s
  | none => s

/-! The flash translation layer. -/

def FtlSt.sb (f : FtlSt) (i : Nat) : Superblock := f.sbs.get .init i

def FtlSt.setSb (f : FtlSt) (i : Nat) (x : Superblock) : FtlSt := { f with sbs := f.sbs.set .init i x }

/-- Indices of the superblocks in a state. -/
def FtlSt.sbsIn (f : FtlSt) (st : SbState) : List Nat := (List.range f.superblocks).filter (fun i => (f.sb i).state == st)

/-- The least of a list by two keys, ties to the lower index. -/
def leastBy (k1 k2 : Nat → Nat) (xs : List Nat) : Option Nat :=
  xs.foldl (fun b i =>
    match b with
    | none => some i
    | some j => if k1 i < k1 j ∨ (k1 i = k1 j ∧ k2 i < k2 j) then some i else some j) none

/-- Superblock that takes the next stripe: the open one, or the free one least erased (R305, R308). -/
def FtlSt.openSb (f : FtlSt) : Option (Nat × FtlSt) :=
  match (f.sbsIn .open).find? (fun i => decide ((f.sb i).stripes.length < f.stripesPerSb)) with
  | some i => some (i, f)
  | none =>
    let f := (f.sbsIn .open).foldl (fun f i => f.setSb i { f.sb i with state := .closed }) f
    match leastBy (fun i => (f.sb i).erases) (fun _ => 0) (f.sbsIn .free) with
    | some i => some (i, f.setSb i { f.sb i with state := .open })
    | none => none

/-- Writes a stripe of a logical page: the older stripe is no longer valid, a journal record describes it, and the
governor counts it (R305, R310, R314). -/
def FtlSt.program (f : FtlSt) (l : Nat) : Option FtlSt :=
  match f.openSb with
  | none => none
  | some (i, f) =>
    let f : FtlSt := { f with sbs := f.sbs.map (fun (q : Nat × Superblock) =>
      (q.1, { q.2 with stripes := q.2.stripes.map (fun x => if x = some l then none else x) })) }
    let x := f.sb i
    some { (f.setSb i { x with stripes := x.stripes ++ [some l] }) with
      spent := f.spent + 1, journal := f.journal + 1, lost := f.lost.set 0 l 0,
      unjournaled := if f.unjournaled.contains l then f.unjournaled else f.unjournaled ++ [l] }

/-- Whether a NAND program fails is physical: a free value says so; a failure retires a block, and when the spares run out
the tier becomes read-only (R313). -/
def State.programWear (s : State) : State :=
  let (w, s) := s.draw
  if w.getLsbD 0 then
    let left := s.mem.ftl.spares - 1
    let s1 := s.modFtl (fun f => { f with spares := left, readOnly := f.readOnly || left == 0 })
    if left = 0 && !s.mem.ftl.readOnly then s1.report Codes.flashWorn { cls := 0 } else s1
  else s

/-- A stripe may be programmed now (R311, R313, R314). -/
def FtlSt.mayProgram (f : FtlSt) : Bool := !f.readOnly && !f.frozen && decide (f.spent < f.budget.toNat)

/-- A write that finds the budget spent waits, and FLASH_GOVERNED is logged once per window (R314). -/
def State.governed (s : State) : State :=
  if s.mem.ftl.governed || decide (s.mem.ftl.spent < s.mem.ftl.budget.toNat) then s
  else (s.modFtl (fun f => { f with governed := true })).report Codes.flashGoverned { cls := 0 }

/-- Programs a page into flash: its bytes become those of its logical page. -/
def State.programPage (s : State) (p l : Nat) : Option State :=
  match s.mem.ftl.program l with
  | none => none
  | some f =>
    some ((s.modMem (fun m =>
      { m with ftl := { f with store := f.store.paste (l * size2MiB) size2MiB (m.bytes.slice (p * size2MiB) size2MiB) } })).programWear)

/-- An eviction of a written page ends: the page is in flash and its frame is free; in a read-only tier it stays resident
(R279, R313). -/
def evictionComplete (p : Nat) (s : State) : State :=
  match s.page p with
  | some x =>
    match x.place, x.logical with
    | .migratingOut f, some l =>
      if s.mem.ftl.readOnly then
        (s.setPage p (some { x with place := .resident f })).report Codes.flashFull { cls := 0 }
      else if s.mem.ftl.mayProgram then
        match s.programPage p l with
        | some s1 => (s1.modPage p (fun y => { y with place := .flash, written := false })).freeFrame f
        | none => s
      else s.governed
    | _, _ => s
  | none => s

/-- Copies the valid stripes of a superblock to the log head and erases it (R307); their contents stay as safe as they were
(R310, R311). -/
def FtlSt.collect (f : FtlSt) (i : Nat) : Option FtlSt :=
  match ((f.sb i).stripes.filterMap id).foldl (fun r l =>
      match r with
      | none => none
      | some f => f.program l) (some f) with
  | none => none
  | some g =>
    let x := g.sb i
    some { (g.setSb i { x with state := .free, stripes := [], erases := x.erases + 1, reads := 0 }) with
      unjournaled := f.unjournaled }

/-- Collects a superblock when writes are allowed; its stripes count against the governor (R307, R314). -/
def State.collectSb (s : State) (i : Nat) : State :=
  if s.flashPaused then s
  else if s.mem.ftl.mayProgram then
    match s.mem.ftl.collect i with
    | some f => (s.modFtl (fun _ => f)).programWear
    | none => s
  else s.governed

def validStripes (x : Superblock) : Nat := (x.stripes.filterMap id).length

/-- Garbage collection (R307). -/
def garbageCollection (s : State) : State :=
  let f := s.mem.ftl
  if (f.sbsIn .free).length < f.gcLow then
    match leastBy (fun i => validStripes (f.sb i)) (fun i => (f.sb i).erases) (f.sbsIn .closed) with
    | some i => s.collectSb i
    | none => s
  else s

def execGarbageCollection (s : State) : Host.Outcome State Fault Refusal := .next (garbageCollection s)

/-- Static wear levelling (R308). -/
def staticWear (s : State) : State :=
  let f := s.mem.ftl
  let all := List.range f.superblocks
  let erases (i : Nat) : Nat := (f.sb i).erases
  match leastBy erases (fun _ => 0) all with
  | some i => if f.wlDelta < (all.map erases).foldl max 0 - erases i ∧ (f.sb i).state = .closed then s.collectSb i else s
  | none => s

def execStaticWearLevelling (s : State) : Host.Outcome State Fault Refusal := .next (staticWear s)

/-- A superblock whose reads reach RD_LIMIT x 1,024 is collected (R309); 0 is taken as 1. -/
def readDisturb (i : Nat) (s : State) : State :=
  let f := s.mem.ftl
  if max 1 f.rdLimit * 1024 ≤ (f.sb i).reads ∧ (f.sb i).state = .closed then s.collectSb i else s

def execReadDisturbCollect (sb : Nat) (s : State) : Host.Outcome State Fault Refusal := .next (readDisturb sb s)

/-- The journal buffer is programmed: every stripe so far is described (R310). -/
def FtlSt.programJournal (f : FtlSt) : FtlSt :=
  if f.journal = 0 then f else { f with journal := 0, programs := f.programs + 1, unjournaled := [] }

def execJournalProgram (s : State) : Host.Outcome State Fault Refusal :=
  .next (if s.mem.ftl.readOnly || s.flashPaused then s else s.modFtl FtlSt.programJournal)

/-- A full map checkpoint, due after 65,536 journal programs (R310). -/
def mapCheckpoint (s : State) : State :=
  if 65536 ≤ s.mem.ftl.programs ∧ s.mem.ftl.readOnly = false ∧ s.flashPaused = false then s.modFtl (fun f => { f with programs := 0 }) else s

def execMapCheckpoint (s : State) : Host.Outcome State Fault Refusal := .next (mapCheckpoint s)

/-- A write-budget window of 2^32 kclk cycles ends (R314). -/
def writeWindow (s : State) : State := s.modFtl (fun f => { f with spent := 0, governed := false })

def execWriteBudgetWindow (s : State) : Host.Outcome State Fault Refusal := .next (writeWindow s)

end Sys2Proof.Machine
end

