-- ==== Sys2Proof/Machine/Vector.lean ====
section
/-!
DEFINITION. Machine/Vector.lean: class 5, vector instructions (R63 to R66, R136 to R140, R153, R154).
-/

namespace Sys2Proof.Machine

/-! Lanes. -/

/-- 512 lanes: the new value where a lane executes, the old one elsewhere (R33). -/
def lanesOf (mask : BitVec 512) (old : List W32) (f : Nat → W32) : List W32 :=
  (old.zipIdx).map (fun p => if mask.getLsbD p.2 then f p.2 else p.1)

/-- Lane `i` of a list of lanes. -/
def lane (xs : List W32) (i : Nat) : W32 := xs.getD i 0

/-- vd takes f(va, vb) lane by lane. -/
def laneOp2 (f : W32 → W32 → W32) (t : Tile) (vd va vb : BitVec 4) (mask : BitVec 512) (s : State) : Eff :=
  onTile t (fun x =>
    let a := x.vreg va
    let b := x.vreg vb
    x.setV vd (lanesOf mask (x.vreg vd) (fun i => f (lane a i) (lane b i)))) s

/-- vd takes f(i, va) lane by lane. -/
def laneOp1 (f : Nat → W32 → W32) (t : Tile) (vd va : BitVec 4) (mask : BitVec 512) (s : State) : Eff :=
  onTile t (fun x =>
    let a := x.vreg va
    x.setV vd (lanesOf mask (x.vreg vd) (fun i => f i (lane a i)))) s

def execVadd (t : Tile) (g : Guard) (vd va vb : BitVec 4) (s : State) : Host.Outcome State Fault Refusal :=
  .next (issueLanes t g (slotOf (.vadd t g vd va vb)) (laneOp2 fadd t vd va vb) s)

def execVsub (t : Tile) (g : Guard) (vd va vb : BitVec 4) (s : State) : Host.Outcome State Fault Refusal :=
  .next (issueLanes t g (slotOf (.vsub t g vd va vb)) (laneOp2 fsub t vd va vb) s)

def execVmul (t : Tile) (g : Guard) (vd va vb : BitVec 4) (s : State) : Host.Outcome State Fault Refusal :=
  .next (issueLanes t g (slotOf (.vmul t g vd va vb)) (laneOp2 fmul t vd va vb) s)

/-- va * vb + vc, one rounding (R136). -/
def vfmaEff (t : Tile) (vd va vb vc : BitVec 4) (mask : BitVec 512) (s : State) : Eff :=
  onTile t (fun x =>
    let a := x.vreg va
    let b := x.vreg vb
    let c := x.vreg vc
    x.setV vd (lanesOf mask (x.vreg vd) (fun i => ffma (lane a i) (lane b i) (lane c i)))) s

def execVfma (t : Tile) (g : Guard) (vd va vb vc : BitVec 4) (s : State) : Host.Outcome State Fault Refusal :=
  .next (issueLanes t g (slotOf (.vfma t g vd va vb vc)) (vfmaEff t vd va vb vc) s)

/-- a comes before b, with -0 below +0; neither is NaN (R137). -/
def below32 (a b : W32) : Bool :=
  let c := FV.cmp (val32 a) (val32 b)
  decide (c < 0) || (decide (c = 0) && (val32 a).isNeg && !(val32 b).isNeg)

/-- VMIN (R137). -/
def fmin32 (a b : W32) : W32 :=
  if isNaN32 a || isNaN32 b then nan32 else if below32 b a then b else a

/-- VMAX (R137). -/
def fmax32 (a b : W32) : W32 :=
  if isNaN32 a || isNaN32 b then nan32 else if below32 a b then b else a

def execVmin (t : Tile) (g : Guard) (vd va vb : BitVec 4) (s : State) : Host.Outcome State Fault Refusal :=
  .next (issueLanes t g (slotOf (.vmin t g vd va vb)) (laneOp2 fmin32 t vd va vb) s)

def execVmax (t : Tile) (g : Guard) (vd va vb : BitVec 4) (s : State) : Host.Outcome State Fault Refusal :=
  .next (issueLanes t g (slotOf (.vmax t g vd va vb)) (laneOp2 fmax32 t vd va vb) s)

/-- Condition of VCMP: 000 EQ, 001 NE, 010 LT, 011 LE, 100 GT, 101 GE; a NaN is unordered (R63, R137). -/
def vcmpCond (cond : Nat) (a b : W32) : Bool :=
  if isNaN32 a || isNaN32 b then cond == 1
  else
    let c := FV.cmp (val32 a) (val32 b)
    match cond with
    | 0 => decide (c = 0)
    | 1 => decide (c ≠ 0)
    | 2 => decide (c < 0)
    | 3 => decide (c ≤ 0)
    | 4 => decide (0 < c)
    | _ => decide (0 ≤ c)

/-- Predicate bits from a test of each lane; a lane that does not execute keeps its bit (R63). -/
def predBits (mask old : BitVec 512) (f : Nat → Bool) : BitVec 512 :=
  BitVec.ofBoolListLE ((List.range 512).map (fun i => if mask.getLsbD i then f i else old.getLsbD i)) |>.setWidth 512

def vcmpEff (t : Tile) (cond : Nat) (pd : BitVec 3) (va vb : BitVec 4) (mask : BitVec 512) (s : State) : Eff :=
  if 5 < cond then .fault Codes.isaFieldRange
  else
    onTile t (fun x =>
      let a := x.vreg va
      let b := x.vreg vb
      x.setP pd (predBits mask (x.preg pd) (fun i => vcmpCond cond (lane a i) (lane b i)))) s

def execVcmp (t : Tile) (g : Guard) (cond : BitVec 3) (pd : BitVec 3) (va vb : BitVec 4) (s : State) :
    Host.Outcome State Fault Refusal :=
  .next (issueLanes t g (slotOf (.vcmp t g cond pd va vb)) (vcmpEff t cond.toNat pd va vb) s)

/-- VSEL moves patterns unchanged (R137). -/
def vselEff (t : Tile) (vd va vb : BitVec 4) (pd : BitVec 3) (mask : BitVec 512) (s : State) : Eff :=
  onTile t (fun x =>
    let a := x.vreg va
    let b := x.vreg vb
    let p := x.preg pd
    x.setV vd (lanesOf mask (x.vreg vd) (fun i => if p.getLsbD i then lane a i else lane b i))) s

def execVsel (t : Tile) (g : Guard) (vd va vb : BitVec 4) (pd : BitVec 3) (s : State) :
    Host.Outcome State Fault Refusal :=
  .next (issueLanes t g (slotOf (.vsel t g vd va vb pd)) (vselEff t vd va vb pd) s)

def execVbcast (t : Tile) (g : Guard) (vd : BitVec 4) (sx : BitVec 5) (s : State) : Host.Outcome State Fault Refusal :=
  .next (issueLanes t g (slotOf (.vbcast t g vd sx))
    (fun mask => onTile t (fun x =>
      x.setV vd (lanesOf mask (x.vreg vd) (fun _ => (x.sreg sx).truncate 32)))) s)

/-! Moves. -/

/-- FP32, INT32 and UINT32 move as patterns (Table 1 of 05). -/
def rawFmt (fmt : Nat) : Bool := fmt == 0 || fmt == 5 || fmt == 7

/-- Faults of VLD, VST and VSTAT on their descriptor (R34, R43, R64, R138). -/
def vecDescFaults (d : Tensor) (off : W64) : List (Bool × Code) :=
  [(d.space == 1 || d.fmt == 6 || fmtMx d.fmt, Codes.isaFormat),
   (!d.aligned || d.blockMisaligned off, Codes.isaMisalign)]

/-- What a lane loads: element `i` of a row, +0 outside the extents (R64, R138). -/
def State.vecElem (s : State) (t : Nat) (d : Tensor) (r : RowIx) (i : Nat) : W32 :=
  if rawFmt d.fmt then
    if d.hasRow r && decide (i < d.e0) then BitVec.ofNat 32 (s.elemBits t d r i) else 0
  else to32 (s.elemVal t d r i)

def vldEff (t : Tile) (vd : BitVec 4) (sx : BitVec 5) (ds : BitVec 6) (mask : BitVec 512) (s : State) : Eff :=
  let x := s.tile t
  match nameFault 0x10 (x.dreg ds) with
  | some c => .fault c
  | none =>
    let d := tensorOf (x.dreg ds)
    let off := x.sreg sx
    match lowest (vecDescFaults d off) with
    | some c => .fault c
    | none =>
      onTile t (fun y => y.setV vd (lanesOf mask (y.vreg vd) (fun i =>
        s.vecElem t d ⟨off1 off, 0, 0, 0⟩ (off0 off + i)))) s

def execVld (t : Tile) (g : Guard) (vd : BitVec 4) (sx : BitVec 5) (ds : BitVec 6) (s : State) :
    Host.Outcome State Fault Refusal :=
  .next (issueLanes t g (slotOf (.vld t g vd sx ds)) (vldEff t vd sx ds) s)

/-- Lane `i` writes an element inside the extents. -/
def vstLive (d : Tensor) (r : RowIx) (o : Nat) (mask : BitVec 512) (i : Nat) : Bool :=
  mask.getLsbD i && d.hasRow r && decide (o + i < d.e0)

/-- Lanes of the block that starts at lane `i`, those inside EXT0. -/
def blockLanes (d : Tensor) (o i : Nat) : List Nat :=
  (List.range d.block).map (· + i) |>.filter (fun k => decide (k < 512 ∧ o + k < d.e0))

/-- First lanes of the blocks of a VST. -/
def blockStarts (d : Tensor) : List Nat := (List.range (512 / d.block)).map (· * d.block)

/-- The executing lanes cover some but not all elements of a block inside EXT0 (R64). -/
def vstPartial (d : Tensor) (r : RowIx) (o : Nat) (mask : BitVec 512) : Bool :=
  fmtScaled d.fmt && (blockStarts d).any (fun i =>
    let ls := blockLanes d o i
    ls.any (vstLive d r o mask) && !ls.all (vstLive d r o mask))

/-- Writes the covered blocks, quantised and counted (R64, R121). -/
def State.vstBlocks (s : State) (t : Nat) (d : Tensor) (m : RndMode) (thresh : W32) (r : RowIx) (o : Nat)
    (mask : BitVec 512) (ws : List W32) : State × Sums :=
  (blockStarts d).foldl (fun p i =>
    let ls := blockLanes d o i
    if ls.any (vstLive d r o mask) then
      let q := d.quant m r ⟨o + i, ls.map (fun k => val32 (lane ws k))⟩
      (p.1.putBlock t d r (o + i) q, p.2.add (q.sums thresh))
    else p) (s, .zeros)

/-- Writes the covered elements of a format without scales. -/
def State.vstElems (s : State) (t : Nat) (d : Tensor) (m : RndMode) (r : RowIx) (o : Nat) (mask : BitVec 512)
    (ws : List W32) : State :=
  let w := fmtBits d.fmt / 8
  (List.range 512).foldl (fun s i =>
    if vstLive d r o mask i then
      let bits := if rawFmt d.fmt then (lane ws i).toNat
        else encodeElem d.fmt (m.at d.space (d.bitAddr r (o + i))) (val32 (lane ws i))
      s.poke t d.space (d.rowAddr r + (o + i) * w) (natLe w bits)
    else s) s

def vstEff (t : Tile) (rnd : Nat) (va : BitVec 4) (sx : BitVec 5) (ds : BitVec 6) (mask : BitVec 512) (s : State) :
    Eff :=
  let x := s.tile t
  match lowestOf [if 1 < rnd then some Codes.isaFieldRange else none, nameFault 0x10 (x.dreg ds)] with
  | some c => .fault c
  | none =>
    let d := tensorOf (x.dreg ds)
    let off := x.sreg sx
    let r : RowIx := ⟨off1 off, 0, 0, 0⟩
    match lowest ((vstPartial d r (off0 off) mask, Codes.isaMisalign) :: vecDescFaults d off) with
    | some c => .fault c
    | none =>
      let m : RndMode := ⟨rnd == 1, x.seed⟩
      if fmtScaled d.fmt then
        let p := s.vstBlocks t d m x.thresh r (off0 off) mask (x.vreg va)
        .done (p.1.addSums t p.2)
      else .done (s.vstElems t d m r (off0 off) mask (x.vreg va))

def execVst (t : Tile) (g : Guard) (rnd : BitVec 2) (va : BitVec 4) (sx : BitVec 5) (ds : BitVec 6) (s : State) :
    Host.Outcome State Fault Refusal :=
  .next (issueLanes t g (slotOf (.vst t g rnd va sx ds)) (vstEff t rnd.toNat va sx ds) s)

/-! Reductions. -/

/-- One level of the tree: element i is op(element 2i, element 2i + 1) (R140). -/
def pairUp (op : W32 → W32 → W32) : List W32 → List W32
  | a :: b :: rest => op a b :: pairUp op rest
  | ws => ws

/-- The fixed tree of nine levels over 512 values (R140). -/
def tree512 (op : W32 → W32 → W32) (xs : List W32) : W32 :=
  ((List.range 9).foldl (fun ws _ => pairUp op ws) xs).headD 0

/-- What a lane that does not execute contributes (R65). -/
def redIdentity (op : Nat) : W32 :=
  match op with
  | 0 => 0
  | 1 => negInf32
  | _ => inf32

def redOp (op : Nat) : W32 → W32 → W32 :=
  match op with
  | 0 => fadd
  | 1 => fmax32
  | _ => fmin32

/-- VRED (R65, R140): sum, max or min of the executing lanes into the low half of a scalar register. -/
def vredEff (t : Tile) (op : Nat) (va : BitVec 4) (sx : BitVec 5) (mask : BitVec 512) (s : State) : Eff :=
  if 2 < op then .fault Codes.isaFieldRange
  else
    onTile t (fun x =>
      let xs := ((x.vreg va).zipIdx).map (fun p => if mask.getLsbD p.2 then p.1 else redIdentity op)
      x.setS sx ((tree512 (redOp op) xs).setWidth 64)) s

def execVred (t : Tile) (g : Guard) (op : BitVec 2) (va : BitVec 4) (sx : BitVec 5) (s : State) :
    Host.Outcome State Fault Refusal :=
  .next (issueLanes t g (slotOf (.vred t g op va sx)) (vredEff t op.toNat va sx) s)

/-- tree_sum of R153: chunks of 512, absent lanes +0. -/
def treeSum (xs : List W32) : W32 :=
  (chunk 512 (xs.length + 1) xs).foldl (fun acc c =>
    fadd acc (tree512 fadd (c ++ List.replicate (512 - c.length) 0))) 0

/-- Mean and variance of one row (R153, R154). -/
def rowStats (xs : List W32) : W32 × W32 :=
  let k := xs.headD 0
  if xs.any (fun x => !(match val32 x with | .fin _ _ _ => true | _ => false)) then (nan32, nan32)
  else if xs.all (fun x => decide (FV.cmp (val32 x) (val32 k) = 0)) then (k, 0)
  else
    let n := intTo32 xs.length
    let a := xs.map (fun x => fsub x k)
    let ms := fdiv (treeSum a) n
    let mean := fadd k ms
    let b := a.map (fun x => fsub x ms)
    let q := b.map (fun x => fmul x x)
    let v := fdiv (treeSum q) n
    (mean, if isNaN32 v then nan32 else if below32 v 0 then 0 else v)

def vstatEff (t : Tile) (vd : BitVec 4) (sx : BitVec 5) (ds : BitVec 6) (mask : BitVec 512) (s : State) : Eff :=
  let x := s.tile t
  match lowestOf [if vd.toNat % 2 = 1 then some Codes.isaFieldRange else none, nameFault 0x10 (x.dreg ds)] with
  | some c => .fault c
  | none =>
    let d := tensorOf (x.dreg ds)
    let off := x.sreg sx
    match lowest ((decide (d.e0 ≤ off0 off ∨ off0 off + 2 ^ 20 < d.e0), Codes.isaFieldRange)
        :: vecDescFaults d off) with
    | some c => .fault c
    | none =>
      let live (i : Nat) : Bool := mask.getLsbD i && decide (off1 off + i < d.e1)
      let stats := (List.range 512).map (fun i =>
        if live i then
          rowStats ((List.range (d.e0 - off0 off)).map (fun j =>
            s.vecElem t d ⟨off1 off + i, 0, 0, 0⟩ (off0 off + j)))
        else (0, 0))
      let pick (old : List W32) (f : W32 × W32 → W32) : List W32 :=
        (old.zipIdx).map (fun p => if live p.2 then f (stats.getD p.2 (0, 0)) else p.1)
      onTile t (fun y =>
        (y.setV vd (pick (y.vreg vd) Prod.fst)).setV (vd + 1) (pick (y.vreg (vd + 1)) Prod.snd)) s

def execVstat (t : Tile) (g : Guard) (vd : BitVec 4) (sx : BitVec 5) (ds : BitVec 6) (s : State) :
    Host.Outcome State Fault Refusal :=
  .next (issueLanes t g (slotOf (.vstat t g vd sx ds)) (vstatEff t vd sx ds) s)

/-! Conversion. -/

/-- One lane of VCVT: rounded to a float format and held as the equal FP32 value (R138, R139). -/
def cvtLane (fmt : Nat) (stoch : Bool) (seed : W64) (i : Nat) (w : W32) : W32 :=
  if fmt = 0 then w
  else
    let r : Rnd := if stoch then .sr (srBits seed 15 (w.toNat * 512 + i)) else .rne
    to32 (decodeElem fmt (encodeElem fmt r (val32 w)) 127)

def vcvtEff (t : Tile) (rnd : Nat) (vd va : BitVec 4) (fmt : Nat) (mask : BitVec 512) (s : State) : Eff :=
  if 1 < rnd ∨ (fmtEnc fmt).isNone then .fault Codes.isaFieldRange
  else if 4 < fmt then .fault Codes.isaFormat
  else laneOp1 (cvtLane fmt (rnd == 1) (s.tile t).seed) t vd va mask s

def execVcvt (t : Tile) (g : Guard) (rnd : BitVec 2) (vd va : BitVec 4) (fmt : BitVec 6) (s : State) :
    Host.Outcome State Fault Refusal :=
  .next (issueLanes t g (slotOf (.vcvt t g rnd vd va fmt)) (vcvtEff t rnd.toNat vd va fmt.toNat) s)

end Sys2Proof.Machine
end

