-- ==== Sys2Proof/Machine/Access.lean ====
section
/-!
DEFINITION. Machine/Access.lean: accesses at the fabric ports, memory-side operations and the patrol (R274, R280, R284 to
R288, R291 to R293).
-/

namespace Sys2Proof.Machine

/-! Requesters. -/

/-- Job, class and number of a requester; none for a tile without a hand. -/
def State.requester (s : State) : Requester → Option (Nat × Nat × Nat)
  | .tile t => if (s.tile t).hand.isSome then some ((s.tile t).job, reqTile, t) else none
  | .dealer d j => some (j, reqDealer, d)
  | .engine k j => some (j, reqEngine, k)
  | .codec j => some (j, reqCodec, 0)

/-- An access error of a requester: a tile's against its issuing slot, any other against its job (R54, R274). -/
def State.accessError (s : State) (rq : Requester) (code : Code) (data : List Byte) : State :=
  match rq with
  | .tile t => let x := s.tile t; s.tileReport t x.pc code x.job x.handId data
  | .dealer d j => s.jobFaults j code { cls := 2, idx := d, data := data }
  | .engine k j => s.jobFaults j code { cls := 3, idx := k, data := data }
  | .codec j => s.jobFaults j code { cls := 4, data := data }

/-- An access that may go on: its words are mapped, in the windows and resident. The waits and the errors are taken
first (R274, R280, R287). -/
def State.guardAccess (s : State) (rq : Requester) (addr n : Nat) (ecc : Ecc) (go : Nat → State → State) : State :=
  match s.requester rq with
  | none => s
  | some (j, cls, idx) =>
    match s.checkRange (.job j) addr n with
    | some c => s.accessError rq c (s.memData addr)
    | none =>
      match s.absentPages addr n with
      | p :: ps => s.waitOn j cls idx (p :: ps)
      | [] =>
        match ecc with
        | .uncorrectable =>
          ((s.noteUe addr).accessError rq Codes.memUncorrectable (s.memData addr)).faultJob
            (s.pageJob (addr / size2MiB)) Codes.memUncorrectable
        | .corrected k =>
          go j (s.modStack ((s.physOf addr).1 / 2 ^ 36) (fun x => { x with ce := satAdd (2 ^ 32 - 1) x.ce k }))
        | .clean => go j s

/-- An access to the unified range: a read delivers its data to the requester, a write stores it. -/
def unifiedAccess (rq : Requester) (addr : Nat) (acc : Access) (ecc : Ecc) (s : State) : State :=
  match acc with
  | .read n => s.guardAccess rq addr n ecc (fun _ s => s)
  | .write bs => s.guardAccess rq addr bs.length ecc (fun j s =>
      match s.uniPut j addr bs with
      | .ok s' => s'
      | .error c => s.accessError rq c (s.memData addr))

def execUnifiedAccess (rq : Requester) (addr : BitVec 48) (acc : Access) (ecc : Ecc) (s : State) :
    Host.Outcome State Fault Refusal := .next (unifiedAccess rq addr.toNat acc ecc s)

/-! Memory-side operations (R291 to R293). -/

def msBytes : MsTy → Nat
  | .fp32 => 4
  | .bf16 => 2
  | .fp16 => 2
  | .int32 => 4
  | .int64 => 8

/-- FMT code of a floating type; none for an integer. -/
def msFmt : MsTy → Option Nat
  | .fp32 => some 0
  | .bf16 => some 1
  | .fp16 => some 2
  | .int32 => none
  | .int64 => none

/-- The type may take the operation (Table 4 of 09). -/
def msAllows : MsOp → MsTy → Bool
  | .add, _ => true
  | _, .fp32 => true
  | _, .int32 => true
  | _, .int64 => true
  | _, _ => false

/-- New bits of one element (R292). -/
def msElem (op : MsOp) (ty : MsTy) (old x : Nat) : Nat :=
  let w := 8 * msBytes ty
  match op, msFmt ty with
  | .add, some f => encodeElem f .rne ((decodeElem f old 127).add (decodeElem f x 127))
  | .add, none => (old + x) % 2 ^ w
  | .min, some _ => (fmin32 (BitVec.ofNat 32 old) (BitVec.ofNat 32 x)).toNat
  | .max, some _ => (fmax32 (BitVec.ofNat 32 old) (BitVec.ofNat 32 x)).toNat
  | .min, none => if sintVal w x < sintVal w old then x else old
  | .max, none => if sintVal w old < sintVal w x then x else old

/-- Applies an operation to consecutive elements. -/
def State.memSide (s : State) (op : MsOp) (ty : MsTy) (addr : Nat) (data : List Byte) : State :=
  let n := data.length / msBytes ty
  let old := elemsOf (msBytes ty) n (s.readMem addr data.length)
  let new := (old.zip (elemsOf (msBytes ty) n data)).map (fun p => msElem op ty p.1 p.2)
  s.writeMem addr (new.flatMap (natLe (msBytes ty)))

/-- A request covers 4 to 64 B of naturally aligned elements within one 64-B word (R291). -/
def msShape (op : MsOp) (ty : MsTy) (addr n : Nat) : Bool :=
  msAllows op ty && decide (4 ≤ n) && decide (addr % 64 + n ≤ 64) && addr % msBytes ty == 0 && n % msBytes ty == 0

def execMemorySideOperation (rq : Requester) (op : MsOp) (ty : MsTy) (addr : BitVec 48) (data : List Byte)
    (s : State) : Host.Outcome State Fault Refusal :=
  .next (if msShape op ty addr.toNat data.length then
      s.guardAccess rq addr.toNat data.length .clean (fun _ s => s.memSide op ty addr.toNat data)
    else s)

/-! Patrol (R286, R287). -/

/-- Linear offset of byte `a` of the `slot`-th good channel of a stack with `g` good channels (R270). -/
def channelLinear (g slot a : Nat) : Nat := (a / 256 * g + slot) * 256 + a % 256

/-- Good channels of a stack, ascending. -/
def StackSt.good32 (k : StackSt) : List Nat := maskBits k.good.toNat 32

/-- Words of a channel. -/
def channelWords : Nat := 33554432

/-- The page that a frame holds. -/
def State.framePage (s : State) (f : Nat) : Option Nat :=
  match s.mem.frames.get 0 f with
  | 0 => none
  | n => some (n - 1)

/-- One patrol read of a channel; a sweep ends after its last word. -/
def patrolRead (k ch : Nat) (ecc : Ecc) (s : State) : State :=
  let x := s.stack k
  if !x.good32.contains ch then s
  else
    let c := x.chans.get .init ch
    let slot := (x.good32.findIdx? (· == ch)).getD 0
    let lin := channelLinear x.goodCount slot (64 * c.patrol)
    let p := k * 2 ^ 36 + lin
    let f := k * 32768 + lin / size2MiB
    let setChan (s : State) (c : ChanSt) : State := s.modStack k (fun y => { y with chans := y.chans.set .init ch c })
    let step (s : State) (c : ChanSt) : State :=
      if c.patrol + 1 < channelWords then setChan s { c with patrol := c.patrol + 1 }
      else setChan s { c with patrol := 0, ce := 0, logged := false }
    match ecc with
    | .clean => step s c
    | .corrected n =>
      let ce := c.ce + n
      let hit := x.ceLimit != 0 && decide (x.ceLimit ≤ ce) && !c.logged
      let s := s.modStack k (fun y => { y with ce := satAdd (2 ^ 32 - 1) y.ce n })
      let s := if hit then s.report Codes.memCeThreshold
          { cls := 3, idx := k, unit := ch, data := natLe 8 p ++ natLe 8 0 ++ natLe 4 f } else s
      step s { c with ce := ce, logged := c.logged || hit }
    | .uncorrectable =>
      let s := step (s.noteUeAt p f) c
      match s.framePage f with
      | some pg =>
        s.pageError pg Codes.memUncorrectable
          { cls := 3, idx := k, unit := ch,
            data := natLe 8 p ++ natLe 8 (pg * size2MiB + lin % size2MiB) ++ natLe 4 f }
      | none =>
        let s := s.report Codes.memUncorrectable
          { cls := 3, idx := k, unit := ch, data := natLe 8 p ++ natLe 8 0 ++ natLe 4 f }
        if frameReserved f || s.mem.badFrames.get 0 f != 1 then s else s.retireFrame f

def execPatrolRead (k : Stack) (ch : Fin 32) (ecc : Ecc) (s : State) : Host.Outcome State Fault Refusal :=
  .next (patrolRead k ch ecc s)

end Sys2Proof.Machine
end

