-- ==== Sys2Proof/Machine/Segments.lean ====
section
/-!
DEFINITION. Machine/Segments.lean: the segment tables of the special functions: FP32 endpoints computed from the functions
of R142 and Table 3 of 05 (log entry 28).
-/

namespace Sys2Proof.Machine

/-- Endpoints of table E2: 2^u on [0, 1] (R142, Table 3). -/
def seamsE2 : List Nat :=
  [0x3F800000, 0x3F82CD87, 0x3F85AAC3, 0x3F88980F, 0x3F8B95C2, 0x3F8EA43A, 0x3F91C3D3, 0x3F94F4F0,
   0x3F9837F0, 0x3F9B8D3A, 0x3F9EF532, 0x3FA27043, 0x3FA5FED7, 0x3FA9A15B, 0x3FAD583F, 0x3FB123F6] ++
  [0x3FB504F3, 0x3FB8FBAF, 0x3FBD08A4, 0x3FC12C4D, 0x3FC5672A, 0x3FC9B9BE, 0x3FCE248C, 0x3FD2A81E,
   0x3FD744FD, 0x3FDBFBB8, 0x3FE0CCDF, 0x3FE5B907, 0x3FEAC0C7, 0x3FEFE4BA, 0x3FF5257D, 0x3FFA83B3] ++
  [0x40000000]

/-- Endpoints of table L2: log2 u on [1, 2] (R142, Table 3). -/
def seamsL2 : List Nat :=
  [0x00000000, 0x3D35D69C, 0x3DB31FB8, 0x3E0462C4, 0x3E2E00D2, 0x3E567AF1, 0x3E7DE0B6, 0x3E92203D,
   0x3EA4D3C2, 0x3EB7110E, 0x3EC8DDD4, 0x3EDA3F60, 0x3EEB3A9F, 0x3EFBD42B, 0x3F060828, 0x3F0DF989] ++
  [0x3F15C01A, 0x3F1D5DA0, 0x3F24D3C2, 0x3F2C2411, 0x3F335004, 0x3F3A58FF, 0x3F41404F, 0x3F480731,
   0x3F4EAED0, 0x3F553848, 0x3F5BA4A4, 0x3F61F4E5, 0x3F6829FB, 0x3F6E44CD, 0x3F744636, 0x3F7A2F04] ++
  [0x3F800000]

/-- Endpoints of table RC: 1/u on [1, 2] (R142, Table 3). -/
def seamsRC : List Nat :=
  [0x3F800000, 0x3F783E10, 0x3F70F0F1, 0x3F6A0EA1, 0x3F638E39, 0x3F5D67C9, 0x3F579436, 0x3F520D21,
   0x3F4CCCCD, 0x3F47CE0C, 0x3F430C31, 0x3F3E82FA, 0x3F3A2E8C, 0x3F360B61, 0x3F321643, 0x3F2E4C41] ++
  [0x3F2AAAAB, 0x3F272F05, 0x3F23D70A, 0x3F20A0A1, 0x3F1D89D9, 0x3F1A90E8, 0x3F17B426, 0x3F14F209,
   0x3F124925, 0x3F0FB824, 0x3F0D3DCB, 0x3F0AD8F3, 0x3F088889, 0x3F064B8A, 0x3F042108, 0x3F020821] ++
  [0x3F000000]

/-- Endpoints of table RS: 1/sqrt u on [1, 4] (R142, Table 3). -/
def seamsRS : List Nat :=
  [0x3F800000, 0x3F785B42, 0x3F715BEF, 0x3F6AEBF5, 0x3F64F92E, 0x3F5F7483, 0x3F5A514A, 0x3F5584CD,
   0x3F5105EC, 0x3F4CCCCD, 0x3F48D2AB, 0x3F4511A3, 0x3F41848F, 0x3F3E26EB, 0x3F3AF4BA, 0x3F37EA74] ++
  [0x3F3504F3, 0x3F2F9D53, 0x3F2AAAAB, 0x3F261D5F, 0x3F21E89B, 0x3F1E01B3, 0x3F1A5FB2, 0x3F16FB06,
   0x3F13CD3A, 0x3F10D0C3, 0x3F0E00D5, 0x3F0B5948, 0x3F08D677, 0x3F067532, 0x3F0432A5, 0x3F020C52] ++
  [0x3F000000]

/-- Endpoints of table TH: tanh u on [0, 8], 1.0 at 8 (R142, Table 3). -/
def seamsTH : List Nat :=
  [0x00000000, 0x3C7FFAAB, 0x3CFFEAAD, 0x3D3FDC08, 0x3D7FAACD, 0x3D9FACDF, 0x3DBF7081, 0x3DDF1C6C,
   0x3DFEACC9, 0x3E0F0EE8, 0x3E1EB5E4, 0x3E2E4984, 0x3E3DC7FD, 0x3E4D2F8E, 0x3E5C7E82, 0x3E6BB32E] ++
  [0x3E7ACBF5, 0x3E8C51CD, 0x3E9AFCC5, 0x3EA96163, 0x3EB77A9F, 0x3EC543F1, 0x3ED2B94F, 0x3EDFD735,
   0x3EEC9A9F, 0x3EF90109, 0x3F028438, 0x3F0857A4, 0x3F0DFA3F, 0x3F136BB8, 0x3F18ABF0, 0x3F1DBAFC] ++
  [0x3F22991F, 0x3F2746C5, 0x3F2BC480, 0x3F301305, 0x3F343328, 0x3F3825D9, 0x3F3BEC1C, 0x3F3F870D,
   0x3F42F7D6, 0x3F495FDA, 0x3F4F2E5B, 0x3F546DE6, 0x3F59291E, 0x3F5D6A85, 0x3F613C53, 0x3F64A852] ++
  [0x3F67B7CC, 0x3F6A737A, 0x3F6CE37D, 0x3F6F0F5B, 0x3F70FDFD, 0x3F72B5B8, 0x3F743C4F, 0x3F7596FF,
   0x3F76CA83, 0x3F78CCA7, 0x3F7A5FEB, 0x3F7B9BBB, 0x3F7C92C1, 0x3F7D53CA, 0x3F7DEA85, 0x3F7E6026] ++
  [0x3F7EBBE9, 0x3F7F0376, 0x3F7F3B3D, 0x3F7F66B6, 0x3F7F8896, 0x3F7FA2FB, 0x3F7FB78C, 0x3F7FC791,
   0x3F7FD40C, 0x3F7FEFD4, 0x3F7FFA0D, 0x3F7FFDD0, 0x3F7FFF32, 0x3F7FFFB4, 0x3F7FFFE4, 0x3F7FFFF6] ++
  [0x3F800000]

/-- Endpoints of table EF: erf u on [0, 4], 1.0 at 4 (R142, Table 3). -/
def seamsEF : List Nat :=
  [0x00000000, 0x3D1062B2, 0x3D903EA4, 0x3DD80409, 0x3E0FAF0D, 0x3E331506, 0x3E5622F2, 0x3E78C855,
   0x3E8D7AA7, 0x3E9E4D54, 0x3EAED4FA, 0x3EBF0ACA, 0x3ECEE869, 0x3EDE67F6, 0x3EED840E, 0x3EFC37D5] ++
  [0x3F053F7B, 0x3F0C2AD3, 0x3F12DC54, 0x3F1952A6, 0x3F1F8CB7, 0x3F2589B9, 0x3F2B4922, 0x3F30CAAB,
   0x3F360E4C, 0x3F3B1438, 0x3F3FDCE0, 0x3F4468E7, 0x3F48B925, 0x3F4CCEA1, 0x3F50AA8D, 0x3F544E43] ++
  [0x3F57BB3D, 0x3F5AF318, 0x3F5DF788, 0x3F60CA59, 0x3F636D69, 0x3F65E2A6, 0x3F682C06, 0x3F6A4B88,
   0x3F6C432F, 0x3F6E14FE, 0x3F6FC2F5, 0x3F714F11, 0x3F72BB46, 0x3F74097E, 0x3F753B98, 0x3F765366] ++
  [0x3F7752AB, 0x3F783B18, 0x3F790E50, 0x3F79CDE1, 0x3F7A7B4A, 0x3F7B17F4, 0x3F7BA537, 0x3F7C2456,
   0x3F7C9684, 0x3F7CFCDD, 0x3F7D586F, 0x3F7DAA32, 0x3F7DF30F, 0x3F7E33DE, 0x3F7E6D66, 0x3F7EA05F] ++
  [0x3F7ECD71, 0x3F7F5211, 0x3F7FA024, 0x3F7FCCB0, 0x3F7FE554, 0x3F7FF28A, 0x3F7FF968, 0x3F7FFCDD,
   0x3F7FFE8D, 0x3F7FFF5A, 0x3F7FFFB8, 0x3F7FFFE2, 0x3F7FFFF4, 0x3F7FFFFB, 0x3F7FFFFE, 0x3F7FFFFF] ++
  [0x3F800000]

/-- Endpoints of table SP: log2 ln(1 + e^-u) on [0, 32] (R142, Table 3). -/
def seamsSP : List Nat :=
  [0xBF075D3C, 0xBF291F7D, 0xBF4BC761, 0xBF6F4D8E, 0xBF89D4CE, 0xBF9C691A, 0xBFAF5EA2, 0xBFC2B017,
   0xBFD657F9, 0xBFEA50B0, 0xBFFE949E, 0xC0098F1C, 0xC013F407, 0xC01E7672, 0xC02913D9, 0xC033C9DA] ++
  [0xC03E9634, 0xC04976CD, 0xC05469B2, 0xC05F6D13, 0xC06A7F48, 0xC0759ECA, 0xC080651C, 0xC0860027,
   0xC08B9FF4, 0xC09143FF, 0xC096EBD3, 0xC09C9703, 0xC0A24531, 0xC0A7F607, 0xC0ADA939, 0xC0B35E82] ++
  [0xC0B915A5, 0xC0D000DB, 0xC0E6FC7E, 0xC0FE022D, 0xC10A86FD, 0xC1160EC1, 0xC12197A5, 0xC12D213A,
   0xC138AB39, 0xC1443579, 0xC14FBFE0, 0xC15B4A5F, 0xC166D4EC, 0xC1725F82, 0xC17DEA1E, 0xC184BA5E] ++
  [0xC18A7FAF, 0xC1904500, 0xC1960A51, 0xC19BCFA2, 0xC1A194F4, 0xC1A75A46, 0xC1AD1F98, 0xC1B2E4E9,
   0xC1B8AA3B, 0xC1C434DF, 0xC1CFBF83, 0xC1DB4A26, 0xC1E6D4CA, 0xC1F25F6E, 0xC1FDEA11, 0xC204BA5B] ++
  [0xC20A7FAC, 0xC21044FE, 0xC2160A50, 0xC21BCFA2, 0xC22194F4, 0xC2275A46, 0xC22D1F97, 0xC232E4E9,
   0xC238AA3B]

/-- Endpoints of table SN: sin(pi u / 2) on [0, 1] (R142, Table 3). -/
def seamsSN : List Nat :=
  [0x00000000, 0x3D48FB30, 0x3DC8BD36, 0x3E164083, 0x3E47C5C2, 0x3E78CFCC, 0x3E94A031, 0x3EAC7CD4,
   0x3EC3EF15, 0x3EDAE880, 0x3EF15AEA, 0x3F039C3D, 0x3F0E39DA, 0x3F187FC0, 0x3F226799, 0x3F2BEB4A] ++
  [0x3F3504F3, 0x3F3DAEF9, 0x3F45E403, 0x3F4D9F02, 0x3F54DB31, 0x3F5B941A, 0x3F61C598, 0x3F676BD8,
   0x3F6C835E, 0x3F710908, 0x3F74FA0B, 0x3F7853F8, 0x3F7B14BE, 0x3F7D3AAC, 0x3F7EC46D, 0x3F7FB10F] ++
  [0x3F800000]

/-- A sub-range of `n` segments of width 2^-w from lo * 2^-w (R142). -/
structure SubRange where
  w  : Int
  lo : Nat
  n  : Nat
  deriving DecidableEq, Repr

/-- A segment table: its sub-ranges in order and the endpoints at their seams (R142, R144). -/
structure SegTable where
  ranges : List SubRange
  ys     : List Nat
  deriving DecidableEq, Repr

def tblE2 : SegTable := ⟨[⟨5, 0, 32⟩], seamsE2⟩
def tblL2 : SegTable := ⟨[⟨5, 32, 32⟩], seamsL2⟩
def tblRC : SegTable := ⟨[⟨5, 32, 32⟩], seamsRC⟩
def tblRS : SegTable := ⟨[⟨4, 16, 16⟩, ⟨3, 16, 16⟩], seamsRS⟩
def tblTH : SegTable := ⟨[⟨6, 0, 16⟩, ⟨5, 8, 24⟩, ⟨4, 16, 16⟩, ⟨3, 16, 16⟩, ⟨1, 8, 8⟩], seamsTH⟩
def tblEF : SegTable := ⟨[⟨5, 0, 32⟩, ⟨5, 32, 32⟩, ⟨3, 16, 16⟩], seamsEF⟩
def tblSP : SegTable := ⟨[⟨3, 0, 32⟩, ⟨1, 8, 24⟩, ⟨0, 16, 16⟩], seamsSP⟩
def tblSN : SegTable := ⟨[⟨5, 0, 32⟩], seamsSN⟩

/-- The same table for Kremor 1: half the segments at twice the width, endpoints at the even seams (R151). -/
def SegTable.halved (t : SegTable) : SegTable :=
  ⟨t.ranges.map (fun r => ⟨r.w - 1, r.lo / 2, r.n / 2⟩), ((t.ys.zipIdx).filter (fun p => p.2 % 2 == 0)).map (·.1)⟩

/-- Value of endpoint `k`. -/
def SegTable.y (t : SegTable) (k : Nat) : FV := encFp32.decode (t.ys.getD k 0)

/-- floor of a nonnegative finite value, and the exact rest. -/
def splitFloor (m : Nat) (e : Int) : Nat × FV :=
  if 0 ≤ e then (m * 2 ^ e.toNat, .fin false 0 0)
  else
    let d := 2 ^ (-e).toNat
    (m / d, .fin false (m % d) e)

/-- Interpolation in the sub-ranges from endpoint `base` on; past the last, its terminal endpoint (R142). -/
def SegTable.evalFrom (t : SegTable) (m : Nat) (e : Int) : List SubRange → Nat → FV
  | [], base => t.y base
  | r :: rs, base =>
    let p := splitFloor m (e + r.w)
    if p.1 < r.lo + r.n then
      let k := base + (p.1 - r.lo)
      (t.y k).add (((t.y (k + 1)).sub (t.y k)).mul p.2)
    else t.evalFrom m e rs (base + r.n)

/-- The exact table value at a nonnegative argument m * 2^e (R142). -/
def SegTable.eval (t : SegTable) (m : Nat) (e : Int) : FV := t.evalFrom m e t.ranges 0

end Sys2Proof.Machine
end

