-- ==== Sys2Proof/Machine/Special.lean ====
section
/-!
DEFINITION. Machine/Special.lean: class 6, special functions, and the Kremor 1 compatibility mode (R67, R142 to R152, R157).
-/

namespace Sys2Proof.Machine

/-! Roundings. -/

/-- floor(log2) of a nonzero finite value; 0 else. -/
def FV.log2 : FV → Int
  | .fin _ m e => (Nat.log2 m : Int) + e
  | _ => 0

/-- 36 significant bits, to nearest even or toward zero, with no limit on the exponent (R143, R151). -/
def rnd36 (rz : Bool) : FV → FV
  | .fin n m e =>
    let b := Nat.log2 m + 1
    if b ≤ 36 then .fin n m e
    else
      let d := 2 ^ (b - 36)
      .fin n (if rz then m / d else roundQuot .rne m d) (e + (b - 36 : Nat))
  | v => v

/-- FP32 toward zero: an overflow gives the largest finite magnitude, a result below the smallest normal a zero of its
sign (R151). -/
def rz32 : FV → W32
  | .nan => nan32
  | .inf n => BitVec.ofNat 32 (encFp32.signed n encFp32.maxCode)
  | .fin n m e =>
    let l := (Nat.log2 m : Int) + e
    if m = 0 ∨ l < -126 then BitVec.ofNat 32 (encFp32.signed n 0)
    else if 127 < l then BitVec.ofNat 32 (encFp32.signed n encFp32.maxCode)
    else
      let f := Mag.frac ⟨m, 1, e⟩ (l - 23)
      BitVec.ofNat 32 (encFp32.signed n (f.1 / f.2 + (l + 126).toNat * 2 ^ 23))

/-- The final rounding (R143, R151). -/
def sfuRound (k1 : Bool) (v : FV) : W32 := if k1 then rz32 v else to32 v

/-- A table as the mode has it (R151). -/
def sfuTable (k1 : Bool) (t : SegTable) : SegTable := if k1 then t.halved else t

def fvOne : FV := .fin false 1 0

/-- log2 e rounded to 36 significant bits. -/
def sfuCe : FV := .fin false 49570624150 (-35)

/-- 2 sqrt(2 / pi), 0.044715 and sqrt(2 / pi), each rounded to 36 significant bits. -/
def sfuC1 : FV := .fin false 54830209514 (-35)
def sfuC2 : FV := .fin false 49164662436 (-40)
def sfuC3 : FV := .fin false 54830209514 (-36)

/-- 1 / (2 pi) held to 64 fractional bits. -/
def sfuCt : Nat := 2935890503282001226

/-! Rebuilds (Table 4 of 05). -/

/-- 2^n * E2(f) at an exact argument. -/
def rebExp2 (k1 : Bool) (v : FV) : FV :=
  let n := v.floor
  match v.sub (.ofInt n) with
  | .fin _ m e => ((sfuTable k1 tblE2).eval m e).scale n
  | w => w

/-- The argument of EXP's rebuild: u of Table 4, or of R151 item 4. -/
def expArg (k1 : Bool) (v : FV) : FV :=
  if k1 then val32 (rz32 (v.mul (val32 0x3FB8AA3B#32))) else rnd36 false (v.mul sfuCe)

/-- EXP36 (R147). -/
def exp36 (v : FV) : FV := rnd36 false (rebExp2 false (rnd36 false (v.mul sfuCe)))

/-- A nonzero magnitude as m * 2^n with 1 <= m < 2. -/
def mantissa (v : FV) : Int × Nat × Int :=
  match v with
  | .fin _ m e =>
    let b := Nat.log2 m
    ((b : Int) + e, m, -(b : Int))
  | _ => (0, 1, 0)

def rebLog2 (k1 : Bool) (v : FV) : FV :=
  let p := mantissa v
  (FV.ofInt p.1).add ((sfuTable k1 tblL2).eval p.2.1 p.2.2)

def signed (neg : Bool) (v : FV) : FV := if neg then v.neg else v

def rebRcp (k1 : Bool) (v : FV) : FV :=
  let p := mantissa v
  signed v.isNeg (((sfuTable k1 tblRC).eval p.2.1 p.2.2).scale (-p.1))

/-- x = 4^j * m with 1 <= m < 4. -/
def rebRsqrt (k1 : Bool) (v : FV) : FV :=
  let p := mantissa v
  let j := p.1 / 2
  ((sfuTable k1 tblRS).eval p.2.1 (p.2.2 + (p.1 - 2 * j))).scale (-j)

/-- sign(v) * T(|v|) below `hi`, sign(v) * 1 from there. -/
def rebSat (t : SegTable) (hi : Nat) (v : FV) : FV :=
  signed v.isNeg
    (if FV.cmp v.abs (.ofInt hi) < 0 then
      match v with
      | .fin _ m e => t.eval m e
      | _ => fvOne
    else fvOne)

def rebTanh (k1 : Bool) (v : FV) : FV := rebSat (sfuTable k1 tblTH) 8 v

def rebErf (v : FV) : FV := rebSat tblEF 4 v

/-- w of Table 4 in units of 2^-40: the fractional part of |x| * ct, truncated. -/
def turns (v : FV) : Nat :=
  match v with
  | .fin _ m e =>
    -- |x| * ct = m * sfuCt * 2^(e - 64)
    let s := e - 24
    (if 0 ≤ s then m * sfuCt * 2 ^ s.toNat else m * sfuCt / 2 ^ (-s).toNat) % 2 ^ 40
  | _ => 0

/-- s_q * SN(v or 1 - v) of w in units of 2^-40; a zero result is +0. -/
def quarterTurn (k1 : Bool) (w : Nat) : FV × Bool :=
  let q := w / 2 ^ 38
  let v := w % 2 ^ 38
  ((sfuTable k1 tblSN).eval (if q % 2 = 0 then v else 2 ^ 38 - v) (-38), decide (2 ≤ q))

def plusZero (v : FV) : FV := if v.isZero then .fin false 0 0 else v

def rebSin (k1 : Bool) (v : FV) : FV :=
  let p := quarterTurn k1 (turns v)
  plusZero (signed (v.isNeg != p.2) p.1)

def rebCos (k1 : Bool) (v : FV) : FV :=
  let p := quarterTurn k1 ((turns v + 2 ^ 38) % 2 ^ 40)
  plusZero (signed p.2 p.1)

/-- rnd36(1 + e) of a nonnegative e of 36 bits. -/
def onePlus (v : FV) : FV :=
  if v.isZero || decide (v.log2 < -64) then fvOne
  else if 64 < v.log2 then v
  else rnd36 false (fvOne.add v)

/-- sigma of SILU and GELU before its last rounding: RCP(rnd36(1 + EXP36(-z))) (R147). -/
def rebSigma (z : FV) : FV := rebRcp false (onePlus (exp36 z.neg))

/-- x + c2 * x^3, exact. -/
def geluBracket (v : FV) : FV := v.add (sfuC2.mul (v.mul (v.mul v)))

/-- Twice the Kremor 1 sigmoid: 1 + TH(a), the inner values toward zero at 36 bits (R151 item 5, log entry 29). -/
def k1Twice (a : FV) : FV := rnd36 true (fvOne.add (rnd36 true (rebTanh true (rnd36 true a))))

/-- SOFTPLUS: p = EXP2(SP(|x|)); p for x <= 0, x + rnd36(p) above (R147). -/
def rebSoftplus (v : FV) : FV :=
  let u := v.abs
  let sp :=
    if FV.cmp u (.ofInt 32) < 0 then
      match u with
      | .fin _ m e => tblSP.eval m e
      | _ => u
    else (tblSP.y 72).sub ((u.sub (.ofInt 32)).mul sfuCe)
  let p := rebExp2 false sp
  if v.isNeg || v.isZero then p
  else if p.log2 < -300 then v
  else v.add (rnd36 false p)

/-! The functions, special inputs included (Table 6 of 05). -/

/-- The input as the mode reads it: in compatibility mode a subnormal is a zero of its sign (R151). -/
def sfuIn (k1 : Bool) (w : W32) : FV :=
  if k1 && (w.toNat / 2 ^ 23 % 256 == 0) then .fin (decide (2 ^ 31 ≤ w.toNat)) 0 0 else val32 w

def zero32 (neg : Bool) : W32 := if neg then 0x80000000#32 else 0#32

def sfuExp2 (k1 : Bool) (w : W32) : W32 :=
  match sfuIn k1 w with
  | .nan => nan32
  | .inf n => if n then 0 else inf32
  | v => if 0 ≤ FV.cmp v (.ofInt 128) then inf32 else sfuRound k1 (rebExp2 k1 v)

def sfuExp (k1 : Bool) (w : W32) : W32 :=
  match sfuIn k1 w with
  | .nan => nan32
  | .inf n => if n then 0 else inf32
  | v =>
    let u := expArg k1 v
    if 0 ≤ FV.cmp u (.ofInt 128) then inf32 else sfuRound k1 (rebExp2 k1 u)

def sfuLog2 (k1 : Bool) (w : W32) : W32 :=
  match sfuIn k1 w with
  | .nan => nan32
  | .inf n => if n then nan32 else inf32
  | v => if v.isZero then negInf32 else if v.isNeg then nan32 else sfuRound k1 (rebLog2 k1 v)

def sfuRcp (k1 : Bool) (w : W32) : W32 :=
  match sfuIn k1 w with
  | .nan => nan32
  | .inf n => zero32 n
  | v => if v.isZero then (if v.isNeg then negInf32 else inf32) else sfuRound k1 (rebRcp k1 v)

def sfuRsqrt (k1 : Bool) (w : W32) : W32 :=
  match sfuIn k1 w with
  | .nan => nan32
  | .inf n => if n then nan32 else 0
  | v =>
    if v.isZero then (if v.isNeg then negInf32 else inf32)
    else if v.isNeg then nan32 else sfuRound k1 (rebRsqrt k1 v)

def sfuSigmoid (k1 : Bool) (w : W32) : W32 :=
  match sfuIn k1 w with
  | .nan => nan32
  | .inf n => if n then 0 else 0x3F800000#32
  | v =>
    if v.isZero then 0x3F000000#32
    else if k1 then rz32 ((k1Twice (v.scale (-1))).scale (-1))
    else to32 (rebRcp false (onePlus (exp36 v.neg)))

def sfuTanh (k1 : Bool) (w : W32) : W32 :=
  match sfuIn k1 w with
  | .nan => nan32
  | .inf n => if n then 0xBF800000#32 else 0x3F800000#32
  | v => if v.isZero then zero32 v.isNeg else sfuRound k1 (rebTanh k1 v)

def sfuSilu (k1 : Bool) (w : W32) : W32 :=
  match sfuIn k1 w with
  | .nan => nan32
  | .inf n => if n then 0x80000000#32 else inf32
  | v =>
    if v.isZero then zero32 v.isNeg
    else if k1 then rz32 (v.mul ((k1Twice (v.scale (-1))).scale (-1)))
    else to32 (v.mul (rnd36 false (rebSigma v)))

def sfuGelu (k1 : Bool) (w : W32) : W32 :=
  match sfuIn k1 w with
  | .nan => nan32
  | .inf n => if n then 0x80000000#32 else inf32
  | v =>
    if v.isZero then zero32 v.isNeg
    else if k1 then rz32 (v.mul ((k1Twice (sfuC3.mul (geluBracket v))).scale (-1)))
    else to32 (v.mul (rnd36 false (rebSigma (rnd36 false (sfuC1.mul (geluBracket v))))))

/-- SOFTPLUS has no Kremor 1 version (R152). -/
def sfuSoftplus (w : W32) : W32 :=
  match val32 w with
  | .nan => nan32
  | .inf n => if n then 0 else inf32
  | v => to32 (rebSoftplus v)

/-- ERF has no Kremor 1 version (R152). -/
def sfuErf (w : W32) : W32 :=
  match val32 w with
  | .nan => nan32
  | .inf n => if n then 0xBF800000#32 else 0x3F800000#32
  | v => if v.isZero then zero32 v.isNeg else to32 (rebErf v)

def sfuSin (k1 : Bool) (w : W32) : W32 :=
  match sfuIn k1 w with
  | .nan => nan32
  | .inf _ => nan32
  | v => if v.isZero then zero32 v.isNeg else sfuRound k1 (rebSin k1 v)

def sfuCos (k1 : Bool) (w : W32) : W32 :=
  match sfuIn k1 w with
  | .nan => nan32
  | .inf _ => nan32
  | v => if v.isZero then 0x3F800000#32 else sfuRound k1 (rebCos k1 v)

/-! The instructions. -/

/-- COMPAT_COUNT counts instructions issued with MOD[0] = 1 and stops at its largest value (R160). -/
def countCompat (k1 : Bool) (x : TileSt) : TileSt :=
  if k1 then { x with regs := { x.regs with compat := satAdd (2 ^ 32 - 1) x.regs.compat 1 } } else x

/-- vd takes f(va) in each executing lane (R67). -/
def sfuEff (k1 : Bool) (f : W32 → W32) (t : Tile) (vd va : BitVec 4) (mask : BitVec 512) (s : State) : Eff :=
  onTile t (fun x =>
    let a := x.vreg va
    countCompat k1 (x.setV vd (lanesOf mask (x.vreg vd) (fun i => f (lane a i))))) s

def execExp2 (t : Tile) (g : Guard) (k1 : Bool) (vd va : BitVec 4) (s : State) : Host.Outcome State Fault Refusal :=
  .next (issueLanes t g (slotOf (.exp2 t g k1 vd va)) (sfuEff k1 (sfuExp2 k1) t vd va) s)

def execExp (t : Tile) (g : Guard) (k1 : Bool) (vd va : BitVec 4) (s : State) : Host.Outcome State Fault Refusal :=
  .next (issueLanes t g (slotOf (.exp t g k1 vd va)) (sfuEff k1 (sfuExp k1) t vd va) s)

def execLog2 (t : Tile) (g : Guard) (k1 : Bool) (vd va : BitVec 4) (s : State) : Host.Outcome State Fault Refusal :=
  .next (issueLanes t g (slotOf (.log2 t g k1 vd va)) (sfuEff k1 (sfuLog2 k1) t vd va) s)

def execRcp (t : Tile) (g : Guard) (k1 : Bool) (vd va : BitVec 4) (s : State) : Host.Outcome State Fault Refusal :=
  .next (issueLanes t g (slotOf (.rcp t g k1 vd va)) (sfuEff k1 (sfuRcp k1) t vd va) s)

def execRsqrt (t : Tile) (g : Guard) (k1 : Bool) (vd va : BitVec 4) (s : State) : Host.Outcome State Fault Refusal :=
  .next (issueLanes t g (slotOf (.rsqrt t g k1 vd va)) (sfuEff k1 (sfuRsqrt k1) t vd va) s)

def execSigmoid (t : Tile) (g : Guard) (k1 : Bool) (vd va : BitVec 4) (s : State) : Host.Outcome State Fault Refusal :=
  .next (issueLanes t g (slotOf (.sigmoid t g k1 vd va)) (sfuEff k1 (sfuSigmoid k1) t vd va) s)

def execTanh (t : Tile) (g : Guard) (k1 : Bool) (vd va : BitVec 4) (s : State) : Host.Outcome State Fault Refusal :=
  .next (issueLanes t g (slotOf (.tanh t g k1 vd va)) (sfuEff k1 (sfuTanh k1) t vd va) s)

def execGelu (t : Tile) (g : Guard) (k1 : Bool) (vd va : BitVec 4) (s : State) : Host.Outcome State Fault Refusal :=
  .next (issueLanes t g (slotOf (.gelu t g k1 vd va)) (sfuEff k1 (sfuGelu k1) t vd va) s)

def execSilu (t : Tile) (g : Guard) (k1 : Bool) (vd va : BitVec 4) (s : State) : Host.Outcome State Fault Refusal :=
  .next (issueLanes t g (slotOf (.silu t g k1 vd va)) (sfuEff k1 (sfuSilu k1) t vd va) s)

def execSoftplus (t : Tile) (g : Guard) (k1 : Bool) (vd va : BitVec 4) (s : State) : Host.Outcome State Fault Refusal :=
  .next (issueLanes t g (slotOf (.softplus t g k1 vd va)) (sfuEff k1 sfuSoftplus t vd va) s)

def execErf (t : Tile) (g : Guard) (k1 : Bool) (vd va : BitVec 4) (s : State) : Host.Outcome State Fault Refusal :=
  .next (issueLanes t g (slotOf (.erf t g k1 vd va)) (sfuEff k1 sfuErf t vd va) s)

def execSin (t : Tile) (g : Guard) (k1 : Bool) (vd va : BitVec 4) (s : State) : Host.Outcome State Fault Refusal :=
  .next (issueLanes t g (slotOf (.sin t g k1 vd va)) (sfuEff k1 (sfuSin k1) t vd va) s)

def execCos (t : Tile) (g : Guard) (k1 : Bool) (vd va : BitVec 4) (s : State) : Host.Outcome State Fault Refusal :=
  .next (issueLanes t g (slotOf (.cos t g k1 vd va)) (sfuEff k1 (sfuCos k1) t vd va) s)

end Sys2Proof.Machine
end

