-- ==== Sys2Proof/Machine/Attention.lean ====
section
/-!
DEFINITION. Machine/Attention.lean: class 4, attention instructions and paged K/V (R61, R62, R161 to R195).
-/

namespace Sys2Proof.Machine

/-! Contexts and bindings. -/

/-- The deal queue of a job on a die. -/
def DealerSt.queueOf (d : DealerSt) (j : Nat) : Option Nat :=
  (d.queues.find? (fun p => p.2.job == j && j != 0)).map (·.1)

/-- The context is assigned to the job of a tile (R194). -/
def State.ctxOwned (s : State) (t c : Nat) : Bool :=
  let d := s.dealer (t / 12)
  let o := d.owner.get ⟨false, 0⟩ c
  o.valid && d.queueOf (s.tile t).job == some o.queue

/-- The binding of a context; none before an ABIND of the hand (R62). -/
def TileSt.binding (x : TileSt) (c : Nat) : Option Binding := (x.ctx.find? (fun p => p.1 == c)).map (·.2)

/-- The bound list is paged. -/
def pagedList (d : Desc) : Bool := (pageListOf d).locus == 0

/-- Faults of every attention instruction but ABIND on its context. -/
def ctxFaults (s : State) (t c : Nat) : List (Bool × Code) :=
  [(((s.tile t).binding c).isNone, Codes.isaCtxUnbound), (!s.ctxOwned t c, Codes.ctxNotOwned)]

/-- Later attention instructions of a tile on a context wait for its appends (R189). -/
def TileSt.appendWaits (x : TileSt) (c : Nat) : Bool := x.appends.any (fun a => a.ctx == c)

/-- An attention instruction: it waits for appends on its context, then takes its effect. -/
def attIssue (t : Tile) (g : Guard) (word : Slot) (c : Nat) (body : State → Eff) (s : State) : State :=
  issue t g word (fun s => if (s.tile t).appendWaits c then .stall s else body s) s

/-- A memory or page error found for an attention instruction, reported against its slot (R54, R206). -/
def State.attError (s : State) (t : Nat) (e : AccErr) : State :=
  let x := s.tile t
  s.tileReport t x.pc e.code x.job x.handId e.data

/-- The sequence record header fails (R184). -/
def State.seqBad (s : State) (l : PageList) : Bool :=
  !hdrOk (s.readLe l.seqBase 2) 0x35 || s.seqHeads l.seqBase != l.heads || s.seqEntries l.seqBase != l.entries

/-- SEQ_BASE of the paged lists of a binding; none when both are linear. -/
def bindSeq (dk dv : Desc) : Option Nat :=
  if pagedList dk then some (pageListOf dk).seqBase
  else if pagedList dv then some (pageListOf dv).seqBase
  else none

/-- The hold of a context on another record by another tile (R195). -/
def State.seqConflict (s : State) (t c : Nat) (seq : Option Nat) : Bool :=
  let h := (s.dealer (t / 12)).hold.get ⟨0, []⟩ c
  match seq with
  | some b => h.base != b && h.tiles.any (fun i => i != t % 12)
  | none => false

/-- The holds of a die after a tile binds context `c` (R195). -/
def State.takeHold (s : State) (t c : Nat) (seq : Option Nat) : State :=
  s.modDealer (t / 12) (fun d =>
    let h := d.hold.get ⟨0, []⟩ c
    let others := h.tiles.filter (· != t % 12)
    let h' : CtxHold := match seq with
      | some b => ⟨b, (List.range 12).filter (fun i => others.contains i || i == t % 12)⟩
      | none => if others.isEmpty then ⟨0, []⟩ else ⟨h.base, others⟩
    { d with hold := d.hold.set ⟨0, []⟩ c h' })

def abindFault (s : State) (t : Tile) (c : Nat) (dw dpk dpv : BitVec 6) : Option Code :=
  let x := s.tile t
  let owner := if s.ctxOwned t c then none else some Codes.ctxNotOwned
  match lowestOf [nameFault 0x13 (x.dreg dw), nameFault 0x11 (x.dreg dpk), nameFault 0x11 (x.dreg dpv)] with
  | some e => lowestOf [some e, owner]
  | none =>
    let w := windowOf (x.dreg dw)
    let lk := pageListOf (x.dreg dpk)
    let lv := pageListOf (x.dreg dpv)
    let two := lk.locus == 0 && lv.locus == 0 && lk.seqBase != lv.seqBase
    let seqOk (l : PageList) : Bool :=
      l.locus != 0 || (s.checkRange (.job x.job) l.seqBase 64).isSome || !s.seqBad l
    lowestOf [owner,
      if !windowValid (x.dreg dw) || !s.pageListValid (x.dreg dpk) || !s.pageListValid (x.dreg dpv) || two
        || (w.tree && lk.locus != 0) then some Codes.isaDescInvalid else none,
      if seqOk lk && seqOk lv then none else some Codes.seqRecord,
      if s.seqConflict t c (bindSeq (x.dreg dpk) (x.dreg dpv)) then some Codes.seqConflict else none]

/-- ABIND (R62, R173, R183, R184, R194, R195); L is TAIL as read now (R176). -/
def abindEff (t : Tile) (rope : Bool) (c : Nat) (dw dpk dpv : BitVec 6) (s : State) : Eff :=
  let x := s.tile t
  match abindFault s t c dw dpk dpv with
  | some e => .fault e
  | none =>
    match bindSeq (x.dreg dpk) (x.dreg dpv) with
    | none =>
      .done ((s.takeHold t c none).modTile t (fun y =>
        { y with ctx := y.ctx.splice c (c + 1) [(c, ⟨x.dreg dw, x.dreg dpk, x.dreg dpv, rope, 0⟩)] }))
    | some b =>
      match s.checkAccesses (.job x.job) [(b, 64)] with
      | some e => .done (s.attError t e)
      | none =>
        match s.absentPages b 64 with
        | p :: ps => .stall (s.waitOn x.job reqTile t (p :: ps))
        | [] =>
          .done ((s.takeHold t c (some b)).modTile t (fun y =>
            { y with ctx := y.ctx.splice c (c + 1) [(c, ⟨x.dreg dw, x.dreg dpk, x.dreg dpv, rope, s.seqTail b⟩)] }))

def execAbind (t : Tile) (g : Guard) (rope : Bool) (ctx : BitVec 2) (dw dpk dpv : BitVec 6) (s : State) :
    Host.Outcome State Fault Refusal :=
  .next (attIssue t g (slotOf (.abind t g rope ctx dw dpk dpv)) ctx.toNat (abindEff t rope ctx.toNat dw dpk dpv) s)

/-! Coordinates and masks. -/

/-- Coordinates of a video token (R174). -/
structure Coord where
  t : Nat
  h : Nat
  w : Nat
  deriving DecidableEq, Repr

def Window.coord (d : Window) (v : Nat) : Coord :=
  let f := d.h * d.w
  let o := v % f
  if d.order then
    let a := o / (d.ltH * d.w)
    let o1 := o - a * (d.ltH * d.w)
    let th := min d.ltH (d.h - a * d.ltH)
    let b := o1 / (th * d.ltW)
    let o2 := o1 - b * (th * d.ltW)
    let tw := min d.ltW (d.w - b * d.ltW)
    ⟨v / f, a * d.ltH + o2 / tw, b * d.ltW + o2 % tw⟩
  else ⟨v / f, o / d.w, o % d.w⟩

/-- Window rule between a query and a video key (R175), the tree rule apart. -/
def Window.windowPair (d : Window) (q k : Coord) : Bool :=
  (d.back == 0xFFFF || decide (q.t ≤ k.t + d.back)) && (d.fwd == 0xFFFF || decide (k.t ≤ q.t + d.fwd))
    && (match d.causal with
        | 1 => decide (k.t ≤ q.t)
        | 2 => decide (k.t / d.chunk ≤ q.t / d.chunk)
        | _ => true)
    && (d.swinH == 0 || q.h / d.swinH == k.h / d.swinH) && (d.swinW == 0 || q.w / d.swinW == k.w / d.swinW)

/-- A candidate tree (R176): parents, none for the root, and tokens. -/
structure CandTree where
  parents : List (Option Nat)
  tokens  : List Nat
  deriving DecidableEq, Repr

def CandTree.n (c : CandTree) : Nat := c.parents.length

/-- Reads a tree from its sixteen words; none when it breaks R176. -/
def candTree (ws : List Nat) : Option CandTree :=
  let w (i : Nat) : Nat := ws.getD i 0
  let n := w 0 % 16
  let par (i : Nat) : Nat := w 1 / 16 ^ i % 16
  if decide (1 ≤ n ∧ n ≤ 8) && w 0 / 16 == 0 && w 1 / 16 ^ n == 0
      && (List.range n).all (fun i => par i == 15 || decide (par i < i))
      && (List.range 16).all (fun i => decide (i < 2 + n) || w i == 0) then
    some ⟨(List.range n).map (fun i => if par i = 15 then none else some (par i)),
      (List.range n).map (fun i => w (2 + i))⟩
  else none

/-- Node `j` is node `i` or one of its ancestors; parents lie below their nodes. -/
def CandTree.above (c : CandTree) : Nat → Nat → Nat → Bool
  | 0, _, _ => false
  | fuel + 1, i, j =>
    i == j || (match c.parents.getD i none with
      | some p => c.above fuel p j
      | none => false)

/-- Sixteen words of a tree in the scratchpad. -/
def State.treeWords (s : State) (t addr : Nat) : List Nat := elemsOf 4 16 (s.peek t 0 addr 64)

/-- What masks are formed from: the window, the tree when it applies, and L. -/
structure MaskRule where
  win  : Window
  tree : Option CandTree
  len  : Nat
  deriving DecidableEq, Repr

/-- The tree rule (R177) for a query position and a key position. -/
def MaskRule.treePair (m : MaskRule) (qp kp : Nat) : Bool :=
  match m.tree with
  | none => true
  | some c =>
    if kp < m.len then true
    else if c.n ≤ kp - m.len then false
    else if m.len ≤ qp ∧ qp - m.len < c.n then c.above 8 (qp - m.len) (kp - m.len)
    else true

/-- A query index and a key position form an unmasked pair (R165, R175, R177). -/
def MaskRule.pair (m : MaskRule) (q k : Nat) : Bool :=
  decide (k < m.win.globals)
    || (m.win.windowPair (m.win.coord q) (m.win.coord (k - m.win.globals)) && m.treePair (m.win.globals + q) k)

/-! Rotary position (R178). -/

/-- Position that drives pair `j`; none when the pair is not rotated. -/
def Window.ropePos (d : Window) (c : Coord) (j : Nat) : Option Nat :=
  if j < d.ropeT then some c.t
  else if j < d.ropeT + d.ropeH then some c.h
  else if j < d.ropeT + d.ropeH + d.ropeW then some c.w
  else none

/-- Cosine and sine of pair `j` at a position. -/
def ropeAngle (freq : List Nat) (pos j : Nat) : FV × FV :=
  let th := to32 ((FV.ofInt pos).mul (val32 (BitVec.ofNat 32 (freq.getD j 0))))
  (val32 (sfuCos false th), val32 (sfuSin false th))

/-- Rotates a row of 128 values and rounds it into its format. -/
def Window.rotate (d : Window) (freq : List Nat) (fmt : Nat) (c : Coord) (xs : List FV) : List FV :=
  let nthv (i : Nat) : FV := xs.getD i (.fin false 0 0)
  (List.range 64).flatMap (fun j =>
    let x0 := nthv (2 * j)
    let x1 := nthv (2 * j + 1)
    match d.ropePos c j with
    | none => [x0, x1]
    | some p =>
      let a := ropeAngle freq p j
      let out (v : FV) : FV := decodeElem fmt (encodeElem fmt .rne (val32 (to32 v))) 127
      [out ((x0.mul a.1).sub (x1.mul a.2)), out ((x0.mul a.2).add (x1.mul a.1))])

def State.ropeFreq (s : State) (t : Nat) (w : Window) : List Nat := elemsOf 4 64 (s.peek t 0 w.freq 256)

/-! One pass over the key blocks of an instruction. -/

/-- Operands of AFWD and ABWD as read at issue (R164). -/
structure AttOps where
  q0    : Nat
  row0  : Nat
  head  : Nat
  key0  : Nat
  keys  : Nat
  rows  : Nat
  deriving DecidableEq, Repr

def attOps (dq : Tensor) (sq skr : W64) : AttOps :=
  let row0 := bitsOf sq.toNat 55 32
  { q0 := bitsOf sq.toNat 31 0, row0 := row0, head := bitsOf sq.toNat 63 56, key0 := off0 skr, keys := off1 skr,
    rows := min 128 (dq.e1 - row0) }

/-- One key block: its keys, and whether it is issued (R167, R168). -/
structure KeyBlock where
  first : Nat
  count : Nat
  issued : Bool
  deriving DecidableEq, Repr

/-- Positions of a block that lie in the key range. -/
def KeyBlock.keys (b : KeyBlock) : List Nat := (List.range b.count).map (· + b.first)

def keyBlocks (m : MaskRule) (o : AttOps) : List KeyBlock :=
  (List.range (ceilDiv o.keys 512)).map (fun j =>
    let first := o.key0 + 512 * j
    let count := min 512 (o.keys - 512 * j)
    ⟨first, count, (List.range o.rows).any (fun r =>
      (List.range count).any (fun i => m.pair (o.q0 + r) (first + i)))⟩)

/-- Values of a list at the keys of a block: the first error, or 512 rows, rows past the range +0 (R165, R185). -/
def State.blockVals (s : State) (t : Nat) (l : PageList) (head : Nat) (b : KeyBlock) : Except AccErr (List (List FV)) :=
  match sequenceA (b.keys.map (fun k => s.posVals t l head k)) with
  | .error e => .error e
  | .ok xs => .ok (xs ++ List.replicate (512 - b.count) (List.replicate 128 (.fin false 0 0)))

/-- Bytes of the unified range that the blocks read from a list. -/
def State.blockAccesses (s : State) (l : PageList) (head : Nat) (b : KeyBlock) : List (Nat × Nat) :=
  b.keys.filterMap (fun k =>
    match s.posAddr l head k with
    | .ok (1, a) => some (a, 128 * l.elemBytes)
    | _ => none)

/-- Groups of 128 head dimensions or of 512 keys counted from the first (R115): 32 elements of FP8, 4 of BF16. -/
def attGroups (fmt n : Nat) : List (List Nat) := chunk (groupRun fmt) (n + 1) (List.range n)

/-- Dot product over 128 dimensions from +0 (R166). -/
def dot128 (fmt : Nat) (a b : List FV) : W32 := accumGroups (nth a) (nth b) 0 (attGroups fmt 128)

/-- Scores of a query row against 512 key rows (R166). -/
def scoreRow (m : MaskRule) (o : AttOps) (fmt : Nat) (b : KeyBlock) (ks : List (List FV)) (r : Nat) (q : List FV) :
    List W32 :=
  ((ks.zipIdx).map (fun p =>
    if decide (p.2 < b.count) && m.pair (o.q0 + r) (b.first + p.2) then
      to32 ((val32 (dot128 fmt q p.1)).mul (val32 m.win.scale))
    else 0xFE800000#32))

/-- A quartered product of one row with K = 512, added to a row of 128 words (R58, R170). -/
def pvRow (fmt : Nat) (p : List FV) (cols : List (List FV)) (old : List W32) : List W32 :=
  let gs (j : Nat) : List (List Nat) := (attGroups fmt 128).map (fun g => g.map (· + 128 * j))
  (cols.zipIdx).map (fun c =>
    let e (j : Nat) : W32 := accumGroups (nth p) (nth c.1) 0 (gs j)
    combine (old.getD c.2 0) (e 0) (e 1) (e 2) (e 3))

/-- Columns of a list of rows of 128 values. -/
def columns128 (rows : List (List FV)) : List (List FV) :=
  (List.range 128).map (fun d => rows.map (fun r => nth r d))

/-- A row's running statistics and its O (R169). -/
structure AttRow where
  m : W32
  l : W32
  o : List W32
  deriving DecidableEq, Repr

/-- The mask value (R155). -/
def maskVal : W32 := 0xFE800000#32

/-- v <= -2^126; a NaN is not (R155). -/
def masked32 (v : W32) : Bool := !isNaN32 v && decide (FV.cmp (val32 v) (val32 maskVal) ≤ 0)

/-- One issued pair for one row (R170). -/
def afwdRow (pfmt vfmt : Nat) (vcols : List (List FV)) (scores : List W32) (x : AttRow) : AttRow :=
  let mb := scores.foldl fmax32 negInf32
  let mn := fmax32 x.m mb
  if masked32 mn then { x with m := maskVal }
  else
    let corr := sfuExp false (fsub x.m mn)
    let p := scores.map (fun v => sfuExp false (fsub v mn))
    let pr := p.map (fun v => decodeElem pfmt (encodeElem pfmt .rne (val32 v)) 127)
    { m := mn, l := ffma x.l corr (tree512 fadd p), o := pvRow vfmt pr vcols (x.o.map (fun w => fmul w corr)) }

/-- Scratchpad address of the statistics of row `r` of quartered tile `a` (R169). -/
def statAddr (a r : Nat) : Nat := 0x17F1000 + 1024 * a + 8 * r

def State.attRow (s : State) (t a : Nat) (acc : AccTile) (r : Nat) : AttRow :=
  let b := s.peek t 0 (statAddr a r) 8
  { m := BitVec.ofNat 32 (leNat (b.take 4)), l := BitVec.ofNat 32 (leNat (b.drop 4)), o := (s.tile t).accRow acc r }

def State.putAttRow (s : State) (t a : Nat) (acc : AccTile) (r : Nat) (x : AttRow) : State :=
  (s.poke t 0 (statAddr a r) (natLe 4 x.m.toNat ++ natLe 4 x.l.toNat)).modTile t (fun y => y.setAccRow acc r x.o)

/-- MOD[0] = 1: statistics and O of every row start afresh (R169). -/
def State.attStart (s : State) (t a : Nat) (acc : AccTile) : State :=
  ((List.range 128).foldl (fun s r => s.putAttRow t a acc r ⟨maskVal, 0, List.replicate 128 0⟩) s).modTile t
    (fun x => x.setAccState acc .plain)

/-- Row of a rank 2 operand, as values for the job. -/
def State.attOperand (s : State) (j t : Nat) (d : Tensor) (r n : Nat) : Except Code (List FV) :=
  s.runValsFor j t d ⟨r, 0, 0, 0⟩ 0 n

/-- Bytes of the unified range of an operand's rows. -/
def attAccess (d : Tensor) (row0 rows n : Nat) : List (Nat × Nat) :=
  if d.space = 1 then (List.range rows).flatMap (fun r => d.runAccess ⟨row0 + r, 0, 0, 0⟩ 0 n) else []

/-- Class of an attention format: FP8 or BF16 (R162). -/
def attFp8 (fmt : Nat) : Bool := fmt == 3 || fmt == 4

/-- The rows of Q, rotated when the binding asks (R178). -/
def State.queryRows (s : State) (j t : Nat) (b : Binding) (dq : Tensor) (o : AttOps) : Except Code (List (List FV)) :=
  let w := windowOf b.win
  let freq := s.ropeFreq t w
  sequenceE ((List.range o.rows).map (fun r =>
    match s.attOperand j t dq (o.row0 + r) 128 with
    | .error c => .error c
    | .ok xs => .ok (if b.rope then w.rotate freq dq.fmt (w.coord (o.q0 + r)) xs else xs)))

/-- The rows of K of a block, video keys rotated when the binding asks (R178). -/
def State.keyRows (s : State) (t : Nat) (b : Binding) (o : AttOps) (k : KeyBlock) : Except AccErr (List (List FV)) :=
  let w := windowOf b.win
  let l := pageListOf b.kl
  let freq := s.ropeFreq t w
  match s.blockVals t l o.head k with
  | .error e => .error e
  | .ok rows =>
    .ok ((rows.zipIdx).map (fun p =>
      let pos := k.first + p.2
      if b.rope && decide (p.2 < k.count) && decide (w.globals ≤ pos) then
        w.rotate freq l.fmt (w.coord (pos - w.globals)) p.1
      else p.1))

/-- The mask rule of a binding; none when its tree is broken (R176). -/
def State.maskRule (s : State) (t : Nat) (b : Binding) : Option MaskRule :=
  let w := windowOf b.win
  if w.tree then
    match candTree (s.treeWords t w.treeAddr) with
    | some c => some ⟨w, some c, b.len⟩
    | none => none
  else some ⟨w, none, b.len⟩

/-- Counts pairs and array cycles of an attention instruction (R163, R207). -/
def attCount (blocks : List KeyBlock) (start perPair final : Nat) (x : TileSt) : TileSt :=
  let issued := (blocks.filter (·.issued)).length
  let skipped := blocks.length - issued
  let cyc := start + issued * perPair + skipped * 8 + (if blocks.isEmpty then 0 else 64) + final
  { x with busy := (x.busy + cyc) % 2 ^ 64,
           regs := { x.regs with pairsIssued := satAdd (2 ^ 64 - 1) x.regs.pairsIssued issued,
                                 pairsSkipped := satAdd (2 ^ 64 - 1) x.regs.pairsSkipped skipped } }

/-- What both instructions read before they compute: window checks and waits of the operands and the lists. -/
def attReads (s : State) (b : Binding) (o : AttOps) (blocks : List KeyBlock) (ops : List (Nat × Nat)) :
    List (Nat × Nat) × List (Nat × Nat) :=
  let live := blocks.filter (·.issued)
  let lists := live.flatMap (fun k =>
    s.blockAccesses (pageListOf b.kl) o.head k ++ s.blockAccesses (pageListOf b.vl) o.head k)
  let recs := ([b.kl, b.vl].filter pagedList).map (fun d => ((pageListOf d).seqBase, 64))
  (ops, (if live.isEmpty then [] else recs) ++ lists)

/-- A failed attention instruction: the accumulator tile may be partly updated (R206), a free value. -/
def State.attFail (s : State) (t : Nat) (acc : AccTile) (e : AccErr) : State := (s.freeAcc t acc).attError t e

/-! AFWD. -/

def attFaultCommon (s : State) (t : Tile) (c : Nat) (o : AttOps) (acc : BitVec 5) (limit : Nat) : List (Bool × Code) :=
  let x := s.tile t
  let b := x.binding c
  let heads := match b with
    | some y => (pageListOf y.kl).heads
    | none => 64
  let treeBad := match b with
    | some y => (s.maskRule t y).isNone
    | none => false
  let paired := match accTile true acc.toNat with
    | some a => x.accState a == some .paired
    | none => false
  ctxFaults s t c ++
    [(decide (limit < o.keys ∨ o.rows = 0 ∨ heads ≤ o.head) || treeBad, Codes.isaFieldRange),
     ((accTile true acc.toNat).isNone, Codes.isaAccRange), (paired, Codes.isaFormat)]

def afwdFault (s : State) (t : Tile) (start fin : Bool) (c : Nat) (dq dout dl : BitVec 6) (sq skr acc : BitVec 5) :
    Option Code :=
  let x := s.tile t
  match lowestOf ([nameFault 0x10 (x.dreg dq)] ++
      (if fin then [nameFault 0x10 (x.dreg dout), nameFault 0x10 (x.dreg dl)] else [])) with
  | some e => lowestOf [some e, lowest (ctxFaults s t c)]
  | none =>
    let q := tensorOf (x.dreg dq)
    let d := tensorOf (x.dreg dout)
    let l := tensorOf (x.dreg dl)
    let o := attOps q (x.sreg sq) (x.sreg skr)
    let fmts := match x.binding c with
      | some b =>
        let k := (pageListOf b.kl).fmt
        let v := (pageListOf b.vl).fmt
        attFp8 q.fmt == attFp8 k && attFp8 q.fmt == attFp8 v
          && (windowOf b.win).pfmt == (if attFp8 q.fmt then 3 else 1)
      | none => true
    lowest ((attFaultCommon s t c o acc 32768).map (fun p =>
        if p.2 == Codes.isaFormat then (p.1 && !start, p.2) else p) ++
      [(!(q.fmt == 1 || attFp8 q.fmt) || !fmts || (fin && (decide (4 < d.fmt) || l.fmt != 0)), Codes.isaFormat),
       (q.e0 != 128 || (fin && (d.e0 != 128 || decide (l.e0 < 1))), Codes.isaDescInvalid),
       (!q.aligned || (fin && (!d.aligned || !l.aligned)), Codes.isaMisalign)])

/-- All issued pairs of a row in ascending order (R168, R170). -/
def afwdRows (m : MaskRule) (o : AttOps) (qfmt pfmt vfmt : Nat)
    (blocks : List (KeyBlock × List (List FV) × List (List FV))) (r : Nat) (q : List FV) (x : AttRow) : AttRow :=
  blocks.foldl (fun x b => afwdRow pfmt vfmt b.2.2 (scoreRow m o qfmt b.1 b.2.1 r q) x) x

/-- Finalisation of a row (R171): O normalised and the log-sum-exp. -/
def afwdFinal (x : AttRow) : AttRow × W32 :=
  if x.m = maskVal then ({ x with o := List.replicate 128 0 }, maskVal)
  else ({ x with o := x.o.map (fun w => fdiv w x.l) },
        fadd x.m (fmul (sfuLog2 false x.l) 0x3F317218#32))

/-- K rows and V columns of the issued blocks. -/
def State.attBlocks (s : State) (t : Nat) (b : Binding) (o : AttOps) (blocks : List KeyBlock) :
    Except AccErr (List (KeyBlock × List (List FV) × List (List FV))) :=
  sequenceA ((blocks.filter (·.issued)).map (fun k =>
    match s.keyRows t b o k with
    | .error e => .error e
    | .ok ks =>
      match s.blockVals t (pageListOf b.vl) o.head k with
      | .error e => .error e
      | .ok vs => .ok (k, ks, columns128 vs)))

/-- Writes the finished rows of O and the log-sum-exp (R171). -/
def State.afwdOut (s : State) (j t a : Nat) (acc : AccTile) (d l : Tensor) (o : AttOps) : Except Code State :=
  (List.range o.rows).foldl (fun r i =>
    match r with
    | .error c => .error c
    | .ok s =>
      let f := afwdFinal (s.attRow t a acc i)
      let s := s.putAttRow t a acc i f.1
      match s.putRunFor j t d ⟨false, 0⟩ 0 ⟨o.row0 + i, 0, 0, 0⟩ 0 (f.1.o.map val32) with
      | .error c => .error c
      | .ok p =>
        match p.1.putRunFor j t l ⟨false, 0⟩ 0 ⟨o.row0 + i, 0, 0, 0⟩ 0 [val32 f.2] with
        | .error c => .error c
        | .ok p => .ok p.1) (.ok s)

/-- The accumulator tile after an attention instruction that writes it: plain, and not replayable (R119, R127). -/
def attNote (acc : AccTile) (x : TileSt) : TileSt :=
  (match x.accState acc with
    | some .empty => x.setAccState acc .plain
    | _ => x).modHist true acc (fun h => { h with bad := true })

/-- AFWD on checked operands. -/
def afwdRun (t : Tile) (start fin : Bool) (b : Binding) (m : MaskRule) (q d l : Tensor) (o : AttOps) (a : Nat)
    (acc : AccTile) (s : State) : Eff :=
  let j := (s.tile t).job
  let blocks := keyBlocks m o
  let fp8 := attFp8 q.fmt
  let rd := attReads s b o blocks (attAccess q o.row0 o.rows 128
    ++ (if fin then attAccess d o.row0 o.rows 128 ++ attAccess l o.row0 o.rows 1 else []))
  match s.checkAccesses (.job j) (rd.1 ++ rd.2) with
  | some e => .done (s.attFail t acc e)
  | none =>
    match s.tileAbsent j (rd.1 ++ rd.2) with
    | p :: ps => .stall (s.waitOn j reqTile t (p :: ps))
    | [] =>
      match s.queryRows j t b q o, s.attBlocks t b o blocks with
      | .error c, _ => .done (s.attFail t acc ⟨c, s.memData q.base⟩)
      | .ok _, .error e => .done (s.attFail t acc e)
      | .ok qs, .ok kvs =>
        let s1 := if start then s.attStart t a acc else s
        let s2 := (qs.zipIdx).foldl (fun s p =>
          if kvs.isEmpty then s
          else s.putAttRow t a acc p.2 (afwdRows m o q.fmt m.win.pfmt (pageListOf b.vl).fmt kvs p.2 p.1
            (s.attRow t a acc p.2))) s1
        let note (x : TileSt) : TileSt := attCount blocks 48 (if fp8 then 256 else 512) (if fin then 48 else 0)
          (if start || fin || !kvs.isEmpty then attNote acc x else x)
        if fin then
          match s2.afwdOut j t a acc d l o with
          | .error c => .done (s.attFail t acc ⟨c, s.memData d.base⟩)
          | .ok s3 => onTile t note s3
        else onTile t note s2

def afwdEff (t : Tile) (start fin : Bool) (c : Nat) (dq dout dl : BitVec 6) (sq skr acc : BitVec 5) (s : State) :
    Eff :=
  let x := s.tile t
  match afwdFault s t start fin c dq dout dl sq skr acc, x.binding c, accTile true acc.toNat with
  | some e, _, _ => .fault e
  | none, some b, some at_ =>
    match s.maskRule t b with
    | none => .fault Codes.isaFieldRange
    | some m =>
      let q := tensorOf (x.dreg dq)
      afwdRun t start fin b m q (tensorOf (x.dreg dout)) (tensorOf (x.dreg dl)) (attOps q (x.sreg sq) (x.sreg skr))
        acc.toNat at_ s
  | none, none, _ => .fault Codes.isaCtxUnbound
  | none, some _, none => .fault Codes.isaAccRange

def execAfwd (t : Tile) (g : Guard) (start fin : Bool) (ctx : BitVec 2) (dq dout dl : BitVec 6)
    (sq skr acc : BitVec 5) (s : State) : Host.Outcome State Fault Refusal :=
  .next (attIssue t g (slotOf (.afwd t g start fin ctx dq dout dl sq skr acc)) ctx.toNat
    (afwdEff t start fin ctx.toNat dq dout dl sq skr acc) s)

/-! ABWD. -/

def abwdFault (s : State) (t : Tile) (c : Nat) (dq dg dl : BitVec 6) (sq skr acc : BitVec 5) (dkv : BitVec 6) :
    Option Code :=
  let x := s.tile t
  match lowestOf [nameFault 0x10 (x.dreg dq), nameFault 0x10 (x.dreg dg), nameFault 0x10 (x.dreg dl),
      nameFault 0x10 (x.dreg dkv)] with
  | some e => lowestOf [some e, lowest (ctxFaults s t c)]
  | none =>
    let q := tensorOf (x.dreg dq)
    let d := tensorOf (x.dreg dg)
    let l := tensorOf (x.dreg dl)
    let kv := tensorOf (x.dreg dkv)
    let o := attOps q (x.sreg sq) (x.sreg skr)
    let fmts := match x.binding c with
      | some b => (pageListOf b.kl).fmt == 1 && (pageListOf b.vl).fmt == 1
      | none => true
    lowest (attFaultCommon s t c o acc 8192 ++
      [(q.fmt != 1 || d.fmt != 1 || l.fmt != 0 || kv.fmt != 0 || kv.space != 0 || !fmts, Codes.isaFormat),
       (q.e0 != 128 || d.e0 != 128 || decide (l.e0 < 2) || kv.rank != 3 || kv.e0 != 128 || decide (kv.e1 < o.keys)
          || kv.e2 != 2, Codes.isaDescInvalid),
       (!q.aligned || !d.aligned || !l.aligned || !kv.aligned, Codes.isaMisalign)])

def bf16 (w : W32) : FV := decodeElem 1 (encodeElem 1 .rne (val32 w)) 127

/-- P and dS of one row of a pair (R180). -/
def abwdRow (m : MaskRule) (o : AttOps) (k : KeyBlock) (ks vs : List (List FV)) (r : Nat) (q g : List FV)
    (lse delta : W32) : List FV × List FV :=
  let scores := scoreRow m o 1 k ks r q
  let cells := ((scores.zip vs).zipIdx).map (fun c =>
    let live := lse != maskVal && decide (c.2 < k.count) && m.pair (o.q0 + r) (k.first + c.2)
    let p : W32 := if live then sfuExp false (fsub c.1.1 lse) else 0
    let dp := dot128 1 g c.1.2
    let ds : W32 := if lse = maskVal then 0
      else fmul (fmul p (fsub dp delta)) m.win.scale
    (bf16 p, bf16 ds))
  (cells.map Prod.fst, cells.map Prod.snd)

/-- Sum over the rows of a block, from +0, in ascending row (R180). -/
def rowSum (rows : Nat) (w x : Nat → FV) : W32 := accumGroups w x 0 (attGroups 1 rows)

/-- Adds the gradients of one key to planes 0 and 1 of DKV. -/
def State.addKv (s : State) (t : Nat) (kv : Tensor) (i : Nat) (dk dv : List W32) : State :=
  let add (s : State) (plane : Nat) (ws : List W32) : State :=
    let a := kv.rowAddr ⟨i, plane, 0, 0⟩
    let old := wordsOf (s.peek t 0 a 512)
    s.poke t 0 a ((old.zip ws).flatMap (fun p => natLe 4 (fadd p.1 p.2).toNat))
  add (add s 0 dk) 1 dv

/-- One issued pair of ABWD. -/
def State.abwdPair (s : State) (t : Nat) (m : MaskRule) (o : AttOps) (acc : AccTile) (kv : Tensor)
    (rows : List (List FV × List FV × W32 × W32)) (b : KeyBlock × List (List FV) × List (List FV)) : State :=
  let ps := (rows.zipIdx).map (fun r => abwdRow m o b.1 b.2.1 b.2.2 r.2 r.1.1 r.1.2.1 r.1.2.2.1 r.1.2.2.2)
  let kcols := columns128 b.2.1
  let s1 := (ps.zipIdx).foldl (fun s p =>
    s.modTile t (fun x => x.setAccRow acc p.2 (pvRow 1 p.1.2 kcols (x.accRow acc p.2)))) s
  (List.range b.1.count).foldl (fun s i =>
    let at_ (f : List FV × List FV → List FV) (r : Nat) : FV := nth (f (ps.getD r ([], []))) i
    let row (f : List FV × List FV × W32 × W32 → List FV) (d r : Nat) : FV :=
      nth (f (rows.getD r ([], [], 0, 0))) d
    s.addKv t kv (b.1.first - o.key0 + i)
      ((List.range 128).map (fun d => rowSum rows.length (at_ Prod.snd) (row Prod.fst d)))
      ((List.range 128).map (fun d => rowSum rows.length (at_ Prod.fst) (row (fun r => r.2.1) d)))) s1

/-- dO, log-sum-exp and delta of the rows of a block. -/
def State.gradRows (s : State) (j t : Nat) (d l : Tensor) (o : AttOps) (qs : List (List FV)) :
    Except Code (List (List FV × List FV × W32 × W32)) :=
  sequenceE ((qs.zipIdx).map (fun p =>
    match s.attOperand j t d (o.row0 + p.2) 128, s.attOperand j t l (o.row0 + p.2) 2 with
    | .ok g, .ok ld => .ok (p.1, g, to32 (nth ld 0), to32 (nth ld 1))
    | .error c, _ => .error c
    | .ok _, .error c => .error c))

/-- ABWD on checked operands. -/
def abwdRun (t : Tile) (b : Binding) (m : MaskRule) (q d l kv : Tensor) (o : AttOps) (acc : AccTile) (s : State) :
    Eff :=
  let j := (s.tile t).job
  let blocks := keyBlocks m o
  let rd := attReads s b o blocks
    (attAccess q o.row0 o.rows 128 ++ attAccess d o.row0 o.rows 128 ++ attAccess l o.row0 o.rows 2)
  match s.checkAccesses (.job j) (rd.1 ++ rd.2) with
  | some e => .done (s.attFail t acc e)
  | none =>
    match s.tileAbsent j (rd.1 ++ rd.2) with
    | p :: ps => .stall (s.waitOn j reqTile t (p :: ps))
    | [] =>
      match s.queryRows j t b q o with
      | .error c => .done (s.attFail t acc ⟨c, s.memData q.base⟩)
      | .ok qs =>
        match s.gradRows j t d l o qs, sequenceA ((blocks.filter (·.issued)).map (fun k =>
            match s.keyRows t b o k, s.blockVals t (pageListOf b.vl) o.head k with
            | .ok ks, .ok vs => .ok (k, ks, vs)
            | .error e, _ => .error e
            | .ok _, .error e => .error e)) with
        | .error c, _ => .done (s.attFail t acc ⟨c, s.memData d.base⟩)
        | .ok _, .error e => .done (s.attFail t acc e)
        | .ok rows, .ok kvs =>
          onTile t (fun x => attCount blocks 64 1280 0 (if kvs.isEmpty then x else attNote acc x))
            (kvs.foldl (fun s k => s.abwdPair t m o acc kv rows k) s)

def abwdEff (t : Tile) (c : Nat) (dq dg dl : BitVec 6) (sq skr acc : BitVec 5) (dkv : BitVec 6) (s : State) : Eff :=
  let x := s.tile t
  match abwdFault s t c dq dg dl sq skr acc dkv, x.binding c, accTile true acc.toNat with
  | some e, _, _ => .fault e
  | none, some b, some at_ =>
    match s.maskRule t b with
    | none => .fault Codes.isaFieldRange
    | some m =>
      let q := tensorOf (x.dreg dq)
      abwdRun t b m q (tensorOf (x.dreg dg)) (tensorOf (x.dreg dl)) (tensorOf (x.dreg dkv))
        (attOps q (x.sreg sq) (x.sreg skr)) at_ s
  | none, none, _ => .fault Codes.isaCtxUnbound
  | none, some _, none => .fault Codes.isaAccRange

def execAbwd (t : Tile) (g : Guard) (ctx : BitVec 2) (dq dg dl : BitVec 6) (sq skr acc : BitVec 5) (dkv : BitVec 6)
    (s : State) : Host.Outcome State Fault Refusal :=
  .next (attIssue t g (slotOf (.abwd t g ctx dq dg dl sq skr acc dkv)) ctx.toNat
    (abwdEff t ctx.toNat dq dg dl sq skr acc dkv) s)

end Sys2Proof.Machine
end

