-- ==== Sys2Proof/Machine/Loader.lean ====
section
/-!
DEFINITION. Machine/Loader.lean: the loader's checks of a hand image and of its plan record (R29, R31, R32, R45, R55, R91 to
R95).
-/

namespace Sys2Proof.Machine

/-! Encodings (Tables 9, 11, 13, 15, 18, 20, 22, 24 of 02). -/

/-- What the tables assign to an instruction: its MOD bits, the operand fields that it uses under its MOD setting, and
the low bits of the fields that name descriptor registers. -/
structure OpFields where
  mods   : Nat
  fields : List (Nat × Nat)
  descs  : List Nat
  deriving DecidableEq, Repr

def fieldsClass0 (op mod : Nat) : Option OpFields :=
  let imm := mod % 2 == 1
  match op with
  | 0x00 => some ⟨0, [], []⟩
  | 0x01 => some ⟨0, [], []⟩
  | 0x02 => some ⟨0, [(111, 100)], []⟩
  | 0x03 => some ⟨0, [(111, 107)], []⟩
  | 0x04 => some ⟨1, [(111, 100), if imm then (63, 32) else (99, 95)], []⟩
  | 0x05 => some ⟨1, [(111, 108), if imm then (63, 32) else (107, 103)], []⟩
  | 0x06 => some ⟨0, [(111, 108), (107, 101), (100, 85)], []⟩
  | 0x07 => some ⟨0, [(111, 108)], []⟩
  | 0x08 => some ⟨3, [], []⟩
  | 0x09 => some ⟨0, [(111, 96)], []⟩
  | _ => none

def fieldsClass1 (op mod : Nat) : Option OpFields :=
  let op2 := if mod % 2 = 1 then (63, 0) else (101, 97)
  if op ≤ 0x0C then some ⟨1, [(111, 107), (106, 102), op2], []⟩
  else
    match op with
    | 0x0D => some ⟨15, [(111, 107), (106, 102), op2], []⟩
    | 0x0E => some ⟨0, [(111, 107), (106, 102), (63, 0)], []⟩
    | 0x0F => some ⟨0, [(106, 102), (101, 97), (63, 0)], []⟩
    | 0x10 => some ⟨0, [(111, 107), (106, 102)], []⟩
    | _ => none

def fieldsClass2 (op : Nat) : Option OpFields :=
  match op with
  | 0x00 => some ⟨0, [(111, 106), (105, 101), (63, 0)], [106]⟩
  | 0x01 => some ⟨0, [(111, 106), (105, 101), (100, 95)], [106]⟩
  | 0x02 => some ⟨7, [(111, 106), (105, 100), (99, 95), (94, 90), (89, 86)], [106, 100]⟩
  | 0x03 => some ⟨0, [(111, 106), (105, 100), (99, 95), (94, 90), (89, 86)], [106, 100]⟩
  | 0x04 => some ⟨0, [(111, 106), (105, 100), (99, 94), (93, 89), (88, 85)], [106, 100, 94]⟩
  | _ => none

def fieldsClass3 (op mod : Nat) : Option OpFields :=
  let wide := decide (8 ≤ mod)
  match op with
  | 0x00 => some ⟨15, [(111, 106), (105, 100), (99, 95), (94, 90), (89, 85), (84, 80)] ++ (if wide then [(79, 74)] else []),
                  [106, 100] ++ (if wide then [74] else [])⟩
  | 0x01 => some ⟨1, [(111, 107)], []⟩
  | 0x02 => some ⟨15, [(111, 107), (106, 101), (100, 96)] ++ (if wide then [(95, 90)] else []),
                  [101] ++ (if wide then [90] else [])⟩
  | 0x03 => some ⟨1, [(111, 107), (106, 101), (100, 96)], [101]⟩
  | _ => none

def fieldsClass4 (op mod : Nat) : Option OpFields :=
  match op with
  | 0x00 => some ⟨1, [(111, 110), (109, 104), (103, 98), (97, 92)], [104, 98, 92]⟩
  | 0x01 =>
    let fin := decide (2 ≤ mod % 4)
    some ⟨3, [(111, 110), (109, 104), (91, 87), (86, 82), (81, 77)] ++ (if fin then [(103, 98), (97, 92)] else []),
          [104] ++ (if fin then [98, 92] else [])⟩
  | 0x02 =>
    some ⟨0, [(111, 110), (109, 104), (103, 98), (97, 92), (91, 87), (86, 82), (81, 77), (76, 71)], [104, 98, 92, 71]⟩
  | 0x03 => some ⟨1, [(111, 110), (109, 105), (104, 100), (99, 95), (94, 89)], []⟩
  | 0x04 => some ⟨0, [(111, 110), (109, 104), (103, 98), (97, 93)], [104, 98]⟩
  | _ => none

def fieldsClass5 (op : Nat) : Option OpFields :=
  match op with
  | 0x03 => some ⟨0, [(111, 96)], []⟩
  | 0x06 => some ⟨7, [(107, 104), (103, 100), (95, 93)], []⟩
  | 0x07 => some ⟨0, [(111, 100), (95, 93)], []⟩
  | 0x08 => some ⟨0, [(111, 108), (92, 88), (87, 82)], [82]⟩
  | 0x09 => some ⟨6, [(107, 104), (92, 88), (87, 82)], [82]⟩
  | 0x0A => some ⟨0, [(111, 108), (92, 88)], []⟩
  | 0x0B => some ⟨3, [(107, 104), (92, 88)], []⟩
  | 0x0C => some ⟨0, [(111, 108), (92, 88), (87, 82)], [82]⟩
  | 0x0D => some ⟨6, [(111, 104), (81, 76)], []⟩
  | _ => if op ≤ 0x05 then some ⟨0, [(111, 100)], []⟩ else none

def fieldsClass7 (op : Nat) : Option OpFields :=
  match op with
  | 0x00 => some ⟨0, [(111, 77)], []⟩
  | 0x01 => some ⟨0, [(111, 91)], []⟩
  | 0x02 => some ⟨0, [(111, 99)], []⟩
  | _ => none

/-- Fields of an instruction; none for an unassigned OP. -/
def opFields (cls op mod : Nat) : Option OpFields :=
  match cls with
  | 0 => fieldsClass0 op mod
  | 1 => fieldsClass1 op mod
  | 2 => fieldsClass2 op
  | 3 => fieldsClass3 op mod
  | 4 => fieldsClass4 op mod
  | 5 => fieldsClass5 op
  | 6 => if op ≤ 0x0C then some ⟨1, [(111, 104)], []⟩ else none
  | _ => fieldsClass7 op

def slotCls (w : Nat) : Nat := bitsOf w 127 125
def slotOp (w : Nat) : Nat := bitsOf w 124 120
def slotMod (w : Nat) : Nat := bitsOf w 115 112

/-- Bits of the used fields. -/
def fieldMask (fs : List (Nat × Nat)) : Nat := (fs.map (fun f => (2 ^ (f.1 + 1 - f.2) - 1) * 2 ^ f.2)).sum

/-- An immediate field outside its legal set (R48, R50, R51, R66, R68, R69; MOD values of Tables 13, 15 and 20). -/
def immediateBad (cls op mod w : Nat) : Bool :=
  let round := decide (2 ≤ mod / 2 % 4)
  match cls, op with
  | 0, 0x06 => decide (95 < bitsOf w 107 101) || bitsOf w 100 85 == 0
  | 1, 0x0D => decide (7 < bitsOf w 111 107) || decide (6 ≤ mod / 2)
  | 1, 0x10 => decide (15 < bitsOf w 106 102)
  | 2, 0x01 => decide (15 < bitsOf w 100 95)
  | 2, 0x02 => round
  | 3, 0x02 => round
  | 5, 0x06 => decide (5 < mod % 8)
  | 5, 0x09 => round
  | 5, 0x0B => mod % 4 == 3
  | 5, 0x0C => bitsOf w 108 108 == 1
  | 5, 0x0D => round || (fmtEnc (bitsOf w 81 76)).isNone
  | 7, 0x00 => decide (64 < bitsOf w 103 97) || (bitsOf w 103 97 != 0 && bitsOf w 96 77 == 0)
  | 7, 0x02 => decide (3 < bitsOf w 106 99)
  | _, _ => false

/-- Low bit of the ACC field of a matrix instruction. -/
def accLow (op : Nat) : Nat := if op = 0 then 95 else 107

/-- The loader's finding on one slot, whatever its guard (R33, R71, Table 25 of 02). -/
def slotFault (count slot w : Nat) : Option Code :=
  let cls := slotCls w
  let op := slotOp w
  let mod := slotMod w
  if 0x18 ≤ op then some Codes.isaGen3Opcode
  else
    match opFields cls op mod with
    | none => some Codes.isaUndefined
    | some f =>
      let used := w % 2 ^ 112 &&& fieldMask f.fields
      let acc := bitsOf w (accLow op + 4) (accLow op)
      lowest
        [(used != w % 2 ^ 112 || (mod &&& f.mods) != mod, Codes.isaReserved),
         (immediateBad cls op mod w, Codes.isaFieldRange),
         ((cls == 0 && op == 2 && !decide (1 ≤ bitsOf w 111 100 ∧ bitsOf w 111 100 ≤ count))
            || (cls == 0 && op == 4 && !decide (slot < bitsOf w 111 100 ∧ bitsOf w 111 100 ≤ count)), Codes.isaPcRange),
         (cls == 3 && decide ((if mod % 2 = 1 then 31 else 7) < acc), Codes.isaAccRange)]

/-- Descriptor registers that a slot names. -/
def slotDescs (w : Nat) : List Nat :=
  match opFields (slotCls w) (slotOp w) (slotMod w) with
  | some f => f.descs.map (fun lo => bitsOf w (lo + 5) lo)
  | none => []

def isDload (w : Nat) : Bool := slotCls w == 2 && slotOp w == 0

/-- Quartered units that the MMA instructions name (R95). -/
def mmaUnits (ws : List Nat) : List Nat :=
  ((ws.filter (fun w => slotCls w == 3 && slotOp w == 0)).flatMap (fun w =>
    let a := bitsOf w 99 95
    if slotMod w % 2 = 1 then [a] else [4 * a, 4 * a + 1, 4 * a + 2, 4 * a + 3])).dedup

/-! Hand header (R28, R29). -/

structure HandHeader where
  hdr    : Nat
  count  : Nat
  descs  : Nat
  rsvd   : Nat
  offset : Nat
  id     : W64
  deriving DecidableEq, Repr

def handHeader (w : Nat) : HandHeader :=
  { hdr := bitsOf w 127 112, count := bitsOf w 111 100, descs := bitsOf w 99 93, rsvd := bitsOf w 92 88,
    offset := bitsOf w 87 64, id := BitVec.ofNat 64 w }

def headerFault (h : HandHeader) : Option Code :=
  lowest
    [(!hdrOk h.hdr 0x30, Codes.isaVersion), (h.rsvd != 0, Codes.isaReserved),
     (h.count == 0 || decide (64 < h.descs) || decide (spadSize < (h.offset + h.descs) * 64), Codes.isaFieldRange)]

/-! Plan record (R91). -/

structure PlanRec where
  hdr      : Nat
  bufCount : Nat
  seCount  : Nat
  outTiles : Nat
  descCount : Nat
  clean    : Bool
  stash    : Nat
  params   : List Nat
  pageList : Nat
  bufs     : List (Nat × Nat)
  sePtr    : Nat
  deriving DecidableEq, Repr

def planOf (bs : List Byte) : PlanRec :=
  let buf (i : Nat) : Nat := fieldLe bs (0x40 + 8 * i) 8
  let n := fieldLe bs 2 1
  let declared := (List.range (min n 16)).map buf
  { hdr := fieldLe bs 0 2, bufCount := n, seCount := fieldLe bs 3 1, outTiles := fieldLe bs 4 1,
    descCount := fieldLe bs 5 1,
    clean := fieldLe bs 6 2 == 0 && fieldLe bs 0x3C 4 == 0 && fieldLe bs 0xC8 56 == 0
      && declared.all (fun w => w / 2 ^ 50 == 0),
    stash := fieldLe bs 8 8, params := (List.range 5).map (fun i => fieldLe bs (0x10 + 8 * i) 8),
    pageList := fieldLe bs 0x38 4, bufs := declared.map (fun w => (bitsOf w 24 0, bitsOf w 49 25)),
    sePtr := fieldLe bs 0xC0 8 }

/-- Two declared buffers overlap. -/
def buffersOverlap : List (Nat × Nat) → Bool
  | [] => false
  | (o, n) :: rest => rest.any (fun b => decide (o < b.1 + b.2 ∧ b.1 < o + n)) || buffersOverlap rest

/-! The image (R92). -/

structure Image where
  plan  : List Byte
  slots : List Nat
  descs : List Desc
  /-- Stack-engine commands: their bytes, none where they lie outside the job's windows. -/
  cmds  : List (Option (List Byte))
  deriving DecidableEq, Repr

/-- Codes of a start-table descriptor (R43, R94). -/
def State.startDesc (s : State) (p : PlanRec) (d : Desc) : List (Bool × Code) :=
  match s.descFault d with
  | some c => [(true, c)]
  | none =>
    match descType d with
    | 0x10 =>
      let t := tensorOf d
      let inBuf (lo hi : Nat) : Bool := p.bufs.any (fun b => decide (b.1 ≤ lo ∧ hi ≤ b.1 + b.2))
      let lo := if fmtScaled t.fmt then min t.base t.scaleBase else t.base
      let hi := if fmtScaled t.fmt then max t.regionEnd t.scaleEnd else t.regionEnd
      [(t.space == 1 && !t.aligned, Codes.alignStack), (t.space != 1 && t.base % 64 != 0, Codes.alignScratch),
       (t.space == 0 && !inBuf lo hi, Codes.bufFit)]
    | 0x11 => [(decide ((pageListOf d).entries < p.pageList), Codes.pageListLength)]
    | _ => []

/-- Opcodes that a hand may carry (Table 6 of 09). -/
def seHandOp (op : Nat) : Bool := decide (1 ≤ op ∧ op ≤ 0x0A)

/-- Every loader check of an image (R94 to R96). -/
def State.imageCodes (s : State) (j : Nat) (im : Image) : List (Bool × Code) :=
  let h := handHeader (im.slots.headD 0)
  let p := planOf im.plan
  let body := im.slots.drop 1
  let loaded := (body.filter isDload).map (fun w => bitsOf w 111 106)
  let named := (body.filter (fun w => !isDload w)).flatMap slotDescs
  let limit := match s.job j with
    | some x => x.desc.stashLimit
    | none => 0
  let slotCodes := (body.zipIdx).map (fun q =>
    match slotFault h.count (q.2 + 1) q.1 with
    | some c => (true, c)
    | none => (false, 0))
  let headCode := match headerFault h with
    | some c => (true, c)
    | none => (false, 0)
  [(!hdrOk p.hdr 0x31, Codes.dealVersion), (!p.clean, Codes.dealField),
   (decide (16 < p.bufCount) || p.bufs.any (fun b => b.2 == 0 || decide (spadFree < b.1 + b.2)), Codes.bufFit),
   (p.bufs.any (fun b => b.1 % 64 != 0), Codes.alignScratch), (buffersOverlap p.bufs, Codes.bufOverlap),
   (p.descCount != h.descs || h.offset != 0x5FC00
      || named.any (fun d => decide (h.descs ≤ d) && !loaded.contains d), Codes.descCount),
   (decide (32 < p.outTiles ∨ (mmaUnits body).length < p.outTiles), Codes.accOvercommit),
   (decide (limit < p.stash), Codes.stashBudget), (decide (65536 < p.pageList), Codes.pageListLength),
   (decide (64 < p.seCount) || im.cmds.any (fun c =>
      match c with
      | some bs => !hdrOk (fieldLe bs 0 2) 0x60 || !seHandOp (fieldLe bs 2 1)
      | none => false), Codes.seCount),
   (im.cmds.any Option.isNone, Codes.addrWindow), headCode]
    ++ slotCodes ++ im.descs.flatMap (s.startDesc p)

end Sys2Proof.Machine
end

