-- ==== Sys2Proof/Machine/Serving.lean ====
section
/-!
DEFINITION. Machine/Serving.lean: appends, candidate verification, and the steps of a serving job (R187 to R193, R197 to
R199).
-/

namespace Sys2Proof.Machine

/-! AAPPEND. -/

def aappendFault (s : State) (t : Tile) (isV : Bool) (c : Nat) (acc sn : BitVec 5) (head : BitVec 6) :
    Option Code :=
  let x := s.tile t
  let n := (x.sreg sn).toNat
  let plain := match accTile true acc.toNat with
    | some a => x.accState a == some .plain
    | none => true
  let listBad := match x.binding c with
    | some b => !pagedList (if isV then b.vl else b.kl) || decide ((windowOf b.win).kvHeads ≤ head.toNat)
    | none => false
  lowest (ctxFaults s t c ++
    [(decide (n = 0 ∨ 128 < n) || listBad || !plain, Codes.isaFieldRange),
     ((accTile true acc.toNat).isNone, Codes.isaAccRange)])

/-- AAPPEND issues: its rows are read from the accumulator tile and the request leaves for the stack engine (R187,
R189). -/
def aappendEff (t : Tile) (isV : Bool) (c : Nat) (acc st sn : BitVec 5) (head : BitVec 6) (s : State) : Eff :=
  let x := s.tile t
  match aappendFault s t isV c acc sn head, x.binding c, accTile true acc.toNat with
  | some e, _, _ => .fault e
  | none, some b, some a =>
    let r : AppendRec :=
      { slot := x.pc, ctx := c, list := if isV then b.vl else b.kl, first := (x.sreg st).toNat, head := head.toNat,
        rows := (List.range (x.sreg sn).toNat).map (fun i => x.accRow a i) }
    onTile t (fun y => { y with appends := y.appends ++ [r], busy := (y.busy + 32) % 2 ^ 64 }) s
  | none, none, _ => .fault Codes.isaCtxUnbound
  | none, some _, none => .fault Codes.isaAccRange

def execAappend (t : Tile) (g : Guard) (isV : Bool) (ctx : BitVec 2) (acc st sn : BitVec 5) (head : BitVec 6)
    (s : State) : Host.Outcome State Fault Refusal :=
  .next (attIssue t g (slotOf (.aappend t g isV ctx acc st sn head)) ctx.toNat
    (aappendEff t isV ctx.toNat acc st sn head) s)

/-! The order of a job's sequences (R197). -/

/-- Addresses of a job's sequence records, in the order of its table (R404). -/
def State.seqTable (s : State) (j : Nat) : List Nat :=
  match s.job j with
  | some x => (List.range x.desc.seqCount).map (fun i => s.readLe (x.desc.seqTable + 8 * i) 8)
  | none => []

/-- What the conductor last saw of a record. -/
def JobSt.seqSt (x : JobSt) (rec : Nat) : SeqSt :=
  match x.seqs.find? (fun q => q.record == rec) with
  | some q => q
  | none => ⟨rec, 0, 0, 0⟩

/-- Notes a record's present STATE: the orders of joining and of entering a state follow it. -/
def State.seqNote (s : State) (j rec : Nat) : State :=
  match s.job j with
  | none => s
  | some x =>
    let q := x.seqSt rec
    let now := s.seqState rec
    if q.state = now then s
    else
      let k := s.sched.waitCtr + 1
      let q' : SeqSt := ⟨rec, now, if now = 2 ∧ q.state ≠ 3 then k else q.joined, k⟩
      let s' := s.setJob j (some { x with seqs := q' :: x.seqs.filter (fun y => y.record != rec) })
      { s' with sched := { s'.sched with waitCtr := k } }

def State.seqObserve (s : State) (j : Nat) : State := (s.seqTable j).foldl (fun s r => s.seqNote j r) s

/-- Sets a record's STATE. -/
def State.setSeqState (s : State) (j rec v : Nat) : State := (s.writeLe (rec + 2) 1 v).seqNote j rec

/-- Inserts by a key, equal keys in order. -/
def insertKey {α : Type} (key : α → Nat) (a : α) : List α → List α
  | [] => [a]
  | b :: bs => if key a < key b then a :: b :: bs else b :: insertKey key a bs

/-- Sorts by a key, equal keys in order. -/
def sortKey {α : Type} (key : α → Nat) (xs : List α) : List α := xs.foldl (fun acc a => insertKey key a acc) []

/-- Records in the order of R197: running by joining, paused by pausing, joining by arrival. -/
def State.seqOrder (s : State) (j : Nat) : List Nat :=
  match s.job j with
  | none => []
  | some x =>
    let all := s.seqTable j
    let inState (v : Nat) : List Nat := all.filter (fun r => s.seqState r == v)
    sortKey (fun r => (x.seqSt r).joined) (inState 2) ++ sortKey (fun r => (x.seqSt r).since) (inState 3)
      ++ sortKey (fun r => (x.seqSt r).since) (inState 1)

/-! APPEND_PAGE_WRITE. -/

def TileSt.dropAppend (x : TileSt) (n : Nat) : TileSt := { x with appends := x.appends.eraseIdx n }

/-- An unbacked append (R188): nothing is written, a running sequence is paused, and the code is logged. -/
def State.appendUnbacked (s : State) (t j : Nat) (a : AppendRec) : State :=
  let rec_ := (pageListOf a.list).seqBase
  let s := if s.seqState rec_ = 2 then s.setSeqState j rec_ 3 else s
  let s := s.report Codes.appendUnbacked (tileInfo s t (pageData (s.seqId rec_) a.first))
  s.modTile t (fun x =>
    { x with regs := { x.regs with appendDropped := satAdd (2 ^ 32 - 1) x.regs.appendDropped 1 } })

/-- A covering entry holds no page (R188). -/
def State.entryMissing (s : State) (l : PageList) (head first n : Nat) : Bool :=
  (List.range n).any (fun i =>
    decide ((first + i) / 512 < l.entries)
      && s.readLe (s.pageEntryAddr l.seqBase l.isV.toNat l.layer head ((first + i) / 512)) 4 == 0xFFFFFFFF)

/-- Writes the rows of an append into their slots, each value rounded to the page format (R187). -/
def State.appendRows (s : State) (l : PageList) (head first : Nat) : Nat → List (List W32) → Except AccErr State
  | _, [] => .ok s
  | i, ws :: rest =>
    match s.posAddr l head (first + i) with
    | .error e => .error e
    | .ok p =>
      (s.writeMem p.2 (ws.map (fun w => BitVec.ofNat 8 (encodeElem l.fmt .rne (val32 w))))).appendRows l head first
        (i + 1) rest

/-- Addresses of the slots of an append. -/
def State.appendAccesses (s : State) (l : PageList) (head first n : Nat) : List (Nat × Nat) :=
  (List.range n).filterMap (fun i =>
    match s.posAddr l head (first + i) with
    | .ok p => some (p.2, 128)
    | .error _ => none)

/-- The stack engine serves append `n` of a tile: the checks of R188 in their order, then all rows or none. -/
def appendPageWrite (t : Nat) (n : Nat) (s : State) : State :=
  let x := s.tile t
  match x.appends[n]? with
  | none => s
  | some a =>
    let l := pageListOf a.list
    let sn := a.rows.length
    let fail (e : AccErr) : State :=
      (s.modTile t (fun y => y.dropAppend n)).tileReport t a.slot e.code x.job x.handId e.data
    match s.checkAccesses (.job x.job) [(l.seqBase, 64)] with
    | some e => fail e
    | none =>
      let data := pageData (s.seqId l.seqBase) a.first
      if a.first < s.seqTail l.seqBase then fail ⟨Codes.appendCommitted, data⟩
      else if s.seqState l.seqBase ≠ 2 ∨ s.seqReserve l.seqBase < a.first + sn
          ∨ s.entryMissing l a.head a.first sn then
        (s.appendUnbacked t x.job a).modTile t (fun y => y.dropAppend n)
      else
        match s.checkAccesses (.job x.job) (s.appendAccesses l a.head a.first sn),
            s.appendRows l a.head a.first 0 a.rows with
        | some e, _ => fail e
        | none, .error e => fail e
        | none, .ok s' => s'.modTile t (fun y => y.dropAppend n)

def execAppendPageWrite (t : Tile) (n : Nat) (s : State) : Host.Outcome State Fault Refusal :=
  .next (appendPageWrite t n s)

/-! AVERIFY. -/

/-- Accepted nodes in ascending index, each with its parent, on the choices of the model (R191). -/
def accepted (c : CandTree) (choice : Nat → Nat) : List Nat :=
  (List.range c.n).foldl (fun acc i =>
    let par := c.parents.getD i none
    let ok := match par with
      | none => c.tokens.getD i 0 == choice 0
      | some p => acc.contains p && c.tokens.getD i 0 == choice (p + 1)
    if ok && !acc.any (fun k => c.parents.getD k none == par) then acc ++ [i] else acc) []

/-- UINT32 elements of row 0 of a scratchpad tensor. -/
def State.words32 (s : State) (t : Nat) (d : Tensor) (n : Nat) : List Nat :=
  (List.range n).map (fun i => s.elemBits t d ⟨0, 0, 0, 0⟩ i)

def averifyFault (s : State) (t : Tile) (c : Nat) (dc ds : BitVec 6) : Option Code :=
  let x := s.tile t
  match lowestOf [nameFault 0x10 (x.dreg dc), nameFault 0x10 (x.dreg ds)] with
  | some e => lowestOf [some e, lowest (ctxFaults s t c)]
  | none =>
    let d := tensorOf (x.dreg dc)
    let k := tensorOf (x.dreg ds)
    let shape := d.space == 0 && d.fmt == 7 && decide (16 ≤ d.e0) && k.space == 0 && k.fmt == 7
    let tree := if shape then candTree (s.words32 t d 16) else none
    let listBad := match x.binding c with
      | some b => !pagedList b.kl
      | none => false
    lowest (ctxFaults s t c ++
      [((shape && tree.isNone) || listBad, Codes.isaFieldRange),
       (!shape || (match tree with | some y => decide (k.e0 < y.n + 1) | none => false), Codes.isaDescInvalid)])

/-- Moves of one path node: from slot L + node to slot L + depth, for every layer, head, K and V (R192). -/
def State.moveSlots (s : State) (j : Nat) (kl vl : PageList) (src dst : Nat) : Except AccErr State :=
  let rec_ := kl.seqBase
  let cells := (List.range (s.seqLayers rec_)).flatMap (fun la => (List.range (s.seqHeads rec_)).flatMap (fun h =>
    [({ kl with layer := la }, h), ({ vl with layer := la, isV := true }, h)]))
  cells.foldl (fun r c =>
    match r with
    | .error e => .error e
    | .ok s =>
      match s.posAddr c.1 c.2 src, s.posAddr c.1 c.2 dst with
      | .ok a, .ok b =>
        match s.checkAccesses (.job j) [(a.2, 128), (b.2, 128)] with
        | some e => .error e
        | none => .ok (s.writeMem b.2 (s.readMem a.2 128))
      | .error e, _ => .error e
      | .ok _, .error e => .error e) (.ok s)

/-- All moves of a path in ascending depth (R192). -/
def State.movePath (s : State) (j : Nat) (kl vl : PageList) (len : Nat) : Nat → List Nat → Except AccErr State
  | _, [] => .ok s
  | d, i :: rest =>
    if i = d then s.movePath j kl vl len (d + 1) rest
    else
      match s.moveSlots j kl vl (len + i) (len + d) with
      | .error e => .error e
      | .ok s' => s'.movePath j kl vl len (d + 1) rest

/-- The candidates are decided, the accepted slots moved, and TAIL, ACCEPTED and RD written (R190 to R193). -/
def averifyRun (t : Tile) (b : Binding) (tree : CandTree) (choice : Nat → Nat) (rd : BitVec 5) (s : State) : Eff :=
  let x := s.tile t
  let kl := pageListOf b.kl
  let vl := if pagedList b.vl then pageListOf b.vl else { kl with isV := true }
  let rec_ := kl.seqBase
  match s.checkAccesses (.job x.job) [(rec_, 64)] with
  | some e => .done (s.attError t e)
  | none =>
    if s.seqState rec_ ≠ 2 then
      .done ((s.report Codes.verifyPaused (tileInfo s t (pageData (s.seqId rec_) (s.seqTail rec_)))).modTile t
        (fun y => y.setS rd 0))
    else
      let len := s.seqTail rec_
      let path := accepted tree choice
      match s.movePath x.job kl vl len 0 path with
      | .error e => .done (s.attError t e)
      | .ok s' =>
        .done (((s'.writeLe (rec_ + 8) 8 (len + path.length)).writeLe (rec_ + 0x2C) 1 path.length).modTile t
          (fun y => y.setS rd (BitVec.ofNat 64 path.length)))

def averifyEff (t : Tile) (c : Nat) (dc ds : BitVec 6) (rd : BitVec 5) (s : State) : Eff :=
  let x := s.tile t
  match averifyFault s t c dc ds, x.binding c with
  | some e, _ => .fault e
  | none, none => .fault Codes.isaCtxUnbound
  | none, some b =>
    match candTree (s.words32 t (tensorOf (x.dreg dc)) 16) with
    | none => .fault Codes.isaFieldRange
    | some tree =>
      let k := tensorOf (x.dreg ds)
      averifyRun t b tree (fun i => s.elemBits t k ⟨0, 0, 0, 0⟩ i) rd s

def execAverify (t : Tile) (g : Guard) (ctx : BitVec 2) (dc ds : BitVec 6) (rd : BitVec 5) (s : State) :
    Host.Outcome State Fault Refusal :=
  .next (attIssue t g (slotOf (.averify t g ctx dc ds rd)) ctx.toNat (averifyEff t ctx.toNat dc ds rd) s)

/-! Steps, reservation and running out of pages. -/

def State.seqStepAppend (s : State) (rec : Nat) : Nat := s.readLe (rec + 0x28) 4

/-- Pages of a job's pool that no record in use names, ascending: the conductor's free list (log entry 32). -/
def State.kvFreePages (s : State) (j : Nat) : List Nat :=
  match s.job j with
  | none => []
  | some x =>
    let used := ((s.seqTable j).filter (fun r => s.seqState r != 0)).flatMap (fun r =>
      elemsOf 4 (2 * s.seqLayers r * s.seqHeads r * s.seqEntries r)
        (s.readMem (r + 0x40) (8 * s.seqLayers r * s.seqHeads r * s.seqEntries r)))
    (List.range x.desc.kvPages).filter (fun p => !used.contains p)

/-- Gives one page row to a record: the entries of row `e` first (R197); none when it cannot be supplied in full. -/
def State.giveRow (s : State) (j rec e : Nat) : Option State :=
  let la := s.seqLayers rec
  let hd := s.seqHeads rec
  let free := s.kvFreePages j
  let cells := (List.range (2 * la * hd))
  if free.length < cells.length ∨ s.seqEntries rec ≤ e then none
  else
    some ((cells.zip free).foldl (fun s c =>
      s.writeLe (s.pageEntryAddr rec (c.1 / (la * hd)) (c.1 / hd % la) (c.1 % hd) e) 4 c.2) s)

/-- Raises RESERVE_END of a record row by row toward a target (R197). -/
def State.reserveTo (s : State) (j rec target : Nat) : Nat → State
  | 0 => s
  | fuel + 1 =>
    let e := s.seqReserve rec
    if target ≤ e then s
    else if e % 512 ≠ 0 then (s.writeLe (rec + 0x10) 8 (roundUp e 512)).reserveTo j rec target fuel
    else
      match s.giveRow j rec (e / 512) with
      | none => s
      | some s' => (s'.writeLe (rec + 0x10) 8 (e + 512)).reserveTo j rec target fuel

/-- Target of the reservation made during a step: a running sequence also appends in this step (R197). -/
def State.reserveTarget (s : State) (rec : Nat) : Nat :=
  s.seqTail rec + s.seqStepAppend rec * (if s.seqState rec = 2 then 2 else 1)

/-- Reserves for every sequence of a job in the order of R197, with a target for each. -/
def State.reserveAll (s : State) (j : Nat) (target : State → Nat → Nat) : State :=
  (s.seqOrder j).foldl (fun s r => s.reserveTo j r (target s r) (target s r / 512 + 2)) s

/-- The job runs, so that the conductor serves its sequences (R197, R200). -/
def State.jobRuns (s : State) (j : Nat) : Bool :=
  match s.job j with
  | some x => x.phase == .running
  | none => false

/-- While step s runs the conductor raises reservations for step s + 1 (R197). -/
def reserveStepPages (j : Nat) (s : State) : State :=
  if s.jobRuns j then (s.seqObserve j).reserveAll j State.reserveTarget else s

def execReserveStepPages (job : Nat) (s : State) : Host.Outcome State Fault Refusal := .next (reserveStepPages job s)

/-- Reports a code of a sequence (Table 10 of 16). -/
def State.seqReport (s : State) (j rec : Nat) (code : Code) : State :=
  s.report code { job := j, data := pageData (s.seqId rec) (s.seqTail rec) }

/-- The reservation of a record covers its next step (R197). -/
def State.covered (s : State) (rec : Nat) : Bool := decide (s.seqTail rec + s.seqStepAppend rec ≤ s.seqReserve rec)

/-- STATE of one sequence for the next step (R199). -/
def State.nextSeqState (s : State) (j rec : Nat) : State :=
  let ok := s.covered rec
  let pausedSteps (s : State) : State :=
    s.writeLe (rec + 0x30) 4 (satAdd (2 ^ 32 - 1) (s.readLe (rec + 0x30) 4) 1)
  match s.seqState rec with
  | 2 => if ok then s else (pausedSteps (s.setSeqState j rec 3)).seqReport j rec Codes.seqPaused
  | 3 => if ok then s.setSeqState j rec 2 else pausedSteps s
  | 1 => if ok then s.setSeqState j rec 2 else s.seqReport j rec Codes.seqDeferred
  | _ => s

/-- The batch list: the count of running sequences, then their indices in the table (log entry 33). -/
def State.writeBatch (s : State) (j addr : Nat) : State :=
  let ix := ((s.seqTable j).zipIdx).filterMap (fun p => if s.seqState p.1 = 2 then some p.2 else none)
  s.writeMem addr (natLe 4 ix.length ++ ix.flatMap (natLe 4))

/-- The end of a step (R198): tails, pages of leaving sequences, retries, states and the batch list, in this order. -/
def stepBoundary (j : Nat) (verified : List Nat) (batch : Nat) (s : State) : State :=
  if s.jobRuns j then
    let s := s.seqObserve j
    let n := match s.job j with
      | some x => x.stepNo + 1
      | none => 0
    let s := s.modJob j (fun x => { x with stepNo := n })
    let s := ((s.seqTable j).zipIdx).foldl (fun s p =>
      if s.seqState p.1 = 2 then
        let s := if verified.contains p.2 then s
          else s.writeLe (p.1 + 8) 8 ((s.seqTail p.1 + s.seqStepAppend p.1) % 2 ^ 64)
        s.writeLe (p.1 + 0x20) 8 n
      else s) s
    let s := (s.seqTable j).foldl (fun s r => if s.seqState r = 4 then s.setSeqState j r 0 else s) s
    let s := s.reserveAll j (fun s r => s.seqTail r + s.seqStepAppend r)
    let s := (s.seqTable j).foldl (fun s r => s.nextSeqState j r) s
    s.writeBatch j batch
  else s

def execStepBoundary (job : Nat) (verified : List Nat) (batchList : BitVec 48) (s : State) :
    Host.Outcome State Fault Refusal :=
  .next (stepBoundary job verified batchList.toNat s)

end Sys2Proof.Machine
end

