-- ==== Sys2Proof/Machine/DealRec.lean ====
section
/-!
DEFINITION. Machine/DealRec.lean: deal records, bounds, the GEMM rule and the loader's checks of a record (R77 to R86, R94,
R201 to R203, R208 to R210, R258 to R262).
-/

namespace Sys2Proof.Machine

/-! Records (R77). -/

structure DealRec where
  raw  : List Byte
  hdr  : Nat
  opc  : Nat
  flags : Nat
  mask : Nat
  fmtA : Nat
  fmtB : Nat
  fmtOut : Nat
  phase : Nat
  rsv0A : Nat
  macroId : Nat
  bM : Nat
  bN : Nat
  bK : Nat
  maxM : Nat
  maxN : Nat
  maxK : Nat
  rsv34 : Nat
  aBase : Nat
  bBase : Nat
  outBase : Nat
  aScale : Nat
  bScale : Nat
  outScale : Nat
  aLd : Nat
  bLd : Nat
  outLd : Nat
  rsv74 : Nat
  aux : Nat
  deriving DecidableEq, Repr

/-- Fields of Table 1 of 03. -/
def dealOf (bs : List Byte) : DealRec :=
  let f := fieldLe bs
  { raw := bs, hdr := f 0 2, opc := f 2 1, flags := f 3 1, mask := f 4 2, fmtA := f 6 1, fmtB := f 7 1, fmtOut := f 8 1,
    phase := f 9 1, rsv0A := f 0xA 2, macroId := f 0xC 4, bM := f 0x10 8, bN := f 0x18 8, bK := f 0x20 8,
    maxM := f 0x28 4, maxN := f 0x2C 4, maxK := f 0x30 4, rsv34 := f 0x34 4, aBase := f 0x38 8, bBase := f 0x40 8,
    outBase := f 0x48 8, aScale := f 0x50 8, bScale := f 0x58 8, outScale := f 0x60 8, aLd := f 0x68 4,
    bLd := f 0x6C 4, outLd := f 0x70 4, rsv74 := f 0x74 4, aux := f 0x78 8 }

def DealRec.allowEmpty (r : DealRec) : Bool := bitOf r.flags 0
def DealRec.waitPrior (r : DealRec) : Bool := bitOf r.flags 1
def DealRec.transA (r : DealRec) : Bool := bitOf r.flags 2
def DealRec.transB (r : DealRec) : Bool := bitOf r.flags 3
def DealRec.accIn (r : DealRec) : Bool := bitOf r.flags 4
def DealRec.fa (r : DealRec) : Nat := r.fmtA % 64
def DealRec.fb (r : DealRec) : Nat := r.fmtB % 64
def DealRec.fo (r : DealRec) : Nat := r.fmtOut % 64
def DealRec.fineA (r : DealRec) : Bool := bitOf r.fmtA 6
def DealRec.fineB (r : DealRec) : Bool := bitOf r.fmtB 6
def DealRec.round (r : DealRec) : Nat := r.fmtOut / 64

/-- Tiles of TILE_MASK, ascending. -/
def DealRec.tiles (r : DealRec) : List Nat := maskBits r.mask 12

/-- Macro-operations of Table 2 of 03. -/
def dealOpcs : List Nat := [1, 2, 3, 4, 5, 6, 7, 0x0E, 0x0F]

/-! Bounds (R80 to R82). -/

def boundSrc (b : Nat) : Nat := bitsOf b 63 62
def boundArg (b : Nat) : Nat := bitsOf b 47 0
def boundWidth (b : Nat) : Nat := if boundSrc b = 2 then 8 else 4

/-- Unused bits of a bound specification. -/
def boundDirty (b : Nat) : Bool :=
  bitsOf b 61 48 != 0 || (boundSrc b == 0 && boundArg b / 2 ^ 24 != 0) || (boundSrc b == 1 && boundArg b / 16 != 0)

/-- The word that a bound is read from. -/
def boundSpan (b : Nat) : List (Nat × Nat) := if 2 ≤ boundSrc b then [(boundArg b, boundWidth b)] else []

/-- Value of a bound, read once (R81); none where its word is misaligned or outside the job's windows. -/
def State.boundVal (s : State) (d j b : Nat) : Option Nat :=
  match boundSrc b with
  | 0 => some (boundArg b % 2 ^ 24)
  | 1 => some ((s.dealer d).bound.get 0 (boundArg b % 16)).toNat
  | _ =>
    let w := boundWidth b
    if boundArg b % w = 0 ∧ s.checkRange (.job j) (boundArg b) w = none then some (s.readLe (boundArg b) w) else none

/-- Codes of one bound and its MAX field. -/
def State.boundCodes (s : State) (d j b mx : Nat) : List (Bool × Code) :=
  let big := match s.boundVal d j b with
    | some v => decide (mx % 2 ^ 24 < v)
    | none => false
  [(boundDirty b || mx % 2 ^ 24 == 0 || mx / 2 ^ 24 != 0, Codes.dealField),
   (decide (2 ≤ boundSrc b) && boundArg b % boundWidth b != 0, Codes.boundSource), (big, Codes.boundExceeds)]

/-! Operands. -/

/-- Bytes between rows of scales (R77). -/
def scaleStride (mx : Nat) (fine : Bool) : Nat := roundUp (ceilDiv mx (blockLen fine)) 64

/-- An operand of a record: rows of `e0` contiguous elements. -/
def dealTensor (fmt : Nat) (fine : Bool) (base scale ld mx e0 e1 : Nat) : Tensor :=
  { fmt := fmt, fine := fine, space := 1, rank := 2, base := base, scaleBase := scale,
    scaleStride := scaleStride mx fine, e0 := e0, e1 := e1, e2 := 1, e3 := 1, e4 := 1, st1 := ld, st2 := 0, st3 := 0,
    st4 := 0 }

/-- A as stored: M x K, or K x M under TRANS_A. -/
def DealRec.tensorA (r : DealRec) (m k : Nat) : Tensor :=
  if r.transA then dealTensor r.fa r.fineA r.aBase r.aScale r.aLd r.maxM m k
  else dealTensor r.fa r.fineA r.aBase r.aScale r.aLd r.maxK k m

/-- B as stored: K x N, or N x K under TRANS_B and in a CONV. -/
def DealRec.tensorB (r : DealRec) (n k : Nat) : Tensor :=
  if r.transB || r.opc == 4 then dealTensor r.fb r.fineB r.bBase r.bScale r.bLd r.maxK k n
  else dealTensor r.fb r.fineB r.bBase r.bScale r.bLd r.maxN n k

/-- The output, M x N. -/
def DealRec.tensorOut (r : DealRec) (m n : Nat) : Tensor :=
  dealTensor r.fo false r.outBase r.outScale r.outLd r.maxN n m

/-- Elements and scales of rows `r0` to `r0 + rows - 1` of an operand. -/
def Tensor.rowSpans (t : Tensor) (r0 rows : Nat) : List (Nat × Nat) :=
  let rows := min rows (t.e1 - r0)
  if rows = 0 ∨ t.e0 = 0 then []
  else
    (t.base + r0 * t.st1, (rows - 1) * t.st1 + ceilDiv (t.e0 * fmtBits t.fmt) 8)
      :: (if fmtScaled t.fmt then
        [(t.scaleBase + r0 * t.scaleStride, (rows - 1) * t.scaleStride + ceilDiv t.e0 t.block)] else [])

def Tensor.allSpans (t : Tensor) : List (Nat × Nat) := t.rowSpans 0 t.e1

/-- A record base, or a scale base in use, is not a multiple of 256 (R94). -/
def Tensor.offAlign (t : Tensor) : Bool := t.base % 256 != 0 || (fmtScaled t.fmt && t.scaleBase % 256 != 0)

/-! Panel formats (R209, R210). -/

/-- Formats of a product's operands (R103). -/
def dealOperandFmt (f : Nat) : Bool := decide (1 ≤ f ∧ f ≤ 4) || fmtKremor f

structure Panels where
  fa : Nat
  fineA : Bool
  fb : Nat
  fineB : Bool
  deriving DecidableEq, Repr

def State.panels (s : State) (j : Nat) (r : DealRec) : Panels :=
  if r.opc == 1 && (r.transA || !r.transB) then
    let stash (a : Nat) : Bool := (s.stashFind j a).isSome
    let fp8 (f : Nat) : Bool := f == 3 || f == 4
    if fp8 r.fa && fp8 r.fb && !stash r.aBase && !stash r.bBase then ⟨r.fa, r.fineA, r.fb, r.fineB⟩
    else
      let one (f a : Nat) : Nat := if (f == 1 || f == 2) && !stash a then f else 1
      ⟨one r.fa r.aBase, false, one r.fb r.bBase, false⟩
  else ⟨r.fa, r.fineA, r.fb, r.fineB⟩

/-! The GEMM rule (R83). -/

/-- What the rule decides. -/
structure GemmPlan where
  quart : Bool
  w  : Nat
  r  : Nat
  c  : Nat
  kc : Nat
  kq : Nat
  /-- Order nm: the row block varies fastest. -/
  nm : Bool
  mb : Nat
  nb : Nat
  nblocks : Nat
  density : Nat
  deriving DecidableEq, Repr

/-- bytes(f) of Table 3, in units of 1/32 byte. -/
def ruleBytes (fmt : Nat) (fine : Bool) : Nat :=
  4 * fmtBits fmt + (if fmtScaled fmt then (if fine then 2 else 1) else 0)

/-- share(g) of Table 3. -/
def ruleShare (grade : Nat) : Nat := [568, 455, 379, 341, 303].getD grade 303

/-- Shape (r, c) of a block: the least t, ties to the larger r (R83, R84). -/
def ruleShape (w cap mb nb : Nat) : Nat × Nat :=
  let ps := [1, 2, 4, 8, 16, 32]
  let all := ps.flatMap (fun r => (ps.filter (fun c =>
    decide (r * c ≤ cap ∧ r ≤ max 1 mb ∧ c ≤ max 1 nb))).map (fun c => (r, c)))
  let cost (p : Nat × Nat) : Nat := 128 / p.2 + w / p.1
  all.foldl (fun b p => if cost p < cost b ∨ (cost p = cost b ∧ b.1 < p.1) then p else b) (1, 1)

def ruleGemm (m n k : Nat) (f : Panels) (grade : Nat) : GemmPlan :=
  let mb := ceilDiv m 128
  let quart := decide (n ≤ 384)
  let w := if quart then 128 else 512
  let cap := if quart then 32 else 8
  let nb := ceilDiv n w
  let lane := pairLane f.fa f.fb
  let rc := ruleShape w cap mb nb
  let blockA := if fmtScaled f.fa then [blockLen f.fineA] else []
  let blockB := if fmtScaled f.fb then [blockLen f.fineB] else []
  let blk := (blockA ++ blockB).foldl max 1
  let kq := roundUp k blk
  let pa := 128 * rc.1 * ruleBytes f.fa f.fineA
  let pb := w * rc.2 * ruleBytes f.fb f.fineB
  let kc := min (min (25100288 * 32 / (2 * (pa + pb)) / 128 * 128) (kMax lane / 128 * 128)) kq
  let resident := kc == kq
  let nm := resident && decide (pa < pb)
  let streamed := if resident && !nm then pb else if resident then pa else pa + pb
  let density := 64 * ruleShare grade * rc.1 * rc.2 * cpe8 lane * 32 / ((if quart then 32 else 8) * streamed)
  { quart := quart, w := w, r := rc.1, c := rc.2, kc := kc, kq := kq, nm := nm, mb := mb, nb := nb,
    nblocks := ceilDiv mb rc.1 * ceilDiv nb rc.2, density := max 1 (min 64 density) }

/-- first(i) and count(i). -/
def share (units ntiles i : Nat) : Nat × Nat :=
  let q := units / ntiles
  let rem := units % ntiles
  (i * q + min i rem, q + (if i < rem then 1 else 0))

/-! Checks of each operation. -/

/-- What an operation asks of its record. -/
structure OpCheck where
  codes  : List (Bool × Code)
  /-- Bytes of the operands, the output, the scales and the parameter block. -/
  spans  : List (Nat × Nat)
  /-- Bytes that the Dealer reads itself. -/
  reads  : List (Nat × Nat)
  empty  : Bool
  units  : Nat
  /-- DENSITY of the hands; none where the spec leaves it open. -/
  density : Option Nat
  aux    : List Byte
  pieces : List (List (Nat × Nat))
  deriving DecidableEq, Repr

/-- The bounds of a record as read. -/
structure Bounds where
  m : Nat
  n : Nat
  k : Nat
  deriving DecidableEq, Repr

/-- An output format that MSTORE writes. -/
def storable (f : Nat) : Bool := (fmtEnc f).isSome && !fmtInt f && !fmtMx f

def State.checkGemm (s : State) (j : Nat) (r : DealRec) (b : Bounds) : OpCheck :=
  let f := s.panels j r
  let a := r.tensorA b.m b.k
  let bt := r.tensorB b.n b.k
  let o := r.tensorOut b.m b.n
  let p := ruleGemm b.m b.n b.k f s.grade
  { codes := [(!dealOperandFmt r.fa || !dealOperandFmt r.fb || !pairOk f.fa f.fb || !storable r.fo, Codes.dealField),
      (a.offAlign || bt.offAlign || o.offAlign, Codes.alignStack)],
    spans := a.allSpans ++ bt.allSpans ++ o.allSpans, reads := [], empty := b.m == 0 || b.n == 0,
    units := p.nblocks, density := some p.density, aux := [], pieces := [] }

/-- The source that the Dealer builds for a window operation (R258). -/
def DealRec.winTensor (r : DealRec) (p : WinOp) : Tensor :=
  { fmt := r.fa, fine := r.fineA, space := 1, rank := 5, base := r.aBase, scaleBase := r.aScale, scaleStride := 0,
    e0 := p.cin, e1 := p.inW, e2 := p.inH, e3 := p.inT, e4 := p.inN, st1 := r.aLd, st2 := p.inW * r.aLd,
    st3 := p.inH * (p.inW * r.aLd), st4 := p.inT * (p.inH * (p.inW * r.aLd)) }

/-- Descriptor at an address. -/
def State.descAt (s : State) (a : Nat) : Desc := BitVec.ofNat 512 (leNat (s.readMem a 64))

/-- CONV, REGROUP and CROP (R258 to R260). -/
def State.checkWin (s : State) (r : DealRec) (known : Bool) (b : Bounds) : OpCheck :=
  let d := s.descAt r.aux
  let p := winOpOf d
  let src := r.winTensor p
  let conv := r.opc == 4
  let modeOk := match r.opc with
    | 4 => p.mode == 0
    | 5 => p.mode == 1 || p.mode == 2
    | _ => p.mode == 3
  let descOk := hdrOk (descHdr d) 0x12 && winOpValid d && modeOk
  let fmts := if conv then
      decide (1 ≤ r.fa ∧ r.fa ≤ 4) && dealOperandFmt r.fb && pairOk r.fa r.fb && storable r.fo
    else dwinFmtOk p.mode r.fa && r.fo == r.fa && r.fmtB == 0 && r.bBase == 0 && r.bLd == 0
  let bounds := match r.opc with
    | 4 => decide (p.rows < b.m) || b.k != p.cols
    | 5 => decide (p.rows < b.m) || b.n != p.cols || b.k != 1
    | _ => decide (p.boxCount < b.m) || b.n != p.cin || b.k != 1
  let rows := if r.opc = 6 then b.m * p.outH * p.outW else b.m
  let bt := r.tensorB b.n b.k
  let o := r.tensorOut rows b.n
  let g := ruleGemm b.m b.n b.k ⟨r.fa, r.fineA, r.fb, r.fineB⟩ s.grade
  { codes := [(!descOk || !fmts || r.transA || r.transB || (known && descOk && bounds), Codes.dealField),
      (src.offAlign || (conv && bt.offAlign) || o.offAlign, Codes.alignStack)],
    spans := (if known && descOk then
        [(src.base, src.regionEnd - src.base)] ++ (if conv then bt.allSpans else []) ++ o.allSpans
          ++ (if r.opc = 6 && p.boxUni then [(p.boxAddr, 32 * b.m)] else [])
      else []),
    reads := [(r.aux, if r.opc = 6 then 72 else 64)], empty := b.m == 0 || (conv && b.n == 0),
    units := if conv then g.nblocks else ceilDiv rows 512, density := if conv then some g.density else none,
    aux := s.readMem r.aux 64, pieces := [] }

/-- Detection parameters (R262). -/
structure DetPar where
  clip : Bool
  sigmoid : Bool
  background : Bool
  preK : Nat
  topK : Nat
  scoreMin : W32
  iou : W32
  varXy : W32
  varWh : W32
  dwhClip : W32
  imgW : W32
  imgH : W32
  anchors : Nat
  counts  : Nat
  deriving DecidableEq, Repr

def detOf (bs : List Byte) : DetPar :=
  let f := fieldLe bs
  let w (o : Nat) : W32 := BitVec.ofNat 32 (f o 4)
  { clip := bitOf (f 2 1) 0, sigmoid := bitOf (f 2 1) 1, background := bitOf (f 2 1) 2, preK := f 4 2, topK := f 6 2,
    scoreMin := w 8, iou := w 0xC, varXy := w 0x10, varWh := w 0x14, dwhClip := w 0x18, imgW := w 0x1C,
    imgH := w 0x20, anchors := f 0x28 8, counts := f 0x30 8 }

def finite32 (w : W32) : Bool := (val32 w).isFinite
def zeroFV : FV := .fin false 0 0
def positive32 (w : W32) : Bool := finite32 w && decide (0 < FV.cmp (val32 w) zeroFV)

/-- Ranges of Table 7 of 08. -/
def detValid (bs : List Byte) : Bool :=
  let f := fieldLe bs
  let p := detOf bs
  hdrOk (f 0 2) 0x43 && decide (f 2 1 < 8) && f 3 1 == 0 && f 0x24 4 == 0 && f 0x38 72 == 0
    && decide (1 ≤ p.preK ∧ p.preK ≤ 4096) && decide (1 ≤ p.topK ∧ p.topK ≤ 512) && finite32 p.scoreMin
    && finite32 p.iou && decide (0 ≤ FV.cmp (val32 p.iou) zeroFV)
    && decide (FV.cmp (val32 p.iou) (.fin false 1 0) ≤ 0) && positive32 p.varXy && positive32 p.varWh
    && finite32 p.dwhClip && (!p.clip || (positive32 p.imgW && positive32 p.imgH))
    && p.anchors % 256 == 0 && p.counts % 256 == 0

/-- DETECT (R258, R261, R262). -/
def State.checkDetect (s : State) (r : DealRec) (known : Bool) (b : Bounds) : OpCheck :=
  let aux := s.readMem r.aux 128
  let p := detOf aux
  let ok := detValid aux
  let flt (f : Nat) : Bool := decide (f ≤ 2)
  let a := dealTensor r.fa false r.aBase 0 r.aLd 4 4 b.m
  let sc := dealTensor r.fb false r.bBase 0 r.bLd r.maxN b.n b.m
  { codes := [(!ok || !flt r.fa || !flt r.fb || r.fo != 0 || r.outLd != 32 || r.transA || r.transB
        || (known && (b.n == 0 || decide (1024 < b.n) || b.k != 4)), Codes.dealField),
      (a.offAlign || sc.offAlign || r.outBase % 256 != 0, Codes.alignStack)],
    spans := (if known && ok then
        a.allSpans ++ sc.allSpans ++ [(r.outBase, b.n * p.topK * 32), (p.anchors, 16 * b.m), (p.counts, 8 * b.n)]
      else []),
    reads := [(r.aux, 128)], empty := false, units := b.n, density := none, aux := aux, pieces := [] }

/-- Attention parameters (Table 9 of 06). -/
structure AttPar where
  ctx   : Nat
  rope  : Bool
  heads : Nat
  qstart : Nat
  win   : Nat
  plk   : Nat
  plv   : Nat
  qHs   : Nat
  oHs   : Nat
  lse   : Nat
  oBase : Nat
  doBase : Nat
  dqp   : Nat
  dkBase : Nat
  dvBase : Nat
  pieces : Nat
  deriving DecidableEq, Repr

def attParOf (bs : List Byte) : AttPar :=
  let f := fieldLe bs
  { ctx := f 2 1, rope := bitOf (f 3 1) 0, heads := f 4 1, qstart := f 8 8, win := f 0x10 8, plk := f 0x18 8,
    plv := f 0x20 8, qHs := f 0x28 8, oHs := f 0x30 8, lse := f 0x38 8, oBase := f 0x40 8, doBase := f 0x48 8,
    dqp := f 0x50 8, dkBase := f 0x58 8, dvBase := f 0x60 8, pieces := f 0x68 8 }

/-- Fields of Table 9 in their ranges, the window's KV_HEADS apart. -/
def attParOk (bs : List Byte) : Bool :=
  let f := fieldLe bs
  hdrOk (f 0 2) 0x42 && decide (f 2 1 < 4) && decide (f 3 1 < 4) && decide (1 ≤ f 4 1 ∧ f 4 1 ≤ 128) && f 5 3 == 0
    && f 0x70 16 == 0 && decide (f 8 8 < 2 ^ 32)

/-- Query groups of 32 blocks and key chunks of 16 blocks (R202). -/
def attGroupCount (nq : Nat) : Nat := ceilDiv (ceilDiv nq 128) 32
def attChunkCount (nk : Nat) : Nat := ceilDiv (ceilDiv nk 512) 16

/-- Address of the directory that a record's hands are cut by, and of the entry array (R202). -/
def pieceDirs (r : DealRec) (p : AttPar) : Nat × Nat :=
  let g := 8 * attGroupCount r.maxM
  if r.opc = 2 then (p.pieces, p.pieces + g) else (p.pieces + g, p.pieces + g + 8 * attChunkCount r.maxN)

/-- Directory words of `n` groups or chunks. -/
def State.pieceWords (s : State) (dir n : Nat) : List Nat := (List.range n).map (fun i => s.readLe (dir + 8 * i) 8)

/-- Entries that a directory word names. -/
def pieceSpan (entries w : Nat) : List (Nat × Nat) :=
  if bitsOf w 47 32 = 0 then [] else [(entries + 8 * bitsOf w 31 0, 8 * bitsOf w 47 32)]

/-- Runs (first block, block count) that a directory word lists. -/
def State.pieceRuns (s : State) (entries w : Nat) : List Nat :=
  (List.range (bitsOf w 47 32)).map (fun i => s.readLe (entries + 8 * (bitsOf w 31 0 + i)) 8)

/-- ATTN_FWD and ATTN_BWD (R201 to R204). -/
def State.checkAttn (s : State) (j : Nat) (r : DealRec) (known : Bool) (b : Bounds) : OpCheck :=
  let aux := s.readMem r.aux 128
  let p := attParOf aux
  let outside (a n : Nat) : Bool := (s.checkRange (.job j) a n).isSome
  let descs := [(p.win, 64), (p.plk, 64), (p.plv, 64)]
  let descsIn := !descs.any (fun d => outside d.1 d.2)
  let win := s.descAt p.win
  let dk := s.descAt p.plk
  let dv := s.descAt p.plv
  let w := windowOf win
  let descCode (type : Nat) (d : Desc) : List (Bool × Code) :=
    if descsIn then
      match nameFault type d, s.descFault d with
      | some c, _ => [(true, c)]
      | none, some c => [(true, c)]
      | none, none => []
    else []
  let fwd := r.opc == 2
  let fmts := if fwd then (r.fa == 1 || attFp8 r.fa) && decide (r.fo ≤ 4)
      && (!descsIn || w.pfmt == (if attFp8 r.fa then 3 else 1)) && attFp8 r.fa == attFp8 r.fb
    else r.fa == 1 && r.fb == 1 && decide (r.fo ≤ 4)
  let lists := !descsIn || ((pageListOf dk).fmt == r.fb && (pageListOf dv).fmt == r.fb
    && w.kvHeads != 0 && p.heads % w.kvHeads == 0)
  let pd := pieceDirs r p
  let n := if fwd then attGroupCount b.m else attChunkCount b.n
  let dirSpan := if n = 0 then [] else [(pd.1, 8 * n)]
  let words := if known && !dirSpan.any (fun d => outside d.1 d.2) then s.pieceWords pd.1 n else []
  let entSpans := words.flatMap (pieceSpan pd.2)
  let runs := if entSpans.any (fun d => outside d.1 d.2) then [] else words.map (s.pieceRuns pd.2)
  let q := dealTensor r.fa false r.aBase 0 r.aLd 128 128 b.m
  let o := dealTensor r.fo false r.outBase 0 r.outLd 128 128 b.m
  let og := dealTensor 1 false p.oBase 0 r.outLd 128 128 b.m
  let heads (t : Tensor) (hs : Nat) : List (Nat × Nat) :=
    (List.range p.heads).flatMap (fun h => ({ t with base := t.base + h * hs } : Tensor).allSpans)
  let grads := p.heads * b.n * 128 * (fmtBits r.fo / 8)
  { codes := [(!attParOk aux || r.transA || r.transB || r.accIn || !fmts || !lists || (known && b.k != 128)
        || (words ++ runs.flatten).any (fun x => decide (2 ^ 48 ≤ x)), Codes.dealField),
      (q.offAlign || o.offAlign, Codes.alignStack)] ++ descCode 0x13 win ++ descCode 0x11 dk ++ descCode 0x11 dv,
    spans := (if known then
        heads q p.qHs ++ heads o (if fwd then p.oHs else p.qHs) ++ [(p.lse, p.heads * b.m * 8)]
          ++ (if fwd then []
            else heads og p.oHs ++ heads { og with base := p.doBase } p.oHs
              ++ [(p.dqp, p.heads * ceilDiv b.m 128 * attChunkCount b.n * 65536), (p.dkBase, grads), (p.dvBase, grads)])
      else []),
    reads := [(r.aux, 128)] ++ descs ++ dirSpan ++ entSpans,
    empty := b.m == 0 && (fwd || b.n == 0),
    units := p.heads * (if fwd then attGroupCount b.m else attChunkCount b.n), density := some 64,
    aux := aux ++ s.readMem p.win 64 ++ s.readMem p.plk 64 ++ s.readMem p.plv 64,
    pieces := runs.map (fun rs => rs.map (fun x => (bitsOf x 31 0, bitsOf x 47 32))) }

/-- The check of an operation that has hands of its own. -/
def State.opCheck (s : State) (j : Nat) (r : DealRec) (known : Bool) (b : Bounds) : OpCheck :=
  let blind : OpCheck :=
    { codes := [], spans := [], reads := [(r.aux, 64)], empty := false, units := 0, density := none, aux := [],
      pieces := [] }
  let inside (n : Nat) : Bool := (s.checkRange (.job j) r.aux n).isNone
  match r.opc with
  | 1 => s.checkGemm j r b
  | 2 => if inside 128 then s.checkAttn j r known b else blind
  | 3 => if inside 128 then s.checkAttn j r known b else blind
  | 7 => if inside 128 then s.checkDetect r known b else blind
  | _ => if inside 64 then s.checkWin r known b else blind

/-! Checks that every record shares. -/

/-- Address of the precision control entry of a record (R123); none without a table. -/
def State.precEntry (s : State) (j phase : Nat) : Option Nat :=
  match s.job j with
  | some x => if x.desc.precTable = 0 then none else some (x.desc.precTable + 8 * phase)
  | none => none

/-- An entry that breaks R123. -/
def precBad (w : Nat) : Bool :=
  bitsOf w 63 39 != 0 || decide (64 < bitsOf w 38 32) || bitsOf w 31 26 != 0 || bitsOf w 15 14 != 0 || bitsOf w 7 6 != 0

/-- Tiles of a die that a job holds, as a mask. -/
def State.dieMask (s : State) (j d : Nat) : Nat :=
  match s.job j with
  | some x =>
    match x.places.find? (fun p => p.die == d) with
    | some p => p.mask
    | none => 0
  | none => 0

/-- HDR, OPC, TILE_MASK, and the reserved fields of every record (R79, R94). -/
def State.commonCodes (s : State) (d j : Nat) (r : DealRec) : List (Bool × Code) :=
  [(!hdrOk r.hdr 0x41, Codes.dealVersion), (!dealOpcs.contains r.opc, Codes.dealType),
   (decide (32 ≤ r.flags) || r.rsv0A != 0 || r.rsv34 != 0 || r.rsv74 != 0 || r.mask == 0
      || (r.mask ||| s.dieMask j d) != s.dieMask j d, Codes.dealField)]

def State.precCodes (s : State) (j : Nat) (r : DealRec) : List (Bool × Code) :=
  match s.precEntry j r.phase with
  | some a =>
    match s.checkRange (.job j) a 8 with
    | some _ => [(true, Codes.addrWindow)]
    | none => [(precBad (s.readLe a 8), Codes.dealField)]
  | none => []

/-- Bounds of a record; none where one cannot be read. -/
def State.boundsOf (s : State) (d j : Nat) (r : DealRec) : Option Bounds :=
  match s.boundVal d j r.bM, s.boundVal d j r.bN, s.boundVal d j r.bK with
  | some m, some n, some k => some ⟨m, n, k⟩
  | _, _, _ => none

/-- Bounds that exceed their MAX fields stop the checks that depend on them. -/
def Bounds.within (b : Bounds) (r : DealRec) : Bool :=
  decide (b.m ≤ r.maxM % 2 ^ 24 ∧ b.n ≤ r.maxN % 2 ^ 24 ∧ b.k ≤ r.maxK % 2 ^ 24)

/-- Everything the loader finds in a record whose hands the Dealer generates, and the operation's own part. -/
def State.recordCheck (s : State) (d j : Nat) (r : DealRec) : List (Bool × Code) × OpCheck × Bounds :=
  let bs := s.boundsOf d j r
  let known := match bs with
    | some b => b.within r
    | none => false
  let b := if known then bs.getD ⟨0, 0, 0⟩ else ⟨0, 0, 0⟩
  let o := s.opCheck j r known b
  let words := boundSpan r.bM ++ boundSpan r.bN ++ boundSpan r.bK
  let outside (xs : List (Nat × Nat)) : Bool := xs.any (fun p => (s.checkRange (.job j) p.1 p.2).isSome)
  (s.commonCodes d j r ++ s.precCodes j r ++ s.boundCodes d j r.bM r.maxM ++ s.boundCodes d j r.bN r.maxN
      ++ s.boundCodes d j r.bK r.maxK
      ++ [(bitOf r.fmtA 7 || bitOf r.fmtB 7 || decide (2 ≤ r.round), Codes.dealField),
          (known && o.empty && !r.allowEmpty, Codes.shapeEmpty), (outside (words ++ o.reads ++ o.spans), Codes.addrWindow)]
      ++ o.codes, o, b)

end Sys2Proof.Machine
end

