-- ==== Sys2Proof/Machine/Hands.lean ====
section
/-!
DEFINITION. Machine/Hands.lean: what the hands that the Dealer generates compute (R82 to R90, R203, R204, R209, R210, R259 to
R265). The effect of such a hand is taken whole at its HALT (log entry 6).
-/

namespace Sys2Proof.Machine

/-- A state and the counts of the blocks written, or the error met. -/
abbrev HandRun := Except AccErr (State × Sums)

/-- Threads a list of steps. -/
def foldHand {α : Type} (f : State → α → HandRun) : List α → State × Sums → HandRun
  | [], p => .ok p
  | x :: xs, p =>
    match f p.1 x with
    | .error e => .error e
    | .ok q => foldHand f xs (q.1, p.2.add q.2)

/-- An error of a stash access, with the address it met. -/
def State.liftErr {α : Type} (s : State) (addr : Nat) : Except Code α → Except AccErr α
  | .ok x => .ok x
  | .error c => .error ⟨c, s.memData addr⟩

/-! GEMM and CONV. -/

/-- A value as its panel holds it: converted on load when the panel's format differs (R209, R210). -/
def panelVal (src panel : Nat) (v : FV) : FV :=
  if src = panel then v else decodeElem panel (encodeElem panel .rne v) 127

/-- Row `i` of A over the padded K (R77, R90). -/
def State.gemmA (s : State) (j t : Nat) (r : DealRec) (pf : Nat) (b : Bounds) (kq i : Nat) : Except Code (List FV) :=
  let a := r.tensorA b.m b.k
  sequenceE ((List.range kq).map (fun k =>
    if b.k ≤ k then .ok zeroFV
    else
      match (if r.transA then s.elemValFor j t a ⟨k, 0, 0, 0⟩ i else s.elemValFor j t a ⟨i, 0, 0, 0⟩ k) with
      | .ok v => .ok (panelVal r.fa pf v)
      | .error c => .error c))

/-- Row `i` of A of a CONV, gathered through its window parameters (R259). -/
def State.convA (s : State) (j t : Nat) (r : DealRec) (p : WinOp) (b : Bounds) (kq i : Nat) : Except Code (List FV) :=
  let a := r.winTensor p
  sequenceE ((List.range kq).map (fun k =>
    if b.k ≤ k then .ok zeroFV
    else
      match s.cellBits j t a p (winCell p (s.boxAt t p) i k) with
      | .ok x => .ok (decodeElem r.fa x 127)
      | .error c => .error c))

/-- Column `c` of B over the padded K. -/
def State.gemmB (s : State) (j t : Nat) (r : DealRec) (pf : Nat) (b : Bounds) (kq c : Nat) : Except Code (List FV) :=
  let bt := r.tensorB b.n b.k
  let byRow := r.transB || r.opc == 4
  sequenceE ((List.range kq).map (fun k =>
    if b.k ≤ k ∨ b.n ≤ c then .ok zeroFV
    else
      match (if byRow then s.elemValFor j t bt ⟨c, 0, 0, 0⟩ k else s.elemValFor j t bt ⟨k, 0, 0, 0⟩ c) with
      | .ok v => .ok (panelVal r.fb pf v)
      | .error e => .error e))

/-- Chunks (first K element, count) of a product, ascending (R83, R85). -/
def gemmChunks (kc kq : Nat) : List (Nat × Nat) :=
  if kc = 0 then [] else (List.range (ceilDiv kq kc)).map (fun i => (i * kc, min kc (kq - i * kc)))

/-- A panel in the scratchpad, as the product reads it. -/
def panelTensor (fmt : Nat) (fine : Bool) : Tensor :=
  { fmt := fmt, fine := fine, space := 0, rank := 2, base := 0, scaleBase := 0, scaleStride := 0, e0 := 0, e1 := 0,
    e2 := 1, e3 := 1, e4 := 1, st1 := 0, st2 := 0, st3 := 0, st4 := 0 }

/-- One row of an output tile: one MMA per chunk (R85, R115, R116). -/
def gemmRow (g : GemmPlan) (f : Panels) (arow : List FV) (bcols : List (List FV)) (acc : List W32) : List W32 :=
  (gemmChunks g.kc g.kq).foldl (fun acc c =>
    mmaRow g.quart (panelTensor f.fa f.fineA) (panelTensor f.fb f.fineB) 0 0 c.2 ((arow.drop c.1).take c.2)
      (bcols.map (fun b => (b.drop c.1).take c.2)) acc) acc

/-- What a GEMM or CONV hand runs with. -/
structure GemmHand where
  job  : Nat
  tile : Nat
  rec_ : DealRec
  conv : Option WinOp
  b    : Bounds
  f    : Panels
  g    : GemmPlan
  mode : RndMode
  thresh : W32
  deriving DecidableEq, Repr

/-- The accumulators of row `i` before the first chunk: the existing output under ACC_IN (R82). -/
def State.gemmStart (s : State) (h : GemmHand) (i c0 cols : Nat) : Except Code (List W32) :=
  if h.rec_.accIn then
    let o := h.rec_.tensorOut h.b.m h.b.n
    sequenceE ((List.range cols).map (fun c => s.loadWord h.job h.tile o ⟨i, 0, 0, 0⟩ (c0 + c)))
  else .ok (List.replicate cols 0)

/-- One output tile: row group `rg`, column tile `ct` (R90). -/
def State.gemmTile (s : State) (h : GemmHand) (p : Nat × Nat) : HandRun :=
  let i0 := 128 * p.1
  let c0 := h.g.w * p.2
  let rows := min 128 (h.b.m - i0)
  let o := h.rec_.tensorOut h.b.m h.b.n
  let arow (i : Nat) : Except Code (List FV) := match h.conv with
    | some w => s.convA h.job h.tile h.rec_ w h.b h.g.kq i
    | none => s.gemmA h.job h.tile h.rec_ h.f.fa h.b h.g.kq i
  match sequenceE ((List.range rows).map (fun i => arow (i0 + i))),
      sequenceE ((List.range h.g.w).map (fun c => s.gemmB h.job h.tile h.rec_ h.f.fb h.b h.g.kq (c0 + c))),
      sequenceE ((List.range rows).map (fun i => s.gemmStart h (i0 + i) c0 h.g.w)) with
  | .ok as, .ok bs, .ok acc =>
    let out := (as.zip acc).map (fun q => gemmRow h.g h.f q.1 bs q.2)
    s.liftErr o.base (s.storeRows h.job h.tile o h.mode h.thresh
      (BitVec.ofNat 64 (i0 * 2 ^ 32 + c0)) 0 out (s, .zeros))
  | .error c, _, _ => s.liftErr h.rec_.aBase (.error c)
  | .ok _, .error c, _ => s.liftErr h.rec_.bBase (.error c)
  | .ok _, .ok _, .error c => s.liftErr o.base (.error c)

/-- Output tiles of block `x` in loop order: (row group, column tile), those past a bound left out (R83, R90). -/
def GemmPlan.tiles (g : GemmPlan) (x : Nat) : List (Nat × Nat) :=
  let rb := ceilDiv g.mb g.r
  let cb := ceilDiv g.nb g.c
  let p := if g.nm then (x % rb, x / rb) else (x / cb, x % cb)
  ((List.range g.r).filter (fun i => decide (p.1 * g.r + i < g.mb))).flatMap (fun i =>
    ((List.range g.c).filter (fun k => decide (p.2 * g.c + k < g.nb))).map (fun k => (p.1 * g.r + i, p.2 * g.c + k)))

def GenPlan.rec_ (p : GenPlan) : DealRec := dealOf p.record

/-- Units of a hand, ascending. -/
def GenPlan.units (p : GenPlan) : List Nat := (List.range p.count).map (· + p.first)

/-- Descriptor `i` of the parameter block as dealt, at byte `o`. -/
def GenPlan.desc (p : GenPlan) (o : Nat) : Desc := BitVec.ofNat 512 (fieldLe p.aux o 64)

/-- The rounding that FMT_OUT names. -/
def GenPlan.mode (p : GenPlan) (h : Hand) : RndMode := ⟨p.rec_.round == 1, h.seed⟩

def GenPlan.gemmHand (p : GenPlan) (s : State) (t : Nat) (h : Hand) : GemmHand :=
  let r := p.rec_
  let f := s.panels h.job r
  { job := h.job, tile := t, rec_ := r, conv := if r.opc = 4 then some (winOpOf (p.desc 0)) else none,
    b := ⟨p.m, p.n, p.k⟩, f := f, g := ruleGemm p.m p.n p.k f s.grade, mode := p.mode h, thresh := h.thresh }

def GenPlan.gemmTiles (p : GenPlan) (g : GemmHand) : List (Nat × Nat) := p.units.flatMap g.g.tiles

/-- Array cycles of the hand (R90). -/
def GenPlan.gemmCycles (p : GenPlan) (g : GemmHand) : Nat :=
  (p.gemmTiles g).length *
    ((gemmChunks g.g.kc g.g.kq).map (fun c => mmaCycles g.g.quart (pairLane g.f.fa g.f.fb) c.2)).sum

/-- Rows of A and of the output that the hand's tiles touch, and all of B. -/
def GenPlan.gemmSpans (p : GenPlan) (g : GemmHand) : List (Nat × Nat) :=
  let r := g.rec_
  let rgs := ((p.gemmTiles g).map (·.1)).dedup
  let a := r.tensorA p.m p.k
  (match g.conv with
    | some w => let x := r.winTensor w; [(x.base, x.regionEnd - x.base)]
    | none => if r.transA then a.allSpans else rgs.flatMap (fun i => a.rowSpans (128 * i) 128))
    ++ (r.tensorB p.n p.k).allSpans ++ rgs.flatMap (fun i => (r.tensorOut p.m p.n).rowSpans (128 * i) 128)

def GenPlan.runGemm (p : GenPlan) (s : State) (t : Nat) (h : Hand) : HandRun :=
  let g := p.gemmHand s t h
  match foldHand (fun s x => s.gemmTile g x) (p.gemmTiles g) (s, .zeros) with
  | .error e => .error e
  | .ok q =>
    .ok (q.1.modTile t (fun x => { x with busy := (x.busy + p.gemmCycles g) % 2 ^ 64 }), q.2)

/-! REGROUP and CROP (R260). -/

/-- Rows of the matrix that a hand copies. -/
def GenPlan.winRows (p : GenPlan) (w : WinOp) : List Nat :=
  let rows := if p.rec_.opc = 6 then p.m * w.outH * w.outW else p.m
  p.units.flatMap (fun u => (List.range (min 512 (rows - 512 * u))).map (· + 512 * u))

/-- One row, copied bit by bit. -/
def State.winRow (s : State) (j t : Nat) (r : DealRec) (w : WinOp) (o : Tensor) (n q : Nat) : HandRun :=
  let a := r.winTensor w
  match sequenceE ((List.range n).map (fun c => s.cellBits j t a w (winCell w (s.boxAt t w) q c))) with
  | .error c => s.liftErr a.base (.error c)
  | .ok bits =>
    match s.putRawFor j t o ⟨q, 0, 0, 0⟩ 0 bits with
    | .error c => s.liftErr o.base (.error c)
    | .ok s' => .ok (s', .zeros)

def GenPlan.winSpans (p : GenPlan) (w : WinOp) : List (Nat × Nat) :=
  let r := p.rec_
  let x := r.winTensor w
  let rows := p.winRows w
  let o := r.tensorOut (rows.foldl max 0 + 1) p.n
  [(x.base, x.regionEnd - x.base)] ++ rows.flatMap (fun q => o.rowSpans q 1)
    ++ (if r.opc = 6 then [(r.aux + 64, 8)] ++ (if w.boxUni then [(w.boxAddr, 32 * p.m)] else []) else [])

/-- A CROP hand adds its count of degenerate boxes to the INT64 at AUX + 64 before it halts (R257, R260). -/
def GenPlan.runWin (p : GenPlan) (s : State) (t : Nat) (h : Hand) : HandRun :=
  let r := p.rec_
  let w := winOpOf (p.desc 0)
  let rows := p.winRows w
  let o := r.tensorOut (rows.foldl max 0 + 1) p.n
  match foldHand (fun s q => s.winRow h.job t r w o p.n q) rows (s, .zeros) with
  | .error e => .error e
  | .ok q =>
    if r.opc = 6 then
      let deg := (p.units.flatMap (fun u => (boxesIn w (512 * u) 512).filter (fun i =>
        decide (i < p.m) && (s.boxAt t w i).degenerate w))).length
      let s1 := q.1.modTile t (fun x =>
        { x with regs := { x.regs with degenerate := satAdd (2 ^ 32 - 1) x.regs.degenerate deg } })
      .ok (s1.addInt64 (r.aux + 64) (s1.tile t).regs.degenerate, q.2)
    else .ok q

/-! DETECT (R263 to R265). -/

/-- A decoded candidate. -/
structure DetBox where
  x0 : W32
  y0 : W32
  x1 : W32
  y1 : W32
  score : W32
  anchor : Nat
  deriving DecidableEq, Repr

/-- Value of an element of an FP32, BF16 or FP16 array, as FP32. -/
def State.detElem (s : State) (j t : Nat) (d : Tensor) (r c : Nat) : Except Code W32 :=
  match s.elemValFor j t d ⟨r, 0, 0, 0⟩ c with
  | .ok v => .ok (to32 v)
  | .error e => .error e

/-- rne32(a + b x c), the product exact. -/
def addProd (a b c : W32) : W32 := ffma b c a

def clamp32 (hi v : W32) : W32 := fmin32 (fmax32 v 0) hi

/-- decode of R263. -/
def detDecode (p : DetPar) (a d : List W32) : W32 × W32 × W32 × W32 :=
  let nth32 (xs : List W32) (i : Nat) : W32 := xs.getD i 0
  let dx := fmul (nth32 d 0) p.varXy
  let dy := fmul (nth32 d 1) p.varXy
  let dw := fmin32 (fmul (nth32 d 2) p.varWh) p.dwhClip
  let dh := fmin32 (fmul (nth32 d 3) p.varWh) p.dwhClip
  let cx := addProd (nth32 a 0) dx (nth32 a 2)
  let cy := addProd (nth32 a 1) dy (nth32 a 3)
  let w := fmul (nth32 a 2) (sfuExp false dw)
  let h := fmul (nth32 a 3) (sfuExp false dh)
  let half : W32 := 0x3F000000#32
  let nhalf : W32 := 0xBF000000#32
  let x0 := ffma nhalf w cx
  let y0 := ffma nhalf h cy
  let x1 := ffma half w cx
  let y1 := ffma half h cy
  if p.clip then (clamp32 p.imgW x0, clamp32 p.imgH y0, clamp32 p.imgW x1, clamp32 p.imgH y1) else (x0, y0, x1, y1)

/-- Anchors and deltas of anchor `i`, decoded. -/
def State.detBox (s : State) (j t : Nat) (p : DetPar) (deltas scores : Tensor) (cls i : Nat) :
    Except Code DetBox :=
  match sequenceE ((List.range 4).map (fun c => s.detElem j t deltas i c)), s.detElem j t scores i cls with
  | .ok d, .ok sc =>
    let a := (elemsOf 4 4 (s.readMem (p.anchors + 16 * i) 16)).map (BitVec.ofNat 32)
    let b := detDecode p a d
    .ok ⟨b.1, b.2.1, b.2.2.1, b.2.2.2, if p.sigmoid then sfuSigmoid false sc else sc, i⟩
  | .error e, _ => .error e
  | .ok _, .error e => .error e

/-- A candidate (R263). -/
def DetBox.live (p : DetPar) (b : DetBox) : Bool :=
  !isNaN32 b.score && decide (0 ≤ FV.cmp (val32 b.score) (val32 p.scoreMin))
    && finite32 b.x0 && finite32 b.y0 && finite32 b.x1 && finite32 b.y1

/-- `b` goes before `c` (R264). -/
def DetBox.before (b c : DetBox) : Bool :=
  let k := FV.cmp (val32 b.score) (val32 c.score)
  decide (0 < k) || (decide (k = 0) && decide (b.anchor < c.anchor))

def insertBox (b : DetBox) : List DetBox → List DetBox
  | [] => [b]
  | c :: cs => if b.before c then b :: c :: cs else c :: insertBox b cs

def posDiff (a b : W32) : W32 := fmax32 0 (fsub a b)

def DetBox.area (b : DetBox) : W32 := fmul (posDiff b.x1 b.x0) (posDiff b.y1 b.y0)

/-- overlaps of R264. -/
def detOverlaps (iou : W32) (k b : DetBox) : Bool :=
  let inter := fmul (posDiff (fmin32 k.x1 b.x1) (fmax32 k.x0 b.x0)) (posDiff (fmin32 k.y1 b.y1) (fmax32 k.y0 b.y0))
  let uni := fsub (fadd k.area b.area) inter
  let lim := fmul iou uni
  !isNaN32 inter && !isNaN32 lim && decide (0 < FV.cmp (val32 inter) (val32 lim))

/-- suppress of R264. -/
def detSuppress (p : DetPar) (cands : List DetBox) : List DetBox :=
  cands.foldl (fun kept b =>
    if p.topK ≤ kept.length then kept
    else if kept.any (fun k => detOverlaps p.iou k b) then kept else kept ++ [b]) []

/-- A detection record (R265). -/
def detRecord (b : DetBox) (cls rank : Nat) : List Byte :=
  [b.x0, b.y0, b.x1, b.y1, b.score].flatMap (fun w => natLe 4 w.toNat) ++ natLe 4 b.anchor ++ natLe 2 cls
    ++ natLe 2 rank ++ natLe 4 0

/-- One class (R261, R264, R265). -/
def State.detClass (s : State) (j t : Nat) (r : DealRec) (p : DetPar) (m n cls : Nat) : HandRun :=
  if p.background ∧ cls = 0 then .ok (s.writeMem (p.counts + 8 * cls) (natLe 8 0), .zeros)
  else
    let deltas := dealTensor r.fa false r.aBase 0 r.aLd 4 4 m
    let scores := dealTensor r.fb false r.bBase 0 r.bLd r.maxN n m
    match sequenceE ((List.range m).map (fun i => s.detBox j t p deltas scores cls i)) with
    | .error c => s.liftErr r.aBase (.error c)
    | .ok boxes =>
      let cands := (boxes.filter (fun b => b.live p)).foldl (fun acc b => insertBox b acc) []
      let kept := detSuppress p (cands.take p.preK)
      let s1 := (kept.zipIdx).foldl (fun s q =>
        s.writeMem (r.outBase + (cls * p.topK + q.2) * 32) (detRecord q.1 cls q.2)) s
      .ok (s1.writeMem (p.counts + 8 * cls) (natLe 4 kept.length ++ natLe 4 cands.length), .zeros)

def GenPlan.detSpans (p : GenPlan) : List (Nat × Nat) :=
  let r := p.rec_
  let d := detOf p.aux
  (dealTensor r.fa false r.aBase 0 r.aLd 4 4 p.m).allSpans
    ++ (dealTensor r.fb false r.bBase 0 r.bLd r.maxN p.n p.m).allSpans ++ [(d.anchors, 16 * p.m)]
    ++ p.units.flatMap (fun c => [(r.outBase + c * d.topK * 32, d.topK * 32), (d.counts + 8 * c, 8)])

def GenPlan.runDetect (p : GenPlan) (s : State) (t : Nat) (h : Hand) : HandRun :=
  foldHand (fun s c => s.detClass h.job t p.rec_ (detOf p.aux) p.m p.n c) p.units (s, .zeros)

/-! Attention (R203, R204). -/

/-- What an attention hand runs with. -/
structure AttHand where
  job  : Nat
  tile : Nat
  rec_ : DealRec
  par  : AttPar
  bind : Binding
  rule : MaskRule
  qb   : Nat
  kb   : Nat
  nq   : Nat
  nk   : Nat
  mode : RndMode
  thresh : W32
  deriving DecidableEq, Repr

/-- KV head of a query head (Table 9 of 06). -/
def AttHand.kvHead (a : AttHand) (h : Nat) : Nat := h / (a.par.heads / (windowOf a.bind.win).kvHeads)

/-- A head of an operand with rows of 128. -/
def AttHand.tensor (a : AttHand) (fmt base hs ld h : Nat) : Tensor :=
  dealTensor fmt false (base + h * hs) 0 ld 128 128 a.nq

/-- (log-sum-exp, delta) pairs of a head, [head][row]. -/
def AttHand.lse (a : AttHand) (h : Nat) : Tensor := dealTensor 0 false (a.par.lse + h * a.nq * 8) 0 8 2 2 a.nq

/-- Query rows of block `b`. -/
def AttHand.rows (a : AttHand) (b : Nat) : Nat := min 128 (a.nq - 128 * b)

def AttHand.ops (a : AttHand) (h b key0 keys : Nat) : AttOps :=
  { q0 := a.par.qstart + 128 * b, row0 := 128 * b, head := a.kvHead h, key0 := key0, keys := keys, rows := a.rows b }

/-- Runs clipped to a count of blocks. -/
def clipRuns (kb : Nat) (rs : List (Nat × Nat)) : List (Nat × Nat) :=
  (rs.map (fun r => (r.1, min r.2 (kb - r.1)))).filter (fun r => decide (0 < r.2))

/-- Blocks that runs list. -/
def runBlocks (rs : List (Nat × Nat)) : List Nat := rs.flatMap (fun r => (List.range r.2).map (· + r.1))

/-- Blocks of group `g`. -/
def AttHand.group (a : AttHand) (g : Nat) : List Nat := (List.range (min 32 (a.qb - 32 * g))).map (· + 32 * g)

/-- Reads of a part: window checks, and the error they meet. -/
def State.attCheck (s : State) (a : AttHand) (o : AttOps) (blocks : List KeyBlock) : Option AccErr :=
  let rd := attReads s a.bind o blocks []
  s.checkAccesses (.job a.job) rd.2

/-- Part of a row after one run of key blocks. -/
def State.fwdPart (s : State) (a : AttHand) (qs : List (List FV)) (h b : Nat) (xs : List AttRow) (run : Nat × Nat) :
    Except AccErr (List AttRow × List KeyBlock) :=
  let o := a.ops h b (512 * run.1) (min (512 * run.2) (a.nk - 512 * run.1))
  let blocks := keyBlocks a.rule o
  match s.attCheck a o blocks with
  | some e => .error e
  | none =>
    match s.attBlocks a.tile a.bind o blocks with
    | .error e => .error e
    | .ok kvs =>
      .ok (((xs.zip qs).zipIdx).map (fun p =>
        afwdRows a.rule o a.rec_.fa (windowOf a.bind.win).pfmt (pageListOf a.bind.vl).fmt kvs p.2 p.1.2 p.1.1), blocks)

/-- All parts of a block, ascending. -/
def State.fwdParts (s : State) (a : AttHand) (qs : List (List FV)) (h b : Nat) :
    List (Nat × Nat) → List AttRow × List KeyBlock → Except AccErr (List AttRow × List KeyBlock)
  | [], p => .ok p
  | r :: rs, p =>
    match s.fwdPart a qs h b p.1 r with
    | .error e => .error e
    | .ok q => s.fwdParts a qs h b rs (q.1, p.2 ++ q.2)

/-- One query block of a head (R203). -/
def State.fwdBlock (s : State) (a : AttHand) (runs : List (Nat × Nat)) (p : Nat × Nat) : HandRun :=
  let h := p.1
  let b := p.2
  let q := a.tensor a.rec_.fa a.rec_.aBase a.par.qHs a.rec_.aLd h
  let d := a.tensor a.rec_.fo a.rec_.outBase a.par.oHs a.rec_.outLd h
  let l := a.lse h
  match s.queryRows a.job a.tile a.bind q (a.ops h b 0 0) with
  | .error c => s.liftErr q.base (.error c)
  | .ok qs =>
    match s.fwdParts a qs h b runs (List.replicate (a.rows b) ⟨maskVal, 0, List.replicate 128 0⟩, []) with
    | .error e => .error e
    | .ok r =>
      let fs := r.1.map afwdFinal
      let fp8 := attFp8 a.rec_.fa
      let s1 := s.modTile a.tile (attCount r.2 48 (if fp8 then 256 else 512) 48)
      (fs.zipIdx).foldl (fun acc f =>
        match acc with
        | .error e => .error e
        | .ok (s, c) =>
          let ix : RowIx := ⟨128 * b + f.2, 0, 0, 0⟩
          match s.putRunFor a.job a.tile d ⟨false, 0⟩ 0 ix 0 (f.1.1.o.map val32) with
          | .error e => s.liftErr d.base (.error e)
          | .ok p =>
            match p.1.putRunFor a.job a.tile l ⟨false, 0⟩ 0 ix 0 [val32 f.1.2] with
            | .error e => s.liftErr l.base (.error e)
            | .ok p => .ok (p.1, c)) (.ok (s1, .zeros))

/-- Query head and group of a forward unit. -/
def AttHand.unit (a : AttHand) (u : Nat) : Nat × Nat :=
  let g := ceilDiv a.qb 32
  (u / g, u % g)

/-- The (head, block) pairs of forward units. -/
def AttHand.unitBlocks (a : AttHand) (us : List Nat) : List (Nat × Nat) :=
  us.flatMap (fun u => let p := a.unit u; (a.group p.2).map (fun b => (p.1, b)))

/-- delta of R204, set 1: products of O and dO summed by the tree of R140. -/
def State.deltaRow (s : State) (a : AttHand) (p : Nat × Nat) : HandRun :=
  let o := a.tensor 1 a.par.oBase a.par.oHs a.rec_.outLd p.1
  let g := a.tensor 1 a.par.doBase a.par.oHs a.rec_.outLd p.1
  match s.attOperand a.job a.tile o p.2 128, s.attOperand a.job a.tile g p.2 128 with
  | .ok x, .ok y =>
    let prods := (x.zip y).map (fun q => to32 (q.1.mul q.2))
    let delta := tree512 fadd (prods ++ List.replicate 384 0)
    s.liftErr a.par.lse (s.putRunFor a.job a.tile (a.lse p.1) ⟨false, 0⟩ 0 ⟨p.2, 0, 0, 0⟩ 1 [val32 delta])
  | .error c, _ => s.liftErr o.base (.error c)
  | .ok _, .error c => s.liftErr g.base (.error c)

/-- Rows of a (head, block) pair. -/
def AttHand.blockRows (a : AttHand) (p : Nat × Nat) : List (Nat × Nat) :=
  (List.range (a.rows p.2)).map (fun i => (p.1, 128 * p.2 + i))

/-- The inverse rotation of a gradient row (R181). -/
def Window.unrotate (d : Window) (freq : List Nat) (c : Coord) (xs : List W32) : List W32 :=
  (List.range 64).flatMap (fun j =>
    let x0 := val32 (xs.getD (2 * j) 0)
    let x1 := val32 (xs.getD (2 * j + 1) 0)
    match d.ropePos c j with
    | none => [xs.getD (2 * j) 0, xs.getD (2 * j + 1) 0]
    | some p =>
      let a := ropeAngle freq p j
      [to32 ((x0.mul a.1).add (val32 (to32 (x1.mul a.2)))), to32 ((x1.mul a.1).sub (val32 (to32 (x0.mul a.2))))])

/-- Address of a dQ partial (R204). -/
def AttHand.partialAddr (a : AttHand) (h b c : Nat) : Nat := a.par.dqp + ((h * a.qb + b) * ceilDiv a.kb 16 + c) * 65536

/-- Gradients of a chunk: rows of dK and dV of its keys. -/
structure ChunkGrad where
  dk : List (List W32)
  dv : List (List W32)
  deriving DecidableEq, Repr

def addRows (a b : List W32) : List W32 := (a.zip b).map (fun p => fadd p.1 p.2)

/-- One issued pair: accumulator rows and the gradients of its keys (R180). -/
def bwdPair (a : AttHand) (o : AttOps) (rows : List (List FV × List FV × W32 × W32))
    (p : List (List W32) × ChunkGrad) (b : KeyBlock × List (List FV) × List (List FV)) : List (List W32) × ChunkGrad :=
  let ps := (rows.zipIdx).map (fun r =>
    abwdRow a.rule o b.1 b.2.1 b.2.2 r.2 r.1.1 r.1.2.1 r.1.2.2.1 r.1.2.2.2)
  let kcols := columns128 b.2.1
  let acc := (p.1.zip ps).map (fun r => pvRow 1 r.2.2 kcols r.1)
  let base := b.1.first - o.key0
  let at_ (f : List FV × List FV → List FV) (i r : Nat) : FV := nth (f (ps.getD r ([], []))) i
  let row (f : List FV × List FV × W32 × W32 → List FV) (d r : Nat) : FV := nth (f (rows.getD r ([], [], 0, 0))) d
  let upd (old : List (List W32)) (f : Nat → Nat → W32) : List (List W32) :=
    (old.zipIdx).map (fun x =>
      if base ≤ x.2 ∧ x.2 < base + b.1.count then
        addRows x.1 ((List.range 128).map (f (x.2 - base)))
      else x.1)
  (acc,
    { dk := upd p.2.dk (fun i d => rowSum rows.length (at_ Prod.snd i) (row Prod.fst d)),
      dv := upd p.2.dv (fun i d => rowSum rows.length (at_ Prod.fst i) (row (fun r => r.2.1) d)) })

/-- One query block against a chunk: MZERO, ABWD over the chunk's keys, MSTORE of the partial (R204). -/
def State.bwdBlock (s : State) (a : AttHand) (h c b : Nat) (g : ChunkGrad) : Except AccErr (State × ChunkGrad) :=
  let key0 := 8192 * c
  let o := a.ops h b key0 (min 8192 (a.nk - key0))
  let q := a.tensor 1 a.rec_.aBase a.par.qHs a.rec_.aLd h
  let d := a.tensor 1 a.par.doBase a.par.oHs a.rec_.outLd h
  let blocks := keyBlocks a.rule o
  match s.attCheck a o blocks with
  | some e => .error e
  | none =>
    match s.queryRows a.job a.tile a.bind q o with
    | .error e => s.liftErr q.base (.error e)
    | .ok qs =>
      match s.gradRows a.job a.tile d (a.lse h) o qs, sequenceA ((blocks.filter (·.issued)).map (fun k =>
          match s.keyRows a.tile a.bind o k, s.blockVals a.tile (pageListOf a.bind.vl) o.head k with
          | .ok ks, .ok vs => .ok (k, ks, vs)
          | .error e, _ => .error e
          | .ok _, .error e => .error e)) with
      | .error e, _ => s.liftErr d.base (.error e)
      | .ok _, .error e => .error e
      | .ok rows, .ok kvs =>
        let r := kvs.foldl (bwdPair a o rows) (List.replicate o.rows (List.replicate 128 0), g)
        let s1 := s.modTile a.tile (attCount blocks 64 1280 0)
        let full := r.1 ++ List.replicate (128 - o.rows) (List.replicate 128 0)
        .ok (s1.writeMem (a.partialAddr h b c) (full.flatten.flatMap (fun w => natLe 4 w.toNat)), r.2)

def State.bwdBlocks (s : State) (a : AttHand) (h c : Nat) : List Nat → ChunkGrad → Except AccErr (State × ChunkGrad)
  | [], g => .ok (s, g)
  | b :: bs, g =>
    match s.bwdBlock a h c b g with
    | .error e => .error e
    | .ok p => p.1.bwdBlocks a h c bs p.2

/-- Writes a row of 128 gradients in FMT_OUT at an address. -/
def State.putGrad (s : State) (a : AttHand) (base row : Nat) (xs : List W32) : HandRun :=
  let d := dealTensor a.rec_.fo false base 0 (128 * (fmtBits a.rec_.fo / 8)) 128 128 (row + 1)
  s.liftErr base (s.putRunFor a.job a.tile d a.mode a.thresh ⟨row, 0, 0, 0⟩ 0 (xs.map val32))

/-- One chunk of a head (R204, set 2). -/
def State.bwdChunk (s : State) (a : AttHand) (pieces : List (List (Nat × Nat))) (u : Nat) : HandRun :=
  let n := ceilDiv a.kb 16
  let h := u / n
  let c := u % n
  let keys := min 8192 (a.nk - 8192 * c)
  let zero := List.replicate keys (List.replicate 128 (0 : W32))
  match s.bwdBlocks a h c (runBlocks (clipRuns a.qb (pieces.getD c []))) ⟨zero, zero⟩ with
  | .error e => .error e
  | .ok p =>
    let w := windowOf a.bind.win
    let freq := s.ropeFreq a.tile w
    let turn (i : Nat) (xs : List W32) : List W32 :=
      let k := 8192 * c + i
      if a.bind.rope ∧ w.globals ≤ k then w.unrotate freq (w.coord (k - w.globals)) xs else xs
    foldHand (fun s i =>
      let row := h * a.nk + 8192 * c + i
      match s.putGrad a a.par.dkBase row (turn i (p.2.dk.getD i [])) with
      | .error e => .error e
      | .ok q =>
        match q.1.putGrad a a.par.dvBase row (p.2.dv.getD i []) with
        | .error e => .error e
        | .ok q2 => .ok (q2.1, q.2.add q2.2)) (List.range keys) (p.1, .zeros)

/-- One row of dQ: the partials of the chunks whose runs list its block, in ascending chunk (R204, set 3). -/
def State.sumRow (s : State) (a : AttHand) (pieces : List (List (Nat × Nat))) (p : Nat × Nat) : HandRun :=
  let b := p.2 / 128
  let chunks := (List.range (ceilDiv a.kb 16)).filter (fun c =>
    (runBlocks (clipRuns a.qb (pieces.getD c []))).contains b)
  let acc := chunks.foldl (fun acc c =>
    addRows acc (wordsOf (s.readMem (a.partialAddr p.1 b c + p.2 % 128 * 512) 512))) (List.replicate 128 (0 : W32))
  let w := windowOf a.bind.win
  let xs := if a.bind.rope then
      w.unrotate (s.ropeFreq a.tile w) (w.coord (a.par.qstart + p.2)) acc else acc
  let d := a.tensor a.rec_.fo a.rec_.outBase a.par.qHs a.rec_.outLd p.1
  s.liftErr d.base (s.putRunFor a.job a.tile d a.mode a.thresh ⟨p.2, 0, 0, 0⟩ 0 (xs.map val32))

/-- The binding of the hand's context: L is TAIL as read now (R62, R176). -/
def GenPlan.attHand (p : GenPlan) (s : State) (t : Nat) (h : Hand) : Except Code AttHand :=
  let r := p.rec_
  let par := attParOf p.aux
  let dk := p.desc 192
  let dv := p.desc 256
  let len := match bindSeq dk dv with
    | some b => s.seqTail b
    | none => 0
  let bind : Binding := ⟨p.desc 128, dk, dv, par.rope, len⟩
  match s.maskRule t bind with
  | none => .error Codes.isaFieldRange
  | some m =>
    .ok { job := h.job, tile := t, rec_ := r, par := par, bind := bind, rule := m, qb := ceilDiv p.m 128,
          kb := ceilDiv p.n 512, nq := p.m, nk := p.n, mode := p.mode h, thresh := h.thresh }

/-- Faults of the hand's ABIND (R62, R173, R183, R184, R194, R195). -/
def GenPlan.attFault (p : GenPlan) (s : State) (t : Nat) : Option Code :=
  let c := (attParOf p.aux).ctx
  let lk := pageListOf (p.desc 192)
  let lv := pageListOf (p.desc 256)
  let seq := bindSeq (p.desc 192) (p.desc 256)
  let seqOk (l : PageList) : Bool :=
    l.locus != 0 || (s.checkRange (.job (s.tile t).job) l.seqBase 64).isSome || !s.seqBad l
  lowest [(!s.ctxOwned t c, Codes.ctxNotOwned),
    ((lk.locus == 0 && lv.locus == 0 && lk.seqBase != lv.seqBase)
      || ((windowOf (p.desc 128)).tree && lk.locus != 0), Codes.isaDescInvalid),
    (!(seqOk lk && seqOk lv), Codes.seqRecord), (s.seqConflict t c seq, Codes.seqConflict)]

/-- Runs of a forward unit's group. -/
def GenPlan.fwdRuns (p : GenPlan) (kb g : Nat) : List (Nat × Nat) := clipRuns kb (p.pieces.getD g [])

def GenPlan.runAttn (p : GenPlan) (s : State) (t : Nat) (h : Hand) : HandRun :=
  match p.attHand s t h with
  | .error c => .error ⟨c, []⟩
  | .ok a =>
    let c := a.par.ctx
    let seq := bindSeq a.bind.kl a.bind.vl
    let s := (s.takeHold t c seq).modTile t (fun y => { y with ctx := y.ctx.splice c (c + 1) [(c, a.bind)] })
    if p.rec_.opc = 2 then
      foldHand (fun s q => s.fwdBlock a (p.fwdRuns a.kb (q.2 / 32)) q) (a.unitBlocks p.units) (s, .zeros)
    else
      match p.set with
      | 0 => foldHand (fun s q => s.deltaRow a q) ((a.unitBlocks p.units).flatMap a.blockRows) (s, .zeros)
      | 1 => foldHand (fun s u => s.bwdChunk a p.pieces u) p.units (s, .zeros)
      | _ => foldHand (fun s q => s.sumRow a p.pieces q) ((a.unitBlocks p.units).flatMap a.blockRows) (s, .zeros)

/-- Bytes of the unified range of an attention hand, its lists' pages apart (R185). -/
def GenPlan.attSpans (p : GenPlan) (s : State) : List (Nat × Nat) :=
  let r := p.rec_
  let a := attParOf p.aux
  let head (base hs ld fmt : Nat) : List (Nat × Nat) :=
    (List.range a.heads).flatMap (fun h => (dealTensor fmt false (base + h * hs) 0 ld 128 128 p.m).allSpans)
  let lin (d : Desc) : List (Nat × Nat) :=
    let l := pageListOf d
    if l.locus = 0 then [(l.seqBase, 64 + 8 * s.seqLayers l.seqBase * l.heads * l.entries)]
    else if l.locus = 1 then
      let n := min p.n (l.pos0 + 512 * l.entries) - l.pos0
      (List.range l.heads).map (fun h => (l.poolBase + h * l.headStride, n * 128 * l.elemBytes))
    else []
  head r.aBase a.qHs r.aLd r.fa ++ [(a.lse, a.heads * p.m * 8)] ++ lin (p.desc 192) ++ lin (p.desc 256)
    ++ (if r.opc = 2 then head r.outBase a.oHs r.outLd r.fo
      else
        let grads := a.heads * p.n * 128 * (fmtBits r.fo / 8)
        match p.set with
        | 0 => head a.oBase a.oHs r.outLd 1 ++ head a.doBase a.oHs r.outLd 1
        | 1 => head a.doBase a.oHs r.outLd 1 ++ [(a.dkBase, grads), (a.dvBase, grads)]
            ++ [(a.dqp, a.heads * ceilDiv p.m 128 * attChunkCount p.n * 65536)]
        | _ => head r.outBase a.qHs r.outLd r.fo
            ++ [(a.dqp, a.heads * ceilDiv p.m 128 * attChunkCount p.n * 65536)])

/-! Any generated hand. -/

/-- Bytes of the unified range that a hand touches. -/
def GenPlan.spans (p : GenPlan) (s : State) (t : Nat) (h : Hand) : List (Nat × Nat) :=
  match p.rec_.opc with
  | 1 => p.gemmSpans (p.gemmHand s t h)
  | 4 => p.gemmSpans (p.gemmHand s t h)
  | 2 => p.attSpans s
  | 3 => p.attSpans s
  | 7 => p.detSpans
  | _ => p.winSpans (winOpOf (p.desc 0))

/-- What a hand computes. -/
def GenPlan.run (p : GenPlan) (s : State) (t : Nat) (h : Hand) : HandRun :=
  match p.rec_.opc with
  | 1 => p.runGemm s t h
  | 4 => p.runGemm s t h
  | 2 => p.runAttn s t h
  | 3 => p.runAttn s t h
  | 7 => p.runDetect s t h
  | _ => p.runWin s t h

/-- A fault that the hand meets before its effect. -/
def GenPlan.fault (p : GenPlan) (s : State) (t : Nat) : Option Code :=
  if p.rec_.opc = 2 ∨ p.rec_.opc = 3 then p.attFault s t else none

end Sys2Proof.Machine
end

