-- ==== Sys2Proof/Machine/PowerTrace.lean ====
section
/-!
DEFINITION. Machine/PowerTrace.lean: class 7, power and trace (R68, R69, R438).
-/

namespace Sys2Proof.Machine

/-- ANTE on the tile's power state: DENSITY 0 cancels the phase of that identifier, else the phase is in effect
(R68, R438). -/
def anteSet (p : TilePower) (phase density : Nat) : TilePower :=
  if density = 0 then
    if p.phaseValid && p.phase == phase then { p with phaseValid := false, density := 0 } else p
  else { p with phase := phase, phaseValid := true, density := density }

def anteEff (t : Tile) (phase density durK : Nat) (s : State) : Eff :=
  if 64 < density ∨ (1 ≤ density ∧ durK = 0) then .fault Codes.isaFieldRange
  else onTile t (fun x => { x with pwr := anteSet x.pwr phase density }) s

def execAnte (t : Tile) (g : Guard) (phase : BitVec 8) (density : BitVec 7) (durK : BitVec 20) (s : State) :
    Host.Outcome State Fault Refusal :=
  .next (issue t g (slotOf (.ante t g phase density durK)) (anteEff t phase.toNat density.toNat durK.toNat) s)

/-- The duration of the phase in effect ends (R438). -/
def phaseEnd (t : Tile) (s : State) : State :=
  s.modTile t (fun x => { x with pwr := { x.pwr with phaseValid := false, density := 0 } })

def execPhaseExpiry (t : Tile) (s : State) : Host.Outcome State Fault Refusal :=
  .next (if (s.tile t).pwr.phaseValid then phaseEnd t s else s)

/-- A trace record (R69); its 36 bits of the tclk count are a free value (log entry 3). -/
def traceRecord (tag slot clk : Nat) (v : W64) : BitVec 128 :=
  BitVec.ofNat 128 (at_ 112 tag + at_ 100 (slot % 4096) + at_ 64 (clk % 2 ^ 36) + v.toNat)

/-- Appends a record; a full buffer overwrites the oldest and sets WRAPPED (R69). -/
def TileSt.appendTrace (x : TileSt) (r : BitVec 128) : TileSt :=
  { x with trace := x.trace.set 0 x.regs.traceNext r,
           regs := { x.regs with traceNext := (x.regs.traceNext + 1) % 256,
                                 traceCount := min 256 (x.regs.traceCount + 1),
                                 traceWrap := x.regs.traceWrap || x.regs.traceCount == 256 } }

def traceEff (t : Tile) (tag : Nat) (sx : BitVec 5) (s : State) : Eff :=
  let (w, s') := s.draw
  onTile t (fun x => x.appendTrace (traceRecord tag x.pc w.toNat (x.sreg sx))) s'

def execTrace (t : Tile) (g : Guard) (tag : BitVec 16) (sx : BitVec 5) (s : State) :
    Host.Outcome State Fault Refusal :=
  .next (issue t g (slotOf (.trace t g tag sx)) (traceEff t tag.toNat sx) s)

/-- CNTRD (R69): counters 1 and 3 as they stood before it issued; 0 and 2 count time and are free values
(log entry 3). -/
def cntrdEff (t : Tile) (sx : BitVec 5) (sel : Nat) (s : State) : Eff :=
  match sel with
  | 1 => onTile t (fun x => x.setS sx (BitVec.ofNat 64 x.busy)) s
  | 3 => onTile t (fun x => x.setS sx (BitVec.ofNat 64 x.issued)) s
  | n =>
    if 3 < n then .fault Codes.isaFieldRange
    else
      let (w, s') := s.draw
      onTile t (fun x => x.setS sx w) s'

def execCntrd (t : Tile) (g : Guard) (sx : BitVec 5) (sel : BitVec 8) (s : State) : Host.Outcome State Fault Refusal :=
  .next (issue t g (slotOf (.cntrd t g sx sel)) (cntrdEff t sx sel.toNat) s)

end Sys2Proof.Machine
end

