-- ==== Sys2Proof/Machine/Dealer.lean ====
section
/-!
DEFINITION. Machine/Dealer.lean: dealing records, starting hands, HALT and the end of a hand (R26, R76 to R99, R123, R124,
R204).
-/

namespace Sys2Proof.Machine

/-! The choice of a record (R76). -/

/-- Head record of a queue: its address. -/
def DealQueue.head (q : DealQueue) : Nat := q.addr + 128 * q.next

/-- The Dealer may deal the head of this queue: the job runs, and no wait of R76 or R80 holds it. -/
def State.queueReady (s : State) (d : Nat) (q : DealQueue) : Bool :=
  match s.job q.job with
  | none => false
  | some x =>
    let r := dealOf (s.readMem q.head 128)
    let busy (t : Nat) : Bool := (s.tile (12 * d + t)).hand.isSome
    let any := (maskBits (s.dieMask q.job d) 12).any busy
    x.phase == .running && x.fault.isNone && !x.heldBack && decide (q.next < q.count) && q.inHand.isNone
      && !((r.waitPrior || r.opc == 0x0E) && any) && !r.tiles.any busy

/-- Keys above `last` first, then the others: round robin. -/
def roundRobin (last : Nat) (xs : List (Nat × Nat)) : List Nat :=
  let ys := sortKey Prod.fst xs
  (ys.filter (fun p => decide (last < p.1)) ++ ys.filter (fun p => decide (p.1 ≤ last))).map (·.2)

/-- Queue numbers of a die in the order that R76 tries them. -/
def State.dealOrder (s : State) (d : Nat) : List Nat :=
  let x := s.dealer d
  let qs := x.queues.filter (fun p => p.2.job != 0)
  let adm (j : Nat) : Nat := match s.job j with
    | some y => y.admitted
    | none => 0
  let lc := qs.filter (fun p => s.isLc p.2.job)
  let be := qs.filter (fun p => !s.isLc p.2.job)
  roundRobin x.lastLc (lc.map (fun p => (adm p.2.job, p.1)))
    ++ (qs.filter (fun p => s.sched.ante != 0 && p.2.job == s.sched.ante)).map (·.1)
    ++ roundRobin x.lastBe (be.map (fun p => (p.2.job, p.1)))

def State.queue (s : State) (d q : Nat) : DealQueue := (s.dealer d).queues.get .init q

def State.setQueue (s : State) (d q : Nat) (x : DealQueue) : State :=
  s.modDealer d (fun y => { y with queues := y.queues.set .init q x })

/-- The queue whose head record is next. -/
def State.dealPick (s : State) (d : Nat) : Option Nat :=
  (s.dealOrder d).find? (fun q => s.queueReady d (s.queue d q))

/-- The head record has been dealt: the queue moves on, and round robin remembers the job. -/
def State.dealt (s : State) (d q : Nat) : State :=
  let x := s.queue d q
  let s := s.setQueue d q { x with next := x.next + 1 }
  match s.job x.job with
  | some y => s.modDealer d (fun z => if y.desc.cls = 1 then { z with lastLc := y.admitted } else { z with lastBe := x.job })
  | none => s

/-! Rejection (R96). -/

/-- Writes DLR.REJECT if it holds no rejection, logs the code and faults the job (R96, Table 9 of 03). -/
def State.dealReject (s : State) (d j macroId tile : Nat) (code : Code) : State :=
  let s := s.modDealer d (fun x =>
    if x.reject.valid then x else { x with reject := ⟨BitVec.ofNat 32 macroId, true, tile, code⟩ })
  s.jobFaults j code { cls := 2, idx := d, unit := if tile = 0xF then 0xFFFF else tile,
                       data := natLe 4 macroId ++ natLe 1 tile }

/-! Hand start (R26, R75, R123, R135, R437, R442). -/

/-- What a hand starts with. -/
structure HandStart where
  job    : Nat
  record : Nat
  phase  : Nat
  id     : W64
  count  : Nat
  gen    : Option GenPlan
  params : List W64
  slots  : List Slot
  descs  : List Desc
  deriving DecidableEq, Repr

/-- The registers that the Dealer loads before a hand starts (R123). -/
def TileRegs.load (r : TileRegs) (entry : Option Nat) (seed : W64) (phase : Nat) : TileRegs :=
  let r := match entry with
    | some w => { r with thresh := BitVec.ofNat 32 w, rate := bitsOf w 38 32 }
    | none => r
  { r with seed := seed, phase := phase, sums := .zeros, compat := 0, pairsIssued := 0, pairsSkipped := 0,
           appendDropped := 0, degenerate := 0 }

/-- The power state at a hand start: the ramp starts, a zero budget runs at 16, and a generated hand opens with its ANTE
(R86, R437, R442). -/
def TilePower.start (p : TilePower) (phase : Nat) (density : Option Nat) : TilePower :=
  let p := { p with ramp := some 0, droops := 0, budget := if p.budget = 0 then 16 else p.budget }
  match density with
  | some n => anteSet p phase n
  | none => p

def State.startHand (s : State) (t : Nat) (h : HandStart) : State :=
  let x := s.tile t
  let seed := match s.job h.job with
    | some y => y.desc.seed
    | none => 0
  let entry := (s.precEntry h.job h.phase).map (fun a => s.readLe a 8)
  let regs := x.regs.load entry seed h.phase
  let rate := match s.job h.job with
    | some y => if y.desc.cls = 1 then y.desc.replayRate else regs.rate
    | none => regs.rate
  let hand : Hand :=
    { id := h.id, count := h.count, job := h.job, record := h.record, gen := h.gen, waitLimit := regs.waitLimit,
      thresh := regs.thresh, rate := rate, seed := seed, phase := h.phase, storm := false, lc := s.isLc h.job }
  s.setTile t
    { x with
      s := SMap.setRange 0 [] 1 h.params, v := [], p := [], e := [], loops := [], d := SMap.setRange 0 [] 0 h.descs,
      pc := 1, ibuf := SMap.setRange 0 [] 0 h.slots, ctx := [], dmas := [], appends := [], run := .running,
      hand := some hand, busy := 0, issued := 0, regs := regs,
      pwr := x.pwr.start h.phase (h.gen.map (·.density)) }

/-- Starts the hands of one set of a generated record: a tile with no units takes none (R84). -/
def State.startSet (s : State) (d : Nat) (j record : Nat) (p : GenPlan) (units : Nat) : State :=
  let r := p.rec_
  let ts := r.tiles
  (ts.zipIdx).foldl (fun s q =>
    let u := share units ts.length q.2
    if u.2 = 0 then s
    else
      let (w, s) := s.draw
      s.startHand (12 * d + q.1)
        { job := j, record := record, phase := r.phase, id := w, count := 0,
          gen := some { p with ordinal := q.2, ntiles := ts.length, first := u.1, count := u.2 },
          params := [q.2, ts.length, p.m, p.n, p.k].map (BitVec.ofNat 64), slots := [], descs := [] }) s

/-- Forward units of an attention record; sets 0 and 2 of ATTN_BWD are cut by them (R204). -/
def GenPlan.setUnits (p : GenPlan) : Nat :=
  let heads := (attParOf p.aux).heads
  if p.set = 1 then heads * attChunkCount p.n else heads * attGroupCount p.m

/-! Dealing (R76 to R96). -/

/-- A record whose hands the Dealer generates. -/
def State.dealGenerated (s : State) (d q : Nat) (r : DealRec) : State :=
  let x := s.queue d q
  let j := x.job
  let c := s.recordCheck d j r
  let prec := match s.precEntry j r.phase with
    | some a => [(a, 8)]
    | none => []
  match s.absentOf (boundSpan r.bM ++ boundSpan r.bN ++ boundSpan r.bK ++ prec ++ c.2.1.reads) with
  | p :: ps => s.waitOn j reqDealer d (p :: ps)
  | [] =>
    match lowest c.1 with
    | some code => s.dealReject d j r.macroId 0xF code
    | none =>
      let s1 := s.dealt d q
      if c.2.1.empty then s1
      else
        let (w, s1) := match c.2.1.density with
          | some n => (n, s1)
          | none => let p := s1.draw; (1 + p.1.toNat % 64, p.2)
        let plan : GenPlan :=
          { record := r.raw, aux := c.2.1.aux, pieces := c.2.1.pieces, m := c.2.2.m, n := c.2.2.n, k := c.2.2.k,
            ordinal := 0, ntiles := 0, first := 0, count := 0, set := 0, density := w }
        if r.opc = 3 then
          (s1.startSet d j x.next plan plan.setUnits).setQueue d q { s1.queue d q with inHand := some ⟨0, plan⟩ }
        else s1.startSet d j x.next plan c.2.1.units

/-- SYNC: the records before it have completed, and the runtime learns it (R79). -/
def State.dealSync (s : State) (d q : Nat) (r : DealRec) : State :=
  let x := s.queue d q
  match lowest (s.commonCodes d x.job r) with
  | some code => s.dealReject d x.job r.macroId 0xF code
  | none =>
    let s1 := s.dealt d q
    s1.setQueue d q { s1.queue d q with syncs := x.syncs + 1 }

/-- The stack that holds the first byte of an address; `dflt` where none does. -/
def State.ownerStack (s : State) (dflt addr : Nat) : Nat :=
  match s.page (addr / size2MiB) with
  | some p =>
    match p.frame with
    | some f => f / 32768
    | none => dflt
  | none => dflt

/-- Posts a hand's stack-engine commands to their owning engines, in order (R89, R295, R297). -/
def State.postCmds (s : State) (t j : Nat) (id : W64) (cmds : List (List Byte)) : State :=
  cmds.foldl (fun s c =>
    let key := if fieldLe c 2 1 = 0x0A then fieldLe c 8 8 else fieldLe c 0x10 8
    let k := s.ownerStack (t / 12 * 4) key
    s.modStack k (fun x =>
      { x with queue := x.queue ++ [⟨BitVec.ofNat 512 (leNat c), j, some t, id, false, false⟩] })) s

/-- Reads a hand image at an address (R92). -/
def State.imageAt (s : State) (j a : Nat) : Image :=
  let plan := s.readMem a 256
  let h := handHeader (s.readLe (a + 256) 16)
  let p := planOf plan
  { plan := plan, slots := (List.range (h.count + 1)).map (fun i => s.readLe (a + 256 + 16 * i) 16),
    descs := (List.range (min 64 h.descs)).map (fun i => s.descAt (a + 256 + 16 * (h.count + 1) + 64 * i)),
    cmds := (List.range (min 64 p.seCount)).map (fun i =>
      let c := p.sePtr + 64 * i
      if (s.checkRange (.job j) c 64).isNone then some (s.readMem c 64) else none) }

/-- Bytes of an image. -/
def State.imageSpans (s : State) (a : Nat) : List (Nat × Nat) :=
  let h := handHeader (s.readLe (a + 256) 16)
  let p := planOf (s.readMem a 256)
  [(a, 256 + 16 * (h.count + 1) + 64 * h.descs)]
    ++ (if p.seCount = 0 then [] else [(p.sePtr, 64 * min 64 p.seCount)])

/-- RAW_HAND (R79, R87 to R96). -/
def State.dealRaw (s : State) (d q : Nat) (r : DealRec) : State :=
  let x := s.queue d q
  let j := x.job
  let outside (xs : List (Nat × Nat)) : Bool := xs.any (fun p => (s.checkRange (.job j) p.1 p.2).isSome)
  let prec := match s.precEntry j r.phase with
    | some a => [(a, 8)]
    | none => []
  let headIn := !outside [(r.aux, 272)]
  let image := s.imageSpans r.aux
  match s.absentOf (prec ++ [(r.aux, 272)] ++ (if headIn then image else [])) with
  | p :: ps => s.waitOn j reqDealer d (p :: ps)
  | [] =>
    let recCode := lowest (s.commonCodes d j r ++ s.precCodes j r ++
      [(!headIn || outside (image.take 1), Codes.addrWindow)])
    let im := s.imageAt j r.aux
    let imCode := if headIn && !outside (image.take 1) then lowest (s.imageCodes j im) else none
    match recCode, imCode with
    | some c, some e =>
      if e.toNat < c.toNat then s.dealReject d j r.macroId (r.tiles.headD 0) e else s.dealReject d j r.macroId 0xF c
    | some c, none => s.dealReject d j r.macroId 0xF c
    | none, some e => s.dealReject d j r.macroId (r.tiles.headD 0) e
    | none, none =>
      let h := handHeader (im.slots.headD 0)
      let p := planOf im.plan
      let ts := r.tiles
      let s1 := ts.foldl (fun s t => s.postCmds (12 * d + t) j h.id (im.cmds.filterMap (fun c => c))) (s.dealt d q)
      (ts.zipIdx).foldl (fun s t =>
        let u := 12 * d + t.1
        let s := s.modTile u (fun y =>
          { y with spad := y.spad.setRange 0 spadFree (im.descs.flatMap (fun x => natLe 64 x.toNat)) })
        s.startHand u
          { job := j, record := x.next, phase := r.phase, id := h.id, count := h.count, gen := none,
            params := [BitVec.ofNat 64 t.2, BitVec.ofNat 64 ts.length] ++ (p.params.drop 2).map (BitVec.ofNat 64),
            slots := im.slots.map (BitVec.ofNat 128), descs := im.descs }) s1

/-- A Dealer takes its next record, if it is one of this operation (R76). -/
def deal (opc : Nat) (d : Nat) (s : State) : State :=
  match s.dealPick d with
  | none => s
  | some q =>
    let x := s.queue d q
    match s.absentPages x.head 128 with
    | p :: ps => s.waitOn x.job reqDealer d (p :: ps)
    | [] =>
      let r := dealOf (s.readMem x.head 128)
      if !hdrOk r.hdr 0x41 || !dealOpcs.contains r.opc then
        match lowest (s.commonCodes d x.job r) with
        | some code => s.dealReject d x.job r.macroId 0xF code
        | none => s
      else if r.opc != opc then s
      else
        match opc with
        | 0x0E => s.dealSync d q r
        | 0x0F => s.dealRaw d q r
        | _ => s.dealGenerated d q r

def execGemm (d : Die) (s : State) : Host.Outcome State Fault Refusal := .next (deal 1 d s)
def execAttnFwd (d : Die) (s : State) : Host.Outcome State Fault Refusal := .next (deal 2 d s)
def execAttnBwd (d : Die) (s : State) : Host.Outcome State Fault Refusal := .next (deal 3 d s)
def execConv (d : Die) (s : State) : Host.Outcome State Fault Refusal := .next (deal 4 d s)
def execRegroup (d : Die) (s : State) : Host.Outcome State Fault Refusal := .next (deal 5 d s)
def execCrop (d : Die) (s : State) : Host.Outcome State Fault Refusal := .next (deal 6 d s)
def execDetect (d : Die) (s : State) : Host.Outcome State Fault Refusal := .next (deal 7 d s)
def execSync (d : Die) (s : State) : Host.Outcome State Fault Refusal := .next (deal 0x0E d s)
def execRawHand (d : Die) (s : State) : Host.Outcome State Fault Refusal := .next (deal 0x0F d s)

/-- The next set of an ATTN_BWD record starts once every hand of the set before it has halted (R204). -/
def attnBwdSetStart (d job : Nat) (s : State) : State :=
  match (s.dealer d).queueOf job, s.job job with
  | some q, some x =>
    let dq := s.queue d q
    match dq.inHand with
    | none => s
    | some h =>
      let ready := x.phase == .running && x.fault.isNone && !x.heldBack
        && !h.plan.rec_.tiles.any (fun t => (s.tile (12 * d + t)).hand.isSome)
      if ready then
        let p := { h.plan with set := h.set + 1 }
        (s.startSet d job (dq.next - 1) p p.setUnits).setQueue d q
          { dq with inHand := if h.set + 1 = 2 then none else some ⟨h.set + 1, p⟩ }
      else s
  | _, _ => s

def execAttnBwdSetStart (d : Die) (job : Nat) (s : State) : Host.Outcome State Fault Refusal :=
  .next (attnBwdSetStart d job s)

/-! HALT and HAND_END. -/

/-- HALT of a hand dealt as an image: the hand ends once its DMAs are complete (Table 8 of 02). -/
def haltEff (t : Tile) (s : State) : Eff := .moved (s.modTile t (fun x => { x with run := .halting }))

/-- The HALT of a generated hand, with everything the hand does before it (log entry 6). -/
def haltGenerated (t : Nat) (h : Hand) (p : GenPlan) (s : State) : State :=
  match p.fault s t with
  | some c => let (w, s) := s.draw; s.tileFault t (w.toNat % 161) c
  | none =>
    match s.absentOf (p.spans s t h) with
    | x :: xs => s.waitOn h.job reqTile t (x :: xs)
    | [] =>
      match p.run s t h with
      | .error e =>
        let (w, s) := s.draw
        (s.tileReport t (w.toNat % 161) e.code h.job h.id e.data).modTile t (fun x => { x with run := .halting })
      | .ok q => (q.1.addSums t q.2).modTile t (fun x => { x with run := .halting })

def halt (t : Tile) (g : Guard) (s : State) : State :=
  let x := s.tile t
  match x.hand with
  | some h =>
    match h.gen with
    | some p => if x.run == .running then haltGenerated t h p s else s
    | none => issue t g (slotOf (.halt t g)) (haltEff t) s
  | none => s

def execHalt (t : Tile) (g : Guard) (s : State) : Host.Outcome State Fault Refusal := .next (halt t g s)

/-- A tile's bindings end: it leaves every hold of its die (R195). -/
def State.dropHolds (s : State) (t : Nat) : State :=
  s.modDealer (t / 12) (fun d =>
    { d with hold := (List.range 4).foldl (fun m c =>
        let h := m.get ⟨0, []⟩ c
        let ts := h.tiles.filter (· != t % 12)
        m.set ⟨0, []⟩ c (if ts.isEmpty then ⟨0, []⟩ else ⟨h.base, ts⟩)) d.hold })

/-- A phase leaves effect (R438). -/
def TilePower.stop (p : TilePower) : TilePower := { p with phaseValid := false, density := 0, ramp := none }

/-- A tile without a hand. -/
def TileSt.release (x : TileSt) : TileSt :=
  { x with run := .idle, hand := none, ctx := [], dmas := [], appends := [], pwr := x.pwr.stop }

/-- A halted hand ends: its flag test and its summary entry (R124), then the tile is free. -/
def handEnd (t : Nat) (s : State) : State :=
  let x := s.tile t
  match x.hand with
  | none => s
  | some h =>
    if x.run == .halting && x.dmas.isEmpty && x.appends.isEmpty then
      match (if x.regs.sums.blocks = 0 then [] else s.logAbsent h.job) with
      | p :: ps => s.waitOn h.job reqDealer (t / 12) (p :: ps)
      | [] => ((s.handSummary t true).dropHolds t).modTile t TileSt.release
    else s

def execHandEnd (t : Tile) (s : State) : Host.Outcome State Fault Refusal := .next (handEnd t s)

end Sys2Proof.Machine
end

