-- ==== Sys2Proof/Machine/Training.lean ====
section
/-!
DEFINITION. Machine/Training.lean: the interleave, the activation stash and the start of the sign update (R215 to R232, R238,
R240).
-/

namespace Sys2Proof.Machine

/-! Descriptors (Tables 4 to 8 of 07). -/

structure Interleave where
  hdr   : Nat
  clean : Bool
  units : Nat
  base  : Nat
  map   : Nat
  hwm   : Nat
  pool  : Nat
  stashPages : Nat
  poolBase   : Nat
  need  : Nat
  deriving DecidableEq, Repr

def State.interleaveAt (s : State) (a : Nat) : Interleave :=
  let f (o n : Nat) : Nat := s.readLe (a + o) n
  { hdr := f 0 2, clean := f 2 2 == 0 && f 0x34 12 == 0, units := f 4 4, base := f 8 8, map := f 0x10 8,
    hwm := f 0x18 4, pool := f 0x1C 4, stashPages := f 0x20 8, poolBase := f 0x28 8, need := f 0x30 4 }

structure UnitRec where
  kind  : Nat
  clean : Bool
  updCount : Nat
  first : List Nat
  upd   : Nat
  deriving DecidableEq, Repr

def State.unitAt (s : State) (iv : Interleave) (u : Nat) : UnitRec :=
  let a := iv.base + 48 * u
  { kind := s.readLe a 1, clean := s.readLe (a + 1) 1 == 0, updCount := s.readLe (a + 6) 2,
    first := (List.range 8).map (fun i => s.readLe (a + 8 + 4 * i) 4), upd := s.readLe (a + 0x28) 8 }

/-- The interleave of a job; none without one. -/
def State.jobInterleave (s : State) (j : Nat) : Option Interleave :=
  match s.job j with
  | some x => if x.desc.interleave = 0 then none else some (s.interleaveAt x.desc.interleave)
  | none => none

/-- Deal stream `k` of a job: address and record count (R404). -/
def State.streamAt (s : State) (x : JobSt) (k : Nat) : Nat × Nat :=
  (s.readLe (x.desc.streams + 16 * k) 8, s.readLe (x.desc.streams + 16 * k + 8) 8)

/-- Records of unit `u` on the `k`-th die of the placement: first, and first past the unit (R215, R411). -/
def State.unitSpan (s : State) (x : JobSt) (iv : Interleave) (u k : Nat) : Nat × Nat :=
  ((s.unitAt iv u).first.getD k 0,
   if u + 1 < iv.units then (s.unitAt iv (u + 1)).first.getD k 0 else (s.streamAt x k).2)

/-- Entries of a stash map, ascending. -/
def State.stashEnts (s : State) (m : Nat) : List StashEnt := (List.range (s.stashCount m)).map (s.stashEnt m)

/-! The descriptor checks (R226). -/

/-- A page object of a stash: PIN_STACK and large enough. -/
def State.pinned (s : State) (addr pages : Nat) : Bool :=
  pages == 0 || (addr % size2MiB == 0 && match s.object (addr / size2MiB) with
    | some o => o.attr == 0 && decide (pages ≤ o.pages)
    | none => false)

/-- The last record of a unit on a die is a SYNC, or the unit has none there (R224). -/
def State.endsInSync (s : State) (x : JobSt) (iv : Interleave) (u : Nat) : Bool :=
  (List.range x.desc.dies).all (fun k =>
    let p := s.unitSpan x iv u k
    decide (p.2 ≤ p.1) || s.readLe ((s.streamAt x k).1 + 128 * (p.2 - 1) + 2) 1 == 0x0E)

/-- One entry of the map fails R226. -/
def State.entryBad (s : State) (x : JobSt) (j : Nat) (iv : Interleave) (e : StashEnt) : Bool :=
  let clean := s.readLe (e.addr + 4) 1 / 2 == 0 && s.readLe (e.addr + 0xA) 2 == 0
  !hdrOk (s.readLe e.addr 2) 0x52 || !clean || e.logical % size2MiB != 0
    || (s.checkRange (.job j) e.logical e.logicalBytes).isSome
    || decide (iv.units ≤ e.reserveUnit) || decide (iv.units ≤ e.recompUnit) || decide (iv.units ≤ e.releaseUnit)
    || decide (e.recompUnit < e.reserveUnit) || decide (e.releaseUnit < e.recompUnit)
    || (e.eligible && (s.unitAt iv e.recompUnit).kind != 2) || !s.endsInSync x iv e.releaseUnit
    || decide (iv.hwm < e.pageCount e.maxRows)

/-- Two logical ranges overlap. -/
def rangesOverlap (es : List StashEnt) : Bool :=
  buffersOverlap ((es.filter (fun e => decide (0 < e.logicalBytes))).map (fun e => (e.logical, e.logicalBytes)))

/-- A check of R226 fails for a job with an interleave. -/
def State.stashLayoutBad (s : State) (j : Nat) : Bool :=
  match s.job j, s.jobInterleave j with
  | some x, some iv =>
    let out (a n : Nat) : Bool := (s.checkRange (.job j) a n).isSome
    let n := s.stashCount iv.map
    let shape := out x.desc.interleave 64 || !hdrOk iv.hdr 0x53 || !iv.clean || iv.units == 0
      || decide (65536 < iv.units) || out iv.base (48 * iv.units) || out iv.map 64
    shape || !hdrOk (s.readLe iv.map 2) 0x51 || s.readLe (iv.map + 2) 2 != 0 || s.readLe (iv.map + 0x20) 32 != 0
      || n == 0 || decide (1048576 < n) || out (iv.map + 64) (64 * n)
      || !s.pinned iv.stashPages iv.hwm || !s.pinned iv.poolBase iv.pool
      || out iv.stashPages (iv.hwm * size2MiB) || out iv.poolBase (iv.pool * size2MiB) || decide (iv.pool < iv.need)
      || (List.range iv.units).any (fun u => !(s.unitAt iv u).clean) || rangesOverlap (s.stashEnts iv.map)
      || (s.stashEnts iv.map).any (s.entryBad x j iv)
  | _, _ => false

/-! Changes of an entry and of the map's header. -/

def State.modTrain (s : State) (j : Nat) (f : TrainSt → TrainSt) : State :=
  s.modJob j (fun x => { x with train := f x.train })

def State.setEntState (s : State) (e : StashEnt) (v : Nat) : State := s.writeLe (e.addr + 5) 1 v

/-- Adds to a 32-bit field of the header. -/
def State.addHeader (s : State) (m o n : Nat) : State := s.writeLe (m + o) 4 ((s.readLe (m + o) 4 + n) % 2 ^ 32)

def State.livePages (s : State) (m : Nat) : Nat := s.readLe (m + 8) 4

/-- The row count that an entry's ROWS bound gives now; a value above MAX_ROWS raises BOUND_EXCEEDS (R219). -/
def State.readRows (s : State) (j : Nat) (e : StashEnt) : Except Code Nat :=
  let d := match s.job j with
    | some x => (x.places.head?.map (·.die)).getD 0
    | none => 0
  match s.boundVal d j e.rows with
  | some v => if e.maxRows < v then .error Codes.boundExceeds else .ok v
  | none =>
    if boundArg e.rows % boundWidth e.rows != 0 then .error Codes.boundSource
    else .error ((s.checkRange (.job j) (boundArg e.rows) (boundWidth e.rows)).getD Codes.memWindow)

/-! Reservation (R222, R223). -/

/-- Tries to reserve `p` pages: none when LIVE_PAGES would pass the high-water mark. -/
def State.tryReserve (s : State) (j : Nat) (iv : Interleave) (e : StashEnt) (rows : Nat) : Option State :=
  let p := e.pageCount rows
  let live := s.livePages iv.map
  if live + p ≤ iv.hwm then
    let s := s.writeLe (iv.map + 8) 4 (live + p)
    let s := s.writeLe (iv.map + 0xC) 4 (max (s.readLe (iv.map + 0xC) 4) (live + p))
    let s := (s.setEntState e 1).writeLe (e.addr + 0x30) 8 0
    some (s.modTrain j (fun t => { t with rows := t.rows.set 0 e.idx rows }))
  else none

/-- Switches one entry to recompute (R223). -/
def State.switchEntry (s : State) (j : Nat) (iv : Interleave) (e : StashEnt) : Except Code State :=
  match s.readRows j e with
  | .error c => .error c
  | .ok r =>
    .ok ((((s.setEntState e 2).writeLe (e.addr + 0x30) 8 r).addHeader iv.map 0x14 1).modTrain j (fun t =>
      { t with rows := t.rows.set 0 e.idx r }))

/-- Switches every idle eligible entry, ascending (R223). -/
def State.switchAll (s : State) (j : Nat) (iv : Interleave) : Except Code State :=
  ((s.stashEnts iv.map).filter (fun e => e.state == 0 && e.eligible)).foldl (fun r e =>
    match r with
    | .error c => .error c
    | .ok s => s.switchEntry j iv e) (.ok s)

/-- DATA of a record of a stash entry. -/
def stashData (e : StashEnt) : List Byte := natLe 4 e.idx

/-- Reserves one entry, with the policy of R223 when it fails. -/
def State.reserveEntry (s : State) (j : Nat) (iv : Interleave) (i : Nat) : Except Code State :=
  let e := s.stashEnt iv.map i
  if e.state != 0 then .ok s
  else
    match s.readRows j e with
    | .error c => .error c
    | .ok r =>
      match s.tryReserve j iv e r with
      | some s' => .ok s'
      | none =>
        let s := (s.report Codes.stashFull { job := j, data := stashData e }).addHeader iv.map 0x10 1
        match s.switchAll j iv with
        | .error c => .error c
        | .ok s' =>
          if (s'.stashEnt iv.map i).state = 2 then .ok s'
          else
            match s'.tryReserve j iv e r with
            | some s'' => .ok s''
            | none => .error Codes.stashExhausted

/-- Entries of a unit by a field. -/
def State.entriesOf (s : State) (iv : Interleave) (f : StashEnt → Nat) (u : Nat) : List StashEnt :=
  (s.stashEnts iv.map).filter (fun e => f e == u)

/-- Step 1 of R216: logical release (R224). -/
def State.releaseLogical (s : State) (j : Nat) (iv : Interleave) (u : Nat) : State :=
  (s.entriesOf iv (·.releaseUnit) u).foldl (fun s e =>
    let p := if e.state = 1 then e.pageCount (s.stashRows j e) else 0
    (s.writeLe (iv.map + 8) 4 (s.livePages iv.map - p)).setEntState e 4) s

/-- Step 2 of R216. -/
def State.reserveUnitEnts (s : State) (j : Nat) (iv : Interleave) (u : Nat) : Except Code State :=
  ((s.entriesOf iv (·.reserveUnit) u).map (·.idx)).foldl (fun r i =>
    match r with
    | .error c => .error c
    | .ok s => s.reserveEntry j iv i) (.ok s)

/-! Mapping (R222, R225). -/

/-- Page `i` of an entry in the job's page map. -/
def stashKey (idx i : Nat) : Nat := idx * 2 ^ 24 + i

/-- Pages of an object of `n` pages at `base` that no entry of the job holds, ascending. -/
def State.freeStash (s : State) (j base n : Nat) : List Nat :=
  match s.job j with
  | some x =>
    let used := x.train.map.map (fun p => p.2 - 1)
    ((List.range n).map (· + base / size2MiB)).filter (fun p => !used.contains p)
  | none => []

/-- The entry has its pages, or needs none. -/
def State.isMapped (s : State) (j : Nat) (e : StashEnt) : Bool :=
  e.pageCount (s.stashRows j e) == 0 || (match s.job j with
    | some x => x.train.map.get 0 (stashKey e.idx 0) != 0
    | none => true)

/-- Maps an entry's pages, lowest free pages first; none when they are still held (log entry 34). -/
def State.mapEntry (s : State) (j base n : Nat) (e : StashEnt) : Option State :=
  if s.isMapped j e then some s
  else
    let p := e.pageCount (s.stashRows j e)
    let free := s.freeStash j base n
    if free.length < p then none
    else
      some (s.modTrain j (fun t =>
        { t with map := t.map.setRange 0 (stashKey e.idx 0) ((free.take p).map (· + 1)) }))

/-- Maps every entry of the next unit that has its pages: whether all are mapped. -/
def State.mapUnit (s : State) (j : Nat) (iv : Interleave) (u : Nat) : State × Bool :=
  let stashed := (s.entriesOf iv (·.reserveUnit) u).filter (fun e => e.state == 1)
  let pooled := (s.entriesOf iv (·.recompUnit) u).filter (fun e => e.state == 3)
  let go (base n : Nat) (acc : State × Bool) (e : StashEnt) : State × Bool :=
    match acc.1.mapEntry j base n e with
    | some s => (s, acc.2)
    | none => (acc.1, false)
  pooled.foldl (go iv.poolBase iv.pool) (stashed.foldl (go iv.stashPages iv.hwm) (s, true))

/-- Step 3 of R216: switched entries of the unit take STATE 3. -/
def State.poolStates (s : State) (iv : Interleave) (u : Nat) : State :=
  ((s.entriesOf iv (·.recompUnit) u).filter (fun e => e.state == 2)).foldl (fun s e => s.setEntState e 3) s

/-- Forwards a unit's records to the Dealers (R216). -/
def State.forwardUnit (s : State) (j : Nat) (iv : Interleave) (u : Nat) : State :=
  match s.job j with
  | none => s
  | some x =>
    let s := (x.places.zipIdx).foldl (fun s p =>
      match (s.dealer p.1.die).queueOf j with
      | some q => s.setQueue p.1.die q { s.queue p.1.die q with count := (s.unitSpan x iv u p.2).2 }
      | none => s) s
    s.modTrain j (fun t => { t with unit := u + 1, phase := .ready, updFault := none })

/-- After the mappings of a unit: a unit of KIND 3 waits for its updates, any other is forwarded. -/
def State.afterMap (s : State) (j : Nat) (iv : Interleave) (u : Nat) (mapped : Bool) : State :=
  if !mapped then s.modTrain j (fun t => { t with phase := .mapping })
  else if (s.unitAt iv u).kind = 3 then s.modTrain j (fun t => { t with phase := .update })
  else s.forwardUnit j iv u

/-- The conductor may act at a boundary of the job: it runs, unfaulted and not held back (R229). -/
def JobSt.live (x : JobSt) : Bool := x.phase == .running && x.fault.isNone

def unitBoundary (j : Nat) (s : State) : State :=
  match s.job j, s.jobInterleave j with
  | some x, some iv =>
    let u := x.train.unit
    if !x.live || !x.train.active || x.train.phase != .ready || decide (iv.units < u) then s
    else
      let s1 := if u = 0 then s else s.releaseLogical j iv (u - 1)
      if u = iv.units then s1.modTrain j (fun t => { t with unit := u + 1 })
      else
        match s1.reserveUnitEnts j iv u with
        | .error c => s1.jobFaults j c {}
        | .ok s2 =>
          let m := (s2.poolStates iv u).mapUnit j iv u
          m.1.afterMap j iv u m.2
  | _, _ => s

def execUnitBoundary (job : Nat) (s : State) : Host.Outcome State Fault Refusal := .next (unitBoundary job s)

/-- A mapping that waited for pages completes (R222). -/
def stashPageMap (j : Nat) (s : State) : State :=
  match s.job j, s.jobInterleave j with
  | some x, some iv =>
    if x.live && x.train.active && x.train.phase == .mapping then
      let m := s.mapUnit j iv x.train.unit
      m.1.afterMap j iv x.train.unit m.2
    else s
  | _, _ => s

def execStashPageMap (job : Nat) (s : State) : Host.Outcome State Fault Refusal := .next (stashPageMap job s)

/-- The closing SYNC of a unit has completed on every die that has records in it (R224). -/
def State.unitSynced (s : State) (x : JobSt) (j : Nat) (iv : Interleave) (u : Nat) : Bool :=
  (x.places.zipIdx).all (fun p =>
    let n := s.unitSpan x iv u p.2
    decide (n.2 ≤ n.1) || (match (s.dealer p.1.die).queueOf j with
      | some q => decide (n.2 ≤ (s.queue p.1.die q).next)
      | none => false))

/-- Physical release of a unit's entries (R224): their pages return to their object. -/
def stashReleasePhysical (j u : Nat) (s : State) : State :=
  match s.job j, s.jobInterleave j with
  | some x, some iv =>
    if x.live && x.train.active && decide (u < x.train.unit) && s.unitSynced x j iv u then
      ((s.entriesOf iv (·.releaseUnit) u).filter (fun e => e.state == 4)).foldl (fun s e =>
        s.modTrain j (fun t => { t with map := t.map.clear (stashKey e.idx 0) (2 ^ 24) })) s
    else s
  | _, _ => s

def execStashReleasePhysical (job : Nat) (unit : Nat) (s : State) : Host.Outcome State Fault Refusal :=
  .next (stashReleasePhysical job unit s)

/-! Stash accesses of a tile (R220, R221). -/

/-- A write into the logical range of an entry by the hand of a tile. -/
def stashWrite (t : Nat) (addr : Nat) (data : List Byte) (s : State) : State :=
  let x := s.tile t
  match s.stashFind x.job addr with
  | none => s
  | some e =>
    match s.stashWriteAt x.job e addr data with
    | .ok s' => s'
    | .error c => s.tileReport t x.pc c x.job x.handId (s.memData addr)

def execStashWrite (t : Tile) (addr : BitVec 48) (data : List Byte) (s : State) : Host.Outcome State Fault Refusal :=
  .next (if (s.tile t).hand.isSome then stashWrite t addr.toNat data s else s)

/-- Formats that a stash read converts to (R221). -/
def stashReadFmt (fmt : Nat) : Bool := decide (fmt ≤ 2)

/-- A read of `count` elements from the logical range of an entry into the scratchpad. -/
def stashRead (t : Nat) (addr count fmt dst : Nat) (s : State) : State :=
  let x := s.tile t
  match s.stashFind x.job addr with
  | none => s
  | some e =>
    if !stashReadFmt fmt then s.tileFault t x.pc Codes.isaFormat
    else
      match sequenceE ((List.range count).map (fun i => s.stashValue x.job e (addr + i * e.srcBytes))) with
      | .error c => s.tileReport t x.pc c x.job x.handId (s.memData addr)
      | .ok vs => s.poke t 0 dst (vs.flatMap (fun v => natLe (fmtBits fmt / 8) (encodeElem fmt .rne v)))

def execStashRead (t : Tile) (addr : BitVec 48) (count : Nat) (fmt : BitVec 6) (dst : BitVec 25) (s : State) :
    Host.Outcome State Fault Refusal :=
  .next (if (s.tile t).hand.isSome && decide (dst.toNat + count * (fmtBits fmt.toNat / 8) ≤ spadSize) then
      stashRead t addr.toNat count fmt.toNat dst.toNat s
    else s)

/-! The start of a step (R226, R228). -/

/-- Every record forwarded has been dealt and has halted on every die. -/
def State.allHalted (s : State) (x : JobSt) (j : Nat) : Bool :=
  x.places.all (fun p => match (s.dealer p.die).queueOf j with
    | some q => let y := s.queue p.die q; decide (y.count ≤ y.next) && y.inHand.isNone
    | none => true) && x.tiles.all (fun t => (s.tile t).hand.isNone)

/-- Entries and counters of the map at a step start (R228). -/
def State.resetStash (s : State) (iv : Interleave) : State :=
  let s := (s.stashEnts iv.map).foldl (fun s e =>
    ((s.setEntState e 0).writeLe (e.addr + 0x30) 8 0).writeLe (e.addr + 0x38) 8 0) s
  let s := s.writeLe (iv.map + 8) 16 0
  s.writeLe (iv.map + 0x18) 8 ((s.readLe (iv.map + 0x18) 8 + 1) % 2 ^ 64)

def trainingStepStart (j : Nat) (s : State) : State :=
  match s.job j, s.jobInterleave j with
  | some x, some iv =>
    if !x.live || (x.train.active && !(decide (iv.units < x.train.unit) && s.allHalted x j)) then s
    else if s.stashLayoutBad j then s.jobFaults j Codes.stashLayout {}
    else
      let s := s.resetStash iv
      let s := x.places.foldl (fun s p =>
        match (s.dealer p.die).queueOf j with
        | some q => s.setQueue p.die q { s.queue p.die q with next := 0, count := 0 }
        | none => s) s
      s.modTrain j (fun _ => { TrainSt.init with active := true })
  | _, _ => s

def execTrainingStepStart (job : Nat) (s : State) : Host.Outcome State Fault Refusal :=
  .next (trainingStepStart job s)

/-! Update groups (R231, R238). -/

structure UpdGroup where
  mode  : Nat
  stoch : Bool
  gFp32 : Bool
  mask  : Nat
  eta   : W32
  lambda : W32
  rowLen : Nat
  count : Nat
  hi    : Nat
  ext   : Nat
  g     : Nat
  maskBase : Nat
  aux   : Nat
  seed  : W64
  step  : Nat
  deriving DecidableEq, Repr

def updOf (bs : List Byte) : UpdGroup :=
  let f := fieldLe bs
  let fl := f 3 1
  { mode := f 2 1, stoch := bitOf fl 0, gFp32 := bitOf fl 1, mask := bitsOf fl 4 3, eta := BitVec.ofNat 32 (f 4 4),
    lambda := BitVec.ofNat 32 (f 8 4), rowLen := f 0xC 4, count := f 0x10 8, hi := f 0x18 8, ext := f 0x20 8,
    g := f 0x28 8, maskBase := f 0x30 8, aux := f 0x38 8, seed := BitVec.ofNat 64 (f 0x40 8), step := f 0x48 4 }

/-- The group meets Table 8 of 07. -/
def updValid (bs : List Byte) : Bool :=
  let f := fieldLe bs
  let u := updOf bs
  let rows := u.mode == 1 || u.mask == 2 || u.mask == 3
  hdrOk (f 0 2) 0x50 && decide (u.mode ≤ 1) && decide (f 3 1 < 32) && !bitOf (f 3 1) 2
    && !(u.mode == 1 && decide (u.mask ≤ 1)) && positive32 u.eta
    && finite32 u.lambda && decide (0 ≤ FV.cmp (val32 u.lambda) zeroFV)
    && decide (1 ≤ u.count) && (!rows || (u.rowLen != 0 && u.count % u.rowLen == 0))
    && u.hi % 256 == 0 && u.ext % 256 == 0 && u.g % 256 == 0 && (u.mask != 0 || u.maskBase == 0)
    && (u.mode == 1 || u.aux == 0) && f 0x4C 4 == 0 && f 0x58 40 == 0

/-- The UPDATE command of a group (Tables 5 and 6 of 09). -/
def updateCmd (group : Nat) : BitVec 512 :=
  BitVec.ofNat 512 (leNat (natLe 2 0x2060 ++ natLe 1 0x10 ++ natLe 45 0 ++ natLe 8 group ++ natLe 8 0))

/-- The unit's groups start on every engine; a group that breaks Table 8 is left out (R231, R238). -/
def updateUnitStart (j : Nat) (s : State) : State :=
  match s.job j, s.jobInterleave j with
  | some x, some iv =>
    let u := s.unitAt iv x.train.unit
    if x.live && x.train.active && x.train.phase == .update && s.allHalted x j then
      let groups := (List.range u.updCount).map (fun i => s.readLe (u.upd + 8 * i) 8)
      let ok (a : Nat) : Bool := (s.checkRange (.job j) a 128).isNone && updValid (s.readMem a 128)
      let good := groups.filter ok
      let bad := decide (good.length < groups.length)
      let s1 := ((List.range 32).filter (fun k => (s.stack k).goodCount != 0)).foldl (fun s k =>
        s.modStack k (fun y =>
          { y with queue := y.queue ++ good.map (fun a => ⟨updateCmd a, j, none, 0, false, false⟩) })) s
      if good.isEmpty then
        if bad then s.jobFaults j Codes.updateDesc {} else s.forwardUnit j iv x.train.unit
      else s1.modTrain j (fun t => { t with phase := .updating, updFault := if bad then some Codes.updateDesc else none })
    else s
  | _, _ => s

def execUpdateUnitStart (job : Nat) (s : State) : Host.Outcome State Fault Refusal := .next (updateUnitStart job s)

end Sys2Proof.Machine
end

