-- ==== Sys2Proof/Machine/Engine.lean ====
section
/-!
DEFINITION. Machine/Engine.lean: stack-engine commands and the sign update (R233 to R239, R295 to R303).
-/

namespace Sys2Proof.Machine

/-! Commands (Table 5 of 09). -/

structure SeFields where
  hdr   : Nat
  op    : Nat
  flags : Nat
  evt   : Nat
  srcFmt : Nat
  dstFmt : Nat
  rsv   : Nat
  src   : Nat
  dst   : Nat
  rows  : Nat
  rowLen : Nat
  srcLd : Nat
  dstLd : Nat
  scale : Nat
  aux   : Nat
  seed  : W64
  deriving DecidableEq, Repr

def seOf (c : BitVec 512) : SeFields :=
  let f (o n : Nat) : Nat := bitsOf c.toNat (8 * (o + n) - 1) (8 * o)
  { hdr := f 0 2, op := f 2 1, flags := f 3 1, evt := f 4 1, srcFmt := f 5 1, dstFmt := f 6 1, rsv := f 7 1,
    src := f 8 8, dst := f 0x10 8, rows := f 0x18 4, rowLen := f 0x1C 4, srcLd := f 0x20 4, dstLd := f 0x24 4,
    scale := f 0x28 8, aux := f 0x30 8, seed := BitVec.ofNat 64 (f 0x38 8) }

def SeFields.stoch (c : SeFields) : Bool := bitOf c.flags 0
def SeFields.fine (c : SeFields) : Bool := bitOf c.flags 1

/-- Which fields an opcode uses: FLAGS bits, formats, SRC, DST, ROWS, ROW_LEN, SRC_LD, DST_LD, SCALE, AUX, SEED. -/
structure SeUse where
  flags : Nat
  srcFmt : Bool
  dstFmt : Bool
  src : Bool
  dst : Bool
  rows : Bool
  rowLen : Bool
  srcLd : Bool
  dstLd : Bool
  scale : Bool
  aux : Bool
  seed : Bool
  deriving DecidableEq, Repr

def seUse (op : Nat) : SeUse :=
  match op with
  | 0x01 => ⟨1, true, true, true, true, true, true, true, true, false, false, true⟩
  | 0x02 => ⟨0, false, true, false, true, true, true, false, true, false, true, false⟩
  | 0x03 => ⟨0, true, true, true, true, true, true, true, true, false, false, false⟩
  | 0x04 => ⟨0, true, true, true, true, true, true, true, true, false, false, false⟩
  | 0x05 => ⟨0, true, true, true, true, true, true, true, true, false, false, false⟩
  | 0x06 => ⟨3, true, true, true, true, true, true, true, true, true, true, true⟩
  | 0x07 => ⟨2, true, true, true, true, true, true, true, true, true, false, false⟩
  | 0x08 => ⟨1, true, true, true, true, true, true, true, true, false, true, true⟩
  | 0x09 => ⟨0, true, true, true, true, true, false, false, true, false, true, false⟩
  | 0x0A => ⟨0, false, false, true, false, true, false, false, false, false, false, false⟩
  | 0x10 => ⟨0, false, false, false, false, false, false, false, false, false, true, false⟩
  | 0x11 => ⟨0, false, false, true, false, true, false, false, false, false, false, false⟩
  | 0x12 => ⟨0, false, false, true, false, true, false, false, false, false, false, false⟩
  | _ => ⟨0, false, false, true, false, false, false, false, false, false, false, false⟩

/-- Unused fields are zero, and ROWS and ROW_LEN in range where used (R295, Table 5 of 09). -/
def SeFields.clean (c : SeFields) (hand : Bool) : Bool :=
  let u := seUse c.op
  let range (x : Nat) : Bool := decide (1 ≤ x ∧ x ≤ 16777215)
  (c.flags &&& u.flags) == c.flags && c.rsv == 0 && decide (c.evt < (if hand then 16 else 1))
    && (u.srcFmt || c.srcFmt == 0) && (u.dstFmt || c.dstFmt == 0) && (u.src || c.src == 0) && (u.dst || c.dst == 0)
    && (if u.rows then range c.rows else c.rows == 0) && (if u.rowLen then range c.rowLen else c.rowLen == 0)
    && (u.srcLd || c.srcLd == 0) && (u.dstLd || c.dstLd == 0) && (u.scale || c.scale == 0) && (u.aux || c.aux == 0)
    && (u.seed || c.seed == 0)

/-- Formats that an opcode accepts (Table 6 of 09). -/
def SeFields.fmtOk (c : SeFields) : Bool :=
  let plain (f : Nat) : Bool := (fmtEnc f).isSome && !fmtScaled f
  match c.op with
  | 0x01 => plain c.srcFmt && plain c.dstFmt && convertible c.srcFmt c.dstFmt
  | 0x02 => plain c.dstFmt
  | 0x03 => c.srcFmt == c.dstFmt && (decide (c.srcFmt ≤ 2) || c.srcFmt == 5)
  | 0x04 => c.srcFmt == c.dstFmt && (c.srcFmt == 0 || c.srcFmt == 5)
  | 0x05 => c.srcFmt == c.dstFmt && (c.srcFmt == 0 || c.srcFmt == 5)
  | 0x06 => decide (c.srcFmt ≤ 2) && fmtKremor c.dstFmt
  | 0x07 => fmtKremor c.srcFmt && decide (c.dstFmt ≤ 2)
  | 0x08 => plain c.srcFmt && plain c.dstFmt && convertible c.srcFmt c.dstFmt
  | _ => true

/-- Partial block in PACK or UNPACK (R298). -/
def SeFields.partialBlock (c : SeFields) : Bool :=
  (c.op == 0x06 || c.op == 0x07) && c.rowLen % blockLen c.fine != 0

/-- Header, fields and formats of a command. -/
def SeFields.valid (c : SeFields) (hand : Bool) : Bool :=
  hdrOk c.hdr 0x60 && c.clean hand && c.fmtOk && !c.partialBlock

/-! Rows of a command. -/

/-- Who a command acts for. -/
def seWho (job : Nat) : Who := if job = 0 then .conductor else .job job

def srcWidth (c : SeFields) : Nat := fmtBits c.srcFmt / 8
def dstWidth (c : SeFields) : Nat := fmtBits c.dstFmt / 8

/-- Index list entry of GATHER. -/
def State.gatherIx (s : State) (c : SeFields) (r : Nat) : Nat := s.readLe (c.aux + 4 * r) 4

/-- Bytes of a packed row and of its scales. -/
def packedRow (c : SeFields) (fmt : Nat) : Nat := c.rowLen * fmtBits fmt / 8
def scaleRow (c : SeFields) (r : Nat) : Nat := c.scale + r * roundUp (ceilDiv c.rowLen (blockLen c.fine)) 64

/-- Bytes that row `r` of a command reads and writes. -/
def State.seRowSpans (s : State) (c : SeFields) (r : Nat) : List (Nat × Nat) :=
  let src := (c.src + r * c.srcLd, c.rowLen * srcWidth c)
  let dst := (c.dst + r * c.dstLd, c.rowLen * dstWidth c)
  let scales := (scaleRow c r, ceilDiv c.rowLen (blockLen c.fine))
  match c.op with
  | 0x02 => [dst]
  | 0x06 => [src, (c.dst + r * c.dstLd, packedRow c c.dstFmt), scales]
      ++ (if c.aux = 0 then [] else [(c.aux, 8)])
  | 0x07 => [(c.src + r * c.srcLd, packedRow c c.srcFmt), scales, dst]
  | 0x08 =>
    let ix := s.gatherIx c r
    [(c.aux + 4 * r, 4), dst] ++ (if ix = 0xFFFFFFFF then [] else [(c.src + ix * c.srcLd, c.rowLen * srcWidth c)])
  | 0x09 =>
    let l := pageListOf (s.descAt c.aux)
    match s.posAddr l (bitsOf c.src 39 32) (bitsOf c.src 31 0 + r) with
    | .ok p => [(p.2, 128 * l.elemBytes)]
    | .error _ => []
  | _ => [src, dst]

/-- Rounding of element `i` written at `addr` (R114, R296). -/
def SeFields.rnd (c : SeFields) (addr : Nat) : Rnd := if c.stoch then .sr (srBits c.seed 1 (addr * 8)) else .rne

/-- Bytes of a row converted from SRC_FMT to DST_FMT and written at `dst` (R53, R113). -/
def seConvert (c : SeFields) (dst : Nat) (bits : List Nat) : List Byte :=
  let w := dstWidth c
  (bits.zipIdx).flatMap (fun p =>
    natLe w (if c.srcFmt = c.dstFmt then p.1
      else encodeElem c.dstFmt (c.rnd (dst + p.2 * w)) (decodeElem c.srcFmt p.1 127)))

/-- Type of the elements of ADD, MIN and MAX. -/
def seTy (fmt : Nat) : MsTy :=
  match fmt with
  | 0 => .fp32
  | 1 => .bf16
  | 2 => .fp16
  | _ => .int32

/-- One row of PACK: blocks quantised, scales, counts (R109 to R112). -/
def State.packRow (s : State) (c : SeFields) (r : Nat) : State :=
  let b := blockLen c.fine
  let w := fmtBits c.dstFmt
  let dst := c.dst + r * c.dstLd
  let vals := (elemsOf (srcWidth c) c.rowLen (s.readMem (c.src + r * c.srcLd) (c.rowLen * srcWidth c))).map
    (fun x => decodeElem c.srcFmt x 127)
  let rnd (i : Nat) : Rnd := if c.stoch then .sr (srBits c.seed 1 (dst * 8 + i * w)) else .rne
  ((chunk b (c.rowLen + 1) vals).zipIdx).foldl (fun s p =>
    let q := quantBlock c.dstFmt ((p.1.zipIdx).map (fun v => (v.1, rnd (p.2 * b + v.2))))
    let s := s.writeMem (dst + p.2 * b * w / 8) (natLe (b * w / 8) (packBits w q.elems))
    let s := s.writeMem (scaleRow c r + p.2) (natLe 1 q.code)
    if c.aux = 0 then s else (s.addInt32 c.aux q.sat).addInt32 (c.aux + 4) q.zero) s

/-- One row of UNPACK: exact values, then rounded (R113). -/
def State.unpackRow (s : State) (c : SeFields) (r : Nat) : State :=
  let b := blockLen c.fine
  let w := fmtBits c.srcFmt
  let bits := leNat (s.readMem (c.src + r * c.srcLd) (packedRow c c.srcFmt))
  let vals := (List.range c.rowLen).map (fun i =>
    decodeElem c.srcFmt (bits / 2 ^ (i * w) % 2 ^ w) (s.readLe (scaleRow c r + i / b) 1))
  s.writeMem (c.dst + r * c.dstLd) (vals.flatMap (fun v => natLe (dstWidth c) (encodeElem c.dstFmt .rne v)))

/-- The effect of one row; the page faults of WALK (R185). -/
def State.seRow (s : State) (c : SeFields) (r : Nat) : Except AccErr State :=
  let dst := c.dst + r * c.dstLd
  match c.op with
  | 0x02 => .ok (s.writeMem dst ((List.range c.rowLen).flatMap (fun _ => natLe (dstWidth c) c.aux)))
  | 0x03 => .ok (s.memSide .add (seTy c.srcFmt) dst (s.readMem (c.src + r * c.srcLd) (c.rowLen * srcWidth c)))
  | 0x04 => .ok (s.memSide .min (seTy c.srcFmt) dst (s.readMem (c.src + r * c.srcLd) (c.rowLen * srcWidth c)))
  | 0x05 => .ok (s.memSide .max (seTy c.srcFmt) dst (s.readMem (c.src + r * c.srcLd) (c.rowLen * srcWidth c)))
  | 0x06 => .ok (s.packRow c r)
  | 0x07 => .ok (s.unpackRow c r)
  | 0x08 =>
    let ix := s.gatherIx c r
    let bits := if ix = 0xFFFFFFFF then List.replicate c.rowLen 0
      else elemsOf (srcWidth c) c.rowLen (s.readMem (c.src + ix * c.srcLd) (c.rowLen * srcWidth c))
    .ok (s.writeMem dst (seConvert c dst bits))
  | 0x09 =>
    let l := pageListOf (s.descAt c.aux)
    match s.posAddr l (bitsOf c.src 39 32) (bitsOf c.src 31 0 + r) with
    | .ok p => .ok (s.writeMem dst (s.readMem p.2 (128 * l.elemBytes)))
    | .error e => .error e
  | _ =>
    .ok (s.writeMem dst (seConvert c dst
      (elemsOf (srcWidth c) c.rowLen (s.readMem (c.src + r * c.srcLd) (c.rowLen * srcWidth c)))))

/-- Rows in order; a row that fails stops the command, the writes already made stay (R298). -/
def State.seRows (s : State) (job : Nat) (c : SeFields) : List Nat → State × Option AccErr
  | [] => (s, none)
  | r :: rs =>
    match s.checkAccesses (seWho job) (s.seRowSpans c r) with
    | some e => (s, some e)
    | none =>
      match s.seRow c r with
      | .error e => (s, some e)
      | .ok s' => s'.seRows job c rs

/-! The sign update (R233 to R237). -/

/-- The 24-bit values of R230 as patterns without the low 8 bits. -/
def enc24 : FloatEnc := ⟨24, 15, 127, 0x7F7FFF, some 0x7F8000, 0x7FC000⟩

/-- rnd24 (R234); an exact zero gives +0. -/
def rnd24 (r : Rnd) (v : FV) : Nat :=
  match v with
  | .fin _ 0 _ => 0
  | _ => enc24.encode r v

/-- sign of R233: a NaN stays NaN. -/
def signVal (g : FV) : FV :=
  match g with
  | .nan => .nan
  | v => if v.isZero then .fin false 0 0 else .fin v.isNeg 1 0

/-- A value as finite FP32, or special. -/
def rne32 (v : FV) : FV := val32 (to32 v)

/-- update_dense of R233; with lambda zero an infinite w stays infinite (R236). -/
def updDense (eta lambda w g : FV) : FV :=
  let t := if lambda.isZero then (if w.isNaN then .nan else .fin false 0 0) else rne32 (lambda.mul w)
  let d := rne32 ((signVal g).add t)
  w.sub (eta.mul d)

/-- Seed of a step (R234). -/
def updSeed (u : UpdGroup) : W64 := u.seed ^^^ (BitVec.ofNat 64 u.step * 0x9E3779B97F4A7C15#64)

/-- Element `i` is touched (R232). -/
def State.touched (s : State) (u : UpdGroup) (i : Nat) : Bool :=
  let bit (k : Nat) : Bool := bitOf (s.readLe (u.maskBase + 8 * (k / 64)) 8) (k % 64)
  match u.mask with
  | 0 => true
  | 1 => bit i
  | 2 => bit (i / u.rowLen)
  | _ => s.readLe (u.maskBase + 4 * (i / u.rowLen)) 4 != 0

/-- Gradient of an element. -/
def State.updGrad (s : State) (u : UpdGroup) (i : Nat) : FV :=
  if u.gFp32 then decodeElem 0 (s.readLe (u.g + 4 * i) 4) 127 else decodeElem 1 (s.readLe (u.g + 2 * i) 2) 127

/-- Value of an element (R230). -/
def State.updVal (s : State) (u : UpdGroup) (i : Nat) : FV :=
  enc24.decode (s.readLe (u.hi + 2 * i) 2 * 256 + s.readLe (u.ext + i) 1)

/-- Writes an element: HI and EXT (R234). -/
def State.updPut (s : State) (u : UpdGroup) (i : Nat) (v : FV) : State :=
  let r : Rnd := if u.stoch then .sr (srBits (updSeed u) 1 ((u.hi + 2 * i) * 8)) else .rne
  let x := rnd24 r v
  (s.writeLe (u.hi + 2 * i) 2 (x / 256)).writeLe (u.ext + i) 1 (x % 256)

/-- Elements of a dense group whose HI byte an engine's stack holds (R237). -/
def State.denseOwn (s : State) (k : Nat) (u : UpdGroup) : List Nat :=
  (List.range u.count).filter (fun i => s.ownerStack 0 (u.hi + 2 * i) == k)

/-- Rows of an embedding group whose step count an engine's stack holds (R237). -/
def State.rowsOwn (s : State) (k : Nat) (u : UpdGroup) : List Nat :=
  (List.range (u.count / u.rowLen)).filter (fun r => s.ownerStack 0 (u.aux + 128 + 4 * r) == k)

/-- The decay factor of a row (R235). -/
def State.rowDecay (s : State) (u : UpdGroup) (row : Nat) : FV :=
  let n := (u.step + 2 ^ 32 - s.readLe (u.aux + 128 + 4 * row) 4) % 2 ^ 32
  (List.range 32).foldl (fun p i =>
    if bitOf n i then rne32 (p.mul (val32 (BitVec.ofNat 32 (s.readLe (u.aux + 4 * i) 4)))) else p) (.fin false 1 0)

/-- One touched row (R235). -/
def State.updRow (s : State) (u : UpdGroup) (row : Nat) : State :=
  let p := s.rowDecay u row
  let eta := val32 u.eta
  let s1 := ((List.range u.rowLen).map (· + row * u.rowLen)).foldl (fun s i =>
    s.updPut u i (((s.updVal u i).mul p).sub (eta.mul (signVal (s.updGrad u i))))) s
  s1.writeLe (u.aux + 128 + 4 * row) 4 u.step

/-- An engine's part of a group; TOUCHED counts its elements (R231, R237). -/
def State.updatePart (s : State) (k group : Nat) (u : UpdGroup) : State :=
  if u.mode = 0 then
    let own := (s.denseOwn k u).filter (s.touched u)
    let s1 := own.foldl (fun s i =>
      s.updPut u i (updDense (val32 u.eta) (val32 u.lambda) (s.updVal u i) (s.updGrad u i))) s
    s1.addInt64 (group + 0x50) own.length
  else
    let own := (s.rowsOwn k u).filter (fun r => s.touched u (r * u.rowLen))
    (own.foldl (fun s r => s.updRow u r) s).addInt64 (group + 0x50) (own.length * u.rowLen)

/-- Bytes of a group. -/
def updSpans (group : Nat) (u : UpdGroup) : List (Nat × Nat) :=
  let rows := if u.rowLen = 0 then 0 else u.count / u.rowLen
  [(group, 128), (u.hi, 2 * u.count), (u.ext, u.count), (u.g, u.count * (if u.gFp32 then 4 else 2))]
    ++ (match u.mask with
      | 0 => []
      | 1 => [(u.maskBase, 8 * ceilDiv u.count 64)]
      | 2 => [(u.maskBase, 8 * ceilDiv rows 64)]
      | _ => [(u.maskBase, 4 * rows)])
    ++ (if u.mode = 1 then [(u.aux, 128 + 4 * rows)] else [])

/-! Running a command. -/

/-- A command's outcome. -/
inductive SeOut where
  | done (s : State)
  | fail (s : State) (e : AccErr)
  | wait (s : State)
  deriving DecidableEq, Repr

/-- Range pages of PREFETCH and EVICT. -/
def sePages (c : SeFields) : List Nat := (List.range c.rows).map (· + c.src / size2MiB)

/-- EVICT: pages move out; those written wait for their programs (R279, R296). -/
def State.evictPages (s : State) (ps : List Nat) : State :=
  ps.foldl (fun s p =>
    match s.page p with
    | some x =>
      match x.place, s.object x.object with
      | .resident f, some o => if o.attr = 0 then s else s.evict ⟨0, false, 0, p, f⟩
      | _, _ => s
    | none => s) s

/-- SCRUB: zero-fills frames (R296). -/
def State.scrubFrames (s : State) (f n : Nat) : State :=
  (List.range n).foldl (fun s i =>
    match s.framePage (f + i) with
    | some p => s.modMem (fun m => { m with bytes := m.bytes.clear (p * size2MiB) size2MiB })
    | none => s) s

/-- Runs the command of an engine. -/
def State.seRun (s : State) (k job : Nat) (hand : Bool) (c : SeFields) : SeOut :=
  let bad : SeOut := .fail s ⟨Codes.seCommand, []⟩
  if !c.valid hand then bad
  else
    match c.op with
    | 0x0A =>
      match s.checkAccesses (seWho job) [(c.src / size2MiB * size2MiB, c.rows * size2MiB)] with
      | some e => .fail s e
      | none =>
        match (sePages c).flatMap (fun p => s.absentPages (p * size2MiB) 1) with
        | [] => .done s
        | ps => .wait (s.waitOn job reqEngine k ps)
    | 0x10 =>
      let u := updOf (s.readMem c.aux 128)
      match s.checkAccesses (seWho job) [(c.aux, 128)] with
      | some e => .fail s e
      | none =>
        if !updValid (s.readMem c.aux 128) then .fail s ⟨Codes.updateDesc, []⟩
        else
          match s.checkAccesses (seWho job) (updSpans c.aux u) with
          | some e => .fail s e
          | none =>
            match s.absentOf (updSpans c.aux u) with
            | [] => .done (s.updatePart k c.aux u)
            | ps => .wait (s.waitOn job reqEngine k ps)
    | 0x11 =>
      match s.checkAccesses (seWho job) [(c.src / size2MiB * size2MiB, c.rows * size2MiB)] with
      | some e => .fail s e
      | none =>
        let s1 := s.evictPages (sePages c)
        if (sePages c).any (fun p => match s1.page p with
          | some x => (match x.place with | .migratingOut _ => true | _ => false)
          | none => false) then .wait s1 else .done s1
    | 0x12 => .done (s.scrubFrames c.src c.rows)
    | _ =>
      let l := s.descAt c.aux
      let listSpan := if c.op = 0x09 then [(c.aux, 64)] else []
      match s.checkAccesses (seWho job) listSpan with
      | some e => .fail s e
      | none =>
        if c.op == 0x09 && !(hdrOk (descHdr l) 0x11 && s.pageListValid l && pagedList l) then bad
        else
          let spans := (List.range c.rows).flatMap (fun r =>
            if c.op = 0x09 then [(c.dst + r * c.dstLd, 128 * (pageListOf l).elemBytes)] else s.seRowSpans c r)
          let seqSpan := if c.op = 0x09 then [((pageListOf l).seqBase, 64)] else []
          match s.absentOf (listSpan ++ seqSpan ++ spans) with
          | p :: ps => .wait (s.waitOn job reqEngine k (p :: ps))
          | [] =>
            match (if c.op = 0x09 then s.checkAccesses (seWho job) (seqSpan ++ spans) else none) with
            | some e => .fail s e
            | none =>
              match s.seRows job c (List.range c.rows) with
              | (s', none) => .done s'
              | (s', some e) => .fail s' e

/-- The commands of a hand that have not completed are discarded (R298). -/
def State.dropCmds (s : State) (q : SeCmd) : State :=
  (List.range 32).foldl (fun s k =>
    s.modStack k (fun x =>
      { x with queue := x.queue.filter (fun c => !(c.tile == q.tile && c.hand == q.hand && c.job == q.job && !c.done)) })) s

/-- A command that fails: reported against its hand with SLOT 0, or against the job (R298). -/
def State.seFail (s : State) (k : Nat) (q : SeCmd) (e : AccErr) : State :=
  match q.tile with
  | some t => (s.dropCmds q).tileReport t 0 e.code q.job q.hand e.data
  | none =>
    let s := s.modStack k (fun x => { x with queue := x.queue.drop 1 })
    if q.job = 0 then s.report e.code { cls := 3, idx := k, data := e.data }
    else s.jobFaults q.job e.code { cls := 3, idx := k, data := e.data }

/-- The front command of an engine runs, if it is one of this opcode. -/
def State.seFront (s : State) (op k : Nat) : State :=
  match (s.stack k).queue with
  | [] => s
  | q :: rest =>
    if q.done || (seOf q.cmd).op != op then s
    else
      let set (s : State) (q : SeCmd) : State := s.modStack k (fun x => { x with queue := q :: x.queue.drop 1 })
      let _ := rest
      match s.seRun k q.job q.tile.isSome (seOf q.cmd) with
      | .done s' => set s' { q with done := true, waiting := false }
      | .wait s' => set s' { q with waiting := true }
      | .fail s' e => s'.seFail k q e

/-- A command of the conductor runs on an engine (R296). -/
def State.seDirect (s : State) (op k job : Nat) (cmd : BitVec 512) : State :=
  if (seOf cmd).op != op then s
  else
    match s.seRun k job false (seOf cmd) with
    | .done s' => s'
    | .wait s' => s'
    | .fail s' e =>
      if job = 0 then s'.report e.code { cls := 3, idx := k, data := e.data }
      else s'.jobFaults job e.code { cls := 3, idx := k, data := e.data }

def seStep (op : Nat) (k : Stack) (src : SeSrc) (s : State) : State :=
  match src with
  | .queued => s.seFront op k
  | .conductor job cmd => s.seDirect op k job cmd

def execSeCopy (k : Stack) (src : SeSrc) (s : State) : Host.Outcome State Fault Refusal := .next (seStep 0x01 k src s)
def execSeFill (k : Stack) (src : SeSrc) (s : State) : Host.Outcome State Fault Refusal := .next (seStep 0x02 k src s)
def execSeAdd (k : Stack) (src : SeSrc) (s : State) : Host.Outcome State Fault Refusal := .next (seStep 0x03 k src s)
def execSeMin (k : Stack) (src : SeSrc) (s : State) : Host.Outcome State Fault Refusal := .next (seStep 0x04 k src s)
def execSeMax (k : Stack) (src : SeSrc) (s : State) : Host.Outcome State Fault Refusal := .next (seStep 0x05 k src s)
def execSePack (k : Stack) (src : SeSrc) (s : State) : Host.Outcome State Fault Refusal := .next (seStep 0x06 k src s)
def execSeUnpack (k : Stack) (src : SeSrc) (s : State) : Host.Outcome State Fault Refusal := .next (seStep 0x07 k src s)
def execSeGather (k : Stack) (src : SeSrc) (s : State) : Host.Outcome State Fault Refusal := .next (seStep 0x08 k src s)
def execSeWalk (k : Stack) (src : SeSrc) (s : State) : Host.Outcome State Fault Refusal := .next (seStep 0x09 k src s)
def execSePrefetch (k : Stack) (src : SeSrc) (s : State) : Host.Outcome State Fault Refusal :=
  .next (seStep 0x0A k src s)
def execSeUpdate (k : Stack) (src : SeSrc) (s : State) : Host.Outcome State Fault Refusal := .next (seStep 0x10 k src s)
def execSeEvict (k : Stack) (src : SeSrc) (s : State) : Host.Outcome State Fault Refusal := .next (seStep 0x11 k src s)
def execSeScrub (k : Stack) (src : SeSrc) (s : State) : Host.Outcome State Fault Refusal := .next (seStep 0x12 k src s)

/-! Margining (R301 to R303). -/

/-- No frame of the stack is allocated, and no command or migration on it is in progress (R301). -/
def State.marginReady (s : State) (k : Nat) : Bool :=
  k != 0 && (s.stack k).queue.isEmpty && !s.mem.frames.any (fun p => frameStack p.1 == k)

/-- Results of a channel (Table 14 of 09). -/
def ChanSt.margin (c : ChanSt) (limitDq limitVddq : Nat) (m : Margins) : ChanSt :=
  { c with valid := true, left := m.left, right := m.right, low := m.low, high := m.high,
           pass := decide (limitDq ≤ m.left) && decide (limitDq ≤ m.right) && decide (limitVddq ≤ m.low)
             && decide (limitVddq ≤ m.high) }

/-- Writes the results of every good channel; a failing one is logged (R303). -/
def State.marginStack (s : State) (k : Nat) (results : List Margins) : State :=
  let x := s.stack k
  (x.good32.zipIdx).foldl (fun s p =>
    let c := (x.chans.get .init p.1).margin x.limitDq x.limitVddq (results.getD p.2 ⟨0, 0, 0, 0⟩)
    let s := s.modStack k (fun y => { y with chans := y.chans.set .init p.1 c })
    if c.pass then s else s.report Codes.marginFail { cls := 3, idx := k, unit := p.1 }) s

def seMargin (k : Nat) (src : SeSrc) (results : List Margins) (s : State) : State :=
  match src with
  | .queued => s
  | .conductor job cmd =>
    let c := seOf cmd
    if c.op != 0x13 || bitsOf c.src 4 0 != k || !s.marginReady k then s
    else if !c.valid false || decide (32 ≤ c.src) then
      if job = 0 then s.report Codes.seCommand { cls := 3, idx := k }
      else s.jobFaults job Codes.seCommand { cls := 3, idx := k }
    else s.marginStack k results

def execSeMargin (k : Stack) (src : SeSrc) (results : List Margins) (s : State) : Host.Outcome State Fault Refusal :=
  .next (seMargin k src results s)

/-! Completion (R38, R297). -/

/-- Updates of a job are still queued. -/
def State.updatesLeft (s : State) (j : Nat) : Bool :=
  (List.range 32).any (fun k => (s.stack k).queue.any (fun c => c.job == j && (seOf c.cmd).op == 0x10))

/-- After the last update of a unit: a breach of Table 8 faults the job, else the unit is forwarded (R231, R238). -/
def State.updatesDone (s : State) (j : Nat) : State :=
  match s.job j, s.jobInterleave j with
  | some x, some iv =>
    if x.train.phase == .updating && !s.updatesLeft j then
      match x.train.updFault with
      | some c => (s.modTrain j (fun t => { t with phase := .update })).jobFaults j c {}
      | none => s.forwardUnit j iv x.train.unit
    else s
  | _, _ => s

/-- The saved counter of a hand that has been saved counts in the save object (R416). -/
def State.bumpSaved (s : State) (q : SeCmd) (t evt : Nat) : State :=
  match s.job q.job with
  | none => s
  | some x =>
    match x.places.zipIdx.find? (fun p => p.1.die == t / 12 && bitOf p.1.mask (t % 12)) with
    | none => s
    | some p =>
      let i := (maskBits p.1.mask 12).idxOf (t % 12)
      let same := x.savedTiles.any (fun v => v.die == p.2 && v.ordinal == i && (match v.hand with
        | some h => h.id == q.hand
        | none => false))
      match p.1.save with
      | some a =>
        if x.phase == .saved && same then
          let w := a + 0x40000 + 27300864 * i + 0x1A00000 + 37632 + 4 * evt
          s.writeLe w 4 ((s.readLe w 4 + 1) % 2 ^ 32)
        else s
      | none => s

/-- The front command's writes are visible: it leaves the queue and counts its event counter. -/
def seCommandComplete (k : Nat) (s : State) : State :=
  match (s.stack k).queue with
  | [] => s
  | q :: rest =>
    if !q.done then s
    else
      let s1 := s.modStack k (fun x => { x with queue := rest })
      let c := seOf q.cmd
      match q.tile with
      | some t =>
        if (s1.tile t).handId == q.hand && (s1.tile t).job == q.job then s1.modTile t (fun y => y.bump (c.evt % 16) 1)
        else s1.bumpSaved q t (c.evt % 16)
      | none => if c.op = 0x10 then s1.updatesDone q.job else s1

def execSeCommandComplete (k : Stack) (s : State) : Host.Outcome State Fault Refusal := .next (seCommandComplete k s)

end Sys2Proof.Machine
end

