-- ==== Sys2Proof/Machine/Rings.lean ====
section
/-!
DEFINITION. Machine/Rings.lean: submission entries, completions and MSI-X messages (R397 to R402).
-/

namespace Sys2Proof.Machine

/-! Fields of a ring (Table 11 of 13). -/

def RingSt.sqSize (x : RingSt) : Nat := 2 ^ (6 + bitsOf x.cfg.toNat 3 0)
def RingSt.cqSize (x : RingSt) : Nat := 2 ^ (6 + bitsOf x.cfg.toNat 7 4)
def RingSt.vector (x : RingSt) : Nat := bitsOf x.cfg.toNat 26 16
def RingSt.reqGen (x : RingSt) : Nat := bitsOf x.cfg.toNat 31 28
def RingSt.reqMinor (x : RingSt) : Nat := bitsOf x.cfg.toNat 35 32
def RingSt.func (x : RingSt) : Nat := x.owner.toNat

/-- Base and location of a ring register. -/
def ringBase (r : W64) : Nat := r.toNat / 4096 * 4096
def ringLoc (r : W64) : Bool := r.getLsbD 0

/-- Reads host memory or the unified range, as a ring's LOC says. -/
def State.locRead (s : State) (unified : Bool) (a n : Nat) : List Byte :=
  if unified then s.readMem a n else s.hostMem.getRange 0 a n

/-- Writes host memory or the unified range. -/
def State.locWrite (s : State) (unified : Bool) (a : Nat) (bs : List Byte) : State :=
  if unified then s.writeMem a bs else { s with hostMem := s.hostMem.setRange 0 a bs }

/-- (a - b) mod 2^32 of two counts. -/
def cntDiff (a b : W32) : Nat := (a - b).toNat

/-! Submission entries (R400, R401). -/

/-- The entry at SQ_HEAD. -/
def State.entryBytes (s : State) (r : Nat) : List Byte :=
  let x := s.ring r
  s.locRead (ringLoc x.sq) (ringBase x.sq + 64 * (x.sqHead.toNat % x.sqSize)) 64

/-- Completion entries that the host has not read, with those still owed, leave room for one more (R401). -/
def RingSt.room (x : RingSt) : Bool := decide (x.owed + cntDiff x.cqTail x.cqHead < x.cqSize)

/-- Lowest job number held by no live job (R401). -/
def State.freeJobNo (s : State) : Option Nat := ((List.range 4095).map (· + 1)).find? (fun j => (s.job j).isNone)

/-- The next entry of a ring, if the conductor may consume it now (R399, R401). -/
def State.frontEntry (s : State) (r : Nat) : Option (List Byte) :=
  let x := s.ring r
  if x.active && !x.stopped && !x.closing && x.sqHead != x.sqTail && x.room then
    let e := s.entryBytes r
    if fieldLe e 0 1 == 0x90 && s.freeJobNo.isNone then none else some e
  else none

/-- Bytes of an entry's body that Table 2 of 13 lists for a TYPE; none for a TYPE outside it. -/
def entryBody : Nat → Option (List (Nat × Nat))
  | 0x90 => some [(0x10, 8)]
  | 0x91 => some [(0x10, 8)]
  | 0x92 => some [(0x10, 8), (0x18, 4)]
  | 0x93 => some [(0x18, 6)]
  | 0x94 => some [(0x18, 4)]
  | 0x95 => some [(0x10, 2)]
  | 0x96 => some []
  | _ => none

/-- Every byte from `lo` below 64 that the listed fields do not cover is zero. -/
def restZero (e : List Byte) (lo : Nat) (used : List (Nat × Nat)) : Bool :=
  (List.range 64).all (fun i =>
    decide (i < lo) || used.any (fun u => decide (u.1 ≤ i ∧ i < u.1 + u.2)) || fieldLe e i 1 == 0)

/-- The code that an entry completes with before it is looked at further (R400): the lowest where two hold. A PARTITION
entry on a ring of another function than the physical one is none of that ring's types. -/
def State.entryCode (s : State) (r : Nat) (e : List Byte) : Option Code :=
  let x := s.ring r
  let h := fieldLe e 0 2
  match entryBody (bitsOf h 7 0) with
  | none => some Codes.schedEntry
  | some used =>
    if fieldLe e 2 6 != 0 || !restZero e 0x10 used || (bitsOf h 7 0 == 0x95 && x.func != 0) then some Codes.schedEntry
    else if bitsOf h 15 12 != 2 || decide (x.negMinor < bitsOf h 11 8) then some Codes.schedEntryVersion
    else none

/-! Messages. -/

/-- Sends an MSI-X message of a function, or holds it pending while its vector is masked (R402). -/
def State.msix (s : State) (f v : Nat) : State :=
  let k := f * 2048 + v
  if s.sched.msix.get 0 k = 1 then s.send (.msix f v)
  else { s with sched := { s.sched with msix := s.sched.msix.set 0 k 2 } }

/-! Completions (R402). -/

/-- What a completion says beside the ring's own fields. -/
structure Completion where
  kind   : Nat
  status : Code := 0
  job    : Nat := 0
  tag    : W64 := 0
  preempts : Nat := 0
  result : Nat := 0
  deriving DecidableEq, Repr

/-- The 32 bytes of a completion entry (Table 3 of 13). -/
def Completion.bytes (c : Completion) (phase : Bool) (sqHead : W32) : List Byte :=
  natLe 2 0x209A ++ natLe 1 phase.toNat ++ natLe 1 c.kind ++ natLe 2 c.status.toNat ++ natLe 2 c.job
    ++ natLe 8 c.tag.toNat ++ natLe 4 sqHead.toNat ++ natLe 4 (c.preempts % 2 ^ 32) ++ natLe 8 c.result

/-- Writes a completion and sends the ring's message; a ring whose jobs are ending discards it (R398, R402). -/
def State.complete (s : State) (r : Nat) (c : Completion) : State :=
  let x := s.ring r
  if !x.active || x.closing then s.modRing r (fun x => { x with owed := x.owed - 1 })
  else
    let n := x.cqTail.toNat
    let s := s.locWrite (ringLoc x.cq) (ringBase x.cq + 32 * (n % x.cqSize))
      (c.bytes (n / x.cqSize % 2 == 0) x.sqHead)
    (s.modRing r (fun x => { x with cqTail := x.cqTail + 1, owed := x.owed - 1 })).msix x.func x.vector

/-- Consumes the entry at SQ_HEAD; its completion is owed (R401). -/
def State.consume (s : State) (r : Nat) : State :=
  s.modRing r (fun x => { x with sqHead := x.sqHead + 1, owed := x.owed + 1 })

/-- TAG of an entry. -/
def entryTag (e : List Byte) : W64 := BitVec.ofNat 64 (fieldLe e 8 8)

/-- Ends an entry with a status; a code that refuses it writes one record (R487, R508). -/
def State.finishEntry (s : State) (r : Nat) (e : List Byte) (code : Code) : State :=
  let s := if code = 0 then s else s.report code { func := (s.ring r).func }
  s.complete r { kind := fieldLe e 0 1, status := code, tag := entryTag e }

/-- The conductor takes the next entry of a ring: a bad one completes with its code, one of the wanted TYPE goes on, and
any other stays (log entry 1). -/
def State.takeEntry (s : State) (r type : Nat) (go : List Byte → State → State) : State :=
  match s.frontEntry r with
  | none => s
  | some e =>
    match s.entryCode r e with
    | some c => (s.consume r).finishEntry r e c
    | none => if fieldLe e 0 1 = type then go e s else s

/-- A job live on a ring (R400). -/
def State.liveOn (s : State) (r j : Nat) : Bool :=
  match s.job j with
  | some x => x.ring == r
  | none => false

/-- NOP (R400). -/
def execNopEntry (r : Ring) (s : State) : Host.Outcome State Fault Refusal :=
  .next (s.takeEntry r 0x96 (fun e s => (s.consume r).finishEntry r e 0))

end Sys2Proof.Machine
end

