-- ==== Sys2Proof/Machine/Objects.lean ====
section
/-!
DEFINITION. Machine/Objects.lean: objects of the unified range, their requests, and the stored objects of the flash tier
(R276 to R283, R310, R315, R316, R463).
-/

namespace Sys2Proof.Machine

/-- An object request (Table 2 of 09). -/
structure ObjReq where
  hdr   : Nat
  op    : Nat
  attr  : Nat
  place : Nat
  arg   : Nat
  rsvd  : Nat
  pages : Nat
  name  : Nat
  base  : Nat
  owner : Nat
  tail  : Nat
  deriving DecidableEq, Repr

def objReqOf (bs : List Byte) : ObjReq :=
  { hdr := fieldLe bs 0 2, op := fieldLe bs 2 1, attr := fieldLe bs 3 1, place := fieldLe bs 4 1, arg := fieldLe bs 5 1,
    rsvd := fieldLe bs 6 2, pages := fieldLe bs 8 8, name := fieldLe bs 0x10 8, base := fieldLe bs 0x18 8,
    owner := fieldLe bs 0x20 4, tail := fieldLe bs 0x28 24 }

/-- PLACE_ARG is in the range that PLACE gives it. -/
def placeOk (place arg : Nat) : Bool :=
  match place with
  | 0 => arg == 0
  | 1 => decide (arg < 4)
  | 2 => decide (arg < 8)
  | 3 => decide (arg < 32)
  | _ => false

/-- The fields that R276 checks whatever the OP. -/
def ObjReq.clean (q : ObjReq) : Bool :=
  hdrOk q.hdr 0x61 && decide (1 ≤ q.op ∧ q.op ≤ 4) && decide (q.attr ≤ 3) && placeOk q.place q.arg && q.rsvd == 0
    && q.tail == 0

/-- How a request ends: done, refused with a code, or still waiting. -/
inductive ObjRes where
  | done (base : Nat) (s : State)
  | fail (code : Code)
  | wait (s : State)
  deriving DecidableEq, Repr

/-! ALLOC (R277 to R279, R315, R316). -/

/-- Lowest run of free page numbers (log entry 36). -/
def State.findRun (s : State) (n : Nat) : Option Nat :=
  let objs := s.mem.objects.filterMap (fun q => q.2.map (fun o => (q.1, o.pages)))
  let cands := 0 :: objs.map (fun o => o.1 + o.2)
  let fits (b : Nat) : Bool :=
    decide (b + n ≤ s.rangePages) && objs.all (fun o => decide (b + n ≤ o.1 ∨ o.1 + o.2 ≤ b))
  (cands.filter fits).foldl (fun best b =>
    match best with
    | none => some b
    | some x => some (min x b)) none

/-- The `n` lowest free logical pages; none where there are fewer (R315). -/
def State.freeLogical (s : State) (n : Nat) : Option (List Nat) :=
  let xs := ((List.range s.mem.ftl.logicalPages).filter (fun l => s.mem.ftl.taken.get 0 l == 0)).take n
  if xs.length = n then some xs else none

/-- A frame for a `PIN_STACK` page: a free one, or that of a victim (R279). Its write to flash is made at once where one is
needed (log entry 37). -/
def State.frameOrEvict : Nat → State → List Nat → Nat → Except (Option Code) (Nat × State)
  | 0, _, _, _ => .error (some Codes.memNoFrames)
  | fuel + 1, s, set, j =>
    match s.findFrame set j with
    | some f => .ok (f, s)
    | none =>
      match (rotateSet set j).findSome? s.victimOf with
      | none => if s.evicting set then .error none else .error (some Codes.memNoFrames)
      | some v =>
        match s.page v.page with
        | none => .error (some Codes.memNoFrames)
        | some x =>
          if x.written then
            if s.mem.ftl.readOnly then .error (some Codes.flashFull)
            else if s.mem.ftl.mayProgram then
              match s.programPage v.page (x.logical.getD 0) with
              | some s1 =>
                State.frameOrEvict fuel
                  ((s1.modPage v.page (fun y => { y with place := .flash, written := false })).freeFrame v.frame) set j
              | none => .error none
            else .error none
          else State.frameOrEvict fuel (s.evict v) set j

/-- A new page of an object. -/
def State.newPage (s : State) (b j : Nat) (logical : Option Nat) : State :=
  s.setPage (b + j) (some { object := b, place := .flash, written := false, arrived := 0, logical := logical })

/-- Every page of a `PIN_STACK` object takes a frame. -/
def State.pinPages (set : List Nat) (b : Nat) : List Nat → State → Except (Option Code) State
  | [], s => .ok s
  | j :: js, s =>
    match s.frameOrEvict (s.mem.pages.length + 1) set j with
    | .ok (f, s1) => State.pinPages set b js (((s1.takeFrame f (b + j)).newPage b j none).arrive (b + j) f)
    | .error c => .error c

/-- Pages of any other object: those of `PREFER_STACK` take frames where one is free, all others lie in flash. -/
def State.softPages (s : State) (set : List Nat) (b attr : Nat) (ls : List Nat) : State :=
  (ls.zipIdx).foldl (fun s q =>
    let s1 := s.newPage b q.2 (some q.1)
    if attr = 1 then
      match s.findFrame set q.2 with
      | some f => (s1.takeFrame f (b + q.2)).arrive (b + q.2) f
      | none => s1
    else s1) s

/-- The name is in the directory (R316). -/
def State.named (s : State) (name : W64) : Option NamedObj := (s.mem.ftl.names.find? (fun q => q.1 == name)).map (·.2)

/-- Takes logical pages for an object. -/
def FtlSt.reserve (f : FtlSt) (ls : List Nat) : FtlSt := { f with taken := ls.foldl (fun m l => m.set 0 l 1) f.taken }

/-- ALLOC of an object. -/
def State.allocObject (s : State) (o : ObjectSt) : ObjRes :=
  let set := s.placementSet o.func o.place o.arg
  if set.isEmpty then .fail Codes.memObject
  else if o.attr = 2 ∧ ((s.named o.name).isSome ∨ 65536 ≤ s.mem.ftl.names.length) then .fail Codes.memObject
  else if o.attr = 0 then
    match s.findRun o.pages with
    | none => .fail Codes.memNoFrames
    | some b =>
      match State.pinPages set b (List.range o.pages) (s.setObject b (some o)) with
      | .ok s1 => .done b s1
      | .error (some c) => .fail c
      | .error none => .wait s.governed
  else if s.mem.ftl.readOnly then .fail Codes.flashFull
  else
    match s.freeLogical o.pages, s.findRun o.pages with
    | some ls, some b =>
      let s1 := (s.setObject b (some o)).modFtl (fun f => f.reserve ls)
      let s2 := if o.attr = 2 then s1.modFtl (fun f => { f with names := f.names ++ [(o.name, ⟨o.pages, ls⟩)] }) else s1
      .done b (s2.softPages set b o.attr ls)
    | _, _ => .fail Codes.flashFull

/-- ATTACH of a stored object: its pages are those in flash (R277, R316). -/
def State.attachObject (s : State) (o : ObjectSt) : ObjRes :=
  match s.named o.name with
  | none => .fail Codes.memObject
  | some n =>
    let set := s.placementSet o.func o.place o.arg
    if o.attr ≠ 2 ∨ set.isEmpty then .fail Codes.memObject
    else if n.logical.any (fun l => decide (s.mem.ftl.logicalPages ≤ l)) then .fail Codes.flashFull
    else
      match s.findRun n.pages with
      | none => .fail Codes.flashFull
      | some b =>
        let s1 := s.setObject b (some { o with pages := n.pages })
        let s2 := (n.logical.zipIdx).foldl (fun s q =>
          (s.newPage b q.2 (some q.1)).modMem (fun m =>
            { m with bytes := m.bytes.paste ((b + q.2) * size2MiB) size2MiB (m.ftl.store.slice (q.1 * size2MiB) size2MiB) })) s1
        .done b s2

/-! FREE and SYNC (R277, R281, R310, R313, R315, R316). -/

/-- Pages of an object. -/
def ObjectSt.pageList (o : ObjectSt) (b : Nat) : List Nat := (List.range o.pages).map (· + b)

/-- Some page of an object migrates. -/
def State.migrating (s : State) (b : Nat) (o : ObjectSt) : Bool :=
  (o.pageList b).any (fun p =>
    match s.page p with
    | some x => (match x.place with | .migratingIn _ => true | .migratingOut _ => true | _ => false)
    | none => false)

/-- Returns a logical page: it is unwritten for whoever receives it next (R315, R466). -/
def FtlSt.release (f : FtlSt) (l : Nat) : FtlSt :=
  { f with
    taken := f.taken.set 0 l 0, lost := f.lost.set 0 l 0, unjournaled := f.unjournaled.filter (· != l),
    store := f.store.clear (l * size2MiB) size2MiB,
    journal := if f.stored l then f.journal + 1 else f.journal,
    sbs := f.sbs.map (fun (q : Nat × Superblock) =>
      (q.1, { q.2 with stripes := q.2.stripes.map (fun x => if x = some l then none else x) })) }

/-- Removes an object: its frames are free, its pages unmapped, and its logical pages return unless a name or another object
still holds them. -/
def State.dropObject (s : State) (b : Nat) (o : ObjectSt) : State :=
  let ps := o.pageList b
  let ls := ps.filterMap (fun p => (s.page p).bind (·.logical))
  let s1 := ps.foldl (fun s p =>
    match s.page p with
    | some x =>
      let s := match x.frame with
        | some f => s.freeFrame f
        | none => s
      (s.setPage p none).modMem (fun m =>
        { m with waiters := m.waiters.filter (fun w => w.page != p), queue := m.queue.filter (fun q => q.page != p) })
    | none => s) s
  let s2 := (s1.setObject b none).modMem (fun m => { m with bytes := m.bytes.clear (b * size2MiB) (o.pages * size2MiB) })
  let s3 := if o.removeName then s2.modFtl (fun f => { f with names := f.names.filter (fun q => q.1 != o.name) }) else s2
  let held := s3.mem.ftl.names.flatMap (fun q => q.2.logical)
    ++ s3.mem.pages.filterMap (fun q => q.2.bind (·.logical))
  (ls.filter (fun l => !held.contains l)).foldl (fun s l => s.modFtl (fun f => f.release l)) s3

/-- Writes a request's STATUS, and BASE where one is returned, and its completion (R276, R402). -/
def State.finishObject (s : State) (p : Pending) (code : Code) (base : Option Nat) : State :=
  match p.ring with
  | none => s
  | some r =>
    let loc := ringLoc (s.ring r).sq
    let s1 := if code = 0 then s else s.report code { func := (s.ring r).func }
    let s2 := match base with
      | some b => s1.locWrite loc (p.req + 0x18) (natLe 8 b)
      | none => s1
    (s2.locWrite loc (p.req + 0x24) (natLe 4 code.toNat)).complete r
      { kind := p.kind, status := code, tag := p.tag, result := base.getD 0 }

/-- A FREE that may end now ends (R281). -/
def State.settleFree (s : State) (b : Nat) : State :=
  match s.object b with
  | some o =>
    match o.freeing, o.syncing with
    | some p, none => if s.migrating b o then s else (s.dropObject b o).finishObject p 0 none
    | _, _ => s
  | none => s

/-- FREE of an object: a `FLASH_BACKED` one is synchronised first, and migrations of its pages end first. -/
def State.freeObject (s : State) (b : Nat) (p : Pending) (removeName : Bool) : State :=
  match s.object b with
  | some o =>
    let o' := { o with freeing := some p, removeName := removeName, syncing := if o.attr = 2 then some p else none }
    (s.setObject b (some o')).settleFree b
  | none => s

/-- Programs the written pages of an object; false where a write must wait (R281, R310, R314). -/
def State.syncPages : List Nat → State → State × Bool
  | [], s => (s, true)
  | p :: ps, s =>
    match s.page p with
    | some x =>
      match x.written, x.logical with
      | true, some l =>
        if s.flashPaused then (s, false)
        else if s.mem.ftl.mayProgram then
          match s.programPage p l with
          | some s1 => State.syncPages ps (s1.modPage p (fun y => { y with written := false }))
          | none => (s, false)
        else (s.governed, false)
      | _, _ => State.syncPages ps s
    | none => State.syncPages ps s

/-- The end of a SYNC of the object at page `b`: STATUS is written once every written page and its journal records are
programmed (R310). A read-only tier fails it with `FLASH_FULL` (R313). -/
def State.syncDone (s : State) (b : Nat) : State :=
  match s.object b with
  | some o =>
    match o.syncing with
    | none => s
    | some p =>
      let ended (s : State) : State := s.setObject b (some { o with syncing := none })
      let dirty := (o.pageList b).any (fun q => (s.page q).any (·.written))
      if s.mem.ftl.readOnly && (dirty || o.freeing.isNone) then
        match o.freeing, p.ring with
        | some _, none => (ended s).settleFree b
        | some _, some _ =>
          (s.setObject b (some { o with syncing := none, freeing := none })).finishObject p Codes.flashFull none
        | none, _ => (ended s).finishObject p Codes.flashFull none
      else
        let r := State.syncPages (o.pageList b) s
        if !r.2 || r.1.mem.ftl.frozen then r.1
        else
          let s1 := ended (r.1.modFtl FtlSt.programJournal)
          if o.freeing.isSome then s1.settleFree b else s1.finishObject p 0 none
  | none => s

/-- Frees the objects that a job owns: a `FLASH_BACKED` one stays stored (R423). They are the conductor's until then. -/
def State.freeOwned (s : State) (which : Nat → ObjectSt → Bool) : State :=
  let bs := s.mem.objects.filterMap (fun q =>
    match q.2 with
    | some o => if which q.1 o && o.freeing.isNone then some q.1 else none
    | none => none)
  bs.foldl (fun s b =>
    match s.object b with
    | some o => (s.setObject b (some { o with owner := .conductor })).freeObject b ⟨none, 0, 0, 0⟩ false
    | none => s) s

/-! OBJECT entries. -/

/-- Owner of a request: 0 is the ring itself (Table 2 of 09). -/
def ownerOf (r : Nat) (owner : Nat) : Owner := if owner = 0 then .ring r else .job owner

/-- An object that a request's owner may name by BASE. -/
def State.ownObject (s : State) (owner : Owner) (base : Nat) : Option ObjectSt :=
  if base % size2MiB = 0 then
    match s.object (base / size2MiB) with
    | some o => if o.owner = owner && o.freeing.isNone then some o else none
    | none => none
  else none

/-- The next OBJECT entry of a ring, if its request has this OP or none that R276 admits (R276, R400). -/
def State.objectEntry (s : State) (r op : Nat) (go : ObjReq → Pending → State → State) : State :=
  s.takeEntry r 0x91 (fun e s =>
    let x := s.ring r
    let a := fieldLe e 0x10 8
    let loc := ringLoc x.sq
    match (if loc then s.checkRange (.func x.func) a 64 else none) with
    | some c => (s.consume r).finishEntry r e c
    | none =>
      let q := objReqOf (s.locRead loc a 64)
      let p : Pending := ⟨some r, entryTag e, 0x91, a⟩
      if !q.clean then (s.consume r).finishObject p Codes.memObject none
      else if q.op ≠ op then s
      else if q.owner ≠ 0 ∧ !s.liveOn r q.owner then (s.consume r).finishObject p Codes.schedNoJob none
      else go q p s)

/-- The object that an ALLOC or ATTACH makes. -/
def ObjReq.object (q : ObjReq) (r func : Nat) : ObjectSt :=
  { pages := q.pages, attr := q.attr, place := q.place, arg := q.arg, name := BitVec.ofNat 64 q.name,
    owner := ownerOf r q.owner, func := func, freeing := none, syncing := none, removeName := false }

/-- Ends an ALLOC or ATTACH entry. -/
def State.objectResult (s : State) (r : Nat) (p : Pending) : ObjRes → State
  | .done b s1 => (s1.consume r).finishObject p 0 (some (b * size2MiB))
  | .fail c => (s.consume r).finishObject p c none
  | .wait s1 => s1

def execAlloc (r : Ring) (s : State) : Host.Outcome State Fault Refusal :=
  .next (s.objectEntry r 1 (fun q p s =>
    if q.pages = 0 ∨ (q.attr ≠ 2 ∧ q.name ≠ 0) then (s.consume r).finishObject p Codes.memObject none
    else s.objectResult r p (s.allocObject (q.object r (s.ring r).func))))

def execAttach (r : Ring) (s : State) : Host.Outcome State Fault Refusal :=
  .next (s.objectEntry r 4 (fun q p s =>
    if q.attr ≠ 2 then (s.consume r).finishObject p Codes.memObject none
    else s.objectResult r p (s.attachObject (q.object r (s.ring r).func))))

/-- A FREE that sets NAME must give the name of the object, which only a `FLASH_BACKED` one has (log entry 38). -/
def ObjReq.nameOk (q : ObjReq) (o : ObjectSt) : Bool :=
  q.name == 0 || (o.attr == 2 && BitVec.ofNat 64 q.name == o.name)

def execFree (r : Ring) (s : State) : Host.Outcome State Fault Refusal :=
  .next (s.objectEntry r 2 (fun q p s =>
    match s.ownObject (ownerOf r q.owner) q.base with
    | none => (s.consume r).finishObject p Codes.memObject none
    | some o =>
      if !q.nameOk o then (s.consume r).finishObject p Codes.memObject none
      else if o.syncing.isSome then s
      else (s.consume r).freeObject (q.base / size2MiB) p (q.name != 0)))

def execObjectSync (r : Ring) (s : State) : Host.Outcome State Fault Refusal :=
  .next (s.objectEntry r 3 (fun q p s =>
    match s.ownObject (ownerOf r q.owner) q.base with
    | none => (s.consume r).finishObject p Codes.memObject none
    | some o =>
      if !q.nameOk o then (s.consume r).finishObject p Codes.memObject none
      else if o.syncing.isSome then s
      else if o.attr = 2 then (s.consume r).setObject (q.base / size2MiB) (some { o with syncing := some p })
      else (s.consume r).finishObject p 0 none))

def execObjectSyncComplete (base : BitVec 48) (s : State) : Host.Outcome State Fault Refusal :=
  .next (if base.toNat % size2MiB = 0 then s.syncDone (base.toNat / size2MiB) else s)

/-! Migrations with the FREEs that wait for them. -/

/-- First page of the object that holds a page. -/
def State.objectBase (s : State) (p : Nat) : Option Nat := (s.page p).map (·.object)

def execMigrationComplete (page : Nat) (flashOk : Bool) (s : State) : Host.Outcome State Fault Refusal :=
  .next (match s.objectBase page with
    | some b => (migrationComplete page flashOk s).settleFree b
    | none => s)

def execEvictionComplete (page : Nat) (s : State) : Host.Outcome State Fault Refusal :=
  .next (match s.objectBase page with
    | some b => (evictionComplete page s).settleFree b
    | none => s)

end Sys2Proof.Machine
end

