-- ==== Sys2Proof/Machine/Codec.lean ====
section
/-!
DEFINITION. Machine/Codec.lean: the video decoders and encoders (R319 to R341).
-/

namespace Sys2Proof.Machine

/-! Engines and streams. -/

def State.engine (s : State) (e : Nat) : EngineSt := s.codec.get .init e

def State.setEngine (s : State) (e : Nat) (x : EngineSt) : State := { s with codec := s.codec.set .init e x }

def State.modEngine (s : State) (e : Nat) (f : EngineSt → EngineSt) : State := s.setEngine e (f (s.engine e))

def State.stream (s : State) (e slot : Nat) : Option StreamSt := (s.engine e).streams.get none slot

def State.setStream (s : State) (e slot : Nat) (x : Option StreamSt) : State :=
  s.modEngine e (fun y => { y with streams := y.streams.set none slot x })

/-- An engine that encodes: 16 to 23 (log entry 39). -/
def isEncoder (e : Nat) : Bool := decide (16 ≤ e)

/-- Edge die of an engine (R11). -/
def engineEdge (e : Nat) : Nat := if isEncoder e then (e - 16) / 2 else e / 4

/-- Open streams of an engine, by slot. -/
def EngineSt.open_ (x : EngineSt) : List (Nat × StreamSt) := x.streams.filterMap (fun p => p.2.map (fun y => (p.1, y)))

/-! The descriptor (Table 3 of 10). -/

def streamDescOf (b : List Byte) : StreamDesc :=
  let fl := fieldLe b 4 1
  { encode := fieldLe b 2 1 == 1, codec := fieldLe b 3 1, surf := bitOf fl 0, tensor := bitOf fl 1, stats := bitOf fl 2,
    poolBufs := fieldLe b 5 1, poolBase := fieldLe b 8 8, bufBytes := fieldLe b 0x10 8, inBase := fieldLe b 0x18 8,
    inEntries := fieldLe b 0x20 4, outEntries := fieldLe b 0x24 4, outBase := fieldLe b 0x28 8, aux := fieldLe b 0x30 8,
    statsBase := fieldLe b 0x38 8, logBase := fieldLe b 0x40 8, logEntries := fieldLe b 0x48 4 }

/-- IN_WR, IN_RD, OUT_WR, OUT_DONE and LOG_NEXT of a stream. -/
def State.inWr (s : State) (x : StreamSt) : Nat := s.readLe (x.addr + 0x50) 8
def State.inRd (s : State) (x : StreamSt) : Nat := s.readLe (x.addr + 0x58) 8
def State.outWr (s : State) (x : StreamSt) : Nat := s.readLe (x.addr + 0x60) 8
def State.outDone (s : State) (x : StreamSt) : Nat := s.readLe (x.addr + 0x68) 8
def State.logNext (s : State) (x : StreamSt) : Nat := s.readLe (x.addr + 0x70) 8

/-- Record of a stream (Table 10 of 16). -/
def State.streamInfo (s : State) (e slot : Nat) (x : StreamSt) : RecInfo :=
  { cls := 1, idx := engineEdge e, unit := slot, job := x.job,
    data := natLe 1 e ++ natLe 1 slot ++ natLe 8 (s.inRd x) }

/-- Writes STATUS and ERROR. -/
def State.streamStatus (s : State) (x : StreamSt) (st : Nat) (code : Code) : State :=
  s.writeMem (x.addr + 0x78) (natLe 2 st ++ natLe 2 code.toNat)

/-- A stream stops with a code (R339). -/
def State.stopStream (s : State) (e slot : Nat) (x : StreamSt) (code : Code) : State :=
  let s1 := (s.setStream e slot (some { x with status := 2 })).streamStatus x 2 code
  s1.report code (s.streamInfo e slot x)

/-! Sizes (R320, R327, R336). -/

/-- Bytes of a picture's statistics: T of R336. -/
def statBlocks (w h : Nat) : Nat := ceilDiv w 16 * ceilDiv h 16
def statTiles (w h : Nat) : Nat := ceilDiv w 64 * ceilDiv h 64
def statBytes (w h : Nat) : Nat := roundUp (64 + 8 * statBlocks w h + 8 * statTiles w h) 256

/-- Least BUF_BYTES of a sequence (R327). -/
def bufNeed (w h depth chroma : Nat) : Nat :=
  let wa := roundUp w 64
  let ha := roundUp h 64
  let k2 := match chroma with
    | 0 => 2
    | 1 => 3
    | 2 => 4
    | _ => 6
  wa * ha * (if depth = 8 then 1 else 2) * k2 / 2 + wa / 16 * (ha / 16) * 16 + statBytes w h

/-- A coded sequence lies outside R320. -/
def seqOutside (q : SeqInfo) : Bool :=
  !q.supported || decide (8192 < q.width) || decide (8192 < q.height) || decide (35389440 < q.width * q.height)

/-! Opening (R323, R331, R337, R400). -/

/-- An object named at an address is pinned, and `n` bytes there are in the job's windows. -/
def State.pinnedAt (s : State) (j a n : Nat) : Bool :=
  (s.checkRange (.job j) a (max 1 n)).isNone && (pagesOf a (max 1 n)).all (fun p =>
    match s.page p with
    | some x => (match s.object x.object with | some o => o.attr == 0 | none => false)
    | none => false)

/-- The patch descriptor breaches Table 6 of 10. -/
def State.patchBad (s : State) (j a : Nat) : Bool :=
  let f (o n : Nat) : Nat := s.readLe (a + o) n
  let fin (o : Nat) : Bool := bitsOf (f o 4) 30 23 != 255
  !hdrOk (f 0 2) 0x72 || !(f 2 1 == 1 || f 2 1 == 3) || decide (32 ≤ f 3 1) || decide (4 ≤ f 4 1) || f 5 3 != 0
    || f 8 8 % 256 != 0 || !((List.range 6).all (fun i => fin (0x20 + 4 * i))) || !s.pinnedAt j (f 8 8) 1

/-- The encoder parameters breach R337. -/
def State.encBad (s : State) (a : Nat) : Bool :=
  let f (o n : Nat) : Nat := s.readLe (a + o) n
  let dim (x : Nat) : Bool := x % 2 == 0 && decide (64 ≤ x ∧ x ≤ 8192)
  let qp (o : Nat) : Bool := decide (f o 1 ≤ 51)
  !hdrOk (f 0 2) 0x74 || !dim (f 2 2) || !dim (f 4 2) || decide (1 < f 6 1) || !decide (1 ≤ f 7 1 ∧ f 7 1 ≤ 4)
    || decide (1 < f 0x10 1) || !qp 0x11 || !qp 0x12 || !qp 0x13 || !qp 0x14 || f 0x15 3 != 0 || f 0x1C 36 != 0
    || decide (35389440 < f 2 2 * f 4 2) || f 8 4 % 256 != 0 || decide (f 8 4 < f 2 2 * (1 + f 6 1))

/-- The checks of R323 at an open: whether it is refused with CODEC_DESC. -/
def State.streamBad (s : State) (j a : Nat) : Bool :=
  let b := s.readMem a 128
  let d := streamDescOf b
  let ring (x : Nat) : Bool := decide (1 ≤ x ∧ x ≤ 65536)
  if !s.pinnedAt j a 128 || a % 256 != 0 then true
  else
    let fields := !hdrOk (fieldLe b 0 2) 0x70 || decide (1 < fieldLe b 2 1) || decide (8 ≤ fieldLe b 4 1) || fieldLe b 6 2 != 0
      || fieldLe b 0x4C 4 != 0 || fieldLe b 0x7C 4 != 0 || !decide (1 ≤ d.codec ∧ d.codec ≤ 4)
      || (d.encode && !(d.codec == 2 || d.codec == 3)) || !decide (1 ≤ d.poolBufs ∧ d.poolBufs ≤ 32)
      || !ring d.inEntries || !ring d.outEntries || (!d.encode && !ring d.logEntries)
    let aligned (x : Nat) : Bool := x % 256 == 0
    let addrs := !aligned d.poolBase || !aligned d.bufBytes || !aligned d.inBase || !aligned d.outBase
      || (d.stats && !aligned d.statsBase) || (!d.encode && !aligned d.logBase)
    let objs := !s.pinnedAt j d.poolBase (d.poolBufs * d.bufBytes) || !s.pinnedAt j d.inBase (16 * d.inEntries)
      || !s.pinnedAt j d.outBase (64 * d.outEntries) || (d.stats && !s.pinnedAt j d.statsBase 1)
      || (!d.encode && !s.pinnedAt j d.logBase (32 * d.logEntries))
    let aux :=
      if d.encode then !s.pinnedAt j d.aux 64 || s.encBad d.aux
        || decide (d.bufBytes < bufNeed (s.readLe (d.aux + 2) 2) (s.readLe (d.aux + 4) 2) (8 + 2 * s.readLe (d.aux + 6) 1) 1)
      else d.tensor && (!s.pinnedAt j d.aux 64 || s.patchBad j d.aux)
    fields || addrs || objs || aux

/-- The engine for a new stream (R400): fewest open streams, then the quadrant of the job's first die, then index. -/
def State.pickEngine (s : State) (encode : Bool) (die : Nat) : Option Nat :=
  let es := (if encode then (List.range 8).map (· + 16) else List.range 16).filter (fun e => !(s.engine e).unused)
  let key (e : Nat) : Nat :=
    ((s.engine e).open_.length * 2 + (if engineEdge e = die / 2 then 0 else 1)) * 32 + e
  es.foldl (fun b e => match b with
    | none => some e
    | some x => if key e < key x then some e else some x) none

/-- A stream as opened. -/
def StreamSt.opened (a j : Nat) (d : StreamDesc) : StreamSt :=
  { addr := a, job := j, desc := d, status := 0, bufs := [], seq := none, inputs := [], pics := 0, order := [], frame := 0,
    run := none, resumed := false, loggedConceal := false, loggedFull := false, sinceKey := 0, lastQp := none, lastBits := 0 }

def codecOpen (r : Nat) (e : List Byte) (s : State) : State :=
  let j := fieldLe e 0x18 4
  let a := fieldLe e 0x10 8
  let s1 := s.consume r
  match s.job j with
  | none => s1.finishEntry r e Codes.schedNoJob
  | some x =>
    if x.ring ≠ r then s1.finishEntry r e Codes.schedNoJob
    else if s.streamBad j a then s1.finishEntry r e Codes.codecDesc
    else
      let d := streamDescOf (s.readMem a 128)
      match s.pickEngine d.encode ((x.places.head?.map (·.die)).getD 0) with
      | none => s1.finishEntry r e Codes.codecStreamLimit
      | some n =>
        match (List.range 64).find? (fun i => (s.stream n i).isNone) with
        | none => s1.finishEntry r e Codes.codecStreamLimit
        | some slot =>
          let st := StreamSt.opened a j d
          let s2 := (s1.setStream n slot (some st)).streamStatus st 0 0
          s2.complete r { kind := 0x92, job := j, tag := entryTag e, result := n * 256 + slot }

def execCodecOpen (r : Ring) (s : State) : Host.Outcome State Fault Refusal := .next (s.takeEntry r 0x92 (codecOpen r))

/-! Closing and the end of a job (R339). -/

/-- A stream is closed: its work ends, and STATUS reads closed. -/
def State.closeStream (s : State) (e slot : Nat) (x : StreamSt) (code : Code) : State :=
  (s.setStream e slot none).streamStatus x 3 code

/-- The streams of a job, as engine and slot. -/
def State.jobStreams (s : State) (j : Nat) : List (Nat × Nat × StreamSt) :=
  s.codec.flatMap (fun p => (p.2.open_.filter (fun q => q.2.job == j)).map (fun q => (p.1, q)))

/-- A job ends: its streams are abandoned and closed. -/
def State.abandonStreams (s : State) (j : Nat) : State :=
  (s.jobStreams j).foldl (fun s p => s.closeStream p.1 p.2.1 p.2.2 (BitVec.ofNat 16 (s.readLe (p.2.2.addr + 0x7A) 2))) s

def codecClose (r : Nat) (e : List Byte) (s : State) : State :=
  let j := fieldLe e 0x18 4
  let n := fieldLe e 0x1C 1
  let slot := fieldLe e 0x1D 1
  let s1 := s.consume r
  if !s.liveOn r j then s1.finishEntry r e Codes.schedNoJob
  else
    match s.stream n slot with
    | some x =>
      if x.job = j then
        (s1.closeStream n slot x (BitVec.ofNat 16 (s.readLe (x.addr + 0x7A) 2))).complete r
          { kind := 0x93, job := j, tag := entryTag e }
      else s1.finishEntry r e Codes.codecDesc
    | none => s1.finishEntry r e Codes.codecDesc

def execCodecClose (r : Ring) (s : State) : Host.Outcome State Fault Refusal := .next (s.takeEntry r 0x93 (codecClose r))

/-! The choice of a stream (R325). -/

/-- Lowest free frame buffer (R328). -/
def StreamSt.freeBuf (x : StreamSt) : Option Nat :=
  (List.range x.desc.poolBufs).find? (fun i => (x.bufs.get none i).isNone)

def State.streamReady (s : State) (x : StreamSt) : Bool :=
  decide (x.status ≤ 1) && s.inRd x != s.inWr x
    && (if x.desc.encode then s.outDone x != s.outWr x else x.freeBuf.isSome)

/-- The next ready stream of an engine. -/
def State.nextStream (s : State) (e : Nat) : Option (Nat × StreamSt) :=
  let ready := (s.engine e).open_.filter (fun p => s.streamReady p.2)
  let pick (lc : Bool) : List Nat :=
    roundRobin (s.engine e).last ((ready.filter (fun p => s.isLc p.2.job == lc)).map (fun p => (p.1, p.1)))
  match (pick true ++ pick false).head? with
  | some slot => (s.stream e slot).map (fun x => (slot, x))
  | none => none

/-! Concealment log (R334, R335). -/

/-- Appends an entry of the concealment log. -/
def State.logConceal (s : State) (e slot : Nat) (x : StreamSt) (cls blocks input offset first frame : Nat) :
    State × StreamSt :=
  let n := s.logNext x
  let bytes := natLe 2 0x2075 ++ natLe 1 cls ++ natLe 1 0 ++ natLe 4 blocks ++ natLe 8 input ++ natLe 4 offset ++ natLe 4 first
    ++ natLe 8 frame
  let s1 := (s.writeMem (x.desc.logBase + n % x.desc.logEntries * 32) bytes).writeLe (x.addr + 0x70) 8 (n + 1)
  if decide (x.desc.logEntries ≤ n) && !x.loggedFull then
    (s1.report Codes.codecLogFull (s.streamInfo e slot x), { x with loggedFull := true })
  else (s1, x)

/-- A discard run ends: its entry is written (log entry 40). -/
def State.endRun (s : State) (e slot : Nat) (x : StreamSt) : State × StreamSt :=
  match x.run with
  | some r =>
    let p := s.logConceal e slot x 3 r.count r.input r.offset 0 (2 ^ 64 - 1)
    (p.1, { p.2 with run := none, status := 0, resumed := true })
  | none => (s, x)

/-! Buffers (R328). -/

/-- A buffer with its marks changed; one with no mark is free. -/
def StreamSt.setBuf (x : StreamSt) (i : Nat) (b : PicBuf) : StreamSt :=
  { x with bufs := x.bufs.set none i (if b.ref || b.out || b.conv then some b else none) }

def StreamSt.modBuf (x : StreamSt) (i : Nat) (f : PicBuf → PicBuf) : StreamSt :=
  match x.bufs.get none i with
  | some b => x.setBuf i (f b)
  | none => x

/-- Every reference mark is cleared (R328). -/
def StreamSt.clearRefs (x : StreamSt) : StreamSt :=
  x.bufs.foldl (fun x p => x.modBuf p.1 (fun b => { b with ref := false })) x

/-- Buffers enter the output order; each takes its index, and a concealed one its log entry. -/
def State.enqueue (s : State) (e slot : Nat) (x : StreamSt) (bufs : List Nat) : State × StreamSt :=
  bufs.foldl (fun p i =>
    match p.2.bufs.get none i with
    | some b =>
      if p.2.order.any (fun q => q.1 == i) then p
      else
        let y := { (p.2.modBuf i (fun b => { b with out := true })) with order := p.2.order ++ [(i, p.2.frame)],
                                                                          frame := p.2.frame + 1 }
        if b.cls = 0 then (p.1, y) else p.1.logConceal e slot y b.cls b.concealed b.input b.offset b.first p.2.frame
    | none => p) (s, x)

/-! Decoding (R324 to R328, R333). -/

/-- Result of one step inside an access unit. -/
inductive DecRes where
  | go (s : State) (x : StreamSt)
  | stop (s : State)

/-- A discard starts or goes on (class 3): a run starts with its record, and clears the reference marks. -/
def State.discardAu (s : State) (e slot : Nat) (x : StreamSt) (offset : Nat) : State × StreamSt :=
  match x.run with
  | some r => (s, { x with run := some { r with count := r.count + 1 } })
  | none =>
    let y := { x.clearRefs with run := some ⟨1, s.inRd x, offset⟩, status := 1, seq := none }
    ((s.streamStatus x 1 0).report Codes.codecDiscarded (s.streamInfo e slot x), y)

/-- One decoded picture. -/
def State.decodePic (e slot : Nat) (r : DecRes) (p : PicOutcome) : DecRes :=
  match r with
  | .stop s => .stop s
  | .go s x =>
    match (match p.newSeq with | some q => some q | none => x.seq) with
    | none => let q := s.discardAu e slot x p.offset; .go q.1 q.2
    | some q =>
      if p.newSeq.isSome && seqOutside q then .stop (s.stopStream e slot x Codes.codecUnsupported)
      else if p.newSeq.isSome && (decide (x.desc.bufBytes < bufNeed q.width q.height q.depth q.chroma)
          || decide (x.desc.poolBufs < q.dpb + 1)) then .stop (s.stopStream e slot x Codes.codecPoolSmall)
      else
        let r0 := if x.status = 1 then let t := s.endRun e slot x; (t.1.streamStatus x 0 0, t.2) else (s, x)
        let x1 := p.dropRefs.foldl (fun x i => x.modBuf i (fun b => { b with ref := false })) { r0.2 with seq := some q }
        match x1.freeBuf with
        | none => .go r0.1 x1
        | some i =>
          let b : PicBuf :=
            { ref := p.isRef, out := p.shown, conv := false, seq := q, au := x1.inputs.length,
              pic := x1.pics, input := s.inRd x, cls := p.cls, concealed := p.concealed,
              first := p.first, offset := p.offset, substitute := p.substitute, resumed := x1.resumed }
          let k := r0.1.freeCtr
          let s1 := ({ r0.1 with freeCtr := k + 1 }).writeMem (x.desc.poolBase + i * x.desc.bufBytes)
            ((List.range x.desc.bufBytes).map (Config.freeByte k))
          let hit := decide (0 < p.concealed)
          let s2 := s1.modEngine e (fun y =>
            { y with frames := BitVec.ofNat 32 (satAdd (2 ^ 32 - 1) y.frames.toNat 1),
                     events := BitVec.ofNat 32 (satAdd (2 ^ 32 - 1) y.events.toNat hit.toNat) })
          let s3 := if hit && !x1.loggedConceal then s2.report Codes.codecConcealed (s.streamInfo e slot x) else s2
          .go s3 { (x1.setBuf i b) with pics := x1.pics + 1, resumed := false, loggedConceal := x1.loggedConceal || hit }

/-- One access unit. -/
def State.decodeAu (s : State) (e slot : Nat) (x : StreamSt) (bytes : List Byte) (out : AuOutcome) : DecRes :=
  let x1 := { x with inputs := x.inputs ++ [bytes] }
  match out with
  | .unsupported => .stop (s.stopStream e slot x Codes.codecUnsupported)
  | .discard offset => let p := s.discardAu e slot x1 offset; .go p.1 p.2
  | .pictures ps outs =>
    match ps.foldl (State.decodePic e slot) (.go s x1) with
    | .stop s1 => .stop s1
    | .go s1 x2 => let p := s1.enqueue e slot x2 outs; .go p.1 p.2

/-- A memory error of a codec access: the job faults (R339). -/
def State.codecError (s : State) (e slot : Nat) (x : StreamSt) (err : AccErr) : State :=
  s.jobFaults x.job err.code { (s.streamInfo e slot x) with data := err.data }

/-- A decoder decodes one access unit of the next ready stream (R325). -/
def decodeAccessUnit (e : Nat) (out : AuOutcome) (s : State) : State :=
  match s.nextStream e with
  | none => s
  | some (slot, x) =>
    let s0 := s.modEngine e (fun y => { y with last := slot })
    let rd := s.inRd x
    let a := x.desc.inBase + 16 * (rd % x.desc.inEntries)
    let addr := s.readLe a 8
    let len := s.readLe (a + 8) 4
    let eos := bitOf (s.readLe (a + 12) 4) 0
    if (len == 0 && !eos) || decide (2 ^ 28 < len) || s.readLe (a + 12) 4 / 2 != 0 then
      s0.stopStream e slot x Codes.codecInput
    else
      match s.checkAccesses (.job x.job) [(a, 16), (addr, len)] with
      | some err => s0.codecError e slot x err
      | none =>
        match (if len = 0 then DecRes.go s0 x else s0.decodeAu e slot x (s.readMem addr len) out) with
        | .stop s1 => s1.writeLe (x.addr + 0x58) 8 ((rd + 1) % 2 ^ 64)
        | .go s1 x1 =>
          let s2 := s1.writeLe (x.addr + 0x58) 8 ((rd + 1) % 2 ^ 64)
          if eos then
            let rest := x1.bufs.filterMap (fun p => p.2.bind (fun b =>
              if b.out && !x1.order.any (fun q => q.1 == p.1) then some p.1 else none))
            let p := s2.enqueue e slot x1 rest
            p.1.setStream e slot (some { p.2.clearRefs with seq := none })
          else s2.setStream e slot (some x1)

def execDecodeAccessUnit (e : Fin 16) (out : AuOutcome) (s : State) : Host.Outcome State Fault Refusal :=
  .next (decodeAccessUnit e out s)

/-! Output (R329 to R332, R336). -/

/-- A sample of a picture: plane 0 luma, 1 Cb, 2 Cr; monochrome has no chroma. -/
def StreamSt.sample (x : StreamSt) (b : PicBuf) (plane px py : Nat) : Nat :=
  Config.sample x.desc.codec (x.inputs.take b.au) b.pic plane px py % 2 ^ b.seq.depth

/-- A sample of depth `b` at surface depth `e` (R330). -/
def toDepth (b e v : Nat) : Nat :=
  if b ≤ e then v * 2 ^ (e - b) else min (2 ^ e - 1) ((v + 2 ^ (b - e - 1)) / 2 ^ (b - e))

/-- A chroma sample of the 4:2:0 surface, at the stream's depth (R330; log entry 41). -/
def StreamSt.chroma420 (x : StreamSt) (b : PicBuf) (plane cx cy : Nat) : Nat :=
  let q := b.seq
  let cells := match q.chroma with
    | 1 => [(cx, cy)]
    | 2 => [(cx, 2 * cy), (cx, 2 * cy + 1)].filter (fun p => decide (p.2 < q.cropH))
    | _ => [(2 * cx, 2 * cy), (2 * cx + 1, 2 * cy), (2 * cx, 2 * cy + 1), (2 * cx + 1, 2 * cy + 1)].filter
        (fun p => decide (p.1 < q.cropW ∧ p.2 < q.cropH))
  let n := cells.length
  ((cells.map (fun p => x.sample b plane p.1 p.2)).sum + n / 2) / max 1 n

/-- Bytes of a surface sample. -/
def surfBytes (e v : Nat) : List Byte := if e = 8 then natLe 1 v else natLe 2 (v * 64)

/-- Rows of the surface, as offset from SURF and bytes. -/
def StreamSt.surfRows (x : StreamSt) (b : PicBuf) (pitch e : Nat) : List (Nat × List Byte) :=
  let q := b.seq
  (List.range q.cropH).map (fun y => (y * pitch, (List.range q.cropW).flatMap (fun px =>
      surfBytes e (toDepth q.depth e (x.sample b 0 px y)))))
    ++ (List.range (ceilDiv q.cropH 2)).map (fun y => ((q.cropH + y) * pitch,
      (List.range (ceilDiv q.cropW 2)).flatMap (fun cx =>
        (if q.chroma = 0 then [2 ^ (e - 1), 2 ^ (e - 1)]
         else [1, 2].map (fun pl => toDepth q.depth e (x.chroma420 b pl cx y))).flatMap (surfBytes e))))

/-- FP32 value nearest to a quotient of integers. -/
def ratio32 (n : Int) (d : Nat) : W32 := quot32 (decide (n < 0)) n.natAbs d 0

/-- The coefficients exactly as R332 writes them, in millionths. -/
def colourExact (bt2020 : Bool) : List W32 :=
  (if bt2020 then [1474600, 164553, 571353, 1881400] else [1574800, 187324, 468124, 1855600]).map (fun n => ratio32 n 1000000)

/-- R, G, B of a sample (R332): matrix and range, depth, and integer samples; no chroma for monochrome. -/
def rgbOf (bt2020 full : Bool) (b : Nat) (y : Nat) (c : Option (Nat × Nat)) : List W32 :=
  let den := if full then 2 ^ b - 1 else 224 * 2 ^ (b - 8)
  let yn := if full then ratio32 y (2 ^ b - 1) else ratio32 ((y : Int) - 16 * 2 ^ (b - 8)) (219 * 2 ^ (b - 8))
  let u := match c with
    | some p => ratio32 ((p.1 : Int) - 2 ^ (b - 1)) den
    | none => 0
  let v := match c with
    | some p => ratio32 ((p.2 : Int) - 2 ^ (b - 1)) den
    | none => 0
  let k := colourExact bt2020
  let m (i : Nat) (z : W32) : FV := (val32 (k.getD i 0)).mul (val32 z)
  [to32 ((val32 yn).add (m 0 v)), to32 (((val32 yn).sub (m 1 u)).sub (m 2 v)), to32 ((val32 yn).add (m 3 u))]

/-- Chroma of a luma position (R332). -/
def StreamSt.chromaAt (x : StreamSt) (b : PicBuf) (px py : Nat) : Option (Nat × Nat) :=
  let at_ (cx cy : Nat) : Option (Nat × Nat) := some (x.sample b 1 cx cy, x.sample b 2 cx cy)
  match b.seq.chroma with
  | 0 => none
  | 1 => at_ (px / 2) (py / 2)
  | 2 => at_ (px / 2) py
  | _ => at_ px py

/-- Elements of the patch tensor that a picture writes, as address and bytes (R332). -/
def State.patchWrites (s : State) (x : StreamSt) (b : PicBuf) (frame : Nat) : List (Nat × List Byte) :=
  let a := x.desc.aux
  let f (o n : Nat) : Nat := s.readLe (a + o) n
  let t0 := f 0x38 4
  if frame < t0 ∨ t0 + f 0x3C 4 ≤ frame then []
  else
    let ft := 1 + bitsOf (f 3 1) 0 0
    let fh := 2 ^ bitsOf (f 3 1) 2 1
    let fw := 2 ^ bitsOf (f 3 1) 4 3
    let eb := if f 2 1 = 1 then 2 else 1
    let t := (frame - t0) / ft
    let ftt := (frame - t0) % ft
    let q := b.seq
    (List.range (ceilDiv q.cropH fh)).flatMap (fun h => (List.range (ceilDiv q.cropW fw)).flatMap (fun w =>
      (List.range fh).flatMap (fun dy => (List.range fw).map (fun dx =>
        let px := w * fw + dx
        let py := h * fh + dy
        let rgb := if px < q.cropW ∧ py < q.cropH then
            (rgbOf (bitOf (f 4 1) 0) (bitOf (f 4 1) 1) q.depth (x.sample b 0 px py) (x.chromaAt b px py)).zipIdx.map (fun p =>
              encodeElem (f 2 1) .rne (val32 (fmul (fsub p.1 (BitVec.ofNat 32 (f (0x20 + 4 * p.2) 4)))
                (BitVec.ofNat 32 (f (0x2C + 4 * p.2) 4)))))
          else [0, 0, 0]
        (f 8 8 + w * f 0x10 4 + h * f 0x14 4 + t * f 0x18 8 + ((ftt * fh + dy) * fw + dx) * 3 * eb,
         rgb.flatMap (natLe eb))))))

/-- Motion record of a 16 x 16 block (Table 8 of 10). -/
def motionRec (w : Nat) : List Byte :=
  let intra := bitOf w 48
  let mv (o : Nat) : Nat := let v := bitsOf w (o + 15) o; if v = 0x8000 then 0x8001 else v
  let dist := let v := bitsOf w 39 32; if v = 0x80 then 0x81 else v
  let flags := bitsOf w 50 48
  if intra then natLe 2 0 ++ natLe 2 0 ++ natLe 1 0 ++ natLe 1 flags ++ natLe 2 0
  else natLe 2 (mv 0) ++ natLe 2 (mv 16) ++ natLe 1 dist ++ natLe 1 flags ++ natLe 2 0

/-- VAR of a 64 x 64 block (Table 8 of 10). -/
def StreamSt.blockVar (x : StreamSt) (b : PicBuf) (bx by_ : Nat) : Nat :=
  let q := b.seq
  let xs := ((List.range 64).flatMap (fun dy => (List.range 64).filterMap (fun dx =>
    let px := 64 * bx + dx
    let py := 64 * by_ + dy
    if px < q.width ∧ py < q.height then some (x.sample b 0 px py / 2 ^ (q.depth - 8)) else none)))
  let n := xs.length
  min 65535 ((n * (xs.map (fun v => v * v)).sum - xs.sum * xs.sum) / (max 1 n * max 1 n))

/-- The statistics of a picture (R336). -/
def StreamSt.statistics (x : StreamSt) (b : PicBuf) (frame : Nat) : List Byte :=
  let q := b.seq
  let m := statBlocks q.width q.height
  let n := statTiles q.width q.height
  let word (i : Nat) : Nat := (Config.blockStat x.desc.codec (x.inputs.take b.au) b.pic i).toNat
  let motion := (List.range m).map word
  let intra := (motion.filter (fun w => bitOf w 48)).length
  let body := natLe 2 0x2073 ++ natLe 6 0 ++ natLe 8 frame ++ natLe 4 m ++ natLe 4 n ++ natLe 4 intra ++ natLe 4 b.concealed
    ++ List.replicate 32 (0 : Byte) ++ motion.flatMap motionRec
    ++ (List.range n).flatMap (fun i =>
      let w := word (m + i)
      natLe 4 (bitsOf w 31 0) ++ natLe 2 (x.blockVar b (i % ceilDiv q.width 64) (i / ceilDiv q.width 64))
        ++ natLe 1 (bitsOf w 39 32) ++ natLe 1 0)
  body ++ List.replicate (statBytes q.width q.height - body.length) 0

/-- Performs writes in order. -/
def State.writeAll (s : State) (ws : List (Nat × List Byte)) : State := ws.foldl (fun s w => s.writeMem w.1 w.2) s

/-- Decrements of the output order and the marks: the picture has been output. -/
def StreamSt.outputDone (x : StreamSt) (i : Nat) : StreamSt :=
  { (x.modBuf i (fun b => { b with out := false, conv := false })) with order := x.order.drop 1 }

/-- The output unit outputs the next picture of a stream (R329). -/
def pictureOutput (e slot : Nat) (s : State) : State :=
  match s.stream e slot with
  | none => s
  | some x =>
    match x.order with
    | [] => s
    | (i, frame) :: _ =>
      match x.bufs.get none i with
      | none => s
      | some b =>
        let done := s.outDone x
        if done = s.outWr x then s
        else
          let a := x.desc.outBase + 64 * (done % x.desc.outEntries)
          let surf := s.readLe a 8
          let pitch := s.readLe (a + 8) 4
          let depth := if s.readLe (a + 12) 1 % 2 = 0 then 8 else 10
          let stats := x.desc.statsBase + frame % x.desc.outEntries * statBytes b.seq.width b.seq.height
          let ws := (if x.desc.surf then (x.surfRows b pitch depth).map (fun w => (surf + w.1, w.2)) else [])
            ++ (if x.desc.tensor then s.patchWrites x b frame else [])
            ++ (if x.desc.stats then [(stats, x.statistics b frame)] else [])
          match s.checkAccesses (.job x.job) ((a, 64) :: ws.map (fun w => (w.1, w.2.length))) with
          | some err => s.codecError e slot x err
          | none =>
            let flags := (if 0 < b.concealed then 1 else 0) + (if b.substitute then 2 else 0) + (if b.resumed then 4 else 0)
            let s1 := s.writeAll (ws ++ [(a + 0x10, natLe 8 frame ++ natLe 2 b.seq.cropW ++ natLe 2 b.seq.cropH
              ++ natLe 4 flags ++ natLe 4 b.concealed ++ natLe 4 0 ++ natLe 8 (if x.desc.stats then stats else 0))])
            (s1.addInt64 (x.addr + 0x68) 1).setStream e slot (some (x.outputDone i))

def execPictureOutput (e : Fin 16) (slot : Fin 64) (s : State) : Host.Outcome State Fault Refusal :=
  .next (pictureOutput e slot s)

/-! Encoding (R337, R338). -/

/-- The QP of an inter frame under RC 1 (R337). -/
def nextQp (prev bits target lo hi : Nat) : Nat :=
  let q : Int := prev
  let d : Int :=
    if 2 * target < bits then 2
    else if 5 * target < 4 * bits then 1
    else if 2 * bits < target then -2
    else if 5 * bits < 4 * target then -1
    else 0
  min hi (max lo (q + d).toNat)

/-- An encoder codes one frame of the next ready stream. Its bitstream is a free value (log entry 14). -/
def encodeFrame (e : Nat) (s : State) : State :=
  match s.nextStream e with
  | none => s
  | some (slot, x) =>
    let s0 := s.modEngine e (fun y => { y with last := slot })
    let rd := s.inRd x
    let a := x.desc.inBase + 16 * (rd % x.desc.inEntries)
    let surf := s.readLe a 8
    let flags := s.readLe (a + 8) 8
    let f (o n : Nat) : Nat := s.readLe (x.desc.aux + o) n
    let w := f 2 2
    let h := f 4 2
    let rows := (List.range (h + h / 2)).map (fun y => (surf + y * f 8 4, w * (1 + f 6 1)))
    if 4 ≤ flags then s0.stopStream e slot x Codes.codecInput
    else
      let done := s.outDone x
      let o := x.desc.outBase + 64 * (done % x.desc.outEntries)
      let buf := s.readLe o 8
      let cap := s.readLe (o + 8) 4
      let key := x.sinceKey == 0 || bitOf flags 1 || (f 0xC 4 != 0 && x.sinceKey % f 0xC 4 == 0)
      let qp := if key then f 0x11 1 else
        match x.lastQp with
        | none => f 0x12 1
        | some q => if f 0x10 1 = 0 then f 0x12 1 else nextQp q x.lastBits (f 0x18 4) (f 0x13 1) (f 0x14 1)
      let (r, s1) := s0.draw
      let len := 1 + r.toNat % (2 ^ 32 - 1)
      let k := s1.freeCtr
      let n := min len cap
      let bytes := (List.range n).map (Config.freeByte k)
      let stats := x.desc.statsBase + x.frame % x.desc.outEntries * statBytes w h
      let sb := (List.range (statBytes w h)).map (Config.freeByte (k + 1))
      match s.checkAccesses (.job x.job) ([(a, 16), (o, 64), (buf, n)] ++ rows
          ++ (if x.desc.stats then [(stats, statBytes w h)] else [])) with
      | some err => s0.codecError e slot x err
      | none =>
        let s2 := (({ s1 with freeCtr := k + 2 }).writeMem buf bytes).writeLe (x.addr + 0x58) 8 ((rd + 1) % 2 ^ 64)
        let s3 := if x.desc.stats then s2.writeMem stats
            (natLe 2 0x2073 ++ natLe 6 0 ++ natLe 8 x.frame ++ natLe 4 (statBlocks w h) ++ natLe 4 (statTiles w h)
              ++ (sb.drop 0x18).take 4 ++ natLe 4 0 ++ List.replicate 32 (0 : Byte) ++ sb.drop 64) else s2
        if cap < len then
          (s3.modEngine e (fun y => { y with events := BitVec.ofNat 32 (satAdd (2 ^ 32 - 1) y.events.toNat 1) })).stopStream
            e slot x Codes.codecOutputOverflow
        else
          let s4 := (s3.writeMem (o + 0x10) (natLe 8 x.frame ++ natLe 4 len ++ natLe 1 (if key then 0 else 1) ++ natLe 1 qp)).writeLe
            (o + 0x28) 8 (if x.desc.stats then stats else 0)
          let s5 := (s4.addInt64 (x.addr + 0x68) 1).modEngine e (fun y =>
            { y with frames := BitVec.ofNat 32 (satAdd (2 ^ 32 - 1) y.frames.toNat 1) })
          s5.setStream e slot (some { x with
            frame := x.frame + 1, sinceKey := if bitOf flags 0 then 0 else x.sinceKey + 1,
            lastQp := if key then x.lastQp else some qp, lastBits := 8 * len })

def execEncodeFrame (e : Fin 8) (s : State) : Host.Outcome State Fault Refusal := .next (encodeFrame (e + 16) s)

end Sys2Proof.Machine
end

