-- ==== Sys2Proof/Machine/Links.lean ====
section
/-!
DEFINITION. Machine/Links.lean: ranks, training, flits and their retry, delivery of transactions, far sessions and their
handshakes (R342 to R359, R465).
-/

namespace Sys2Proof.Machine

/-! Access. -/

def State.link (s : State) (l : Nat) : LinkSt := s.links.links.get .init l

def State.setLink (s : State) (l : Nat) (x : LinkSt) : State :=
  { s with links := { s.links with links := s.links.links.set .init l x } }

def State.modLink (s : State) (l : Nat) (f : LinkSt → LinkSt) : State := s.setLink l (f (s.link l))

def State.sess (s : State) (p : Nat) : FarSess := s.links.sess.get .init p

def State.setSess (s : State) (p : Nat) (x : FarSess) : State :=
  { s with links := { s.links with sess := s.links.sess.set .init p x } }

def State.modSess (s : State) (p : Nat) (f : FarSess → FarSess) : State := s.setSess p (f (s.sess p))

/-! Ranks, peers and edge dies (R12, R342, R343). -/

/-- The module's rank. -/
def State.rank (s : State) : Nat := s.links.twin.toNat * 16384 + s.links.rrc * 4 + s.boot.slot.toNat

def farLinks : List Nat := [18, 19, 20, 21, 22, 23]

def isFar (l : Nat) : Bool := decide (18 ≤ l)

/-- Edge die of a link (Table 1 of 11). -/
def linkEdge (l : Nat) : Nat :=
  if l < 4 then 2 * (l % 2) else if l < 6 then 1 + 2 * (l % 2) else if l < 12 then 2 * (l % 2)
  else if l < 18 then 1 + 2 * (l % 2) else if l = 18 then 0 else if l < 21 then 1 else if l = 21 then 2 else 3

/-- The other link of a near pair. -/
def otherLink (l : Nat) : Nat := if l % 2 = 0 then l + 1 else l - 1

/-- Rank of the peer of a near link. -/
def peerOf (rank l : Nat) : Nat :=
  if l < 6 then rank ^^^ (l / 2 + 1) else if l < 12 then rank ^^^ (4 * ((l - 6) / 2 + 1))
  else rank ^^^ (16 * ((l - 12) / 2 + 1))

/-- Even link of the pair that is the next hop from one rank to another: row, then column, then tray; none to another rack
or to itself. -/
def pairOf (a b : Nat) : Option Nat :=
  if a / 64 ≠ b / 64 then none
  else
    let x := a / 4 % 4 ^^^ b / 4 % 4
    let y := a / 16 % 4 ^^^ b / 16 % 4
    let z := a % 4 ^^^ b % 4
    if x ≠ 0 then some (6 + 2 * (x - 1)) else if y ≠ 0 then some (12 + 2 * (y - 1))
    else if z ≠ 0 then some (2 * (z - 1)) else none

def LinkPhase.code : LinkPhase → Nat
  | .down => 0
  | .detect => 1
  | .equalize => 2
  | .align => 3
  | .negotiate => 4
  | .up => 5
  | .retrain => 6
  | .margin => 7
  | .disabled => 8

/-- Record of a link (Table 10 of 16). -/
def State.linkInfo (s : State) (l : Nat) : RecInfo :=
  { cls := 1, idx := linkEdge l, unit := l,
    data := natLe 2 (if isFar l then 0 else peerOf s.rank l) ++ natLe 1 (s.link l).phase.code }

/-- Record that names a far peer. -/
def peerInfo (p : Nat) : RecInfo := { data := natLe 2 p }

/-! Sending (R350, R352, R355). -/

/-- Flits of a transaction: its header and data at 240 B each, from the start of a flit (log entry 44). -/
def OutTx.flits (tx : OutTx) : Nat := ceilDiv (16 + tx.data.length) 240

/-- Flits sent and not acknowledged. -/
def LinkSt.outstanding (x : LinkSt) : Nat := (x.replay.map (·.count)).sum

/-- A transaction may go now: a credit for each flit, room in the replay buffer, and a version that carries it. -/
def LinkSt.maySend (x : LinkSt) (vc : Nat) (tx : OutTx) : Bool :=
  x.phase == .up && decide (tx.flits ≤ x.credits.getD vc 0) && decide (x.outstanding + tx.flits ≤ 2048)
    && (x.version != 1 || tx.type == 1)

/-- A transaction enters the link. -/
def LinkSt.push (x : LinkSt) (vc : Nat) (tx : OutTx) : LinkSt :=
  { x with txSeq := (x.txSeq + tx.flits) % 4096, credits := x.credits.set vc (x.credits.getD vc 0 - tx.flits),
           replay := x.replay ++ [⟨vc, (x.txSeq + 1) % 4096, tx.flits, tx⟩] }

/-- The waiting transactions in order: one that cannot go holds up its VC only. -/
structure PumpAcc where
  link : LinkSt
  sent : List (Nat × OutTx)
  kept : List (Nat × OutTx)
  deriving DecidableEq, Repr

def PumpAcc.step (a : PumpAcc) (q : Nat × OutTx) : PumpAcc :=
  if a.link.maySend q.1 q.2 && !a.kept.any (fun p => p.1 == q.1) then
    { a with link := a.link.push q.1 q.2, sent := a.sent ++ [((a.link.txSeq + 1) % 4096, q.2)] }
  else { a with kept := a.kept ++ [q] }

def State.pump (s : State) (l : Nat) : State :=
  let x := s.link l
  let a := x.txq.foldl PumpAcc.step ⟨x, [], []⟩
  a.sent.foldl (fun s q => s.send (.near l q.1 q.2)) (s.setLink l { a.link with txq := a.kept })

/-- Resends from the oldest unacknowledged flit, or from ACK + 1, in order (R350). -/
def State.replayLink (s : State) (l : Nat) : State :=
  let x := s.link l
  x.replay.foldl (fun s i => s.send (.near l i.first i.tx))
    (s.setLink l { x with replays := satAdd 65535 x.replays 1, futile := x.futile + 1 })

/-- Sends on a near pair: a channel's traffic on the link of its parity, all other on the two in turn, and on the remaining
link when one is DISABLED; with both DISABLED it is discarded (R352). -/
def State.sendNear (s : State) (base vc : Nat) (tx : OutTx) : State :=
  let odd := (s.link base).odd
  let pick := if tx.type = 1 then base + odd.toNat else base + tx.chan % 2
  let s1 := if tx.type = 1 then s.modLink base (fun x => { x with odd := !odd }) else s
  let on (l : Nat) : Bool := (s.link l).phase != .disabled
  let put (l : Nat) : State := (s1.modLink l (fun x => { x with txq := x.txq ++ [(vc, tx)] })).pump l
  if on pick then put pick else if on (otherLink pick) then put (otherLink pick) else s1

/-- The far link that carries sessions: the lowest in UP (log entry 45). -/
def State.farLink (s : State) : Option Nat := farLinks.find? (fun l => (s.link l).phase == .up)

/-- Sends the waiting transactions of a session, one a frame, while fewer than 4,096 are unacknowledged (R355). -/
def State.pumpFar (s : State) (p : Nat) : Nat → State
  | 0 => s
  | n + 1 =>
    let x := s.sess p
    let x := if x.txNew && x.unacked.isEmpty then { x with txNew := false, txSeq := 0, txFrames := 0 } else x
    match x.txq, s.farLink with
    | tx :: rest, some l =>
      if x.up && !x.txNew && decide (x.unacked.length < 4096) then
        ((s.setSess p { x with txq := rest, txSeq := x.txSeq + 1, txFrames := x.txFrames + 1,
                               unacked := x.unacked ++ [⟨x.txSeq, 0, tx⟩] }).send (.far l x.txSeq tx)).pumpFar p n
      else s
    | _, _ => s

def State.flushFar (s : State) (p : Nat) : State := s.pumpFar p (s.sess p).txq.length

/-- This module starts a handshake with a peer (R356). -/
def State.startHandshake (s : State) (p : Nat) (rekey : Bool) : State :=
  (s.modSess p (fun x => { x with hs := .helloSent, initiator := true, rekey := rekey })).send (.handshake p 1)

/-- Sends in the session with a peer; without one, a handshake starts. -/
def State.sendFar (s : State) (p : Nat) (tx : OutTx) : State :=
  let s1 := s.modSess p (fun x => { x with txq := x.txq ++ [tx] })
  if (s.sess p).up then s1.flushFar p
  else if (s.sess p).hs = .idle then s1.startHandshake p false else s1

/-- Sends a transaction on its next hop. -/
def State.sendTx (s : State) (vc : Nat) (tx : OutTx) : State :=
  match pairOf s.rank tx.dst with
  | some b => s.sendNear b vc tx
  | none => if tx.dst = s.rank then s else s.sendFar tx.dst tx

/-! Receiving transactions (R353, R465). -/

def txHeaderOf (bs : List Byte) : TxHeader :=
  let w := leNat (bs.take 16)
  { type := BitVec.ofNat 4 (bitsOf w 127 124), chan := BitVec.ofNat 4 (bitsOf w 123 120),
    src := BitVec.ofNat 15 (bitsOf w 119 105), dst := BitVec.ofNat 15 (bitsOf w 104 90),
    len := BitVec.ofNat 13 (bitsOf w 89 77), tag := BitVec.ofNat 13 (bitsOf w 76 64), addr := BitVec.ofNat 64 (bitsOf w 63 0) }

/-- The function of a tag in the filter: one with that tag and a partition. -/
def State.tagFunc (s : State) (tag : Nat) : Option Nat :=
  (List.range 64).find? (fun f =>
    let w := (s.sec.tags.get 0 f).toNat
    bitOf w 31 && bitsOf w 12 0 == tag && !(s.funcDies f).isEmpty)

def State.chan (s : State) (c : Nat) : ChanCol := s.col.chans.get .init c

/-- A transaction passes the filter of a port (R465). -/
def State.passFilter (s : State) (vc : Nat) (h : TxHeader) : Bool :=
  if h.tag = 0 then (h.type == 3 && vc == 0) || (h.type == 4 && vc == 3)
  else
    match s.tagFunc h.tag.toNat with
    | none => false
    | some f =>
      if h.type = 1 then (s.checkRange (.func f) h.addr.toNat h.len.toNat).isNone
      else
        let j := (s.chan h.chan.toNat).job
        if j = 0 then s.sched.jobs.any (fun q => match q.2 with | some x => x.func == f | none => false)
        else s.jobFunc j == f

/-- A transaction is discarded; LINK_FILTERED is logged once per 2^20 of them. -/
def State.filterOut (s : State) (l : Nat) : State :=
  let n := (s.link l).filtered + 1
  let s1 := s.modLink l (fun x => { x with filtered := n })
  if n % 2 ^ 20 = 0 then s1.report Codes.linkFiltered (s1.linkInfo l) else s1

/-- A port discards the transaction whoever it is for: a reserved type, or a type above 1 over a version-1 link. -/
def State.badType (s : State) (l : Nat) (h : TxHeader) : Bool :=
  h.type == 0 || decide (4 < h.type.toNat) || (!isFar l && (s.link l).version == 1 && h.type != 1)

/-- A whole transaction has arrived at a port: it is passed on, discarded, or delivered. A WRITE is stored; the others, and
Shuffle data on its way, take effect by their own commands (log entry 44). -/
def State.receiveTx (s : State) (l vc : Nat) (h : TxHeader) (data : List Byte) : State :=
  if s.badType l h then s.filterOut l
  else if h.dst.toNat ≠ s.rank then
    if h.type = 2 ∧ vc = 2 then s
    else
      s.sendTx vc
        { type := h.type.toNat, chan := h.chan.toNat, src := h.src.toNat, dst := h.dst.toNat, tag := h.tag.toNat,
          addr := h.addr.toNat, kind := 0, nums := [], data := data }
  else if !s.passFilter vc h then s.filterOut l
  else if h.type = 1 then
    match s.absentPages h.addr.toNat data.length with
    | p :: ps => s.waitOn 0 4 l (p :: ps)
    | [] => s.writeMem h.addr.toNat data
  else s

def execLinkWriteReceive (l : Link) (h : TxHeader) (data : List Byte) (s : State) : Host.Outcome State Fault Refusal :=
  .next (if !isFar l && (s.link l).phase == .up && data.length == h.len.toNat then s.receiveTx l 2 h data else s)

/-- Takes whole transactions off the front of the bytes that have arrived (log entry 44). -/
def State.takeTxs (s : State) (l vc : Nat) : Nat → List Byte → State × List Byte
  | 0, bs => (s, bs)
  | n + 1, bs =>
    if bs.length < 16 then (s, [])
    else if leNat (bs.take 16) = 0 then (s, [])
    else
      let h := txHeaderOf bs
      let k := 16 + h.len.toNat
      if bs.length < k then (s, bs)
      else (s.receiveTx l vc h ((bs.take k).drop 16)).takeTxs l vc n (bs.drop k)

/-! Training (R346 to R348, R351). -/

/-- An edge die is out of service for its links: in reset, without its reference clock, or failed (R478, R480, R501). -/
def State.edgeOut (s : State) (q : Nat) : Bool :=
  s.boot.resetting.contains (1 + q) || s.boot.noClock.contains q || bitOf s.boot.bistFail (1 + q)

/-- A link may leave DOWN (R343, Table 8 of 11). -/
def State.mayTrain (s : State) (l : Nat) : Bool :=
  let x := s.link l
  x.enable && s.links.rankValid && decide (x.media ≠ 3) && (!isFar l || decide (x.encap ≠ 3)) && !s.edgeOut (linkEdge l)

/-- A link in DOWN starts to train; one enabled without a valid rank stays DOWN (R343). -/
def State.startTraining (s : State) (l : Nat) : State :=
  let x := s.link l
  if x.phase ≠ .down ∨ x.enable = false then s
  else if s.links.rankValid = false then
    (s.setLink l { x with error := 3 }).report Codes.linkRankUnset (s.linkInfo l)
  else if s.mayTrain l then s.setLink l { x with phase := .detect, retryDue := false }
  else s

/-- Retry state and buffers as a link has them when it comes up from DOWN. -/
def LinkSt.fresh (x : LinkSt) : LinkSt :=
  { x with retrainLeft := 0, recent := 0, txSeq := 0, acked := 0, rxSeq := 0, naked := false, futile := 0, replay := [],
           credits := vcBuffers, owed := [0, 0, 0, 0], asm := [] }

/-- A link goes to DOWN with its die or the module. -/
def State.linkDown (s : State) (l : Nat) : State :=
  s.modLink l (fun x => { x.fresh with phase := .down, txq := [], retryDue := false, peer := 0, version := 0 })

/-- The far sessions move to another far link: their unacknowledged frames are resent there first (R355). -/
def State.moveSessions (s : State) : State :=
  match s.farLink with
  | none => s
  | some l =>
    (s.links.sess.map (·.1)).foldl (fun s p =>
      (s.sess p).unacked.foldl (fun s i => s.send (.far l i.seq i.tx)) s) s

/-- A near link is DISABLED: its pair goes on with one link, or the peer is lost (R352). -/
def State.failOver (s : State) (l : Nat) : State :=
  let x := s.link l
  let o := otherLink l
  let y := s.link o
  let moved := x.replay.map (fun i => (i.vc, i.tx))
  let s1 := s.modLink l (fun x => { x with replay := [], txq := [] })
  if y.phase = .disabled then
    (s1.modLink o (fun y => { y with replay := [], txq := [] })).report Codes.linkPeerLost (s1.linkInfo l)
  else
    ((s1.modLink o (fun y => { y with txq := moved ++ y.txq ++ x.txq })).report Codes.linkFailover (s1.linkInfo l)).pump o

/-- A link goes to DISABLED. -/
def State.disableLink (s : State) (l : Nat) : State :=
  if (s.link l).phase = .disabled then s
  else
    let s1 := s.modLink l (fun x => { x with phase := .disabled, retryDue := false, asm := [] })
    if isFar l then s1.moveSessions else s1.failOver l

/-- A link code that disables the link (Table 6 of 11). -/
def State.linkFails (s : State) (l : Nat) (code : Code) : State :=
  let s1 := (s.modLink l (fun x => { x with error := code.toNat % 16 })).report code (s.linkInfo l)
  s1.disableLink l

/-- LNK.RANK is written: refused while any link is out of DOWN (R343). -/
def lnkRankWrite (v : W32) (s : State) : State :=
  if (List.range 24).any (fun l => (s.link l).phase != .down) then s.report Codes.badRegAccess {}
  else
    let w := v.toNat
    let s1 := { s with links := { s.links with rankValid := bitOf w 31, twin := bitOf w 14, rrc := bitsOf w 13 2 } }
    (List.range 24).foldl State.startTraining s1

def execLnkRankWrite (v : W32) (s : State) : Host.Outcome State Fault Refusal := .next (lnkRankWrite v s)

/-- LNK.CTRL.ENABLE is written (R346, R351). -/
def linkEnable (l : Nat) (en : Bool) (s : State) : State :=
  if en then
    let s1 := s.modLink l (fun x => { x with enable := true })
    if (s.link l).phase = .disabled then
      if bitOf s.boot.bistFail (1 + linkEdge l) then s1
      else (s1.modLink l (fun x => { x.fresh with phase := .down, txq := [] })).startTraining l
    else s1.startTraining l
  else (s.modLink l (fun x => { x with enable := false })).disableLink l

def execLinkEnable (l : Link) (en : Bool) (s : State) : Host.Outcome State Fault Refusal := .next (linkEnable l en s)

/-- A link comes UP: traffic goes. -/
def State.linkUp (s : State) (l : Nat) : State :=
  let s1 := s.modLink l (fun x => { x with phase := .up, retrainLeft := 0 })
  if isFar l then (s1.links.sess.map (·.1)).foldl State.flushFar s1 else s1.pump l

/-- Some session is established. -/
def State.anySession (s : State) : Bool := s.links.sess.any (fun q => q.2.up)

/-- A training state completes; NEGOTIATE of a near link ends with the peer's control flit, and that of a far link with the
first session. -/
def trainingStepComplete (l : Nat) (s : State) : State :=
  let x := s.link l
  let negotiate (s : State) : State :=
    if isFar l then
      if s.anySession then s.linkUp l else s.modLink l (fun x => { x with phase := .negotiate })
    else s.send (.control l 6 s.rank)
  match x.phase with
  | .detect => s.setLink l { x with phase := .equalize }
  | .equalize => s.setLink l { x with phase := .align }
  | .align => negotiate (s.setLink l { x.fresh with phase := .negotiate })
  | .retrain =>
    if x.retrainLeft = 3 then s.setLink l { x with retrainLeft := 2 }
    else if x.retrainLeft = 2 then
      if isFar l then s.linkUp l else (s.setLink l { x with retrainLeft := 1 }).send (.control l 6 s.rank)
    else s
  | _ => s

def execTrainingStepComplete (l : Link) (s : State) : Host.Outcome State Fault Refusal := .next (trainingStepComplete l s)

/-- A training state passes its bound (R347, R351). -/
def trainingStepTimeout (l : Nat) (s : State) : State :=
  let x := s.link l
  let down : State := s.setLink l { x with phase := .down, trainFail := satAdd 255 x.trainFail 1, retryDue := true }
  match x.phase with
  | .detect => down
  | .equalize => down
  | .align => down
  | .negotiate => if isFar l then s else down
  | .retrain => s.linkFails l Codes.linkFailed
  | _ => s

def execTrainingStepTimeout (l : Link) (s : State) : Host.Outcome State Fault Refusal := .next (trainingStepTimeout l s)

def execTrainingRetry (l : Link) (s : State) : Host.Outcome State Fault Refusal :=
  .next (if (s.link l).retryDue then s.startTraining l else s)

/-- The peer's control flit in NEGOTIATE (R348). -/
def negotiateFlit (l versions rank peerLink : Nat) (s : State) : State :=
  let x := s.link l
  if isFar l || !(x.phase == .negotiate || (x.phase == .retrain && x.retrainLeft == 1)) then s
  else if !bitOf versions 1 && !bitOf versions 2 then s.linkFails l Codes.linkVersion
  else if rank ≠ peerOf s.rank l ∨ peerLink ≠ l then s.linkFails l Codes.linkMiswired
  else (s.setLink l { x with version := if bitOf versions 2 then 2 else 1, peer := rank }).linkUp l

def execNegotiateFlit (l : Link) (versions : BitVec 4) (rank : BitVec 15) (peerLink : BitVec 5) (s : State) :
    Host.Outcome State Fault Refusal := .next (negotiateFlit l versions.toNat rank.toNat peerLink.toNat s)

/-- RETRAIN starts: the stored coefficients and the replay buffer are kept (R351). -/
def State.retrainLink (s : State) (l : Nat) : State :=
  let x := s.link l
  (s.setLink l { x with phase := .retrain, retrainLeft := 3, retrains := satAdd 255 x.retrains 1, recent := x.recent + 1,
                        futile := 0 }).report Codes.linkRetrain (s.linkInfo l)

/-- Eight futile replays: RETRAIN, or LINK_FAILED at a fourth within 2^32 cycles; whether the fourth is within them is time,
a free value (log entry 3). -/
def retrain (l : Nat) (s : State) : State :=
  let x := s.link l
  if x.phase ≠ .up ∨ x.futile < 8 then s
  else if x.recent < 3 then s.retrainLink l
  else
    let (w, s) := s.draw
    if w.getLsbD 0 then s.linkFails l Codes.linkFailed else s.retrainLink l

def execRetrain (l : Link) (s : State) : Host.Outcome State Fault Refusal := .next (retrain l s)

/-! Flits (R349, R350). -/

/-- A flit of Table 4 of 11. -/
structure Flit where
  seq  : Nat
  ack  : Nat
  nak  : Bool
  kind : Nat
  vc   : Nat
  cvc  : Nat
  cred : Nat
  rsvd : Nat
  deriving DecidableEq, Repr

def flitOf (bs : List Byte) : Flit :=
  let w := leNat (bs.take 8)
  { seq := bitsOf w 63 52, ack := bitsOf w 51 40, nak := bitOf w 39, kind := bitsOf w 38 37, vc := bitsOf w 36 35,
    cvc := bitsOf w 34 33, cred := bitsOf w 32 22, rsvd := bitsOf w 21 0 }

/-- A bad flit. -/
def flitBad (fecBad : Bool) (bs : List Byte) : Bool :=
  fecBad || bs.length != 256 || leNat ((bs.drop 248).take 8) != (crc64 (bs.take 248)).toNat
    || (flitOf bs).kind == 3 || (flitOf bs).rsvd != 0

/-- NAK is sent once until the replay arrives. -/
def State.sendNak (s : State) (l : Nat) : State :=
  let x := s.link l
  if x.naked then s else (s.setLink l { x with naked := true }).send (.nak l x.rxSeq)

/-- Drops acknowledged transactions: `n` flits from the oldest. -/
def dropAcked : Nat → List TxItem → List TxItem
  | _, [] => []
  | n, i :: is => if i.count ≤ n then dropAcked (n - i.count) is else { i with first := (i.first + n) % 4096, count := i.count - n } :: is

/-- ACK advances. -/
def LinkSt.ackTo (x : LinkSt) (ack : Nat) : LinkSt :=
  let n := (ack + 4096 - x.acked) % 4096
  if n = 0 ∨ x.outstanding < n then x else { x with acked := ack, futile := 0, replay := dropAcked n x.replay }

/-- Credits come back. -/
def LinkSt.credit (x : LinkSt) (vc n : Nat) : LinkSt :=
  { x with credits := x.credits.set vc (min (vcBuffers.getD vc 0) (x.credits.getD vc 0 + n)) }

/-- The payload of an accepted data flit. -/
def State.takePayload (s : State) (l vc : Nat) (payload : List Byte) : State :=
  let x := s.link l
  let s1 := s.setLink l { x with owed := x.owed.set vc (x.owed.getD vc 0 + 1) }
  let r := s1.takeTxs l vc 16 (x.asm.get [] vc ++ payload)
  r.1.modLink l (fun x => { x with asm := x.asm.set [] vc r.2 })

def nearFlit (l : Nat) (fecBad : Bool) (bs : List Byte) (s : State) : State :=
  if isFar l || (s.link l).phase != .up then s
  else if flitBad fecBad bs then s.sendNak l
  else
    let f := flitOf bs
    let s1 := (s.modLink l (fun x => (x.ackTo f.ack).credit f.cvc f.cred)).pump l
    let s2 := if f.nak then s1.replayLink l else s1
    let x := s2.link l
    if f.kind = 0 then if f.seq = x.rxSeq then s2 else s2.sendNak l
    else if f.seq ≠ (x.rxSeq + 1) % 4096 then s2.sendNak l
    else
      let s3 := s2.setLink l { x with rxSeq := f.seq, naked := false }
      if f.kind = 1 then s3.takePayload l f.vc ((bs.drop 8).take 240) else s3

def execNearFlitReceive (l : Link) (fecBad : Bool) (flit : List Byte) (s : State) : Host.Outcome State Fault Refusal :=
  .next (nearFlit l fecBad flit s)

/-- ACK has not advanced while flits are outstanding. -/
def execReplayTimeout (l : Link) (s : State) : Host.Outcome State Fault Refusal :=
  .next (if (s.link l).phase == .up && !(s.link l).replay.isEmpty then s.replayLink l else s)

/-! Far sessions (R354 to R357). -/

/-- A far frame is discarded; LINK_PLAINTEXT is logged once per 2^20 of them. -/
def State.authFails (s : State) (l : Nat) : State :=
  let n := (s.link l).authFail + 1
  let s1 := s.modLink l (fun x => { x with authFail := n })
  if n % 2 ^ 20 = 0 then s1.report Codes.linkPlaintext (s1.linkInfo l) else s1

/-- VC of a transaction in a session: the one its type travels on (Table 5 of 11). -/
def vcOf (type : Nat) : Nat :=
  match type with
  | 1 => 2
  | 2 => 1
  | 4 => 3
  | _ => 0

/-- The whole transactions of a decrypted frame. -/
def State.takeFrame_ (s : State) (l : Nat) : Nat → List Byte → State
  | 0, _ => s
  | n + 1, bs =>
    if bs.length < 16 then s
    else
      let h := txHeaderOf bs
      let k := 16 + h.len.toNat
      if bs.length < k then s
      else (s.receiveTx l (vcOf h.type.toNat) h ((bs.take k).drop 16)).takeFrame_ l n (bs.drop k)

/-- Delivers the frames whose turn has come. -/
def State.drainFar (s : State) (l p : Nat) : Nat → State
  | 0 => s
  | n + 1 =>
    let x := s.sess p
    match x.held.find? (fun q => q.1 == x.rxNext) with
    | some q =>
      ((s.setSess p { x with rxNext := x.rxNext + 1, held := x.held.filter (fun q => q.1 != x.rxNext) }).takeFrame_ l
        576 q.2).drainFar l p n
    | none => s

/-- The session takes the first frame under new keys: those under the old ones end (R357). -/
def FarSess.switchRx (x : FarSess) : FarSess := { x with newKeys := false, rxNext := 0, rxFrames := 0, held := [] }

/-- A far frame arrives (R355). -/
def farFrame (l : Nat) (f : FarFrame) (s : State) : State :=
  let p := f.src.toNat
  let x := s.sess p
  if !isFar l || (s.link l).phase != .up then s
  else if !f.authentic || !x.up || f.session != x.id || f.dst.toNat != s.rank || (f.newKeys && !x.newKeys) then s.authFails l
  else
    let x1 := if f.newKeys then x.switchRx else x
    let x2 := { x1 with unacked := x1.unacked.filter (fun i => decide (f.ack < i.seq)), rxFrames := x1.rxFrames + 1 }
    let dup := decide (f.seq < x2.rxNext) || decide (x2.rxNext + 4096 ≤ f.seq) || x2.held.any (fun q => q.1 == f.seq)
    let s1 := s.setSess p (if dup then x2 else { x2 with held := x2.held ++ [(f.seq, f.payload)] })
    (s1.drainFar l p (x2.held.length + 1)).flushFar p

def execFarFrameReceive (l : Link) (f : FarFrame) (s : State) : Host.Outcome State Fault Refusal := .next (farFrame l f s)

/-- A frame unacknowledged for RTO is resent; after 16 resends the session is lost and a new handshake starts (R355). -/
def farResend (p seq : Nat) (s : State) : State :=
  let x := s.sess p
  match x.unacked.find? (fun i => i.seq == seq) with
  | none => s
  | some i =>
    if 16 ≤ i.resends then
      ((s.setSess p { x with up := false, unacked := [], held := [], newKeys := false, txNew := false }).report
        Codes.linkSessionLost (peerInfo p)).startHandshake p false
    else
      match s.farLink with
      | none => s
      | some l =>
        (s.setSess p { x with unacked := x.unacked.map (fun (j : FarItem) =>
          if j.seq = seq then { j with resends := j.resends + 1 } else j) }).send (.far l seq i.tx)

def execFarResendTimeout (peer : BitVec 15) (seq : Nat) (s : State) : Host.Outcome State Fault Refusal :=
  .next (farResend peer.toNat seq s)

/-- A handshake establishes nothing (R357). -/
def State.handshakeFails (s : State) (p : Nat) : State :=
  (s.modSess p (fun x => { x with hs := .failed })).report Codes.linkAuth (peerInfo p)

/-- Highest common version of a peer's bitmap with versions 1 and 2; 0 for none. -/
def commonVersion (versions : Nat) : Nat := if bitOf versions 2 then 2 else if bitOf versions 1 then 1 else 0

/-- HELLO of a peer: the module of lower rank stays initiator (R356, R357). -/
def hello (p versions : Nat) (s : State) : State :=
  let x := s.sess p
  if x.hs = .helloSent ∧ s.rank < p then s
  else if commonVersion versions = 0 then s.handshakeFails p
  else
    ((s.setSess p { x with hs := .finishing, initiator := false, rekey := x.up, version := commonVersion versions }).send
      (.handshake p 2)).send (.handshake p 3)

def execHello (peer : BitVec 15) (versions : BitVec 4) (s : State) : Host.Outcome State Fault Refusal :=
  .next (hello peer.toNat versions.toNat s)

def reply (p version : Nat) (s : State) : State :=
  let x := s.sess p
  if x.hs ≠ .helloSent then s
  else if version ≠ 1 ∧ version ≠ 2 then s.handshakeFails p
  else (s.setSess p { x with hs := .finishing, version := version }).send (.handshake p 3)

def execReply (peer : BitVec 15) (version : Nat) (s : State) : Host.Outcome State Fault Refusal :=
  .next (reply peer.toNat version s)

/-- FINISH of a peer, with the checks of R356; a chain of this module's own that fails lets none pass (R453). A first session
brings the far links in NEGOTIATE UP. The session identifier is agreed by the two: a free value. -/
def finish (p : Nat) (m : FinishMsg) (s : State) : State :=
  let x := s.sess p
  if x.hs ≠ .finishing then s
  else if !(m.edSig && m.mlSig && m.chainRoot && m.inList && s.sec.chainOk.all id) then s.handshakeFails p
  else if x.rekey && x.up then s.setSess p { x with hs := .idle, rekey := false, newKeys := true, txNew := true }
  else
    let (w, s) := s.draw
    let s1 := s.setSess p
      { FarSess.init with up := true, id := w.truncate 32, initiator := x.initiator, version := x.version, txq := x.txq }
    let s2 := (farLinks.filter (fun l => (s.link l).phase == .negotiate)).foldl State.linkUp s1
    s2.flushFar p

def execFinish (peer : BitVec 15) (m : FinishMsg) (s : State) : Host.Outcome State Fault Refusal :=
  .next (finish peer.toNat m s)

def execHandshakeTimeout (peer : BitVec 15) (s : State) : Host.Outcome State Fault Refusal :=
  .next (match (s.sess peer.toNat).hs with
    | .helloSent => s.handshakeFails peer.toNat
    | .finishing => s.handshakeFails peer.toNat
    | _ => s)

def execHandshakeRetry (peer : BitVec 15) (s : State) : Host.Outcome State Fault Refusal :=
  .next (if (s.sess peer.toNat).hs = .failed then s.startHandshake peer.toNat (s.sess peer.toNat).up else s)

/-- A session renews its keys after its frames or its time (R357): that the time has come is the command's (log entry 3). -/
def execRekey (peer : BitVec 15) (s : State) : Host.Outcome State Fault Refusal :=
  .next (if (s.sess peer.toNat).up ∧ (s.sess peer.toNat).hs = .idle then s.startHandshake peer.toNat true else s)

/-! Margining (R358). -/

def LinkSt.laneMargin (x : LinkSt) (m : Margins) : LaneMargin :=
  { valid := true,
    pass := decide (x.limitPhase ≤ m.left) && decide (x.limitPhase ≤ m.right) && decide (x.limitVolt ≤ m.low)
      && decide (x.limitVolt ≤ m.high),
    high := min 15 m.high, low := min 15 m.low, right := min 31 m.right, left := min 32 m.left }

/-- A sweep ends: `LNK.MARGIN` of the eight lanes, a record for each lane that fails, and the link is UP again. -/
def State.marginLink (s : State) (l : Nat) (rs : List Margins) : State :=
  let x := s.link l
  let lanes := (rs.take 8).zipIdx.map (fun q => (q.2, x.laneMargin q.1))
  let s1 := s.setLink l { x with margins := lanes.foldl (fun m q => m.set .init q.1 q.2) x.margins }
  let s2 := (lanes.filter (fun q => !q.2.pass)).foldl (fun s _ => s.report Codes.linkMarginFail (s.linkInfo l)) s1
  s2.linkUp l

/-- Every lane of a link that has been swept met the limits. -/
def State.marginPasses (s : State) (l : Nat) : Bool := (s.link l).margins.all (fun q => !q.2.valid || q.2.pass)

end Sys2Proof.Machine
end

