-- ==== Sys2Proof/Machine/Collectives.lean ====
section
/-!
DEFINITION. Machine/Collectives.lean: posting a collective, its stage protocol, the Pots' sums, the Shuffle, aborts and the
twin digests (R361 to R391).
-/

namespace Sys2Proof.Machine

/-! Members, tricks and segments (R365 to R367). A unit is named by its member of lowest rank. -/

def trickNo : Trick → Nat
  | .package => 0
  | .tray => 1
  | .row => 2
  | .column => 3
  | .racks => 4

/-- Ranks of one unit agree above this divisor, and those of one unit set above the next. -/
def unitDiv (k : Nat) : Nat := if k ≤ 1 then 1 else 4 ^ (k - 1)
def setDiv (k : Nat) : Nat := if 4 ≤ k then 16384 else 4 ^ k

def lowestIn (ms : List Nat) (d r : Nat) : Nat := (ms.find? (fun x => x / d == r / d)).getD r

/-- Unit of a module at a trick, the decider of its unit set, and the units of that set (Table 3 of 12). -/
def unitOf (ms : List Nat) (k r : Nat) : Nat := lowestIn ms (unitDiv k) r
def deciderOf (ms : List Nat) (k r : Nat) : Nat := lowestIn ms (setDiv k) r
def unitMods (ms : List Nat) (k r : Nat) : List Nat := ms.filter (fun x => x / unitDiv k == r / unitDiv k)
def unitsOf (ms : List Nat) (k r : Nat) : List Nat :=
  ((ms.filter (fun x => x / setDiv k == r / setDiv k)).map (unitOf ms k)).dedup

/-- A module's group at a trick. -/
def groupOf (ms : List Nat) (k r : Nat) : List Nat :=
  ms.filter (fun x => x / setDiv k == r / setDiv k && x % unitDiv k == r % unitDiv k)

/-- The tricks after the package trick that are not skipped. -/
def tricksOf (ms : List Nat) (r : Nat) : List Nat := [1, 2, 3, 4].filter (fun k => decide (1 < (groupOf ms k r).length))

/-- Segment `j` of a range divided among `n` (R367). -/
def segOf (n : Nat) (q : Nat × Nat) (j : Nat) : Nat × Nat :=
  let s := roundUp (ceilDiv (q.2 - q.1) n) 1024
  (q.1 + min (q.2 - q.1) (j * s), q.1 + min (q.2 - q.1) ((j + 1) * s))

/-- Range of a module at a trick: its segment at the trick before. -/
def trickRange (ms : List Nat) (r total k : Nat) : Nat × Nat :=
  ((tricksOf ms r).filter (fun t => decide (t < k))).foldl (fun q t =>
    segOf (groupOf ms t r).length q ((groupOf ms t r).idxOf r)) (0, total)

/-- Segment at a trick whose root is a member of the module's group. -/
def segAt (ms : List Nat) (r total k q : Nat) : Nat × Nat :=
  segOf (groupOf ms k r).length (trickRange ms r total k) ((groupOf ms k r).idxOf q)

/-- The set is the full product of its racks, rows, columns and slots. -/
def rectangular (ms : List Nat) : Bool :=
  (ms.map (· / 64)).dedup.length * (ms.map (· / 16 % 4)).dedup.length * (ms.map (· / 4 % 4)).dedup.length
    * (ms.map (· % 4)).dedup.length == ms.length

/-- Elements of the result. -/
def ColRun.total (x : ColRun) : Nat :=
  match x.desc.op with
  | 6 => 1
  | 3 => x.desc.count * x.members.length
  | 4 => x.desc.count * x.members.length
  | _ => x.desc.count

/-- Elements that an ALL_GATHER sends from a module at a trick: the blocks of its unit. -/
def gatherBlock (x : ColRun) (k q : Nat) : Nat × Nat :=
  let b := x.members.idxOf (unitOf x.members k q) * x.desc.count
  (b, b + (unitMods x.members k q).length * x.desc.count)

/-- Bytes of an element on the way up, and of a result. -/
def colBytes (fmt : Nat) : Nat := if fmt = 1 then 2 else 4
def ColRun.upBytes (x : ColRun) : Nat := if x.desc.op = 1 ∨ x.desc.op = 6 then 4 else colBytes x.desc.inFmt
def ColRun.outBytes (x : ColRun) : Nat := if x.desc.op = 6 then 4 else colBytes x.desc.outFmt

def ColDesc.tolerant (d : ColDesc) : Bool := bitOf d.flags 0
def ColDesc.avg (d : ColDesc) : Bool := bitOf d.flags 1
def ColDesc.noDigest (d : ColDesc) : Bool := bitOf d.flags 2

/-! State. -/

def State.setChan (s : State) (c : Nat) (x : ChanCol) : State := { s with col := { s.col with chans := s.col.chans.set .init c x } }
def State.modChan (s : State) (c : Nat) (f : ChanCol → ChanCol) : State := s.setChan c (f (s.chan c))
def State.setRun (s : State) (c : Nat) (x : ColRun) : State := s.modChan c (fun y => { y with run := some x })

/-- Rank bits [13:0] of the module. -/
def State.me (s : State) : Nat := s.rank % 16384

/-- Tag of a function's traffic (R465). -/
def State.funcTag (s : State) (f : Nat) : Nat :=
  let w := (s.sec.tags.get 0 f).toNat
  if bitOf w 31 then bitsOf w 12 0 else 0

/-- The tiles of a job stand idle while a contribution of its is ready and not complete (R363). -/
def State.setHeldBack (s : State) (j : Nat) : State :=
  let on := s.col.chans.any (fun q => match q.2.run with
    | some x => x.job == j && x.phase != .posted
    | none => false)
  s.modJob j (fun x => { x with heldBack := on })

/-- Bytes of a region become undefined. -/
def State.freeFill (s : State) (a n : Nat) : State :=
  if n = 0 then s
  else ({ s with freeCtr := s.freeCtr + 1 }).writeMem a ((List.range n).map (Config.freeByte s.freeCtr))

/-! Messages (R353, R375). -/

/-- VC and transaction type of a message. -/
def ColMsg.lane : ColMsg → Nat × Nat
  | .pot .. => (1, 2)
  | .shuffle .. => (2, 2)
  | .digest .. => (3, 4)
  | _ => (0, 3)

def ColMsg.kind : ColMsg → Nat
  | .post .. => 1
  | .rootReady .. => 2
  | .ready .. => 3
  | .go .. => 4
  | .twinSet .. => 5
  | .complete => 6
  | .abort .. => 7
  | .finalAbort .. => 8
  | .pot .. => 9
  | .shuffle .. => 10
  | .digest .. => 11

def ColMsg.nums : ColMsg → List Nat
  | .post m _ => [m]
  | .rootReady k m => [k, m]
  | .ready k u n rs => k :: u :: n :: rs
  | .go k us n rs => k :: n :: us.length :: us ++ rs
  | .twinSet k us => k :: us
  | .complete => []
  | .abort c => [c.toNat]
  | .finalAbort c => [c.toNat]
  | .pot k down m o _ => [k, down.toNat, m, o]
  | .shuffle a b o n _ => [a, b, o, n]
  | .digest n _ => [n]

def ColMsg.data : ColMsg → List Byte
  | .post _ h => h
  | .pot _ _ _ _ d => d
  | .shuffle _ _ _ _ d => d
  | .digest _ d => d
  | _ => []

/-- A message for a member of the job's system, or for its twin. -/
def State.colTx (s : State) (c job seq dst : Nat) (twin : Bool) (m : ColMsg) : OutTx :=
  let sys := if twin then !s.links.twin else s.links.twin
  { type := m.lane.2, chan := c, src := s.rank, dst := dst + sys.toNat * 16384, tag := s.funcTag (s.jobFunc job), addr := seq,
    kind := m.kind, nums := m.nums, data := m.data }

/-- A message arrives: that of a collective that has ended is dropped. -/
def State.toInbox (s : State) (c seq : Nat) (m : ColMsg) : State :=
  let x := s.chan c
  let running := match x.run with
    | some r => r.desc.seq == seq
    | none => false
  if running || decide (x.posted < seq) then s.modChan c (fun x => { x with inbox := x.inbox ++ [(seq, m)] }) else s

/-- Sends a message to a member; one to itself arrives at once. -/
def State.colSend (s : State) (c : Nat) (x : ColRun) (dst : Nat) (m : ColMsg) : State :=
  if dst = s.me then s.toInbox c x.desc.seq m else s.sendTx m.lane.1 (s.colTx c x.job x.desc.seq dst false m)

def State.colSendAll (s : State) (c : Nat) (x : ColRun) (dsts : List Nat) (m : ColMsg) : State :=
  dsts.foldl (fun s d => s.colSend c x d m) s

/-- The next hop of data to a member. -/
def State.hopOf (s : State) (dst : Nat) : Nat :=
  match pairOf s.me dst with
  | some l => peerOf s.me l
  | none => dst

/-- Members of a module's groups, itself apart. -/
def groupPeers (ms : List Nat) (r : Nat) : List Nat :=
  ((tricksOf ms r).flatMap (fun k => (groupOf ms k r).filter (fun q => q != r))).dedup

/-- Early allowance of a peer's port (R372). -/
def State.allowance (s : State) (p : Nat) : Nat :=
  if (pairOf s.me p).isSome then 262144 else 4096 * (Config.farAllowance p % 65)

/-- Sends data: until COMPLETE of the collective before reaches this module from the peer, no more than its allowance; the
rest is held back (R372). -/
def State.colData (s : State) (c dst : Nat) (m : ColMsg) : State :=
  match (s.chan c).run with
  | none => s
  | some x =>
    let hop := s.hopOf dst
    let tx := s.colTx c x.job x.desc.seq dst false m
    let y := s.chan c
    if (groupPeers x.members s.me).contains hop && decide (y.peers.get 0 hop + 1 < x.desc.seq) then
      if y.hold.any (fun q => s.hopOf (q.2.dst % 16384) == hop) || decide (s.allowance hop < x.out.get 0 hop + tx.data.length) then
        s.setChan c { y with hold := y.hold ++ [(x.desc.seq, tx)] }
      else
        (s.setRun c { x with out := x.out.set 0 hop (x.out.get 0 hop + tx.data.length) }).sendTx m.lane.1 tx
    else s.sendTx m.lane.1 tx

/-- Data in transactions of 4,096 B: the element each starts at, and its bytes. -/
def chunksOf (esz base : Nat) (bs : List Byte) : List (Nat × List Byte) :=
  (List.range (ceilDiv bs.length 4096)).map (fun i => (base + i * (4096 / esz), (bs.drop (4096 * i)).take 4096))

/-! Posting (R362, R364, R365). -/

def colDescOf (bs : List Byte) : ColDesc :=
  let f := fieldLe bs
  { header := bs.take 64, hdr := f 0 2, op := f 2 1, flags := f 3 1, chan := f 4 1, inFmt := f 5 1, outFmt := f 6 1,
    quorum := f 7 1, seq := f 8 8, count := f 0x10 8, div := f 0x18 4, root := f 0x1C 2, parts := f 0x1E 1,
    deadline := [f 0x20 4, f 0x24 4, f 0x28 4, f 0x2C 4], rsvd := f 0x1F 1 + f 0x38 8 + f 0x78 8, src := f 0x40 8,
    stride := f 0x48 8, dst := f 0x50 8, scratch := f 0x58 8, incl := f 0x60 8, aux := f 0x68 8, mset := f 0x70 8 }

/-- Formats of Table 2 of 12. -/
def ColDesc.formatsOk (d : ColDesc) : Bool :=
  let any3 (f : Nat) : Bool := f == 0 || f == 1 || f == 5
  match d.op with
  | 1 => (decide (d.inFmt ≤ 1) && decide (d.outFmt ≤ 1)) || (d.inFmt == 5 && d.outFmt == 5)
  | 5 => d.inFmt == 0 && d.outFmt == 0
  | 6 => d.inFmt == 0 && d.outFmt == 0
  | _ => any3 d.inFmt && d.outFmt == d.inFmt

/-- Regions of the unified range that an operation of `n` members touches on this module. -/
def ColDesc.regions (d : ColDesc) (n : Nat) : List (Nat × Nat) :=
  let e := colBytes d.inFmt
  let data :=
    match d.op with
    | 1 => (List.range d.parts).map (fun i => (d.src + i * d.stride, d.count * e))
        ++ [(d.dst, d.count * colBytes d.outFmt), (d.scratch, 8 * d.count)]
    | 2 => [(d.src, d.count * e), (d.dst, d.count * e)]
    | 3 => [(d.src, d.count * e), (d.dst, n * d.count * e)]
    | 4 => (List.range n).map (fun i => (d.src + i * d.stride, d.count * e)) ++ [(d.dst, n * d.count * e), (d.aux, 16 * n)]
    | _ => []
  data ++ (if d.incl = 0 then [] else [(d.incl, 2080)]) ++ [(d.mset, 2048)]

/-- Every page of a region lies in a PIN_STACK object within the job's windows. -/
def State.pinnedFor (s : State) (w : Who) (q : Nat × Nat) : Bool :=
  (s.checkRange w q.1 q.2).isNone && (pagesOf q.1 q.2).all (fun p =>
    match s.page p with
    | some x => (match s.object x.object with
      | some o => o.attr == 0
      | none => false)
    | none => false)

/-- Members of the bitmap, ascending. -/
def State.colMembers (s : State) (d : ColDesc) : List Nat :=
  let bs := s.readMem d.mset 2048
  (bs.zipIdx).flatMap (fun q => (maskBits q.1.toNat 8).map (fun i => 8 * q.2 + i))

/-- The post check, the links apart (R365). -/
def State.colDescBad (s : State) (x : ChanCol) (j : Nat) (jb : JobSt) (d : ColDesc) (ms : List Nat) : Bool :=
  !hdrOk d.hdr 0x80 || d.rsvd != 0 || decide (8 ≤ d.flags) || decide (16 ≤ d.chan) || !decide (1 ≤ d.op ∧ d.op ≤ 6)
    || !d.formatsOk || (d.avg && d.inFmt == 5)
    || (d.tolerant && (d.op != 1 || d.quorum == 0 || d.deadline.any (· == 0) || d.incl == 0))
    || d.seq != x.posted + 1
    || (if 5 ≤ d.op then d.count != 0 else !decide (1 ≤ d.count ∧ d.count ≤ 2 ^ 28))
    || (if d.avg then !decide (1 ≤ d.div ∧ d.div ≤ 65536) else d.div != 1)
    || !decide (1 ≤ d.parts ∧ d.parts ≤ 8) || decide (jb.places.length < d.parts)
    || [d.src, d.dst, d.scratch, d.incl, d.aux, d.mset].any (fun a => a % 256 != 0)
    || !(d.regions ms.length).all (s.pinnedFor (.job j)) || !rectangular ms || !ms.contains s.me

/-- A link of some stage is not usable (R365). -/
def State.colPathBad (s : State) (ms : List Nat) : Bool :=
  let ok (l : Nat) : Bool := (s.link l).phase == .up && decide (2 ≤ (s.link l).version)
  (tricksOf ms s.me).any (fun k =>
    if k = 4 then !farLinks.any (fun l => (s.link l).phase == .up)
    else ((groupOf ms k s.me).filter (fun q => q != s.me)).any (fun q =>
      match pairOf s.me q with
      | some l => !ok l || !ok (l + 1)
      | none => false))

/-- Links of the stages of a collective. -/
def State.stageLinks (s : State) (ms : List Nat) : List Nat :=
  (tricksOf ms s.me).flatMap (fun k =>
    if k = 4 then farLinks
    else ((groupOf ms k s.me).filter (fun q => q != s.me)).flatMap (fun q =>
      match pairOf s.me q with
      | some l => [l, l + 1]
      | none => []))

/-- A link carries a collective (R358, Table 7 of 16). -/
def State.linkCarries (s : State) (l : Nat) : Bool :=
  s.col.chans.any (fun q => match q.2.run with
    | some x => (s.stageLinks x.members).contains l
    | none => false)

/-- A requested retrain or margin runs on a link of some stage: the post waits (R486). -/
def State.colDelayed (s : State) (ms : List Nat) : Bool :=
  s.boot.queue.any (fun q => q.running && (q.op == 4 || q.op == 5) && (s.stageLinks ms).contains q.target)

/-! Inclusion record, digests and completion (R372, R379, R388). -/

/-- Included modules as the last GO gave them: all of a job on one module. -/
def ColRun.included (x : ColRun) (r : Nat) : Nat × List Nat :=
  match (tricksOf x.members r).getLast? with
  | none => (1, [r])
  | some k =>
    match x.gos.find? (fun g => g.1 == k) with
    | some g => (g.2.count, g.2.ranks)
    | none => (0, [])

/-- Table 4 of 12. -/
def inclRecord (c seq n : Nat) (ranks : List Nat) : List Byte :=
  natLe 2 0x2082 ++ natLe 2 0 ++ natLe 4 n ++ natLe 8 seq ++ natLe 1 c ++ natLe 15 0
    ++ (List.range 2048).map (fun i => BitVec.ofNat 8 ((ranks.filter (fun r => r / 8 == i)).map (fun r => 2 ^ (r % 8))).sum)

/-- The result as written (R388). -/
def State.colResult (s : State) (x : ColRun) : List Byte :=
  match x.desc.op with
  | 5 => []
  | 6 => []
  | 4 => s.readMem x.desc.dst (x.total * x.outBytes)
      ++ (List.range x.members.length).flatMap (fun i => s.readMem (x.desc.aux + 16 * i + 8) 8)
  | _ => s.readMem x.desc.dst (x.total * x.outBytes)

/-- Record of a collective (Table 10 of 16). -/
def colInfo (c seq twin : Nat) : RecInfo := { data := natLe 1 c ++ natLe 7 0 ++ natLe 8 seq ++ natLe 2 twin }

def State.colReport (s : State) (j c seq : Nat) (code : Code) : State := s.report code { colInfo c seq 0 with job := j }

/-- The outcome of a DIGEST, whose sum of flags reaches every module (R389). -/
def State.digestOutcome (s : State) (c : Nat) (x : ColRun) : State :=
  let sum := (x.vals.get 0 0).toNat
  let code := if 65536 ≤ sum then Codes.twinLost else Codes.twinDiverged
  let twin := s.me + (!s.links.twin).toNat * 16384
  if sum = 0 then s
  else
    let s := if x.flag = some 1 then
        (s.report code { job := x.job, data := s.col.digest }).report code { job := x.job, data := x.twinDig }
      else s
    s.jobFaults x.job code (colInfo c x.desc.seq twin)

/-- The collective completes on the module. -/
def State.colComplete (s : State) (c : Nat) (x : ColRun) : State :=
  let n := x.included s.me
  let rec_ := inclRecord c x.desc.seq n.1 n.2
  let s := if x.desc.incl = 0 then s else s.writeMem x.desc.incl rec_
  let s := if x.desc.op = 6 ∨ x.desc.noDigest then s
    else
      let h := sha3 (x.desc.header ++ (if x.desc.tolerant then rec_ else []) ++ s.colResult x)
      { s with col := { s.col with buckets := s.col.buckets ++ [⟨x.job, c, x.desc.seq, h⟩] } }
  let s := if x.desc.op = 6 then { s with col := { s.col with steps := s.col.steps.set 0 x.job (s.col.steps.get 0 x.job + 1) } }
    else s
  let s := (groupPeers x.members s.me).foldl (fun s p => s.colSend c x p .complete) s
  let s := s.modChan c (fun y => { y with run := none, done := x.desc.seq })
  let s := s.setHeldBack x.job
  if x.desc.op = 6 then s.digestOutcome c x else s

/-- The step digest of a job's collectives since the DIGEST before (R388, R389). -/
def State.closeDigest (s : State) (j : Nat) : Nat × State :=
  let key (b : Bucket) : Nat := b.chan * 2 ^ 64 + b.seq
  let mine := (s.col.buckets.filter (fun b => b.job == j)).mergeSort (fun a b => decide (key a ≤ key b))
  (mine.length,
   { s with col := { s.col with digest := sha3 (mine.flatMap (·.h)), step := s.col.steps.get 0 j + 1,
                                buckets := s.col.buckets.filter (fun b => b.job != j) } })

/-- The digest record (Table 5 of 12). -/
def digestRec (step buckets : Nat) (dig : List Byte) : List Byte :=
  natLe 2 0x2083 ++ natLe 6 0 ++ natLe 8 step ++ natLe 4 buckets ++ natLe 12 0 ++ dig

/-! Aborts (R384 to R387). -/

/-- What an abort leaves undefined (R387); a Misdeal writes no DST (R376). -/
def State.colUndefined (s : State) (x : ColRun) (code : Code) : State :=
  let d := x.desc
  let n :=
    match d.op with
    | 1 => d.count * colBytes d.outFmt
    | 2 => d.count * colBytes d.inFmt
    | 3 => x.total * colBytes d.inFmt
    | 4 => x.total * colBytes d.inFmt
    | _ => 0
  let rs := (if code = Codes.misdeal then [] else [(d.dst, n)])
    ++ (if d.op = 1 then [(d.scratch, 8 * d.count)] else if d.op = 4 then [(d.aux, 16 * x.members.length)] else [])
    ++ (if d.incl = 0 then [] else [(d.incl, 2080)])
  (rs.filter (fun q => decide (q.2 ≤ 2 ^ 45) && (s.checkRange (.job x.job) q.1 q.2).isNone)).foldl (fun s q =>
    s.freeFill q.1 q.2) s

/-- The run is gone, with its data (R386, R387). -/
def State.colDrop (s : State) (c : Nat) (x : ColRun) : State :=
  (s.modChan c (fun y =>
    { y with run := none, aborted := true, inbox := y.inbox.filter (fun q => q.1 != x.desc.seq),
             hold := y.hold.filter (fun q => q.1 != x.desc.seq) })).setHeldBack x.job

/-- A code of FINAL_ABORT ends the collective here (R384). -/
def State.colFinal (s : State) (c : Nat) (x : ColRun) (code : Code) : State :=
  let s := if s.col.errValid then s
    else { s with col := { s.col with errValid := true, errChan := c, errSeq := x.desc.seq % 2 ^ 32, errCode := code } }
  (((s.colUndefined x code).colDrop c x).jobFaults x.job code (colInfo c x.desc.seq 0))

/-- The decider above a module; none for the top decider. -/
def nextDecider (ms : List Nat) (r : Nat) : Option Nat :=
  ([1, 2, 3, 4].map (fun k => deciderOf ms k r)).find? (fun d => d != r)

/-- An abort condition is met, or an ABORT arrives: the first one counts. -/
def State.colAbort (s : State) (c : Nat) (code : Code) : State :=
  match (s.chan c).run with
  | none => s
  | some x =>
    if x.phase = .stopped then s
    else
      match nextDecider x.members s.me with
      | some d => (s.setRun c { x with phase := .stopped }).colSend c x d (.abort code)
      | none => (s.colSendAll c x (x.members.filter (fun m => m != s.me)) (.finalAbort code)).colFinal c x code

/-! Stage protocol (R375 to R380). -/

/-- Trick at which a module's POST and READY go to a decider above it. -/
def postTrick (ms : List Nat) (r : Nat) : Option Nat := [1, 2, 3, 4].find? (fun k => deciderOf ms k r != r)

/-- Every other unit of a module's sets up to a trick has posted. -/
def ColRun.allPosted (x : ColRun) (r k : Nat) : Bool :=
  ([1, 2, 3, 4].filter (fun t => decide (t ≤ k))).all (fun t =>
    (unitsOf x.members t r).all (fun u => u == unitOf x.members t r || x.posts.contains (t, u)))

/-- Units included at a trick, as GO gave them. -/
def ColRun.go (x : ColRun) (k : Nat) : Option GoRec := (x.gos.find? (fun g => g.1 == k)).map (·.2)

/-- Members of a module's group whose contribution enters at a trick (R371, R378, R381). -/
def ColRun.contributors (x : ColRun) (r k : Nat) : List Nat :=
  match x.go k with
  | none => []
  | some g => (groupOf x.members k r).filter (fun q =>
      let u := unitOf x.members k q
      g.units.contains u && (x.desc.op != 2 || u == unitOf x.members k x.desc.root))

/-- GO of a decider for a set of units, under the quorum of R378. -/
def State.colGo (s : State) (c : Nat) (x : ColRun) (k : Nat) (units : List Nat) : State :=
  if x.desc.tolerant && decide (units.length * 64 < x.desc.quorum * (unitsOf x.members k s.me).length) then
    s.colAbort c Codes.colQuorum
  else
    let rs := (x.readies.filter (fun q => q.1 == k && units.contains q.2.unit)).map (·.2)
    let x1 := { x with goSent := k :: x.goSent }
    (s.setRun c x1).colSendAll c x1 (unitsOf x.members k s.me)
      (.go k units (rs.map (·.count)).sum ((rs.flatMap (·.ranks)).mergeSort (fun a b => decide (a ≤ b))))

def State.jobTwin (s : State) (j : Nat) : Bool :=
  match s.job j with
  | some x => x.desc.twin
  | none => false

/-- A decider fixes the set of a trick; in twin mode a tolerant set is exchanged first (R378, R380). -/
def State.colFix (s : State) (c : Nat) (x : ColRun) (k : Nat) (units : List Nat) : State :=
  let x1 := { x with fixed := x.fixed ++ [(k, units)] }
  if x.desc.tolerant && s.jobTwin x.job then
    (s.setRun c x1).sendTx 0 (s.colTx c x.job x.desc.seq s.me true (.twinSet k units))
  else (s.setRun c x1).colGo c x1 k units

/-- This module's unit was left out at some trick, and its readiness comes late (R378; log entry 48). -/
def State.colExcluded (s : State) (c : Nat) (x : ColRun) : State :=
  if x.excluded then s
  else (s.setRun c { x with excluded := true }).colReport x.job c x.desc.seq Codes.colExcluded

def ColRun.leftOut (x : ColRun) (r : Nat) : Bool :=
  x.gos.any (fun g => !g.2.units.contains (unitOf x.members g.1 r))

/-! Arithmetic of the Pots (R369 to R371). -/

def colIn (fmt raw : Nat) : W32 := if fmt = 5 then BitVec.ofNat 32 raw else to32 (decodeElem fmt raw 127)

def colAdd (fmt : Nat) (a b : W32) : W32 := if fmt = 5 then a + b else fadd a b

/-- x / d, rounded once. -/
def colDiv (x : W32) (d : Nat) : W32 :=
  match val32 x with
  | .nan => nan32
  | .inf n => to32 (.inf n)
  | .fin n m e => quot32 n m d e

/-- Sum of the contributions of an element, in order. -/
def colSum (fmt : Nat) : List W32 → W32
  | [] => 0
  | x :: xs => xs.foldl (colAdd fmt) x

/-- The final root's value of an element (R369). -/
def ColRun.final (x : ColRun) (n : Nat) (v : W32) : Nat :=
  if x.desc.op ≠ 1 then v.toNat
  else
    let w := if x.desc.avg then colDiv v (n * x.desc.div) else v
    if x.desc.outFmt = 5 then w.toNat else encodeElem x.desc.outFmt .rne (val32 w)

/-- Bytes added by the ports' adders: `POT.COUNTS.BYTES` of each. -/
def State.potCount (s : State) (share : Nat → Nat) : State :=
  (List.range 24).foldl (fun s l =>
    s.modLink l (fun x => { x with potBytes := BitVec.ofNat 64 (satAdd (2 ^ 64 - 1) x.potBytes.toNat (share l)) })) s

/-- Slice of a port in the package trick. -/
def sliceLen (count l : Nat) : Nat := let q := segOf 24 (0, count) l; q.2 - q.1

def elemAt (s : State) (fmt a i : Nat) : Nat := s.readLe (a + i * colBytes fmt) (colBytes fmt)

/-- Puts finished elements in place. -/
def State.colStore (s : State) (c : Nat) (x : ColRun) (lo : Nat) (vs : List Nat) : State :=
  let x1 := { x with placed := x.placed + vs.length }
  if x.desc.op = 6 then s.setRun c { x1 with vals := SMap.setRange 0 x.vals lo (vs.map (BitVec.ofNat 32)) }
  else (s.setRun c x1).writeMem (x.desc.dst + lo * x.outBytes) (vs.flatMap (natLe x.outBytes))

/-- The package trick's sums, and what each operation has at its end (R370, R381). -/
def State.packageSums (s : State) (c : Nat) (x : ColRun) : State :=
  let d := x.desc
  let x1 := { x with packaged := true }
  match d.op with
  | 1 =>
    let part (i e : Nat) : W32 := colIn d.inFmt (elemAt s d.inFmt (d.src + i * d.stride) e)
    let vals := (List.range d.count).map (fun e => colSum d.inFmt ((List.range d.parts).map (fun i => part i e)))
    let s1 := (s.setRun c { x1 with vals := SMap.setRange 0 [] 0 vals }).freeFill d.scratch (8 * d.count)
    s1.potCount (fun l => sliceLen d.count l * d.parts * colBytes d.inFmt)
  | 2 =>
    if d.root = s.me then
      s.setRun c { x1 with vals := SMap.setRange 0 [] 0 ((List.range d.count).map (fun e => BitVec.ofNat 32 (elemAt s d.inFmt d.src e))) }
    else s.setRun c x1
  | 3 => s.colStore c x1 (x.members.idxOf s.me * d.count) ((List.range d.count).map (elemAt s d.inFmt d.src))
  | 6 => s.setRun c { x1 with vals := SMap.setRange 0 [] 0 [BitVec.ofNat 32 (x.flag.getD 0)] }
  | _ => s.setRun c x1

/-! Contributions that arrive (R371, R372). -/

def arrKey (k q e : Nat) : Nat := (k * 16384 + q) * 2 ^ 28 + e
def gotKey (k : Nat) (down : Bool) (q : Nat) : Nat := (2 * k + down.toNat) * 16384 + q

/-- Elements that a sender delivers to this module at a trick, and the bytes of one. -/
def ColRun.incoming (x : ColRun) (r k : Nat) (down : Bool) (q : Nat) : (Nat × Nat) × Nat :=
  if x.desc.op = 3 then (gatherBlock x k q, x.upBytes)
  else if down then (segAt x.members r x.total k q, x.outBytes)
  else (segAt x.members r x.total k r, x.upBytes)

def elemsLe (esz : Nat) (bs : List Byte) : List Nat := (List.range (bs.length / esz)).map (fun i => fieldLe bs (i * esz) esz)

/-- A chunk of the running collective: one that is not the next of its sender is none (log entry 1). -/
def State.takeChunk (s : State) (c : Nat) (x : ColRun) (k : Nat) (down : Bool) (q off : Nat) (bs : List Byte) : State :=
  let w := x.incoming s.me k down q
  let key := gotKey k down q
  let n := x.got.get 0 key
  let vs := elemsLe w.2 bs
  if !(x.desc.op == 1 || x.desc.op == 2 || x.desc.op == 3 || x.desc.op == 6) || q == s.me
      || !(groupOf x.members k s.me).contains q || (x.desc.op == 3 && down) || bs.length % w.2 != 0 || bs.isEmpty
      || decide (4096 < bs.length) || off != w.1.1 + n || decide (w.1.2 < off + vs.length) then s
  else
    let x1 := { x with got := x.got.set 0 key (n + vs.length) }
    if down || x.desc.op == 3 then s.colStore c x1 off vs
    else
      let s1 := s.setRun c { x1 with arr := SMap.setRange 0 x.arr (arrKey k q off) (vs.map (BitVec.ofNat 32)) }
      if x.desc.op = 1 then s1.freeFill x.desc.scratch (8 * x.desc.count) else s1

/-! The Shuffle (R382, R383). -/

/-- Elements that a destination has from a source, and what the count table says of it. -/
def State.takeShuffle (s : State) (c : Nat) (x : ColRun) (src off sent : Nat) (bs : List Byte) : State :=
  let e := x.upBytes
  let key := gotKey 5 false src
  let n := x.got.get 0 key
  let i := x.members.idxOf src
  let vs := elemsLe e bs
  if x.desc.op != 4 || !x.members.contains src || bs.length % e != 0 || bs.isEmpty || decide (4096 < bs.length) || off != n
      || decide (x.desc.count < off + vs.length) then s
  else
    let s1 := s.colStore c { x with got := x.got.set 0 key (n + vs.length) } (i * x.desc.count + off) vs
    if n = 0 then
      s1.writeMem (x.desc.aux + 16 * i + 8) (natLe 4 (min sent x.desc.count) ++ natLe 4 (sent - x.desc.count))
    else s1

/-- What a member sends to each destination. -/
def State.sendShuffle (s : State) (c : Nat) (x : ColRun) : State :=
  let d := x.desc
  let e := x.upBytes
  let send (i : Nat) : Nat := s.readLe (d.aux + 16 * i) 4
  let slot (i : Nat) : List Byte :=
    s.readMem (d.src + i * d.stride) (min (send i) d.count * e) ++ List.replicate ((d.count - send i) * e) 0
  let one (t : State) (q : Nat × Nat) : State :=
    (chunksOf e 0 (slot q.2)).foldl (fun t ch =>
      let m : ColMsg := .shuffle s.me q.1 ch.1 (send q.2) ch.2
      if q.1 = s.me then t.toInbox c d.seq m else t.colData c q.1 m) t
  let s1 := (x.members.zipIdx).foldl one (s.setRun c { x with sentUp := 5 :: x.sentUp })
  if (List.range x.members.length).any (fun i => decide (d.count < send i)) then s1.colReport x.job c d.seq Codes.colDiscard
  else s1

/-- Passes Shuffle data on to its next hop: not before the collective before has completed here (R372). -/
def State.mayForward (s : State) (c seq : Nat) : Bool :=
  let x := s.chan c
  decide (seq ≤ (if x.job = 0 then 0 else x.done) + 1)

def State.forwardShuffle (s : State) (c seq src dst off sent : Nat) (data : List Byte) : State :=
  let m : ColMsg := .shuffle src dst off sent data
  s.sendTx 2 { s.colTx c (s.chan c).job seq dst false m with src := src + s.links.twin.toNat * 16384 }

/-! One message of the running collective. -/

/-- A decider compares headers (R376). -/
def State.takePost (s : State) (c : Nat) (x : ColRun) (m : Nat) (h : List Byte) : State :=
  match [1, 2, 3, 4].find? (fun k => deciderOf x.members k m != m) with
  | none => s
  | some k =>
    if !x.members.contains m || deciderOf x.members k m != s.me then s
    else if h != x.desc.header then s.colAbort c Codes.misdeal
    else s.setRun c { x with posts := if x.posts.contains (k, unitOf x.members k m) then x.posts
                                      else x.posts ++ [(k, unitOf x.members k m)] }

def State.takeReady (s : State) (c : Nat) (x : ColRun) (k u n : Nat) (rs : List Nat) : State :=
  if !(tricksOf x.members s.me).contains k || deciderOf x.members k s.me != s.me || !(unitsOf x.members k s.me).contains u
      || x.fixed.any (fun q => q.1 == k) || x.readies.any (fun q => q.1 == k && q.2.unit == u)
      || !(u == unitOf x.members k s.me || x.posts.contains (k, u)) then s
  else s.setRun c { x with readies := x.readies ++ [(k, ⟨u, n, rs⟩)] }

/-- GO reaches a module; a unit's decider relays it (R375). -/
def State.takeGo (s : State) (c : Nat) (x : ColRun) (k : Nat) (us : List Nat) (n : Nat) (rs : List Nat) : State :=
  if !(tricksOf x.members s.me).contains k || (x.go k).isSome then s
  else
    let x1 := { x with gos := x.gos ++ [(k, ⟨us, n, rs⟩)] }
    let s1 := s.setRun c x1
    if unitOf x.members k s.me = s.me then
      s1.colSendAll c x1 ((unitMods x.members k s.me).filter (fun m => m != s.me)) (.go k us n rs)
    else s1

def State.takeMsg (s : State) (c : Nat) (x : ColRun) (m : ColMsg) : State :=
  match m with
  | .finalAbort code => s.colFinal c x code
  | .abort code => s.colAbort c code
  | m =>
    if x.phase = .stopped then s
    else
      match m with
      | .post q h => s.takePost c x q h
      | .rootReady k q => s.setRun c { x with rootReady := x.rootReady ++ [(k, q)] }
      | .ready k u n rs => s.takeReady c x k u n rs
      | .go k us n rs => s.takeGo c x k us n rs
      | .twinSet k us => s.setRun c { x with twins := x.twins ++ [(k, us)] }
      | .pot k down q off bs => s.takeChunk c x k down q off bs
      | .shuffle src dst off sent bs =>
        if dst = s.me then s.takeShuffle c x src off sent bs else s.forwardShuffle c x.desc.seq src dst off sent bs
      | .digest step dig =>
        if x.desc.op = 6 ∧ x.flag = none then
          s.setRun c { x with flag := some (if step = s.col.step ∧ dig = s.col.digest then 0 else 1), twinDig := dig }
        else s
      | _ => s

/-! Progress of the running collective. -/

/-- Its own POST goes up once every module of its unit has posted. -/
def State.stepPost (s : State) (c : Nat) (x : ColRun) : Option State :=
  if x.posted then none
  else
    match postTrick x.members s.me with
    | none => none
    | some k =>
      if x.allPosted s.me (k - 1) then
        let x1 := { x with posted := true }
        some ((s.setRun c x1).colSend c x1 (deciderOf x.members k s.me) (.post s.me x.desc.header))
      else none

/-- A unit's READY. -/
def State.stepReady (s : State) (c : Nat) (x : ColRun) : Option State :=
  let ks := tricksOf x.members s.me
  (ks.zipIdx).findSome? (fun q =>
    let k := q.1
    let send (n : Nat) (rs : List Nat) : Option State :=
      let x1 := { x with readySent := k :: x.readySent }
      some ((s.setRun c x1).colSend c x1 (deciderOf x.members k s.me) (.ready k s.me n rs))
    if x.readySent.contains k || unitOf x.members k s.me != s.me then none
    else if q.2 = 0 then if x.packaged then send 1 [s.me] else none
    else if (unitMods x.members k s.me).all (fun m => x.rootReady.contains (k, m)) then
      match x.go (ks.getD (q.2 - 1) 0) with
      | some g => send g.count g.ranks
      | none => none
    else none)

/-- A decider fixes a set when every unit is ready, or has its twin's set. -/
def State.stepDecide (s : State) (c : Nat) (x : ColRun) : Option State :=
  ((tricksOf x.members s.me).filter (fun k => deciderOf x.members k s.me == s.me)).findSome? (fun k =>
    let us := unitsOf x.members k s.me
    match x.fixed.find? (fun q => q.1 == k) with
    | none => if us.all (fun u => x.readies.any (fun q => q.1 == k && q.2.unit == u)) then some (s.colFix c x k us) else none
    | some f =>
      if x.goSent.contains k then none
      else
        match x.twins.find? (fun q => q.1 == k) with
        | some t => some (s.colGo c x k (f.2.filter (fun u => t.2.contains u)))
        | none => none)

/-- The module's own values for a trick are there. -/
def ColRun.ownReady (x : ColRun) (i : Nat) : Bool := decide (x.level = i) && x.packaged

/-- Data of the next trick go up (R368, R378, R381). -/
def State.stepUp (s : State) (c : Nat) (x : ColRun) : Option State :=
  match (tricksOf x.members s.me)[x.level]? with
  | none => none
  | some k =>
    if x.sentUp.contains k || (x.go k).isNone then none
    else
      let x1 := { x with sentUp := k :: x.sentUp }
      if !(x.contributors s.me k).contains s.me || x.desc.op == 4 || x.desc.op == 5 then some (s.setRun c x1)
      else if !x.ownReady x.level then none
      else
        let others := (groupOf x.members k s.me).filter (fun q => q != s.me)
        let send (t : State) (q : Nat) (w : Nat × Nat) (bs : List Byte) : State :=
          (chunksOf x.upBytes w.1 bs).foldl (fun t ch => t.colData c q (.pot k false s.me ch.1 ch.2)) t
        let go (t : State) (q : Nat) : State :=
          if x.desc.op = 3 then
            let w := gatherBlock x k s.me
            send t q w (s.readMem (x.desc.dst + w.1 * x.upBytes) ((w.2 - w.1) * x.upBytes))
          else
            let w := segAt x.members s.me x.total k q
            send t q w ((x.vals.getRange 0 w.1 (w.2 - w.1)).flatMap (fun v => natLe x.upBytes v.toNat))
        some (others.foldl go (s.setRun c x1))

/-- The values of a root's segment at a trick. -/
def ColRun.rootVals (x : ColRun) (r k : Nat) : SMap W32 :=
  let w := segAt x.members r x.total k r
  let cs := x.contributors r k
  let v (e q : Nat) : W32 := if q = r then x.vals.get 0 e else x.arr.get 0 (arrKey k q e)
  let fmt := if x.desc.op = 6 then 5 else x.desc.inFmt
  if cs.isEmpty then []
  else SMap.setRange 0 [] w.1 ((List.range (w.2 - w.1)).map (fun i => colSum fmt (cs.map (v (w.1 + i)))))

/-- Every contribution of a trick has arrived. -/
def ColRun.arrived (x : ColRun) (r k : Nat) : Bool :=
  let w := segAt x.members r x.total k r
  match x.desc.op with
  | 4 => true
  | 5 => true
  | 3 => (groupOf x.members k r).all (fun q => let b := gatherBlock x k q
      q == r || x.got.get 0 (gotKey k false q) == b.2 - b.1)
  | _ => (x.contributors r k).all (fun q => q == r || x.got.get 0 (gotKey k false q) == w.2 - w.1)

/-- The final root puts its segment in place (R368, R369). -/
def State.finalRoot (s : State) (c : Nat) (x : ColRun) (w : Nat × Nat) : State :=
  if x.desc.op = 1 ∨ x.desc.op = 2 ∨ x.desc.op = 6 then
    s.colStore c x w.1 ((x.vals.getRange 0 w.1 (w.2 - w.1)).map (x.final (x.included s.me).1))
  else s.setRun c x

/-- A root finishes its segment at the next trick. -/
def State.stepRoot (s : State) (c : Nat) (x : ColRun) : Option State :=
  let ks := tricksOf x.members s.me
  match ks[x.level]? with
  | none => none
  | some k =>
    if !x.sentUp.contains k || !x.arrived s.me k then none
    else
      let w := segAt x.members s.me x.total k s.me
      let sums := x.desc.op == 1 || x.desc.op == 2 || x.desc.op == 6
      let x1 := { x with level := x.level + 1, vals := if sums then x.rootVals s.me k else x.vals,
                         arr := x.arr.filter (fun q => q.1 / 2 ^ 42 != k) }
      let n := (x.contributors s.me k).length * (w.2 - w.1) * 4
      let s := if x.desc.op = 1 ∨ x.desc.op = 6 then s.potCount (fun l => n / 24 + (decide (l < n % 24)).toNat) else s
      match ks[x.level + 1]? with
      | some k2 => some ((s.setRun c x1).colSend c x1 (unitOf x.members k2 s.me) (.rootReady k2 s.me))
      | none => some (s.finalRoot c x1 w)

/-- A job on one module: the ports are the final root (R370). -/
def State.stepAlone (s : State) (c : Nat) (x : ColRun) : Option State :=
  if (tricksOf x.members s.me).isEmpty && x.packaged && decide (x.level = 0) then
    some (s.finalRoot c { x with level := 1 } (0, x.total))
  else none

/-- A module's own segment at a trick is in place. -/
def ColRun.segmentPlaced (x : ColRun) (r i : Nat) : Bool :=
  let ks := tricksOf x.members r
  if i + 1 = ks.length then decide (ks.length ≤ x.level)
  else
    match ks[i + 1]? with
    | none => false
    | some k => x.sentDown.contains k && (groupOf x.members k r).all (fun q =>
        let w := segAt x.members r x.total k q
        q == r || x.got.get 0 (gotKey k true q) == w.2 - w.1)

/-- A finished segment goes down (R368). -/
def State.stepDown (s : State) (c : Nat) (x : ColRun) : Option State :=
  if !(x.desc.op == 1 || x.desc.op == 2 || x.desc.op == 6) then none
  else
    ((tricksOf x.members s.me).zipIdx).findSome? (fun q =>
      let k := q.1
      if x.sentDown.contains k || !x.segmentPlaced s.me q.2 then none
      else
        let w := segAt x.members s.me x.total k s.me
        let bs := if x.desc.op = 6 then (x.vals.getRange 0 w.1 (w.2 - w.1)).flatMap (fun v => natLe 4 v.toNat)
          else s.readMem (x.desc.dst + w.1 * x.outBytes) ((w.2 - w.1) * x.outBytes)
        let s1 := s.setRun c { x with sentDown := k :: x.sentDown }
        some (((groupOf x.members k s.me).filter (fun q => q != s.me)).foldl (fun s q =>
          (chunksOf x.outBytes w.1 bs).foldl (fun s ch => s.colData c q (.pot k true s.me ch.1 ch.2)) s) s1))

/-- Every trick is done. -/
def ColRun.climbed (x : ColRun) (r : Nat) : Bool := x.packaged && decide (max 1 (tricksOf x.members r).length ≤ x.level)

def State.stepShuffle (s : State) (c : Nat) (x : ColRun) : Option State :=
  if x.desc.op == 4 && x.climbed s.me && !x.sentUp.contains 5 then some (s.sendShuffle c x) else none

/-- A DIGEST has its flag (R389). -/
def State.stepFlag (s : State) (c : Nat) (x : ColRun) : Option State :=
  if x.desc.op == 6 && x.flag.isSome && !x.packaged then some (s.packageSums c x) else none

/-- COL_EXCLUDED of a module whose unit was left out and is ready. -/
def State.stepExcluded (s : State) (c : Nat) (x : ColRun) : Option State :=
  if x.leftOut s.me && x.packaged && !x.excluded then some (s.colExcluded c x) else none

/-- DST holds all elements, and this module has sent what the others need of it (R372; log entry 49). -/
def State.stepComplete (s : State) (c : Nat) (x : ColRun) : Option State :=
  let done :=
    if x.desc.op = 5 then x.climbed s.me
    else decide (x.total ≤ x.placed) && (x.desc.op != 6 || x.packaged) && (x.desc.op != 3 || x.climbed s.me)
      && (x.desc.op != 4 || x.sentUp.contains 5)
  if done then some ((if x.leftOut s.me then s.colExcluded c x else s).colComplete c x) else none

/-- One step of the channel: a message of the running collective, or progress. -/
def State.colStep (s : State) (c : Nat) : Option State :=
  match (s.chan c).run with
  | none => none
  | some x =>
    let mine (q : Nat × ColMsg) : Bool := q.1 == x.desc.seq
    match (s.chan c).inbox.find? mine with
    | some q =>
      some ((s.modChan c (fun y => { y with inbox := y.inbox.eraseIdx (y.inbox.findIdx mine) })).takeMsg c x q.2)
    | none =>
      if x.phase = .stopped then none
      else
        (s.stepPost c x).or ((s.stepFlag c x).or ((s.stepReady c x).or ((s.stepDecide c x).or ((s.stepUp c x).or
          ((s.stepRoot c x).or ((s.stepAlone c x).or ((s.stepShuffle c x).or ((s.stepDown c x).or
            ((s.stepExcluded c x).or (s.stepComplete c x))))))))))

/-- Steps until nothing more happens. -/
def State.colDrain (s : State) (c : Nat) : Nat → State
  | 0 => s
  | n + 1 =>
    match s.colStep c with
    | none => s
    | some t => t.colDrain c n

/-- More steps than a channel can take before it waits for another command: a message of each kind and a chunk of every
member, and each stage once. -/
def State.colFuel (s : State) (c : Nat) : Nat :=
  let n := match (s.chan c).run with
    | some x => x.members.length * (2 + ceilDiv (x.desc.count * 4) 4096)
    | none => 0
  200 + 8 * ((s.chan c).inbox.length + n)

def State.colRun (s : State) (c : Nat) : State := s.colDrain c (s.colFuel c)

/-! Posting, continued. -/

def ColRun.start (j : Nat) (d : ColDesc) (ms : List Nat) : ColRun :=
  { job := j, desc := d, members := ms, phase := .posted, posts := [], posted := false, rootReady := [], readySent := [],
    readies := [], fixed := [], goSent := [], twins := [], gos := [], packaged := false, level := 0, sentUp := [],
    sentDown := [], vals := [], arr := [], got := [], out := [], placed := 0, excluded := false, flag := none, twinDig := [] }

/-- A DIGEST closes the step digest; outside twin mode it completes (R389). -/
def State.digestStart (s : State) (c : Nat) (x : ColRun) : State :=
  let r := s.closeDigest x.job
  if s.jobTwin x.job then
    let x1 := { x with phase := .running }
    let s1 := (r.2.setRun c x1).setHeldBack x.job
    s1.sendTx 3 { s1.colTx c x.job x.desc.seq s1.me true (.digest s1.col.step s1.col.digest) with
      data := digestRec s1.col.step r.1 s1.col.digest }
  else (r.2.setRun c x).colComplete c x

/-- The library posts the collective of a descriptor on its channel. -/
def State.colPostNow (s : State) (c j : Nat) (jb : JobSt) (addr : Nat) : State :=
  let d := colDescOf (s.readMem addr 128)
  let ms := s.colMembers d
  let y := s.chan c
  let y := if y.job = j then y else { y with job := j, posted := 0, done := 0, peers := [], hold := [] }
  let x := ColRun.start j d ms
  let s1 := s.setChan c { y with run := some x, aborted := false }
  if s.colDescBad y j jb d ms then (s1.colAbort c Codes.colDesc).colRun c
  else
    let s2 := s1.modChan c (fun y => { y with posted := d.seq })
    if s.colPathBad ms then (s2.colAbort c Codes.colPath).colRun c
    else if d.op = 6 then (s2.digestStart c x).colRun c
    else s2.colRun c

/-- The library may post for a job: it has a plan and has not ended (R361). -/
def JobSt.mayPost (x : JobSt) : Bool := x.desc.colPlan != 0 && x.fault.isNone && x.phase != .waiting && x.phase != .ending

/-- The next post that waited for the channel. -/
def State.colNext (s : State) (c : Nat) : State :=
  let y := s.chan c
  match y.run, y.queue with
  | none, (j, a) :: rest =>
    let s1 := s.setChan c { y with queue := rest }
    if s.colDelayed (s.colMembers (colDescOf (s.readMem a 128))) then s
    else
      match s.job j with
      | some jb => if jb.mayPost then s1.colPostNow c j jb a else s1
      | none => s1
  | _, _ => s

/-- Progress of a channel, and the posts that wait for it. -/
def State.colSettle (s : State) (c : Nat) : State := ((s.colRun c).colNext c).colNext c

def State.colPost (s : State) (op j addr : Nat) : State :=
  match s.job j with
  | none => s
  | some jb =>
    let d := colDescOf (s.readMem addr 128)
    let c := d.chan % 16
    if !jb.mayPost || (decide (1 ≤ d.op ∧ d.op ≤ 6) && d.op != op) then s
    else if (s.chan c).run.isSome || !(s.chan c).queue.isEmpty || s.colDelayed (s.colMembers d) then s.modChan c (fun y => { y with queue := y.queue ++ [(j, addr)] })
    else (s.colPostNow c j jb addr).colSettle c

def execAllReduce (job : Nat) (desc : BitVec 48) (s : State) : Host.Outcome State Fault Refusal :=
  .next (s.colPost 1 job desc.toNat)

def execBroadcast (job : Nat) (desc : BitVec 48) (s : State) : Host.Outcome State Fault Refusal :=
  .next (s.colPost 2 job desc.toNat)

def execAllGather (job : Nat) (desc : BitVec 48) (s : State) : Host.Outcome State Fault Refusal :=
  .next (s.colPost 3 job desc.toNat)

def execShuffle (job : Nat) (desc : BitVec 48) (s : State) : Host.Outcome State Fault Refusal :=
  .next (s.colPost 4 job desc.toNat)

def execCollectiveBarrier (job : Nat) (desc : BitVec 48) (s : State) : Host.Outcome State Fault Refusal :=
  .next (s.colPost 5 job desc.toNat)

def execDigest (job : Nat) (desc : BitVec 48) (s : State) : Host.Outcome State Fault Refusal :=
  .next (s.colPost 6 job desc.toNat)

/-! The commands of a channel. -/

/-- Acts on the running collective of a channel while it is not stopped. -/
def State.onRun (s : State) (c : Nat) (go : ColRun → State → State) : State :=
  match (s.chan c).run with
  | some x => if x.phase = .stopped then s else (go x s).colSettle c
  | none => s

/-- R363. -/
def execContributionReady (c : Chan) (s : State) : Host.Outcome State Fault Refusal :=
  .next (s.onRun c (fun x s =>
    if x.phase = .posted ∧ x.desc.op ≠ 6 then (s.setRun c { x with phase := .running }).setHeldBack x.job else s))

/-- R370. -/
def execPackageTrickComplete (c : Chan) (s : State) : Host.Outcome State Fault Refusal :=
  .next (s.onRun c (fun x s =>
    if x.phase = .running ∧ !x.packaged ∧ x.desc.op ≠ 6 then s.packageSums c x else s))

/-- A message arrives on a channel. -/
def State.colMsg (s : State) (c seq : Nat) (m : ColMsg) : State := (s.toInbox c seq m).colSettle c

/-- SEQ of a POST is in its header. -/
def execPost (c : Chan) (sender : BitVec 14) (header : List Byte) (s : State) : Host.Outcome State Fault Refusal :=
  .next (s.colMsg c (fieldLe header 8 8) (.post sender.toNat header))

def execReady (c : Chan) (seq : Nat) (k : Trick) (root : Bool) (unit : BitVec 14) (count : Nat) (ranks : List Nat) (s : State) :
    Host.Outcome State Fault Refusal :=
  .next (s.colMsg c seq (if root then .rootReady (trickNo k) unit.toNat else .ready (trickNo k) unit.toNat count ranks))

def execGo (c : Chan) (seq : Nat) (k : Trick) (units : List Nat) (count : Nat) (ranks : List Nat) (s : State) :
    Host.Outcome State Fault Refusal :=
  .next (s.colMsg c seq (.go (trickNo k) units count ranks))

/-- The deadline of a trick expires at its decider: a tolerant set is fixed, the twin's set is missing, or the collective
ends (R377, R378, R380); that of the rack trick also bounds the wait for the twin's digest record (R389). -/
def State.colDeadline (s : State) (c : Nat) (x : ColRun) (k : Nat) : State :=
  if x.desc.deadline.getD (k - 1) 0 = 0 ∨ k = 0 then s
  else if x.desc.op = 6 ∧ x.flag = none then if k = 4 then s.setRun c { x with flag := some 65536 } else s
  else
    let ready := (x.readies.filter (fun q => q.1 == k)).map (·.2.unit)
    if deciderOf x.members k s.me ≠ s.me ∨ ready = [] ∨ x.goSent.contains k then s
    else if x.fixed.any (fun q => q.1 == k) then s.colAbort c Codes.twinLost
    else if x.desc.tolerant && x.allPosted s.me k then s.colFix c x k ((unitsOf x.members k s.me).filter ready.contains)
    else s.colAbort c Codes.colTimeout

def execDeadlineExpiry (c : Chan) (k : Trick) (s : State) : Host.Outcome State Fault Refusal :=
  .next (s.onRun c (fun x s => s.colDeadline c x (trickNo k)))

def execTwinSetExchange (c : Chan) (seq : Nat) (k : Trick) (units : List Nat) (s : State) : Host.Outcome State Fault Refusal :=
  .next (s.colMsg c seq (.twinSet (trickNo k) units))

/-- Link port at which data of a member arrive. -/
def State.portFrom (s : State) (c src : Nat) : Nat :=
  match pairOf s.me src with
  | some l => l + c % 2
  | none => (s.farLink).getD 18

/-- Data pass the filter of their port, or are discarded (R353, R465). -/
def State.filtered (s : State) (c vc src : Nat) (tag : BitVec 13) (go : State → State) : State :=
  let h : TxHeader := { type := 2, chan := BitVec.ofNat 4 c, src := BitVec.ofNat 15 src, dst := 0, len := 0, tag := tag, addr := 0 }
  if s.passFilter vc h then go s else s.filterOut (s.portFrom c src)

def execPotChunk (c : Chan) (k : Trick) (descending : Bool) (sender : BitVec 14) (seq offset : Nat) (tag : BitVec 13)
    (data : List Byte) (s : State) : Host.Outcome State Fault Refusal :=
  .next (s.filtered c 1 sender.toNat tag (fun s =>
    s.colMsg c seq (.pot (trickNo k) descending sender.toNat offset data)))

/-- A peer's COMPLETE: what was held back for it goes (R372). -/
def State.colPeerDone (s : State) (c peer seq : Nat) : State :=
  let y := s.chan c
  let n := max seq (y.peers.get 0 peer)
  let free (q : Nat × OutTx) : Bool := s.hopOf (q.2.dst % 16384) == peer && decide (q.1 ≤ n + 1)
  let s1 := s.setChan c { y with peers := y.peers.set 0 peer n, hold := y.hold.filter (fun q => !free q) }
  (y.hold.filter free).foldl (fun s q => s.sendTx (if q.2.kind = 10 then 2 else 1) q.2) s1

def execComplete (c : Chan) (peer : BitVec 14) (seq : Nat) (s : State) : Host.Outcome State Fault Refusal :=
  .next (if (s.chan c).job = 0 then s else s.colPeerDone c peer.toNat seq)

/-- Shuffle data arrives, or passes through (R382). -/
def State.shuffleArrives (s : State) (c src dst seq off sent : Nat) (data : List Byte) : State :=
  if dst ≠ s.me ∧ s.mayForward c seq then
    let stopped : Bool := match (s.chan c).run with
      | some x => x.desc.seq == seq && x.phase == .stopped
      | none => false
    if stopped then s else s.forwardShuffle c seq src dst off sent data
  else s.colMsg c seq (.shuffle src dst off sent data)

def execShuffleData (c : Chan) (src dst : BitVec 14) (seq offset sent : Nat) (tag : BitVec 13) (data : List Byte) (s : State) :
    Host.Outcome State Fault Refusal :=
  .next (s.filtered c 2 src.toNat tag (fun s => s.shuffleArrives c src.toNat dst.toNat seq offset sent data))

def execAbort (c : Chan) (seq : Nat) (code : Code) (s : State) : Host.Outcome State Fault Refusal :=
  .next (s.colMsg c seq (.abort code))

def execFinalAbort (c : Chan) (seq : Nat) (code : Code) (s : State) : Host.Outcome State Fault Refusal :=
  .next (s.colMsg c seq (.finalAbort code))

/-- STALL_LIMIT passes: after a stop without FINAL_ABORT, or after GO without progress (R385). -/
def State.colStall (s : State) (c : Nat) : State :=
  match (s.chan c).run with
  | none => s
  | some x =>
    if x.phase = .stopped then
      ((((s.colUndefined x Codes.colRootLost).colDrop c x).jobFaults x.job Codes.colRootLost (colInfo c x.desc.seq 0))).colNext c
    else if x.gos.isEmpty then s
    else (s.colAbort c Codes.colTimeout).colSettle c

def execColStallExpiry (c : Chan) (s : State) : Host.Outcome State Fault Refusal := .next (s.colStall c)

/-- The twin's digest record (R389). -/
def execDigestRecord (c : Chan) (seq step : Nat) (dig : BitVec 256) (s : State) : Host.Outcome State Fault Refusal :=
  .next (s.colMsg c seq (.digest step (natLe 32 dig.toNat)))

/-! The end of a job (R386). -/

/-- A job that faults for another reason with a collective posted. -/
def State.colMemberFault (s : State) (j : Nat) : State :=
  (List.range 16).foldl (fun s c =>
    match (s.chan c).run with
    | some x => if x.job = j then s.colAbort c Codes.colMemberFault else s
    | none => s) s

/-- The Pots abandon a job's collectives, and drop its early data. -/
def State.colAbandon (s : State) (j : Nat) : State :=
  (List.range 16).foldl (fun s c =>
    let y := s.chan c
    if y.job = j then
      s.setChan c { y with job := 0, posted := 0, run := none, inbox := [], peers := [], hold := [],
                           queue := y.queue.filter (fun q => q.1 != j) }
    else s.setChan c { y with queue := y.queue.filter (fun q => q.1 != j) }) s

/-- A collective of the job is posted on the module. -/
def State.colPosted (s : State) (j : Nat) : Bool :=
  s.col.chans.any (fun q => q.2.queue.any (fun p => p.1 == j) || (match q.2.run with
    | some x => x.job == j
    | none => false))

end Sys2Proof.Machine
end

