-- ==== Sys2Proof/Machine/Power.lean ====
section
/-!
DEFINITION. Machine/Power.lean: caps, the limiter, ramps, droop, the hardware limits and the energy counters (R429 to R449,
R505, R506), but for the change of grade.
-/

namespace Sys2Proof.Machine

def State.modPower (s : State) (f : PowerSt → PowerSt) : State := { s with power := f s.power }

/-- A register write that the physical function and board management may make; from anyone else it has no effect and is
logged (R392, R431, R490). -/
def State.privileged (s : State) (who : Iface) (go : State → State) : State :=
  match who with
  | .board => go s
  | .host f => if f = 0 then go s else s.report Codes.badRegAccess { func := f }
  | .bar0 f => s.report Codes.badRegAccess { func := f }

/-- A register write that only the physical function may make (R458, R472, R483). -/
def State.physical (s : State) (who : Iface) (go : State → State) : State :=
  match who with
  | .host f => if f = 0 then go s else s.report Codes.badRegAccess { func := f }
  | .bar0 f => s.report Codes.badRegAccess { func := f }
  | .board => s.report Codes.badRegAccess {}

/-! Caps (R431, R505). -/

/-- Clamped to a range. -/
def clampNat (lo hi x : Nat) : Nat := max lo (min hi x)

/-- PWR.CAP: clamped to 2,000 W up to the fused ceiling. -/
def capWrite (v : W32) (s : State) : State :=
  let w := bitsOf v.toNat 12 0
  let c := clampNat 2000 s.fuses.fusedW w
  let s1 := s.modPower (fun p => { p with cfg := { p.cfg with capW := c } })
  if c = w then s1 else s1.report Codes.pwrCapRange {}

def execCapWrite (who : Iface) (v : W32) (s : State) : Host.Outcome State Fault Refusal :=
  .next (s.privileged who (capWrite v))

/-- Table 7 of 17. -/
def derated : Option Nat → Nat
  | none => 2000
  | some t =>
    if t ≤ 25 then 5000 else if t ≤ 30 then 4750 else if t ≤ 35 then 4500 else if t ≤ 40 then 4100
    else if t ≤ 45 then 3600 else 2000

/-- Effective package cap C. -/
def PowerSt.effCap (p : PowerSt) : Nat := min p.live.capW (derated p.inlet)

/-! Grades (R432, R434). -/

def Fuses.volt (f : Fuses) (die g : Nat) : Nat := (f.volts.getD die []).getD g 0

/-- The part offers a grade: it is fused so, and no die's voltage exceeds its VMAX (R432). -/
def Fuses.offers (f : Fuses) (g : Nat) : Bool :=
  f.avail.getD g false && (List.range 8).all (fun d => decide (f.volt d g ≤ f.vmax.getD d 0))

/-- The module can hold a grade (R434). -/
def State.canHold (s : State) (g : Nat) : Bool :=
  s.fuses.offers g
    && decide (64 * s.fuses.gradeS.getD g 0 + s.power.live.holdDensity * s.fuses.gradeD.getD g 0 ≤ 64 * s.power.effCap)

/-- Some job holds tiles. -/
def State.holdsTiles (s : State) : Bool := (List.range 96).any (fun t => (s.tileJob t).isSome)

/-- Grades that the module offers in a vote (R434). -/
def State.offered (s : State) : List Nat :=
  if s.holdsTiles then [s.grade]
  else
    let ok := (List.range 5).filter s.canHold
    if !s.power.demote then ok
    else if s.power.demotedAt = 0 then ok.filter (· == 0)
    else ok.filter (fun g => decide (g < s.power.demotedAt))

/-! Sensors (R429, R482). -/

/-- A signed byte of the user calibration region. -/
def State.calOffset (s : State) (o : Nat) : Int := sintVal 8 (fieldLe s.boot.userCal o 1)


def clampZ (lo hi x : Int) : Int := max lo (min hi x)

/-- A sensor's reading with its user offset, within the window of Table 6 of 16; the register has 8 bits. -/
def State.sensor (s : State) (o reading : Nat) : Nat := min 255 ((reading : Int) + clampZ (-8) 8 (s.calOffset o)).toNat

/-- An input meter reading with the gain trim of Table 6 of 16, rounded down (log entry 42). -/
def State.trimmed (s : State) (x : Nat) : Nat :=
  let ppm := clampZ (-20000) 20000 (sintVal 32 (fieldLe s.boot.userCal 0x924 4))
  ((x : Int) * (1000000 + ppm) / 1000000).toNat

/-- Thermal throttling starts at the threshold and is lifted 3 °C below it (R440). -/
def throttleNext (on : Bool) (temp limit : Nat) : Bool :=
  if on then !decide (temp + 3 ≤ limit) else decide (limit ≤ temp)

/-- Sensors of an interval: temperatures, throttles, and a record for each episode that starts. -/
def State.senseTile (s : State) (q : Tile × Nat) : State :=
  let t := q.1.val
  let c := s.sensor (0x8A0 + t) q.2
  let was := (s.tile t).pwr.throttled
  let on := throttleNext was c s.power.live.tileC
  let s1 := s.modTile t (fun x => { x with pwr := { x.pwr with tempC := c, throttled := on } })
  if on && !was then s1.report Codes.thermalThrottle { cls := 2, idx := t / 12, unit := t % 12 } else s1

def State.senseStack (s : State) (q : Stack × Nat) : State :=
  let k := q.1.val
  let c := s.sensor (0x900 + k) q.2
  let was := (s.stack k).throttled
  let on := throttleNext was c s.power.live.stackC
  let s1 := s.modStack k (fun x => { x with tempC := c, throttled := on })
  if on && !was then s1.report Codes.thermalThrottle { cls := 3, idx := k } else s1

def State.sense (s : State) (r : Readings) : State :=
  let s1 := s.modPower (fun p => { p with inlet := r.inlet.map (s.sensor 0x920) })
  r.stackC.foldl State.senseStack (r.tileC.foldl State.senseTile s1)

/-- A thermal throttle is in force (PWR.STATUS.THROTTLE). -/
def State.throttling (s : State) : Bool :=
  s.tiles.any (fun q => q.2.pwr.throttled) || s.mem.stk.any (fun q => q.2.throttled)

/-! The limiter law (R437 to R440, R443). -/

/-- Request of a tile (R437). -/
def TileSt.powerRequest (x : TileSt) : Nat :=
  if x.hand.isNone then 0 else if x.pwr.phaseValid then x.pwr.density else 64

/-- A tile counts as latency-critical; one of the ante-slot job does not (R439). -/
def State.powerLc (s : State) (t : Nat) : Bool :=
  let j := (s.tile t).job
  s.isLc j && s.sched.ante != j

/-- BE_FLOOR and LC_FLOOR as taken (Table 8 of 14). -/
def PowerCfg.beFloorV (c : PowerCfg) : Nat := max 1 c.beFloor
def PowerCfg.lcFloorV (c : PowerCfg) : Nat := min 64 c.lcFloor

/-- Floor of a tile. -/
def State.floorOf (s : State) (t : Nat) : Nat :=
  min (s.tile t).powerRequest (if s.powerLc t then s.power.live.lcFloorV else s.power.live.beFloorV)

/-- The want of a tile in its full pass: a storm on its die reduces a best-effort tile's, and a throttle caps it at the
previous grant minus 8, not below the floor (R440, R443). -/
def State.wantOf (s : State) (storm : Nat → Bool) (t : Nat) : Nat :=
  let x := s.tile t
  let req := x.powerRequest
  let w := if storm (t / 12) && !s.powerLc t then max (min req s.power.live.beFloorV) (req - 8) else req
  let hot := x.pwr.throttled || (List.range 4).any (fun i => (s.stack (4 * (t / 12) + i)).throttled)
  if hot then max (s.floorOf t) (min w (x.pwr.budget - 8)) else w

/-- A cap level: its tiles and its cap. -/
structure CapLevel where
  tiles : List Nat
  cap   : Nat
  deriving DecidableEq, Repr

/-- The levels in force (R431, R439). -/
def State.capLevels (s : State) : List CapLevel :=
  let quads := (List.range 4).filterMap (fun q =>
    let c := bitsOf s.power.live.quadCap.toNat (16 * q + 12) (16 * q)
    if c = 0 then none else some (⟨(List.range 24).map (· + 24 * q), c⟩ : CapLevel))
  let parts := s.power.live.partCap.filterMap (fun p =>
    let ds := s.funcDies p.1
    if p.2 = 0 ∨ ds.isEmpty then none
    else some (⟨ds.flatMap (fun d => (List.range 12).map (· + 12 * d)), p.2⟩ : CapLevel))
  ⟨List.range 96, s.power.effCap⟩ :: quads ++ parts

/-- Units of a level: `x` is S'(g) - S(g) in units of 2^-16 W (R439; log entry 43). -/
def levelUnits (S D x cap n : Nat) : Nat :=
  if D = 0 then 64 * n
  else min (64 * n) (64 * (96 * cap * 65536 - (S * 65536 + x) * n) / (D * 65536))

/-- Budgets while they are granted, and the units left of each level. -/
structure Grants where
  b : SMap Nat
  u : List Int
  deriving DecidableEq, Repr

def Grants.give (lv : List CapLevel) (g : Grants) (t n : Nat) : Grants :=
  { b := g.b.set 0 t (g.b.get 0 t + n),
    u := (lv.zip g.u).map (fun p => if p.1.tiles.contains t then p.2 - n else p.2) }

/-- Every level that holds a tile has a unit left. -/
def Grants.spare (lv : List CapLevel) (g : Grants) (t : Nat) : Bool :=
  (lv.zip g.u).all (fun p => !p.1.tiles.contains t || decide (1 ≤ p.2))

/-- One round of a full pass. -/
def Grants.round (lv : List CapLevel) (want : Nat → Nat) (ts : List Nat) (g : Grants) : Grants :=
  ts.foldl (fun g t => if g.b.get 0 t < want t && g.spare lv t then g.give lv t 1 else g) g

/-- Rounds until one grants nothing: at most 64, since each round raises every tile that it can. -/
def Grants.fill (lv : List CapLevel) (want : Nat → Nat) (ts : List Nat) : Nat → Grants → Grants
  | 0, g => g
  | n + 1, g => Grants.fill lv want ts n (g.round lv want ts)

def Grants.floors (lv : List CapLevel) (floor : Nat → Nat) (ts : List Nat) (g : Grants) : Grants :=
  ts.foldl (fun g t => g.give lv t (floor t)) g

/-- What the grant is computed from. -/
structure GrantIn where
  lv    : List CapLevel
  units : List Nat
  /-- Latency-critical and best-effort tiles with a request, ascending. -/
  lc    : List Nat
  be    : List Nat
  announced : Nat → Bool
  floor : Nat → Nat
  want  : Nat → Nat

/-- After both floor passes. -/
def GrantIn.afterFloors (i : GrantIn) : Grants :=
  Grants.floors i.lv i.floor i.be (Grants.floors i.lv i.floor i.lc ⟨[], i.units.map (fun (n : Nat) => (n : Int))⟩)

/-- The four passes (R439): in each full pass announced tiles are served before the others (R438). -/
def GrantIn.run (i : GrantIn) : Grants :=
  [i.lc, i.be].foldl (fun g ts =>
    Grants.fill i.lv i.want (ts.filter (fun t => !i.announced t)) 64
      (Grants.fill i.lv i.want (ts.filter i.announced) 64 g)) i.afterFloors

def State.grantIn (s : State) (x : Nat) (storm : Nat → Bool) : GrantIn :=
  let lv := s.capLevels
  let act := (List.range 96).filter (fun t => (s.tile t).powerRequest != 0)
  { lv := lv,
    units := lv.map (fun l =>
      levelUnits (s.fuses.gradeS.getD s.grade 0) (s.fuses.gradeD.getD s.grade 0) x l.cap l.tiles.length),
    lc := act.filter s.powerLc, be := act.filter (fun t => !s.powerLc t),
    announced := fun t => (s.tile t).pwr.phaseValid, floor := s.floorOf, want := s.wantOf storm }

/-- Jobs with a hand on one of the tiles, ascending. -/
def State.handJobs (s : State) (ts : List Nat) : List Nat :=
  (s.sched.jobs.map (·.1)).filter (fun j => ts.any (fun t => (s.tile t).hand.isSome && (s.tile t).job == j))

/-- Reports once for each of the jobs. -/
def State.onceEach (s : State) (js : List Nat) (code : Code) (i : RecInfo) : State :=
  js.foldl (fun s j => s.reportOnce j code { i with job := j }) s

/-- Energy of the interval: what it adds is a free value, attributed as R447 says; a counter stops at its largest
value (R448; log entry 43). -/
def addEnergy (e : W64) (n : Nat) : W64 := BitVec.ofNat 64 (satAdd (2 ^ 64 - 1) e.toNat n)

def State.chargeJob (s : State) (j : Nat) : State :=
  match s.job j with
  | none => s
  | some x =>
    let (w, s) := s.draw
    let n := w.toNat % 2 ^ 32
    (s.modRing x.ring (fun r => { r with energy := addEnergy r.energy n })).modPower (fun p =>
      { p with energyPart := p.energyPart.set 0 x.func (addEnergy (p.energyPart.get 0 x.func) n) })

def State.chargePart (s : State) (f : Nat) : State :=
  if (s.funcDies f).isEmpty then s
  else
    let (w, s) := s.draw
    s.modPower (fun p =>
      { p with energyPart := p.energyPart.set 0 f (addEnergy (p.energyPart.get 0 f) (w.toNat % 2 ^ 32)) })

def State.charge (s : State) : State :=
  let s1 := (s.sched.jobs.map (·.1)).foldl State.chargeJob s
  let s2 := (List.range 64).foldl State.chargePart s1
  let (w, s3) := s2.draw
  s3.modPower (fun p => { p with energyUnattr := addEnergy p.energyUnattr (w.toNat % 2 ^ 32) })

/-- Droop storms (R443): one starts on a die whose trips of the interval exceed the limit, and lasts 16 intervals. -/
def State.stormTick (s : State) (d : Nat) : State :=
  let x := s.dealer d
  let hit := decide (s.power.live.droopLimit < x.trips)
  let s1 := s.setDealer d { x with trips := 0, storm := if hit then 16 else x.storm }
  if hit then
    s1.onceEach (s1.handJobs (((List.range 12).map (· + 12 * d)).filter (fun t => !s1.powerLc t))) Codes.droopStorm
      { cls := 2, idx := d }
  else s1

/-- The units per active tile against HOLD_DENSITY (R444). -/
def State.holdTick (s : State) (units : Nat) : State :=
  let n := ((List.range 96).filter (fun t => (s.tile t).hand.isSome)).length
  s.modPower (fun p =>
    { p with below := if n != 0 && decide (units < p.live.holdDensity * n) then p.below + 2048 else 0 })

/-- Every tile's budget. -/
def State.setBudgets (s : State) (b : SMap Nat) : State :=
  (List.range 96).foldl (fun s t => s.modTile t (fun x => { x with pwr := { x.pwr with budget := b.get 0 t } })) s

/-- S'(g) - S(g) in units of 2^-16 W: the metered mean of the interval less the model's estimate, a free value (R439). -/
def State.excess (s : State) : Nat × State :=
  let (w, s) := s.draw
  let p := s.power
  let pm := if p.samples = 0 then p.watt * 65536 else p.sumW * 65536 / p.samples
  (pm - w.toNat % 2 ^ 32, s)

/-- Budgets are granted; floors that exceed a level, and units per tile below HOLD_DENSITY, are noted (R439, R444). -/
def State.grant (s : State) (i : GrantIn) : State :=
  let s1 := (i.lv.zip i.afterFloors.u).foldl (fun s q =>
    if q.2 < 0 then s.onceEach (s.handJobs q.1.tiles) Codes.pwrFloorOver {} else s) s
  let s2 := s1.holdTick (i.units.headD 0)
  if s2.power.powerFail || s2.power.tripped then s2.setBudgets [] else s2.setBudgets i.run.b

/-- One of a storm's intervals has passed. -/
def State.passStorms (s : State) : State :=
  (List.range 8).foldl (fun s d => s.modDealer d (fun y => { y with storm := y.storm - 1 })) s

/-- The end of a control interval (R430). -/
def controlInterval (r : Readings) (s : State) : State :=
  let s := (List.range 8).foldl State.stormTick ((s.modPower (fun p => { p with live := p.cfg })).sense r)
  let (x, s1) := s.excess
  let s2 := (s1.grant (s1.grantIn x (fun d => (s.dealer d).storm != 0))).passStorms
  (s2.modPower (fun p => { p with sumW := 0, samples := 0 })).charge

def execControlInterval (r : Readings) (s : State) : Host.Outcome State Fault Refusal := .next (controlInterval r s)

/-- Effective budget of a tile (R442, R443, R445, R446): its grant, capped at 16 under the comparator, under its ramp's
step `c`, and 0 while suppressed or while the input fails. -/
def State.effBudget (s : State) (t c : Nat) : Nat :=
  let x := (s.tile t).pwr
  let b := if s.power.ceiling then min 16 x.budget else x.budget
  let b := if x.ramp.isSome then min b (16 + 48 * c / max 4500 s.power.live.rampLen) else b
  if x.suppressed || s.power.powerFail || s.power.tripped then 0 else b

/-! Barrier waves, ramps and droop (R441 to R443). -/

/-- Waves of a release. -/
def PowerCfg.waveCount (c : PowerCfg) : Nat :=
  match c.waves with
  | 0 => 8
  | 1 => 16
  | _ => 32

/-- Wave `w` of a job is released: its held tiles go on, each under a new ramp. -/
def waveRelease (j w : Nat) (s : State) : State :=
  (s.jobTiles j).foldl (fun s t =>
    if (s.tile t).run == .held && t % s.power.live.waveCount == w then
      s.modTile t (fun x => ({ x with run := .running, pwr := { x.pwr with ramp := some 0 } } : TileSt).advance)
    else s) s

def execBarrierWaveRelease (j w : Nat) (s : State) : Host.Outcome State Fault Refusal := .next (waveRelease j w s)

def execRampEnd (t : Tile) (s : State) : Host.Outcome State Fault Refusal :=
  .next (s.modTile t (fun x => { x with pwr := { x.pwr with ramp := none } }))

def droopTrip (t : Nat) (s : State) : State :=
  (s.modTile t (fun x => { x with pwr := { x.pwr with suppressed := true, droops := satAdd 65535 x.pwr.droops 1 } })).modDealer
    (t / 12) (fun d => { d with trips := d.trips + 1 })

def execDroopTrip (t : Tile) (s : State) : Host.Outcome State Fault Refusal := .next (droopTrip t s)

def execDroopSuppressionEnd (t : Tile) (s : State) : Host.Outcome State Fault Refusal :=
  .next (s.modTile t (fun x => { x with pwr := { x.pwr with suppressed := false } }))

/-! Holding the grade (R444). -/

def gradeUnholdable (s : State) : State :=
  let js := (s.handJobs (List.range 96)).filter (fun j => match s.job j with
    | some x => !x.logged.contains Codes.gradeUnholdable.toNat
    | none => false)
  if s.power.live.holdWindow.toNat ≤ s.power.below ∧ !js.isEmpty then
    (s.onceEach js Codes.gradeUnholdable {}).modPower (fun p => { p with demote := true, demotedAt := s.grade })
  else s

def execGradeUnholdable (s : State) : Host.Outcome State Fault Refusal := .next (gradeUnholdable s)

def execDemoteClear (who : Iface) (s : State) : Host.Outcome State Fault Refusal :=
  .next (s.privileged who (fun s => s.modPower (fun p => { p with demote := false })))

/-! Hardware limits and the input (R311, R445, R446). -/

/-- Every live job faults with a code (R424). -/
def State.faultAll (s : State) (code : Code) : State :=
  (s.sched.jobs.map (·.1)).foldl (fun s j => s.faultJob j code) s

def comparatorTrip (s : State) : State :=
  if s.power.ceiling then s else (s.modPower (fun p => { p with ceiling := true })).report Codes.pwrCeiling {}

def execComparatorTrip (s : State) : Host.Outcome State Fault Refusal := .next (comparatorTrip s)

/-- The cap of 16 ends and budgets return through the ramp. -/
def comparatorRelease (s : State) : State :=
  if s.power.ceiling then
    (List.range 96).foldl (fun s t =>
      s.modTile t (fun x => if x.hand.isSome then { x with pwr := { x.pwr with ramp := some 0 } } else x))
      (s.modPower (fun p => { p with ceiling := false }))
  else s

def execComparatorRelease (s : State) : Host.Outcome State Fault Refusal := .next (comparatorRelease s)

/-- A tile loses power: its hand stops. -/
def TileSt.powerOff (x : TileSt) : TileSt :=
  { x.release with run := if x.hand.isSome then .faulted else .idle, hand := x.hand,
                   pwr := { x.pwr.stop with budget := 0 } }

/-- Bytes of a resident page become free values. -/
def State.losePage (s : State) (p : Nat) : State :=
  match s.page p with
  | some x =>
    if x.frame.isSome then
      let k := s.freeCtr
      ({ s with freeCtr := k + 1 }).modMem (fun m =>
        { m with bytes := m.bytes.setRange 0 (p * size2MiB) ((List.range size2MiB).map (Config.freeByte k)) })
    else s
  | none => s

/-- An analog trip removes power from every compute die and stack, and every job faults (R445). -/
def analogTrip (s : State) : State :=
  if s.power.tripped then s
  else
    let s1 := (s.report Codes.thermalTrip {}).faultAll Codes.thermalTrip
    let s2 := (List.range 96).foldl (fun s t => s.modTile t TileSt.powerOff) s1
    let s3 := (s2.mem.pages.map (·.1)).foldl State.losePage s2
    s3.modPower (fun p => { p with tripped := true })

def execAnalogThermalTrip (s : State) : Host.Outcome State Fault Refusal := .next (analogTrip s)

/-- Input below 42.0 V (R311, R446): budgets 0, no new flash write, the journal programmed, and every job faults. -/
def State.inputFails (s : State) : State :=
  let s1 := (s.setBudgets []).modPower (fun p => { p with powerFail := true })
  let s2 := s1.modFtl (fun f => { (if f.readOnly then f else f.programJournal) with frozen := true })
  (s2.report Codes.powerFail {}).faultAll Codes.powerFail

/-- One sample of the input meter (R429, R446). -/
def meterSample (mv cur w : Nat) (s : State) : State :=
  let mv := s.trimmed mv
  let w := s.trimmed w
  let p := s.power
  let good := if mv < 44000 then 0 else if p.volt < 44000 then 0 else p.good + 1024
  let s1 := s.modPower (fun p =>
    { p with volt := mv, current := s.trimmed cur, watt := w, sumW := p.sumW + w, samples := p.samples + 1,
             good := good, overVolt := decide (58000 < mv) })
  let s2 := if 58000 < mv ∧ p.overVolt = false then s1.report Codes.inputRange {} else s1
  if mv < 42000 ∧ p.powerFail = false then s2.inputFails else s2

def execMeterSample (mv cur w : Nat) (s : State) : Host.Outcome State Fault Refusal := .next (meterSample mv cur w s)

/-- New jobs are accepted again, and flash writes with them, once the input has been good for 1 ms (R446). -/
def powerRecovery (s : State) : State :=
  if s.power.powerFail ∧ 2000000 ≤ s.power.good then
    (s.modPower (fun p => { p with powerFail := false })).modFtl (fun f => { f with frozen := false })
  else s

def execPowerRecovery (s : State) : Host.Outcome State Fault Refusal := .next (powerRecovery s)

/-- Recalibration (R448): the ratio of the window's energies is a free value, with 14 fraction bits, clamped to 0.5 to 2. -/
def recalibrate (s : State) : State :=
  let (w, s) := s.draw
  let raw := w.toNat % 2 ^ 32
  let k := clampNat 0x2000 0x8000 raw
  let s1 := s.modPower (fun p => { p with calK := k })
  if k = raw then s1 else s1.report Codes.pwrCalibration {}

def execRecalibration (s : State) : Host.Outcome State Fault Refusal := .next (recalibrate s)

end Sys2Proof.Machine
end

