-- ==== Sys2Proof/Machine/Placement.lean ====
section
/-!
DEFINITION. Machine/Placement.lean: doorbells and rings, the job descriptor, placement, save objects, and the save and
restore of a job (R397 to R400, R404, R405, R409 to R419).
-/

namespace Sys2Proof.Machine

/-! Rings (R397 to R399). -/

/-- A function owns a ring. -/
def State.ringOwned (s : State) (f r : Nat) : Bool := (s.ring r).ownerValid && (s.ring r).func == f

/-- A ring-level code: it stands in ERROR and in the log. -/
def State.ringError (s : State) (r : Nat) (code : Code) : State :=
  (s.modRing r (fun x => { x with error := code })).report code { func := (s.ring r).func }

def doorbell (f r : Nat) (tail head : Option W32) (s : State) : State :=
  let x := s.ring r
  if !s.ringOwned f r then s.report Codes.schedNotOwner { func := f }
  else if !x.active || x.closing || x.stopped then s
  else
    let x1 := { x with sqTail := tail.getD x.sqTail, cqHead := head.getD x.cqHead }
    if x1 = x then s
    else if x.sqSize < cntDiff x1.sqTail x1.sqHead ∨ x.cqSize < cntDiff x1.cqTail x1.cqHead then
      (s.setRing r { x1 with stopped := true }).ringError r Codes.schedRingOverflow
    else s.setRing r x1

def execDoorbell (f : Func) (r : Ring) (sqTail cqHead : Option W32) (s : State) : Host.Outcome State Fault Refusal :=
  .next (doorbell f r sqTail cqHead s)

/-- Vectors of a function's MSI-X table (Table 1 of 13). -/
def vectorsOf (f : Nat) : Nat := if f = 0 then 2048 else 64

/-- Why the conductor refuses a ring (R398). -/
def State.ringBad (s : State) (r : Nat) : Bool :=
  let x := s.ring r
  !x.ownerValid || x.reqGen != 2 || decide (10 < bitsOf x.cfg.toNat 3 0) || decide (10 < bitsOf x.cfg.toNat 7 4)
    || x.vector == 0 || decide (vectorsOf x.func ≤ x.vector)
    || (ringLoc x.sq && !s.pinnedFor (.func x.func) (ringBase x.sq, 64 * x.sqSize))
    || (ringLoc x.cq && !s.pinnedFor (.func x.func) (ringBase x.cq, 32 * x.cqSize))

/-- The conductor answers ENABLE = 1. -/
def State.answerRing (s : State) (r : Nat) : State :=
  if s.ringBad r then s.ringError r Codes.schedRingConfig
  else
    s.modRing r (fun x =>
      { x with active := true, stopped := false, negGen := 2, negMinor := min x.reqMinor 0, cqTail := 0, sqHead := 0, sqTail := 0,
               cqHead := 0, submitted := 0, completed := 0, preempted := 0, faulted := 0, owed := 0, closing := false,
               held := false })

/-- Only a ring's owner reaches its registers, but for the physical function through BAR2 (R397). -/
def State.onRing (s : State) (f r : Nat) (go : State) : State :=
  if f = 0 || s.ringOwned f r then go else s.report Codes.schedNotOwner { func := f }

def execRingEnable (f : Func) (r : Ring) (s : State) : Host.Outcome State Fault Refusal :=
  .next (s.onRing f r (
    let s1 := s.modRing r (fun x => { x with enable := true })
    if (s.ring r).closing then s1.modRing r (fun x => { x with held := true })
    else if (s.ring r).active then s1
    else s1.answerRing r))

/-- Jobs live on a ring, ascending. -/
def State.ringJobs (s : State) (r : Nat) : List Nat := (s.sched.jobs.map (·.1)).filter (fun j => s.liveOn r j)

/-- A ring whose jobs have all ended is inactive, and a held ENABLE is answered (R398). -/
def State.settleRing (s : State) (r : Nat) : State :=
  let x := s.ring r
  if x.closing && (s.ringJobs r).isEmpty then
    let s1 := s.setRing r { x with active := false, closing := false, held := false }
    if x.held then s1.answerRing r else s1
  else s

/-- A job is cancelled (R424). -/
def State.cancelJob (s : State) (j : Nat) : State := s.jobFaults j Codes.schedCancelled {}

/-- ENABLE = 0. -/
def State.disableRing (s : State) (r : Nat) : State :=
  let x := s.ring r
  let s1 := s.setRing r { x with enable := false, held := false, closing := x.active }
  let js := (s.ringJobs r).filter (fun j => match s.job j with
    | some y => y.fault.isNone
    | none => false)
  if x.active && !x.closing then (js.foldl State.cancelJob s1).settleRing r else s1

def execRingDisable (f : Func) (r : Ring) (s : State) : Host.Outcome State Fault Refusal :=
  .next (s.onRing f r (s.disableRing r))

/-! The job descriptor (R404, R405). -/

def jobDescOf (bs : List Byte) : JobDesc :=
  let f := fieldLe bs
  let fl := f 3 1
  { cls := f 2 1, stop := bitOf fl 0, twin := bitOf fl 1, dies := f 4 1, tpd := f 5 1, replayRate := f 6 1, ctxMask := f 7 1,
    group := BitVec.ofNat 64 (f 8 8), wcet := (List.range 5).map (fun g => f (0x10 + 4 * g) 4), streams := f 0x28 8,
    seed := BitVec.ofNat 64 (f 0x30 8), precTable := f 0x38 8, precLog := f 0x40 8, interleave := f 0x48 8,
    stashLimit := f 0x50 8, colPlan := f 0x58 8, kvPool := f 0x60 8, kvPages := f 0x68 4, seqCount := f 0x6C 4,
    kvFree := f 0x70 8, seqTable := f 0x78 8 }

/-- An address of the descriptor is aligned and lies in the partition; 0 where the structure is left out. -/
def State.jobAddrBad (s : State) (f a n : Nat) : Bool := a % 256 != 0 || (s.checkRange (.func f) a n).isSome

/-- SCHED_DESC (R405). -/
def State.jobDescBad (s : State) (f a : Nat) (bs : List Byte) (d : JobDesc) : Bool :=
  a % 256 != 0 || !s.pinnedFor (.func f) (a, 256) || !hdrOk (fieldLe bs 0 2) 0x98 || decide (1 < d.cls)
    || decide (4 ≤ fieldLe bs 3 1) || !decide (1 ≤ d.dies ∧ d.dies ≤ 8) || !decide (1 ≤ d.tpd ∧ d.tpd ≤ 12)
    || decide (64 < d.replayRate) || decide (16 ≤ d.ctxMask) || fieldLe bs 0x24 4 != 0 || fieldLe bs 0x80 128 != 0
    || decide (65536 < d.seqCount) || (d.cls == 0 && d.replayRate != 0)
    || s.jobAddrBad f d.streams (16 * d.dies)
    || [d.precTable, d.precLog, d.interleave, d.colPlan, d.kvPool, d.kvFree, d.seqTable].any (fun x =>
        x != 0 && s.jobAddrBad f x 1)

/-- Entry `k` of STREAMS: a deal stream's address and record count (R411). -/
def State.streamEnt (s : State) (d : JobDesc) (k : Nat) : Nat × Nat :=
  (s.readLe (d.streams + 16 * k) 8, s.readLe (d.streams + 16 * k + 8) 8)

/-! Placement (R409 to R412). -/

/-- A tile under test (R486). -/
def State.underTest (s : State) (t : Nat) : Bool := s.boot.queue.any (fun q => q.running && q.op == 1 && q.target == t)

/-- Places that admitted latency-critical jobs wait for. -/
def State.reserved (s : State) : List (Nat × DiePlace) :=
  s.sched.jobs.flatMap (fun p => match p.2 with
    | some x => if x.phase == .waiting then x.places.map (fun pl => (p.1, pl)) else []
    | none => [])

def State.tileReserved (s : State) (t : Nat) : Bool :=
  s.reserved.any (fun q => q.2.die == t / 12 && bitOf q.2.mask (t % 12))

/-- A free tile. -/
def State.tileFree (s : State) (t : Nat) : Bool := (s.tileJob t).isNone && !s.underTest t && !s.tileReserved t

/-- Job that a context of a die is assigned to. -/
def State.ctxJob (s : State) (d c : Nat) : Option Nat :=
  let o := (s.dealer d).owner.get ⟨false, 0⟩ c
  if o.valid then some ((s.dealer d).queues.get .init o.queue).job else none

/-- A context of a die waits for an admitted job. -/
def State.ctxReserved (s : State) (d c : Nat) : Bool :=
  s.reserved.any (fun q => q.2.die == d && (match s.job q.1 with
    | some x => bitOf x.desc.ctxMask c
    | none => false))

/-- Dies that placement may take for a function, ascending: not one that is held out or resets, nor one whose four stacks are
absent (R290, R409, R478, R480). -/
def State.placeDies (s : State) (f : Nat) : List Nat :=
  (s.funcDies f).filter (fun d => !bitOf s.boot.bistFail (5 + d) && !s.boot.resetting.contains (5 + d)
    && (List.range 4).any (fun i => (s.stack (4 * d + i)).goodCount != 0))

/-- A die's place: its `p` lowest available tiles, where every context that the job needs is unassigned, or goes with a tile
taken. -/
def State.placeOn (s : State) (x : JobDesc) (avail : Nat → Bool) (d : Nat) : Option DiePlace :=
  let ts := ((List.range 12).filter (fun i => avail (12 * d + i))).take x.tpd
  let holders := ts.filterMap (fun i => s.tileJob (12 * d + i))
  let ctxOk (c : Nat) : Bool := !s.ctxReserved d c && (match s.ctxJob d c with
    | none => true
    | some j => holders.contains j)
  if ts.length = x.tpd ∧ (maskBits x.ctxMask 4).all ctxOk then some ⟨d, (ts.map (2 ^ ·)).sum, none⟩ else none

/-- The walk of R409. -/
def State.walk (s : State) (f : Nat) (x : JobDesc) (avail : Nat → Bool) : Option (List DiePlace) :=
  let ps := ((s.placeDies f).filterMap (s.placeOn x avail)).take x.dies
  if ps.length = x.dies then some ps else none

/-- A best-effort job holds a tile that a latency-critical one may take: not that of the ante slot (R406, R422). -/
def State.preemptible (s : State) (t : Nat) : Bool :=
  match s.tileJob t with
  | some j => !s.isLc j && j != s.sched.ante
  | none => false

/-- Available in the second walk: a tile under test counts as free (R486). -/
def State.tileKitty (s : State) (t : Nat) : Bool :=
  ((s.tileJob t).isNone || s.preemptible t) && !s.tileReserved t

/-- Tiles that places name. -/
def placesTiles (ps : List DiePlace) : List Nat := ps.flatMap (fun p => (maskBits p.mask 12).map (fun i => 12 * p.die + i))

/-- The two walks of a latency-critical job over tiles that are not kept for the ante-slot job. -/
def State.placeLc (s : State) (f : Nat) (x : JobDesc) (kept : List Nat) : Option (List DiePlace) :=
  let ok (t : Nat) : Bool := !kept.contains t
  match s.walk f x (fun t => ok t && (s.tileFree t || (s.underTest t && (s.tileJob t).isNone && !s.tileReserved t))) with
  | some ps => some ps
  | none => s.walk f x (fun t => ok t && s.tileKitty t)

/-- Where the ante-slot job could be placed first while it waits: the tiles kept for it (R422); none where it could not. -/
def State.anteKeeps (s : State) : Option (List Nat) :=
  match s.job s.sched.ante with
  | none => some []
  | some x =>
    if x.phase != .waiting && x.phase != .saved then some []
    else (s.walk x.func x.desc s.tileKitty).map placesTiles

/-- Range pages of a save object for `p` tiles (R410). -/
def savePages (p : Nat) : Nat := ceilDiv (262144 + p * 27300864) 2097152

/-- Drops save objects. -/
def State.dropSaves (s : State) (ps : List DiePlace) : State :=
  ps.foldl (fun s p =>
    match p.save with
    | some a =>
      match s.object (a / size2MiB) with
      | some o => s.dropObject (a / size2MiB) o
      | none => s
    | none => s) s

/-- Outcome of allocating a job's save objects. -/
inductive SaveRes where
  | ok (ps : List DiePlace) (s : State)
  | full (s : State)
  | wait (s : State)
  deriving DecidableEq, Repr

/-- Allocates a save object on each die of the places (R410); what has been allocated is dropped where one fails. -/
def State.allocSaves (j f n : Nat) : List DiePlace → List DiePlace → State → SaveRes
  | done, [], s => .ok done s
  | done, p :: ps, s =>
    match s.allocObject { pages := n, attr := 0, place := 2, arg := p.die, name := 0, owner := .job j, func := f,
                          freeing := none, syncing := none, removeName := false } with
    | .done b s1 => State.allocSaves j f n (done ++ [{ p with save := some (b * size2MiB) }]) ps s1
    | .fail _ => .full (s.dropSaves done)
    | .wait s1 => .wait (s1.dropSaves done)

/-- TILE_MASK of the records of a stream (R78, R410): bits [15:12] are kept. -/
def State.maskRecords (s : State) (j a n mask : Nat) : State :=
  (List.range n).foldl (fun s i =>
    let r := a + 128 * i + 4
    if (s.checkRange (.job j) r 2).isSome then s
    else s.writeLe r 2 (s.readLe r 2 / 4096 * 4096 + mask)) s

/-- A deal queue of a die that no job uses: a die holds at most 12 jobs (R76). -/
def DealerSt.freeQueue (d : DealerSt) : Nat := ((List.range 12).find? (fun q => (d.queues.get .init q).job == 0)).getD 0

/-- Contexts of a die go to the job in a deal queue (R194, R410). -/
def State.assignCtx (s : State) (d q mask : Nat) : State :=
  s.modDealer d (fun y => { y with owner := (maskBits mask 4).foldl (fun m c => m.set ⟨false, 0⟩ c ⟨true, q⟩) y.owner })

/-- A job takes its tiles: deal streams with their TILE_MASK, deal queues and contexts (R410, R411). A tile under test is
given up (R486). -/
def State.takeTiles (s : State) (j : Nat) (x : JobSt) (ps : List DiePlace) : State :=
  let s := s.setJob j (some { x with phase := .running, places := ps })
  (ps.zipIdx).foldl (fun s q =>
    let e := s.streamEnt x.desc q.2
    let n := (s.dealer q.1.die).freeQueue
    let s := s.maskRecords j e.1 e.2 q.1.mask
    let s := s.setQueue q.1.die n
      { DealQueue.init with job := j, addr := e.1, count := if x.desc.interleave = 0 then e.2 else 0, mask := q.1.mask }
    s.assignCtx q.1.die n x.desc.ctxMask) s

/-- Tests on tiles that a latency-critical job takes are abandoned: the request returns to the head of the queue (R486). -/
def State.abortTests (s : State) (ts : List Nat) : State :=
  let hit (q : TestReq) : Bool := q.running && q.op == 1 && ts.contains q.target
  let qs := s.boot.queue.filter hit
  let s1 := { s with boot := { s.boot with
    queue := qs.map (fun (q : TestReq) => { q with running := false }) ++ s.boot.queue.filter (fun q => !hit q) } }
  qs.foldl (fun s q =>
    s.report Codes.testAborted { unit := q.target % 12, cls := 2, idx := q.target / 12,
                                 data := natLe 1 q.ticket ++ natLe 1 q.op ++ natLe 1 q.target ++ natLe 1 0 }) s1

/-- An interleaved job's stash layout is checked at its start (R226). -/
def State.startChecks (s : State) (j : Nat) : State :=
  match s.job j with
  | some x => if x.desc.interleave ≠ 0 && s.stashLayoutBad j then s.jobFaults j Codes.stashLayout {} else s
  | none => s

/-! Save areas (R418). -/

/-- Nonzero bytes of words of `n` bytes, from `base`. -/
def packWords (base n : Nat) (xs : SMap Nat) : SMap Byte :=
  xs.flatMap (fun q => ((natLe n q.2).zipIdx).filterMap (fun b => if b.1 = 0 then none else some (base + n * q.1 + b.2, b.1)))

/-- Nonzero words of `n` bytes. -/
def unpackWords (n : Nat) (m : SMap Byte) : SMap Nat :=
  ((m.map (fun q => q.1 / n)).dedup).map (fun k => (k, leNat (m.getRange 0 (n * k) n)))

/-- Replaces `n` bytes of the unified range by a sparse image. -/
def State.pasteMem (s : State) (a n : Nat) (m : SMap Byte) : State :=
  ({ s with mem := { s.mem with bytes := s.mem.bytes.paste a n m } } : State).touchPages (pagesOf a n)

/-- Bytes of the loop stack: a 16-B entry has START, END and the passes left (log entry 50). -/
def loopWords (ls : List LoopEnt) : SMap Nat :=
  (ls.reverse.zipIdx).map (fun q => (q.2, q.1.start + 2 ^ 32 * q.1.stop + 2 ^ 64 * q.1.left))

def loopsOf (m : SMap Nat) : List LoopEnt :=
  ((m.filter (fun q => q.2 != 0)).map (fun q => (⟨q.2 % 2 ^ 32, q.2 / 2 ^ 32 % 2 ^ 32, q.2 / 2 ^ 64⟩ : LoopEnt))).reverse

/-- A tile slot: scratchpad, accumulators and state. -/
def TileSt.slotImage (x : TileSt) : SMap Byte :=
  let st := 0x1A00000
  x.spad ++ packWords 0x1800000 4 (x.acc.map (fun q => (q.1, q.2.toNat)))
    ++ packWords st 8 (x.s.map (fun q => (q.1, q.2.toNat)))
    ++ packWords (st + 256) 4 (x.v.map (fun q => (q.1, q.2.toNat)))
    ++ packWords (st + 33024) 64 (x.p.map (fun q => (q.1, q.2.toNat)))
    ++ packWords (st + 33536) 64 (x.d.map (fun q => (q.1, q.2.toNat)))
    ++ packWords (st + 37632) 4 (x.e.map (fun q => (q.1, q.2.toNat)))
    ++ packWords (st + 37696) 16 (loopWords x.loops)
    ++ packWords (st + 37760) 8 [(0, x.pc)]

/-- Loads a tile slot. -/
def TileSt.loadSlot (x : TileSt) (m : SMap Byte) : TileSt :=
  let st := 0x1A00000
  let words (w base n k : Nat) : SMap Nat := (unpackWords n (m.slice (st + base) (n * k))).filter (fun q => q.2 % 2 ^ w != 0)
  { x with
    spad := m.slice 0 spadSize,
    acc := (unpackWords 4 (m.slice 0x1800000 2097152)).map (fun q => (q.1, BitVec.ofNat 32 q.2)),
    s := (words 64 0 8 32).map (fun q => (q.1, BitVec.ofNat 64 q.2)),
    v := (words 32 256 4 8192).map (fun q => (q.1, BitVec.ofNat 32 q.2)),
    p := (words 512 33024 64 8).map (fun q => (q.1, BitVec.ofNat 512 q.2)),
    d := (words 512 33536 64 64).map (fun q => (q.1, BitVec.ofNat 512 q.2)),
    e := (words 32 37632 4 16).map (fun q => (q.1, BitVec.ofNat 32 q.2)),
    loops := loopsOf (unpackWords 16 (m.slice (st + 37696) 64)),
    pc := leNat (m.getRange 0 (st + 37760) 8) }

def slotBase (save i : Nat) : Nat := save + 0x40000 + 27300864 * i
def slotBytes : Nat := 27300864

/-- The 64-B header of a save object. -/
def saveHeader (state reason j mask cancelled preempts : Nat) : List Byte :=
  let ts := maskBits mask 12
  natLe 2 0x209C ++ natLe 1 state ++ natLe 1 reason ++ natLe 2 j ++ natLe 1 ts.length ++ natLe 1 0
    ++ (ts.map (BitVec.ofNat 8) ++ List.replicate (12 - ts.length) 0) ++ natLe 12 cancelled ++ natLe 4 (preempts % 2 ^ 32)
    ++ natLe 28 0

/-- A cancelled DMA record (R415). -/
def cancelRecord (x : TileSt) (d : DmaRec) : List Byte :=
  natLe 16 (x.ibuf.get 0 d.slot).toNat ++ natLe 8 d.so.toNat ++ natLe 8 d.sd.toNat ++ natLe 16 0
    ++ natLe 64 d.dst.toNat ++ natLe 64 d.src.toNat ++ natLe 64 d.par.toNat ++ natLe 16 0

/-- The Dealer record: index, MACRO_ID and bounds of the record in hand, its rule outputs, whose layout is open, the started
hands and the unit in progress (R99, R418). -/
def State.dealerRecord (s : State) (q : DealQueue) (unit : Nat) : List Byte × State :=
  let k := s.freeCtr
  let rule := (List.range 16).map (Config.freeByte k)
  match q.inHand with
  | none => (natLe 8 q.next ++ natLe 50 0, s)
  | some h =>
    (natLe 8 (q.next - 1) ++ natLe 4 (fieldLe h.plan.record 0x0C 4) ++ natLe 8 h.plan.m ++ natLe 8 h.plan.n ++ natLe 8 h.plan.k
      ++ rule ++ natLe 2 q.mask ++ natLe 4 unit, { s with freeCtr := k + 1 })

/-- Saves one die of a job (R414 step 4 and 5). -/
def State.saveDie (s : State) (j : Nat) (x : JobSt) (k : Nat) (p : DiePlace) : State :=
  match p.save, (s.dealer p.die).queueOf j with
  | some a, some q =>
    let ts := maskBits p.mask 12
    let waits (t : Nat) : List DmaRec := ((s.tile t).dmas.filter (·.waiting)).take 32
    let counts := ((ts.zipIdx).map (fun u => (waits (12 * p.die + u.1)).length * 256 ^ u.2)).sum
    let rec_ := s.dealerRecord (s.queue p.die q) x.train.unit
    let s1 := (rec_.2.writeMem a (saveHeader 2 x.reason j p.mask counts x.preempts)).writeMem (a + 0x100) rec_.1
    (ts.zipIdx).foldl (fun s u =>
      let y := s.tile (12 * p.die + u.1)
      let s := s.pasteMem (slotBase a u.2) slotBytes y.slotImage
      let s := s.writeMem (a + 0x10000 + 8192 * u.2) ((waits (12 * p.die + u.1)).flatMap (cancelRecord y))
      s.modJob j (fun x => { x with savedTiles := x.savedTiles ++
        [{ die := k, ordinal := u.2, ibuf := y.ibuf, units := y.units, ctx := y.ctx, run := y.run, hand := y.hand,
           dmas := waits (12 * p.die + u.1) }] }))
      (s1.modJob j (fun x => { x with savedQueues := x.savedQueues ++ [⟨k, s.queue p.die q⟩] }))
  | _, _ => s

/-- Releases a job's tiles, deal queues and contexts. -/
def State.releaseTiles (s : State) (j : Nat) (ps : List DiePlace) : State :=
  ps.foldl (fun s p =>
    let s := (maskBits p.mask 12).foldl (fun s i => (s.dropHolds (12 * p.die + i)).modTile (12 * p.die + i) TileSt.release) s
    match (s.dealer p.die).queueOf j with
    | some q =>
      s.modDealer p.die (fun y =>
        { y with queues := y.queues.set .init q .init,
                 owner := (List.range 4).foldl (fun m c =>
                   if (m.get ⟨false, 0⟩ c).queue = q ∧ (m.get ⟨false, 0⟩ c).valid then m.set ⟨false, 0⟩ c ⟨false, 0⟩ else m) y.owner })
    | none => s) s

/-! Restore (R419). -/

/-- The record of a plan takes the new TILE_MASK. -/
def GenPlan.remask (p : GenPlan) (mask : Nat) : GenPlan :=
  { p with record := p.record.take 4 ++ natLe 2 (fieldLe p.record 4 2 / 4096 * 4096 + mask) ++ p.record.drop 6 }

/-- Loads a saved tile: its counters of time and issue are not saved, and its summary counts start again (R69, R124). -/
def State.restoreTile (s : State) (t mask : Nat) (from_ : Nat) (v : SavedTile) : State :=
  let (w1, s) := s.draw
  let (w2, s) := s.draw
  let x := (s.tile t).loadSlot (s.mem.bytes.slice from_ slotBytes)
  let hand := v.hand.map (fun h => { h with gen := h.gen.map (fun g => g.remask mask) })
  let regs := match v.hand with
    | some h => { x.regs with thresh := h.thresh, rate := h.rate, seed := h.seed, phase := h.phase, sums := .zeros }
    | none => x.regs
  s.setTile t
    { x with ibuf := v.ibuf, units := v.units, ctx := v.ctx, hand := hand, regs := regs,
             run := if v.run = .stopped then .running else v.run,
             dmas := v.dmas.map (fun (d : DmaRec) => { d with waiting := false }), appends := [], busy := w1.toNat, issued := w2.toNat,
             pwr := if v.hand.isSome then { (x.pwr.start 0 none) with phaseValid := false, density := 0 } else x.pwr.stop }

/-- Re-takes the context holds of a tile from its bindings (R200, R419). -/
def State.retakeHolds (s : State) (t : Nat) : State :=
  (s.tile t).ctx.foldl (fun s q =>
    match bindSeq q.2.kl q.2.vl with
    | some b => s.takeHold t q.1 (some b)
    | none => s) s

/-- Restores a job on new places whose save objects stand. -/
def State.restoreJob (s : State) (j : Nat) (x : JobSt) (ps : List DiePlace) : State :=
  let old := x.places
  let s := s.takeTiles j { x with savedTiles := [], savedQueues := [] } ps
  let s := x.savedQueues.foldl (fun s v =>
    match ps[v.die]? with
    | none => s
    | some p =>
      match (s.dealer p.die).queueOf j with
      | some q => s.setQueue p.die q
          { v.queue with mask := p.mask, inHand := v.queue.inHand.map (fun h => { h with plan := h.plan.remask p.mask }) }
      | none => s) s
  let s := x.savedTiles.foldl (fun s v =>
    match ps[v.die]?, old[v.die]? with
    | some p, some o =>
      match (maskBits p.mask 12)[v.ordinal]?, o.save with
      | some i, some a => (s.restoreTile (12 * p.die + i) p.mask (slotBase a v.ordinal) v).retakeHolds (12 * p.die + i)
      | _, _ => s
    | _, _ => s) s
  s.dropSaves old

/-! Placing (R410, R412). -/

/-- A saved job may run again: what blocked a swapped one has cleared (R421). -/
def State.runnable (s : State) (j : Nat) (x : JobSt) : Bool :=
  x.fault.isNone && (x.reason != 2 || (!x.heldBack && x.train.phase != .mapping && !s.mem.waiters.any (fun w => w.job == j)))

/-- The order of R412. -/
def State.waitList (s : State) : List Nat :=
  let js := s.sched.jobs.filterMap (fun p => match p.2 with
    | some x =>
      if x.desc.cls == 0 && (x.phase == .waiting || (x.phase == .saved && s.runnable p.1 x)) && x.fault.isNone then some (p.1, x)
      else none
    | none => none)
  let ante := js.filter (fun q => q.1 == s.sched.ante)
  let rest := js.filter (fun q => q.1 != s.sched.ante)
  let key (q : Nat × JobSt) : Nat := q.2.waitOrder * 4096 + q.1
  (ante ++ sortKey key (rest.filter (fun q => q.2.phase == .saved)) ++ sortKey key (rest.filter (fun q => q.2.phase == .waiting))).map
    (·.1)

/-- Tries to place one waiting job. -/
def State.tryPlace (s : State) (j : Nat) : Option State × State :=
  match s.job j with
  | none => (none, s)
  | some x =>
    if x.grade ≠ s.grade ∨ s.power.target.isSome then (none, s)
    else
      match s.walk x.func x.desc s.tileFree with
      | none => (none, s)
      | some ps =>
        match State.allocSaves j x.func (savePages x.desc.tpd) [] ps s with
        | .ok qs s1 =>
          (some (if x.phase = .saved then s1.restoreJob j x qs else (s1.takeTiles j x qs).startChecks j), s1)
        | .full s1 => (none, s1.reportOnce j Codes.schedSaveSpace { job := j })
        | .wait s1 => (none, s1)

/-- The first job of a list that can be placed. -/
def State.placeFirst : List Nat → State → Bool × State
  | [], s => (false, s)
  | j :: js, s =>
    match s.tryPlace j with
    | (some s1, _) => (true, s1)
    | (none, s1) => State.placeFirst js s1

/-- A module that holds no tiles changes to the grade of the first job that waits for another one (R435). -/
def State.wantGrade (s : State) : State :=
  if s.holdsTiles || s.power.target.isSome then s
  else
    match s.waitList.findSome? (fun j => (s.job j).bind (fun x => if x.grade ≠ s.grade then some x.grade else none)) with
    | some g => s.modPower (fun p => { p with target := some g })
    | none => s

/-- Places waiting jobs until none fits (R412). -/
def State.placeAll : Nat → State → State
  | 0, s => s
  | n + 1, s =>
    match State.placeFirst s.waitList s with
    | (true, s1) => State.placeAll n s1
    | (false, s1) => s1.wantGrade

/-- Admitted latency-critical jobs start once their tiles are free (R414 step 5). -/
def State.startReady (s : State) : State :=
  let js := s.sched.jobs.filterMap (fun p => match p.2 with
    | some x => if x.desc.cls == 1 && x.phase == .waiting && x.fault.isNone then some (x.admitted, p.1) else none
    | none => none)
  ((sortKey Prod.fst js).map (·.2)).foldl (fun s j =>
    match s.job j with
    | some x =>
      if x.grade = s.grade && s.power.target.isNone && (placesTiles x.places).all (fun t => (s.tileJob t).isNone) then
        ((s.takeTiles j x x.places).startChecks j).abortTests (placesTiles x.places)
      else s
    | none => s) s

/-- R412 applied: tiles have become free, or a job has entered the order. -/
def State.reapply (s : State) : State :=
  let s1 := s.startReady
  State.placeAll (s1.sched.jobs.length + 1) s1

/-! The start of a pre-emption (R413, R414, R421). -/

/-- A tile reaches an instruction boundary: a WAIT or BARRIER in progress is abandoned, and the ANTE phase is cancelled
(R40). -/
def TileSt.boundary (x : TileSt) : TileSt :=
  let x := { x with pwr := { x.pwr with phaseValid := false, density := 0 } }
  match x.run with
  | .running => { x with run := .stopped }
  | .waitEvt _ _ => { x with run := .stopped }
  | .waitBar _ => { x with run := .stopped }
  | .held => { x.advance with run := .stopped }
  | _ => x

/-- A job's save begins. -/
def State.startSave (s : State) (reason order j : Nat) : State :=
  match s.job j with
  | none => s
  | some x =>
    let x1 := { x with phase := .saving, reason := reason, preempts := x.preempts + 1, waitOrder := order }
    let s1 := (s.setJob j (some x1)).modRing x.ring (fun r => { r with preempted := BitVec.ofNat 32 (satAdd (2 ^ 32 - 1) r.preempted.toNat 1) })
    let s2 := x.tiles.foldl (fun s t => s.modTile t TileSt.boundary) s1
    x.places.foldl (fun s p =>
      match p.save with
      | some a => s.writeMem a (saveHeader 1 reason j p.mask 0 x1.preempts)
      | none => s) s2

/-- The pre-emption of several jobs at once. -/
def State.preemptJobs (s : State) (reason : Nat) (js : List Nat) : State :=
  let n := s.sched.waitCtr
  js.foldl (fun s j => s.startSave reason n j) { s with sched := { s.sched with waitCtr := n + 1 } }

end Sys2Proof.Machine
end

