-- ==== Sys2Proof/Machine/Sched.lean ====
section
/-!
DEFINITION. Machine/Sched.lean: admission, pre-emption, swapping, ageing, the end of a job, partitions, the reset of a
virtual function and the change of grade (R401 to R425, R435, R466, R473).
-/

namespace Sys2Proof.Machine

/-! Admission (R405, R407, R422, R435). -/

/-- The grade agreed for a job: the highest that every member of its group offers (R435). -/
def State.agreedGrade (s : State) (v : Vote) : Except Code Nat :=
  match v with
  | .aborted c => .error c
  | .sums others xs =>
    match (s.offered.filter (fun g => xs.getD g 0 == others)).getLast? with
    | some g => .ok g
    | none => .error Codes.gradeNoCommon

def JobSt.new (r : Nat) (e : List Byte) (f : Nat) (d : JobDesc) (admitted order g : Nat) : JobSt :=
  { ring := r, tag := entryTag e, func := f, desc := d, phase := .waiting, places := [], preempts := 0, fault := none, age := 0,
    admitted := admitted, waitOrder := order, logged := [], savedTiles := [], savedQueues := [], reason := 0, seqs := [],
    stepNo := 0, train := .init, heldBack := false, grade := g }

/-- Counts one job of a ring. -/
def count32 (x : W32) : W32 := BitVec.ofNat 32 (satAdd (2 ^ 32 - 1) x.toNat 1)

/-- A job is refused: its number and the code go into its record and its completion, and it counts as faulted (R405, R425). -/
def State.refuseJob (s : State) (r j : Nat) (x : JobSt) (code : Code) : State :=
  let s1 := (s.setJob j (some x)).report code { job := j, jobFaults := true }
  let s2 := (s1.setJob j none).modRing r (fun y => { y with faulted := count32 y.faulted })
  s2.complete r { kind := 0x90, status := code, job := j, tag := x.tag }

/-- Victims of a placement: best-effort jobs that hold a chosen tile, ascending. -/
def State.victimJobs (s : State) (ps : List DiePlace) : List Nat :=
  (s.sched.jobs.map (·.1)).filter (fun j => (placesTiles ps).any (fun t => s.tileJob t == some j))

/-- An admitted latency-critical job: its places are kept for it, and their holders pre-empted. -/
def State.admitLc (s : State) (j : Nat) (x : JobSt) (ps : List DiePlace) : State :=
  let vs := (s.victimJobs ps).filter (fun v => match s.job v with
    | some y => y.phase == .running
    | none => false)
  let s1 := s.setJob j (some { x with places := ps })
  let s2 := if vs.isEmpty then s1 else s1.preemptJobs 1 vs
  s2.reapply

/-- The codes with which a job is refused before its grade is agreed. -/
def State.jobCode (s : State) (f a : Nat) (bs : List Byte) (d : JobDesc) (twinPresent : Bool) : Option Code :=
  if s.power.powerFail then some Codes.powerFail
  else if s.power.tripped then some Codes.thermalTrip
  else if s.funcDies f = [] then some Codes.schedNoPartition
  else if s.jobDescBad f a bs d then some Codes.schedDesc
  else if (s.funcDies f).length < d.dies then some Codes.schedTooLarge
  else if d.twin && !twinPresent then some Codes.schedTwinAbsent
  else none

/-- A JOB entry whose descriptor has been read. -/
def State.admitJob (s : State) (r j : Nat) (e : List Byte) (v : Vote) (twinPresent : Bool) : State :=
  let f := (s.ring r).func
  let a := fieldLe e 0x10 8
  let bs := s.readMem a 256
  let d := jobDescOf bs
  let s := (s.consume r).modRing r (fun y => { y with submitted := count32 y.submitted })
  let n := s.sched.admitCtr
  let w := s.sched.waitCtr
  let x := JobSt.new r e f d n w 0
  match s.jobCode f a bs d twinPresent with
  | some c => s.refuseJob r j x c
  | none =>
    match s.agreedGrade v with
    | .error c => s.refuseJob r j x c
    | .ok g =>
      let x := { x with grade := g }
      let ctr (s : State) : State := { s with sched := { s.sched with admitCtr := n + 1, waitCtr := w + 1 } }
      let target (s : State) : State := if g = s.grade then s else s.modPower (fun p => { p with target := some g })
      if d.cls = 0 then (target ((ctr s).setJob j (some x))).reapply
      else if d.wcet.getD g 0 = 0 then s.refuseJob r j x Codes.schedNoBound
      else
        match s.anteKeeps.bind (fun kept => s.placeLc f d kept) with
        | none => s.refuseJob r j x Codes.schedLcCapacity
        | some ps => (target (ctr s)).admitLc j x ps

/-- JOB (R400, R405): the entry waits during an activation (R458) and a change of grade (R435), and for its STREAMS table. -/
def execJob (r : Ring) (twinPresent : Bool) (vote : Vote) (s : State) : Host.Outcome State Fault Refusal :=
  .next (if s.sec.activating || s.power.target.isSome then s
    else
      s.takeEntry r 0x90 (fun e s =>
        let a := fieldLe e 0x10 8
        let f := (s.ring r).func
        let d := jobDescOf (s.readMem a 256)
        let bad := (s.jobCode f a (s.readMem a 256) d twinPresent).isSome
        match (if bad then [] else s.absentPages d.streams (16 * d.dies)), s.freeJobNo with
        | p :: ps, _ => s.waitOn 0 4 0 (p :: ps)
        | [], some j => s.admitJob r j e vote twinPresent
        | [], none => s))

/-! The end of a job (R423, R424). -/

/-- A job's stack-engine commands are dropped (R298). -/
def State.dropCommands (s : State) (j : Nat) : State :=
  (List.range 32).foldl (fun s k => s.modStack k (fun x => { x with queue := x.queue.filter (fun c => c.job != j) })) s

/-- Completions that each waiting best-effort job counts (R422). -/
def State.ageJobs (s : State) : State :=
  { s with sched := { s.sched with jobs := s.sched.jobs.map (fun (p : Nat × Option JobSt) =>
      (p.1, p.2.map (fun x => if x.desc.cls == 0 && (x.phase == .waiting || x.phase == .saved) then { x with age := x.age + 1 } else x))) } }

/-- Removes a job: streams, collectives, commands, tiles, contexts, save objects and owned objects, then its completion. -/
def State.endJob (s : State) (j : Nat) (x : JobSt) (status : Code) : State :=
  let s := (s.abandonStreams j).colAbandon j
  let s := s.dropCommands j
  let s := if x.phase = .saved ∨ x.phase = .waiting then s else s.releaseTiles j x.places
  let s := s.freeOwned (fun _ o => o.owner == .job j)
  let s := { s with mem := { s.mem with waiters := s.mem.waiters.filter (fun w => w.job != j) },
                    col := { s.col with buckets := s.col.buckets.filter (fun b => b.job != j), steps := s.col.steps.set 0 j 0 } }
  let s := { s with sched := { s.sched with ante := if s.sched.ante = j then 0 else s.sched.ante } }
  let s := (s.setJob j none).modRing x.ring (fun r =>
    if status = 0 then { r with completed := count32 r.completed } else { r with faulted := count32 r.faulted })
  let s := if status = 0 then s.ageJobs else s
  let s := s.complete x.ring { kind := 0x90, status := status, job := j, tag := x.tag, preempts := x.preempts }
  (s.settleRing x.ring).reapply

/-- Nothing of the job is left to do (R423). -/
def State.jobDone (s : State) (j : Nat) (x : JobSt) : Bool :=
  (x.phase == .running || x.phase == .saving) && x.fault.isNone
    && (x.places.zipIdx).all (fun q => match (s.dealer q.1.die).queueOf j with
      | some n => let y := s.queue q.1.die n; decide ((s.streamEnt x.desc q.2).2 ≤ y.next) && y.inHand.isNone
      | none => false)
    && x.tiles.all (fun t => (s.tile t).hand.isNone)
    && (List.range 32).all (fun k => !(s.stack k).queue.any (fun c => c.job == j)) && !s.colPosted j

def execJobComplete (j : Nat) (s : State) : Host.Outcome State Fault Refusal :=
  .next (match s.job j with
    | some x => if s.jobDone j x then s.endJob j x 0 else s
    | none => s)

/-- A tile of a job that ends: it stops, and DMAs that wait for a migration are cancelled (R424). -/
def TileSt.stopEnding (x : TileSt) : TileSt :=
  let y := x.boundary
  { y with dmas := y.dmas.filter (fun d => !d.waiting) }

/-- DMAs and appends of a job's tiles that are still in flight. -/
def State.inFlight (s : State) (x : JobSt) : Bool :=
  x.tiles.any (fun t => (s.tile t).dmas.any (fun d => !d.waiting) || !(s.tile t).appends.isEmpty)

/-- A job with a fault ends: its tiles stop, what is in flight completes, and then it is gone (R386, R424). A job being saved is
saved first (R73, R417). -/
def jobFault (j : Nat) (s : State) : State :=
  match s.job j with
  | none => s
  | some x =>
    match x.fault with
    | none => s
    | some code =>
      match x.phase with
      | .saving => s
      | .running =>
        let s1 := x.tiles.foldl (fun s t => s.modTile t TileSt.stopEnding) (s.setJob j (some { x with phase := .ending }))
        let s2 := (s1.colMemberFault j).dropCommands j
        match s2.job j with
        | some y => if s2.inFlight y then s2 else s2.endJob j y code
        | none => s2
      | .ending => if s.inFlight x then s else s.endJob j x code
      | _ => (s.colMemberFault j).endJob j x code

def execJobFault (j : Nat) (s : State) : Host.Outcome State Fault Refusal := .next (jobFault j s)

/-- CANCEL (R400, R424). -/
def execCancel (r : Ring) (s : State) : Host.Outcome State Fault Refusal :=
  .next (s.takeEntry r 0x94 (fun e s =>
    let j := fieldLe e 0x18 4
    let s1 := s.consume r
    if s.liveOn r j then (s1.cancelJob j).complete r { kind := 0x94, job := j, tag := entryTag e }
    else s1.finishEntry r e Codes.schedNoJob))

/-! Saves (R414 to R417). -/

/-- A save ends: what has completed meanwhile ends the job instead; a log page that is not resident is waited for. -/
def saveComplete (j : Nat) (late : Bool) (s : State) : State :=
  match s.job j with
  | none => s
  | some x =>
    if x.phase ≠ .saving ∨ s.inFlight x then s
    else if s.jobDone j x then s.endJob j x 0
    else
      match (if x.tiles.any (fun t => (s.tile t).hand.isSome && (s.tile t).regs.sums.blocks != 0) then s.logAbsent j else []) with
      | p :: ps => s.waitOn j reqDealer 0 (p :: ps)
      | [] =>
        let s1 := x.tiles.foldl (fun s t => s.handSummary t false) s
        let s2 := (x.places.zipIdx).foldl (fun s q => s.saveDie j x q.2 q.1) s1
        let s3 := (s2.releaseTiles j x.places).modJob j (fun y => { y with phase := .saved, age := 0 })
        let s4 := if late then s3.report Codes.schedPreemptLate { job := j } else s3
        s4.reapply

def execSaveComplete (j : Nat) (late : Bool) (s : State) : Host.Outcome State Fault Refusal := .next (saveComplete j late s)

/-! Swapping and ageing (R420 to R422). -/

/-- A job's context on a die is blocked (R420). -/
def State.ctxBlocked (s : State) (d j : Nat) (x : JobSt) : Bool :=
  let stalled (t : Nat) : Bool := s.mem.waiters.any (fun w => w.job == j && w.cls == reqTile && w.idx == t)
  let tiles := x.tiles.filter (fun t => t / 12 == d)
  let held := x.heldBack || x.train.phase == .mapping || x.train.phase == .update || x.train.phase == .updating
    || s.mem.waiters.any (fun w => w.job == j && w.cls == reqDealer && w.idx == d)
  held && tiles.all (fun t => (s.tile t).hand.isNone || stalled t)

/-- Jobs that hold tiles on a die. -/
def State.dieJobs (s : State) (d : Nat) : List (Nat × JobSt) :=
  s.sched.jobs.filterMap (fun p => match p.2 with
    | some x =>
      if x.places.any (fun q => q.die == d) && x.phase != .waiting && x.phase != .saved then some (p.1, x) else none
    | none => none)

/-- The victim of a die: every context is blocked for longer than SWAP_WAIT, which the command says with its time; the longest
blocked best-effort one goes. -/
def State.swapVictim (s : State) (long : List (Nat × Nat × Nat)) (d : Nat) : Option Nat :=
  let js := s.dieJobs d
  let time (j : Nat) : Option Nat := (long.find? (fun q => q.1 == d && q.2.1 == j)).map (·.2.2)
  if js.isEmpty || !js.all (fun q => q.2.phase == .running && s.ctxBlocked d q.1 q.2 && (time q.1).isSome) then none
  else
    let be := js.filter (fun q => q.2.desc.cls == 0 && q.1 != s.sched.ante)
    (be.foldl (fun (best : Option (Nat × Nat)) q =>
      let n := (time q.1).getD 0
      match best with
      | some b => if b.2 < n then some (q.1, n) else best
      | none => some (q.1, n)) none).map (·.1)

/-- Some waiting job fits once the victim's tiles are free. -/
def State.fitsWithout (s : State) (v : Nat) : Bool :=
  s.waitList.any (fun j => match s.job j with
    | some x => x.grade == s.grade && (s.walk x.func x.desc (fun t => s.tileFree t || s.tileJob t == some v)).isSome
    | none => false)

def State.swapDie (s : State) (long : List (Nat × Nat × Nat)) (d : Nat) : State :=
  match s.swapVictim long d with
  | some v => if s.fitsWithout v then (s.preemptJobs 2 [v]).report Codes.schedSwapped { job := v } else s
  | none => s

/-- Every 65,536 kclk cycles, for each die in ascending order. -/
def swapEvaluation (long : List (Nat × Nat × Nat)) (s : State) : State :=
  if s.sched.swapWait = 0 then s else (List.range 8).foldl (fun s d => s.swapDie long d) s

def execSwapEvaluation (blockedLong : List (Die × Nat × Nat)) (s : State) : Host.Outcome State Fault Refusal :=
  .next (swapEvaluation (blockedLong.map (fun q => (q.1.val, q.2))) s)

/-- A job that has counted AGE_LIMIT completions takes the free ante slot (R422). -/
def antePromotion (s : State) : State :=
  if s.sched.ante ≠ 0 ∨ s.sched.ageLimit = 0 then s
  else
    let js := s.sched.jobs.filterMap (fun p => match p.2 with
      | some x =>
        if x.desc.cls == 0 && (x.phase == .waiting || x.phase == .saved) && decide (s.sched.ageLimit.toNat ≤ x.age) then
          some (x.waitOrder * 4096 + p.1, p.1)
        else none
      | none => none)
    match sortKey Prod.fst js with
    | q :: _ => ({ s with sched := { s.sched with ante := q.2 } }).report Codes.schedAged { job := q.2 }
    | [] => s

def execAnteSlotPromotion (s : State) : Host.Outcome State Fault Refusal := .next (antePromotion s)

/-- The change of grade, while no job holds tiles (R18, R435). -/
def gradeChange (s : State) : State :=
  match s.power.target with
  | none => s
  | some g =>
    if s.holdsTiles then s
    else (({ s with grade := g }).modPower (fun p => { p with target := none })).reapply

def execGradeChange (s : State) : Host.Outcome State Fault Refusal := .next (gradeChange s)

/-! Partitions (R403, R466). -/

/-- A mask is a set of 1, 2, 4 or 8 dies from a multiple of its size; or empty, which releases. -/
def partitionShape (mask : Nat) : Bool :=
  mask == 0 || [1, 2, 4, 8].any (fun k => (List.range (8 / k)).any (fun i => mask == (2 ^ k - 1) * 2 ^ (k * i)))

/-- What a die's owner becomes: function + 1, 0 for none. -/
def State.newOwner (s : State) (f mask d : Nat) : Nat :=
  let old := s.sched.partition.get 0 d
  if bitOf mask d then f + 1 else if old = f + 1 then 0 else old

/-- Dies that change hands. -/
def State.changedDies (s : State) (f mask : Nat) : List Nat :=
  (List.range 8).filter (fun d => s.newOwner f mask d != s.sched.partition.get 0 d)

/-- A live job holds a die: its tiles, or its save objects. -/
def State.dieHeld (s : State) (d : Nat) : Bool :=
  s.sched.jobs.any (fun p => match p.2 with
    | some x => x.places.any (fun q => q.die == d)
    | none => false)

def State.partitionBad (s : State) (f mask : Nat) : Bool :=
  decide (64 ≤ f) || !partitionShape mask
    || (List.range 8).any (fun d => bitOf mask d && s.sched.partition.get 0 d != 0 && s.sched.partition.get 0 d != f + 1)
    || (s.changedDies f mask).any s.dieHeld

/-- Objects of the old owner with frames in the stacks of a die are freed (R466 step 2). -/
def State.freeDie (s : State) (d : Nat) : State :=
  let old := s.sched.partition.get 0 d
  let inDie (b : Nat) (o : ObjectSt) : Bool := (o.pageList b).any (fun p => match (s.page p).bind PageSt.frame with
    | some f => frameStack f / 4 == d
    | none => false)
  s.freeOwned (fun b o => o.owner != .conductor && o.func + 1 == old && inDie b o)

/-- Every frame of a die's stacks is scrubbed, and its tiles and contexts cleared (R466 steps 3 and 4). -/
def State.scrubDie (s : State) (d : Nat) : State :=
  let s1 := s.mem.pages.foldl (fun s q => match q.2.bind PageSt.frame with
    | some f => if frameStack f / 4 = d then { s with mem := { s.mem with bytes := s.mem.bytes.clear (q.1 * size2MiB) size2MiB } } else s
    | none => s) s
  let s2 := (List.range 12).foldl (fun s i => s.modTile (12 * d + i) (fun x => { x with spad := [], acc := [], units := [], ctx := [] })) s1
  s2.modDealer d (fun y => { y with owner := [], hold := [] })

/-- The conductor takes back the dies that change hands, and their scrub runs. -/
def State.startPartition (s : State) (f mask : Nat) (p : Pending) : State :=
  let ds := s.changedDies f mask
  let s1 := ds.foldl State.freeDie s
  { s1 with sched := { s1.sched with
      partition := ds.foldl (fun m d => m.set 0 d 0) s1.sched.partition,
      scrubs := s1.sched.scrubs ++ [⟨f, mask, ds, p⟩] } }

/-- PARTITION: an assignment that changes no die completes at once. One whose dies or function are being scrubbed waits. -/
def execPartition (r : Ring) (s : State) : Host.Outcome State Fault Refusal :=
  .next (s.takeEntry r 0x95 (fun e s =>
    let f := fieldLe e 0x10 1
    let mask := fieldLe e 0x11 1
    let busy := s.sched.scrubs.any (fun q => q.func == f || q.scrubbing.any (fun d => bitOf mask d))
    if busy then s
    else if s.partitionBad f mask then (s.consume r).finishEntry r e Codes.schedPartition
    else if (s.changedDies f mask).isEmpty then (s.consume r).finishEntry r e 0
    else (s.consume r).startPartition f mask ⟨some r, entryTag e, 0x95, 0⟩))

/-- The scrub of a function's new partition ends: the dies are its own, and the entry completes. -/
def partitionScrubComplete (f : Nat) (s : State) : State :=
  match s.sched.scrubs.find? (fun q => q.func == f) with
  | none => s
  | some q =>
    let s1 := q.scrubbing.foldl State.scrubDie s
    let s2 := { s1 with sched := { s1.sched with
      partition := (q.scrubbing.filter (fun d => bitOf q.dies d)).foldl (fun m d => m.set 0 d (f + 1)) s1.sched.partition,
      scrubs := s1.sched.scrubs.filter (fun y => y.func != f) } }
    let s3 := match q.pend.ring with
      | some r => s2.complete r { kind := q.pend.kind, tag := q.pend.tag }
      | none => s2
    s3.reapply

def execPartitionScrubComplete (f : Func) (s : State) : Host.Outcome State Fault Refusal := .next (partitionScrubComplete f s)

/-- FLR of a virtual function (R473): its jobs are cancelled and its rings disabled. -/
def vfFlr (f : Nat) (s : State) : State :=
  if f = 0 then s
  else
    let js := (s.sched.jobs.map (·.1)).filter (fun j => s.jobFunc j == f)
    let rs := (List.range 256).filter (fun r => s.ringOwned f r)
    rs.foldl State.disableRing (js.foldl State.cancelJob s)

def execVfFlr (f : Func) (s : State) : Host.Outcome State Fault Refusal := .next (vfFlr f s)

end Sys2Proof.Machine
end

