-- ==== Sys2Proof/Machine/Security.lean ====
section
/-!
DEFINITION. Machine/Security.lean: firmware images, their update, and attestation (R451 to R462, R468, R469, R476).
-/

namespace Sys2Proof.Machine

/-- The module has booted and is not in reset or recovery. -/
def State.ready (s : State) : Bool := !s.boot.held && s.boot.stage == 0xFF

/-- Some job is live: SCHED.STATUS.LIVE is not 0. -/
def State.anyJob (s : State) : Bool := s.sched.jobs.any (fun q => q.2.isSome)

/-! Firmware images (R454, R455). -/

def fwSlotSize : Nat := 0x2000000

/-- SPI offset of a slot. -/
def fwSlotBase (slotB : Bool) : Nat := if slotB then fwSlotSize else 0

/-- A component: its ID, place in the slot and digest, the digest's first byte most significant as `sha384` gives it. -/
structure FwComp where
  id     : Nat
  rsvd   : Nat
  off    : Nat
  len    : Nat
  digest : BitVec 384
  deriving DecidableEq, Repr

/-- Value of bytes, the first most significant. -/
def beNat (bs : List Byte) : Nat := leNat bs.reverse

def fwComp (m : List Byte) (i : Nat) : FwComp :=
  let o := 0x10 + 64 * i
  { id := fieldLe m o 2, rsvd := fieldLe m (o + 2) 6, off := fieldLe m (o + 8) 4, len := fieldLe m (o + 12) 4,
    digest := BitVec.ofNat 384 (beNat ((m.drop (o + 16)).take 48)) }

/-- The components that a manifest names; COMPONENTS is at most 16. -/
def fwComps (m : List Byte) : List FwComp := (List.range (min 16 (fieldLe m 3 1))).map (fwComp m)

/-- The component with ID `n`. -/
def fwCompOf (m : List Byte) (n : Nat) : FwComp := ((fwComps m).find? (fun c => c.id == n)).getD ⟨0, 0, 0, 0, 0⟩

/-- Bytes of a slot that its manifest uses. -/
def fwExtent (m : List Byte) : Nat := ((fwComps m).map (fun c => c.off + c.len)).foldl max 0x2000

/-- Step 1 of R455. Reserved IDs are not refused. -/
def fwFormatOk (m : List Byte) : Bool :=
  let n := fieldLe m 3 1
  let cs := fwComps m
  hdrOk (fieldLe m 0 2) 0xA0 && fieldLe m 5 3 == 0 && fieldLe m 0x18FD 0x703 == 0 && decide (6 ≤ n ∧ n ≤ 16)
    && decide (fieldLe m 2 1 ≤ 3) && decide (fieldLe m 4 1 ≤ 64)
    && cs.all (fun c => c.rsvd == 0 && decide (c.off + c.len ≤ fwSlotSize))
    && [1, 2, 3, 4, 5, 6].all (fun i => (cs.filter (fun c => c.id == i)).length == 1)

/-- R455: the code of the first step that fails, 0 where every step passes. What the two signature schemes say of the image
is `sig` (log entry 13). -/
def verifyImage (f : Fuses) (sig : SigCheck) (img : List Byte) : Code :=
  let k := fieldLe img 2 1
  let part (o n : Nat) : BitVec 384 := sha384 ((img.drop o).take n)
  if !fwFormatOk img then Codes.fwFormat
  else if bitOf f.revoked.toNat k then Codes.fwKeyRevoked
  else if part 0x410 32 != f.fwKeys.getD (2 * k) 0 || part 0x430 1952 != f.fwKeys.getD (2 * k + 1) 0 then Codes.fwSignature
  else if fieldLe img 4 1 < f.rollback then Codes.fwRollback
  else if !sig.ed then Codes.fwSignature
  else if !sig.ml then Codes.fwSignature
  else if !(fwComps img).all (fun c => part c.off c.len == c.digest) then Codes.fwComponent
  else 0

/-- Bytes of an SPI slot that its manifest uses. -/
def SecSt.slotImage (x : SecSt) (slotB : Bool) : List Byte :=
  let m := x.spi.getRange 0 (fwSlotBase slotB) 0x2000
  x.spi.getRange 0 (fwSlotBase slotB) (min fwSlotSize (fwExtent m))

/-- Writes an image into a slot. -/
def SecSt.writeSlot (x : SecSt) (slotB : Bool) (img : List Byte) : SecSt :=
  { x with spi := x.spi.setRange 0 (fwSlotBase slotB) img }

/-! Staging and activation (R457, R458). -/

/-- A step of an update runs. -/
def SecSt.busy (x : SecSt) : Bool := x.staged == 3 || x.activating

/-- The staged image: what its manifest uses, in a PIN_STACK object of the physical function; none where it is not there. -/
def State.stagedImage (s : State) : Option (List Byte) :=
  let a := s.sec.stageAddr
  if a % 256 ≠ 0 ∨ !s.pinnedFor (.func 0) (a, 0x2000) then none
  else
    let n := min fwSlotSize (fwExtent (s.readMem a 0x2000))
    if s.pinnedFor (.func 0) (a, n) then some (s.readMem a n) else none

def verify (sig : SigCheck) (s : State) : State :=
  if s.sec.busy then s.report Codes.fwBusy {}
  else
    match s.stagedImage with
    | some img => s.modSec (fun x => { x with staged := 3, verdict := verifyImage s.fuses sig img, image := img })
    | none => s.modSec (fun x => { x with staged := 3, verdict := Codes.fwFormat, image := [] })

def execVerify (who : Iface) (sig : SigCheck) (s : State) : Host.Outcome State Fault Refusal :=
  .next (s.physical who (verify sig))

/-- Staging ends: a verified image stands in the inactive slot. -/
def stagingComplete (s : State) : State :=
  let x := s.sec
  if x.staged ≠ 3 then s
  else if x.verdict = 0 then s.modSec (fun x => { x.writeSlot (!x.slotB) x.image with staged := 1, image := [] })
  else (s.modSec (fun x => { x with staged := 2, image := [] })).report x.verdict {}

def execStagingComplete (s : State) : Host.Outcome State Fault Refusal := .next (stagingComplete s)

/-- ACTIVATE: the staged slot is verified again from the SPI flash. -/
def activate (sig : SigCheck) (s : State) : State :=
  if s.sec.busy ∨ s.sec.staged ≠ 1 ∨ s.anyJob then s.report Codes.fwBusy {}
  else
    let img := s.sec.slotImage (!s.sec.slotB)
    s.modSec (fun x => { x with activating := true, verdict := verifyImage s.fuses sig img, image := img })

def execActivate (who : Iface) (sig : SigCheck) (s : State) : Host.Outcome State Fault Refusal :=
  .next (s.physical who (activate sig))

def commit (s : State) : State :=
  if s.fuses.rollback < s.sec.svn then { s with fuses := { s.fuses with rollback := s.sec.svn } } else s

def execCommit (who : Iface) (s : State) : Host.Outcome State Fault Refusal := .next (s.physical who commit)

/-- FTL.WRITE_BUDGET, written by the conductor's firmware, with the bound of Table 5. -/
def writeBudgetSet (v : W32) (s : State) : State :=
  if s.sec.writeCap < v then (s.modFtl (fun f => { f with budget := s.sec.writeCap })).report Codes.secBudgetClamped {}
  else s.modFtl (fun f => { f with budget := v })

def execWriteBudgetSet (stripes : W32) (s : State) : Host.Outcome State Fault Refusal := .next (writeBudgetSet stripes s)

/-- R469. -/
def writeCapOf (rawBytes rated : Nat) : W32 := BitVec.ofNat 32 (max 1 (rawBytes / size2MiB * rated / 73475865))

/-! Measurements (R460, R461). -/

/-- The image in force: its slot's SVN, key index and digests, and the digest of every die whose firmware it loads. -/
def SecSt.load (x : SecSt) (img : List Byte) (cal : List Byte) : SecSt :=
  let c (n : Nat) : BitVec 384 := (fwCompOf img n).digest
  let put (ix : List Nat) (v : BitVec 384) (m : SMap (BitVec 384)) : SMap (BitVec 384) := ix.foldl (fun m i => m.set 0 i v) m
  let m1 := put [2] (c 1) (put [3] (sha384 (img.take 0x2000)) (put [4] (c 2) (put [5] (c 3) (put [7] (sha384 cal) x.measures))))
  { x with svn := fieldLe img 4 1, keyIndex := fieldLe img 2 1,
           measures := put ((List.range 8).map (· + 16)) (c 4)
             (put ((List.range 32).map (· + 32)) (c 5) (put ((List.range 4).map (· + 64)) (c 6) m1)) }

/-- Byte of a die in index 9 and in the order of R461: 1 while the map does not list it. -/
def BootSt.dieByte (b : BootSt) (d : Nat) : Nat :=
  match b.dies.get 0 d with
  | 0 => 1
  | n + 1 => n

def BootSt.setDieByte (b : BootSt) (d n : Nat) : BootSt := { b with dies := b.dies.set 0 d (n + 1) }

/-- Index 9: 45 bytes. -/
def BootSt.dieBytes (b : BootSt) : List Byte := (List.range 45).map (fun d => BitVec.ofNat 8 (b.dieByte d))

/-- `n` free bytes (log entry 11). -/
def State.drawBytes (s : State) (n : Nat) : List Byte × State :=
  ((List.range n).map (Config.freeByte s.freeCtr), { s with freeCtr := s.freeCtr + 1 })

/-- Measurement indices that exist. -/
def measureIndices : List Nat :=
  [1, 2, 3, 4, 5, 6, 7, 8, 9] ++ (List.range 8).map (· + 16) ++ (List.range 32).map (· + 32) ++ (List.range 4).map (· + 64)

/-- Value of an index: digests whose content has no layout in the spec (the ROM, the public fuses, the security configuration,
and the user region while no copy is valid) are free values. -/
def State.measure (s : State) (i : Nat) : List Byte × State :=
  if i = 9 then (s.boot.dieBytes, s)
  else if i = 1 ∨ i = 6 ∨ i = 8 ∨ (i = 7 ∧ s.boot.userCal.isEmpty) then s.drawBytes 48
  else
    let d := (natLe 48 (s.sec.measures.get 0 i).toNat).reverse
    (if i = 3 then d ++ natLe 1 s.sec.svn else d, s)

/-- DMTF value type (PRESUMED: DSP0274). -/
def measureType (i : Nat) : Nat :=
  if i = 1 then 0 else if i = 3 then 4 else if i = 6 then 2 else if i = 7 ∨ i = 8 then 3 else if i = 9 then 0x80 else 1

/-- A measurement block in the DMTF format. -/
def measureBlock (i : Nat) (v : List Byte) : List Byte :=
  natLe 1 i ++ natLe 1 1 ++ natLe 2 (3 + v.length) ++ natLe 1 (measureType i) ++ natLe 2 v.length ++ v

def State.measureBlocks (s : State) (is : List Nat) : List Byte × State :=
  is.foldl (fun a i => let q := a.2.measure i; (a.1 ++ measureBlock i q.1, q.2)) ([], s)

/-! The SPDM responder (R459, R462). -/

/-- A response: its code, two parameters and payload (PRESUMED: DSP0274). -/
def spdmMsg (code p1 p2 : Nat) (payload : List Byte) : OutMsg :=
  .response ([0x13#8] ++ natLe 1 code ++ natLe 1 p1 ++ natLe 1 p2 ++ payload)

def State.spdmError (s : State) (code : Nat) : State :=
  (s.modSec (fun x => { x with spdm := { x.spdm with signed := false } })).send (spdmMsg 0x7F code 0 [])

def spdmInvalid : Nat := 1
def spdmBusy : Nat := 3
def spdmUnexpected : Nat := 4

/-- The responder answers: not in reset or recovery, and Busy during an activation window. -/
def State.spdm (s : State) (go : State → State) : State :=
  if s.boot.held ∨ s.boot.stage = 0xFE then s else if s.sec.activating then s.spdmError spdmBusy else go s

/-- A request that needs negotiation (PRESUMED: DSP0274). -/
def State.spdmOpen (s : State) (go : State → State) : State :=
  s.spdm (fun s => if s.sec.spdm.open_ then go s else s.spdmError spdmUnexpected)

def State.spdmAnswer (s : State) (signed : Bool) (m : OutMsg) : State :=
  (s.modSec (fun x => { x with spdm := ⟨true, signed⟩ })).send m

def execGetVersion (s : State) : Host.Outcome State Fault Refusal :=
  .next (s.spdm (fun s => s.spdmAnswer false (.response [0x10#8, 0x04#8, 0#8, 0#8, 0#8, 1#8, 0x00#8, 0x13#8])))

/-- GET_CERTIFICATE: the whole chain. For a chain that boot did not accept the error code is a free value. -/
def getCertificate (slot : Nat) (s : State) : State :=
  s.spdmOpen (fun s =>
    if 1 < slot then s.spdmError spdmInvalid
    else if s.sec.chainOk.getD slot false then
      let c := s.sec.chains.getD slot []
      s.spdmAnswer false (spdmMsg 0x02 slot 0 (natLe 2 c.length ++ natLe 2 0 ++ c))
    else
      let (w, s) := s.draw
      s.spdmError (w.toNat % 256))

def execGetCertificate (slot : Nat) (s : State) : Host.Outcome State Fault Refusal := .next (getCertificate slot s)

/-- CHALLENGE: chain hash, a nonce and an Ed25519 signature, whose bytes are free values (log entry 13). -/
def challenge (slot : Nat) (s : State) : State :=
  s.spdmOpen (fun s =>
    if 1 < slot then s.spdmError spdmInvalid
    else
      let h := (natLe 48 (sha384 (s.sec.chains.getD slot [])).toNat).reverse
      let (sig, s) := s.drawBytes 96
      s.spdmAnswer true (spdmMsg 0x03 slot (2 ^ slot) (h ++ sig)))

def execChallenge (slot : Nat) (s : State) : Host.Outcome State Fault Refusal := .next (challenge slot s)

/-- GET_MEASUREMENTS: index 0 asks for the number of indices, 0xFF for all of them. -/
def getMeasurements (index : Nat) (signed : Bool) (s : State) : State :=
  s.spdmOpen (fun s =>
    let is := if index = 0xFF then measureIndices else measureIndices.filter (· == index)
    if is.isEmpty ∧ index ≠ 0 then s.spdmError spdmInvalid
    else
      let (bs, s) := s.measureBlocks is
      let (sig, s) := if signed then s.drawBytes 96 else ([], s)
      let p1 := if index = 0 then measureIndices.length else 0
      s.spdmAnswer signed (spdmMsg 0x60 p1 0 (natLe 1 is.length ++ natLe 3 bs.length ++ bs ++ sig)))

def execGetMeasurements (index : Nat) (signed : Bool) (s : State) : Host.Outcome State Fault Refusal :=
  .next (getMeasurements index signed s)

/-- DUAL_SIG: only right after a signed response. -/
def dualSig (s : State) : State :=
  s.spdmOpen (fun s =>
    if s.sec.spdm.signed then
      let (sig, s) := s.drawBytes 3309
      s.spdmAnswer false (spdmMsg 0x7E 0 0 sig)
    else s.spdmError spdmInvalid)

def execDualSig (s : State) : Host.Outcome State Fault Refusal := .next (dualSig s)

/-! Recovery (R476). -/

/-- An image arrives through PLDM: it goes to slot A, or is refused with its code; the response's layout is the model's. -/
def pldmUpdate (img : List Byte) (sig : SigCheck) (s : State) : State :=
  if s.boot.held ∨ s.boot.stage ≠ 0xFE then s
  else
    let c := verifyImage s.fuses sig img
    let s1 := if c = 0 then s.modSec (fun x => x.writeSlot false img) else s.report c {}
    s1.send (.response (natLe 2 c.toNat))

def execPldmFirmwareUpdate (image : List Byte) (sig : SigCheck) (s : State) : Host.Outcome State Fault Refusal :=
  .next (pldmUpdate image sig s)

end Sys2Proof.Machine
end

