-- ==== Sys2Proof/Machine/Boot.lean ====
section
/-!
DEFINITION. Machine/Boot.lean: the resets and the boot (R456, R473 to R482, R495, R499, R501), and the end of an activation
(R458, R462).
-/

namespace Sys2Proof.Machine

/-! What a reset keeps. -/

/-- The flash tier without power: what NAND holds, and whether stripes were lost with their journal records (R311). -/
def FtlSt.persist (f : FtlSt) : FtlSt :=
  { FtlSt.init with
    logicalPages := f.logicalPages, superblocks := f.superblocks, stripesPerSb := f.stripesPerSb, sbs := f.sbs,
    store := f.store, taken := f.taken, lost := f.lost, unjournaled := f.unjournaled, programs := f.programs,
    names := f.names, journalLost := f.journalLost }

/-- The journal buffer is programmed before the dies reset (R477, R499). -/
def State.saveJournal (s : State) : State := if s.mem.ftl.readOnly then s else s.modFtl FtlSt.programJournal

/-- Every die is in reset, RESET_N low or the input off: the NAND and SPI flash, the fuses, and whether an analog trip has
struck are left. -/
def State.lowered (s : State) (cause : Nat) (margin : Bool) : State :=
  { State.reset with
    pending := s.pending, freeCtr := s.freeCtr, hostMem := s.hostMem, outbox := s.outbox, fuses := s.fuses,
    sec := { SecSt.init with spi := s.sec.spi, recordB := s.sec.recordB, chains := s.sec.chains },
    mem := { MemSt.init with ftl := s.mem.ftl.persist },
    power := { PowerSt.init with tripped := s.power.tripped },
    boot := { BootSt.init with cause := cause, marginSt00 := margin } }

/-- Counters that run from cold reset (R318, R341, R360, R391, R450). -/
def LinkSt.counters (x : LinkSt) : LinkSt :=
  { LinkSt.init with filtered := x.filtered, authFail := x.authFail, replays := x.replays, retrains := x.retrains,
                     trainFail := x.trainFail, potBytes := x.potBytes }

def StackSt.counters (x : StackSt) : StackSt := { StackSt.init with ue := x.ue, ce := x.ce }

/-- Every die but the fuse macro is reset while power and straps stay (R473, R477); counters that run from cold reset go on. -/
def State.warmed (s : State) (cause : Nat) : State :=
  let r := s.lowered cause s.boot.marginSt00
  { r with
    logs := { s.logs with funcs := [] },
    mem := { r.mem with stk := (s.mem.stk.map (fun (q : Nat × StackSt) => (q.1, q.2.counters))).filter (fun q => q.2 != .init) },
    codec := (s.codec.map (fun (q : Nat × EngineSt) => (q.1, { EngineSt.init with frames := q.2.frames, events := q.2.events }))).filter (fun q => q.2 != .init),
    links := { LinksSt.init with links := (s.links.links.map (fun (q : Nat × LinkSt) => (q.1, q.2.counters))).filter (fun q => q.2 != .init) },
    sched := { SchedSt.init with
      rings := (s.sched.rings.map (fun (q : Nat × RingSt) => (q.1, { RingSt.init with energy := q.2.energy }))).filter (fun q => q.2 != .init) },
    power := { r.power with energyPart := s.power.energyPart, energyUnattr := s.power.energyUnattr },
    boot := { r.boot with slot := s.boot.slot, cxl := s.boot.cxl, noClock := s.boot.noClock } }

/-! Boot (R475, Table 2 of 16). -/

def setBit (x n : Nat) : Nat := x ||| 2 ^ n
def clearBit (x n : Nat) : Nat := if bitOf x n then x - 2 ^ n else x

/-- Die class and index of a die in the order of R461 (R3). -/
def dieOf (d : Nat) : Nat × Nat :=
  if d = 0 then (0, 0) else if d < 5 then (1, d - 1) else if d < 13 then (2, d - 5) else (3, d - 13)

/-- Verification of the slots in the order of R456: the slot loaded and its image, and the state with the codes logged. -/
def State.verifySlots (s : State) (env : BootEnv) : Option (Bool × List Byte) × State :=
  let check (slotB : Bool) : Code := verifyImage s.fuses (if slotB then env.sigB else env.sigA) (s.sec.slotImage slotB)
  let a := s.sec.recordB
  if check a = 0 then (some (a, s.sec.slotImage a), s)
  else
    let s1 := s.report (check a) {}
    if check (!a) = 0 then (some (!a, s.sec.slotImage (!a)), s1)
    else (none, (s1.report (check (!a)) {}).report Codes.fwNoValidImage {})

/-- SEC_CERT for each chain that is not accepted (R453). -/
def State.checkChains (s : State) (env : BootEnv) : State :=
  let oks := [env.chainEd, env.chainMl]
  (oks.filter (fun b => !b)).foldl (fun s _ => s.report Codes.secCert {}) (s.modSec (fun x => { x with chainOk := oks }))

/-- Signed bytes of the region outside a window. -/
def outside (bs : List Byte) (o n w : Nat) : Nat :=
  ((List.range n).filter (fun i => decide (w < (sintVal 8 (fieldLe bs (o + i) 1)).natAbs))).length

/-- Values that a region has clamped (Table 6 of 16). -/
def calClampedCount (bs : List Byte) : Nat :=
  outside bs 0xC0 1024 8 + outside bs 0x4C0 32 4 + outside bs 0x7E0 192 8 + outside bs 0x8A0 96 8 + outside bs 0x900 32 8
    + outside bs 0x920 1 8 + (if (sintVal 32 (fieldLe bs 0x924 4)).natAbs ≤ 20000 then 0 else 1)

/-- Offsets whose window is not in the spec: transmitter taps, and VDDQ against its fused maximum. -/
def calOpenCount (bs : List Byte) : Nat :=
  ((List.range 768).filter (fun i => fieldLe bs (0x4E0 + i) 1 != 0)).length
    + ((List.range 32).filter (fun i => decide (0 < sintVal 8 (fieldLe bs (0x4C0 + i) 1)))).length

/-- The region in force: that of higher SEQ among the valid copies, or none; a record for each value clamped. Which of the
offsets are clamped whose window the spec does not give is a free value. -/
def State.loadCal (s : State) : State :=
  match s.calNewest with
  | none => s.report Codes.calInvalid {}
  | some i =>
    let bs := s.calCopy i
    let (w, s) := s.draw
    let n := calClampedCount bs + w.toNat % (calOpenCount bs + 1)
    (List.range n).foldl (fun s _ => s.report Codes.calClamped {}) (s.modBoot (fun b => { b with userCal := bs }))

/-- Map-out of a stack: factory and user (R289, R290). -/
def State.mapStack (s : State) (k : Nat) : State :=
  let user : W32 := BitVec.ofNat 32 (fieldLe s.boot.userCal (0x40 + 4 * k) 4)
  let fac := s.fuses.mapOut.getD k 0
  let out := fac ||| user
  (maskBits out.toNat 32).foldl (fun s c => s.report Codes.channelMappedOut { cls := 3, idx := k, unit := c })
    (s.modStack k (fun x => { x with factory := fac, good := ~~~ out }))

/-- The retired list (R288). -/
def State.loadRetired (s : State) : State :=
  s.modMem (fun m => { m with badFrames := (calRetired s.boot.userCal).foldl (fun b f => b.set 0 f 2) m.badFrames })

/-- Bytes of a logical page whose stripe was lost are free values. -/
def State.loseLogical (s : State) (l : Nat) : State :=
  let (bs, s) := s.drawBytes size2MiB
  s.modFtl (fun f => { f with store := f.store.setRange 0 (l * size2MiB) bs })

/-- The flash tier as boot finds it: capacities (R306), the budget within its bound (R468), and the journal replayed: logical
pages of objects that were not stored are unwritten (R310, R311). -/
def State.loadFlash (s : State) (env : BootEnv) : State :=
  let (w, s) := s.draw
  let keep := s.mem.ftl.names.flatMap (fun q => q.2.logical)
  let gone := (s.mem.ftl.taken.map (·.1)).filter (fun l => !keep.contains l)
  let hit := if s.mem.ftl.journalLost then s.mem.ftl.unjournaled.filter (fun l => keep.contains l) else []
  let was := s.mem.ftl.journalLost
  let s1 := hit.foldl State.loseLogical s
  let s2 := s1.modFtl (fun f =>
    { gone.foldl FtlSt.release f with
      channels := env.flashChans,
      logicalPages := if env.flashChans = 0 then 0 else 88 * env.rawBytes / (100 * size2MiB) - 1024,
      superblocks := env.superblocks, stripesPerSb := env.rawBytes / size2MiB / env.superblocks, rawBytes := env.rawBytes,
      rated := env.rated, spares := env.spares, readOnly := env.flashChans != 0 && env.spares == 0,
      budget := if s.sec.writeCap < w.truncate 32 then s.sec.writeCap else w.truncate 32,
      journal := 0, unjournaled := [], journalLost := false })
  let s3 := (List.range env.badTargets).foldl (fun s _ => s.report Codes.flashDevice {}) s2
  let s4 := if env.flashChans = 0 then s3 else s3.report Codes.ftlRecovered {}
  if was then s4.report Codes.ftlJournalLost {} else s4

def State.markBist (s : State) (d : Nat) (i : RecInfo) : State :=
  (s.modBoot (fun b => { b with bistFail := setBit b.bistFail d })).report Codes.bistFail i

/-- A failed edge die: its six links stay DISABLED and its engines unused (R480). -/
def State.failEdge (s : State) (q : Nat) : State :=
  let s1 := (List.range 24).foldl (fun s l =>
    if linkEdge l = q then s.modLink l (fun x => { x with phase := .disabled }) else s) s
  { s1 with codec := (List.range 24).foldl (fun m e =>
      if engineEdge e = q then m.set .init e { m.get .init e with unused := true } else m) s1.codec }

/-- A stack that fails: its failing channels, which the environment does not name, are a free mask in DATA. -/
def State.failStack (s : State) (k : Nat) : State :=
  let (bs, s) := s.drawBytes 4
  s.markBist (13 + k) { cls := 3, idx := k, data := bs }

/-- Results of the self-tests (R479, R480). -/
def State.selfTests (s : State) (env : BootEnv) : State :=
  let s1 := env.badStacks.foldl (fun s k => s.failStack k.val) s
  let s2 := env.badTiles.foldl (fun s t => s.markBist (5 + t.val / 12) { cls := 2, idx := t.val / 12, unit := t.val % 12 }) s1
  env.badEdges.foldl (fun s q => (s.markBist (1 + q.val) { cls := 1, idx := q.val }).failEdge q.val) s2

/-- Steps 6 to 12 with the slot loaded. -/
def State.bootWith (s : State) (env : BootEnv) (slotB : Bool) (img : List Byte) : State :=
  let s := (s.checkChains env).loadCal
  let s := s.modSec (fun x => { x with slotB := slotB }.load img s.boot.userCal)
  let s := ((List.range 32).foldl State.mapStack s).loadRetired
  let s := if s.boot.marginSt00 then s.marginStack 0 env.st00 else s
  let s := (s.loadFlash env).selfTests env
  let s := s.modBoot (fun b => (List.range 45).foldl (fun b d => b.setDieByte d 0) { b with marginSt00 := false, stage := 0xFF })
  s.report Codes.bootComplete { data := natLe 1 s.boot.cause }

/-- Steps 3 to 12; without a valid image the module stays in recovery (R476). -/
def State.bootSteps (s : State) (env : BootEnv) : State :=
  let s := s.modSec (fun x => { x with writeCap := writeCapOf env.rawBytes env.rated })
  let s := s.modBoot (fun b => { b with held := false })
  match s.verifySlots env with
  | (some q, s) => s.bootWith env q.1 q.2
  | (none, s) => s.modBoot (fun b => { b with stage := 0xFE })

/-- Power-on: RESET_N is low (R498). -/
def execPowerOn (s : State) : Host.Outcome State Fault Refusal :=
  .next (if s.boot.held then s.lowered 0 false else s)

/-- Release of RESET_N (R475, R495). -/
def coldBoot (env : BootEnv) (s : State) : State :=
  if !s.boot.held then s
  else
    let s1 := s.modBoot (fun b => { b with slot := env.slotPins, cxl := env.hostMode })
    (s1.modPower (fun p => { p with tripSeen := p.tripped, tripped := false })).bootSteps env

def execColdBoot (env : BootEnv) (s : State) : Host.Outcome State Fault Refusal := .next (coldBoot env s)

/-- A step of a boot passes its bound: the boot stops there. Which of the steps 1 to 11 it is, is a free value. -/
def bootStageTimeout (s : State) : State :=
  if s.boot.held then
    let (w, s) := s.draw
    let k := 1 + w.toNat % 11
    (s.modBoot (fun b => { b with held := false, stage := k })).report Codes.bootStageTimeout { data := natLe 1 k }
  else s

def execBootStageTimeout (s : State) : Host.Outcome State Fault Refusal := .next (bootStageTimeout s)

/-- A cold reset by RESET_N: the journal is programmed first (R499). -/
def State.coldReset (s : State) : State := s.saveJournal.lowered 1 s.boot.marginSt00

/-- A low pulse on RESET_N; from 1 us to 1 ms a free value chooses between its two outcomes (R499). -/
def resetNPulse (ns : Nat) (s : State) : State :=
  if s.boot.held ∨ ns < 1000 then s
  else if 1000000 ≤ ns then s.coldReset
  else
    let (w, s) := s.draw
    if w.getLsbD 0 then s.coldReset else s

def execResetNPulse (nanoseconds : Nat) (s : State) : Host.Outcome State Fault Refusal := .next (resetNPulse nanoseconds s)

/-! Warm reset (R477). -/

def State.warm (s : State) (cause : Nat) (env : BootEnv) : State :=
  if s.boot.held ∨ s.boot.stage = 0xFE then s
  else
    let js := (s.sched.jobs.filter (fun q => q.2.isSome)).map (·.1)
    let s1 := js.foldl (fun s j => s.report Codes.deviceReset { job := j }) s
    (s1.saveJournal.warmed cause).bootSteps env

def execPerstAssert (env : BootEnv) (s : State) : Host.Outcome State Fault Refusal := .next (s.warm 2 env)

def execHotReset (env : BootEnv) (s : State) : Host.Outcome State Fault Refusal := .next (s.warm 3 env)

def execPfFlr (env : BootEnv) (s : State) : Host.Outcome State Fault Refusal := .next (s.warm 4 env)

/-- KEY of BOOT.RESET; without it a write is ignored. -/
def resetKeyOk (v : W32) : Bool := bitsOf v.toNat 31 16 == 0xB007

def execWarmReset (who : Iface) (v : W32) (env : BootEnv) (s : State) : Host.Outcome State Fault Refusal :=
  .next (s.privileged who (fun s => if resetKeyOk v && bitOf v.toNat 15 then s.warm 5 env else s))

def execConductorWatchdog (env : BootEnv) (s : State) : Host.Outcome State Fault Refusal := .next (s.warm 6 env)

/-! Per-die reset (R474, R478). -/

/-- Die, in the order of R461, that a test request runs on. -/
def TestReq.die (q : TestReq) : Nat :=
  match q.op with
  | 1 => 5 + q.target / 12
  | 2 => 13 + q.target
  | 3 => 13 + q.target
  | _ => 1 + linkEdge q.target

/-- DATA of a test record: ticket, OP, target and result flags. -/
def TestReq.data (q : TestReq) (flags : Nat) : List Byte := natLe 1 q.ticket ++ natLe 1 q.op ++ natLe 1 q.target ++ natLe 1 flags

/-- Running tests on a die are abandoned. -/
def State.dropTests (s : State) (d : Nat) : State :=
  let hit (q : TestReq) : Bool := q.running && q.die == d
  (s.boot.queue.filter hit).foldl (fun s q =>
    s.report Codes.testAborted { cls := (dieOf d).1, idx := (dieOf d).2, data := q.data 0 })
    (s.modBoot (fun b => { b with queue := b.queue.filter (fun q => !hit q) }))

/-- Jobs that hold tiles on a compute die fault, and its tiles, Dealer and contexts are reset. -/
def State.resetCompute (s : State) (d : Nat) : State :=
  let s1 := (s.dieJobs d).foldl (fun s q => s.jobFaults q.1 Codes.dieReset { cls := 2, idx := d }) s
  ((List.range 12).foldl (fun s i => s.setTile (12 * d + i) .init) s1).setDealer d .init

/-- Jobs that own frames in a stack. -/
def State.stackJobs (s : State) (k : Nat) : List Nat :=
  (s.mem.pages.filterMap (fun q => match q.2 with
    | some x => (match x.frame, s.object x.object with
      | some f, some o => (match o.owner with
        | .job j => if frameStack f = k then some j else none
        | _ => none)
      | _, _ => none)
    | none => none)).dedup

/-- Pages with a frame in a stack read as zero, and keep their mapping. -/
def State.zeroStack (s : State) (k : Nat) : State :=
  s.mem.pages.foldl (fun s q => match q.2.bind PageSt.frame with
    | some f => if frameStack f = k then s.modMem (fun m => { m with bytes := m.bytes.clear (q.1 * size2MiB) size2MiB }) else s
    | none => s) s

def State.resetStack (s : State) (k : Nat) : State :=
  let s1 := (s.stackJobs k).foldl (fun s j => s.jobFaults j Codes.dieReset { cls := 3, idx := k }) s
  (s1.zeroStack k).modStack k (fun x =>
    { x.counters with factory := x.factory, good := x.good, queue := x.queue, tempC := x.tempC, throttled := x.throttled })

/-- An edge die's links go to DOWN, and its streams stop. -/
def State.resetEdge (s : State) (q : Nat) : State :=
  let s1 := (List.range 24).foldl (fun s l => if linkEdge l = q then s.linkDown l else s) s
  (List.range 24).foldl (fun s e =>
    if engineEdge e = q then
      (s.codec.get .init e).open_.foldl (fun s p => if p.2.status = 2 then s else s.stopStream e p.1 p.2 Codes.dieReset) s
    else s) s1

/-- A per-die reset starts; one that the die is already in, or waits for, is merged with it (R473). -/
def State.resetDie (s : State) (d : Nat) : State :=
  if s.boot.resetting.contains d then s
  else if s.sec.activating then
    s.modBoot (fun b => { b with dies := b.dies.set 0 d 0, waiting := if b.waiting.contains d then b.waiting else b.waiting ++ [d] })
  else
    let s1 := (s.dropTests d).modBoot (fun b =>
      { b with dies := b.dies.set 0 d 0, resetting := b.resetting ++ [d], waiting := b.waiting.filter (· != d) })
    if d < 5 then s1.resetEdge (d - 1) else if d < 13 then s1.resetCompute (d - 5) else s1.resetStack (d - 13)

/-- BOOT.RESET.DIE: 0x7F names none; KD and numbers past the dies are refused. -/
def perDieReset (v : W32) (s : State) : State :=
  let d := bitsOf v.toNat 6 0
  if !resetKeyOk v || bitOf v.toNat 15 || d == 0x7F then s
  else if d = 0 ∨ 44 < d then s.report Codes.badRegAccess {}
  else s.resetDie d

def execPerDieReset (who : Iface) (v : W32) (s : State) : Host.Outcome State Fault Refusal :=
  .next (s.privileged who (perDieReset v))

/-- The die has been tested, loaded and measured: a compute or edge die that fails is held out (R478, R480). -/
def perDieResetComplete (d : Nat) (ok : Bool) (s : State) : State :=
  if !s.boot.resetting.contains d then s
  else
    let s1 := s.modBoot (fun b => { b with resetting := b.resetting.filter (· != d) }.setDieByte d 0)
    let s2 := if ok then s1.modBoot (fun b => { b with bistFail := clearBit b.bistFail d })
      else s1.markBist d { cls := (dieOf d).1, idx := (dieOf d).2 }
    if d < 5 then
      if ok then
        let s3 := { s2 with codec := (List.range 24).foldl (fun m e =>
            if engineEdge e = d - 1 then m.set .init e { m.get .init e with unused := false } else m) s2.codec }
        (List.range 24).foldl (fun s l => if linkEdge l = d - 1 then s.startTraining l else s) s3
      else s2.failEdge (d - 1)
    else s2.reapply

def execPerDieResetComplete (die : Nat) (ok : Bool) (s : State) : Host.Outcome State Fault Refusal :=
  .next (perDieResetComplete die ok s)

/-- A die's watchdog expires (R474). -/
def dieWatchdog (d : Nat) (s : State) : State :=
  if d = 0 ∨ 44 < d ∨ s.boot.resetting.contains d then s
  else (s.report Codes.dieWatchdog { cls := (dieOf d).1, idx := (dieOf d).2 }).resetDie d

def execDieWatchdogExpiry (die : Nat) (s : State) : Host.Outcome State Fault Refusal := .next (dieWatchdog die s)

/-! The end of an activation (R458, R461, R462). -/

/-- The new slot is active where it verified, else the old one is reloaded; every die is measured, the SPDM responder is as
after reset, and the per-die resets that waited start. -/
def activationComplete (s : State) : State :=
  let x := s.sec
  if !x.activating then s
  else
    let close (y : SecSt) : SecSt := { y with activating := false, spdm := ⟨false, false⟩, image := [] }
    let s1 := if x.verdict = 0 then
        s.modSec (fun y => close ({ y with slotB := !y.slotB, recordB := !y.slotB, staged := 0 }.load x.image s.boot.userCal))
      else
        (s.modSec (fun y => close ({ y with staged := 2 }.load (y.slotImage y.slotB) s.boot.userCal))).report x.verdict {}
    let ds := (List.range 45).filter (fun d => !s.boot.resetting.contains d && !s.boot.waiting.contains d)
    let s2 := s1.modBoot (fun b => ds.foldl (fun b d => b.setDieByte d 0) b)
    s2.boot.waiting.foldl State.resetDie s2

def execActivationComplete (s : State) : Host.Outcome State Fault Refusal := .next (activationComplete s)

/-! Loss of power and of a clock (R311, R501). -/

/-- The input falls below 40 V or is removed: stripes without a programmed journal record are lost. -/
def inputPowerLoss (s : State) : State :=
  (s.modFtl (fun f => { f with journalLost := f.journalLost || !f.unjournaled.isEmpty })).lowered 0 false

def execInputPowerLoss (s : State) : Host.Outcome State Fault Refusal := .next (inputPowerLoss s)

/-- An edge die without its link reference clock holds its six links in DOWN. -/
def clockLoss (q : Nat) (s : State) : State :=
  let s1 := s.modBoot (fun b => { b with noClock := if b.noClock.contains q then b.noClock else b.noClock ++ [q] })
  (List.range 24).foldl (fun s l => if linkEdge l = q then s.linkDown l else s) s1

def execLinkReferenceClockLoss (q : Edge) (s : State) : Host.Outcome State Fault Refusal := .next (clockLoss q s)

end Sys2Proof.Machine
end

