-- ==== Sys2Proof/Machine/Errors.lean ====
section
/-!
DEFINITION. Machine/Errors.lean: collection of error records, the function windows, vector 0 and the alert (R487, R488, R496).
-/

namespace Sys2Proof.Machine

/-- A record as its 64 bytes (Table 9 of 16). -/
def errBytes (r : ErrRec) (seq ktime : Nat) : List Byte :=
  natLe 2 0x20B8 ++ natLe 2 r.code.toNat ++ natLe 1 r.sev ++ natLe 1 r.cls ++ natLe 1 r.idx ++ natLe 1 r.func
    ++ natLe 8 seq ++ natLe 8 ktime ++ natLe 4 r.time.toNat ++ natLe 2 r.unit ++ natLe 2 r.job
    ++ (r.data ++ List.replicate 32 0#8).take 32

def bytesVec (bs : List Byte) : BitVec 512 := BitVec.ofNat 512 (leNat bs)

/-- A record enters the ring of 4,096; the oldest is overwritten once it is full. -/
def GlobalLog.enter (g : GlobalLog) (x : BitVec 512) : GlobalLog :=
  { seq := g.seq + 1, lost := if g.seq < 4096 then g.lost else satAdd (2 ^ 32 - 1) g.lost 1,
    slots := g.slots.set 0 (g.seq % 4096) x }

/-- A record enters a function's window, whose vector 0 is due. -/
def FuncLog.enter (l : FuncLog) (x : BitVec 512) : FuncLog :=
  { count := l.count + 1, slots := l.slots.set 0 (l.count % 1023) x, pending := true }

def State.modFuncLog (s : State) (f : Nat) (go : FuncLog → FuncLog) : State :=
  { s with logs := { s.logs with funcs := s.logs.funcs.set .init f (go (s.logs.funcs.get .init f)) } }

/-- The conductor takes one record: SEQ is its own, KTIME a free value (log entry 3). -/
def State.collect (s : State) (r : ErrRec) : State :=
  let (w, s) := s.draw
  let x := bytesVec (errBytes r s.logs.global.seq w.toNat)
  let s1 := { s with logs := { s.logs with global := s.logs.global.enter x, alert := s.logs.alert || r.sev == 2 } }
  let s2 := if r.func < 64 then s1.modFuncLog r.func (fun l => l.enter x) else s1
  let s3 := if r.sev = 2 ∨ r.func = 0xFF then s2.modFuncLog 0 (fun l => { l with pending := true }) else s2
  if r.sev = 2 then s3.send .i3c else s3

/-- The local log of a die is collected; what it had dropped is counted by one LOG_OVERRUN record now that it has space. -/
def errorLogCollection (cls idx : Nat) (s : State) : State :=
  let k := cls * 64 + idx
  let l := s.logs.locals.get .init k
  let s1 := l.recs.foldl State.collect { s with logs := { s.logs with locals := s.logs.locals.set .init k .init } }
  if l.dropped = 0 then s1 else s1.report Codes.logOverrun { cls := cls, idx := idx, data := natLe 8 l.dropped }

def execErrorLogCollection (cls idx : Nat) (s : State) : Host.Outcome State Fault Refusal :=
  .next (errorLogCollection cls idx s)

/-- Vector 0 of a function for the records that have entered since it was last sent. -/
def errorVectorSend (f : Nat) (s : State) : State :=
  if (s.logs.funcs.get .init f).pending then (s.modFuncLog f (fun l => { l with pending := false })).msix f 0 else s

def execErrorVectorSend (f : Func) (s : State) : Host.Outcome State Fault Refusal := .next (errorVectorSend f s)

/-- ERR.STATUS: WRITTEN and LOST. -/
def LogSt.errStatus (l : LogSt) : Nat := l.global.seq % 2 ^ 32 + l.global.lost * 2 ^ 32

/-- A read of ERR.STATUS returns it and releases ALERT_N. -/
def errStatusRead (s : State) : State :=
  ({ s with logs := { s.logs with alert := false } }).send (.readData (natLe 8 s.logs.errStatus))

def execErrStatusRead (who : Iface) (s : State) : Host.Outcome State Fault Refusal := .next (s.privileged who errStatusRead)

end Sys2Proof.Machine
end

