-- ==== Sys2Proof/Machine/HostPort.lean ====
section
/-!
DEFINITION. Machine/HostPort.lean: host accesses to the unified range (R283, R294, R392 to R394, R463).
-/

namespace Sys2Proof.Machine

/-- Completion statuses of `OutMsg.hostStatus`: Unsupported Request, Completer Abort, and all-ones data with poison. -/
def statusUr : Nat := 1
def statusCa : Nat := 2
def statusPoison : Nat := 3

/-- Unified address of an offset in BAR4 of a function; none while its aperture is off (R393, R427). -/
def State.apertureAddr (s : State) (f off : Nat) : Option Nat :=
  let w := (s.sched.aperture.get 0 f).toNat
  if bitOf w 63 then some (bitsOf w 11 0 * 2 ^ 36 + off) else none

/-- A host access to `n` bytes through the aperture: the check, and what a page that is not resident gives. -/
def State.hostAccess (s : State) (f off n : Nat) (absent : State → State) (go : Nat → State → State) : State :=
  match s.apertureAddr f off with
  | none => s.send (.hostStatus statusUr)
  | some a =>
    if (s.boot.cxl && f != 0) || n == 0 || (s.checkRange (.func f) a n).isSome then s.send (.hostStatus statusUr)
    else if !(s.absentPages a n).isEmpty then
      absent (s.report Codes.hostNotResident { func := f, data := s.memData a })
    else go a s

/-- BAR4, or the HDM range in CXL mode. -/
def hostBar4Access (f off : Nat) (acc : Access) (s : State) : State :=
  match acc with
  | .read n =>
    s.hostAccess f off n
      (fun s =>
        if s.boot.cxl then (s.send (.readData (List.replicate n 0xFF#8))).send (.hostStatus statusPoison)
        else s.send (.hostStatus statusCa))
      (fun a s => s.send (.readData (s.readMem a n)))
  | .write d => s.hostAccess f off d.length (fun s => s) (fun a s => s.writeMem a d)

def execHostBar4Access (f : Func) (off : BitVec 36) (acc : Access) (s : State) : Host.Outcome State Fault Refusal :=
  .next (hostBar4Access f off.toNat acc s)

/-- FetchAdd of 4 or 8 bytes, with return of the value before. -/
def hostFetchAdd (f off : Nat) (wide : Bool) (v : W64) (s : State) : State :=
  let n := if wide then 8 else 4
  if off % n ≠ 0 then s.send (.hostStatus statusUr)
  else
    s.hostAccess f off n (fun s => s.send (.hostStatus statusCa)) (fun a s =>
      let old := s.readMem a n
      (s.memSide .add (if wide then .int64 else .int32) a (natLe n v.toNat)).send (.readData old))

def execHostAtomicFetchAdd (f : Func) (off : BitVec 36) (wide : Bool) (v : W64) (s : State) :
    Host.Outcome State Fault Refusal :=
  .next (hostFetchAdd f off.toNat wide v s)

end Sys2Proof.Machine
end

