-- ==== Sys2Proof/Machine/Tests.lean ====
section
/-!
DEFINITION. Machine/Tests.lean: requested tests (R358, R479, R480, R484 to R486) and writes of the calibration region (R483).
-/

namespace Sys2Proof.Machine

/-! Requests (R484). -/

/-- Acknowledgement for the interface that wrote. -/
def State.setAck (s : State) (board : Bool) (a : ReqAck) : State :=
  s.modBoot (fun b => if board then { b with ackBoard := a } else { b with ackHost := a })

def State.ackOf (s : State) (board : Bool) : ReqAck := if board then s.boot.ackBoard else s.boot.ackHost

/-- The target exists (Table 7 of 16). -/
def testTargetOk (op target : Nat) : Bool :=
  match op with
  | 1 => decide (target < 96)
  | 2 => decide (target < 32)
  | 3 => decide (target < 32)
  | 4 => decide (target < 24)
  | 5 => decide (target < 24)
  | 6 => decide (target < 256)
  | _ => false

/-- POSITION of a request (R485): 0 while it runs, else 1 and the earlier ones that have not started. -/
def queuePosition (qs : List TestReq) (ticket : Nat) : Nat :=
  match qs.find? (fun q => q.ticket == ticket) with
  | some q => if q.running then 0 else 1 + ((qs.takeWhile (fun p => p.ticket != ticket)).filter (fun p => !p.running)).length
  | none => 0

/-- A refused request keeps the ticket of the last one (R490). -/
def State.refuseTest (s : State) (board : Bool) (status : Nat) (code : Code) : State :=
  (s.setAck board ⟨true, (s.ackOf board).ticket, 0, status⟩).report code {}

/-- Queues a request with the next ticket. -/
def State.queueTest (s : State) (board : Bool) (op target : Nat) : State :=
  let n := s.boot.ticket
  let qs := s.boot.queue ++ [⟨n, op, target, board, false⟩]
  (s.modBoot (fun b => { b with queue := qs, ticket := (n + 1) % 256 })).setAck board ⟨true, n, queuePosition qs n, 0⟩

/-- A write of BOOT.REQ with OP 1 to 5. -/
def State.testRequest (s : State) (who : Iface) (op target : Nat) : State :=
  let board := decide (who = .board)
  s.privileged who (fun s =>
    if !testTargetOk op target then s.refuseTest board 2 Codes.badRegAccess
    else if 64 ≤ s.boot.queue.length then s.refuseTest board 1 Codes.testQueueFull
    else s.queueTest board op target)

def execTileSelfTestRequest (who : Iface) (target : BitVec 8) (s : State) : Host.Outcome State Fault Refusal :=
  .next (s.testRequest who 1 target.toNat)

def execStackSelfTestRequest (who : Iface) (target : BitVec 8) (s : State) : Host.Outcome State Fault Refusal :=
  .next (s.testRequest who 2 target.toNat)

def execStackMarginRequest (who : Iface) (target : BitVec 8) (s : State) : Host.Outcome State Fault Refusal :=
  .next (s.testRequest who 3 target.toNat)

def execLinkRetrainRequest (who : Iface) (target : BitVec 8) (s : State) : Host.Outcome State Fault Refusal :=
  .next (s.testRequest who 4 target.toNat)

def execLinkMarginRequest (who : Iface) (target : BitVec 8) (s : State) : Host.Outcome State Fault Refusal :=
  .next (s.testRequest who 5 target.toNat)

/-! Starting and abandoning (R485, R486). -/

/-- Posts that waited for a test on a link go on (R486). -/
def State.colResume (s : State) : State := (List.range 16).foldl State.colSettle s

def State.dropTicket (s : State) (ticket : Nat) : State :=
  s.modBoot (fun b => { b with queue := b.queue.filter (fun q => q.ticket != ticket) })

/-- A cancelled running test is abandoned: a link in MARGIN returns to UP; a retrain goes on as the link's own. -/
def State.abandon (s : State) (q : TestReq) : State :=
  match q.op with
  | 3 => s.modStack q.target (fun x => { x with margining := false })
  | 5 => if (s.link q.target).phase = .margin then s.linkUp q.target else s
  | _ => s

/-- OP 6: the request with that ticket leaves the queue. -/
def testCancel (board : Bool) (ticket : Nat) (s : State) : State :=
  let s1 := s.setAck board ⟨true, ticket, 0, 0⟩
  match s.boot.queue.find? (fun q => q.ticket == ticket) with
  | none => s1
  | some q =>
    let s2 := s1.dropTicket ticket
    if q.running then (s2.abandon q).colResume else s2

def execTestCancel (who : Iface) (target : BitVec 8) (s : State) : Host.Outcome State Fault Refusal :=
  .next (s.privileged who (testCancel (decide (who = .board)) target.toNat))

/-- A link can be tested: UP, with no collective and nothing unacknowledged (R358). -/
def State.linkIdle (s : State) (l : Nat) : Bool :=
  let x := s.link l
  x.phase == .up && !s.linkCarries l && x.replay.isEmpty && (!isFar l || s.links.sess.all (fun q => q.2.unacked.isEmpty))

/-- Both test one unit. -/
def TestReq.sameUnit (a b : TestReq) : Bool :=
  a.target == b.target && (a.op == b.op || ((a.op == 2 || a.op == 3) && (b.op == 2 || b.op == 3))
    || ((a.op == 4 || a.op == 5) && (b.op == 4 || b.op == 5)))

/-- The target of a request is idle (Table 7 of 16). -/
def State.testIdle (s : State) (q : TestReq) : Bool :=
  !s.boot.queue.any (fun p => p.running && p.sameUnit q) && !s.boot.resetting.contains q.die
    && (match q.op with
      | 1 => (s.tileJob q.target).isNone
      | 2 => s.marginReady q.target
      | 3 => s.marginReady q.target
      | _ => s.linkIdle q.target)

/-- A tile self-test overwrites the tile's memories: until it ends they hold free values. -/
def State.spoilTile (s : State) (t : Nat) : State :=
  let k := s.freeCtr
  ({ s with freeCtr := k + 2 }).modTile t (fun x =>
    { x with
      spad := SMap.entries 0 0 ((List.range spadSize).map (Config.freeByte k)),
      acc := SMap.entries 0 0 ((List.range 262144).map (fun i => BitVec.ofNat 32 (leNat ((List.range 4).map (fun b => Config.freeByte (k + 1) (4 * i + b)))))) })

/-- A request starts. -/
def State.startTest (s : State) (q : TestReq) : State :=
  let s1 := s.modBoot (fun b => { b with queue := b.queue.map (fun (p : TestReq) => if p.ticket = q.ticket then { p with running := true } else p) })
  match q.op with
  | 1 => s1.spoilTile q.target
  | 3 => s1.modStack q.target (fun x => { x with margining := true })
  | 4 => s1.retrainLink q.target
  | 5 => s1.modLink q.target (fun x => { x with phase := .margin })
  | _ => s1

/-- POSITION as a scan leaves it. -/
def State.refreshAck (s : State) (board : Bool) : State :=
  let a := s.ackOf board
  if a.valid && a.status == 0 then s.setAck board { a with position := queuePosition s.boot.queue a.ticket } else s

/-- The scan of every 65,536 kclk cycles, in arrival order (R485). -/
def testQueueScan (s : State) : State :=
  ((s.boot.queue.foldl (fun s q => if !q.running && s.testIdle q then s.startTest q else s) s).refreshAck false).refreshAck true

def execTestQueueScan (s : State) : Host.Outcome State Fault Refusal := .next (testQueueScan s)

/-! Results (R303, R480, R486). -/

/-- Record of a finished request. -/
def State.testResult (s : State) (q : TestReq) (pass : Bool) : State :=
  s.report (if pass then Codes.testDone else Codes.testFailed)
    { cls := (dieOf q.die).1, idx := (dieOf q.die).2, data := q.data (if pass then 1 else 0) }

/-- A tile self-test leaves the tile's memories zero-filled; the die is held out while any test of it has failed, until one of
it passes (R479, R480). -/
def State.endTileTest (s : State) (t : Nat) (pass : Bool) : State :=
  let s1 := s.modTile t (fun x => { x with spad := [], acc := [], units := [] })
  if pass then (s1.modBoot (fun b => { b with bistFail := clearBit b.bistFail (5 + t / 12) })).reapply
  else s1.markBist (5 + t / 12) { cls := 2, idx := t / 12, unit := t % 12 }

/-- Every good channel of a stack that has been margined met its limits. -/
def State.stackPasses (s : State) (k : Nat) : Bool := (s.stack k).good32.all (fun c => ((s.stack k).chans.get .init c).pass)

def State.endTest (s : State) (q : TestReq) (pass : Bool) (results : List Margins) : State :=
  match q.op with
  | 1 => (s.endTileTest q.target pass).testResult q pass
  | 2 =>
    let s1 := if pass then s.modBoot (fun b => { b with bistFail := clearBit b.bistFail (13 + q.target) }) else s.failStack q.target
    s1.testResult q pass
  | 3 =>
    let s1 := (s.modStack q.target (fun x => { x with margining := false })).marginStack q.target results
    s1.testResult q (s1.stackPasses q.target)
  | _ => (s.testResult q ((s.link q.target).phase == .up)).colResume

/-- A requested test has finished: a retrain once its link has left RETRAIN, a margin sweep of a link only where the link has left
MARGIN, since LINK_MARGIN_DONE ends it otherwise. -/
def testComplete (ticket : Nat) (pass : Bool) (results : List Margins) (s : State) : State :=
  match s.boot.queue.find? (fun q => q.ticket == ticket && q.running) with
  | none => s
  | some q =>
    let busy := (q.op == 4 && (s.link q.target).phase == .retrain) || (q.op == 5 && (s.link q.target).phase == .margin)
    if busy then s else (s.dropTicket ticket).endTest q pass results

def execTestComplete (ticket : Nat) (pass : Bool) (results : List Margins) (s : State) : Host.Outcome State Fault Refusal :=
  .next (testComplete ticket pass results s)

/-- A margin sweep of a link ends (R358). -/
def linkMarginDone (l : Nat) (rs : List Margins) (s : State) : State :=
  if (s.link l).phase ≠ .margin then s
  else
    let s1 := s.marginLink l rs
    match s.boot.queue.find? (fun q => q.running && q.op == 5 && q.target == l) with
    | some q => ((s1.dropTicket q.ticket).testResult q (s1.marginPasses l)).colResume
    | none => s1.colResume

def execLinkMarginDone (l : Link) (results : List Margins) (s : State) : Host.Outcome State Fault Refusal :=
  .next (linkMarginDone l results s)

/-! Writes of the calibration region (R483). -/

/-- RSVD bytes and unlisted bytes of an image are zero (Table 5 of 16). -/
def calClean (bs : List Byte) : Bool :=
  let zero (o n : Nat) : Bool := ((bs.drop o).take n).all (· == 0)
  zero 2 2 && zero 0x10 48 && zero 0x921 3 && zero 0x92C 0x6D4 && zero 0x5000 0xB000

/-- The image passes: header, CRC and RSVD bytes, and no more than 4,096 retired frames. -/
def calImageOk (bs : List Byte) : Bool := calValid bs && calClean bs && decide (fieldLe bs 0x928 4 ≤ 4096)

/-- BOOT.CAL_WRITE: the address register is written, and an image that passes its checks starts a region write. -/
def calWrite (addr : Nat) (s : State) : State :=
  let a := bitsOf addr 47 0
  let s1 := s.modBoot (fun b => { b with calAddr := a })
  if s.boot.cal = 1 then s.report Codes.calRejected {}
  else if a % 256 = 0 ∧ s.pinnedFor (.func 0) (a, calSize) ∧ calImageOk (s.readMem a calSize) then
    s1.modBoot (fun b => { b with cal := 1, calImage := s.readMem a calSize })
  else (s1.modBoot (fun b => { b with cal := 3 })).report Codes.calRejected {}

def execCalWrite (who : Iface) (addr : W64) (s : State) : Host.Outcome State Fault Refusal :=
  .next (s.physical who (calWrite addr.toNat))

/-- The copy of lower SEQ is written. -/
def calWriteComplete (s : State) : State :=
  if s.boot.cal ≠ 1 then s
  else (s.calStore s.boot.calImage).modBoot (fun b => { b with cal := 2, calImage := [] })

def execCalWriteComplete (s : State) : Host.Outcome State Fault Refusal := .next (calWriteComplete s)

end Sys2Proof.Machine
end

