-- ==== Sys2Proof/Machine/Regs.lean ====
section
/-!
DEFINITION. Machine/Regs.lean: the registers, where they lie (R3, R4; R74, R100, R135, R160, R207, R267, R318, R341, R360, R391,
R396, R427, R450, R472, R490), how wide they are, and what a read of each returns.
-/

namespace Sys2Proof.Machine

/-- Every register, with its unit: tile by global index, stack, link, engine, ring, function and die as the spec numbers them. -/
inductive Reg where
  | kndCap | gradeFreq | aperture (f : Nat)
  | ringSq (r : Nat) | ringCq (r : Nat) | ringCfg (r : Nat) | ringCtrl (r : Nat) | ringStatus (r : Nat) | ringPtr (r : Nat)
  | ringJobsA (r : Nat) | ringJobsB (r : Nat) | ringOwner (r : Nat)
  | swapWait | ageLimit | schedStatus | schedPartition
  | ftlCap | ftlStatus | ftlPolicy | ftlBudget
  | secStatus | secFw | secUpdate | stageAddr | secWriteCap | secSerial | identity (i : Nat) | tenantTag (f : Nat)
  | bootStatus | bootCtrl | bootReset | bistFail | bootReq | reqAck | bootCalWrite | errStatus | errLog (w : Nat)
  | codecCap (e : Nat) | codecStatus (e : Nat) | codecCounts (e : Nat)
  | lnkCtrl (l : Nat) | lnkStatus (l : Nat) | lnkCounts (l : Nat) | lnkMarginLimit (l : Nat) | lnkMargin (l lane : Nat)
  | potStatus (l : Nat) | potCounts (l : Nat)
  | dlrCap (d : Nat) | dlrStatus (d : Nat) | dlrReject (d : Nat) | dlrBound (d n : Nat)
  | isaCap (t : Nat) | tileFault (t : Nat) | waitLimit (t : Nat) | traceStatus (t : Nat) | traceWord (t w : Nat)
  | mtxThresh (t : Nat) | replayCredits (t : Nat) | srSeed (t : Nat) | mtxPhase (t : Nat) | sumBlocks (t : Nat)
  | sumDamage (t : Nat) | sumFlags (t : Nat)
  | vecCap (t : Nat) | sfuCap (t : Nat) | compatCount (t : Nat)
  | pairsIssued (t : Nat) | pairsSkipped (t : Nat) | appendDropped (t : Nat)
  | attCap (d : Nat) | ctxOwner (d : Nat) | ctxHold (d c : Nat)
  | winCap (t : Nat) | winDegenerate (t : Nat)
  | dieVolt (d : Nat) | dieLimit (d : Nat) | pwrTile (t : Nat)
  | chanMap (k : Nat) | eccCount (k : Nat) | ueAddr (k : Nat) | memScrub (k : Nat) | memMarginLimit (k : Nat)
  | memMargin (k c : Nat) | seStatus (k : Nat) | pwrStack (k : Nat)
  | memCap | lnkRank
  | colCap | colStall | colError | colDigest (i : Nat) | colDigestStep | colChan (c : Nat)
  | pwrCap | quadCap | pwrInput | pwrGrade | pwrLimits | holdWindow | pwrRamp | pwrTherm | pwrDroop | pwrStatus
  | gradeTable (g : Nat) | energyRing (r : Nat) | partCap (f : Nat) | energyPart (f : Nat) | energyUnattr | pwrCal
  deriving DecidableEq, Repr

/-! Places. -/

/-- Index of an array of registers of `step` bytes, from `base`, of `n`. -/
def arrayAt (base step n off : Nat) : Option Nat :=
  if base ≤ off ∧ off < base + step * n ∧ (off - base) % step = 0 then some ((off - base) / step) else none

/-- Registers of a ring (Table 11 of 13). -/
def ringReg (r off : Nat) : Option Reg :=
  match off with
  | 0x00 => some (.ringSq r)
  | 0x08 => some (.ringCq r)
  | 0x10 => some (.ringCfg r)
  | 0x18 => some (.ringCtrl r)
  | 0x20 => some (.ringStatus r)
  | 0x28 => some (.ringPtr r)
  | 0x30 => some (.ringJobsA r)
  | 0x38 => some (.ringJobsB r)
  | 0x40 => some (.ringOwner r)
  | _ => none

/-- Conductor (die class 0): none where the block is unassigned, else the register at the offset, if there is one. -/
def condReg (blk off : Nat) : Option (Option Reg) :=
  match blk with
  | 0x000 => some (match off with | 0 => some .kndCap | 8 => some .gradeFreq | _ => none)
  | 0x001 => some ((arrayAt 0 8 64 off).map .aperture)
  | 0x040 => some (if off < 0x10000 then ringReg (off / 256) (off % 256) else none)
  | 0x041 => some (match off with
    | 0x00 => some .swapWait | 0x08 => some .ageLimit | 0x10 => some .schedStatus | 0x18 => some .schedPartition | _ => none)
  | 0x050 => some (match off with
    | 0x00 => some .ftlCap | 0x08 => some .ftlStatus | 0x10 => some .ftlPolicy | 0x18 => some .ftlBudget | _ => none)
  | 0x060 => some (match off with
    | 0x00 => some .secStatus | 0x08 => some .secFw | 0x10 => some .secUpdate | 0x18 => some .stageAddr
    | 0x20 => some .secWriteCap | 0x28 => some .secSerial | _ => (arrayAt 0x100 8 12 off).map .identity)
  | 0x061 => some ((arrayAt 0 8 64 off).map .tenantTag)
  | 0x070 => some (match off with
    | 0x00 => some .bootStatus | 0x08 => some .bootCtrl | 0x10 => some .bootReset | 0x18 => some .bistFail
    | 0x20 => some .bootReq | 0x28 => some .reqAck | 0x30 => some .bootCalWrite | _ => none)
  | 0x071 => some (match off with
    | 0x00 => some .errStatus | _ => (arrayAt 0x40000 8 32768 off).map .errLog)
  | _ => none

/-- Edge die `q`. -/
def edgeReg (q blk off : Nat) : Option (Option Reg) :=
  let engine (e : Nat) : Option (Option Reg) :=
    some (match off with | 0x00 => some (.codecCap e) | 0x08 => some (.codecStatus e) | 0x10 => some (.codecCounts e) | _ => none)
  if 0x100 ≤ blk ∧ blk < 0x104 then engine (4 * q + (blk - 0x100))
  else if 0x110 ≤ blk ∧ blk < 0x112 then engine (16 + 2 * q + (blk - 0x110))
  else if 0x200 ≤ blk ∧ blk < 0x218 ∧ linkEdge (blk - 0x200) = q then
    let l := blk - 0x200
    some (match off with
      | 0x00 => some (.lnkCtrl l) | 0x08 => some (.lnkStatus l) | 0x10 => some (.lnkCounts l) | 0x18 => some (.lnkMarginLimit l)
      | _ => (arrayAt 0x100 8 8 off).map (.lnkMargin l))
  else if 0x300 ≤ blk ∧ blk < 0x318 ∧ linkEdge (blk - 0x300) = q then
    let l := blk - 0x300
    some (match off with | 0x00 => some (.potStatus l) | 0x08 => some (.potCounts l) | _ => none)
  else none

/-- Compute die `d`: a block per tile from a base. -/
def computeReg (d blk off : Nat) : Option (Option Reg) :=
  let tile (base : Nat) : Option Nat := if base ≤ blk ∧ blk < base + 12 then some (12 * d + (blk - base)) else none
  match blk with
  | 0x008 => some (match off with
    | 0x00 => some (.dlrCap d) | 0x08 => some (.dlrStatus d) | 0x10 => some (.dlrReject d)
    | _ => (arrayAt 0x100 8 16 off).map (.dlrBound d))
  | 0x0A0 => some (match off with
    | 0x00 => some (.attCap d) | 0x08 => some (.ctxOwner d) | _ => (arrayAt 0x10 8 4 off).map (.ctxHold d))
  | 0x0E0 => some (match off with
    | 0x00 => some (.dieVolt d) | 0x08 => some (.dieLimit d)
    | _ => (arrayAt 0x100 8 12 off).map (fun t => .pwrTile (12 * d + t)))
  | _ =>
    match tile 0x010, tile 0x030, tile 0x050, tile 0x070, tile 0x090, tile 0x0C0 with
    | some t, _, _, _, _, _ => some (match off with
      | 0x00 => some (.isaCap t) | 0x08 => some (.tileFault t) | 0x10 => some (.waitLimit t) | 0x18 => some (.traceStatus t)
      | _ => (arrayAt 0x1000 8 512 off).map (.traceWord t))
    | _, some t, _, _, _, _ => some (match off with
      | 0x00 => some (.mtxThresh t) | 0x08 => some (.replayCredits t) | 0x10 => some (.srSeed t) | 0x18 => some (.mtxPhase t)
      | 0x20 => some (.sumBlocks t) | 0x28 => some (.sumDamage t) | 0x30 => some (.sumFlags t) | _ => none)
    | _, _, some t, _, _, _ => some (match off with | 0x00 => some (.vecCap t) | _ => none)
    | _, _, _, some t, _, _ => some (match off with | 0x00 => some (.sfuCap t) | 0x08 => some (.compatCount t) | _ => none)
    | _, _, _, _, some t, _ => some (match off with
      | 0x00 => some (.pairsIssued t) | 0x08 => some (.pairsSkipped t) | 0x10 => some (.appendDropped t) | _ => none)
    | _, _, _, _, _, some t => some (match off with | 0x00 => some (.winCap t) | 0x08 => some (.winDegenerate t) | _ => none)
    | _, _, _, _, _, _ => none

/-- Stack base die `k`. -/
def stackReg (k blk off : Nat) : Option (Option Reg) :=
  match blk with
  | 0x010 => some (match off with
    | 0x00 => some (.chanMap k) | 0x08 => some (.eccCount k) | 0x10 => some (.ueAddr k) | 0x18 => some (.memScrub k)
    | 0x20 => some (.memMarginLimit k) | _ => (arrayAt 0x100 8 32 off).map (.memMargin k))
  | 0x020 => some (match off with | 0x00 => some (.seStatus k) | _ => none)
  | 0x030 => some (match off with | 0x00 => some (.pwrStack k) | _ => none)
  | _ => none

/-- Module-wide registers. -/
def moduleReg (blk off : Nat) : Option (Option Reg) :=
  match blk with
  | 0x010 => some (match off with | 0x00 => some .memCap | _ => none)
  | 0x020 => some (match off with | 0x00 => some .lnkRank | _ => none)
  | 0x030 => some (match off with
    | 0x00 => some .colCap | 0x08 => some .colStall | 0x10 => some .colError | 0x40 => some .colDigestStep
    | _ => ((arrayAt 0x20 8 4 off).map .colDigest).or ((arrayAt 0x100 8 16 off).map .colChan))
  | 0x040 => some (match off with
    | 0x00 => some .pwrCap | 0x08 => some .quadCap | 0x10 => some .pwrInput | 0x18 => some .pwrGrade | 0x20 => some .pwrLimits
    | 0x28 => some .holdWindow | 0x30 => some .pwrRamp | 0x38 => some .pwrTherm | 0x40 => some .pwrDroop
    | 0x48 => some .pwrStatus | _ => (arrayAt 0x100 8 5 off).map .gradeTable)
  | 0x041 => some ((arrayAt 0 8 256 off).map .energyRing)
  | 0x042 => some (((arrayAt 0 16 64 off).map .partCap).or ((arrayAt 8 16 64 off).map .energyPart))
  | 0x043 => some (match off with | 0x00 => some .energyUnattr | 0x08 => some .pwrCal | _ => none)
  | _ => none

/-- The register at a window offset (R3): none where R5 refuses the access. -/
def regAt (off : Nat) : Option (Option Reg) :=
  let i := bitsOf off 35 30
  let b := bitsOf off 29 20
  let o := bitsOf off 19 0
  match bitsOf off 39 36 with
  | 0 => if i = 0 then condReg b o else none
  | 1 => if i < 4 then edgeReg i b o else none
  | 2 => if i < 8 then computeReg i b o else none
  | 3 => if i < 32 then stackReg i b o else none
  | 4 => if i = 0 then moduleReg b o else none
  | _ => none

/-- A register of 32 bits; the others have 64. -/
def Reg.short : Reg → Bool
  | .ringCtrl _ | .ringStatus _ | .ringOwner _ | .swapWait | .ageLimit | .secStatus | .secUpdate | .secWriteCap | .tenantTag _
  | .bootStatus | .bootCtrl | .bootReset | .reqAck | .codecStatus _ | .lnkStatus _ | .lnkMarginLimit _ | .lnkMargin _ _
  | .potStatus _ | .dlrStatus _ | .waitLimit _ | .traceStatus _ | .mtxThresh _ | .replayCredits _ | .mtxPhase _ | .vecCap _
  | .compatCount _ | .appendDropped _ | .ctxOwner _ | .winDegenerate _ | .dieLimit _ | .memScrub _ | .memMarginLimit _
  | .memMargin _ _ | .seStatus _ | .pwrStack _ | .lnkRank | .colStall | .pwrCap | .pwrGrade | .pwrLimits | .holdWindow
  | .pwrRamp | .pwrTherm | .pwrDroop | .pwrStatus | .partCap _ | .pwrCal => true
  | _ => false

/-! Reads. -/

/-- A word of fields, each with its lowest bit. -/
def packFields (fs : List (Nat × Nat)) : Nat := (fs.map (fun q => q.1 * 2 ^ q.2)).sum

def b2n (b : Bool) : Nat := if b then 1 else 0

/-- A mask of the indices below `n` that hold. -/
def maskOf (n : Nat) (p : Nat → Bool) : Nat := (((List.range n).filter p).map (2 ^ ·)).sum

def satOf (w n : Nat) : Nat := min (2 ^ w - 1) n

/-- Live jobs in a phase. -/
def State.jobsIn (s : State) (p : JobSt → Bool) : Nat :=
  (s.sched.jobs.filter (fun q => match q.2 with | some x => p x | none => false)).length

/-- DLR.STATUS: a record in hand, queues with records left, and the tiles with a hand. -/
def State.dealerStatus (s : State) (d : Nat) : Nat :=
  let qs := (List.range 12).map (fun q => (s.dealer d).queues.get .init q)
  packFields [(maskOf 12 (fun i => (s.tile (12 * d + i)).hand.isSome), 0),
    ((qs.filter (fun q => q.job != 0 && decide (q.next < q.count))).length, 12), (b2n (qs.any (·.inHand.isSome)), 31)]

def State.engineStatus (s : State) (e : Nat) : Nat :=
  let xs := (s.codec.get .init e).open_
  packFields [((s.codec.get .init e).last, 8), ((xs.filter (fun q => s.streamReady q.2)).length, 16), (xs.length, 24)]

/-- Early data of a port in KiB: chunks held for a channel whose traffic from their sender uses the link (R352, R372). -/
def State.earlyKib (s : State) (l : Nat) : Nat :=
  (s.col.chans.map (fun q => (q.2.inbox.map (fun m => match m.2 with
    | .pot _ _ sender _ data =>
      if (match pairOf s.me sender with | some b => b + q.1 % 2 == l | none => isFar l && s.farLink == some l) then data.length else 0
    | _ => 0)).sum)).sum / 1024

/-- Channels with a collective running at a port. -/
def State.potActive (s : State) (l : Nat) : Nat :=
  maskOf 16 (fun c => match (s.chan c).run with
    | some x => x.phase == .running && (s.stageLinks x.members).contains l
    | none => false)

def ChanCol.stateCode (y : ChanCol) : Nat :=
  match y.run with
  | some x => (match x.phase with | .posted => 1 | .running => 2 | .stopped => 3)
  | none => if y.aborted then 3 else 0

def State.stackStatus (s : State) (k : Nat) : Nat :=
  let migs := s.mem.pages.filter (fun q => match q.2 with
    | some x => (match x.place with
      | .migratingIn f => frameStack f == k
      | .migratingOut f => frameStack f == k
      | _ => false)
    | none => false)
  let saving := s.sched.jobs.any (fun q => match q.2 with
    | some x => x.phase == .saving && x.places.any (fun p => p.die == k / 4)
    | none => false)
  packFields [(b2n ((s.stack k).goodCount == 0), 0), (b2n saving, 1), (b2n (s.stack k).margining, 2),
    (satOf 8 (s.stack k).queue.length, 16), (satOf 8 migs.length, 24)]

/-- Steps of a margined channel or lane, with VALID and PASS. -/
def marginWord (valid pass : Bool) (high low right left : Nat) : Nat :=
  packFields [(left, 0), (right, 8), (low, 16), (high, 20), (b2n pass, 24), (b2n valid, 25)]

/-- Bytes of an identity digest, the first of them lowest. -/
def Fuses.identityWord (f : Fuses) (i : Nat) : Nat := (f.identity.getD i 0).toNat

def FaultReg.word (x : FaultReg) : Nat :=
  packFields [(x.code.toNat, 0), (x.slot % 4096, 16), (b2n x.precise, 30), (b2n x.valid, 31), (x.handLo.toNat, 32)]

def Reg.readKnd (s : State) : Reg → Nat
  | .kndCap => packFields [(2, 0), (0xFF, 8), (0x1F, 19), (24, 24), (4, 32), (8, 36), (96, 40), (if s.boot.cxl then 1 else 64, 48), (b2n s.boot.cxl, 57)]
  | .gradeFreq => packFields [(1200, 0), (1500, 12), (1800, 24), (2000, 36), (2250, 48)]
  | .aperture f => (s.sched.aperture.get 0 f).toNat
  | .ringSq r => (s.ring r).sq.toNat
  | .ringCq r => (s.ring r).cq.toNat
  | .ringCfg r => (s.ring r).cfg.toNat
  | .ringCtrl r => b2n (s.ring r).enable
  | .ringStatus r =>
    let x := s.ring r
    packFields [(b2n x.active, 0), (b2n x.stopped, 1), (x.negGen, 4), (x.negMinor, 8), (x.error.toNat, 16)]
  | .ringPtr r => packFields [((s.ring r).sqHead.toNat, 0), ((s.ring r).cqTail.toNat, 32)]
  | .ringJobsA r => packFields [((s.ring r).submitted.toNat, 0), ((s.ring r).completed.toNat, 32)]
  | .ringJobsB r => packFields [((s.ring r).preempted.toNat, 0), ((s.ring r).faulted.toNat, 32)]
  | .ringOwner r => packFields [((s.ring r).owner.toNat, 0), (b2n (s.ring r).ownerValid, 7)]
  | .swapWait => s.sched.swapWait.toNat
  | .ageLimit => s.sched.ageLimit.toNat
  | .schedStatus => packFields [(((List.range 96).filter s.tileFree).length, 0), (s.jobsIn (fun x => x.phase == .saved), 12),
      (s.jobsIn (fun x => x.desc.cls == 0 && x.phase == .waiting), 24), (s.jobsIn (fun _ => true), 36), (s.sched.ante, 48)]
  | .schedPartition => packFields ((List.range 8).map (fun d =>
      match s.sched.partition.get 0 d with | 0 => (0, 8 * d) | f + 1 => (0x80 + f, 8 * d)))
  | _ => 0

def Reg.readSys (s : State) : Reg → Nat
  | .ftlCap => packFields [(s.mem.ftl.logicalPages, 0), (s.mem.ftl.channels.toNat, 48)]
  | .ftlStatus => packFields [(satOf 16 s.mem.ftl.spares, 0), (satOf 16 (s.mem.ftl.sbsIn .free).length, 16), (b2n s.mem.ftl.readOnly, 63)]
  | .ftlPolicy => packFields [(s.mem.ftl.gcLow, 0), (s.mem.ftl.wlDelta, 16), (s.mem.ftl.rdLimit, 32)]
  | .ftlBudget => s.mem.ftl.budget.toNat
  | .secStatus => packFields [(b2n s.sec.slotB, 1), (s.sec.staged, 2), (b2n s.sec.activating, 4), (1, 5), (s.sec.lastCode.toNat, 16)]
  | .secFw => packFields [(s.fuses.revoked.toNat, 4), (s.sec.keyIndex, 8), (s.fuses.rollback, 24), (s.sec.svn, 32)]
  | .stageAddr => s.sec.stageAddr
  | .secWriteCap => s.sec.writeCap.toNat
  | .secSerial => s.fuses.serial.toNat
  | .identity i => s.fuses.identityWord i
  | .tenantTag f => (s.sec.tags.get 0 f).toNat
  | .bootStatus => packFields [(s.boot.lastCode.toNat, 0), (s.boot.cal, 18), (s.boot.cause, 20), (s.boot.stage, 24)]
  | .bootCtrl => b2n s.boot.marginSt00
  | .bistFail => s.boot.bistFail
  | .bootCalWrite => s.boot.calAddr
  | .errStatus => s.logs.errStatus
  | .errLog w => bitsOf (s.logs.global.slots.get 0 (w / 8)).toNat (64 * (w % 8) + 63) (64 * (w % 8))
  | .memCap => packFields [(((List.range 32).map (fun k => (s.stack k).goodCount)).sum, 0), (s.framesAvail, 16), (s.rangePages, 37)]
  | .lnkRank => packFields [(s.boot.slot.toNat, 0), (s.links.rrc, 2), (b2n s.links.twin, 14), (b2n s.links.rankValid, 31)]
  | _ => 0

/-- BOOT.REQ_ACK of the interface that reads it. -/
def ReqAck.word (a : ReqAck) : Nat := packFields [(a.status, 0), (a.position, 8), (a.ticket, 16), (b2n a.valid, 31)]

def Reg.readEdge (s : State) : Reg → Nat
  | .codecCap e => packFields [(0x0A, 8), (0x2000, 16), (if isEncoder e then 0x0C else 0x1E, 32), (0x40, 40)]
  | .codecStatus e => s.engineStatus e
  | .codecCounts e => packFields [((s.codec.get .init e).frames.toNat, 0), ((s.codec.get .init e).events.toNat, 32)]
  | .lnkCtrl l =>
    let x := s.link l
    packFields [(b2n x.enable, 0), (x.media, 2), (x.encap, 4), (x.etype, 16), (x.rto.toNat, 32)]
  | .lnkStatus l =>
    let x := s.link l
    packFields [(x.error, 0), (x.version, 4), (x.phase.code, 8), (x.peer, 17)]
  | .lnkCounts l =>
    let x := s.link l
    packFields [(x.trainFail, 0), (x.retrains, 8), (x.replays, 16), (satOf 16 (x.authFail / 1024), 32), (satOf 16 (x.filtered / 1024), 48)]
  | .lnkMarginLimit l => packFields [((s.link l).limitPhase, 0), ((s.link l).limitVolt, 8)]
  | .lnkMargin l i =>
    let m := (s.link l).margins.get .init i
    marginWord m.valid m.pass m.high m.low m.right m.left
  | .potStatus l => packFields [(s.potActive l, 0), (satOf 16 (s.earlyKib l), 16)]
  | .potCounts l => (s.link l).potBytes.toNat
  | .colCap => packFields [(2, 0), (0x7E, 8), (0x100, 16), (0x10, 32), (0x1C, 40)]
  | .colStall => s.col.stall.toNat
  | .colError => packFields [(s.col.errCode.toNat, 0), (s.col.errSeq % 2 ^ 32, 16), (s.col.errChan, 48), (b2n s.col.errValid, 63)]
  | .colDigest i => fieldLe s.col.digest (8 * i) 8
  | .colDigestStep => s.col.step
  | .colChan c => packFields [((s.chan c).done, 0), ((s.chan c).stateCode, 61)]
  | _ => 0

def Reg.readTile (s : State) : Reg → Nat
  | .isaCap _ => packFields [(2, 0), (0xFF, 16), (0xFFF, 32), (4, 44), (16, 48)]
  | .tileFault t => (s.tile t).regs.fault.word
  | .waitLimit t => (s.tile t).regs.waitLimit.toNat
  | .traceStatus t => packFields [((s.tile t).regs.traceNext, 0), (b2n (s.tile t).regs.traceWrap, 8)]
  | .traceWord t w => bitsOf ((s.tile t).trace.get 0 (w / 2)).toNat (64 * (w % 2) + 63) (64 * (w % 2))
  | .mtxThresh t => (s.tile t).regs.thresh.toNat
  | .replayCredits t => (s.tile t).regs.rate
  | .srSeed t => (s.tile t).regs.seed.toNat
  | .mtxPhase t => (s.tile t).regs.phase
  | .sumBlocks t => (s.tile t).regs.sums.blocks
  | .sumDamage t => packFields [(satOf 32 (s.tile t).regs.sums.sat, 0), (satOf 32 (s.tile t).regs.sums.zero, 32)]
  | .sumFlags t =>
    let m := (s.tile t).regs.sums
    packFields [(satOf 32 m.flagged, 0), (satOf 16 m.nan, 32), (satOf 8 m.replayed, 48), (satOf 8 m.unreplayed, 56)]
  | .vecCap _ => packFields [(0x200, 0), (1, 16), (0x14, 24)]
  | .sfuCap _ => packFields [(0x1FFF, 0), (0x19FF, 16), (1, 32)]
  | .compatCount t => (s.tile t).regs.compat
  | .pairsIssued t => (s.tile t).regs.pairsIssued
  | .pairsSkipped t => (s.tile t).regs.pairsSkipped
  | .appendDropped t => (s.tile t).regs.appendDropped
  | .winCap _ => packFields [(0xFF, 0), (0xFF, 8), (0xFF, 16), (0xF, 24), (0x200, 32), (0x1000, 48)]
  | .winDegenerate t => (s.tile t).regs.degenerate
  | .pwrTile t =>
    let x := (s.tile t).pwr
    packFields [(x.budget, 0), (x.tempC, 8), (x.droops, 16), (b2n x.phaseValid, 39), (x.phase, 40)]
  | .dlrCap _ => packFields [(1, 0), (12, 16), (64, 24), (0x62, 32)]
  | .dlrStatus d => s.dealerStatus d
  | .dlrReject d =>
    let x := (s.dealer d).reject
    packFields [(x.code.toNat, 0), (x.tile, 16), (b2n x.valid, 31), (x.macroId.toNat, 32)]
  | .dlrBound d n => ((s.dealer d).bound.get 0 n).toNat
  | .attCap _ => packFields [(4, 0), (8, 8), (0x8000, 16), (0x2000, 32), (0x40, 48)]
  | .ctxOwner d => packFields ((List.range 4).map (fun c =>
      let o := (s.dealer d).owner.get ⟨false, 0⟩ c
      (o.queue + 128 * b2n o.valid, 8 * c)))
  | .ctxHold d c =>
    let h := (s.dealer d).hold.get ⟨0, []⟩ c
    packFields [(h.base / 256, 0), (maskOf 12 (fun i => h.tiles.contains i), 40)]
  | _ => 0

def Reg.readMem (s : State) : Reg → Nat
  | .chanMap k => packFields [((s.stack k).good.toNat, 0), ((s.stack k).factory.toNat, 32)]
  | .eccCount k => packFields [(satOf 32 (s.stack k).ce, 0), (satOf 32 (s.stack k).ue, 32)]
  | .ueAddr k => packFields [((s.stack k).ueAddr, 0), (b2n (s.stack k).ueValid, 63)]
  | .memScrub k => packFields [((s.stack k).interval, 0), ((s.stack k).ceLimit, 16)]
  | .memMarginLimit k => packFields [((s.stack k).limitDq, 0), ((s.stack k).limitVddq, 8)]
  | .memMargin k c =>
    let m := (s.stack k).chans.get .init c
    marginWord m.valid m.pass m.high m.low m.right m.left
  | .seStatus k => s.stackStatus k
  | _ => 0

def Reg.readPwr (s : State) : Reg → Nat
  | .pwrCap => packFields [(s.power.cfg.capW, 0), (s.fuses.fusedW, 16)]
  | .quadCap => s.power.cfg.quadCap.toNat
  | .pwrInput => packFields [(s.power.inlet.getD 46, 8), (satOf 16 s.power.volt, 16), (satOf 16 s.power.current, 32), (satOf 16 s.power.watt, 48)]
  | .pwrGrade => packFields [(s.grade, 0), (s.offered.foldl max 0, 4), (b2n s.power.demote, 8)]
  | .pwrLimits => packFields [(s.power.cfg.lcFloor, 0), (s.power.cfg.beFloor, 8), (s.power.cfg.holdDensity, 16)]
  | .holdWindow => s.power.cfg.holdWindow.toNat
  | .pwrRamp => packFields [(s.power.cfg.rampLen, 0), (s.power.cfg.waves, 18), (s.power.cfg.spacing, 20)]
  | .pwrTherm => packFields [(s.power.cfg.tileC, 0), (s.power.cfg.stackC, 8)]
  | .pwrDroop => packFields [(s.power.cfg.droopLimit, 0), (s.power.cfg.droopMv, 16)]
  | .pwrStatus => packFields [(b2n s.power.tripSeen, 0), (b2n s.throttling, 1), (b2n s.power.powerFail, 2), (b2n s.power.ceiling, 3)]
  | .gradeTable g => packFields [(s.fuses.gradeS.getD g 0, 0), (s.fuses.gradeD.getD g 0, 16), (b2n (s.fuses.avail.getD g false), 48)]
  | .energyRing r => (s.ring r).energy.toNat
  | .partCap f => s.power.cfg.partCap.get 0 f
  | .energyPart f => (s.power.energyPart.get 0 f).toNat
  | .energyUnattr => s.power.energyUnattr.toNat
  | .pwrCal => s.power.calK
  | .dieVolt d => packFields ((List.range 5).map (fun g => (s.fuses.volt d g, 10 * g)))
  | .dieLimit d => packFields [(s.fuses.vmax.getD d 0, 0), (s.fuses.tileTrip.getD d 0, 16)]
  | .pwrStack k => packFields [((s.stack k).tempC, 0), (s.fuses.stackTrip.getD k 0, 8), (s.fuses.vddqMax.getD k 0, 16)]
  | _ => 0

/-- What a read of a register returns (R6): write-only and reserved fields read zero. A register is read by one of the groups;
`board` says which interface reads REQ_ACK. -/
def Reg.read (x : Reg) (board : Bool) (s : State) : Nat :=
  if x = .reqAck then (s.ackOf board).word
  else x.readKnd s + x.readSys s + x.readEdge s + x.readTile s + x.readMem s + x.readPwr s

end Sys2Proof.Machine
end

