-- ==== Sys2Proof/Machine/Registers.lean ====
section
/-!
DEFINITION. Machine/Registers.lean: REGISTER_WRITE (R4 to R6, R393, R397, R398): a write to a field that has no row of its own.
-/

namespace Sys2Proof.Machine

/-- Keeps the bits of the writable fields: a nonzero write to a reserved field is ignored (R6). -/
def keepBits (v : W64) (fs : List (Nat × Nat)) : W64 :=
  fs.foldl (fun m q => m ||| (BitVec.ofNat 64 (bitsOf v.toNat q.1 q.2) <<< q.2)) 0

/-- A configuration register of a ring: not while it is active (R398). -/
def State.ringConfig (s : State) (r : Nat) (f : RingSt → RingSt) : State :=
  if (s.ring r).active then s.report Codes.badRegAccess { func := (s.ring r).func } else s.modRing r f

def State.modCfg (s : State) (f : PowerCfg → PowerCfg) : State := s.modPower (fun p => { p with cfg := f p.cfg })

def State.modRegs (s : State) (t : Nat) (f : TileRegs → TileRegs) : State := s.modTile t (fun x => { x with regs := f x.regs })

/-- Some live job is of a function. -/
def State.funcLive (s : State) (f : Nat) : Bool :=
  s.sched.jobs.any (fun q => match q.2 with | some x => x.func == f | none => false)

/-- Rings, scheduling, boot and security. -/
def Reg.writeCond (x : Reg) (v : W64) (s : State) : State :=
  let n := v.toNat
  match x with
  | .aperture f => { s with sched := { s.sched with aperture := s.sched.aperture.set 0 f (keepBits v [(63, 63), (11, 0)]) } }
  | .ringSq r => s.ringConfig r (fun y => { y with sq := keepBits v [(63, 12), (0, 0)] })
  | .ringCq r => s.ringConfig r (fun y => { y with cq := keepBits v [(63, 12), (0, 0)] })
  | .ringCfg r => s.ringConfig r (fun y => { y with cfg := keepBits v [(35, 32), (31, 28), (26, 16), (7, 4), (3, 0)] })
  | .ringOwner r => s.ringConfig r (fun y => { y with ownerValid := bitOf n 7, owner := BitVec.ofNat 6 (bitsOf n 5 0) })
  | .swapWait => { s with sched := { s.sched with swapWait := v.truncate 32 } }
  | .ageLimit => { s with sched := { s.sched with ageLimit := v.truncate 32 } }
  | .ftlPolicy => s.modFtl (fun f => { f with gcLow := bitsOf n 15 0, wlDelta := bitsOf n 31 16, rdLimit := bitsOf n 47 32 })
  | .ftlBudget => s.report Codes.badRegAccess {}
  | .stageAddr => s.modSec (fun y => { y with stageAddr := bitsOf n 47 0 })
  | .tenantTag f =>
    if s.funcLive f then s
    else s.modSec (fun y => { y with tags := y.tags.set 0 f ((keepBits v [(31, 31), (12, 0)]).truncate 32) })
  | .bootCtrl => s.modBoot (fun b => { b with marginSt00 := bitOf n 0 })
  | _ => s

/-- Links and collectives. LNK.CTRL.ENABLE has its own row. -/
def Reg.writeEdge (x : Reg) (v : W64) (s : State) : State :=
  let n := v.toNat
  match x with
  | .lnkCtrl l => s.modLink l (fun y =>
      { y with rto := BitVec.ofNat 32 (bitsOf n 63 32), etype := bitsOf n 31 16, encap := bitsOf n 5 4, media := bitsOf n 3 2 })
  | .lnkMarginLimit l => s.modLink l (fun y => { y with limitVolt := bitsOf n 11 8, limitPhase := bitsOf n 7 0 })
  | .colStall => { s with col := { s.col with stall := v.truncate 32 } }
  | .colError => if bitOf n 63 then { s with col := { s.col with errValid := false } } else s
  | _ => s

/-- Tiles, Dealers and stacks. -/
def Reg.writeDie (x : Reg) (v : W64) (s : State) : State :=
  let n := v.toNat
  match x with
  | .tileFault t => if bitOf n 31 then s.modRegs t (fun y => { y with fault := { y.fault with valid := false } }) else s
  | .waitLimit t => s.modRegs t (fun y => { y with waitLimit := v.truncate 32 })
  | .traceStatus t => if bitOf n 8 then s.modRegs t (fun y => { y with traceWrap := false }) else s
  | .mtxThresh t => s.modRegs t (fun y => { y with thresh := (keepBits v [(25, 16), (13, 8), (5, 0)]).truncate 32 })
  | .replayCredits t => s.modRegs t (fun y => { y with rate := min 64 (bitsOf n 6 0) })
  | .srSeed t => s.modRegs t (fun y => { y with seed := v })
  | .dlrReject d => if bitOf n 31 then s.modDealer d (fun y => { y with reject := { y.reject with valid := false } }) else s
  | .dlrBound _ _ => s.report Codes.badRegAccess {}
  | .ctxOwner _ => s.report Codes.badRegAccess {}
  | .ueAddr k => if bitOf n 63 then s.modStack k (fun y => { y with ueValid := false }) else s
  | .memScrub k => s.modStack k (fun y => { y with interval := bitsOf n 15 0, ceLimit := bitsOf n 31 16 })
  | .memMarginLimit k => s.modStack k (fun y => { y with limitDq := bitsOf n 7 0, limitVddq := bitsOf n 11 8 })
  | _ => s

/-- Power. PWR.CAP and PWR.GRADE.DEMOTE have their own rows. -/
def Reg.writePower (x : Reg) (v : W64) (s : State) : State :=
  let n := v.toNat
  match x with
  | .quadCap => s.modCfg (fun c => { c with quadCap := keepBits v [(60, 48), (44, 32), (28, 16), (12, 0)] })
  | .pwrLimits => s.modCfg (fun c => { c with lcFloor := bitsOf n 6 0, beFloor := bitsOf n 14 8, holdDensity := bitsOf n 22 16 })
  | .holdWindow => s.modCfg (fun c => { c with holdWindow := v.truncate 32 })
  | .pwrRamp => s.modCfg (fun c => { c with rampLen := bitsOf n 15 0, waves := bitsOf n 19 18, spacing := bitsOf n 31 20 })
  | .pwrTherm => s.modCfg (fun c => { c with tileC := bitsOf n 7 0, stackC := bitsOf n 15 8 })
  | .pwrDroop => s.modCfg (fun c => { c with droopLimit := bitsOf n 15 0, droopMv := bitsOf n 23 16 })
  | .pwrStatus => if bitOf n 0 then s.modPower (fun p => { p with tripSeen := false }) else s
  | .partCap f => s.modCfg (fun c => { c with partCap := c.partCap.set 0 f (bitsOf n 12 0) })
  | _ => s

/-- Registers that board management may write beside those with their own rows (R431, R490). -/
def Reg.boardMay : Reg → Bool
  | .bootCtrl | .quadCap | .partCap _ | .pwrLimits | .holdWindow | .pwrRamp | .pwrTherm | .pwrDroop | .pwrStatus => true
  | _ => false

/-- A register is written: each group keeps to its own registers. -/
def Reg.write (x : Reg) (v : W64) (s : State) : State :=
  x.writePower v (x.writeDie v (x.writeEdge v (x.writeCond v s)))

/-- An access of `width` bytes to a register: aligned to the register, and not narrower than it (R4). -/
def Reg.wide (x : Reg) (width : Nat) : Bool := width == 8 || (x.short && width == 4)

/-- A write through the register window (R4, R5). An offset of an assigned block where no register stands takes no write, unless
it lies within a register. -/
def windowWrite (board : Bool) (off width : Nat) (v : W64) (s : State) : State :=
  let bad : State := s.report Codes.badRegAccess {}
  match regAt off with
  | none => bad
  | some (some x) => if !x.wide width || (board && !x.boardMay) then bad else x.write v s
  | some none =>
    match regAt (off / 8 * 8) with
    | some (some _) => bad
    | _ => s

/-! BAR0 (R393, R397). -/

/-- MSI-X table: the mask bit of a vector; a message held pending is sent when it is unmasked. -/
def msixWrite (f o : Nat) (v : W64) (s : State) : State :=
  let n := o / 16
  let k := f * 2048 + n
  if o % 16 ≠ 12 ∨ vectorsOf f ≤ n then s
  else
    let was := s.sched.msix.get 0 k
    let put (c : Nat) : State := { s with sched := { s.sched with msix := s.sched.msix.set 0 k c } }
    if bitOf v.toNat 0 then (if was = 1 then put 0 else s)
    else if was = 2 then (put 1).send (.msix f n) else put 1

/-- A write to BAR0 of a function: the copies of a ring's registers in its doorbell page belong to its owner. -/
def bar0Write (f off width : Nat) (v : W64) (s : State) : State :=
  if 0x100000 ≤ off ∧ off < 0x180000 then msixWrite f (off - 0x100000) v s
  else if off < 0x100000 then
    let r := off / 4096
    let o := off % 4096
    if !s.ringOwned f r then s.report Codes.schedNotOwner { func := f }
    else if 0x100 ≤ o ∧ o < 0x140 then
      match ringReg r (o - 0x100) with
      | some x => if x.wide width then x.write v s else s.report Codes.badRegAccess { func := f }
      | none => s
    else s
  else s

/-- REGISTER_WRITE. -/
def registerWrite (who : Iface) (off width : Nat) (v : W64) (s : State) : State :=
  match who with
  | .host f => if f = 0 then windowWrite false off width v s else s.report Codes.badRegAccess { func := f }
  | .board => windowWrite true off width v s
  | .bar0 f => bar0Write f off width v s

def execRegisterWrite (who : Iface) (off : BitVec 40) (width : Nat) (v : W64) (s : State) : Host.Outcome State Fault Refusal :=
  .next (registerWrite who off.toNat width v s)

end Sys2Proof.Machine
end

