-- ==== Sys2Proof/Machine/Dispatch.lean ====
section
/-!
DEFINITION. Machine/Dispatch.lean: one arm per command.
-/

namespace Sys2Proof.Machine

/-- The effect of a command on everything but the queue. -/
def exec (i : Instr) (s : State) : Host.Outcome State Fault Refusal :=
  match i with
  | .registerWrite x1 x2 x3 x4 => Sys2Proof.Machine.execRegisterWrite x1 x2 x3 x4 s
  | .nop x1 x2 => Sys2Proof.Machine.execNop x1 x2 s
  | .halt x1 x2 => Sys2Proof.Machine.execHalt x1 x2 s
  | .handEnd x1 => Sys2Proof.Machine.execHandEnd x1 s
  | .br x1 x2 x3 => Sys2Proof.Machine.execBr x1 x2 x3 s
  | .brr x1 x2 x3 => Sys2Proof.Machine.execBrr x1 x2 x3 s
  | .loop x1 x2 x3 x4 => Sys2Proof.Machine.execLoop x1 x2 x3 x4 s
  | .wait x1 x2 x3 x4 => Sys2Proof.Machine.execWait x1 x2 x3 x4 s
  | .isaWaitTimeout x1 => Sys2Proof.Machine.execIsaWaitTimeout x1 s
  | .signal x1 x2 x3 x4 x5 => Sys2Proof.Machine.execSignal x1 x2 x3 x4 x5 s
  | .barrier x1 x2 x3 => Sys2Proof.Machine.execBarrier x1 x2 x3 s
  | .barrierWaveRelease x1 x2 => Sys2Proof.Machine.execBarrierWaveRelease x1 x2 s
  | .fence x1 x2 x3 => Sys2Proof.Machine.execFence x1 x2 x3 s
  | .trap x1 x2 x3 => Sys2Proof.Machine.execTrap x1 x2 x3 s
  | .runPastEnd x1 => Sys2Proof.Machine.execRunPastEnd x1 s
  | .add x1 x2 x3 x4 x5 => Sys2Proof.Machine.execAdd x1 x2 x3 x4 x5 s
  | .sub x1 x2 x3 x4 x5 => Sys2Proof.Machine.execSub x1 x2 x3 x4 x5 s
  | .mul x1 x2 x3 x4 x5 => Sys2Proof.Machine.execMul x1 x2 x3 x4 x5 s
  | .and x1 x2 x3 x4 x5 => Sys2Proof.Machine.execAnd x1 x2 x3 x4 x5 s
  | .or x1 x2 x3 x4 x5 => Sys2Proof.Machine.execOr x1 x2 x3 x4 x5 s
  | .xor x1 x2 x3 x4 x5 => Sys2Proof.Machine.execXor x1 x2 x3 x4 x5 s
  | .shl x1 x2 x3 x4 x5 => Sys2Proof.Machine.execShl x1 x2 x3 x4 x5 s
  | .shr x1 x2 x3 x4 x5 => Sys2Proof.Machine.execShr x1 x2 x3 x4 x5 s
  | .sra x1 x2 x3 x4 x5 => Sys2Proof.Machine.execSra x1 x2 x3 x4 x5 s
  | .mins x1 x2 x3 x4 x5 => Sys2Proof.Machine.execMins x1 x2 x3 x4 x5 s
  | .maxs x1 x2 x3 x4 x5 => Sys2Proof.Machine.execMaxs x1 x2 x3 x4 x5 s
  | .minu x1 x2 x3 x4 x5 => Sys2Proof.Machine.execMinu x1 x2 x3 x4 x5 s
  | .maxu x1 x2 x3 x4 x5 => Sys2Proof.Machine.execMaxu x1 x2 x3 x4 x5 s
  | .cmp x1 x2 x3 x4 x5 x6 => Sys2Proof.Machine.execCmp x1 x2 x3 x4 x5 x6 s
  | .ld x1 x2 x3 x4 x5 => Sys2Proof.Machine.execLd x1 x2 x3 x4 x5 s
  | .st x1 x2 x3 x4 x5 => Sys2Proof.Machine.execSt x1 x2 x3 x4 x5 s
  | .mfe x1 x2 x3 x4 => Sys2Proof.Machine.execMfe x1 x2 x3 x4 s
  | .dload x1 x2 x3 x4 x5 => Sys2Proof.Machine.execDload x1 x2 x3 x4 x5 s
  | .dset x1 x2 x3 x4 x5 => Sys2Proof.Machine.execDset x1 x2 x3 x4 x5 s
  | .dcopy x1 x2 x3 x4 x5 x6 x7 x8 x9 => Sys2Proof.Machine.execDcopy x1 x2 x3 x4 x5 x6 x7 x8 x9 s
  | .dgather x1 x2 x3 x4 x5 x6 x7 => Sys2Proof.Machine.execDgather x1 x2 x3 x4 x5 x6 x7 s
  | .dwin x1 x2 x3 x4 x5 x6 x7 => Sys2Proof.Machine.execDwin x1 x2 x3 x4 x5 x6 x7 s
  | .dmaComplete x1 x2 => Sys2Proof.Machine.execDmaComplete x1 x2 s
  | .dmaFaultReport x1 x2 x3 => Sys2Proof.Machine.execDmaFaultReport x1 x2 x3 s
  | .mma x1 x2 x3 x4 x5 x6 x7 x8 x9 x10 x11 x12 => Sys2Proof.Machine.execMma x1 x2 x3 x4 x5 x6 x7 x8 x9 x10 x11 x12 s
  | .mzero x1 x2 x3 x4 => Sys2Proof.Machine.execMzero x1 x2 x3 x4 s
  | .mstore x1 x2 x3 x4 x5 x6 x7 x8 => Sys2Proof.Machine.execMstore x1 x2 x3 x4 x5 x6 x7 x8 s
  | .mload x1 x2 x3 x4 x5 x6 => Sys2Proof.Machine.execMload x1 x2 x3 x4 x5 x6 s
  | .abind x1 x2 x3 x4 x5 x6 x7 => Sys2Proof.Machine.execAbind x1 x2 x3 x4 x5 x6 x7 s
  | .afwd x1 x2 x3 x4 x5 x6 x7 x8 x9 x10 x11 => Sys2Proof.Machine.execAfwd x1 x2 x3 x4 x5 x6 x7 x8 x9 x10 x11 s
  | .abwd x1 x2 x3 x4 x5 x6 x7 x8 x9 x10 => Sys2Proof.Machine.execAbwd x1 x2 x3 x4 x5 x6 x7 x8 x9 x10 s
  | .aappend x1 x2 x3 x4 x5 x6 x7 x8 => Sys2Proof.Machine.execAappend x1 x2 x3 x4 x5 x6 x7 x8 s
  | .appendPageWrite x1 x2 => Sys2Proof.Machine.execAppendPageWrite x1 x2 s
  | .averify x1 x2 x3 x4 x5 x6 => Sys2Proof.Machine.execAverify x1 x2 x3 x4 x5 x6 s
  | .vadd x1 x2 x3 x4 x5 => Sys2Proof.Machine.execVadd x1 x2 x3 x4 x5 s
  | .vsub x1 x2 x3 x4 x5 => Sys2Proof.Machine.execVsub x1 x2 x3 x4 x5 s
  | .vmul x1 x2 x3 x4 x5 => Sys2Proof.Machine.execVmul x1 x2 x3 x4 x5 s
  | .vfma x1 x2 x3 x4 x5 x6 => Sys2Proof.Machine.execVfma x1 x2 x3 x4 x5 x6 s
  | .vmin x1 x2 x3 x4 x5 => Sys2Proof.Machine.execVmin x1 x2 x3 x4 x5 s
  | .vmax x1 x2 x3 x4 x5 => Sys2Proof.Machine.execVmax x1 x2 x3 x4 x5 s
  | .vcmp x1 x2 x3 x4 x5 x6 => Sys2Proof.Machine.execVcmp x1 x2 x3 x4 x5 x6 s
  | .vsel x1 x2 x3 x4 x5 x6 => Sys2Proof.Machine.execVsel x1 x2 x3 x4 x5 x6 s
  | .vld x1 x2 x3 x4 x5 => Sys2Proof.Machine.execVld x1 x2 x3 x4 x5 s
  | .vst x1 x2 x3 x4 x5 x6 => Sys2Proof.Machine.execVst x1 x2 x3 x4 x5 x6 s
  | .vbcast x1 x2 x3 x4 => Sys2Proof.Machine.execVbcast x1 x2 x3 x4 s
  | .vred x1 x2 x3 x4 x5 => Sys2Proof.Machine.execVred x1 x2 x3 x4 x5 s
  | .vstat x1 x2 x3 x4 x5 => Sys2Proof.Machine.execVstat x1 x2 x3 x4 x5 s
  | .vcvt x1 x2 x3 x4 x5 x6 => Sys2Proof.Machine.execVcvt x1 x2 x3 x4 x5 x6 s
  | .exp2 x1 x2 x3 x4 x5 => Sys2Proof.Machine.execExp2 x1 x2 x3 x4 x5 s
  | .exp x1 x2 x3 x4 x5 => Sys2Proof.Machine.execExp x1 x2 x3 x4 x5 s
  | .log2 x1 x2 x3 x4 x5 => Sys2Proof.Machine.execLog2 x1 x2 x3 x4 x5 s
  | .rcp x1 x2 x3 x4 x5 => Sys2Proof.Machine.execRcp x1 x2 x3 x4 x5 s
  | .rsqrt x1 x2 x3 x4 x5 => Sys2Proof.Machine.execRsqrt x1 x2 x3 x4 x5 s
  | .sigmoid x1 x2 x3 x4 x5 => Sys2Proof.Machine.execSigmoid x1 x2 x3 x4 x5 s
  | .tanh x1 x2 x3 x4 x5 => Sys2Proof.Machine.execTanh x1 x2 x3 x4 x5 s
  | .gelu x1 x2 x3 x4 x5 => Sys2Proof.Machine.execGelu x1 x2 x3 x4 x5 s
  | .silu x1 x2 x3 x4 x5 => Sys2Proof.Machine.execSilu x1 x2 x3 x4 x5 s
  | .softplus x1 x2 x3 x4 x5 => Sys2Proof.Machine.execSoftplus x1 x2 x3 x4 x5 s
  | .erf x1 x2 x3 x4 x5 => Sys2Proof.Machine.execErf x1 x2 x3 x4 x5 s
  | .sin x1 x2 x3 x4 x5 => Sys2Proof.Machine.execSin x1 x2 x3 x4 x5 s
  | .cos x1 x2 x3 x4 x5 => Sys2Proof.Machine.execCos x1 x2 x3 x4 x5 s
  | .ante x1 x2 x3 x4 x5 => Sys2Proof.Machine.execAnte x1 x2 x3 x4 x5 s
  | .phaseExpiry x1 => Sys2Proof.Machine.execPhaseExpiry x1 s
  | .trace x1 x2 x3 x4 => Sys2Proof.Machine.execTrace x1 x2 x3 x4 s
  | .cntrd x1 x2 x3 x4 => Sys2Proof.Machine.execCntrd x1 x2 x3 x4 s
  | .gemm x1 => Sys2Proof.Machine.execGemm x1 s
  | .attnFwd x1 => Sys2Proof.Machine.execAttnFwd x1 s
  | .attnBwd x1 => Sys2Proof.Machine.execAttnBwd x1 s
  | .attnBwdSetStart x1 x2 => Sys2Proof.Machine.execAttnBwdSetStart x1 x2 s
  | .conv x1 => Sys2Proof.Machine.execConv x1 s
  | .regroup x1 => Sys2Proof.Machine.execRegroup x1 s
  | .crop x1 => Sys2Proof.Machine.execCrop x1 s
  | .detect x1 => Sys2Proof.Machine.execDetect x1 s
  | .sync x1 => Sys2Proof.Machine.execSync x1 s
  | .rawHand x1 => Sys2Proof.Machine.execRawHand x1 s
  | .unitBoundary x1 => Sys2Proof.Machine.execUnitBoundary x1 s
  | .stashPageMap x1 => Sys2Proof.Machine.execStashPageMap x1 s
  | .stashReleasePhysical x1 x2 => Sys2Proof.Machine.execStashReleasePhysical x1 x2 s
  | .stashWrite x1 x2 x3 => Sys2Proof.Machine.execStashWrite x1 x2 x3 s
  | .stashRead x1 x2 x3 x4 x5 => Sys2Proof.Machine.execStashRead x1 x2 x3 x4 x5 s
  | .trainingStepStart x1 => Sys2Proof.Machine.execTrainingStepStart x1 s
  | .updateUnitStart x1 => Sys2Proof.Machine.execUpdateUnitStart x1 s
  | .reserveStepPages x1 => Sys2Proof.Machine.execReserveStepPages x1 s
  | .stepBoundary x1 x2 x3 => Sys2Proof.Machine.execStepBoundary x1 x2 x3 s
  | .memorySideOperation x1 x2 x3 x4 x5 => Sys2Proof.Machine.execMemorySideOperation x1 x2 x3 x4 x5 s
  | .hostAtomicFetchAdd x1 x2 x3 x4 => Sys2Proof.Machine.execHostAtomicFetchAdd x1 x2 x3 x4 s
  | .unifiedAccess x1 x2 x3 x4 => Sys2Proof.Machine.execUnifiedAccess x1 x2 x3 x4 s
  | .migrationStart => Sys2Proof.Machine.execMigrationStart s
  | .evictionComplete x1 => Sys2Proof.Machine.execEvictionComplete x1 s
  | .migrationComplete x1 x2 => Sys2Proof.Machine.execMigrationComplete x1 x2 s
  | .alloc x1 => Sys2Proof.Machine.execAlloc x1 s
  | .free x1 => Sys2Proof.Machine.execFree x1 s
  | .objectSync x1 => Sys2Proof.Machine.execObjectSync x1 s
  | .attach x1 => Sys2Proof.Machine.execAttach x1 s
  | .hostBar4Access x1 x2 x3 => Sys2Proof.Machine.execHostBar4Access x1 x2 x3 s
  | .patrolRead x1 x2 x3 => Sys2Proof.Machine.execPatrolRead x1 x2 x3 s
  | .seCopy x1 x2 => Sys2Proof.Machine.execSeCopy x1 x2 s
  | .seFill x1 x2 => Sys2Proof.Machine.execSeFill x1 x2 s
  | .seAdd x1 x2 => Sys2Proof.Machine.execSeAdd x1 x2 s
  | .seMin x1 x2 => Sys2Proof.Machine.execSeMin x1 x2 s
  | .seMax x1 x2 => Sys2Proof.Machine.execSeMax x1 x2 s
  | .sePack x1 x2 => Sys2Proof.Machine.execSePack x1 x2 s
  | .seUnpack x1 x2 => Sys2Proof.Machine.execSeUnpack x1 x2 s
  | .seGather x1 x2 => Sys2Proof.Machine.execSeGather x1 x2 s
  | .seWalk x1 x2 => Sys2Proof.Machine.execSeWalk x1 x2 s
  | .sePrefetch x1 x2 => Sys2Proof.Machine.execSePrefetch x1 x2 s
  | .seUpdate x1 x2 => Sys2Proof.Machine.execSeUpdate x1 x2 s
  | .seEvict x1 x2 => Sys2Proof.Machine.execSeEvict x1 x2 s
  | .seScrub x1 x2 => Sys2Proof.Machine.execSeScrub x1 x2 s
  | .seMargin x1 x2 x3 => Sys2Proof.Machine.execSeMargin x1 x2 x3 s
  | .seCommandComplete x1 => Sys2Proof.Machine.execSeCommandComplete x1 s
  | .garbageCollection => Sys2Proof.Machine.execGarbageCollection s
  | .staticWearLevelling => Sys2Proof.Machine.execStaticWearLevelling s
  | .readDisturbCollect x1 => Sys2Proof.Machine.execReadDisturbCollect x1 s
  | .journalProgram => Sys2Proof.Machine.execJournalProgram s
  | .mapCheckpoint => Sys2Proof.Machine.execMapCheckpoint s
  | .writeBudgetWindow => Sys2Proof.Machine.execWriteBudgetWindow s
  | .codecOpen x1 => Sys2Proof.Machine.execCodecOpen x1 s
  | .codecClose x1 => Sys2Proof.Machine.execCodecClose x1 s
  | .decodeAccessUnit x1 x2 => Sys2Proof.Machine.execDecodeAccessUnit x1 x2 s
  | .pictureOutput x1 x2 => Sys2Proof.Machine.execPictureOutput x1 x2 s
  | .encodeFrame x1 => Sys2Proof.Machine.execEncodeFrame x1 s
  | .lnkRankWrite x1 => Sys2Proof.Machine.execLnkRankWrite x1 s
  | .linkEnable x1 x2 => Sys2Proof.Machine.execLinkEnable x1 x2 s
  | .trainingStepComplete x1 => Sys2Proof.Machine.execTrainingStepComplete x1 s
  | .trainingStepTimeout x1 => Sys2Proof.Machine.execTrainingStepTimeout x1 s
  | .trainingRetry x1 => Sys2Proof.Machine.execTrainingRetry x1 s
  | .negotiateFlit x1 x2 x3 x4 => Sys2Proof.Machine.execNegotiateFlit x1 x2 x3 x4 s
  | .nearFlitReceive x1 x2 x3 => Sys2Proof.Machine.execNearFlitReceive x1 x2 x3 s
  | .replayTimeout x1 => Sys2Proof.Machine.execReplayTimeout x1 s
  | .retrain x1 => Sys2Proof.Machine.execRetrain x1 s
  | .linkWriteReceive x1 x2 x3 => Sys2Proof.Machine.execLinkWriteReceive x1 x2 x3 s
  | .farFrameReceive x1 x2 => Sys2Proof.Machine.execFarFrameReceive x1 x2 s
  | .farResendTimeout x1 x2 => Sys2Proof.Machine.execFarResendTimeout x1 x2 s
  | .hello x1 x2 => Sys2Proof.Machine.execHello x1 x2 s
  | .reply x1 x2 => Sys2Proof.Machine.execReply x1 x2 s
  | .finish x1 x2 => Sys2Proof.Machine.execFinish x1 x2 s
  | .handshakeTimeout x1 => Sys2Proof.Machine.execHandshakeTimeout x1 s
  | .handshakeRetry x1 => Sys2Proof.Machine.execHandshakeRetry x1 s
  | .rekey x1 => Sys2Proof.Machine.execRekey x1 s
  | .linkMarginDone x1 x2 => Sys2Proof.Machine.execLinkMarginDone x1 x2 s
  | .allReduce x1 x2 => Sys2Proof.Machine.execAllReduce x1 x2 s
  | .broadcast x1 x2 => Sys2Proof.Machine.execBroadcast x1 x2 s
  | .allGather x1 x2 => Sys2Proof.Machine.execAllGather x1 x2 s
  | .shuffle x1 x2 => Sys2Proof.Machine.execShuffle x1 x2 s
  | .collectiveBarrier x1 x2 => Sys2Proof.Machine.execCollectiveBarrier x1 x2 s
  | .digest x1 x2 => Sys2Proof.Machine.execDigest x1 x2 s
  | .contributionReady x1 => Sys2Proof.Machine.execContributionReady x1 s
  | .packageTrickComplete x1 => Sys2Proof.Machine.execPackageTrickComplete x1 s
  | .post x1 x2 x3 => Sys2Proof.Machine.execPost x1 x2 x3 s
  | .ready x1 x2 x3 x4 x5 x6 x7 => Sys2Proof.Machine.execReady x1 x2 x3 x4 x5 x6 x7 s
  | .go x1 x2 x3 x4 x5 x6 => Sys2Proof.Machine.execGo x1 x2 x3 x4 x5 x6 s
  | .deadlineExpiry x1 x2 => Sys2Proof.Machine.execDeadlineExpiry x1 x2 s
  | .twinSetExchange x1 x2 x3 x4 => Sys2Proof.Machine.execTwinSetExchange x1 x2 x3 x4 s
  | .potChunk x1 x2 x3 x4 x5 x6 x7 x8 => Sys2Proof.Machine.execPotChunk x1 x2 x3 x4 x5 x6 x7 x8 s
  | .complete x1 x2 x3 => Sys2Proof.Machine.execComplete x1 x2 x3 s
  | .shuffleData x1 x2 x3 x4 x5 x6 x7 x8 => Sys2Proof.Machine.execShuffleData x1 x2 x3 x4 x5 x6 x7 x8 s
  | .abort x1 x2 x3 => Sys2Proof.Machine.execAbort x1 x2 x3 s
  | .finalAbort x1 x2 x3 => Sys2Proof.Machine.execFinalAbort x1 x2 x3 s
  | .colStallExpiry x1 => Sys2Proof.Machine.execColStallExpiry x1 s
  | .digestRecord x1 x2 x3 x4 => Sys2Proof.Machine.execDigestRecord x1 x2 x3 x4 s
  | .doorbell x1 x2 x3 x4 => Sys2Proof.Machine.execDoorbell x1 x2 x3 x4 s
  | .ringEnable x1 x2 => Sys2Proof.Machine.execRingEnable x1 x2 s
  | .ringDisable x1 x2 => Sys2Proof.Machine.execRingDisable x1 x2 s
  | .job x1 x2 x3 => Sys2Proof.Machine.execJob x1 x2 x3 s
  | .saveComplete x1 x2 => Sys2Proof.Machine.execSaveComplete x1 x2 s
  | .swapEvaluation x1 => Sys2Proof.Machine.execSwapEvaluation x1 s
  | .anteSlotPromotion => Sys2Proof.Machine.execAnteSlotPromotion s
  | .jobComplete x1 => Sys2Proof.Machine.execJobComplete x1 s
  | .jobFault x1 => Sys2Proof.Machine.execJobFault x1 s
  | .cancel x1 => Sys2Proof.Machine.execCancel x1 s
  | .partition x1 => Sys2Proof.Machine.execPartition x1 s
  | .partitionScrubComplete x1 => Sys2Proof.Machine.execPartitionScrubComplete x1 s
  | .nopEntry x1 => Sys2Proof.Machine.execNopEntry x1 s
  | .pfFlr x1 => Sys2Proof.Machine.execPfFlr x1 s
  | .vfFlr x1 => Sys2Proof.Machine.execVfFlr x1 s
  | .controlInterval x1 => Sys2Proof.Machine.execControlInterval x1 s
  | .gradeUnholdable => Sys2Proof.Machine.execGradeUnholdable s
  | .gradeChange => Sys2Proof.Machine.execGradeChange s
  | .meterSample x1 x2 x3 => Sys2Proof.Machine.execMeterSample x1 x2 x3 s
  | .powerRecovery => Sys2Proof.Machine.execPowerRecovery s
  | .droopTrip x1 => Sys2Proof.Machine.execDroopTrip x1 s
  | .droopSuppressionEnd x1 => Sys2Proof.Machine.execDroopSuppressionEnd x1 s
  | .rampEnd x1 => Sys2Proof.Machine.execRampEnd x1 s
  | .comparatorTrip => Sys2Proof.Machine.execComparatorTrip s
  | .comparatorRelease => Sys2Proof.Machine.execComparatorRelease s
  | .analogThermalTrip => Sys2Proof.Machine.execAnalogThermalTrip s
  | .recalibration => Sys2Proof.Machine.execRecalibration s
  | .capWrite x1 x2 => Sys2Proof.Machine.execCapWrite x1 x2 s
  | .demoteClear x1 => Sys2Proof.Machine.execDemoteClear x1 s
  | .verify x1 x2 => Sys2Proof.Machine.execVerify x1 x2 s
  | .stagingComplete => Sys2Proof.Machine.execStagingComplete s
  | .activate x1 x2 => Sys2Proof.Machine.execActivate x1 x2 s
  | .activationComplete => Sys2Proof.Machine.execActivationComplete s
  | .commit x1 => Sys2Proof.Machine.execCommit x1 s
  | .writeBudgetSet x1 => Sys2Proof.Machine.execWriteBudgetSet x1 s
  | .getVersion => Sys2Proof.Machine.execGetVersion s
  | .getCertificate x1 => Sys2Proof.Machine.execGetCertificate x1 s
  | .challenge x1 => Sys2Proof.Machine.execChallenge x1 s
  | .getMeasurements x1 x2 => Sys2Proof.Machine.execGetMeasurements x1 x2 s
  | .dualSig => Sys2Proof.Machine.execDualSig s
  | .pldmFirmwareUpdate x1 x2 => Sys2Proof.Machine.execPldmFirmwareUpdate x1 x2 s
  | .powerOn => Sys2Proof.Machine.execPowerOn s
  | .coldBoot x1 => Sys2Proof.Machine.execColdBoot x1 s
  | .bootStageTimeout => Sys2Proof.Machine.execBootStageTimeout s
  | .resetNPulse x1 => Sys2Proof.Machine.execResetNPulse x1 s
  | .perstAssert x1 => Sys2Proof.Machine.execPerstAssert x1 s
  | .hotReset x1 => Sys2Proof.Machine.execHotReset x1 s
  | .warmReset x1 x2 x3 => Sys2Proof.Machine.execWarmReset x1 x2 x3 s
  | .conductorWatchdog x1 => Sys2Proof.Machine.execConductorWatchdog x1 s
  | .perDieReset x1 x2 => Sys2Proof.Machine.execPerDieReset x1 x2 s
  | .perDieResetComplete x1 x2 => Sys2Proof.Machine.execPerDieResetComplete x1 x2 s
  | .dieWatchdogExpiry x1 => Sys2Proof.Machine.execDieWatchdogExpiry x1 s
  | .tileSelfTestRequest x1 x2 => Sys2Proof.Machine.execTileSelfTestRequest x1 x2 s
  | .stackSelfTestRequest x1 x2 => Sys2Proof.Machine.execStackSelfTestRequest x1 x2 s
  | .stackMarginRequest x1 x2 => Sys2Proof.Machine.execStackMarginRequest x1 x2 s
  | .linkRetrainRequest x1 x2 => Sys2Proof.Machine.execLinkRetrainRequest x1 x2 s
  | .linkMarginRequest x1 x2 => Sys2Proof.Machine.execLinkMarginRequest x1 x2 s
  | .testCancel x1 x2 => Sys2Proof.Machine.execTestCancel x1 x2 s
  | .testQueueScan => Sys2Proof.Machine.execTestQueueScan s
  | .testComplete x1 x2 x3 => Sys2Proof.Machine.execTestComplete x1 x2 x3 s
  | .calWrite x1 x2 => Sys2Proof.Machine.execCalWrite x1 x2 s
  | .calWriteComplete => Sys2Proof.Machine.execCalWriteComplete s
  | .errorLogCollection x1 x2 => Sys2Proof.Machine.execErrorLogCollection x1 x2 s
  | .errorVectorSend x1 => Sys2Proof.Machine.execErrorVectorSend x1 s
  | .errStatusRead x1 => Sys2Proof.Machine.execErrStatusRead x1 s
  | .inputPowerLoss => Sys2Proof.Machine.execInputPowerLoss s
  | .objectSyncComplete x1 => Sys2Proof.Machine.execObjectSyncComplete x1 s
  | .linkReferenceClockLoss x1 => Sys2Proof.Machine.execLinkReferenceClockLoss x1 s

end Sys2Proof.Machine
end

