-- ==== Sys2Proof/Safety.lean ====
section
/-!
DEFINITION. Safety.lean: the terms in which the statements speak: which instruction stands where, and what a command leaves
as it was.
-/

namespace Sys2Proof.Claims

open Sys2Proof.Machine

/-- Instruction `i` stands at the program counter of the hand that runs on tile `t` (R25, R35). -/
def Stands (s : State) (t : Tile) (i : Instr) : Prop := (s.tile t).canIssue (slotOf i) = true

/-- Instruction `i` stands at the program counter of tile `t`, and its guard `g` lets it execute (R33). -/
def Runs (s : State) (t : Tile) (g : Guard) (i : Instr) : Prop := Stands s t i ∧ (s.tile t).executes g = true

/-- No unit but tile `t` differs. -/
def OnlyTile (s s' : State) (t : Nat) : Prop := (∀ u, u ≠ t → s'.tile u = s.tile u) ∧ s' = { s with tiles := s'.tiles }

/-- The instruction has been counted, and execution goes on after its slot or at a loop's start (R46, R69). -/
def Passed (x y : TileSt) : Prop :=
  (y.loops, y.pc) = nextSlot x.loops x.pc ∧ y.issued = (x.issued + 1) % 2 ^ 64

/-- A tile instruction's effect: `y` is what tile `x` becomes but for the counts of issue, and nothing else changes. -/
def TileTo (s : State) (t : Nat) (y : TileSt) (s' : State) : Prop :=
  OnlyTile s s' t ∧ Passed (s.tile t) (s'.tile t)
    ∧ s'.tile t = { y with loops := (s'.tile t).loops, pc := (s'.tile t).pc, issued := (s'.tile t).issued }

/-- Scalar register `rd` takes `v`, `s0` apart, and every other register keeps its value; of the rest of the machine only
the program counter, the loop stack and the issue counter of the tile change (Table 1 of 02). -/
def WritesScalar (s : State) (t : Nat) (rd : BitVec 5) (v : W64) (s' : State) : Prop :=
  TileTo s t { s.tile t with s := (s'.tile t).s } s'
    ∧ (s'.tile t).sreg rd = (if rd = 0 then 0 else v)
    ∧ ∀ r, r ≠ rd → (s'.tile t).sreg r = (s.tile t).sreg r

/-- The same of a predicate register; `p0` reads as all ones (Table 1 of 02). -/
def WritesPred (s : State) (t : Nat) (pd : BitVec 3) (v : BitVec 512) (s' : State) : Prop :=
  TileTo s t { s.tile t with p := (s'.tile t).p } s'
    ∧ (s'.tile t).preg pd = (if pd = 0 then BitVec.allOnes 512 else v)
    ∧ ∀ r, r ≠ pd → (s'.tile t).preg r = (s.tile t).preg r

/-- A precise fault of the instruction in hand (R72): the tile stops, `TILE.FAULT` says where and why, no register of the
tile and no memory changes, and the job faults with the code unless it already has. -/
def Faults (s : State) (t : Nat) (code : Code) (s' : State) : Prop :=
  s'.tile t = { s.tile t with run := .faulted,
                              regs := { (s.tile t).regs with
                                fault := ⟨(s.tile t).handId.truncate 32, true, true, (s.tile t).pc, code⟩ } }
    ∧ (∀ u, u ≠ t → s'.tile u = s.tile u) ∧ s'.mem = s.mem ∧ s'.dealers = s.dealers ∧ s'.links = s.links
    ∧ (∀ x, s.job (s.tile t).job = some x →
        s'.job (s.tile t).job = some { x with fault := some (x.fault.getD code) })

/-- Lane `i` of vector register `r`. -/
def lane (x : TileSt) (r : BitVec 4) (i : Nat) : W32 := x.v.get 0 (512 * r.toNat + i)

/-- Vector register `vd` takes `f i` in each lane `i` that executes and keeps its other lanes (R33); every other vector
register keeps its value, and nothing else changes. -/
def WritesLanes (s : State) (t : Nat) (g : Guard) (vd : BitVec 4) (f : Nat → W32) (s' : State) : Prop :=
  TileTo s t { s.tile t with v := (s'.tile t).v } s'
    ∧ (∀ i, i < 512 →
        lane (s'.tile t) vd i = if ((s.tile t).lanes g).getLsbD i then f i else lane (s.tile t) vd i)
    ∧ ∀ r, r ≠ vd → ∀ i, i < 512 → lane (s'.tile t) r i = lane (s.tile t) r i

/-- Value of a node of a fixed binary tree: level 0 holds the leaves, element i of a level combines elements 2i and 2i + 1
of the level below (R140). -/
def treeNode (op : W32 → W32 → W32) (leaf : Nat → W32) : Nat → Nat → W32
  | 0, i => leaf i
  | n + 1, i => op (treeNode op leaf n (2 * i)) (treeNode op leaf n (2 * i + 1))

/-- Byte `a` of a space of tile `t`'s address space: 0 its scratchpad, 1 the unified range. -/
def byteAt (s : State) (t space a : Nat) : Byte := if space = 0 then (s.tile t).spad.get 0 a else s.mem.bytes.get 0 a

/-- An error code is logged: its record has entered the local log of a die, or the log, full with 16, has counted it (R487). -/
def Logged (s s' : State) (code : Code) (unit : Nat) : Prop :=
  ∃ die, let l := s.logs.locals.get .init die
    let l' := s'.logs.locals.get .init die
    (∃ r ∈ l'.recs.drop l.recs.length, r.code = code ∧ r.unit = unit) ∨ 16 ≤ l'.recs.length ∧ l.dropped < l'.dropped

/-- Nothing but the links, the sessions, the logs and what the module sends differs. -/
def LinksOnly (s s' : State) : Prop :=
  s'.tiles = s.tiles ∧ s'.dealers = s.dealers ∧ s'.mem = s.mem ∧ s'.sched = s.sched ∧ s'.codec = s.codec ∧ s'.col = s.col
    ∧ s'.power = s.power ∧ s'.grade = s.grade

/-- Link `l` becomes `y`; no other link changes, nor anything but links, logs and what is sent. -/
def LinkTo (s : State) (l : Nat) (y : LinkSt) (s' : State) : Prop :=
  s'.link l = y ∧ (∀ k, k ≠ l → s'.link k = s.link k) ∧ LinksOnly s s'

end Sys2Proof.Claims
end

