-- ==== Sys2Proof/Certificates/Slice0/Obligations.lean ====
section
/-!
DEFINITION. Certificates/Slice0/Obligations.lean: the statements about the model.
-/

open Sys2Proof Sys2Proof.Machine Sys2Proof.Claims

/-- A step takes the command at the front of the queue and answers what exec answers for it on the state with the queue's
rest; on an empty queue the state stays as it is (log entry 2, the model's choice). -/
def Obligations.StepRunsFrontCommand : Prop :=
  ∀ (s : State) (c : Instr) (rest : List Instr),
    step { s with pending := c :: rest } = exec c { s with pending := rest }
      ∧ step { s with pending := [] } = .next { s with pending := [] }

/-- ADD, SUB, MUL, AND, OR, XOR, SHL, SHR, SRA, MINS, MAXS, MINU and MAXU, when they stand at the program counter and the
guard lets them execute, complete for every operand: rd takes the result of Table 10 of 02 modulo 2^64 (shift amounts modulo
64), a write to s0 is discarded, execution goes on at the next slot or loop start, and nothing else of the machine changes. -/
def Obligations.ScalarArithmetic : Prop :=
  ∀ (s : State) (t : Tile) (g : Guard) (rd rs1 : BitVec 5) (y : Op2),
    let a := (s.tile t).sreg rs1
    let b := (s.tile t).op2 y
    let done (i : Instr) (v : W64) : Prop := Runs s t g i → ∃ s', exec i s = .next s' ∧ WritesScalar s t rd v s'
    done (.add t g rd rs1 y) (a + b) ∧ done (.sub t g rd rs1 y) (a - b)
      ∧ done (.mul t g rd rs1 y) (a * b) ∧ done (.and t g rd rs1 y) (a &&& b)
      ∧ done (.or t g rd rs1 y) (a ||| b) ∧ done (.xor t g rd rs1 y) (a ^^^ b)
      ∧ done (.shl t g rd rs1 y) (a <<< (b.toNat % 64)) ∧ done (.shr t g rd rs1 y) (a >>> (b.toNat % 64))
      ∧ done (.sra t g rd rs1 y) (a.sshiftRight (b.toNat % 64))
      ∧ done (.mins t g rd rs1 y) (if a.toInt ≤ b.toInt then a else b)
      ∧ done (.maxs t g rd rs1 y) (if a.toInt ≤ b.toInt then b else a)
      ∧ done (.minu t g rd rs1 y) (if a.toNat ≤ b.toNat then a else b)
      ∧ done (.maxu t g rd rs1 y) (if a.toNat ≤ b.toNat then b else a)

/-- CMP with RD up to 7 and a condition up to 101 sets every lane of predicate rd to the truth of the condition (000 EQ,
001 NE, 010 signed LT, 011 unsigned LT, 100 signed GE, 101 unsigned GE), p0 excepted, and changes nothing else; with RD above
7 or a condition of 110 or 111 it raises ISA_FIELD_RANGE. -/
def Obligations.CompareSetsPredicate : Prop :=
  ∀ (s : State) (t : Tile) (g : Guard) (cond : BitVec 3) (rd rs1 : BitVec 5) (y : Op2),
    let a := (s.tile t).sreg rs1
    let b := (s.tile t).op2 y
    let holds : Prop := match cond.toNat with
      | 0 => a = b
      | 1 => a ≠ b
      | 2 => a.toInt < b.toInt
      | 3 => a.toNat < b.toNat
      | 4 => b.toInt ≤ a.toInt
      | _ => b.toNat ≤ a.toNat
    Runs s t g (.cmp t g cond rd rs1 y) →
      ∃ s', exec (.cmp t g cond rd rs1 y) s = .next s'
        ∧ (rd.toNat ≤ 7 → cond.toNat ≤ 5 →
            (holds → WritesPred s t (rd.truncate 3) (BitVec.allOnes 512) s')
              ∧ (¬ holds → WritesPred s t (rd.truncate 3) 0 s'))
        ∧ (7 < rd.toNat ∨ 5 < cond.toNat → Faults s t Codes.isaFieldRange s')

/-- At an address rs1 + IMM64 that is a multiple of 8 and below 24 MiB, LD puts the eight bytes there into rd, least
significant first, and ST puts rs2 into those eight bytes and leaves every other byte of the scratchpad as it was; at any
other address each raises ISA_MISALIGN when the address is no multiple of 8, else ISA_ADDR_RANGE. MFE puts event counter rs1
into rd, zero-extended, for rs1 up to 15, and raises ISA_FIELD_RANGE above. -/
def Obligations.ScratchpadLoadStore : Prop :=
  ∀ (s : State) (t : Tile) (g : Guard) (rd rs1 rs2 : BitVec 5) (imm : W64),
    let a := ((s.tile t).sreg rs1 + imm).toNat
    (Runs s t g (.ld t g rd rs1 imm) → ∃ s', exec (.ld t g rd rs1 imm) s = .next s'
        ∧ (a % 8 = 0 → a < 25165824 → ∃ v, WritesScalar s t rd v s'
            ∧ ∀ i, i < 8 → (s.tile t).spad.get 0 (a + i) = BitVec.ofNat 8 (v.toNat / 256 ^ i))
        ∧ (a % 8 ≠ 0 → Faults s t Codes.isaMisalign s')
        ∧ (a % 8 = 0 → 25165824 ≤ a → Faults s t Codes.isaAddrRange s'))
      ∧ (Runs s t g (.st t g rs1 rs2 imm) → ∃ s', exec (.st t g rs1 rs2 imm) s = .next s'
        ∧ (a % 8 = 0 → a < 25165824 → TileTo s t { s.tile t with spad := (s'.tile t).spad } s'
            ∧ (∀ i, i < 8 →
                (s'.tile t).spad.get 0 (a + i) = BitVec.ofNat 8 (((s.tile t).sreg rs2).toNat / 256 ^ i))
            ∧ ∀ k, k < a ∨ a + 8 ≤ k → (s'.tile t).spad.get 0 k = (s.tile t).spad.get 0 k)
        ∧ (a % 8 ≠ 0 → Faults s t Codes.isaMisalign s')
        ∧ (a % 8 = 0 → 25165824 ≤ a → Faults s t Codes.isaAddrRange s'))
      ∧ (Runs s t g (.mfe t g rd rs1) → ∃ s', exec (.mfe t g rd rs1) s = .next s'
        ∧ (rs1.toNat ≤ 15 → WritesScalar s t rd (((s.tile t).ereg rs1.toNat).zeroExtend 64) s')
        ∧ (15 < rs1.toNat → Faults s t Codes.isaFieldRange s'))

/-- A branch to a slot from 1 to INSN_COUNT sets the program counter to it and pops the innermost loops whose bodies exclude
it (popLoops: every entry before the first whose body holds the target); a target outside that range raises ISA_PC_RANGE.
Nothing else but the issue counter changes. BR takes the target from its field, BRR from its register. A hand that has run
past slot INSN_COUNT raises ISA_PC_RANGE as well, with SLOT the last slot. -/
def Obligations.BranchesStayInTheHand : Prop :=
  ∀ (s : State) (t : Tile) (g : Guard) (target : BitVec 12) (sx : BitVec 5),
    let x := s.tile t
    let goes (i : Instr) (dest : Nat) : Prop :=
      Runs s t g i → ∃ s', exec i s = .next s'
        ∧ (1 ≤ dest → dest ≤ x.insnCount → OnlyTile s s' t
            ∧ s'.tile t = { x with pc := dest, issued := (x.issued + 1) % 2 ^ 64, loops := (s'.tile t).loops }
            ∧ (∃ gone, x.loops = gone ++ (s'.tile t).loops ∧ ∀ l ∈ gone, ¬(l.start ≤ dest ∧ dest ≤ l.stop))
            ∧ ∀ l ∈ (s'.tile t).loops.head?, l.start ≤ dest ∧ dest ≤ l.stop)
        ∧ (dest = 0 ∨ x.insnCount < dest → Faults s t Codes.isaPcRange s')
    goes (.br t g target) target.toNat ∧ goes (.brr t g sx) (x.sreg sx).toNat
      ∧ (x.run = .running → x.insnCount ≠ 0 → x.pc = x.insnCount + 1 →
          ∃ s', exec (.runPastEnd t) s = .next s' ∧ (s'.tile t).run = .faulted
            ∧ (s'.tile t).regs.fault = ⟨x.handId.truncate 32, true, true, x.insnCount, Codes.isaPcRange⟩
            ∧ (∀ u, u ≠ t.val → s'.tile u = s.tile u) ∧ s'.mem = s.mem)

/-- A LOOP whose END lies after its slot and within INSN_COUNT: with a nonzero count, fewer than four active loops and no
innermost loop that ends before END, it pushes an entry for slots PC + 1 to END and goes to PC + 1; with a count of zero it
pushes nothing and goes on after END, whatever loops are active; with a nonzero count an END beyond the innermost loop's
raises ISA_PC_RANGE, and else a fifth active loop ISA_LOOP_DEPTH. At the last slot of a loop with more than one pass left, any
NOP that completes goes back to the loop's first slot, and with its last pass done it goes on. -/
def Obligations.LoopPushesSkipsOrFaults : Prop :=
  ∀ (s : State) (t : Tile) (g : Guard) (last : BitVec 12) (cnt : Cnt),
    let x := s.tile t
    (Runs s t g (.loop t g last cnt) → x.pc < last.toNat → last.toNat ≤ x.insnCount →
      ∃ s', exec (.loop t g last cnt) s = .next s'
        ∧ (x.cnt cnt ≠ 0 → (∀ l ∈ x.loops.head?, last.toNat ≤ l.stop) → x.loops.length < 4 → OnlyTile s s' t
            ∧ s'.tile t = { x with loops := ⟨x.pc + 1, last.toNat, (x.cnt cnt).toNat⟩ :: x.loops, pc := x.pc + 1,
                                   issued := (x.issued + 1) % 2 ^ 64 })
        ∧ (x.cnt cnt = 0 → x.loops = [] → OnlyTile s s' t
            ∧ s'.tile t = { x with pc := last.toNat + 1, issued := (x.issued + 1) % 2 ^ 64 })
        ∧ (x.cnt cnt ≠ 0 → (∃ l ∈ x.loops.head?, l.stop < last.toNat) → Faults s t Codes.isaPcRange s')
        ∧ (x.cnt cnt ≠ 0 → (∀ l ∈ x.loops.head?, last.toNat ≤ l.stop) → 4 ≤ x.loops.length →
            Faults s t Codes.isaLoopDepth s'))
      ∧ (∀ (l : LoopEnt) (ls : List LoopEnt), Runs s t g (.nop t g) → x.loops = l :: ls →
          ∃ s', exec (.nop t g) s = .next s' ∧ TileTo s t x s'
            ∧ (l.stop = x.pc → 1 < l.left →
                (s'.tile t).pc = l.start ∧ (s'.tile t).loops = { l with left := l.left - 1 } :: ls)
            ∧ (l.stop = x.pc → l.left ≤ 1 → ls = [] → (s'.tile t).pc = x.pc + 1 ∧ (s'.tile t).loops = [])
            ∧ (l.stop ≠ x.pc → (s'.tile t).pc = x.pc + 1 ∧ (s'.tile t).loops = l :: ls))

/-- A WAIT whose counter less its target, modulo 2^32, is below 2^31 completes at once and changes nothing; otherwise the
tile waits. A waiting tile with a nonzero limit faults with ISA_WAIT_TIMEOUT when the limit expires. SIGNAL of a zero
increment or to a tile above 95 raises ISA_FIELD_RANGE; to a tile that the job holds on this module, itself included, it adds
the increment to the counter modulo 2^32, and a WAIT of that tile
on that counter goes on exactly when its condition then holds; a target that the job does not hold raises
ISA_SIGNAL_TARGET, and no counter changes. -/
def Obligations.WaitAndSignal : Prop :=
  ∀ (s : State) (t : Tile) (g : Guard) (evt : BitVec 4) (tgt : Cnt) (u : BitVec 7) (inc : BitVec 16),
    let x := s.tile t
    (Runs s t g (.wait t g evt tgt) → ∃ s', exec (.wait t g evt tgt) s = .next s'
        ∧ ((x.ereg evt.toNat - x.cnt tgt).toNat < 2 ^ 31 → TileTo s t x s')
        ∧ (2 ^ 31 ≤ (x.ereg evt.toNat - x.cnt tgt).toNat → OnlyTile s s' t
            ∧ s'.tile t = { x with run := .waitEvt evt.toNat (x.cnt tgt), issued := (x.issued + 1) % 2 ^ 64 }))
      ∧ (∀ e v h, x.run = .waitEvt e v → x.hand = some h → h.waitLimit ≠ 0 →
          ∃ s', exec (.isaWaitTimeout t) s = .next s' ∧ Faults s t Codes.isaWaitTimeout s')
      ∧ (Runs s t g (.signal t g evt u inc) → ∃ s', exec (.signal t g evt u inc) s = .next s'
          ∧ (95 < u.toNat ∨ inc = 0 → Faults s t Codes.isaFieldRange s')
          ∧ (u.toNat ≤ 95 → inc ≠ 0 → u.toNat ∉ s.jobTiles x.job → Faults s t Codes.isaSignalTarget s')
          ∧ (u.toNat ≤ 95 → inc ≠ 0 → u.toNat ∈ s.jobTiles x.job →
              let y := s.tile u.toNat
              (∀ k, k ≠ u.toNat → k ≠ t.val → s'.tile k = s.tile k) ∧ s' = { s with tiles := s'.tiles }
                ∧ Passed x (s'.tile t)
                ∧ (s'.tile u.toNat).ereg evt.toNat = y.ereg evt.toNat + inc.zeroExtend 32
                ∧ (∀ k, k ≠ evt.toNat → (s'.tile u.toNat).ereg k = y.ereg k)
                ∧ (∀ v, y.run = .waitEvt evt.toNat v →
                    ((s'.tile u.toNat).run = .running ↔
                      (y.ereg evt.toNat + inc.zeroExtend 32 - v).toNat < 2 ^ 31))))

/-- A BARRIER makes its tile wait. When every tile of the job waits at the same BID they are all held for their release
waves; otherwise no other tile changes. The release of a wave lets every held tile of the wave go on after its BARRIER under
a new ramp and leaves every tile outside the job as it was (R441, R442). -/
def Obligations.BarrierCompletesTogether : Prop :=
  ∀ (s : State) (t : Tile) (g : Guard) (bid : BitVec 4) (job wave : Nat),
    let x := s.tile t
    (Runs s t g (.barrier t g bid) → t.val ∈ s.jobTiles x.job →
      ∃ s', exec (.barrier t g bid) s = .next s' ∧ s' = { s with tiles := s'.tiles }
        ∧ ((∀ u ∈ s.jobTiles x.job, u ≠ t.val → (s.tile u).run = .waitBar bid.toNat) →
            ∀ u ∈ s.jobTiles x.job, (s'.tile u).run = .held)
        ∧ ((∃ u ∈ s.jobTiles x.job, u ≠ t.val ∧ (s.tile u).run ≠ .waitBar bid.toNat) →
            (s'.tile t).run = .waitBar bid.toNat ∧ ∀ u, u ≠ t.val → s'.tile u = s.tile u))
      ∧ (∃ s', exec (.barrierWaveRelease job wave) s = .next s' ∧ s' = { s with tiles := s'.tiles }
        ∧ (∀ u, u ∉ s.jobTiles job → s'.tile u = s.tile u)
        ∧ (∀ u ∈ s.jobTiles job, (s.tile u).run = .held → u % s.power.live.waveCount = wave →
            (s'.tile u).run = .running ∧ (s'.tile u).pwr.ramp = some 0
              ∧ ((s'.tile u).loops, (s'.tile u).pc) = nextSlot (s.tile u).loops (s.tile u).pc)
        ∧ (∀ u ∈ s.jobTiles job, u % s.power.live.waveCount ≠ wave → s'.tile u = s.tile u))

/-- A FENCE passes, changing nothing else, once none of its tile's outstanding DMAs writes to its scope and, in the scope of
stack memory, no append is outstanding; until then the state stays as it is. TRAP raises ISA_TRAP. HALT of a hand dealt as an
image only stops its issue, and the hand ends when no DMA or append of it is outstanding and its summary holds no blocks: the
tile is idle without a hand, and no other tile changes. -/
def Obligations.FenceTrapHalt : Prop :=
  ∀ (s : State) (t : Tile) (g : Guard) (scope : BitVec 2) (code : BitVec 16),
    let x := s.tile t
    let busy : Prop := (∃ r ∈ x.dmas, inScope scope.toNat r.dst = true) ∨ (scope.toNat ≠ 1 ∧ x.appends ≠ [])
    (Runs s t g (.fence t g scope) → ∃ s', exec (.fence t g scope) s = .next s'
        ∧ (¬ busy → TileTo s t x s') ∧ (busy → s' = s))
      ∧ (Runs s t g (.trap t g code) → ∃ s', exec (.trap t g code) s = .next s' ∧ Faults s t Codes.isaTrap s')
      ∧ (∀ h, Runs s t g (.halt t g) → x.hand = some h → ∃ s', exec (.halt t g) s = .next s' ∧ OnlyTile s s' t
          ∧ s'.tile t = { x with run := .halting, issued := (x.issued + 1) % 2 ^ 64 })
      ∧ (∀ h, x.hand = some h → x.run = .halting → x.dmas = [] → x.appends = [] → x.regs.sums.blocks = 0 →
          ∃ s', exec (.handEnd t) s = .next s' ∧ (s'.tile t).run = .idle ∧ (s'.tile t).hand = none
            ∧ (s'.tile t).spad = x.spad ∧ (∀ u, u ≠ t.val → s'.tile u = s.tile u))

/-- VADD, VSUB, VMUL, VFMA, VMIN, VMAX, VSEL and VBCAST always issue; each executing lane of vd takes the result of its own
lanes as they stood before (one rounding to nearest even of the exact value in VADD, VSUB, VMUL and VFMA; the canonical NaN from
VMIN and VMAX when an operand is NaN, else the lesser or greater operand with -0 below +0; patterns moved unchanged by VSEL and
VBCAST), and every other lane, register and unit keeps its value. -/
def Obligations.VectorArithmetic : Prop :=
  ∀ (s : State) (t : Tile) (g : Guard) (vd va vb vc : BitVec 4) (pd : BitVec 3) (sx : BitVec 5),
    let x := s.tile t
    let a := lane x va
    let b := lane x vb
    let c := lane x vc
    let does (i : Instr) (f : Nat → W32) : Prop :=
      Stands s t i → ∃ s', exec i s = .next s' ∧ WritesLanes s t g vd f s'
    does (.vadd t g vd va vb) (fun i => to32 ((val32 (a i)).add (val32 (b i))))
      ∧ does (.vsub t g vd va vb) (fun i => to32 ((val32 (a i)).sub (val32 (b i))))
      ∧ does (.vmul t g vd va vb) (fun i => to32 ((val32 (a i)).mul (val32 (b i))))
      ∧ does (.vfma t g vd va vb vc) (fun i => to32 (((val32 (a i)).mul (val32 (b i))).add (val32 (c i))))
      ∧ does (.vmin t g vd va vb) (fun i =>
          if isNaN32 (a i) || isNaN32 (b i) then 0x7FC00000#32 else if below32 (b i) (a i) then b i else a i)
      ∧ does (.vmax t g vd va vb) (fun i =>
          if isNaN32 (a i) || isNaN32 (b i) then 0x7FC00000#32 else if below32 (a i) (b i) then b i else a i)
      ∧ does (.vsel t g vd va vb pd) (fun i => if (x.preg pd).getLsbD i then a i else b i)
      ∧ does (.vbcast t g vd sx) (fun _ => (x.sreg sx).truncate 32)

/-- VCMP with a condition up to 101 sets bit i of predicate pd, for each executing lane i, to 1 exactly when the condition
holds of the two lanes, with -0 equal to +0 and a NaN unordered (only NE yields 1), leaves the other bits as they were (p0
reads as all ones), and changes nothing else; a condition of 110 or 111 raises ISA_FIELD_RANGE. VRED with OP 00, 01 or 10 writes
the sum, maximum or minimum of the executing lanes to bits 31:0 of s[SX], zero above, reduced in the fixed tree of nine
levels in which a lane that does not execute stands for +0, minus infinity or plus infinity; the result is that identity when
no lane executes; OP 11 raises ISA_FIELD_RANGE. -/
def Obligations.VectorCompareAndReduce : Prop :=
  ∀ (s : State) (t : Tile) (g : Guard) (cond pd : BitVec 3) (va vb : BitVec 4) (op : BitVec 2) (sx : BitVec 5),
    let x := s.tile t
    let act (i : Nat) : Bool := (x.lanes g).getLsbD i
    let nan (i : Nat) : Prop := isNaN32 (lane x va i) = true ∨ isNaN32 (lane x vb i) = true
    let order (i : Nat) : Int := FV.cmp (val32 (lane x va i)) (val32 (lane x vb i))
    let holds (i : Nat) : Prop :=
      if cond = 1 then nan i ∨ order i ≠ 0
      else ¬ nan i ∧ (if cond = 0 then order i = 0 else if cond = 2 then order i < 0 else if cond = 3 then order i ≤ 0
        else if cond = 4 then 0 < order i else 0 ≤ order i)
    let ident : W32 := if op = 0 then 0 else if op = 1 then 0xFF800000#32 else 0x7F800000#32
    let comb : W32 → W32 → W32 := if op = 0 then fadd else if op = 1 then fmax32 else fmin32
    (Stands s t (.vcmp t g cond pd va vb) → ∃ s', exec (.vcmp t g cond pd va vb) s = .next s'
        ∧ (cond.toNat ≤ 5 → TileTo s t { x with p := (s'.tile t).p } s'
            ∧ (∀ r, r ≠ pd → (s'.tile t).preg r = x.preg r)
            ∧ (pd ≠ 0 → ∀ i, i < 512 →
                (act i = true → (((s'.tile t).preg pd).getLsbD i = true ↔ holds i))
                  ∧ (act i = false → ((s'.tile t).preg pd).getLsbD i = (x.preg pd).getLsbD i)))
        ∧ (5 < cond.toNat → Faults s t Codes.isaFieldRange s'))
      ∧ (Stands s t (.vred t g op va sx) → ∃ s', exec (.vred t g op va sx) s = .next s'
        ∧ (op.toNat ≤ 2 →
            WritesScalar s t sx ((treeNode comb (fun i => if act i then lane x va i else ident) 9 0).zeroExtend 64) s'
              ∧ ((∀ i, i < 512 → act i = false) → WritesScalar s t sx (ident.zeroExtend 64) s'))
        ∧ (op.toNat = 3 → Faults s t Codes.isaFieldRange s'))

/-- The thirteen special-function instructions complete whatever their operands: each executing lane of vd takes the
function's value at its lane of va in the mode of MOD[0], every other lane keeps its value, and SFU.COMPAT_COUNT counts the
instruction when MOD[0] is 1 and stops at its largest value. At infinities, zeros and NaNs the values are those of Table 6 of
05 in both modes; ERF and SOFTPLUS do not depend on the mode. -/
def Obligations.SpecialFunctions : Prop :=
  (∀ (s : State) (t : Tile) (g : Guard) (k1 : Bool) (vd va : BitVec 4),
    let x := s.tile t
    let count := if k1 then min (2 ^ 32 - 1) (x.regs.compat + 1) else x.regs.compat
    let does (i : Instr) (f : W32 → W32) : Prop := Stands s t i → ∃ s', exec i s = .next s'
      ∧ TileTo s t { x with v := (s'.tile t).v, regs := { x.regs with compat := count } } s'
      ∧ (∀ i, i < 512 → lane (s'.tile t) vd i = if (x.lanes g).getLsbD i then f (lane x va i) else lane x vd i)
      ∧ ∀ r, r ≠ vd → ∀ i, i < 512 → lane (s'.tile t) r i = lane x r i
    does (.exp2 t g k1 vd va) (sfuExp2 k1) ∧ does (.exp t g k1 vd va) (sfuExp k1) ∧ does (.log2 t g k1 vd va) (sfuLog2 k1)
      ∧ does (.rcp t g k1 vd va) (sfuRcp k1) ∧ does (.rsqrt t g k1 vd va) (sfuRsqrt k1)
      ∧ does (.sigmoid t g k1 vd va) (sfuSigmoid k1) ∧ does (.tanh t g k1 vd va) (sfuTanh k1)
      ∧ does (.gelu t g k1 vd va) (sfuGelu k1) ∧ does (.silu t g k1 vd va) (sfuSilu k1)
      ∧ does (.softplus t g k1 vd va) sfuSoftplus ∧ does (.erf t g k1 vd va) sfuErf
      ∧ does (.sin t g k1 vd va) (sfuSin k1) ∧ does (.cos t g k1 vd va) (sfuCos k1))
  ∧ (∀ k1 : Bool,
    let pinf : W32 := 0x7F800000#32
    let ninf : W32 := 0xFF800000#32
    let pz : W32 := 0x00000000#32
    let nz : W32 := 0x80000000#32
    let one : W32 := 0x3F800000#32
    let none_ : W32 := 0x7FC00000#32
    (∀ f ∈ [sfuExp2 k1, sfuExp k1], f ninf = pz ∧ f pz = one ∧ f nz = one ∧ f pinf = pinf)
      ∧ (sfuLog2 k1 ninf = none_ ∧ sfuLog2 k1 pz = ninf ∧ sfuLog2 k1 nz = ninf ∧ sfuLog2 k1 pinf = pinf)
      ∧ (sfuRcp k1 ninf = nz ∧ sfuRcp k1 pz = pinf ∧ sfuRcp k1 nz = ninf ∧ sfuRcp k1 pinf = pz)
      ∧ (sfuRsqrt k1 ninf = none_ ∧ sfuRsqrt k1 pz = pinf ∧ sfuRsqrt k1 nz = ninf ∧ sfuRsqrt k1 pinf = pz)
      ∧ (sfuSigmoid k1 ninf = pz ∧ sfuSigmoid k1 pz = 0x3F000000#32 ∧ sfuSigmoid k1 nz = 0x3F000000#32
          ∧ sfuSigmoid k1 pinf = one)
      ∧ (∀ f ∈ [sfuTanh k1, sfuErf], f ninf = 0xBF800000#32 ∧ f pz = pz ∧ f nz = nz ∧ f pinf = one)
      ∧ (∀ f ∈ [sfuSilu k1, sfuGelu k1], f ninf = nz ∧ f pz = pz ∧ f nz = nz ∧ f pinf = pinf)
      ∧ (sfuSoftplus ninf = pz ∧ sfuSoftplus pinf = pinf)
      ∧ (sfuSin k1 ninf = none_ ∧ sfuSin k1 pz = pz ∧ sfuSin k1 nz = nz ∧ sfuSin k1 pinf = none_)
      ∧ (sfuCos k1 ninf = none_ ∧ sfuCos k1 pz = one ∧ sfuCos k1 nz = one ∧ sfuCos k1 pinf = none_)
      ∧ ∀ w, isNaN32 w = true → ∀ f ∈ [sfuExp2 k1, sfuExp k1, sfuLog2 k1, sfuRcp k1, sfuRsqrt k1, sfuSigmoid k1,
          sfuTanh k1, sfuGelu k1, sfuSilu k1, sfuSoftplus, sfuErf, sfuSin k1, sfuCos k1], f w = none_)

/-- With a tensor descriptor (a nonzero header of TYPE 0x10) in scratchpad or accumulator memory whose format Table 1 of 05
accepts, aligned as R34 and R43 ask, VLD puts element offset + i of its row into each executing lane i: the raw pattern in
FP32, INT32 and UINT32, else the exact value, and +0 outside the extents. VST with MOD 10 or 11 raises
ISA_FIELD_RANGE, one that would write a block in part ISA_MISALIGN; any other changes only its scratchpad or accumulator
memory and the summary counts, these only in a block format. In a format without scales in scratchpad memory every byte
outside the elements of the executing lanes inside the extents stays as it was, and in FP32, INT32 and UINT32 each such
element takes its lane's pattern. VSTAT puts the mean and the
variance of each executing row inside the extents into its lane of vd and v(d + 1). VCVT to a format of codes 0 to 4 gives each
executing lane the equal FP32 value of its rounding to that format; a format above raises ISA_FORMAT and an unassigned one
ISA_FIELD_RANGE, as MOD 10 and 11 do. -/
def Obligations.VectorMemoryAndConversion : Prop :=
  ∀ (s : State) (t : Tile) (g : Guard) (vd va : BitVec 4) (sx : BitVec 5) (ds : BitVec 6) (rnd : BitVec 2) (fmt : BitVec 6),
    let x := s.tile t
    let d := tensorOf (x.dreg ds)
    let o := (x.sreg sx).toNat % 2 ^ 32
    let r := (x.sreg sx).toNat / 2 ^ 32
    let usable : Prop := descHdr (x.dreg ds) ≠ 0 ∧ descType (x.dreg ds) = 0x10 ∧ (d.space = 0 ∨ d.space = 2) ∧ d.fmt ≠ 6
      ∧ fmtMx d.fmt = false ∧ d.aligned = true ∧ o % d.block = 0
    let inside (i : Nat) : Prop := (x.lanes g).getLsbD i = true ∧ d.hasRow ⟨r, 0, 0, 0⟩ = true ∧ o + i < d.e0
    (usable → Stands s t (.vld t g vd sx ds) → ∃ s', exec (.vld t g vd sx ds) s = .next s'
        ∧ WritesLanes s t g vd (fun i =>
            if d.fmt = 0 ∨ d.fmt = 5 ∨ d.fmt = 7 then
              (if d.hasRow ⟨r, 0, 0, 0⟩ = true ∧ o + i < d.e0 then BitVec.ofNat 32 (s.elemBits t d ⟨r, 0, 0, 0⟩ (o + i)) else 0)
            else to32 (s.elemVal t d ⟨r, 0, 0, 0⟩ (o + i))) s')
      ∧ (usable → Stands s t (.vst t g rnd va sx ds) → ∃ s', exec (.vst t g rnd va sx ds) s = .next s'
            ∧ (1 < rnd.toNat → Faults s t Codes.isaFieldRange s')
            ∧ (rnd.toNat ≤ 1 → vstPartial d ⟨r, 0, 0, 0⟩ o (x.lanes g) = true → Faults s t Codes.isaMisalign s')
            ∧ (rnd.toNat ≤ 1 → vstPartial d ⟨r, 0, 0, 0⟩ o (x.lanes g) = false →
                TileTo s t { x with spad := (s'.tile t).spad, acc := (s'.tile t).acc,
                                    regs := { x.regs with sums := (s'.tile t).regs.sums } } s'
                  ∧ (d.space = 0 → (s'.tile t).acc = x.acc) ∧ (d.space = 2 → (s'.tile t).spad = x.spad)
                  ∧ (fmtScaled d.fmt = false → (s'.tile t).regs.sums = x.regs.sums)
                  ∧ (fmtScaled d.fmt = false → d.space = 0 →
                      (∀ a, (∀ i, i < 512 → inside i → a < d.rowAddr ⟨r, 0, 0, 0⟩ + (o + i) * (fmtBits d.fmt / 8)
                          ∨ d.rowAddr ⟨r, 0, 0, 0⟩ + (o + i + 1) * (fmtBits d.fmt / 8) ≤ a) →
                        byteAt s' t 0 a = byteAt s t 0 a)
                      ∧ (d.fmt = 0 ∨ d.fmt = 5 ∨ d.fmt = 7 → ∀ i k, i < 512 → inside i → k < 4 →
                          byteAt s' t 0 (d.rowAddr ⟨r, 0, 0, 0⟩ + (o + i) * 4 + k)
                            = BitVec.ofNat 8 ((lane x va i).toNat / 256 ^ k)))))
      ∧ (usable → vd.toNat % 2 = 0 → o < d.e0 → d.e0 ≤ o + 2 ^ 20 → Stands s t (.vstat t g vd sx ds) →
          ∃ s', exec (.vstat t g vd sx ds) s = .next s' ∧ TileTo s t { x with v := (s'.tile t).v } s'
            ∧ ∀ i, i < 512 →
                let live := (x.lanes g).getLsbD i = true ∧ r + i < d.e1
                let stats := rowStats ((List.range (d.e0 - o)).map (fun j => s.vecElem t d ⟨r + i, 0, 0, 0⟩ (o + j)))
                (live → lane (s'.tile t) vd i = stats.1 ∧ lane (s'.tile t) (vd + 1) i = stats.2)
                  ∧ (¬ live → lane (s'.tile t) vd i = lane x vd i ∧ lane (s'.tile t) (vd + 1) i = lane x (vd + 1) i)
                  ∧ ∀ q, q ≠ vd → q ≠ vd + 1 → lane (s'.tile t) q i = lane x q i)
      ∧ (Stands s t (.vcvt t g rnd vd va fmt) → ∃ s', exec (.vcvt t g rnd vd va fmt) s = .next s'
          ∧ (rnd.toNat ≤ 1 → fmt.toNat ≤ 4 → WritesLanes s t g vd (fun i =>
              if fmt = 0 then lane x va i
              else to32 (decodeElem fmt.toNat (encodeElem fmt.toNat
                (if rnd = 1 then .sr (srBits x.seed 15 ((lane x va i).toNat * 512 + i)) else .rne)
                (val32 (lane x va i))) 127)) s')
          ∧ (1 < rnd.toNat ∨ fmtEnc fmt.toNat = none → Faults s t Codes.isaFieldRange s')
          ∧ (rnd.toNat ≤ 1 → 4 < fmt.toNat → fmtEnc fmt.toNat ≠ none → Faults s t Codes.isaFormat s'))

/-- DLOAD from an address s[SX] + IMM64 that is a multiple of 64 and below 24 MiB loads the 64 bytes there, the first least
significant, into dD when they form a descriptor that its checks accept, and changes nothing else; otherwise it raises
ISA_MISALIGN, ISA_ADDR_RANGE or the check's fault. DSET of a tensor descriptor with FSEL up to 15 and a value that fits the
field replaces exactly the bits of that field when the result is a valid tensor descriptor, and raises ISA_DESC_INVALID when
it is not; with FSEL above 15 or a value too wide it raises ISA_FIELD_RANGE, and no descriptor changes. -/
def Obligations.DescriptorLoadAndSet : Prop :=
  ∀ (s : State) (t : Tile) (g : Guard) (dd fsel : BitVec 6) (sx : BitVec 5) (imm : W64),
    let x := s.tile t
    let a := (x.sreg sx + imm).toNat
    let v := (x.sreg sx).toNat
    let writes (d : Desc) (s' : State) : Prop :=
      TileTo s t { x with d := (s'.tile t).d } s' ∧ (s'.tile t).dreg dd = d
        ∧ ∀ q, q ≠ dd → (s'.tile t).dreg q = x.dreg q
    (Runs s t g (.dload t g dd sx imm) → ∃ s', exec (.dload t g dd sx imm) s = .next s'
        ∧ (a % 64 ≠ 0 → Faults s t Codes.isaMisalign s')
        ∧ (a % 64 = 0 → 25165824 ≤ a → Faults s t Codes.isaAddrRange s')
        ∧ (a % 64 = 0 → a < 25165824 → ∃ d : Desc,
            (∀ i, i < 64 → x.spad.get 0 (a + i) = BitVec.ofNat 8 (d.toNat / 256 ^ i))
              ∧ (s.descFault d = none → writes d s') ∧ (∀ c, s.descFault d = some c → Faults s t c s')))
      ∧ (Runs s t g (.dset t g dd sx fsel) → ∃ s', exec (.dset t g dd sx fsel) s = .next s'
        ∧ (15 < fsel.toNat → Faults s t Codes.isaFieldRange s')
        ∧ (∀ lo w, dsetField fsel.toNat = some (lo, w) →
            (2 ^ w ≤ v → Faults s t Codes.isaFieldRange s')
              ∧ (v < 2 ^ w → ∃ d : Desc,
                  (∀ i, i < 512 → d.getLsbD i = if lo ≤ i ∧ i < lo + w then v.testBit (i - lo) else (x.dreg dd).getLsbD i)
                    ∧ (descHdr (x.dreg dd) = 0x2010 ∧ s.tensorValid d = true → writes d s')
                    ∧ (¬ (descHdr (x.dreg dd) = 0x2010 ∧ s.tensorValid d = true) →
                        Faults s t Codes.isaDescInvalid s'))))

/-- With operands that pass their checks, each of DCOPY, DGATHER and DWIN adds one outstanding DMA, with its descriptors,
offsets, event counter and slot as read at issue, behind those of its tile, and changes nothing else; with 32 outstanding it
stalls, and the state stays as it is. DCOPY faults with ISA_FIELD_RANGE on a rounding above 01, and otherwise with ISA_TRANSPOSE
when it transposes a source outside stack memory that is well aligned and of convertible formats. DGATHER and DWIN with an
operand that is no descriptor of the TYPE they need raise no DMA. -/
def Obligations.DmaIssue : Prop :=
  ∀ (s : State) (t : Tile) (g : Guard) (trans : Bool) (rnd : BitVec 2) (dd ds dw : BitVec 6) (so sd : BitVec 5) (evt : BitVec 4),
    let x := s.tile t
    let a := tensorOf (x.dreg ds)
    let b := tensorOf (x.dreg dd)
    let typed (type : Nat) (d : BitVec 6) : Prop := descHdr (x.dreg d) ≠ 0 ∧ descType (x.dreg d) = type
    let issues (i : Instr) (r : DmaRec) : Prop := Runs s t g i → ∃ s', exec i s = .next s'
      ∧ (x.dmas.length < 32 → TileTo s t { x with dmas := x.dmas ++ [r] } s') ∧ (32 ≤ x.dmas.length → s' = s)
    let clean : Prop := typed 0x10 dd ∧ typed 0x10 ds ∧ convertible a.fmt b.fmt = true ∧ b.space ≠ 2
      ∧ mxPairOk a.fmt b.fmt = true ∧ s.inStash x.job a = false ∧ a.aligned = true ∧ b.aligned = true
      ∧ (x.sreg so).toNat % 2 ^ 32 % a.block = 0 ∧ (x.sreg sd).toNat % 2 ^ 32 % b.block = 0
    let pages := pageListOf (x.dreg ds)
    let first := (x.sreg so).toNat
    let count := (x.sreg sd).toNat
    (clean → rnd.toNat ≤ 1 → (trans = true → a.space = 1) →
        issues (.dcopy t g trans rnd dd ds so sd evt)
          ⟨.copy trans (rnd.toNat == 1), x.pc, evt.toNat, x.dreg dd, x.dreg ds, 0, x.sreg so, x.sreg sd, false⟩)
      ∧ (1 < rnd.toNat → Runs s t g (.dcopy t g trans rnd dd ds so sd evt) →
          ∃ s', exec (.dcopy t g trans rnd dd ds so sd evt) s = .next s' ∧ Faults s t Codes.isaFieldRange s')
      ∧ (clean → rnd.toNat ≤ 1 → trans = true → a.space ≠ 1 → Runs s t g (.dcopy t g trans rnd dd ds so sd evt) →
          ∃ s', exec (.dcopy t g trans rnd dd ds so sd evt) s = .next s' ∧ Faults s t Codes.isaTranspose s')
      ∧ (typed 0x10 dd → typed 0x11 ds → s.pageListValid (x.dreg ds) = true → pages.locus ≠ 2 → b.space = 0 → b.rank = 3
          → b.e0 = 128 → b.fmt = pages.fmt → first < 2 ^ 40 → first / 2 ^ 32 % 2 ^ 8 + b.e2 ≤ pages.heads → count ≠ 0
          → count ≤ b.e1 → issues (.dgather t g dd ds so sd evt)
            ⟨.gather, x.pc, evt.toNat, x.dreg dd, x.dreg ds, 0, x.sreg so, x.sreg sd, false⟩)
      ∧ (typed 0x10 dd → typed 0x10 ds → typed 0x12 dw → a.space ≤ 1 → b.space = 0 → b.rank = 2 → a.fmt = b.fmt
          → a.fmt ≤ 4 → s.inStash x.job a = false → issues (.dwin t g dd ds dw so evt)
            ⟨.window, x.pc, evt.toNat, x.dreg dd, x.dreg ds, x.dreg dw, x.sreg so, 0, false⟩)
      ∧ (¬ typed 0x11 ds → Runs s t g (.dgather t g dd ds so sd evt) →
          ∃ s', exec (.dgather t g dd ds so sd evt) s = .next s' ∧ (s'.tile t).dmas = x.dmas ∧ (s'.tile t).run = .faulted)

/-- When an outstanding DMA completes without an error, its writes are visible, it is no longer outstanding, its event counter
has counted 1 modulo 2^32 and no other one has, whether the tile runs, waits or has faulted; no register of the tile, no other
tile and no job changes. On a page that is not resident it stays outstanding and waits. A DMA that meets an error, or an
uncorrectable one at an address it reads, leaves the outstanding ones without counting, and the tile's job faults with the
code unless it already has. -/
def Obligations.DmaCompletion : Prop :=
  ∀ (s : State) (t : Tile) (n : Nat) (d : DmaRec), (s.tile t).dmas[n]? = some d →
    let x := s.tile t
    let fails (c : Code) (s' : State) : Prop := (s'.tile t).dmas = x.dmas.eraseIdx n ∧ (s'.tile t).e = x.e
      ∧ ∀ y, s.job x.job = some y → s'.job x.job = some { y with fault := some (y.fault.getD c) }
    (s.dmaAbsent t d = [] →
      ∃ s', exec (.dmaComplete t n) s = .next s'
        ∧ (∀ s1, s.dmaDo t d = .ok s1 →
            (s'.tile t).dmas = x.dmas.eraseIdx n ∧ (s'.tile t).ereg d.evt = x.ereg d.evt + 1
              ∧ (∀ k, k ≠ d.evt → (s'.tile t).ereg k = x.ereg k) ∧ s'.mem = s1.mem
              ∧ (s'.tile t).spad = (s1.tile t).spad ∧ (s'.tile t).s = x.s ∧ (s'.tile t).v = x.v ∧ (s'.tile t).p = x.p
              ∧ (s'.tile t).d = x.d ∧ (s'.tile t).hand = x.hand ∧ s'.sched = s.sched
              ∧ ((∀ k v, x.run ≠ .waitEvt k v) → (s'.tile t).run = x.run ∧ (s'.tile t).pc = x.pc)
              ∧ ∀ u, u ≠ t.val → s'.tile u = s.tile u)
        ∧ (∀ e, s.dmaDo t d = .error e → fails e.code s'))
      ∧ (s.dmaAbsent t d ≠ [] → ∃ s', exec (.dmaComplete t n) s = .next s'
          ∧ s'.tile t = { x with dmas := x.dmas.set n { d with waiting := true } } ∧ s'.mem.bytes = s.mem.bytes)
      ∧ (∀ s1, s.dmaDo t d = .ok s1 → s.dmaReads t d ≠ [] →
          ∃ s', exec (.dmaFaultReport t n .uncorrectable) s = .next s' ∧ fails Codes.memUncorrectable s')

/-- ANTE with a density of 1 to 64 and a nonzero duration puts its phase into effect; with density 0 it cancels the phase in
effect when the identifier is its own and changes nothing otherwise; a density above 64, or a nonzero one with duration 0, raises
ISA_FIELD_RANGE. The end of the duration takes the phase out of effect. TRACE writes one record at TRACE.NEXT whose bits 63:0
are s[SX], 111:100 the slot and 127:112 the tag, moves NEXT on modulo 256, counts records up to 256 and sets WRAPPED when the
buffer was full. CNTRD 1 and 3 read the array-busy cycles and the instructions issued before it; a counter above 3 raises
ISA_FIELD_RANGE; 0 and 2 count time and write a free value (log entry 3). -/
def Obligations.PowerAndTrace : Prop :=
  ∀ (s : State) (t : Tile) (g : Guard) (phase : BitVec 8) (density : BitVec 7) (durK : BitVec 20) (tag : BitVec 16)
    (sx : BitVec 5) (sel : BitVec 8),
    let x := s.tile t
    (Runs s t g (.ante t g phase density durK) → ∃ s', exec (.ante t g phase density durK) s = .next s'
        ∧ (1 ≤ density.toNat → density.toNat ≤ 64 → durK ≠ 0 → TileTo s t { x with pwr :=
            { x.pwr with phase := phase.toNat, phaseValid := true, density := density.toNat } } s')
        ∧ (density = 0 → x.pwr.phaseValid = true → x.pwr.phase = phase.toNat →
            TileTo s t { x with pwr := { x.pwr with phaseValid := false, density := 0 } } s')
        ∧ (density = 0 → x.pwr.phaseValid = false ∨ x.pwr.phase ≠ phase.toNat → TileTo s t x s')
        ∧ (64 < density.toNat ∨ (density ≠ 0 ∧ durK = 0) → Faults s t Codes.isaFieldRange s'))
      ∧ (x.pwr.phaseValid = true → ∃ s', exec (.phaseExpiry t) s = .next s' ∧ OnlyTile s s' t
          ∧ s'.tile t = { x with pwr := { x.pwr with phaseValid := false, density := 0 } })
      ∧ (Runs s t g (.trace t g tag sx) → ∃ s' w, exec (.trace t g tag sx) s = .next s'
          ∧ TileTo { s with freeCtr := s.freeCtr + 1 } t
              { x with trace := (s'.tile t).trace,
                       regs := { x.regs with traceNext := (x.regs.traceNext + 1) % 256,
                                             traceCount := min 256 (x.regs.traceCount + 1),
                                             traceWrap := x.regs.traceWrap || x.regs.traceCount == 256 } } s'
          ∧ (s'.tile t).trace.get 0 x.regs.traceNext = w
          ∧ w.extractLsb' 0 64 = x.sreg sx ∧ w.extractLsb' 100 12 = BitVec.ofNat 12 x.pc ∧ w.extractLsb' 112 16 = tag
          ∧ ∀ k, k ≠ x.regs.traceNext → (s'.tile t).trace.get 0 k = x.trace.get 0 k)
      ∧ (Runs s t g (.cntrd t g sx sel) → ∃ s', exec (.cntrd t g sx sel) s = .next s'
          ∧ (sel = 1 → WritesScalar s t sx (BitVec.ofNat 64 x.busy) s')
          ∧ (sel = 3 → WritesScalar s t sx (BitVec.ofNat 64 x.issued) s')
          ∧ (sel = 0 ∨ sel = 2 → ∃ v, WritesScalar { s with freeCtr := s.freeCtr + 1 } t sx v s')
          ∧ (3 < sel.toNat → Faults s t Codes.isaFieldRange s'))

/-- For an accumulator tile that ACC names in its mode, an MMA whose operands are aligned tensors in scratchpad memory of an
accepted pair, with K from 1 to the limit, an accumulator tile that is empty or in the layout of the pair, and transposed reads
only where allowed, changes each word (r, c) of that tile to its product: outside FP32, the groups of K accumulated onto the
old word in full mode, and in quartered mode the old word + ((E0 + E1) + (E2 + E3)) over the four shares of ceil(K/4) elements;
in FP32 columns 2c and 2c + 1 take the two sums of the three passes. The tile's state becomes paired for FP32, else plain. MZERO
makes every word +0 and the state empty. Neither changes another word, register or memory. K of 0 raises ISA_FIELD_RANGE; an
ACC outside the mode's range never executes. -/
def Obligations.MatrixMultiply : Prop :=
  ∀ (s : State) (t : Tile) (g : Guard) (quart tra trb : Bool) (da db : BitVec 6) (acc sa sb sk : BitVec 5)
    (dr : Option (BitVec 6)),
    let x := s.tile t
    let a := tensorOf (x.dreg da)
    let b := tensorOf (x.dreg db)
    let oa := x.sreg sa
    let ob := x.sreg sb
    let k := (x.sreg sk).toNat % 2 ^ 32
    let named (d : BitVec 6) : Prop := descHdr (x.dreg d) ≠ 0 ∧ descType (x.dreg d) = 0x10
    let va (r n : Nat) : FV := s.opVal t a oa tra n r
    let vb (c n : Nat) : FV := s.opVal t b ob trb n c
    let only (s' : State) : Prop := TileTo s t { x with acc := (s'.tile t).acc, units := (s'.tile t).units,
                                                        busy := (s'.tile t).busy } s'
    let word (s : State) (p : AccTile) (r c : Nat) : W32 := (s.tile t).acc.get 0 (p.key r c)
    let part (r c : Nat) (j : Nat) : W32 :=
      accumGroups (va r) (vb c) 0 (groups a b oa ob (min k (j * ceilDiv k 4)) (min k ((j + 1) * ceilDiv k 4)))
    (∀ p, accTile quart acc.toNat = some p →
      (Runs s t g (.mma t g quart tra trb da db acc sa sb sk dr) → named da → named db → a.space = 0 → b.space = 0 →
        pairOk a.fmt b.fmt = true → 1 ≤ k → k ≤ kMax (pairLane a.fmt b.fmt) →
        (x.accState p = some .empty ∨ x.accState p = some (if a.fmt = 0 then .paired else .plain)) →
        (tra = true → transposeOk a oa = true) → (trb = true → transposeOk b ob = true) → a.aligned = true →
        b.aligned = true → oa.toNat % 2 ^ 32 % a.block = 0 → ob.toNat % 2 ^ 32 % b.block = 0 →
        (∀ r, dr = some r → named r ∧ replayOk b (tensorOf (x.dreg r)) = true
            ∧ pairOk a.fmt (tensorOf (x.dreg r)).fmt = true) →
        ∃ s', exec (.mma t g quart tra trb da db acc sa sb sk dr) s = .next s' ∧ only s'
          ∧ (s'.tile t).accState p = some (if a.fmt = 0 then .paired else .plain)
          ∧ (∀ q, (∀ r c, r < 128 → c < p.cols → q ≠ p.key r c) → (s'.tile t).acc.get 0 q = x.acc.get 0 q)
          ∧ ∀ r c, r < 128 →
              (a.fmt ≠ 0 → c < p.cols → word s' p r c =
                if quart then fadd (word s p r c) (fadd (fadd (part r c 0) (part r c 1)) (fadd (part r c 2) (part r c 3)))
                else accumGroups (va r) (vb c) (word s p r c) (groups a b oa ob 0 k))
              ∧ (a.fmt = 0 → 2 * c < p.cols → (word s' p r (2 * c), word s' p r (2 * c + 1)) =
                  dotPaired quart a b oa ob k (va r) (vb c) (word s p r (2 * c)) (word s p r (2 * c + 1))))
      ∧ (Runs s t g (.mzero t g quart acc) → ∃ s', exec (.mzero t g quart acc) s = .next s' ∧ only s'
          ∧ (s'.tile t).accState p = some .empty ∧ (s'.tile t).busy = x.busy
          ∧ (∀ q, (∀ r c, r < 128 → c < p.cols → q ≠ p.key r c) → (s'.tile t).acc.get 0 q = x.acc.get 0 q)
          ∧ ∀ r c, r < 128 → c < p.cols → word s' p r c = 0))
      ∧ (Runs s t g (.mma t g quart tra trb da db acc sa sb sk dr) → k = 0 →
          ∃ s', exec (.mma t g quart tra trb da db acc sa sb sk dr) s = .next s' ∧ Faults s t Codes.isaFieldRange s')
      ∧ (accTile quart acc.toNat = none → Runs s t g (.mzero t g quart acc) →
          ∃ s', exec (.mzero t g quart acc) s = .next s' ∧ Faults s t Codes.isaAccRange s')

/-- Once their checks and their accesses pass, MLOAD puts into word (r, c) of the accumulator tile the element at its offset +
(r, c), converted to FP32 (in FP32 its bits), +0 outside the extents, in the paired layout as (value, +0) pairs; an empty tile
becomes plain. MSTORE changes only stored bytes and the summary counts. In FP32 in scratchpad memory its stored elements take
the results, even + odd in the paired layout, and no byte outside the destination's extents changes. With MOD[3], the words of
the accumulator tile change only in the column groups that are replayed, none when RATE is 0, and a storm under the stop
policy raises PRECISION_STORM with nothing stored. A page not resident makes either wait with no effect but the wait. -/
def Obligations.AccumulatorMoves : Prop :=
  ∀ (s : State) (t : Tile) (g : Guard) (quart : Bool) (rnd : BitVec 2) (acc so : BitVec 5) (dd : BitVec 6) (bm : BitVec 6)
    (p : AccTile) (h : Hand), accTile quart acc.toNat = some p → (s.tile t).hand = some h →
    let x := s.tile t
    let d := tensorOf (x.dreg dd)
    let o := x.sreg so
    let paired := x.accState p == some .paired
    let n := if paired then p.cols / 2 else p.cols
    let acs := tileAccesses d o n
    let ready : Prop := s.checkAccesses (.job x.job) acs = none ∧ s.tileAbsent x.job acs = []
    let result (r c : Nat) : W32 :=
      if paired then fadd (x.acc.get 0 (p.key r (2 * c))) (x.acc.get 0 (p.key r (2 * c + 1))) else x.acc.get 0 (p.key r c)
    let cell (r c : Nat) : Nat := d.rowAddr ⟨o.toNat / 2 ^ 32 + r, 0, 0, 0⟩ + (o.toNat % 2 ^ 32 + c) * 4
    let inside (r c : Nat) : Prop := r < 128 ∧ c < n ∧ d.hasRow ⟨o.toNat / 2 ^ 32 + r, 0, 0, 0⟩ = true
      ∧ o.toNat % 2 ^ 32 + c < d.e0
    let stores (s' : State) : Prop := OnlyTile s { s' with mem := s.mem, freeCtr := s.freeCtr } t
      ∧ s'.tile t = { x with spad := (s'.tile t).spad, acc := (s'.tile t).acc, loops := (s'.tile t).loops,
                             pc := (s'.tile t).pc, issued := (s'.tile t).issued,
                             regs := { x.regs with sums := (s'.tile t).regs.sums,
                                                   degenerate := (s'.tile t).regs.degenerate } }
      ∧ Passed x (s'.tile t)
    (mloadFault s t quart acc dd so = none → ready → Runs s t g (.mload t g quart acc dd so) →
        ∀ rows, s.mloadRows x.job t d o p paired = .ok rows →
          ∃ s', exec (.mload t g quart acc dd so) s = .next s'
            ∧ TileTo s t { x with acc := (s'.tile t).acc, units := (s'.tile t).units } s'
            ∧ (s'.tile t).accState p = some (if paired then .paired else .plain)
            ∧ ∀ r c, r < 128 → c < n → d.space ≠ 1 → ∀ v,
                v = (if d.fmt ≠ 0 then to32 (s.elemVal t d ⟨o.toNat / 2 ^ 32 + r, 0, 0, 0⟩ (o.toNat % 2 ^ 32 + c))
                  else if inside r c then
                    BitVec.ofNat 32 (s.elemBits t d ⟨o.toNat / 2 ^ 32 + r, 0, 0, 0⟩ (o.toNat % 2 ^ 32 + c))
                  else 0) →
                (paired = false → (s'.tile t).acc.get 0 (p.key r c) = v)
                  ∧ (paired = true → (s'.tile t).acc.get 0 (p.key r (2 * c)) = v
                      ∧ (s'.tile t).acc.get 0 (p.key r (2 * c + 1)) = 0))
      ∧ (mstoreFault s t quart rnd.toNat acc dd so none = none → ready →
          Runs s t g (.mstore t g quart rnd acc dd so none) →
          ∀ q, s.storeRows x.job t d ⟨rnd.toNat == 1, h.seed⟩ h.thresh o 0
              ((List.range 128).map (fun r => rowResults paired (x.accRow p r))) (s, .zeros) = .ok q →
            ∃ s', exec (.mstore t g quart rnd acc dd so none) s = .next s' ∧ stores s'
              ∧ (s'.tile t).regs.sums = (q.1.tile t).regs.sums.add q.2
              ∧ (d.fmt = 0 → d.space = 0 →
                  (∀ a, (∀ r c, inside r c → a < cell r c ∨ cell r c + 4 ≤ a) → byteAt s' t 0 a = byteAt s t 0 a)
                  ∧ ((∀ r r' c c', inside r c → inside r' c' → r < r' → cell r c + 4 ≤ cell r' c') →
                      ∀ r c k, inside r c → k < 4 →
                        byteAt s' t 0 (cell r c + k) = BitVec.ofNat 8 ((result r c).toNat / 256 ^ k))))
      ∧ (mstoreFault s t quart rnd.toNat acc dd so (some bm) = none → ready → s.logAbsent x.job = [] →
          Runs s t g (.mstore t g quart rnd acc dd so (some bm)) →
          ∃ s', exec (.mstore t g quart rnd acc dd so (some bm)) s = .next s'
            ∧ ∀ dec, dec = decide128 h.rate
                  ((((List.range 128).map (fun r => x.accRow p r)).zipIdx).flatMap (fun w =>
                    scanRow d ⟨rnd.toNat == 1, h.seed⟩ o w.2 w.1)).length
                  (!(x.hist quart p).bad && (x.hist quart p).recs.all (recValid x))
                  (needReplay h.thresh (fun c => s.marked t (tensorOf (x.dreg bm)) (o.toNat % 2 ^ 32 + c))
                    ((((List.range 128).map (fun r => x.accRow p r)).zipIdx).flatMap (fun w =>
                      scanRow d ⟨rnd.toNat == 1, h.seed⟩ o w.2 w.1)) (p.cols / 64)) →
              (dec.storms ≠ 0 → s.stopPolicy h.job = true → Faults s t Codes.precisionStorm s')
              ∧ (dec.storms = 0 ∨ s.stopPolicy h.job = false →
                  (s'.tile t).s = x.s ∧ (s'.tile t).v = x.v ∧ (s'.tile t).p = x.p ∧ (s'.tile t).d = x.d
                    ∧ (s'.tile t).e = x.e ∧ Passed x (s'.tile t) ∧ (∀ u, u ≠ t.val → s'.tile u = s.tile u)
                    ∧ (h.rate = 0 → dec.replay = [])
                    ∧ (d.space ≠ 2 → ∀ r c, r < 128 → c < p.cols → c / 64 ∉ dec.replay →
                        (s'.tile t).acc.get 0 (p.key r c) = x.acc.get 0 (p.key r c))))
      ∧ (mloadFault s t quart acc dd so = none → s.checkAccesses (.job x.job) acs = none → s.tileAbsent x.job acs ≠ [] →
          Runs s t g (.mload t g quart acc dd so) →
          ∃ s', exec (.mload t g quart acc dd so) s = .next s' ∧ s'.tile t = x ∧ s'.mem.bytes = s.mem.bytes)

/-- ABIND with operands that pass its checks binds the context to its window and its K and V lists, with L the TAIL that the
sequence record holds now when a list is paged, and leaves every other binding; another tile's hold on another record raises
SEQ_CONFLICT. AFWD on checked operands, with pages resident, gives every row of the query block the statistics and O that its
issued key blocks make in ascending order, from the mask value, 0 and zeros when it starts and from what the row held otherwise,
and counts the issued and the skipped blocks; with MOD[1] it also writes the finished rows. ABWD with no issued block changes
only those counts and the array-busy count. No scalar, vector, predicate, descriptor or event register and no other tile changes.
While an append of the context is outstanding each of them stalls. -/
def Obligations.AttentionPasses : Prop :=
  ∀ (s : State) (t : Tile) (g : Guard) (rope start fin : Bool) (c : BitVec 2) (dw dpk dpv dq dout dl dg dkv : BitVec 6)
    (sq skr acc : BitVec 5),
    let x := s.tile t
    let q := tensorOf (x.dreg dq)
    let o := attOps q (x.sreg sq) (x.sreg skr)
    let keeps (s' : State) : Prop := (s'.tile t).s = x.s ∧ (s'.tile t).v = x.v ∧ (s'.tile t).p = x.p ∧ (s'.tile t).d = x.d
      ∧ (s'.tile t).e = x.e ∧ Passed x (s'.tile t) ∧ ∀ u, u ≠ t.val → s'.tile u = s.tile u
    let counted (blocks : List KeyBlock) (s' : State) : Prop :=
      (s'.tile t).regs.pairsIssued = min (2 ^ 64 - 1) (x.regs.pairsIssued + (blocks.filter (·.issued)).length)
        ∧ (s'.tile t).regs.pairsSkipped
            = min (2 ^ 64 - 1) (x.regs.pairsSkipped + (blocks.length - (blocks.filter (·.issued)).length))
    let reads (b : Binding) (m : MaskRule) (ops : List (Nat × Nat)) : Prop :=
      let rd := attReads s b o (keyBlocks m o) ops
      s.checkAccesses (.job x.job) (rd.1 ++ rd.2) = none ∧ s.tileAbsent x.job (rd.1 ++ rd.2) = []
    (Runs s t g (.abind t g rope c dw dpk dpv) → x.appendWaits c.toNat = false →
        ∃ s', exec (.abind t g rope c dw dpk dpv) s = .next s'
          ∧ (abindFault s t c.toNat dw dpk dpv = none →
              (∀ b, bindSeq (x.dreg dpk) (x.dreg dpv) = some b → s.checkAccesses (.job x.job) [(b, 64)] = none
                ∧ s.absentPages b 64 = []) →
              keeps s' ∧ s'.mem = s.mem ∧ (∀ k, k ≠ c.toNat → (s'.tile t).binding k = x.binding k)
                ∧ (s'.tile t).binding c.toNat = some ⟨x.dreg dw, x.dreg dpk, x.dreg dpv, rope,
                    match bindSeq (x.dreg dpk) (x.dreg dpv) with
                    | some b => s.seqTail b
                    | none => 0⟩)
          ∧ (∀ e, abindFault s t c.toNat dw dpk dpv = some e → Faults s t e s'))
      ∧ (∀ b m p qs kvs, Runs s t g (.afwd t g start fin c dq dout dl sq skr acc) → x.appendWaits c.toNat = false →
          afwdFault s t start fin c.toNat dq dout dl sq skr acc = none → x.binding c.toNat = some b →
          s.maskRule t b = some m → accTile true acc.toNat = some p →
          reads b m (attAccess q o.row0 o.rows 128 ++ (if fin then attAccess (tensorOf (x.dreg dout)) o.row0 o.rows 128
            ++ attAccess (tensorOf (x.dreg dl)) o.row0 o.rows 1 else [])) →
          s.queryRows x.job t b q o = .ok qs → s.attBlocks t b o (keyBlocks m o) = .ok kvs →
          (fin = false → ∃ s', exec (.afwd t g start fin c dq dout dl sq skr acc) s = .next s' ∧ keeps s'
            ∧ counted (keyBlocks m o) s' ∧ s'.mem = s.mem
            ∧ ∀ r, r < 128 → ∀ y, y = (if start then ⟨maskVal, 0, List.replicate 128 0⟩ else s.attRow t acc.toNat p r) →
                (∀ v, qs[r]? = some v → kvs ≠ [] →
                  s'.attRow t acc.toNat p r
                    = kvs.foldl (fun y k => afwdRow m.win.pfmt (pageListOf b.vl).fmt k.2.2
                        (scoreRow m o q.fmt k.1 k.2.1 r v) y) y)
                  ∧ (qs[r]? = none ∨ kvs = [] → s'.attRow t acc.toNat p r = y)))
      ∧ (∀ b m p, Runs s t g (.abwd t g c dq dg dl sq skr acc dkv) → x.appendWaits c.toNat = false →
          abwdFault s t c.toNat dq dg dl sq skr acc dkv = none → x.binding c.toNat = some b →
          s.maskRule t b = some m → accTile true acc.toNat = some p →
          reads b m (attAccess q o.row0 o.rows 128 ++ attAccess (tensorOf (x.dreg dg)) o.row0 o.rows 128
            ++ attAccess (tensorOf (x.dreg dl)) o.row0 o.rows 2) →
          ∀ qs rows, s.queryRows x.job t b q o = .ok qs →
          s.gradRows x.job t (tensorOf (x.dreg dg)) (tensorOf (x.dreg dl)) o qs = .ok rows →
          (keyBlocks m o).filter (·.issued) = [] →
          ∃ s', exec (.abwd t g c dq dg dl sq skr acc dkv) s = .next s' ∧ counted (keyBlocks m o) s'
            ∧ TileTo s t { x with busy := (s'.tile t).busy, regs := (s'.tile t).regs } s')
      ∧ (x.appendWaits c.toNat = true →
          (Runs s t g (.abind t g rope c dw dpk dpv) → exec (.abind t g rope c dw dpk dpv) s = .next s)
          ∧ (Runs s t g (.afwd t g start fin c dq dout dl sq skr acc) →
              exec (.afwd t g start fin c dq dout dl sq skr acc) s = .next s)
          ∧ (Runs s t g (.abwd t g c dq dg dl sq skr acc dkv) →
              exec (.abwd t g c dq dg dl sq skr acc dkv) s = .next s))

/-- AAPPEND that passes its checks adds one outstanding append with the rows of its accumulator tile as they stand, and 32 to
the array-busy count. When the engine serves an append: of a position below TAIL it fails with APPEND_COMMITTED and writes
nothing; of a sequence that is not running, past RESERVE_END or in an entry without a page it writes nothing but the STATE of a
running record, which becomes paused, and counts once in APPEND_DROPPED; otherwise all rows are written to their slots; in each
case it is no longer outstanding. AVERIFY of a running sequence moves the accepted path, raises TAIL by its length and writes
that to ACCEPTED and to RD; of one that is not running it puts 0 into RD and changes no memory. -/
def Obligations.PagedAppendAndVerify : Prop :=
  ∀ (s : State) (t : Tile) (g : Guard) (isV : Bool) (c : BitVec 2) (acc st sn rd : BitVec 5) (head dc ds : BitVec 6) (n : Nat),
    let x := s.tile t
    (∀ b p, Runs s t g (.aappend t g isV c acc st sn head) → x.appendWaits c.toNat = false →
        aappendFault s t isV c.toNat acc sn head = none → x.binding c.toNat = some b →
        accTile true acc.toNat = some p →
        ∃ s', exec (.aappend t g isV c acc st sn head) s = .next s'
          ∧ TileTo s t { x with busy := (x.busy + 32) % 2 ^ 64,
                                appends := x.appends ++ [⟨x.pc, c.toNat, if isV then b.vl else b.kl, (x.sreg st).toNat,
                                  head.toNat, (List.range (x.sreg sn).toNat).map (fun i => x.accRow p i)⟩] } s')
      ∧ (∀ a, x.appends[n]? = some a →
          let l := pageListOf a.list
          let unbacked : Prop := s.seqState l.seqBase ≠ 2 ∨ s.seqReserve l.seqBase < a.first + a.rows.length
            ∨ s.entryMissing l a.head a.first a.rows.length = true
          s.checkAccesses (.job x.job) [(l.seqBase, 64)] = none →
          ∃ s', exec (.appendPageWrite t n) s = .next s' ∧ (s'.tile t).appends = x.appends.eraseIdx n
            ∧ (s'.tile t).s = x.s ∧ (s'.tile t).acc = x.acc ∧ (s'.tile t).spad = x.spad
            ∧ (a.first < s.seqTail l.seqBase → s'.mem = s.mem
                ∧ ∀ y, s.job x.job = some y →
                    s'.job x.job = some { y with fault := some (y.fault.getD Codes.appendCommitted) })
            ∧ (s.seqTail l.seqBase ≤ a.first → unbacked →
                (∀ k, k ≠ l.seqBase + 2 → s'.mem.bytes.get 0 k = s.mem.bytes.get 0 k)
                  ∧ s'.mem.bytes.get 0 (l.seqBase + 2)
                      = (if s.seqState l.seqBase = 2 then 3 else s.mem.bytes.get 0 (l.seqBase + 2))
                  ∧ (s'.tile t).regs.appendDropped = min (2 ^ 32 - 1) (x.regs.appendDropped + 1))
            ∧ (s.seqTail l.seqBase ≤ a.first → ¬ unbacked →
                s.checkAccesses (.job x.job) (s.appendAccesses l a.head a.first a.rows.length) = none →
                ∀ s1, s.appendRows l a.head a.first 0 a.rows = .ok s1 → s'.mem = s1.mem))
      ∧ (∀ b tree, Runs s t g (.averify t g c dc ds rd) → x.appendWaits c.toNat = false →
          averifyFault s t c.toNat dc ds = none → x.binding c.toNat = some b →
          candTree (s.words32 t (tensorOf (x.dreg dc)) 16) = some tree →
          let kl := pageListOf b.kl
          let vl := if pagedList b.vl then pageListOf b.vl else { kl with isV := true }
          let path := accepted tree (fun i => s.elemBits t (tensorOf (x.dreg ds)) ⟨0, 0, 0, 0⟩ i)
          s.checkAccesses (.job x.job) [(kl.seqBase, 64)] = none →
          ∃ s', exec (.averify t g c dc ds rd) s = .next s'
            ∧ (s.seqState kl.seqBase ≠ 2 → (s'.tile t).sreg rd = 0 ∧ s'.mem = s.mem ∧ Passed x (s'.tile t))
            ∧ (s.seqState kl.seqBase = 2 → ∀ s1, s.movePath x.job kl vl (s.seqTail kl.seqBase) 0 path = .ok s1 →
                (s'.tile t).sreg rd = (if rd = 0 then 0 else BitVec.ofNat 64 path.length)
                  ∧ s'.readLe (kl.seqBase + 8) 8 = (s.seqTail kl.seqBase + path.length) % 2 ^ 64
                  ∧ s'.readLe (kl.seqBase + 0x2C) 1 = path.length % 256
                  ∧ ∀ k, ¬ (kl.seqBase + 8 ≤ k ∧ k < kl.seqBase + 16) → k ≠ kl.seqBase + 0x2C →
                      s'.mem.bytes.get 0 k = s1.mem.bytes.get 0 k))

/-- When the head record of the queue that is next is one of the operation named, its pages resident, its checks passed and its
work not empty, the queue moves on by one record, and each tile of its mask that has units starts a hand of the job with its share:
it runs from slot 1 with its ordinal, the number of tiles and M, N and K in s1 to s5, no vector, predicate or event register
set, no other tile changes and memory does not change. ATTN_BWD starts set 0 alone, and the next set once no tile of its mask
has a hand. SYNC moves on and counts once. RAW_HAND starts a hand of the image on each tile. A record that fails its checks faults
the job with the lowest code and is written to DLR.REJECT unless that holds a rejection, and its queue stays where it was. -/
def Obligations.DealRecords : Prop :=
  ∀ (s : State) (d : Die) (q : Nat), s.dealPick d = some q →
    let x := s.queue d q
    let r := dealOf (s.readMem x.head 128)
    let prec := match s.precEntry x.job r.phase with
      | some a => [(a, 8)]
      | none => []
    let check := s.recordCheck d x.job r
    let ready : Prop := s.absentPages x.head 128 = [] ∧ hdrOk r.hdr 0x41 = true ∧ r.opc ∈ dealOpcs
      ∧ s.absentOf (boundSpan r.bM ++ boundSpan r.bN ++ boundSpan r.bK ++ prec ++ check.2.1.reads) = []
    let started (units set : Nat) (s' : State) : Prop := s'.mem = s.mem
      ∧ (∀ u, (∀ i ∈ r.tiles, u ≠ 12 * d.val + i) → s'.tile u = s.tile u)
      ∧ ∀ i t, r.tiles[i]? = some t →
          let y := s'.tile (12 * d + t)
          ((share units r.tiles.length i).2 = 0 → y = s.tile (12 * d + t))
            ∧ ((share units r.tiles.length i).2 ≠ 0 → y.run = .running ∧ y.pc = 1 ∧ y.v = [] ∧ y.p = [] ∧ y.e = []
                ∧ y.loops = [] ∧ y.dmas = [] ∧ y.regs.sums = .zeros ∧ y.pwr.ramp = some 0
                ∧ y.sreg 1 = BitVec.ofNat 64 i ∧ y.sreg 2 = BitVec.ofNat 64 r.tiles.length
                ∧ y.sreg 3 = BitVec.ofNat 64 check.2.2.m ∧ y.sreg 4 = BitVec.ofNat 64 check.2.2.n
                ∧ y.sreg 5 = BitVec.ofNat 64 check.2.2.k
                ∧ ∃ h p, y.hand = some h ∧ h.job = x.job ∧ h.record = x.next ∧ h.phase = r.phase ∧ h.gen = some p
                    ∧ p.first = (share units r.tiles.length i).1 ∧ p.count = (share units r.tiles.length i).2
                    ∧ p.ordinal = i ∧ p.set = set ∧ p.record = r.raw)
    let rejects (i : Instr) (codes : List (Bool × Code)) : Prop := ∀ c, lowest codes = some c →
      ∃ s', exec i s = .next s' ∧ s'.queue d q = x ∧ s'.tiles = s.tiles
        ∧ (s'.dealer d).reject = (if (s.dealer d).reject.valid then (s.dealer d).reject
            else ⟨BitVec.ofNat 32 r.macroId, true, 0xF, c⟩)
        ∧ ∀ y, s.job x.job = some y → s'.job x.job = some { y with fault := some (y.fault.getD c) }
    (∀ i op, (i, op) ∈ [(Instr.gemm d, 1), (.attnFwd d, 2), (.conv d, 4), (.regroup d, 5), (.crop d, 6), (.detect d, 7)] →
        r.opc = op → ready →
        rejects i check.1
          ∧ (lowest check.1 = none → ∃ s', exec i s = .next s'
              ∧ s'.queue d q = { x with next := x.next + 1 }
              ∧ (check.2.1.empty = true → s'.tiles = s.tiles)
              ∧ (check.2.1.empty = false → started check.2.1.units 0 s')))
      ∧ (r.opc = 3 → ready → rejects (.attnBwd d) check.1
          ∧ (lowest check.1 = none → check.2.1.empty = false → ∃ s', exec (.attnBwd d) s = .next s'
              ∧ started ((attParOf check.2.1.aux).heads * attGroupCount check.2.2.m) 0 s'
              ∧ (s'.queue d q).next = x.next + 1 ∧ ∃ h, (s'.queue d q).inHand = some h ∧ h.set = 0))
      ∧ (r.opc = 0x0E → ready → rejects (.sync d) (s.commonCodes d x.job r)
          ∧ (lowest (s.commonCodes d x.job r) = none → ∃ s', exec (.sync d) s = .next s' ∧ s'.tiles = s.tiles
              ∧ s'.queue d q = { x with next := x.next + 1, syncs := x.syncs + 1 }))
      ∧ (r.opc = 0x0F → s.absentPages x.head 128 = [] → hdrOk r.hdr 0x41 = true →
          s.absentOf (prec ++ [(r.aux, 272)] ++ s.imageSpans r.aux) = [] →
          ((r.aux, 272) :: (s.imageSpans r.aux).take 1).all (fun p => (s.checkRange (.job x.job) p.1 p.2).isNone) = true →
          lowest (s.commonCodes d x.job r ++ s.precCodes x.job r ++ [(false, Codes.addrWindow)]) = none →
          lowest (s.imageCodes x.job (s.imageAt x.job r.aux)) = none →
          ∃ s', exec (.rawHand d) s = .next s' ∧ s'.queue d q = { x with next := x.next + 1 }
            ∧ (∀ u, (∀ i ∈ r.tiles, u ≠ 12 * d.val + i) → s'.tile u = s.tile u)
            ∧ ∀ t ∈ r.tiles, (s'.tile (12 * d + t)).run = .running ∧ (s'.tile (12 * d + t)).pc = 1
                ∧ ∃ h, (s'.tile (12 * d + t)).hand = some h ∧ h.job = x.job ∧ h.gen = none ∧ h.phase = r.phase)

/-- While the record of a running, unfaulted job is in hand and every tile of its mask is free, the hands of the next set start,
and after set 2 the record is no longer in hand. While a hand of the set before runs, nothing happens. -/
def Obligations.BackwardSets : Prop :=
  ∀ (s : State) (d : Die) (job q : Nat) (x : JobSt) (h : DealInHand), (s.dealer d).queueOf job = some q → s.job job = some x →
    (s.queue d q).inHand = some h →
    (x.phase = .running → x.fault = none → x.heldBack = false →
        (∀ t ∈ h.plan.rec_.tiles, (s.tile (12 * d + t)).hand = none) →
        ∃ s', exec (.attnBwdSetStart d job) s = .next s'
          ∧ (s'.queue d q).inHand = (if h.set = 1 then none else some ⟨h.set + 1, { h.plan with set := h.set + 1 }⟩)
          ∧ s'.mem = s.mem ∧ ∀ u, (∀ i ∈ h.plan.rec_.tiles, u ≠ 12 * d.val + i) → s'.tile u = s.tile u)
      ∧ ((∃ t ∈ h.plan.rec_.tiles, (s.tile (12 * d + t)).hand ≠ none) → exec (.attnBwdSetStart d job) s = .next s)

/-- For a running job whose step is active: past its last unit, a boundary gives the entries released by that unit STATE 4, takes
their pages off LIVE_PAGES and changes no other byte. Before a unit, after the same release, its entries are reserved and mapped. When
a reservation gives a code, the job faults with it. When pages are still held, the mapping is completed later by STASH_PAGE_MAP. A unit of KIND
3 then waits for its updates; the records of any other unit are forwarded: the queue of each die holds records up to the end of
the unit there, and the next boundary is that of the unit after it. No tile changes. -/
def Obligations.UnitBoundaries : Prop :=
  ∀ (s : State) (j : Nat) (x : JobSt) (iv : Interleave), s.job j = some x → s.jobInterleave j = some iv →
    x.phase = .running → x.fault = none → x.train.active = true →
    let u := x.train.unit
    let forwarded (m s' : State) : Prop := s'.mem = m.mem
      ∧ ∀ y, m.job j = some y → (∃ z, s'.job j = some z ∧ z.train.unit = u + 1 ∧ z.train.phase = .ready)
          ∧ ((y.places.map (·.die)).Nodup → ∀ k p q, y.places[k]? = some p → (m.dealer p.die).queueOf j = some q →
              s'.queue p.die q = { m.queue p.die q with count := (m.unitSpan y iv u k).2 })
    let entered (m : State × Bool) (s' : State) : Prop :=
      (m.2 = false → s' = m.1.modTrain j (fun t => { t with phase := .mapping }))
        ∧ (m.2 = true → (m.1.unitAt iv u).kind = 3 → s' = m.1.modTrain j (fun t => { t with phase := .update }))
        ∧ (m.2 = true → (m.1.unitAt iv u).kind ≠ 3 → forwarded m.1 s')
    let released := s.entriesOf iv (·.releaseUnit) (u - 1)
    let s1 := if u = 0 then s else s.releaseLogical j iv (u - 1)
    (x.train.phase = .ready → 0 < u → u = iv.units → ∃ s', exec (.unitBoundary j) s = .next s' ∧ s'.tiles = s.tiles
        ∧ s'.dealers = s.dealers ∧ (∃ y, s'.job j = some y ∧ y.train = { x.train with unit := u + 1 })
        ∧ (∀ e ∈ released, s'.readLe (e.addr + 5) 1 = 4)
        ∧ s'.livePages iv.map = s.livePages iv.map
            - (released.map (fun e => if e.state = 1 then e.pageCount (s.stashRows j e) else 0)).sum
        ∧ ∀ a, ¬(iv.map + 8 ≤ a ∧ a < iv.map + 12) → (∀ e ∈ released, a ≠ e.addr + 5) →
            s'.mem.bytes.get 0 a = s.mem.bytes.get 0 a)
      ∧ (x.train.phase = .ready → u < iv.units →
          (∀ c, s1.reserveUnitEnts j iv u = .error c → ∃ s', exec (.unitBoundary j) s = .next s' ∧ s'.mem = s1.mem
              ∧ s'.dealers = s.dealers ∧ s'.tiles = s.tiles ∧ ∃ y, s'.job j = some y ∧ y.fault = some c)
            ∧ ∀ s2, s1.reserveUnitEnts j iv u = .ok s2 → ∃ s', exec (.unitBoundary j) s = .next s'
                ∧ entered ((s2.poolStates iv u).mapUnit j iv u) s')
      ∧ (x.train.phase = .mapping → ∃ s', exec (.stashPageMap j) s = .next s' ∧ entered (s.mapUnit j iv u) s')

/-- When every die that has records in unit u has dealt past them, the entries of STATE 4 that the unit releases hold no page; every
other entry keeps its pages, and no byte of memory and no tile changes. Before that, nothing happens. -/
def Obligations.StashRelease : Prop :=
  ∀ (s : State) (j u : Nat) (x : JobSt) (iv : Interleave), s.job j = some x → s.jobInterleave j = some iv →
    x.phase = .running → x.fault = none → x.train.active = true → u < x.train.unit →
    (s.unitSynced x j iv u = false → exec (.stashReleasePhysical j u) s = .next s)
      ∧ (s.unitSynced x j iv u = true → ∃ s' y, exec (.stashReleasePhysical j u) s = .next s' ∧ s'.job j = some y
          ∧ s'.mem = s.mem ∧ s'.tiles = s.tiles ∧ s'.dealers = s.dealers ∧ y = { x with train := { x.train with map := y.train.map } }
          ∧ (∀ e ∈ s.entriesOf iv (·.releaseUnit) u, e.state = 4 → ∀ i, i < 2 ^ 24 → y.train.map.get 0 (stashKey e.idx i) = 0)
          ∧ ∀ k, (∀ e ∈ s.entriesOf iv (·.releaseUnit) u, e.state = 4 → k / 2 ^ 24 ≠ e.idx) →
              y.train.map.get 0 k = x.train.map.get 0 k)

/-- A hand's write into the logical range of an unpacked entry puts each byte at the physical byte that stands for it, and no other
byte changes. A write that R220 does not allow is reported against the tile with its code: the job faults and no byte changes. A packed
write is the entry's packing. A read converts the values of the entry into the scratchpad; a format other than FP32, BF16 and FP16
raises ISA_FORMAT. -/
def Obligations.StashAccesses : Prop :=
  ∀ (s : State) (t : Tile) (a : BitVec 48) (e : StashEnt) (h : Hand), (s.tile t).hand = some h →
    s.stashFind h.job a.toNat = some e →
    (∀ (bs : List Byte), (∀ s', s.stashWriteAt h.job e a.toNat bs = .ok s' → exec (.stashWrite t a bs) s = .next s')
        ∧ (∀ c, s.stashWriteAt h.job e a.toNat bs = .error c → ∃ s', exec (.stashWrite t a bs) s = .next s' ∧ s'.mem = s.mem
            ∧ ∀ x, s.job h.job = some x → s'.job h.job = some { x with fault := some (x.fault.getD c) }))
      ∧ (∀ (bs : List Byte), let o := a.toNat - e.logical
          let at_ (i : Nat) : Nat := s.stashPhys h.job e (o / e.srcBytes / e.rowElems * e.rowBytes
            + o / e.srcBytes % e.rowElems * e.srcBytes + i)
          e.packed = false → (e.state = 1 ∨ e.state = 3) → o % e.srcBytes = 0 → bs.length % e.srcBytes = 0 →
          o / e.srcBytes % e.rowElems + bs.length / e.srcBytes ≤ e.rowElems →
          o / e.srcBytes / e.rowElems < s.stashRows h.job e →
          (∀ i k, i < k → k < bs.length → at_ i ≠ at_ k) →
          ∃ s', exec (.stashWrite t a bs) s = .next s' ∧ s'.tiles = s.tiles
            ∧ (∀ i, i < bs.length → s'.mem.bytes.get 0 (at_ i) = bs.getD i 0)
            ∧ ∀ k, (∀ i, i < bs.length → k ≠ at_ i) → s'.mem.bytes.get 0 k = s.mem.bytes.get 0 k)
      ∧ (∀ (n : Nat) (f : BitVec 6) (dst : BitVec 25), dst.toNat + n * (fmtBits f.toNat / 8) ≤ spadSize →
          (2 < f.toNat → ∃ s', exec (.stashRead t a n f dst) s = .next s' ∧ Claims.Faults s t Codes.isaFormat s')
            ∧ ∀ vs : List FV, f.toNat ≤ 2 →
                (List.range n).map (fun i => s.stashValue h.job e (a.toNat + i * e.srcBytes)) = vs.map .ok →
                ∃ s', exec (.stashRead t a n f dst) s = .next s' ∧ Claims.OnlyTile s s' t
                  ∧ s'.tile t = { s.tile t with
                      spad := (s.tile t).spad.setRange 0 dst.toNat
                        (vs.flatMap (fun v => natLe (fmtBits f.toNat / 8) (encodeElem f.toNat .rne v))) })

/-- When no step is active, or the last step's units are done and its records have halted, and the descriptors pass R226, a step start
gives every entry STATE 0 and clears RECOMP_ROWS and the counts, clears the page and event counts of the map, adds 1 to its step
count and starts at unit 0 with no record forwarded. Otherwise a bad layout faults the job with STASH_LAYOUT and no record is forwarded. -/
def Obligations.TrainingStart : Prop :=
  ∀ (s : State) (j : Nat) (x : JobSt) (iv : Interleave), s.job j = some x → s.jobInterleave j = some iv →
    x.phase = .running → x.fault = none →
    (x.train.active = true → iv.units < x.train.unit ∧ s.allHalted x j = true) →
    (s.stashLayoutBad j = true → ∃ s', exec (.trainingStepStart j) s = .next s' ∧ s'.tiles = s.tiles ∧ s'.mem = s.mem
        ∧ s'.dealers = s.dealers ∧ ∃ y, s'.job j = some y ∧ y.fault = some Codes.stashLayout)
      ∧ (s.stashLayoutBad j = false → ∃ s' y, exec (.trainingStepStart j) s = .next s' ∧ s'.tiles = s.tiles
          ∧ s'.job j = some y ∧ y = { x with train := { TrainSt.init with active := true } }
          ∧ (∀ e ∈ s.stashEnts iv.map, s'.readLe (e.addr + 5) 1 = 0 ∧ s'.readLe (e.addr + 0x30) 8 = 0
              ∧ s'.readLe (e.addr + 0x38) 8 = 0)
          ∧ s'.readLe (iv.map + 8) 16 = 0 ∧ s'.readLe (iv.map + 0x18) 8 = (s.readLe (iv.map + 0x18) 8 + 1) % 2 ^ 64
          ∧ ∀ p ∈ x.places, ∀ q, (s.dealer p.die).queueOf j = some q →
              (s'.queue p.die q).next = 0 ∧ (s'.queue p.die q).count = 0)

/-- When the next unit is of KIND 3 and every record forwarded has halted, each group of the unit whose descriptor the job reaches and meets
Table 8 is posted, in order, as an UPDATE command to every stack with a good channel; stacks without one get none. A group that breaks
Table 8 is not posted: with no valid group beside it the job faults with UPDATE_DESC, and otherwise that fault is kept for the
end of the unit. -/
def Obligations.UpdateStart : Prop :=
  ∀ (s : State) (j : Nat) (x : JobSt) (iv : Interleave), s.job j = some x → s.jobInterleave j = some iv →
    x.phase = .running → x.fault = none → x.train.active = true → x.train.phase = .update → s.allHalted x j = true →
    let u := s.unitAt iv x.train.unit
    let groups := (List.range u.updCount).map (fun i => s.readLe (u.upd + 8 * i) 8)
    let good := groups.filter (fun a => (s.checkRange (.job j) a 128).isNone && updValid (s.readMem a 128))
    (good ≠ [] → ∃ s', exec (.updateUnitStart j) s = .next s' ∧ s'.tiles = s.tiles ∧ s'.dealers = s.dealers
        ∧ s'.mem.bytes = s.mem.bytes
        ∧ (∀ k, k < 32 → (s.stack k).goodCount ≠ 0 → s'.stack k
            = { s.stack k with queue := (s.stack k).queue ++ good.map (fun a => ⟨updateCmd a, j, none, 0, false, false⟩) })
        ∧ (∀ k, (s.stack k).goodCount = 0 → s'.stack k = s.stack k)
        ∧ s'.job j = some { x with train := { x.train with
            phase := .updating,
            updFault := if good.length < groups.length then some Codes.updateDesc else none } })
      ∧ (good = [] → groups ≠ [] → ∃ s', exec (.updateUnitStart j) s = .next s' ∧ s'.tiles = s.tiles ∧ s'.dealers = s.dealers
          ∧ s'.mem = s.mem ∧ ∃ y, s'.job j = some y ∧ y.fault = some Codes.updateDesc)

/-- While a job runs, the reservations for its next step change no byte outside its sequence records and no STATE, TAIL, STEP_APPEND,
LAYERS, HEADS or ENTRIES of a record. The first sequence in the order of R197 whose RESERVE_END is a multiple of 512 below its target
gets one page row when the free list can supply all of it: the lowest free pages stand in its entries of that row in the order K and V, layer,
head, and RESERVE_END is 512 higher if that meets its target; with too few free pages it is left as it is. A job that does not
run gets no reservation. -/
def Obligations.StepReservations : Prop :=
  ∀ (s : State) (j : Nat), (s.jobRuns j = false → exec (.reserveStepPages j) s = .next s)
    ∧ (s.jobRuns j = true →
        let len (r : Nat) : Nat := 64 + 8 * s.seqLayers r * s.seqHeads r * s.seqEntries r
        (s.seqTable j).Pairwise (fun a b => a + len a ≤ b ∨ b + len b ≤ a) →
        ∃ s', exec (.reserveStepPages j) s = .next s' ∧ s'.tiles = s.tiles ∧ s'.dealers = s.dealers
          ∧ (∀ a, (∀ r ∈ s.seqTable j, a < r ∨ r + len r ≤ a) → s'.mem.bytes.get 0 a = s.mem.bytes.get 0 a)
          ∧ (∀ r ∈ s.seqTable j, s'.seqState r = s.seqState r ∧ s'.seqTail r = s.seqTail r
              ∧ s'.seqStepAppend r = s.seqStepAppend r ∧ s'.seqLayers r = s.seqLayers r ∧ s'.seqHeads r = s.seqHeads r
              ∧ s'.seqEntries r = s.seqEntries r)
          ∧ ∀ r, (s.seqObserve j).seqOrder j = r :: ((s.seqObserve j).seqOrder j).tail →
              let e := s.seqReserve r
              let cells := 2 * s.seqLayers r * s.seqHeads r
              e % 512 = 0 → e < s.reserveTarget r →
              ((s.kvFreePages j).length < cells → s'.seqReserve r = e)
                ∧ (cells ≤ (s.kvFreePages j).length → e / 512 < s.seqEntries r → s.reserveTarget r ≤ e + 512 → e + 512 < 2 ^ 64 →
                    s'.seqReserve r = e + 512
                      ∧ ∀ i, i < cells → s'.readLe (r + 0x40 + 4 * (i * s.seqEntries r + e / 512)) 4
                          = (s.kvFreePages j).getD i 0 % 2 ^ 32))

/-- At the end of a step of a running job, TAIL of each running sequence grows by STEP_APPEND unless the step verified it, and no other TAIL
changes. A leaving sequence becomes free. A running or paused sequence is running after it exactly when its reservation covers its next
step, and paused otherwise; a joining one becomes running when its reservation covers its first step, and stays joining otherwise. The batch
list holds the count of running sequences and their indices in the table, ascending. No byte outside the records and the
batch list changes. A job that does not run is left alone. -/
def Obligations.StepBoundaries : Prop :=
  ∀ (s : State) (j : Nat) (verified : List Nat) (batch : BitVec 48),
    (s.jobRuns j = false → exec (.stepBoundary j verified batch) s = .next s)
    ∧ (s.jobRuns j = true →
        let len (r : Nat) : Nat := 64 + 8 * s.seqLayers r * s.seqHeads r * s.seqEntries r
        let n := (s.seqTable j).length
        (s.seqTable j).Pairwise (fun a b => a + len a ≤ b ∨ b + len b ≤ a) →
        (∀ r ∈ s.seqTable j, batch.toNat + 4 + 4 * n ≤ r ∨ r + len r ≤ batch.toNat) →
        (∀ x, s.job j = some x → ∀ r ∈ s.seqTable j, x.desc.seqTable + 8 * n ≤ r ∨ r + len r ≤ x.desc.seqTable) →
        ∃ s', exec (.stepBoundary j verified batch) s = .next s' ∧ s'.tiles = s.tiles ∧ s'.dealers = s.dealers
          ∧ (∀ a, (∀ r ∈ s.seqTable j, a < r ∨ r + len r ≤ a) → (a < batch.toNat ∨ batch.toNat + 4 + 4 * n ≤ a) →
              s'.mem.bytes.get 0 a = s.mem.bytes.get 0 a)
          ∧ (∀ i r, (s.seqTable j)[i]? = some r →
              s'.seqTail r = (if s.seqState r = 2 ∧ i ∉ verified then (s.seqTail r + s.seqStepAppend r) % 2 ^ 64
                else s.seqTail r)
                ∧ s'.seqStepAppend r = s.seqStepAppend r
                ∧ s'.seqState r = (if s.seqState r = 2 ∨ s.seqState r = 3 then (if s'.covered r then 2 else 3)
                    else if s.seqState r = 1 then (if s'.covered r then 2 else 1)
                    else if s.seqState r = 4 then 0 else s.seqState r))
          ∧ ∀ ix, ix = (s.seqTable j).zipIdx.filterMap (fun p => if s'.seqState p.1 = 2 then some p.2 else none) →
              s'.readMem batch.toNat (4 + 4 * ix.length) = natLe 4 ix.length ++ ix.flatMap (natLe 4))

/-- An access by a requester that holds a job: one that touches a page the job may not reach changes no byte and faults the job with
the window check's code. One that touches a page that is not resident changes no byte, and every such page has the requester among its waiters. An
uncorrectable error changes no byte and faults the job with MEM_UNCORRECTABLE. Otherwise a write outside the stash stores its bytes at
its address and no other byte changes; a clean read changes nothing. A well-formed memory-side operation replaces each element by
the sum, the lesser or the greater of it and the operand element: integer sums wrap, integers order as signed, floating sums are
rounded once to nearest even, FP32 orders as R137 says. Neither changes any tile or Dealer. -/
def Obligations.UnifiedAccesses : Prop :=
  ∀ (s : State) (rq : Requester) (a : BitVec 48) (j cls idx : Nat), s.requester rq = some (j, cls, idx) →
    let stores (n : Nat) (b : Nat → Byte) (s' : State) : Prop := s'.tiles = s.tiles ∧ s'.dealers = s.dealers
      ∧ s'.sched = s.sched ∧ ∀ k, s'.mem.bytes.get 0 k
          = if a.toNat ≤ k ∧ k < a.toNat + n then b (k - a.toNat) else s.mem.bytes.get 0 k
    (∀ (acc : Access) (ecc : Ecc), let n := match acc with
          | .read n => n
          | .write bs => bs.length
        ∃ s', exec (.unifiedAccess rq a acc ecc) s = .next s'
          ∧ (∀ c, s.checkRange (.job j) a.toNat n = some c → s'.mem = s.mem ∧ s'.dealers = s.dealers
              ∧ ∀ x, s.job j = some x → s'.job j = some { x with fault := some (x.fault.getD c) })
          ∧ (s.checkRange (.job j) a.toNat n = none → s.absentPages a.toNat n ≠ [] → s'.mem.bytes = s.mem.bytes
              ∧ s'.tiles = s.tiles ∧ s'.dealers = s.dealers
              ∧ ∀ p ∈ s.absentPages a.toNat n, ⟨p, j, cls, idx⟩ ∈ s'.mem.waiters)
          ∧ (s.checkRange (.job j) a.toNat n = none → s.absentPages a.toNat n = [] → ecc = .uncorrectable →
              s'.mem.bytes = s.mem.bytes ∧ ∀ x, s.job j = some x → ∃ y, s'.job j = some y
                ∧ y.fault = some (x.fault.getD Codes.memUncorrectable))
          ∧ (s.checkRange (.job j) a.toNat n = none → s.absentPages a.toNat n = [] → ecc = .clean → acc = .read n → s' = s)
          ∧ ∀ bs, s.checkRange (.job j) a.toNat n = none → s.absentPages a.toNat n = [] → ecc = .clean → acc = .write bs →
              s.stashFind j a.toNat = none → stores bs.length (fun i => bs.getD i 0) s')
      ∧ ∀ (op : MsOp) (ty : MsTy) (bs : List Byte), msShape op ty a.toNat bs.length = true →
          s.checkRange (.job j) a.toNat bs.length = none → s.absentPages a.toNat bs.length = [] →
          let w := msBytes ty
          ∃ s', exec (.memorySideOperation rq op ty a bs) s = .next s' ∧ s'.tiles = s.tiles ∧ s'.dealers = s.dealers
            ∧ (∀ k, (k < a.toNat ∨ a.toNat + bs.length ≤ k) → s'.mem.bytes.get 0 k = s.mem.bytes.get 0 k)
            ∧ ∀ i, i < bs.length / w →
                let old := s.readLe (a.toNat + w * i) w
                let x := leNat ((bs.drop (w * i)).take w)
                (op = .add → (ty = .int32 ∨ ty = .int64) → s'.readLe (a.toNat + w * i) w = (old + x) % 2 ^ (8 * w))
                  ∧ (op = .min → (ty = .int32 ∨ ty = .int64) → s'.readLe (a.toNat + w * i) w
                      = if sintVal (8 * w) x < sintVal (8 * w) old then x else old)
                  ∧ (op = .max → (ty = .int32 ∨ ty = .int64) → s'.readLe (a.toNat + w * i) w
                      = if sintVal (8 * w) old < sintVal (8 * w) x then x else old)
                  ∧ (op = .min → ty = .fp32 → s'.readLe (a.toNat + w * i) w
                      = (fmin32 (BitVec.ofNat 32 old) (BitVec.ofNat 32 x)).toNat)
                  ∧ (op = .max → ty = .fp32 → s'.readLe (a.toNat + w * i) w
                      = (fmax32 (BitVec.ofNat 32 old) (BitVec.ofNat 32 x)).toNat)
                  ∧ ∀ f, op = .add → (ty, f) ∈ [(MsTy.fp32, 0), (.bf16, 1), (.fp16, 2)] → s'.readLe (a.toNat + w * i) w
                      = encodeElem f .rne ((decodeElem f old 127).add (decodeElem f x 127)) % 2 ^ (8 * w)

/-- With its aperture off, or at a page that its function may not reach, a host read, write or FetchAdd completes as Unsupported Request
and changes no byte. At a page that is not resident a read or FetchAdd is answered with Completer Abort outside CXL mode and a write is discarded; no
byte changes and no job faults. Otherwise a read returns the bytes, a write stores them and changes no other byte, and an
aligned FetchAdd of 4 or 8 bytes returns the old bytes and adds, wrapping. None of them changes a tile, a Dealer or a job. -/
def Obligations.HostAccesses : Prop :=
  ∀ (s : State) (f : Func) (off : BitVec 36),
    let w := (s.sched.aperture.get 0 f).toNat
    let a := bitsOf w 11 0 * 2 ^ 36 + off.toNat
    let on : Prop := bitOf w 63 = true
    let bars (n : Nat) : Prop := s.boot.cxl = true ∧ f ≠ 0 ∨ n = 0 ∨ s.checkRange (.func f) a n ≠ none
    let same (s' : State) : Prop := s'.tiles = s.tiles ∧ s'.dealers = s.dealers ∧ s'.sched = s.sched
    let command (n : Nat) (c : Instr) : Prop := c = .hostBar4Access f off (.read n)
      ∨ (∃ d : List Byte, d.length = n ∧ c = .hostBar4Access f off (.write d))
      ∨ ∃ wide v, n = (if wide then 8 else 4) ∧ off.toNat % n = 0 ∧ c = .hostAtomicFetchAdd f off wide v
    (∀ n c, command n c → ∃ s', exec c s = .next s' ∧ same s'
        ∧ (¬on ∨ bars n → s' = s.send (.hostStatus statusUr))
        ∧ (on → ¬bars n → s.absentPages a n ≠ [] → s'.mem = s.mem ∧ s'.job = s.job
            ∧ (s.boot.cxl = false → c = .hostBar4Access f off (.read n) → s'.outbox = s.outbox ++ [.hostStatus statusCa])
            ∧ (∀ wide v, c = .hostAtomicFetchAdd f off wide v → s'.outbox = s.outbox ++ [.hostStatus statusCa])
            ∧ ∀ d, c = .hostBar4Access f off (.write d) → s'.outbox = s.outbox)
        ∧ (on → ¬bars n → s.absentPages a n = [] →
            (c = .hostBar4Access f off (.read n) → s' = s.send (.readData (s.readMem a n)))
              ∧ (∀ d, c = .hostBar4Access f off (.write d) → ∀ k, s'.mem.bytes.get 0 k
                  = if a ≤ k ∧ k < a + n then d.getD (k - a) 0 else s.mem.bytes.get 0 k)
              ∧ ∀ wide v, c = .hostAtomicFetchAdd f off wide v → s'.outbox = s.outbox ++ [.readData (s.readMem a n)]
                  ∧ s'.readLe a n = (s.readLe a n + v.toNat) % 2 ^ (8 * n)
                  ∧ ∀ k, (k < a ∨ a + n ≤ k) → s'.mem.bytes.get 0 k = s.mem.bytes.get 0 k))

/-- For a page of an object that no FREE waits on: the next queued migration takes a free frame of its placement set, and its page
migrates in; with none free and no page of the set migrating out, the set's first victim leaves: one written since it arrived
starts to migrate out. A completed migration makes the page resident, unwritten and the latest to arrive, wakes its waiters, and
gives a stored page the bytes that flash holds; one whose flash read fails or whose logical page is lost goes back to flash, frees
its frame, marks the logical page lost and faults the job that owns it with FLASH_UNCORRECTABLE. A completed eviction puts
the page's bytes into flash and the page in the flash state, unwritten; in a read-only tier it stays resident. No byte of any other page changes. -/
def Obligations.Migrations : Prop :=
  ∀ (s : State) (p : Nat) (x : PageSt) (o : ObjectSt), s.page p = some x → s.object x.object = some o → o.freeing = none →
    let set := s.placementSet o.func o.place o.arg
    let others (s' : State) : Prop := ∀ q, q ≠ p → s'.page q = s.page q
    (s.flashPaused = false → s.nextMigration = some p →
        (∀ f, s.findFrame set (p - x.object) = some f → ∃ s', exec .migrationStart s = .next s'
            ∧ s'.page p = some { x with place := .migratingIn f } ∧ s'.mem.frames.get 0 f = p + 1 ∧ others s'
            ∧ s'.mem.bytes = s.mem.bytes ∧ s'.mem.queue = s.mem.queue.filter (fun m => m.page != p))
          ∧ ∀ v y, s.findFrame set (p - x.object) = none → s.evicting set = false →
              (rotateSet set (p - x.object)).findSome? s.victimOf = some v → s.page v.page = some y → y.written = true →
              ∃ s', exec .migrationStart s = .next s' ∧ s'.page v.page = some { y with place := .migratingOut v.frame }
                ∧ (∀ q, q ≠ v.page → s'.page q = s.page q) ∧ s'.mem.bytes = s.mem.bytes)
      ∧ (∀ f ok, x.place = .migratingIn f →
          let l := x.logical.getD 0
          let stored := x.logical ≠ none ∧ s.mem.ftl.stored l = true
          let fails := stored ∧ (ok = false ∨ s.mem.ftl.lost.get 0 l = 1)
          ∃ s', exec (.migrationComplete p ok) s = .next s' ∧ others s' ∧ (∀ w ∈ s'.mem.waiters, w.page ≠ p)
            ∧ (¬fails → s'.page p = some { x with place := .resident f, written := false, arrived := s.mem.arrivals + 1 }
                ∧ (∀ i, i < size2MiB → s'.mem.bytes.get 0 (p * size2MiB + i) = if x.logical ≠ none ∧ s.mem.ftl.stored l = true then
                    s.mem.ftl.store.get 0 (l * size2MiB + i) else s.mem.bytes.get 0 (p * size2MiB + i))
                ∧ ∀ a, a / size2MiB ≠ p → s'.mem.bytes.get 0 a = s.mem.bytes.get 0 a)
            ∧ (fails → s'.page p = some { x with place := .flash } ∧ s'.mem.bytes = s.mem.bytes ∧ s'.mem.frames.get 0 f = 0
                ∧ s'.mem.ftl.lost.get 0 l = 1
                ∧ ∀ j z, o.owner = .job j → s.job j = some z → 0 < j →
                    s'.job j = some { z with fault := some (z.fault.getD Codes.flashUncorrectable) }))
      ∧ (∀ f l, x.place = .migratingOut f → x.logical = some l →
          (s.mem.ftl.readOnly = true → ∃ s', exec (.evictionComplete p) s = .next s' ∧ others s' ∧ s'.mem.bytes = s.mem.bytes
              ∧ s'.page p = some { x with place := .resident f })
            ∧ (s.mem.ftl.mayProgram = true → s.mem.ftl.openSb ≠ none → ∃ s', exec (.evictionComplete p) s = .next s' ∧ others s'
              ∧ s'.page p = some { x with place := .flash, written := false } ∧ s'.mem.frames.get 0 f = 0
              ∧ s'.mem.bytes = s.mem.bytes
              ∧ ∀ i, i < size2MiB → s'.mem.ftl.store.get 0 (l * size2MiB + i) = s.mem.bytes.get 0 (p * size2MiB + i)))

/-- When the next entry of a ring is an OBJECT entry whose request is well formed and whose owner is the ring or a live job: ALLOC of
an object that is not pinned maps it at a run of free pages inside the range, each page with a free logical page of its own, and
completes with BASE; ALLOC of a pinned one does so when every page gets a frame; with no placement it completes with MEM_OBJECT. ATTACH does
the same for a stored name, and its bytes are those in flash. FREE of an owned object that is not FLASH_BACKED and has no migrating page unmaps
its pages, whose bytes then read 0, and completes. SYNC of a FLASH_BACKED object is taken and waits; of any other it completes at once. A waiting SYNC completes
when its written pages are programmed, none then being written; in a read-only tier it completes with FLASH_FULL. -/
def Obligations.ObjectRequests : Prop :=
  ∀ (s : State) (r : Ring) (e : List Byte), s.frontEntry r = some e → s.entryCode r e = none → fieldLe e 0 1 = 0x91 →
    let a := fieldLe e 0x10 8
    let loc := ringLoc (s.ring r).sq
    let q := objReqOf (s.locRead loc a 64)
    let p : Pending := ⟨some r, entryTag e, 0x91, a⟩
    let o := q.object r (s.ring r).func
    let b := q.base / size2MiB
    let ends (m : State) (code : Code) (base : Option Nat) : State := (m.consume r).finishObject p code base
    let maps (n : Nat) (ls : List Nat) (at_ : Nat) (m : State) : Prop := at_ + n ≤ s.rangePages
      ∧ (∀ k y, (k, some y) ∈ s.mem.objects → at_ + n ≤ k ∨ k + y.pages ≤ at_) ∧ m.object at_ = some { o with pages := n }
      ∧ ∀ i, i < n → ∃ y, m.page (at_ + i) = some y ∧ y.object = at_ ∧ y.logical = ls[i]? ∧ y.written = false
    (loc = true → s.checkRange (.func (s.ring r).func) a 64 = none) → q.clean = true →
    (q.owner = 0 ∨ s.liveOn r q.owner = true) →
    (q.op = 1 → q.pages ≠ 0 → (q.attr = 2 ∨ q.name = 0) →
        (s.placementSet o.func o.place o.arg = [] → exec (.alloc r) s = .next (ends s Codes.memObject none))
          ∧ (s.placementSet o.func o.place o.arg ≠ [] → (q.attr = 2 → s.named o.name = none ∧ s.mem.ftl.names.length < 65536) →
              (∀ at_ ls, q.attr ≠ 0 → s.mem.ftl.readOnly = false → s.freeLogical q.pages = some ls → s.findRun q.pages = some at_ →
                  ∃ m, exec (.alloc r) s = .next (ends m 0 (some (at_ * size2MiB))) ∧ maps q.pages ls at_ m
                    ∧ m.mem.bytes = s.mem.bytes ∧ (∀ l ∈ ls, s.mem.ftl.taken.get 0 l = 0 ∧ m.mem.ftl.taken.get 0 l = 1))
                ∧ ∀ at_ m, q.attr = 0 → s.findRun q.pages = some at_ →
                    State.pinPages (s.placementSet o.func o.place o.arg) at_ (List.range q.pages) (s.setObject at_ (some o)) = .ok m →
                    exec (.alloc r) s = .next (ends m 0 (some (at_ * size2MiB)))))
      ∧ (q.op = 4 → q.attr = 2 → s.placementSet o.func o.place o.arg ≠ [] → ∀ n at_, s.named o.name = some n →
          (∀ l ∈ n.logical, l < s.mem.ftl.logicalPages) → n.logical.length = n.pages → s.findRun n.pages = some at_ →
          ∃ m, exec (.attach r) s = .next (ends m 0 (some (at_ * size2MiB))) ∧ maps n.pages n.logical at_ m
            ∧ ∀ i l k, n.logical[i]? = some l → k < size2MiB →
                m.mem.bytes.get 0 ((at_ + i) * size2MiB + k) = s.mem.ftl.store.get 0 (l * size2MiB + k))
      ∧ (q.op = 2 → q.base % size2MiB = 0 → ∀ y, s.object b = some y → y.owner = ownerOf r q.owner → y.freeing = none →
          y.syncing = none → y.attr ≠ 2 → q.name = 0 → s.migrating b y = false → ∃ m : State, exec (.free r) s = .next (m.finishObject p 0 none)
            ∧ (m.ring r).sqHead = (s.ring r).sqHead + 1 ∧ m.object b = none
            ∧ (∀ i, i < y.pages → m.page (b + i) = none)
            ∧ ∀ k, m.mem.bytes.get 0 k
                = if b * size2MiB ≤ k ∧ k < b * size2MiB + y.pages * size2MiB then 0 else s.mem.bytes.get 0 k)
      ∧ (q.op = 3 → q.base % size2MiB = 0 → ∀ y, s.object b = some y → y.owner = ownerOf r q.owner → y.freeing = none →
          y.syncing = none → q.name = 0 →
          (y.attr = 2 → exec (.objectSync r) s = .next ((s.consume r).setObject b (some { y with syncing := some p })))
            ∧ (y.attr ≠ 2 → exec (.objectSync r) s = .next (ends s 0 none)))

/-- A SYNC that waits completes with status 0 once its written pages are programmed: no page of the object is then written, every
journal record is programmed and the object no longer waits. While a write must wait, the SYNC goes on waiting. In a read-only tier it
completes with FLASH_FULL. An object that waits for no SYNC is left alone. -/
def Obligations.SyncCompletes : Prop :=
  ∀ (s : State) (b : Nat) (y : ObjectSt), s.object b = some y → y.freeing = none → b * size2MiB < 2 ^ 48 →
    let c := exec (.objectSyncComplete (BitVec.ofNat 48 (b * size2MiB))) s
    (y.syncing = none → c = .next s)
      ∧ ∀ p, y.syncing = some p →
          (s.mem.ftl.readOnly = true → c = .next ((s.setObject b (some { y with syncing := none })).finishObject p Codes.flashFull none))
            ∧ (s.mem.ftl.readOnly = false →
                let t := State.syncPages (y.pageList b) s
                ((t.2 = false ∨ t.1.mem.ftl.frozen = true) → c = .next t.1)
                  ∧ (t.2 = true → t.1.mem.ftl.frozen = false → ∃ m : State, c = .next (m.finishObject p 0 none)
                      ∧ m.object b = some { y with syncing := none } ∧ m.mem.bytes = s.mem.bytes ∧ m.mem.ftl.journal = 0
                      ∧ ∀ i z, i < y.pages → m.page (b + i) = some z → z.logical ≠ none → z.written = false))

/-- A valid command of a hand at the front of engine k's queue, or one of the conductor, every access of which is permitted and resident
(and, for GATHER, whose destination leaves the index list alone) completes. Its rows run in order, and row r takes memory from
`m r` to `m (r + 1)`: COPY and GATHER write the source elements, as they are or converted and rounded (GATHER from the row its index names,
zeros at index FFFFFFFF), FILL writes AUX, ADD, MIN and MAX combine as memory-side operations do, UNPACK writes each packed
element at its block's scale rounded to nearest even, and PACK, whose three destinations are apart, writes the quantised blocks and their scales and
adds the saturation and zero counts at AUX. No byte outside the row's destination changes, nor any tile, Dealer or job. A
command of a hand is then marked done. -/
def Obligations.EngineRows : Prop :=
  ∀ (s : State) (k : Stack) (src : SeSrc) (job : Nat) (hand : Bool) (cmd : BitVec 512) (fin : State → State),
    (src = .conductor job cmd ∧ hand = false ∧ fin = id)
      ∨ (∃ q rest, src = .queued ∧ (s.stack k).queue = q :: rest ∧ q.done = false ∧ q.job = job ∧ q.tile.isSome = hand
          ∧ q.cmd = cmd ∧ fin = fun m => m.modStack k (fun x =>
              { x with queue := { q with done := true, waiting := false } :: x.queue.drop 1 })) →
    let c := seOf cmd
    let sw := fmtBits c.srcFmt / 8
    let dw := fmtBits c.dstFmt / 8
    let dst (r : Nat) : Nat := c.dst + r * c.dstLd
    let b := blockLen c.fine
    let scales (r : Nat) : Nat := c.scale + r * roundUp (ceilDiv c.rowLen b) 64
    c.valid hand = true →
    (∀ r < c.rows, ∀ p ∈ s.seRowSpans c r, s.checkRange (seWho job) p.1 p.2 = none ∧ s.absentPages p.1 p.2 = []) →
    (c.op = 8 → ∀ r < c.rows, ∀ n < c.rows,
      dst r + c.rowLen * dw ≤ c.aux + 4 * n ∨ c.aux + 4 * n + 4 ≤ dst r) →
    ∀ i, (i, c.op) ∈ [(Instr.seCopy k src, 1), (.seFill k src, 2), (.seAdd k src, 3), (.seMin k src, 4), (.seMax k src, 5),
        (.sePack k src, 6), (.seUnpack k src, 7), (.seGather k src, 8)] →
    ∃ m : Nat → State, exec i s = .next (fin (m c.rows)) ∧ m 0 = s ∧ ∀ r < c.rows, ∀ x y : State, x = m r → y = m (r + 1) →
      let elem (a e : Nat) : Nat := x.readLe (a + sw * e) sw
      let writes (f : Nat → Nat) : Prop := (∀ e < c.rowLen, y.readLe (dst r + dw * e) dw = f e % 256 ^ dw)
        ∧ ∀ n, (n < dst r ∨ dst r + c.rowLen * dw ≤ n) → y.mem.bytes.get 0 n = x.mem.bytes.get 0 n
      let conv (e v : Nat) : Nat := if c.srcFmt = c.dstFmt then v else
        encodeElem c.dstFmt (if c.stoch then .sr (srBits c.seed 1 ((dst r + e * dw) * 8)) else .rne)
          (decodeElem c.srcFmt v 127)
      let old (e : Nat) : Nat := x.readLe (dst r + dw * e) dw
      let ix := x.readLe (c.aux + 4 * r) 4
      y.tiles = x.tiles ∧ y.dealers = x.dealers ∧ y.sched = x.sched ∧ y.outbox = x.outbox
        ∧ (c.op = 1 → writes (fun e => conv e (elem (c.src + r * c.srcLd) e)))
        ∧ (c.op = 2 → writes (fun _ => c.aux))
        ∧ (c.op = 3 → c.srcFmt = 5 → writes (fun e => old e + elem (c.src + r * c.srcLd) e))
        ∧ (c.op = 3 → c.srcFmt ≤ 2 → writes (fun e => encodeElem c.srcFmt .rne
            ((decodeElem c.srcFmt (old e) 127).add (decodeElem c.srcFmt (elem (c.src + r * c.srcLd) e) 127))))
        ∧ (c.op = 4 → c.srcFmt = 5 → writes (fun e =>
            if sintVal 32 (elem (c.src + r * c.srcLd) e) < sintVal 32 (old e) then elem (c.src + r * c.srcLd) e else old e))
        ∧ (c.op = 5 → c.srcFmt = 5 → writes (fun e =>
            if sintVal 32 (old e) < sintVal 32 (elem (c.src + r * c.srcLd) e) then elem (c.src + r * c.srcLd) e else old e))
        ∧ (c.op = 4 → c.srcFmt = 0 → writes (fun e =>
            (fmin32 (BitVec.ofNat 32 (old e)) (BitVec.ofNat 32 (elem (c.src + r * c.srcLd) e))).toNat))
        ∧ (c.op = 5 → c.srcFmt = 0 → writes (fun e =>
            (fmax32 (BitVec.ofNat 32 (old e)) (BitVec.ofNat 32 (elem (c.src + r * c.srcLd) e))).toNat))
        ∧ (c.op = 7 → writes (fun e => encodeElem c.dstFmt .rne (decodeElem c.srcFmt
            (leNat (x.readMem (c.src + r * c.srcLd) (c.rowLen * fmtBits c.srcFmt / 8))
              / 2 ^ (e * fmtBits c.srcFmt) % 2 ^ fmtBits c.srcFmt) (x.readLe (scales r + e / b) 1))))
        ∧ (c.op = 8 → writes (fun e => conv e (if ix = 0xFFFFFFFF then 0 else elem (c.src + ix * c.srcLd) e)))
        ∧ (c.op = 6 →
            let w := fmtBits c.dstFmt
            let len := c.rowLen * w / 8
            let n := c.rowLen / b
            let q (i : Nat) : QBlock := quantBlock c.dstFmt ((List.range b).map (fun v =>
              (decodeElem c.srcFmt (elem (c.src + r * c.srcLd) (i * b + v)) 127,
                if c.stoch then .sr (srBits c.seed 1 (dst r * 8 + (i * b + v) * w)) else .rne)))
            (dst r + len ≤ scales r ∨ scales r + n ≤ dst r) →
            (c.aux ≠ 0 → (dst r + len ≤ c.aux ∨ c.aux + 8 ≤ dst r) ∧ (scales r + n ≤ c.aux ∨ c.aux + 8 ≤ scales r)) →
            (∀ i < n, leNat (y.readMem (dst r + i * (b * w / 8)) (b * w / 8))
                = packBits w (q i).elems % 256 ^ (b * w / 8)
              ∧ y.readLe (scales r + i) 1 = (q i).code % 256)
            ∧ (c.aux ≠ 0 →
                y.readLe c.aux 4 = (x.readLe c.aux 4 + ((List.range n).map (fun i => (q i).sat)).sum) % 2 ^ 32
                ∧ y.readLe (c.aux + 4) 4
                  = (x.readLe (c.aux + 4) 4 + ((List.range n).map (fun i => (q i).zero)).sum) % 2 ^ 32)
            ∧ ∀ a, (a < dst r ∨ dst r + len ≤ a) → (a < scales r ∨ scales r + n ≤ a) →
                (c.aux = 0 ∨ a < c.aux ∨ c.aux + 8 ≤ a) → y.mem.bytes.get 0 a = x.mem.bytes.get 0 a)

/-- A valid UPDATE whose group meets Table 8 of 07, its areas apart, permitted and resident, completes. MODE 0: every element whose
HI byte lies in the engine's stack and that the mask touches is written as HI and EXT of rnd24(w − eta × d), with d = rne32(sign(g) + rne32(lambda × w)),
where sign keeps a NaN and the product is left out for a lambda of 0. MODE 1: every row whose step count lies there and that
the mask touches has each element written as rnd24(w × p − eta × sign(g)), p being the product of the powers that the bits of STEP − t_last name, and its step
count set to STEP. A stochastic rounding draws from the group's seed, its step and the HI address. TOUCHED grows by the elements written. No other byte changes, nor any
tile, Dealer or job. -/
def Obligations.EngineUpdates : Prop :=
  ∀ (s : State) (k : Stack) (src : SeSrc) (job : Nat) (cmd : BitVec 512) (fin : State → State),
    (src = .conductor job cmd ∧ fin = id)
      ∨ (∃ q rest, src = .queued ∧ (s.stack k).queue = q :: rest ∧ q.done = false ∧ q.job = job ∧ q.tile = none ∧ q.cmd = cmd
          ∧ fin = fun m => m.modStack k (fun x =>
              { x with queue := { q with done := true, waiting := false } :: x.queue.drop 1 })) →
    let c := seOf cmd
    let u := updOf (s.readMem c.aux 128)
    c.valid false = true → c.op = 0x10 → updValid (s.readMem c.aux 128) = true →
    (∀ p ∈ updSpans c.aux u, s.checkRange (seWho job) p.1 p.2 = none ∧ s.absentPages p.1 p.2 = []) →
    (updSpans c.aux u).Pairwise (fun p q => p.1 + p.2 ≤ q.1 ∨ q.1 + q.2 ≤ p.1) →
    let eta := val32 u.eta
    let lam := val32 u.lambda
    let w (i : Nat) : FV := enc24.decode (s.readLe (u.hi + 2 * i) 2 * 256 + s.readLe (u.ext + i) 1)
    let g (i : Nat) : FV := if u.gFp32 then decodeElem 0 (s.readLe (u.g + 4 * i) 4) 127 else
      decodeElem 1 (s.readLe (u.g + 2 * i) 2) 127
    let rnd (i : Nat) : Rnd := if u.stoch then
      .sr (srBits (u.seed ^^^ (BitVec.ofNat 64 u.step * 0x9E3779B97F4A7C15)) 1 ((u.hi + 2 * i) * 8)) else .rne
    let bit (n : Nat) : Bool := bitOf (s.readLe (u.maskBase + 8 * (n / 64)) 8) (n % 64)
    let touched (i : Nat) : Prop := u.mask = 0 ∨ (u.mask = 1 ∧ bit i = true) ∨ (u.mask = 2 ∧ bit (i / u.rowLen) = true)
      ∨ (u.mask = 3 ∧ s.readLe (u.maskBase + 4 * (i / u.rowLen)) 4 ≠ 0)
    let steps (r : Nat) : Nat := u.aux + 128 + 4 * r
    let holds (m : State) (i : Nat) (x : Nat) : Prop := m.readLe (u.hi + 2 * i) 2 = x / 256 % 65536
      ∧ m.readLe (u.ext + i) 1 = x % 256
    let adds (m : State) (L : List Nat) (n : Nat) : Prop := L.Nodup
      ∧ m.readLe (c.aux + 0x50) 8 = (s.readLe (c.aux + 0x50) 8 + L.length * n) % 2 ^ 64
    let outside (i a : Nat) : Prop := (a < u.hi + 2 * i ∨ u.hi + 2 * i + 2 ≤ a) ∧ a ≠ u.ext + i
    ∃ m : State, exec (.seUpdate k src) s = .next (fin m) ∧ m.tiles = s.tiles ∧ m.dealers = s.dealers ∧ m.sched = s.sched
      ∧ (u.mode = 0 → ∃ L, adds m L 1 ∧ (∀ i, i ∈ L ↔ i < u.count ∧ s.ownerStack 0 (u.hi + 2 * i) = k ∧ touched i)
          ∧ (∀ i ∈ L,
              let t : FV := if lam.isZero then (if (w i).isNaN then .nan else .fin false 0 0) else rne32 (lam.mul (w i))
              holds m i (rnd24 (rnd i) ((w i).sub (eta.mul (rne32 ((signVal (g i)).add t))))))
          ∧ ∀ a, (∀ i ∈ L, outside i a) → (a < c.aux + 0x50 ∨ c.aux + 0x58 ≤ a) →
              m.mem.bytes.get 0 a = s.mem.bytes.get 0 a)
      ∧ (u.mode = 1 → ∃ L, adds m L u.rowLen
          ∧ (∀ r, r ∈ L ↔ r < u.count / u.rowLen ∧ s.ownerStack 0 (steps r) = k ∧ touched (r * u.rowLen))
          ∧ (∀ r ∈ L,
              let n := (u.step + 2 ^ 32 - s.readLe (steps r) 4) % 2 ^ 32
              let p := (List.range 32).foldl (fun p i => if bitOf n i then
                rne32 (p.mul (val32 (BitVec.ofNat 32 (s.readLe (u.aux + 4 * i) 4)))) else p) (.fin false 1 0)
              m.readLe (steps r) 4 = u.step
                ∧ ∀ e, r * u.rowLen ≤ e → e < (r + 1) * u.rowLen →
                    holds m e (rnd24 (rnd e) (((w e).mul p).sub (eta.mul (signVal (g e))))))
          ∧ ∀ a, (∀ r ∈ L, (a < steps r ∨ steps r + 4 ≤ a) ∧ ∀ e, r * u.rowLen ≤ e → e < (r + 1) * u.rowLen → outside e a) →
              (a < c.aux + 0x50 ∨ c.aux + 0x58 ≤ a) → m.mem.bytes.get 0 a = s.mem.bytes.get 0 a)

/-- WALK through a valid paged list copies each position's row from its page, found through the page entry, to its row of DST, when
every access is permitted and resident and the rows do not overlap the sequence record. PREFETCH completes when every page is resident; else it
waits, and each absent page has it among its waiters. EVICT moves out each resident page of the range that is not pinned: one not written goes to flash at once, another starts
to migrate and the command waits. SCRUB zero-fills the pages that its frames hold. MARGIN on an idle stack writes the passing steps of each
good channel; it passes when every count reaches its limit. An invalid command of the conductor for a job changes no byte and
faults it with SE_COMMAND. A completed command leaves the queue; that of a hand still on its tile adds 1 to its event
counter and to no other. -/
def Obligations.EngineOthers : Prop :=
  ∀ (s : State) (k : Stack),
    (∀ (src : SeSrc) (job : Nat) (hand : Bool) (cmd : BitVec 512) (fin hold : State → State),
      (src = .conductor job cmd ∧ hand = false ∧ fin = id ∧ hold = id)
        ∨ (∃ q rest, src = .queued ∧ (s.stack k).queue = q :: rest ∧ q.done = false ∧ q.job = job ∧ q.tile.isSome = hand
            ∧ q.cmd = cmd ∧ (hold = fun m => m.modStack k (fun x =>
                { x with queue := { q with waiting := true } :: x.queue.drop 1 }))
            ∧ fin = fun m => m.modStack k (fun x =>
                { x with queue := { q with done := true, waiting := false } :: x.queue.drop 1 })) →
      let c := seOf cmd
      let d := s.descAt c.aux
      let l := pageListOf d
      let n := 128 * (fmtBits l.fmt / 8)
      let head := bitsOf c.src 39 32
      let pos (r : Nat) : Nat := bitsOf c.src 31 0 + r
      let entry (r : Nat) : Nat := l.seqBase + 0x40 + 4 * (((l.isV.toNat * s.readLe (l.seqBase + 4) 1 + l.layer)
        * s.readLe (l.seqBase + 5) 1 + head) * s.readLe (l.seqBase + 0x18) 4 + pos r / 512)
      let a (r : Nat) : Nat := l.poolBase + s.readLe (entry r) 4 * 65536 + pos r % 512 * 128
      let dst (r : Nat) : Nat := c.dst + r * c.dstLd
      let apart (r b len : Nat) : Prop := dst r + n ≤ b ∨ b + len ≤ dst r
      let ok (b len : Nat) : Prop := s.checkRange (seWho job) b len = none ∧ s.absentPages b len = []
      let p0 := c.src / size2MiB
      c.valid hand = true →
      (c.op = 9 → hdrOk (descHdr d) 0x11 = true → s.pageListValid d = true → l.locus = 0 → ok c.aux 64 → ok l.seqBase 64 →
        (∀ r < c.rows, pos r / 512 < l.entries ∧ s.readLe (entry r) 4 < l.poolPages ∧ s.readLe (entry r) 4 ≠ 0xFFFFFFFF
          ∧ ok (a r) n ∧ s.absentPages (a r) 128 = [] ∧ ok (dst r) n) →
        (∀ r < c.rows, apart r c.aux 64 ∧ apart r l.seqBase 64 ∧ ∀ j < c.rows, apart r (entry j) 4) →
        ∃ m : Nat → State, exec (.seWalk k src) s = .next (fin (m c.rows)) ∧ m 0 = s ∧ ∀ r < c.rows,
          (m (r + 1)).readMem (dst r) n = (m r).readMem (a r) n ∧ (m (r + 1)).tiles = (m r).tiles
            ∧ ∀ b, (b < dst r ∨ dst r + n ≤ b) → (m (r + 1)).mem.bytes.get 0 b = (m r).mem.bytes.get 0 b)
      ∧ (c.op = 0xA → s.checkRange (seWho job) (p0 * size2MiB) (c.rows * size2MiB) = none →
          let ps := ((List.range c.rows).map (· + p0)).flatMap (fun p => s.absentPages (p * size2MiB) 1)
          (ps = [] → exec (.sePrefetch k src) s = .next (fin s))
            ∧ (ps ≠ [] → ∃ m : State, exec (.sePrefetch k src) s = .next (hold m) ∧ m.mem.bytes = s.mem.bytes
                ∧ m.tiles = s.tiles ∧ ∀ p ∈ ps, ⟨p, job, reqEngine, k⟩ ∈ m.mem.waiters))
      ∧ (c.op = 0x11 → s.checkRange (seWho job) (p0 * size2MiB) (c.rows * size2MiB) = none →
          ∃ m : State, m.mem.bytes = s.mem.bytes ∧ m.tiles = s.tiles
            ∧ ((∃ i < c.rows, ∃ x f, m.page (p0 + i) = some x ∧ x.place = .migratingOut f) →
                exec (.seEvict k src) s = .next (hold m))
            ∧ ((∀ i < c.rows, ∀ x f, m.page (p0 + i) = some x → x.place ≠ .migratingOut f) →
                exec (.seEvict k src) s = .next (fin m))
            ∧ (∀ p, (p < p0 ∨ p0 + c.rows ≤ p) → m.page p = s.page p)
            ∧ ∀ i < c.rows, ∀ x, s.page (p0 + i) = some x →
                (∀ f o, x.place = .resident f → s.object x.object = some o → o.attr ≠ 0 →
                  m.page (p0 + i) = some { x with place := if x.written then .migratingOut f else .flash })
                ∧ ((∀ f, x.place ≠ .resident f) → m.page (p0 + i) = some x)
                ∧ ((∃ o, s.object x.object = some o ∧ o.attr = 0) → m.page (p0 + i) = some x))
      ∧ (c.op = 0x12 → ∃ m : State, exec (.seScrub k src) s = .next (fin m) ∧ m.tiles = s.tiles
          ∧ ∀ b, m.mem.bytes.get 0 b = if ∃ i < c.rows, s.mem.frames.get 0 (c.src + i) = b / size2MiB + 1 then 0
              else s.mem.bytes.get 0 b))
    ∧ (∀ (job : Nat) (cmd : BitVec 512) (results : List Margins), (seOf cmd).op = 0x13 → (seOf cmd).src = k →
        (seOf cmd).valid false = true → s.marginReady k = true →
        ∃ m : State, exec (.seMargin k (.conductor job cmd) results) s = .next m ∧ m.mem.bytes = s.mem.bytes
          ∧ ∀ ch,
              let x := s.stack k
              let y := (m.stack k).chans.get .init ch
              (∀ i, (maskBits x.good.toNat 32)[i]? = some ch →
                let r := results.getD i ⟨0, 0, 0, 0⟩
                y.valid = true ∧ (y.left, y.right, y.low, y.high) = (r.left, r.right, r.low, r.high)
                  ∧ (y.pass = true ↔ x.limitDq ≤ r.left ∧ x.limitDq ≤ r.right ∧ x.limitVddq ≤ r.low ∧ x.limitVddq ≤ r.high))
              ∧ (ch ∉ maskBits x.good.toNat 32 → y = x.chans.get .init ch))
    ∧ (∀ (job : Nat) (cmd : BitVec 512) (x : JobSt) (i : Instr), s.job job = some x → 0 < job → (seOf cmd).valid false = false →
        (i, (seOf cmd).op) ∈ [(Instr.seCopy k (.conductor job cmd), 1), (.seFill k (.conductor job cmd), 2),
          (.seAdd k (.conductor job cmd), 3), (.sePack k (.conductor job cmd), 6), (.seUpdate k (.conductor job cmd), 0x10),
          (.seScrub k (.conductor job cmd), 0x12)] →
        ∃ s', exec i s = .next s' ∧ s'.mem = s.mem ∧ s'.tiles = s.tiles
          ∧ s'.job job = some { x with fault := some (x.fault.getD Codes.seCommand) })
    ∧ ∀ q rest, (s.stack k).queue = q :: rest → q.done = true →
        (∀ t, q.tile = some t → (s.tile t).handId = q.hand → (s.tile t).job = q.job → ∃ s',
            let e := (seOf q.cmd).evt % 16
            exec (.seCommandComplete k) s = .next s' ∧ (s'.stack k).queue = rest ∧ s'.mem.bytes = s.mem.bytes
              ∧ (s'.tile t).ereg e = (s.tile t).ereg e + 1 ∧ (∀ f < 16, f ≠ e → (s'.tile t).ereg f = (s.tile t).ereg f)
              ∧ ∀ v, v ≠ t → s'.tile v = s.tile v)
          ∧ (q.tile = none → ((seOf q.cmd).op ≠ 0x10
                ∨ ∃ i < 32, ∃ c ∈ (if i = k.val then rest else (s.stack i).queue), c.job = q.job ∧ (seOf c.cmd).op = 0x10) →
              exec (.seCommandComplete k) s = .next (s.modStack k (fun x => { x with queue := rest })))

/-- Garbage collection, with fewer free superblocks than GC_LOW, collects the closed superblock with the fewest valid stripes, ties to the least
erased and then the lowest; static wear levelling collects the least-erased superblock, when closed, once erase counts differ by more than
WL_DELTA; a closed superblock whose reads reach RD_LIMIT x 1,024 is collected. Where writes are allowed and the one open superblock has room, collecting
erases it, counts the erase and clears its reads; every logical page that it or another superblock held is still held and keeps its
bytes, and the governor counts each stripe copied. With the budget spent nothing is programmed. A journal program empties the journal and leaves every stripe
described; a checkpoint follows 65,536 of them; a window's end clears the governor's count. A patrol read steps through the channel, and at its end starts a new sweep with its
corrected count 0; corrected symbols are counted; an uncorrectable error faults the job whose page the frame holds. -/
def Obligations.FlashUpkeep : Prop :=
  ∀ s : State,
    let f := s.mem.ftl
    let valid (i : Nat) : Nat := ((f.sb i).stripes.filterMap id).length
    let same (s' : State) : Prop := s'.mem.bytes = s.mem.bytes ∧ s'.mem.pages = s.mem.pages ∧ s'.tiles = s.tiles
    let collects (i j : Nat) (s' : State) : Prop := same s'
      ∧ (s'.mem.ftl.sb i).state = .free ∧ (s'.mem.ftl.sb i).stripes = [] ∧ (s'.mem.ftl.sb i).erases = (f.sb i).erases + 1
      ∧ (s'.mem.ftl.sb i).reads = 0 ∧ (∀ l, some l ∈ (f.sb i).stripes → some l ∈ (s'.mem.ftl.sb j).stripes)
      ∧ (∀ m l, some l ∈ (f.sb m).stripes → ∃ n, some l ∈ (s'.mem.ftl.sb n).stripes)
      ∧ (∀ m, m ≠ i → (s'.mem.ftl.sb m).state = (f.sb m).state ∧ (s'.mem.ftl.sb m).erases = (f.sb m).erases)
      ∧ s'.mem.ftl.store = f.store ∧ s'.mem.ftl.spent = f.spent + valid i ∧ s'.mem.ftl.unjournaled = f.unjournaled
    let room (i j : Nat) : Prop := f.readOnly = false ∧ f.frozen = false ∧ f.spent < f.budget.toNat ∧ s.flashPaused = false
      ∧ f.sbsIn .open = [j] ∧ (f.sb j).stripes.length + valid i ≤ f.stripesPerSb
    let idle (s' : State) : Prop := same s' ∧ s'.mem.ftl.sbs = f.sbs ∧ s'.mem.ftl.store = f.store ∧ s'.mem.ftl.spent = f.spent
    let spent : Prop := f.budget.toNat ≤ f.spent
    (∀ i ∈ f.sbsIn .closed, (f.sbsIn .free).length < f.gcLow →
        (∀ m ∈ f.sbsIn .closed, valid i < valid m ∨ valid i = valid m ∧ ((f.sb i).erases < (f.sb m).erases
          ∨ (f.sb i).erases = (f.sb m).erases ∧ i ≤ m)) →
        (∀ j, room i j → ∃ s', exec .garbageCollection s = .next s' ∧ collects i j s')
          ∧ (spent → ∃ s', exec .garbageCollection s = .next s' ∧ idle s'))
    ∧ (∀ i < f.superblocks, (f.sb i).state = .closed →
        (∀ m < f.superblocks, (f.sb i).erases < (f.sb m).erases ∨ (f.sb i).erases = (f.sb m).erases ∧ i ≤ m) →
        (∃ m < f.superblocks, f.wlDelta < (f.sb m).erases - (f.sb i).erases) →
        (∀ j, room i j → ∃ s', exec .staticWearLevelling s = .next s' ∧ collects i j s')
          ∧ (spent → ∃ s', exec .staticWearLevelling s = .next s' ∧ idle s'))
    ∧ (∀ i, (f.sb i).state = .closed → 0 < f.rdLimit → f.rdLimit * 1024 ≤ (f.sb i).reads →
        (∀ j, room i j → ∃ s', exec (.readDisturbCollect i) s = .next s' ∧ collects i j s')
          ∧ (spent → ∃ s', exec (.readDisturbCollect i) s = .next s' ∧ idle s'))
    ∧ (f.readOnly = false → s.flashPaused = false →
        (0 < f.journal → exec .journalProgram s = .next { s with mem := { s.mem with ftl :=
            { f with journal := 0, programs := f.programs + 1, unjournaled := [] } } })
          ∧ (65536 ≤ f.programs → exec .mapCheckpoint s = .next { s with mem := { s.mem with ftl := { f with programs := 0 } } }))
    ∧ exec .writeBudgetWindow s = .next { s with mem := { s.mem with ftl := { f with spent := 0, governed := false } } }
    ∧ ∀ (k : Stack) (ch : Fin 32) (ecc : Ecc), ch.val ∈ maskBits (s.stack k).good.toNat 32 →
        let x := s.stack k
        let c := x.chans.get .init ch.val
        let slot := (((maskBits x.good.toNat 32).findIdx? (· == ch.val)).getD 0)
        let g := (maskBits x.good.toNat 32).length
        let lin := (64 * c.patrol / 256 * g + slot) * 256 + 64 * c.patrol % 256
        let fr := k.val * 32768 + lin / size2MiB
        ∃ s', exec (.patrolRead k ch ecc) s = .next s' ∧ same s'
          ∧ (let y := (s'.stack k).chans.get .init ch.val
            let n := match ecc with
              | .corrected n => n
              | _ => 0
            if c.patrol + 1 < 33554432 then y.patrol = c.patrol + 1 ∧ y.ce = c.ce + n
            else y.patrol = 0 ∧ y.ce = 0 ∧ y.logged = false)
          ∧ (∀ n, ecc = .corrected n → (s'.stack k).ce = min (2 ^ 32 - 1) (x.ce + n))
          ∧ (ecc = .clean → (s'.stack k).ce = x.ce ∧ s'.sched = s.sched)
          ∧ (ecc = .uncorrectable → ∀ p q o j z, s.mem.frames.get 0 fr = p + 1 → s.page p = some q → s.object q.object = some o →
              o.owner = .job j → 0 < j → s.job j = some z →
              s'.job j = some { z with fault := some (z.fault.getD Codes.memUncorrectable) })

/-- An open entry of a job live on the ring whose descriptor is in order opens the stream on the engine of its kind with the fewest
open streams, one on the edge die of the job's first die before another, then the lowest, in its lowest free slot; the completion names both and STATUS reads open.
A descriptor that breaches R323 completes with CODEC_DESC and opens nothing. A close frees the slot of the job's stream and STATUS reads closed. A decoder takes the next
input entry of its next ready stream: a malformed one stops the stream with CODEC_INPUT; an unsupported access unit stops it with CODEC_UNSUPPORTED; one that a decoder
discards starts or continues a discard run; a picture of the active sequence takes the lowest free buffer, which then holds its marks and what was concealed in it, is counted, and enters the output order
when the outcome outputs it. Each entry taken advances IN_RD. None of these changes a tile. -/
def Obligations.CodecStreams : Prop :=
  ∀ s : State,
    let word (m : State) (a n : Nat) : Nat := m.readLe a n
    (∀ (r : Ring) (e : List Byte), s.frontEntry r = some e → s.entryCode r e = none →
      let j := fieldLe e 0x18 4
      let a := fieldLe e 0x10 8
      let n := fieldLe e 0x1C 1
      let slot := fieldLe e 0x1D 1
      let d := streamDescOf (s.readMem a 128)
      (fieldLe e 0 1 = 0x92 → ∀ x, s.job j = some x → x.ring = r →
          (s.streamBad j a = true → exec (.codecOpen r) s = .next ((s.consume r).finishEntry r e Codes.codecDesc))
          ∧ ∀ v i, s.streamBad j a = false → (16 ≤ v ↔ d.encode = true) → v < 24 → (s.engine v).unused = false →
            (∀ u, u < 24 → (16 ≤ u ↔ d.encode = true) → (s.engine u).unused = false →
              let q (u : Nat) : Nat := if engineEdge u = (x.places.head?.map (·.die)).getD 0 / 2 then 0 else 1
              let n (u : Nat) : Nat := (s.engine u).open_.length
              n v < n u ∨ n v = n u ∧ (q v < q u ∨ q v = q u ∧ v ≤ u)) →
            i < 64 → s.stream v i = none → (∀ k < i, s.stream v k ≠ none) →
            ∃ m : State, exec (.codecOpen r) s
                = .next (m.complete r { kind := 0x92, job := j, tag := entryTag e, result := v * 256 + i })
              ∧ m.stream v i = some (StreamSt.opened a j d) ∧ word m (a + 0x78) 2 = 0 ∧ m.tiles = s.tiles
              ∧ ∀ u k, (u, k) ≠ (v, i) → m.stream u k = s.stream u k)
      ∧ (fieldLe e 0 1 = 0x93 → s.liveOn r j = true → ∀ x, s.stream n slot = some x → x.job = j →
          ∃ m : State, exec (.codecClose r) s = .next (m.complete r { kind := 0x93, job := j, tag := entryTag e })
            ∧ m.stream n slot = none ∧ word m (x.addr + 0x78) 2 = 3 ∧ m.tiles = s.tiles
            ∧ ∀ u k, (u, k) ≠ (n, slot) → m.stream u k = s.stream u k))
    ∧ ∀ (v : Fin 16) (out : AuOutcome) (slot : Nat) (x : StreamSt), s.nextStream v = some (slot, x) →
        let rd := word s (x.addr + 0x58) 8
        let a := x.desc.inBase + 16 * (rd % x.desc.inEntries)
        let addr := word s a 8
        let len := word s (a + 8) 4
        let flags := word s (a + 12) 4
        let bad := len = 0 ∧ flags % 2 = 0 ∨ 2 ^ 28 < len ∨ flags / 2 ≠ 0
        let read (m : State) : Prop := word m (x.addr + 0x58) 8 = (rd + 1) % 2 ^ 64
        let stopped (m : State) (c : Code) : Prop := m.stream v slot = some { x with status := 2 }
          ∧ word m (x.addr + 0x78) 2 = 2 ∧ word m (x.addr + 0x7A) 2 = c.toNat
        let ok := ¬bad ∧ s.checkAccesses (.job x.job) [(a, 16), (addr, len)] = none ∧ len ≠ 0
        (bad → ∃ m : State, exec (.decodeAccessUnit v out) s = .next m ∧ stopped m Codes.codecInput ∧ m.tiles = s.tiles)
        ∧ (ok → out = .unsupported → ∃ m : State, exec (.decodeAccessUnit v out) s = .next m ∧ m.tiles = s.tiles
            ∧ stopped m Codes.codecUnsupported ∧ read m)
        ∧ (∀ offset, ok → flags = 0 → out = .discard offset → ∃ (m : State) (y : StreamSt),
            exec (.decodeAccessUnit v out) s = .next m ∧ m.tiles = s.tiles ∧ read m ∧ m.stream v slot = some y
              ∧ (x.run = none → y.run = some ⟨1, rd, offset⟩ ∧ y.status = 1 ∧ y.seq = none
                  ∧ word m (x.addr + 0x78) 2 = 1 ∧ ∀ i b, y.bufs.get none i = some b → b.ref = false)
              ∧ ∀ z, x.run = some z → y.run = some { z with count := z.count + 1 })
        ∧ ∀ p q i shown, ok → flags = 0 → out = .pictures [p] (if shown then [i] else []) → p.newSeq = none → x.seq = some q →
            x.status = 0 → p.dropRefs = [] → p.cls = 0 → p.isRef = true → i < x.desc.poolBufs → x.bufs.get none i = none →
            (∀ k < i, x.bufs.get none k ≠ none) → (∀ w ∈ x.order, w.1 ≠ i) →
            (x.desc.poolBase + i * x.desc.bufBytes + x.desc.bufBytes ≤ x.addr + 0x58
              ∨ x.addr + 0x60 ≤ x.desc.poolBase + i * x.desc.bufBytes) →
            ∃ (m : State) (y : StreamSt), exec (.decodeAccessUnit v out) s = .next m ∧ m.tiles = s.tiles ∧ read m
              ∧ m.stream v slot = some y ∧ (m.engine v).frames = BitVec.ofNat 32 (min (2 ^ 32 - 1) ((s.engine v).frames.toNat + 1))
              ∧ (∃ b, y.bufs.get none i = some b ∧ b.ref = true ∧ b.out = (shown || p.shown) ∧ b.seq = q
                  ∧ b.concealed = p.concealed ∧ b.substitute = p.substitute ∧ b.resumed = x.resumed)
              ∧ (∀ k, k ≠ i → y.bufs.get none k = x.bufs.get none k)
              ∧ y.order = x.order ++ (if shown then [(i, x.frame)] else []) ∧ y.inputs = x.inputs ++ [s.readMem addr len]

/-- The output unit, when an output entry is posted and every access is permitted, outputs the next picture in the stream's order: of a stream
with a surface only, areas apart and rows that fit the pitch, it writes each luma row at SURF + y x PITCH and each row of interleaved chroma below, samples at the surface's depth, then FRAME, the cropped size, the flags and the concealed blocks, and
adds 1 to OUT_DONE; the buffer loses its OUT and CONV marks. An encoder codes the next frame of its next ready stream: a reserved flag stops the stream with
CODEC_INPUT; else it writes the coded bytes, and, where they fit, FRAME, the length, the frame type and the QP that R337 gives, and advances IN_RD and
OUT_DONE; where they do not fit, the stream stops with CODEC_OUTPUT_OVERFLOW. The length is a free value from 1. -/
def Obligations.CodecPictures : Prop :=
  ∀ (s : State),
    (∀ (v : Fin 16) (slot : Fin 64) (x : StreamSt) (i frame : Nat) (rest : List (Nat × Nat)) (b : PicBuf),
      s.stream v slot = some x → x.order = (i, frame) :: rest → x.bufs.get none i = some b →
      let done := s.readLe (x.addr + 0x68) 8
      let a := x.desc.outBase + 64 * (done % x.desc.outEntries)
      let surf := s.readLe a 8
      let pitch := s.readLe (a + 8) 4
      let depth := if s.readLe (a + 12) 1 % 2 = 0 then 8 else 10
      let q := b.seq
      let put (w : Nat) : List Byte := if depth = 8 then natLe 1 w else natLe 2 (w * 64)
      let luma (y : Nat) : List Byte := (List.range q.cropW).flatMap (fun p => put (toDepth q.depth depth (x.sample b 0 p y)))
      let chroma (y : Nat) : List Byte := (List.range (ceilDiv q.cropW 2)).flatMap (fun p =>
        (if q.chroma = 0 then [2 ^ (depth - 1), 2 ^ (depth - 1)]
         else [1, 2].map (fun pl => toDepth q.depth depth (x.chroma420 b pl p y))).flatMap put)
      let span := (q.cropH + ceilDiv q.cropH 2) * pitch
      done ≠ s.readLe (x.addr + 0x60) 8 → x.desc.surf = true → x.desc.tensor = false → x.desc.stats = false →
      s.checkAccesses (.job x.job) ((a, 64) :: (x.surfRows b pitch depth).map (fun w => (surf + w.1, w.2.length))) = none →
      (surf + span ≤ a ∨ a + 64 ≤ surf) → (surf + span ≤ x.addr ∨ x.addr + 128 ≤ surf) → (x.addr + 128 ≤ a ∨ a + 64 ≤ x.addr) →
      (∀ y, (luma y).length ≤ pitch ∧ (chroma y).length ≤ pitch) →
      ∃ (m : State) (z : StreamSt), exec (.pictureOutput v slot) s = .next m ∧ m.tiles = s.tiles
        ∧ (∀ y < q.cropH, m.readMem (surf + y * pitch) (luma y).length = luma y)
        ∧ (∀ y < ceilDiv q.cropH 2, m.readMem (surf + (q.cropH + y) * pitch) (chroma y).length = chroma y)
        ∧ m.readLe (a + 0x10) 8 = frame % 2 ^ 64 ∧ m.readLe (a + 0x18) 2 = q.cropW % 2 ^ 16 ∧ m.readLe (a + 0x1A) 2 = q.cropH % 2 ^ 16
        ∧ m.readLe (a + 0x1C) 4 = (if 0 < b.concealed then 1 else 0) + (if b.substitute then 2 else 0) + (if b.resumed then 4 else 0)
        ∧ m.readLe (a + 0x20) 4 = b.concealed % 2 ^ 32 ∧ m.readLe (x.addr + 0x68) 8 = (done + 1) % 2 ^ 64
        ∧ m.stream v slot = some z ∧ z.order = rest
        ∧ z.bufs.get none i = (if b.ref then some { b with out := false, conv := false } else none))
    ∧ ∀ (v : Fin 8) (slot : Nat) (x : StreamSt), s.nextStream (v + 16) = some (slot, x) →
        let rd := s.readLe (x.addr + 0x58) 8
        let done := s.readLe (x.addr + 0x68) 8
        let a := x.desc.inBase + 16 * (rd % x.desc.inEntries)
        let o := x.desc.outBase + 64 * (done % x.desc.outEntries)
        let surf := s.readLe a 8
        let flags := s.readLe (a + 8) 8
        let buf := s.readLe o 8
        let cap := s.readLe (o + 8) 4
        let f (b n : Nat) : Nat := s.readLe (x.desc.aux + b) n
        let key := x.sinceKey = 0 ∨ flags / 2 % 2 = 1 ∨ (f 0xC 4 ≠ 0 ∧ x.sinceKey % f 0xC 4 = 0)
        let rows := (List.range (f 4 2 + f 4 2 / 2)).map (fun y => (surf + y * f 8 4, f 2 2 * (1 + f 6 1)))
        let e : Instr := .encodeFrame v
        (4 ≤ flags → ∃ m : State, exec e s = .next m ∧ m.stream (v + 16) slot = some { x with status := 2 }
            ∧ m.readLe (x.addr + 0x7A) 2 = Codes.codecInput.toNat)
        ∧ (flags < 4 → x.desc.stats = false → (∀ n ≤ cap, s.checkAccesses (.job x.job) ([(a, 16), (o, 64), (buf, n)] ++ rows) = none) →
            (buf + cap ≤ x.addr ∨ x.addr + 128 ≤ buf) → (buf + cap ≤ o ∨ o + 64 ≤ buf) → (x.addr + 128 ≤ o ∨ o + 64 ≤ x.addr) →
            ∃ (m : State) (len : Nat), 1 ≤ len ∧ len < 2 ^ 32 ∧ exec e s = .next m ∧ m.tiles = s.tiles
              ∧ m.readLe (x.addr + 0x58) 8 = (rd + 1) % 2 ^ 64
              ∧ (cap < len → m.stream (v + 16) slot = some { x with status := 2 }
                  ∧ m.readLe (x.addr + 0x7A) 2 = Codes.codecOutputOverflow.toNat ∧ m.readLe (x.addr + 0x68) 8 = done)
              ∧ (len ≤ cap → m.readLe (x.addr + 0x68) 8 = (done + 1) % 2 ^ 64
                  ∧ m.readLe (o + 0x10) 8 = x.frame % 2 ^ 64 ∧ m.readLe (o + 0x18) 4 = len
                  ∧ (∃ y, m.stream (v + 16) slot = some y ∧ y.frame = x.frame + 1
                      ∧ y.sinceKey = (if flags % 2 = 1 then 0 else x.sinceKey + 1) ∧ y.lastBits = 8 * len)
                  ∧ (key → m.readLe (o + 0x1C) 1 = 0 ∧ m.readLe (o + 0x1D) 1 = f 0x11 1)
                  ∧ (¬key → m.readLe (o + 0x1C) 1 = 1
                      ∧ ((x.lastQp = none ∨ f 0x10 1 = 0) → m.readLe (o + 0x1D) 1 = f 0x12 1)
                      ∧ ∀ p, x.lastQp = some p → f 0x10 1 ≠ 0 →
                          let t := f 0x18 4
                          let r := x.lastBits
                          let d : Int := if 2 * t < r then 2 else if 5 * t < 4 * r then 1 else if 2 * r < t then -2
                            else if 5 * r < 4 * t then -1 else 0
                          m.readLe (o + 0x1D) 1 = min (f 0x14 1) (max (f 0x13 1) ((p : Int) + d).toNat))))

/-- A completed step takes DETECT to EQUALIZE and EQUALIZE to ALIGN, and ALIGN to NEGOTIATE, where a near link sends its control flit (versions 1 and 2, its
rank) and a far link waits for a session unless there is one. A step past its bound takes the link to DOWN, counts the failure and leaves a retry due, which starts
DETECT. In NEGOTIATE a near link without a common version goes to DISABLED with LINK_VERSION; one whose peer is not the module that R342 gives, or whose link number
differs, with LINK_MISWIRED; else it is UP at the highest common version and holds the peer's rank. Eight futile replays take a link to RETRAIN, which keeps the replay buffer,
is counted and logged as LINK_RETRAIN; with three behind it the fourth may end in DISABLED with LINK_FAILED (within which time is left open: log entry 3). A RETRAIN past its bound ends so. Nothing but links, what is sent and logs changes. -/
def Obligations.LinkTraining : Prop :=
  ∀ (s : State) (l : Link),
    let x := s.link l
    let near := l.val < 18
    let rest (m : State) : Prop := LinksOnly s m ∧ ∀ k, k ≠ l.val → m.link k = s.link k
    let disabled (m : State) (err : Nat) (c : Code) : Prop :=
      (m.link l).phase = .disabled ∧ (m.link l).error = err ∧ Logged s m c l ∧ LinksOnly s m
        ∧ ∀ k, k ≠ l.val → k ≠ otherLink l → m.link k = s.link k
    let complete := exec (.trainingStepComplete l) s
    let timeout := exec (.trainingStepTimeout l) s
    let retrain := exec (.retrain l) s
    let fails := { x with phase := .down, trainFail := min 255 (x.trainFail + 1), retryDue := true }
    let again := { x with phase := .retrain, retrainLeft := 3, retrains := min 255 (x.retrains + 1), recent := x.recent + 1, futile := 0 }
    (x.phase = .detect → ∃ m, complete = .next m ∧ LinkTo s l { x with phase := .equalize } m)
    ∧ (x.phase = .equalize → ∃ m, complete = .next m ∧ LinkTo s l { x with phase := .align } m)
    ∧ (x.phase = .align → near → ∃ m : State, complete = .next m ∧ (m.link l).phase = .negotiate ∧ rest m
        ∧ m.outbox = s.outbox ++ [.control l 6 s.rank])
    ∧ (x.phase = .align → ¬near → ∃ m : State, complete = .next m ∧ rest m
        ∧ (m.link l).phase = (if s.links.sess.any (fun q => q.2.up) then .up else .negotiate))
    ∧ (x.phase = .retrain → x.retrainLeft = 3 → ∃ m, complete = .next m ∧ LinkTo s l { x with retrainLeft := 2 } m)
    ∧ (x.phase = .retrain → x.retrainLeft = 2 → near → ∃ m : State, complete = .next m ∧ LinkTo s l { x with retrainLeft := 1 } m
        ∧ m.outbox = s.outbox ++ [.control l 6 s.rank])
    ∧ (x.phase = .detect ∨ x.phase = .equalize ∨ x.phase = .align ∨ x.phase = .negotiate ∧ near →
        ∃ m, timeout = .next m ∧ LinkTo s l fails m)
    ∧ (x.phase = .retrain → near → ∃ m, timeout = .next m ∧ disabled m 5 Codes.linkFailed)
    ∧ (x.retryDue = true → x.phase = .down → x.enable = true → s.links.rankValid = true → x.media ≠ 3 → (near ∨ x.encap ≠ 3) →
        s.edgeOut (linkEdge l) = false →
        ∃ m, exec (.trainingRetry l) s = .next m ∧ LinkTo s l { x with phase := .detect, retryDue := false } m)
    ∧ (near → x.phase = .negotiate → ∀ (v : BitVec 4) (r : BitVec 15) (n : BitVec 5),
        let peer := s.rank ^^^ [1, 1, 2, 2, 3, 3, 4, 4, 8, 8, 12, 12, 16, 16, 32, 32, 48, 48].getD l.val 0
        let common := v.getLsbD 1 = true ∨ v.getLsbD 2 = true
        let right := r.toNat = peer ∧ n.toNat = l.val
        ∃ m : State, exec (.negotiateFlit l v r n) s = .next m
          ∧ (¬common → disabled m 1 Codes.linkVersion)
          ∧ (common → ¬right → disabled m 2 Codes.linkMiswired)
          ∧ (common → right → (m.link l).phase = .up ∧ (m.link l).peer = peer ∧ rest m
              ∧ (m.link l).version = (if v.getLsbD 2 = true then 2 else 1)))
    ∧ (near → x.phase = .up → 8 ≤ x.futile →
        (x.recent < 3 → ∃ m, retrain = .next m ∧ LinkTo s l again m ∧ Logged s m Codes.linkRetrain l)
        ∧ (3 ≤ x.recent → ∃ m : State, retrain = .next m
            ∧ ((m.link l = again ∧ Logged s m Codes.linkRetrain l ∧ rest m) ∨ disabled m 5 Codes.linkFailed)))

/-- A write to LNK.RANK while a link is out of DOWN has no effect and is logged as BAD_REG_ACCESS; with every link in DOWN it sets the fields, and every link that is enabled,
and whose registers and edge die let it, starts to train once VALID is 1. ENABLE = 1 starts the training of a link in DOWN, or of one in DISABLED whose edge die works; without a valid rank
the link stays in DOWN with LINK_RANK_UNSET. ENABLE = 0 takes it to DISABLED: with the other link of the near pair DISABLED too, LINK_PEER_LOST is logged and nothing is sent; else LINK_FAILOVER
is logged and what is unacknowledged goes before the other link's own traffic, sent with its next SEQ where the link is UP and holds the credits. A far link's unacknowledged frames are resent with their SEQ on another far link in UP. An edge
die without its reference clock holds its six links in DOWN. -/
def Obligations.LinkControl : Prop :=
  ∀ (s : State),
    let trains (v : Bool) (k : Nat) : Prop := v = true ∧ (s.link k).media ≠ 3 ∧ (k < 18 ∨ (s.link k).encap ≠ 3)
      ∧ s.edgeOut (linkEdge k) = false
    (∀ v : W32,
        ((∃ k < 24, (s.link k).phase ≠ .down) → ∃ m : State, exec (.lnkRankWrite v) s = .next m ∧ m.links = s.links
            ∧ LinksOnly s m ∧ Logged s m Codes.badRegAccess 0xFFFF)
        ∧ ((∀ k < 24, (s.link k).phase = .down) → ∃ m : State, exec (.lnkRankWrite v) s = .next m ∧ LinksOnly s m
            ∧ m.links.rankValid = v.getLsbD 31 ∧ m.links.twin = v.getLsbD 14 ∧ m.links.rrc = v.toNat / 4 % 4096
            ∧ ∀ k < 24, ((s.link k).enable = true → trains (v.getLsbD 31) k → (m.link k).phase = .detect)
                ∧ (¬((s.link k).enable = true ∧ trains (v.getLsbD 31) k) → (m.link k).phase = .down)))
    ∧ (∀ q : Edge, ∃ m : State, exec (.linkReferenceClockLoss q) s = .next m ∧ LinksOnly s m ∧ q.val ∈ m.boot.noClock
        ∧ ∀ k < 24, (linkEdge k = q.val → (m.link k).phase = .down) ∧ (linkEdge k ≠ q.val → m.link k = s.link k))
    ∧ ∀ l : Link,
        let x := s.link l
        let o := otherLink l
        let y := s.link o
        let off := exec (.linkEnable l false) s
        let down (m : State) : Prop := (m.link l).phase = .disabled ∧ (m.link l).enable = false ∧ LinksOnly s m
        (x.phase = .down → trains s.links.rankValid l → ∃ m, exec (.linkEnable l true) s = .next m
            ∧ LinkTo s l { x with enable := true, phase := .detect, retryDue := false } m)
        ∧ (x.phase = .down → s.links.rankValid = false → ∃ m, exec (.linkEnable l true) s = .next m
            ∧ LinkTo s l { x with enable := true, error := 3 } m ∧ Logged s m Codes.linkRankUnset l)
        ∧ (x.phase = .disabled → trains s.links.rankValid l → ∃ m : State, exec (.linkEnable l true) s = .next m
            ∧ (m.link l).phase = .detect ∧ (m.link l).enable = true ∧ (m.link l).replay = [] ∧ LinksOnly s m)
        ∧ (l.val < 18 → x.phase ≠ .disabled → y.phase = .disabled → ∃ m : State, off = .next m ∧ down m ∧ m.outbox = s.outbox
            ∧ Logged s m Codes.linkPeerLost l ∧ (m.link l).txq = [] ∧ (m.link o).txq = [] ∧ (m.link l).replay = [])
        ∧ (l.val < 18 → x.phase ≠ .disabled → y.phase ≠ .disabled → ∃ m : State, off = .next m ∧ down m
            ∧ Logged s m Codes.linkFailover l
            ∧ (y.phase ≠ .up → (m.link o).txq = x.replay.map (fun i => (i.vc, i.tx)) ++ y.txq ++ x.txq ∧ m.outbox = s.outbox)
            ∧ ∀ vc n tx f, y.phase = .up → y.version = 2 → y.txq = [] → x.txq = [] → x.replay = [⟨vc, f, n, tx⟩] →
                ceilDiv (16 + tx.data.length) 240 ≤ y.credits.getD vc 0 →
                (y.replay.map (·.count)).sum + ceilDiv (16 + tx.data.length) 240 ≤ 2048 →
                m.outbox = s.outbox ++ [.near o ((y.txSeq + 1) % 4096) tx])
        ∧ (18 ≤ l.val → x.phase ≠ .disabled → ∃ m : State, off = .next m ∧ down m
            ∧ ∀ (u : Link), 18 ≤ u.val → u ≠ l → (s.link u).phase = .up →
                (∀ k : Link, 18 ≤ k.val → k < u → k ≠ l → (s.link k).phase ≠ .up) →
                ∀ p i, i ∈ (s.sess p).unacked → .far u i.seq i.tx ∈ m.outbox)

/-- On a near link in UP a bad flit (uncorrected, of a wrong CRC, KIND 3 or nonzero RSVD) or one out of SEQ order is discarded, and NAK goes out once with the ACK. A good flit acknowledges every
flit up to its ACK, which the replay buffer drops, and returns its credits up to the receive buffer's size; with NAK set every unacknowledged flit is resent from the oldest, as it is
when ACK does not advance in time. The next data flit advances SEQ and owes a credit; a WRITE to this module that it holds whole and that passes the filter of its partition tag is stored, and no other byte
changes. A WRITE received otherwise is stored the same way; one that does not pass is discarded and counted, LINK_FILTERED logged once per 2^20; one for another rank of the rack goes on to the pair of links towards it. -/
def Obligations.LinkTraffic : Prop :=
  ∀ (s : State) (l : Link), l.val < 18 → (s.link l).phase = .up →
    let x := s.link l
    let naks (m : State) : Prop := if x.naked = true then m = s
      else LinkTo s l { x with naked := true } m ∧ m.outbox = s.outbox ++ [.nak l x.rxSeq]
    let passes (h : TxHeader) (n : Nat) : Prop := h.type = 1 ∧ h.dst.toNat = s.rank ∧ h.tag ≠ 0
      ∧ (∃ f, s.tagFunc h.tag.toNat = some f ∧ s.checkRange (.func f) h.addr.toNat n = none) ∧ s.absentPages h.addr.toNat n = []
    let stored (h : TxHeader) (data : List Byte) (m : State) : Prop :=
      m.readMem h.addr.toNat data.length = data ∧ m.tiles = s.tiles
        ∧ ∀ a n, a + n ≤ h.addr.toNat ∨ h.addr.toNat + data.length ≤ a → m.readMem a n = s.readMem a n
    let sent := x.replay.map (fun i => OutMsg.near l i.first i.tx)
    (x.replay ≠ [] → ∃ m, exec (.replayTimeout l) s = .next m ∧ m.outbox = s.outbox ++ sent
        ∧ LinkTo s l { x with replays := min 65535 (x.replays + 1), futile := x.futile + 1 } m)
    ∧ (∀ (bad : Bool) (bs : List Byte),
        let w := leNat (bs.take 8)
        let seq := w / 2 ^ 52 % 4096
        let ack := w / 2 ^ 40 % 4096
        let nak := w / 2 ^ 39 % 2 = 1
        let kind := w / 2 ^ 37 % 4
        let vc := w / 2 ^ 35 % 4
        let cvc := w / 2 ^ 33 % 4
        let cred := w / 2 ^ 22 % 2048
        let good := bad = false ∧ bs.length = 256 ∧ leNat (bs.drop 248) = (crc64 (bs.take 248)).toNat ∧ kind ≠ 3 ∧ w % 2 ^ 22 = 0
        let acked := (ack + 4096 - x.acked) % 4096
        let total (y : LinkSt) : Nat := (y.replay.map (·.count)).sum
        let payload := (bs.drop 8).take 240
        let h := txHeaderOf payload
        let next := seq = (x.rxSeq + 1) % 4096
        let e : Instr := .nearFlitReceive l bad bs
        let returned (y : LinkSt) : Prop :=
          y.credits = x.credits.set cvc (min ([64, 1024, 1024, 64].getD cvc 0) (x.credits.getD cvc 0 + cred))
            ∧ (acked = 0 → y.acked = x.acked ∧ y.replay = x.replay)
            ∧ (0 < acked → acked ≤ total x → y.acked = ack ∧ total y = total x - acked)
        (¬good → ∃ m : State, exec e s = .next m ∧ naks m)
        ∧ (good → x.txq = [] → (kind ≠ 1 ∨ ¬next) → ∃ m : State, exec e s = .next m ∧ returned (m.link l)
            ∧ (kind = 0 → seq = x.rxSeq → ¬nak → (m.link l).rxSeq = x.rxSeq ∧ m.mem = s.mem ∧ m.outbox = s.outbox)
            ∧ (kind ≠ 0 → next → (m.link l).rxSeq = seq ∧ (m.link l).naked = false ∧ m.mem = s.mem)
            ∧ ((if kind = 0 then seq ≠ x.rxSeq else ¬next) → x.naked = false → (m.link l).rxSeq = x.rxSeq ∧ m.mem = s.mem
                ∧ (m.link l).naked = true ∧ .nak l x.rxSeq ∈ m.outbox)
            ∧ (nak → acked = 0 → ∀ o ∈ sent, o ∈ m.outbox))
        ∧ (good → x.txq = [] → kind = 1 → next → x.asm.get [] vc = [] → h.len.toNat ≤ 224 → passes h h.len.toNat →
            (∀ b ∈ payload.drop (16 + h.len.toNat), b = 0) →
            ∃ m : State, exec e s = .next m ∧ returned (m.link l) ∧ stored h ((payload.drop 16).take h.len.toNat) m
              ∧ (m.link l).rxSeq = seq ∧ (m.link l).naked = false ∧ (m.link l).owed = x.owed.set vc (x.owed.getD vc 0 + 1)
              ∧ (nak → acked = 0 → ∀ o ∈ sent, o ∈ m.outbox)))
    ∧ ∀ (h : TxHeader) (data : List Byte), data.length = h.len.toNat → h.type = 1 →
        (passes h data.length → ∃ m : State, exec (.linkWriteReceive l h data) s = .next m ∧ m.links = s.links ∧ stored h data m)
        ∧ (h.dst.toNat = s.rank → (h.tag = 0 ∨ s.tagFunc h.tag.toNat = none
              ∨ ∃ f e, s.tagFunc h.tag.toNat = some f ∧ s.checkRange (.func f) h.addr.toNat data.length = some e) →
            ∃ m, exec (.linkWriteReceive l h data) s = .next m ∧ LinkTo s l { x with filtered := x.filtered + 1 } m
              ∧ ((x.filtered + 1) % 2 ^ 20 = 0 → Logged s m Codes.linkFiltered l))
        ∧ ∀ b, h.dst.toNat ≠ s.rank → pairOf s.rank h.dst.toNat = some b →
            let k := b + (s.link b).odd.toNat
            let n := ceilDiv (16 + data.length) 240
            (s.link k).phase = .up → (s.link k).txq = [] → n ≤ (s.link k).credits.getD 2 0 →
            ((s.link k).replay.map (·.count)).sum + n ≤ 2048 →
            ∃ m : State, exec (.linkWriteReceive l h data) s = .next m ∧ m.mem = s.mem
              ∧ m.outbox = s.outbox ++ [.near k (((s.link k).txSeq + 1) % 4096)
                  { type := 1, chan := h.chan.toNat, src := h.src.toNat, dst := h.dst.toNat, tag := h.tag.toNat,
                    addr := h.addr.toNat, kind := 0, nums := [], data := data }]

/-- A far frame that no session takes (tag, identifier, rank), is discarded and counted, LINK_PLAINTEXT logged once per 2^20; one that is taken acknowledges the frames up to its ACK; a duplicate or
one outside the window of 4,096 delivers nothing; the next in order is delivered. A frame unacknowledged for RTO is resent with its SEQ; after 16 resends the session is lost, LINK_SESSION_LOST is logged and a HELLO goes out. HELLO is
answered with REPLY and FINISH at the highest common version, but for one from a higher rank that crosses this module's own; a REPLY is answered with FINISH. A FINISH whose checks pass establishes a session with SEQ from 0, or the new keys of one that rekeys; a check that
fails, no common version, or the time running out establishes nothing and LINK_AUTH is logged, and another attempt sends HELLO again, as a rekey does. -/
def Obligations.FarSessions : Prop :=
  ∀ (s : State) (p : BitVec 15),
    let x := s.sess p.toNat
    let only (m : State) : Prop := LinksOnly s m ∧ m.links.links = s.links.links ∧ ∀ q, q ≠ p.toNat → m.sess q = s.sess q
    let failed (m : State) : Prop := m.sess p.toNat = { x with hs := .failed } ∧ only m ∧ Logged s m Codes.linkAuth 0xFFFF
    let greets (m : State) (r : Bool) : Prop := m.outbox = s.outbox ++ [.handshake p.toNat 1] ∧ only m
      ∧ m.sess p.toNat = { x with hs := .helloSent, initiator := true, rekey := r }
    (∀ (l : Link) (f : FarFrame), f.src = p → 18 ≤ l.val → (s.link l).phase = .up →
        let taken := f.authentic = true ∧ x.up = true ∧ f.session = x.id ∧ f.dst.toNat = s.rank ∧ f.newKeys = false
        let e : Instr := .farFrameReceive l f
        ((f.authentic = false ∨ x.up = false ∨ f.session ≠ x.id ∨ f.dst.toNat ≠ s.rank) → ∃ m, exec e s = .next m
            ∧ LinkTo s l { s.link l with authFail := (s.link l).authFail + 1 } m ∧ m.links.sess = s.links.sess
            ∧ (((s.link l).authFail + 1) % 2 ^ 20 = 0 → Logged s m Codes.linkPlaintext l))
        ∧ (taken → x.txq = [] → x.held = [] → x.txNew = false →
            ∃ m : State, exec e s = .next m
              ∧ ((f.seq < x.rxNext ∨ x.rxNext + 4096 ≤ f.seq) → only m ∧ m.outbox = s.outbox
                  ∧ m.sess p.toNat = { x with unacked := x.unacked.filter (fun i => decide (f.ack < i.seq)), rxFrames := x.rxFrames + 1 })
              ∧ (x.rxNext < f.seq → f.seq < x.rxNext + 4096 → only m ∧ (m.sess p.toNat).held = [(f.seq, f.payload)]
                  ∧ (m.sess p.toNat).rxNext = x.rxNext)
              ∧ ∀ h : TxHeader, f.seq = x.rxNext → txHeaderOf f.payload = h → f.payload.length = 16 + h.len.toNat → h.type = 1 →
                  h.dst.toNat = s.rank → h.tag ≠ 0 → (∃ g, s.tagFunc h.tag.toNat = some g
                    ∧ s.checkRange (.func g) h.addr.toNat h.len.toNat = none) → s.absentPages h.addr.toNat h.len.toNat = [] →
                  (m.sess p.toNat).rxNext = x.rxNext + 1 ∧ m.tiles = s.tiles
                    ∧ m.readMem h.addr.toNat h.len.toNat = f.payload.drop 16))
    ∧ (∀ seq i, x.unacked.find? (fun i => i.seq == seq) = some i →
        (i.resends < 16 → ∀ u : Link, s.farLink = some u.val → ∃ m : State, exec (.farResendTimeout p seq) s = .next m ∧ only m
            ∧ m.outbox = s.outbox ++ [.far u seq i.tx]
            ∧ (m.sess p.toNat).unacked = x.unacked.map (fun (j : FarItem) => if j.seq = seq then { j with resends := j.resends + 1 } else j))
        ∧ (16 ≤ i.resends → ∃ m : State, exec (.farResendTimeout p seq) s = .next m ∧ only m ∧ (m.sess p.toNat).up = false
            ∧ (m.sess p.toNat).unacked = [] ∧ (m.sess p.toNat).hs = .helloSent ∧ Logged s m Codes.linkSessionLost 0xFFFF
            ∧ m.outbox = s.outbox ++ [.handshake p.toNat 1]))
    ∧ (∀ v : BitVec 4, ∃ m : State, exec (.hello p v) s = .next m
        ∧ (x.hs = .helloSent → s.rank < p.toNat → m = s)
        ∧ (¬(x.hs = .helloSent ∧ s.rank < p.toNat) → v.getLsbD 1 = false → v.getLsbD 2 = false → failed m)
        ∧ (¬(x.hs = .helloSent ∧ s.rank < p.toNat) → (v.getLsbD 1 = true ∨ v.getLsbD 2 = true) → only m
            ∧ m.sess p.toNat = { x with hs := .finishing, initiator := false, rekey := x.up, version := if v.getLsbD 2 = true then 2 else 1 }
            ∧ m.outbox = s.outbox ++ [.handshake p.toNat 2, .handshake p.toNat 3]))
    ∧ (x.hs = .helloSent → ∀ v, ∃ m : State, exec (.reply p v) s = .next m ∧ ((v ≠ 1 ∧ v ≠ 2) → failed m)
        ∧ ((v = 1 ∨ v = 2) → only m ∧ m.sess p.toNat = { x with hs := .finishing, version := v }
            ∧ m.outbox = s.outbox ++ [.handshake p.toNat 3]))
    ∧ (x.hs = .finishing → ∀ c : FinishMsg,
        let ok := c.edSig = true ∧ c.mlSig = true ∧ c.chainRoot = true ∧ c.inList = true ∧ s.sec.chainOk.all id = true
        ∃ m : State, exec (.finish p c) s = .next m ∧ (¬ok → failed m)
          ∧ (ok → x.rekey = true → x.up = true → only m
              ∧ m.sess p.toNat = { x with hs := .idle, rekey := false, newKeys := true, txNew := true })
          ∧ (ok → ¬(x.rekey = true ∧ x.up = true) → x.txq = [] → (∀ q, q ≠ p.toNat → (s.sess q).txq = []) →
              (m.sess p.toNat).up = true ∧ (m.sess p.toNat).hs = .idle ∧ (m.sess p.toNat).txSeq = 0 ∧ (m.sess p.toNat).rxNext = 0
              ∧ (m.sess p.toNat).version = x.version ∧ LinksOnly s m
              ∧ ∀ u : Link, 18 ≤ u.val → (s.link u).phase = .negotiate → (m.link u).phase = .up))
    ∧ ((x.hs = .helloSent ∨ x.hs = .finishing) → ∃ m, exec (.handshakeTimeout p) s = .next m ∧ failed m)
    ∧ (x.hs = .failed → ∃ m, exec (.handshakeRetry p) s = .next m ∧ greets m x.up)
    ∧ (x.up = true → x.hs = .idle → ∃ m, exec (.rekey p) s = .next m ∧ greets m true)

/-- On an idle channel of a job, a post that the checks of R365 pass makes the collective of its descriptor the channel's, with its SEQ the last posted; a module with a tray decider above it has then sent its POST, one with none above waits. A post that fails a check of
the descriptor ends with COL_DESC, and one whose links fail with COL_PATH: on a module alone, the collective is gone, aborted, and its job faults with the code. A DIGEST outside twin mode closes the step digest, the hash of the step's bucket digests in ascending channel and
sequence, counts the step, drops the buckets and completes. No tile and no other channel changes, nor memory unless the post fails. -/
def Obligations.ColPost : Prop :=
  ∀ (s : State) (c : Chan), (s.chan c).run = none → (s.chan c).queue = [] → s.boot.queue = [] →
    let y := s.chan c
    let others (m : State) : Prop := m.tiles = s.tiles ∧ ∀ d : Chan, d ≠ c → m.chan d = s.chan d
    ∀ (j : Nat) (addr : BitVec 48) (jb : JobSt), s.job j = some jb → jb.mayPost = true → y.job = j → j ≠ 0 →
      let d := colDescOf (s.readMem addr.toNat 128)
      let ms := s.colMembers d
      d.chan = c.val → (∀ q ∈ y.inbox, q.1 ≠ d.seq) →
      let ok := s.colDescBad y j jb d ms = false ∧ s.colPathBad ms = false
      let run (m : State) (x : ColRun) : Prop :=
        m.chan c = { y with run := some x, aborted := false, posted := d.seq } ∧ others m ∧ m.mem = s.mem ∧ m.sched = s.sched
      let posts (e : Instr) : Prop :=
        (ok → ms.head? = some s.me → ∃ m, exec e s = .next m ∧ run m (ColRun.start j d ms))
        ∧ (ok → postTrick ms s.me = some 1 → ∃ m, exec e s = .next m ∧ run m { ColRun.start j d ms with posted := true })
        ∧ ∀ bad : Code, (bad = Codes.colDesc ∧ s.colDescBad y j jb d ms = true
            ∨ bad = Codes.colPath ∧ s.colDescBad y j jb d ms = false ∧ s.colPathBad ms = true) →
          (∀ q ∈ ms, q = s.me) →
          ∃ m : State, exec e s = .next m ∧ (m.chan c).run = none ∧ (m.chan c).aborted = true ∧ others m
            ∧ ∃ z, m.job j = some z ∧ z.fault = some bad
      (d.op = 1 → posts (.allReduce j addr)) ∧ (d.op = 2 → posts (.broadcast j addr)) ∧ (d.op = 3 → posts (.allGather j addr))
      ∧ (d.op = 4 → posts (.shuffle j addr)) ∧ (d.op = 5 → posts (.collectiveBarrier j addr))
      ∧ (d.op = 6 → ok → jb.desc.twin = false → ms = [s.me] → d.incl = 0 →
          ∃ m : State, exec (.digest j addr) s = .next m ∧ (m.chan c).run = none ∧ (m.chan c).posted = d.seq ∧ (m.chan c).done = d.seq
            ∧ others m ∧ m.mem = s.mem ∧ m.col.step = s.col.steps.get 0 j + 1 ∧ m.col.steps.get 0 j = s.col.steps.get 0 j + 1
            ∧ (∀ b ∈ m.col.buckets, b.job ≠ j)
            ∧ ∀ bs : List Bucket, bs.Perm (s.col.buckets.filter (fun b => b.job == j)) →
                bs.Pairwise (fun a b => a.chan * 2 ^ 64 + a.seq < b.chan * 2 ^ 64 + b.seq) →
                m.col.digest = sha3 (bs.flatMap (·.h)))

/-- A contribution marked ready puts the collective into its running phase, and the conductor holds back the job's records. Where the job is on one module, the end of the package trick leaves at DST, for each element, the sum of the parts in order (BF16 parts exact in FP32, each addition rounded once; INT32
wrapping), divided by DIV with AVG since one module is included, and converted to OUT_FMT with round to nearest even; the inclusion record, if there is one, counts one module; the collective is complete, its SEQ the channel's last completed one, and the job's records go on when no other
channel of the module runs a collective. Nothing else of memory changes but SCRATCH, and no tile. -/
def Obligations.ColPackage : Prop :=
  ∀ (s : State) (c : Chan) (x : ColRun), (s.chan c).run = some x → (s.chan c).queue = [] →
    (∀ q ∈ (s.chan c).inbox, q.1 ≠ x.desc.seq) → s.me ∈ x.members →
    let y := s.chan c
    let d := x.desc
    let fresh := x = { ColRun.start x.job d x.members with posted := x.posted, phase := x.phase }
    let others (m : State) : Prop := m.tiles = s.tiles ∧ ∀ e : Chan, e ≠ c → m.chan e = s.chan e
    (fresh → x.phase = .posted → (x.posted = true ∨ x.members.head? = some s.me) → (d.op ≤ 2 → 0 < d.count) → 1 ≤ d.op ∧ d.op ≤ 5 →
        ∃ m : State, exec (.contributionReady c) s = .next m ∧ m.chan c = { y with run := some { x with phase := .running } } ∧ others m
          ∧ m.mem = s.mem ∧ ∀ jb, s.job x.job = some jb → m.job x.job = some { jb with heldBack := true })
    ∧ (fresh → x.phase = .running → x.members = [s.me] → d.op = 1 → 0 < d.parts →
        let size (f : Nat) : Nat := if f = 1 then 2 else 4
        let ib := size d.inFmt
        let ob := size d.outFmt
        let part (i e : Nat) : W32 :=
          let w := s.readLe (d.src + i * d.stride + e * ib) ib
          if d.inFmt = 5 then BitVec.ofNat 32 w else to32 (decodeElem d.inFmt w 127)
        let add (a b : W32) : W32 := if d.inFmt = 5 then a + b else fadd a b
        let sum (e : Nat) : W32 := ((List.range (d.parts - 1)).map (fun i => part (i + 1) e)).foldl add (part 0 e)
        let mean (e : Nat) : W32 := if d.flags / 2 % 2 = 1 then colDiv (sum e) d.div else sum e
        let result (e : Nat) : Nat := if d.outFmt = 5 then (mean e).toNat else encodeElem d.outFmt .rne (val32 (mean e))
        let apart (a n b k : Nat) : Prop := a + n ≤ b ∨ b + k ≤ a
        let inclLen := if d.incl = 0 then 0 else 2080
        apart d.dst (d.count * ob) d.incl inclLen →
        ∃ m : State, exec (.packageTrickComplete c) s = .next m ∧ others m ∧ (m.chan c).run = none ∧ (m.chan c).done = d.seq
          ∧ m.readMem d.dst (d.count * ob) = (List.range d.count).flatMap (fun e => natLe ob (result e))
          ∧ (d.incl ≠ 0 → m.readLe (d.incl + 4) 4 = 1 ∧ m.readLe (d.incl + 8) 8 = d.seq % 2 ^ 64)
          ∧ (∀ a n, apart a n d.dst (d.count * ob) → apart a n d.scratch (8 * d.count) → apart a n d.incl inclLen →
              m.readMem a n = s.readMem a n)
          ∧ ((∀ q ∈ s.col.chans, q.1 ≠ c.val → q.2.run = none) → ∀ jb, s.job x.job = some jb →
              m.job x.job = some { jb with heldBack := false }))

/-- On a member of a collective that has sent its POST, whose contribution has not passed the package trick: a POST with the member's own header marks its sender's unit as posted at the decider; READY of a unit that has posted, and the completion of a root before a trick, are noted while another
unit is not ready; GO is noted; the twin's set is noted; a chunk of a contribution to an ALL_REDUCE, next of its sender, is held by element, and only SCRATCH changes; a finished chunk goes to DST at its element; Shuffle data for this module go to the source's slot of DST, and the first of a
source writes what is received and what was discarded in the count table. A COMPLETE is kept as its peer's latest. Data must pass the filter of the port. No tile, job or other channel changes, nor memory but as said. -/
def Obligations.ColMessages : Prop :=
  ∀ (s : State) (c : Chan) (x : ColRun), (s.chan c).run = some x → (s.chan c).queue = [] → s.me ∈ x.members →
    (∀ q ∈ (s.chan c).inbox, q.1 ≠ x.desc.seq) →
    x = { ColRun.start x.job x.desc x.members with posted := true, phase := x.phase, posts := x.posts } → x.phase ≠ .stopped →
    1 ≤ x.desc.op ∧ x.desc.op ≤ 5 → (x.desc.op ≤ 2 → 0 < x.desc.count) →
    let y := s.chan c
    let d := x.desc
    let ms := x.members
    let becomes (z : ColRun) (m : State) : Prop :=
      m.chan c = { y with run := some z } ∧ m.tiles = s.tiles ∧ m.sched = s.sched ∧ ∀ e : Chan, e ≠ c → m.chan e = s.chan e
    let notes (e : Instr) (z : ColRun) : Prop := ∃ m, exec e s = .next m ∧ becomes z m ∧ m.mem = s.mem
    let passes (tag : BitVec 13) : Prop := tag ≠ 0 ∧ y.job ≠ 0 ∧ s.tagFunc tag.toNat = some (s.jobFunc y.job)
    (∀ (q : BitVec 14) (k : Nat), q.toNat ∈ ms → postTrick ms q.toNat = some k → deciderOf ms k q.toNat = s.me → fieldLe d.header 8 8 = d.seq →
        (k, unitOf ms k q.toNat) ∉ x.posts →
        notes (.post c q d.header) { x with posts := x.posts ++ [(k, unitOf ms k q.toNat)] })
    ∧ (∀ (k : Trick) (u : BitVec 14) (n : Nat) (rs : List Nat),
        let t := trickNo k
        (t ∈ tricksOf ms s.me → deciderOf ms t s.me = s.me → u.toNat ∈ unitsOf ms t s.me →
          (u.toNat = unitOf ms t s.me ∨ (t, u.toNat) ∈ x.posts) → (∃ v ∈ unitsOf ms t s.me, v ≠ u.toNat) →
          notes (.ready c d.seq k false u n rs) { x with readies := [(t, ⟨u.toNat, n, rs⟩)] })
        ∧ notes (.ready c d.seq k true u n rs) { x with rootReady := [(t, u.toNat)] })
    ∧ (∀ (k : Trick) (us : List Nat) (n : Nat) (rs : List Nat),
        let t := trickNo k
        (t ∈ tricksOf ms s.me →
          ((tricksOf ms s.me).head? = some t → unitOf ms t s.me ∈ us ∧ d.op ≤ 3 ∧ (d.op = 2 → unitOf ms t s.me = unitOf ms t d.root)) →
          notes (.go c d.seq k us n rs) { x with gos := [(t, ⟨us, n, rs⟩)] })
        ∧ notes (.twinSetExchange c d.seq k us) { x with twins := [(t, us)] })
    ∧ (∀ (k : Trick) (q : BitVec 14) (off n : Nat) (tag : BitVec 13) (data : List Byte), passes tag → d.op = 1 → q.toNat ≠ s.me →
        let t := trickNo k
        let value (w i : Nat) : Nat := fieldLe data (w * i) w
        let ob := if d.outFmt = 1 then 2 else 4
        q.toNat ∈ groupOf ms t s.me → 0 < n →
        (let w := segAt ms s.me d.count t s.me
         off = w.1 → off + n ≤ w.2 → data.length = 4 * n → n ≤ 1024 →
          ∃ (m : State) (z : ColRun), exec (.potChunk c k false q d.seq off tag data) s = .next m ∧ becomes z m
            ∧ z = { x with got := z.got, arr := z.arr } ∧ z.got.get 0 (gotKey t false q.toNat) = n
            ∧ (∀ i, i < n → (z.arr.get 0 (arrKey t q.toNat (off + i))).toNat = value 4 i)
            ∧ ∀ a l, a + l ≤ d.scratch ∨ d.scratch + 8 * d.count ≤ a → m.readMem a l = s.readMem a l)
        ∧ (let w := segAt ms s.me d.count t q.toNat
           off = w.1 → off + n ≤ w.2 → data.length = ob * n → ob * n ≤ 4096 → n < d.count →
            ∃ (m : State) (z : ColRun), exec (.potChunk c k true q d.seq off tag data) s = .next m ∧ becomes z m
              ∧ z = { x with got := z.got, placed := n } ∧ z.got.get 0 (gotKey t true q.toNat) = n
              ∧ m.readMem (d.dst + off * ob) (ob * n) = data
              ∧ ∀ a l, a + l ≤ d.dst + off * ob ∨ d.dst + off * ob + ob * n ≤ a → m.readMem a l = s.readMem a l))
    ∧ (∀ (src dst : BitVec 14) (n sent : Nat) (tag : BitVec 13) (data : List Byte), passes tag → d.op = 4 → d.outFmt = d.inFmt →
        dst.toNat = s.me → src.toNat ∈ ms → 0 < n → n ≤ d.count → sent < 2 ^ 32 →
        let e := if d.inFmt = 1 then 2 else 4
        let i := ms.idxOf src.toNat
        let slot := d.dst + i * d.count * e
        let row := d.aux + 16 * i + 8
        data.length = e * n → e * n ≤ 4096 → slot + e * n ≤ row ∨ row + 8 ≤ slot →
        ∃ (m : State) (z : ColRun), exec (.shuffleData c src dst d.seq 0 sent tag data) s = .next m ∧ becomes z m
          ∧ z = { x with got := z.got, placed := n } ∧ m.readMem slot (e * n) = data
          ∧ m.readLe row 4 = min sent d.count ∧ m.readLe (row + 4) 4 = sent - d.count
          ∧ ∀ a l, a + l ≤ slot ∨ slot + e * n ≤ a → a + l ≤ row ∨ row + 8 ≤ a → m.readMem a l = s.readMem a l)
    ∧ ∀ (p : BitVec 14) (seq : Nat), y.job ≠ 0 → y.hold = [] →
        ∃ m, exec (.complete c p seq) s = .next m ∧ m.mem = s.mem ∧ m.tiles = s.tiles ∧ (∀ e : Chan, e ≠ c → m.chan e = s.chan e)
          ∧ m.chan c = { y with peers := (m.chan c).peers, hold := [] } ∧ (m.chan c).peers.get 0 p.toNat = max seq (y.peers.get 0 p.toNat)

/-- An abort condition on a module with a decider above it stops the collective there; on the top decider it ends it. A POST with another header is MISDEAL; ABORT carries its code; the deadline of a trick that a decider has a READY at, and no set, is COL_TIMEOUT unless a tolerant collective's members have all posted, then COL_QUORUM outside
twin mode if its ready units are too few, and TWIN_LOST where it has fixed its set; no progress after GO is COL_TIMEOUT. FINAL_ABORT ends it on any member with its code, and the lack of one with COL_ROOT_LOST. A collective that ends is gone, marked aborted, the job faults with the code unless it has faulted, and COL.ERROR holds the first one. In
twin mode, on a job's only module, a record equal to the module's own digest completes the DIGEST; another one completes it and the job faults with TWIN_DIVERGED. No tile and no other channel changes. -/
def Obligations.ColAborts : Prop :=
  ∀ (s : State) (c : Chan) (x : ColRun), (s.chan c).run = some x → (s.chan c).queue = [] →
    (∀ q ∈ (s.chan c).inbox, q.1 ≠ x.desc.seq) →
    let y := s.chan c
    let d := x.desc
    let ms := x.members
    let others (m : State) : Prop := m.tiles = s.tiles ∧ ∀ e : Chan, e ≠ c → m.chan e = s.chan e
    let faults (m : State) (code : Code) : Prop := ∀ jb, s.job x.job = some jb → ∃ z, m.job x.job = some z ∧ z.fault = some (jb.fault.getD code)
    let ended (m : State) (code : Code) : Prop :=
      (m.chan c).run = none ∧ (m.chan c).aborted = true ∧ (m.chan c).done = y.done ∧ others m ∧ faults m code
    let errorHolds (m : State) (code : Code) : Prop :=
      if s.col.errValid then m.col.errCode = s.col.errCode ∧ m.col.errSeq = s.col.errSeq
      else m.col.errValid = true ∧ m.col.errCode = code ∧ m.col.errChan = c.val ∧ m.col.errSeq = d.seq % 2 ^ 32
    let ends (e : Instr) (code : Code) : Prop := ∃ m, exec e s = .next m ∧ ended m code ∧ errorHolds m code
    let aborts (e : Instr) (code : Code) : Prop :=
      (nextDecider ms s.me = none → ends e code)
      ∧ (nextDecider ms s.me ≠ none → ∃ m, exec e s = .next m ∧ m.chan c = { y with run := some { x with phase := .stopped } }
          ∧ others m ∧ m.mem = s.mem ∧ m.sched = s.sched)
    (x.phase ≠ .stopped →
      (∀ (q : BitVec 14) (k : Nat) (h : List Byte), q.toNat ∈ ms → postTrick ms q.toNat = some k → deciderOf ms k q.toNat = s.me →
          fieldLe h 8 8 = d.seq → h ≠ d.header → aborts (.post c q h) Codes.misdeal)
      ∧ (∀ code, aborts (.abort c d.seq code) code)
      ∧ (x.gos ≠ [] → aborts (.colStallExpiry c) Codes.colTimeout)
      ∧ ∀ k : Trick,
          let t := trickNo k
          let units := x.readies.filter (fun q => q.1 == t)
          let present := (unitsOf ms t s.me).filter (fun u => units.any (fun q => q.2.unit == u))
          0 < t → d.deadline.getD (t - 1) 0 ≠ 0 → d.op ≠ 6 → deciderOf ms t s.me = s.me → units ≠ [] → t ∉ x.goSent →
          (t ∈ x.fixed.map (·.1) → aborts (.deadlineExpiry c k) Codes.twinLost)
          ∧ (t ∉ x.fixed.map (·.1) → d.tolerant = false ∨ x.allPosted s.me t = false → aborts (.deadlineExpiry c k) Codes.colTimeout)
          ∧ (t ∉ x.fixed.map (·.1) → d.tolerant = true → x.allPosted s.me t = true → s.jobTwin x.job = false → nextDecider ms s.me = none →
              present.length * 64 < d.quorum * (unitsOf ms t s.me).length → ends (.deadlineExpiry c k) Codes.colQuorum))
    ∧ (∀ code, ends (.finalAbort c d.seq code) code)
    ∧ (x.phase = .stopped → ∃ m, exec (.colStallExpiry c) s = .next m ∧ ended m Codes.colRootLost)
    ∧ ∀ (step : Nat) (dig : BitVec 256),
        x = { ColRun.start x.job d ms with phase := .running } → ms = [s.me] → d.op = 6 → d.incl = 0 → s.jobTwin x.job = true →
        ∃ m, exec (.digestRecord c d.seq step dig) s = .next m ∧ (m.chan c).run = none ∧ (m.chan c).aborted = y.aborted ∧ (m.chan c).done = d.seq ∧ others m ∧ m.mem = s.mem
          ∧ m.col.steps.get 0 x.job = s.col.steps.get 0 x.job + 1
          ∧ (if step = s.col.step ∧ natLe 32 dig.toNat = s.col.digest then ∀ jb, s.job x.job = some jb → ∃ z, m.job x.job = some z ∧ z.fault = jb.fault
             else faults m Codes.twinDiverged)

/-- A request with a target that exists, from the physical function or the board, enters a queue with room under the next ticket, and the acknowledgement of its interface gives the ticket and 1 plus the requests before it that have not started; with no such target it is refused with status 2 and
BAD_REG_ACCESS, on a full queue with status 1 and TEST_QUEUE_FULL, and from elsewhere with BAD_REG_ACCESS. A cancellation removes the request of its ticket, and abandons it if it runs. A scan starts a lone waiting request whose target is idle, and no other. A failed tile self-test leaves the tile's memories
zero, holds the die out with BIST_FAIL and logs TEST_FAILED; one that passes while no job waits for tiles clears the die's bit and logs TEST_DONE; a stack's margin sweep ends as its channels met the limits; a retrain as its link is UP; a sweep of a link leaves the link UP with the lanes' margins. -/
def Obligations.RequestedTests : Prop :=
  ∀ s : State,
    let board (w : Iface) : Bool := decide (w = .board)
    let may (w : Iface) : Prop := w = .board ∨ w = .host 0
    let ackOf (w : Iface) (m : State) : ReqAck := if board w then m.boot.ackBoard else m.boot.ackHost
    let same (m : State) : Prop := m.dealers = s.dealers ∧ m.sched = s.sched ∧ m.col = s.col ∧ m.power = s.power
    let rest (m : State) : Prop := m.tiles = s.tiles ∧ m.mem = s.mem ∧ m.links = s.links ∧ same m
    let quiet : Prop := ∀ c : Chan, (s.chan c).run = none ∧ (s.chan c).queue = []
    let queue := s.boot.queue
    let asks (e : Iface → BitVec 8 → Instr) (op limit : Nat) : Prop := ∀ (w : Iface) (t : BitVec 8),
      let refused (status : Nat) (code : Code) : Prop := ∃ m, exec (e w t) s = .next m ∧ m.boot.queue = queue
        ∧ ackOf w m = ⟨true, (ackOf w s).ticket, 0, status⟩ ∧ Logged s m code 0xFFFF ∧ rest m
      (may w → t.toNat < limit → queue.length < 64 → (∀ q ∈ queue, q.ticket ≠ s.boot.ticket) →
        ∃ m, exec (e w t) s = .next m ∧ m.boot.queue = queue ++ [⟨s.boot.ticket, op, t.toNat, board w, false⟩]
          ∧ m.boot.ticket = (s.boot.ticket + 1) % 256 ∧ m.logs = s.logs ∧ rest m
          ∧ ackOf w m = ⟨true, s.boot.ticket, 1 + (queue.filter (fun q => !q.running)).length, 0⟩)
      ∧ (may w → limit ≤ t.toNat → refused 2 Codes.badRegAccess)
      ∧ (may w → t.toNat < limit → 64 ≤ queue.length → refused 1 Codes.testQueueFull)
      ∧ (¬may w → ∃ m, exec (e w t) s = .next m ∧ m.boot.queue = queue ∧ m.boot.ackHost = s.boot.ackHost ∧ m.boot.ackBoard = s.boot.ackBoard
          ∧ Logged s m Codes.badRegAccess 0xFFFF ∧ rest m)
    asks .tileSelfTestRequest 1 96 ∧ asks .stackSelfTestRequest 2 32 ∧ asks .stackMarginRequest 3 32 ∧ asks .linkRetrainRequest 4 24
    ∧ asks .linkMarginRequest 5 24
    ∧ (∀ (w : Iface) (t : BitVec 8), may w →
        let found := queue.find? (fun q => q.ticket == t.toNat)
        let gone (m : State) : Prop := m.boot.queue = queue.filter (fun q => q.ticket != t.toNat) ∧ ackOf w m = ⟨true, t.toNat, 0, 0⟩
        ((∀ q, found = some q → q.running = false ∨ quiet ∧ q.op ≠ 3 ∧ q.op ≠ 5) →
          ∃ m, exec (.testCancel w t) s = .next m ∧ gone m ∧ rest m)
        ∧ ∀ q, found = some q → q.running = true → quiet →
          (q.op = 3 → ∃ m, exec (.testCancel w t) s = .next m ∧ gone m ∧ (m.stack q.target).margining = false ∧ same m)
          ∧ (q.op = 5 → (s.link q.target).phase = .margin → ∃ m, exec (.testCancel w t) s = .next m ∧ gone m ∧ (m.link q.target).phase = .up ∧ same m))
    ∧ (∀ q : TestReq, queue = [q] → q.running = false →
        (s.testIdle q = false → ∃ m, exec .testQueueScan s = .next m ∧ m.boot.queue = queue ∧ rest m)
        ∧ (s.testIdle q = true → 1 ≤ q.op ∧ q.op ≤ 5 → ∃ m, exec .testQueueScan s = .next m ∧ m.boot.queue = [{ q with running := true }] ∧ same m
            ∧ (∀ u, ¬(q.op = 1 ∧ u = q.target) → m.tile u = s.tile u) ∧ (q.op ≠ 3 → m.mem = s.mem)
            ∧ (q.op = 3 → (m.stack q.target).margining = true) ∧ (q.op = 4 → (m.link q.target).phase = .retrain)
            ∧ (q.op = 5 → (m.link q.target).phase = .margin) ∧ ∀ l, ¬((q.op = 4 ∨ q.op = 5) ∧ l = q.target) → m.link l = s.link l))
    ∧ (∀ (ticket : Nat) (pass : Bool) (rs : List Margins) (q : TestReq), queue.find? (fun q => q.ticket == ticket && q.running) = some q →
        let e := exec (.testComplete ticket pass rs) s
        let gone (m : State) : Prop := m.boot.queue = queue.filter (fun q => q.ticket != ticket)
        let zeroed (m : State) : Prop := (m.tile q.target).spad = [] ∧ (m.tile q.target).acc = [] ∧ ∀ u, u ≠ q.target → m.tile u = s.tile u
        (q.op = 1 → pass = false → ∃ m, e = .next m ∧ gone m ∧ zeroed m ∧ bitOf m.boot.bistFail (5 + q.target / 12) = true
            ∧ Logged s m Codes.bistFail (q.target % 12) ∧ Logged s m Codes.testFailed 0xFFFF ∧ same m)
        ∧ (q.op = 1 → pass = true → (∀ p ∈ s.sched.jobs, ∀ x, p.2 = some x → x.phase ≠ .waiting ∧ x.phase ≠ .saved) → ∃ m, e = .next m ∧ gone m ∧ zeroed m ∧ bitOf m.boot.bistFail (5 + q.target / 12) = false
            ∧ Logged s m Codes.testDone 0xFFFF ∧ same m)
        ∧ (q.op = 2 → pass = true → ∃ m, e = .next m ∧ gone m ∧ bitOf m.boot.bistFail (13 + q.target) = false ∧ Logged s m Codes.testDone 0xFFFF ∧ rest m)
        ∧ (q.op = 2 → pass = false → ∃ m, e = .next m ∧ gone m ∧ bitOf m.boot.bistFail (13 + q.target) = true ∧ Logged s m Codes.bistFail 0xFFFF
            ∧ Logged s m Codes.testFailed 0xFFFF ∧ rest m)
        ∧ (q.op = 3 → ∃ m, e = .next m ∧ gone m ∧ (m.stack q.target).margining = false
            ∧ Logged s m (if m.stackPasses q.target then Codes.testDone else Codes.testFailed) 0xFFFF ∧ m.tiles = s.tiles ∧ same m)
        ∧ (q.op = 4 → quiet → (s.link q.target).phase ≠ .retrain → ∃ m, e = .next m ∧ gone m
            ∧ Logged s m (if (s.link q.target).phase = .up then Codes.testDone else Codes.testFailed) 0xFFFF ∧ rest m))
    ∧ ∀ (l : Link) (rs : List Margins), (s.link l).phase = .margin → rs.length = 8 → quiet →
        (∀ q ∈ queue, ¬(q.running = true ∧ q.op = 5 ∧ q.target = l.val)) →
        ∃ m : State, exec (.linkMarginDone l rs) s = .next m ∧ (m.link l).phase = .up ∧ m.tiles = s.tiles ∧ m.mem = s.mem ∧ same m
          ∧ (∀ k : Link, k ≠ l → m.link k = s.link k)
          ∧ ∀ i, i < 8 → (m.link l).margins.get .init i = (s.link l).laneMargin (rs.getD i ⟨0, 0, 0, 0⟩)

/-- A write of BOOT.CAL_WRITE by the physical function starts a region write where the address is a multiple of 256, the image lies in pinned objects of function 0 and its header, CRC and RSVD bytes pass; else it is refused with CAL_REJECTED, and with no other effect while a write runs. The end of the write
stores the image in one copy of the region and leaves the other. The collection of a die's local log empties it, and each of its records takes the next sequence number in the global ring; what the log had dropped is counted by one LOG_OVERRUN record. Vector 0 of a function is sent once after records have entered its window. A
read of ERR.STATUS returns the records written and lost, and releases ALERT_N. -/
def Obligations.CalibrationAndRecords : Prop :=
  ∀ s : State,
    let rest (m : State) : Prop := m.tiles = s.tiles ∧ m.dealers = s.dealers ∧ m.mem = s.mem ∧ m.sched = s.sched ∧ m.links = s.links ∧ m.col = s.col
      ∧ m.power = s.power ∧ m.codec = s.codec
    (∀ (w : Iface) (a : W64),
        let addr := a.toNat % 2 ^ 48
        let image := s.readMem addr 0x10000
        let good := addr % 256 = 0 ∧ s.pinnedFor (.func 0) (addr, 0x10000) = true ∧ calImageOk image = true
        let e := exec (.calWrite w a) s
        (w = .host 0 → s.boot.cal ≠ 1 → good → ∃ m, e = .next m ∧ m.boot.cal = 1 ∧ m.boot.calImage = image ∧ m.boot.calAddr = addr ∧ m.logs = s.logs
            ∧ m.sec = s.sec ∧ rest m)
        ∧ (w = .host 0 → s.boot.cal ≠ 1 → ¬good → ∃ m, e = .next m ∧ m.boot.cal = 3 ∧ Logged s m Codes.calRejected 0xFFFF ∧ m.sec = s.sec ∧ rest m)
        ∧ (w = .host 0 → s.boot.cal = 1 → ∃ m, e = .next m ∧ m.boot.cal = 1 ∧ m.boot.calImage = s.boot.calImage ∧ m.boot.calAddr = s.boot.calAddr
            ∧ Logged s m Codes.calRejected 0xFFFF ∧ m.sec = s.sec ∧ rest m)
        ∧ (w ≠ .host 0 → ∃ m, e = .next m ∧ m.boot.cal = s.boot.cal ∧ m.boot.calAddr = s.boot.calAddr ∧ Logged s m Codes.badRegAccess 0xFFFF ∧ m.sec = s.sec ∧ rest m))
    ∧ (s.boot.cal = 1 → s.boot.calImage.length = 0x10000 → ∃ (m : State) (i : Nat), exec .calWriteComplete s = .next m ∧ i < 2 ∧ m.boot.cal = 2 ∧ rest m
        ∧ (∀ j, j < 2 → j ≠ i → m.calCopy j = s.calCopy j) ∧ (s.calNewest = some 0 → i = 1) ∧ (s.calNewest = some 1 → i = 0)
        ∧ ∀ n, s.calNewest = some n → m.calCopy i = calFinish s.boot.calImage s.retiredFrames (calSeq (s.calCopy n) + 1))
    ∧ (∀ cls idx : Nat,
        let l := s.logs.locals.get .init (cls * 64 + idx)
        ∃ m : State, exec (.errorLogCollection cls idx) s = .next m ∧ m.logs.global.seq = s.logs.global.seq + l.recs.length ∧ rest m
          ∧ (l.dropped = 0 → m.logs.locals.get .init (cls * 64 + idx) = .init)
          ∧ (l.dropped ≠ 0 → ∃ r, (m.logs.locals.get .init (cls * 64 + idx)).recs = [r] ∧ r.code = Codes.logOverrun)
          ∧ ∀ k, k ≠ cls * 64 + idx → m.logs.locals.get .init k = s.logs.locals.get .init k)
    ∧ (∀ f : Func,
        let x := s.logs.funcs.get .init f.val
        (x.pending = false → exec (.errorVectorSend f) s = .next s)
        ∧ (x.pending = true → ∃ m : State, exec (.errorVectorSend f) s = .next m ∧ m.logs.funcs.get .init f.val = { x with pending := false }
            ∧ m.tiles = s.tiles ∧ m.mem = s.mem ∧ (s.sched.msix.get 0 (f.val * 2048) = 1 → m.outbox = s.outbox ++ [.msix f.val 0])))
    ∧ ∀ w : Iface, w = .board ∨ w = .host 0 → ∃ m : State, exec (.errStatusRead w) s = .next m ∧ m.logs = { s.logs with alert := false } ∧ rest m
        ∧ m.outbox = s.outbox ++ [.readData (natLe 8 (s.logs.global.seq % 2 ^ 32 + s.logs.global.lost * 2 ^ 32))]

/-- A droop trip suppresses its tile and counts on it and its die; the suppression's end and a ramp's end change that tile alone. While the comparator acts no tile's effective budget is above 16; its release starts a ramp on each tile with a hand. An analog trip and an input below 42 V leave every effective budget 0 and
fault every job that has no fault with their code; the input is recovered once it has been good for 1 ms. GRADE_UNHOLDABLE is raised for each job with a hand that has not had it, and sets DEMOTE; the grade stays. A wanted grade is taken while no job holds tiles. The calibration factor stays within 0.5 and 2. A cap is
clamped to 2,000 W and the fused ceiling, and the physical function and the board alone may write it or clear DEMOTE. -/
def Obligations.PowerEvents : Prop :=
  ∀ s : State,
    let p := s.power
    let faulted (m : State) (c : Code) : Prop := ∀ j x, s.job j = some x → m.job j = some { x with fault := some (x.fault.getD c) }
    let rest (m : State) : Prop := m.dealers = s.dealers ∧ m.links = s.links ∧ m.col = s.col ∧ m.codec = s.codec ∧ m.grade = s.grade
    let same (m : State) : Prop := m.tiles = s.tiles ∧ m.mem = s.mem ∧ m.sched = s.sched ∧ rest m
    let may (w : Iface) : Prop := w = .board ∨ w = .host 0
    (∀ t : Tile,
        let x := s.tile t
        let d := s.dealer (t.val / 12)
        (∃ m, exec (.droopTrip t) s = .next m ∧ m.tile t = { x with pwr := { x.pwr with suppressed := true, droops := min 65535 (x.pwr.droops + 1) } }
          ∧ (∀ u, u ≠ t.val → m.tile u = s.tile u) ∧ m.dealer (t.val / 12) = { d with trips := d.trips + 1 }
          ∧ (∀ e, e ≠ t.val / 12 → m.dealer e = s.dealer e) ∧ m = { s with tiles := m.tiles, dealers := m.dealers } ∧ ∀ c, m.effBudget t c = 0)
        ∧ (∃ m, exec (.droopSuppressionEnd t) s = .next m ∧ OnlyTile s m t ∧ m.tile t = { x with pwr := { x.pwr with suppressed := false } })
        ∧ ∃ m, exec (.rampEnd t) s = .next m ∧ OnlyTile s m t ∧ m.tile t = { x with pwr := { x.pwr with ramp := none } })
    ∧ (p.ceiling = false → ∃ m, exec .comparatorTrip s = .next m ∧ m.power = { p with ceiling := true } ∧ Logged s m Codes.pwrCeiling 0xFFFF ∧ same m
        ∧ ∀ t c, m.effBudget t c ≤ 16)
    ∧ (p.ceiling = true → exec .comparatorTrip s = .next s
        ∧ ∃ m, exec .comparatorRelease s = .next m ∧ m.power = { p with ceiling := false } ∧ m.mem = s.mem ∧ m.sched = s.sched ∧ rest m
          ∧ ∀ t, t < 96 → m.tile t = if (s.tile t).hand.isSome then { s.tile t with pwr := { (s.tile t).pwr with ramp := some 0 } } else s.tile t)
    ∧ (p.tripped = false → ∃ m, exec .analogThermalTrip s = .next m ∧ m.power = { p with tripped := true } ∧ faulted m Codes.thermalTrip
        ∧ Logged s m Codes.thermalTrip 0xFFFF ∧ rest m ∧ (∀ t c, m.effBudget t c = 0)
        ∧ ∀ t, t < 96 → (m.tile t).run = (if (s.tile t).hand.isSome then .faulted else .idle) ∧ (m.tile t).dmas = [])
    ∧ (∀ mv cur w : Nat,
        let v := s.trimmed mv
        ∃ m, exec (.meterSample mv cur w) s = .next m ∧ rest m ∧ m.power.volt = v ∧ m.power.current = s.trimmed cur ∧ m.power.watt = s.trimmed w
          ∧ m.power.sumW = p.sumW + s.trimmed w ∧ m.power.samples = p.samples + 1 ∧ m.power.overVolt = decide (58000 < v)
          ∧ (v < 44000 → m.power.good = 0) ∧ (44000 ≤ v → 44000 ≤ p.volt → m.power.good = p.good + 1024)
          ∧ (58000 < v → p.overVolt = false → Logged s m Codes.inputRange 0xFFFF)
          ∧ (42000 ≤ v ∨ p.powerFail = true → same m ∧ m.power.powerFail = p.powerFail)
          ∧ (v < 42000 → p.powerFail = false → m.power.powerFail = true ∧ faulted m Codes.powerFail ∧ Logged s m Codes.powerFail 0xFFFF
              ∧ m.mem.ftl.frozen = true ∧ (∀ t c, m.effBudget t c = 0) ∧ ∀ t, t < 96 → m.tile t = { s.tile t with pwr := { (s.tile t).pwr with budget := 0 } }))
    ∧ (p.powerFail = true → 2000000 ≤ p.good → ∃ m, exec .powerRecovery s = .next m ∧ m.power = { p with powerFail := false }
        ∧ m.mem = { s.mem with ftl := { s.mem.ftl with frozen := false } } ∧ m.tiles = s.tiles ∧ m.sched = s.sched ∧ rest m)
    ∧ (p.powerFail = true → p.good < 2000000 → exec .powerRecovery s = .next s)
    ∧ (p.live.holdWindow.toNat ≤ p.below → (∃ j ∈ s.handJobs (List.range 96), ∃ x, s.job j = some x ∧ Codes.gradeUnholdable.toNat ∉ x.logged) →
        ∃ m, exec .gradeUnholdable s = .next m ∧ m.power = { p with demote := true, demotedAt := s.grade } ∧ Logged s m Codes.gradeUnholdable 0xFFFF
          ∧ m.tiles = s.tiles ∧ m.mem = s.mem ∧ rest m
          ∧ ∀ j x, s.job j = some x → ∃ l, m.job j = some { x with logged := l }
              ∧ (j ∈ s.handJobs (List.range 96) → Codes.gradeUnholdable.toNat ∈ l))
    ∧ (∀ g, p.target = some g → s.holdsTiles = false → (∀ q ∈ s.sched.jobs, ∀ x, q.2 = some x → x.phase ≠ .waiting ∧ x.phase ≠ .saved) →
        exec .gradeChange s = .next { s with grade := g, power := { p with target := none } })
    ∧ (s.holdsTiles = true → exec .gradeChange s = .next s)
    ∧ (∃ m raw, exec .recalibration s = .next m ∧ m.power = { p with calK := max 0x2000 (min 0x8000 raw) } ∧ same m
        ∧ (raw < 0x2000 ∨ 0x8000 < raw → Logged s m Codes.pwrCalibration 0xFFFF))
    ∧ (∀ (w : Iface) (v : W32),
        let x := bitsOf v.toNat 12 0
        let c := max 2000 (min s.fuses.fusedW x)
        (may w → ∃ m, exec (.capWrite w v) s = .next m ∧ m.power = { p with cfg := { p.cfg with capW := c } } ∧ same m
            ∧ (c ≠ x → Logged s m Codes.pwrCapRange 0xFFFF) ∧ (c = x → m.logs = s.logs))
        ∧ (¬may w → ∃ m, exec (.capWrite w v) s = .next m ∧ m.power = p ∧ same m ∧ Logged s m Codes.badRegAccess 0xFFFF))
    ∧ ∀ w : Iface, (may w → exec (.demoteClear w) s = .next { s with power := { p with demote := false } })
        ∧ (¬may w → ∃ m, exec (.demoteClear w) s = .next m ∧ m.power = p ∧ same m ∧ Logged s m Codes.badRegAccess 0xFFFF)

/-- At the end of a control interval what has been written to the power registers comes into force and each tile takes a budget. A tile gets at least its floor and at most its want; no level's units are exceeded but by the floors; a tile below its want lies in a level whose units are used up, and there no tile of a later
group (best-effort after latency-critical, not announced after announced) has more than its floor. A throttle starts at its threshold, is lifted 3 degrees below it, and holds the want at the last grant minus 8; a droop storm cuts the want of its die's best-effort tiles. While the input fails or after a trip every budget is 0.
Nothing else of a tile, no byte of memory, no link, collective, stream or grade, and nothing of a job but which codes it has had, changes. -/
def Obligations.ControlIntervals : Prop :=
  ∀ (s : State) (r : Readings),
    let c := s.power.cfg
    let req (t : Nat) := (s.tile t).powerRequest
    let lc (t : Nat) : Bool := s.powerLc t
    let floor (t : Nat) := min (req t) (if lc t then min 64 c.lcFloor else max 1 c.beFloor)
    let storm (d : Nat) := if c.droopLimit < (s.dealer d).trips then 16 else (s.dealer d).storm
    let throttle (was : Bool) (limit temp : Nat) : Bool := if was then decide (limit < temp + 3) else decide (limit ≤ temp)
    ∃ (m : State) (x : Nat), exec (.controlInterval r) s = .next m
      ∧ m.power.cfg = c ∧ m.power.live = c ∧ m.power.inlet = r.inlet.map (s.sensor 0x920) ∧ m.power.samples = 0 ∧ m.power.sumW = 0
      ∧ x ≤ (if s.power.samples = 0 then s.power.watt * 65536 else s.power.sumW * 65536 / s.power.samples)
      ∧ (∀ t, m.tile t = { s.tile t with pwr := { (s.tile t).pwr with budget := (m.tile t).pwr.budget, tempC := (m.tile t).pwr.tempC, throttled := (m.tile t).pwr.throttled } })
      ∧ m.mem.bytes = s.mem.bytes ∧ m.mem.pages = s.mem.pages ∧ m.links = s.links ∧ m.col = s.col ∧ m.codec = s.codec ∧ m.grade = s.grade
      ∧ (∀ j, ∃ l, m.job j = (s.job j).map (fun y => { y with logged := l }))
      ∧ (∀ d, d < 8 → m.dealer d = { s.dealer d with trips := 0, storm := storm d - 1 })
      ∧ ((r.tileC.map (·.1)).Nodup → ∀ q ∈ r.tileC, (m.tile q.1).pwr.tempC = s.sensor (0x8A0 + q.1.val) q.2
          ∧ (m.tile q.1).pwr.throttled = throttle (s.tile q.1).pwr.throttled c.tileC (s.sensor (0x8A0 + q.1.val) q.2))
      ∧ ((r.stackC.map (·.1)).Nodup → ∀ q ∈ r.stackC, (m.stack q.1).tempC = s.sensor (0x900 + q.1.val) q.2
          ∧ (m.stack q.1).throttled = throttle (s.stack q.1).throttled c.stackC (s.sensor (0x900 + q.1.val) q.2))
      ∧ ((s.power.powerFail || s.power.tripped) = true → ∀ t, t < 96 → (m.tile t).pwr.budget = 0)
      ∧ ((s.power.powerFail || s.power.tripped) = false →
          let hot (t : Nat) : Bool := (m.tile t).pwr.throttled || (List.range 4).any (fun i => (m.stack (4 * (t / 12) + i)).throttled)
          let slow (t : Nat) := if storm (t / 12) ≠ 0 ∧ lc t = false then max (min (req t) (max 1 c.beFloor)) (req t - 8) else req t
          let want (t : Nat) := if hot t then max (floor t) (min (slow t) ((s.tile t).pwr.budget - 8)) else slow t
          let b (t : Nat) := (m.tile t).pwr.budget
          let units (l : CapLevel) := levelUnits (s.fuses.gradeS.getD s.grade 0) (s.fuses.gradeD.getD s.grade 0) x l.cap l.tiles.length
          let used (l : CapLevel) (f : Nat → Nat) := (((List.range 96).filter (fun t => l.tiles.contains t)).map f).sum
          let order (t : Nat) := (if lc t then 0 else 2) + (if (s.tile t).pwr.phaseValid then 0 else 1)
          (∀ t, t < 96 → floor t ≤ b t ∧ b t ≤ max (floor t) (want t))
          ∧ (∀ l ∈ m.capLevels, used l b ≤ max (units l) (used l floor))
          ∧ ∀ t, t < 96 → b t < min 64 (want t) →
              ∃ l ∈ m.capLevels, l.tiles.contains t = true ∧ units l ≤ used l b
                ∧ ∀ u, u < 96 → l.tiles.contains u = true → order t < order u → b u = floor u)

/-- VERIFY by the physical function, while no step runs, takes the image at STAGE_ADDR from PIN_STACK objects of function 0 and checks it; at the end of staging a good image stands in the inactive slot and nowhere else, and STAGED is 1; a bad one leaves the flash, and STAGED is 2 with its code. ACTIVATE with STAGED 1 and no live
job verifies that slot again; otherwise it is FW_BUSY, as is VERIFY while a step runs. When activation ends, a verified slot is active, its SVN and key index in force, and the responder starts anew; else the old one stays. An image passes just when its format, its key, its hash, its SVN, both signatures and every component are good.
COMMIT raises the rollback counter to the active SVN, and never lowers it. A write budget above the cap takes the cap. In recovery alone a good image goes to slot A. From any function but the physical one the writes are BAD_REG_ACCESS. -/
def Obligations.FirmwareUpdates : Prop :=
  ∀ s : State,
    let x := s.sec
    let rest (m : State) : Prop := m.tiles = s.tiles ∧ m.dealers = s.dealers ∧ m.mem = s.mem ∧ m.sched = s.sched ∧ m.links = s.links ∧ m.col = s.col
      ∧ m.power = s.power ∧ m.codec = s.codec
    let busy : Prop := x.staged = 3 ∨ x.activating = true
    let image := s.readMem x.stageAddr (min 0x2000000 (fwExtent (s.readMem x.stageAddr 0x2000)))
    let there : Prop := x.stageAddr % 256 = 0 ∧ s.pinnedFor (.func 0) (x.stageAddr, 0x2000) = true ∧ s.pinnedFor (.func 0) (x.stageAddr, image.length) = true
    let barred (c : Iface → Instr) : Prop := ∀ w : Iface, w ≠ .host 0 → ∃ m : State, exec (c w) s = .next m ∧ Logged s m Codes.badRegAccess 0xFFFF ∧ m.fuses = s.fuses
      ∧ m.sec = { x with lastCode := m.sec.lastCode } ∧ rest m
    let refused (e : Host.Outcome State Fault Refusal) : Prop := ∃ m : State, e = .next m ∧ Logged s m Codes.fwBusy 0xFFFF ∧ m.sec = { x with lastCode := Codes.fwBusy } ∧ rest m
    (∀ sig : SigCheck, barred (fun w => .verify w sig) ∧ barred (fun w => .activate w sig)
        ∧ (¬busy → there → exec (.verify (.host 0) sig) s = .next { s with sec := { x with staged := 3, verdict := verifyImage s.fuses sig image, image := image } })
        ∧ (¬busy → ¬there → exec (.verify (.host 0) sig) s = .next { s with sec := { x with staged := 3, verdict := Codes.fwFormat, image := [] } })
        ∧ (busy → refused (exec (.verify (.host 0) sig) s))
        ∧ (let y := x.slotImage (!x.slotB)
           ¬busy → x.staged = 1 → s.anyJob = false →
            exec (.activate (.host 0) sig) s = .next { s with sec := { x with activating := true, verdict := verifyImage s.fuses sig y, image := y } })
        ∧ (busy ∨ x.staged ≠ 1 ∨ s.anyJob = true → refused (exec (.activate (.host 0) sig) s))
        ∧ ∀ img : List Byte,
            let k := fieldLe img 2 1
            verifyImage s.fuses sig img = 0 ↔
              fwFormatOk img = true ∧ bitOf s.fuses.revoked.toNat k = false
                ∧ sha384 ((img.drop 0x410).take 32) = s.fuses.fwKeys.getD (2 * k) 0 ∧ sha384 ((img.drop 0x430).take 1952) = s.fuses.fwKeys.getD (2 * k + 1) 0
                ∧ s.fuses.rollback ≤ fieldLe img 4 1 ∧ sig.ed = true ∧ sig.ml = true
                ∧ ∀ c ∈ fwComps img, sha384 ((img.drop c.off).take c.len) = c.digest)
    ∧ (x.staged = 3 → x.verdict = 0 → ∃ m : State, exec .stagingComplete s = .next m ∧ rest m ∧ m.sec = { x with staged := 1, image := [], spi := m.sec.spi }
        ∧ m.sec.spi.getRange 0 (fwSlotBase (!x.slotB)) x.image.length = x.image
        ∧ ∀ a, a < fwSlotBase (!x.slotB) ∨ fwSlotBase (!x.slotB) + x.image.length ≤ a → m.sec.spi.get 0 a = x.spi.get 0 a)
    ∧ (x.staged = 3 → x.verdict ≠ 0 → ∃ m : State, exec .stagingComplete s = .next m ∧ rest m ∧ Logged s m x.verdict 0xFFFF
        ∧ m.sec = { x with staged := 2, image := [], lastCode := m.sec.lastCode } ∧ (x.verdict.toNat / 256 = 9 → m.sec.lastCode = x.verdict))
    ∧ (x.staged ≠ 3 → exec .stagingComplete s = .next s)
    ∧ (x.activating = true → s.boot.waiting = [] → ∃ m : State, exec .activationComplete s = .next m ∧ rest m ∧ m.sec.activating = false ∧ m.sec.spi = x.spi
        ∧ m.sec.spdm = ⟨false, false⟩ ∧ (∀ d, d < 45 → d ∉ s.boot.resetting → m.boot.dieByte d = 0) ∧ (∀ d ∈ s.boot.resetting, m.boot.dieByte d = s.boot.dieByte d)
        ∧ (x.verdict = 0 → m.sec.slotB = !x.slotB ∧ m.sec.recordB = !x.slotB ∧ m.sec.staged = 0 ∧ m.sec.svn = fieldLe x.image 4 1 ∧ m.sec.keyIndex = fieldLe x.image 2 1)
        ∧ (x.verdict ≠ 0 → m.sec.slotB = x.slotB ∧ m.sec.recordB = x.recordB ∧ m.sec.staged = 2 ∧ Logged s m x.verdict 0xFFFF
            ∧ m.sec.svn = fieldLe (x.slotImage x.slotB) 4 1 ∧ m.sec.keyIndex = fieldLe (x.slotImage x.slotB) 2 1))
    ∧ barred .commit
    ∧ exec (.commit (.host 0)) s = .next { s with fuses := { s.fuses with rollback := max s.fuses.rollback x.svn } }
    ∧ (∀ v : W32, ∃ m : State, exec (.writeBudgetSet v) s = .next m ∧ m.mem = { s.mem with ftl := { s.mem.ftl with budget := if x.writeCap < v then x.writeCap else v } }
        ∧ (x.writeCap < v → Logged s m Codes.secBudgetClamped 0xFFFF) ∧ m.tiles = s.tiles ∧ m.sched = s.sched ∧ m.fuses = s.fuses)
    ∧ ∀ (img : List Byte) (sig : SigCheck),
        let c := verifyImage s.fuses sig img
        (s.boot.held = true ∨ s.boot.stage ≠ 0xFE → exec (.pldmFirmwareUpdate img sig) s = .next s)
        ∧ (s.boot.held = false → s.boot.stage = 0xFE → ∃ m : State, exec (.pldmFirmwareUpdate img sig) s = .next m ∧ rest m
            ∧ m.outbox = s.outbox ++ [.response (natLe 2 c.toNat)] ∧ (c ≠ 0 → m.sec.spi = x.spi ∧ Logged s m c 0xFFFF)
            ∧ (c = 0 → m.sec.spi.getRange 0 0 img.length = img ∧ ∀ a, img.length ≤ a → m.sec.spi.get 0 a = x.spi.get 0 a))

/-- The responder answers neither in reset nor in recovery, with ERROR Busy during an activation, and, before GET_VERSION has opened it, with an error to all else. GET_CERTIFICATE returns a chain that boot accepted, and an error for one that it did not; CHALLENGE the hash of a slot's chain and a signature; GET_MEASUREMENTS the block of an
index, or of all 53: a die's digest as last taken, the SVN with the manifest's, and a byte for each of the 45 dies. DUAL_SIG is answered right after a signed response alone. A request changes what the responder remembers and what is sent, and nothing else. The messages' bytes are the family's (log entry 13). -/
def Obligations.Attestation : Prop :=
  ∀ s : State,
    let x := s.sec
    let may : Prop := s.boot.held = false ∧ s.boot.stage ≠ 0xFE
    let answers (c : Instr) (open_ signed : Bool) (out : OutMsg → Prop) : Prop := ∃ (m : State) (o : OutMsg), exec c s = .next m ∧ out o
      ∧ m = { s with freeCtr := m.freeCtr, outbox := s.outbox ++ [o], sec := { x with spdm := ⟨open_, signed⟩ } }
    let error (c : Instr) (code : Nat) : Prop := answers c x.spdm.open_ false (· = spdmMsg 0x7F code 0 [])
    let ready : Prop := may ∧ x.activating = false
    let opened : Prop := ready ∧ x.spdm.open_ = true
    let be48 (v : BitVec 384) : List Byte := (natLe 48 v.toNat).reverse
    let block (i : Nat) (v : List Byte) : Prop :=
      (i = 9 → v = (List.range 45).map (fun d => BitVec.ofNat 8 (s.boot.dieByte d)))
      ∧ (i = 3 → v = be48 (x.measures.get 0 3) ++ natLe 1 x.svn)
      ∧ (i ∉ [1, 3, 6, 7, 8, 9] ∨ i = 7 ∧ s.boot.userCal ≠ [] → v = be48 (x.measures.get 0 i)) ∧ (i ≠ 9 → i ≠ 3 → v.length = 48)
    let requests : List Instr := [.getVersion, .dualSig] ++ (List.range 256).flatMap (fun n => [.getCertificate n, .challenge n, .getMeasurements n true, .getMeasurements n false])
    (∀ c ∈ requests, (¬may → exec c s = .next s) ∧ (may → x.activating = true → error c 3)
        ∧ (ready → x.spdm.open_ = false → c ≠ .getVersion → error c 4))
    ∧ (ready → answers .getVersion true false (· = .response [0x10, 0x04, 0, 0, 0, 1, 0x00, 0x13]))
    ∧ (∀ n : Nat, opened →
        let chain := x.chains.getD n []
        (n ≤ 1 → x.chainOk.getD n false = true → answers (.getCertificate n) true false (· = spdmMsg 0x02 n 0 (natLe 2 chain.length ++ natLe 2 0 ++ chain)))
        ∧ (n ≤ 1 → x.chainOk.getD n false = false → answers (.getCertificate n) true false (fun o => ∃ code, o = spdmMsg 0x7F code 0 []))
        ∧ (n ≤ 1 → answers (.challenge n) true true (fun o => ∃ t : List Byte, t.length = 96 ∧ o = spdmMsg 0x03 n (2 ^ n) (be48 (sha384 chain) ++ t)))
        ∧ (2 ≤ n → error (.getCertificate n) 1 ∧ error (.challenge n) 1))
    ∧ (∀ (n : Nat) (signed : Bool), opened →
        let asked := if n = 0xFF then measureIndices else measureIndices.filter (· == n)
        (n ≠ 0 → asked = [] → error (.getMeasurements n signed) 1)
        ∧ (n = 0 ∨ asked ≠ [] → answers (.getMeasurements n signed) true signed (fun o => ∃ (v : Nat → List Byte) (t : List Byte), (∀ i ∈ asked, block i (v i))
            ∧ t.length = (if signed then 96 else 0)
            ∧ o = spdmMsg 0x60 (if n = 0 then 53 else 0) 0
              (natLe 1 asked.length ++ natLe 3 (asked.flatMap (fun i => measureBlock i (v i))).length ++ asked.flatMap (fun i => measureBlock i (v i)) ++ t))))
    ∧ (opened → x.spdm.signed = true → answers .dualSig true false (fun o => ∃ t : List Byte, t.length = 3309 ∧ o = spdmMsg 0x7E 0 0 t))
    ∧ (opened → x.spdm.signed = false → error .dualSig 1)

/-- Before the first boot no job is live, no tile has a hand, memory lists nothing and RESET_N is low. Power-on, a RESET_N pulse of 1 ms and the loss of the input leave the flash tier's contents and the SPI flash; every job, tile, session and record is gone, and the pulse and a warm reset program the journal first. A shorter pulse than 1 us does nothing;
one between has one of the two outcomes. A warm reset ends each live job with one DEVICE_RESET record and no completion, keeps the log, and boots again. Boot loads the slot that the record names if it verifies, else the other, logging the code; then every die's byte is 0, STAGE is 0xFF and BOOT_COMPLETE is logged; without a valid image STAGE is 0xFE. A
step that passes its bound stops the boot with its number. In reset and in recovery a warm reset has no effect, and BOOT.RESET.WARM needs its key. -/
def Obligations.Resets : Prop :=
  let empty (m : State) : Prop := (∀ j, m.job j = none) ∧ (∀ t, m.tile t = .init) ∧ (∀ d, m.dealer d = .init) ∧ m.mem.bytes = [] ∧ m.mem.pages = [] ∧ m.mem.objects = [] ∧ m.col = .init
    ∧ m.boot.queue = [] ∧ m.boot.resetting = [] ∧ (∀ l : Link, (m.link l).phase = .down ∨ (m.link l).phase = .disabled) ∧ m.grade = 0
  empty State.reset ∧ Memory.wf State.reset.mem.bytes = true ∧ State.reset.boot.held = true ∧ State.reset.pending = [] ∧ ∀ s : State,
    let flash (f : FtlSt) (m : State) : Prop := m.mem.ftl.store = f.store ∧ m.mem.ftl.taken = f.taken ∧ m.mem.ftl.names = f.names ∧ m.mem.ftl.unjournaled = f.unjournaled
      ∧ m.mem.ftl.journalLost = f.journalLost
    let outside (m : State) : Prop := m.pending = s.pending ∧ m.hostMem = s.hostMem ∧ m.outbox = s.outbox ∧ m.fuses = s.fuses ∧ m.sec.spi = s.sec.spi ∧ m.sec.recordB = s.sec.recordB
    let lowered (f : FtlSt) (cause : Nat) (m : State) : Prop := empty m ∧ m.boot.held = true ∧ m.boot.cause = cause ∧ m.logs = .init ∧ flash f m ∧ outside m ∧ m.sec.staged = 0
      ∧ m.power.tripped = s.power.tripped
    let ftl := s.mem.ftl
    let journaled : FtlSt := if ftl.readOnly then ftl else ftl.programJournal
    let booted (env : BootEnv) (m : State) : Prop :=
      let good (b : Bool) : Code := verifyImage s.fuses (if b then env.sigB else env.sigA) (s.sec.slotImage b)
      let a := s.sec.recordB
      m.boot.held = false
      ∧ (good a = 0 ∨ good (!a) = 0 →
          let b := if good a = 0 then a else !a
          m.boot.stage = 0xFF ∧ m.sec.slotB = b ∧ m.sec.svn = fieldLe (s.sec.slotImage b) 4 1 ∧ m.sec.keyIndex = fieldLe (s.sec.slotImage b) 2 1
            ∧ Logged s m Codes.bootComplete 0xFFFF ∧ (∀ d, d < 45 → m.boot.dieByte d = 0) ∧ m.mem.ftl.journal = 0)
      ∧ (good a ≠ 0 → Logged s m (good a) 0xFFFF)
      ∧ (good a ≠ 0 → good (!a) ≠ 0 → m.boot.stage = 0xFE ∧ Logged s m (good (!a)) 0xFFFF ∧ Logged s m Codes.fwNoValidImage 0xFFFF)
      ∧ m.sec.writeCap = BitVec.ofNat 32 (max 1 (env.rawBytes / 2097152 * env.rated / 73475865))
    let warm (env : BootEnv) (c : Instr) (cause : Nat) : Prop :=
      (s.boot.held = true ∨ s.boot.stage = 0xFE → exec c s = .next s)
      ∧ (s.boot.held = false → s.boot.stage ≠ 0xFE → ∃ m : State, exec c s = .next m ∧ empty m ∧ outside m ∧ booted env m ∧ m.boot.cause = cause
          ∧ m.boot.slot = s.boot.slot ∧ m.boot.cxl = s.boot.cxl ∧ (∀ j, s.job j ≠ none → Logged s m Codes.deviceReset 0xFFFF)
          ∧ m.logs.global = s.logs.global)
    (s.boot.held = true → ∃ m, exec .powerOn s = .next m ∧ lowered ftl 0 m)
    ∧ (s.boot.held = false → exec .powerOn s = .next s)
    ∧ (∃ m, exec .inputPowerLoss s = .next m ∧ lowered { ftl with journalLost := ftl.journalLost || !ftl.unjournaled.isEmpty } 0 m)
    ∧ (∀ ns : Nat, s.boot.held = true ∨ ns < 1000 → exec (.resetNPulse ns) s = .next s)
    ∧ (∀ ns : Nat, s.boot.held = false → 1000000 ≤ ns → ∃ m, exec (.resetNPulse ns) s = .next m ∧ lowered journaled 1 m)
    ∧ (∀ ns : Nat, s.boot.held = false → 1000 ≤ ns → ns < 1000000 → ∃ m, exec (.resetNPulse ns) s = .next m ∧ (m = { s with freeCtr := m.freeCtr } ∨ lowered journaled 1 m))
    ∧ (∀ env : BootEnv, s.boot.held = false → exec (.coldBoot env) s = .next s)
    ∧ (∀ env : BootEnv, s.boot.held = true → ∃ m, exec (.coldBoot env) s = .next m ∧ booted env m ∧ outside m ∧ m.boot.slot = env.slotPins ∧ m.boot.cxl = env.hostMode
        ∧ m.boot.cause = s.boot.cause ∧ m.power.tripSeen = s.power.tripped ∧ m.power.tripped = false ∧ m.tiles = s.tiles ∧ m.sched = s.sched ∧ m.mem.bytes = s.mem.bytes)
    ∧ (s.boot.held = true → ∃ (m : State) (k : Nat), exec .bootStageTimeout s = .next m ∧ 1 ≤ k ∧ k ≤ 11 ∧ m.boot.stage = k ∧ m.boot.held = false
        ∧ Logged s m Codes.bootStageTimeout 0xFFFF ∧ m.tiles = s.tiles ∧ m.mem = s.mem ∧ m.sched = s.sched)
    ∧ (s.boot.held = false → exec .bootStageTimeout s = .next s)
    ∧ ∀ env : BootEnv, warm env (.perstAssert env) 2 ∧ warm env (.hotReset env) 3 ∧ warm env (.pfFlr env) 4 ∧ warm env (.conductorWatchdog env) 6
      ∧ ∀ (w : Iface) (v : W32),
          let may : Prop := w = .board ∨ w = .host 0
          let key : Prop := bitsOf v.toNat 31 16 = 0xB007 ∧ bitOf v.toNat 15 = true
          (may → key → warm env (.warmReset w v env) 5) ∧ (may → ¬key → exec (.warmReset w v env) s = .next s)
          ∧ (¬may → ∃ m : State, exec (.warmReset w v env) s = .next m ∧ Logged s m Codes.badRegAccess 0xFFFF ∧ m.boot.stage = s.boot.stage ∧ m.tiles = s.tiles ∧ m.mem = s.mem ∧ m.sched = s.sched)

/-- A write of BOOT.RESET with its key resets the die that it names; without the key, or for 0x7F, it has no effect, and for KD it is logged. The die's byte is 1 and its running tests are dropped with records. A compute die's jobs fault with DIE_RESET and its tiles and Dealer are as at reset;
a stack's jobs fault, its pages keep their mapping and read as zero; an edge die's links go DOWN and its streams stop, and no job faults. A request for a die in reset is merged, one in an activation window waits, and the window's end starts it. A watchdog's expiry is logged and does the same. At the
end the die's byte is 0 and it leaves the reset; its BIST_FAIL bit says whether it failed, and a failed edge die keeps its links DISABLED and its engines unused. -/
def Obligations.DieResets : Prop :=
  ∀ s : State,
    let may (w : Iface) : Prop := w = .board ∨ w = .host 0
    let faulted (m : State) (c : Code) (hit : Nat → Prop) : Prop :=
      ∀ j, (hit j → m.job j = (s.job j).map (fun x => { x with fault := some (x.fault.getD c) })) ∧ (¬hit j → m.job j = s.job j)
    let sideways (m : State) : Prop := m.pending = s.pending ∧ m.hostMem = s.hostMem ∧ m.outbox = s.outbox ∧ m.power = s.power ∧ m.grade = s.grade ∧ m.col = s.col ∧ m.mem.objects = s.mem.objects ∧ m.mem.ftl = s.mem.ftl
    let compute (c : Nat) (m : State) : Prop :=
      (∀ t, m.tile t = if 12 * c ≤ t ∧ t < 12 * c + 12 then .init else s.tile t) ∧ (∀ e, m.dealer e = if e = c then .init else s.dealer e)
      ∧ faulted m Codes.dieReset (fun j => ∃ x, (j, x) ∈ s.dieJobs c)
      ∧ (∀ j x, s.job j = some x → x.places.any (fun q => q.die == c) = true → x.phase ≠ .waiting → x.phase ≠ .saved →
          Logged s m Codes.dieReset 0xFFFF ∧ ∃ y, m.job j = some y ∧ y.fault.isSome = true)
      ∧ m.mem = s.mem ∧ m.links = s.links ∧ m.codec = s.codec
    let inStack (k p : Nat) (x : PageSt) : Prop := (p, some x) ∈ s.mem.pages ∧ ∃ f, x.frame = some f ∧ frameStack f = k
    let stack (k : Nat) (m : State) : Prop :=
      (∀ p x a, inStack k p x → p * 2097152 ≤ a → a < p * 2097152 + 2097152 → m.mem.bytes.get 0 a = 0)
      ∧ (∀ a, (∀ p x, inStack k p x → ¬(p * 2097152 ≤ a ∧ a < p * 2097152 + 2097152)) → m.mem.bytes.get 0 a = s.mem.bytes.get 0 a)
      ∧ faulted m Codes.dieReset (fun j => ∃ p x o, inStack k p x ∧ s.object x.object = some o ∧ o.owner = .job j)
      ∧ (∀ n, n ≠ k → m.stack n = s.stack n) ∧ (m.stack k).factory = (s.stack k).factory ∧ (m.stack k).good = (s.stack k).good
      ∧ (m.stack k).ue = (s.stack k).ue ∧ (m.stack k).ce = (s.stack k).ce
      ∧ m.tiles = s.tiles ∧ m.dealers = s.dealers ∧ m.links = s.links ∧ m.codec = s.codec ∧ m.mem.pages = s.mem.pages
    let edge (q : Nat) (m : State) : Prop :=
      (∀ l : Link, if linkEdge l = q then (m.link l).phase = .down ∧ (m.link l).txq = [] ∧ (m.link l).replay = [] else m.link l = s.link l)
      ∧ (∀ e slot, e < 24 → engineEdge e ≠ q → m.stream e slot = s.stream e slot)
      ∧ (∀ e slot x, e < 24 → engineEdge e = q → s.stream e slot = some x → (∃ y, m.stream e slot = some y ∧ y.status = 2) ∧ (x.status ≠ 2 → ∃ u, Logged s m Codes.dieReset u))
      ∧ m.sched = s.sched ∧ m.tiles = s.tiles ∧ m.dealers = s.dealers
    let reset (d : Nat) (m : State) : Prop :=
      m.boot.dieByte d = 1 ∧ (∀ e, e ≠ d → m.boot.dieByte e = s.boot.dieByte e) ∧ m.boot.resetting = s.boot.resetting ++ [d]
      ∧ m.boot.queue = s.boot.queue.filter (fun q => !(q.running && q.die == d))
      ∧ ((∃ q ∈ s.boot.queue, q.running = true ∧ q.die = d) → Logged s m Codes.testAborted 0xFFFF)
      ∧ sideways m ∧ (d < 5 → edge (d - 1) m) ∧ (5 ≤ d → d < 13 → compute (d - 5) m) ∧ (13 ≤ d → stack (d - 13) m)
    let waits (d : Nat) (m : State) : Prop := m.boot.dieByte d = 1 ∧ d ∈ m.boot.waiting ∧ m = { s with boot := { s.boot with dies := m.boot.dies, waiting := m.boot.waiting } }
    (∀ (w : Iface) (v : W32),
        let d := bitsOf v.toNat 6 0
        let key : Prop := bitsOf v.toNat 31 16 = 0xB007 ∧ bitOf v.toNat 15 = false ∧ d ≠ 0x7F
        let c : Instr := .perDieReset w v
        (may w → ¬key → exec c s = .next s)
        ∧ (¬may w ∨ key ∧ (d = 0 ∨ 44 < d) → ∃ m : State, exec c s = .next m ∧ Logged s m Codes.badRegAccess 0xFFFF ∧ sideways m ∧ m.tiles = s.tiles ∧ m.sched = s.sched ∧ m.mem = s.mem
            ∧ m.boot.resetting = s.boot.resetting ∧ m.boot.dies = s.boot.dies)
        ∧ (may w → key → 0 < d → d ≤ 44 →
            (d ∈ s.boot.resetting → exec c s = .next s)
            ∧ (d ∉ s.boot.resetting → s.sec.activating = true → ∃ m, exec c s = .next m ∧ waits d m)
            ∧ (d ∉ s.boot.resetting → s.sec.activating = false → ∃ m, exec c s = .next m ∧ reset d m)))
    ∧ (∀ d : Nat, d = 0 ∨ 44 < d ∨ d ∈ s.boot.resetting → exec (.dieWatchdogExpiry d) s = .next s)
    ∧ (∀ d : Nat, 0 < d → d ≤ 44 → d ∉ s.boot.resetting → ∃ m, exec (.dieWatchdogExpiry d) s = .next m ∧ Logged s m Codes.dieWatchdog 0xFFFF ∧ (s.sec.activating = false → reset d m))
    ∧ (s.sec.activating = true → ∃ m, exec .activationComplete s = .next m ∧ m.sec.activating = false ∧ ∀ d ∈ s.boot.waiting, d ∈ m.boot.resetting)
    ∧ ∀ (d : Nat) (ok : Bool),
        let c : Instr := .perDieResetComplete d ok
        (d ∉ s.boot.resetting → exec c s = .next s)
        ∧ (d ∈ s.boot.resetting → (∀ q ∈ s.sched.jobs, ∀ x, q.2 = some x → x.phase ≠ .waiting ∧ x.phase ≠ .saved) → ∃ m, exec c s = .next m
            ∧ m.boot.dieByte d = 0 ∧ m.boot.resetting = s.boot.resetting.filter (· != d) ∧ (∀ e, bitOf m.boot.bistFail e = if e = d then !ok else bitOf s.boot.bistFail e)
            ∧ (ok = false → Logged s m Codes.bistFail 0xFFFF) ∧ m.tiles = s.tiles ∧ m.mem = s.mem ∧ m.sched = s.sched
            ∧ (∀ l : Link, if d < 5 ∧ linkEdge l = d - 1 then (if ok then (m.link l).phase = (s.link l).phase ∨ (m.link l).phase = .detect else (m.link l).phase = .disabled) else m.link l = s.link l)
            ∧ ∀ e, e < 24 → m.codec.get .init e = if d < 5 ∧ engineEdge e = d - 1 then { s.codec.get .init e with unused := !ok } else s.codec.get .init e)

/-- A doorbell from the ring's owner moves the ring's pointers; one past a ring's size stops it with SCHED_RING_OVERFLOW; any other function's is logged and dropped. ENABLE = 1 makes a good ring active with zero pointers and refuses a bad one; it is held while jobs end. ENABLE = 0 cancels the ring's jobs, and ACTIVE clears when none is live.
A NOP entry completes with status 0: its entry, KIND, TAG and PHASE are as Table 3 of file 13 gives, and the ring's message is sent or held pending. CANCEL of a live job of the ring faults it; of any other number it completes with SCHED_NO_JOB. The reset of a virtual function cancels its jobs and disables its rings. A
register write from a virtual function, of the wrong width, at an unassigned offset, of a register kept from its writer, or of an active ring's configuration has no effect but a BAD_REG_ACCESS record; otherwise the named fields take their bits and all else stays. A pending message is sent when its vector is unmasked. -/
def Obligations.RingsAndRegisters : Prop :=
  ∀ s : State,
    let rest (m : State) : Prop := m.tiles = s.tiles ∧ m.dealers = s.dealers ∧ m.links = s.links ∧ m.col = s.col ∧ m.power = s.power ∧ m.grade = s.grade ∧ m.codec = s.codec
    let still (m : State) : Prop := rest m ∧ m.mem = s.mem ∧ m.hostMem = s.hostMem ∧ m.sched = s.sched ∧ m.outbox = s.outbox
    let refused (o : Host.Outcome State Fault Refusal) (c : Code) : Prop := ∃ m, o = .next m ∧ still m ∧ Logged s m c 0xFFFF
    let ringTo (m : State) (r : Nat) (y : RingSt) : Prop := m.ring r = y ∧ (∀ q, q ≠ r → m.ring q = s.ring q) ∧ rest m ∧ m.mem = s.mem ∧ m.hostMem = s.hostMem
    let cancelled (m : State) (hit : Nat → Prop) : Prop :=
      ∀ j x, s.job j = some x → (hit j → m.job j = some { x with fault := some (x.fault.getD Codes.schedCancelled) }) ∧ (¬hit j → m.job j = some x)
    let liveRing (r : Nat) (j : Nat) : Prop := ∃ x, s.job j = some x ∧ x.ring = r
    let completes (m : State) (r kind : Nat) (c : Code) (job : Nat) (e : List Byte) : Prop :=
      let x := s.ring r
      let n := x.cqTail.toNat
      m.ring r = { x with sqHead := x.sqHead + 1, cqTail := x.cqTail + 1 } ∧ (∀ q, q ≠ r → m.ring q = s.ring q)
      ∧ m.locRead (ringLoc x.cq) (ringBase x.cq + 32 * (n % 2 ^ (6 + bitsOf x.cfg.toNat 7 4))) 32
          = natLe 2 0x209A ++ natLe 1 (decide (n / 2 ^ (6 + bitsOf x.cfg.toNat 7 4) % 2 = 0)).toNat ++ natLe 1 kind ++ natLe 2 c.toNat ++ natLe 2 job
            ++ natLe 8 (entryTag e).toNat ++ natLe 4 (x.sqHead + 1).toNat ++ natLe 4 0 ++ natLe 8 0
      ∧ (let f := x.owner.toNat; let v := bitsOf x.cfg.toNat 26 16; let k := f * 2048 + v
         if s.sched.msix.get 0 k = 1 then m.outbox = s.outbox ++ [.msix f v] else m.outbox = s.outbox ∧ m.sched.msix.get 0 k = 2)
      ∧ rest m
    (∀ (f : Func) (r : Ring) (tail head : Option W32),
        let x := s.ring r
        let y := { x with sqTail := tail.getD x.sqTail, cqHead := head.getD x.cqHead }
        let owned : Prop := x.ownerValid = true ∧ x.owner.toNat = f.val
        let fits : Prop := cntDiff y.sqTail x.sqHead ≤ 2 ^ (6 + bitsOf x.cfg.toNat 3 0) ∧ cntDiff x.cqTail y.cqHead ≤ 2 ^ (6 + bitsOf x.cfg.toNat 7 4)
        (¬owned → refused (exec (.doorbell f r tail head) s) Codes.schedNotOwner)
        ∧ (owned → x.active = false ∨ x.closing = true ∨ x.stopped = true ∨ y = x → exec (.doorbell f r tail head) s = .next s)
        ∧ (owned → x.active = true → x.closing = false → x.stopped = false → fits → ∃ m, exec (.doorbell f r tail head) s = .next m ∧ ringTo m r y ∧ ∀ j, m.job j = s.job j)
        ∧ (owned → x.active = true → x.closing = false → x.stopped = false → y ≠ x → ¬fits → ∃ m, exec (.doorbell f r tail head) s = .next m
            ∧ ringTo m r { y with stopped := true, error := Codes.schedRingOverflow } ∧ Logged s m Codes.schedRingOverflow 0xFFFF ∧ ∀ j, m.job j = s.job j))
    ∧ (∀ (f : Func) (r : Ring),
        let x := s.ring r
        let may : Prop := f.val = 0 ∨ x.ownerValid = true ∧ x.owner.toNat = f.val
        let good : Prop := x.ownerValid = true ∧ bitsOf x.cfg.toNat 31 28 = 2 ∧ bitsOf x.cfg.toNat 3 0 ≤ 10 ∧ bitsOf x.cfg.toNat 7 4 ≤ 10
          ∧ bitsOf x.cfg.toNat 26 16 ≠ 0 ∧ bitsOf x.cfg.toNat 26 16 < (if x.owner.toNat = 0 then 2048 else 64)
          ∧ (ringLoc x.sq = true → s.pinnedFor (.func x.owner.toNat) (ringBase x.sq, 64 * 2 ^ (6 + bitsOf x.cfg.toNat 3 0)) = true)
          ∧ (ringLoc x.cq = true → s.pinnedFor (.func x.owner.toNat) (ringBase x.cq, 32 * 2 ^ (6 + bitsOf x.cfg.toNat 7 4)) = true)
        (¬may → refused (exec (.ringEnable f r) s) Codes.schedNotOwner ∧ refused (exec (.ringDisable f r) s) Codes.schedNotOwner)
        ∧ (may → ∃ m, exec (.ringEnable f r) s = .next m ∧ (∀ j, m.job j = s.job j)
            ∧ (x.closing = true → ringTo m r { x with enable := true, held := true })
            ∧ (x.closing = false → x.active = true → ringTo m r { x with enable := true })
            ∧ (x.closing = false → x.active = false → good → ringTo m r { x with enable := true, active := true, stopped := false, negGen := 2, negMinor := 0, cqTail := 0, sqHead := 0, sqTail := 0, cqHead := 0, submitted := 0, completed := 0, preempted := 0, faulted := 0, owed := 0, closing := false, held := false })
            ∧ (x.closing = false → x.active = false → ¬good → ringTo m r { x with enable := true, error := Codes.schedRingConfig } ∧ Logged s m Codes.schedRingConfig 0xFFFF))
        ∧ (may → ∃ m, exec (.ringDisable f r) s = .next m ∧ (∀ q, q ≠ r.val → m.ring q = s.ring q) ∧ rest m
            ∧ (x.active = false → m.ring r = { x with enable := false, held := false, closing := false } ∧ ∀ j, m.job j = s.job j)
            ∧ (x.active = true → x.closing = false → cancelled m (liveRing r) ∧ ((∃ j, liveRing r j) → m.ring r = { x with enable := false, held := false, closing := true })
                ∧ ((¬∃ j, liveRing r j) → m.ring r = { x with enable := false, held := false, closing := false, active := false }))))
    ∧ (∀ (r : Ring) (e : List Byte), s.frontEntry r = some e →
        (∀ c, s.entryCode r e = some c → ∀ i ∈ [Instr.nopEntry r, .cancel r, .partition r, .alloc r, .codecOpen r, .codecClose r],
          ∃ m, exec i s = .next m ∧ completes m r (fieldLe e 0 1) c 0 e ∧ Logged s m c 0xFFFF ∧ ∀ j, m.job j = s.job j)
        ∧ (s.entryCode r e = none → fieldLe e 0 1 = 0x96 → ∃ m, exec (.nopEntry r) s = .next m ∧ completes m r 0x96 0 0 e ∧ (∀ j, m.job j = s.job j) ∧ m.logs = s.logs)
        ∧ (s.entryCode r e = none → fieldLe e 0 1 = 0x94 →
            let j := fieldLe e 0x18 4
            (liveRing r j → ∃ m, exec (.cancel r) s = .next m ∧ completes m r 0x94 0 j e ∧ cancelled m (fun k => k = j) ∧ Logged s m Codes.schedCancelled 0xFFFF)
            ∧ (¬liveRing r j → ∃ m, exec (.cancel r) s = .next m ∧ completes m r 0x94 Codes.schedNoJob 0 e ∧ (∀ k, m.job k = s.job k) ∧ Logged s m Codes.schedNoJob 0xFFFF)))
    ∧ (∀ r : Ring, s.frontEntry r = none → ∀ i ∈ [Instr.nopEntry r, .cancel r, .partition r], exec i s = .next s)
    ∧ (∀ f : Func, (f.val = 0 → exec (.vfFlr f) s = .next s)
        ∧ (f.val ≠ 0 → (∀ r, s.ring r ≠ .init → r < 256) → (∀ j x, s.job j = some x → (s.ring x.ring).ownerValid = true → (s.ring x.ring).owner.toNat = f.val → x.func = f.val) →
            ∃ m, exec (.vfFlr f) s = .next m ∧ rest m ∧ cancelled m (fun j => ∃ x, s.job j = some x ∧ x.func = f.val)
              ∧ ∀ r, if (s.ring r).ownerValid = true ∧ (s.ring r).owner.toNat = f.val then (m.ring r).enable = false ∧ (m.ring r).held = false else m.ring r = s.ring r))
    ∧ ∀ (off : BitVec 40) (width : Nat) (v : W64),
        let w (who : Iface) : Host.Outcome State Fault Refusal := exec (.registerWrite who off width v) s
        let bad (who : Iface) : Prop := refused (w who) Codes.badRegAccess
        let n := v.toNat
        let conductor (x : Reg) : Prop := (x.wide width = true → ∀ r, (x = .ringOwner r → (s.ring r).active = true → bad (.host 0))
            ∧ (x = .ringOwner r → (s.ring r).active = false → ∃ m, w (.host 0) = .next m ∧ ringTo m r { s.ring r with ownerValid := bitOf n 7, owner := BitVec.ofNat 6 (bitsOf n 5 0) }))
          ∧ (x.wide width = true →
            (x = .swapWait → w (.host 0) = .next { s with sched := { s.sched with swapWait := v.truncate 32 } })
            ∧ (x = .ageLimit → w (.host 0) = .next { s with sched := { s.sched with ageLimit := v.truncate 32 } })
            ∧ (x = .stageAddr → w (.host 0) = .next { s with sec := { s.sec with stageAddr := bitsOf n 47 0 } })
            ∧ (x = .colStall → w (.host 0) = .next { s with col := { s.col with stall := v.truncate 32 } })
            ∧ (x = .colError → w (.host 0) = .next (if bitOf n 63 then { s with col := { s.col with errValid := false } } else s))
            ∧ (x = .ftlBudget → bad (.host 0))
            ∧ (∀ who, who = .host 0 ∨ who = .board →
                (x = .bootCtrl → w who = .next { s with boot := { s.boot with marginSt00 := bitOf n 0 } })
                ∧ (x = .holdWindow → w who = .next { s with power := { s.power with cfg := { s.power.cfg with holdWindow := v.truncate 32 } } })
                ∧ (x = .pwrRamp → w who = .next { s with power := { s.power with cfg := { s.power.cfg with rampLen := bitsOf n 15 0, waves := bitsOf n 19 18, spacing := bitsOf n 31 20 } } })))
        let units (x : Reg) : Prop := x.wide width = true →
          (∀ t, x = .waitLimit t → ∃ m, w (.host 0) = .next m ∧ OnlyTile s m t ∧ m.tile t = { s.tile t with regs := { (s.tile t).regs with waitLimit := v.truncate 32 } })
          ∧ (∀ t, x = .srSeed t → ∃ m, w (.host 0) = .next m ∧ OnlyTile s m t ∧ m.tile t = { s.tile t with regs := { (s.tile t).regs with seed := v } })
          ∧ (∀ t, x = .tileFault t → bitOf n 31 = true → ∃ m, w (.host 0) = .next m ∧ OnlyTile s m t
              ∧ m.tile t = { s.tile t with regs := { (s.tile t).regs with fault := { (s.tile t).regs.fault with valid := false } } })
          ∧ (∀ k, x = .memScrub k → ∃ m, w (.host 0) = .next m ∧ m.stack k = { s.stack k with interval := bitsOf n 15 0, ceLimit := bitsOf n 31 16 } ∧ ∀ i, i ≠ k → m.stack i = s.stack i)
          ∧ (∀ l, x = .lnkCtrl l → ∃ m, w (.host 0) = .next m
              ∧ m.link l = { s.link l with rto := BitVec.ofNat 32 (bitsOf n 63 32), etype := bitsOf n 31 16, encap := bitsOf n 5 4, media := bitsOf n 3 2 } ∧ ∀ i, i ≠ l → m.link i = s.link i)
          ∧ (∀ d, x = .dlrReject d → bitOf n 31 = true → ∃ m, w (.host 0) = .next m ∧ m.dealer d = { s.dealer d with reject := { (s.dealer d).reject with valid := false } }
              ∧ ∀ i, i ≠ d → m.dealer i = s.dealer i)
        (∀ f : Func, f.val ≠ 0 → bad (.host f)) ∧ (regAt off.toNat = none → bad (.host 0) ∧ bad .board)
        ∧ (∀ x, regAt off.toNat = some (some x) → (x.wide width = false → bad (.host 0) ∧ bad .board) ∧ (x.boardMay = false → bad .board) ∧ conductor x ∧ units x)
        ∧ ∀ f : Func, let o := off.toNat
          (o < 0x100000 → ¬((s.ring (o / 4096)).ownerValid = true ∧ (s.ring (o / 4096)).owner.toNat = f.val) → refused (w (.bar0 f)) Codes.schedNotOwner)
          ∧ ∀ i, i < (if f.val = 0 then 2048 else 64) → o = 0x100000 + 16 * i + 12 →
              let k := f.val * 2048 + i
              ∃ m, w (.bar0 f) = .next m ∧ rest m ∧ m.mem = s.mem
                ∧ (bitOf n 0 = true → m.outbox = s.outbox ∧ m.sched.msix.get 0 k = (if s.sched.msix.get 0 k = 1 then 0 else s.sched.msix.get 0 k))
                ∧ (bitOf n 0 = false → m.sched.msix.get 0 k = 1 ∧ m.outbox = (if s.sched.msix.get 0 k = 2 then s.outbox ++ [.msix f.val i] else s.outbox))

/-- A JOB entry that may not run completes with its code and the lowest free number; of an admitted best-effort one the entry is consumed and its completion owed: it waits for another grade or for tiles, or runs on the places of the walk with its save objects. Where nothing else waits: a job with nothing left to do ends with status 0, one
with a fault with its code once nothing of it is in flight: its number is free, its tiles are released, its completion has KIND 0x90, JOB, TAG and PREEMPTS, the ring counts it, and with status 0 the waiting best-effort jobs count one more completion. A save that ends leaves the job saved and its tiles released. A swap saves the victim, with REASON 2 and a record. The ante slot, when free, takes the
first aged job. A PARTITION entry with a wrong mask completes with SCHED_PARTITION, one that changes nothing with 0; otherwise its dies are the conductor's until their scrub ends, and then the function's: their pages read zero, their tiles' scratchpads and accumulators are clear, and the entry completes. -/
def Obligations.JobsAndPartitions : Prop :=
  ∀ s : State,
    let idle : Prop := s.power.target.isSome = true ∨ ∀ q ∈ s.sched.jobs, ∀ x, q.2 = some x → x.phase ≠ .waiting ∧ x.phase ≠ .saved
    let idleBut (j : Nat) : Prop := s.power.target.isSome = true ∨ ∀ q ∈ s.sched.jobs, q.1 ≠ j → ∀ x, q.2 = some x → x.phase ≠ .waiting ∧ x.phase ≠ .saved
    let up (x : W32) : W32 := BitVec.ofNat 32 (min (2 ^ 32 - 1) (x.toNat + 1))
    let others (m : State) (j : Nat) : Prop := ∀ k, k ≠ j → m.job k = s.job k
    let wrote (m : State) (r kind : Nat) (c : Code) (job : Nat) (tag : W64) (head pre : Nat) : Prop :=
      let x := s.ring r
      let n := x.cqTail.toNat
      m.locRead (ringLoc x.cq) (ringBase x.cq + 32 * (n % 2 ^ (6 + bitsOf x.cfg.toNat 7 4))) 32
        = natLe 2 0x209A ++ natLe 1 (decide (n / 2 ^ (6 + bitsOf x.cfg.toNat 7 4) % 2 = 0)).toNat ++ natLe 1 kind ++ natLe 2 c.toNat ++ natLe 2 job
          ++ natLe 8 tag.toNat ++ natLe 4 head ++ natLe 4 (pre % 2 ^ 32) ++ natLe 8 0
      ∧ (let f := x.owner.toNat; let v := bitsOf x.cfg.toNat 26 16; let k := f * 2048 + v
         if s.sched.msix.get 0 k = 1 then m.outbox = s.outbox ++ [.msix f v] else m.outbox = s.outbox ∧ m.sched.msix.get 0 k = 2)
    let released (m : State) (ps : List DiePlace) : Prop := ∀ p ∈ ps, ∀ i, i < 12 → bitOf p.mask i = true → (m.tile (12 * p.die + i)).hand = none ∧ (m.tile (12 * p.die + i)).run = .idle
    let older (x : JobSt) : JobSt := if x.desc.cls = 0 ∧ (x.phase = .waiting ∨ x.phase = .saved) then { x with age := x.age + 1 } else x
    let live (r : Nat) : Prop := (s.ring r).active = true ∧ (s.ring r).closing = false
    let ended (m : State) (j : Nat) (x : JobSt) (c : Code) : Prop :=
      let y := s.ring x.ring
      m.job j = none ∧ (∀ k, k ≠ j → m.job k = if c = 0 then (s.job k).map older else s.job k) ∧ m.sched.ante = (if s.sched.ante = j then 0 else s.sched.ante) ∧ (x.phase ≠ .waiting → x.phase ≠ .saved → released m x.places)
      ∧ m.ring x.ring = { y with cqTail := y.cqTail + 1, owed := y.owed - 1, completed := if c = 0 then up y.completed else y.completed, faulted := if c = 0 then y.faulted else up y.faulted }
      ∧ (∀ q, q ≠ x.ring → m.ring q = s.ring q) ∧ wrote m x.ring 0x90 c j x.tag y.sqHead.toNat x.preempts
    (∀ j : Nat, s.job j = none → exec (.jobComplete j) s = .next s ∧ exec (.jobFault j) s = .next s ∧ ∀ late, exec (.saveComplete j late) s = .next s)
    ∧ (∀ (j : Nat) (x : JobSt), s.job j = some x →
        (s.jobDone j x = false → exec (.jobComplete j) s = .next s)
        ∧ (s.jobDone j x = true → live x.ring → idleBut j → ∃ m, exec (.jobComplete j) s = .next m ∧ ended m j x 0)
        ∧ (x.fault = none ∨ x.phase = .saving ∨ (x.phase = .ending ∧ s.inFlight x = true) → exec (.jobFault j) s = .next s)
        ∧ (∀ c, x.fault = some c → x.phase = .running → (∀ n : Chan, ∀ y, (s.chan n).run = some y → y.job ≠ j) → s.inFlight x = true → ∃ m, exec (.jobFault j) s = .next m
            ∧ m.job j = some { x with phase := .ending } ∧ others m j ∧ (∀ t ∈ x.tiles, ∀ d ∈ (m.tile t).dmas, d.waiting = false) ∧ ∀ t, t ∉ x.tiles → m.tile t = s.tile t)
        ∧ (∀ c, x.fault = some c → c ≠ 0 → x.phase ≠ .saving → (∀ n : Chan, ∀ y, (s.chan n).run = some y → y.job ≠ j) → (x.phase = .running ∨ x.phase = .ending → s.inFlight x = false) → live x.ring → idleBut j →
            ∃ m, exec (.jobFault j) s = .next m ∧ ended m j x c)
        ∧ (∀ late : Bool, (x.phase ≠ .saving ∨ s.inFlight x = true → exec (.saveComplete j late) s = .next s)
            ∧ (x.phase = .saving → s.inFlight x = false → s.jobDone j x = true → live x.ring → idleBut j → ∃ m, exec (.saveComplete j late) s = .next m ∧ ended m j x 0)
            ∧ (x.phase = .saving → s.inFlight x = false → s.jobDone j x = false → (∀ t ∈ x.tiles, (s.tile t).hand = none ∨ (s.tile t).regs.sums.blocks = 0) → s.power.target.isSome = true →
                ∃ m ts qs, exec (.saveComplete j late) s = .next m ∧ m.job j = some { x with phase := .saved, age := 0, savedTiles := ts, savedQueues := qs } ∧ others m j ∧ released m x.places
                  ∧ (late = true → Logged s m Codes.schedPreemptLate 0xFFFF))))
    ∧ (∀ long : List (Die × Nat × Nat),
        (s.sched.swapWait = 0 ∨ (∀ d, d < 8 → s.swapVictim (long.map (fun q => (q.1.val, q.2))) d = none) → exec (.swapEvaluation long) s = .next s)
        ∧ ∀ (d : Die) (v : Nat) (x : JobSt), s.sched.swapWait ≠ 0 → (∀ q ∈ long, q.1 = d) → s.swapVictim (long.map (fun q => (q.1.val, q.2))) d = some v → s.fitsWithout v = true → s.job v = some x →
            ∃ m, exec (.swapEvaluation long) s = .next m ∧ m.job v = some { x with phase := .saving, reason := 2, preempts := x.preempts + 1, waitOrder := s.sched.waitCtr } ∧ others m v
              ∧ m.ring x.ring = { s.ring x.ring with preempted := up (s.ring x.ring).preempted } ∧ (∀ q, q ≠ x.ring → m.ring q = s.ring q) ∧ Logged s m Codes.schedSwapped 0xFFFF)
    ∧ (let aged (j : Nat) (x : JobSt) : Prop := (j, some x) ∈ s.sched.jobs ∧ x.desc.cls = 0 ∧ (x.phase = .waiting ∨ x.phase = .saved) ∧ s.sched.ageLimit.toNat ≤ x.age
       let may : Prop := s.sched.ante = 0 ∧ s.sched.ageLimit ≠ 0 ∧ ∃ j x, aged j x
       (¬may → exec .anteSlotPromotion s = .next s)
       ∧ (may → ∃ m j x, exec .anteSlotPromotion s = .next m ∧ aged j x ∧ (∀ k y, aged k y → x.waitOrder * 4096 + j ≤ y.waitOrder * 4096 + k) ∧ m.sched = { s.sched with ante := j }
           ∧ Logged s m Codes.schedAged 0xFFFF ∧ m.tiles = s.tiles ∧ m.mem = s.mem))
    ∧ (∀ (r : Ring) (twin : Bool) (vote : Vote), s.sec.activating = true ∨ s.power.target.isSome = true ∨ s.frontEntry r = none → exec (.job r twin vote) s = .next s)
    ∧ (∀ (r : Ring) (e : List Byte) (twin : Bool) (vote : Vote) (j : Nat), s.frontEntry r = some e → s.entryCode r e = none → fieldLe e 0 1 = 0x90 → s.sec.activating = false → s.power.target = none → s.freeJobNo = some j →
        let x := s.ring r
        let f := x.owner.toNat
        let a := fieldLe e 0x10 8
        let bs := s.readMem a 256
        let d := jobDescOf bs
        let code : Option Code := if s.power.powerFail then some Codes.powerFail else if s.power.tripped then some Codes.thermalTrip else if s.funcDies f = [] then some Codes.schedNoPartition
          else if s.jobDescBad f a bs d then some Codes.schedDesc else if (s.funcDies f).length < d.dies then some Codes.schedTooLarge else if d.twin && !twin then some Codes.schedTwinAbsent else none
        let refused (c : Code) : Prop := ∃ m, exec (.job r twin vote) s = .next m ∧ (∀ k, m.job k = s.job k) ∧ Logged s m c 0xFFFF ∧ wrote m r 0x90 c j (entryTag e) (x.sqHead + 1).toNat 0
          ∧ m.ring r = { x with sqHead := x.sqHead + 1, cqTail := x.cqTail + 1, submitted := up x.submitted, faulted := up x.faulted } ∧ ∀ q, q ≠ r → m.ring q = s.ring q
        let offers (xs : List Nat) (n : Nat) : List Nat := s.offered.filter (fun g => xs.getD g 0 == n)
        let admitted (m : State) (y : JobSt) : Prop := exec (.job r twin vote) s = .next m ∧ m.job j = some y ∧ others m j ∧ y.ring = r ∧ y.tag = entryTag e ∧ y.func = f ∧ y.desc = d ∧ y.admitted = s.sched.admitCtr
          ∧ m.ring r = { x with sqHead := x.sqHead + 1, owed := x.owed + 1, submitted := up x.submitted } ∧ ∀ q, q ≠ r → m.ring q = s.ring q
        (∀ c, code = some c → refused c)
        ∧ (code = none → s.absentPages d.streams (16 * d.dies) = [] →
            (∀ c, vote = .aborted c → c ≠ 0 → refused c)
            ∧ ∀ n xs, vote = .sums n xs →
                (offers xs n = [] → refused Codes.gradeNoCommon)
                ∧ ∀ g, (offers xs n).getLast? = some g →
                    (d.cls ≠ 0 → d.wcet.getD g 0 = 0 → refused Codes.schedNoBound)
                    ∧ (d.cls ≠ 0 → d.wcet.getD g 0 ≠ 0 → s.anteKeeps.bind (fun kept => s.placeLc f d kept) = none → refused Codes.schedLcCapacity)
                    ∧ (d.cls = 0 → (∀ q ∈ s.sched.jobs, ∀ x, q.2 = some x → x.phase ≠ .waiting ∧ x.phase ≠ .saved) →
                        let z := (s.consume r).modRing r (fun y => { y with submitted := up y.submitted })
                        let t := State.setJob { z with sched := { z.sched with admitCtr := z.sched.admitCtr + 1, waitCtr := z.sched.waitCtr + 1 } } j (some { JobSt.new r e f d s.sched.admitCtr s.sched.waitCtr 0 with grade := g })
                        (g ≠ s.grade → ∃ m y, admitted m y ∧ y.phase = .waiting ∧ y.grade = g ∧ m.power = { s.power with target := some g })
                        ∧ (g = s.grade → t.walk f d t.tileFree = none → ∃ m y, admitted m y ∧ y.phase = .waiting ∧ y.grade = g ∧ m.power = s.power)
                        ∧ ∀ ps qs u, g = s.grade → t.walk f d t.tileFree = some ps → State.allocSaves j f (savePages d.tpd) [] ps t = .ok qs u →
                            ∃ m y, admitted m y ∧ y.phase = .running ∧ y.places = qs ∧ y.grade = g ∧ (d.interleave = 0 → y.fault = none))))
    ∧ (∀ (r : Ring) (e : List Byte), s.frontEntry r = some e → s.entryCode r e = none → fieldLe e 0 1 = 0x95 →
        let x := s.ring r
        let f := fieldLe e 0x10 1
        let mask := fieldLe e 0x11 1
        let old (d : Nat) : Nat := s.sched.partition.get 0 d
        let owner (d : Nat) : Nat := if bitOf mask d then f + 1 else if old d = f + 1 then 0 else old d
        let changed : List Nat := (List.range 8).filter (fun d => owner d != old d)
        let busy : Prop := ∃ q ∈ s.sched.scrubs, q.func = f ∨ ∃ d ∈ q.scrubbing, bitOf mask d = true
        let bad : Prop := 64 ≤ f ∨ ¬(mask = 0 ∨ ∃ k ∈ [1, 2, 4, 8], ∃ i, i < 8 / k ∧ mask = (2 ^ k - 1) * 2 ^ (k * i)) ∨ (∃ d, d < 8 ∧ bitOf mask d = true ∧ old d ≠ 0 ∧ old d ≠ f + 1)
          ∨ ∃ d ∈ changed, ∃ q ∈ s.sched.jobs, ∃ y, q.2 = some y ∧ y.places.any (fun p => p.die == d) = true
        let completes (c : Code) : Prop := ∃ m, exec (.partition r) s = .next m ∧ wrote m r 0x95 c 0 (entryTag e) (x.sqHead + 1).toNat 0 ∧ m.ring r = { x with sqHead := x.sqHead + 1, cqTail := x.cqTail + 1 }
          ∧ (∀ q, q ≠ r → m.ring q = s.ring q) ∧ m.sched.partition = s.sched.partition ∧ m.tiles = s.tiles ∧ (c ≠ 0 → Logged s m c 0xFFFF)
        (busy → exec (.partition r) s = .next s) ∧ (¬busy → bad → completes Codes.schedPartition) ∧ (¬busy → ¬bad → changed = [] → completes 0)
        ∧ (¬busy → ¬bad → changed ≠ [] → ∃ m, exec (.partition r) s = .next m ∧ m.ring r = { x with sqHead := x.sqHead + 1, owed := x.owed + 1 } ∧ (∀ q, q ≠ r → m.ring q = s.ring q)
            ∧ (∀ d, m.sched.partition.get 0 d = if d ∈ changed then 0 else old d) ∧ m.sched.scrubs = s.sched.scrubs ++ [⟨f, mask, changed, ⟨some r, entryTag e, 0x95, 0⟩⟩] ∧ (∀ j, m.job j = s.job j) ∧ m.tiles = s.tiles))
    ∧ (∀ r : Ring, s.frontEntry r = none → exec (.partition r) s = .next s)
    ∧ ∀ f : Func, (s.sched.scrubs.find? (fun q => q.func == f.val) = none → exec (.partitionScrubComplete f) s = .next s)
      ∧ ∀ (q : ScrubSt) (r : Nat), s.sched.scrubs.find? (fun q => q.func == f.val) = some q → q.pend.ring = some r → live r → idle →
          let y := s.ring r
          ∃ m, exec (.partitionScrubComplete f) s = .next m ∧ (∀ d, m.sched.partition.get 0 d = if d ∈ q.scrubbing ∧ bitOf q.dies d = true then f.val + 1 else s.sched.partition.get 0 d)
            ∧ m.sched.scrubs = s.sched.scrubs.filter (fun z => z.func != f.val)
            ∧ (∀ d ∈ q.scrubbing, ∀ i, i < 12 → (m.tile (12 * d + i)).spad = [] ∧ (m.tile (12 * d + i)).acc = [])
            ∧ (ringLoc y.cq = false → ∀ d ∈ q.scrubbing, ∀ p z a, (p, some z) ∈ s.mem.pages → (∃ k, z.frame = some k ∧ frameStack k / 4 = d) → p * 2097152 ≤ a → a < p * 2097152 + 2097152 → m.mem.bytes.get 0 a = 0)
            ∧ m.ring r = { y with cqTail := y.cqTail + 1, owed := y.owed - 1 } ∧ (∀ k, k ≠ r → m.ring k = s.ring k) ∧ wrote m r q.pend.kind 0 0 q.pend.tag y.sqHead.toNat 0 ∧ ∀ j, m.job j = s.job j

/-- Two tile instructions whose 128-bit slots are equal are the same instruction with the same guard and operands: no bit of an encoding is dropped and no two encodings overlap. So, in every state, at most one tile instruction stands at the program counter of a tile's running hand. -/
def Obligations.SlotsAreDistinct : Prop :=
  (∀ (i j : Instr) (t : Tile) (w : Slot), encodeSlot i = some (t, w) → encodeSlot j = some (t, w) → i = j)
  ∧ ∀ (s : State) (i j : Instr) (t : Tile) (v w : Slot), encodeSlot i = some (t, v) → encodeSlot j = some (t, w) → Claims.Stands s t i → Claims.Stands s t j → i = j
end

