-- ==== Sys2Proof/Laws/SMap.lean ====
section
/-!
SUPPORT. Laws/SMap.lean: reads after writes of the sparse maps, and their canonical form.
-/

namespace Sys2Proof.Machine

variable {α : Type}

@[simp] theorem SMap.get_nil (d : α) (k : Nat) : SMap.get d ([] : SMap α) k = d := rfl

theorem SMap.get_append_left (d : α) (a b : SMap α) (k : Nat) (h : ∀ p ∈ b, p.1 ≠ k) :
    SMap.get d (a ++ b) k = SMap.get d a k := by
  have : b.find? (fun p => p.1 == k) = none := by
    rw [List.find?_eq_none]
    intro p hp
    simpa using h p hp
  unfold SMap.get
  rw [List.find?_append, this, Option.or_none]

theorem SMap.get_append_right (d : α) (a b : SMap α) (k : Nat) (h : ∀ p ∈ a, p.1 ≠ k) :
    SMap.get d (a ++ b) k = SMap.get d b k := by
  have : a.find? (fun p => p.1 == k) = none := by
    rw [List.find?_eq_none]
    intro p hp
    simpa using h p hp
  unfold SMap.get
  rw [List.find?_append, this, Option.none_or]

theorem SMap.get_filter (d : α) (m : SMap α) (q : Nat → Bool) (k : Nat) (h : q k = true) :
    SMap.get d (m.filter (fun p => q p.1)) k = SMap.get d m k := by
  unfold SMap.get
  rw [List.find?_filter]
  congr 2
  funext p
  by_cases e : p.1 = k
  · simp [e, h]
  · simp [e]

theorem SMap.get_splice (d : α) (m : SMap α) (lo hi : Nat) (mid : SMap α) (k : Nat) (hle : lo ≤ hi)
    (h : ∀ p ∈ mid, lo ≤ p.1 ∧ p.1 < hi) :
    (m.splice lo hi mid).get d k = if lo ≤ k ∧ k < hi then mid.get d k else m.get d k := by
  unfold SMap.splice
  split
  · next hk =>
    rw [SMap.get_append_left, SMap.get_append_right]
    · intro p hp; have := (List.mem_filter.1 hp).2; simp at this; omega
    · intro p hp; have := (List.mem_filter.1 hp).2; simp at this; omega
  · next hk =>
    by_cases hl : k < lo
    · rw [SMap.get_append_left, SMap.get_append_left]
      · exact SMap.get_filter d m (fun x => decide (x < lo)) k (by simpa using hl)
      · intro p hp; have := h p hp; omega
      · intro p hp; have := (List.mem_filter.1 hp).2; simp at this; omega
    · rw [SMap.get_append_right]
      · exact SMap.get_filter d m (fun x => decide (hi ≤ x)) k (by simp; omega)
      · intro p hp
        rcases List.mem_append.1 hp with hp | hp
        · have := (List.mem_filter.1 hp).2; simp at this; omega
        · have := h p hp; omega

theorem SMap.get_set [DecidableEq α] (d : α) (m : SMap α) (k j : Nat) (v : α) :
    (m.set d k v).get d j = if j = k then v else m.get d j := by
  unfold SMap.set
  rw [SMap.get_splice _ _ _ _ _ _ (by omega)]
  · by_cases e : j = k
    · subst e
      by_cases ev : v = d
      · simp [ev]
      · simp [ev, SMap.get]
    · rw [if_neg (by omega), if_neg e]
  · intro p hp
    split at hp
    · cases hp
    · simp at hp; subst hp; simp

@[simp] theorem SMap.get_set_same [DecidableEq α] (d : α) (m : SMap α) (k : Nat) (v : α) :
    (m.set d k v).get d k = v := by simp [SMap.get_set]

theorem SMap.get_set_other [DecidableEq α] (d : α) (m : SMap α) (k j : Nat) (v : α) (h : j ≠ k) :
    (m.set d k v).get d j = m.get d j := by simp [SMap.get_set, h]

theorem SMap.entries_keys [DecidableEq α] (d : α) (vs : List α) (k : Nat) :
    ∀ p ∈ SMap.entries d k vs, k ≤ p.1 ∧ p.1 < k + vs.length := by
  induction vs generalizing k with
  | nil => intro p hp; cases hp
  | cons v vs ih =>
    intro p hp
    unfold SMap.entries at hp
    split at hp
    · have := ih (k + 1) p hp; simp; omega
    · rcases List.mem_cons.1 hp with rfl | hp
      · simp
      · have := ih (k + 1) p hp; simp; omega

theorem SMap.get_entries [DecidableEq α] (d : α) (vs : List α) (k j : Nat) (h : k ≤ j) :
    (SMap.entries d k vs).get d j = vs.getD (j - k) d := by
  induction vs generalizing k with
  | nil => simp [SMap.entries]
  | cons v vs ih =>
    unfold SMap.entries
    by_cases e : j = k
    · subst e
      split
      · next hv =>
        simp only [Nat.sub_self, List.getD_cons_zero, hv]
        unfold SMap.get
        rw [List.find?_eq_none.2]
        intro p hp
        have := SMap.entries_keys d vs (j + 1) p hp
        simp; omega
      · simp [SMap.get]
    · have hj : j - k = (j - (k + 1)) + 1 := by omega
      split
      · rw [ih (k + 1) (by omega), hj, List.getD_cons_succ]
      · rw [hj, List.getD_cons_succ, ← ih (k + 1) (by omega)]
        unfold SMap.get
        rw [List.find?_cons_of_neg]
        simp; omega

/-- A byte range after a write: the written values inside, the old ones outside. -/
theorem SMap.get_setRange [DecidableEq α] (d : α) (m : SMap α) (base : Nat) (vs : List α) (j : Nat) :
    (m.setRange d base vs).get d j
      = if base ≤ j ∧ j < base + vs.length then vs.getD (j - base) d else m.get d j := by
  unfold SMap.setRange
  rw [SMap.get_splice _ _ _ _ _ _ (by omega) (SMap.entries_keys d vs base)]
  split
  · next h => exact SMap.get_entries d vs base j h.1
  · rfl

theorem SMap.get_clear (d : α) (m : SMap α) (base n j : Nat) :
    (m.clear base n).get d j = if base ≤ j ∧ j < base + n then d else m.get d j := by
  unfold SMap.clear
  rw [SMap.get_splice _ _ _ _ _ _ (by omega) (by simp)]
  simp

theorem SMap.get_slice (d : α) (m : SMap α) (base n i : Nat) (h : i < n) :
    (m.slice base n).get d i = m.get d (base + i) := by
  unfold SMap.slice SMap.get
  rw [List.find?_map, List.find?_filter]
  have e : ∀ (q : Nat × α → Bool), (∀ a, q a = (a.1 == base + i)) → m.find? q = m.find? (fun p => p.1 == base + i) :=
    fun q hq => by rw [funext hq]
  rw [e]
  swap
  · intro a
    rw [Bool.eq_iff_iff]
    simp only [Function.comp_apply, decide_eq_true_eq, beq_iff_eq]
    omega
  cases m.find? (fun p => p.1 == base + i) <;> rfl

@[simp] theorem SMap.getRange_length (d : α) (m : SMap α) (base n : Nat) : (m.getRange d base n).length = n := by
  simp [SMap.getRange]

theorem SMap.getRange_getD (d : α) (m : SMap α) (base n i : Nat) (h : i < n) :
    (m.getRange d base n).getD i d = m.get d (base + i) := by
  simp [SMap.getRange, List.getD, h, SMap.get_slice d m base n i h]

theorem SMap.getRange_eq (d : α) (m : SMap α) (base n : Nat) :
    m.getRange d base n = (List.range n).map (fun i => m.get d (base + i)) := by
  unfold SMap.getRange
  apply List.map_congr_left
  intro i hi
  exact SMap.get_slice d m base n i (List.mem_range.1 hi)

/-- Reading back what a write of the same range stored. -/
theorem SMap.getRange_setRange [DecidableEq α] (d : α) (m : SMap α) (base : Nat) (vs : List α) :
    (m.setRange d base vs).getRange d base vs.length = vs := by
  rw [SMap.getRange_eq]
  apply List.ext_getElem
  · simp
  · intro i h1 h2
    have hi : i < vs.length := h2
    simp only [List.getElem_map, List.getElem_range, SMap.get_setRange]
    have h : base ≤ base + i ∧ base + i < base + vs.length := by omega
    rw [if_pos h]
    simp [List.getD, hi]

/-! Canonical form. -/

/-- The canonical form, as a property of the list. -/
theorem SMap.wf_iff [DecidableEq α] (d : α) (m : SMap α) :
    m.wf d = true ↔ m.Pairwise (fun p q => p.1 < q.1) ∧ ∀ p ∈ m, p.2 ≠ d := by
  induction m with
  | nil => simp [SMap.wf]
  | cons p m ih =>
    obtain ⟨k, v⟩ := p
    cases m with
    | nil => simp [SMap.wf]
    | cons q m =>
      obtain ⟨k', v'⟩ := q
      simp only [SMap.wf, Bool.and_eq_true, ih, decide_eq_true_eq, bne_iff_ne]
      constructor
      · rintro ⟨⟨hv, hk⟩, hp, hd⟩
        refine ⟨List.pairwise_cons.2 ⟨?_, hp⟩, ?_⟩
        · intro q hq
          rcases List.mem_cons.1 hq with rfl | hq
          · exact hk
          · exact Nat.lt_trans hk ((List.pairwise_cons.1 hp).1 q hq)
        · intro q hq
          rcases List.mem_cons.1 hq with rfl | hq
          · exact hv
          · exact hd q hq
      · rintro ⟨hp, hd⟩
        have h := List.pairwise_cons.1 hp
        exact ⟨⟨hd (k, v) (by simp), h.1 (k', v') (by simp)⟩, h.2, fun q hq => hd q (by simp [hq])⟩

@[simp] theorem SMap.wf_nil [DecidableEq α] (d : α) : SMap.wf d ([] : SMap α) = true := rfl

theorem SMap.wf_filter [DecidableEq α] (d : α) (m : SMap α) (q : Nat × α → Bool) (h : m.wf d = true) :
    SMap.wf d (m.filter q) = true := by
  rw [SMap.wf_iff] at *
  exact ⟨h.1.filter _, fun p hp => h.2 p (List.mem_filter.1 hp).1⟩

/-- A write beside a range leaves the range. -/
theorem SMap.getRange_setRange_other [DecidableEq α] (d : α) (m : SMap α) (base : Nat) (vs : List α) (base' n : Nat)
    (h : base' + n ≤ base ∨ base + vs.length ≤ base') : (m.setRange d base vs).getRange d base' n = m.getRange d base' n := by
  rw [SMap.getRange_eq, SMap.getRange_eq]
  apply List.map_congr_left
  intro i hi
  have := List.mem_range.1 hi
  rw [SMap.get_setRange, if_neg (by omega)]

/-- A splice of a canonical piece with keys in its range keeps the canonical form. -/
theorem SMap.wf_splice [DecidableEq α] (d : α) (m : SMap α) (lo hi : Nat) (mid : SMap α) (hm : m.wf d = true)
    (hmid : mid.wf d = true) (hle : lo ≤ hi) (h : ∀ p ∈ mid, lo ≤ p.1 ∧ p.1 < hi) :
    (m.splice lo hi mid).wf d = true := by
  have hl := SMap.wf_filter d m (fun p => decide (p.1 < lo)) hm
  have hh := SMap.wf_filter d m (fun p => decide (hi ≤ p.1)) hm
  unfold SMap.splice
  rw [SMap.wf_iff] at *
  refine ⟨?_, ?_⟩
  · rw [List.pairwise_append, List.pairwise_append]
    refine ⟨⟨hl.1, hmid.1, ?_⟩, hh.1, ?_⟩
    · intro a ha b hb
      have h1 := (List.mem_filter.1 ha).2
      have h2 := h b hb
      simp at h1; omega
    · intro a ha b hb
      have h2 := (List.mem_filter.1 hb).2
      simp at h2
      rcases List.mem_append.1 ha with ha | ha
      · have h1 := (List.mem_filter.1 ha).2
        simp at h1; omega
      · have h1 := h a ha; omega
  · intro p hp
    rcases List.mem_append.1 hp with hp | hp
    · rcases List.mem_append.1 hp with hp | hp
      · exact hl.2 p hp
      · exact hmid.2 p hp
    · exact hh.2 p hp

theorem SMap.wf_set [DecidableEq α] (d : α) (m : SMap α) (k : Nat) (v : α) (hm : m.wf d = true) :
    (m.set d k v).wf d = true := by
  unfold SMap.set
  apply SMap.wf_splice d m _ _ _ hm _ (by omega)
  · intro p hp
    split at hp
    · cases hp
    · simp at hp; subst hp; simp
  · split
    · rfl
    · next h => simp [SMap.wf, h]

theorem SMap.wf_entries [DecidableEq α] (d : α) (vs : List α) (k : Nat) : (SMap.entries d k vs).wf d = true := by
  induction vs generalizing k with
  | nil => rfl
  | cons v vs ih =>
    unfold SMap.entries
    split
    · exact ih (k + 1)
    · next hv =>
      rw [SMap.wf_iff]
      have := (SMap.wf_iff d _).1 (ih (k + 1))
      refine ⟨List.pairwise_cons.2 ⟨?_, this.1⟩, ?_⟩
      · intro q hq
        have := SMap.entries_keys d vs (k + 1) q hq
        simp; omega
      · intro q hq
        rcases List.mem_cons.1 hq with rfl | hq
        · exact hv
        · exact this.2 q hq

theorem SMap.wf_setRange [DecidableEq α] (d : α) (m : SMap α) (base : Nat) (vs : List α) (hm : m.wf d = true) :
    (m.setRange d base vs).wf d = true :=
  SMap.wf_splice d m _ _ _ hm (SMap.wf_entries d vs base) (by omega) (SMap.entries_keys d vs base)

theorem SMap.wf_clear [DecidableEq α] (d : α) (m : SMap α) (base n : Nat) (hm : m.wf d = true) :
    (m.clear base n).wf d = true :=
  SMap.wf_splice d m _ _ _ hm rfl (by omega) (by simp)

theorem SMap.wf_slice [DecidableEq α] (d : α) (m : SMap α) (base n : Nat) (hm : m.wf d = true) :
    (m.slice base n).wf d = true := by
  have h := SMap.wf_filter d m (fun p => decide (base ≤ p.1 ∧ p.1 < base + n)) hm
  unfold SMap.slice
  rw [SMap.wf_iff] at *
  refine ⟨?_, ?_⟩
  · rw [List.pairwise_map]
    have hk : ∀ p ∈ m.filter (fun p => decide (base ≤ p.1 ∧ p.1 < base + n)), base ≤ p.1 := by
      intro p hp; have := (List.mem_filter.1 hp).2; simp at this; exact this.1
    exact h.1.imp_of_mem (fun {a b} ha hb hab => by have := hk a ha; have := hk b hb; simp; omega)
  · intro p hp
    obtain ⟨q, hq, rfl⟩ := List.mem_map.1 hp
    exact h.2 q hq

theorem SMap.slice_keys (m : SMap α) (base n : Nat) : ∀ p ∈ m.slice base n, p.1 < n := by
  intro p hp
  obtain ⟨q, hq, rfl⟩ := List.mem_map.1 hp
  have := (List.mem_filter.1 hq).2
  simp at this
  simp; omega

theorem SMap.get_shift (d : α) (w : SMap α) (base j : Nat) :
    SMap.get d (w.map (fun p => (p.1 + base, p.2))) j = if base ≤ j then w.get d (j - base) else d := by
  induction w with
  | nil => simp [SMap.get]
  | cons p w ih =>
    unfold SMap.get at ih ⊢
    simp only [List.map_cons, List.find?_cons]
    by_cases h : p.1 + base = j
    · have e : (p.1 + base == j) = true := by simpa using h
      have e' : (p.1 == j - base) = true := by simp; omega
      rw [e, if_pos (by omega), e']
    · have e : (p.1 + base == j) = false := by simpa using h
      rw [e]
      by_cases hb : base ≤ j
      · have e' : (p.1 == j - base) = false := by simp; omega
        rw [if_pos hb] at ih ⊢
        rw [e']
        exact ih
      · rw [if_neg hb] at ih ⊢; exact ih

theorem SMap.get_paste (d : α) (m : SMap α) (base n : Nat) (w : SMap α) (hk : ∀ p ∈ w, p.1 < n) (j : Nat) :
    (m.paste base n w).get d j = if base ≤ j ∧ j < base + n then w.get d (j - base) else m.get d j := by
  unfold SMap.paste
  rw [SMap.get_splice _ _ _ _ _ _ (by omega) (by
    intro p hp
    obtain ⟨q, hq, rfl⟩ := List.mem_map.1 hp
    have := hk q hq
    simp only
    omega)]
  split
  · rw [SMap.get_shift, if_pos (by omega)]
  · rfl

theorem SMap.wf_paste [DecidableEq α] (d : α) (m : SMap α) (base n : Nat) (w : SMap α) (hm : m.wf d = true)
    (hw : w.wf d = true) (hk : ∀ p ∈ w, p.1 < n) : (m.paste base n w).wf d = true := by
  apply SMap.wf_splice d m _ _ _ hm _ (by omega)
  · intro p hp
    obtain ⟨q, hq, rfl⟩ := List.mem_map.1 hp
    have := hk q hq
    simp; omega
  · rw [SMap.wf_iff] at *
    refine ⟨?_, ?_⟩
    · rw [List.pairwise_map]
      exact hw.1.imp (fun {a b} hab => by simpa using hab)
    · intro p hp
      obtain ⟨q, hq, rfl⟩ := List.mem_map.1 hp
      exact hw.2 q hq

/-- Equal reads of canonical maps mean equal maps. -/
theorem SMap.ext_get [DecidableEq α] (d : α) (m n : SMap α) (hm : m.wf d = true) (hn : n.wf d = true)
    (h : ∀ k, m.get d k = n.get d k) : m = n := by
  have find_mem : ∀ (l : SMap α) (p : Nat × α), l.wf d = true → p ∈ l → l.get d p.1 = p.2 := by
    intro l p hl hp
    rw [SMap.wf_iff] at hl
    induction l with
    | nil => cases hp
    | cons q l ih =>
      have hc := List.pairwise_cons.1 hl.1
      rcases List.mem_cons.1 hp with rfl | hp
      · simp [SMap.get]
      · have hne : q.1 ≠ p.1 := by have := hc.1 p hp; omega
        have := ih ⟨hc.2, fun r hr => hl.2 r (by simp [hr])⟩ hp
        unfold SMap.get at this ⊢
        rw [List.find?_cons_of_neg (by simpa using hne)]
        exact this
  have get_mem : ∀ (l : SMap α) (k : Nat), l.get d k ≠ d → (k, l.get d k) ∈ l := by
    intro l k hk
    cases hp : l.find? (fun p => p.1 == k) with
    | none => exact absurd (by simp [SMap.get, hp]) hk
    | some p =>
      have h1 := List.mem_of_find?_eq_some hp
      have h2 := List.find?_some hp
      have h3 : p.1 = k := by simpa using h2
      have h4 : l.get d k = p.2 := by simp [SMap.get, hp]
      rw [h4, ← h3]
      exact h1
  have sub : ∀ (a b : SMap α), a.wf d = true → b.wf d = true → (∀ k, a.get d k = b.get d k) → ∀ p ∈ a, p ∈ b := by
    intro a b ha hb hab p hp
    have h1 := find_mem a p ha hp
    have h2 : b.get d p.1 = p.2 := by rw [← hab, h1]
    have hne : b.get d p.1 ≠ d := by rw [h2]; exact ((SMap.wf_iff d a).1 ha).2 p hp
    have := get_mem b p.1 hne
    rw [h2] at this
    exact this
  have hm' := ((SMap.wf_iff d m).1 hm).1
  have hn' := ((SMap.wf_iff d n).1 hn).1
  have nodup : ∀ l : SMap α, l.Pairwise (fun p q => p.1 < q.1) → l.Nodup := by
    intro l hl
    exact hl.imp (fun {a b} hab e => by subst e; omega)
  have perm : m.Perm n := by
    rw [List.perm_ext_iff_of_nodup (nodup m hm') (nodup n hn')]
    exact fun p => ⟨sub m n hm hn h p, sub n m hn hm (fun k => (h k).symm) p⟩
  exact perm.eq_of_pairwise (fun a b _ _ hab hba => by omega) hm' hn'

end Sys2Proof.Machine
end

