-- ==== Sys2Proof/Laws/Bytes.lean ====
section
/-!
SUPPORT. Laws/Bytes.lean: little-endian values and the bytes they are made of.
-/

namespace Sys2Proof.Machine

@[simp] theorem natLe_length (n x : Nat) : (natLe n x).length = n := by
  induction n generalizing x with
  | zero => rfl
  | succ n ih => simp [natLe, ih]

theorem leNat_lt (l : List Byte) : leNat l < 256 ^ l.length := by
  induction l with
  | nil => simp [leNat]
  | cons b bs ih => have := b.isLt; simp only [leNat, List.length_cons, Nat.pow_succ]; omega

/-- Byte `i` of a little-endian value. -/
theorem leNat_byte (l : List Byte) (i : Nat) (h : i < l.length) : l.getD i 0 = BitVec.ofNat 8 (leNat l / 256 ^ i) := by
  induction l generalizing i with
  | nil => simp at h
  | cons b bs ih =>
    cases i with
    | zero =>
      simp only [List.getD_cons_zero, leNat, Nat.pow_zero, Nat.div_one]
      apply BitVec.eq_of_toNat_eq
      have := b.isLt
      simp only [BitVec.toNat_ofNat]; omega
    | succ i =>
      have hi := ih i (by simpa using h)
      rw [List.getD_cons_succ, hi, leNat, Nat.pow_succ, Nat.mul_comm (256 ^ i) 256, ← Nat.div_div_eq_div_mul]
      congr 2
      have := b.isLt
      omega

theorem natLe_getD (n x i : Nat) (h : i < n) : (natLe n x).getD i 0 = BitVec.ofNat 8 (x / 256 ^ i) := by
  induction n generalizing x i with
  | zero => omega
  | succ n ih =>
    cases i with
    | zero => simp [natLe]
    | succ i =>
      rw [natLe, List.getD_cons_succ, ih _ _ (by omega), Nat.pow_succ, Nat.mul_comm (256 ^ i) 256,
        ← Nat.div_div_eq_div_mul]

/-- The value of the bytes of a value. -/
theorem leNat_natLe (n x : Nat) : leNat (natLe n x) = x % 256 ^ n := by
  induction n generalizing x with
  | zero => simp [natLe, leNat, Nat.mod_one]
  | succ n ih =>
    simp only [natLe, leNat, BitVec.toNat_ofNat, ih]
    rw [Nat.pow_succ 256 n, Nat.mul_comm (256 ^ n) 256, Nat.mod_mul]

/-- Eight bytes as a 64-bit pattern. -/
theorem leNat_byte64 (l : List Byte) (hl : l.length = 8) (i : Nat) (h : i < 8) :
    l.getD i 0 = BitVec.ofNat 8 ((BitVec.ofNat 64 (leNat l)).toNat / 256 ^ i) := by
  have hlt := leNat_lt l
  rw [hl] at hlt
  rw [leNat_byte l i (by omega), BitVec.toNat_ofNat, Nat.mod_eq_of_lt (by norm_num at hlt ⊢; exact hlt)]

end Sys2Proof.Machine
end

