-- ==== Sys2Proof/Laws/State.lean ====
section
/-!
SUPPORT. Laws/State.lean: each field of the state after each of the shared updates, and each unit after a write of one.
-/

namespace Sys2Proof.Machine

variable (s : State)


/-! setTile -/

@[simp] theorem State.setTile_pending (t : Nat) (x : TileSt) : (s.setTile t x).pending = s.pending := rfl
@[simp] theorem State.setTile_freeCtr (t : Nat) (x : TileSt) : (s.setTile t x).freeCtr = s.freeCtr := rfl
@[simp] theorem State.setTile_dealers (t : Nat) (x : TileSt) : (s.setTile t x).dealers = s.dealers := rfl
@[simp] theorem State.setTile_mem (t : Nat) (x : TileSt) : (s.setTile t x).mem = s.mem := rfl
@[simp] theorem State.setTile_hostMem (t : Nat) (x : TileSt) : (s.setTile t x).hostMem = s.hostMem := rfl
@[simp] theorem State.setTile_sched (t : Nat) (x : TileSt) : (s.setTile t x).sched = s.sched := rfl
@[simp] theorem State.setTile_logs (t : Nat) (x : TileSt) : (s.setTile t x).logs = s.logs := rfl
@[simp] theorem State.setTile_outbox (t : Nat) (x : TileSt) : (s.setTile t x).outbox = s.outbox := rfl
@[simp] theorem State.setTile_grade (t : Nat) (x : TileSt) : (s.setTile t x).grade = s.grade := rfl
@[simp] theorem State.setTile_codec (t : Nat) (x : TileSt) : (s.setTile t x).codec = s.codec := rfl
@[simp] theorem State.setTile_links (t : Nat) (x : TileSt) : (s.setTile t x).links = s.links := rfl
@[simp] theorem State.setTile_col (t : Nat) (x : TileSt) : (s.setTile t x).col = s.col := rfl
@[simp] theorem State.setTile_power (t : Nat) (x : TileSt) : (s.setTile t x).power = s.power := rfl
@[simp] theorem State.setTile_sec (t : Nat) (x : TileSt) : (s.setTile t x).sec = s.sec := rfl
@[simp] theorem State.setTile_boot (t : Nat) (x : TileSt) : (s.setTile t x).boot = s.boot := rfl
@[simp] theorem State.setTile_fuses (t : Nat) (x : TileSt) : (s.setTile t x).fuses = s.fuses := rfl

/-! modTile -/

@[simp] theorem State.modTile_pending (t : Nat) (f : TileSt → TileSt) : (s.modTile t f).pending = s.pending := rfl
@[simp] theorem State.modTile_freeCtr (t : Nat) (f : TileSt → TileSt) : (s.modTile t f).freeCtr = s.freeCtr := rfl
@[simp] theorem State.modTile_dealers (t : Nat) (f : TileSt → TileSt) : (s.modTile t f).dealers = s.dealers := rfl
@[simp] theorem State.modTile_mem (t : Nat) (f : TileSt → TileSt) : (s.modTile t f).mem = s.mem := rfl
@[simp] theorem State.modTile_hostMem (t : Nat) (f : TileSt → TileSt) : (s.modTile t f).hostMem = s.hostMem := rfl
@[simp] theorem State.modTile_sched (t : Nat) (f : TileSt → TileSt) : (s.modTile t f).sched = s.sched := rfl
@[simp] theorem State.modTile_logs (t : Nat) (f : TileSt → TileSt) : (s.modTile t f).logs = s.logs := rfl
@[simp] theorem State.modTile_outbox (t : Nat) (f : TileSt → TileSt) : (s.modTile t f).outbox = s.outbox := rfl
@[simp] theorem State.modTile_grade (t : Nat) (f : TileSt → TileSt) : (s.modTile t f).grade = s.grade := rfl
@[simp] theorem State.modTile_codec (t : Nat) (f : TileSt → TileSt) : (s.modTile t f).codec = s.codec := rfl
@[simp] theorem State.modTile_links (t : Nat) (f : TileSt → TileSt) : (s.modTile t f).links = s.links := rfl
@[simp] theorem State.modTile_col (t : Nat) (f : TileSt → TileSt) : (s.modTile t f).col = s.col := rfl
@[simp] theorem State.modTile_power (t : Nat) (f : TileSt → TileSt) : (s.modTile t f).power = s.power := rfl
@[simp] theorem State.modTile_sec (t : Nat) (f : TileSt → TileSt) : (s.modTile t f).sec = s.sec := rfl
@[simp] theorem State.modTile_boot (t : Nat) (f : TileSt → TileSt) : (s.modTile t f).boot = s.boot := rfl
@[simp] theorem State.modTile_fuses (t : Nat) (f : TileSt → TileSt) : (s.modTile t f).fuses = s.fuses := rfl

/-! setDealer -/

@[simp] theorem State.setDealer_pending (d : Nat) (x : DealerSt) : (s.setDealer d x).pending = s.pending := rfl
@[simp] theorem State.setDealer_freeCtr (d : Nat) (x : DealerSt) : (s.setDealer d x).freeCtr = s.freeCtr := rfl
@[simp] theorem State.setDealer_tiles (d : Nat) (x : DealerSt) : (s.setDealer d x).tiles = s.tiles := rfl
@[simp] theorem State.setDealer_mem (d : Nat) (x : DealerSt) : (s.setDealer d x).mem = s.mem := rfl
@[simp] theorem State.setDealer_hostMem (d : Nat) (x : DealerSt) : (s.setDealer d x).hostMem = s.hostMem := rfl
@[simp] theorem State.setDealer_sched (d : Nat) (x : DealerSt) : (s.setDealer d x).sched = s.sched := rfl
@[simp] theorem State.setDealer_logs (d : Nat) (x : DealerSt) : (s.setDealer d x).logs = s.logs := rfl
@[simp] theorem State.setDealer_outbox (d : Nat) (x : DealerSt) : (s.setDealer d x).outbox = s.outbox := rfl
@[simp] theorem State.setDealer_grade (d : Nat) (x : DealerSt) : (s.setDealer d x).grade = s.grade := rfl
@[simp] theorem State.setDealer_codec (d : Nat) (x : DealerSt) : (s.setDealer d x).codec = s.codec := rfl
@[simp] theorem State.setDealer_links (d : Nat) (x : DealerSt) : (s.setDealer d x).links = s.links := rfl
@[simp] theorem State.setDealer_col (d : Nat) (x : DealerSt) : (s.setDealer d x).col = s.col := rfl
@[simp] theorem State.setDealer_power (d : Nat) (x : DealerSt) : (s.setDealer d x).power = s.power := rfl
@[simp] theorem State.setDealer_sec (d : Nat) (x : DealerSt) : (s.setDealer d x).sec = s.sec := rfl
@[simp] theorem State.setDealer_boot (d : Nat) (x : DealerSt) : (s.setDealer d x).boot = s.boot := rfl
@[simp] theorem State.setDealer_fuses (d : Nat) (x : DealerSt) : (s.setDealer d x).fuses = s.fuses := rfl

/-! modDealer -/

@[simp] theorem State.modDealer_pending (d : Nat) (f : DealerSt → DealerSt) : (s.modDealer d f).pending = s.pending := rfl
@[simp] theorem State.modDealer_freeCtr (d : Nat) (f : DealerSt → DealerSt) : (s.modDealer d f).freeCtr = s.freeCtr := rfl
@[simp] theorem State.modDealer_tiles (d : Nat) (f : DealerSt → DealerSt) : (s.modDealer d f).tiles = s.tiles := rfl
@[simp] theorem State.modDealer_mem (d : Nat) (f : DealerSt → DealerSt) : (s.modDealer d f).mem = s.mem := rfl
@[simp] theorem State.modDealer_hostMem (d : Nat) (f : DealerSt → DealerSt) : (s.modDealer d f).hostMem = s.hostMem := rfl
@[simp] theorem State.modDealer_sched (d : Nat) (f : DealerSt → DealerSt) : (s.modDealer d f).sched = s.sched := rfl
@[simp] theorem State.modDealer_logs (d : Nat) (f : DealerSt → DealerSt) : (s.modDealer d f).logs = s.logs := rfl
@[simp] theorem State.modDealer_outbox (d : Nat) (f : DealerSt → DealerSt) : (s.modDealer d f).outbox = s.outbox := rfl
@[simp] theorem State.modDealer_grade (d : Nat) (f : DealerSt → DealerSt) : (s.modDealer d f).grade = s.grade := rfl
@[simp] theorem State.modDealer_codec (d : Nat) (f : DealerSt → DealerSt) : (s.modDealer d f).codec = s.codec := rfl
@[simp] theorem State.modDealer_links (d : Nat) (f : DealerSt → DealerSt) : (s.modDealer d f).links = s.links := rfl
@[simp] theorem State.modDealer_col (d : Nat) (f : DealerSt → DealerSt) : (s.modDealer d f).col = s.col := rfl
@[simp] theorem State.modDealer_power (d : Nat) (f : DealerSt → DealerSt) : (s.modDealer d f).power = s.power := rfl
@[simp] theorem State.modDealer_sec (d : Nat) (f : DealerSt → DealerSt) : (s.modDealer d f).sec = s.sec := rfl
@[simp] theorem State.modDealer_boot (d : Nat) (f : DealerSt → DealerSt) : (s.modDealer d f).boot = s.boot := rfl
@[simp] theorem State.modDealer_fuses (d : Nat) (f : DealerSt → DealerSt) : (s.modDealer d f).fuses = s.fuses := rfl

/-! setStack -/

@[simp] theorem State.setStack_pending (k : Nat) (x : StackSt) : (s.setStack k x).pending = s.pending := rfl
@[simp] theorem State.setStack_freeCtr (k : Nat) (x : StackSt) : (s.setStack k x).freeCtr = s.freeCtr := rfl
@[simp] theorem State.setStack_tiles (k : Nat) (x : StackSt) : (s.setStack k x).tiles = s.tiles := rfl
@[simp] theorem State.setStack_dealers (k : Nat) (x : StackSt) : (s.setStack k x).dealers = s.dealers := rfl
@[simp] theorem State.setStack_hostMem (k : Nat) (x : StackSt) : (s.setStack k x).hostMem = s.hostMem := rfl
@[simp] theorem State.setStack_sched (k : Nat) (x : StackSt) : (s.setStack k x).sched = s.sched := rfl
@[simp] theorem State.setStack_logs (k : Nat) (x : StackSt) : (s.setStack k x).logs = s.logs := rfl
@[simp] theorem State.setStack_outbox (k : Nat) (x : StackSt) : (s.setStack k x).outbox = s.outbox := rfl
@[simp] theorem State.setStack_grade (k : Nat) (x : StackSt) : (s.setStack k x).grade = s.grade := rfl
@[simp] theorem State.setStack_codec (k : Nat) (x : StackSt) : (s.setStack k x).codec = s.codec := rfl
@[simp] theorem State.setStack_links (k : Nat) (x : StackSt) : (s.setStack k x).links = s.links := rfl
@[simp] theorem State.setStack_col (k : Nat) (x : StackSt) : (s.setStack k x).col = s.col := rfl
@[simp] theorem State.setStack_power (k : Nat) (x : StackSt) : (s.setStack k x).power = s.power := rfl
@[simp] theorem State.setStack_sec (k : Nat) (x : StackSt) : (s.setStack k x).sec = s.sec := rfl
@[simp] theorem State.setStack_boot (k : Nat) (x : StackSt) : (s.setStack k x).boot = s.boot := rfl
@[simp] theorem State.setStack_fuses (k : Nat) (x : StackSt) : (s.setStack k x).fuses = s.fuses := rfl

/-! modStack -/

@[simp] theorem State.modStack_pending (k : Nat) (f : StackSt → StackSt) : (s.modStack k f).pending = s.pending := rfl
@[simp] theorem State.modStack_freeCtr (k : Nat) (f : StackSt → StackSt) : (s.modStack k f).freeCtr = s.freeCtr := rfl
@[simp] theorem State.modStack_tiles (k : Nat) (f : StackSt → StackSt) : (s.modStack k f).tiles = s.tiles := rfl
@[simp] theorem State.modStack_dealers (k : Nat) (f : StackSt → StackSt) : (s.modStack k f).dealers = s.dealers := rfl
@[simp] theorem State.modStack_hostMem (k : Nat) (f : StackSt → StackSt) : (s.modStack k f).hostMem = s.hostMem := rfl
@[simp] theorem State.modStack_sched (k : Nat) (f : StackSt → StackSt) : (s.modStack k f).sched = s.sched := rfl
@[simp] theorem State.modStack_logs (k : Nat) (f : StackSt → StackSt) : (s.modStack k f).logs = s.logs := rfl
@[simp] theorem State.modStack_outbox (k : Nat) (f : StackSt → StackSt) : (s.modStack k f).outbox = s.outbox := rfl
@[simp] theorem State.modStack_grade (k : Nat) (f : StackSt → StackSt) : (s.modStack k f).grade = s.grade := rfl
@[simp] theorem State.modStack_codec (k : Nat) (f : StackSt → StackSt) : (s.modStack k f).codec = s.codec := rfl
@[simp] theorem State.modStack_links (k : Nat) (f : StackSt → StackSt) : (s.modStack k f).links = s.links := rfl
@[simp] theorem State.modStack_col (k : Nat) (f : StackSt → StackSt) : (s.modStack k f).col = s.col := rfl
@[simp] theorem State.modStack_power (k : Nat) (f : StackSt → StackSt) : (s.modStack k f).power = s.power := rfl
@[simp] theorem State.modStack_sec (k : Nat) (f : StackSt → StackSt) : (s.modStack k f).sec = s.sec := rfl
@[simp] theorem State.modStack_boot (k : Nat) (f : StackSt → StackSt) : (s.modStack k f).boot = s.boot := rfl
@[simp] theorem State.modStack_fuses (k : Nat) (f : StackSt → StackSt) : (s.modStack k f).fuses = s.fuses := rfl

/-! setRing -/

@[simp] theorem State.setRing_pending (r : Nat) (x : RingSt) : (s.setRing r x).pending = s.pending := rfl
@[simp] theorem State.setRing_freeCtr (r : Nat) (x : RingSt) : (s.setRing r x).freeCtr = s.freeCtr := rfl
@[simp] theorem State.setRing_tiles (r : Nat) (x : RingSt) : (s.setRing r x).tiles = s.tiles := rfl
@[simp] theorem State.setRing_dealers (r : Nat) (x : RingSt) : (s.setRing r x).dealers = s.dealers := rfl
@[simp] theorem State.setRing_mem (r : Nat) (x : RingSt) : (s.setRing r x).mem = s.mem := rfl
@[simp] theorem State.setRing_hostMem (r : Nat) (x : RingSt) : (s.setRing r x).hostMem = s.hostMem := rfl
@[simp] theorem State.setRing_logs (r : Nat) (x : RingSt) : (s.setRing r x).logs = s.logs := rfl
@[simp] theorem State.setRing_outbox (r : Nat) (x : RingSt) : (s.setRing r x).outbox = s.outbox := rfl
@[simp] theorem State.setRing_grade (r : Nat) (x : RingSt) : (s.setRing r x).grade = s.grade := rfl
@[simp] theorem State.setRing_codec (r : Nat) (x : RingSt) : (s.setRing r x).codec = s.codec := rfl
@[simp] theorem State.setRing_links (r : Nat) (x : RingSt) : (s.setRing r x).links = s.links := rfl
@[simp] theorem State.setRing_col (r : Nat) (x : RingSt) : (s.setRing r x).col = s.col := rfl
@[simp] theorem State.setRing_power (r : Nat) (x : RingSt) : (s.setRing r x).power = s.power := rfl
@[simp] theorem State.setRing_sec (r : Nat) (x : RingSt) : (s.setRing r x).sec = s.sec := rfl
@[simp] theorem State.setRing_boot (r : Nat) (x : RingSt) : (s.setRing r x).boot = s.boot := rfl
@[simp] theorem State.setRing_fuses (r : Nat) (x : RingSt) : (s.setRing r x).fuses = s.fuses := rfl

/-! modRing -/

@[simp] theorem State.modRing_pending (r : Nat) (f : RingSt → RingSt) : (s.modRing r f).pending = s.pending := rfl
@[simp] theorem State.modRing_freeCtr (r : Nat) (f : RingSt → RingSt) : (s.modRing r f).freeCtr = s.freeCtr := rfl
@[simp] theorem State.modRing_tiles (r : Nat) (f : RingSt → RingSt) : (s.modRing r f).tiles = s.tiles := rfl
@[simp] theorem State.modRing_dealers (r : Nat) (f : RingSt → RingSt) : (s.modRing r f).dealers = s.dealers := rfl
@[simp] theorem State.modRing_mem (r : Nat) (f : RingSt → RingSt) : (s.modRing r f).mem = s.mem := rfl
@[simp] theorem State.modRing_hostMem (r : Nat) (f : RingSt → RingSt) : (s.modRing r f).hostMem = s.hostMem := rfl
@[simp] theorem State.modRing_logs (r : Nat) (f : RingSt → RingSt) : (s.modRing r f).logs = s.logs := rfl
@[simp] theorem State.modRing_outbox (r : Nat) (f : RingSt → RingSt) : (s.modRing r f).outbox = s.outbox := rfl
@[simp] theorem State.modRing_grade (r : Nat) (f : RingSt → RingSt) : (s.modRing r f).grade = s.grade := rfl
@[simp] theorem State.modRing_codec (r : Nat) (f : RingSt → RingSt) : (s.modRing r f).codec = s.codec := rfl
@[simp] theorem State.modRing_links (r : Nat) (f : RingSt → RingSt) : (s.modRing r f).links = s.links := rfl
@[simp] theorem State.modRing_col (r : Nat) (f : RingSt → RingSt) : (s.modRing r f).col = s.col := rfl
@[simp] theorem State.modRing_power (r : Nat) (f : RingSt → RingSt) : (s.modRing r f).power = s.power := rfl
@[simp] theorem State.modRing_sec (r : Nat) (f : RingSt → RingSt) : (s.modRing r f).sec = s.sec := rfl
@[simp] theorem State.modRing_boot (r : Nat) (f : RingSt → RingSt) : (s.modRing r f).boot = s.boot := rfl
@[simp] theorem State.modRing_fuses (r : Nat) (f : RingSt → RingSt) : (s.modRing r f).fuses = s.fuses := rfl

/-! setJob -/

@[simp] theorem State.setJob_pending (j : Nat) (x : Option JobSt) : (s.setJob j x).pending = s.pending := rfl
@[simp] theorem State.setJob_freeCtr (j : Nat) (x : Option JobSt) : (s.setJob j x).freeCtr = s.freeCtr := rfl
@[simp] theorem State.setJob_tiles (j : Nat) (x : Option JobSt) : (s.setJob j x).tiles = s.tiles := rfl
@[simp] theorem State.setJob_dealers (j : Nat) (x : Option JobSt) : (s.setJob j x).dealers = s.dealers := rfl
@[simp] theorem State.setJob_mem (j : Nat) (x : Option JobSt) : (s.setJob j x).mem = s.mem := rfl
@[simp] theorem State.setJob_hostMem (j : Nat) (x : Option JobSt) : (s.setJob j x).hostMem = s.hostMem := rfl
@[simp] theorem State.setJob_logs (j : Nat) (x : Option JobSt) : (s.setJob j x).logs = s.logs := rfl
@[simp] theorem State.setJob_outbox (j : Nat) (x : Option JobSt) : (s.setJob j x).outbox = s.outbox := rfl
@[simp] theorem State.setJob_grade (j : Nat) (x : Option JobSt) : (s.setJob j x).grade = s.grade := rfl
@[simp] theorem State.setJob_codec (j : Nat) (x : Option JobSt) : (s.setJob j x).codec = s.codec := rfl
@[simp] theorem State.setJob_links (j : Nat) (x : Option JobSt) : (s.setJob j x).links = s.links := rfl
@[simp] theorem State.setJob_col (j : Nat) (x : Option JobSt) : (s.setJob j x).col = s.col := rfl
@[simp] theorem State.setJob_power (j : Nat) (x : Option JobSt) : (s.setJob j x).power = s.power := rfl
@[simp] theorem State.setJob_sec (j : Nat) (x : Option JobSt) : (s.setJob j x).sec = s.sec := rfl
@[simp] theorem State.setJob_boot (j : Nat) (x : Option JobSt) : (s.setJob j x).boot = s.boot := rfl
@[simp] theorem State.setJob_fuses (j : Nat) (x : Option JobSt) : (s.setJob j x).fuses = s.fuses := rfl

/-! setPage -/

@[simp] theorem State.setPage_pending (p : Nat) (x : Option PageSt) : (s.setPage p x).pending = s.pending := rfl
@[simp] theorem State.setPage_freeCtr (p : Nat) (x : Option PageSt) : (s.setPage p x).freeCtr = s.freeCtr := rfl
@[simp] theorem State.setPage_tiles (p : Nat) (x : Option PageSt) : (s.setPage p x).tiles = s.tiles := rfl
@[simp] theorem State.setPage_dealers (p : Nat) (x : Option PageSt) : (s.setPage p x).dealers = s.dealers := rfl
@[simp] theorem State.setPage_hostMem (p : Nat) (x : Option PageSt) : (s.setPage p x).hostMem = s.hostMem := rfl
@[simp] theorem State.setPage_sched (p : Nat) (x : Option PageSt) : (s.setPage p x).sched = s.sched := rfl
@[simp] theorem State.setPage_logs (p : Nat) (x : Option PageSt) : (s.setPage p x).logs = s.logs := rfl
@[simp] theorem State.setPage_outbox (p : Nat) (x : Option PageSt) : (s.setPage p x).outbox = s.outbox := rfl
@[simp] theorem State.setPage_grade (p : Nat) (x : Option PageSt) : (s.setPage p x).grade = s.grade := rfl
@[simp] theorem State.setPage_codec (p : Nat) (x : Option PageSt) : (s.setPage p x).codec = s.codec := rfl
@[simp] theorem State.setPage_links (p : Nat) (x : Option PageSt) : (s.setPage p x).links = s.links := rfl
@[simp] theorem State.setPage_col (p : Nat) (x : Option PageSt) : (s.setPage p x).col = s.col := rfl
@[simp] theorem State.setPage_power (p : Nat) (x : Option PageSt) : (s.setPage p x).power = s.power := rfl
@[simp] theorem State.setPage_sec (p : Nat) (x : Option PageSt) : (s.setPage p x).sec = s.sec := rfl
@[simp] theorem State.setPage_boot (p : Nat) (x : Option PageSt) : (s.setPage p x).boot = s.boot := rfl
@[simp] theorem State.setPage_fuses (p : Nat) (x : Option PageSt) : (s.setPage p x).fuses = s.fuses := rfl

/-! setObject -/

@[simp] theorem State.setObject_pending (b : Nat) (x : Option ObjectSt) : (s.setObject b x).pending = s.pending := rfl
@[simp] theorem State.setObject_freeCtr (b : Nat) (x : Option ObjectSt) : (s.setObject b x).freeCtr = s.freeCtr := rfl
@[simp] theorem State.setObject_tiles (b : Nat) (x : Option ObjectSt) : (s.setObject b x).tiles = s.tiles := rfl
@[simp] theorem State.setObject_dealers (b : Nat) (x : Option ObjectSt) : (s.setObject b x).dealers = s.dealers := rfl
@[simp] theorem State.setObject_hostMem (b : Nat) (x : Option ObjectSt) : (s.setObject b x).hostMem = s.hostMem := rfl
@[simp] theorem State.setObject_sched (b : Nat) (x : Option ObjectSt) : (s.setObject b x).sched = s.sched := rfl
@[simp] theorem State.setObject_logs (b : Nat) (x : Option ObjectSt) : (s.setObject b x).logs = s.logs := rfl
@[simp] theorem State.setObject_outbox (b : Nat) (x : Option ObjectSt) : (s.setObject b x).outbox = s.outbox := rfl
@[simp] theorem State.setObject_grade (b : Nat) (x : Option ObjectSt) : (s.setObject b x).grade = s.grade := rfl
@[simp] theorem State.setObject_codec (b : Nat) (x : Option ObjectSt) : (s.setObject b x).codec = s.codec := rfl
@[simp] theorem State.setObject_links (b : Nat) (x : Option ObjectSt) : (s.setObject b x).links = s.links := rfl
@[simp] theorem State.setObject_col (b : Nat) (x : Option ObjectSt) : (s.setObject b x).col = s.col := rfl
@[simp] theorem State.setObject_power (b : Nat) (x : Option ObjectSt) : (s.setObject b x).power = s.power := rfl
@[simp] theorem State.setObject_sec (b : Nat) (x : Option ObjectSt) : (s.setObject b x).sec = s.sec := rfl
@[simp] theorem State.setObject_boot (b : Nat) (x : Option ObjectSt) : (s.setObject b x).boot = s.boot := rfl
@[simp] theorem State.setObject_fuses (b : Nat) (x : Option ObjectSt) : (s.setObject b x).fuses = s.fuses := rfl

/-! send -/

@[simp] theorem State.send_pending (m : OutMsg) : (s.send m).pending = s.pending := rfl
@[simp] theorem State.send_freeCtr (m : OutMsg) : (s.send m).freeCtr = s.freeCtr := rfl
@[simp] theorem State.send_tiles (m : OutMsg) : (s.send m).tiles = s.tiles := rfl
@[simp] theorem State.send_dealers (m : OutMsg) : (s.send m).dealers = s.dealers := rfl
@[simp] theorem State.send_mem (m : OutMsg) : (s.send m).mem = s.mem := rfl
@[simp] theorem State.send_hostMem (m : OutMsg) : (s.send m).hostMem = s.hostMem := rfl
@[simp] theorem State.send_sched (m : OutMsg) : (s.send m).sched = s.sched := rfl
@[simp] theorem State.send_logs (m : OutMsg) : (s.send m).logs = s.logs := rfl
@[simp] theorem State.send_grade (m : OutMsg) : (s.send m).grade = s.grade := rfl
@[simp] theorem State.send_codec (m : OutMsg) : (s.send m).codec = s.codec := rfl
@[simp] theorem State.send_links (m : OutMsg) : (s.send m).links = s.links := rfl
@[simp] theorem State.send_col (m : OutMsg) : (s.send m).col = s.col := rfl
@[simp] theorem State.send_power (m : OutMsg) : (s.send m).power = s.power := rfl
@[simp] theorem State.send_sec (m : OutMsg) : (s.send m).sec = s.sec := rfl
@[simp] theorem State.send_boot (m : OutMsg) : (s.send m).boot = s.boot := rfl
@[simp] theorem State.send_fuses (m : OutMsg) : (s.send m).fuses = s.fuses := rfl

/-! modJob, logRec, noteCode, report: branches inside -/

@[simp] theorem State.modJob_pending (j : Nat) (g : JobSt → JobSt) : (s.modJob j g).pending = s.pending := by
  unfold State.modJob; split <;> rfl
@[simp] theorem State.modJob_freeCtr (j : Nat) (g : JobSt → JobSt) : (s.modJob j g).freeCtr = s.freeCtr := by
  unfold State.modJob; split <;> rfl
@[simp] theorem State.modJob_tiles (j : Nat) (g : JobSt → JobSt) : (s.modJob j g).tiles = s.tiles := by
  unfold State.modJob; split <;> rfl
@[simp] theorem State.modJob_dealers (j : Nat) (g : JobSt → JobSt) : (s.modJob j g).dealers = s.dealers := by
  unfold State.modJob; split <;> rfl
@[simp] theorem State.modJob_mem (j : Nat) (g : JobSt → JobSt) : (s.modJob j g).mem = s.mem := by
  unfold State.modJob; split <;> rfl
@[simp] theorem State.modJob_hostMem (j : Nat) (g : JobSt → JobSt) : (s.modJob j g).hostMem = s.hostMem := by
  unfold State.modJob; split <;> rfl
@[simp] theorem State.modJob_logs (j : Nat) (g : JobSt → JobSt) : (s.modJob j g).logs = s.logs := by
  unfold State.modJob; split <;> rfl
@[simp] theorem State.modJob_outbox (j : Nat) (g : JobSt → JobSt) : (s.modJob j g).outbox = s.outbox := by
  unfold State.modJob; split <;> rfl
@[simp] theorem State.modJob_grade (j : Nat) (g : JobSt → JobSt) : (s.modJob j g).grade = s.grade := by
  unfold State.modJob; split <;> rfl
@[simp] theorem State.modJob_codec (j : Nat) (g : JobSt → JobSt) : (s.modJob j g).codec = s.codec := by
  unfold State.modJob; split <;> rfl
@[simp] theorem State.modJob_links (j : Nat) (g : JobSt → JobSt) : (s.modJob j g).links = s.links := by
  unfold State.modJob; split <;> rfl
@[simp] theorem State.modJob_col (j : Nat) (g : JobSt → JobSt) : (s.modJob j g).col = s.col := by
  unfold State.modJob; split <;> rfl
@[simp] theorem State.modJob_power (j : Nat) (g : JobSt → JobSt) : (s.modJob j g).power = s.power := by
  unfold State.modJob; split <;> rfl
@[simp] theorem State.modJob_sec (j : Nat) (g : JobSt → JobSt) : (s.modJob j g).sec = s.sec := by
  unfold State.modJob; split <;> rfl
@[simp] theorem State.modJob_boot (j : Nat) (g : JobSt → JobSt) : (s.modJob j g).boot = s.boot := by
  unfold State.modJob; split <;> rfl
@[simp] theorem State.modJob_fuses (j : Nat) (g : JobSt → JobSt) : (s.modJob j g).fuses = s.fuses := by
  unfold State.modJob; split <;> rfl
@[simp] theorem State.logRec_pending (r : ErrRec) : (s.logRec r).pending = s.pending := rfl
@[simp] theorem State.logRec_freeCtr (r : ErrRec) : (s.logRec r).freeCtr = s.freeCtr := rfl
@[simp] theorem State.logRec_tiles (r : ErrRec) : (s.logRec r).tiles = s.tiles := rfl
@[simp] theorem State.logRec_dealers (r : ErrRec) : (s.logRec r).dealers = s.dealers := rfl
@[simp] theorem State.logRec_mem (r : ErrRec) : (s.logRec r).mem = s.mem := rfl
@[simp] theorem State.logRec_hostMem (r : ErrRec) : (s.logRec r).hostMem = s.hostMem := rfl
@[simp] theorem State.logRec_sched (r : ErrRec) : (s.logRec r).sched = s.sched := rfl
@[simp] theorem State.logRec_outbox (r : ErrRec) : (s.logRec r).outbox = s.outbox := rfl
@[simp] theorem State.logRec_grade (r : ErrRec) : (s.logRec r).grade = s.grade := rfl
@[simp] theorem State.logRec_codec (r : ErrRec) : (s.logRec r).codec = s.codec := rfl
@[simp] theorem State.logRec_links (r : ErrRec) : (s.logRec r).links = s.links := rfl
@[simp] theorem State.logRec_col (r : ErrRec) : (s.logRec r).col = s.col := rfl
@[simp] theorem State.logRec_power (r : ErrRec) : (s.logRec r).power = s.power := rfl
@[simp] theorem State.logRec_sec (r : ErrRec) : (s.logRec r).sec = s.sec := rfl
@[simp] theorem State.logRec_boot (r : ErrRec) : (s.logRec r).boot = s.boot := rfl
@[simp] theorem State.logRec_fuses (r : ErrRec) : (s.logRec r).fuses = s.fuses := rfl
@[simp] theorem State.noteCode_pending (c : Code) : (s.noteCode c).pending = s.pending := by
  unfold State.noteCode; split
  · rfl
  · split <;> rfl
@[simp] theorem State.noteCode_freeCtr (c : Code) : (s.noteCode c).freeCtr = s.freeCtr := by
  unfold State.noteCode; split
  · rfl
  · split <;> rfl
@[simp] theorem State.noteCode_tiles (c : Code) : (s.noteCode c).tiles = s.tiles := by
  unfold State.noteCode; split
  · rfl
  · split <;> rfl
@[simp] theorem State.noteCode_dealers (c : Code) : (s.noteCode c).dealers = s.dealers := by
  unfold State.noteCode; split
  · rfl
  · split <;> rfl
@[simp] theorem State.noteCode_mem (c : Code) : (s.noteCode c).mem = s.mem := by
  unfold State.noteCode; split
  · rfl
  · split <;> rfl
@[simp] theorem State.noteCode_hostMem (c : Code) : (s.noteCode c).hostMem = s.hostMem := by
  unfold State.noteCode; split
  · rfl
  · split <;> rfl
@[simp] theorem State.noteCode_sched (c : Code) : (s.noteCode c).sched = s.sched := by
  unfold State.noteCode; split
  · rfl
  · split <;> rfl
@[simp] theorem State.noteCode_logs (c : Code) : (s.noteCode c).logs = s.logs := by
  unfold State.noteCode; split
  · rfl
  · split <;> rfl
@[simp] theorem State.noteCode_outbox (c : Code) : (s.noteCode c).outbox = s.outbox := by
  unfold State.noteCode; split
  · rfl
  · split <;> rfl
@[simp] theorem State.noteCode_grade (c : Code) : (s.noteCode c).grade = s.grade := by
  unfold State.noteCode; split
  · rfl
  · split <;> rfl
@[simp] theorem State.noteCode_codec (c : Code) : (s.noteCode c).codec = s.codec := by
  unfold State.noteCode; split
  · rfl
  · split <;> rfl
@[simp] theorem State.noteCode_links (c : Code) : (s.noteCode c).links = s.links := by
  unfold State.noteCode; split
  · rfl
  · split <;> rfl
@[simp] theorem State.noteCode_col (c : Code) : (s.noteCode c).col = s.col := by
  unfold State.noteCode; split
  · rfl
  · split <;> rfl
@[simp] theorem State.noteCode_power (c : Code) : (s.noteCode c).power = s.power := by
  unfold State.noteCode; split
  · rfl
  · split <;> rfl
@[simp] theorem State.noteCode_fuses (c : Code) : (s.noteCode c).fuses = s.fuses := by
  unfold State.noteCode; split
  · rfl
  · split <;> rfl
@[simp] theorem State.report_pending (c : Code) (i : RecInfo) : (s.report c i).pending = s.pending := by
  simp [State.report, State.draw]
@[simp] theorem State.report_tiles (c : Code) (i : RecInfo) : (s.report c i).tiles = s.tiles := by
  simp [State.report, State.draw]
@[simp] theorem State.report_dealers (c : Code) (i : RecInfo) : (s.report c i).dealers = s.dealers := by
  simp [State.report, State.draw]
@[simp] theorem State.report_mem (c : Code) (i : RecInfo) : (s.report c i).mem = s.mem := by
  simp [State.report, State.draw]
@[simp] theorem State.report_hostMem (c : Code) (i : RecInfo) : (s.report c i).hostMem = s.hostMem := by
  simp [State.report, State.draw]
@[simp] theorem State.report_sched (c : Code) (i : RecInfo) : (s.report c i).sched = s.sched := by
  simp [State.report, State.draw]
@[simp] theorem State.report_outbox (c : Code) (i : RecInfo) : (s.report c i).outbox = s.outbox := by
  simp [State.report, State.draw]
@[simp] theorem State.report_grade (c : Code) (i : RecInfo) : (s.report c i).grade = s.grade := by
  simp [State.report, State.draw]
@[simp] theorem State.report_codec (c : Code) (i : RecInfo) : (s.report c i).codec = s.codec := by
  simp [State.report, State.draw]
@[simp] theorem State.report_links (c : Code) (i : RecInfo) : (s.report c i).links = s.links := by
  simp [State.report, State.draw]
@[simp] theorem State.report_col (c : Code) (i : RecInfo) : (s.report c i).col = s.col := by
  simp [State.report, State.draw]
@[simp] theorem State.report_power (c : Code) (i : RecInfo) : (s.report c i).power = s.power := by
  simp [State.report, State.draw]
@[simp] theorem State.report_fuses (c : Code) (i : RecInfo) : (s.report c i).fuses = s.fuses := by
  simp [State.report, State.draw]
@[simp] theorem State.faultJob_pending (j : Nat) (c : Code) : (s.faultJob j c).pending = s.pending := by
  simp [State.faultJob]
@[simp] theorem State.faultJob_freeCtr (j : Nat) (c : Code) : (s.faultJob j c).freeCtr = s.freeCtr := by
  simp [State.faultJob]
@[simp] theorem State.faultJob_tiles (j : Nat) (c : Code) : (s.faultJob j c).tiles = s.tiles := by
  simp [State.faultJob]
@[simp] theorem State.faultJob_dealers (j : Nat) (c : Code) : (s.faultJob j c).dealers = s.dealers := by
  simp [State.faultJob]
@[simp] theorem State.faultJob_mem (j : Nat) (c : Code) : (s.faultJob j c).mem = s.mem := by
  simp [State.faultJob]
@[simp] theorem State.faultJob_hostMem (j : Nat) (c : Code) : (s.faultJob j c).hostMem = s.hostMem := by
  simp [State.faultJob]
@[simp] theorem State.faultJob_logs (j : Nat) (c : Code) : (s.faultJob j c).logs = s.logs := by
  simp [State.faultJob]
@[simp] theorem State.faultJob_outbox (j : Nat) (c : Code) : (s.faultJob j c).outbox = s.outbox := by
  simp [State.faultJob]
@[simp] theorem State.faultJob_grade (j : Nat) (c : Code) : (s.faultJob j c).grade = s.grade := by
  simp [State.faultJob]
@[simp] theorem State.faultJob_codec (j : Nat) (c : Code) : (s.faultJob j c).codec = s.codec := by
  simp [State.faultJob]
@[simp] theorem State.faultJob_links (j : Nat) (c : Code) : (s.faultJob j c).links = s.links := by
  simp [State.faultJob]
@[simp] theorem State.faultJob_col (j : Nat) (c : Code) : (s.faultJob j c).col = s.col := by
  simp [State.faultJob]
@[simp] theorem State.faultJob_power (j : Nat) (c : Code) : (s.faultJob j c).power = s.power := by
  simp [State.faultJob]
@[simp] theorem State.faultJob_sec (j : Nat) (c : Code) : (s.faultJob j c).sec = s.sec := by
  simp [State.faultJob]
@[simp] theorem State.faultJob_boot (j : Nat) (c : Code) : (s.faultJob j c).boot = s.boot := by
  simp [State.faultJob]
@[simp] theorem State.faultJob_fuses (j : Nat) (c : Code) : (s.faultJob j c).fuses = s.fuses := by
  simp [State.faultJob]
@[simp] theorem State.jobFaults_pending (j : Nat) (c : Code) (i : RecInfo) : (s.jobFaults j c i).pending = s.pending := by
  simp [State.jobFaults]
@[simp] theorem State.jobFaults_tiles (j : Nat) (c : Code) (i : RecInfo) : (s.jobFaults j c i).tiles = s.tiles := by
  simp [State.jobFaults]
@[simp] theorem State.jobFaults_dealers (j : Nat) (c : Code) (i : RecInfo) : (s.jobFaults j c i).dealers = s.dealers := by
  simp [State.jobFaults]
@[simp] theorem State.jobFaults_mem (j : Nat) (c : Code) (i : RecInfo) : (s.jobFaults j c i).mem = s.mem := by
  simp [State.jobFaults]
@[simp] theorem State.jobFaults_hostMem (j : Nat) (c : Code) (i : RecInfo) : (s.jobFaults j c i).hostMem = s.hostMem := by
  simp [State.jobFaults]
@[simp] theorem State.jobFaults_outbox (j : Nat) (c : Code) (i : RecInfo) : (s.jobFaults j c i).outbox = s.outbox := by
  simp [State.jobFaults]
@[simp] theorem State.jobFaults_grade (j : Nat) (c : Code) (i : RecInfo) : (s.jobFaults j c i).grade = s.grade := by
  simp [State.jobFaults]
@[simp] theorem State.jobFaults_codec (j : Nat) (c : Code) (i : RecInfo) : (s.jobFaults j c i).codec = s.codec := by
  simp [State.jobFaults]
@[simp] theorem State.jobFaults_links (j : Nat) (c : Code) (i : RecInfo) : (s.jobFaults j c i).links = s.links := by
  simp [State.jobFaults]
@[simp] theorem State.jobFaults_col (j : Nat) (c : Code) (i : RecInfo) : (s.jobFaults j c i).col = s.col := by
  simp [State.jobFaults]
@[simp] theorem State.jobFaults_power (j : Nat) (c : Code) (i : RecInfo) : (s.jobFaults j c i).power = s.power := by
  simp [State.jobFaults]
@[simp] theorem State.jobFaults_fuses (j : Nat) (c : Code) (i : RecInfo) : (s.jobFaults j c i).fuses = s.fuses := by
  simp [State.jobFaults]

/-! Units. -/

theorem State.tile_setTile (t u : Nat) (x : TileSt) : (s.setTile t x).tile u = if u = t then x else s.tile u :=
  SMap.get_set _ _ _ _ _

@[simp] theorem State.tile_setTile_same (t : Nat) (x : TileSt) : (s.setTile t x).tile t = x := by simp [State.tile_setTile]

theorem State.tile_modTile (t u : Nat) (f : TileSt → TileSt) :
    (s.modTile t f).tile u = if u = t then f (s.tile t) else s.tile u := State.tile_setTile _ _ _ _

@[simp] theorem State.tile_modTile_same (t : Nat) (f : TileSt → TileSt) : (s.modTile t f).tile t = f (s.tile t) := by
  simp [State.tile_modTile]

theorem State.dealer_setDealer (d e : Nat) (x : DealerSt) :
    (s.setDealer d x).dealer e = if e = d then x else s.dealer e := SMap.get_set _ _ _ _ _

@[simp] theorem State.dealer_setDealer_same (d : Nat) (x : DealerSt) : (s.setDealer d x).dealer d = x := by
  simp [State.dealer_setDealer]

theorem State.dealer_modDealer (d e : Nat) (f : DealerSt → DealerSt) :
    (s.modDealer d f).dealer e = if e = d then f (s.dealer d) else s.dealer e := State.dealer_setDealer _ _ _ _

@[simp] theorem State.dealer_modDealer_same (d : Nat) (f : DealerSt → DealerSt) :
    (s.modDealer d f).dealer d = f (s.dealer d) := by simp [State.dealer_modDealer]

theorem State.stack_setStack (k l : Nat) (x : StackSt) : (s.setStack k x).stack l = if l = k then x else s.stack l :=
  SMap.get_set _ _ _ _ _

@[simp] theorem State.stack_setStack_same (k : Nat) (x : StackSt) : (s.setStack k x).stack k = x := by
  simp [State.stack_setStack]

theorem State.stack_modStack (k l : Nat) (f : StackSt → StackSt) :
    (s.modStack k f).stack l = if l = k then f (s.stack k) else s.stack l := State.stack_setStack _ _ _ _

@[simp] theorem State.stack_modStack_same (k : Nat) (f : StackSt → StackSt) :
    (s.modStack k f).stack k = f (s.stack k) := by simp [State.stack_modStack]

theorem State.ring_setRing (r q : Nat) (x : RingSt) : (s.setRing r x).ring q = if q = r then x else s.ring q :=
  SMap.get_set _ _ _ _ _

@[simp] theorem State.ring_setRing_same (r : Nat) (x : RingSt) : (s.setRing r x).ring r = x := by simp [State.ring_setRing]

theorem State.ring_modRing (r q : Nat) (f : RingSt → RingSt) :
    (s.modRing r f).ring q = if q = r then f (s.ring r) else s.ring q := State.ring_setRing _ _ _ _

@[simp] theorem State.ring_modRing_same (r : Nat) (f : RingSt → RingSt) : (s.modRing r f).ring r = f (s.ring r) := by
  simp [State.ring_modRing]

theorem State.job_setJob (j k : Nat) (x : Option JobSt) : (s.setJob j x).job k = if k = j then x else s.job k :=
  SMap.get_set _ _ _ _ _

@[simp] theorem State.job_setJob_same (j : Nat) (x : Option JobSt) : (s.setJob j x).job j = x := by
  simp [State.job_setJob]

theorem State.job_modJob (j k : Nat) (f : JobSt → JobSt) :
    (s.modJob j f).job k = if k = j then (s.job j).map f else s.job k := by
  unfold State.modJob
  split
  · next x h =>
    rw [State.job_setJob]
    split <;> simp [h]
  · next h =>
    split
    · next e => subst e; simp [h]
    · rfl

theorem State.page_setPage (p q : Nat) (x : Option PageSt) : (s.setPage p x).page q = if q = p then x else s.page q :=
  SMap.get_set _ _ _ _ _

@[simp] theorem State.page_setPage_same (p : Nat) (x : Option PageSt) : (s.setPage p x).page p = x := by
  simp [State.page_setPage]

theorem State.object_setObject (b c : Nat) (x : Option ObjectSt) :
    (s.setObject b x).object c = if c = b then x else s.object c := SMap.get_set _ _ _ _ _

@[simp] theorem State.object_setObject_same (b : Nat) (x : Option ObjectSt) : (s.setObject b x).object b = x := by
  simp [State.object_setObject]

@[simp] theorem State.tile_setDealer (d : Nat) (x : DealerSt) (u : Nat) : (s.setDealer d x).tile u = s.tile u := rfl
@[simp] theorem State.tile_modDealer (d : Nat) (f : DealerSt → DealerSt) (u : Nat) : (s.modDealer d f).tile u = s.tile u := rfl
@[simp] theorem State.tile_setStack (k : Nat) (x : StackSt) (u : Nat) : (s.setStack k x).tile u = s.tile u := rfl
@[simp] theorem State.tile_modStack (k : Nat) (f : StackSt → StackSt) (u : Nat) : (s.modStack k f).tile u = s.tile u := rfl
@[simp] theorem State.tile_setRing (r : Nat) (x : RingSt) (u : Nat) : (s.setRing r x).tile u = s.tile u := rfl
@[simp] theorem State.tile_modRing (r : Nat) (f : RingSt → RingSt) (u : Nat) : (s.modRing r f).tile u = s.tile u := rfl
@[simp] theorem State.tile_setJob (j : Nat) (x : Option JobSt) (u : Nat) : (s.setJob j x).tile u = s.tile u := rfl
@[simp] theorem State.tile_setPage (p : Nat) (x : Option PageSt) (u : Nat) : (s.setPage p x).tile u = s.tile u := rfl
@[simp] theorem State.tile_setObject (b : Nat) (x : Option ObjectSt) (u : Nat) : (s.setObject b x).tile u = s.tile u := rfl
@[simp] theorem State.tile_send (m : OutMsg) (u : Nat) : (s.send m).tile u = s.tile u := rfl
@[simp] theorem State.dealer_setTile (t : Nat) (x : TileSt) (u : Nat) : (s.setTile t x).dealer u = s.dealer u := rfl
@[simp] theorem State.dealer_modTile (t : Nat) (f : TileSt → TileSt) (u : Nat) : (s.modTile t f).dealer u = s.dealer u := rfl
@[simp] theorem State.dealer_setStack (k : Nat) (x : StackSt) (u : Nat) : (s.setStack k x).dealer u = s.dealer u := rfl
@[simp] theorem State.dealer_modStack (k : Nat) (f : StackSt → StackSt) (u : Nat) : (s.modStack k f).dealer u = s.dealer u := rfl
@[simp] theorem State.dealer_setRing (r : Nat) (x : RingSt) (u : Nat) : (s.setRing r x).dealer u = s.dealer u := rfl
@[simp] theorem State.dealer_modRing (r : Nat) (f : RingSt → RingSt) (u : Nat) : (s.modRing r f).dealer u = s.dealer u := rfl
@[simp] theorem State.dealer_setJob (j : Nat) (x : Option JobSt) (u : Nat) : (s.setJob j x).dealer u = s.dealer u := rfl
@[simp] theorem State.dealer_setPage (p : Nat) (x : Option PageSt) (u : Nat) : (s.setPage p x).dealer u = s.dealer u := rfl
@[simp] theorem State.dealer_setObject (b : Nat) (x : Option ObjectSt) (u : Nat) : (s.setObject b x).dealer u = s.dealer u := rfl
@[simp] theorem State.dealer_send (m : OutMsg) (u : Nat) : (s.send m).dealer u = s.dealer u := rfl
@[simp] theorem State.stack_setTile (t : Nat) (x : TileSt) (u : Nat) : (s.setTile t x).stack u = s.stack u := rfl
@[simp] theorem State.page_setTile (t : Nat) (x : TileSt) (u : Nat) : (s.setTile t x).page u = s.page u := rfl
@[simp] theorem State.object_setTile (t : Nat) (x : TileSt) (u : Nat) : (s.setTile t x).object u = s.object u := rfl
@[simp] theorem State.ring_setTile (t : Nat) (x : TileSt) (u : Nat) : (s.setTile t x).ring u = s.ring u := rfl
@[simp] theorem State.job_setTile (t : Nat) (x : TileSt) (u : Nat) : (s.setTile t x).job u = s.job u := rfl
@[simp] theorem State.stack_modTile (t : Nat) (f : TileSt → TileSt) (u : Nat) : (s.modTile t f).stack u = s.stack u := rfl
@[simp] theorem State.page_modTile (t : Nat) (f : TileSt → TileSt) (u : Nat) : (s.modTile t f).page u = s.page u := rfl
@[simp] theorem State.object_modTile (t : Nat) (f : TileSt → TileSt) (u : Nat) : (s.modTile t f).object u = s.object u := rfl
@[simp] theorem State.ring_modTile (t : Nat) (f : TileSt → TileSt) (u : Nat) : (s.modTile t f).ring u = s.ring u := rfl
@[simp] theorem State.job_modTile (t : Nat) (f : TileSt → TileSt) (u : Nat) : (s.modTile t f).job u = s.job u := rfl
@[simp] theorem State.stack_setDealer (d : Nat) (x : DealerSt) (u : Nat) : (s.setDealer d x).stack u = s.stack u := rfl
@[simp] theorem State.page_setDealer (d : Nat) (x : DealerSt) (u : Nat) : (s.setDealer d x).page u = s.page u := rfl
@[simp] theorem State.object_setDealer (d : Nat) (x : DealerSt) (u : Nat) : (s.setDealer d x).object u = s.object u := rfl
@[simp] theorem State.ring_setDealer (d : Nat) (x : DealerSt) (u : Nat) : (s.setDealer d x).ring u = s.ring u := rfl
@[simp] theorem State.job_setDealer (d : Nat) (x : DealerSt) (u : Nat) : (s.setDealer d x).job u = s.job u := rfl
@[simp] theorem State.stack_modDealer (d : Nat) (f : DealerSt → DealerSt) (u : Nat) : (s.modDealer d f).stack u = s.stack u := rfl
@[simp] theorem State.page_modDealer (d : Nat) (f : DealerSt → DealerSt) (u : Nat) : (s.modDealer d f).page u = s.page u := rfl
@[simp] theorem State.object_modDealer (d : Nat) (f : DealerSt → DealerSt) (u : Nat) : (s.modDealer d f).object u = s.object u := rfl
@[simp] theorem State.ring_modDealer (d : Nat) (f : DealerSt → DealerSt) (u : Nat) : (s.modDealer d f).ring u = s.ring u := rfl
@[simp] theorem State.job_modDealer (d : Nat) (f : DealerSt → DealerSt) (u : Nat) : (s.modDealer d f).job u = s.job u := rfl
@[simp] theorem State.ring_setStack (k : Nat) (x : StackSt) (u : Nat) : (s.setStack k x).ring u = s.ring u := rfl
@[simp] theorem State.job_setStack (k : Nat) (x : StackSt) (u : Nat) : (s.setStack k x).job u = s.job u := rfl
@[simp] theorem State.ring_modStack (k : Nat) (f : StackSt → StackSt) (u : Nat) : (s.modStack k f).ring u = s.ring u := rfl
@[simp] theorem State.job_modStack (k : Nat) (f : StackSt → StackSt) (u : Nat) : (s.modStack k f).job u = s.job u := rfl
@[simp] theorem State.stack_setRing (r : Nat) (x : RingSt) (u : Nat) : (s.setRing r x).stack u = s.stack u := rfl
@[simp] theorem State.page_setRing (r : Nat) (x : RingSt) (u : Nat) : (s.setRing r x).page u = s.page u := rfl
@[simp] theorem State.object_setRing (r : Nat) (x : RingSt) (u : Nat) : (s.setRing r x).object u = s.object u := rfl
@[simp] theorem State.stack_modRing (r : Nat) (f : RingSt → RingSt) (u : Nat) : (s.modRing r f).stack u = s.stack u := rfl
@[simp] theorem State.page_modRing (r : Nat) (f : RingSt → RingSt) (u : Nat) : (s.modRing r f).page u = s.page u := rfl
@[simp] theorem State.object_modRing (r : Nat) (f : RingSt → RingSt) (u : Nat) : (s.modRing r f).object u = s.object u := rfl
@[simp] theorem State.stack_setJob (j : Nat) (x : Option JobSt) (u : Nat) : (s.setJob j x).stack u = s.stack u := rfl
@[simp] theorem State.page_setJob (j : Nat) (x : Option JobSt) (u : Nat) : (s.setJob j x).page u = s.page u := rfl
@[simp] theorem State.object_setJob (j : Nat) (x : Option JobSt) (u : Nat) : (s.setJob j x).object u = s.object u := rfl
@[simp] theorem State.ring_setPage (p : Nat) (x : Option PageSt) (u : Nat) : (s.setPage p x).ring u = s.ring u := rfl
@[simp] theorem State.job_setPage (p : Nat) (x : Option PageSt) (u : Nat) : (s.setPage p x).job u = s.job u := rfl
@[simp] theorem State.ring_setObject (b : Nat) (x : Option ObjectSt) (u : Nat) : (s.setObject b x).ring u = s.ring u := rfl
@[simp] theorem State.job_setObject (b : Nat) (x : Option ObjectSt) (u : Nat) : (s.setObject b x).job u = s.job u := rfl
@[simp] theorem State.stack_send (m : OutMsg) (u : Nat) : (s.send m).stack u = s.stack u := rfl
@[simp] theorem State.page_send (m : OutMsg) (u : Nat) : (s.send m).page u = s.page u := rfl
@[simp] theorem State.object_send (m : OutMsg) (u : Nat) : (s.send m).object u = s.object u := rfl
@[simp] theorem State.ring_send (m : OutMsg) (u : Nat) : (s.send m).ring u = s.ring u := rfl
@[simp] theorem State.job_send (m : OutMsg) (u : Nat) : (s.send m).job u = s.job u := rfl
@[simp] theorem State.ring_setJob (j : Nat) (x : Option JobSt) (u : Nat) : (s.setJob j x).ring u = s.ring u := rfl
@[simp] theorem State.job_setRing (r : Nat) (x : RingSt) (u : Nat) : (s.setRing r x).job u = s.job u := rfl
@[simp] theorem State.job_modRing (r : Nat) (f : RingSt → RingSt) (u : Nat) : (s.modRing r f).job u = s.job u := rfl
@[simp] theorem State.tile_logRec (r : ErrRec) (u : Nat) : (s.logRec r).tile u = s.tile u := by simp [State.tile]
@[simp] theorem State.tile_noteCode (c : Code) (u : Nat) : (s.noteCode c).tile u = s.tile u := by simp [State.tile]
@[simp] theorem State.tile_report (c : Code) (i : RecInfo) (u : Nat) : (s.report c i).tile u = s.tile u := by simp [State.tile]
@[simp] theorem State.tile_faultJob (j : Nat) (c : Code) (u : Nat) : (s.faultJob j c).tile u = s.tile u := by simp [State.tile]
@[simp] theorem State.tile_jobFaults (j : Nat) (c : Code) (i : RecInfo) (u : Nat) : (s.jobFaults j c i).tile u = s.tile u := by simp [State.tile]
@[simp] theorem State.tile_modJob (j : Nat) (g : JobSt → JobSt) (u : Nat) : (s.modJob j g).tile u = s.tile u := by simp [State.tile]
@[simp] theorem State.dealer_logRec (r : ErrRec) (u : Nat) : (s.logRec r).dealer u = s.dealer u := by simp [State.dealer]
@[simp] theorem State.dealer_noteCode (c : Code) (u : Nat) : (s.noteCode c).dealer u = s.dealer u := by simp [State.dealer]
@[simp] theorem State.dealer_report (c : Code) (i : RecInfo) (u : Nat) : (s.report c i).dealer u = s.dealer u := by simp [State.dealer]
@[simp] theorem State.dealer_faultJob (j : Nat) (c : Code) (u : Nat) : (s.faultJob j c).dealer u = s.dealer u := by simp [State.dealer]
@[simp] theorem State.dealer_jobFaults (j : Nat) (c : Code) (i : RecInfo) (u : Nat) : (s.jobFaults j c i).dealer u = s.dealer u := by simp [State.dealer]
@[simp] theorem State.dealer_modJob (j : Nat) (g : JobSt → JobSt) (u : Nat) : (s.modJob j g).dealer u = s.dealer u := by simp [State.dealer]
@[simp] theorem State.stack_logRec (r : ErrRec) (u : Nat) : (s.logRec r).stack u = s.stack u := by simp [State.stack]
@[simp] theorem State.stack_noteCode (c : Code) (u : Nat) : (s.noteCode c).stack u = s.stack u := by simp [State.stack]
@[simp] theorem State.stack_report (c : Code) (i : RecInfo) (u : Nat) : (s.report c i).stack u = s.stack u := by simp [State.stack]
@[simp] theorem State.stack_faultJob (j : Nat) (c : Code) (u : Nat) : (s.faultJob j c).stack u = s.stack u := by simp [State.stack]
@[simp] theorem State.stack_jobFaults (j : Nat) (c : Code) (i : RecInfo) (u : Nat) : (s.jobFaults j c i).stack u = s.stack u := by simp [State.stack]
@[simp] theorem State.stack_modJob (j : Nat) (g : JobSt → JobSt) (u : Nat) : (s.modJob j g).stack u = s.stack u := by simp [State.stack]
@[simp] theorem State.page_logRec (r : ErrRec) (u : Nat) : (s.logRec r).page u = s.page u := by simp [State.page]
@[simp] theorem State.page_noteCode (c : Code) (u : Nat) : (s.noteCode c).page u = s.page u := by simp [State.page]
@[simp] theorem State.page_report (c : Code) (i : RecInfo) (u : Nat) : (s.report c i).page u = s.page u := by simp [State.page]
@[simp] theorem State.page_faultJob (j : Nat) (c : Code) (u : Nat) : (s.faultJob j c).page u = s.page u := by simp [State.page]
@[simp] theorem State.page_jobFaults (j : Nat) (c : Code) (i : RecInfo) (u : Nat) : (s.jobFaults j c i).page u = s.page u := by simp [State.page]
@[simp] theorem State.page_modJob (j : Nat) (g : JobSt → JobSt) (u : Nat) : (s.modJob j g).page u = s.page u := by simp [State.page]
@[simp] theorem State.object_logRec (r : ErrRec) (u : Nat) : (s.logRec r).object u = s.object u := by simp [State.object]
@[simp] theorem State.object_noteCode (c : Code) (u : Nat) : (s.noteCode c).object u = s.object u := by simp [State.object]
@[simp] theorem State.object_report (c : Code) (i : RecInfo) (u : Nat) : (s.report c i).object u = s.object u := by simp [State.object]
@[simp] theorem State.object_faultJob (j : Nat) (c : Code) (u : Nat) : (s.faultJob j c).object u = s.object u := by simp [State.object]
@[simp] theorem State.object_jobFaults (j : Nat) (c : Code) (i : RecInfo) (u : Nat) : (s.jobFaults j c i).object u = s.object u := by simp [State.object]
@[simp] theorem State.object_modJob (j : Nat) (g : JobSt → JobSt) (u : Nat) : (s.modJob j g).object u = s.object u := by simp [State.object]
@[simp] theorem State.ring_logRec (r : ErrRec) (u : Nat) : (s.logRec r).ring u = s.ring u := by simp [State.ring]
@[simp] theorem State.ring_noteCode (c : Code) (u : Nat) : (s.noteCode c).ring u = s.ring u := by simp [State.ring]
@[simp] theorem State.ring_report (c : Code) (i : RecInfo) (u : Nat) : (s.report c i).ring u = s.ring u := by simp [State.ring]
@[simp] theorem State.job_logRec (r : ErrRec) (u : Nat) : (s.logRec r).job u = s.job u := by simp [State.job]
@[simp] theorem State.job_noteCode (c : Code) (u : Nat) : (s.noteCode c).job u = s.job u := by simp [State.job]
@[simp] theorem State.job_report (c : Code) (i : RecInfo) (u : Nat) : (s.report c i).job u = s.job u := by simp [State.job]

end Sys2Proof.Machine
end

