-- ==== Sys2Proof/Laws/Links.lean ====
section
/-!
SUPPORT. Laws/Links.lean: what the shared operations of the links do to the state: one link's update, sending, pumping, coming up and
failing.
-/

namespace Sys2Proof.Machine

open Sys2Proof.Claims

theorem State.link_setLink (s : State) (l k : Nat) (x : LinkSt) : (s.setLink l x).link k = if k = l then x else s.link k :=
  SMap.get_set _ _ _ _ _

theorem State.link_setLink_same (s : State) (l : Nat) (x : LinkSt) : (s.setLink l x).link l = x := by
  rw [State.link_setLink, if_pos rfl]

theorem State.link_setLink_other (s : State) (l k : Nat) (x : LinkSt) (h : k ≠ l) : (s.setLink l x).link k = s.link k := by
  rw [State.link_setLink, if_neg h]

theorem State.link_congr {s m : State} (h : m.links = s.links) (k : Nat) : m.link k = s.link k := by
  unfold State.link; rw [h]

theorem State.sess_congr {s m : State} (h : m.links = s.links) (k : Nat) : m.sess k = s.sess k := by
  unfold State.sess; rw [h]

theorem State.report_link (s : State) (c : Code) (i : RecInfo) (k : Nat) : (s.report c i).link k = s.link k :=
  State.link_congr (by simp) k

theorem LinksOnly.refl (s : State) : LinksOnly s s := ⟨rfl, rfl, rfl, rfl, rfl, rfl, rfl, rfl⟩

theorem LinksOnly.trans {a b c : State} (h : LinksOnly a b) (k : LinksOnly b c) : LinksOnly a c := by
  obtain ⟨h1, h2, h3, h4, h5, h6, h7, h8⟩ := h
  obtain ⟨k1, k2, k3, k4, k5, k6, k7, k8⟩ := k
  exact ⟨k1.trans h1, k2.trans h2, k3.trans h3, k4.trans h4, k5.trans h5, k6.trans h6, k7.trans h7, k8.trans h8⟩

theorem linksOnly_report (s : State) (c : Code) (i : RecInfo) : LinksOnly s (s.report c i) := by
  refine ⟨?_, ?_, ?_, ?_, ?_, ?_, ?_, ?_⟩ <;> simp

theorem linksOnly_draw (s : State) : LinksOnly s s.draw.2 := ⟨rfl, rfl, rfl, rfl, rfl, rfl, rfl, rfl⟩

theorem linkTo_setLink (s : State) (l : Nat) (y : LinkSt) : LinkTo s l y (s.setLink l y) :=
  ⟨State.link_setLink_same s l y, fun k h => State.link_setLink_other s l k y h, rfl, rfl, rfl, rfl, rfl, rfl, rfl, rfl⟩

theorem State.logs_noteCode (s : State) (c : Code) : (s.noteCode c).logs = s.logs := by
  unfold State.noteCode; split
  · rfl
  · split <;> rfl

/-- The local logs keep what they hold. -/
def Grows (s m : State) : Prop := ∀ die,
  (∃ rs, (m.logs.locals.get .init die).recs = (s.logs.locals.get .init die).recs ++ rs)
    ∧ (s.logs.locals.get .init die).dropped ≤ (m.logs.locals.get .init die).dropped

theorem Grows.of_eq {s m : State} (h : m.logs = s.logs) : Grows s m := fun _ => by rw [h]; exact ⟨⟨[], by simp⟩, Nat.le_refl _⟩

theorem Grows.trans {a b c : State} (h : Grows a b) (k : Grows b c) : Grows a c := fun die => by
  obtain ⟨⟨r1, e1⟩, h1⟩ := h die
  obtain ⟨⟨r2, e2⟩, h2⟩ := k die
  exact ⟨⟨r1 ++ r2, by rw [e2, e1, List.append_assoc]⟩, Nat.le_trans h1 h2⟩

theorem logs_logRec (s : State) (r : ErrRec) (die : Nat) : ((s.logRec r).logs.locals.get .init die) =
    if die = r.cls * 64 + r.idx then
      (let l := s.logs.locals.get .init die
       if l.recs.length < 16 then { l with recs := l.recs ++ [r] } else { l with dropped := l.dropped + 1 })
    else s.logs.locals.get .init die := by
  unfold State.logRec
  dsimp only
  rw [SMap.get_set]
  by_cases h : die = r.cls * 64 + r.idx
  · rw [if_pos h, if_pos h, h]
  · rw [if_neg h, if_neg h]

theorem grows_logRec (s : State) (r : ErrRec) : Grows s (s.logRec r) := fun die => by
  rw [logs_logRec]
  split
  · dsimp only
    split
    · exact ⟨⟨[r], rfl⟩, Nat.le_refl _⟩
    · exact ⟨⟨[], by simp⟩, Nat.le_succ _⟩
  · exact ⟨⟨[], by simp⟩, Nat.le_refl _⟩

theorem grows_report (s : State) (c : Code) (i : RecInfo) : Grows s (s.report c i) := by
  have h : Grows s s.draw.2 := Grows.of_eq rfl
  exact (h.trans (grows_logRec _ _)).trans (Grows.of_eq (State.logs_noteCode _ _))

/-- Later records do not undo an earlier one. -/
theorem logged_grow {s t m : State} {c : Code} {u : Nat} (h : Logged s t c u) (k : Grows t m) : Logged s m c u := by
  obtain ⟨die, h⟩ := h
  obtain ⟨⟨rs, e⟩, hd⟩ := k die
  refine ⟨die, ?_⟩
  dsimp only at h ⊢
  rw [e]
  rcases h with ⟨r, hr, hc⟩ | ⟨hl, hd2⟩
  · left
    refine ⟨r, ?_, hc⟩
    rw [List.drop_append]
    exact List.mem_append_left _ hr
  · right
    rw [List.length_append]
    exact ⟨Nat.le_trans hl (Nat.le_add_right _ _), Nat.lt_of_lt_of_le hd2 hd⟩

/-- An earlier state whose logs the report's state continues. -/
theorem logged_before {s t m : State} {c : Code} {u : Nat} (k : Grows s t) (h : Logged t m c u) : Logged s m c u := by
  obtain ⟨die, h⟩ := h
  obtain ⟨⟨rs, e⟩, hd⟩ := k die
  refine ⟨die, ?_⟩
  dsimp only at h ⊢
  rcases h with ⟨r, hr, hc⟩ | ⟨hl, hd2⟩
  · left
    refine ⟨r, ?_, hc⟩
    rw [e, List.length_append] at hr
    rw [← List.drop_drop] at hr
    exact List.mem_of_mem_drop hr
  · right
    exact ⟨hl, Nat.lt_of_le_of_lt hd hd2⟩

/-- A report's record enters a local log. -/
theorem report_logged (s : State) (c : Code) (i : RecInfo) : Logged s (s.report c i) c i.unit := by
  obtain ⟨r, hr, h1, h2⟩ : ∃ r : ErrRec, s.report c i = (s.draw.2.logRec r).noteCode c ∧ r.code = c ∧ r.unit = i.unit := ⟨_, rfl, rfl, rfl⟩
  refine ⟨r.cls * 64 + r.idx, ?_⟩
  dsimp only
  rw [hr, State.logs_noteCode, logs_logRec, if_pos rfl]
  dsimp only
  show (∃ _, _) ∨ _
  split
  · left
    refine ⟨r, ?_, h1, h2⟩
    show r ∈ List.drop (SMap.get LocalLog.init s.logs.locals _).recs.length ((SMap.get LocalLog.init s.logs.locals _).recs ++ [r])
    rw [List.drop_left]
    exact List.mem_singleton.2 rfl
  · right
    rename_i h
    exact ⟨Nat.le_of_not_lt h, Nat.lt_succ_self _⟩

/-- Any later state with the same logs shows it. -/
theorem logged_report {s t m : State} {c : Code} {i : RecInfo} (h1 : t.logs = s.logs) (h2 : m.logs = (t.report c i).logs) :
    Logged s m c i.unit := logged_grow (logged_before (Grows.of_eq h1) (report_logged t c i)) (Grows.of_eq h2)

/-- Messages sent in order. -/
theorem State.send_all {α : Type} (f : α → OutMsg) : ∀ (l : List α) (s : State),
    l.foldl (fun s q => s.send (f q)) s = { s with outbox := s.outbox ++ l.map f }
  | [], s => by simp
  | a :: l, s => by
    rw [List.foldl_cons, State.send_all f l]
    simp [State.send]

/-- What pumping can change of a link. -/
def Pumped (x y : LinkSt) : Prop :=
  ∃ t c r q, y = { x with txSeq := t, credits := c, replay := r, txq := q }

theorem Pumped.refl (x : LinkSt) : Pumped x x := ⟨_, _, _, _, rfl⟩

theorem pumpStep_link (a : PumpAcc) (q : Nat × OutTx) : Pumped a.link (a.step q).link := by
  unfold PumpAcc.step
  split
  · exact ⟨_, _, _, _, rfl⟩
  · exact Pumped.refl _

theorem pumpFold_link : ∀ (l : List (Nat × OutTx)) (a : PumpAcc), Pumped a.link (l.foldl PumpAcc.step a).link
  | [], a => Pumped.refl _
  | q :: l, a => by
    obtain ⟨t, c, r, k, e⟩ := pumpFold_link l (a.step q)
    obtain ⟨t', c', r', k', e'⟩ := pumpStep_link a q
    rw [e'] at e
    exact ⟨t, c, r, k, e⟩

/-- One link's queues and state, the sessions and what is sent may change; the logs, the rank and the boot state do not. -/
def LinkStep (s : State) (l : Nat) (m : State) : Prop :=
  LinksOnly s m ∧ (∀ k, k ≠ l → m.link k = s.link k) ∧ m.logs = s.logs ∧ m.boot = s.boot
    ∧ m.links.rankValid = s.links.rankValid ∧ m.links.twin = s.links.twin ∧ m.links.rrc = s.links.rrc

theorem LinkStep.refl (s : State) (l : Nat) : LinkStep s l s := ⟨LinksOnly.refl s, fun _ _ => rfl, rfl, rfl, rfl, rfl, rfl⟩

theorem LinkStep.trans {a b c : State} {l : Nat} (h : LinkStep a l b) (k : LinkStep b l c) : LinkStep a l c := by
  obtain ⟨h1, h2, h3, h4, h5, h6, h7⟩ := h
  obtain ⟨k1, k2, k3, k4, k5, k6, k7⟩ := k
  exact ⟨LinksOnly.trans h1 k1, fun j hj => (k2 j hj).trans (h2 j hj), k3.trans h3, k4.trans h4, k5.trans h5, k6.trans h6, k7.trans h7⟩

theorem linkStep_setLink (s : State) (l : Nat) (y : LinkSt) : LinkStep s l (s.setLink l y) :=
  ⟨(linkTo_setLink s l y).2.2, (linkTo_setLink s l y).2.1, rfl, rfl, rfl, rfl, rfl⟩

theorem linkStep_send (s : State) (l : Nat) (o : OutMsg) : LinkStep s l (s.send o) := ⟨LinksOnly.refl s, fun _ _ => rfl, rfl, rfl, rfl, rfl, rfl⟩

theorem linkStep_setSess (s : State) (l p : Nat) (x : FarSess) : LinkStep s l (s.setSess p x) :=
  ⟨LinksOnly.refl s, fun _ _ => rfl, rfl, rfl, rfl, rfl, rfl⟩

theorem linkStep_fold {α : Type} (l : Nat) (f : State → α → State) (h : ∀ s a, LinkStep s l (f s a)) : ∀ (xs : List α) (s : State),
    LinkStep s l (xs.foldl f s)
  | [], s => LinkStep.refl s l
  | a :: xs, s => (h s a).trans (linkStep_fold l f h xs (f s a))

/-- Pumping a link changes that link's queues and sends. -/
theorem State.pump_spec (s : State) (l : Nat) : LinkStep s l (s.pump l) ∧ Pumped (s.link l) ((s.pump l).link l) := by
  have h := pumpFold_link (s.link l).txq ⟨s.link l, [], []⟩
  unfold State.pump
  dsimp only
  refine ⟨(linkStep_setLink s l _).trans (linkStep_fold l _ (fun s q => linkStep_send s l _) _ _), ?_⟩
  rw [State.send_all (fun q : Nat × OutTx => OutMsg.near l q.1 q.2)]
  show Pumped (s.link l) (SMap.get .init (s.links.links.set .init l _) l)
  rw [SMap.get_set_same]
  obtain ⟨t, c, r, k, e⟩ := h
  rw [e]
  exact ⟨_, _, _, _, rfl⟩

theorem State.pump_of (s : State) (l : Nat) (r : PumpAcc) (h : (s.link l).txq.foldl PumpAcc.step ⟨s.link l, [], []⟩ = r) :
    s.pump l = { s.setLink l { r.link with txq := r.kept } with outbox := s.outbox ++ r.sent.map (fun q => .near l q.1 q.2) } := by
  subst h
  unfold State.pump
  dsimp only
  rw [State.send_all (fun q : Nat × OutTx => OutMsg.near l q.1 q.2)]
  rfl

/-- A link with nothing waiting stays as it is. -/
theorem State.pump_idle (s : State) (l : Nat) (h : (s.link l).txq = []) : s.pump l = s.setLink l (s.link l) := by
  have e : ({ s.link l with txq := [] } : LinkSt) = s.link l := by rw [← h]
  rw [State.pump_of s l ⟨s.link l, [], []⟩ (by rw [h]; rfl)]
  dsimp only [List.map]
  rw [e, List.append_nil]
  rfl

/-- Pumping a link of which nothing may be sent. -/
theorem pumpFold_down (l : List (Nat × OutTx)) : ∀ (a : PumpAcc), a.link.phase ≠ .up →
    l.foldl PumpAcc.step a = { a with kept := a.kept ++ l } := by
  induction l with
  | nil => intro a _; simp
  | cons q l ih =>
    intro a h
    have e : a.step q = { a with kept := a.kept ++ [q] } := by
      unfold PumpAcc.step LinkSt.maySend
      rw [if_neg (by simp [h])]
    rw [List.foldl_cons, e, ih { a with kept := a.kept ++ [q] } h]
    simp

theorem State.pump_down (s : State) (l : Nat) (h : (s.link l).phase ≠ .up) : s.pump l = s.setLink l (s.link l) := by
  rw [State.pump_of s l _ (pumpFold_down _ ⟨s.link l, [], []⟩ h)]
  dsimp only [List.map]
  rw [List.append_nil]
  rfl

/-- One transaction waits, and may go. -/
theorem State.pump_one (s : State) (l vc : Nat) (tx : OutTx) (h : (s.link l).txq = [(vc, tx)])
    (hm : (s.link l).maySend vc tx = true) :
    s.pump l = { s.setLink l { (s.link l).push vc tx with txq := [] } with
      outbox := s.outbox ++ [.near l (((s.link l).txSeq + 1) % 4096) tx] } := by
  have e : PumpAcc.step ⟨s.link l, [], []⟩ (vc, tx)
      = ⟨(s.link l).push vc tx, [(((s.link l).txSeq + 1) % 4096, tx)], []⟩ := by
    unfold PumpAcc.step
    rw [if_pos (by rw [hm]; rfl)]
    rfl
  rw [State.pump_of s l ⟨(s.link l).push vc tx, [(((s.link l).txSeq + 1) % 4096, tx)], []⟩ (by rw [h]; exact e)]
  rfl

/-- Sending in a session changes sessions and what is sent, and no link. -/
theorem State.pumpFar_spec (l p : Nat) : ∀ (n : Nat) (s : State), LinkStep s l (s.pumpFar p n) ∧ (s.pumpFar p n).links.links = s.links.links
  | 0, s => ⟨LinkStep.refl s l, rfl⟩
  | n + 1, s => by
    have key : ∀ m : State, LinkStep s l m → m.links.links = s.links.links →
        LinkStep s l (m.pumpFar p n) ∧ (m.pumpFar p n).links.links = s.links.links := by
      intro m h1 h2
      obtain ⟨h, e⟩ := State.pumpFar_spec l p n m
      exact ⟨h1.trans h, e.trans h2⟩
    unfold State.pumpFar
    dsimp only
    repeat' split
    all_goals
      first
      | exact key _ ((linkStep_setSess s l p _).trans (linkStep_send _ l _)) rfl
      | exact ⟨LinkStep.refl s l, rfl⟩

theorem State.flushAll_spec (l : Nat) : ∀ (ps : List Nat) (s : State), LinkStep s l (ps.foldl State.flushFar s)
    ∧ (ps.foldl State.flushFar s).links.links = s.links.links
  | [], s => ⟨LinkStep.refl s l, rfl⟩
  | p :: ps, s => by
    obtain ⟨h1, e1⟩ := State.pumpFar_spec l p (s.sess p).txq.length s
    obtain ⟨h2, e2⟩ := State.flushAll_spec l ps (s.flushFar p)
    exact ⟨LinkStep.trans h1 h2, e2.trans e1⟩

/-- A link comes up: it is UP, and no other link changes. -/
theorem State.linkUp_spec (s : State) (l : Nat) : LinkStep s l (s.linkUp l)
    ∧ Pumped { s.link l with phase := .up, retrainLeft := 0 } ((s.linkUp l).link l) := by
  have h0 : LinkStep s l (s.modLink l (fun x => { x with phase := .up, retrainLeft := 0 })) := linkStep_setLink _ _ _
  have hl : (s.modLink l (fun x => { x with phase := .up, retrainLeft := 0 })).link l = { s.link l with phase := .up, retrainLeft := 0 } :=
    State.link_setLink_same _ _ _
  unfold State.linkUp
  dsimp only
  split
  · obtain ⟨h, e⟩ := State.flushAll_spec l ((s.modLink l (fun x => { x with phase := .up, retrainLeft := 0 })).links.sess.map (·.1))
      (s.modLink l (fun x => { x with phase := .up, retrainLeft := 0 }))
    refine ⟨h0.trans h, ?_⟩
    unfold State.link at hl ⊢
    rw [e, hl]
    exact Pumped.refl _
  · obtain ⟨h, hp⟩ := State.pump_spec (s.modLink l (fun x => { x with phase := .up, retrainLeft := 0 })) l
    rw [hl] at hp
    exact ⟨h0.trans h, hp⟩

theorem Pumped.same {x y : LinkSt} (h : Pumped x y) : y.phase = x.phase ∧ y.version = x.version ∧ y.peer = x.peer ∧ y.error = x.error
    ∧ y.enable = x.enable := by
  obtain ⟨t, c, r, q, rfl⟩ := h; exact ⟨rfl, rfl, rfl, rfl, rfl⟩

theorem otherLink_ne (l : Nat) : otherLink l ≠ l := by unfold otherLink; split <;> omega

/-- Two links change and a code is logged. -/
theorem two_report (s : State) (l o : Nat) (y z : LinkSt) (c : Code) (i : RecInfo) (h : o ≠ l) :
    let m := ((s.setLink l y).setLink o z).report c i
    LinksOnly s m ∧ m.link l = y ∧ m.link o = z ∧ (∀ k, k ≠ l → k ≠ o → m.link k = s.link k) ∧ Logged s m c i.unit
      ∧ m.outbox = s.outbox := by
  intro m
  refine ⟨LinksOnly.trans (LinksOnly.trans (linkStep_setLink s l y).1 (linkStep_setLink _ o z).1) (linksOnly_report _ _ _),
    ?_, ?_, ?_, logged_report (t := (s.setLink l y).setLink o z) (i := i) rfl rfl, State.report_outbox _ _ _⟩
  · rw [State.report_link, State.link_setLink_other _ _ _ _ (Ne.symm h), State.link_setLink_same]
  · rw [State.report_link, State.link_setLink_same]
  · intro k h1 h2
    rw [State.report_link, State.link_setLink_other _ _ _ _ h2, State.link_setLink_other _ _ _ _ h1]

/-- The transactions that go over to the other link: what was unacknowledged, then its own, then what waited. -/
def handed (x y : LinkSt) : List (Nat × OutTx) := x.replay.map (fun i => (i.vc, i.tx)) ++ y.txq ++ x.txq

theorem State.failOver_eq (s : State) (l : Nat) : s.failOver l =
    if (s.link (otherLink l)).phase = .disabled then
      ((s.setLink l { s.link l with replay := [], txq := [] }).setLink (otherLink l)
        { s.link (otherLink l) with replay := [], txq := [] }).report Codes.linkPeerLost
          ((s.setLink l { s.link l with replay := [], txq := [] }).linkInfo l)
    else
      (((s.setLink l { s.link l with replay := [], txq := [] }).setLink (otherLink l)
        { s.link (otherLink l) with txq := handed (s.link l) (s.link (otherLink l)) }).report Codes.linkFailover
          ((s.setLink l { s.link l with replay := [], txq := [] }).linkInfo l)).pump (otherLink l) := by
  have e : (s.setLink l { s.link l with replay := [], txq := [] }).link (otherLink l) = s.link (otherLink l) :=
    State.link_setLink_other _ _ _ _ (otherLink_ne l)
  unfold State.failOver State.modLink
  dsimp only
  rw [e]
  rfl

/-- A near link that leaves service takes its pair's other link, or the peer, with it. -/
theorem State.failOver_spec (s : State) (l : Nat) :
    LinksOnly s (s.failOver l) ∧ (∀ k, k ≠ l → k ≠ otherLink l → (s.failOver l).link k = s.link k)
    ∧ (s.failOver l).link l = { s.link l with replay := [], txq := [] }
    ∧ ((s.link (otherLink l)).phase = .disabled → Logged s (s.failOver l) Codes.linkPeerLost l ∧ (s.failOver l).outbox = s.outbox
        ∧ (s.failOver l).link (otherLink l) = { s.link (otherLink l) with replay := [], txq := [] })
    ∧ ((s.link (otherLink l)).phase ≠ .disabled → Logged s (s.failOver l) Codes.linkFailover l
        ∧ ((s.link (otherLink l)).phase ≠ .up → (s.failOver l).outbox = s.outbox
          ∧ (s.failOver l).link (otherLink l) = { s.link (otherLink l) with txq := handed (s.link l) (s.link (otherLink l)) }))
    ∧ ∀ vc tx, (s.link (otherLink l)).maySend vc tx = true → handed (s.link l) (s.link (otherLink l)) = [(vc, tx)] →
        (s.failOver l).outbox = s.outbox ++ [.near (otherLink l) (((s.link (otherLink l)).txSeq + 1) % 4096) tx] := by
  have hne := otherLink_ne l
  rw [State.failOver_eq]
  by_cases hd : (s.link (otherLink l)).phase = .disabled
  · rw [if_pos hd]
    obtain ⟨h1, h2, h3, h4, h5, h6⟩ := two_report s l (otherLink l) { s.link l with replay := [], txq := [] }
      { s.link (otherLink l) with replay := [], txq := [] } Codes.linkPeerLost
      ((s.setLink l { s.link l with replay := [], txq := [] }).linkInfo l) hne
    refine ⟨h1, h4, h2, fun _ => ⟨h5, h6, h3⟩, fun h => absurd hd h, ?_⟩
    intro vc tx hm _
    unfold LinkSt.maySend at hm
    rw [hd] at hm
    simp at hm
  · rw [if_neg hd]
    obtain ⟨h1, h2, h3, h4, h5, h6⟩ := two_report s l (otherLink l) { s.link l with replay := [], txq := [] }
      { s.link (otherLink l) with txq := handed (s.link l) (s.link (otherLink l)) } Codes.linkFailover
      ((s.setLink l { s.link l with replay := [], txq := [] }).linkInfo l) hne
    generalize ((s.setLink l { s.link l with replay := [], txq := [] }).setLink (otherLink l)
        { s.link (otherLink l) with txq := handed (s.link l) (s.link (otherLink l)) }).report Codes.linkFailover
          ((s.setLink l { s.link l with replay := [], txq := [] }).linkInfo l) = m at *
    obtain ⟨hs, _⟩ := State.pump_spec m (otherLink l)
    refine ⟨LinksOnly.trans h1 hs.1, ?_, ?_, fun h => absurd h hd, fun _ => ⟨?_, ?_⟩, ?_⟩
    · intro k k1 k2
      rw [hs.2.1 k k2, h4 k k1 k2]
    · rw [hs.2.1 l (Ne.symm hne), h2]
    · exact logged_grow h5 (Grows.of_eq hs.2.2.1)
    · intro hnu
      rw [State.pump_down m (otherLink l) (by rw [h3]; exact hnu)]
      exact ⟨h6, by rw [State.link_setLink_same, h3]⟩
    · intro vc tx hm hq
      rw [State.pump_one m (otherLink l) vc tx (by rw [h3]; exact hq) (by rw [h3]; exact hm)]
      show m.outbox ++ _ = _
      rw [h6, h3]

/-- The far sessions' frames are sent again; nothing else changes. -/
theorem State.moveSessions_spec (s : State) (l : Nat) : LinkStep s l s.moveSessions ∧ s.moveSessions.links = s.links
    ∧ ∀ u, s.farLink = some u → ∀ p i, i ∈ (s.sess p).unacked → .far u i.seq i.tx ∈ s.moveSessions.outbox := by
  unfold State.moveSessions
  split
  · exact ⟨LinkStep.refl s l, rfl, by intro u h; simp_all⟩
  · rename_i v hv
    have hin : ∀ (s : State) p, (s.sess p).unacked.foldl (fun s i => s.send (.far v i.seq i.tx)) s
        = { s with outbox := s.outbox ++ (s.sess p).unacked.map (fun i => .far v i.seq i.tx) } := fun s p => State.send_all _ _ s
    have hall : ∀ (ps : List Nat) (m : State), m.links = s.links → (ps.foldl (fun s p => (s.sess p).unacked.foldl (fun s i => s.send (.far v i.seq i.tx)) s) m)
        = { m with outbox := m.outbox ++ ps.flatMap (fun p => (s.sess p).unacked.map (fun i => .far v i.seq i.tx)) } := by
      intro ps
      induction ps with
      | nil => intro m _; simp
      | cons p ps ih =>
        intro m hm
        rw [List.foldl_cons, hin]
        refine (ih { m with outbox := m.outbox ++ (m.sess p).unacked.map (fun i => .far v i.seq i.tx) } hm).trans ?_
        simp [State.sess, hm]
    rw [hall _ s rfl]
    refine ⟨⟨LinksOnly.refl s, fun _ _ => rfl, rfl, rfl, rfl, rfl, rfl⟩, rfl, ?_⟩
    intro u hu p i hi
    have huv : v = u := by simpa [hv] using hu
    subst huv
    simp only [List.mem_append, List.mem_flatMap, List.mem_map]
    right
    refine ⟨p, ?_, i, hi, rfl⟩
    by_contra hc
    have : s.sess p = .init := by
      unfold State.sess SMap.get
      have hn : s.links.sess.find? (fun q => q.1 == p) = none := List.find?_eq_none.2 (fun q hq => by
        have : q.1 ≠ p := fun h => hc ⟨q, hq, h⟩
        simpa using this)
      rw [hn]
    rw [this] at hi
    simp [FarSess.init] at hi

theorem grows_report_of (s a : State) (c : Code) (i : RecInfo) (h : a.logs = s.logs) : Grows s (a.report c i) :=
  Grows.trans (Grows.of_eq h) (grows_report a c i)

theorem grows_pump_of (s a : State) (c : Code) (i : RecInfo) (n : Nat) (h : a.logs = s.logs) : Grows s ((a.report c i).pump n) :=
  Grows.trans (grows_report_of s a c i h) (Grows.of_eq (State.pump_spec _ _).1.2.2.1)

theorem State.failOver_grows (s : State) (l : Nat) : Grows s (s.failOver l) := by
  rw [State.failOver_eq]
  split
  · refine grows_report_of s _ _ _ ?_
    rfl
  · refine grows_pump_of s _ _ _ _ ?_
    rfl

/-- A near link fails: it is DISABLED with the code. -/
theorem State.linkFails_spec (s : State) (l : Nat) (c : Code) (hn : isFar l = false) (hp : (s.link l).phase ≠ .disabled) :
    let m := s.linkFails l c
    LinksOnly s m ∧ (∀ k, k ≠ l → k ≠ otherLink l → m.link k = s.link k) ∧ (m.link l).phase = .disabled
      ∧ (m.link l).error = c.toNat % 16 ∧ Logged s m c l ∧ (m.link l).replay = [] := by
  intro m
  obtain ⟨t, ht⟩ : ∃ t, t = (s.modLink l (fun x => { x with error := c.toNat % 16 })).report c (s.linkInfo l) := ⟨_, rfl⟩
  have htl : t.link l = { s.link l with error := c.toNat % 16 } := by
    rw [ht, State.report_link]; exact State.link_setLink_same _ _ _
  have hm : m = (t.setLink l { t.link l with phase := .disabled, retryDue := false, asm := [] }).failOver l := by
    show State.disableLink _ _ = _
    unfold State.disableLink
    dsimp only
    rw [← ht, htl]
    rw [if_neg hp, hn]
    dsimp only
    unfold State.modLink
    rw [htl]
    rfl
  have hlog : Logged s t c l :=
    logged_report (t := s.modLink l (fun x => { x with error := c.toNat % 16 })) (i := s.linkInfo l) rfl (by rw [ht])
  have hto : LinksOnly s t := by
    rw [ht]; exact LinksOnly.trans (linkStep_setLink s l _).1 (linksOnly_report _ _ _)
  have htk : ∀ k, k ≠ l → t.link k = s.link k := by
    intro k h
    rw [ht, State.report_link]; exact State.link_setLink_other _ _ _ _ h
  obtain ⟨u, hu⟩ : ∃ u, u = t.setLink l { t.link l with phase := .disabled, retryDue := false, asm := [] } := ⟨_, rfl⟩
  have hul : u.link l = { t.link l with phase := .disabled, retryDue := false, asm := [] } := by
    rw [hu]; exact State.link_setLink_same _ _ _
  have huk : ∀ k, k ≠ l → u.link k = t.link k := by
    intro k h; rw [hu]; exact State.link_setLink_other _ _ _ _ h
  have huo : LinksOnly t u := by rw [hu]; exact (linkStep_setLink t l _).1
  have hug : Grows t u := by rw [hu]; exact Grows.of_eq rfl
  rw [← hu] at hm
  clear_value m
  clear hu
  obtain ⟨f1, f2, f3, _, _, _⟩ := State.failOver_spec u l
  have hg : Grows u m := by
    rw [hm]
    exact State.failOver_grows u l
  rw [← hm] at f1 f2 f3
  rw [hul] at f3
  refine ⟨LinksOnly.trans (LinksOnly.trans hto huo) f1, ?_, by rw [f3], by rw [f3, htl], logged_grow (logged_grow hlog hug) hg, by rw [f3]⟩
  intro k h1 h2
  rw [f2 k h1 h2, huk k h1, htk k h1]

end Sys2Proof.Machine
end

