-- ==== Sys2Proof/Laws/Stores.lean ====
section
/-!
SUPPORT. Laws/Stores.lean: what writes of elements can change: bytes of the unified range and their pages' written flags,
and the scratchpad, the accumulator memory and the summary counts of one tile. The memory keeps its canonical form.
-/

namespace Sys2Proof.Machine

/-- Only stored bytes and what counts them differ: bytes of the unified range, and those of tile `t`. -/
structure Stores (t : Nat) (s s' : State) : Prop where
  rest  : s' = { s with tiles := s'.tiles, mem := s'.mem, freeCtr := s'.freeCtr }
  mem   : s'.mem = { s.mem with bytes := s'.mem.bytes, pages := s'.mem.pages }
  other : ∀ u, u ≠ t → s'.tile u = s.tile u
  this  : s'.tile t = { s.tile t with spad := (s'.tile t).spad, acc := (s'.tile t).acc,
                                      regs := { (s.tile t).regs with sums := (s'.tile t).regs.sums,
                                                                     degenerate := (s'.tile t).regs.degenerate } }
  wf    : Memory.wf s.mem.bytes = true → Memory.wf s'.mem.bytes = true

theorem Stores.refl (t : Nat) (s : State) : Stores t s s := ⟨rfl, rfl, fun _ _ => rfl, rfl, id⟩

theorem Stores.trans {t : Nat} {a b c : State} (h : Stores t a b) (k : Stores t b c) : Stores t a c := by
  refine ⟨?_, ?_, fun u hu => (k.other u hu).trans (h.other u hu), ?_, fun w => k.wf (h.wf w)⟩
  · have h1 := h.rest; have k1 := k.rest; rw [h1] at k1; exact k1
  · have h1 := h.mem; have k1 := k.mem; rw [h1] at k1; exact k1
  · have h1 := h.this; have k1 := k.this; rw [h1] at k1; exact k1

theorem Stores.job {t : Nat} {s s' : State} (h : Stores t s s') (j : Nat) : s'.job j = s.job j := by rw [h.rest]; rfl

theorem Stores.sched {t : Nat} {s s' : State} (h : Stores t s s') : s'.sched = s.sched := by rw [h.rest]

theorem Stores.hand {t : Nat} {s s' : State} (h : Stores t s s') : (s'.tile t).hand = (s.tile t).hand := by rw [h.this]

/-- A fold of stores stores. -/
theorem stores_foldl {α : Type} {t : Nat} {f : State → α → State} (hf : ∀ s a, Stores t s (f s a)) (l : List α) (s : State) :
    Stores t s (l.foldl f s) := by
  induction l generalizing s with
  | nil => exact .refl t s
  | cons a l ih => exact (hf s a).trans (ih _)

theorem stores_foldl_fst {α β : Type} {t : Nat} {f : State × β → α → State × β} (hf : ∀ p a, Stores t p.1 (f p a).1)
    (l : List α) (p : State × β) : Stores t p.1 (l.foldl f p).1 := by
  induction l generalizing p with
  | nil => exact .refl t _
  | cons a l ih => exact (hf p a).trans (ih _)

theorem stores_setBytes (t : Nat) (s : State) (addr : Nat) (bs : List Byte) :
    Stores t s { s with mem := { s.mem with bytes := s.mem.bytes.setRange 0 addr bs } } :=
  ⟨rfl, rfl, fun _ _ => rfl, rfl, fun w => SMap.wf_setRange 0 _ addr bs w⟩

theorem stores_touchPages (t : Nat) (s : State) (ps : List Nat) : Stores t s (s.touchPages ps) := by
  unfold State.touchPages
  apply stores_foldl
  intro s p
  split
  · exact ⟨rfl, rfl, fun _ _ => rfl, rfl, id⟩
  · exact .refl t s

theorem stores_writeMem (t : Nat) (s : State) (addr : Nat) (bs : List Byte) : Stores t s (s.writeMem addr bs) :=
  (stores_setBytes t s addr bs).trans (stores_touchPages t _ _)

/-- A change of the stored bytes of a tile. -/
theorem stores_modTile (t : Nat) (s : State) (f : TileSt → TileSt)
    (h : ∀ x, f x = { x with spad := (f x).spad, acc := (f x).acc,
                             regs := { x.regs with sums := (f x).regs.sums, degenerate := (f x).regs.degenerate } }) :
    Stores t s (s.modTile t f) :=
  ⟨rfl, rfl, fun u hu => by rw [State.tile_modTile, if_neg hu], by rw [State.tile_modTile_same]; exact h _, id⟩

theorem stores_poke (t : Nat) (s : State) (space addr : Nat) (bs : List Byte) : Stores t s (s.poke t space addr bs) := by
  unfold State.poke
  split
  · exact stores_modTile t s _ (fun _ => rfl)
  · exact stores_modTile t s _ (fun _ => rfl)
  · exact stores_writeMem t s addr bs

theorem stores_pokeBits (t : Nat) (s : State) (space addr bit n v : Nat) :
    Stores t s (s.pokeBits t space addr bit n v) := stores_poke _ _ _ _ _

theorem stores_addSums (t : Nat) (s : State) (c : Sums) : Stores t s (s.addSums t c) :=
  stores_modTile t s _ (fun _ => rfl)

theorem stores_putBlock (t : Nat) (s : State) (d : Tensor) (r : RowIx) (k : Nat) (q : QBlock) :
    Stores t s (s.putBlock t d r k q) := (stores_pokeBits _ _ _ _ _ _ _).trans (stores_poke _ _ _ _ _)

theorem stores_putBlocks (t : Nat) (s : State) (d : Tensor) (m : RndMode) (th : W32) (r : RowIx) (o : Nat)
    (vs : List FV) : Stores t s (s.putBlocks t d m th r o vs).1 :=
  stores_foldl_fst (fun _ _ => stores_putBlock _ _ _ _ _ _) _ (s, Sums.zeros)

theorem stores_putElems (t : Nat) (s : State) (d : Tensor) (m : RndMode) (r : RowIx) (o : Nat)
    (vs : List (Option FV)) : Stores t s (s.putElems t d m r o vs) := stores_poke _ _ _ _ _

theorem stores_putRun (t : Nat) (s : State) (d : Tensor) (m : RndMode) (th : W32) (r : RowIx) (o : Nat) (vs : List FV) :
    Stores t s (s.putRun t d m th r o vs).1 := by
  unfold State.putRun
  split
  · split
    · exact stores_putBlocks t s d m th r o vs
    · exact stores_putElems t s d m r o _
  · exact .refl t s

theorem stores_stashPut (t j : Nat) (e : StashEnt) (bs : List Byte) : ∀ (s : State) (o : Nat),
    Stores t s (s.stashPut j e o bs) := by
  induction bs with
  | nil => intro s o; exact .refl t s
  | cons b bs ih => intro s o; exact (stores_writeMem t s _ _).trans (ih _ _)

theorem stores_stashWriteAt {t j addr : Nat} {e : StashEnt} {bs : List Byte} {s s' : State}
    (h : s.stashWriteAt j e addr bs = .ok s') : Stores t s s' := by
  unfold State.stashWriteAt at h
  dsimp only at h
  by_cases hp : e.packed = true
  · rw [if_pos hp, if_pos hp] at h
    split at h
    · cases h
    · cases h
      apply stores_foldl
      intro s p
      exact ((stores_stashPut t j e _ s _).trans (stores_writeMem t _ _ _)).trans (stores_writeMem t _ _ _)
  · rw [if_neg hp, if_neg hp] at h
    split at h
    · cases h
    · cases h
      exact stores_stashPut t j e _ s _

theorem stores_uniPut {t j addr : Nat} {bs : List Byte} {s s' : State} (h : s.uniPut j addr bs = .ok s') : Stores t s s' := by
  unfold State.uniPut at h
  split at h
  · cases h; exact stores_writeMem t s addr bs
  · exact stores_stashWriteAt h

theorem stores_putRunFor {t j : Nat} {d : Tensor} {m : RndMode} {th : W32} {r : RowIx} {o : Nat} {vs : List FV} {s : State}
    {p : State × Sums} (h : s.putRunFor j t d m th r o vs = .ok p) : Stores t s p.1 := by
  unfold State.putRunFor at h
  dsimp only at h
  split at h
  · split at h
    · cases h
    · split at h
      · next s' h' => cases h; exact stores_uniPut h'
      · cases h
  · cases h; exact stores_putRun t s d m th r o vs

theorem stores_putRawFor {t j : Nat} {d : Tensor} {r : RowIx} {o : Nat} {bits : List Nat} {s s' : State}
    (h : s.putRawFor j t d r o bits = .ok s') : Stores t s s' := by
  unfold State.putRawFor at h
  dsimp only at h
  split at h
  · exact stores_uniPut h
  · cases h; exact stores_poke _ _ _ _ _

theorem stores_copyRow {t j : Nat} {trans : Bool} {m : RndMode} {th : W32} {so sd : W64} {a b : Tensor} {r : RowIx}
    {s : State} {p : State × Sums} (h : s.copyRow j t trans m th so sd a b r = .ok p) : Stores t s p.1 := by
  unfold State.copyRow at h
  dsimp only at h
  split at h
  · cases h; exact .refl t s
  · split at h
    · split at h
      · cases h
      · split at h
        · cases h
        · next s' h' => cases h; exact stores_putRawFor h'
    · split at h
      · cases h
      · split at h
        · cases h
          apply stores_foldl_fst (p := (s, Sums.zeros))
          intro p k
          split
          · exact stores_putBlock _ _ _ _ _ _
          · exact stores_putBlock _ _ _ _ _ _
        · exact stores_putRunFor h

theorem stores_foldRows {t : Nat} {f : State → RowIx → Except Code (State × Sums)}
    (hf : ∀ s r p, f s r = .ok p → Stores t s p.1) (rs : List RowIx) : ∀ (p q : State × Sums),
      foldRows f rs p = .ok q → Stores t p.1 q.1 := by
  induction rs with
  | nil => intro p q h; cases h; exact .refl t _
  | cons r rs ih =>
    intro p q h
    unfold foldRows at h
    split at h
    · cases h
    · next p' h' => exact (hf _ _ _ h').trans (ih (p'.1, p.2.add p'.2) _ h)

theorem stores_gatherDo {t : Nat} {d : DmaRec} {s s' : State} (h : s.gatherDo t d = .ok s') : Stores t s s' := by
  unfold State.gatherDo at h
  dsimp only at h
  split at h
  · cases h
  · cases h
    apply stores_foldl
    intro s c
    exact stores_poke _ _ _ _ _

theorem stores_windowDo {t j : Nat} {d : DmaRec} {s s' : State} (h : s.windowDo j t d = .ok s') : Stores t s s' := by
  unfold State.windowDo at h
  dsimp only at h
  split at h
  · cases h
  · cases h
    refine Stores.trans ?_ (stores_modTile t _ _ (fun _ => rfl))
    apply stores_foldl
    intro s c
    exact stores_poke _ _ _ _ _

/-- Everything that a DMA does to the machine before it leaves the outstanding ones. -/
theorem stores_dmaDo {t : Nat} {d : DmaRec} {s s' : State} (h : s.dmaDo t d = .ok s') : Stores t s s' := by
  unfold State.dmaDo at h
  dsimp only at h
  split at h
  · cases h
  · split at h
    · exact stores_gatherDo h
    · split at h
      · next s2 h' => cases h; exact stores_windowDo h'
      · cases h
    · split at h
      · next p h' =>
        cases h
        exact (stores_foldRows (fun _ _ _ h => stores_copyRow h) _ _ _ h').trans (stores_addSums _ _ _)
      · cases h

theorem stores_freeRegion (t : Nat) (s : State) (d : DmaRec) : Stores t s (s.freeRegion t d) := by
  unfold State.freeRegion
  dsimp only
  apply stores_foldl
  intro s p
  split
  · exact .refl t s
  · exact Stores.trans (b := { s with freeCtr := s.freeCtr + 1 }) ⟨rfl, rfl, fun _ _ => rfl, rfl, id⟩
      (stores_poke _ _ _ _ _)

end Sys2Proof.Machine
end

