-- ==== Sys2Proof/Laws/Memory.lean ====
section
/-!
SUPPORT. Laws/Memory.lean: reads after writes of the unified range, and what reports of a tile leave alone.
-/

namespace Sys2Proof.Machine

theorem State.touchPages_rest (s : State) (ps : List Nat) :
    s.touchPages ps = { s with mem := { s.mem with pages := (s.touchPages ps).mem.pages } } := by
  unfold State.touchPages
  induction ps generalizing s with
  | nil => rfl
  | cons p ps ih =>
    rw [List.foldl_cons, ih]
    split <;> rfl

/-- Everything that a write of bytes changes. -/
theorem State.writeMem_rest (s : State) (a : Nat) (bs : List Byte) :
    s.writeMem a bs = { s with mem := { s.mem with bytes := s.mem.bytes.setRange 0 a bs,
                                                   pages := (s.writeMem a bs).mem.pages } } := by
  unfold State.writeMem
  dsimp only
  rw [State.touchPages_rest]

theorem State.bytes_writeMem (s : State) (a : Nat) (bs : List Byte) :
    (s.writeMem a bs).mem.bytes = s.mem.bytes.setRange 0 a bs := by rw [State.writeMem_rest]

@[simp] theorem State.tile_writeMem (s : State) (a : Nat) (bs : List Byte) (u : Nat) : (s.writeMem a bs).tile u = s.tile u := by
  rw [State.writeMem_rest]; rfl

@[simp] theorem State.dealer_writeMem (s : State) (a : Nat) (bs : List Byte) (u : Nat) :
    (s.writeMem a bs).dealer u = s.dealer u := by rw [State.writeMem_rest]; rfl

@[simp] theorem State.job_writeMem (s : State) (a : Nat) (bs : List Byte) (j : Nat) : (s.writeMem a bs).job j = s.job j := by
  rw [State.writeMem_rest]; rfl

@[simp] theorem State.tile_writeLe (s : State) (a n x : Nat) (u : Nat) : (s.writeLe a n x).tile u = s.tile u :=
  State.tile_writeMem _ _ _ _

@[simp] theorem State.job_writeLe (s : State) (a n x : Nat) (j : Nat) : (s.writeLe a n x).job j = s.job j :=
  State.job_writeMem _ _ _ _

/-- One byte after a write. -/
theorem State.byte_writeMem (s : State) (a : Nat) (bs : List Byte) (k : Nat) :
    (s.writeMem a bs).mem.bytes.get 0 k
      = if a ≤ k ∧ k < a + bs.length then bs.getD (k - a) 0 else s.mem.bytes.get 0 k := by
  rw [State.bytes_writeMem, SMap.get_setRange]

theorem State.byte_writeLe (s : State) (a n x k : Nat) :
    (s.writeLe a n x).mem.bytes.get 0 k
      = if a ≤ k ∧ k < a + n then BitVec.ofNat 8 (x / 256 ^ (k - a)) else s.mem.bytes.get 0 k := by
  unfold State.writeLe
  rw [State.byte_writeMem, natLe_length]
  split
  · rw [natLe_getD _ _ _ (by omega)]
  · rfl

@[simp] theorem State.tiles_writeLe (s : State) (a n x : Nat) : (s.writeLe a n x).tiles = s.tiles := by
  unfold State.writeLe; rw [State.writeMem_rest]

@[simp] theorem State.dealers_writeLe (s : State) (a n x : Nat) : (s.writeLe a n x).dealers = s.dealers := by
  unfold State.writeLe; rw [State.writeMem_rest]

@[simp] theorem State.sched_writeLe (s : State) (a n x : Nat) : (s.writeLe a n x).sched = s.sched := by
  unfold State.writeLe; rw [State.writeMem_rest]

theorem State.readMem_writeMem (s : State) (a : Nat) (bs : List Byte) : (s.writeMem a bs).readMem a bs.length = bs := by
  unfold State.readMem
  rw [State.bytes_writeMem, SMap.getRange_setRange]

theorem State.readMem_writeMem_other (s : State) (a : Nat) (bs : List Byte) (b n : Nat)
    (h : b + n ≤ a ∨ a + bs.length ≤ b) : (s.writeMem a bs).readMem b n = s.readMem b n := by
  unfold State.readMem
  rw [State.bytes_writeMem, SMap.getRange_setRange_other _ _ _ _ _ _ h]

/-- A value just written. -/
theorem State.readLe_writeLe (s : State) (a n x : Nat) : (s.writeLe a n x).readLe a n = x % 256 ^ n := by
  unfold State.readLe State.writeLe
  have h := State.readMem_writeMem s a (natLe n x)
  rw [natLe_length] at h
  rw [h, leNat_natLe]

theorem State.readLe_writeLe_other (s : State) (a n x b m : Nat) (h : b + m ≤ a ∨ a + n ≤ b) :
    (s.writeLe a n x).readLe b m = s.readLe b m := by
  unfold State.readLe State.writeLe
  rw [State.readMem_writeMem_other _ _ _ _ _ (by rw [natLe_length]; exact h)]

/-- A read depends on its bytes alone. -/
theorem State.readLe_congr {s s' : State} (h : s'.mem.bytes = s.mem.bytes) (a n : Nat) : s'.readLe a n = s.readLe a n := by
  unfold State.readLe State.readMem; rw [h]

@[simp] theorem State.mem_reportOnce (s : State) (j : Nat) (c : Code) (i : RecInfo) : (s.reportOnce j c i).mem = s.mem := by
  unfold State.reportOnce
  repeat' split
  all_goals simp

@[simp] theorem State.tile_reportOnce (s : State) (j : Nat) (c : Code) (i : RecInfo) (u : Nat) :
    (s.reportOnce j c i).tile u = s.tile u := by
  unfold State.reportOnce
  repeat' split
  all_goals simp

/-- A fault reported against a slot of the hand (R72): its register at most, and the job's fault. -/
theorem State.tileReport_spec (s : State) (t slot : Nat) (c : Code) (j : Nat) (hand : W64) (data : List Byte) :
    (∃ f, (s.tileReport t slot c j hand data).tile t
        = { s.tile t with regs := { (s.tile t).regs with fault := f } })
      ∧ (∀ u, u ≠ t → (s.tileReport t slot c j hand data).tile u = s.tile u)
      ∧ (s.tileReport t slot c j hand data).mem = s.mem
      ∧ ∀ y, s.job j = some y →
          (s.tileReport t slot c j hand data).job j = some { y with fault := some (y.fault.getD c) } := by
  unfold State.tileReport
  dsimp only
  generalize hb : ((s.tile t).regs.fault.valid
    || (match (s.tile t).hand with | some h => h.id != hand || h.job != j | none => true)) = b
  have jf : ∀ (q : State) (i : RecInfo) (y : JobSt), q.job j = some y →
      (q.jobFaults j c i).job j = some { y with fault := some (y.fault.getD c) } := by
    intro q i y hy
    simp only [State.jobFaults, State.faultJob, State.job_modJob, if_true, State.job_report, hy, Option.map_some]
    cases hf : y.fault with
    | none => simp
    | some c => cases y; simp_all
  cases b
  · simp only [Bool.false_eq_true, if_false]
    refine ⟨⟨_, by rw [State.tile_jobFaults, State.tile_setTile_same]⟩, ?_, by simp, ?_⟩
    · intro u hu; rw [State.tile_jobFaults, State.tile_setTile, if_neg hu]
    · intro y hy; exact jf _ _ y (by rw [State.job_setTile]; exact hy)
  · simp only [if_true]
    refine ⟨⟨(s.tile t).regs.fault, by rw [State.tile_jobFaults]⟩, ?_, by simp, ?_⟩
    · intro u hu; rw [State.tile_jobFaults]
    · intro y hy; exact jf _ _ y hy

end Sys2Proof.Machine
end

