-- ==== Sys2Proof/Laws/Collective.lean ====
section
/-!
SUPPORT. Laws/Collective.lean: a channel's update, sending a message, when a collective waits, and what an abort leaves.
-/

namespace Sys2Proof.Machine

open Sys2Proof.Claims

theorem State.chan_setChan (s : State) (c d : Nat) (y : ChanCol) : (s.setChan c y).chan d = if d = c then y else s.chan d :=
  SMap.get_set _ _ _ _ _

theorem State.chan_setChan_same (s : State) (c : Nat) (y : ChanCol) : (s.setChan c y).chan c = y := by
  rw [State.chan_setChan, if_pos rfl]

theorem State.chan_setChan_other (s : State) (c d : Nat) (y : ChanCol) (h : d ≠ c) : (s.setChan c y).chan d = s.chan d := by
  rw [State.chan_setChan, if_neg h]

theorem State.chan_congr {s m : State} (h : m.col.chans = s.col.chans) (d : Nat) : m.chan d = s.chan d := by
  unfold State.chan; rw [h]

theorem State.chan_setRun (s : State) (c : Nat) (x : ColRun) : (s.setRun c x).chan c = { s.chan c with run := some x } :=
  State.chan_setChan_same _ _ _

theorem State.chan_setRun_other (s : State) (c d : Nat) (x : ColRun) (h : d ≠ c) : (s.setRun c x).chan d = s.chan d :=
  State.chan_setChan_other _ _ _ _ h

/-- Nothing but links and what is sent differs, and the module's rank stays. -/
def Sends (s m : State) : Prop :=
  LinksOnly s m ∧ m.logs = s.logs ∧ m.boot = s.boot ∧ m.links.twin = s.links.twin ∧ m.links.rrc = s.links.rrc ∧ m.fuses = s.fuses
    ∧ m.sec = s.sec

theorem Sends.refl (s : State) : Sends s s := ⟨LinksOnly.refl s, rfl, rfl, rfl, rfl, rfl, rfl⟩

theorem Sends.trans {a b c : State} (h : Sends a b) (k : Sends b c) : Sends a c := by
  obtain ⟨h1, h2, h3, h4, h5, h6, h7⟩ := h
  obtain ⟨k1, k2, k3, k4, k5, k6, k7⟩ := k
  exact ⟨LinksOnly.trans h1 k1, k2.trans h2, k3.trans h3, k4.trans h4, k5.trans h5, k6.trans h6, k7.trans h7⟩

theorem Sends.rank {s m : State} (h : Sends s m) : m.rank = s.rank := by
  obtain ⟨_, _, h3, h4, h5, _⟩ := h
  unfold State.rank
  rw [h3, h4, h5]

theorem Sends.me {s m : State} (h : Sends s m) : m.me = s.me := by unfold State.me; rw [h.rank]

theorem sends_setLink (s : State) (l : Nat) (y : LinkSt) : Sends s (s.setLink l y) :=
  ⟨(linkTo_setLink s l y).2.2, rfl, rfl, rfl, rfl, rfl, rfl⟩

theorem sends_send (s : State) (o : OutMsg) : Sends s (s.send o) := ⟨LinksOnly.refl s, rfl, rfl, rfl, rfl, rfl, rfl⟩

theorem sends_setSess (s : State) (p : Nat) (x : FarSess) : Sends s (s.setSess p x) := ⟨LinksOnly.refl s, rfl, rfl, rfl, rfl, rfl, rfl⟩

theorem sends_fold {α : Type} (f : State → α → State) (h : ∀ s a, Sends s (f s a)) : ∀ (xs : List α) (s : State), Sends s (xs.foldl f s)
  | [], s => Sends.refl s
  | a :: xs, s => (h s a).trans (sends_fold f h xs (f s a))

theorem sends_pump (s : State) (l : Nat) : Sends s (s.pump l) := by
  unfold State.pump
  dsimp only
  exact (sends_setLink s l _).trans (sends_fold _ (fun s q => sends_send s _) _ _)

theorem sends_pumpFar (p : Nat) : ∀ (n : Nat) (s : State), Sends s (s.pumpFar p n)
  | 0, s => Sends.refl s
  | n + 1, s => by
    have key : ∀ m : State, Sends s m → Sends s (m.pumpFar p n) := fun m h => h.trans (sends_pumpFar p n m)
    unfold State.pumpFar
    dsimp only
    repeat' split
    all_goals
      first
      | exact key _ ((sends_setSess s p _).trans (sends_send _ _))
      | exact Sends.refl s

theorem sends_sendTx (s : State) (vc : Nat) (tx : OutTx) : Sends s (s.sendTx vc tx) := by
  have near : ∀ b, Sends s (s.sendNear b vc tx) := by
    intro b
    have h1 : Sends s (if tx.type = 1 then s.modLink b (fun x => { x with odd := !(s.link b).odd }) else s) := by
      split
      · exact sends_setLink s b _
      · exact Sends.refl s
    have h2 : ∀ (t : State) l, Sends t ((t.modLink l (fun x => { x with txq := x.txq ++ [(vc, tx)] })).pump l) := fun t l =>
      (sends_setLink t l _).trans (sends_pump _ l)
    unfold State.sendNear
    dsimp only
    generalize (if tx.type = 1 then s.modLink b (fun x => { x with odd := !(s.link b).odd }) else s) = t at *
    repeat' split
    all_goals
      first
      | exact h1.trans (h2 t _)
      | exact h1
  have far : ∀ p, Sends s (s.sendFar p tx) := by
    intro p
    unfold State.sendFar
    dsimp only
    have h1 : Sends s (s.modSess p (fun x => { x with txq := x.txq ++ [tx] })) := sends_setSess s p _
    split
    · exact h1.trans (sends_pumpFar p _ _)
    · split
      · unfold State.startHandshake
        exact (h1.trans (sends_setSess _ p _)).trans (sends_send _ _)
      · exact h1
  unfold State.sendTx
  split
  · exact near _
  · split
    · exact Sends.refl s
    · exact far _

/-- A message to itself enters the inbox; one to another module is sent. -/
theorem toInbox_spec (s : State) (c seq : Nat) (m : ColMsg) : ∃ ib, (s.toInbox c seq m).chan c = { s.chan c with inbox := ib }
    ∧ (∀ d, d ≠ c → (s.toInbox c seq m).chan d = s.chan d) ∧ (s.toInbox c seq m).mem = s.mem ∧ (s.toInbox c seq m).tiles = s.tiles
    ∧ (s.toInbox c seq m).sched = s.sched ∧ (s.toInbox c seq m).me = s.me := by
  unfold State.toInbox
  dsimp only
  split <;> split
  all_goals
    first
    | exact ⟨_, State.chan_setChan_same s c _, fun d h => State.chan_setChan_other s c d _ h, rfl, rfl, rfl, rfl⟩
    | exact ⟨(s.chan c).inbox, rfl, fun _ _ => rfl, rfl, rfl, rfl, rfl⟩

/-- A message for the running collective, or for one that is not yet posted, enters the inbox. -/
theorem toInbox_eq (s : State) (c seq : Nat) (m : ColMsg) (h : (∃ x, (s.chan c).run = some x ∧ x.desc.seq = seq) ∨ (s.chan c).posted < seq) :
    s.toInbox c seq m = s.setChan c { s.chan c with inbox := (s.chan c).inbox ++ [(seq, m)] } := by
  unfold State.toInbox
  dsimp only
  split
  · rename_i r hr
    rw [if_pos]
    · rfl
    · rw [Bool.or_eq_true, decide_eq_true_eq, beq_iff_eq]
      rcases h with ⟨x, hx, hq⟩ | h
      · left
        rw [hx] at hr
        rw [← Option.some.inj hr]; exact hq
      · exact Or.inr h
  · rename_i hr
    rw [if_pos]
    · rfl
    · rw [Bool.or_eq_true, decide_eq_true_eq]
      rcases h with ⟨x, hx, _⟩ | h
      · rw [hx] at hr; exact absurd hr (by simp)
      · exact Or.inr h

/-! Members and tricks of a module alone, and of the lowest. -/

theorem lowestIn_head (ms : List Nat) (d r : Nat) (h : ms.head? = some r) : lowestIn ms d r = r := by
  cases ms with
  | nil => simp at h
  | cons a as =>
    simp at h; subst h
    unfold lowestIn
    simp

theorem nextDecider_head (ms : List Nat) (r : Nat) (h : ms.head? = some r) : nextDecider ms r = none := by
  unfold nextDecider deciderOf
  rw [List.find?_eq_none]
  intro d hd
  obtain ⟨k, _, rfl⟩ := List.mem_map.1 hd
  rw [lowestIn_head ms _ r h]
  simp

theorem postTrick_head (ms : List Nat) (r : Nat) (h : ms.head? = some r) : postTrick ms r = none := by
  unfold postTrick deciderOf
  rw [List.find?_eq_none]
  intro k _
  rw [lowestIn_head ms _ r h]
  simp

theorem tricksOf_alone (r : Nat) : tricksOf [r] r = [] := by
  unfold tricksOf groupOf
  rw [List.filter_eq_nil_iff]
  intro k _
  have := List.length_filter_le (fun x => x / setDiv k == r / setDiv k && x % unitDiv k == r % unitDiv k) [r]
  simp only [List.length_singleton] at this
  simp only [decide_eq_true_eq]
  omega

theorem nextDecider_all (ms : List Nat) (r : Nat) (h : ∀ q ∈ ms, q = r) : nextDecider ms r = none := by
  cases ms with
  | nil => simp [nextDecider, deciderOf, lowestIn]
  | cons a as => exact nextDecider_head _ _ (by rw [h a (by simp)]; rfl)

/-- A posted collective that waits for messages or for its contribution. -/
structure Waits (x : ColRun) (me : Nat) : Prop where
  running : x.phase ≠ .stopped
  member : me ∈ x.members
  post : x.posted = true ∨ postTrick x.members me = none
  flag : x.flag = none
  packaged : x.packaged = false
  ready : x.rootReady = [] ∨ x.gos = []
  fixed : ∀ k ∈ tricksOf x.members me, deciderOf x.members k me = me → x.fixed.find? (fun q => q.1 == k) = none
    ∧ ∃ u ∈ unitsOf x.members k me, ¬ x.readies.any (fun q => q.1 == k && q.2.unit == u) = true
  level : x.level = 0
  up : x.sentUp = []
  go : ∀ k, (tricksOf x.members me).head? = some k → x.go k = none
    ∨ (x.contributors me k).contains me = true ∧ x.desc.op ≠ 4 ∧ x.desc.op ≠ 5
  down : x.sentDown = []
  placed : ¬(3 ≤ x.desc.op ∧ x.desc.op ≤ 6) → x.placed < x.total

theorem stepReady_none (s : State) (c : Nat) (x : ColRun) (h : Waits x s.me) : s.stepReady c x = none := by
  unfold State.stepReady
  dsimp only
  rw [List.findSome?_eq_none_iff]
  intro q hq
  split
  · rfl
  · split
    · rw [h.packaged]; rfl
    · split
      · rename_i hall
        rcases h.ready with h0 | h0
        · rw [List.all_eq_true] at hall
          have hm : s.me ∈ unitMods x.members q.1 s.me := List.mem_filter.2 ⟨h.member, by simp⟩
          have := hall _ hm
          rw [h0] at this
          simp at this
        · have : ∀ k, x.go k = none := by intro k; unfold ColRun.go; rw [h0]; rfl
          rw [this]
      · rfl

/-- Nothing more happens on a channel whose collective waits. -/
theorem colStep_waits (s : State) (c : Nat) (x : ColRun) (hr : (s.chan c).run = some x) (h : Waits x s.me)
    (hi : ∀ q ∈ (s.chan c).inbox, q.1 ≠ x.desc.seq) : s.colStep c = none := by
  unfold State.colStep
  rw [hr]
  dsimp only
  have hn : (s.chan c).inbox.find? (fun q => q.1 == x.desc.seq) = none := by
    rw [List.find?_eq_none]; intro q hq; simpa using hi q hq
  rw [hn]
  dsimp only
  rw [if_neg h.running]
  have e1 : s.stepPost c x = none := by
    unfold State.stepPost
    rcases h.post with hp | hp
    · rw [if_pos hp]
    · rw [hp]; split <;> rfl
  have e2 : s.stepFlag c x = none := by
    unfold State.stepFlag; rw [h.flag]; simp
  have e3 := stepReady_none s c x h
  have e4 : s.stepDecide c x = none := by
    unfold State.stepDecide
    rw [List.findSome?_eq_none_iff]
    intro k hk
    obtain ⟨hk1, hk2⟩ := List.mem_filter.1 hk
    obtain ⟨f1, u, hu, f2⟩ := h.fixed k hk1 (by simpa using hk2)
    dsimp only
    rw [f1]
    dsimp only
    rw [if_neg]
    rw [List.all_eq_true]
    exact fun hall => f2 (hall u hu)
  have e5 : s.stepUp c x = none := by
    unfold State.stepUp
    rw [h.level]
    cases hk : (tricksOf x.members s.me)[0]? with
    | none => rfl
    | some k =>
      have hk' : (tricksOf x.members s.me).head? = some k := by rw [List.head?_eq_getElem?]; exact hk
      dsimp only
      rcases h.go k hk' with g | ⟨g1, g2, g3⟩
      · rw [if_pos (by rw [g]; simp)]
      · split
        · rfl
        · rw [if_neg (by rw [g1]; simp [g2, g3]), if_pos]
          unfold ColRun.ownReady
          rw [h.packaged]; simp
  have e6 : s.stepRoot c x = none := by
    unfold State.stepRoot
    dsimp only
    split
    · rfl
    · rw [if_pos (by rw [h.up]; rfl)]
  have e7 : s.stepAlone c x = none := by unfold State.stepAlone; rw [h.packaged]; simp
  have e8 : s.stepShuffle c x = none := by unfold State.stepShuffle ColRun.climbed; rw [h.packaged]; simp
  have e9 : s.stepDown c x = none := by
    unfold State.stepDown
    split
    · rfl
    · rw [List.findSome?_eq_none_iff]
      intro q hq
      dsimp only
      rw [if_pos]
      have hlen : 0 < (tricksOf x.members s.me).length := by
        have h1 : q ∈ (tricksOf x.members s.me).zipIdx := hq
        cases ht : tricksOf x.members s.me with
        | nil => rw [ht] at h1; simp at h1
        | cons a as => simp
      have hseg : x.segmentPlaced s.me q.2 = false := by
        unfold ColRun.segmentPlaced
        dsimp only
        split
        · rw [h.level, decide_eq_false_iff_not]; omega
        · split
          · rfl
          · rw [h.down]; rfl
      rw [hseg]; simp
  have e10 : s.stepExcluded c x = none := by unfold State.stepExcluded; rw [h.packaged]; simp
  have e11 : s.stepComplete c x = none := by
    unfold State.stepComplete
    dsimp only
    rw [if_neg]
    unfold ColRun.climbed
    rw [h.packaged, h.up]
    split
    · simp
    · rename_i h5
      by_cases ho : 3 ≤ x.desc.op ∧ x.desc.op ≤ 6
      · have : x.desc.op = 3 ∨ x.desc.op = 4 ∨ x.desc.op = 6 := by omega
        rcases this with ho | ho | ho <;> simp [ho]
      · have := h.placed ho
        simp only [Bool.and_eq_true, decide_eq_true_eq]
        rintro ⟨⟨⟨a, _⟩, _⟩, _⟩
        omega
  rw [e1, e2, e3, e4, e5, e6, e7, e8, e9, e10, e11]
  rfl

end Sys2Proof.Machine
end

