-- ==== Sys2Proof/Laws/Issue.lean ====
section
/-!
SUPPORT. Laws/Issue.lean: what issuing one instruction can do, and reads after writes of a tile's registers.
-/

namespace Sys2Proof.Machine

variable {s s' : State} {t : Tile} {g : Guard} {w : Slot} {body : State → Eff} {code : Code}

theorem issue_done (hi : (s.tile t).canIssue w = true) (hg : (s.tile t).executes g = true) (hb : body s = .done s') :
    issue t g w body s = s'.modTile t (fun y => y.countIssue.advance) := by
  simp [issue, hi, hg, hb]

theorem issue_moved (hi : (s.tile t).canIssue w = true) (hg : (s.tile t).executes g = true) (hb : body s = .moved s') :
    issue t g w body s = s'.modTile t TileSt.countIssue := by
  simp [issue, hi, hg, hb]

theorem issue_fault (hi : (s.tile t).canIssue w = true) (hg : (s.tile t).executes g = true) (hb : body s = .fault code) :
    issue t g w body s = s.tileFault t (s.tile t).pc code := by
  simp [issue, hi, hg, hb]

theorem issue_trap {n : Nat} (hi : (s.tile t).canIssue w = true) (hg : (s.tile t).executes g = true)
    (hb : body s = .trap code n) : issue t g w body s = s.tileFaultTrap t (s.tile t).pc code n := by
  simp [issue, hi, hg, hb]

theorem issue_stall (hi : (s.tile t).canIssue w = true) (hg : (s.tile t).executes g = true) (hb : body s = .stall s') :
    issue t g w body s = s' := by
  simp [issue, hi, hg, hb]

/-- An instruction whose guard does not hold only passes. -/
theorem issue_skip (hi : (s.tile t).canIssue w = true) (hg : (s.tile t).executes g = false) :
    issue t g w body s = s.setTile t (s.tile t).countIssue.advance := by
  simp [issue, hi, hg]

/-- A command that does not stand at the program counter of a running hand has no effect. -/
theorem issue_idle (hi : (s.tile t).canIssue w = false) : issue t g w body s = s := by
  simp [issue, hi]

variable {lbody : BitVec 512 → State → Eff}

theorem issueLanes_done (hi : (s.tile t).canIssue w = true) (hb : lbody ((s.tile t).lanes g) s = .done s') :
    issueLanes t g w lbody s = s'.modTile t (fun y => y.countIssue.advance) := by
  simp [issueLanes, hi, hb]

theorem issueLanes_fault (hi : (s.tile t).canIssue w = true) (hb : lbody ((s.tile t).lanes g) s = .fault code) :
    issueLanes t g w lbody s = s.tileFault t (s.tile t).pc code := by
  simp [issueLanes, hi, hb]

theorem issueLanes_idle (hi : (s.tile t).canIssue w = false) : issueLanes t g w lbody s = s := by
  simp [issueLanes, hi]

@[simp] theorem State.modTile_modTile (s : State) (t : Nat) (f h : TileSt → TileSt) :
    ((s.modTile t f).modTile t h).tile t = h (f (s.tile t)) := by simp

/-! Registers. -/

theorem TileSt.sreg_setS (x : TileSt) (r q : BitVec 5) (v : W64) :
    (x.setS r v).sreg q = if q = r then (if r = 0 then 0 else v) else x.sreg q := by
  unfold TileSt.setS TileSt.sreg
  by_cases hq : q = r
  · rw [if_pos hq]; subst hq
    by_cases hr : q = 0
    · rw [if_pos hr, if_pos hr]
    · rw [if_neg hr, if_neg hr, if_neg hr]
      exact SMap.get_set_same _ _ _ _
  · rw [if_neg hq]
    have hn : q.toNat ≠ r.toNat := fun h => hq (BitVec.eq_of_toNat_eq h)
    by_cases hr : r = 0
    · rw [if_pos hr]
    · rw [if_neg hr]
      by_cases h0 : q = 0
      · rw [if_pos h0, if_pos h0]
      · rw [if_neg h0, if_neg h0]
        exact SMap.get_set_other _ _ _ _ _ hn

theorem TileSt.preg_setP (x : TileSt) (r q : BitVec 3) (v : BitVec 512) :
    (x.setP r v).preg q = if q = r then (if r = 0 then BitVec.allOnes 512 else v) else x.preg q := by
  unfold TileSt.setP TileSt.preg
  by_cases hq : q = r
  · rw [if_pos hq]; subst hq
    by_cases hr : q = 0
    · rw [if_pos hr, if_pos hr]
    · rw [if_neg hr, if_neg hr, if_neg hr]
      exact SMap.get_set_same _ _ _ _
  · rw [if_neg hq]
    have hn : q.toNat ≠ r.toNat := fun h => hq (BitVec.eq_of_toNat_eq h)
    by_cases hr : r = 0
    · rw [if_pos hr]
    · rw [if_neg hr]
      by_cases h0 : q = 0
      · rw [if_pos h0, if_pos h0]
      · rw [if_neg h0, if_neg h0]
        exact SMap.get_set_other _ _ _ _ _ hn

theorem TileSt.dreg_setD (x : TileSt) (r q : BitVec 6) (v : Desc) :
    (x.setD r v).dreg q = if q = r then v else x.dreg q := by
  unfold TileSt.setD TileSt.dreg
  by_cases hq : q = r
  · subst hq; simp
  · have : q.toNat ≠ r.toNat := fun h => hq (BitVec.eq_of_toNat_eq h)
    simp [hq, SMap.get_set_other _ _ _ _ _ this]

theorem TileSt.ereg_setE (x : TileSt) (i j : Nat) (v : W32) : (x.setE i v).ereg j = if j = i then v else x.ereg j :=
  SMap.get_set _ _ _ _ _

@[simp] theorem TileSt.vreg_length (x : TileSt) (r : BitVec 4) : (x.vreg r).length = 512 := by simp [TileSt.vreg]

/-- Everything of a tile but its scalar registers after a write of one. -/
theorem TileSt.setS_eq (x : TileSt) (r : BitVec 5) (v : W64) : x.setS r v = { x with s := (x.setS r v).s } := by
  unfold TileSt.setS; split <;> rfl

theorem TileSt.setP_eq (x : TileSt) (r : BitVec 3) (v : BitVec 512) : x.setP r v = { x with p := (x.setP r v).p } := by
  unfold TileSt.setP; split <;> rfl

/-! Loops and waits. -/

/-- A branch leaves the innermost loops whose bodies exclude its target. -/
theorem popLoops_spec (ls : List LoopEnt) (d : Nat) :
    (∃ gone, ls = gone ++ popLoops ls d ∧ ∀ l ∈ gone, ¬(l.start ≤ d ∧ d ≤ l.stop))
      ∧ ∀ l ∈ (popLoops ls d).head?, l.start ≤ d ∧ d ≤ l.stop := by
  induction ls with
  | nil => exact ⟨⟨[], rfl, by simp⟩, by simp [popLoops]⟩
  | cons l ls ih =>
    unfold popLoops
    split
    · next h => exact ⟨⟨[], rfl, by simp⟩, by simpa using h⟩
    · next h =>
      obtain ⟨⟨gone, e, hg⟩, hh⟩ := ih
      refine ⟨⟨l :: gone, by simp [← e], ?_⟩, hh⟩
      intro m hm
      rcases List.mem_cons.1 hm with rfl | hm
      · exact h
      · exact hg m hm

theorem TileSt.wake_run (x : TileSt) (e : Nat) (v : W32) (h : x.run = .waitEvt e v) :
    x.wake = if (x.ereg e - v).toNat < 2 ^ 31 then ({ x with run := .running } : TileSt).advance else x := by
  unfold TileSt.wake
  simp only [h, waitReached, decide_eq_true_eq]

theorem TileSt.wake_other (x : TileSt) (h : ∀ e v, x.run ≠ .waitEvt e v) : x.wake = x := by
  unfold TileSt.wake
  split
  · next e v h' => exact absurd h' (h e v)
  · rfl

theorem running_of_issue {s : State} {t : Tile} {w : Slot} (h : (s.tile t).canIssue w = true) :
    (s.tile t).run = .running := by
  simp [TileSt.canIssue] at h
  exact h.1.1.1.1

end Sys2Proof.Machine
end

