-- ==== Sys2Proof/Laws/Claims.lean ====
section
/-!
SUPPORT. Laws/Claims.lean: how the effects of Issue.lean and Ops.lean come to the terms of Safety.lean.
-/

namespace Sys2Proof.Claims

open Sys2Proof.Machine

theorem onlyTile_setTile (s : State) (t : Nat) (x : TileSt) : OnlyTile s (s.setTile t x) t :=
  ⟨fun u hu => by simp [State.tile_setTile, hu], rfl⟩

theorem onlyTile_modTile (s : State) (t : Nat) (f : TileSt → TileSt) : OnlyTile s (s.modTile t f) t :=
  onlyTile_setTile s t _

theorem OnlyTile.modTile {s s' : State} {t : Nat} (h : OnlyTile s s' t) (f : TileSt → TileSt) :
    OnlyTile s (s'.modTile t f) t := by
  refine ⟨fun u hu => ?_, ?_⟩
  · rw [State.tile_modTile, if_neg hu, h.1 u hu]
  · have := h.2
    unfold State.modTile State.setTile
    rw [this]

theorem OnlyTile.refl (s : State) (t : Nat) : OnlyTile s s t := ⟨fun _ _ => rfl, rfl⟩

theorem OnlyTile.trans {a b c : State} {t : Nat} (h : OnlyTile a b t) (k : OnlyTile b c t) : OnlyTile a c t :=
  ⟨fun u hu => (k.1 u hu).trans (h.1 u hu), by have h2 := h.2; have k2 := k.2; rw [h2] at k2; exact k2⟩

theorem passed_advance (x y : TileSt) (hl : y.loops = x.loops) (hp : y.pc = x.pc) (hi : y.issued = x.issued) :
    Passed x y.countIssue.advance := by
  refine ⟨?_, ?_⟩
  · simp [TileSt.advance, TileSt.countIssue, hl, hp]
  · simp [TileSt.advance, TileSt.countIssue, hi]

/-- An instruction that changes only registers of its tile. -/
theorem tileTo_issue {s : State} {t : Tile} {g : Guard} {i : Instr} {w : Slot} {body : State → Eff} (f : TileSt → TileSt)
    (hr : Runs s t g i) (hw : w = slotOf i) (hb : body s = .done (s.modTile t f))
    (hl : (f (s.tile t)).loops = (s.tile t).loops) (hp : (f (s.tile t)).pc = (s.tile t).pc)
    (hi : (f (s.tile t)).issued = (s.tile t).issued) :
    TileTo s t (f (s.tile t)) (issue t g w body s)
      ∧ (issue t g w body s).tile t = (f (s.tile t)).countIssue.advance := by
  subst hw
  rw [issue_done hr.1 hr.2 hb]
  have e : ((s.modTile t f).modTile t (fun y => y.countIssue.advance)).tile t = (f (s.tile t)).countIssue.advance := by simp
  refine ⟨⟨(onlyTile_modTile s t f).modTile _, ?_, ?_⟩, e⟩
  · rw [e]; exact passed_advance _ _ hl hp hi
  · rw [e]; rfl

/-- An instruction that leaves every unit but its tile. -/
theorem tileTo_done {s s1 : State} {t : Tile} {g : Guard} {i : Instr} {body : State → Eff} (hr : Runs s t g i)
    (hb : body s = .done s1) (ho : OnlyTile s s1 t) (hl : (s1.tile t).loops = (s.tile t).loops)
    (hp : (s1.tile t).pc = (s.tile t).pc) (hi : (s1.tile t).issued = (s.tile t).issued) :
    TileTo s t (s1.tile t) (issue t g (slotOf i) body s)
      ∧ (issue t g (slotOf i) body s).tile t = (s1.tile t).countIssue.advance := by
  rw [issue_done hr.1 hr.2 hb]
  have e : (s1.modTile t (fun y => y.countIssue.advance)).tile t = (s1.tile t).countIssue.advance := by simp
  refine ⟨⟨ho.modTile _, ?_, ?_⟩, e⟩
  · rw [e]; exact passed_advance _ _ hl hp hi
  · rw [e]; rfl

theorem writesScalar_issue {s : State} {t : Tile} {g : Guard} {i : Instr} {w : Slot} {body : State → Eff} {rd : BitVec 5}
    {v : TileSt → W64} (hr : Runs s t g i) (hw : w = slotOf i)
    (hb : body s = .done (s.modTile t (fun x => x.setS rd (v x)))) :
    WritesScalar s t rd (v (s.tile t)) (issue t g w body s) := by
  have e := TileSt.setS_eq (s.tile t) rd (v (s.tile t))
  have h := tileTo_issue (fun x => x.setS rd (v x)) hr hw hb (by have h := congrArg TileSt.loops e; exact h) (by have h := congrArg TileSt.pc e; exact h)
    (by have h := congrArg TileSt.issued e; exact h)
  have hs : ((issue t g w body s).tile t).s = ((s.tile t).setS rd (v (s.tile t))).s := by rw [h.2]; rfl
  have hsr : ∀ r, ((issue t g w body s).tile t).sreg r = ((s.tile t).setS rd (v (s.tile t))).sreg r := by
    intro r; unfold TileSt.sreg; rw [hs]
  refine ⟨?_, ?_, ?_⟩
  · rw [hs, ← e]; exact h.1
  · rw [hsr, TileSt.sreg_setS, if_pos rfl]
  · intro r hne; rw [hsr, TileSt.sreg_setS, if_neg hne]

theorem writesPred_issue {s : State} {t : Tile} {g : Guard} {i : Instr} {w : Slot} {body : State → Eff} {pd : BitVec 3}
    {v : BitVec 512} (hr : Runs s t g i) (hw : w = slotOf i)
    (hb : body s = .done (s.modTile t (fun x => x.setP pd v))) :
    WritesPred s t pd v (issue t g w body s) := by
  have e := TileSt.setP_eq (s.tile t) pd v
  have h := tileTo_issue (fun x => x.setP pd v) hr hw hb (by have h := congrArg TileSt.loops e; exact h) (by have h := congrArg TileSt.pc e; exact h)
    (by have h := congrArg TileSt.issued e; exact h)
  have hs : ((issue t g w body s).tile t).p = ((s.tile t).setP pd v).p := by rw [h.2]; rfl
  have hsr : ∀ r, ((issue t g w body s).tile t).preg r = ((s.tile t).setP pd v).preg r := by
    intro r; unfold TileSt.preg; rw [hs]
  refine ⟨?_, ?_, ?_⟩
  · rw [hs, ← e]; exact h.1
  · rw [hsr, TileSt.preg_setP, if_pos rfl]
  · intro r hne; rw [hsr, TileSt.preg_setP, if_neg hne]

theorem faults_tileFaultTrap (s : State) (t : Nat) (code : Code) (n : Nat) :
    Faults s t code (s.tileFaultTrap t (s.tile t).pc code n) := by
  refine ⟨?_, ?_, ?_, ?_, ?_, ?_⟩
  · simp [State.tileFaultTrap]
  · intro u hu; simp [State.tileFaultTrap, State.tile_setTile, hu]
  · simp [State.tileFaultTrap]
  · simp [State.tileFaultTrap]
  · simp [State.tileFaultTrap]
  · intro x hx
    simp only [State.tileFaultTrap, State.jobFaults, State.faultJob, State.job_modJob, if_true, State.job_report, State.job_setTile, hx,
      Option.map_some]
    cases hf : x.fault with
    | none => simp
    | some c =>
      have : x.fault = some c := hf
      cases x
      simp_all

/-- A precise fault found at issue. -/
theorem faults_issue {s : State} {t : Tile} {g : Guard} {i : Instr} {body : State → Eff} {c : Code}
    (hr : Runs s t g i) (hb : body s = .fault c) : Faults s t c (issue t g (slotOf i) body s) := by
  rw [issue_fault hr.1 hr.2 hb]; exact faults_tileFaultTrap s t c 0

theorem faults_issueLanes {s : State} {t : Tile} {g : Guard} {i : Instr} {body : BitVec 512 → State → Eff} {c : Code}
    (hr : Stands s t i) (hb : body ((s.tile t).lanes g) s = .fault c) :
    Faults s t c (issueLanes t g (slotOf i) body s) := by
  rw [issueLanes_fault hr hb]; exact faults_tileFaultTrap s t c 0

/-- An instruction that sets its tile, the program counter with it. -/
theorem moved_tile {s : State} {t : Tile} {g : Guard} {i : Instr} {body : State → Eff} {y : TileSt}
    (hr : Runs s t g i) (hb : body s = .moved (s.setTile t y)) :
    OnlyTile s (issue t g (slotOf i) body s) t ∧ (issue t g (slotOf i) body s).tile t = y.countIssue := by
  rw [issue_moved hr.1 hr.2 hb]
  exact ⟨(onlyTile_setTile s t y).modTile _, by simp⟩

/-- An instruction that only passes. -/
theorem done_same {s : State} {t : Tile} {g : Guard} {i : Instr} {body : State → Eff}
    (hr : Runs s t g i) (hb : body s = .done s) : TileTo s t (s.tile t) (issue t g (slotOf i) body s) := by
  rw [issue_done hr.1 hr.2 hb]
  refine ⟨onlyTile_modTile s t _, ?_, ?_⟩
  · rw [State.tile_modTile_same]; exact passed_advance _ _ rfl rfl rfl
  · rw [State.tile_modTile_same]; rfl

/-- A vector or special-function instruction that changes only registers of its tile. -/
theorem tileTo_issueLanes {s : State} {t : Tile} {g : Guard} {i : Instr} {w : Slot} {body : BitVec 512 → State → Eff}
    (f : TileSt → TileSt) (hr : Stands s t i) (hw : w = slotOf i)
    (hb : body ((s.tile t).lanes g) s = .done (s.modTile t f))
    (hl : (f (s.tile t)).loops = (s.tile t).loops) (hp : (f (s.tile t)).pc = (s.tile t).pc)
    (hi : (f (s.tile t)).issued = (s.tile t).issued) :
    TileTo s t (f (s.tile t)) (issueLanes t g w body s)
      ∧ (issueLanes t g w body s).tile t = (f (s.tile t)).countIssue.advance := by
  subst hw
  rw [issueLanes_done hr hb]
  have e : ((s.modTile t f).modTile t (fun y => y.countIssue.advance)).tile t = (f (s.tile t)).countIssue.advance := by simp
  refine ⟨⟨(onlyTile_modTile s t f).modTile _, ?_, ?_⟩, e⟩
  · rw [e]; exact passed_advance _ _ hl hp hi
  · rw [e]; rfl

/-! Vector registers. -/

theorem lane_setV (x : TileSt) (r q : BitVec 4) (ls : List W32) (i : Nat) (hl : ls.length = 512) (hi : i < 512) :
    lane (x.setV r ls) q i = if q = r then ls.getD i 0 else lane x q i := by
  unfold TileSt.setV lane
  have ht : ls.take 512 = ls := List.take_of_length_le (by omega)
  rw [ht, SMap.get_setRange, hl]
  by_cases hq : q = r
  · subst hq
    rw [if_pos (by omega), if_pos rfl]
    congr 1
    omega
  · have : q.toNat ≠ r.toNat := fun h => hq (BitVec.eq_of_toNat_eq h)
    rw [if_neg (by omega), if_neg hq]

theorem vreg_getD (x : TileSt) (r : BitVec 4) (i : Nat) (hi : i < 512) : (x.vreg r).getD i 0 = lane x r i :=
  SMap.getRange_getD _ _ _ _ _ hi

@[simp] theorem lanesOf_length (m : BitVec 512) (old : List W32) (f : Nat → W32) : (lanesOf m old f).length = old.length := by
  simp [lanesOf]

theorem lanesOf_getD (m : BitVec 512) (old : List W32) (f : Nat → W32) (i : Nat) (hi : i < old.length) :
    (lanesOf m old f).getD i 0 = if m.getLsbD i then f i else old.getD i 0 := by
  simp [lanesOf, List.getD, hi]

/-- An instruction whose effect is one vector register lane by lane. -/
theorem writesLanes_issue {s : State} {t : Tile} {g : Guard} {i : Instr} {w : Slot} {body : BitVec 512 → State → Eff}
    {vd : BitVec 4} {f : TileSt → Nat → W32} (hr : Stands s t i) (hw : w = slotOf i)
    (hb : body ((s.tile t).lanes g) s
      = .done (s.modTile t (fun x => x.setV vd (lanesOf ((s.tile t).lanes g) (x.vreg vd) (f x))))) :
    WritesLanes s t g vd (f (s.tile t)) (issueLanes t g w body s) := by
  have h := tileTo_issueLanes (fun x => x.setV vd (lanesOf ((s.tile t).lanes g) (x.vreg vd) (f x))) hr hw hb rfl rfl rfl
  have hv : ((issueLanes t g w body s).tile t).v
      = ((s.tile t).setV vd (lanesOf ((s.tile t).lanes g) ((s.tile t).vreg vd) (f (s.tile t)))).v := by rw [h.2]; rfl
  have hl : ∀ r k, lane ((issueLanes t g w body s).tile t) r k
      = lane ((s.tile t).setV vd (lanesOf ((s.tile t).lanes g) ((s.tile t).vreg vd) (f (s.tile t)))) r k := by
    intro r k; unfold lane; rw [hv]
  refine ⟨?_, ?_, ?_⟩
  · have := h.1
    rw [hv]; exact this
  · intro k hk
    rw [hl, lane_setV _ _ _ _ _ (by simp) hk, if_pos rfl, lanesOf_getD _ _ _ _ (by simpa using hk), vreg_getD _ _ _ hk]
  · intro r hne k hk
    rw [hl, lane_setV _ _ _ _ _ (by simp) hk, if_neg hne]

/-! The reduction tree. -/

theorem pairUp_length (op : W32 → W32 → W32) (n : Nat) (xs : List W32) (h : xs.length = 2 * n) :
    (pairUp op xs).length = n := by
  induction n generalizing xs with
  | zero => have : xs = [] := List.length_eq_zero_iff.1 (by omega); subst this; rfl
  | succ n ih =>
    match xs, h with
    | a :: b :: rest, h =>
      simp only [List.length_cons] at h
      simp only [pairUp, List.length_cons, ih rest (by omega)]

theorem pairUp_getD (op : W32 → W32 → W32) (n : Nat) (xs : List W32) (h : xs.length = 2 * n) (i : Nat) (hi : i < n) :
    (pairUp op xs).getD i 0 = op (xs.getD (2 * i) 0) (xs.getD (2 * i + 1) 0) := by
  induction n generalizing xs i with
  | zero => omega
  | succ n ih =>
    match xs, h with
    | a :: b :: rest, h =>
      simp only [List.length_cons] at h
      cases i with
      | zero => rfl
      | succ i =>
        have e : 2 * (i + 1) = 2 * i + 1 + 1 := by omega
        simp only [pairUp, List.getD_cons_succ, e]
        exact ih rest (by omega) i (by omega)

/-- A level of the tree, as the list fold has it. -/
theorem treeNode_fold (op : W32 → W32 → W32) (leaf : Nat → W32) (k : Nat) : ∀ (n m : Nat) (xs : List W32),
    xs.length = 2 ^ n * m → (∀ i, i < 2 ^ n * m → xs.getD i 0 = treeNode op leaf k i) →
      ((List.range n).foldl (fun ws _ => pairUp op ws) xs).length = m
        ∧ ∀ i, i < m → ((List.range n).foldl (fun ws _ => pairUp op ws) xs).getD i 0 = treeNode op leaf (n + k) i := by
  intro n
  induction n with
  | zero => intro m xs hl hx; simp only [Nat.pow_zero, Nat.one_mul] at hl hx; simpa [hl] using hx
  | succ n ih =>
    intro m xs hl hx
    have e : 2 ^ (n + 1) * m = 2 ^ n * (2 * m) := by rw [Nat.pow_succ]; ring
    rw [e] at hl hx
    obtain ⟨h1, h2⟩ := ih (2 * m) xs hl hx
    rw [List.range_succ, List.foldl_append]
    simp only [List.foldl_cons, List.foldl_nil]
    refine ⟨pairUp_length op m _ h1, ?_⟩
    intro i hi
    rw [pairUp_getD op m _ h1 i hi, h2 _ (by omega), h2 _ (by omega)]
    rw [show n + 1 + k = (n + k) + 1 from by omega]
    rfl

/-- The nine levels over 512 leaves (R140). -/
theorem tree512_eq (op : W32 → W32 → W32) (xs : List W32) (h : xs.length = 512) :
    tree512 op xs = treeNode op (fun i => xs.getD i 0) 9 0 := by
  have := treeNode_fold op (fun i => xs.getD i 0) 0 9 1 xs (by simpa using h) (fun i _ => rfl)
  unfold tree512
  rw [← this.2 0 (by omega)]
  generalize (List.range 9).foldl (fun ws _ => pairUp op ws) xs = ys at *
  cases ys <;> simp

end Sys2Proof.Claims
end

