-- ==== Sys2Proof/Laws/Tiers.lean ====
section
/-!
SUPPORT. Laws/Tiers.lean: what evictions, migrations and errors of a page leave of the memory and its map.
-/

namespace Sys2Proof.Machine

theorem job_jobFaults (s1 : State) (j : Nat) (c : Code) (i : RecInfo) (x : JobSt) (h : s1.job j = some x) :
    (s1.jobFaults j c i).job j = some { x with fault := some (x.fault.getD c) } := by
  simp only [State.jobFaults, State.faultJob, State.job_modJob, if_true, State.job_report, h, Option.map_some]
  cases hfx : x.fault with
  | none => simp
  | some d => cases x; simp_all

/-- What changes only pages, frames, bad frames, the flash layer, waiters, queues and logs. -/
structure Soft (s s' : State) : Prop where
  bytes : s'.mem.bytes = s.mem.bytes
  objects : s'.mem.objects = s.mem.objects
  sched : s'.sched = s.sched

theorem Soft.refl (s : State) : Soft s s := ⟨rfl, rfl, rfl⟩
theorem Soft.trans {a b c : State} (h : Soft a b) (k : Soft b c) : Soft a c := ⟨k.bytes.trans h.bytes, k.objects.trans h.objects, k.sched.trans h.sched⟩

theorem page_modPage (s : State) (p q : Nat) (f : PageSt → PageSt) : (s.modPage p f).page q = if q = p then (s.page p).map f else s.page q := by
  unfold State.modPage
  split
  · next x h => rw [State.page_setPage]; split <;> simp [h]
  · next h => split
              · next e => subst e; simp [h]
              · rfl

theorem soft_modPage (s : State) (p : Nat) (f : PageSt → PageSt) : Soft s (s.modPage p f) := by
  unfold State.modPage
  split <;> exact ⟨rfl, rfl, rfl⟩
theorem modPage_mem (s : State) (p : Nat) (f : PageSt → PageSt) : (s.modPage p f).mem = { s.mem with pages := (s.modPage p f).mem.pages } := by
  unfold State.modPage
  split <;> rfl

theorem calStore_mem (s : State) (x) : (s.calStore x).mem = s.mem ∧ (s.calStore x).sched = s.sched := by
  unfold State.calStore; exact ⟨rfl, rfl⟩

theorem retireFrame_spec (s : State) (f : Nat) : (s.retireFrame f).mem = { s.mem with badFrames := (s.retireFrame f).mem.badFrames } ∧ (s.retireFrame f).sched = s.sched := by
  unfold State.retireFrame
  dsimp only
  split <;> simp [State.modMem, State.calStore, State.modSec]

theorem freeFrame_spec (s : State) (f : Nat) : (s.freeFrame f).mem = { s.mem with frames := s.mem.frames.set 0 f 0, badFrames := (s.freeFrame f).mem.badFrames } ∧ (s.freeFrame f).sched = s.sched := by
  unfold State.freeFrame
  dsimp only
  split
  · have := retireFrame_spec (s.modMem (fun m => { m with frames := m.frames.set 0 f 0 })) f
    exact ⟨this.1, this.2⟩
  · exact ⟨rfl, rfl⟩

theorem programWear_spec (s : State) : (s.programWear).mem = { s.mem with ftl := { s.mem.ftl with spares := s.programWear.mem.ftl.spares, readOnly := s.programWear.mem.ftl.readOnly } } ∧ s.programWear.sched = s.sched := by
  unfold State.programWear State.draw
  dsimp only
  split
  · split <;> simp [State.modFtl, State.modMem]
  · exact ⟨rfl, rfl⟩

theorem objectBase_some (s : State) (p : Nat) (x : PageSt) (h : s.page p = some x) : s.objectBase p = some x.object := by
  unfold State.objectBase; rw [h]; rfl

theorem settle_none (s : State) (b : Nat) (o : ObjectSt) (h : s.object b = some o) (hf : o.freeing = none) : s.settleFree b = s := by
  unfold State.settleFree; rw [h]; dsimp only; rw [hf]

theorem page_congr {s s' : State} (h : s'.mem.pages = s.mem.pages) (q : Nat) : s'.page q = s.page q := by unfold State.page; rw [h]
theorem object_congr {s s' : State} (h : s'.mem.objects = s.mem.objects) (q : Nat) : s'.object q = s.object q := by unfold State.object; rw [h]

theorem pageError_spec (s : State) (p : Nat) (c : Code) (i : RecInfo) : (s.pageError p c i).mem = s.mem := by
  unfold State.pageError; split <;> simp

end Sys2Proof.Machine
end

