-- ==== Sys2Proof/Laws/Posts.lean ====
section
/-!
SUPPORT. Laws/Posts.lean: what a post, an abort and a DIGEST leave, and when a channel rests.
-/

namespace Sys2Proof.Machine

theorem colStep_none (s : State) (c : Nat) (h : (s.chan c).run = none) : s.colStep c = none := by
  unfold State.colStep; rw [h]

theorem colDrain_stop (s : State) (c n : Nat) (h : s.colStep c = none) : s.colDrain c n = s := by
  cases n with
  | zero => rfl
  | succ n => unfold State.colDrain; rw [h]

theorem colDrain_step (s t : State) (c n : Nat) (h : s.colStep c = some t) : s.colDrain c (n + 1) = t.colDrain c n := by
  unfold State.colDrain; rw [h]; cases n <;> rfl

theorem colFuel_pos (s : State) (c : Nat) : ∃ n, s.colFuel c = n + 20 := by
  unfold State.colFuel
  exact ⟨_ , (by rw [show ∀ k, 200 + k = (180 + k) + 20 from fun k => by omega])⟩

theorem colRun_stop (s : State) (c : Nat) (h : s.colStep c = none) : s.colRun c = s := colDrain_stop _ _ _ h

theorem colNext_some (s : State) (c : Nat) (x : ColRun) (h : (s.chan c).run = some x) : s.colNext c = s := by
  unfold State.colNext
  dsimp only
  rw [h]

theorem colNext_idle (s : State) (c : Nat) (h : (s.chan c).queue = []) : s.colNext c = s := by
  unfold State.colNext
  dsimp only
  rw [h]
  split
  · rename_i h2; simp at h2
  · rfl

theorem colSettle_stop (s : State) (c : Nat) (h : s.colStep c = none) (hq : (s.chan c).queue = []) : s.colSettle c = s := by
  unfold State.colSettle
  rw [colRun_stop s c h, colNext_idle s c hq, colNext_idle s c hq]

/-- Filling memory with free values changes no channel. -/
theorem freeFill_rest (s : State) (a n : Nat) : s.freeFill a n = { s with mem := (s.freeFill a n).mem, freeCtr := (s.freeFill a n).freeCtr } := by
  unfold State.freeFill
  split
  · rfl
  · rw [State.writeMem_rest]

def MemOnly (s m : State) : Prop := m = { s with mem := m.mem, freeCtr := m.freeCtr }

theorem MemOnly.refl (s : State) : MemOnly s s := rfl

theorem MemOnly.trans {a b c : State} (h : MemOnly a b) (k : MemOnly b c) : MemOnly a c := by
  unfold MemOnly at *
  rw [h] at k; exact k

theorem memOnly_freeFill (s : State) (a n : Nat) : MemOnly s (s.freeFill a n) := freeFill_rest s a n

theorem memOnly_fold {α : Type} (f : State → α → State) (h : ∀ s a, MemOnly s (f s a)) : ∀ (xs : List α) (s : State), MemOnly s (xs.foldl f s)
  | [], s => MemOnly.refl s
  | a :: xs, s => (h s a).trans (memOnly_fold f h xs (f s a))

theorem memOnly_writeMem (s : State) (a : Nat) (bs : List Byte) : MemOnly s (s.writeMem a bs) := by
  unfold MemOnly; rw [State.writeMem_rest]

theorem memOnly_colUndefined (s : State) (x : ColRun) (u : Code) : MemOnly s (s.colUndefined x u) := by
  unfold State.colUndefined
  exact memOnly_fold _ (fun s q => memOnly_freeFill s _ _) _ _

/-- What changes the channel's row, jobs, and logs alone. -/
theorem setHeldBack_rest (s : State) (j : Nat) : ∃ y, s.setHeldBack j = { s with sched := y } ∧ ∀ k, (s.setHeldBack j).job k = if k = j then
    (s.job k).map (fun x => { x with heldBack := s.col.chans.any (fun q => match q.2.run with
    | some x => x.job == j && x.phase != .posted
    | none => false) }) else s.job k := by
  refine ⟨(s.setHeldBack j).sched, ?_, ?_⟩
  · unfold State.setHeldBack State.modJob
    dsimp only
    split <;> rfl
  · intro k
    unfold State.setHeldBack
    rw [State.job_modJob]
    split
    · rename_i h; rw [h] <;> rfl
    · rfl

theorem jobFaults_chan (s : State) (j : Nat) (c : Code) (i : RecInfo) (d : Nat) : (s.jobFaults j c i).chan d = s.chan d := by
  apply State.chan_congr
  unfold State.jobFaults State.faultJob State.modJob
  split <;> simp [State.setJob]

theorem jobFaults_tiles (s : State) (j : Nat) (c : Code) (i : RecInfo) : (s.jobFaults j c i).tiles = s.tiles := by
  unfold State.jobFaults State.faultJob State.modJob
  split <;> simp [State.setJob]

theorem colDrop_chan (s : State) (c : Nat) (x : ColRun) (d : Nat) : (s.colDrop c x).chan d = if d = c then { s.chan c with run := none, aborted := true, inbox := (s.chan c).inbox.filter (fun q => q.1 != x.desc.seq), hold := (s.chan c).hold.filter (fun q => q.1 != x.desc.seq) } else s.chan d := by
  unfold State.colDrop
  obtain ⟨y, e, _⟩ := setHeldBack_rest (s.modChan c (fun y => { y with run := none, aborted := true, inbox := y.inbox.filter (fun q => q.1 != x.desc.seq), hold := y.hold.filter (fun q => q.1 != x.desc.seq) })) x.job
  rw [State.chan_congr (s := s.modChan c (fun y => { y with run := none, aborted := true, inbox := y.inbox.filter (fun q => q.1 != x.desc.seq), hold := y.hold.filter (fun q => q.1 != x.desc.seq) })) (by rw [e])]
  exact State.chan_setChan _ _ _ _

/-- The end of a collective that an abort ends here. -/
structure Ended (s : State) (c : Nat) (x : ColRun) (code : Code) (m : State) : Prop where
  chan : m.chan c = { s.chan c with run := none, aborted := true, inbox := (s.chan c).inbox.filter (fun q => q.1 != x.desc.seq), hold := (s.chan c).hold.filter (fun q => q.1 != x.desc.seq) }
  others : ∀ d, d ≠ c → m.chan d = s.chan d
  tiles : m.tiles = s.tiles
  job : ∀ jb, s.job x.job = some jb → ∃ z, m.job x.job = some z ∧ z.fault = some (jb.fault.getD code)

theorem ended_drop (s s1 : State) (c : Nat) (x : ColRun) (u code : Code) (i : RecInfo) (hc : ∀ d, s1.chan d = s.chan d) (ht : s1.tiles = s.tiles) (hs : s1.sched = s.sched) :
    Ended s c x code (((s1.colUndefined x u).colDrop c x).jobFaults x.job code i) := by
  have hu := memOnly_colUndefined s1 x u
  have hch : ∀ d, (s1.colUndefined x u).chan d = s.chan d := fun d => by
    rw [State.chan_congr (s := s1) (by rw [hu])]; exact hc d
  obtain ⟨y, e, hj⟩ := setHeldBack_rest ((s1.colUndefined x u).modChan c (fun y => { y with run := none, aborted := true, inbox := y.inbox.filter (fun q => q.1 != x.desc.seq), hold := y.hold.filter (fun q => q.1 != x.desc.seq) })) x.job
  refine ⟨?_, ?_, ?_, ?_⟩
  · rw [jobFaults_chan, colDrop_chan, if_pos rfl, hch]
  · intro d hd
    rw [jobFaults_chan, colDrop_chan, if_neg hd, hch]
  · rw [jobFaults_tiles]
    show (State.setHeldBack _ _).tiles = _
    rw [e]
    show (s1.colUndefined x u).tiles = _
    rw [hu]; exact ht
  · intro jb hjb
    have h0 : (s1.colUndefined x u).job x.job = some jb := by
      have : (s1.colUndefined x u).sched = s.sched := by rw [hu]; exact hs
      unfold State.job; rw [this]; exact hjb
    exact ⟨_, job_jobFaults _ _ _ _ _ (((hj x.job).trans (if_pos rfl)).trans (congrArg (Option.map _) h0)), rfl⟩

theorem colFinal_ended (s : State) (c : Nat) (x : ColRun) (code : Code) : Ended s c x code (s.colFinal c x code) := by
  unfold State.colFinal
  dsimp only
  apply ended_drop <;> (try intro d) <;> split <;> rfl

theorem colAbort_alone (s : State) (c : Nat) (x : ColRun) (code : Code) (hr : (s.chan c).run = some x) (hp : x.phase ≠ .stopped)
    (hm : ∀ q ∈ x.members, q = s.me) : s.colAbort c code = s.colFinal c x code := by
  unfold State.colAbort
  rw [hr]
  dsimp only
  rw [if_neg hp, nextDecider_all _ _ hm]
  dsimp only
  have : x.members.filter (fun m => m != s.me) = [] := by
    rw [List.filter_eq_nil_iff]; intro q hq; simp [hm q hq]
  rw [this]
  rfl


theorem waits_start (j : Nat) (d : ColDesc) (ms : List Nat) (me : Nat) (b : Bool) (ph : ColPhase) (hph : ph ≠ .stopped) (hm : me ∈ ms)
    (hp : b = true ∨ postTrick ms me = none) (hc : d.op ≤ 2 → 0 < d.count) (ho : 1 ≤ d.op ∧ d.op ≤ 6) :
    Waits { ColRun.start j d ms with posted := b, phase := ph } me := by
  refine ⟨hph, hm, hp, rfl, rfl, Or.inl rfl, ?_, rfl, rfl, ?_, rfl, ?_⟩
  · intro k _ _
    refine ⟨rfl, unitOf ms k me, ?_, by simp [ColRun.start]⟩
    unfold unitsOf
    rw [List.mem_dedup]
    exact List.mem_map.2 ⟨me, List.mem_filter.2 ⟨hm, by simp⟩, rfl⟩
  · intro k _
    exact Or.inl rfl
  · intro h
    show 0 < ColRun.total _
    have h' : ¬(3 ≤ d.op ∧ d.op ≤ 6) := h
    have : d.op = 1 ∨ d.op = 2 := by omega
    unfold ColRun.total
    rcases this with e | e <;> simp only [ColRun.start, e] <;> exact hc (by omega)

/-- Facts of a descriptor that passes. -/
theorem descOk (s : State) (y : ChanCol) (j : Nat) (jb : JobSt) (d : ColDesc) (ms : List Nat) (h : s.colDescBad y j jb d ms = false) :
    s.me ∈ ms ∧ (d.op ≤ 2 → 0 < d.count) ∧ (1 ≤ d.op ∧ d.op ≤ 6) := by
  unfold State.colDescBad at h
  simp only [Bool.or_eq_false_iff, Bool.not_eq_false', decide_eq_true_eq, List.contains_iff_mem] at h
  obtain ⟨⟨⟨⟨⟨⟨⟨⟨⟨⟨⟨⟨⟨⟨⟨⟨_, _⟩, _⟩, _⟩, ho⟩, _⟩, _⟩, _⟩, _⟩, hc⟩, _⟩, _⟩, _⟩, _⟩, _⟩, _⟩, hm⟩ := h
  refine ⟨hm, ?_, ho⟩
  intro h2
  rw [if_neg (by omega)] at hc
  simp at hc
  omega

theorem colPost_go (s : State) (c : Chan) (op j a : Nat) (jb : JobSt) (hr : (s.chan c).run = none) (hq : (s.chan c).queue = [])
    (hb : s.boot.queue = []) (hj : s.job j = some jb) (hmay : jb.mayPost = true) (hc : (colDescOf (s.readMem a 128)).chan = c.val)
    (hop : (colDescOf (s.readMem a 128)).op = op) :
    s.colPost op j a = (s.colPostNow c j jb a).colSettle c := by
  unfold State.colPost
  rw [hj]
  dsimp only
  have hcc : (colDescOf (s.readMem a 128)).chan % 16 = c.val := by rw [hc]; exact Nat.mod_eq_of_lt c.isLt
  rw [if_neg (by rw [hmay, hop]; simp), hcc, if_neg]
  rw [hr, hq]
  unfold State.colDelayed
  rw [hb]
  simp

/-- A state in which one channel alone differs. -/
structure ChanTo (s : State) (c : Nat) (y : ChanCol) (m : State) : Prop where
  chan : m.chan c = y
  others : ∀ d, d ≠ c → m.chan d = s.chan d
  rest : m = { s with col := { s.col with chans := m.col.chans } }

theorem chanTo_setChan (s : State) (c : Nat) (y : ChanCol) : ChanTo s c y (s.setChan c y) :=
  ⟨State.chan_setChan_same _ _ _, fun d h => State.chan_setChan_other _ _ _ _ h, rfl⟩

theorem ChanTo.set {s m : State} {c : Nat} {y : ChanCol} (h : ChanTo s c y m) (z : ChanCol) : ChanTo s c z (m.setChan c z) :=
  ⟨State.chan_setChan_same _ _ _, fun d hd => (State.chan_setChan_other _ _ _ _ hd).trans (h.others d hd), by
    have := h.rest
    unfold State.setChan
    dsimp only
    rw [this]⟩

theorem ChanTo.me {s m : State} {c : Nat} {y : ChanCol} (h : ChanTo s c y m) : m.me = s.me := by rw [h.rest]; rfl

theorem ChanTo.mod {s m : State} {c : Nat} {y : ChanCol} (h : ChanTo s c y m) (f : ChanCol → ChanCol) : ChanTo s c (f y) (m.modChan c f) := by
  unfold State.modChan; rw [h.chan]; exact h.set _

theorem ChanTo.run {s m : State} {c : Nat} {y : ChanCol} (h : ChanTo s c y m) (x : ColRun) : ChanTo s c { y with run := some x } (m.setRun c x) :=
  h.mod (fun y => { y with run := some x })

theorem colPostNow_ok (s : State) (c j a : Nat) (jb : JobSt) (hy : (s.chan c).job = j) (ho : (colDescOf (s.readMem a 128)).op ≠ 6)
    (h1 : s.colDescBad (s.chan c) j jb (colDescOf (s.readMem a 128)) (s.colMembers (colDescOf (s.readMem a 128))) = false)
    (h2 : s.colPathBad (s.colMembers (colDescOf (s.readMem a 128))) = false) :
    ∃ m, s.colPostNow c j jb a = m.colRun c ∧ ChanTo s c { s.chan c with
      run := some (ColRun.start j (colDescOf (s.readMem a 128)) (s.colMembers (colDescOf (s.readMem a 128)))), aborted := false,
      posted := (colDescOf (s.readMem a 128)).seq } m := by
  refine ⟨_, ?_, (chanTo_setChan s c { s.chan c with
      run := some (ColRun.start j (colDescOf (s.readMem a 128)) (s.colMembers (colDescOf (s.readMem a 128)))), aborted := false }).mod
      (fun y => { y with posted := (colDescOf (s.readMem a 128)).seq })⟩
  unfold State.colPostNow
  dsimp only
  rw [if_pos hy, h1, if_neg (by simp), h2, if_neg (by simp), if_neg ho]

theorem colPostNow_bad (s : State) (c j a : Nat) (jb : JobSt) (bad : Code) (hy : (s.chan c).job = j)
    (h : bad = Codes.colDesc ∧ s.colDescBad (s.chan c) j jb (colDescOf (s.readMem a 128)) (s.colMembers (colDescOf (s.readMem a 128))) = true
      ∨ bad = Codes.colPath ∧ s.colDescBad (s.chan c) j jb (colDescOf (s.readMem a 128)) (s.colMembers (colDescOf (s.readMem a 128))) = false
        ∧ s.colPathBad (s.colMembers (colDescOf (s.readMem a 128))) = true) :
    ∃ m y, s.colPostNow c j jb a = (m.colAbort c bad).colRun c ∧ ChanTo s c y m ∧ y.queue = (s.chan c).queue ∧ y.run =
      some (ColRun.start j (colDescOf (s.readMem a 128)) (s.colMembers (colDescOf (s.readMem a 128)))) := by
  have k := chanTo_setChan s c { s.chan c with
      run := some (ColRun.start j (colDescOf (s.readMem a 128)) (s.colMembers (colDescOf (s.readMem a 128)))), aborted := false }
  rcases h with ⟨rfl, h1⟩ | ⟨rfl, h1, h2⟩
  · refine ⟨_, _, ?_, k, rfl, rfl⟩
    unfold State.colPostNow
    dsimp only
    rw [if_pos hy, if_pos h1]
  · refine ⟨_, _, ?_, k.mod (fun y => { y with posted := (colDescOf (s.readMem a 128)).seq }), rfl, rfl⟩
    unfold State.colPostNow
    dsimp only
    rw [if_pos hy, h1, if_neg (by simp), if_pos h2]

theorem Ended.stop {s : State} {c : Nat} {x : ColRun} {code : Code} {m : State} (h : Ended s c x code m) (hq : (s.chan c).queue = []) :
    m.colSettle c = m :=
  colSettle_stop m c (colStep_none m c (by rw [h.chan])) (by rw [h.chan]; exact hq)

theorem postTrick_some (ms : List Nat) (r k : Nat) (h : postTrick ms r = some k) : deciderOf ms k r ≠ r := by
  have := List.find?_some h
  simpa using this

theorem sends_chan {s m : State} (h : Sends s m) (d : Nat) : m.chan d = s.chan d := State.chan_congr (by rw [h.1.2.2.2.2.2.1]) d

/-- Nothing but the row of a channel differs, and what is sent. -/
def ChanSends (s : State) (c : Nat) (y : ChanCol) (t : State) : Prop := ∃ m, ChanTo s c y m ∧ Sends m t

theorem ChanSends.chan {s t : State} {c : Nat} {y : ChanCol} (h : ChanSends s c y t) : t.chan c = y := by
  obtain ⟨m, h1, h2⟩ := h; rw [sends_chan h2]; exact h1.chan

theorem ChanSends.others {s t : State} {c : Nat} {y : ChanCol} (h : ChanSends s c y t) (d : Nat) (hd : d ≠ c) : t.chan d = s.chan d := by
  obtain ⟨m, h1, h2⟩ := h; rw [sends_chan h2]; exact h1.others d hd

theorem ChanSends.tiles {s t : State} {c : Nat} {y : ChanCol} (h : ChanSends s c y t) : t.tiles = s.tiles := by
  obtain ⟨m, h1, h2⟩ := h; rw [h2.1.1, h1.rest]

theorem ChanSends.mem {s t : State} {c : Nat} {y : ChanCol} (h : ChanSends s c y t) : t.mem = s.mem := by
  obtain ⟨m, h1, h2⟩ := h; rw [h2.1.2.2.1, h1.rest]

theorem ChanSends.sched {s t : State} {c : Nat} {y : ChanCol} (h : ChanSends s c y t) : t.sched = s.sched := by
  obtain ⟨m, h1, h2⟩ := h; rw [h2.1.2.2.2.1, h1.rest]

theorem ChanSends.me {s t : State} {c : Nat} {y : ChanCol} (h : ChanSends s c y t) : t.me = s.me := by
  obtain ⟨m, h1, h2⟩ := h; rw [h2.me, h1.me]

theorem ChanTo.sends {s t : State} {c : Nat} {y : ChanCol} (h : ChanTo s c y t) : ChanSends s c y t := ⟨t, h, Sends.refl t⟩

/-- A started collective whose POST has a unit above it. -/
theorem start_posts (s m : State) (c j : Nat) (d : ColDesc) (ms : List Nat) (y : ChanCol) (k : ChanTo s c y m)
    (hy : y.run = some (ColRun.start j d ms)) (hin : ∀ q ∈ y.inbox, q.1 ≠ d.seq) (hq : y.queue = []) (hh : postTrick ms s.me = some 1)
    (g1 : s.me ∈ ms) (g2 : d.op ≤ 2 → 0 < d.count) (g3 : 1 ≤ d.op ∧ d.op ≤ 6) :
    ChanSends s c { y with run := some { ColRun.start j d ms with posted := true } } ((m.colRun c).colSettle c) := by
  obtain ⟨x1, hx1⟩ : ∃ x1 : ColRun, x1 = { ColRun.start j d ms with posted := true } := ⟨_, rfl⟩
  rw [← hx1]
  have k2 := k.run x1
  have hne : deciderOf ms 1 m.me ≠ (m.setRun c x1).me := by
    rw [k2.me, k.me]; exact postTrick_some _ _ _ hh
  obtain ⟨t, ht⟩ : ∃ t, t = (m.setRun c x1).colSend c x1 (deciderOf ms 1 m.me) (.post m.me d.header) := ⟨_, rfl⟩
  have hn : y.inbox.find? (fun q => q.1 == (ColRun.start j d ms).desc.seq) = none := by
    rw [List.find?_eq_none]; intro q hq2 e
    exact hin q hq2 (beq_iff_eq.1 e)
  have hp : (ColRun.start j d ms).phase ≠ .stopped := by rw [show (ColRun.start j d ms).phase = .posted from rfl]; decide
  have hsp : m.stepPost c (ColRun.start j d ms) = some t := by
    unfold State.stepPost
    rw [if_neg (by rw [show (ColRun.start j d ms).posted = false from rfl]; decide)]
    rw [show postTrick (ColRun.start j d ms).members m.me = some 1 from by rw [k.me]; exact hh]
    dsimp only
    rw [if_pos (by rfl), ht, hx1]
    rfl
  have st : m.colStep c = some t := by
    unfold State.colStep
    rw [k.chan, hy]
    dsimp only
    rw [hn]
    dsimp only
    rw [if_neg hp, hsp]
    rfl
  have hs : Sends (m.setRun c x1) t := by
    rw [ht]
    unfold State.colSend
    rw [if_neg hne]
    exact sends_sendTx _ _ _
  have hr : ChanSends s c { y with run := some x1 } t := ⟨_, k2, hs⟩
  have st2 : t.colStep c = none := by
    refine colStep_waits t c x1 (by rw [hr.chan]) ?_ (by rw [hr.chan, hx1]; exact hin)
    rw [hr.me, hx1]
    exact waits_start j d ms s.me true .posted (by decide) g1 (Or.inl rfl) g2 g3
  obtain ⟨n, hn⟩ := colFuel_pos m c
  have e2 : m.colRun c = t := by
    unfold State.colRun
    rw [hn, colDrain_step m t c _ st, colDrain_stop t c _ st2]
  rw [e2, colSettle_stop t c st2 (by rw [hr.chan]; exact hq)]
  exact hr

theorem start_head (s m : State) (c j : Nat) (d : ColDesc) (ms : List Nat) (y : ChanCol) (k : ChanTo s c y m)
    (hy : y.run = some (ColRun.start j d ms)) (hin : ∀ q ∈ y.inbox, q.1 ≠ d.seq) (hq : y.queue = []) (hh : ms.head? = some s.me)
    (g1 : s.me ∈ ms) (g2 : d.op ≤ 2 → 0 < d.count) (g3 : 1 ≤ d.op ∧ d.op ≤ 6) :
    ((m.colRun c).colSettle c) = m := by
  have st2 : m.colStep c = none := by
    refine colStep_waits m c (ColRun.start j d ms) (by rw [k.chan]; exact hy) ?_ (by rw [k.chan]; exact hin)
    rw [k.me]
    exact waits_start j d ms s.me false .posted (by decide) g1 (Or.inr (postTrick_head _ _ hh)) g2 g3
  rw [colRun_stop m c st2, colSettle_stop m c st2 (by rw [k.chan]; exact hq)]

theorem abort_start (s m : State) (c : Nat) (x : ColRun) (y : ChanCol) (k : ChanTo s c y m) (code : Code)
    (hy : y.run = some x) (hp : x.phase = .posted) (hq : y.queue = []) (hm : ∀ q ∈ x.members, q = s.me) :
    Ended m c x code (((m.colAbort c code).colRun c).colSettle c) := by
  rw [colAbort_alone m c x code (by rw [k.chan]; exact hy) (by rw [hp]; decide) (by rw [k.me]; exact hm)]
  have h := colFinal_ended m c x code
  have hs := h.stop (by rw [k.chan]; exact hq)
  have h0 : (m.colFinal c x code).colStep c = none := colStep_none _ c (by rw [h.chan])
  rw [colRun_stop _ c h0, hs]
  exact h

theorem abort_started (s m : State) (c j : Nat) (d : ColDesc) (ms : List Nat) (y : ChanCol) (k : ChanTo s c y m) (code : Code)
    (hy : y.run = some (ColRun.start j d ms)) (hq : y.queue = []) (hm : ∀ q ∈ ms, q = s.me) :
    Ended m c (ColRun.start j d ms) code (((m.colAbort c code).colRun c).colSettle c) :=
  abort_start s m c (ColRun.start j d ms) y k code hy rfl hq hm

theorem digest_alone (s m : State) (c j : Nat) (jb : JobSt) (d : ColDesc) (ms : List Nat) (y : ChanCol) (k : ChanTo s c y m)
    (hop : d.op = 6) (hj : s.job j = some jb) (htw : jb.desc.twin = false) (hms : ms = [s.me]) (hi : d.incl = 0) :
    let t := m.digestStart c (ColRun.start j d ms)
    (t.chan c) = { y with run := none, done := d.seq } ∧ (∀ e, e ≠ c → t.chan e = s.chan e) ∧ t.tiles = s.tiles ∧ t.mem = s.mem
      ∧ t.col.step = s.col.steps.get 0 j + 1 ∧ t.col.steps.get 0 j = s.col.steps.get 0 j + 1
      ∧ t.col.buckets = s.col.buckets.filter (fun b => b.job != j) ∧ t.col.digest = (s.closeDigest j).2.col.digest := by
  intro t
  obtain ⟨x, hx⟩ : ∃ x, x = ColRun.start j d ms := ⟨_, rfl⟩
  have hxj : x.job = j := by rw [hx]; rfl
  have hxd : x.desc = d := by rw [hx]; rfl
  have hmj : m.job j = some jb := by rw [k.rest]; exact hj
  have hcol : m.col.buckets = s.col.buckets ∧ m.col.steps = s.col.steps := by rw [k.rest]; exact ⟨rfl, rfl⟩
  have k1 : ∃ n : State, t = (n.setRun c x).colComplete c x ∧ n.chan c = y ∧ (∀ e, e ≠ c → n.chan e = s.chan e) ∧ n.tiles = s.tiles ∧ n.mem = s.mem
      ∧ n.col.step = s.col.steps.get 0 j + 1 ∧ n.col.steps = s.col.steps ∧ n.col.buckets = s.col.buckets.filter (fun b => b.job != j)
      ∧ n.col.digest = (s.closeDigest j).2.col.digest ∧ n.me = s.me := by
    refine ⟨(m.closeDigest j).2, ?_, ?_⟩
    · show m.digestStart c (ColRun.start j d ms) = _
      rw [← hx]
      unfold State.digestStart
      dsimp only
      rw [hxj]
      rw [show m.jobTwin j = false from by unfold State.jobTwin; rw [hmj]; exact htw]
      rfl
    · refine ⟨k.chan, k.others, ?_, ?_, ?_, ?_, ?_, ?_, k.me⟩
      · show m.tiles = _; rw [k.rest]
      · show m.mem = _; rw [k.rest]
      · show m.col.steps.get 0 j + 1 = _; rw [hcol.2]
      · show m.col.steps = _; rw [hcol.2]
      · show m.col.buckets.filter _ = _; rw [hcol.1]
      · unfold State.closeDigest; dsimp only; rw [hcol.1]
  obtain ⟨n, et, n1, n2, n3, n4, n5, n6, n7, n8, n9⟩ := k1
  have key : t = { n with col := t.col, sched := t.sched } ∧ t.chan c = { y with run := none, done := d.seq } ∧ (∀ e, e ≠ c → t.chan e = n.chan e)
      ∧ t.col.step = n.col.step ∧ t.col.steps = n.col.steps.set 0 j (n.col.steps.get 0 j + 1) ∧ t.col.buckets = n.col.buckets ∧ t.col.digest = n.col.digest := by
    rw [et]
    unfold State.colComplete
    dsimp only
    rw [hxd, hi, hop, if_pos rfl, if_pos (Or.inl rfl), if_pos rfl, if_pos rfl]
    have hg : ∀ u : State, u.me = s.me → groupPeers x.members u.me = [] := by
      intro u hu
      rw [hu, show x.members = [s.me] from by rw [hx]; exact hms]
      unfold groupPeers
      rw [tricksOf_alone]; rfl
    rw [hg]
    swap
    · exact n9
    rw [List.foldl_nil]
    generalize hz : State.modChan _ c _ = z
    obtain ⟨w, e1, _⟩ := setHeldBack_rest z x.job
    rw [e1]
    have hd0 : ∀ u : State, u.digestOutcome c x = u := by
      intro u
      unfold State.digestOutcome
      dsimp only
      rw [if_pos]
      rw [hx]; rfl
    rw [hd0, ← hz]
    refine ⟨rfl, ?_, ?_, rfl, ?_, rfl, rfl⟩
    · refine (State.chan_setChan_same _ _ _).trans ?_
      have : State.chan (n.setRun c x) c = { y with run := some x } := by rw [State.chan_setRun, n1]
      refine (congrArg (fun q : ChanCol => { q with run := none, done := d.seq }) (State.chan_congr (m := _) (s := n.setRun c x) rfl c)).trans ?_
      rw [this]
    · intro e he
      refine (State.chan_setChan_other _ _ _ _ he).trans ?_
      exact (State.chan_congr (s := n.setRun c x) rfl e).trans (State.chan_setRun_other _ _ _ _ he)
    · rw [hxj]; rfl
  obtain ⟨e1, e2, e3, e4, e5, e6, e7⟩ := key
  refine ⟨e2, fun e he => (e3 e he).trans (n2 e he), ?_, ?_, e4.trans n5, ?_, e6.trans n7, e7.trans n8⟩
  · rw [e1]; exact n3
  · rw [e1]; exact n4
  · rw [e5, n6]; exact SMap.get_set_same _ _ _ _

theorem sort_unique (bs l : List Bucket) (hp : bs.Perm l) (hs : bs.Pairwise (fun a b => a.chan * 2 ^ 64 + a.seq < b.chan * 2 ^ 64 + b.seq)) :
    l.mergeSort (fun a b => decide (a.chan * 2 ^ 64 + a.seq ≤ b.chan * 2 ^ 64 + b.seq)) = bs := by
  generalize (2 : Nat) ^ 64 = N at *
  have hm : (l.mergeSort (fun a b => decide (a.chan * N + a.seq ≤ b.chan * N + b.seq))).Pairwise (fun a b => a.chan * N + a.seq ≤ b.chan * N + b.seq) := by
    have := List.pairwise_mergeSort (le := fun a b : Bucket => decide (a.chan * N + a.seq ≤ b.chan * N + b.seq)) (by intro a b c; simp; omega) (by intro a b; simp; omega) l
    exact this.imp (fun h => by simpa using h)
  have hpm : (l.mergeSort (fun a b => decide (a.chan * N + a.seq ≤ b.chan * N + b.seq))).Perm bs := (List.mergeSort_perm _ _).trans hp.symm
  have hinj : ∀ a ∈ bs, ∀ b ∈ bs, a.chan * N + a.seq = b.chan * N + b.seq → a = b := by
    intro a ha b hb hab
    obtain ⟨i, hi, rfl⟩ := List.getElem_of_mem ha
    obtain ⟨k, hk, rfl⟩ := List.getElem_of_mem hb
    rcases Nat.lt_trichotomy i k with h | h | h
    · exact absurd hab (Nat.ne_of_lt (List.pairwise_iff_getElem.1 hs i k hi hk h))
    · subst h; rfl
    · exact absurd hab.symm (Nat.ne_of_lt (List.pairwise_iff_getElem.1 hs k i hk hi h))
  exact List.Perm.eq_of_pairwise (fun a b ha hb h1 h2 => hinj a (hpm.subset ha) b hb (Nat.le_antisymm h1 h2)) hm (hs.imp Nat.le_of_lt) hpm

end Sys2Proof.Machine
end

