-- ==== Sys2Proof/Laws/Package.lean ====
section
/-!
SUPPORT. Laws/Package.lean: what a contribution, a package trick on one module and a completion leave.
-/

namespace Sys2Proof.Machine

theorem SMap.mem_set {α : Type} [DecidableEq α] (d : α) (m : SMap α) (k : Nat) (v : α) (q : Nat × α) (h : q ∈ m.set d k v) :
    q = (k, v) ∨ q ∈ m ∧ q.1 ≠ k := by
  unfold SMap.set SMap.splice at h
  rw [List.mem_append, List.mem_append] at h
  rcases h with (h | h) | h
  · right
    obtain ⟨h1, h2⟩ := List.mem_filter.1 h
    simp at h2
    exact ⟨h1, by omega⟩
  · left
    split at h
    · simp at h
    · simpa using h
  · right
    obtain ⟨h1, h2⟩ := List.mem_filter.1 h
    simp at h2
    exact ⟨h1, by omega⟩

theorem SMap.mem_set_self {α : Type} [DecidableEq α] (d : α) (m : SMap α) (k : Nat) (v : α) (h : v ≠ d) : (k, v) ∈ m.set d k v := by
  unfold SMap.set SMap.splice
  rw [if_neg h]
  simp

theorem setHeldBack_job (s : State) (j : Nat) : ∃ b : Bool, (∀ jb, s.job j = some jb → (s.setHeldBack j).job j = some { jb with heldBack := b })
    ∧ (b = true ↔ ∃ q ∈ s.col.chans, ∃ x, q.2.run = some x ∧ x.job = j ∧ x.phase ≠ .posted) := by
  unfold State.setHeldBack
  dsimp only
  generalize hb : (s.col.chans.any fun q => _) = b
  refine ⟨b, fun jb h => ?_, ?_⟩
  · rw [State.job_modJob, if_pos rfl, h]
    rfl
  · rw [← hb]
    rw [List.any_eq_true]
    constructor
    · rintro ⟨q, hq, h⟩
      refine ⟨q, hq, ?_⟩
      cases hr : q.2.run with
      | none => rw [hr] at h; simp at h
      | some x => rw [hr] at h; exact ⟨x, rfl, by simpa using h⟩
    · rintro ⟨q, hq, x, hr, h1, h2⟩
      refine ⟨q, hq, ?_⟩
      rw [hr]
      simp [h1, h2]

/-- Starting to run holds back the job's records. -/
theorem ready_spec (s : State) (c : Nat) (x : ColRun) (hp : x.phase = .running) :
    ((s.setRun c x).setHeldBack x.job).chan c = { s.chan c with run := some x }
      ∧ (∀ d, d ≠ c → ((s.setRun c x).setHeldBack x.job).chan d = s.chan d)
      ∧ ((s.setRun c x).setHeldBack x.job).tiles = s.tiles ∧ ((s.setRun c x).setHeldBack x.job).mem = s.mem
      ∧ ((s.setRun c x).setHeldBack x.job).me = s.me
      ∧ ∀ jb, s.job x.job = some jb → ((s.setRun c x).setHeldBack x.job).job x.job = some { jb with heldBack := true } := by
  obtain ⟨y, e, _⟩ := setHeldBack_rest (s.setRun c x) x.job
  refine ⟨?_, ?_, by rw [e]; rfl, by rw [e]; rfl, by rw [e]; rfl, ?_⟩
  · rw [State.chan_congr (s := s.setRun c x) (by rw [e])]; exact State.chan_setRun _ _ _
  · intro d hd
    rw [State.chan_congr (s := s.setRun c x) (by rw [e])]; exact State.chan_setRun_other _ _ _ _ hd
  · intro jb hjb
    obtain ⟨b, hb, hi⟩ := setHeldBack_job (s.setRun c x) x.job
    rw [hb jb hjb]
    have : b = true := hi.2 ⟨(c, { s.chan c with run := some x }), SMap.mem_set_self _ _ _ _ (by intro h; exact absurd (congrArg ChanCol.run h) (by simp [ChanCol.init])),
      x, rfl, rfl, by rw [hp]; decide⟩
    rw [this]

/-- Filling with free values leaves the bytes apart. -/
theorem freeFill_apart (s : State) (a n b k : Nat) (h : b + k ≤ a ∨ a + n ≤ b) : (s.freeFill a n).readMem b k = s.readMem b k := by
  unfold State.freeFill
  split
  · rfl
  · exact State.readMem_writeMem_other _ _ _ _ _ (by rw [List.length_map, List.length_range]; exact h)

theorem sends_potCount (s : State) (f : Nat → Nat) : Sends s (s.potCount f) := by
  unfold State.potCount
  exact sends_fold _ (fun s l => sends_setLink s l _) _ _

theorem readMem_slice (s : State) (a : Nat) (bs : List Byte) (i n : Nat) (h : i + n ≤ bs.length) :
    (s.writeMem a bs).readMem (a + i) n = (bs.drop i).take n := by
  unfold State.readMem
  apply List.ext_getElem
  · rw [SMap.getRange_length, List.length_take, List.length_drop]; omega
  · intro k h1 h2
    rw [SMap.getRange_length] at h1
    rw [← List.getD_eq_getElem _ 0, SMap.getRange_getD _ _ _ _ _ h1, State.byte_writeMem, if_pos (by omega)]
    rw [List.getElem_take, List.getElem_drop, show a + i + k - a = i + k from by omega]
    exact List.getD_eq_getElem _ _ (by omega)

theorem colSettle_of (s t : State) (c : Nat) (e : s.colRun c = t) (hq : (t.chan c).queue = []) : s.colSettle c = t := by
  unfold State.colSettle
  rw [e, colNext_idle t c hq, colNext_idle t c hq]

theorem complete_alone (s : State) (c : Nat) (x : ColRun) (hm : x.members = [s.me]) (hop : x.desc.op ≠ 6) :
    (s.colComplete c x).chan c = { s.chan c with run := none, done := x.desc.seq }
      ∧ (∀ d, d ≠ c → (s.colComplete c x).chan d = s.chan d) ∧ (s.colComplete c x).tiles = s.tiles
      ∧ (s.colComplete c x).mem = (if x.desc.incl = 0 then s else s.writeMem x.desc.incl (inclRecord c x.desc.seq 1 [s.me])).mem
      ∧ ∀ jb, s.job x.job = some jb → (∀ q ∈ s.col.chans, q.1 ≠ c → q.2.run = none) →
          (s.colComplete c x).job x.job = some { jb with heldBack := false } := by
  obtain ⟨s1, h1⟩ : ∃ s1, s1 = (if x.desc.incl = 0 then s else s.writeMem x.desc.incl (inclRecord c x.desc.seq 1 [s.me])) := ⟨_, rfl⟩
  have hs1 : MemOnly s s1 := by
    rw [h1]; split
    · exact MemOnly.refl s
    · exact memOnly_writeMem s _ _
  obtain ⟨bk, h2⟩ : ∃ bk, s.colComplete c x = (({ s1 with col := { s1.col with buckets := bk } } : State).modChan c (fun y => { y with run := none, done := x.desc.seq })).setHeldBack x.job := by
    unfold State.colComplete
    have hi : x.included s.me = (1, [s.me]) := by
      unfold ColRun.included; rw [hm, tricksOf_alone]; rfl
    have hg : ∀ u : State, u.me = s.me → groupPeers x.members u.me = [] := by
      intro u hu
      rw [hu, hm]
      unfold groupPeers
      rw [tricksOf_alone]; rfl
    dsimp only
    rw [if_neg hop, if_neg hop, hi]
    dsimp only
    rw [← h1]
    have hme : s1.me = s.me := by rw [hs1]; rfl
    split
    · refine ⟨s1.col.buckets, ?_⟩
      rw [hg _ hme]; rfl
    · generalize sha3 _ = hh
      refine ⟨s1.col.buckets ++ [⟨x.job, c, x.desc.seq, hh⟩], ?_⟩
      rw [hg]
      · rfl
      · exact hme
  rw [h2]
  obtain ⟨u, hu⟩ : ∃ u, u = (({ s1 with col := { s1.col with buckets := bk } } : State).modChan c (fun y => { y with run := none, done := x.desc.seq })) := ⟨_, rfl⟩
  rw [← hu]
  obtain ⟨y, e, _⟩ := setHeldBack_rest u x.job
  have hch : ∀ d, ({ s1 with col := { s1.col with buckets := bk } } : State).chan d = s.chan d := fun d => by
    refine State.chan_congr ?_ d
    show s1.col.chans = _
    rw [hs1]
  refine ⟨?_, ?_, ?_, ?_, ?_⟩
  · rw [State.chan_congr (s := u) (by rw [e]), hu]
    refine (State.chan_setChan_same _ _ _).trans ?_
    rw [hch]
  · intro d hd
    rw [State.chan_congr (s := u) (by rw [e]), hu]
    exact (State.chan_setChan_other _ _ _ _ hd).trans (hch d)
  · rw [e, hu]
    show s1.tiles = _
    rw [hs1]
  · rw [e, hu, ← h1]; rfl
  · intro jb hjb hothers
    obtain ⟨b, hb, hi⟩ := setHeldBack_job u x.job
    have hj : u.job x.job = some jb := by
      rw [hu]; show s1.job x.job = _; rw [hs1]; exact hjb
    rw [hb jb hj]
    have : b = false := by
      cases b with
      | false => rfl
      | true =>
        obtain ⟨q, hq, z, hz, _⟩ := hi.1 rfl
        rw [hu] at hq
        rcases SMap.mem_set _ _ _ _ _ hq with e | ⟨e1, e2⟩
        · rw [e] at hz; simp at hz
        · rw [hothers q (by rw [hs1] at e1; exact e1) e2] at hz; simp at hz
    rw [this]

/-- The end of a package trick on one module, step by step. -/
theorem package_steps (s : State) (c : Nat) (x : ColRun) (hm : x.members = [s.me]) (hr : (s.chan c).run = some x) (hp : x.phase = .running)
    (hpk : x.packaged = true) (hl : x.level = 0) (hop : x.desc.op = 1) (hpl : x.placed = 0) (hg : x.gos = [])
    (hi : ∀ q ∈ (s.chan c).inbox, q.1 ≠ x.desc.seq) :
    s.colStep c = some (s.finalRoot c { x with level := 1 } (0, x.total)) := by
  have hn : (s.chan c).inbox.find? (fun q => q.1 == x.desc.seq) = none := by
    rw [List.find?_eq_none]; intro q hq; simpa using hi q hq
  have ht : tricksOf x.members s.me = [] := by rw [hm, tricksOf_alone]
  have e1 : s.stepPost c x = none := by
    unfold State.stepPost
    rw [hm, postTrick_head [s.me] s.me rfl]; split <;> rfl
  have e2 : s.stepFlag c x = none := by unfold State.stepFlag; rw [hop]; simp
  have e3 : s.stepReady c x = none := by unfold State.stepReady; rw [ht]; rfl
  have e4 : s.stepDecide c x = none := by unfold State.stepDecide; rw [ht]; rfl
  have e5 : s.stepUp c x = none := by unfold State.stepUp; rw [ht]; rfl
  have e6 : s.stepRoot c x = none := by unfold State.stepRoot; rw [ht]; rfl
  unfold State.colStep
  rw [hr]
  dsimp only
  rw [hn]
  dsimp only
  rw [if_neg (by rw [hp]; decide), e1, e2, e3, e4, e5, e6]
  unfold State.stepAlone
  rw [ht, hpk, hl]
  rfl

theorem package_steps2 (s : State) (c : Nat) (x : ColRun) (hm : x.members = [s.me]) (hr : (s.chan c).run = some x) (hp : x.phase = .running)
    (hpk : x.packaged = true) (hl : x.level = 1) (hop : x.desc.op = 1) (hpl : x.total ≤ x.placed) (hg : x.gos = [])
    (hi : ∀ q ∈ (s.chan c).inbox, q.1 ≠ x.desc.seq) :
    s.colStep c = some (s.colComplete c x) := by
  have hn : (s.chan c).inbox.find? (fun q => q.1 == x.desc.seq) = none := by
    rw [List.find?_eq_none]; intro q hq; simpa using hi q hq
  have ht : tricksOf x.members s.me = [] := by rw [hm, tricksOf_alone]
  have e1 : s.stepPost c x = none := by
    unfold State.stepPost
    rw [hm, postTrick_head [s.me] s.me rfl]; split <;> rfl
  have e2 : s.stepFlag c x = none := by unfold State.stepFlag; rw [hop]; simp
  have e3 : s.stepReady c x = none := by unfold State.stepReady; rw [ht]; rfl
  have e4 : s.stepDecide c x = none := by unfold State.stepDecide; rw [ht]; rfl
  have e5 : s.stepUp c x = none := by unfold State.stepUp; rw [ht]; rfl
  have e6 : s.stepRoot c x = none := by unfold State.stepRoot; rw [ht]; rfl
  have e7 : s.stepAlone c x = none := by unfold State.stepAlone; rw [hl]; simp
  have e8 : s.stepShuffle c x = none := by unfold State.stepShuffle; rw [hop]; simp
  have e9 : s.stepDown c x = none := by unfold State.stepDown; rw [ht]; split <;> rfl
  have hlo : x.leftOut s.me = false := by unfold ColRun.leftOut; rw [hg]; rfl
  have e10 : s.stepExcluded c x = none := by unfold State.stepExcluded; rw [hlo]; rfl
  unfold State.colStep
  rw [hr]
  dsimp only
  rw [hn]
  dsimp only
  rw [if_neg (by rw [hp]; decide), e1, e2, e3, e4, e5, e6, e7, e8, e9, e10]
  unfold State.stepComplete
  rw [hop, hlo]
  simp [hpl]

theorem inclRecord_length (c seq n : Nat) (rs : List Nat) : (inclRecord c seq n rs).length = 2080 := by
  unfold inclRecord
  simp

theorem inclRecord_count (c seq n : Nat) (rs : List Nat) : leNat (((inclRecord c seq n rs).drop 4).take 4) = n % 256 ^ 4 := by
  have : ((inclRecord c seq n rs).drop 4).take 4 = natLe 4 n := by
    unfold inclRecord
    simp only [List.append_assoc]
    rw [← List.append_assoc (natLe 2 8322)]
    rw [List.drop_append_of_le_length (by simp), List.drop_of_length_le (by simp), List.nil_append, List.take_append_of_le_length (by simp), List.take_of_length_le (by simp)]
  rw [this, leNat_natLe]

theorem inclRecord_seq (c seq n : Nat) (rs : List Nat) : leNat (((inclRecord c seq n rs).drop 8).take 8) = seq % 256 ^ 8 := by
  have : ((inclRecord c seq n rs).drop 8).take 8 = natLe 8 seq := by
    unfold inclRecord
    simp only [List.append_assoc]
    rw [← List.append_assoc (natLe 2 8322), ← List.append_assoc _ (natLe 4 n)]
    rw [List.drop_append_of_le_length (by simp), List.drop_of_length_le (by simp), List.nil_append, List.take_append_of_le_length (by simp), List.take_of_length_le (by simp)]
  rw [this, leNat_natLe]

/-- The package trick of an ALL_REDUCE on one module, to its end. -/
theorem package_alone (s : State) (c : Nat) (x : ColRun) (hm : x.members = [s.me]) (hr : (s.chan c).run = some x) (hp : x.phase = .running)
    (hf : x = { ColRun.start x.job x.desc x.members with posted := x.posted, phase := x.phase })
    (hop : x.desc.op = 1) (hq : (s.chan c).queue = [])
    (hi : ∀ q ∈ (s.chan c).inbox, q.1 ≠ x.desc.seq) (data : List Nat)
    (hd : data = (List.range x.desc.count).map (fun e => x.final 1 (colSum x.desc.inFmt ((List.range x.desc.parts).map (fun i =>
      colIn x.desc.inFmt (elemAt s x.desc.inFmt (x.desc.src + i * x.desc.stride) e)))))) :
    ∃ (B : State) (z w : ColRun), (s.packageSums c x).colSettle c = ((B.setRun c w).writeMem x.desc.dst (data.flatMap (natLe x.outBytes))).colComplete c z
      ∧ z.members = x.members ∧ z.desc = x.desc ∧ z.job = x.job
      ∧ (∃ y, B.chan c = y ∧ y = { s.chan c with run := y.run }) ∧ (∀ d, d ≠ c → B.chan d = s.chan d) ∧ B.tiles = s.tiles ∧ B.sched = s.sched ∧ B.me = s.me
      ∧ (∀ q ∈ B.col.chans, q.1 ≠ c → q ∈ s.col.chans)
      ∧ ∀ a n, a + n ≤ x.desc.scratch ∨ x.desc.scratch + 8 * x.desc.count ≤ a → B.readMem a n = s.readMem a n := by
  have hpk : x.level = 0 ∧ x.placed = 0 ∧ x.gos = [] := by rw [hf]; exact ⟨rfl, rfl, rfl⟩
  obtain ⟨vals, hv⟩ : ∃ vals : List W32, vals = (List.range x.desc.count).map (fun e => colSum x.desc.inFmt ((List.range x.desc.parts).map (fun i =>
      colIn x.desc.inFmt (elemAt s x.desc.inFmt (x.desc.src + i * x.desc.stride) e)))) := ⟨_, rfl⟩
  obtain ⟨xA, hxA⟩ : ∃ xA : ColRun, xA = { x with packaged := true, vals := SMap.setRange 0 [] 0 vals } := ⟨_, rfl⟩
  obtain ⟨A, hA⟩ : ∃ A, A = (s.setRun c xA).freeFill x.desc.scratch (8 * x.desc.count) := ⟨_, rfl⟩
  obtain ⟨B, hB⟩ : ∃ B, B = A.potCount (fun l => sliceLen x.desc.count l * x.desc.parts * colBytes x.desc.inFmt) := ⟨_, rfl⟩
  have hsum : s.packageSums c x = B := by
    simp only [State.packageSums, hop]
    rw [hB, hA, hxA, hv]
  have hAm : MemOnly (s.setRun c xA) A := by rw [hA]; exact memOnly_freeFill _ _ _
  have hBs : Sends A B := by rw [hB]; exact sends_potCount _ _
  have hcol : B.col = (s.setRun c xA).col := by rw [hBs.1.2.2.2.2.2.1, hAm]
  have hBme : B.me = s.me := by rw [hBs.me, hAm]; rfl
  have hBc : B.chan c = { s.chan c with run := some xA } := (State.chan_congr (by rw [hcol]) c).trans (State.chan_setRun _ _ _)
  have st1 := package_steps B c xA (by rw [hxA, hBme]; exact hm) (by rw [hBc]) (by rw [hxA]; exact hp) (by rw [hxA]) (by rw [hxA]; exact hpk.1) (by rw [hxA]; exact hop)
    (by rw [hxA]; exact hpk.2.1) (by rw [hxA]; exact hpk.2.2) (by rw [hBc, hxA]; exact hi)
  have hlen : vals.length = x.desc.count := by rw [hv]; simp
  obtain ⟨w, hw⟩ : ∃ w : ColRun, w = { xA with level := 1, placed := 0 + data.length } := ⟨_, rfl⟩
  have hdl : data.length = x.desc.count := by rw [hd]; simp
  have htot : xA.total = x.desc.count := by
    simp only [ColRun.total, hxA, hop]
  have st1' : B.finalRoot c { xA with level := 1 } (0, xA.total) = (B.setRun c w).writeMem x.desc.dst (data.flatMap (natLe x.outBytes)) := by
    unfold State.finalRoot
    dsimp only
    rw [if_pos (Or.inl (by rw [hxA]; exact hop)), htot]
    have e1 : ColRun.included { xA with level := 1 } B.me = (1, [s.me]) := by
      unfold ColRun.included
      dsimp only
      rw [hxA]
      dsimp only
      rw [hBme, hm, tricksOf_alone]; rfl
    rw [e1]
    have e2 : xA.vals.getRange 0 0 (x.desc.count - 0) = vals := by
      rw [hxA]
      dsimp only
      rw [Nat.sub_zero, ← hlen]
      exact SMap.getRange_setRange _ _ _ _
    rw [e2]
    have e3 : vals.map (ColRun.final { xA with level := 1 } (1, [s.me]).1) = data := by
      rw [hv, hd, List.map_map]
      apply List.map_congr_left
      intro e _
      show ColRun.final _ 1 _ = ColRun.final _ 1 _
      unfold ColRun.final
      rw [hxA]
    rw [e3]
    unfold State.colStore
    dsimp only
    rw [if_neg (by rw [hxA]; show x.desc.op ≠ 6; rw [hop]; decide), hw]
    have e4 : xA.placed = 0 := by rw [hxA]; exact hpk.2.1
    have e5 : xA.desc = x.desc := by rw [hxA]
    have e6 : ColRun.outBytes { xA with level := 1 } = x.outBytes := by unfold ColRun.outBytes; rw [hxA]
    rw [e6, e4, e5, Nat.zero_mul]
    rfl
  obtain ⟨C, hC⟩ : ∃ C, C = (B.setRun c w).writeMem x.desc.dst (data.flatMap (natLe x.outBytes)) := ⟨_, rfl⟩
  rw [st1', ← hC] at st1
  have hCm : MemOnly (B.setRun c w) C := by rw [hC]; exact memOnly_writeMem _ _ _
  have hCme : C.me = s.me := by rw [hCm]; exact hBme
  have hCc : C.chan c = { s.chan c with run := some w } := by
    rw [State.chan_congr (s := B.setRun c w) (by rw [hCm]), State.chan_setRun, hBc]
  have hwd : w.desc = x.desc := by rw [hw, hxA]
  have st2 := package_steps2 C c w (by rw [hw, hxA, hCme]; exact hm) (by rw [hCc]) (by rw [hw, hxA]; exact hp) (by rw [hw, hxA]) (by rw [hw]) (by rw [hwd]; exact hop)
    (by
      have : w.total = x.desc.count := by rw [← htot]; unfold ColRun.total; rw [hw]
      rw [this, hw, ← hdl]; simp) (by rw [hw, hxA]; exact hpk.2.2) (by rw [hCc, hwd]; exact hi)
  have hfin := complete_alone C c w (by rw [hw, hxA, hCme]; exact hm) (by rw [hwd, hop]; decide)
  obtain ⟨n, hn⟩ := colFuel_pos B c
  have hrun : B.colRun c = C.colComplete c w := by
    unfold State.colRun
    rw [hn, colDrain_step B C c _ st1, colDrain_step C _ c _ st2]
    exact colDrain_stop _ _ _ (colStep_none _ _ (by rw [hfin.1]))
  refine ⟨B, w, w, ?_, by rw [hw, hxA], hwd, by rw [hw, hxA], ⟨_, rfl, by rw [hBc]⟩, ?_, ?_, ?_, hBme, ?_, ?_⟩
  · rw [hsum, colSettle_of B _ c hrun (by rw [hfin.1, hCc]; exact hq), hC]
  · intro d hd'
    exact (State.chan_congr (by rw [hcol]) d).trans (State.chan_setRun_other _ _ _ _ hd')
  · rw [hBs.1.1, hAm]; rfl
  · rw [hBs.1.2.2.2.1, hAm]; rfl
  · intro q hq1 hq2
    rw [hcol] at hq1
    rcases SMap.mem_set _ _ _ _ _ hq1 with e | e
    · exact absurd (congrArg Prod.fst e) hq2
    · exact e.1
  · intro a n han
    have : B.mem = A.mem := hBs.1.2.2.1
    have e1 : B.readMem a n = A.readMem a n := by unfold State.readMem; rw [this]
    rw [e1, hA, freeFill_apart _ _ _ _ _ han]
    rfl

theorem flatMap_natLe_length (n : Nat) : ∀ l : List Nat, (l.flatMap (natLe n)).length = l.length * n
  | [] => by simp
  | a :: l => by rw [List.flatMap_cons, List.length_append, flatMap_natLe_length n l, natLe_length, List.length_cons]; ring

theorem colSum_range (fmt n : Nat) (f : Nat → W32) (h : 0 < n) :
    colSum fmt ((List.range n).map f) = ((List.range (n - 1)).map (fun i => f (i + 1))).foldl (colAdd fmt) (f 0) := by
  obtain ⟨k, rfl⟩ : ∃ k, n = k + 1 := ⟨n - 1, by omega⟩
  rw [List.range_succ_eq_map, List.map_cons, List.map_map]
  rfl

end Sys2Proof.Machine
end

