-- ==== Sys2Proof/Laws/Aborts.lean ====
section
/-!
SUPPORT. Laws/Aborts.lean: how a message is taken, how an abort ends or stops a collective, and the steps of a DIGEST.
-/

namespace Sys2Proof.Machine

theorem find_end {α : Type} (p : α → Bool) : ∀ (l : List α) (a : α), (∀ q ∈ l, p q = false) → p a = true →
    (l ++ [a]).find? p = some a ∧ (l ++ [a]).eraseIdx ((l ++ [a]).findIdx p) = l
  | [], a, _, h => by simp [h]
  | b :: l, a, hl, h => by
    have hb := hl b (by simp)
    obtain ⟨h1, h2⟩ := find_end p l a (fun q hq => hl q (List.mem_cons_of_mem _ hq)) h
    refine ⟨?_, ?_⟩
    · simp [List.find?_cons, hb, h1]
    · rw [List.cons_append, List.findIdx_cons, hb]
      simp only [cond_false, List.eraseIdx_cons_succ, h2]

/-- A message of the running collective is taken at once. -/
theorem colMsg_takes (s : State) (c : Nat) (x : ColRun) (m : ColMsg) (hr : (s.chan c).run = some x)
    (hi : ∀ q ∈ (s.chan c).inbox, q.1 ≠ x.desc.seq) :
    ∃ s', ChanTo s c (s.chan c) s' ∧ ((s'.takeMsg c x m).colStep c = none → ((s'.takeMsg c x m).chan c).queue = [] →
      s.colMsg c x.desc.seq m = s'.takeMsg c x m) := by
  obtain ⟨t, ht⟩ : ∃ t, t = s.setChan c { s.chan c with inbox := (s.chan c).inbox ++ [(x.desc.seq, m)] } := ⟨_, rfl⟩
  have kt : ChanTo s c { s.chan c with inbox := (s.chan c).inbox ++ [(x.desc.seq, m)] } t := by rw [ht]; exact chanTo_setChan _ _ _
  have hin : s.toInbox c x.desc.seq m = t := by
    rw [ht]; exact toInbox_eq s c x.desc.seq m (Or.inl ⟨x, hr, rfl⟩)
  obtain ⟨f1, f2⟩ := find_end (fun q : Nat × ColMsg => q.1 == x.desc.seq) (s.chan c).inbox (x.desc.seq, m)
    (fun q hq => by simpa using hi q hq) (by simp)
  refine ⟨t.modChan c (fun y => { y with inbox := y.inbox.eraseIdx (y.inbox.findIdx (fun q => q.1 == x.desc.seq)) }), ?_, ?_⟩
  · have := kt.mod (fun y => { y with inbox := y.inbox.eraseIdx (y.inbox.findIdx (fun q => q.1 == x.desc.seq)) })
    simp only [f2] at this
    exact this
  · intro h1 h2
    have st : t.colStep c = some ((t.modChan c (fun y => { y with inbox := y.inbox.eraseIdx (y.inbox.findIdx (fun q => q.1 == x.desc.seq)) })).takeMsg c x m) := by
      unfold State.colStep
      rw [kt.chan]
      dsimp only
      rw [hr]
      dsimp only
      rw [f1]
    unfold State.colMsg
    rw [hin]
    obtain ⟨n, hn⟩ := colFuel_pos t c
    refine colSettle_of t _ c ?_ h2
    unfold State.colRun
    rw [hn, colDrain_step t _ c _ st]
    exact colDrain_stop _ _ _ h1

theorem colStep_stopped (s : State) (c : Nat) (x : ColRun) (hr : (s.chan c).run = some x) (hp : x.phase = .stopped)
    (hi : ∀ q ∈ (s.chan c).inbox, q.1 ≠ x.desc.seq) : s.colStep c = none := by
  unfold State.colStep
  rw [hr]
  dsimp only
  rw [show (s.chan c).inbox.find? (fun q => q.1 == x.desc.seq) = none from by
    rw [List.find?_eq_none]; intro q hq; simpa using hi q hq]
  dsimp only
  rw [if_pos hp]

/-- COL.ERROR after an end. -/
def ErrorHolds (s : State) (c : Nat) (x : ColRun) (code : Code) (m : State) : Prop :=
  if s.col.errValid then m.col.errCode = s.col.errCode ∧ m.col.errSeq = s.col.errSeq
  else m.col.errValid = true ∧ m.col.errCode = code ∧ m.col.errChan = c ∧ m.col.errSeq = x.desc.seq % 2 ^ 32

theorem jobFaults_col (s : State) (j : Nat) (c : Code) (i : RecInfo) : (s.jobFaults j c i).col = s.col := by
  unfold State.jobFaults State.faultJob State.modJob
  split <;> simp [State.setJob]

theorem colFinal_error (s : State) (c : Nat) (x : ColRun) (code : Code) : ErrorHolds s c x code (s.colFinal c x code) := by
  have key : ∀ s1 : State, ((((s1.colUndefined x code).colDrop c x).jobFaults x.job code (colInfo c x.desc.seq 0))).col.errCode = s1.col.errCode
      ∧ ((((s1.colUndefined x code).colDrop c x).jobFaults x.job code (colInfo c x.desc.seq 0))).col.errSeq = s1.col.errSeq
      ∧ ((((s1.colUndefined x code).colDrop c x).jobFaults x.job code (colInfo c x.desc.seq 0))).col.errChan = s1.col.errChan
      ∧ ((((s1.colUndefined x code).colDrop c x).jobFaults x.job code (colInfo c x.desc.seq 0))).col.errValid = s1.col.errValid := by
    intro s1
    rw [jobFaults_col]
    unfold State.colDrop
    obtain ⟨y, e, _⟩ := setHeldBack_rest ((s1.colUndefined x code).modChan c (fun y => { y with run := none, aborted := true, inbox := y.inbox.filter (fun q => q.1 != x.desc.seq), hold := y.hold.filter (fun q => q.1 != x.desc.seq) })) x.job
    rw [e]
    have hu := memOnly_colUndefined s1 x code
    show (s1.colUndefined x code).col.errCode = _ ∧ (s1.colUndefined x code).col.errSeq = _ ∧ (s1.colUndefined x code).col.errChan = _ ∧ (s1.colUndefined x code).col.errValid = _
    rw [hu]
    exact ⟨rfl, rfl, rfl, rfl⟩
  unfold ErrorHolds State.colFinal
  dsimp only
  by_cases hv : s.col.errValid = true
  · rw [if_pos hv, if_pos hv]
    exact ⟨(key s).1, (key s).2.1⟩
  · rw [if_neg hv, if_neg hv]
    obtain ⟨k1, k2, k3, k4⟩ := key { s with col := { s.col with errValid := true, errChan := c, errSeq := x.desc.seq % 2 ^ 32, errCode := code } }
    exact ⟨k4.trans rfl, k1.trans rfl, k3.trans rfl, k2.trans rfl⟩

/-- What differs from `s` is the channel's row, links and what is sent. -/
theorem sends_col {s m : State} (h : Sends s m) : m.col = s.col := h.1.2.2.2.2.2.1

theorem sends_toOthers (s : State) (c : Nat) (x : ColRun) (msg : ColMsg) (l : List Nat) (h : ∀ d ∈ l, d ≠ s.me) :
    Sends s (s.colSendAll c x l msg) := by
  unfold State.colSendAll
  induction l generalizing s with
  | nil => exact Sends.refl s
  | cons d l ih =>
    rw [List.foldl_cons]
    have h1 : Sends s (s.colSend c x d msg) := by
      unfold State.colSend
      rw [if_neg (h d (by simp))]
      exact sends_sendTx _ _ _
    refine h1.trans (ih _ ?_)
    intro q hq
    rw [h1.me]
    exact h q (List.mem_cons_of_mem _ hq)

/-- An abort on the top decider, and on a module below it. -/
theorem colAbort_top (s : State) (c : Nat) (x : ColRun) (code : Code) (hr : (s.chan c).run = some x) (hp : x.phase ≠ .stopped)
    (hn : nextDecider x.members s.me = none) : Ended s c x code (s.colAbort c code) ∧ ErrorHolds s c x code (s.colAbort c code) := by
  obtain ⟨t, ht⟩ : ∃ t, t = s.colSendAll c x (x.members.filter (fun m => m != s.me)) (.finalAbort code) := ⟨_, rfl⟩
  have e : s.colAbort c code = t.colFinal c x code := by
    unfold State.colAbort
    rw [hr]
    dsimp only
    rw [if_neg hp, hn, ht]
  have hs : Sends s t := by
    rw [ht]
    exact sends_toOthers s c x _ _ (fun d hd => by simpa using (List.mem_filter.1 hd).2)
  rw [e]
  obtain ⟨a, b, d, f⟩ := colFinal_ended t c x code
  have hj : t.sched = s.sched := hs.1.2.2.2.1
  refine ⟨⟨?_, ?_, ?_, ?_⟩, ?_⟩
  · rw [a, sends_chan hs]
  · intro q hq; rw [b q hq, sends_chan hs]
  · rw [d, hs.1.1]
  · intro jb hjb; exact f jb (by unfold State.job; rw [hj]; exact hjb)
  · have := colFinal_error t c x code
    unfold ErrorHolds at *
    rw [sends_col hs] at this
    exact this

theorem colAbort_below (s : State) (c : Nat) (x : ColRun) (code : Code) (hr : (s.chan c).run = some x) (hp : x.phase ≠ .stopped)
    (hn : nextDecider x.members s.me ≠ none) : ChanSends s c { s.chan c with run := some { x with phase := .stopped } } (s.colAbort c code) := by
  cases hd : nextDecider x.members s.me with
  | none => exact absurd hd hn
  | some d =>
    have e : s.colAbort c code = (s.setRun c { x with phase := .stopped }).colSend c x d (.abort code) := by
      unfold State.colAbort
      rw [hr]
      dsimp only
      rw [if_neg hp, hd]
    have hne : d ≠ s.me := by
      have := List.find?_some hd
      simpa using this
    rw [e]
    refine ⟨_, (chanTo_setChan s c { s.chan c with run := some { x with phase := .stopped } }), ?_⟩
    unfold State.colSend
    rw [if_neg (show d ≠ State.me (s.setRun c { x with phase := .stopped }) from hne)]
    exact sends_sendTx _ _ _


theorem onRun_some (s : State) (c : Nat) (x : ColRun) (go : ColRun → State → State) (hr : (s.chan c).run = some x) (hp : x.phase ≠ .stopped) :
    s.onRun c go = (go x s).colSettle c := by
  unfold State.onRun
  rw [hr]
  dsimp only
  rw [if_neg hp]

theorem takePost_spec (s : State) (c : Nat) (x : ColRun) (m k : Nat) (h : List Byte) (hm : m ∈ x.members) (hk : postTrick x.members m = some k)
    (hd : deciderOf x.members k m = s.me) :
    s.takePost c x m h = if h != x.desc.header then s.colAbort c Codes.misdeal
      else s.setRun c { x with posts := if x.posts.contains (k, unitOf x.members k m) then x.posts
                                      else x.posts ++ [(k, unitOf x.members k m)] } := by
  unfold State.takePost
  have : [1, 2, 3, 4].find? (fun k => deciderOf x.members k m != m) = some k := hk
  rw [this]
  dsimp only
  rw [if_neg]
  rw [hd]
  simp [hm]

theorem Ended.of_chan {s m : State} {c : Nat} {x : ColRun} {code : Code} {t : State} (k : ChanTo s c (s.chan c) m) (h : Ended m c x code t) : Ended s c x code t := by
  obtain ⟨a, b, d, f⟩ := h
  refine ⟨?_, ?_, ?_, ?_⟩
  · rw [a, k.chan]
  · intro q hq; rw [b q hq, k.others q hq]
  · rw [d, k.rest]
  · intro jb hjb; exact f jb (by rw [k.rest]; exact hjb)

theorem ErrorHolds.of_chan {s m : State} {c : Nat} {x : ColRun} {code : Code} {t : State} {y : ChanCol} (k : ChanTo s c y m) (h : ErrorHolds m c x code t) : ErrorHolds s c x code t := by
  unfold ErrorHolds at *
  rw [k.rest] at h
  exact h

theorem ChanSends.of_chan {s m t : State} {c : Nat} {y z : ChanCol} (k : ChanTo s c y m) (h : ChanSends m c z t) : ChanSends s c z t := by
  obtain ⟨n, h1, h2⟩ := h
  refine ⟨n, ⟨h1.chan, fun d hd => (h1.others d hd).trans (k.others d hd), ?_⟩, h2⟩
  have e := h1.rest
  rw [k.rest] at e
  exact e

/-- A message that aborts. -/
theorem colMsg_aborts (s : State) (c : Nat) (x : ColRun) (m : ColMsg) (code : Code) (hr : (s.chan c).run = some x) (hq : (s.chan c).queue = [])
    (hi : ∀ q ∈ (s.chan c).inbox, q.1 ≠ x.desc.seq) (hp : x.phase ≠ .stopped)
    (hm : ∀ s' : State, s'.me = s.me → s'.takeMsg c x m = s'.colAbort c code) :
    (nextDecider x.members s.me = none → Ended s c x code (s.colMsg c x.desc.seq m) ∧ ErrorHolds s c x code (s.colMsg c x.desc.seq m))
    ∧ (nextDecider x.members s.me ≠ none → ChanSends s c { s.chan c with run := some { x with phase := .stopped } } (s.colMsg c x.desc.seq m)) := by
  obtain ⟨s', k, h⟩ := colMsg_takes s c x m hr hi
  rw [hm s' k.me] at h
  refine ⟨fun hn => ?_, fun hn => ?_⟩
  · obtain ⟨e1, e2⟩ := colAbort_top s' c x code (by rw [k.chan]; exact hr) hp (by rw [k.me]; exact hn)
    rw [h (colStep_none _ _ (by rw [e1.chan])) (by rw [e1.chan, k.chan]; exact hq)]
    exact ⟨Ended.of_chan k e1, ErrorHolds.of_chan k e2⟩
  · have e1 := colAbort_below s' c x code (by rw [k.chan]; exact hr) hp (by rw [k.me]; exact hn)
    rw [k.chan] at e1
    rw [h (colStep_stopped _ c { x with phase := .stopped } (by rw [e1.chan]) rfl (by rw [e1.chan]; exact hi)) (by rw [e1.chan]; exact hq)]
    exact ChanSends.of_chan k e1

/-- An abort condition of the module. -/
theorem settle_aborts (s : State) (c : Nat) (x : ColRun) (code : Code) (hr : (s.chan c).run = some x) (hq : (s.chan c).queue = [])
    (hi : ∀ q ∈ (s.chan c).inbox, q.1 ≠ x.desc.seq) (hp : x.phase ≠ .stopped) :
    (nextDecider x.members s.me = none → Ended s c x code ((s.colAbort c code).colSettle c) ∧ ErrorHolds s c x code ((s.colAbort c code).colSettle c))
    ∧ (nextDecider x.members s.me ≠ none → ChanSends s c { s.chan c with run := some { x with phase := .stopped } } ((s.colAbort c code).colSettle c)) := by
  refine ⟨fun hn => ?_, fun hn => ?_⟩
  · obtain ⟨e1, e2⟩ := colAbort_top s c x code hr hp hn
    rw [e1.stop hq]
    exact ⟨e1, e2⟩
  · have e1 := colAbort_below s c x code hr hp hn
    rw [colSettle_stop _ c (colStep_stopped _ c { x with phase := .stopped } (by rw [e1.chan]) rfl (by rw [e1.chan]; exact hi)) (by rw [e1.chan]; exact hq)]
    exact e1

theorem ready_set (rs : List (Nat × ReadyRec)) (t : Nat) (us : List Nat) :
    us.filter ((rs.filter (fun q => q.1 == t)).map (·.2.unit)).contains = us.filter (fun u => (rs.filter (fun q => q.1 == t)).any (fun q => q.2.unit == u)) := by
  apply List.filter_congr
  intro u _
  rw [Bool.eq_iff_iff, List.any_eq_true, List.contains_iff_mem, List.mem_map]
  constructor
  · rintro ⟨q, h1, h2⟩; exact ⟨q, h1, by simpa using h2⟩
  · rintro ⟨q, h1, h2⟩; exact ⟨q, h1, by simpa using h2⟩

/-- A set too small for the quorum. -/
theorem fix_quorum (s : State) (c : Nat) (x : ColRun) (t : Nat) (us : List Nat) (hr : (s.chan c).run = some x) (hq : (s.chan c).queue = [])
    (hi : ∀ q ∈ (s.chan c).inbox, q.1 ≠ x.desc.seq) (hp : x.phase ≠ .stopped) (htw : s.jobTwin x.job = false)
    (hnd : nextDecider x.members s.me = none) (htol : x.desc.tolerant = true)
    (hquo : us.length * 64 < x.desc.quorum * (unitsOf x.members t s.me).length) :
    Ended s c x Codes.colQuorum ((s.colFix c x t us).colSettle c) ∧ ErrorHolds s c x Codes.colQuorum ((s.colFix c x t us).colSettle c) := by
  obtain ⟨x1, hx1⟩ : ∃ x1 : ColRun, x1 = { x with fixed := x.fixed ++ [(t, us)] } := ⟨_, rfl⟩
  have hd : x1.desc = x.desc := by rw [hx1]
  have hj : x1.job = x.job := by rw [hx1]
  have hm : x1.members = x.members := by rw [hx1]
  have e1 : s.colFix c x t us = (s.setRun c x1).colAbort c Codes.colQuorum := by
    unfold State.colFix
    dsimp only
    rw [if_neg (by rw [htw]; simp)]
    rw [← hx1]
    unfold State.colGo
    rw [if_pos]
    rw [hd, htol, hm]
    exact decide_eq_true hquo
  rw [e1]
  have k := (chanTo_setChan s c { s.chan c with run := some x1 })
  obtain ⟨r1, r2⟩ := (settle_aborts (s.setRun c x1) c x1 Codes.colQuorum (by rw [State.chan_setRun]) (by rw [State.chan_setRun]; exact hq) (by rw [State.chan_setRun, hd]; exact hi)
    (by rw [hx1]; exact hp)).1 (by rw [hm]; exact hnd)
  refine ⟨⟨?_, ?_, r1.tiles, ?_⟩, ?_⟩
  · rw [r1.chan, State.chan_setRun, hd]
  · intro d hdc; rw [r1.others d hdc, State.chan_setRun_other _ _ _ _ hdc]
  · intro jb hjb
    have := r1.job jb (by rw [hj]; exact hjb)
    rw [hj] at this; exact this
  · unfold ErrorHolds at *
    rw [hd] at r2
    exact r2

theorem colMsg_run (s : State) (c : Nat) (x : ColRun) (m : ColMsg) (hr : (s.chan c).run = some x)
    (hi : ∀ q ∈ (s.chan c).inbox, q.1 ≠ x.desc.seq) :
    ∃ s' n, ChanTo s c (s.chan c) s' ∧ s.colMsg c x.desc.seq m = (((s'.takeMsg c x m).colDrain c (n + 19)).colNext c).colNext c := by
  obtain ⟨t, ht⟩ : ∃ t, t = s.setChan c { s.chan c with inbox := (s.chan c).inbox ++ [(x.desc.seq, m)] } := ⟨_, rfl⟩
  have kt : ChanTo s c { s.chan c with inbox := (s.chan c).inbox ++ [(x.desc.seq, m)] } t := by rw [ht]; exact chanTo_setChan _ _ _
  have hin : s.toInbox c x.desc.seq m = t := by
    rw [ht]; exact toInbox_eq s c x.desc.seq m (Or.inl ⟨x, hr, rfl⟩)
  obtain ⟨f1, f2⟩ := find_end (fun q : Nat × ColMsg => q.1 == x.desc.seq) (s.chan c).inbox (x.desc.seq, m)
    (fun q hq => by simpa using hi q hq) (by simp)
  obtain ⟨n, hn⟩ := colFuel_pos t c
  refine ⟨t.modChan c (fun y => { y with inbox := y.inbox.eraseIdx (y.inbox.findIdx (fun q => q.1 == x.desc.seq)) }), n, ?_, ?_⟩
  · have := kt.mod (fun y => { y with inbox := y.inbox.eraseIdx (y.inbox.findIdx (fun q => q.1 == x.desc.seq)) })
    simp only [f2] at this
    exact this
  · have st : t.colStep c = some ((t.modChan c (fun y => { y with inbox := y.inbox.eraseIdx (y.inbox.findIdx (fun q => q.1 == x.desc.seq)) })).takeMsg c x m) := by
      unfold State.colStep
      rw [kt.chan]
      dsimp only
      rw [hr]
      dsimp only
      rw [f1]
    unfold State.colMsg State.colSettle State.colRun
    rw [hin, hn, colDrain_step t _ c _ st]

/-- The steps of a DIGEST on a job's only module, once it has its flag. -/
structure DigestRun (s : State) (c : Nat) (x : ColRun) (f : Nat) : Prop where
  run : (s.chan c).run = some x
  alone : x.members = [s.me]
  phase : x.phase = .running
  op : x.desc.op = 6
  flag : x.flag = some f
  gos : x.gos = []
  inbox : ∀ q ∈ (s.chan c).inbox, q.1 ≠ x.desc.seq

theorem digest_quiet {s : State} {c : Nat} {x : ColRun} {f : Nat} (h : DigestRun s c x f) :
    tricksOf x.members s.me = [] ∧ s.stepPost c x = none ∧ s.stepReady c x = none ∧ s.stepDecide c x = none ∧ s.stepUp c x = none ∧ s.stepRoot c x = none
      ∧ s.stepShuffle c x = none ∧ s.stepDown c x = none ∧ x.leftOut s.me = false
      ∧ s.colStep c = (s.stepPost c x).or ((s.stepFlag c x).or ((s.stepReady c x).or ((s.stepDecide c x).or ((s.stepUp c x).or
          ((s.stepRoot c x).or ((s.stepAlone c x).or ((s.stepShuffle c x).or ((s.stepDown c x).or
            ((s.stepExcluded c x).or (s.stepComplete c x)))))))))) := by
  have ht : tricksOf x.members s.me = [] := by rw [h.alone, tricksOf_alone]
  refine ⟨ht, ?_, ?_, ?_, ?_, ?_, ?_, ?_, ?_, ?_⟩
  · unfold State.stepPost
    rw [h.alone, postTrick_head [s.me] s.me rfl]; split <;> rfl
  · unfold State.stepReady; rw [ht]; rfl
  · unfold State.stepDecide; rw [ht]; rfl
  · unfold State.stepUp; rw [ht]; rfl
  · unfold State.stepRoot; rw [ht]; rfl
  · unfold State.stepShuffle; rw [h.op]; rfl
  · unfold State.stepDown; rw [ht]; split <;> rfl
  · unfold ColRun.leftOut; rw [h.gos]; rfl
  · unfold State.colStep
    rw [h.run]
    dsimp only
    rw [show (s.chan c).inbox.find? (fun q => q.1 == x.desc.seq) = none from by
      rw [List.find?_eq_none]; intro q hq; simpa using h.inbox q hq]
    dsimp only
    rw [if_neg (by rw [h.phase]; decide)]

theorem digest_step1 {s : State} {c : Nat} {x : ColRun} {f : Nat} (h : DigestRun s c x f) (hp : x.packaged = false) :
    s.colStep c = some (s.setRun c { x with packaged := true, vals := SMap.setRange 0 [] 0 [BitVec.ofNat 32 f] }) := by
  obtain ⟨_, e1, e3, e4, e5, e6, e8, e9, e10, e⟩ := digest_quiet h
  rw [e, e1]
  unfold State.stepFlag
  rw [h.op, h.flag, hp]
  simp only [State.packageSums, h.op, h.flag]
  rfl

theorem digest_step2 {s : State} {c : Nat} {x : ColRun} {f : Nat} (h : DigestRun s c x f) (hp : x.packaged = true) (hl : x.level = 0) (hpl : x.placed = 0)
    (hv : x.vals = SMap.setRange 0 [] 0 [BitVec.ofNat 32 f]) (hf : f < 2) :
    ∃ z : ColRun, s.colStep c = some (s.setRun c z) ∧ DigestRun (s.setRun c z) c z f ∧ z.packaged = true ∧ z.level = 1 ∧ z.placed = 1 ∧ (z.vals.get 0 0).toNat = f
      ∧ z.desc = x.desc ∧ z.job = x.job ∧ z.twinDig = x.twinDig := by
  obtain ⟨ht, e1, e3, e4, e5, e6, e8, e9, e10, e⟩ := digest_quiet h
  have e2 : s.stepFlag c x = none := by unfold State.stepFlag; rw [hp]; simp
  obtain ⟨z, hz⟩ : ∃ z : ColRun, z = { x with level := 1, placed := 0 + 1, vals := SMap.setRange 0 x.vals 0 [BitVec.ofNat 32 f] } := ⟨_, rfl⟩
  have ha : s.stepAlone c x = some (s.setRun c z) := by
    unfold State.stepAlone
    rw [ht, hp, hl]
    have htot : x.total = 1 := by simp only [ColRun.total, h.op]
    rw [htot]
    unfold State.finalRoot
    dsimp only
    rw [if_pos (Or.inr (Or.inr h.op))]
    unfold State.colStore
    dsimp only
    rw [if_pos h.op]
    have hm : ∀ (y : ColRun) (n : Nat), y.desc = x.desc → ((x.vals.getRange 0 0 (1 - 0)).map (y.final n)).map (BitVec.ofNat 32) = [BitVec.ofNat 32 f] := by
      intro y n hy
      rw [hv]
      have hg : (SMap.setRange (0 : W32) [] 0 [BitVec.ofNat 32 f]).getRange 0 0 (1 - 0) = [BitVec.ofNat 32 f] := SMap.getRange_setRange _ _ _ _
      rw [hg, List.map_cons, List.map_nil, List.map_cons, List.map_nil]
      have : y.final n (BitVec.ofNat 32 f) = f := by
        unfold ColRun.final
        rw [if_pos (by rw [hy, h.op]; decide)]
        rw [BitVec.toNat_ofNat]
        omega
      rw [this]
    rw [hm]
    · rw [hpl, hz]
      simp [hp]
    · rfl
  refine ⟨z, ?_, ⟨by rw [State.chan_setRun], by rw [hz]; exact h.alone, by rw [hz]; exact h.phase, by rw [hz]; exact h.op, by rw [hz]; exact h.flag, by rw [hz]; exact h.gos,
    by rw [State.chan_setRun, hz]; exact h.inbox⟩, by rw [hz]; exact hp, by rw [hz], by rw [hz], ?_, by rw [hz], by rw [hz], by rw [hz]⟩
  · rw [e, e1, e2, e3, e4, e5, e6, ha]
    rfl
  · rw [hz]
    show ((SMap.setRange 0 x.vals 0 [BitVec.ofNat 32 f]).get 0 0).toNat = f
    rw [SMap.get_setRange, if_pos (by simp)]
    simp
    omega

theorem digest_step3 {s : State} {c : Nat} {x : ColRun} {f : Nat} (h : DigestRun s c x f) (hp : x.packaged = true) (hl : x.level = 1) (hpl : x.placed = 1) :
    s.colStep c = some (s.colComplete c x) := by
  obtain ⟨ht, e1, e3, e4, e5, e6, e8, e9, e10, e⟩ := digest_quiet h
  have e2 : s.stepFlag c x = none := by unfold State.stepFlag; rw [hp]; simp
  have e7 : s.stepAlone c x = none := by unfold State.stepAlone; rw [hl]; simp
  have e11 : s.stepExcluded c x = none := by unfold State.stepExcluded; rw [e10]; rfl
  rw [e, e1, e2, e3, e4, e5, e6, e7, e8, e9, e11]
  unfold State.stepComplete
  have htot : x.total = 1 := by simp only [ColRun.total, h.op]
  rw [e10, h.op, htot, hpl, hp]
  rfl

theorem report_mem (s : State) (c : Code) (i : RecInfo) : (s.report c i).mem = s.mem := by simp

theorem jobFaults_mem (s : State) (j : Nat) (c : Code) (i : RecInfo) : (s.jobFaults j c i).mem = s.mem := by
  unfold State.jobFaults State.faultJob State.modJob
  split <;> simp [State.setJob]

/-- The outcome of a DIGEST's own comparison on a job's only module. -/
theorem digest_done (s : State) (c : Nat) (x : ColRun) (f : Nat) (h : DigestRun s c x f) (hi : x.desc.incl = 0) (hv : (x.vals.get 0 0).toNat = f) (hf : f < 2) :
    (s.colComplete c x).chan c = { s.chan c with run := none, done := x.desc.seq } ∧ (∀ d, d ≠ c → (s.colComplete c x).chan d = s.chan d)
      ∧ (s.colComplete c x).tiles = s.tiles ∧ (s.colComplete c x).mem = s.mem ∧ (s.colComplete c x).col.steps.get 0 x.job = s.col.steps.get 0 x.job + 1
      ∧ ∀ jb, s.job x.job = some jb → ∃ z, (s.colComplete c x).job x.job = some z
          ∧ z.fault = if f = 0 then jb.fault else some (jb.fault.getD Codes.twinDiverged) := by
  obtain ⟨u, hu⟩ : ∃ u, u = (({ s with col := { s.col with steps := s.col.steps.set 0 x.job (s.col.steps.get 0 x.job + 1) } } : State).modChan c (fun y => { y with run := none, done := x.desc.seq })) := ⟨_, rfl⟩
  have e : s.colComplete c x = (u.setHeldBack x.job).digestOutcome c x := by
    unfold State.colComplete
    have hg : groupPeers x.members s.me = [] := by
      rw [h.alone]
      unfold groupPeers
      rw [tricksOf_alone]; rfl
    dsimp only
    rw [hi, if_pos rfl, if_pos (Or.inl h.op), if_pos h.op, if_pos h.op, hu]
    show State.digestOutcome (State.setHeldBack (State.modChan (List.foldl _ _ (groupPeers x.members s.me)) _ _) _) _ _ = _
    rw [hg]
    rfl
  obtain ⟨w, ew, _⟩ := setHeldBack_rest u x.job
  obtain ⟨b, hb, _⟩ := setHeldBack_job u x.job
  obtain ⟨v, hvv⟩ : ∃ v, v = u.setHeldBack x.job := ⟨_, rfl⟩
  have hvc : v.chan c = { s.chan c with run := none, done := x.desc.seq } := by
    rw [hvv, State.chan_congr (s := u) (by rw [ew]), hu]
    exact State.chan_setChan_same _ _ _
  have hvo : ∀ d, d ≠ c → v.chan d = s.chan d := by
    intro d hd
    rw [hvv, State.chan_congr (s := u) (by rw [ew]), hu]
    exact State.chan_setChan_other _ _ _ _ hd
  have hvt : v.tiles = s.tiles := by rw [hvv, ew, hu]; rfl
  have hvm : v.mem = s.mem := by rw [hvv, ew, hu]; rfl
  have hvs : v.col.steps.get 0 x.job = s.col.steps.get 0 x.job + 1 := by
    rw [hvv, ew, hu]; exact SMap.get_set_same _ _ _ _
  have hvj : ∀ jb, s.job x.job = some jb → v.job x.job = some { jb with heldBack := b } := by
    intro jb hjb
    rw [hvv]
    refine hb jb ?_
    rw [hu]; exact hjb
  rw [e, ← hvv]
  by_cases h0 : f = 0
  · have : v.digestOutcome c x = v := by
      unfold State.digestOutcome
      dsimp only
      rw [hv, if_pos h0]
    rw [this]
    refine ⟨hvc, hvo, hvt, hvm, hvs, fun jb hjb => ⟨_, hvj jb hjb, by rw [if_pos h0]⟩⟩
  · have h1 : f = 1 := by omega
    obtain ⟨r, hr, rc, rt, rm, rj⟩ : ∃ r : State, v.digestOutcome c x = r.jobFaults x.job Codes.twinDiverged (colInfo c x.desc.seq (v.me + (!v.links.twin).toNat * 16384))
        ∧ r.col = v.col ∧ r.tiles = v.tiles ∧ r.mem = v.mem ∧ r.sched = v.sched := by
      refine ⟨(v.report Codes.twinDiverged { job := x.job, data := v.col.digest }).report Codes.twinDiverged { job := x.job, data := x.twinDig }, ?_, by simp, by simp, by simp, by simp⟩
      unfold State.digestOutcome
      dsimp only
      rw [hv, if_neg h0, if_pos (show x.flag = some 1 by rw [h.flag, h1]), if_neg (show ¬ 65536 ≤ f by omega)]
    rw [hr]
    have hrc : ∀ d, r.chan d = v.chan d := fun d => State.chan_congr (by rw [rc]) d
    refine ⟨?_, ?_, ?_, ?_, ?_, ?_⟩
    · rw [jobFaults_chan, hrc]; exact hvc
    · intro d hd; rw [jobFaults_chan, hrc]; exact hvo d hd
    · rw [jobFaults_tiles, rt]; exact hvt
    · rw [jobFaults_mem, rm]; exact hvm
    · rw [jobFaults_col, rc]; exact hvs
    · intro jb hjb
      refine ⟨_, job_jobFaults r x.job Codes.twinDiverged _ { jb with heldBack := b } ?_, ?_⟩
      · unfold State.job; rw [rj]; exact hvj jb hjb
      · rw [if_neg h0]

end Sys2Proof.Machine
end

