-- ==== Sys2Proof/Laws/Messages.lean ====
section
/-!
SUPPORT. Laws/Messages.lean: what each message leaves of a collective that waits.
-/

namespace Sys2Proof.Machine

/-- A collective that has sent its POST, before its package trick. -/
structure Fresh (s : State) (c : Nat) (x : ColRun) : Prop where
  run : (s.chan c).run = some x
  queue : (s.chan c).queue = []
  member : s.me ∈ x.members
  inbox : ∀ q ∈ (s.chan c).inbox, q.1 ≠ x.desc.seq
  form : x = { ColRun.start x.job x.desc x.members with posted := true, phase := x.phase, posts := x.posts }
  phase : x.phase ≠ .stopped
  op : 1 ≤ x.desc.op ∧ x.desc.op ≤ 5
  count : x.desc.op ≤ 2 → 0 < x.desc.count

structure FreshFields (x : ColRun) : Prop where
  posted : x.posted = true
  flag : x.flag = none
  packaged : x.packaged = false
  rootReady : x.rootReady = []
  readies : x.readies = []
  fixed : x.fixed = []
  goSent : x.goSent = []
  twins : x.twins = []
  gos : x.gos = []
  level : x.level = 0
  sentUp : x.sentUp = []
  sentDown : x.sentDown = []
  placed : x.placed = 0
  got : x.got = []
  arr : x.arr = []

theorem Fresh.fields {s : State} {c : Nat} {x : ColRun} (h : Fresh s c x) : FreshFields x := by
  have e := h.form
  constructor <;> rw [e] <;> rfl

theorem own_unit (ms : List Nat) (k r : Nat) (h : r ∈ ms) : unitOf ms k r ∈ unitsOf ms k r := by
  unfold unitsOf
  rw [List.mem_dedup]
  exact List.mem_map.2 ⟨r, List.mem_filter.2 ⟨h, by simp⟩, rfl⟩

/-- What a message may change and the collective still waits. -/
theorem Fresh.waits {s : State} {c : Nat} {x : ColRun} (h : Fresh s c x) (z : ColRun) (hd : z.desc = x.desc) (hm : z.members = x.members) (hph : z.phase = x.phase)
    (hp : z.posted = x.posted) (hf : z.flag = x.flag) (hpk : z.packaged = x.packaged) (hfi : z.fixed = x.fixed) (hl : z.level = x.level)
    (hsu : z.sentUp = x.sentUp) (hsd : z.sentDown = x.sentDown) (hr : z.rootReady = x.rootReady ∨ z.gos = x.gos)
    (hread : ∀ k, (∃ u ∈ unitsOf x.members k s.me, ¬ z.readies.any (fun q => q.1 == k && q.2.unit == u) = true))
    (hgo : ∀ k, (tricksOf x.members s.me).head? = some k → z.go k = none
      ∨ (z.contributors s.me k).contains s.me = true ∧ x.desc.op ≠ 4 ∧ x.desc.op ≠ 5)
    (hpl : x.desc.op ≤ 2 → z.placed < x.desc.count) : Waits z s.me := by
  have F := h.fields
  refine ⟨by rw [hph]; exact h.phase, by rw [hm]; exact h.member, Or.inl (by rw [hp]; exact F.posted), by rw [hf]; exact F.flag, by rw [hpk]; exact F.packaged,
    ?_, ?_, by rw [hl]; exact F.level, by rw [hsu]; exact F.sentUp, ?_, by rw [hsd]; exact F.sentDown, ?_⟩
  · rcases hr with e | e
    · left; rw [e]; exact F.rootReady
    · right; rw [e]; exact F.gos
  · intro k _ _
    rw [hm]
    exact ⟨by rw [hfi, F.fixed]; rfl, hread k⟩
  · intro k hk
    rw [hm] at hk
    rw [hd]
    exact hgo k hk
  · intro ho
    rw [hd] at ho
    have := h.op
    have ho2 : x.desc.op ≤ 2 := by omega
    have e : z.total = x.desc.count := by
      rcases (show x.desc.op = 1 ∨ x.desc.op = 2 by omega) with e | e <;> simp only [ColRun.total, hd, e]
    rw [e]
    exact hpl ho2

theorem Fresh.noReady {s : State} {c : Nat} {x : ColRun} (h : Fresh s c x) (z : ColRun) (hz : z.readies = x.readies) (k : Nat) :
    ∃ u ∈ unitsOf x.members k s.me, ¬ z.readies.any (fun q => q.1 == k && q.2.unit == u) = true :=
  ⟨_, own_unit _ _ _ h.member, by rw [hz, h.fields.readies]; simp⟩

theorem Fresh.noGo {s : State} {c : Nat} {x : ColRun} (h : Fresh s c x) (z : ColRun) (hz : z.gos = x.gos) (k : Nat) : z.go k = none := by
  unfold ColRun.go; rw [hz, h.fields.gos]; rfl

/-- A message that leaves a waiting collective `z`. -/
theorem Fresh.takes {s : State} {c : Nat} {x : ColRun} (h : Fresh s c x) (msg : ColMsg) (z : ColRun) (hd : z.desc = x.desc) (hw : Waits z s.me)
    (R : State → State → Prop)
    (ht : ∀ s', ChanTo s c (s.chan c) s' → ∃ t, s'.takeMsg c x msg = t ∧ ChanSends s c { s.chan c with run := some z } { t with mem := s.mem, freeCtr := s.freeCtr } ∧ R s' t) :
    ∃ s' t, ChanTo s c (s.chan c) s' ∧ s.colMsg c x.desc.seq msg = t ∧ ChanSends s c { s.chan c with run := some z } { t with mem := s.mem, freeCtr := s.freeCtr } ∧ R s' t := by
  obtain ⟨s', k, hh⟩ := colMsg_takes s c x msg h.run h.inbox
  obtain ⟨t, e1, e2, e3⟩ := ht s' k
  rw [e1] at hh
  have hc : t.chan c = { s.chan c with run := some z } := e2.chan
  refine ⟨s', t, k, hh ?_ ?_, e2, e3⟩
  · refine colStep_waits t c z (by rw [hc]) ?_ (by rw [hc, hd]; exact h.inbox)
    have : t.me = s.me := e2.me
    rw [this]; exact hw
  · rw [hc]; exact h.queue

theorem memSame {s t : State} {c : Nat} {y : ChanCol} (h : ChanSends s c y t) :
    ChanSends s c y { t with mem := s.mem, freeCtr := s.freeCtr } := by
  have e := h.mem
  obtain ⟨m, h1, ⟨a1, a2, a3, a4, a5, a6, a7, a8⟩, b⟩ := h
  refine ⟨m, h1, ⟨a1, a2, ?_, a4, a5, a6, a7, a8⟩, b⟩
  rw [h1.rest]

/-- What the claims ask of a message's effect. -/
theorem becomes_of {s t : State} {c : Chan} {z : ColRun} (h : ChanSends s c { s.chan c with run := some z } { t with mem := s.mem, freeCtr := s.freeCtr }) :
    t.chan c = { s.chan c with run := some z } ∧ t.tiles = s.tiles ∧ t.sched = s.sched ∧ ∀ e : Chan, e ≠ c → t.chan e = s.chan e :=
  ⟨h.chan, h.tiles, h.sched, fun e he => h.others e (fun q => he (Fin.ext q))⟩

theorem Fresh.note {s : State} {c : Chan} {x : ColRun} (h : Fresh s c x) (e : Instr) (msg : ColMsg) (z : ColRun) (hd : z.desc = x.desc) (hw : Waits z s.me)
    (hex : exec e s = .next (s.colMsg c x.desc.seq msg))
    (ht : ∀ s', ChanTo s c (s.chan c) s' → s'.takeMsg c x msg = s'.setRun c z ∨
      Sends (s'.setRun c z) (s'.takeMsg c x msg)) :
    ∃ m, exec e s = .next m ∧ (m.chan c = { s.chan c with run := some z } ∧ m.tiles = s.tiles ∧ m.sched = s.sched ∧ ∀ e : Chan, e ≠ c → m.chan e = s.chan e)
      ∧ m.mem = s.mem := by
  obtain ⟨s', t, k, e1, e2, e3⟩ := h.takes msg z hd hw (fun _ t => t.mem = s.mem) (by
    intro s' k
    refine ⟨_, rfl, ?_⟩
    have hh : Sends (s'.setRun c z) (s'.takeMsg c x msg) := by
      rcases ht s' k with q | q
      · rw [q]; exact Sends.refl _
      · exact q
    have hcs : ChanSends s c { s.chan c with run := some z } (s'.takeMsg c x msg) := ⟨_, k.run z, hh⟩
    exact ⟨memSame hcs, hcs.mem⟩)
  exact ⟨t, by rw [hex, e1], becomes_of e2, e3⟩

theorem takeMsg_run (s' : State) (c : Nat) (x : ColRun) (m : ColMsg) (hp : x.phase ≠ .stopped) :
    (∀ q h, m = .post q h → s'.takeMsg c x m = s'.takePost c x q h)
    ∧ (∀ k q, m = .rootReady k q → s'.takeMsg c x m = s'.setRun c { x with rootReady := x.rootReady ++ [(k, q)] })
    ∧ (∀ k u n rs, m = .ready k u n rs → s'.takeMsg c x m = s'.takeReady c x k u n rs)
    ∧ (∀ k us n rs, m = .go k us n rs → s'.takeMsg c x m = s'.takeGo c x k us n rs)
    ∧ (∀ k us, m = .twinSet k us → s'.takeMsg c x m = s'.setRun c { x with twins := x.twins ++ [(k, us)] })
    ∧ (∀ k down q off bs, m = .pot k down q off bs → s'.takeMsg c x m = s'.takeChunk c x k down q off bs)
    ∧ (∀ a b off sent bs, m = .shuffle a b off sent bs → s'.takeMsg c x m =
        if b = s'.me then s'.takeShuffle c x a off sent bs else s'.forwardShuffle c x.desc.seq a b off sent bs) := by
  refine ⟨?_, ?_, ?_, ?_, ?_, ?_, ?_⟩ <;> intros <;> subst m <;> unfold State.takeMsg <;> dsimp only <;> rw [if_neg hp]

theorem post_note {s : State} {c : Chan} {x : ColRun} (h : Fresh s c x) (q : BitVec 14) (k : Nat) (hq : q.toNat ∈ x.members) (hk : postTrick x.members q.toNat = some k)
    (hd : deciderOf x.members k q.toNat = s.me) (hs : fieldLe x.desc.header 8 8 = x.desc.seq) (hn : (k, unitOf x.members k q.toNat) ∉ x.posts) :
    ∃ m, exec (.post c q x.desc.header) s = .next m ∧ (m.chan c = { s.chan c with run := some { x with posts := x.posts ++ [(k, unitOf x.members k q.toNat)] } } ∧ m.tiles = s.tiles ∧ m.sched = s.sched ∧ ∀ e : Chan, e ≠ c → m.chan e = s.chan e)
      ∧ m.mem = s.mem := by
  refine h.note _ (.post q.toNat x.desc.header) _ rfl ?_ ?_ ?_
  · exact h.waits _ rfl rfl rfl rfl rfl rfl rfl rfl rfl rfl (Or.inl rfl) (h.noReady _ rfl) (fun k _ => Or.inl (h.noGo _ rfl k))
      (fun ho => by show x.placed < _; rw [h.fields.placed]; exact h.count ho)
  · show Host.Outcome.next (s.colMsg c (fieldLe x.desc.header 8 8) _) = _
    rw [hs]
  · intro s' k'
    left
    rw [(takeMsg_run s' c x _ h.phase).1 _ _ rfl, takePost_spec s' c x q.toNat k x.desc.header hq hk (by rw [k'.me]; exact hd)]
    rw [if_neg (by simp), if_neg (by simpa using hn)]

theorem ready_note {s : State} {c : Chan} {x : ColRun} (h : Fresh s c x) (k : Trick) (u : BitVec 14) (n : Nat) (rs : List Nat)
    (hk : trickNo k ∈ tricksOf x.members s.me) (hd : deciderOf x.members (trickNo k) s.me = s.me) (hu : u.toNat ∈ unitsOf x.members (trickNo k) s.me)
    (hp : u.toNat = unitOf x.members (trickNo k) s.me ∨ (trickNo k, u.toNat) ∈ x.posts) (hv : ∃ v ∈ unitsOf x.members (trickNo k) s.me, v ≠ u.toNat) :
    ∃ m, exec (.ready c x.desc.seq k false u n rs) s = .next m ∧ (m.chan c = { s.chan c with run := some { x with readies := [(trickNo k, ⟨u.toNat, n, rs⟩)] } } ∧ m.tiles = s.tiles ∧ m.sched = s.sched ∧ ∀ e : Chan, e ≠ c → m.chan e = s.chan e)
      ∧ m.mem = s.mem := by
  refine h.note _ (.ready (trickNo k) u.toNat n rs) _ rfl ?_ rfl ?_
  · refine h.waits _ rfl rfl rfl rfl rfl rfl rfl rfl rfl rfl (Or.inl rfl) ?_ (fun k _ => Or.inl (h.noGo _ rfl k))
      (fun ho => by show x.placed < _; rw [h.fields.placed]; exact h.count ho)
    intro t
    by_cases ht : t = trickNo k
    · obtain ⟨v, hv1, hv2⟩ := hv
      refine ⟨v, by rw [ht]; exact hv1, ?_⟩
      simp only [List.any_cons, List.any_nil, Bool.or_false, Bool.and_eq_true, beq_iff_eq]
      exact fun e => hv2 e.2.symm
    · refine ⟨_, own_unit _ _ _ h.member, ?_⟩
      simp only [List.any_cons, List.any_nil, Bool.or_false, Bool.and_eq_true, beq_iff_eq]
      exact fun e => ht e.1.symm
  · intro s' k'
    left
    rw [(takeMsg_run s' c x _ h.phase).2.2.1 _ _ _ _ rfl]
    unfold State.takeReady
    rw [if_neg, h.fields.readies]
    · rfl
    · rw [k'.me, hd, h.fields.fixed, h.fields.readies]
      simp [hk, hu]
      intro h1
      rcases hp with e | e
      · exact absurd e h1
      · exact e

theorem root_note {s : State} {c : Chan} {x : ColRun} (h : Fresh s c x) (k : Trick) (u : BitVec 14) (n : Nat) (rs : List Nat) :
    ∃ m, exec (.ready c x.desc.seq k true u n rs) s = .next m ∧ (m.chan c = { s.chan c with run := some { x with rootReady := [(trickNo k, u.toNat)] } } ∧ m.tiles = s.tiles ∧ m.sched = s.sched ∧ ∀ e : Chan, e ≠ c → m.chan e = s.chan e)
      ∧ m.mem = s.mem := by
  refine h.note _ (.rootReady (trickNo k) u.toNat) _ rfl ?_ rfl ?_
  · exact h.waits _ rfl rfl rfl rfl rfl rfl rfl rfl rfl rfl (Or.inr rfl) (h.noReady _ rfl) (fun k _ => Or.inl (h.noGo _ rfl k))
      (fun ho => by show x.placed < _; rw [h.fields.placed]; exact h.count ho)
  · intro s' k'
    left
    rw [(takeMsg_run s' c x _ h.phase).2.1 _ _ rfl, h.fields.rootReady]
    rfl

theorem twin_note {s : State} {c : Chan} {x : ColRun} (h : Fresh s c x) (k : Trick) (us : List Nat) :
    ∃ m, exec (.twinSetExchange c x.desc.seq k us) s = .next m ∧ (m.chan c = { s.chan c with run := some { x with twins := [(trickNo k, us)] } } ∧ m.tiles = s.tiles ∧ m.sched = s.sched ∧ ∀ e : Chan, e ≠ c → m.chan e = s.chan e)
      ∧ m.mem = s.mem := by
  refine h.note _ (.twinSet (trickNo k) us) _ rfl ?_ rfl ?_
  · exact h.waits _ rfl rfl rfl rfl rfl rfl rfl rfl rfl rfl (Or.inl rfl) (h.noReady _ rfl) (fun k _ => Or.inl (h.noGo _ rfl k))
      (fun ho => by show x.placed < _; rw [h.fields.placed]; exact h.count ho)
  · intro s' k'
    left
    rw [(takeMsg_run s' c x _ h.phase).2.2.2.2.1 _ _ rfl, h.fields.twins]
    rfl

theorem go_note {s : State} {c : Chan} {x : ColRun} (h : Fresh s c x) (k : Trick) (us : List Nat) (n : Nat) (rs : List Nat)
    (hk : trickNo k ∈ tricksOf x.members s.me)
    (hh : (tricksOf x.members s.me).head? = some (trickNo k) → unitOf x.members (trickNo k) s.me ∈ us ∧ x.desc.op ≤ 3 ∧ (x.desc.op = 2 → unitOf x.members (trickNo k) s.me = unitOf x.members (trickNo k) x.desc.root)) :
    ∃ m, exec (.go c x.desc.seq k us n rs) s = .next m ∧ (m.chan c = { s.chan c with run := some { x with gos := [(trickNo k, ⟨us, n, rs⟩)] } } ∧ m.tiles = s.tiles ∧ m.sched = s.sched ∧ ∀ e : Chan, e ≠ c → m.chan e = s.chan e)
      ∧ m.mem = s.mem := by
  refine h.note _ (.go (trickNo k) us n rs) _ rfl ?_ rfl ?_
  · refine h.waits _ rfl rfl rfl rfl rfl rfl rfl rfl rfl rfl (Or.inl rfl) (h.noReady _ rfl) ?_
      (fun ho => by show x.placed < _; rw [h.fields.placed]; exact h.count ho)
    intro t ht
    by_cases e : t = trickNo k
    · subst e
      obtain ⟨h1, h2, h3⟩ := hh ht
      right
      refine ⟨?_, by omega, by omega⟩
      unfold ColRun.contributors ColRun.go
      simp only [List.find?_cons, beq_self_eq_true, Option.map_some, List.contains_iff_mem, List.mem_filter, Bool.and_eq_true, Bool.or_eq_true, bne_iff_ne, beq_iff_eq]
      refine ⟨List.mem_filter.2 ⟨h.member, by simp⟩, h1, ?_⟩
      by_cases h2 : x.desc.op = 2
      · exact Or.inr (h3 h2)
      · exact Or.inl h2
    · left
      unfold ColRun.go
      have : (trickNo k == t) = false := by simpa using fun e2 => e e2.symm
      simp [this]
  · intro s' k'
    rw [(takeMsg_run s' c x _ h.phase).2.2.2.1 _ _ _ _ rfl]
    unfold State.takeGo
    rw [if_neg]
    swap
    · rw [k'.me, h.noGo x rfl]
      simp [hk]
    dsimp only
    rw [h.fields.gos]
    split
    · right
      refine sends_toOthers _ _ _ _ _ ?_
      intro d hd
      have : d ≠ s'.me := by simpa using (List.mem_filter.1 hd).2
      exact this
    · left; rfl

theorem filter_ok (s : State) (c : Chan) (vc src : Nat) (tag : BitVec 13) (go : State → State) (ht : tag ≠ 0) (hj : (s.chan c).job ≠ 0)
    (hf : s.tagFunc tag.toNat = some (s.jobFunc (s.chan c).job)) : s.filtered c vc src tag go = go s := by
  unfold State.filtered
  dsimp only
  rw [if_pos]
  unfold State.passFilter
  dsimp only
  rw [if_neg ht, hf]
  dsimp only
  rw [if_neg (by decide)]
  have : (BitVec.ofNat 4 c.val).toNat = c.val := by
    rw [BitVec.toNat_ofNat]; exact Nat.mod_eq_of_lt c.isLt
  rw [this, if_neg hj]
  simp

/-- A message that changes the row, and memory. -/
theorem Fresh.store {s : State} {c : Chan} {x : ColRun} (h : Fresh s c x) (e : Instr) (msg : ColMsg) (z : ColRun) (hd : z.desc = x.desc) (hw : Waits z s.me)
    (hex : exec e s = .next (s.colMsg c x.desc.seq msg)) (R : State → State → Prop)
    (ht : ∀ s', ChanTo s c (s.chan c) s' → MemOnly (s'.setRun c z) (s'.takeMsg c x msg) ∧ R s' (s'.takeMsg c x msg)) :
    ∃ s' m, ChanTo s c (s.chan c) s' ∧ exec e s = .next m ∧ (m.chan c = { s.chan c with run := some z } ∧ m.tiles = s.tiles ∧ m.sched = s.sched ∧ ∀ e : Chan, e ≠ c → m.chan e = s.chan e)
      ∧ R s' m := by
  obtain ⟨s', t, k, e1, e2, e3⟩ := h.takes msg z hd hw R (by
    intro s' k
    obtain ⟨h1, h2⟩ := ht s' k
    refine ⟨_, rfl, ?_, h2⟩
    have kz := k.run z
    have : ({ s'.takeMsg c x msg with mem := s.mem, freeCtr := s.freeCtr } : State) = s'.setRun c z := by
      rw [h1, kz.rest]
    rw [this]
    exact kz.sends)
  exact ⟨s', t, k, by rw [hex, e1], becomes_of e2, e3⟩

theorem elemsLe_length (w : Nat) (bs : List Byte) (n : Nat) (hw : 0 < w) (h : bs.length = w * n) : (elemsLe w bs).length = n := by
  unfold elemsLe
  rw [List.length_map, List.length_range, h, Nat.mul_div_cancel_left _ hw]

theorem natLe_leNat : ∀ (l : List Byte), natLe l.length (leNat l) = l
  | [] => rfl
  | b :: l => by
    rw [List.length_cons]
    unfold natLe leNat
    have h1 : BitVec.ofNat 8 (b.toNat + 256 * leNat l) = b := by
      apply BitVec.eq_of_toNat_eq
      rw [BitVec.toNat_ofNat]
      have := b.isLt
      omega
    have h2 : (b.toNat + 256 * leNat l) / 256 = leNat l := by
      have := b.isLt
      omega
    rw [h1, h2, natLe_leNat l]

theorem fields_back (w : Nat) : ∀ (n : Nat) (bs : List Byte), bs.length = w * n →
    ((List.range n).map (fun i => fieldLe bs (i * w) w)).flatMap (natLe w) = bs
  | 0, bs, h => by
    have : bs = [] := List.eq_nil_of_length_eq_zero (by simpa using h)
    rw [this]; rfl
  | n + 1, bs, h => by
    have hle : w ≤ bs.length := by rw [h, Nat.mul_succ]; omega
    rw [List.range_succ_eq_map, List.map_cons, List.flatMap_cons, List.map_map]
    have h0 : natLe w (fieldLe bs (0 * w) w) = bs.take w := by
      unfold Sys2Proof.Machine.fieldLe
      rw [Nat.zero_mul, List.drop_zero]
      have hl : (bs.take w).length = w := by rw [List.length_take]; omega
      have := natLe_leNat (bs.take w)
      rw [hl] at this
      exact this
    have h1 : (List.range n).map ((fun i => fieldLe bs (i * w) w) ∘ Nat.succ) = (List.range n).map (fun i => fieldLe (bs.drop w) (i * w) w) := by
      apply List.map_congr_left
      intro i _
      show fieldLe bs ((i + 1) * w) w = fieldLe (bs.drop w) (i * w) w
      unfold Sys2Proof.Machine.fieldLe
      rw [List.drop_drop]
      congr 3
      rw [Nat.succ_mul]; omega
    rw [h0, h1, fields_back w n (bs.drop w) (by rw [List.length_drop, h, Nat.mul_succ]; omega), List.take_append_drop]

theorem elemsLe_back (w : Nat) (bs : List Byte) (n : Nat) (hw : 0 < w) (h : bs.length = w * n) : (elemsLe w bs).flatMap (natLe w) = bs := by
  unfold elemsLe
  rw [h, Nat.mul_div_cancel_left _ hw]
  exact fields_back w n bs h

theorem fieldLe_lt (bs : List Byte) (o n : Nat) : fieldLe bs o n < 256 ^ n := by
  unfold Sys2Proof.Machine.fieldLe
  refine Nat.lt_of_lt_of_le (leNat_lt _) (Nat.pow_le_pow_right (by decide) ?_)
  rw [List.length_take]; omega

theorem up_note {s : State} {c : Chan} {x : ColRun} (h : Fresh s c x) (k : Trick) (q : BitVec 14) (off n : Nat) (tag : BitVec 13) (data : List Byte)
    (ht : tag ≠ 0) (hj : (s.chan c).job ≠ 0) (hf : s.tagFunc tag.toNat = some (s.jobFunc (s.chan c).job)) (hop : x.desc.op = 1) (hq : q.toNat ≠ s.me)
    (hg : q.toNat ∈ groupOf x.members (trickNo k) s.me) (hn : 0 < n) (ho : off = (segAt x.members s.me x.desc.count (trickNo k) s.me).1)
    (ho2 : off + n ≤ (segAt x.members s.me x.desc.count (trickNo k) s.me).2) (hl : data.length = 4 * n) (hn2 : n ≤ 1024) :
    ∃ (m : State) (z : ColRun), exec (.potChunk c k false q x.desc.seq off tag data) s = .next m
      ∧ (m.chan c = { s.chan c with run := some z } ∧ m.tiles = s.tiles ∧ m.sched = s.sched ∧ ∀ e : Chan, e ≠ c → m.chan e = s.chan e)
      ∧ z = { x with got := z.got, arr := z.arr } ∧ z.got.get 0 (gotKey (trickNo k) false q.toNat) = n
      ∧ (∀ i, i < n → (z.arr.get 0 (arrKey (trickNo k) q.toNat (off + i))).toNat = fieldLe data (4 * i) 4)
      ∧ ∀ a l, a + l ≤ x.desc.scratch ∨ x.desc.scratch + 8 * x.desc.count ≤ a → m.readMem a l = s.readMem a l := by
  have hlen := elemsLe_length 4 data n (by decide) hl
  obtain ⟨z, hz⟩ : ∃ z : ColRun, z = { x with got := x.got.set 0 (gotKey (trickNo k) false q.toNat) (0 + (elemsLe 4 data).length), arr := SMap.setRange 0 x.arr (arrKey (trickNo k) q.toNat off) ((elemsLe 4 data).map (BitVec.ofNat 32)) } := ⟨_, rfl⟩
  have hex : exec (.potChunk c k false q x.desc.seq off tag data) s = .next (s.colMsg c x.desc.seq (.pot (trickNo k) false q.toNat off data)) := by
    show Host.Outcome.next (s.filtered c 1 q.toNat tag _) = _
    rw [filter_ok s c 1 q.toNat tag _ ht hj hf]
  have hw : Waits z s.me := by
    refine h.waits z (by rw [hz]) (by rw [hz]) (by rw [hz]) (by rw [hz]) (by rw [hz]) (by rw [hz]) (by rw [hz]) (by rw [hz]) (by rw [hz]) (by rw [hz]) (Or.inl (by rw [hz]))
      (h.noReady z (by rw [hz])) (fun k _ => Or.inl (h.noGo z (by rw [hz]) k)) (fun ho => ?_)
    rw [show z.placed = x.placed by rw [hz], h.fields.placed]; exact h.count ho
  have htot : x.total = x.desc.count := by simp only [ColRun.total, hop]
  obtain ⟨s', m, k', e1, e2, e3⟩ := h.store _ (.pot (trickNo k) false q.toNat off data) z (by rw [hz]) hw hex
    (fun _ t => ∀ a l, a + l ≤ x.desc.scratch ∨ x.desc.scratch + 8 * x.desc.count ≤ a → t.readMem a l = s.readMem a l) (by
    intro s' k'
    have e : s'.takeMsg c x (.pot (trickNo k) false q.toNat off data) = (s'.setRun c z).freeFill x.desc.scratch (8 * x.desc.count) := by
      rw [(takeMsg_run s' c x _ h.phase).2.2.2.2.2.1 _ _ _ _ _ rfl]
      unfold State.takeChunk
      have hinc : x.incoming s'.me (trickNo k) false q.toNat = (segAt x.members s.me x.desc.count (trickNo k) s.me, 4) := by
        unfold ColRun.incoming
        rw [if_neg (by rw [hop]; decide), if_neg (by decide), k'.me, htot]
        unfold ColRun.upBytes
        rw [if_pos (Or.inl hop)]
      rw [hinc]
      dsimp only
      have hgot : x.got.get 0 (gotKey (trickNo k) false q.toNat) = 0 := by rw [h.fields.got]; rfl
      rw [hgot, if_neg]
      · rw [if_neg (by rw [hop]; decide), if_pos hop, hz]
      · rw [hlen, k'.me, hop, hl, ← ho]
        have h4 : 4 * n % 4 = 0 := Nat.mul_mod_right 4 n
        have hne : data ≠ [] := by intro e; rw [e] at hl; simp at hl; omega
        simp [hq, hg, h4, hne]
        omega
    rw [e]
    refine ⟨memOnly_freeFill _ _ _, ?_⟩
    intro a l hal
    rw [freeFill_apart _ _ _ _ _ hal]
    show s'.readMem a l = _
    rw [k'.rest]; rfl)
  refine ⟨m, z, e1, e2, by rw [hz], ?_, ?_, e3⟩
  · rw [hz]
    show (x.got.set 0 _ _).get 0 _ = _
    rw [SMap.get_set_same, hlen, Nat.zero_add]
  · intro i hi
    rw [hz]
    show ((SMap.setRange 0 x.arr _ _).get 0 _).toNat = _
    rw [SMap.get_setRange, List.length_map, hlen, if_pos (by unfold arrKey; omega)]
    have : arrKey (trickNo k) q.toNat (off + i) - arrKey (trickNo k) q.toNat off = i := by unfold arrKey; omega
    rw [this]
    unfold elemsLe
    rw [hl, Nat.mul_div_cancel_left _ (by decide), List.map_map, List.getD_eq_getElem _ _ (by simp [hi]), List.getElem_map, List.getElem_range]
    show (BitVec.ofNat 32 (fieldLe data (i * 4) 4)).toNat = _
    rw [BitVec.toNat_ofNat, Nat.mul_comm i 4]
    apply Nat.mod_eq_of_lt
    exact fieldLe_lt data (4 * i) 4

theorem down_note {s : State} {c : Chan} {x : ColRun} (h : Fresh s c x) (k : Trick) (q : BitVec 14) (off n ob : Nat) (tag : BitVec 13) (data : List Byte)
    (ht : tag ≠ 0) (hj : (s.chan c).job ≠ 0) (hf : s.tagFunc tag.toNat = some (s.jobFunc (s.chan c).job)) (hop : x.desc.op = 1) (hq : q.toNat ≠ s.me)
    (hg : q.toNat ∈ groupOf x.members (trickNo k) s.me) (hn : 0 < n) (hob : ob = if x.desc.outFmt = 1 then 2 else 4) (ho : off = (segAt x.members s.me x.desc.count (trickNo k) q.toNat).1)
    (ho2 : off + n ≤ (segAt x.members s.me x.desc.count (trickNo k) q.toNat).2) (hl : data.length = ob * n) (hn2 : ob * n ≤ 4096) (hn3 : n < x.desc.count) :
    ∃ (m : State) (z : ColRun), exec (.potChunk c k true q x.desc.seq off tag data) s = .next m
      ∧ (m.chan c = { s.chan c with run := some z } ∧ m.tiles = s.tiles ∧ m.sched = s.sched ∧ ∀ e : Chan, e ≠ c → m.chan e = s.chan e)
      ∧ z = { x with got := z.got, placed := n } ∧ z.got.get 0 (gotKey (trickNo k) true q.toNat) = n
      ∧ m.readMem (x.desc.dst + off * ob) (ob * n) = data
      ∧ ∀ a l, a + l ≤ x.desc.dst + off * ob ∨ x.desc.dst + off * ob + ob * n ≤ a → m.readMem a l = s.readMem a l := by
  have hob0 : 0 < ob := by rw [hob]; split <;> decide
  have hlen := elemsLe_length ob data n hob0 hl
  have hobx : x.outBytes = ob := by
    unfold ColRun.outBytes colBytes
    rw [if_neg (by rw [hop]; decide), hob]
  obtain ⟨z, hz⟩ : ∃ z : ColRun, z = { x with got := x.got.set 0 (gotKey (trickNo k) true q.toNat) (0 + (elemsLe ob data).length), placed := 0 + (elemsLe ob data).length } := ⟨_, rfl⟩
  have hzp : z.placed = n := by rw [hz]; show 0 + (elemsLe ob data).length = n; omega
  have hex : exec (.potChunk c k true q x.desc.seq off tag data) s = .next (s.colMsg c x.desc.seq (.pot (trickNo k) true q.toNat off data)) := by
    show Host.Outcome.next (s.filtered c 1 q.toNat tag _) = _
    rw [filter_ok s c 1 q.toNat tag _ ht hj hf]
  have hw : Waits z s.me := by
    refine h.waits z (by rw [hz]) (by rw [hz]) (by rw [hz]) (by rw [hz]) (by rw [hz]) (by rw [hz]) (by rw [hz]) (by rw [hz]) (by rw [hz]) (by rw [hz]) (Or.inl (by rw [hz]))
      (h.noReady z (by rw [hz])) (fun k _ => Or.inl (h.noGo z (by rw [hz]) k)) (fun ho => ?_)
    rw [hzp]; exact hn3
  have htot : x.total = x.desc.count := by simp only [ColRun.total, hop]
  have hback := elemsLe_back ob data n hob0 hl
  obtain ⟨s', m, k', e1, e2, e3, e4⟩ := h.store _ (.pot (trickNo k) true q.toNat off data) z (by rw [hz]) hw hex
    (fun _ t => t.readMem (x.desc.dst + off * ob) (ob * n) = data
      ∧ ∀ a l, a + l ≤ x.desc.dst + off * ob ∨ x.desc.dst + off * ob + ob * n ≤ a → t.readMem a l = s.readMem a l) (by
    intro s' k'
    have e : s'.takeMsg c x (.pot (trickNo k) true q.toNat off data) = (s'.setRun c z).writeMem (x.desc.dst + off * ob) data := by
      rw [(takeMsg_run s' c x _ h.phase).2.2.2.2.2.1 _ _ _ _ _ rfl]
      unfold State.takeChunk
      have hinc : x.incoming s'.me (trickNo k) true q.toNat = (segAt x.members s.me x.desc.count (trickNo k) q.toNat, ob) := by
        unfold ColRun.incoming
        rw [if_neg (by rw [hop]; decide), if_pos rfl, k'.me, htot, hobx]
      rw [hinc]
      dsimp only
      have hgot : x.got.get 0 (gotKey (trickNo k) true q.toNat) = 0 := by rw [h.fields.got]; rfl
      rw [hgot, if_neg]
      · rw [if_pos (by simp)]
        unfold State.colStore
        dsimp only
        rw [if_neg (by rw [hop]; decide), h.fields.placed, hz]
        show State.writeMem _ (x.desc.dst + off * x.outBytes) ((elemsLe ob data).flatMap (natLe x.outBytes)) = _
        rw [hobx, hback]
      · rw [hlen, k'.me, hop, hl, ← ho]
        have h4 : ob * n % ob = 0 := Nat.mul_mod_right ob n
        have hne : data ≠ [] := by
          intro e; rw [e] at hl
          have : 0 < ob * n := Nat.mul_pos hob0 hn
          simp at hl; omega
        simp [hq, hg, h4, hne]
        omega
    rw [e]
    refine ⟨memOnly_writeMem _ _ _, ?_, ?_⟩
    · rw [← hl]; exact State.readMem_writeMem _ _ _
    · intro a l hal
      rw [State.readMem_writeMem_other _ _ _ _ _ (by rw [hl]; exact hal)]
      show s'.readMem a l = _
      rw [k'.rest]; rfl)
  refine ⟨m, z, e1, e2, ?_, ?_, e3, e4⟩
  · rw [hz, hlen, Nat.zero_add]
  · rw [hz]
    show (x.got.set 0 _ _).get 0 _ = _
    rw [SMap.get_set_same, hlen, Nat.zero_add]

theorem shuffle_note {s : State} {c : Chan} {x : ColRun} (h : Fresh s c x) (src dst : BitVec 14) (n sent e : Nat) (tag : BitVec 13) (data : List Byte)
    (ht : tag ≠ 0) (hj : (s.chan c).job ≠ 0) (hf : s.tagFunc tag.toNat = some (s.jobFunc (s.chan c).job)) (hop : x.desc.op = 4) (hfm : x.desc.outFmt = x.desc.inFmt)
    (hd : dst.toNat = s.me) (hs : src.toNat ∈ x.members) (hn : 0 < n) (hn2 : n ≤ x.desc.count) (he : e = if x.desc.inFmt = 1 then 2 else 4)
    (hsent : sent < 2 ^ 32) (hl : data.length = e * n) (hn3 : e * n ≤ 4096)
    (hap : x.desc.dst + x.members.idxOf src.toNat * x.desc.count * e + e * n ≤ x.desc.aux + 16 * x.members.idxOf src.toNat + 8
      ∨ x.desc.aux + 16 * x.members.idxOf src.toNat + 8 + 8 ≤ x.desc.dst + x.members.idxOf src.toNat * x.desc.count * e) :
    ∃ (m : State) (z : ColRun), exec (.shuffleData c src dst x.desc.seq 0 sent tag data) s = .next m
      ∧ (m.chan c = { s.chan c with run := some z } ∧ m.tiles = s.tiles ∧ m.sched = s.sched ∧ ∀ e : Chan, e ≠ c → m.chan e = s.chan e)
      ∧ z = { x with got := z.got, placed := n } ∧ m.readMem (x.desc.dst + x.members.idxOf src.toNat * x.desc.count * e) (e * n) = data
      ∧ m.readLe (x.desc.aux + 16 * x.members.idxOf src.toNat + 8) 4 = min sent x.desc.count
      ∧ m.readLe (x.desc.aux + 16 * x.members.idxOf src.toNat + 8 + 4) 4 = sent - x.desc.count
      ∧ ∀ a l, a + l ≤ x.desc.dst + x.members.idxOf src.toNat * x.desc.count * e ∨ x.desc.dst + x.members.idxOf src.toNat * x.desc.count * e + e * n ≤ a →
          a + l ≤ x.desc.aux + 16 * x.members.idxOf src.toNat + 8 ∨ x.desc.aux + 16 * x.members.idxOf src.toNat + 8 + 8 ≤ a → m.readMem a l = s.readMem a l := by
  have he0 : 0 < e := by rw [he]; split <;> decide
  have hlen := elemsLe_length e data n he0 hl
  have hup : x.upBytes = e := by
    unfold ColRun.upBytes colBytes
    rw [if_neg (by rw [hop]; decide), he]
  have hout : x.outBytes = e := by
    unfold ColRun.outBytes colBytes
    rw [if_neg (by rw [hop]; decide), he, hfm]
  obtain ⟨z, hz⟩ : ∃ z : ColRun, z = { x with got := x.got.set 0 (gotKey 5 false src.toNat) (0 + (elemsLe e data).length), placed := 0 + (elemsLe e data).length } := ⟨_, rfl⟩
  obtain ⟨i, hi⟩ : ∃ i, i = x.members.idxOf src.toNat := ⟨_, rfl⟩
  rw [← hi] at hap ⊢
  have hex : exec (.shuffleData c src dst x.desc.seq 0 sent tag data) s = .next (s.colMsg c x.desc.seq (.shuffle src.toNat dst.toNat 0 sent data)) := by
    show Host.Outcome.next (s.filtered c 2 src.toNat tag _) = _
    rw [filter_ok s c 2 src.toNat tag _ ht hj hf]
    unfold State.shuffleArrives
    rw [if_neg (fun q => q.1 hd)]
  have hw : Waits z s.me := by
    refine h.waits z (by rw [hz]) (by rw [hz]) (by rw [hz]) (by rw [hz]) (by rw [hz]) (by rw [hz]) (by rw [hz]) (by rw [hz]) (by rw [hz]) (by rw [hz]) (Or.inl (by rw [hz]))
      (h.noReady z (by rw [hz])) (fun k _ => Or.inl (h.noGo z (by rw [hz]) k)) (fun ho => by rw [hop] at ho; omega)
  have hback := elemsLe_back e data n he0 hl
  have hrow : ∀ t : State, ∀ a, (t.writeMem a (natLe 4 (min sent x.desc.count) ++ natLe 4 (sent - x.desc.count))).readLe a 4 = min sent x.desc.count
      ∧ (t.writeMem a (natLe 4 (min sent x.desc.count) ++ natLe 4 (sent - x.desc.count))).readLe (a + 4) 4 = sent - x.desc.count := by
    intro t a
    constructor
    · unfold State.readLe
      have := readMem_slice t a (natLe 4 (min sent x.desc.count) ++ natLe 4 (sent - x.desc.count)) 0 4 (by simp)
      rw [Nat.add_zero] at this
      rw [this, List.drop_zero, List.take_append_of_le_length (by simp), List.take_of_length_le (by simp), leNat_natLe]
      apply Nat.mod_eq_of_lt
      refine Nat.lt_of_le_of_lt (Nat.min_le_left _ _) hsent
    · unfold State.readLe
      rw [readMem_slice t a _ 4 4 (by simp), List.drop_append_of_le_length (by simp), List.drop_of_length_le (by simp), List.nil_append, List.take_of_length_le (by simp), leNat_natLe]
      apply Nat.mod_eq_of_lt
      exact Nat.lt_of_le_of_lt (Nat.sub_le _ _) hsent
  obtain ⟨s', m, k', e1, e2, e3, e4, e5, e6⟩ := h.store _ (.shuffle src.toNat dst.toNat 0 sent data) z (by rw [hz]) hw hex
    (fun _ t => t.readMem (x.desc.dst + i * x.desc.count * e) (e * n) = data ∧ t.readLe (x.desc.aux + 16 * i + 8) 4 = min sent x.desc.count
      ∧ t.readLe (x.desc.aux + 16 * i + 8 + 4) 4 = sent - x.desc.count
      ∧ ∀ a l, a + l ≤ x.desc.dst + i * x.desc.count * e ∨ x.desc.dst + i * x.desc.count * e + e * n ≤ a →
          a + l ≤ x.desc.aux + 16 * i + 8 ∨ x.desc.aux + 16 * i + 8 + 8 ≤ a → t.readMem a l = s.readMem a l) (by
    intro s' k'
    have e : s'.takeMsg c x (.shuffle src.toNat dst.toNat 0 sent data) = ((s'.setRun c z).writeMem (x.desc.dst + i * x.desc.count * e) data).writeMem
        (x.desc.aux + 16 * i + 8) (natLe 4 (min sent x.desc.count) ++ natLe 4 (sent - x.desc.count)) := by
      rw [(takeMsg_run s' c x _ h.phase).2.2.2.2.2.2 _ _ _ _ _ rfl, if_pos (by rw [k'.me]; exact hd)]
      unfold State.takeShuffle
      dsimp only
      have hgot : x.got.get 0 (gotKey 5 false src.toNat) = 0 := by rw [h.fields.got]; rfl
      rw [hgot, hup, ← hi, if_neg]
      · rw [if_pos rfl]
        unfold State.colStore
        dsimp only
        rw [if_neg (by rw [hop]; decide), h.fields.placed, hz]
        show State.writeMem (State.writeMem _ (x.desc.dst + (i * x.desc.count + 0) * x.outBytes) ((elemsLe e data).flatMap (natLe x.outBytes))) _ _ = _
        rw [hout, hback, Nat.add_zero]
      · rw [hlen, hop, hl]
        have h4 : e * n % e = 0 := Nat.mul_mod_right e n
        have hne : data ≠ [] := by
          intro q; rw [q] at hl
          have : 0 < e * n := Nat.mul_pos he0 hn
          simp at hl; omega
        simp [hs, h4, hne]
        omega
    rw [e]
    refine ⟨(memOnly_writeMem _ _ _).trans (memOnly_writeMem _ _ _), ?_, (hrow _ _).1, (hrow _ _).2, ?_⟩
    · rw [State.readMem_writeMem_other _ _ _ _ _ (by simp; omega), ← hl]
      exact State.readMem_writeMem _ _ _
    · intro a l h1 h2
      rw [State.readMem_writeMem_other _ _ _ _ _ (by simp; omega), State.readMem_writeMem_other _ _ _ _ _ (by rw [hl]; exact h1)]
      show s'.readMem a l = _
      rw [k'.rest]; rfl)
  refine ⟨m, z, e1, e2, ?_, e3, e4, e5, e6⟩
  rw [hz, hlen, Nat.zero_add]

end Sys2Proof.Machine
end

