-- ==== Sys2Proof/Laws/Engine.lean ====
section
/-!
SUPPORT. Laws/Engine.lean: what the rows of stack-engine commands, packed blocks and lists of elements leave in memory, and what writes of memory leave of the map of pages.
-/

namespace Sys2Proof.Machine

/-! elements (P18) -/
theorem elemsOf_length (w n : Nat) (bs : List Byte) : (elemsOf w n bs).length = n := by
  induction n generalizing bs with
  | zero => rfl
  | succ n ih => simp only [elemsOf, List.length_cons, ih]
theorem elemsOf_getElem (w n : Nat) (bs : List Byte) (i : Nat) (hi : i < n) : (elemsOf w n bs)[i]? = some (leNat ((bs.drop (w * i)).take w)) := by
  induction n generalizing bs i with
  | zero => omega
  | succ n ih =>
    cases i with
    | zero => simp [elemsOf]
    | succ i =>
      simp only [elemsOf, List.getElem?_cons_succ]
      rw [ih _ i (by omega), List.drop_drop]
      congr 3
      ring_nf
theorem readMem_len (s : State) (a n : Nat) : (s.readMem a n).length = n := by simp [State.readMem, SMap.getRange]
theorem readMem_take (s : State) (a n o w : Nat) (h : o + w ≤ n) : ((s.readMem a n).drop o).take w = s.readMem (a + o) w := by
  unfold State.readMem
  rw [SMap.getRange_eq, SMap.getRange_eq]
  apply List.ext_getElem
  · simp; omega
  · intro i h1 h2
    simp
    congr 1; omega
theorem flat_len (w : Nat) (l : List Nat) : (l.flatMap (natLe w)).length = w * l.length := by
  induction l with
  | nil => simp
  | cons a l ih => simp only [List.flatMap_cons, List.length_append, natLe_length, ih, List.length_cons]; ring
theorem flat_take (w : Nat) (l : List Nat) (i : Nat) (hi : i < l.length) : ((l.flatMap (natLe w)).drop (w * i)).take w = natLe w (l[i]) := by
  induction l generalizing i with
  | nil => simp at hi
  | cons a l ih =>
    cases i with
    | zero => simp [List.flatMap_cons, natLe_length]
    | succ i =>
      rw [List.flatMap_cons, List.drop_append, natLe_length, List.drop_of_length_le (by rw [natLe_length]; rw [Nat.mul_succ]; omega), List.nil_append, show w * (i + 1) - w = w * i from by rw [Nat.mul_succ]; omega]
      exact ih i (by simpa using hi)
theorem elems_read (x : State) (a w n : Nat) : elemsOf w n (x.readMem a (n * w)) = (List.range n).map (fun e => x.readLe (a + w * e) w) := by
  apply List.ext_getElem?
  intro i
  by_cases hi : i < n
  · rw [elemsOf_getElem _ _ _ _ hi, readMem_take _ _ _ _ _ (by rw [Nat.mul_comm n w, ← Nat.mul_succ]; exact Nat.mul_le_mul_left _ hi)]
    simp [hi, State.readLe]
  · rw [List.getElem?_eq_none (by rw [elemsOf_length]; omega), List.getElem?_eq_none (by simp; omega)]

theorem memSide_spec (s : State) (op : MsOp) (ty : MsTy) (a : Nat) (bs : List Byte) (hw : bs.length % msBytes ty = 0) :
    (∀ k, (k < a ∨ a + bs.length ≤ k) → (s.memSide op ty a bs).mem.bytes.get 0 k = s.mem.bytes.get 0 k)
    ∧ ∀ i, i < bs.length / msBytes ty → (s.memSide op ty a bs).readLe (a + msBytes ty * i) (msBytes ty)
        = msElem op ty (s.readLe (a + msBytes ty * i) (msBytes ty)) (leNat ((bs.drop (msBytes ty * i)).take (msBytes ty))) % 256 ^ msBytes ty := by
  have hpos : 0 < msBytes ty := by cases ty <;> decide
  have hdiv : msBytes ty * (bs.length / msBytes ty) = bs.length := Nat.mul_div_cancel' (Nat.dvd_of_mod_eq_zero hw)
  unfold State.memSide
  dsimp only
  generalize hnew : ((elemsOf (msBytes ty) (bs.length / msBytes ty) (s.readMem a bs.length)).zip (elemsOf (msBytes ty) (bs.length / msBytes ty) bs)).map (fun p => msElem op ty p.1 p.2) = new
  have hl : new.length = bs.length / msBytes ty := by rw [← hnew]; simp [elemsOf_length]
  have hfl : (new.flatMap (natLe (msBytes ty))).length = bs.length := by rw [flat_len, hl, hdiv]
  refine ⟨?_, ?_⟩
  · intro k hk; rw [State.byte_writeMem, if_neg (by rw [hfl]; omega)]
  · intro i hi
    have hb : msBytes ty * i + msBytes ty ≤ bs.length := by
      rw [← hdiv, ← Nat.mul_succ]; exact Nat.mul_le_mul_left _ hi
    have hr := State.readMem_writeMem s a (new.flatMap (natLe (msBytes ty)))
    rw [hfl] at hr
    unfold State.readLe
    rw [← readMem_take _ a bs.length (msBytes ty * i) (msBytes ty) hb, hr, flat_take _ _ _ (by omega), leNat_natLe]
    have hg : new[i]? = some (msElem op ty (leNat (s.readMem (a + msBytes ty * i) (msBytes ty))) (leNat ((bs.drop (msBytes ty * i)).take (msBytes ty)))) := by
      have hz : ((elemsOf (msBytes ty) (bs.length / msBytes ty) (s.readMem a bs.length)).zip (elemsOf (msBytes ty) (bs.length / msBytes ty) bs))[i]? = some (leNat (((s.readMem a bs.length).drop (msBytes ty * i)).take (msBytes ty)), leNat ((bs.drop (msBytes ty * i)).take (msBytes ty))) :=
        List.getElem?_zip_eq_some.2 ⟨elemsOf_getElem _ _ _ i hi, elemsOf_getElem _ _ _ i hi⟩
      rw [← hnew, List.getElem?_map, hz, readMem_take _ _ _ _ _ hb]
      rfl
    rw [List.getElem?_eq_getElem (by omega)] at hg
    rw [Option.some.inj hg]

/-! Same map of pages -/
def pageCore (x : PageSt) : Nat × PageWhere := (x.object, x.place)
def SameMap (s s' : State) : Prop :=
  (∃ b pg, s' = { s with mem := { s.mem with bytes := b, pages := pg } }) ∧ ∀ p, (s'.page p).map pageCore = (s.page p).map pageCore
theorem SameMap.refl (s : State) : SameMap s s := ⟨⟨_, _, rfl⟩, fun _ => rfl⟩
theorem SameMap.trans {a b c : State} (h : SameMap a b) (g : SameMap b c) : SameMap a c := by
  obtain ⟨⟨b1, p1, e1⟩, h2⟩ := h
  obtain ⟨⟨b2, p2, e2⟩, g2⟩ := g
  refine ⟨⟨b2, p2, ?_⟩, fun p => (g2 p).trans (h2 p)⟩
  rw [e2, e1]
theorem sameMap_touch (ps : List Nat) : ∀ s : State, SameMap s (s.touchPages ps) := by
  induction ps with
  | nil => intro s; exact SameMap.refl s
  | cons p ps ih =>
    intro s
    have e : s.touchPages (p :: ps) = (s.touchPages [p]).touchPages ps := rfl
    rw [e]
    refine SameMap.trans ?_ (ih _)
    show SameMap s (match s.page p with
    | some x => s.setPage p (some { x with written := true })
    | none => s)
    split
    · next x hx =>
      refine ⟨⟨s.mem.bytes, _, rfl⟩, ?_⟩
      intro q
      show ((s.mem.pages.set none p _).get none q).map pageCore = _
      rw [SMap.get_set]
      split
      · next hq => subst hq; rw [hx]; rfl
      · rfl
    · exact SameMap.refl s
theorem sameMap_writeMem (s : State) (a : Nat) (bs : List Byte) : SameMap s (s.writeMem a bs) := by
  unfold State.writeMem
  refine SameMap.trans ?_ (sameMap_touch _ _)
  exact ⟨⟨_, s.mem.pages, rfl⟩, fun _ => rfl⟩
theorem SameMap.checkPage {s s' : State} (h : SameMap s s') (w : Who) (p : Nat) : s'.checkPage w p = s.checkPage w p := by
  obtain ⟨⟨b, pg, e⟩, h2⟩ := h
  have hp := h2 p
  have hr : s'.rangePages = s.rangePages := by rw [e]; rfl
  have ho : ∀ q, s'.object q = s.object q := by intro q; rw [e]; rfl
  have hre : ∀ o, s'.reaches w o = s.reaches w o := by intro o; rw [e]; rfl
  clear e h2
  unfold State.checkPage
  rw [hr]
  cases h1 : s.page p <;> cases h3 : s'.page p <;> rw [h1, h3] at hp <;> simp [pageCore] at hp ⊢
  rw [hp.1, ho]
  simp only [hre]
theorem SameMap.checkRange {s s' : State} (h : SameMap s s') (w : Who) (a n : Nat) : s'.checkRange w a n = s.checkRange w a n := by
  unfold State.checkRange
  rw [show s'.checkPage w = s.checkPage w from funext (h.checkPage w)]
theorem SameMap.absentPages {s s' : State} (h : SameMap s s') (a n : Nat) : s'.absentPages a n = s.absentPages a n := by
  unfold State.absentPages
  congr 1
  funext p
  have hp := h.2 p
  clear h
  cases h1 : s.page p <;> cases h3 : s'.page p <;> rw [h1, h3] at hp <;> simp [pageCore, PageSt.isResident] at hp ⊢
  rw [hp.2]
theorem checkAccesses_none (s : State) (w : Who) (l : List (Nat × Nat)) (h : ∀ p ∈ l, s.checkRange w p.1 p.2 = none) : s.checkAccesses w l = none := by
  induction l with
  | nil => rfl
  | cons p l ih =>
    obtain ⟨a, n⟩ := p
    unfold State.checkAccesses
    rw [h (a, n) (by simp)]
    exact ih (fun q hq => h q (by simp [hq]))
theorem absentOf_nil (s : State) (l : List (Nat × Nat)) (h : ∀ p ∈ l, s.absentPages p.1 p.2 = []) : s.absentOf l = [] := by
  unfold State.absentOf
  have : l.flatMap (fun p => s.absentPages p.1 p.2) = [] := by
    rw [List.flatMap_eq_nil_iff]; exact h
  rw [this]; rfl
theorem SameMap.rest {s s' : State} (h : SameMap s s') : s'.tiles = s.tiles ∧ s'.dealers = s.dealers ∧ s'.sched = s.sched ∧ s'.outbox = s.outbox := by
  obtain ⟨⟨b, pg, e⟩, _⟩ := h
  rw [e]; exact ⟨rfl, rfl, rfl, rfl⟩

/-- the effect of a row as a state -/
def rowEff (c : SeFields) (s : State) (r : Nat) : State := match s.seRow c r with | .ok x => x | .error _ => s
theorem seRow_ok (c : SeFields) (h : c.op ≠ 9) (s : State) (r : Nat) : s.seRow c r = .ok (rowEff c s r) := by
  unfold rowEff State.seRow
  split <;> first | rfl | (exact absurd (by assumption) h)
theorem sameMap_fold {α : Type} (f : State → α → State) (h : ∀ s a, SameMap s (f s a)) (l : List α) : ∀ s, SameMap s (l.foldl f s) := by
  induction l with
  | nil => intro s; exact SameMap.refl s
  | cons a l ih => intro s; exact (h s a).trans (ih _)
theorem sameMap_rowEff (c : SeFields) (s : State) (r : Nat) : SameMap s (rowEff c s r) := by
  unfold rowEff State.seRow
  dsimp only
  split
  · next x hx =>
    split at hx
    · rw [← Except.ok.inj hx]; exact sameMap_writeMem _ _ _
    · rw [← Except.ok.inj hx]; exact sameMap_writeMem _ _ _
    · rw [← Except.ok.inj hx]; exact sameMap_writeMem _ _ _
    · rw [← Except.ok.inj hx]; exact sameMap_writeMem _ _ _
    · rw [← Except.ok.inj hx]
      unfold State.packRow
      refine sameMap_fold _ ?_ _ _
      intro s p
      dsimp only
      split
      · exact (sameMap_writeMem _ _ _).trans (sameMap_writeMem _ _ _)
      · exact (((sameMap_writeMem _ _ _).trans (sameMap_writeMem _ _ _)).trans (sameMap_writeMem _ _ _)).trans (sameMap_writeMem _ _ _)
    · rw [← Except.ok.inj hx]; exact sameMap_writeMem _ _ _
    · rw [← Except.ok.inj hx]; exact sameMap_writeMem _ _ _
    · split at hx
      · rw [← Except.ok.inj hx]; exact sameMap_writeMem _ _ _
      · cases hx
    · rw [← Except.ok.inj hx]; exact sameMap_writeMem _ _ _
  · exact SameMap.refl s

def rowsAfter (c : SeFields) (s : State) (n : Nat) : State := (List.range n).foldl (rowEff c) s
theorem rowsAfter_succ (c : SeFields) (s : State) (n : Nat) : rowsAfter c s (n + 1) = rowEff c (rowsAfter c s n) n := by
  unfold rowsAfter; rw [List.range_succ, List.foldl_append]; rfl
theorem sameMap_rowsAfter (c : SeFields) (s : State) (n : Nat) : SameMap s (rowsAfter c s n) := sameMap_fold _ (fun s a => sameMap_rowEff c s a) _ s
theorem seRows_rowsAfter (c : SeFields) (hc : c.op ≠ 9) (job : Nat) (l : List Nat) : ∀ (s : State),
    (∀ l1 r l2, l = l1 ++ r :: l2 → (l1.foldl (rowEff c) s).checkAccesses (seWho job) ((l1.foldl (rowEff c) s).seRowSpans c r) = none) →
    s.seRows job c l = (l.foldl (rowEff c) s, none) := by
  induction l with
  | nil => intro s _; rfl
  | cons r l ih =>
    intro s h
    unfold State.seRows
    rw [show s.checkAccesses (seWho job) (s.seRowSpans c r) = none from h [] r l rfl]
    dsimp only
    rw [seRow_ok c hc]
    dsimp only
    rw [ih]
    · rfl
    · intro l1 r' l2 e
      exact h (r :: l1) r' l2 (by rw [e]; rfl)
theorem range_split (n : Nat) (l1 l2 : List Nat) (r : Nat) (h : List.range n = l1 ++ r :: l2) : l1 = List.range r ∧ r < n := by
  have hr : r = l1.length := by
    have h1 : (List.range n)[l1.length]? = some r := by rw [h]; simp
    rw [List.getElem?_range] at h1
    · exact (Option.some.inj h1).symm
    · have := congrArg List.length h; simp at this; omega
  have hn : r < n := by have := congrArg List.length h; simp at this; omega
  refine ⟨?_, hn⟩
  have : l1 = (List.range n).take r := by rw [h, hr]; simp
  rw [this, List.take_range]
  congr 1; omega

theorem spans_eq (c : SeFields) (s s' : State) (r : Nat) (h : c.op = 8 → s'.gatherIx c r = s.gatherIx c r)
    (h9 : c.op = 9 → s'.descAt c.aux = s.descAt c.aux ∧ ∀ l a b, l = pageListOf (s.descAt c.aux) → a = bitsOf c.src 39 32 →
      b = bitsOf c.src 31 0 + r → s'.posAddr l a b = s.posAddr l a b) : s'.seRowSpans c r = s.seRowSpans c r := by
  unfold State.seRowSpans
  dsimp only
  split
  · rfl
  · rfl
  · rfl
  · rw [h (by assumption)]
  · next e =>
    obtain ⟨e1, e2⟩ := h9 e
    rw [e1, e2 _ _ _ rfl rfl rfl]
  · rfl
/-! index list is kept -/
theorem conv_len (c : SeFields) (d : Nat) (l : List Nat) : (seConvert c d l).length = l.length * dstWidth c := by
  unfold seConvert
  dsimp only
  have : ∀ (l : List Nat) n, ((l.zipIdx n).flatMap (fun p =>
    natLe (dstWidth c) (if c.srcFmt = c.dstFmt then p.1
      else encodeElem c.dstFmt (c.rnd (d + p.2 * dstWidth c)) (decodeElem c.srcFmt p.1 127)))).length = l.length * dstWidth c := by
    intro l
    induction l with
    | nil => intro n; simp
    | cons a l ih => intro n; simp only [List.zipIdx_cons, List.flatMap_cons, List.length_append, natLe_length, ih, List.length_cons]; ring
  exact this l 0
theorem conv_eq (c : SeFields) (d : Nat) (l : List Nat) : seConvert c d l = (l.zipIdx.map (fun p => if c.srcFmt = c.dstFmt then p.1
      else encodeElem c.dstFmt (c.rnd (d + p.2 * dstWidth c)) (decodeElem c.srcFmt p.1 127))).flatMap (natLe (dstWidth c)) := by
  unfold seConvert
  rw [List.flatMap_map]
/-- writing a list of elements -/
theorem elems_write (x : State) (a w n : Nat) (f : Nat → Nat) : 
    (∀ e < n, (x.writeMem a (((List.range n).map f).flatMap (natLe w))).readLe (a + w * e) w = f e % 256 ^ w)
    ∧ ∀ k, (k < a ∨ a + n * w ≤ k) → (x.writeMem a (((List.range n).map f).flatMap (natLe w))).mem.bytes.get 0 k = x.mem.bytes.get 0 k := by
  have hl : (((List.range n).map f).flatMap (natLe w)).length = w * n := by rw [flat_len]; simp
  refine ⟨?_, ?_⟩
  · intro e he
    have hr := State.readMem_writeMem x a (((List.range n).map f).flatMap (natLe w))
    rw [hl] at hr
    unfold State.readLe
    rw [← readMem_take _ a (w * n) (w * e) w (by rw [← Nat.mul_succ]; exact Nat.mul_le_mul_left _ he), hr, flat_take _ _ _ (by simp; exact he), leNat_natLe]
    simp
  · intro k hk
    rw [State.byte_writeMem, if_neg (by rw [hl, Nat.mul_comm]; omega)]
theorem zip_range (n : Nat) (g : Nat → Nat) (h : Nat → Nat → Nat) : (((List.range n).map g).zipIdx).map (fun p => h p.2 p.1) = (List.range n).map (fun e => h e (g e)) := by
  apply List.ext_getElem?
  intro i
  simp only [List.getElem?_map, List.getElem?_zipIdx]
  by_cases hi : i < n
  · simp [hi]
  · simp [hi]
theorem conv_range (c : SeFields) (d n : Nat) (g : Nat → Nat) : seConvert c d ((List.range n).map g) = ((List.range n).map (fun e => if c.srcFmt = c.dstFmt then g e
      else encodeElem c.dstFmt (c.rnd (d + e * dstWidth c)) (decodeElem c.srcFmt (g e) 127))).flatMap (natLe (dstWidth c)) := by
  rw [conv_eq]
  congr 1
  exact zip_range n g (fun e v => if c.srcFmt = c.dstFmt then v
      else encodeElem c.dstFmt (c.rnd (d + e * dstWidth c)) (decodeElem c.srcFmt v 127))
theorem gather_bits (p : Prop) [Decidable p] (x : State) (n a w : Nat) : (if p then List.replicate n 0 else elemsOf w n (x.readMem a (n * w))) = (List.range n).map (fun e => if p then 0 else x.readLe (a + w * e) w) := by
  by_cases h : p
  · simp only [h, if_true]; simp
  · simp only [h, if_false]; exact elems_read _ _ _ _
theorem rowEff_gather (c : SeFields) (x : State) (r : Nat) (h : c.op = 8) : rowEff c x r = x.writeMem (c.dst + r * c.dstLd) (((List.range c.rowLen).map (fun e =>
     if c.srcFmt = c.dstFmt then (if x.gatherIx c r = 0xFFFFFFFF then 0 else x.readLe (c.src + x.gatherIx c r * c.srcLd + srcWidth c * e) (srcWidth c)) else encodeElem c.dstFmt (c.rnd (c.dst + r * c.dstLd + e * dstWidth c)) (decodeElem c.srcFmt (if x.gatherIx c r = 0xFFFFFFFF then 0 else x.readLe (c.src + x.gatherIx c r * c.srcLd + srcWidth c * e) (srcWidth c)) 127))).flatMap (natLe (dstWidth c))) := by
  have h0 : x.seRow c r = .ok (x.writeMem (c.dst + r * c.dstLd) (seConvert c (c.dst + r * c.dstLd) (if x.gatherIx c r = 0xFFFFFFFF then List.replicate c.rowLen 0
      else elemsOf (srcWidth c) c.rowLen (x.readMem (c.src + x.gatherIx c r * c.srcLd) (c.rowLen * srcWidth c))))) := by
    unfold State.seRow; rw [h]; rfl
  unfold rowEff
  rw [h0, gather_bits, conv_range]

theorem gather_keep (c : SeFields) (s : State) (h8 : c.op = 8) (hd : ∀ r < c.rows, ∀ n < c.rows,
      c.dst + r * c.dstLd + c.rowLen * dstWidth c ≤ c.aux + 4 * n ∨ c.aux + 4 * n + 4 ≤ c.dst + r * c.dstLd) (n : Nat) (hn : n < c.rows) :
   ∀ r, r ≤ c.rows → (rowsAfter c s r).gatherIx c n = s.gatherIx c n := by
  intro r
  induction r with
  | zero => intro _; rfl
  | succ r ih =>
    intro hr
    rw [rowsAfter_succ, ← ih (by omega), rowEff_gather _ _ _ h8]
    unfold State.gatherIx State.readLe
    rw [State.readMem_writeMem_other]
    rw [flat_len]
    simp only [List.length_map, List.length_range]
    have := hd r (by omega) n hn
    rw [Nat.mul_comm (dstWidth c)]
    omega
theorem seRun_rows (s : State) (k job : Nat) (hand : Bool) (c : SeFields) (hv : c.valid hand = true) (ho : 1 ≤ c.op ∧ c.op ≤ 8)
   (ha : s.absentOf ((List.range c.rows).flatMap (fun r => s.seRowSpans c r)) = []) (s' : State) (hr : s.seRows job c (List.range c.rows) = (s', none)) :
   s.seRun k job hand c = .done s' := by
  unfold State.seRun
  have h9 : ¬ c.op = 9 := by omega
  have h9' : (c.op == 9) = false := by simp [h9]
  rw [if_neg (by rw [hv]; decide)]
  split
  · omega
  · omega
  · omega
  · omega
  · dsimp only
    rw [if_neg h9, if_neg h9, if_neg h9]
    rw [show s.checkAccesses (seWho job) [] = none from rfl]
    dsimp only
    rw [h9', Bool.false_and, if_neg (by decide)]
    have e : (fun r => if c.op = 9 then [(c.dst + r * c.dstLd, 128 * (pageListOf (s.descAt c.aux)).elemBytes)] else s.seRowSpans c r) = fun r => s.seRowSpans c r := by
      funext r; rw [if_neg h9]
    rw [e, List.nil_append, List.nil_append, ha]
    dsimp only
    rw [hr]

/-! packing -/
theorem chunk_eq {α : Type} (b : Nat) (hb : 0 < b) : ∀ (fuel : Nat) (l : List α), l.length < fuel → chunk b fuel l = (List.range (ceilDiv l.length b)).map (fun i => (l.drop (b * i)).take b) := by
  intro fuel
  induction fuel with
  | zero => intro l h; omega
  | succ fuel ih =>
    intro l hl
    unfold chunk
    cases l with
    | nil => 
      have : ceilDiv 0 b = 0 := by unfold ceilDiv; exact Nat.div_eq_of_lt (by omega)
      simp [this]
    | cons a l =>
      simp only [List.isEmpty_cons, Bool.false_eq_true, if_false]
      rw [ih _ (by rw [List.length_drop]; simp at hl ⊢; omega)]
      have : ceilDiv (a :: l).length b = ceilDiv ((a :: l).drop b).length b + 1 := by
        unfold ceilDiv
        rw [List.length_drop]
        simp only [List.length_cons]
        rw [← Nat.add_div_right _ hb]
        by_cases h : b ≤ l.length + 1
        · congr 1; omega
        · rw [show l.length + 1 - b = 0 by omega]
          rw [show l.length + 1 + b - 1 = l.length + b by omega, show 0 + b - 1 + b = (b - 1) + b by omega, Nat.add_div_right _ hb, Nat.add_div_right _ hb, Nat.div_eq_of_lt (by omega), Nat.div_eq_of_lt (by omega)]
      rw [this, List.range_succ_eq_map, List.map_cons, List.map_map]
      simp only [Nat.mul_zero, List.drop_zero]
      congr 1
      apply List.map_congr_left
      intro i _
      simp only [Function.comp, List.drop_drop]
      congr 2
      rw [Nat.mul_succ]; omega

def packStep (q : Nat → QBlock) (w A L S aux : Nat) (y : State) (i : Nat) : State :=
  let y1 := (y.writeMem (A + i * L) (natLe L (packBits w (q i).elems))).writeMem (S + i) (natLe 1 (q i).code)
  if aux = 0 then y1 else (y1.addInt32 aux (q i).sat).addInt32 (aux + 4) (q i).zero

theorem byte_natLe (s : State) (a n x k : Nat) (h : k < a ∨ a + n ≤ k) : (s.writeMem a (natLe n x)).mem.bytes.get 0 k = s.mem.bytes.get 0 k := by
  rw [State.byte_writeMem, natLe_length, if_neg (by omega)]
theorem byte_add (s : State) (a v k : Nat) (h : k < a ∨ a + 4 ≤ k) : (s.addInt32 a v).mem.bytes.get 0 k = s.mem.bytes.get 0 k := byte_natLe _ _ _ _ _ h
theorem readMem_ext (s s' : State) (a n : Nat) (h : ∀ k, a ≤ k → k < a + n → s'.mem.bytes.get 0 k = s.mem.bytes.get 0 k) : s'.readMem a n = s.readMem a n := by
  unfold State.readMem
  rw [SMap.getRange_eq, SMap.getRange_eq]
  apply List.map_congr_left
  intro i hi
  exact h _ (by omega) (by have := List.mem_range.1 hi; omega)

theorem pstep_fold (q : Nat → QBlock) (w A L S aux : Nat) (x : State) (n : Nat)
    (d1 : A + n * L ≤ S ∨ S + n ≤ A) (d2 : aux ≠ 0 → (A + n * L ≤ aux ∨ aux + 8 ≤ A) ∧ (S + n ≤ aux ∨ aux + 8 ≤ S)) :
    ∀ m, m ≤ n → let y := (List.range m).foldl (packStep q w A L S aux) x
      (∀ i < m, leNat (y.readMem (A + i * L) L) = packBits w (q i).elems % 256 ^ L ∧ y.readLe (S + i) 1 = (q i).code % 256)
      ∧ (aux ≠ 0 → y.readLe aux 4 = (x.readLe aux 4 + ((List.range m).map (fun i => (q i).sat)).sum) % 2 ^ 32
          ∧ y.readLe (aux + 4) 4 = (x.readLe (aux + 4) 4 + ((List.range m).map (fun i => (q i).zero)).sum) % 2 ^ 32)
      ∧ ∀ a, (a < A ∨ A + n * L ≤ a) → (a < S ∨ S + n ≤ a) → (aux = 0 ∨ a < aux ∨ aux + 8 ≤ a) → y.mem.bytes.get 0 a = x.mem.bytes.get 0 a := by
  intro m
  induction m with
  | zero =>
    intro _
    refine ⟨fun i hi => by omega, ?_, fun _ _ _ _ => rfl⟩
    intro _
    have b : ∀ a, x.readLe a 4 < 2 ^ 32 := by
      intro a
      have := leNat_lt (x.readMem a 4)
      rw [readMem_len] at this
      exact this
    simp
    exact ⟨(Nat.mod_eq_of_lt (b _)).symm, (Nat.mod_eq_of_lt (b _)).symm⟩
  | succ m ih =>
    intro hm y
    obtain ⟨h1, h2, h3⟩ := ih (by omega)
    have hy : y = packStep q w A L S aux ((List.range m).foldl (packStep q w A L S aux) x) m := by
      show (List.range (m + 1)).foldl _ x = _
      rw [List.range_succ, List.foldl_append]; rfl
    generalize (List.range m).foldl (packStep q w A L S aux) x = z at *
    clear_value y
    have hmul : m * L + L ≤ n * L := by rw [← Nat.succ_mul]; exact Nat.mul_le_mul_right _ hm
    -- bytes of the step
    have hb : ∀ a, (a < A + m * L ∨ A + m * L + L ≤ a) → (a ≠ S + m) → (aux = 0 ∨ a < aux ∨ aux + 8 ≤ a) → y.mem.bytes.get 0 a = z.mem.bytes.get 0 a := by
      intro a ha hs hx
      rw [hy]
      unfold packStep
      dsimp only
      split
      · rw [byte_natLe _ _ _ _ _ (by omega), byte_natLe _ _ _ _ _ (by omega)]
      · rw [byte_add _ _ _ _ (by omega), byte_add _ _ _ _ (by omega), byte_natLe _ _ _ _ _ (by omega), byte_natLe _ _ _ _ _ (by omega)]
    refine ⟨?_, ?_, ?_⟩
    · intro i hi
      by_cases hc : i < m
      · have hil : i * L + L ≤ m * L := by rw [← Nat.succ_mul]; exact Nat.mul_le_mul_right _ hc
        have e1 : y.readMem (A + i * L) L = z.readMem (A + i * L) L := readMem_ext _ _ _ _ (fun k k1 k2 => hb k (by omega) (by omega) (by by_cases ha : aux = 0; exact .inl ha; right; have := (d2 ha).1; omega))
        have e2 : y.readMem (S + i) 1 = z.readMem (S + i) 1 := readMem_ext _ _ _ _ (fun k k1 k2 => hb k (by omega) (by omega) (by by_cases ha : aux = 0; exact .inl ha; right; have := (d2 ha).2; omega))
        unfold State.readLe
        rw [e1, e2]
        exact h1 i hc
      · have hi' : i = m := by omega
        subst hi'
        have key : ∃ y0, y0 = (z.writeMem (A + i * L) (natLe L (packBits w (q i).elems))).writeMem (S + i) (natLe 1 (q i).code) ∧ y.readMem (A + i * L) L = y0.readMem (A + i * L) L ∧ y.readMem (S + i) 1 = y0.readMem (S + i) 1 := by
          refine ⟨_, rfl, ?_, ?_⟩
          all_goals
            apply readMem_ext
            intro k k1 k2
            rw [hy]
            unfold packStep
            dsimp only
            split
            · rfl
            · next ha =>
              have := d2 ha
              rw [byte_add _ _ _ _ (by omega), byte_add _ _ _ _ (by omega)]
        obtain ⟨y0, e0, k1, k2⟩ := key
        unfold State.readLe
        rw [k1, k2, e0]
        refine ⟨?_, ?_⟩
        · rw [State.readMem_writeMem_other _ _ _ _ _ (by rw [natLe_length]; omega)]
          have := State.readMem_writeMem z (A + i * L) (natLe L (packBits w (q i).elems))
          rw [natLe_length] at this
          rw [this, leNat_natLe]
        · have := State.readMem_writeMem (z.writeMem (A + i * L) (natLe L (packBits w (q i).elems))) (S + i) (natLe 1 (q i).code)
          rw [natLe_length] at this
          rw [this, leNat_natLe]; rfl
    · intro ha
      obtain ⟨da, db⟩ := d2 ha
      obtain ⟨i1, i2⟩ := h2 ha
      have hz : ∀ c, (c = aux ∨ c = aux + 4) → ((z.writeMem (A + m * L) (natLe L (packBits w (q m).elems))).writeMem (S + m) (natLe 1 (q m).code)).readLe c 4 = z.readLe c 4 := by
        intro c hc
        unfold State.readLe
        rw [readMem_ext]
        intro k k1 k2
        rw [byte_natLe _ _ _ _ _ (by omega), byte_natLe _ _ _ _ _ (by omega)]
      have e : y = (((z.writeMem (A + m * L) (natLe L (packBits w (q m).elems))).writeMem (S + m) (natLe 1 (q m).code)).addInt32 aux (q m).sat).addInt32 (aux + 4) (q m).zero := by
        rw [hy]; unfold packStep; dsimp only; rw [if_neg ha]
      generalize (z.writeMem (A + m * L) (natLe L (packBits w (q m).elems))).writeMem (S + m) (natLe 1 (q m).code) = y0 at *
      rw [e]
      unfold State.addInt32
      rw [List.range_succ, List.map_append, List.sum_append, List.map_append, List.sum_append]
      refine ⟨?_, ?_⟩
      · rw [State.readLe_writeLe_other _ _ _ _ _ _ (by omega), State.readLe_writeLe, hz _ (.inl rfl), i1]
        simp
        omega
      · rw [State.readLe_writeLe, State.readLe_writeLe_other _ _ _ _ _ _ (by omega), hz _ (.inr rfl), i2]
        simp
        omega
    · intro a a1 a2 a3
      rw [hb a (by omega) (by omega) a3, h3 a a1 a2 a3]

theorem blockLen_pos (f : Bool) : 0 < blockLen f ∧ 8 ∣ blockLen f := by cases f <;> decide
theorem foldl_congr_mem {α β : Type} (f g : β → α → β) (l : List α) (h : ∀ b, ∀ a ∈ l, f b a = g b a) : ∀ b, l.foldl f b = l.foldl g b := by
  induction l with
  | nil => intro b; rfl
  | cons a l ih =>
    intro b
    rw [List.foldl_cons, List.foldl_cons, h b a (by simp)]
    exact ih (fun b a ha => h b a (by simp [ha])) _
theorem fold_zip {α β : Type} (n : Nat) (L : Nat → α) (f : β → α × Nat → β) (x : β) : (((List.range n).map L).zipIdx).foldl f x = (List.range n).foldl (fun y i => f y (L i, i)) x := by
  have : ((List.range n).map L).zipIdx = (List.range n).map (fun i => (L i, i)) := by
    apply List.ext_getElem?
    intro i
    simp only [List.getElem?_map, List.getElem?_zipIdx]
    by_cases hi : i < n
    · simp [hi]
    · simp [hi]
  rw [this, List.foldl_map]

theorem pack_fold (c : SeFields) (x : State) (r : Nat) (hb : c.rowLen % blockLen c.fine = 0) :
   x.packRow c r = (List.range (c.rowLen / blockLen c.fine)).foldl (packStep (fun i => quantBlock c.dstFmt ((List.range (blockLen c.fine)).map (fun v =>
              (decodeElem c.srcFmt (x.readLe (c.src + r * c.srcLd + srcWidth c * (i * blockLen c.fine + v)) (srcWidth c)) 127,
                if c.stoch then .sr (srBits c.seed 1 ((c.dst + r * c.dstLd) * 8 + (i * blockLen c.fine + v) * fmtBits c.dstFmt)) else .rne)))) (fmtBits c.dstFmt) (c.dst + r * c.dstLd) (blockLen c.fine * fmtBits c.dstFmt / 8) (scaleRow c r) c.aux) x := by
  obtain ⟨hp, h8⟩ := blockLen_pos c.fine
  unfold State.packRow
  dsimp only
  rw [elems_read, List.map_map, chunk_eq _ hp _ _ (by simp), List.length_map, List.length_range, fold_zip]
  have hd := Nat.div_mul_cancel (Nat.dvd_of_mod_eq_zero hb)
  generalize blockLen c.fine = b at *
  have hc : ceilDiv c.rowLen b = c.rowLen / b := by
    unfold ceilDiv
    have : c.rowLen = b * (c.rowLen / b) := by rw [Nat.mul_comm]; exact hd.symm
    rw [show c.rowLen + b - 1 = (b - 1) + b * (c.rowLen / b) by omega, Nat.add_mul_div_left _ _ hp, Nat.div_eq_of_lt (by omega)]; omega
  rw [hc]
  apply foldl_congr_mem
  intro y i hi
  have hi := List.mem_range.1 hi
  have hib : i * b + b ≤ c.rowLen := by rw [← hd, ← Nat.succ_mul]; exact Nat.mul_le_mul_right _ hi
  unfold packStep
  dsimp only
  have eq : ((((List.range c.rowLen).map ((fun x => decodeElem c.srcFmt x 127) ∘ fun e => x.readLe (c.src + r * c.srcLd + srcWidth c * e) (srcWidth c))).drop (b * i)).take b).zipIdx.map (fun v => (v.1, if c.stoch = true then Rnd.sr (srBits c.seed 1 ((c.dst + r * c.dstLd) * 8 + (i * b + v.2) * fmtBits c.dstFmt)) else .rne))
      = (List.range b).map (fun v => (decodeElem c.srcFmt (x.readLe (c.src + r * c.srcLd + srcWidth c * (i * b + v)) (srcWidth c)) 127,
                if c.stoch then Rnd.sr (srBits c.seed 1 ((c.dst + r * c.dstLd) * 8 + (i * b + v) * fmtBits c.dstFmt)) else .rne)) := by
    apply List.ext_getElem?
    intro v
    simp only [List.getElem?_map, List.getElem?_zipIdx, List.getElem?_take, List.getElem?_drop]
    by_cases hv : v < b
    · have : i * b + v < c.rowLen := by omega
      simp [hv, this, Nat.mul_comm b i]
    · simp [hv]
  rw [eq]
  obtain ⟨k, rfl⟩ := h8
  have e1 : i * (8 * k) * fmtBits c.dstFmt / 8 = i * (8 * k * fmtBits c.dstFmt / 8) := by
    rw [show 8 * k * fmtBits c.dstFmt = 8 * (k * fmtBits c.dstFmt) by ring, show i * (8 * k) * fmtBits c.dstFmt = 8 * (i * (k * fmtBits c.dstFmt)) by ring, Nat.mul_div_cancel_left _ (by norm_num), Nat.mul_div_cancel_left _ (by norm_num)]
  rw [e1]

theorem valid_part (c : SeFields) (hand : Bool) (h : c.valid hand = true) (h6 : c.op = 6 ∨ c.op = 7) : c.rowLen % blockLen c.fine = 0 := by
  unfold SeFields.valid SeFields.partialBlock at h
  simp at h
  rcases h6 with h6 | h6 <;> · have := h.2; simp [h6] at this; exact this
theorem valid_fmt (c : SeFields) (hand : Bool) (h : c.valid hand = true) : c.fmtOk = true := by
  unfold SeFields.valid at h
  simp at h
  exact h.1.2

/-- memory-side rows -/
theorem mem_row (x : State) (op : MsOp) (ty : MsTy) (d a n w : Nat) (hw : msBytes ty = w) :
   (∀ e < n, (x.memSide op ty d (x.readMem a (n * w))).readLe (d + w * e) w = msElem op ty (x.readLe (d + w * e) w) (x.readLe (a + w * e) w) % 256 ^ w)
    ∧ ∀ k, (k < d ∨ d + n * w ≤ k) → (x.memSide op ty d (x.readMem a (n * w))).mem.bytes.get 0 k = x.mem.bytes.get 0 k := by
  subst hw
  have hpos : 0 < msBytes ty := by cases ty <;> decide
  obtain ⟨h1, h2⟩ := memSide_spec x op ty d (x.readMem a (n * msBytes ty)) (by rw [readMem_len]; exact Nat.mul_mod_left _ _)
  rw [readMem_len] at h1 h2
  rw [Nat.mul_div_cancel _ hpos] at h2
  refine ⟨?_, h1⟩
  intro e he
  rw [h2 e he, readMem_take _ _ _ _ _ (by rw [Nat.mul_comm n, ← Nat.mul_succ]; exact Nat.mul_le_mul_left _ he)]
  rfl

end Sys2Proof.Machine
end

