-- ==== Sys2Proof/Laws/Update.lean ====
section
/-!
SUPPORT. Laws/Update.lean: what the sign update leaves in memory, element by element and row by row.
-/

namespace Sys2Proof.Machine

theorem byte_writeLe_other (s : State) (a n x k : Nat) (h : k < a ∨ a + n ≤ k) : (s.writeLe a n x).mem.bytes.get 0 k = s.mem.bytes.get 0 k := by
  rw [State.byte_writeLe, if_neg (by omega)]
theorem readLe_ext (s s' : State) (a n : Nat) (h : ∀ k, a ≤ k → k < a + n → s'.mem.bytes.get 0 k = s.mem.bytes.get 0 k) : s'.readLe a n = s.readLe a n := by
  unfold State.readLe; rw [readMem_ext s s' a n h]

/-- element i's value is stored -/
def putAt (u : UpdGroup) (m : State) (i x : Nat) : Prop := m.readLe (u.hi + 2 * i) 2 = x / 256 % 65536 ∧ m.readLe (u.ext + i) 1 = x % 256
def outAt (u : UpdGroup) (i a : Nat) : Prop := (a < u.hi + 2 * i ∨ u.hi + 2 * i + 2 ≤ a) ∧ a ≠ u.ext + i
def rndAt (u : UpdGroup) (i : Nat) : Rnd := if u.stoch then .sr (srBits (updSeed u) 1 ((u.hi + 2 * i) * 8)) else .rne

theorem updPut_spec (s : State) (u : UpdGroup) (i : Nat) (v : FV) (n : Nat) (hi : i < n) (hd : u.hi + 2 * n ≤ u.ext ∨ u.ext + n ≤ u.hi) :
    putAt u (s.updPut u i v) i (rnd24 (rndAt u i) v) ∧ ∀ a, outAt u i a → (s.updPut u i v).mem.bytes.get 0 a = s.mem.bytes.get 0 a := by
  unfold State.updPut
  dsimp only
  refine ⟨⟨?_, ?_⟩, ?_⟩
  · rw [State.readLe_writeLe_other _ _ _ _ _ _ (by omega), State.readLe_writeLe]; rfl
  · rw [State.readLe_writeLe]
    show _ % 256 % 256 ^ 1 = _
    rw [pow_one, Nat.mod_mod]; rfl
  · intro a ⟨h1, h2⟩
    rw [byte_writeLe_other _ _ _ _ _ (by omega), byte_writeLe_other _ _ _ _ _ (by omega)]

/-- fold of element updates -/
theorem put_fold (u : UpdGroup) (n : Nat) (hd : u.hi + 2 * n ≤ u.ext ∨ u.ext + n ≤ u.hi) (F : State → Nat → FV)
    (hF : ∀ s s' : State, ∀ i < n, (∀ a, (u.hi + 2 * i ≤ a ∧ a < u.hi + 2 * i + 2 ∨ a = u.ext + i ∨ (a < u.hi ∨ u.hi + 2 * n ≤ a) ∧ (a < u.ext ∨ u.ext + n ≤ a)) → s'.mem.bytes.get 0 a = s.mem.bytes.get 0 a) → F s' i = F s i) :
    ∀ (L : List Nat) (s : State), L.Nodup → (∀ i ∈ L, i < n) →
      (∀ i ∈ L, putAt u (L.foldl (fun s i => s.updPut u i (F s i)) s) i (rnd24 (rndAt u i) (F s i)))
      ∧ ∀ a, (∀ i ∈ L, outAt u i a) → (L.foldl (fun s i => s.updPut u i (F s i)) s).mem.bytes.get 0 a = s.mem.bytes.get 0 a := by
  intro L
  induction L with
  | nil => intro s _ _; exact ⟨by simp, fun _ _ => rfl⟩
  | cons i L ih =>
    intro s hn hl
    rw [List.foldl_cons]
    obtain ⟨hni, hnL⟩ := List.nodup_cons.1 hn
    obtain ⟨p1, p2⟩ := updPut_spec s u i (F s i) n (hl i (by simp)) hd
    generalize s.updPut u i (F s i) = s1 at *
    obtain ⟨q1, q2⟩ := ih s1 hnL (fun j hj => hl j (by simp [hj]))
    generalize L.foldl (fun s i => s.updPut u i (F s i)) s1 = y at *
    have hin := hl i (by simp)
    have hF1 : ∀ j ∈ L, F s1 j = F s j := by
      intro j hj
      have hjn := hl j (by simp [hj])
      have hij : i ≠ j := fun e => hni (e ▸ hj)
      apply hF s s1 j hjn
      intro a ha
      apply p2
      unfold outAt
      omega
    refine ⟨?_, ?_⟩
    · intro j hj
      rcases List.mem_cons.1 hj with rfl | hj
      · obtain ⟨a1, a2⟩ := p1
        have ho : ∀ a, (u.hi + 2 * j ≤ a ∧ a < u.hi + 2 * j + 2 ∨ a = u.ext + j) → y.mem.bytes.get 0 a = s1.mem.bytes.get 0 a := by
          intro a ha
          apply q2
          intro i' hi'
          have := hl i' (by simp [hi'])
          have : j ≠ i' := fun e => hni (e ▸ hi')
          unfold outAt
          omega
        refine ⟨?_, ?_⟩
        · rw [readLe_ext s1 y _ _ (fun k k1 k2 => ho k (by omega))]; exact a1
        · rw [readLe_ext s1 y _ _ (fun k k1 k2 => ho k (by omega))]; exact a2
      · rw [← hF1 j hj]; exact q1 j hj
    · intro a ha
      rw [q2 a (fun j hj => ha j (by simp [hj])), p2 a (ha i (by simp))]

theorem updVal_congr (s s' : State) (u : UpdGroup) (i : Nat) (h : ∀ a, (u.hi + 2 * i ≤ a ∧ a < u.hi + 2 * i + 2 ∨ a = u.ext + i) → s'.mem.bytes.get 0 a = s.mem.bytes.get 0 a) : s'.updVal u i = s.updVal u i := by
  unfold State.updVal
  rw [readLe_ext s s' _ _ (fun k k1 k2 => h k (by omega)), readLe_ext s s' _ _ (fun k k1 k2 => h k (by omega))]
theorem updGrad_congr (s s' : State) (u : UpdGroup) (i n : Nat) (hi : i < n) (h : ∀ a, u.g ≤ a → a < u.g + n * (if u.gFp32 then 4 else 2) → s'.mem.bytes.get 0 a = s.mem.bytes.get 0 a) : s'.updGrad u i = s.updGrad u i := by
  unfold State.updGrad
  cases hg : u.gFp32
  · simp only [hg, Bool.false_eq_true, if_false] at h ⊢
    rw [readLe_ext s s' _ _ (fun k k1 k2 => h k (by omega) (by omega))]
  · simp only [hg, if_true] at h ⊢
    rw [readLe_ext s s' _ _ (fun k k1 k2 => h k (by omega) (by omega))]

theorem updRow_spec (s : State) (u : UpdGroup) (r n : Nat) (hr : (r + 1) * u.rowLen ≤ n) (hd : u.hi + 2 * n ≤ u.ext ∨ u.ext + n ≤ u.hi)
    (st : Nat) (hst : st = u.aux + 128 + 4 * r) (h1 : st + 4 ≤ u.hi ∨ u.hi + 2 * n ≤ st) (h2 : st + 4 ≤ u.ext ∨ u.ext + n ≤ st)
    (gn : Nat) (hgn : gn = n * (if u.gFp32 then 4 else 2)) (g1 : u.g + gn ≤ u.hi ∨ u.hi + 2 * n ≤ u.g) (g2 : u.g + gn ≤ u.ext ∨ u.ext + n ≤ u.g) (hstep : u.step < 2 ^ 32) :
    (s.updRow u r).readLe st 4 = u.step
    ∧ (∀ e, r * u.rowLen ≤ e → e < (r + 1) * u.rowLen → putAt u (s.updRow u r) e (rnd24 (rndAt u e) (((s.updVal u e).mul (s.rowDecay u r)).sub ((val32 u.eta).mul (signVal (s.updGrad u e))))))
    ∧ ∀ a, (a < st ∨ st + 4 ≤ a) → (∀ e, r * u.rowLen ≤ e → e < (r + 1) * u.rowLen → outAt u e a) → (s.updRow u r).mem.bytes.get 0 a = s.mem.bytes.get 0 a := by
  unfold State.updRow
  dsimp only
  rw [← hst]
  have hm : ∀ e, e ∈ (List.range u.rowLen).map (· + r * u.rowLen) ↔ r * u.rowLen ≤ e ∧ e < (r + 1) * u.rowLen := by
    intro e
    rw [Nat.succ_mul]
    simp only [List.mem_map, List.mem_range]
    constructor
    · rintro ⟨i, hi, rfl⟩; omega
    · rintro ⟨a, b⟩; exact ⟨e - r * u.rowLen, by omega, by omega⟩
  obtain ⟨p1, p2⟩ := put_fold u n hd (fun s' i => ((s'.updVal u i).mul (s.rowDecay u r)).sub ((val32 u.eta).mul (signVal (s'.updGrad u i)))) (by
    intro s1 s2 i hi h
    rw [updVal_congr s1 s2 u i (fun a ha => h a (by omega)), updGrad_congr s1 s2 u i n hi (fun a a1 a2 => h a (by rw [← hgn] at a2; omega))])
    ((List.range u.rowLen).map (· + r * u.rowLen)) s (List.Nodup.map (fun a b h => by simpa using h) List.nodup_range) (fun e he => by have := (hm e).1 he; omega)
  generalize ((List.range u.rowLen).map (· + r * u.rowLen)).foldl _ s = y at *
  refine ⟨?_, ?_, ?_⟩
  · rw [State.readLe_writeLe]; exact Nat.mod_eq_of_lt hstep
  · intro e e1 e2
    obtain ⟨a1, a2⟩ := p1 e ((hm e).2 ⟨e1, e2⟩)
    exact ⟨by rw [State.readLe_writeLe_other _ _ _ _ _ _ (by omega)]; exact a1, by rw [State.readLe_writeLe_other _ _ _ _ _ _ (by omega)]; exact a2⟩
  · intro a a1 a2
    rw [byte_writeLe_other _ _ _ _ _ a1]
    exact p2 a (fun e he => a2 e ((hm e).1 he).1 ((hm e).1 he).2)

theorem rowDecay_congr (s s' : State) (u : UpdGroup) (r rows : Nat) (hr : r < rows) (h : ∀ a, (u.aux ≤ a ∧ a < u.aux + 128 ∨ u.aux + 128 + 4 * r ≤ a ∧ a < u.aux + 128 + 4 * r + 4) → s'.mem.bytes.get 0 a = s.mem.bytes.get 0 a) : s'.rowDecay u r = s.rowDecay u r := by
  unfold State.rowDecay
  dsimp only
  rw [readLe_ext s s' _ _ (fun k k1 k2 => h k (by omega))]
  apply foldl_congr_mem
  intro p i hi
  have := List.mem_range.1 hi
  rw [readLe_ext s s' _ _ (fun k k1 k2 => h k (by omega))]

theorem rows_fold (u : UpdGroup) (n rows : Nat) (hn : rows * u.rowLen = n) (hd : u.hi + 2 * n ≤ u.ext ∨ u.ext + n ≤ u.hi)
    (an : Nat) (han : an = 128 + 4 * rows) (h1 : u.aux + an ≤ u.hi ∨ u.hi + 2 * n ≤ u.aux) (h2 : u.aux + an ≤ u.ext ∨ u.ext + n ≤ u.aux)
    (gn : Nat) (hgn : gn = n * (if u.gFp32 then 4 else 2)) (g1 : u.g + gn ≤ u.hi ∨ u.hi + 2 * n ≤ u.g) (g2 : u.g + gn ≤ u.ext ∨ u.ext + n ≤ u.g)
    (g3 : u.g + gn ≤ u.aux ∨ u.aux + an ≤ u.g) (hstep : u.step < 2 ^ 32) :
   ∀ (L : List Nat) (s : State), L.Nodup → (∀ r ∈ L, r < rows) →
    (∀ r ∈ L, (L.foldl (fun s r => s.updRow u r) s).readLe (u.aux + 128 + 4 * r) 4 = u.step
      ∧ ∀ e, r * u.rowLen ≤ e → e < (r + 1) * u.rowLen → putAt u (L.foldl (fun s r => s.updRow u r) s) e (rnd24 (rndAt u e) (((s.updVal u e).mul (s.rowDecay u r)).sub ((val32 u.eta).mul (signVal (s.updGrad u e))))))
    ∧ ∀ a, (∀ r ∈ L, (a < u.aux + 128 + 4 * r ∨ u.aux + 128 + 4 * r + 4 ≤ a) ∧ (∀ e, r * u.rowLen ≤ e → e < (r + 1) * u.rowLen → outAt u e a)) → (L.foldl (fun s r => s.updRow u r) s).mem.bytes.get 0 a = s.mem.bytes.get 0 a := by
  have hrow : ∀ r < rows, (r + 1) * u.rowLen ≤ n := by intro r hr; rw [← hn]; exact Nat.mul_le_mul_right _ hr
  have hlt : ∀ r r' : Nat, r < r' → (r + 1) * u.rowLen ≤ r' * u.rowLen := by intro r r' h; exact Nat.mul_le_mul_right _ h
  intro L
  induction L with
  | nil => intro s _ _; exact ⟨by simp, fun _ _ => rfl⟩
  | cons r L ih =>
    intro s hnd hl
    rw [List.foldl_cons]
    obtain ⟨hni, hnL⟩ := List.nodup_cons.1 hnd
    have hr := hl r (by simp)
    have hrn := hrow r hr
    obtain ⟨p0, p1, p2⟩ := updRow_spec s u r n hrn hd _ rfl (by omega) (by omega) gn hgn g1 g2 hstep
    generalize s.updRow u r = s1 at *
    obtain ⟨q1, q2⟩ := ih s1 hnL (fun j hj => hl j (by simp [hj]))
    generalize L.foldl (fun s r => s.updRow u r) s1 = y at *
    have disj : ∀ r', r' ≠ r → r' < rows → ∀ e e', r * u.rowLen ≤ e → e < (r + 1) * u.rowLen → r' * u.rowLen ≤ e' → e' < (r' + 1) * u.rowLen → e ≠ e' := by
      intro r' hne hr' e e' a b c d h
      rcases Nat.lt_or_gt_of_ne hne with h1 | h1
      · have := hlt r' r h1; omega
      · have := hlt r r' h1; omega
    refine ⟨?_, ?_⟩
    · intro r' hr'
      rcases List.mem_cons.1 hr' with rfl | hr'
      · have hk : ∀ a, (u.aux + 128 + 4 * r' ≤ a ∧ a < u.aux + 128 + 4 * r' + 4 ∨ ∃ e, r' * u.rowLen ≤ e ∧ e < (r' + 1) * u.rowLen ∧ ((u.hi + 2 * e ≤ a ∧ a < u.hi + 2 * e + 2) ∨ a = u.ext + e)) → y.mem.bytes.get 0 a = s1.mem.bytes.get 0 a := by
          intro a ha
          apply q2
          intro r'' hr''
          have hne : r'' ≠ r' := fun e => hni (e ▸ hr'')
          have hr2 := hl r'' (by simp [hr''])
          have hrn2 := hrow r'' hr2
          rcases ha with ha | ⟨e, e1, e2, ha⟩
          · refine ⟨by omega, ?_⟩
            intro e e1 e2
            unfold outAt; omega
          · refine ⟨by omega, ?_⟩
            intro e' e1' e2'
            have := disj r'' hne hr2 e e' e1 e2 e1' e2'
            unfold outAt; omega
        refine ⟨by rw [readLe_ext s1 y _ _ (fun k k1 k2 => hk k (by omega))]; exact p0, ?_⟩
        intro e e1 e2
        obtain ⟨a1, a2⟩ := p1 e e1 e2
        exact ⟨by rw [readLe_ext s1 y _ _ (fun k k1 k2 => hk k (.inr ⟨e, e1, e2, by omega⟩))]; exact a1, by rw [readLe_ext s1 y _ _ (fun k k1 k2 => hk k (.inr ⟨e, e1, e2, by omega⟩))]; exact a2⟩
      · obtain ⟨z1, z2⟩ := q1 r' hr'
        refine ⟨z1, ?_⟩
        have hne : r' ≠ r := fun e => hni (e ▸ hr')
        have hr2 := hl r' (by simp [hr'])
        have hrn2 := hrow r' hr2
        intro e e1 e2
        have := z2 e e1 e2
        rw [updVal_congr s s1 u e (fun a ha => p2 a (by omega) (fun e' e1' e2' => by have := disj r' hne hr2 e' e e1' e2' e1 e2; unfold outAt; omega)),
          updGrad_congr s s1 u e n (by omega) (fun a a1 a2 => p2 a (by rw [← hgn] at a2; omega) (fun e' e1' e2' => by rw [← hgn] at a2; unfold outAt; omega)),
          rowDecay_congr s s1 u r' rows hr2 (fun a ha => p2 a (by omega) (fun e' e1' e2' => by unfold outAt; omega))] at this
        exact this
    · intro a ha
      rw [q2 a (fun j hj => ha j (by simp [hj])), p2 a (ha r (by simp)).1 (ha r (by simp)).2]

theorem fieldLe_bound (bs : List Byte) (o n : Nat) : Machine.fieldLe bs o n < 256 ^ n := by
  unfold Machine.fieldLe
  refine (leNat_lt _).trans_le (Nat.pow_le_pow_right (by norm_num) ?_)
  simp

theorem seRun_upd (s : State) (k job : Nat) (c : SeFields) (hv : c.valid false = true) (ho : c.op = 0x10)
   (hu : updValid (s.readMem c.aux 128) = true)
   (h0 : s.checkAccesses (seWho job) [(c.aux, 128)] = none)
   (h1 : s.checkAccesses (seWho job) (updSpans c.aux (updOf (s.readMem c.aux 128))) = none)
   (ha : s.absentOf (updSpans c.aux (updOf (s.readMem c.aux 128))) = []) :
   s.seRun k job false c = .done (s.updatePart k c.aux (updOf (s.readMem c.aux 128))) := by
  unfold State.seRun
  rw [if_neg (by rw [hv]; decide)]
  split
  · omega
  · dsimp only
    rw [h0]
    dsimp only
    rw [if_neg (by rw [hu]; decide), h1]
    dsimp only
    rw [ha]
  · omega
  · omega
  · contradiction

theorem sameMap_updPut (s : State) (u : UpdGroup) (i : Nat) (v : FV) : SameMap s (s.updPut u i v) := (sameMap_writeMem _ _ _).trans (sameMap_writeMem _ _ _)
theorem sameMap_updRow (s : State) (u : UpdGroup) (r : Nat) : SameMap s (s.updRow u r) := by
  unfold State.updRow
  exact (sameMap_fold _ (fun s i => sameMap_updPut s u i _) _ _).trans (sameMap_writeMem _ _ _)
theorem sameMap_updatePart (s : State) (k g : Nat) (u : UpdGroup) : SameMap s (s.updatePart k g u) := by
  unfold State.updatePart
  split
  · exact (sameMap_fold _ (fun s i => sameMap_updPut s u i _) _ _).trans (sameMap_writeMem _ _ _)
  · exact (sameMap_fold _ (fun s r => sameMap_updRow s u r) _ _).trans (sameMap_writeMem _ _ _)

theorem direct_step (s : State) (k : Stack) (src : SeSrc) (job : Nat) (hand : Bool) (cmd : BitVec 512) (fin : State → State)
   (hsrc : (src = .conductor job cmd ∧ hand = false ∧ fin = id)
      ∨ (∃ q rest, src = .queued ∧ (s.stack k).queue = q :: rest ∧ q.done = false ∧ q.job = job ∧ q.tile.isSome = hand ∧ q.cmd = cmd
          ∧ fin = fun m => m.modStack k (fun x =>
              { x with queue := { q with done := true, waiting := false } :: x.queue.drop 1 }))) (m : State)
   (h : s.seRun k job hand (seOf cmd) = .done m) : seStep (seOf cmd).op k src s = fin m := by
  rcases hsrc with ⟨rfl, rfl, rfl⟩ | ⟨q, rest, rfl, hq, hqd, rfl, rfl, rfl, rfl⟩
  · show s.seDirect _ k job cmd = _
    unfold State.seDirect
    rw [if_neg (by simp), h]; rfl
  · show s.seFront _ k = _
    unfold State.seFront
    rw [hq]
    dsimp only
    rw [if_neg (by simp [hqd]), h]

theorem touched_iff (s : State) (u : UpdGroup) (i : Nat) (hm : u.mask < 4) : s.touched u i = true ↔ (u.mask = 0 ∨ (u.mask = 1 ∧ bitOf (s.readLe (u.maskBase + 8 * (i / 64)) 8) (i % 64) = true) ∨ (u.mask = 2 ∧ bitOf (s.readLe (u.maskBase + 8 * ((i / u.rowLen) / 64)) 8) ((i / u.rowLen) % 64) = true)
      ∨ (u.mask = 3 ∧ s.readLe (u.maskBase + 4 * (i / u.rowLen)) 4 ≠ 0)) := by
  unfold State.touched
  have : u.mask = 0 ∨ u.mask = 1 ∨ u.mask = 2 ∨ u.mask = 3 := by omega
  rcases this with h | h | h | h <;> rw [h] <;> simp

end Sys2Proof.Machine
end

