-- ==== Sys2Proof/Laws/Codec.lean ====
section
/-!
SUPPORT. Laws/Codec.lean: streams, frame buffers and the words of a stream's descriptor.
-/

namespace Sys2Proof.Machine

theorem engine_setEngine (s : State) (e u : Nat) (x : EngineSt) : (s.setEngine e x).engine u = if u = e then x else s.engine u := SMap.get_set _ _ _ _ _
theorem stream_setStream (s : State) (e k u j : Nat) (x : Option StreamSt) : (s.setStream e k x).stream u j = if (u, j) = (e, k) then x else s.stream u j := by
  unfold State.stream State.setStream State.modEngine
  rw [engine_setEngine]
  by_cases h : u = e
  · subst h
    rw [if_pos rfl]
    dsimp only
    rw [SMap.get_set]
    by_cases h2 : j = k
    · rw [if_pos h2, if_pos (by rw [h2])]
    · rw [if_neg h2, if_neg (fun h => h2 (Prod.mk.inj h).2)]
  · rw [if_neg h, if_neg (fun h2 => h (Prod.mk.inj h2).1)]
theorem stream_congr {s s' : State} (h : s'.codec = s.codec) (u j : Nat) : s'.stream u j = s.stream u j := by
  unfold State.stream State.engine; rw [h]
theorem codec_writeMem (s : State) (a : Nat) (bs : List Byte) : (s.writeMem a bs).codec = s.codec := by rw [State.writeMem_rest]
theorem tiles_writeMem (s : State) (a : Nat) (bs : List Byte) : (s.writeMem a bs).tiles = s.tiles := by rw [State.writeMem_rest]
theorem readLe_write (s : State) (a : Nat) (bs : List Byte) (o n : Nat) (h : o + n ≤ bs.length) : (s.writeMem a bs).readLe (a + o) n = leNat ((bs.drop o).take n) := by
  unfold State.readLe
  rw [← readMem_take _ a bs.length o n h, State.readMem_writeMem]
theorem readLe_write_other (s : State) (a : Nat) (bs : List Byte) (b n : Nat) (h : b + n ≤ a ∨ a + bs.length ≤ b) : (s.writeMem a bs).readLe b n = s.readLe b n := by
  unfold State.readLe
  rw [State.readMem_writeMem_other _ _ _ _ _ h]
theorem field_app (n x : Nat) (bs : List Byte) : leNat ((natLe n x ++ bs).take n) = x % 256 ^ n := by
  rw [List.take_append_of_le_length (by rw [natLe_length]), List.take_of_length_le (by rw [natLe_length]), leNat_natLe]
theorem drop_app (n x m : Nat) (bs : List Byte) : (natLe n x ++ bs).drop (n + m) = bs.drop m := by
  rw [List.drop_append, natLe_length, List.drop_of_length_le (by rw [natLe_length]; omega), List.nil_append]
  congr 1; omega
theorem status_word (s : State) (x : StreamSt) (st : Nat) (c : Code) : (s.streamStatus x st c).readLe (x.addr + 0x78) 2 = st % 65536 ∧ (s.streamStatus x st c).readLe (x.addr + 0x7A) 2 = c.toNat
   ∧ (s.streamStatus x st c).codec = s.codec ∧ (s.streamStatus x st c).tiles = s.tiles
   ∧ ∀ a n, (a + n ≤ x.addr + 0x78 ∨ x.addr + 0x7C ≤ a) → (s.streamStatus x st c).readLe a n = s.readLe a n := by
  unfold State.streamStatus
  refine ⟨?_, ?_, codec_writeMem _ _ _, tiles_writeMem _ _ _, ?_⟩
  · rw [show x.addr + 0x78 = x.addr + 0x78 + 0 by omega, readLe_write _ _ _ _ _ (by simp [natLe_length]), List.drop_zero, field_app]; rfl
  · rw [show x.addr + 0x7A = x.addr + 0x78 + 2 by omega, readLe_write _ _ _ _ _ (by simp [natLe_length]), drop_app 2 st 0, List.drop_zero, List.take_of_length_le (by simp [natLe_length]), leNat_natLe]
    exact Nat.mod_eq_of_lt c.isLt
  · intro a n h
    rw [readLe_write_other _ _ _ _ _ (by simp [natLe_length]; omega)]

theorem takeEntry_eq (s : State) (r type : Nat) (go : List Byte → State → State) (e : List Byte) (h1 : s.frontEntry r = some e) (h2 : s.entryCode r e = none) (h3 : fieldLe e 0 1 = type) :
   s.takeEntry r type go = go e s := by
  unfold State.takeEntry
  rw [h1]
  dsimp only
  rw [h2]
  dsimp only
  rw [if_pos h3]

def pickKey (key : Nat → Nat) (b : Option Nat) (e : Nat) : Option Nat :=
  match b with
  | none => some e
  | some x => if key e < key x then some e else some x
theorem pickKey_some (key : Nat → Nat) (x e : Nat) : pickKey key (some x) e = if key e < key x then some e else some x := rfl
theorem pick_min (key : Nat → Nat) (v : Nat) (l : List Nat) : ∀ b : Option Nat, (v ∈ l ∨ b = some v) → (∀ u ∈ l, key v < key u ∨ u = v) → (∀ u, b = some u → key v < key u ∨ u = v) →
   l.foldl (pickKey key) b = some v := by
  induction l with
  | nil => intro b h _ _; rcases h with h | h; simp at h; exact h
  | cons a l ih =>
    intro b h hl hb
    rw [List.foldl_cons]
    have ha := hl a (by simp)
    have hr : ∀ u, pickKey key b a = some u → key v < key u ∨ u = v := by
      intro u hu
      cases b with
      | none => cases hu; exact ha
      | some x =>
        rw [pickKey_some] at hu
        split at hu <;> cases hu
        · exact ha
        · exact hb _ rfl
    have hv : v ∈ l ∨ pickKey key b a = some v := by
      rcases h with h | h
      · rcases List.mem_cons.1 h with h | h
        · right
          subst h
          cases b with
          | none => rfl
          | some x =>
            rw [pickKey_some]
            rcases hb x rfl with h | h
            · rw [if_pos h]
            · rw [h]; split <;> rfl
        · exact .inl h
      · right
        subst h
        rw [pickKey_some]
        rcases ha with h | h
        · rw [if_neg (by omega)]
        · rw [h]; split <;> rfl
    exact ih _ hv (fun u hu => hl u (by simp [hu])) hr

theorem pickEngine_min (s : State) (enc : Bool) (die v : Nat) (hv : v < 24) (hk : 16 ≤ v ↔ enc = true) (hu : (s.engine v).unused = false)
   (hm : ∀ u, u < 24 → (16 ≤ u ↔ enc = true) → (s.engine u).unused = false →
        let q (u : Nat) : Nat := if engineEdge u = die / 2 then 0 else 1
        let n (u : Nat) : Nat := (s.engine u).open_.length
        n v < n u ∨ n v = n u ∧ (q v < q u ∨ q v = q u ∧ v ≤ u)) : s.pickEngine enc die = some v := by
  have hmem : ∀ u, u ∈ (if enc then (List.range 8).map (· + 16) else List.range 16) ↔ u < 24 ∧ (16 ≤ u ↔ enc = true) := by
    intro u
    cases enc
    · simp; omega
    · simp
      constructor
      · rintro ⟨a, h1, rfl⟩; omega
      · rintro ⟨h1, h2⟩; exact ⟨u - 16, by omega, by omega⟩
  have hq : ∀ u, (if engineEdge u = die / 2 then 0 else 1) ≤ 1 := by intro u; split <;> omega
  refine pick_min (fun e => ((s.engine e).open_.length * 2 + (if engineEdge e = die / 2 then 0 else 1)) * 32 + e) v _ none (.inl ?_) ?_ (by simp)
  · rw [List.mem_filter]
    exact ⟨(hmem v).2 ⟨hv, hk⟩, by simp [hu]⟩
  · intro u hu'
    obtain ⟨h1, h2⟩ := List.mem_filter.1 hu'
    obtain ⟨h3, h4⟩ := (hmem u).1 h1
    have := hm u h3 h4 (by simpa using h2)
    have q1 := hq u
    have q2 := hq v
    dsimp only at this ⊢
    generalize (if engineEdge u = die / 2 then 0 else 1) = a at *
    generalize (if engineEdge v = die / 2 then 0 else 1) = b at *
    omega

theorem find_low (P : Nat → Bool) (i n : Nat) (hi : i < n) (h1 : P i = true) (h2 : ∀ k < i, P k = false) : (List.range n).find? P = some i := by
  rw [List.find?_range_eq_some]
  exact ⟨h1, List.mem_range.2 hi, fun k hk => by simp [h2 k hk]⟩

theorem consume_rest (s : State) (r : Nat) : (s.consume r).codec = s.codec ∧ (s.consume r).tiles = s.tiles ∧ (s.consume r).mem = s.mem := ⟨rfl, rfl, rfl⟩
theorem setStream_rest (s : State) (e k : Nat) (x) : (s.setStream e k x).tiles = s.tiles ∧ (s.setStream e k x).mem = s.mem := ⟨rfl, rfl⟩


/-! marks -/
theorem bufs_setBuf (x : StreamSt) (i k : Nat) (b : PicBuf) : (x.setBuf i b).bufs.get none k = if k = i then (if b.ref || b.out || b.conv then some b else none) else x.bufs.get none k := by
  unfold StreamSt.setBuf
  dsimp only
  rw [SMap.get_set]
theorem bufs_modBuf (x : StreamSt) (i k : Nat) (f : PicBuf → PicBuf) : (x.modBuf i f).bufs.get none k = if k = i then (match x.bufs.get none i with | some b => (if (f b).ref || (f b).out || (f b).conv then some (f b) else none) | none => none) else x.bufs.get none k := by
  unfold StreamSt.modBuf
  cases h : x.bufs.get none i with
  | none =>
    dsimp only
    split
    · next e => rw [e]; exact h
    · rfl
  | some b => exact bufs_setBuf x i k (f b)
theorem clearRefs_fold (l : List Nat) : ∀ (x : StreamSt) i b, (l.foldl (fun x k => x.modBuf k (fun b => { b with ref := false })) x).bufs.get none i = some b →
   (i ∈ l → b.ref = false) ∧ (i ∉ l → x.bufs.get none i = some b) := by
  induction l with
  | nil => intro x i b h; exact ⟨by simp, fun _ => h⟩
  | cons k l ih =>
    intro x i b h
    rw [List.foldl_cons] at h
    obtain ⟨h1, h2⟩ := ih _ i b h
    by_cases hl : i ∈ l
    · exact ⟨fun _ => h1 hl, fun hn => absurd (by simp [hl]) hn⟩
    · have := h2 hl
      rw [bufs_modBuf] at this
      by_cases hk : i = k
      · rw [if_pos hk] at this
        refine ⟨fun _ => ?_, fun hn => absurd (by simp [hk]) hn⟩
        split at this
        · split at this
          · cases this; rfl
          · cases this
        · cases this
      · rw [if_neg hk] at this
        exact ⟨fun hn => by simp [hk, hl] at hn, fun _ => this⟩
theorem clearRefs_spec (x : StreamSt) (i : Nat) (b : PicBuf) (h : x.clearRefs.bufs.get none i = some b) : b.ref = false := by
  have e : x.clearRefs = (x.bufs.map Prod.fst).foldl (fun x k => x.modBuf k (fun b => { b with ref := false })) x := by
    unfold StreamSt.clearRefs; rw [List.foldl_map]
  rw [e] at h
  obtain ⟨h1, h2⟩ := clearRefs_fold _ x i b h
  by_cases hl : i ∈ x.bufs.map Prod.fst
  · exact h1 hl
  · have := h2 hl
    exfalso
    unfold SMap.get at this
    split at this
    · next p hp =>
      have hp1 := List.find?_some hp
      simp at hp1
      exact hl (List.mem_map.2 ⟨p, List.mem_of_find?_eq_some hp, hp1⟩)
    · cases this

theorem report_stream (z : State) (c : Code) (i : RecInfo) (u j : Nat) : (z.report c i).stream u j = z.stream u j := stream_congr (by simp) _ _
theorem report_readLe (z : State) (c : Code) (i : RecInfo) (a n : Nat) : (z.report c i).readLe a n = z.readLe a n := State.readLe_congr (by simp) a n
theorem stop_spec (s : State) (e slot : Nat) (x : StreamSt) (c : Code) : (s.stopStream e slot x c).stream e slot = some { x with status := 2 }
   ∧ (s.stopStream e slot x c).readLe (x.addr + 0x78) 2 = 2 ∧ (s.stopStream e slot x c).readLe (x.addr + 0x7A) 2 = c.toNat
   ∧ (s.stopStream e slot x c).tiles = s.tiles ∧ ∀ a n, (a + n ≤ x.addr + 0x78 ∨ x.addr + 0x7C ≤ a) → (s.stopStream e slot x c).readLe a n = s.readLe a n := by
  unfold State.stopStream
  dsimp only
  obtain ⟨w1, w2, w3, w4, w5⟩ := status_word (s.setStream e slot (some { x with status := 2 })) x 2 c
  have hr : ∀ (z : State) (c : Code) (i : RecInfo) a n, (z.report c i).readLe a n = z.readLe a n := by intro z c i a n; exact State.readLe_congr (by simp) a n
  refine ⟨?_, ?_, ?_, ?_, ?_⟩
  · rw [report_stream, stream_congr w3, stream_setStream, if_pos rfl]
  · rw [hr]; exact w1
  · rw [hr]; exact w2
  · rw [State.report_tiles, w4]; rfl
  · intro a n h; rw [hr, w5 a n h]; rfl
theorem stream_writeLe (s : State) (a n v e slot : Nat) : (s.writeLe a n v).stream e slot = s.stream e slot := stream_congr (codec_writeMem _ _ _) _ _
theorem status_writeLe (s : State) (a v b n : Nat) (h : b + n ≤ a ∨ a + 8 ≤ b) : (s.writeLe a 8 v).readLe b n = s.readLe b n := State.readLe_writeLe_other _ _ _ _ _ _ h

theorem sub_counter (rd : Nat) : (rd + 1) % 2 ^ 64 % 256 ^ 8 = (rd + 1) % 2 ^ 64 := by omega

theorem dec_report (c : Prop) [Decidable c] (z : State) (code : Code) (i : RecInfo) : (if c then z.report code i else z).tiles = z.tiles ∧ (∀ e, (if c then z.report code i else z).engine e = z.engine e)
   ∧ ∀ a n, (if c then z.report code i else z).readLe a n = z.readLe a n := by
  split
  · exact ⟨by simp, fun e => by unfold State.engine; simp, fun a n => State.readLe_congr (by simp) a n⟩
  · exact ⟨rfl, fun _ => rfl, fun _ _ => rfl⟩
/-- one picture of the active sequence -/
theorem decodePic_spec (e slot : Nat) (s : State) (x : StreamSt) (p : PicOutcome) (q : SeqInfo) (i : Nat) (h1 : p.newSeq = none) (h2 : x.seq = some q) (h3 : x.status = 0) (h4 : p.dropRefs = [])
   (hi : i < x.desc.poolBufs) (hfree : x.bufs.get none i = none) (hlow : ∀ k < i, x.bufs.get none k ≠ none) :
   ∃ (m : State) (b : PicBuf) (lc : Bool), State.decodePic e slot (.go s x) p = .go m { (x.setBuf i b) with seq := some q, pics := x.pics + 1, resumed := false, loggedConceal := lc }
     ∧ b.ref = p.isRef ∧ b.out = p.shown ∧ b.seq = q ∧ b.concealed = p.concealed ∧ b.substitute = p.substitute ∧ b.resumed = x.resumed ∧ b.cls = p.cls
     ∧ m.tiles = s.tiles ∧ (m.engine e).frames = BitVec.ofNat 32 (min (2 ^ 32 - 1) ((s.engine e).frames.toNat + 1))
     ∧ (∀ a n, (x.desc.poolBase + i * x.desc.bufBytes + x.desc.bufBytes ≤ a ∨ a + n ≤ x.desc.poolBase + i * x.desc.bufBytes) → m.readLe a n = s.readLe a n) := by
  have hfb : ∀ y : StreamSt, y.desc = x.desc → y.bufs = x.bufs → y.freeBuf = some i := by
    intro y hy hb
    unfold StreamSt.freeBuf
    rw [hy, hb]
    refine find_low _ i _ hi (by simp [hfree]) (fun k hk => ?_)
    have := hlow k hk
    cases hx : x.bufs.get none k <;> simp_all
  unfold State.decodePic
  dsimp only
  rw [h1, h2]
  dsimp only
  rw [if_neg (by simp), if_neg (by simp), h4, h3]
  simp only [List.foldl_nil]
  rw [if_neg (by omega)]
  dsimp only
  rw [hfb { x with seq := some q } rfl rfl]
  dsimp only
  refine ⟨_, _, _, rfl, rfl, rfl, rfl, rfl, rfl, rfl, rfl, ?_, ?_, ?_⟩
  · refine (dec_report _ _ _ _).1.trans ?_
    show (State.writeMem _ _ _).tiles = _
    rw [tiles_writeMem]
  · refine (congrArg EngineSt.frames ((dec_report _ _ _ _).2.1 e)).trans ?_
    unfold State.modEngine
    rw [engine_setEngine, if_pos rfl]
    unfold State.engine; rw [codec_writeMem]; rfl
  · intro a n ha
    refine ((dec_report _ _ _ _).2.2 a n).trans ?_
    show (State.writeMem _ _ _).readLe a n = _
    rw [readLe_write_other _ _ _ _ _ (by simp; omega)]
    rfl

theorem inRd_mod (s : State) (e : Nat) (f : EngineSt → EngineSt) (x : StreamSt) : (s.modEngine e f).inRd x = s.inRd x := rfl

theorem step_eq (s : State) (v : Nat) (out : AuOutcome) (slot : Nat) (x : StreamSt) (h : s.nextStream v = some (slot, x)) (rd a addr len flags : Nat)
    (hrd : rd = s.readLe (x.addr + 0x58) 8) (ha : a = x.desc.inBase + 16 * (rd % x.desc.inEntries)) (haddr : addr = s.readLe a 8) (hlen : len = s.readLe (a + 8) 4) (hfl : flags = s.readLe (a + 12) 4) :
    ((len = 0 ∧ flags % 2 = 0 ∨ 2 ^ 28 < len ∨ flags / 2 ≠ 0) → decodeAccessUnit v out s = (s.modEngine v (fun y => { y with last := slot })).stopStream v slot x Codes.codecInput)
    ∧ (¬ (len = 0 ∧ flags % 2 = 0 ∨ 2 ^ 28 < len ∨ flags / 2 ≠ 0) → s.checkAccesses (.job x.job) [(a, 16), (addr, len)] = none → len ≠ 0 →
       decodeAccessUnit v out s = (match (s.modEngine v (fun y => { y with last := slot })).decodeAu v slot x (s.readMem addr len) out with
        | .stop s1 => s1.writeLe (x.addr + 0x58) 8 ((rd + 1) % 2 ^ 64)
        | .go s1 x1 =>
          let s2 := s1.writeLe (x.addr + 0x58) 8 ((rd + 1) % 2 ^ 64)
          if bitOf flags 0 then
            let rest := x1.bufs.filterMap (fun p => p.2.bind (fun b =>
              if b.out && !x1.order.any (fun q => q.1 == p.1) then some p.1 else none))
            let p := s2.enqueue v slot x1 rest
            p.1.setStream v slot (some { p.2.clearRefs with seq := none })
          else s2.setStream v slot (some x1))) := by
  have hbit : bitOf flags 0 = decide (flags % 2 = 1) := by
    unfold bitOf; simp [Nat.testBit_zero]; rfl
  have hcond : ((len == 0 && !bitOf flags 0) || decide (2 ^ 28 < len) || flags / 2 != 0) = true ↔ (len = 0 ∧ flags % 2 = 0 ∨ 2 ^ 28 < len ∨ flags / 2 ≠ 0) := by
    rw [hbit]
    simp only [Bool.or_eq_true, Bool.and_eq_true, beq_iff_eq, Bool.not_eq_true', decide_eq_false_iff_not, decide_eq_true_eq, bne_iff_ne, or_assoc]
    have : (¬ flags % 2 = 1) ↔ flags % 2 = 0 := by omega
    rw [this]
  unfold decodeAccessUnit
  rw [h]
  dsimp only
  rw [show s.inRd x = rd from hrd.symm, ← ha, ← haddr, ← hlen, ← hfl]
  refine ⟨?_, ?_⟩
  · intro hb
    rw [if_pos (hcond.2 hb)]
  · intro hb hc hl
    rw [if_neg (fun hh => hb (hcond.1 hh)), hc]
    dsimp only
    rw [if_neg hl] <;> rfl

theorem enqueue_one (s : State) (e slot : Nat) (x : StreamSt) (i : Nat) (b : PicBuf) (h1 : x.bufs.get none i = some b) (h2 : x.order.any (fun q => q.1 == i) = false) (h3 : b.cls = 0) :
   s.enqueue e slot x [i] = (s, { x.modBuf i (fun b => { b with out := true }) with order := x.order ++ [(i, x.frame)], frame := x.frame + 1 }) := by
  unfold State.enqueue
  rw [List.foldl_cons, List.foldl_nil]
  dsimp only
  rw [h1]
  dsimp only
  rw [h2, if_neg (by decide), if_pos h3]

end Sys2Proof.Machine
end

