-- ==== Sys2Proof/Laws/Traffic.lean ====
section
/-!
SUPPORT. Laws/Traffic.lean: a near link's good flit, a delivered write, and what the replay buffer drops.
-/

namespace Sys2Proof.Machine

open Sys2Proof.Claims

/-- only links and messages differ, and the rank stays -/
def LO (s t : State) : Prop := ∃ L O, t = { s with links := L, outbox := O } ∧ L.rankValid = s.links.rankValid ∧ L.twin = s.links.twin ∧ L.rrc = s.links.rrc
theorem LO.refl (s : State) : LO s s := ⟨_, _, rfl, rfl, rfl, rfl⟩
theorem LO.setLink {s t : State} (h : LO s t) (l : Nat) (y : LinkSt) : LO s (t.setLink l y) := by
  obtain ⟨L, O, rfl, h1, h2, h3⟩ := h; exact ⟨_, _, rfl, h1, h2, h3⟩
theorem LO.send {s t : State} (h : LO s t) (o : OutMsg) : LO s (t.send o) := by
  obtain ⟨L, O, rfl, h1, h2, h3⟩ := h; exact ⟨_, _, rfl, h1, h2, h3⟩
theorem LO.fold {α : Type} (f : α → OutMsg) (xs : List α) {s t : State} (h : LO s t) : LO s (xs.foldl (fun s q => s.send (f q)) t) := by
  induction xs generalizing t with
  | nil => exact h
  | cons a xs ih => exact ih (h.send _)
theorem LO.rank {s t : State} (h : LO s t) : t.rank = s.rank := by
  obtain ⟨L, O, rfl, h1, h2, h3⟩ := h; unfold State.rank; dsimp only; rw [h2, h3]
theorem LO.only {s t : State} (h : LO s t) : LinksOnly s t := by
  obtain ⟨L, O, rfl, h1, h2, h3⟩ := h; exact ⟨rfl, rfl, rfl, rfl, rfl, rfl, rfl, rfl⟩

theorem receive_write {s t : State} (ht : LO s t) (l vc : Nat) (h : TxHeader) (data : List Byte)
    (h1 : h.type = 1) (h2 : h.dst.toNat = s.rank) (h3 : h.tag ≠ 0) (g : Nat) (h4 : s.tagFunc h.tag.toNat = some g)
    (h5 : s.checkRange (.func g) h.addr.toNat h.len.toNat = none) (h6 : s.absentPages h.addr.toNat data.length = []) :
    t.receiveTx l vc h data = t.writeMem h.addr.toNat data := by
  have hr := ht.rank
  obtain ⟨L, O, rfl, _, _, _⟩ := ht
  unfold State.receiveTx
  rw [if_neg, if_neg, if_neg, if_pos h1]
  · have e1 : State.absentPages ({ s with links := L, outbox := O } : State) h.addr.toNat data.length = [] := h6
    rw [e1]
  · unfold State.passFilter
    rw [if_neg h3]
    have e2 : State.tagFunc ({ s with links := L, outbox := O } : State) h.tag.toNat = some g := h4
    have e3 : State.checkRange ({ s with links := L, outbox := O } : State) (.func g) h.addr.toNat h.len.toNat = none := h5
    rw [e2]
    dsimp only
    rw [if_pos h1, e3]
    simp
  · rw [hr, h2]; simp
  · unfold State.badType
    rw [h1]
    simp

theorem leNat_zero : ∀ (bs : List Byte), (∀ b ∈ bs, b = 0) → leNat bs = 0
  | [], _ => rfl
  | b :: bs, h => by
    have hb := h b (by simp)
    have := leNat_zero bs (fun c hc => h c (by simp [hc]))
    unfold leNat
    rw [this, hb]
    rfl

theorem header_nonzero (bs : List Byte) (h : (txHeaderOf bs).type = 1) : leNat (bs.take 16) ≠ 0 := by
  intro h0
  unfold txHeaderOf at h
  rw [h0] at h
  exact absurd h (by decide)

/-- a payload that holds one whole write and nothing else -/
theorem take_one (t : State) (l vc : Nat) (p : List Byte) (h1 : (txHeaderOf p).type = 1) (hl : 16 + (txHeaderOf p).len.toNat ≤ p.length)
    (hz : ∀ b ∈ p.drop (16 + (txHeaderOf p).len.toNat), b = 0) :
    t.takeTxs l vc 16 p = (t.receiveTx l vc (txHeaderOf p) ((p.drop 16).take (txHeaderOf p).len.toNat), []) := by
  rw [show (16 : Nat) = 14 + 1 + 1 from rfl]
  unfold State.takeTxs
  rw [if_neg (by omega), if_neg (header_nonzero p h1)]
  dsimp only
  rw [if_neg (by omega)]
  have e : (p.take (16 + (txHeaderOf p).len.toNat)).drop 16 = (p.drop 16).take (txHeaderOf p).len.toNat := by
    rw [List.drop_take]
    congr 1
    omega
  rw [e]
  unfold State.takeTxs
  split
  · rfl
  · rw [if_pos]
    exact leNat_zero _ (fun b hb => hz b (List.mem_of_mem_take hb))

theorem dropAcked_total : ∀ (L : List TxItem) (n : Nat), n ≤ (L.map (·.count)).sum → ((dropAcked n L).map (·.count)).sum = (L.map (·.count)).sum - n
  | [], n, h => by simp at h; subst h; rfl
  | i :: is, n, h => by
    unfold dropAcked
    simp only [List.map_cons, List.sum_cons] at h ⊢
    split
    · rename_i hc
      rw [dropAcked_total is (n - i.count) (by omega)]
      omega
    · rename_i hc
      simp only [List.map_cons, List.sum_cons]
      omega

theorem nearFlit_good (s : State) (l : Nat) (bad : Bool) (bs : List Byte) (x : LinkSt) (hx : s.link l = x) (hn : isFar l = false) (hup : x.phase = .up)
    (hg : flitBad bad bs = false) (hq : x.txq = []) :
    ∃ (y : LinkSt) (s1 : State), LO s s1 ∧ s1.link l = y ∧ y = (x.ackTo (flitOf bs).ack).credit (flitOf bs).cvc (flitOf bs).cred ∧ s1.outbox = s.outbox ∧
     nearFlit l bad bs s = (let s2 := if (flitOf bs).nak then s1.replayLink l else s1
       let z := s2.link l
       if (flitOf bs).kind = 0 then if (flitOf bs).seq = z.rxSeq then s2 else s2.sendNak l
       else if (flitOf bs).seq ≠ (z.rxSeq + 1) % 4096 then s2.sendNak l
       else
         let s3 := s2.setLink l { z with rxSeq := (flitOf bs).seq, naked := false }
         if (flitOf bs).kind = 1 then s3.takePayload l (flitOf bs).vc ((bs.drop 8).take 240) else s3) := by
  obtain ⟨y, hy⟩ : ∃ y, y = (x.ackTo (flitOf bs).ack).credit (flitOf bs).cvc (flitOf bs).cred := ⟨_, rfl⟩
  have hyq : y.txq = [] := by
    rw [hy]
    unfold LinkSt.credit LinkSt.ackTo
    dsimp only
    split <;> exact hq
  have e0 : (s.modLink l (fun x => (x.ackTo (flitOf bs).ack).credit (flitOf bs).cvc (flitOf bs).cred)) = s.setLink l y := by
    unfold State.modLink; rw [hx, hy]
  have e1 : (s.setLink l y).pump l = (s.setLink l y).setLink l y := by
    rw [State.pump_idle _ _ (by rw [State.link_setLink_same]; exact hyq), State.link_setLink_same]
  refine ⟨y, (s.setLink l y).setLink l y, ((LO.refl s).setLink l y).setLink l y, State.link_setLink_same _ _ _, hy, rfl, ?_⟩
  unfold nearFlit
  rw [if_neg (by rw [hn, hx, hup]; decide), if_neg (by rw [hg]; decide)]
  dsimp only
  rw [e0, e1]

end Sys2Proof.Machine
end

