-- ==== Sys2Proof/Laws/Training.lean ====
section
/-!
SUPPORT. Laws/Training.lean: which links start to train, all links in turn, and an edge die's links going down.
-/

namespace Sys2Proof.Machine

open Sys2Proof.Claims

theorem getLsbD_bit {n : Nat} (v : BitVec n) (k : Nat) : bitOf v.toNat k = v.getLsbD k := by
  unfold bitOf BitVec.getLsbD
  rw [Nat.testBit_eq_decide_div_mod_eq]
  rfl

theorem isFar_iff (l : Nat) : isFar l = decide (18 ≤ l) := rfl

/-- what a link becomes when training is to start -/
def trainTo (v : Bool) (out : Bool) (k : Nat) (x : LinkSt) : LinkSt :=
  if x.phase ≠ .down ∨ x.enable = false then x
  else if v = false then { x with error := 3 }
  else if x.enable && v && decide (x.media ≠ 3) && (!isFar k || decide (x.encap ≠ 3)) && !out then { x with phase := .detect, retryDue := false }
  else x

theorem report_boot5 (s : State) (i : RecInfo) : (s.report Codes.linkRankUnset i).boot = s.boot := rfl

theorem startTraining_spec (s : State) (l : Nat) :
    LinksOnly s (s.startTraining l) ∧ (s.startTraining l).boot = s.boot ∧ (s.startTraining l).links.rankValid = s.links.rankValid
    ∧ (s.startTraining l).links.twin = s.links.twin ∧ (s.startTraining l).links.rrc = s.links.rrc
    ∧ (∀ k, k ≠ l → (s.startTraining l).link k = s.link k)
    ∧ (s.startTraining l).link l = trainTo s.links.rankValid (s.edgeOut (linkEdge l)) l (s.link l) := by
  unfold State.startTraining trainTo
  dsimp only
  split
  · exact ⟨LinksOnly.refl s, rfl, rfl, rfl, rfl, fun _ _ => rfl, rfl⟩
  · split
    · refine ⟨LinksOnly.trans (linkStep_setLink s l _).1 (linksOnly_report _ _ _), rfl, ?_, ?_, ?_, ?_, ?_⟩
      · rw [State.report_links]; rfl
      · rw [State.report_links]; rfl
      · rw [State.report_links]; rfl
      · intro k hk; rw [State.report_link, State.link_setLink_other _ _ _ _ hk]
      · rw [State.report_link, State.link_setLink_same]
    · unfold State.mayTrain
      dsimp only
      split
      · rename_i h
        obtain ⟨a1, a2, a3, a4, a5, a6, a7⟩ := linkStep_setLink s l { s.link l with phase := .detect, retryDue := false }
        exact ⟨a1, rfl, rfl, rfl, rfl, a2, by rw [State.link_setLink_same]⟩
      · exact ⟨LinksOnly.refl s, rfl, rfl, rfl, rfl, fun _ _ => rfl, rfl⟩

theorem trainAll (ks : List Nat) : ∀ (s : State), ks.Nodup →
    LinksOnly s (ks.foldl State.startTraining s) ∧ (ks.foldl State.startTraining s).boot = s.boot ∧ (ks.foldl State.startTraining s).links.rankValid = s.links.rankValid
    ∧ (ks.foldl State.startTraining s).links.twin = s.links.twin ∧ (ks.foldl State.startTraining s).links.rrc = s.links.rrc
    ∧ (∀ k, (ks.foldl State.startTraining s).link k = if k ∈ ks then trainTo s.links.rankValid (s.edgeOut (linkEdge k)) k (s.link k) else s.link k) := by
  induction ks with
  | nil => intro s _; exact ⟨LinksOnly.refl s, rfl, rfl, rfl, rfl, fun k => by simp⟩
  | cons l ks ih =>
    intro s hn
    obtain ⟨hn1, hn2⟩ := List.nodup_cons.1 hn
    obtain ⟨a1, a2, a3, a4, a5, a6, a7⟩ := startTraining_spec s l
    obtain ⟨b1, b2, b3, b4, b5, b6⟩ := ih (s.startTraining l) hn2
    rw [List.foldl_cons]
    refine ⟨LinksOnly.trans a1 b1, b2.trans a2, b3.trans a3, b4.trans a4, b5.trans a5, ?_⟩
    intro k
    rw [b6 k]
    have he : (s.startTraining l).edgeOut (linkEdge k) = s.edgeOut (linkEdge k) := by unfold State.edgeOut; rw [a2]
    by_cases h : k = l
    · subst h
      rw [if_neg hn1, if_pos (by simp), a7]
    · rw [he, a3, a6 k h]
      by_cases hk : k ∈ ks
      · rw [if_pos hk, if_pos (by simp [hk])]
      · rw [if_neg hk, if_neg (by simp [hk, h])]

theorem linkDown_spec (s : State) (l : Nat) : LinkStep s l (s.linkDown l) ∧ ((s.linkDown l).link l).phase = .down := by
  refine ⟨linkStep_setLink _ _ _, ?_⟩
  show ((State.setLink _ _ _).link l).phase = _
  rw [State.link_setLink_same]

theorem downAll (q : Nat) (ks : List Nat) : ∀ (s : State),
    LinksOnly s (ks.foldl (fun s l => if linkEdge l = q then s.linkDown l else s) s) ∧ (ks.foldl (fun s l => if linkEdge l = q then s.linkDown l else s) s).boot = s.boot
    ∧ (∀ k, (k ∈ ks ∧ linkEdge k = q ∨ (s.link k).phase = .down) → ((ks.foldl (fun s l => if linkEdge l = q then s.linkDown l else s) s).link k).phase = .down)
    ∧ (∀ k, linkEdge k ≠ q → (ks.foldl (fun s l => if linkEdge l = q then s.linkDown l else s) s).link k = s.link k) := by
  induction ks with
  | nil => intro s; exact ⟨LinksOnly.refl s, rfl, fun k h => by simpa using h, fun _ _ => rfl⟩
  | cons l ks ih =>
    intro s
    rw [List.foldl_cons]
    obtain ⟨b1, b2, b3, b4⟩ := ih (if linkEdge l = q then s.linkDown l else s)
    obtain ⟨d, dp⟩ := linkDown_spec s l
    refine ⟨?_, ?_, ?_, ?_⟩
    · refine LinksOnly.trans ?_ b1
      split
      · exact d.1
      · exact LinksOnly.refl s
    · rw [b2]
      split
      · exact d.2.2.2.1
      · rfl
    · intro k hk
      apply b3
      by_cases h : k = l
      · subst h
        by_cases hq : linkEdge k = q
        · right; rw [if_pos hq]; exact dp
        · rw [if_neg hq]
          rcases hk with ⟨_, h⟩ | h
          · exact absurd h hq
          · right; exact h
      · rcases hk with ⟨h1, h2⟩ | h1
        · left; exact ⟨by simpa [h] using h1, h2⟩
        · right
          split
          · rw [d.2.1 k h]; exact h1
          · exact h1
    · intro k hk
      rw [b4 k hk]
      split
      · rename_i hq
        exact d.2.1 k (fun h => hk (h ▸ hq))
      · rfl

end Sys2Proof.Machine
end

