-- ==== Sys2Proof/Laws/Sessions.lean ====
section
/-!
SUPPORT. Laws/Sessions.lean: the far sessions' updates, and far links coming up with nothing to send.
-/

namespace Sys2Proof.Machine

open Sys2Proof.Claims

theorem sess_setSess (s : State) (p q : Nat) (x : FarSess) : (s.setSess p x).sess q = if q = p then x else s.sess q := SMap.get_set _ _ _ _ _
theorem sess_setSess_same (s : State) (p : Nat) (x : FarSess) : (s.setSess p x).sess p = x := by rw [sess_setSess, if_pos rfl]

theorem flushFar_idle (t : State) (q : Nat) (h : (t.sess q).txq = []) : t.flushFar q = t := by
  unfold State.flushFar; rw [h]; rfl

theorem flushAll_idle (t : State) (h : ∀ q, (t.sess q).txq = []) : ∀ ks : List Nat, ks.foldl State.flushFar t = t
  | [] => rfl
  | k :: ks => by rw [List.foldl_cons, flushFar_idle t k (h k)]; exact flushAll_idle t h ks

theorem linkUp_idle (t : State) (l : Nat) (hl : isFar l = true) (h : ∀ q, (t.sess q).txq = []) :
    t.linkUp l = t.setLink l { t.link l with phase := .up, retrainLeft := 0 } := by
  unfold State.linkUp
  dsimp only
  rw [if_pos hl, flushAll_idle]
  · rfl
  · exact h

theorem linkUps_idle : ∀ (ls : List Nat) (t : State), (∀ l ∈ ls, isFar l = true) → (∀ q, (t.sess q).txq = []) →
    LinksOnly t (ls.foldl State.linkUp t) ∧ (ls.foldl State.linkUp t).links.sess = t.links.sess
      ∧ ∀ k, ((ls.foldl State.linkUp t).link k).phase = if k ∈ ls then .up else (t.link k).phase
  | [], t, _, _ => ⟨LinksOnly.refl t, rfl, fun k => by simp⟩
  | l :: ls, t, hf, h => by
    rw [List.foldl_cons, linkUp_idle t l (hf l (by simp)) h]
    obtain ⟨a1, a2, a3⟩ := linkUps_idle ls (t.setLink l { t.link l with phase := .up, retrainLeft := 0 }) (fun k hk => hf k (by simp [hk])) h
    refine ⟨LinksOnly.trans (linkStep_setLink t l _).1 a1, a2, ?_⟩
    intro k
    rw [a3 k, State.link_setLink]
    by_cases h1 : k ∈ ls
    · rw [if_pos h1, if_pos (by simp [h1])]
    · rw [if_neg h1]
      by_cases h2 : k = l
      · rw [if_pos h2, if_pos (by simp [h2])]
      · rw [if_neg h2, if_neg (by simp [h1, h2])]

end Sys2Proof.Machine
end

