-- ==== Sys2Proof/Laws/Requests.lean ====
section
/-!
SUPPORT. Laws/Requests.lean: requested tests, what records and margining leave, and when nothing is placed.
-/

namespace Sys2Proof.Machine

open Sys2Proof.Claims

theorem noteCode_rest (s : State) (c : Code) : (s.noteCode c).boot = { s.boot with lastCode := if c.toNat / 256 = 11 then c else s.boot.lastCode }
    ∧ (s.noteCode c).sec = { s.sec with lastCode := if c.toNat / 256 = 9 then c else s.sec.lastCode } := by
  unfold State.noteCode
  by_cases h9 : c.toNat / 256 = 9
  · have h11 : ¬ c.toNat / 256 = 11 := by rw [h9]; decide
    rw [if_pos h9, if_neg h11, if_pos h9]
    exact ⟨rfl, rfl⟩
  · rw [if_neg h9, if_neg h9]
    by_cases h11 : c.toNat / 256 = 11
    · rw [if_pos h11, if_pos h11]; exact ⟨rfl, rfl⟩
    · rw [if_neg h11, if_neg h11]; exact ⟨rfl, rfl⟩

/-- A record changes LAST_CODE of boot and of security alone among their registers. -/
theorem report_boot (s : State) (c : Code) (i : RecInfo) :
    (s.report c i).boot = { s.boot with lastCode := if c.toNat / 256 = 11 then c else s.boot.lastCode } := by
  unfold State.report
  exact (noteCode_rest _ c).1

theorem report_sec (s : State) (c : Code) (i : RecInfo) :
    (s.report c i).sec = { s.sec with lastCode := if c.toNat / 256 = 9 then c else s.sec.lastCode } := by
  unfold State.report
  exact (noteCode_rest _ c).2

/-- What a record leaves. -/
theorem report_rest (s : State) (c : Code) (i : RecInfo) : (s.report c i).tiles = s.tiles ∧ (s.report c i).mem = s.mem ∧ (s.report c i).links = s.links
    ∧ (s.report c i).dealers = s.dealers ∧ (s.report c i).sched = s.sched ∧ (s.report c i).col = s.col ∧ (s.report c i).power = s.power := by simp

theorem privileged_may (s : State) (w : Iface) (go : State → State) (h : w = .board ∨ w = .host 0) : s.privileged w go = go s := by
  rcases h with rfl | rfl <;> rfl

theorem privileged_not (s : State) (w : Iface) (go : State → State) (h : ¬(w = .board ∨ w = .host 0)) : ∃ i : RecInfo, i.unit = 0xFFFF ∧ s.privileged w go = s.report Codes.badRegAccess i := by
  cases w with
  | board => exact absurd (Or.inl rfl) h
  | host f =>
    refine ⟨{ func := f.val }, by rfl, ?_⟩
    unfold State.privileged
    dsimp only
    rw [if_neg]
    intro e; exact h (Or.inr (by rw [e]))
  | bar0 f => exact ⟨{ func := f.val }, by rfl, rfl⟩

/-- Channels without a post have nothing to resume. -/
theorem resume_quiet (s : State) (h : ∀ c : Chan, (s.chan c).run = none ∧ (s.chan c).queue = []) : s.colResume = s := by
  have key : ∀ c : Nat, c < 16 → s.colSettle c = s := fun c hc =>
    colSettle_stop s c (colStep_none s c (h ⟨c, hc⟩).1) (h ⟨c, hc⟩).2
  unfold State.colResume
  have : ∀ l : List Nat, (∀ c ∈ l, c < 16) → l.foldl State.colSettle s = s := by
    intro l
    induction l with
    | nil => intro _; rfl
    | cons a l ih =>
      intro hl
      rw [List.foldl_cons, key a (hl a (by simp))]
      exact ih (fun c hc => hl c (List.mem_cons_of_mem _ hc))
  exact this _ (fun c hc => List.mem_range.1 hc)

theorem colSettle_same {s t : State} (h : ∀ c : Chan, (s.chan c).run = none ∧ (s.chan c).queue = []) (e : t.col = s.col) : t.colResume = t := by
  apply resume_quiet
  intro c
  have hc : t.chan c = s.chan c := State.chan_congr (by rw [e]) c
  rw [hc]
  exact h c

theorem setAck_spec (s : State) (b : Bool) (a : ReqAck) : (s.setAck b a).ackOf b = a ∧ (s.setAck b a).boot.queue = s.boot.queue ∧ (s.setAck b a).boot.ticket = s.boot.ticket
    ∧ (s.setAck b a).boot.bistFail = s.boot.bistFail ∧ s.setAck b a = { s with boot := (s.setAck b a).boot } := by
  unfold State.setAck State.ackOf State.modBoot
  cases b <;> exact ⟨rfl, rfl, rfl, rfl, rfl⟩

theorem ackOf_report (s : State) (b : Bool) (c : Code) (i : RecInfo) : (s.report c i).ackOf b = s.ackOf b := by
  unfold State.ackOf
  rw [report_boot]

theorem request_spec (s : State) (w : Iface) (op target : Nat) (h : w = .board ∨ w = .host 0) :
    (testTargetOk op target = true → s.boot.queue.length < 64 → s.testRequest w op target = s.queueTest (decide (w = .board)) op target)
    ∧ (testTargetOk op target = false → s.testRequest w op target = s.refuseTest (decide (w = .board)) 2 Codes.badRegAccess)
    ∧ (testTargetOk op target = true → 64 ≤ s.boot.queue.length → s.testRequest w op target = s.refuseTest (decide (w = .board)) 1 Codes.testQueueFull) := by
  unfold State.testRequest
  dsimp only
  rw [privileged_may s w _ h]
  refine ⟨fun h1 h2 => ?_, fun h1 => ?_, fun h1 h2 => ?_⟩
  · rw [h1, if_neg (by simp), if_neg (by omega)]
  · rw [h1, if_pos (by simp)]
  · rw [h1, if_neg (by simp), if_pos h2]

theorem position_last (qs : List TestReq) (n op t : Nat) (b : Bool) (h : ∀ q ∈ qs, q.ticket ≠ n) :
    queuePosition (qs ++ [⟨n, op, t, b, false⟩]) n = 1 + (qs.filter (fun q => !q.running)).length := by
  unfold queuePosition
  have h1 : (qs ++ [(⟨n, op, t, b, false⟩ : TestReq)]).find? (fun q => q.ticket == n) = some ⟨n, op, t, b, false⟩ := by
    rw [List.find?_append]
    have : qs.find? (fun q => q.ticket == n) = none := by
      rw [List.find?_eq_none]; intro q hq; simpa using h q hq
    rw [this]
    simp
  have h2 : (qs ++ [(⟨n, op, t, b, false⟩ : TestReq)]).takeWhile (fun p => p.ticket != n) = qs := by
    rw [List.takeWhile_append_of_pos (by intro q hq; simpa using h q hq)]
    simp
  rw [h1, h2]
  rfl

theorem refuse_spec (s : State) (b : Bool) (status : Nat) (code : Code) :
    (s.refuseTest b status code).boot.queue = s.boot.queue ∧ (s.refuseTest b status code).ackOf b = ⟨true, (s.ackOf b).ticket, 0, status⟩
      ∧ Logged s (s.refuseTest b status code) code 0xFFFF ∧ (s.refuseTest b status code).tiles = s.tiles ∧ (s.refuseTest b status code).mem = s.mem
      ∧ (s.refuseTest b status code).links = s.links ∧ (s.refuseTest b status code).dealers = s.dealers ∧ (s.refuseTest b status code).sched = s.sched
      ∧ (s.refuseTest b status code).col = s.col ∧ (s.refuseTest b status code).power = s.power := by
  obtain ⟨a1, a2, a3, a4, a5⟩ := setAck_spec s b ⟨true, (s.ackOf b).ticket, 0, status⟩
  obtain ⟨r1, r2, r3, r4, r5, r6, r7⟩ := report_rest (s.setAck b ⟨true, (s.ackOf b).ticket, 0, status⟩) code {}
  unfold State.refuseTest
  refine ⟨by rw [report_boot]; exact a2, by rw [ackOf_report]; exact a1, logged_report (t := s.setAck b ⟨true, (s.ackOf b).ticket, 0, status⟩) (i := ({} : RecInfo)) (by rw [a5]) rfl, ?_, ?_, ?_, ?_, ?_, ?_, ?_⟩
  · rw [r1, a5]
  · rw [r2, a5]
  · rw [r3, a5]
  · rw [r4, a5]
  · rw [r5, a5]
  · rw [r6, a5]
  · rw [r7, a5]

theorem queue_spec (s : State) (b : Bool) (op target : Nat) (h : ∀ q ∈ s.boot.queue, q.ticket ≠ s.boot.ticket) :
    (s.queueTest b op target).boot.queue = s.boot.queue ++ [⟨s.boot.ticket, op, target, b, false⟩] ∧ (s.queueTest b op target).boot.ticket = (s.boot.ticket + 1) % 256
      ∧ (s.queueTest b op target).ackOf b = ⟨true, s.boot.ticket, 1 + (s.boot.queue.filter (fun q => !q.running)).length, 0⟩
      ∧ s.queueTest b op target = { s with boot := (s.queueTest b op target).boot } := by
  unfold State.queueTest
  dsimp only
  rw [position_last _ _ _ _ _ h]
  obtain ⟨a1, a2, a3, a4, a5⟩ := setAck_spec (s.modBoot (fun x => { x with queue := s.boot.queue ++ [⟨s.boot.ticket, op, target, b, false⟩], ticket := (s.boot.ticket + 1) % 256 })) b
    ⟨true, s.boot.ticket, 1 + (s.boot.queue.filter (fun q => !q.running)).length, 0⟩
  exact ⟨a2, a3, a1, a5⟩

theorem sortKey_nil {α : Type} (key : α → Nat) : sortKey key ([] : List α) = [] := rfl

/-- Nothing to place. -/
theorem reapply_idle (s : State) (h : ∀ p ∈ s.sched.jobs, ∀ x, p.2 = some x → x.phase ≠ .waiting ∧ x.phase ≠ .saved) : s.reapply = s := by
  have h1 : s.startReady = s := by
    unfold State.startReady
    dsimp only
    rw [show s.sched.jobs.filterMap _ = [] from ?_]
    · rfl
    · rw [List.filterMap_eq_nil_iff]
      intro p hp
      cases hx : p.2 with
      | none => rfl
      | some x =>
        dsimp only
        rw [if_neg]
        have := (h p hp x hx).1
        simp [this]
  have h2 : s.waitList = [] := by
    unfold State.waitList
    dsimp only
    rw [show s.sched.jobs.filterMap _ = [] from ?_]
    · rfl
    · rw [List.filterMap_eq_nil_iff]
      intro p hp
      cases hx : p.2 with
      | none => rfl
      | some x =>
        dsimp only
        rw [if_neg]
        have := h p hp x hx
        simp [this.1, this.2]
  unfold State.reapply
  dsimp only
  rw [h1]
  unfold State.placeAll
  rw [h2]
  dsimp only [State.placeFirst]
  unfold State.wantGrade
  rw [h2]
  split <;> rfl

theorem bitOf_test (x n : Nat) : bitOf x n = x.testBit n := by
  unfold bitOf
  rw [Nat.testBit_eq_decide_div_mod_eq]
  rfl

theorem bitOf_set (x n : Nat) : bitOf (setBit x n) n = true := by
  rw [bitOf_test]
  unfold setBit
  rw [Nat.testBit_or, Nat.testBit_two_pow_self, Bool.or_true]

theorem bitOf_clear (x n : Nat) : bitOf (clearBit x n) n = false := by
  unfold clearBit
  split
  · rename_i h
    unfold bitOf at *
    have hp : 0 < 2 ^ n := Nat.two_pow_pos n
    have h1 : x / 2 ^ n % 2 = 1 := by simpa using h
    have h2 : (x - 2 ^ n) / 2 ^ n = x / 2 ^ n - 1 := by
      have := Nat.sub_mul_div x (2 ^ n) 1
      rwa [Nat.mul_one] at this
    rw [h2]
    simp
    omega
  · rename_i h; simpa using h

theorem testResult_spec (s : State) (q : TestReq) (pass : Bool) :
    (s.testResult q pass).boot.queue = s.boot.queue ∧ (s.testResult q pass).boot.bistFail = s.boot.bistFail ∧ (∀ b, (s.testResult q pass).ackOf b = s.ackOf b)
      ∧ (s.testResult q pass).tiles = s.tiles ∧ (s.testResult q pass).mem = s.mem
      ∧ (s.testResult q pass).links = s.links ∧ (s.testResult q pass).dealers = s.dealers ∧ (s.testResult q pass).sched = s.sched
      ∧ (s.testResult q pass).col = s.col ∧ (s.testResult q pass).power = s.power ∧ (s.testResult q pass).fuses = s.fuses
      ∧ Grows s (s.testResult q pass) ∧ Logged s (s.testResult q pass) (if pass then Codes.testDone else Codes.testFailed) 0xFFFF := by
  unfold State.testResult
  obtain ⟨r1, r2, r3, r4, r5, r6, r7⟩ := report_rest s (if pass then Codes.testDone else Codes.testFailed)
    { cls := (dieOf q.die).1, idx := (dieOf q.die).2, data := q.data (if pass then 1 else 0) }
  exact ⟨by rw [report_boot], by rw [report_boot], fun b => ackOf_report _ _ _ _, r1, r2, r3, r4, r5, r6, r7, by simp, grows_report _ _ _,
    report_logged _ _ { cls := (dieOf q.die).1, idx := (dieOf q.die).2, data := q.data (if pass then 1 else 0) }⟩

theorem find_ticket (qs : List TestReq) (t : Nat) (q : TestReq) (h : qs.find? (fun q => q.ticket == t && q.running) = some q) : q.ticket = t := by
  have := List.find?_some h
  simp at this
  exact this.1

theorem testComplete_go (s : State) (ticket : Nat) (pass : Bool) (rs : List Margins) (q : TestReq)
    (hq : s.boot.queue.find? (fun q => q.ticket == ticket && q.running) = some q)
    (hb : ¬(q.op = 4 ∧ (s.link q.target).phase = .retrain) ∧ q.op ≠ 5) :
    exec (.testComplete ticket pass rs) s = .next ((s.dropTicket ticket).endTest q pass rs) := by
  show Host.Outcome.next (testComplete ticket pass rs s) = _
  unfold testComplete
  rw [hq]
  dsimp only
  rw [if_neg]
  simp only [Bool.or_eq_true, Bool.and_eq_true, beq_iff_eq, not_or]
  exact ⟨fun h => hb.1 h, fun h => hb.2 h.1⟩

/-- What a record, a stack's field and the like leave. -/
structure Kept (s m : State) : Prop where
  tiles : m.tiles = s.tiles
  dealers : m.dealers = s.dealers
  sched : m.sched = s.sched
  links : m.links = s.links
  col : m.col = s.col
  power : m.power = s.power
  queue : m.boot.queue = s.boot.queue
  fail : m.boot.bistFail = s.boot.bistFail
  acks : ∀ b, m.ackOf b = s.ackOf b
  grows : Grows s m

theorem Kept.refl (s : State) : Kept s s := ⟨rfl, rfl, rfl, rfl, rfl, rfl, rfl, rfl, fun _ => rfl, Grows.of_eq rfl⟩

theorem Kept.trans {a b c : State} (h : Kept a b) (k : Kept b c) : Kept a c :=
  ⟨k.tiles.trans h.tiles, k.dealers.trans h.dealers, k.sched.trans h.sched, k.links.trans h.links, k.col.trans h.col, k.power.trans h.power,
    k.queue.trans h.queue, k.fail.trans h.fail, fun b => (k.acks b).trans (h.acks b), h.grows.trans k.grows⟩

theorem kept_report (s : State) (c : Code) (i : RecInfo) : Kept s (s.report c i) :=
  ⟨by simp, by simp, by simp, by simp, by simp, by simp, by rw [report_boot], by rw [report_boot], fun b => ackOf_report _ _ _ _, grows_report _ _ _⟩

theorem kept_modStack (s : State) (k : Nat) (f : StackSt → StackSt) : Kept s (s.modStack k f) :=
  ⟨rfl, rfl, rfl, rfl, rfl, rfl, rfl, rfl, fun _ => rfl, Grows.of_eq rfl⟩

theorem kept_marginStack (s : State) (k : Nat) (rs : List Margins) : Kept s (s.marginStack k rs) ∧ ((s.marginStack k rs).stack k).margining = (s.stack k).margining := by
  unfold State.marginStack
  dsimp only
  generalize (s.stack k).good32.zipIdx = l
  generalize hx : s.stack k = x
  have key : ∀ (l : List (Nat × Nat)) (t : State), Kept s t → (t.stack k).margining = x.margining →
      Kept s (l.foldl (fun s p =>
        if (((x.chans.get .init p.1).margin x.limitDq x.limitVddq (rs.getD p.2 ⟨0, 0, 0, 0⟩))).pass then
          s.modStack k (fun y => { y with chans := y.chans.set .init p.1 ((x.chans.get .init p.1).margin x.limitDq x.limitVddq (rs.getD p.2 ⟨0, 0, 0, 0⟩)) })
        else (s.modStack k (fun y => { y with chans := y.chans.set .init p.1 ((x.chans.get .init p.1).margin x.limitDq x.limitVddq (rs.getD p.2 ⟨0, 0, 0, 0⟩)) })).report Codes.marginFail { cls := 3, idx := k, unit := p.1 }) t)
      ∧ ((l.foldl (fun s p =>
        if (((x.chans.get .init p.1).margin x.limitDq x.limitVddq (rs.getD p.2 ⟨0, 0, 0, 0⟩))).pass then
          s.modStack k (fun y => { y with chans := y.chans.set .init p.1 ((x.chans.get .init p.1).margin x.limitDq x.limitVddq (rs.getD p.2 ⟨0, 0, 0, 0⟩)) })
        else (s.modStack k (fun y => { y with chans := y.chans.set .init p.1 ((x.chans.get .init p.1).margin x.limitDq x.limitVddq (rs.getD p.2 ⟨0, 0, 0, 0⟩)) })).report Codes.marginFail { cls := 3, idx := k, unit := p.1 }) t).stack k).margining = x.margining := by
    intro l
    induction l with
    | nil => intro t h1 h2; exact ⟨h1, h2⟩
    | cons p l ih =>
      intro t h1 h2
      rw [List.foldl_cons]
      have hm := kept_modStack t k (fun y => { y with chans := y.chans.set .init p.1 ((x.chans.get .init p.1).margin x.limitDq x.limitVddq (rs.getD p.2 ⟨0, 0, 0, 0⟩)) })
      have hs : ((t.modStack k (fun y => { y with chans := y.chans.set .init p.1 ((x.chans.get .init p.1).margin x.limitDq x.limitVddq (rs.getD p.2 ⟨0, 0, 0, 0⟩)) })).stack k).margining = x.margining := by
        unfold State.modStack
        rw [State.stack_setStack_same]
        exact h2
      split
      · exact ih _ (h1.trans hm) hs
      · refine ih _ ((h1.trans hm).trans (kept_report _ _ _)) ?_
        rw [State.stack_report]; exact hs
  exact key l s (Kept.refl s) (by rw [hx])

theorem failStack_spec (s : State) (k : Nat) : Kept { s with boot := { s.boot with bistFail := setBit s.boot.bistFail (13 + k) } } (s.failStack k)
    ∧ (s.failStack k).mem = s.mem ∧ Logged s (s.failStack k) Codes.bistFail 0xFFFF := by
  obtain ⟨t, ht, i, hi, e⟩ : ∃ t : State, t.logs = s.logs ∧ ∃ i : RecInfo, i.unit = 0xFFFF ∧ (s.failStack k = t.report Codes.bistFail i
      ∧ Kept { s with boot := { s.boot with bistFail := setBit s.boot.bistFail (13 + k) } } t ∧ t.mem = s.mem) := by
    unfold State.failStack State.markBist
    refine ⟨(s.drawBytes 4).2.modBoot (fun b => { b with bistFail := setBit b.bistFail (13 + k) }), rfl, _, rfl, rfl, ⟨rfl, rfl, rfl, rfl, rfl, rfl, rfl, rfl, fun b => ?_, Grows.of_eq rfl⟩, rfl⟩
    cases b <;> rfl
  obtain ⟨e1, e2, e3⟩ := e
  rw [e1]
  refine ⟨e2.trans (kept_report _ _ _), by rw [State.report_mem]; exact e3, ?_⟩
  rw [← hi]
  exact logged_report (t := t) (i := i) ht rfl

/-- What the claims ask of `Kept`. -/
theorem Kept.same {s m : State} (h : Kept s m) : m.dealers = s.dealers ∧ m.sched = s.sched ∧ m.col = s.col ∧ m.power = s.power := ⟨h.dealers, h.sched, h.col, h.power⟩

theorem Kept.rest {s m : State} (h : Kept s m) (hm : m.mem = s.mem) : m.tiles = s.tiles ∧ m.mem = s.mem ∧ m.links = s.links ∧ m.dealers = s.dealers ∧ m.sched = s.sched ∧ m.col = s.col ∧ m.power = s.power :=
  ⟨h.tiles, hm, h.links, h.dealers, h.sched, h.col, h.power⟩

theorem asks_spec (s : State) (e : Iface → BitVec 8 → Instr) (op limit : Nat) (hok : ∀ t, testTargetOk op t = decide (t < limit))
    (he : ∀ w t, exec (e w t) s = .next (s.testRequest w op t.toNat)) (w : Iface) (t : BitVec 8) :
    ((w = .board ∨ w = .host 0) → t.toNat < limit → s.boot.queue.length < 64 → (∀ q ∈ s.boot.queue, q.ticket ≠ s.boot.ticket) →
        ∃ m, exec (e w t) s = .next m ∧ m.boot.queue = s.boot.queue ++ [⟨s.boot.ticket, op, t.toNat, decide (w = .board), false⟩]
          ∧ m.boot.ticket = (s.boot.ticket + 1) % 256 ∧ m = { s with boot := m.boot }
          ∧ m.ackOf (decide (w = .board)) = ⟨true, s.boot.ticket, 1 + (s.boot.queue.filter (fun q => !q.running)).length, 0⟩)
      ∧ ((w = .board ∨ w = .host 0) → limit ≤ t.toNat → exec (e w t) s = .next (s.refuseTest (decide (w = .board)) 2 Codes.badRegAccess))
      ∧ ((w = .board ∨ w = .host 0) → t.toNat < limit → 64 ≤ s.boot.queue.length → exec (e w t) s = .next (s.refuseTest (decide (w = .board)) 1 Codes.testQueueFull))
      ∧ (¬(w = .board ∨ w = .host 0) → ∃ i : RecInfo, i.unit = 0xFFFF ∧ exec (e w t) s = .next (s.report Codes.badRegAccess i)) := by
  refine ⟨fun h h1 h2 h3 => ?_, fun h h1 => ?_, fun h h1 h2 => ?_, fun h => ?_⟩
  · obtain ⟨a1, a2, a3, a4⟩ := queue_spec s (decide (w = .board)) op t.toNat h3
    exact ⟨_, by rw [he, (request_spec s w op t.toNat h).1 (by rw [hok]; exact decide_eq_true h1) h2], a1, a2, a4, a3⟩
  · rw [he, (request_spec s w op t.toNat h).2.1 (by rw [hok]; exact decide_eq_false (by omega))]
  · rw [he, (request_spec s w op t.toNat h).2.2 (by rw [hok]; exact decide_eq_true h1) h2]
  · obtain ⟨i, hi, e⟩ := privileged_not s w (fun s =>
      if !testTargetOk op t.toNat then s.refuseTest (decide (w = .board)) 2 Codes.badRegAccess
      else if 64 ≤ s.boot.queue.length then s.refuseTest (decide (w = .board)) 1 Codes.testQueueFull
      else s.queueTest (decide (w = .board)) op t.toNat) h
    refine ⟨i, hi, ?_⟩
    rw [he]
    unfold State.testRequest
    dsimp only
    rw [e]

theorem refreshAck_spec (s : State) (b : Bool) : (s.refreshAck b).boot.queue = s.boot.queue ∧ s.refreshAck b = { s with boot := (s.refreshAck b).boot } := by
  unfold State.refreshAck
  dsimp only
  split
  · obtain ⟨_, a2, _, _, a5⟩ := setAck_spec s b { s.ackOf b with position := queuePosition s.boot.queue (s.ackOf b).ticket }
    exact ⟨a2, a5⟩
  · exact ⟨rfl, rfl⟩

theorem scan_one (s : State) (q : TestReq) (hq : s.boot.queue = [q]) :
    ∃ t m, (t = if !q.running && s.testIdle q then s.startTest q else s) ∧ exec .testQueueScan s = .next m ∧ m.boot.queue = t.boot.queue ∧ m = { t with boot := m.boot } := by
  refine ⟨_, _, rfl, rfl, ?_, ?_⟩
  · unfold testQueueScan
    rw [hq, List.foldl_cons, List.foldl_nil, (refreshAck_spec _ _).1, (refreshAck_spec _ _).1]
  · have : testQueueScan s = ((if !q.running && s.testIdle q then s.startTest q else s).refreshAck false).refreshAck true := by
      unfold testQueueScan
      rw [hq, List.foldl_cons, List.foldl_nil]
    rw [this]
    generalize (if !q.running && s.testIdle q then s.startTest q else s) = t
    rw [(refreshAck_spec (t.refreshAck false) true).2, (refreshAck_spec t false).2]

/-- A test starts. -/
theorem startTest_spec (s : State) (q : TestReq) (hq : s.boot.queue = [q]) (ho : 1 ≤ q.op ∧ q.op ≤ 5) :
    (s.startTest q).boot.queue = [{ q with running := true }] ∧ (s.startTest q).dealers = s.dealers ∧ (s.startTest q).sched = s.sched ∧ (s.startTest q).col = s.col
      ∧ (s.startTest q).power = s.power ∧ (∀ u, ¬(q.op = 1 ∧ u = q.target) → (s.startTest q).tile u = s.tile u) ∧ (q.op ≠ 3 → (s.startTest q).mem = s.mem)
      ∧ (q.op = 3 → ((s.startTest q).stack q.target).margining = true) ∧ (q.op = 4 → ((s.startTest q).link q.target).phase = .retrain)
      ∧ (q.op = 5 → ((s.startTest q).link q.target).phase = .margin) ∧ ∀ l, ¬((q.op = 4 ∨ q.op = 5) ∧ l = q.target) → (s.startTest q).link l = s.link l := by
  obtain ⟨s1, hs1⟩ : ∃ s1, s1 = s.modBoot (fun b => { b with queue := b.queue.map (fun (p : TestReq) => if p.ticket = q.ticket then { p with running := true } else p) }) := ⟨_, rfl⟩
  have hb : s1.boot.queue = [{ q with running := true }] := by
    rw [hs1]
    show s.boot.queue.map _ = _
    rw [hq, List.map_cons, List.map_nil, if_pos rfl]
  have hr : s1 = { s with boot := s1.boot } := by rw [hs1]; rfl
  have hl : ∀ l, s1.link l = s.link l := fun l => State.link_congr (by rw [hr]) l
  have e : s.startTest q = match q.op with
      | 1 => s1.spoilTile q.target
      | 3 => s1.modStack q.target (fun x => { x with margining := true })
      | 4 => s1.retrainLink q.target
      | 5 => s1.modLink q.target (fun x => { x with phase := .margin })
      | _ => s1 := by rw [hs1]; rfl
  rcases (show q.op = 1 ∨ q.op = 2 ∨ q.op = 3 ∨ q.op = 4 ∨ q.op = 5 by omega) with h | h | h | h | h
  · simp only [h] at e
    rw [e]
    refine ⟨hb, by rw [hr]; rfl, by rw [hr]; rfl, by rw [hr]; rfl, by rw [hr]; rfl, ?_, fun _ => by rw [hr]; rfl, (fun h' => absurd (h'.symm.trans h) (by decide)), (fun h' => absurd (h'.symm.trans h) (by decide)), (fun h' => absurd (h'.symm.trans h) (by decide)), fun l _ => hl l⟩
    intro u hu
    have hne : u ≠ q.target := fun e => hu ⟨h, e⟩
    unfold State.spoilTile State.modTile
    dsimp only
    refine (State.tile_setTile _ _ _ _).trans ?_
    rw [if_neg hne, hr]
    rfl
  · simp only [h] at e
    rw [e]
    refine ⟨hb, by rw [hr], by rw [hr], by rw [hr], by rw [hr], fun u _ => by rw [hr]; rfl, fun _ => by rw [hr], (fun h' => absurd (h'.symm.trans h) (by decide)), (fun h' => absurd (h'.symm.trans h) (by decide)), (fun h' => absurd (h'.symm.trans h) (by decide)), fun l _ => hl l⟩
  · simp only [h] at e
    rw [e]
    refine ⟨hb, by rw [hr]; rfl, by rw [hr]; rfl, by rw [hr]; rfl, by rw [hr]; rfl, fun u _ => by rw [hr]; rfl, fun h' => absurd h h', fun _ => ?_, (fun h' => absurd (h'.symm.trans h) (by decide)), (fun h' => absurd (h'.symm.trans h) (by decide)), fun l _ => hl l⟩
    unfold State.modStack
    rw [State.stack_setStack_same]
  · simp only [h] at e
    rw [e]
    unfold State.retrainLink
    dsimp only
    refine ⟨by rw [report_boot]; exact hb, ?_, ?_, ?_, ?_, fun u _ => ?_, fun _ => ?_, (fun h' => absurd (h'.symm.trans h) (by decide)), fun _ => ?_, (fun h' => absurd (h'.symm.trans h) (by decide)), fun l hne => ?_⟩
    · rw [State.report_dealers, hr]; rfl
    · rw [State.report_sched, hr]; rfl
    · rw [State.report_col, hr]; rfl
    · rw [State.report_power, hr]; rfl
    · rw [State.tile_report, hr]; rfl
    · rw [State.report_mem, hr]; rfl
    · rw [State.report_link, State.link_setLink_same]
    · rw [State.report_link, State.link_setLink_other _ _ _ _ (fun e => hne ⟨Or.inl h, e⟩)]; exact hl l
  · simp only [h] at e
    rw [e]
    refine ⟨hb, by rw [hr]; rfl, by rw [hr]; rfl, by rw [hr]; rfl, by rw [hr]; rfl, fun u _ => by rw [hr]; rfl, fun _ => by rw [hr]; rfl, (fun h' => absurd (h'.symm.trans h) (by decide)), (fun h' => absurd (h'.symm.trans h) (by decide)), fun _ => ?_, fun l hne => ?_⟩
    · unfold State.modLink; rw [State.link_setLink_same]
    · unfold State.modLink; rw [State.link_setLink_other _ _ _ _ (fun e => hne ⟨Or.inr h, e⟩)]; exact hl l

theorem setLanes (f : Margins → LaneMargin) : ∀ (xs : List Margins) (n : Nat) (m : SMap LaneMargin) (i : Nat),
    (((xs.zipIdx n).map (fun q => (q.2, f q.1))).foldl (fun m q => m.set .init q.1 q.2) m).get .init i
      = if n ≤ i ∧ i < n + xs.length then f (xs.getD (i - n) ⟨0, 0, 0, 0⟩) else m.get .init i
  | [], n, m, i => by
    rw [if_neg (by rw [List.length_nil]; omega)]; rfl
  | x :: xs, n, m, i => by
    rw [List.zipIdx_cons, List.map_cons, List.foldl_cons, setLanes f xs (n + 1), SMap.get_set, List.length_cons]
    by_cases h : i = n
    · subst h
      rw [if_neg (by omega), if_pos rfl, if_pos (by omega), Nat.sub_self]
      rfl
    · by_cases h2 : n + 1 ≤ i ∧ i < n + 1 + xs.length
      · rw [if_pos h2, if_pos (by omega), show i - n = (i - (n + 1)) + 1 by omega]
        rfl
      · rw [if_neg h2, if_neg h, if_neg (by omega)]

theorem kept_reports {α : Type} (f : State → α → State) (h : ∀ s a, Kept s (f s a) ∧ (f s a).mem = s.mem) : ∀ (xs : List α) (s : State),
    Kept s (xs.foldl f s) ∧ (xs.foldl f s).mem = s.mem
  | [], s => ⟨Kept.refl s, rfl⟩
  | a :: xs, s => by
    obtain ⟨h1, h2⟩ := h s a
    obtain ⟨k1, k2⟩ := kept_reports f h xs (f s a)
    exact ⟨h1.trans k1, k2.trans h2⟩

theorem marginLink_spec (s : State) (l : Nat) (rs : List Margins) (h8 : rs.length = 8) :
    LinksOnly s (s.marginLink l rs) ∧ (s.marginLink l rs).boot.queue = s.boot.queue ∧ ((s.marginLink l rs).link l).phase = .up
      ∧ (∀ k, k ≠ l → (s.marginLink l rs).link k = s.link k) ∧ ∀ i, i < 8 → ((s.marginLink l rs).link l).margins.get .init i = (s.link l).laneMargin (rs.getD i ⟨0, 0, 0, 0⟩) := by
  obtain ⟨lanes, hl⟩ : ∃ lanes, lanes = (rs.take 8).zipIdx.map (fun q => (q.2, (s.link l).laneMargin q.1)) := ⟨_, rfl⟩
  obtain ⟨s1, hs1⟩ : ∃ s1, s1 = s.setLink l { s.link l with margins := lanes.foldl (fun m q => m.set .init q.1 q.2) (s.link l).margins } := ⟨_, rfl⟩
  obtain ⟨s2, hs2⟩ : ∃ s2, s2 = (lanes.filter (fun q => !q.2.pass)).foldl (fun s _ => s.report Codes.linkMarginFail (s.linkInfo l)) s1 := ⟨_, rfl⟩
  have e : s.marginLink l rs = s2.linkUp l := by rw [hs2, hs1, hl]; rfl
  obtain ⟨k1, k2⟩ := kept_reports (fun s (_ : Nat × LaneMargin) => s.report Codes.linkMarginFail (s.linkInfo l)) (fun s _ => ⟨kept_report _ _ _, State.report_mem _ _ _⟩)
    (lanes.filter (fun q => !q.2.pass)) s1
  rw [← hs2] at k1 k2
  obtain ⟨u1, u2⟩ := State.linkUp_spec s2 l
  have hlk : ∀ k, s2.link k = s1.link k := fun k => State.link_congr k1.links k
  have h1l : s1.link l = { s.link l with margins := lanes.foldl (fun m q => m.set .init q.1 q.2) (s.link l).margins } := by rw [hs1, State.link_setLink_same]
  have hlo : LinksOnly s1 s2 := by
    have : ∀ (xs : List (Nat × LaneMargin)) (t : State), LinksOnly t (xs.foldl (fun s _ => s.report Codes.linkMarginFail (s.linkInfo l)) t) := by
      intro xs
      induction xs with
      | nil => exact fun t => LinksOnly.refl t
      | cons a xs ih => exact fun t => LinksOnly.trans (linksOnly_report _ _ _) (ih _)
    rw [hs2]; exact this _ _
  rw [e]
  refine ⟨LinksOnly.trans (LinksOnly.trans (by rw [hs1]; exact (linkTo_setLink s l _).2.2) hlo) u1.1, ?_, u2.same.1, ?_, ?_⟩
  · rw [u1.2.2.2.1, k1.queue, hs1]; rfl
  · intro k hk
    rw [u1.2.1 k hk, hlk, hs1, State.link_setLink_other _ _ _ _ hk]
  · intro i hi
    obtain ⟨a, b, c, d, e2⟩ := u2
    rw [e2]
    dsimp only
    rw [hlk, h1l]
    dsimp only
    rw [hl, List.take_of_length_le (by omega), setLanes, if_pos (by omega), Nat.sub_zero]

end Sys2Proof.Machine
end

