-- ==== Sys2Proof/Laws/Power.lean ====
section
/-!
SUPPORT. Laws/Power.lean: what faults and records of every job, and changes of every tile, leave.
-/

namespace Sys2Proof.Machine

open Sys2Proof.Claims

/-- Tiles below a bound each changed by a function of itself. -/
theorem tiles_fold (f : Nat → TileSt → TileSt) : ∀ (n : Nat) (s : State),
    (∀ t, ((List.range n).foldl (fun s t => s.modTile t (f t)) s).tile t = if t < n then f t (s.tile t) else s.tile t)
      ∧ (List.range n).foldl (fun s t => s.modTile t (f t)) s = { s with tiles := ((List.range n).foldl (fun s t => s.modTile t (f t)) s).tiles }
  | 0, s => ⟨fun t => by rw [if_neg (Nat.not_lt_zero t)]; rfl, rfl⟩
  | n + 1, s => by
    obtain ⟨h1, h2⟩ := tiles_fold f n s
    rw [List.range_succ, List.foldl_append, List.foldl_cons, List.foldl_nil]
    generalize (List.range n).foldl (fun s t => s.modTile t (f t)) s = a at h1 h2 ⊢
    refine ⟨fun t => ?_, ?_⟩
    · unfold State.modTile
      rw [State.tile_setTile]
      by_cases e : t = n
      · subst e; rw [if_pos rfl, if_pos (by omega), h1, if_neg (by omega)]
      · rw [if_neg e, h1]
        by_cases h : t < n
        · rw [if_pos h, if_pos (by omega)]
        · rw [if_neg h, if_neg (by omega)]
    · unfold State.modTile State.setTile
      rw [h2]

theorem setBudgets_spec (s : State) (b : SMap Nat) :
    (∀ t, t < 96 → (s.setBudgets b).tile t = { s.tile t with pwr := { (s.tile t).pwr with budget := b.get 0 t } })
      ∧ s.setBudgets b = { s with tiles := (s.setBudgets b).tiles } := by
  obtain ⟨h1, h2⟩ := tiles_fold (fun t x => { x with pwr := { x.pwr with budget := b.get 0 t } }) 96 s
  exact ⟨fun t ht => by unfold State.setBudgets; rw [h1, if_pos ht], h2⟩

theorem faultJob_same (s : State) (j : Nat) (c : Code) (k : Nat) :
    (s.faultJob j c).job k = if k = j then (s.job j).map (fun x => { x with fault := some (x.fault.getD c) }) else s.job k := by
  unfold State.faultJob
  rw [State.job_modJob]
  split
  · cases s.job j with
    | none => rfl
    | some x =>
      rw [Option.map_some, Option.map_some]
      congr 1
      cases hf : x.fault with
      | none => rfl
      | some d => cases x; simp_all
  · rfl

theorem jobs_mem (s : State) (j : Nat) (x : JobSt) (h : s.job j = some x) : j ∈ s.sched.jobs.map (·.1) := by
  unfold State.job SMap.get at h
  cases hf : s.sched.jobs.find? (fun p => p.1 == j) with
  | none => simp [hf] at h
  | some p =>
    have h1 := List.mem_of_find?_eq_some hf
    have h2 := List.find?_some hf
    simp at h2
    rw [← h2]
    exact List.mem_map_of_mem h1

theorem faultAll_fold (c : Code) : ∀ (js : List Nat) (s : State) (k : Nat),
    (js.foldl (fun s j => s.faultJob j c) s).job k = if k ∈ js then (s.job k).map (fun x => { x with fault := some (x.fault.getD c) }) else s.job k
  | [], s, k => by simp
  | j :: js, s, k => by
    rw [List.foldl_cons, faultAll_fold c js, faultJob_same]
    by_cases h : k = j
    · rw [if_pos h, h, if_pos (List.mem_cons_self)]
      split
      · rw [Option.map_map]
        congr 1
      · rfl
    · rw [if_neg h]
      by_cases h2 : k ∈ js
      · rw [if_pos h2, if_pos (List.mem_cons_of_mem _ h2)]
      · rw [if_neg h2, if_neg (by simp [h, h2])]

theorem faultAll_job (s : State) (c : Code) (j : Nat) (x : JobSt) (h : s.job j = some x) :
    (s.faultAll c).job j = some { x with fault := some (x.fault.getD c) } := by
  unfold State.faultAll
  rw [faultAll_fold, if_pos (jobs_mem s j x h), h]; rfl

theorem faultAll_rest (s : State) (c : Code) : s.faultAll c = { s with sched := { s.sched with jobs := (s.faultAll c).sched.jobs } } := by
  unfold State.faultAll
  generalize s.sched.jobs.map (·.1) = js
  induction js generalizing s with
  | nil => rfl
  | cons j js ih =>
    rw [List.foldl_cons]
    rw [ih (s.faultJob j c)]
    have : s.faultJob j c = { s with sched := { s.sched with jobs := (s.faultJob j c).sched.jobs } } := by
      unfold State.faultJob State.modJob
      split <;> rfl
    rw [this]

theorem reportOnce_rest (s : State) (j : Nat) (c : Code) (i : RecInfo) :
    (s.reportOnce j c i).tiles = s.tiles ∧ (s.reportOnce j c i).mem = s.mem ∧ (s.reportOnce j c i).links = s.links
    ∧ (s.reportOnce j c i).dealers = s.dealers ∧ (s.reportOnce j c i).col = s.col ∧ (s.reportOnce j c i).power = s.power
    ∧ (s.reportOnce j c i).codec = s.codec ∧ (s.reportOnce j c i).grade = s.grade ∧ (s.reportOnce j c i).fuses = s.fuses
    ∧ (∃ js, (s.reportOnce j c i).sched = { s.sched with jobs := js }) ∧ Grows s (s.reportOnce j c i) := by
  unfold State.reportOnce
  split
  · split
    · exact ⟨rfl, rfl, rfl, rfl, rfl, rfl, rfl, rfl, rfl, ⟨_, rfl⟩, Grows.of_eq rfl⟩
    · rename_i x _ _
      refine ⟨by simp, by simp, by simp, by simp, by simp, by simp, by simp, by simp, by simp, ⟨(s.setJob j (some { x with logged := c.toNat :: x.logged })).sched.jobs, ?_⟩, ?_⟩
      · rw [State.report_sched]; rfl
      · exact (Grows.of_eq rfl).trans (grows_report _ _ _)
  · exact ⟨rfl, rfl, rfl, rfl, rfl, rfl, rfl, rfl, rfl, ⟨_, rfl⟩, Grows.of_eq rfl⟩

theorem reportOnce_job (s : State) (j : Nat) (c : Code) (i : RecInfo) (k : Nat) :
    (s.reportOnce j c i).job k = if k = j then (s.job k).map (fun x => { x with logged := if x.logged.contains c.toNat then x.logged else c.toNat :: x.logged }) else s.job k := by
  unfold State.reportOnce
  by_cases h : k = j
  · subst h
    rw [if_pos rfl]
    cases hj : s.job k with
    | none => dsimp only; rw [hj]; rfl
    | some x =>
      dsimp only
      by_cases hc : x.logged.contains c.toNat
      · rw [if_pos hc, hj, Option.map_some, if_pos hc]
      · rw [if_neg hc, State.job_report, State.job_setJob_same, Option.map_some, if_neg hc]
  · rw [if_neg h]
    split
    · split
      · rfl
      · rw [State.job_report, State.job_setJob, if_neg h]
    · rfl

theorem onceEach_job (c : Code) (i : RecInfo) : ∀ (js : List Nat) (s : State) (k : Nat) (x : JobSt), s.job k = some x →
    ∃ l, (s.onceEach js c i).job k = some { x with logged := l } ∧ (k ∈ js → c.toNat ∈ l) ∧ (∀ n, n ∈ x.logged → n ∈ l)
  | [], s, k, x, h => ⟨x.logged, h, fun h => absurd h (by simp), fun _ h => h⟩
  | j :: js, s, k, x, h => by
    show ∃ l, ((s.reportOnce j c { i with job := j }).onceEach js c i).job k = _ ∧ _
    have hj := reportOnce_job s j c { i with job := j } k
    by_cases e : k = j
    · rw [if_pos e, h, Option.map_some] at hj
      obtain ⟨l, h1, h2, h3⟩ := onceEach_job c i js _ k _ hj
      refine ⟨l, h1, fun _ => h3 _ ?_, fun n hn => h3 n ?_⟩
      · dsimp only
        split
        · next h => simpa using h
        · exact List.mem_cons_self
      · dsimp only
        split
        · exact hn
        · exact List.mem_cons_of_mem _ hn
    · rw [if_neg e, h] at hj
      obtain ⟨l, h1, h2, h3⟩ := onceEach_job c i js _ k _ hj
      exact ⟨l, h1, fun hk => h2 ((List.mem_cons.1 hk).resolve_left e), h3⟩

theorem onceEach_rest (c : Code) (i : RecInfo) : ∀ (js : List Nat) (s : State),
    (s.onceEach js c i).tiles = s.tiles ∧ (s.onceEach js c i).mem = s.mem ∧ (s.onceEach js c i).links = s.links
    ∧ (s.onceEach js c i).dealers = s.dealers ∧ (s.onceEach js c i).col = s.col ∧ (s.onceEach js c i).power = s.power
    ∧ (s.onceEach js c i).codec = s.codec ∧ (s.onceEach js c i).grade = s.grade ∧ (s.onceEach js c i).fuses = s.fuses
    ∧ (∃ q, (s.onceEach js c i).sched = { s.sched with jobs := q }) ∧ Grows s (s.onceEach js c i)
  | [], s => ⟨rfl, rfl, rfl, rfl, rfl, rfl, rfl, rfl, rfl, ⟨_, rfl⟩, Grows.of_eq rfl⟩
  | j :: js, s => by
    obtain ⟨a1, a2, a3, a4, a5, a6, a7, a8, a9, ⟨q, a10⟩, a11⟩ := reportOnce_rest s j c { i with job := j }
    obtain ⟨b1, b2, b3, b4, b5, b6, b7, b8, b9, ⟨r, b10⟩, b11⟩ := onceEach_rest c i js (s.reportOnce j c { i with job := j })
    show ((s.reportOnce j c { i with job := j }).onceEach js c i).tiles = s.tiles ∧ _
    exact ⟨b1.trans a1, b2.trans a2, b3.trans a3, b4.trans a4, b5.trans a5, b6.trans a6, b7.trans a7, b8.trans a8, b9.trans a9, ⟨r, by show ((s.reportOnce j c { i with job := j }).onceEach js c i).sched = _; rw [b10, a10]⟩, a11.trans b11⟩

/-- One job of the list that has not had the code: its record is written. -/
theorem onceEach_logged (c : Code) (i : RecInfo) : ∀ (js : List Nat) (s : State) (k : Nat) (x : JobSt), k ∈ js → s.job k = some x →
    c.toNat ∉ x.logged → Logged s (s.onceEach js c i) c i.unit
  | [], _, _, _, h, _, _ => absurd h (by simp)
  | j :: js, s, k, x, h, hj, hl => by
    show Logged s ((s.reportOnce j c { i with job := j }).onceEach js c i) c i.unit
    by_cases e : k = j
    · subst e
      have h1 : s.reportOnce k c { i with job := k } = (s.setJob k (some { x with logged := c.toNat :: x.logged })).report c { i with job := k } := by
        unfold State.reportOnce
        rw [hj]
        dsimp only
        rw [if_neg (by simpa using hl)]
      have h2 : Logged s (s.reportOnce k c { i with job := k }) c i.unit := by
        rw [h1]
        exact logged_report (t := s.setJob k (some { x with logged := c.toNat :: x.logged })) (i := { i with job := k }) rfl rfl
      exact logged_grow h2 (onceEach_rest c i js _).2.2.2.2.2.2.2.2.2.2
    · have hk := reportOnce_job s j c { i with job := j } k
      rw [if_neg e, hj] at hk
      have := onceEach_logged c i js _ k x ((List.mem_cons.1 h).resolve_left e) hk hl
      exact logged_before (reportOnce_rest s j c { i with job := j }).2.2.2.2.2.2.2.2.2.2 this

theorem effBudget_zero (s : State) (t c : Nat) (h : (s.tile t).pwr.suppressed = true ∨ s.power.powerFail = true ∨ s.power.tripped = true) :
    s.effBudget t c = 0 := by
  unfold State.effBudget
  dsimp only
  rw [if_pos]
  rcases h with h | h | h <;> simp [h]

theorem losePage_rest (s : State) (p : Nat) : s.losePage p = { s with freeCtr := (s.losePage p).freeCtr, mem := { s.mem with bytes := (s.losePage p).mem.bytes } } := by
  unfold State.losePage
  split
  · split <;> rfl
  · rfl

theorem losePages_rest : ∀ (ps : List Nat) (s : State), ps.foldl State.losePage s
    = { s with freeCtr := (ps.foldl State.losePage s).freeCtr, mem := { s.mem with bytes := (ps.foldl State.losePage s).mem.bytes } }
  | [], _ => rfl
  | p :: ps, s => by
    rw [List.foldl_cons, losePages_rest ps (s.losePage p), losePage_rest s p]

end Sys2Proof.Machine
end

