-- ==== Sys2Proof/Laws/Grants.lean ====
section
/-!
SUPPORT. Laws/Grants.lean: what a control interval's sensors, records and grants leave.
-/

namespace Sys2Proof.Machine

open Sys2Proof.Claims

/-- Units used of a level. -/
def usedBy (l : CapLevel) (f : Nat → Nat) : Nat := (((List.range 96).filter (fun t => l.tiles.contains t)).map f).sum

theorem sum_bump (f : Nat → Nat) (t n : Nat) : ∀ (ts : List Nat), ts.Nodup →
    (ts.map (fun u => if u = t then f u + n else f u)).sum = (ts.map f).sum + if t ∈ ts then n else 0
  | [], _ => by simp
  | u :: ts, h => by
    rw [List.nodup_cons] at h
    rw [List.map_cons, List.sum_cons, List.map_cons, List.sum_cons, sum_bump f t n ts h.2]
    by_cases e : u = t
    · subst e
      rw [if_pos rfl, if_neg h.1, if_pos List.mem_cons_self]; omega
    · rw [if_neg e]
      by_cases h2 : t ∈ ts
      · rw [if_pos h2, if_pos (List.mem_cons_of_mem _ h2)]; omega
      · rw [if_neg h2, if_neg (by simp [h2, Ne.symm e])]; omega

theorem usedBy_bump (l : CapLevel) (f : Nat → Nat) (t n : Nat) (ht : t < 96) :
    usedBy l (fun u => if u = t then f u + n else f u) = usedBy l f + if l.tiles.contains t then n else 0 := by
  unfold usedBy
  rw [sum_bump f t n _ (List.Nodup.filter _ List.nodup_range)]
  congr 1
  by_cases h : l.tiles.contains t
  · rw [if_pos h, if_pos (by rw [List.mem_filter]; exact ⟨List.mem_range.2 ht, h⟩)]
  · rw [if_neg h, if_neg (by rw [List.mem_filter]; exact fun e => h e.2)]

theorem sum_le (f g : Nat → Nat) : ∀ ts : List Nat, (∀ t ∈ ts, f t ≤ g t) → (ts.map f).sum ≤ (ts.map g).sum
  | [], _ => Nat.le_refl _
  | t :: ts, h => by
    rw [List.map_cons, List.sum_cons, List.map_cons, List.sum_cons]
    exact Nat.add_le_add (h t List.mem_cons_self) (sum_le f g ts (fun u hu => h u (List.mem_cons_of_mem _ hu)))

theorem usedBy_le (l : CapLevel) (f g : Nat → Nat) (h : ∀ t, t < 96 → f t ≤ g t) : usedBy l f ≤ usedBy l g := by
  unfold usedBy
  exact sum_le f g _ (fun t ht => h t (List.mem_range.1 (List.mem_filter.1 ht).1))

theorem usedBy_congr (l : CapLevel) (f g : Nat → Nat) (h : ∀ t, t < 96 → f t = g t) : usedBy l f = usedBy l g :=
  Nat.le_antisymm (usedBy_le l f g (fun t ht => Nat.le_of_eq (h t ht))) (usedBy_le l g f (fun t ht => Nat.le_of_eq (h t ht).symm))

/-- The units left are those of the level less those given. -/
def UnitsLeft (lv : List CapLevel) (u0 : CapLevel → Nat) (g : Grants) : Prop :=
  g.u = lv.map (fun l => ((u0 l : Nat) : Int) - ((usedBy l (fun t => g.b.get 0 t) : Nat) : Int))

theorem give_b (lv : List CapLevel) (g : Grants) (t n u : Nat) : (g.give lv t n).b.get 0 u = if u = t then g.b.get 0 u + n else g.b.get 0 u := by
  unfold Grants.give
  dsimp only
  rw [SMap.get_set]
  split
  · next h => rw [h]
  · rfl

theorem zip_map_self (f : CapLevel → Int) (lv : List CapLevel) : lv.zip (lv.map f) = lv.map (fun l => (l, f l)) := by
  induction lv with
  | nil => rfl
  | cons l lv ih => simp [ih]

theorem give_bal (lv : List CapLevel) (u0 : CapLevel → Nat) (g : Grants) (t n : Nat) (ht : t < 96) (h : UnitsLeft lv u0 g) : UnitsLeft lv u0 (g.give lv t n) := by
  unfold UnitsLeft at *
  have hb : (fun u => (g.give lv t n).b.get 0 u) = fun u => if u = t then g.b.get 0 u + n else g.b.get 0 u := funext (give_b lv g t n)
  rw [hb]
  show (lv.zip g.u).map _ = _
  rw [h, zip_map_self, List.map_map]
  refine List.map_congr_left (fun l _ => ?_)
  dsimp only [Function.comp]
  rw [usedBy_bump l (fun u => g.b.get 0 u) t n ht]
  split
  · push_cast; ring
  · simp

theorem spare_iff (lv : List CapLevel) (u0 : CapLevel → Nat) (g : Grants) (t : Nat) (h : UnitsLeft lv u0 g) :
    g.spare lv t = true ↔ ∀ l ∈ lv, l.tiles.contains t = true → usedBy l (fun t => g.b.get 0 t) < u0 l := by
  unfold UnitsLeft at h
  unfold Grants.spare
  rw [h, zip_map_self, List.all_map, List.all_eq_true]
  refine forall_congr' (fun l => forall_congr' (fun _ => ?_))
  dsimp only [Function.comp]
  simp only [Bool.or_eq_true, Bool.not_eq_true', decide_eq_true_eq]
  constructor
  · intro h hc
    rcases h with h | h
    · rw [hc] at h; cases h
    · omega
  · intro h
    by_cases hc : l.tiles.contains t = true
    · right; have := h hc; omega
    · left; simpa using hc

/-- What giving units to some of the tiles leaves. -/
structure Given (lv : List CapLevel) (u0 : CapLevel → Nat) (want : Nat → Nat) (ts : List Nat) (g h : Grants) : Prop where
  bal : UnitsLeft lv u0 h
  up : ∀ t, g.b.get 0 t ≤ h.b.get 0 t
  out : ∀ t, t ∉ ts → h.b.get 0 t = g.b.get 0 t
  le : ∀ t, h.b.get 0 t ≤ max (g.b.get 0 t) (want t)
  cap : ∀ l ∈ lv, usedBy l (fun t => h.b.get 0 t) ≤ max (u0 l) (usedBy l (fun t => g.b.get 0 t))
  stop : ∀ t, t < 96 → h.b.get 0 t ≠ g.b.get 0 t → ∀ l ∈ lv, l.tiles.contains t = true → usedBy l (fun t => g.b.get 0 t) < u0 l

theorem Given.refl (lv : List CapLevel) (u0 : CapLevel → Nat) (want : Nat → Nat) (ts : List Nat) (g : Grants) (hb : UnitsLeft lv u0 g) : Given lv u0 want ts g g :=
  ⟨hb, fun _ => Nat.le_refl _, fun _ _ => rfl, fun _ => Nat.le_max_left _ _, fun _ _ => Nat.le_max_right _ _, fun _ _ h => absurd rfl h⟩

theorem Given.trans {lv : List CapLevel} {u0 : CapLevel → Nat} {want : Nat → Nat} {ts : List Nat} {a b c : Grants} (h : Given lv u0 want ts a b) (k : Given lv u0 want ts b c) : Given lv u0 want ts a c := by
  refine ⟨k.bal, fun t => Nat.le_trans (h.up t) (k.up t), fun t ht => (k.out t ht).trans (h.out t ht), fun t => ?_, fun l hl => ?_, fun t ht hne l hl hc => ?_⟩
  · have := h.le t; have := k.le t; omega
  · have := h.cap l hl; have := k.cap l hl; omega
  · by_cases e : b.b.get 0 t = a.b.get 0 t
    · have := k.stop t ht (by rw [e]; exact hne) l hl hc
      have h2 := usedBy_le l (fun t => a.b.get 0 t) (fun t => b.b.get 0 t) (fun t _ => h.up t)
      omega
    · exact h.stop t ht e l hl hc

theorem Given.mono {lv : List CapLevel} {u0 : CapLevel → Nat} {want : Nat → Nat} {ts us : List Nat} {a b : Grants} (h : Given lv u0 want ts a b) (hs : ∀ t ∈ ts, t ∈ us) : Given lv u0 want us a b :=
  ⟨h.bal, h.up, fun t ht => h.out t (fun e => ht (hs t e)), h.le, h.cap, h.stop⟩

/-- One tile of a round. -/
theorem visit_spec (lv : List CapLevel) (u0 : CapLevel → Nat) (want : Nat → Nat) (g : Grants) (t : Nat) (ht : t < 96) (hb : UnitsLeft lv u0 g) :
    let h := if g.b.get 0 t < want t && g.spare lv t then g.give lv t 1 else g
    Given lv u0 want [t] g h
      ∧ (g.b.get 0 t < want t → h.b.get 0 t = g.b.get 0 t + 1 ∨ ∃ l ∈ lv, l.tiles.contains t = true ∧ u0 l ≤ usedBy l (fun t => h.b.get 0 t)) := by
  dsimp only
  split
  · rename_i hc
    rw [Bool.and_eq_true, decide_eq_true_eq, spare_iff lv u0 g t hb] at hc
    obtain ⟨h1, h2⟩ := hc
    refine ⟨⟨give_bal lv u0 g t 1 ht hb, fun u => ?_, fun u hu => ?_, fun u => ?_, fun l hl => ?_, fun u hu hne l hl hcu => ?_⟩, fun _ => Or.inl ?_⟩
    · rw [give_b]; split <;> omega
    · rw [give_b, if_neg (by simpa using hu)]
    · rw [give_b]; split
      · next e => subst e; omega
      · omega
    · rw [show (fun u => (g.give lv t 1).b.get 0 u) = fun u => if u = t then g.b.get 0 u + 1 else g.b.get 0 u from funext (give_b lv g t 1)]
      rw [usedBy_bump l (fun u => g.b.get 0 u) t 1 ht]
      split
      · next hcl => have := h2 l hl hcl; omega
      · omega
    · rw [give_b] at hne
      by_cases e : u = t
      · subst e; exact h2 l hl hcu
      · rw [if_neg e] at hne; exact absurd rfl hne
    · rw [give_b, if_pos rfl]
  · rename_i hc
    refine ⟨Given.refl lv u0 want _ g hb, fun hw => Or.inr ?_⟩
    have : ¬ g.spare lv t = true := by
      intro hs; exact hc (by rw [Bool.and_eq_true, decide_eq_true_eq]; exact ⟨hw, hs⟩)
    rw [spare_iff lv u0 g t hb] at this
    push Not at this
    obtain ⟨l, hl, hcl, hu⟩ := this
    exact ⟨l, hl, hcl, hu⟩

/-- One round: each tile of it below its want rises by one, or a level of it is used up. -/
theorem round_spec (lv : List CapLevel) (u0 : CapLevel → Nat) (want : Nat → Nat) : ∀ (ts : List Nat) (g : Grants), (∀ t ∈ ts, t < 96) → UnitsLeft lv u0 g →
    Given lv u0 want ts g (g.round lv want ts)
      ∧ ∀ t ∈ ts, g.b.get 0 t < want t → g.b.get 0 t + 1 ≤ (g.round lv want ts).b.get 0 t ∨ ∃ l ∈ lv, l.tiles.contains t = true ∧ u0 l ≤ usedBy l (fun t => (g.round lv want ts).b.get 0 t)
  | [], g, _, hb => ⟨Given.refl lv u0 want _ g hb, fun t ht => absurd ht (by simp)⟩
  | a :: ts, g, hlt, hb => by
    obtain ⟨v1, v2⟩ := visit_spec lv u0 want g a (hlt a List.mem_cons_self) hb
    generalize hh : (if g.b.get 0 a < want a && g.spare lv a then g.give lv a 1 else g) = h at v1 v2
    have e : g.round lv want (a :: ts) = h.round lv want ts := by
      unfold Grants.round
      rw [List.foldl_cons, hh]
    obtain ⟨r1, r2⟩ := round_spec lv u0 want ts h (fun t ht => hlt t (List.mem_cons_of_mem _ ht)) v1.bal
    rw [e]
    refine ⟨(v1.mono (by simp)).trans (r1.mono (fun t ht => List.mem_cons_of_mem _ ht)), fun t ht hw => ?_⟩
    rcases List.mem_cons.1 ht with rfl | ht
    · rcases v2 hw with h1 | ⟨l, hl, hc, hu⟩
      · left; have := r1.up t; omega
      · right; exact ⟨l, hl, hc, Nat.le_trans hu (usedBy_le l _ _ (fun t _ => r1.up t))⟩
    · by_cases hw2 : h.b.get 0 t < want t
      · rcases r2 t ht hw2 with h1 | h1
        · left; have := v1.up t; omega
        · right; exact h1
      · left; have := r1.up t; omega

theorem fill_spec (lv : List CapLevel) (u0 : CapLevel → Nat) (want : Nat → Nat) (ts : List Nat) (hlt : ∀ t ∈ ts, t < 96) : ∀ (n : Nat) (g : Grants), UnitsLeft lv u0 g →
    Given lv u0 want ts g (Grants.fill lv want ts n g)
      ∧ ∀ t ∈ ts, (Grants.fill lv want ts n g).b.get 0 t < min (want t) (g.b.get 0 t + n) → ∃ l ∈ lv, l.tiles.contains t = true ∧ u0 l ≤ usedBy l (fun t => (Grants.fill lv want ts n g).b.get 0 t)
  | 0, g, hb => ⟨Given.refl lv u0 want _ g hb, fun t _ h => by exfalso; unfold Grants.fill at h; omega⟩
  | n + 1, g, hb => by
    obtain ⟨r1, r2⟩ := round_spec lv u0 want ts g hlt hb
    obtain ⟨f1, f2⟩ := fill_spec lv u0 want ts hlt n (g.round lv want ts) r1.bal
    have e : Grants.fill lv want ts (n + 1) g = Grants.fill lv want ts n (g.round lv want ts) := rfl
    rw [e]
    refine ⟨r1.trans f1, fun t ht h => ?_⟩
    by_cases hw : g.b.get 0 t < want t
    · rcases r2 t ht hw with h1 | ⟨l, hl, hc, hu⟩
      · exact f2 t ht (by omega)
      · exact ⟨l, hl, hc, Nat.le_trans hu (usedBy_le l _ _ (fun t _ => f1.up t))⟩
    · exfalso
      have := r1.up t; have := f1.up t; omega

theorem floors_spec (lv : List CapLevel) (u0 : CapLevel → Nat) (floor : Nat → Nat) : ∀ (ts : List Nat) (g : Grants), (∀ t ∈ ts, t < 96) → ts.Nodup → UnitsLeft lv u0 g →
    UnitsLeft lv u0 (Grants.floors lv floor ts g) ∧ ∀ t, (Grants.floors lv floor ts g).b.get 0 t = g.b.get 0 t + if t ∈ ts then floor t else 0
  | [], g, _, _, hb => ⟨hb, fun t => by simp [Grants.floors]⟩
  | a :: ts, g, hlt, hn, hb => by
    rw [List.nodup_cons] at hn
    obtain ⟨h1, h2⟩ := floors_spec lv u0 floor ts (g.give lv a (floor a)) (fun t ht => hlt t (List.mem_cons_of_mem _ ht)) hn.2 (give_bal lv u0 g a _ (hlt a List.mem_cons_self) hb)
    have e : Grants.floors lv floor (a :: ts) g = Grants.floors lv floor ts (g.give lv a (floor a)) := rfl
    rw [e]
    refine ⟨h1, fun t => ?_⟩
    rw [h2, give_b]
    by_cases e : t = a
    · subst e; rw [if_pos rfl, if_neg hn.1, if_pos List.mem_cons_self]; omega
    · rw [if_neg e]
      by_cases h : t ∈ ts
      · rw [if_pos h, if_pos (List.mem_cons_of_mem _ h)]
      · rw [if_neg h, if_neg (by simp [e, h])]

/-- The four groups in turn. -/
theorem groups_spec (lv : List CapLevel) (u0 : CapLevel → Nat) (want : Nat → Nat) : ∀ (gs : List (List Nat)) (g : Grants), (∀ ts ∈ gs, ∀ t ∈ ts, t < 96) → gs.Pairwise List.Disjoint → UnitsLeft lv u0 g →
    let h := gs.foldl (fun g ts => Grants.fill lv want ts 64 g) g
    Given lv u0 want gs.flatten g h
      ∧ ∀ t ts, ts ∈ gs → t ∈ ts → h.b.get 0 t < min (want t) 64 → ∃ l ∈ lv, l.tiles.contains t = true ∧ u0 l ≤ usedBy l (fun t => h.b.get 0 t)
          ∧ ∀ us vs, gs = us ++ ts :: vs → ∀ v ∈ vs, ∀ u ∈ v, u < 96 → l.tiles.contains u = true → h.b.get 0 u = g.b.get 0 u
  | [], g, _, _, hb => ⟨Given.refl lv u0 want _ g hb, fun _ _ h => absurd h (by simp)⟩
  | a :: gs, g, hlt, hd, hb => by
    intro h
    rw [List.pairwise_cons] at hd
    obtain ⟨f1, f2⟩ := fill_spec lv u0 want a (hlt a List.mem_cons_self) 64 g hb
    obtain ⟨k, hk⟩ : ∃ k, k = Grants.fill lv want a 64 g := ⟨_, rfl⟩
    rw [← hk] at f1 f2
    obtain ⟨i1, i2⟩ := groups_spec lv u0 want gs k (fun ts hts => hlt ts (List.mem_cons_of_mem _ hts)) hd.2 f1.bal
    have e : h = gs.foldl (fun g ts => Grants.fill lv want ts 64 g) k := by rw [hk]; rfl
    rw [← e] at i1 i2
    clear_value h
    refine ⟨(f1.mono (fun t ht => by simp [ht])).trans (i1.mono (fun t ht => by simp only [List.flatten_cons, List.mem_append]; exact Or.inr ht)), fun t ts hts ht hlt' => ?_⟩
    by_cases ha : t ∈ a
    · have hst : t ∉ gs.flatten := by
        rw [List.mem_flatten]
        rintro ⟨us, hus, hu⟩
        exact hd.1 us hus ha hu
      have hb2 := i1.out t hst
      obtain ⟨l, hl, hc, hu⟩ := f2 t ha (by rw [hb2] at hlt'; omega)
      refine ⟨l, hl, hc, Nat.le_trans hu (usedBy_le l _ _ (fun t _ => i1.up t)), fun us vs hsplit v hv u hu' hu96 hcu => ?_⟩
      have hkeep : h.b.get 0 u = k.b.get 0 u := by
        by_contra hne
        have := i1.stop u hu96 hne l hl hcu
        omega
      have hnot : u ∉ a := by
        intro hua
        have hv2 : v ∈ gs := by
          cases us with
          | nil => rw [List.nil_append] at hsplit; injection hsplit with _ e2; rw [e2]; exact hv
          | cons w us => rw [List.cons_append] at hsplit; injection hsplit with _ e2; rw [e2]; simp [hv]
        exact hd.1 v hv2 hua hu'
      rw [hkeep, f1.out u hnot]
    · have hts2 : ts ∈ gs := by
        rcases List.mem_cons.1 hts with rfl | h'
        · exact absurd ht ha
        · exact h'
      obtain ⟨l, hl, hc, hu, hlater⟩ := i2 t ts hts2 ht hlt'
      refine ⟨l, hl, hc, hu, fun us vs hsplit v hv u hu' hu96 hcu => ?_⟩
      cases us with
      | nil =>
        rw [List.nil_append] at hsplit; injection hsplit with e1 _
        rw [e1] at ha; exact absurd ht ha
      | cons w us =>
        rw [List.cons_append] at hsplit; injection hsplit with _ e2
        have h1 := hlater us vs e2 v hv u hu' hu96 hcu
        have hv2 : v ∈ gs := by rw [e2]; simp [hv]
        rw [h1, f1.out u (fun hua => hd.1 v hv2 hua hu')]

/-- What the four passes leave (R439). -/
theorem run_spec (i : GrantIn) (u0 : CapLevel → Nat) (hu : i.units = i.lv.map u0) (hl : ∀ t ∈ i.lc, t < 96) (hb : ∀ t ∈ i.be, t < 96)
    (hn : i.lc.Nodup) (hn2 : i.be.Nodup) (hd : i.lc.Disjoint i.be) :
    let g := i.afterFloors
    let h := i.run
    let rank (t : Nat) : Nat := (if t ∈ i.lc then 0 else 2) + if i.announced t then 0 else 1
    (∀ t, g.b.get 0 t = if t ∈ i.lc ∨ t ∈ i.be then i.floor t else 0)
      ∧ (∀ t, g.b.get 0 t ≤ h.b.get 0 t ∧ h.b.get 0 t ≤ max (g.b.get 0 t) (i.want t)) ∧ (∀ t, t ∉ i.lc → t ∉ i.be → h.b.get 0 t = 0)
      ∧ (∀ l ∈ i.lv, usedBy l (fun t => h.b.get 0 t) ≤ max (u0 l) (usedBy l (fun t => g.b.get 0 t)))
      ∧ ∀ t, (t ∈ i.lc ∨ t ∈ i.be) → h.b.get 0 t < min (i.want t) 64 → ∃ l ∈ i.lv, l.tiles.contains t = true ∧ u0 l ≤ usedBy l (fun t => h.b.get 0 t)
          ∧ ∀ u, u < 96 → l.tiles.contains u = true → (u ∈ i.lc ∨ u ∈ i.be) → rank t < rank u → h.b.get 0 u = g.b.get 0 u := by
  intro g h rank
  have b0 : UnitsLeft i.lv u0 ⟨[], i.units.map (fun (n : Nat) => (n : Int))⟩ := by
    unfold UnitsLeft
    dsimp only
    rw [hu, List.map_map]
    refine List.map_congr_left (fun l _ => ?_)
    have : usedBy l (fun t => SMap.get 0 ([] : SMap Nat) t) = 0 := by
      unfold usedBy
      have : ∀ ts : List Nat, (ts.map (fun t => SMap.get 0 ([] : SMap Nat) t)).sum = 0 := by
        intro ts
        induction ts with
        | nil => rfl
        | cons t ts ih => rw [List.map_cons, List.sum_cons, ih]; rfl
      exact this _
    rw [this]
    simp
  obtain ⟨c1, c2⟩ := floors_spec i.lv u0 i.floor i.lc _ hl hn b0
  obtain ⟨d1, d2⟩ := floors_spec i.lv u0 i.floor i.be _ hb hn2 c1
  have hg : ∀ t, g.b.get 0 t = if t ∈ i.lc ∨ t ∈ i.be then i.floor t else 0 := by
    intro t
    have : g.b.get 0 t = _ := d2 t
    rw [this, c2]
    show 0 + _ + _ = _
    by_cases h1 : t ∈ i.lc
    · rw [if_pos h1, if_neg (fun h2 => hd h1 h2), if_pos (Or.inl h1)]; omega
    · rw [if_neg h1]
      by_cases h2 : t ∈ i.be
      · rw [if_pos h2, if_pos (Or.inr h2)]; omega
      · rw [if_neg h2, if_neg (by simp [h1, h2])]
  have hbal : UnitsLeft i.lv u0 g := d1
  have hrun : h = [i.lc.filter i.announced, i.lc.filter (fun t => !i.announced t), i.be.filter i.announced, i.be.filter (fun t => !i.announced t)].foldl
      (fun g ts => Grants.fill i.lv i.want ts 64 g) g := rfl
  have hpair : [i.lc.filter i.announced, i.lc.filter (fun t => !i.announced t), i.be.filter i.announced, i.be.filter (fun t => !i.announced t)].Pairwise List.Disjoint := by
    have a1 : ∀ (p q : Nat → Bool), (i.lc.filter p).Disjoint (i.be.filter q) := fun p q x h1 h2 => hd (List.mem_filter.1 h1).1 (List.mem_filter.1 h2).1
    have a2 : ∀ ts : List Nat, (ts.filter i.announced).Disjoint (ts.filter (fun t => !i.announced t)) := fun ts x h1 h2 => by
      have e1 := (List.mem_filter.1 h1).2; have e2 := (List.mem_filter.1 h2).2
      rw [e1] at e2; cases e2
    simp only [List.pairwise_cons, List.mem_cons, List.not_mem_nil, or_false, forall_eq_or_imp, forall_eq, List.Pairwise.nil, and_true, false_imp_iff, implies_true]
    exact ⟨⟨a2 _, a1 _ _, a1 _ _⟩, ⟨a1 _ _, a1 _ _⟩, a2 _⟩
  obtain ⟨k1, k2⟩ := groups_spec i.lv u0 i.want _ g (by
    intro ts hts t ht
    simp only [List.mem_cons, List.not_mem_nil, or_false] at hts
    rcases hts with rfl | rfl | rfl | rfl
    · exact hl t (List.mem_filter.1 ht).1
    · exact hl t (List.mem_filter.1 ht).1
    · exact hb t (List.mem_filter.1 ht).1
    · exact hb t (List.mem_filter.1 ht).1) hpair hbal
  rw [← hrun] at k1 k2
  clear_value h g
  refine ⟨hg, fun t => ⟨k1.up t, k1.le t⟩, fun t h1 h2 => ?_, k1.cap, fun t ht hlt => ?_⟩
  · rw [k1.out t (by simp [h1, h2]), hg, if_neg (by simp [h1, h2])]
  · -- the group of t, and those after it
    have key : ∀ (ts : List Nat) (us vs : List (List Nat)), [i.lc.filter i.announced, i.lc.filter (fun t => !i.announced t), i.be.filter i.announced, i.be.filter (fun t => !i.announced t)] = us ++ ts :: vs → t ∈ ts →
        (∀ u, (u ∈ i.lc ∨ u ∈ i.be) → rank t < rank u → ∃ v ∈ vs, u ∈ v) →
        ∃ l ∈ i.lv, l.tiles.contains t = true ∧ u0 l ≤ usedBy l (fun t => h.b.get 0 t)
          ∧ ∀ u, u < 96 → l.tiles.contains u = true → (u ∈ i.lc ∨ u ∈ i.be) → rank t < rank u → h.b.get 0 u = g.b.get 0 u := by
      intro ts us vs e hts hlater
      obtain ⟨l, hl1, hl2, hl3, hl4⟩ := k2 t ts (by rw [e]; simp) hts hlt
      refine ⟨l, hl1, hl2, hl3, fun u hu hcu hact hr => ?_⟩
      obtain ⟨v, hv, huv⟩ := hlater u hact hr
      exact hl4 us vs e v hv u huv hu hcu
    have f1 : ∀ u, u ∈ i.be → i.announced u = true → u ∈ i.be.filter i.announced := fun u h1 h2 => List.mem_filter.2 ⟨h1, h2⟩
    have f2 : ∀ u, u ∈ i.be → i.announced u = false → u ∈ i.be.filter (fun t => !i.announced t) := fun u h1 h2 => List.mem_filter.2 ⟨h1, by rw [h2]; rfl⟩
    have f3 : ∀ u, u ∈ i.lc → i.announced u = false → u ∈ i.lc.filter (fun t => !i.announced t) := fun u h1 h2 => List.mem_filter.2 ⟨h1, by rw [h2]; rfl⟩
    have f4 : ∀ u, u ∈ i.lc → i.announced u = true → u ∈ i.lc.filter i.announced := fun u h1 h2 => List.mem_filter.2 ⟨h1, h2⟩
    have rk : ∀ u, rank u = (if u ∈ i.lc then 0 else 2) + if i.announced u then 0 else 1 := fun _ => rfl
    have nb : t ∈ i.be → t ∉ i.lc := fun h1 h2 => hd h2 h1
    cases ha : i.announced t with
    | true =>
      rcases ht with ht | ht
      · refine key _ [] _ rfl (f4 t ht ha) (fun u hu hr => ?_)
        rw [rk, rk, if_pos ht, ha] at hr
        cases hua : i.announced u with
        | true =>
          rw [hua] at hr
          by_cases hul : u ∈ i.lc
          · rw [if_pos hul] at hr; exact absurd hr (by decide)
          · exact ⟨_, by simp, f1 u (hu.resolve_left hul) hua⟩
        | false =>
          by_cases hul : u ∈ i.lc
          · exact ⟨_, List.mem_cons_self, f3 u hul hua⟩
          · exact ⟨_, by simp, f2 u (hu.resolve_left hul) hua⟩
      · refine key _ [_, _] _ rfl (f1 t ht ha) (fun u hu hr => ?_)
        rw [rk, rk, if_neg (nb ht), ha] at hr
        cases hua : i.announced u with
        | true =>
          rw [hua] at hr
          by_cases hul : u ∈ i.lc
          · rw [if_pos hul] at hr; exact absurd hr (by decide)
          · rw [if_neg hul] at hr; exact absurd hr (by decide)
        | false =>
          rw [hua] at hr
          by_cases hul : u ∈ i.lc
          · rw [if_pos hul] at hr; exact absurd hr (by decide)
          · exact ⟨_, List.mem_cons_self, f2 u (hu.resolve_left hul) hua⟩
    | false =>
      rcases ht with ht | ht
      · refine key _ [_] _ rfl (f3 t ht ha) (fun u hu hr => ?_)
        rw [rk, rk, if_pos ht, ha] at hr
        cases hua : i.announced u with
        | true =>
          rw [hua] at hr
          by_cases hul : u ∈ i.lc
          · rw [if_pos hul] at hr; exact absurd hr (by decide)
          · exact ⟨_, List.mem_cons_self, f1 u (hu.resolve_left hul) hua⟩
        | false =>
          rw [hua] at hr
          by_cases hul : u ∈ i.lc
          · rw [if_pos hul] at hr; exact absurd hr (by decide)
          · exact ⟨_, by simp, f2 u (hu.resolve_left hul) hua⟩
      · refine key _ [_, _, _] [] rfl (f2 t ht ha) (fun u hu hr => ?_)
        exfalso
        rw [rk, rk, if_neg (nb ht), ha] at hr
        rw [if_neg (show ¬ false = true by decide)] at hr
        split at hr <;> split at hr <;> omega

/-- What the records, sensors and counters of an interval leave of a state. -/
structure Calm (s m : State) : Prop where
  tile : ∀ t, m.tile t = { s.tile t with pwr := { (s.tile t).pwr with tempC := (m.tile t).pwr.tempC, throttled := (m.tile t).pwr.throttled } }
  job : ∀ j, ∃ l, m.job j = (s.job j).map (fun y => { y with logged := l })
  ante : m.sched.ante = s.sched.ante
  part : m.sched.partition = s.sched.partition
  bytes : m.mem.bytes = s.mem.bytes
  pages : m.mem.pages = s.mem.pages
  links : m.links = s.links
  col : m.col = s.col
  codec : m.codec = s.codec
  grade : m.grade = s.grade
  fuses : m.fuses = s.fuses
  cal : m.boot.userCal = s.boot.userCal
  live : m.power.live = s.power.live
  cfg : m.power.cfg = s.power.cfg
  fail : m.power.powerFail = s.power.powerFail
  trip : m.power.tripped = s.power.tripped
  watt : m.power.watt = s.power.watt

theorem Calm.refl (s : State) : Calm s s :=
  ⟨fun _ => rfl, fun j => by cases h : s.job j with
    | none => exact ⟨[], rfl⟩
    | some x => exact ⟨x.logged, rfl⟩, rfl, rfl, rfl, rfl, rfl, rfl, rfl, rfl, rfl, rfl, rfl, rfl, rfl, rfl, rfl⟩

theorem Calm.trans {a b c : State} (h : Calm a b) (k : Calm b c) : Calm a c :=
  ⟨fun t => by rw [k.tile t, h.tile t], fun j => by
    obtain ⟨l1, e1⟩ := h.job j
    obtain ⟨l2, e2⟩ := k.job j
    exact ⟨l2, by rw [e2, e1, Option.map_map]; rfl⟩,
   k.ante.trans h.ante, k.part.trans h.part, k.bytes.trans h.bytes, k.pages.trans h.pages, k.links.trans h.links, k.col.trans h.col, k.codec.trans h.codec, k.grade.trans h.grade,
   k.fuses.trans h.fuses, k.cal.trans h.cal, k.live.trans h.live, k.cfg.trans h.cfg, k.fail.trans h.fail, k.trip.trans h.trip, k.watt.trans h.watt⟩

/-- A state that keeps all that Calm names. -/
theorem Calm.of_eq {s m : State} (h1 : m.tiles = s.tiles) (h2 : ∀ j, ∃ l, m.job j = (s.job j).map (fun y => { y with logged := l })) (h3 : m.sched.ante = s.sched.ante ∧ m.sched.partition = s.sched.partition)
    (h4 : m.mem = s.mem) (h5 : m.links = s.links ∧ m.col = s.col ∧ m.codec = s.codec ∧ m.grade = s.grade ∧ m.fuses = s.fuses) (h6 : m.boot.userCal = s.boot.userCal)
    (h7 : m.power.live = s.power.live ∧ m.power.cfg = s.power.cfg ∧ m.power.powerFail = s.power.powerFail ∧ m.power.tripped = s.power.tripped ∧ m.power.watt = s.power.watt) : Calm s m :=
  ⟨fun t => by have : m.tile t = s.tile t := by unfold State.tile; rw [h1]
               rw [this], h2, h3.1, h3.2, by rw [h4], by rw [h4], h5.1, h5.2.1, h5.2.2.1, h5.2.2.2.1, h5.2.2.2.2, h6, h7.1, h7.2.1, h7.2.2.1, h7.2.2.2.1, h7.2.2.2.2⟩

theorem job_id (s : State) (j : Nat) : ∃ l, s.job j = (s.job j).map (fun y => { y with logged := l }) := (Calm.refl s).job j

theorem calm_report (s : State) (c : Code) (i : RecInfo) : Calm s (s.report c i) := by
  obtain ⟨q1, q2, q3, q4, q5, q6, q7⟩ := report_rest s c i
  exact Calm.of_eq q1 (fun j => by rw [State.job_report]; exact job_id s j) (by rw [q5]; exact ⟨rfl, rfl⟩) q2 ⟨q3, q6, by simp, by simp, by simp⟩ (by rw [report_boot]) (by rw [q7]; exact ⟨rfl, rfl, rfl, rfl, rfl⟩)

theorem onceEach_boot (c : Code) (i : RecInfo) : ∀ (js : List Nat) (s : State), (s.onceEach js c i).boot.userCal = s.boot.userCal
  | [], _ => rfl
  | j :: js, s => by
    show ((s.reportOnce j c { i with job := j }).onceEach js c i).boot.userCal = _
    rw [onceEach_boot c i js]
    unfold State.reportOnce
    split
    · split
      · rfl
      · rw [report_boot]; rfl
    · rfl

theorem onceEach_none (c : Code) (i : RecInfo) : ∀ (js : List Nat) (s : State) (k : Nat), s.job k = none → (s.onceEach js c i).job k = none
  | [], _, _, h => h
  | j :: js, s, k, h => by
    show ((s.reportOnce j c { i with job := j }).onceEach js c i).job k = none
    refine onceEach_none c i js _ k ?_
    rw [reportOnce_job, h]
    split <;> rfl

theorem calm_onceEach (s : State) (js : List Nat) (c : Code) (i : RecInfo) : Calm s (s.onceEach js c i) := by
  obtain ⟨a1, a2, a3, a4, a5, a6, a7, a8, a9, ⟨q, a10⟩, a11⟩ := onceEach_rest c i js s
  refine Calm.of_eq a1 (fun j => ?_) (by rw [a10]; exact ⟨rfl, rfl⟩) a2 ⟨a3, a5, a7, a8, a9⟩ (onceEach_boot c i js s) (by rw [a6]; exact ⟨rfl, rfl, rfl, rfl, rfl⟩)
  cases hj : s.job j with
  | none => exact ⟨[], by rw [onceEach_none c i js s j hj]; rfl⟩
  | some x =>
    obtain ⟨l, h, _⟩ := onceEach_job c i js s j x hj
    exact ⟨l, by rw [h]; rfl⟩

theorem sensor_congr {s m : State} (h : m.boot.userCal = s.boot.userCal) (o x : Nat) : m.sensor o x = s.sensor o x := by
  unfold State.sensor State.calOffset; rw [h]

theorem throttle_eq (on : Bool) (temp limit : Nat) : throttleNext on temp limit = if on then decide (limit < temp + 3) else decide (limit ≤ temp) := by
  unfold throttleNext
  cases on
  · rfl
  · simp only [if_true]
    by_cases h : temp + 3 ≤ limit
    · rw [decide_eq_true h, decide_eq_false (by omega)]; rfl
    · rw [decide_eq_false h, decide_eq_true (by omega)]; rfl

theorem senseTile_spec (s : State) (q : Tile × Nat) :
    Calm s (s.senseTile q) ∧ (s.senseTile q).dealers = s.dealers ∧ (s.senseTile q).mem = s.mem ∧ (s.senseTile q).power = s.power
      ∧ (∀ t, t ≠ q.1.val → (s.senseTile q).tile t = s.tile t)
      ∧ ((s.senseTile q).tile q.1).pwr.tempC = s.sensor (0x8A0 + q.1.val) q.2
      ∧ ((s.senseTile q).tile q.1).pwr.throttled = throttleNext (s.tile q.1).pwr.throttled (s.sensor (0x8A0 + q.1.val) q.2) s.power.live.tileC := by
  obtain ⟨c, hc⟩ : ∃ c, c = s.sensor (0x8A0 + q.1.val) q.2 := ⟨_, rfl⟩
  obtain ⟨on, hon⟩ : ∃ on, on = throttleNext (s.tile q.1).pwr.throttled c s.power.live.tileC := ⟨_, rfl⟩
  obtain ⟨s1, h1⟩ : ∃ s1, s1 = s.modTile q.1 (fun x => { x with pwr := { x.pwr with tempC := c, throttled := on } }) := ⟨_, rfl⟩
  have e : s.senseTile q = if on && !(s.tile q.1).pwr.throttled then s1.report Codes.thermalThrottle { cls := 2, idx := q.1.val / 12, unit := q.1.val % 12 } else s1 := by
    rw [h1, hon, hc]; rfl
  have ht : ∀ t, s1.tile t = if t = q.1.val then { s.tile q.1 with pwr := { (s.tile q.1).pwr with tempC := c, throttled := on } } else s.tile t := by
    intro t; rw [h1]; unfold State.modTile; rw [State.tile_setTile]
  have hs : s1 = { s with tiles := s1.tiles } := by rw [h1]; rfl
  have k1 : Calm s s1 := by
    refine ⟨fun t => ?_, fun j => ?_, by rw [hs], by rw [hs], by rw [hs], by rw [hs], by rw [hs], by rw [hs], by rw [hs], by rw [hs], by rw [hs], by rw [hs], by rw [hs], by rw [hs], by rw [hs], by rw [hs], by rw [hs]⟩
    · rw [ht]
      split
      · next h => rw [h]
      · rfl
    · have : s1.job j = s.job j := by rw [hs]; rfl
      rw [this]; exact job_id s j
  have key : ∀ m : State, (m = s1 ∨ ∃ i, m = s1.report Codes.thermalThrottle i) → Calm s m ∧ m.dealers = s.dealers ∧ m.mem = s.mem ∧ m.power = s.power ∧ ∀ t, m.tile t = s1.tile t := by
    rintro m (rfl | ⟨i, rfl⟩)
    · exact ⟨k1, by rw [hs], by rw [hs], by rw [hs], fun _ => rfl⟩
    · obtain ⟨q1, q2, q3, q4, q5, q6, q7⟩ := report_rest s1 Codes.thermalThrottle i
      exact ⟨k1.trans (calm_report _ _ _), by rw [q4, hs], by rw [q2, hs], by rw [q7, hs], fun t => by rw [State.tile_report]⟩
  have hm : (s.senseTile q = s1 ∨ ∃ i, s.senseTile q = s1.report Codes.thermalThrottle i) := by
    rw [e]; split
    · exact Or.inr ⟨_, rfl⟩
    · exact Or.inl rfl
  obtain ⟨a1, a2, a3, a4, a5⟩ := key _ hm
  refine ⟨a1, a2, a3, a4, fun t h => by rw [a5, ht, if_neg h], ?_, ?_⟩
  · rw [a5, ht, if_pos rfl, ← hc]
  · rw [a5, ht, if_pos rfl, ← hc, ← hon]

theorem senseTiles_spec : ∀ (qs : List (Tile × Nat)) (s : State),
    let m := qs.foldl State.senseTile s
    Calm s m ∧ m.dealers = s.dealers ∧ m.mem = s.mem ∧ m.power = s.power
      ∧ (∀ t : Nat, (∀ q ∈ qs, q.1.val ≠ t) → m.tile t = s.tile t)
      ∧ ((qs.map (·.1)).Nodup → ∀ q ∈ qs, (m.tile q.1).pwr.tempC = s.sensor (0x8A0 + q.1.val) q.2
          ∧ (m.tile q.1).pwr.throttled = throttleNext (s.tile q.1).pwr.throttled (s.sensor (0x8A0 + q.1.val) q.2) s.power.live.tileC)
  | [], s => ⟨Calm.refl s, rfl, rfl, rfl, fun _ _ => rfl, fun _ _ h => absurd h (by simp)⟩
  | a :: qs, s => by
    intro m
    obtain ⟨a1, a2, a3, a4, a5, a6, a7⟩ := senseTile_spec s a
    obtain ⟨b1, b2, b3, b4, b5, b6⟩ := senseTiles_spec qs (s.senseTile a)
    have e : m = qs.foldl State.senseTile (s.senseTile a) := rfl
    rw [← e] at b1 b2 b3 b4 b5 b6
    clear_value m
    refine ⟨a1.trans b1, b2.trans a2, b3.trans a3, b4.trans a4, fun t h => ?_, fun hn q hq => ?_⟩
    · rw [b5 t (fun q hq => h q (List.mem_cons_of_mem _ hq)), a5 t (fun e => h a List.mem_cons_self e.symm)]
    · rw [List.map_cons, List.nodup_cons] at hn
      rcases List.mem_cons.1 hq with rfl | hq
      · rw [b5 q.1 (fun p hp he => hn.1 (by rw [← Fin.ext he]; exact List.mem_map_of_mem hp))]
        exact ⟨a6, a7⟩
      · obtain ⟨c1, c2⟩ := b6 hn.2 q hq
        rw [c1, c2, sensor_congr a1.cal, a4, a5 q.1 (fun he => hn.1 (by rw [← Fin.ext he]; exact List.mem_map_of_mem hq))]
        exact ⟨rfl, rfl⟩

theorem senseStack_spec (s : State) (q : Stack × Nat) :
    Calm s (s.senseStack q) ∧ (s.senseStack q).dealers = s.dealers ∧ (s.senseStack q).power = s.power ∧ (∀ t, (s.senseStack q).tile t = s.tile t)
      ∧ (∀ t, t ≠ q.1.val → (s.senseStack q).stack t = s.stack t)
      ∧ ((s.senseStack q).stack q.1).tempC = s.sensor (0x900 + q.1.val) q.2
      ∧ ((s.senseStack q).stack q.1).throttled = throttleNext (s.stack q.1).throttled (s.sensor (0x900 + q.1.val) q.2) s.power.live.stackC := by
  obtain ⟨c, hc⟩ : ∃ c, c = s.sensor (0x900 + q.1.val) q.2 := ⟨_, rfl⟩
  obtain ⟨on, hon⟩ : ∃ on, on = throttleNext (s.stack q.1).throttled c s.power.live.stackC := ⟨_, rfl⟩
  obtain ⟨s1, h1⟩ : ∃ s1, s1 = s.modStack q.1 (fun x => { x with tempC := c, throttled := on }) := ⟨_, rfl⟩
  have e : s.senseStack q = if on && !(s.stack q.1).throttled then s1.report Codes.thermalThrottle { cls := 3, idx := q.1.val } else s1 := by
    rw [h1, hon, hc]; rfl
  have ht : ∀ t, s1.stack t = if t = q.1.val then { s.stack q.1 with tempC := c, throttled := on } else s.stack t := by
    intro t; rw [h1]; unfold State.modStack State.setStack State.stack; dsimp only; rw [SMap.get_set]
  have hs : s1 = { s with mem := { s.mem with stk := s1.mem.stk } } := by rw [h1]; rfl
  have k1 : Calm s s1 := by
    refine ⟨fun t => by rw [hs]; rfl, fun j => ?_, by rw [hs], by rw [hs], by rw [hs], by rw [hs], by rw [hs], by rw [hs], by rw [hs], by rw [hs], by rw [hs], by rw [hs], by rw [hs], by rw [hs], by rw [hs], by rw [hs], by rw [hs]⟩
    have : s1.job j = s.job j := by rw [hs]; rfl
    rw [this]; exact job_id s j
  have key : ∀ m : State, (m = s1 ∨ ∃ i, m = s1.report Codes.thermalThrottle i) → Calm s m ∧ m.dealers = s.dealers ∧ m.power = s.power ∧ (∀ t, m.tile t = s.tile t) ∧ ∀ t, m.stack t = s1.stack t := by
    rintro m (rfl | ⟨i, rfl⟩)
    · exact ⟨k1, by rw [hs], by rw [hs], fun _ => by rw [hs]; rfl, fun _ => rfl⟩
    · obtain ⟨q1, q2, q3, q4, q5, q6, q7⟩ := report_rest s1 Codes.thermalThrottle i
      exact ⟨k1.trans (calm_report _ _ _), by rw [q4, hs], by rw [q7, hs], fun t => by rw [State.tile_report, hs]; rfl, fun t => by rw [State.stack_report]⟩
  have hm : (s.senseStack q = s1 ∨ ∃ i, s.senseStack q = s1.report Codes.thermalThrottle i) := by
    rw [e]; split
    · exact Or.inr ⟨_, rfl⟩
    · exact Or.inl rfl
  obtain ⟨a1, a2, a3, a4, a5⟩ := key _ hm
  refine ⟨a1, a2, a3, a4, fun t h => by rw [a5, ht, if_neg h], ?_, ?_⟩
  · rw [a5, ht, if_pos rfl, ← hc]
  · rw [a5, ht, if_pos rfl, ← hc, ← hon]

theorem senseStacks_spec : ∀ (qs : List (Stack × Nat)) (s : State),
    let m := qs.foldl State.senseStack s
    Calm s m ∧ m.dealers = s.dealers ∧ m.power = s.power ∧ (∀ t, m.tile t = s.tile t)
      ∧ (∀ t : Nat, (∀ q ∈ qs, q.1.val ≠ t) → m.stack t = s.stack t)
      ∧ ((qs.map (·.1)).Nodup → ∀ q ∈ qs, (m.stack q.1).tempC = s.sensor (0x900 + q.1.val) q.2
          ∧ (m.stack q.1).throttled = throttleNext (s.stack q.1).throttled (s.sensor (0x900 + q.1.val) q.2) s.power.live.stackC)
  | [], s => ⟨Calm.refl s, rfl, rfl, fun _ => rfl, fun _ _ => rfl, fun _ _ h => absurd h (by simp)⟩
  | a :: qs, s => by
    intro m
    obtain ⟨a1, a2, a4, a3, a5, a6, a7⟩ := senseStack_spec s a
    obtain ⟨b1, b2, b4, b3, b5, b6⟩ := senseStacks_spec qs (s.senseStack a)
    have e : m = qs.foldl State.senseStack (s.senseStack a) := rfl
    rw [← e] at b1 b2 b3 b4 b5 b6
    clear_value m
    refine ⟨a1.trans b1, b2.trans a2, b4.trans a4, fun t => (b3 t).trans (a3 t), fun t h => ?_, fun hn q hq => ?_⟩
    · rw [b5 t (fun q hq => h q (List.mem_cons_of_mem _ hq)), a5 t (fun e => h a List.mem_cons_self e.symm)]
    · rw [List.map_cons, List.nodup_cons] at hn
      rcases List.mem_cons.1 hq with rfl | hq
      · rw [b5 q.1 (fun p hp he => hn.1 (by rw [← Fin.ext he]; exact List.mem_map_of_mem hp))]
        exact ⟨a6, a7⟩
      · obtain ⟨c1, c2⟩ := b6 hn.2 q hq
        rw [c1, c2, sensor_congr a1.cal, a4, a5 q.1 (fun he => hn.1 (by rw [← Fin.ext he]; exact List.mem_map_of_mem hq))]
        exact ⟨rfl, rfl⟩

/-- The sensors of an interval. -/
theorem sense_spec (s : State) (r : Readings) :
    let m := s.sense r
    Calm s m ∧ m.dealers = s.dealers ∧ m.power = { s.power with inlet := r.inlet.map (s.sensor 0x920) }
      ∧ ((r.tileC.map (·.1)).Nodup → ∀ q ∈ r.tileC, (m.tile q.1).pwr.tempC = s.sensor (0x8A0 + q.1.val) q.2
          ∧ (m.tile q.1).pwr.throttled = throttleNext (s.tile q.1).pwr.throttled (s.sensor (0x8A0 + q.1.val) q.2) s.power.live.tileC)
      ∧ ((r.stackC.map (·.1)).Nodup → ∀ q ∈ r.stackC, (m.stack q.1).tempC = s.sensor (0x900 + q.1.val) q.2
          ∧ (m.stack q.1).throttled = throttleNext (s.stack q.1).throttled (s.sensor (0x900 + q.1.val) q.2) s.power.live.stackC) := by
  intro m
  obtain ⟨s1, h1⟩ : ∃ s1, s1 = s.modPower (fun p => { p with inlet := r.inlet.map (s.sensor 0x920) }) := ⟨_, rfl⟩
  obtain ⟨s2, h2⟩ : ∃ s2, s2 = r.tileC.foldl State.senseTile s1 := ⟨_, rfl⟩
  have e : m = r.stackC.foldl State.senseStack s2 := by rw [h2, h1]; rfl
  have k1 : Calm s s1 := by rw [h1]; exact Calm.of_eq rfl (fun j => job_id s j) ⟨rfl, rfl⟩ rfl ⟨rfl, rfl, rfl, rfl, rfl⟩ rfl ⟨rfl, rfl, rfl, rfl, rfl⟩
  obtain ⟨a1, a2, a3, a4, a5, a6⟩ := senseTiles_spec r.tileC s1
  rw [← h2] at a1 a2 a3 a4 a5 a6
  obtain ⟨b1, b2, b4, b3, b5, b6⟩ := senseStacks_spec r.stackC s2
  rw [← e] at b1 b2 b3 b4 b5 b6
  clear_value m
  have hp : s1.power = { s.power with inlet := r.inlet.map (s.sensor 0x920) } := by rw [h1]; rfl
  have hl : s1.power.live = s.power.live := by rw [hp]
  refine ⟨(k1.trans a1).trans b1, by rw [b2, a2, h1]; rfl, by rw [b4, a4, hp], fun hn q hq => ?_, fun hn q hq => ?_⟩
  · rw [b3]
    obtain ⟨c1, c2⟩ := a6 hn q hq
    rw [c1, c2, sensor_congr k1.cal, hl]
    refine ⟨rfl, ?_⟩
    rw [show s1.tile q.1 = s.tile q.1 by rw [h1]; rfl]
  · obtain ⟨c1, c2⟩ := b6 hn q hq
    have hst : s2.stack q.1 = s.stack q.1 := by unfold State.stack; rw [a3, h1]; rfl
    rw [c1, c2, sensor_congr a1.cal, sensor_congr k1.cal, a4, hl, hst]
    exact ⟨rfl, rfl⟩

theorem stormTick_spec (s : State) (d : Nat) :
    let m := s.stormTick d
    Calm s m ∧ m.mem = s.mem ∧ m.power = s.power ∧ (∀ t, m.tile t = s.tile t)
      ∧ ∀ e, m.dealer e = if e = d then { s.dealer d with trips := 0, storm := if s.power.live.droopLimit < (s.dealer d).trips then 16 else (s.dealer d).storm } else s.dealer e := by
  intro m
  obtain ⟨hit, hh⟩ : ∃ hit, hit = decide (s.power.live.droopLimit < (s.dealer d).trips) := ⟨_, rfl⟩
  obtain ⟨s1, h1⟩ : ∃ s1, s1 = s.setDealer d { s.dealer d with trips := 0, storm := if hit then 16 else (s.dealer d).storm } := ⟨_, rfl⟩
  have e : m = if hit then s1.onceEach (s1.handJobs (((List.range 12).map (· + 12 * d)).filter (fun t => !s1.powerLc t))) Codes.droopStorm { cls := 2, idx := d } else s1 := by
    rw [h1, hh]; rfl
  have k1 : Calm s s1 := by rw [h1]; exact Calm.of_eq rfl (fun j => job_id s j) ⟨rfl, rfl⟩ rfl ⟨rfl, rfl, rfl, rfl, rfl⟩ rfl ⟨rfl, rfl, rfl, rfl, rfl⟩
  have hd : ∀ e, s1.dealer e = if e = d then { s.dealer d with trips := 0, storm := if s.power.live.droopLimit < (s.dealer d).trips then 16 else (s.dealer d).storm } else s.dealer e := by
    intro e
    rw [h1]
    unfold State.dealer State.setDealer
    dsimp only
    rw [SMap.get_set]
    split
    · rw [hh]; simp only [decide_eq_true_eq]; rfl
    · rfl
  rw [e]
  split
  · generalize s1.handJobs _ = js
    obtain ⟨a1, a2, a3, a4, a5, a6, a7, a8, a9, _, a11⟩ := onceEach_rest Codes.droopStorm { cls := 2, idx := d } js s1
    refine ⟨k1.trans (calm_onceEach _ _ _ _), by rw [a2, h1]; rfl, by rw [a6, h1]; rfl, fun t => by unfold State.tile; rw [a1, h1]; rfl, fun e => ?_⟩
    rw [← hd]; unfold State.dealer; rw [a4]
  · exact ⟨k1, by rw [h1]; rfl, by rw [h1]; rfl, fun t => by rw [h1]; rfl, hd⟩

theorem storms_spec : ∀ (n : Nat) (s : State),
    let m := (List.range n).foldl State.stormTick s
    Calm s m ∧ m.mem = s.mem ∧ m.power = s.power ∧ (∀ t, m.tile t = s.tile t)
      ∧ ∀ e, m.dealer e = if e < n then { s.dealer e with trips := 0, storm := if s.power.live.droopLimit < (s.dealer e).trips then 16 else (s.dealer e).storm } else s.dealer e
  | 0, s => ⟨Calm.refl s, rfl, rfl, fun _ => rfl, fun e => by rw [if_neg (Nat.not_lt_zero e)]; rfl⟩
  | n + 1, s => by
    intro m
    obtain ⟨a1, a2, a3, a4, a5⟩ := storms_spec n s
    obtain ⟨k, hk⟩ : ∃ k, k = (List.range n).foldl State.stormTick s := ⟨_, rfl⟩
    have e : m = k.stormTick n := by
      show (List.range (n + 1)).foldl State.stormTick s = _
      rw [List.range_succ, List.foldl_append, hk]; rfl
    rw [← hk] at a1 a2 a3 a4 a5
    obtain ⟨b1, b2, b3, b4, b5⟩ := stormTick_spec k n
    rw [← e] at b1 b2 b3 b4 b5
    clear_value m
    refine ⟨a1.trans b1, b2.trans a2, b3.trans a3, fun t => (b4 t).trans (a4 t), fun e => ?_⟩
    rw [b5, a3]
    by_cases h : e = n
    · subst h
      rw [if_pos rfl, if_pos (Nat.lt_succ_self _), a5, if_neg (Nat.lt_irrefl _)]
    · rw [if_neg h, a5]
      by_cases h2 : e < n
      · rw [if_pos h2, if_pos (show e < n + 1 by omega)]
      · rw [if_neg h2, if_neg (show ¬ e < n + 1 by omega)]

theorem chargeJob_spec (s : State) (j : Nat) : Calm s (s.chargeJob j) ∧ (s.chargeJob j).dealers = s.dealers ∧ (s.chargeJob j).mem = s.mem ∧ (s.chargeJob j).tiles = s.tiles
    ∧ (s.chargeJob j).power.inlet = s.power.inlet ∧ (s.chargeJob j).power.sumW = s.power.sumW ∧ (s.chargeJob j).power.samples = s.power.samples := by
  unfold State.chargeJob
  split
  · exact ⟨Calm.refl s, rfl, rfl, rfl, rfl, rfl, rfl⟩
  · exact ⟨Calm.of_eq rfl (fun j => job_id s j) ⟨rfl, rfl⟩ rfl ⟨rfl, rfl, rfl, rfl, rfl⟩ rfl ⟨rfl, rfl, rfl, rfl, rfl⟩, rfl, rfl, rfl, rfl, rfl, rfl⟩

theorem chargePart_spec (s : State) (j : Nat) : Calm s (s.chargePart j) ∧ (s.chargePart j).dealers = s.dealers ∧ (s.chargePart j).mem = s.mem ∧ (s.chargePart j).tiles = s.tiles
    ∧ (s.chargePart j).power.inlet = s.power.inlet ∧ (s.chargePart j).power.sumW = s.power.sumW ∧ (s.chargePart j).power.samples = s.power.samples := by
  unfold State.chargePart
  split
  · exact ⟨Calm.refl s, rfl, rfl, rfl, rfl, rfl, rfl⟩
  · exact ⟨Calm.of_eq rfl (fun j => job_id s j) ⟨rfl, rfl⟩ rfl ⟨rfl, rfl, rfl, rfl, rfl⟩ rfl ⟨rfl, rfl, rfl, rfl, rfl⟩, rfl, rfl, rfl, rfl, rfl, rfl⟩

theorem charges_spec (f : State → Nat → State) (hf : ∀ s j, Calm s (f s j) ∧ (f s j).dealers = s.dealers ∧ (f s j).mem = s.mem ∧ (f s j).tiles = s.tiles
    ∧ (f s j).power.inlet = s.power.inlet ∧ (f s j).power.sumW = s.power.sumW ∧ (f s j).power.samples = s.power.samples) : ∀ (js : List Nat) (s : State),
    let m := js.foldl f s
    Calm s m ∧ m.dealers = s.dealers ∧ m.mem = s.mem ∧ m.tiles = s.tiles ∧ m.power.inlet = s.power.inlet ∧ m.power.sumW = s.power.sumW ∧ m.power.samples = s.power.samples
  | [], s => ⟨Calm.refl s, rfl, rfl, rfl, rfl, rfl, rfl⟩
  | j :: js, s => by
    obtain ⟨a1, a2, a3, a4, a5, a6, a7⟩ := hf s j
    obtain ⟨b1, b2, b3, b4, b5, b6, b7⟩ := charges_spec f hf js (f s j)
    exact ⟨a1.trans b1, b2.trans a2, b3.trans a3, b4.trans a4, b5.trans a5, b6.trans a6, b7.trans a7⟩

theorem charge_spec (s : State) : Calm s s.charge ∧ s.charge.dealers = s.dealers ∧ s.charge.mem = s.mem ∧ s.charge.tiles = s.tiles
    ∧ s.charge.power.inlet = s.power.inlet ∧ s.charge.power.sumW = s.power.sumW ∧ s.charge.power.samples = s.power.samples := by
  obtain ⟨s1, h1⟩ : ∃ s1, s1 = (s.sched.jobs.map (·.1)).foldl State.chargeJob s := ⟨_, rfl⟩
  obtain ⟨s2, h2⟩ : ∃ s2, s2 = (List.range 64).foldl State.chargePart s1 := ⟨_, rfl⟩
  have e : s.charge = ({ s2 with freeCtr := s2.freeCtr + 1 } : State).modPower (fun p => { p with energyUnattr := addEnergy p.energyUnattr ((Config.freeWord s2.freeCtr).toNat % 2 ^ 32) }) := by
    rw [h2, h1]; rfl
  obtain ⟨a1, a2, a3, a4, a5, a6, a7⟩ := charges_spec State.chargeJob chargeJob_spec (s.sched.jobs.map (·.1)) s
  rw [← h1] at a1 a2 a3 a4 a5 a6 a7
  obtain ⟨b1, b2, b3, b4, b5, b6, b7⟩ := charges_spec State.chargePart chargePart_spec (List.range 64) s1
  rw [← h2] at b1 b2 b3 b4 b5 b6 b7
  rw [e]
  exact ⟨(a1.trans b1).trans (Calm.of_eq rfl (fun j => job_id s2 j) ⟨rfl, rfl⟩ rfl ⟨rfl, rfl, rfl, rfl, rfl⟩ rfl ⟨rfl, rfl, rfl, rfl, rfl⟩), b2.trans a2, b3.trans a3, b4.trans a4, b5.trans a5, b6.trans a6, b7.trans a7⟩

theorem over_spec (ts : State → CapLevel → List Nat) : ∀ (l : List (CapLevel × Int)) (s : State),
    let m := l.foldl (fun s q => if q.2 < 0 then s.onceEach (ts s q.1) Codes.pwrFloorOver {} else s) s
    Calm s m ∧ m.dealers = s.dealers ∧ m.mem = s.mem ∧ m.tiles = s.tiles ∧ m.power = s.power
  | [], s => ⟨Calm.refl s, rfl, rfl, rfl, rfl⟩
  | q :: l, s => by
    have h : ∀ k : State, (k = s ∨ ∃ js, k = s.onceEach js Codes.pwrFloorOver {}) → Calm s k ∧ k.dealers = s.dealers ∧ k.mem = s.mem ∧ k.tiles = s.tiles ∧ k.power = s.power := by
      rintro k (rfl | ⟨js, rfl⟩)
      · exact ⟨Calm.refl _, rfl, rfl, rfl, rfl⟩
      · obtain ⟨a1, a2, a3, a4, a5, a6, a7, a8, a9, _, a11⟩ := onceEach_rest Codes.pwrFloorOver {} js s
        exact ⟨calm_onceEach _ _ _ _, a4, a2, a1, a6⟩
    obtain ⟨a1, a2, a3, a4, a5⟩ := h (if q.2 < 0 then s.onceEach (ts s q.1) Codes.pwrFloorOver {} else s) (by split; exact Or.inr ⟨_, rfl⟩; exact Or.inl rfl)
    obtain ⟨b1, b2, b3, b4, b5⟩ := over_spec ts l (if q.2 < 0 then s.onceEach (ts s q.1) Codes.pwrFloorOver {} else s)
    exact ⟨a1.trans b1, b2.trans a2, b3.trans a3, b4.trans a4, b5.trans a5⟩

theorem decay_spec : ∀ (n : Nat) (s : State),
    let m := (List.range n).foldl (fun s d => s.modDealer d (fun y => { y with storm := y.storm - 1 })) s
    (m = { s with dealers := m.dealers }) ∧ ∀ e, m.dealer e = if e < n then { s.dealer e with storm := (s.dealer e).storm - 1 } else s.dealer e
  | 0, s => ⟨rfl, fun e => by rw [if_neg (Nat.not_lt_zero e)]; rfl⟩
  | n + 1, s => by
    intro m
    obtain ⟨a1, a2⟩ := decay_spec n s
    obtain ⟨k, hk⟩ : ∃ k, k = (List.range n).foldl (fun s d => s.modDealer d (fun y => { y with storm := y.storm - 1 })) s := ⟨_, rfl⟩
    have e : m = k.modDealer n (fun y => { y with storm := y.storm - 1 }) := by
      show (List.range (n + 1)).foldl (fun s d => s.modDealer d (fun y => { y with storm := y.storm - 1 })) s = _
      rw [List.range_succ, List.foldl_append, hk]; rfl
    rw [← hk] at a1 a2
    rw [e]
    refine ⟨by rw [a1]; rfl, fun e => ?_⟩
    unfold State.modDealer State.setDealer
    show SMap.get _ _ e = _
    rw [SMap.get_set]
    by_cases h : e = n
    · subst h
      rw [if_pos rfl, if_pos (Nat.lt_succ_self _), a2, if_neg (Nat.lt_irrefl _)]
    · rw [if_neg h]
      show k.dealer e = _
      rw [a2]
      by_cases h2 : e < n
      · rw [if_pos h2, if_pos (show e < n + 1 by omega)]
      · rw [if_neg h2, if_neg (show ¬ e < n + 1 by omega)]

/-- What a budget depends on does not change with the records. -/
theorem calm_req {s m : State} (h : Calm s m) (t : Nat) : (m.tile t).powerRequest = (s.tile t).powerRequest := by
  rw [h.tile t]; rfl

theorem calm_lc {s m : State} (h : Calm s m) (t : Nat) : m.powerLc t = s.powerLc t := by
  unfold State.powerLc State.isLc
  have hj : (m.tile t).job = (s.tile t).job := by rw [h.tile t]; rfl
  dsimp only
  rw [hj, h.ante]
  obtain ⟨l, e⟩ := h.job (s.tile t).job
  rw [e]
  cases s.job (s.tile t).job <;> rfl

theorem calm_levels {s m : State} (h : Calm s m) (hi : m.power.inlet = s.power.inlet) : m.capLevels = s.capLevels := by
  have hf : ∀ f, m.funcDies f = s.funcDies f := fun f => by unfold State.funcDies; rw [h.part]
  unfold State.capLevels PowerSt.effCap
  rw [h.live, hi]
  simp only [hf]

theorem floor_le (s : State) (t : Nat) : s.floorOf t ≤ (s.tile t).powerRequest := Nat.min_le_left _ _

theorem want_zero (s : State) (storm : Nat → Bool) (t : Nat) (h : (s.tile t).powerRequest = 0) : s.wantOf storm t = 0 ∧ s.floorOf t = 0 := by
  have hf : s.floorOf t = 0 := by have := floor_le s t; omega
  refine ⟨?_, hf⟩
  unfold State.wantOf
  dsimp only
  rw [h, hf]
  have e : (if (storm (t / 12) && !s.powerLc t) = true then max (min 0 s.power.live.beFloorV) (0 - 8) else 0) = 0 := by split <;> simp
  rw [e]
  split <;> simp

/-- The budgets that a state grants. -/
theorem grant_spec (s : State) (x : Nat) (storm : Nat → Bool) :
    let b (t : Nat) := (s.grantIn x storm).run.b.get 0 t
    let units (l : CapLevel) := levelUnits (s.fuses.gradeS.getD s.grade 0) (s.fuses.gradeD.getD s.grade 0) x l.cap l.tiles.length
    let order (t : Nat) := (if s.powerLc t then 0 else 2) + (if (s.tile t).pwr.phaseValid then 0 else 1)
    (∀ t, t < 96 → s.floorOf t ≤ b t ∧ b t ≤ max (s.floorOf t) (s.wantOf storm t))
      ∧ (∀ l ∈ s.capLevels, usedBy l b ≤ max (units l) (usedBy l s.floorOf))
      ∧ ∀ t, t < 96 → b t < min 64 (s.wantOf storm t) →
          ∃ l ∈ s.capLevels, l.tiles.contains t = true ∧ units l ≤ usedBy l b
            ∧ ∀ u, u < 96 → l.tiles.contains u = true → order t < order u → b u = s.floorOf u := by
  intro b units order
  obtain ⟨i, hi⟩ : ∃ i, i = s.grantIn x storm := ⟨_, rfl⟩
  have hact : ∀ t, (t ∈ i.lc ↔ t < 96 ∧ (s.tile t).powerRequest ≠ 0 ∧ s.powerLc t = true) ∧ (t ∈ i.be ↔ t < 96 ∧ (s.tile t).powerRequest ≠ 0 ∧ s.powerLc t = false) := by
    intro t
    rw [hi]
    unfold State.grantIn
    dsimp only
    simp only [List.mem_filter, List.mem_range, bne_iff_ne, ne_eq, Bool.not_eq_true', and_assoc, and_self]
  have hnl : i.lc.Nodup := by rw [hi]; exact (List.nodup_range.filter _).filter _
  have hnb : i.be.Nodup := by rw [hi]; exact (List.nodup_range.filter _).filter _
  have hlv : i.lv = s.capLevels := by rw [hi]; rfl
  have hfl : i.floor = s.floorOf := by rw [hi]; rfl
  have hwn : i.want = s.wantOf storm := by rw [hi]; rfl
  have han : i.announced = fun t => (s.tile t).pwr.phaseValid := by rw [hi]; rfl
  obtain ⟨r1, r2, r3, r4, r5⟩ := run_spec i units (by rw [hlv, hi]; rfl) (fun t h => ((hact t).1.1 h).1) (fun t h => ((hact t).2.1 h).1) hnl hnb
    (fun t h1 h2 => by have e1 := ((hact t).1.1 h1).2.2; have e2 := ((hact t).2.1 h2).2.2; rw [e1] at e2; cases e2)
  have hb : b = fun t => i.run.b.get 0 t := by rw [hi]
  have hg : ∀ t, t < 96 → i.afterFloors.b.get 0 t = s.floorOf t := by
    intro t ht
    rw [r1, hfl]
    by_cases hq : (s.tile t).powerRequest = 0
    · rw [(want_zero s storm t hq).2]; split <;> rfl
    · rw [if_pos]
      cases hl : s.powerLc t with
      | true => exact Or.inl ((hact t).1.2 ⟨ht, hq, hl⟩)
      | false => exact Or.inr ((hact t).2.2 ⟨ht, hq, hl⟩)
  rw [hb]
  rw [hlv] at r4 r5
  rw [hwn] at r2 r5
  rw [han] at r5
  generalize i.run = h at r2 r3 r4 r5
  dsimp only
  refine ⟨fun t ht => ?_, fun l hl => ?_, fun t ht hlt => ?_⟩
  · have := r2 t
    rw [hg t ht] at this
    exact this
  · rw [← usedBy_congr l _ _ hg]
    exact r4 l hl
  · have hq : (s.tile t).powerRequest ≠ 0 := by
      intro h0
      rw [(want_zero s storm t h0).1] at hlt
      omega
    have hin : t ∈ i.lc ∨ t ∈ i.be := by
      cases hl : s.powerLc t with
      | true => exact Or.inl ((hact t).1.2 ⟨ht, hq, hl⟩)
      | false => exact Or.inr ((hact t).2.2 ⟨ht, hq, hl⟩)
    obtain ⟨l, h1, h2, h3, h4⟩ := r5 t hin (by rw [Nat.min_comm]; exact hlt)
    refine ⟨l, h1, h2, h3, fun u hu hc ho => ?_⟩
    by_cases hqu : (s.tile u).powerRequest = 0
    · have := r2 u
      rw [hg u hu, (want_zero s storm u hqu).1, (want_zero s storm u hqu).2] at this
      rw [(want_zero s storm u hqu).2]; omega
    · have hinu : u ∈ i.lc ∨ u ∈ i.be := by
        cases hl : s.powerLc u with
        | true => exact Or.inl ((hact u).1.2 ⟨hu, hqu, hl⟩)
        | false => exact Or.inr ((hact u).2.2 ⟨hu, hqu, hl⟩)
      have hrk : ∀ v, (v ∈ i.lc ∨ v ∈ i.be) → ((if v ∈ i.lc then 0 else 2) : Nat) = if s.powerLc v = true then 0 else 2 := by
        intro v hv
        cases hl : s.powerLc v with
        | true =>
          rw [if_pos rfl, if_pos]
          rcases hv with hv | hv
          · exact hv
          · have := ((hact v).2.1 hv).2.2; rw [hl] at this; cases this
        | false =>
          rw [if_neg (show ¬ false = true by decide), if_neg (show ¬ v ∈ i.lc from ?_)]
          intro hv; have := ((hact v).1.1 hv).2.2; rw [hl] at this; cases this
      rw [h4 u hu hc hinu ?_, hg u hu]
      dsimp only
      rw [hrk t hin, hrk u hinu]
      exact ho

/-- The steps of an interval's end. -/
theorem interval_steps (s : State) (r : Readings) : ∃ (s0 s1 s2 s3 s4 s5 s6 s7 : State) (x : Nat) (i : GrantIn),
    s0 = s.modPower (fun p => { p with live := p.cfg }) ∧ s1 = s0.sense r ∧ s2 = (List.range 8).foldl State.stormTick s1
    ∧ x = (if s2.power.samples = 0 then s2.power.watt * 65536 else s2.power.sumW * 65536 / s2.power.samples) - (Config.freeWord s2.freeCtr).toNat % 2 ^ 32
    ∧ s3 = { s2 with freeCtr := s2.freeCtr + 1 }
    ∧ i = s3.grantIn x (fun d => (s2.dealer d).storm != 0)
    ∧ s4 = (i.lv.zip i.afterFloors.u).foldl (fun s q => if q.2 < 0 then s.onceEach (s.handJobs q.1.tiles) Codes.pwrFloorOver {} else s) s3
    ∧ s5 = s4.holdTick (i.units.headD 0)
    ∧ s6 = (if s5.power.powerFail || s5.power.tripped then s5.setBudgets [] else s5.setBudgets i.run.b)
    ∧ s7 = (List.range 8).foldl (fun s d => s.modDealer d (fun y => { y with storm := y.storm - 1 })) s6
    ∧ exec (.controlInterval r) s = .next (s7.modPower (fun p => { p with sumW := 0, samples := 0 })).charge :=
  by
  obtain ⟨s0, h0⟩ : ∃ s0, s0 = s.modPower (fun p => { p with live := p.cfg }) := ⟨_, rfl⟩
  obtain ⟨s1, h1⟩ : ∃ s1, s1 = s0.sense r := ⟨_, rfl⟩
  obtain ⟨s2, h2⟩ : ∃ s2, s2 = (List.range 8).foldl State.stormTick s1 := ⟨_, rfl⟩
  obtain ⟨x, hx⟩ : ∃ x, x = (if s2.power.samples = 0 then s2.power.watt * 65536 else s2.power.sumW * 65536 / s2.power.samples) - (Config.freeWord s2.freeCtr).toNat % 2 ^ 32 := ⟨_, rfl⟩
  obtain ⟨s3, h3⟩ : ∃ s3 : State, s3 = { s2 with freeCtr := s2.freeCtr + 1 } := ⟨_, rfl⟩
  have he : s2.excess = (x, s3) := by rw [hx, h3]; rfl
  obtain ⟨i, hi⟩ : ∃ i, i = s3.grantIn x (fun d => (s2.dealer d).storm != 0) := ⟨_, rfl⟩
  have e : exec (.controlInterval r) s = .next ((s3.grant i).passStorms.modPower (fun p => { p with sumW := 0, samples := 0 })).charge := by
    show Host.Outcome.next (controlInterval r s) = _
    unfold controlInterval
    rw [← h0, ← h1, ← h2]
    dsimp only
    rw [he]
    dsimp only
    rw [← hi]
  refine ⟨s0, s1, s2, s3, _, _, _, _, x, i, h0, h1, h2, hx, h3, hi, rfl, rfl, rfl, rfl, ?_⟩
  rw [e]
  rfl

theorem hold_calm (s : State) (u : Nat) : Calm s (s.holdTick u) ∧ (s.holdTick u).dealers = s.dealers ∧ (s.holdTick u).mem = s.mem ∧ (s.holdTick u).tiles = s.tiles
    ∧ (s.holdTick u).power.inlet = s.power.inlet :=
  ⟨Calm.of_eq rfl (fun j => job_id s j) ⟨rfl, rfl⟩ rfl ⟨rfl, rfl, rfl, rfl, rfl⟩ rfl ⟨rfl, rfl, rfl, rfl, rfl⟩, rfl, rfl, rfl, rfl⟩

/-- Everything an interval leaves, against the state that the grants are made from. -/
theorem interval_spec (s : State) (r : Readings) : ∃ (m q : State) (x : Nat) (storm : Nat → Bool),
    let c := s.power.cfg
    exec (.controlInterval r) s = .next m
      ∧ x ≤ (if s.power.samples = 0 then s.power.watt * 65536 else s.power.sumW * 65536 / s.power.samples)
      ∧ Calm (s.modPower (fun p => { p with live := p.cfg })) q
      ∧ q.power.inlet = r.inlet.map (s.sensor 0x920)
      ∧ (∀ d, storm d = ((q.dealer d).storm != 0))
      ∧ (∀ d, d < 8 → q.dealer d = { s.dealer d with trips := 0, storm := if c.droopLimit < (s.dealer d).trips then 16 else (s.dealer d).storm })
      ∧ ((r.tileC.map (·.1)).Nodup → ∀ p ∈ r.tileC, (q.tile p.1).pwr.tempC = s.sensor (0x8A0 + p.1.val) p.2
          ∧ (q.tile p.1).pwr.throttled = throttleNext (s.tile p.1).pwr.throttled (s.sensor (0x8A0 + p.1.val) p.2) c.tileC)
      ∧ ((r.stackC.map (·.1)).Nodup → ∀ p ∈ r.stackC, (q.stack p.1).tempC = s.sensor (0x900 + p.1.val) p.2
          ∧ (q.stack p.1).throttled = throttleNext (s.stack p.1).throttled (s.sensor (0x900 + p.1.val) p.2) c.stackC)
      -- from q to m
      ∧ (∀ t, m.tile t = { q.tile t with pwr := { (q.tile t).pwr with budget := (m.tile t).pwr.budget } })
      ∧ (∀ t, t < 96 → (m.tile t).pwr.budget = if q.power.powerFail || q.power.tripped then 0 else (q.grantIn x storm).run.b.get 0 t)
      ∧ (∀ d, d < 8 → m.dealer d = { q.dealer d with storm := (q.dealer d).storm - 1 })
      ∧ m.mem = q.mem ∧ m.links = q.links ∧ m.col = q.col ∧ m.codec = q.codec ∧ m.grade = q.grade ∧ m.fuses = q.fuses
      ∧ (∀ j, ∃ l, m.job j = (q.job j).map (fun y => { y with logged := l })) ∧ m.sched.partition = q.sched.partition
      ∧ m.power.cfg = q.power.cfg ∧ m.power.live = q.power.live ∧ m.power.inlet = q.power.inlet ∧ m.power.sumW = 0 ∧ m.power.samples = 0 := by
  obtain ⟨s0, s1, s2, s3, s4, s5, s6, s7, x, i, h0, h1, h2, hx, h3, hi, h4, h5, h6, h7, e⟩ := interval_steps s r
  obtain ⟨a1, a2, a3, a4, a5⟩ := sense_spec s0 r
  rw [← h1] at a1 a2 a3 a4 a5
  obtain ⟨b1, b2, b3, b4, b5⟩ := storms_spec 8 s1
  rw [← h2] at b1 b2 b3 b4 b5
  have hp0 : s0.power = { s.power with live := s.power.cfg } := by rw [h0]; rfl
  have hs0 : ∀ o y, s0.sensor o y = s.sensor o y := fun o y => sensor_congr (by rw [h0]; rfl) o y
  have k3 : Calm s2 s3 := by rw [h3]; exact Calm.of_eq rfl (fun j => job_id s2 j) ⟨rfl, rfl⟩ rfl ⟨rfl, rfl, rfl, rfl, rfl⟩ rfl ⟨rfl, rfl, rfl, rfl, rfl⟩
  have d3 : ∀ d, s3.dealer d = s2.dealer d := fun d => by rw [h3]; rfl
  have t3 : ∀ d, s3.tile d = s2.tile d := fun d => by rw [h3]; rfl
  have p3 : s3.power = s2.power := by rw [h3]
  have m3 : s3.mem = s2.mem := by rw [h3]
  obtain ⟨c1, c2, c3, c4, c5⟩ := over_spec (fun s l => s.handJobs l.tiles) (i.lv.zip i.afterFloors.u) s3
  rw [← h4] at c1 c2 c3 c4 c5
  obtain ⟨g1, g2, g3, g4, g5⟩ := hold_calm s4 (i.units.headD 0)
  rw [← h5] at g1 g2 g3 g4 g5
  have k5 : Calm s3 s5 := c1.trans g1
  obtain ⟨bs, hbs⟩ : ∃ bs : SMap Nat, bs = if s5.power.powerFail || s5.power.tripped then [] else i.run.b := ⟨_, rfl⟩
  have h6' : s6 = s5.setBudgets bs := by rw [h6, hbs]; split <;> rfl
  obtain ⟨f1, f2⟩ := setBudgets_spec s5 bs
  have f3 := (tiles_fold (fun t x => { x with pwr := { x.pwr with budget := bs.get 0 t } }) 96 s5).1
  rw [← h6'] at f1 f2
  have f3' : ∀ t, s6.tile t = if t < 96 then { s5.tile t with pwr := { (s5.tile t).pwr with budget := bs.get 0 t } } else s5.tile t := by rw [h6']; exact f3
  obtain ⟨u1, u2⟩ := decay_spec 8 s6
  rw [← h7] at u1 u2
  obtain ⟨v1, v2, v3, v4, v5, v6, v7⟩ := charge_spec (s7.modPower (fun p => { p with sumW := 0, samples := 0 }))
  obtain ⟨m, hm⟩ : ∃ m, m = (s7.modPower (fun p => { p with sumW := 0, samples := 0 })).charge := ⟨_, rfl⟩
  rw [← hm] at v1 v2 v3 v4 v5 v6 v7 e
  have mt : ∀ t, m.tile t = s6.tile t := fun t => by
    have : m.tile t = s7.tile t := by unfold State.tile; rw [v4]; rfl
    rw [this, u1]; rfl
  have st5 : ∀ t, s5.tile t = s3.tile t := fun t => by unfold State.tile; rw [g4, c4]
  have ft : s5.power.powerFail = s3.power.powerFail := k5.fail
  have tr : s5.power.tripped = s3.power.tripped := k5.trip
  have md : ∀ d, m.dealer d = s7.dealer d := fun d => by unfold State.dealer; rw [v2]; rfl
  have d6 : ∀ d, s6.dealer d = s3.dealer d := fun d => by
    unfold State.dealer; rw [f2]; show SMap.get _ s5.dealers d = _; rw [g2, c2]
  have e7 : ∀ {α : Type} (p : State → α), (∀ (a : State) (t d : _), p { a with tiles := t, dealers := d } = p a) → p s7 = p s5 := by
    intro α p hp
    rw [u1, f2]
    exact hp s5 _ _
  refine ⟨m, s3, x, fun d => (s2.dealer d).storm != 0, e, ?_, ?_, ?_, ?_, ?_, ?_, ?_, ?_, ?_, ?_, ?_, ?_, ?_, ?_, ?_, ?_, ?_, ?_, ?_, ?_, ?_, ?_, ?_⟩
  · rw [hx, b3, a3, hp0]
    exact Nat.sub_le _ _
  · rw [← h0]; exact (a1.trans b1).trans k3
  · rw [p3, b3, a3]
    show r.inlet.map (s0.sensor 0x920) = _
    rw [show s0.sensor 0x920 = s.sensor 0x920 from funext (hs0 0x920)]
  · intro d; rw [d3]
  · intro d hd
    rw [d3, b5, if_pos hd]
    have : s1.dealer d = s.dealer d := by unfold State.dealer; rw [a2, h0]; rfl
    rw [this, a3, hp0]
  · intro hn p hp
    rw [t3, b4]
    obtain ⟨w1, w2⟩ := a4 hn p hp
    rw [w1, w2, hs0, hp0]
    refine ⟨rfl, ?_⟩
    rw [show s0.tile p.1 = s.tile p.1 by rw [h0]; rfl]
  · intro hn p hp
    have : s3.stack p.1 = s1.stack p.1 := by unfold State.stack; rw [m3, b2]
    rw [this]
    obtain ⟨w1, w2⟩ := a5 hn p hp
    rw [w1, w2, hs0, hp0]
    refine ⟨rfl, ?_⟩
    rw [show s0.stack p.1 = s.stack p.1 by rw [h0]; rfl]
  · intro t
    rw [mt, f3', st5]
    split <;> rfl
  · intro t ht
    rw [mt, f1 t ht]
    show bs.get 0 t = _
    rw [hbs, ft, tr, ← hi]
    split <;> rfl
  · intro d hd
    rw [md, u2, if_pos hd, d6]
  · rw [v3]; show s7.mem = _; rw [e7 (fun a => a.mem) (fun _ _ _ => rfl), g3, c3]
  · rw [v1.links]; show s7.links = _; rw [e7 (fun a => a.links) (fun _ _ _ => rfl), k5.links]
  · rw [v1.col]; show s7.col = _; rw [e7 (fun a => a.col) (fun _ _ _ => rfl), k5.col]
  · rw [v1.codec]; show s7.codec = _; rw [e7 (fun a => a.codec) (fun _ _ _ => rfl), k5.codec]
  · rw [v1.grade]; show s7.grade = _; rw [e7 (fun a => a.grade) (fun _ _ _ => rfl), k5.grade]
  · rw [v1.fuses]; show s7.fuses = _; rw [e7 (fun a => a.fuses) (fun _ _ _ => rfl), k5.fuses]
  · intro j
    obtain ⟨l1, w1⟩ := k5.job j
    obtain ⟨l2, w2⟩ := v1.job j
    have : (s7.modPower (fun p => { p with sumW := 0, samples := 0 })).job j = s5.job j := by
      show s7.job j = _
      exact e7 (fun a => a.job j) (fun _ _ _ => rfl)
    exact ⟨l2, by rw [w2, this, w1, Option.map_map]; rfl⟩
  · rw [v1.part]; show s7.sched.partition = _; rw [e7 (fun a => a.sched.partition) (fun _ _ _ => rfl), k5.part]
  · rw [v1.cfg]; show s7.power.cfg = _; rw [e7 (fun a => a.power.cfg) (fun _ _ _ => rfl), k5.cfg]
  · rw [v1.live]; show s7.power.live = _; rw [e7 (fun a => a.power.live) (fun _ _ _ => rfl), k5.live]
  · rw [v5]; show s7.power.inlet = _; rw [e7 (fun a => a.power.inlet) (fun _ _ _ => rfl), g5, c5]
  · rw [v6]; rfl
  · rw [v7]; rfl

end Sys2Proof.Machine
end

