-- ==== Sys2Proof/Laws/Boot.lean ====
section
/-!
SUPPORT. Laws/Boot.lean: what resets and a boot do.
-/

namespace Sys2Proof.Machine

open Sys2Proof.Claims

/-- What the steps of a boot keep. -/
structure Boots (s m : State) : Prop where
  pending : m.pending = s.pending
  hostMem : m.hostMem = s.hostMem
  outbox : m.outbox = s.outbox
  fuses : m.fuses = s.fuses
  tiles : m.tiles = s.tiles
  dealers : m.dealers = s.dealers
  sched : m.sched = s.sched
  col : m.col = s.col
  power : m.power = s.power
  grade : m.grade = s.grade
  bytes : m.mem.bytes = s.mem.bytes
  pages : m.mem.pages = s.mem.pages
  objects : m.mem.objects = s.mem.objects
  spi : m.sec.spi = s.sec.spi
  recordB : m.sec.recordB = s.sec.recordB
  slotB : m.sec.slotB = s.sec.slotB
  svn : m.sec.svn = s.sec.svn
  keyIndex : m.sec.keyIndex = s.sec.keyIndex
  writeCap : m.sec.writeCap = s.sec.writeCap
  held : m.boot.held = s.boot.held
  cause : m.boot.cause = s.boot.cause
  slot : m.boot.slot = s.boot.slot
  cxl : m.boot.cxl = s.boot.cxl
  queue : m.boot.queue = s.boot.queue
  resetting : m.boot.resetting = s.boot.resetting
  links : ∀ l, (m.link l).phase = (s.link l).phase ∨ (m.link l).phase = .disabled
  global : m.logs.global = s.logs.global
  grows : Grows s m

theorem Boots.refl (s : State) : Boots s s :=
  ⟨rfl, rfl, rfl, rfl, rfl, rfl, rfl, rfl, rfl, rfl, rfl, rfl, rfl, rfl, rfl, rfl, rfl, rfl, rfl, rfl, rfl, rfl, rfl, rfl, rfl, fun _ => Or.inl rfl, rfl, Grows.of_eq rfl⟩

theorem Boots.trans {a b c : State} (h : Boots a b) (k : Boots b c) : Boots a c :=
  ⟨k.pending.trans h.pending, k.hostMem.trans h.hostMem, k.outbox.trans h.outbox, k.fuses.trans h.fuses, k.tiles.trans h.tiles, k.dealers.trans h.dealers, k.sched.trans h.sched,
   k.col.trans h.col, k.power.trans h.power, k.grade.trans h.grade, k.bytes.trans h.bytes, k.pages.trans h.pages, k.objects.trans h.objects, k.spi.trans h.spi, k.recordB.trans h.recordB, k.slotB.trans h.slotB,
   k.svn.trans h.svn, k.keyIndex.trans h.keyIndex, k.writeCap.trans h.writeCap, k.held.trans h.held, k.cause.trans h.cause, k.slot.trans h.slot, k.cxl.trans h.cxl, k.queue.trans h.queue, k.resetting.trans h.resetting,
   fun l => by
     rcases k.links l with e | e
     · rw [e]; exact h.links l
     · exact Or.inr e,
   k.global.trans h.global, h.grows.trans k.grows⟩

theorem report_global (s : State) (c : Code) (i : RecInfo) : (s.report c i).logs.global = s.logs.global := by
  unfold State.report
  rw [State.logs_noteCode]
  rfl

theorem boots_report (s : State) (c : Code) (i : RecInfo) : Boots s (s.report c i) := by
  obtain ⟨q1, q2, q3, q4, q5, q6, q7⟩ := report_rest s c i
  exact ⟨by simp, by simp, by simp, by simp, q1, q4, q5, q6, q7, by simp, by rw [q2], by rw [q2], by rw [q2], by rw [report_sec], by rw [report_sec], by rw [report_sec], by rw [report_sec], by rw [report_sec], by rw [report_sec],
    by rw [report_boot], by rw [report_boot], by rw [report_boot], by rw [report_boot], by rw [report_boot], by rw [report_boot], fun l => Or.inl (by rw [State.report_link]), report_global _ _ _, grows_report _ _ _⟩

theorem boots_fold {α : Type} (f : State → α → State) (h : ∀ s a, Boots s (f s a)) : ∀ (l : List α) (s : State), Boots s (l.foldl f s)
  | [], s => Boots.refl s
  | a :: l, s => (h s a).trans (boots_fold f h l (f s a))

/-- Changes of what `Boots` does not name. -/
theorem boots_mem (s : State) (stk : SMap StackSt) (bad : SMap Nat) (ftl : FtlSt) (k : Nat) : Boots s { s with freeCtr := k, mem := { s.mem with stk := stk, badFrames := bad, ftl := ftl } } :=
  ⟨rfl, rfl, rfl, rfl, rfl, rfl, rfl, rfl, rfl, rfl, rfl, rfl, rfl, rfl, rfl, rfl, rfl, rfl, rfl, rfl, rfl, rfl, rfl, rfl, rfl, fun _ => Or.inl rfl, rfl, Grows.of_eq rfl⟩

theorem boots_modStack (s : State) (k : Nat) (f : StackSt → StackSt) : Boots s (s.modStack k f) := boots_mem s _ _ _ s.freeCtr
theorem boots_modFtl (s : State) (f : FtlSt → FtlSt) : Boots s (s.modFtl f) := boots_mem s _ _ _ s.freeCtr

theorem boots_boot (s : State) (b : BootSt) (k : Nat) (h : b.held = s.boot.held ∧ b.cause = s.boot.cause ∧ b.slot = s.boot.slot ∧ b.cxl = s.boot.cxl ∧ b.queue = s.boot.queue ∧ b.resetting = s.boot.resetting) :
    Boots s { s with freeCtr := k, boot := b } :=
  ⟨rfl, rfl, rfl, rfl, rfl, rfl, rfl, rfl, rfl, rfl, rfl, rfl, rfl, rfl, rfl, rfl, rfl, rfl, rfl, h.1, h.2.1, h.2.2.1, h.2.2.2.1, h.2.2.2.2.1, h.2.2.2.2.2, fun _ => Or.inl rfl, rfl, Grows.of_eq rfl⟩

theorem boots_markBist (s : State) (d : Nat) (i : RecInfo) : Boots s (s.markBist d i) :=
  (boots_boot s { s.boot with bistFail := setBit s.boot.bistFail d } s.freeCtr ⟨rfl, rfl, rfl, rfl, rfl, rfl⟩).trans (boots_report _ _ _)

theorem boots_checkChains (s : State) (env : BootEnv) : Boots s (s.checkChains env) := by
  unfold State.checkChains
  dsimp only
  refine Boots.trans (b := s.modSec (fun x => { x with chainOk := [env.chainEd, env.chainMl] })) ?_ (boots_fold _ (fun s _ => boots_report s _ _) _ _)
  exact ⟨rfl, rfl, rfl, rfl, rfl, rfl, rfl, rfl, rfl, rfl, rfl, rfl, rfl, rfl, rfl, rfl, rfl, rfl, rfl, rfl, rfl, rfl, rfl, rfl, rfl, fun _ => Or.inl rfl, rfl, Grows.of_eq rfl⟩

theorem boots_loadCal (s : State) : Boots s s.loadCal := by
  unfold State.loadCal
  split
  · exact boots_report _ _ _
  · dsimp only
    refine Boots.trans ?_ (boots_fold _ (fun s _ => boots_report s _ _) _ _)
    exact boots_boot s _ _ ⟨rfl, rfl, rfl, rfl, rfl, rfl⟩

theorem boots_mapStack (s : State) (k : Nat) : Boots s (s.mapStack k) := by
  unfold State.mapStack
  dsimp only
  exact (boots_modStack _ _ _).trans (boots_fold _ (fun s _ => boots_report s _ _) _ _)

theorem boots_marginStack (s : State) (k : Nat) (rs : List Margins) : Boots s (s.marginStack k rs) := by
  unfold State.marginStack
  dsimp only
  refine boots_fold _ (fun s p => ?_) _ _
  split
  · exact boots_modStack _ _ _
  · exact (boots_modStack _ _ _).trans (boots_report _ _ _)

theorem boots_loseLogical (s : State) (l : Nat) : Boots s (s.loseLogical l) := boots_mem s _ _ _ _

theorem boots_loadFlash (s : State) (env : BootEnv) : Boots s (s.loadFlash env) ∧ (s.loadFlash env).mem.ftl.journal = 0 := by
  unfold State.loadFlash
  dsimp only
  have h1 : ∀ hit : List Nat, Boots s (hit.foldl State.loseLogical s.draw.2) := fun hit =>
    Boots.trans (b := s.draw.2) (boots_mem s _ _ _ _) (boots_fold _ boots_loseLogical _ _)
  have h3 : ∀ (n : Nat) (a : State), a.mem.ftl.journal = 0 → Boots a ((List.range n).foldl (fun s _ => s.report Codes.flashDevice {}) a) ∧ ((List.range n).foldl (fun s _ => s.report Codes.flashDevice {}) a).mem.ftl.journal = 0 := by
    intro n a ha
    refine ⟨boots_fold _ (fun s _ => boots_report s _ _) _ _, ?_⟩
    generalize List.range n = l
    induction l generalizing a with
    | nil => exact ha
    | cons x l ih => rw [List.foldl_cons]; exact ih _ (by rw [State.report_mem]; exact ha)
  have h4 : ∀ (a : State) (p : Prop) [Decidable p] (c : Code), a.mem.ftl.journal = 0 → Boots a (if p then a else a.report c {}) ∧ (if p then a else a.report c {}).mem.ftl.journal = 0 := by
    intro a p _ c ha
    split
    · exact ⟨Boots.refl _, ha⟩
    · exact ⟨boots_report _ _ _, by rw [State.report_mem]; exact ha⟩
  have h5 : ∀ (a : State) (p : Prop) [Decidable p] (c : Code), a.mem.ftl.journal = 0 → Boots a (if p then a.report c {} else a) ∧ (if p then a.report c {} else a).mem.ftl.journal = 0 := by
    intro a p _ c ha
    split
    · exact ⟨boots_report _ _ _, by rw [State.report_mem]; exact ha⟩
    · exact ⟨Boots.refl _, ha⟩
  have h2 := h1 (if s.draw.2.mem.ftl.journalLost = true then List.filter (fun l => (List.flatMap (fun q => q.2.logical) s.draw.2.mem.ftl.names).contains l) s.draw.2.mem.ftl.unjournaled else [])
  generalize List.foldl State.loseLogical s.draw.2 _ = s1 at h2 ⊢
  have h6 := fun f => h2.trans (boots_modFtl s1 f)
  refine ⟨?_, ?_⟩
  · exact ((h6 _).trans (h3 env.badTargets _ rfl).1).trans ((h4 _ _ _ (h3 env.badTargets _ rfl).2).1.trans (h5 _ _ _ (h4 _ _ _ (h3 env.badTargets _ rfl).2).2).1)
  · exact (h5 _ _ _ (h4 _ _ _ (h3 env.badTargets _ rfl).2).2).2

theorem boots_failEdge (s : State) (q : Nat) : Boots s (s.failEdge q) := by
  unfold State.failEdge
  dsimp only
  have h1 : ∀ (a : State) (l : Nat), Boots a (if linkEdge l = q then a.modLink l (fun x => { x with phase := .disabled }) else a) := by
    intro a l
    split
    · refine ⟨rfl, rfl, rfl, rfl, rfl, rfl, rfl, rfl, rfl, rfl, rfl, rfl, rfl, rfl, rfl, rfl, rfl, rfl, rfl, rfl, rfl, rfl, rfl, rfl, rfl, fun k => ?_, rfl, Grows.of_eq rfl⟩
      unfold State.modLink
      rw [State.link_setLink]
      split
      · exact Or.inr rfl
      · exact Or.inl rfl
    · exact Boots.refl _
  refine (boots_fold _ h1 (List.range 24) s).trans ?_
  generalize (List.range 24).foldl (fun (s : State) l => if linkEdge l = q then s.modLink l (fun x => { x with phase := .disabled }) else s) s = a
  exact ⟨rfl, rfl, rfl, rfl, rfl, rfl, rfl, rfl, rfl, rfl, rfl, rfl, rfl, rfl, rfl, rfl, rfl, rfl, rfl, rfl, rfl, rfl, rfl, rfl, rfl, fun _ => Or.inl rfl, rfl, Grows.of_eq rfl⟩

theorem failEdge_mem (s : State) (q : Nat) : (s.failEdge q).mem = s.mem := by
  unfold State.failEdge
  dsimp only
  have h : ∀ (l : List Nat) (a : State), (l.foldl (fun (s : State) l => if linkEdge l = q then s.modLink l (fun x => { x with phase := .disabled }) else s) a).mem = a.mem := by
    intro l
    induction l with
    | nil => exact fun _ => rfl
    | cons x l ih =>
      intro a
      rw [List.foldl_cons, ih]
      split <;> rfl
  exact h _ _

theorem boots_failStack (s : State) (k : Nat) : Boots s (s.failStack k) := by
  unfold State.failStack
  dsimp only
  exact Boots.trans (b := (s.drawBytes 4).2) (boots_mem s _ _ _ _) (boots_markBist _ _ _)

theorem markBist_mem (s : State) (d : Nat) (i : RecInfo) : (s.markBist d i).mem = s.mem := by
  unfold State.markBist
  rw [State.report_mem]
  rfl

theorem fold_same {α β : Type} (f : State → α → State) (p : State → β) (h : ∀ s a, p (f s a) = p s) : ∀ (l : List α) (s : State), p (l.foldl f s) = p s
  | [], _ => rfl
  | a :: l, s => by rw [List.foldl_cons, fold_same f p h l, h]

theorem boots_selfTests (s : State) (env : BootEnv) : Boots s (s.selfTests env) := by
  unfold State.selfTests
  dsimp only
  exact ((boots_fold _ (fun s _ => boots_failStack s _) _ _).trans (boots_fold _ (fun s _ => boots_markBist s _ _) _ _)).trans
    (boots_fold _ (fun s _ => (boots_markBist s _ _).trans (boots_failEdge _ _)) _ _)

theorem selfTests_mem (s : State) (env : BootEnv) : (s.selfTests env).mem = s.mem := by
  unfold State.selfTests
  dsimp only
  rw [fold_same _ State.mem (fun s a => by rw [failEdge_mem, markBist_mem]), fold_same _ State.mem (fun s a => markBist_mem _ _ _),
    fold_same _ State.mem (fun s a => by unfold State.failStack; dsimp only; rw [markBist_mem]; rfl)]

theorem dieByte_set (b : BootSt) (d n e : Nat) : (b.setDieByte d n).dieByte e = if e = d then n else b.dieByte e := by
  unfold BootSt.setDieByte BootSt.dieByte
  dsimp only
  rw [SMap.get_set]
  by_cases h : e = d
  · rw [if_pos h, if_pos h]
  · rw [if_neg h, if_neg h]

theorem dieBytes_fold : ∀ (ds : List Nat) (b : BootSt) (e : Nat), (ds.foldl (fun b d => b.setDieByte d 0) b).dieByte e = if e ∈ ds then 0 else b.dieByte e
  | [], b, e => by simp
  | d :: ds, b, e => by
    rw [List.foldl_cons, dieBytes_fold ds, dieByte_set]
    by_cases h1 : e ∈ ds
    · rw [if_pos h1, if_pos (List.mem_cons_of_mem _ h1)]
    · rw [if_neg h1]
      by_cases h2 : e = d
      · rw [if_pos h2, if_pos (by rw [h2]; exact List.mem_cons_self)]
      · rw [if_neg h2, if_neg (by simp [h1, h2])]

theorem dieBytes_keep : ∀ (ds : List Nat) (b : BootSt), let x := ds.foldl (fun b d => b.setDieByte d 0) b
    x.held = b.held ∧ x.cause = b.cause ∧ x.slot = b.slot ∧ x.cxl = b.cxl ∧ x.queue = b.queue ∧ x.resetting = b.resetting ∧ x.stage = b.stage
  | [], _ => ⟨rfl, rfl, rfl, rfl, rfl, rfl, rfl⟩
  | d :: ds, b => dieBytes_keep ds (b.setDieByte d 0)

/-- The boot fields that a boot sets put back: what the whole boot keeps. -/
def Reboots (s m : State) : Prop :=
  Boots { s with boot := { s.boot with held := m.boot.held },
                 sec := { s.sec with slotB := m.sec.slotB, svn := m.sec.svn, keyIndex := m.sec.keyIndex, writeCap := m.sec.writeCap } } m

theorem Boots.reboots {s m : State} (h : Boots s m) : Reboots s m := by
  unfold Reboots
  rw [h.held, h.slotB, h.svn, h.keyIndex, h.writeCap]
  exact h

theorem Reboots.trans {a b c : State} (h : Reboots a b) (k : Reboots b c) : Reboots a c :=
  ⟨k.pending.trans h.pending, k.hostMem.trans h.hostMem, k.outbox.trans h.outbox, k.fuses.trans h.fuses, k.tiles.trans h.tiles, k.dealers.trans h.dealers, k.sched.trans h.sched,
   k.col.trans h.col, k.power.trans h.power, k.grade.trans h.grade, k.bytes.trans h.bytes, k.pages.trans h.pages, k.objects.trans h.objects, k.spi.trans h.spi, k.recordB.trans h.recordB, rfl,
   rfl, rfl, rfl, rfl, k.cause.trans h.cause, k.slot.trans h.slot, k.cxl.trans h.cxl, k.queue.trans h.queue, k.resetting.trans h.resetting,
   fun l => by
     rcases k.links l with e | e
     · rw [e]; exact h.links l
     · exact Or.inr e,
   k.global.trans h.global, h.grows.trans k.grows⟩

theorem reboots_set (s : State) (b : BootSt) (x : SecSt) (hb : b = { s.boot with held := b.held, stage := b.stage, dies := b.dies, marginSt00 := b.marginSt00 })
    (hx : x.spi = s.sec.spi ∧ x.recordB = s.sec.recordB) : Reboots s { s with boot := b, sec := x } := by
  refine ⟨rfl, rfl, rfl, rfl, rfl, rfl, rfl, rfl, rfl, rfl, rfl, rfl, rfl, hx.1, hx.2, rfl, rfl, rfl, rfl, rfl, ?_, ?_, ?_, ?_, ?_, fun _ => Or.inl rfl, rfl, Grows.of_eq rfl⟩ <;> (dsimp only; rw [hb])

theorem load_keep (x : SecSt) (img cal : List Byte) : (x.load img cal).slotB = x.slotB ∧ (x.load img cal).spi = x.spi ∧ (x.load img cal).recordB = x.recordB
    ∧ (x.load img cal).writeCap = x.writeCap ∧ (x.load img cal).svn = fieldLe img 4 1 ∧ (x.load img cal).keyIndex = fieldLe img 2 1 := by
  unfold SecSt.load
  exact ⟨rfl, rfl, rfl, rfl, rfl, rfl⟩

theorem Reboots.of_boots {a b c : State} (h : Reboots a b) (k : Boots b c) : Reboots a c := h.trans k.reboots

theorem bootWith_spec (s : State) (env : BootEnv) (b : Bool) (img : List Byte) :
    let m := s.bootWith env b img
    Reboots s m ∧ m.boot.stage = 0xFF ∧ m.sec.slotB = b ∧ m.sec.svn = fieldLe img 4 1 ∧ m.sec.keyIndex = fieldLe img 2 1
      ∧ Logged s m Codes.bootComplete 0xFFFF ∧ (∀ d, d < 45 → m.boot.dieByte d = 0) ∧ m.mem.ftl.journal = 0 ∧ m.boot.held = s.boot.held ∧ m.sec.writeCap = s.sec.writeCap := by
  unfold State.bootWith
  dsimp only
  have h1 := (boots_checkChains s env).trans (boots_loadCal (s.checkChains env))
  generalize (s.checkChains env).loadCal = s1 at h1 ⊢
  obtain ⟨x, hx⟩ : ∃ x, x = ({ s1.sec with slotB := b } : SecSt).load img s1.boot.userCal := ⟨_, rfl⟩
  have hl := load_keep { s1.sec with slotB := b } img s1.boot.userCal
  rw [← hx] at hl
  have h2 : Reboots s { s1 with sec := x } := h1.reboots.trans (reboots_set s1 s1.boot x rfl ⟨hl.2.1, hl.2.2.1⟩)
  obtain ⟨s2, hs2⟩ : ∃ s2 : State, s2 = { s1 with sec := x } := ⟨_, rfl⟩
  rw [← hs2] at h2
  have e2 : s1.modSec (fun y => { y with slotB := b }.load img s1.boot.userCal) = s2 := by rw [hs2, hx]; rfl
  rw [e2]
  have f2 : s2.boot.held = s.boot.held ∧ s2.sec = x := by rw [hs2]; exact ⟨h1.held, rfl⟩
  have h3 : Boots s2 ((List.range 32).foldl State.mapStack s2).loadRetired := (boots_fold _ boots_mapStack _ _).trans (boots_mem _ _ _ _ _)
  generalize ((List.range 32).foldl State.mapStack s2).loadRetired = s3 at h3 ⊢
  have h4 : Boots s3 (if s3.boot.marginSt00 = true then s3.marginStack 0 env.st00 else s3) := by
    split
    · exact boots_marginStack _ _ _
    · exact Boots.refl _
  generalize (if s3.boot.marginSt00 = true then s3.marginStack 0 env.st00 else s3) = s4 at h4 ⊢
  obtain ⟨h5, j5⟩ := boots_loadFlash s4 env
  generalize s4.loadFlash env = s5 at h5 j5 ⊢
  have h6 := boots_selfTests s5 env
  have j6 := selfTests_mem s5 env
  generalize s5.selfTests env = s6 at h6 j6 ⊢
  obtain ⟨y, hy⟩ : ∃ y, y = (List.range 45).foldl (fun (b : BootSt) d => b.setDieByte d 0) { s6.boot with marginSt00 := false, stage := 0xFF } := ⟨_, rfl⟩
  have k := dieBytes_keep (List.range 45) { s6.boot with marginSt00 := false, stage := 0xFF }
  dsimp only at k
  rw [← hy] at k
  have dy : ∀ d, d < 45 → y.dieByte d = 0 := by
    intro d hd
    rw [hy, dieBytes_fold, if_pos (List.mem_range.2 hd)]
  have e7 : s6.modBoot (fun b => (List.range 45).foldl (fun (b : BootSt) d => b.setDieByte d 0) { b with marginSt00 := false, stage := 0xFF }) = { s6 with boot := y } := by
    rw [hy]; rfl
  rw [e7]
  have h7 : Boots s6 { s6 with boot := y } := boots_boot s6 y s6.freeCtr ⟨k.1, k.2.1, k.2.2.1, k.2.2.2.1, k.2.2.2.2.1, k.2.2.2.2.2.1⟩
  obtain ⟨s7, hs7⟩ : ∃ s7 : State, s7 = { s6 with boot := y } := ⟨_, rfl⟩
  rw [← hs7] at h7 ⊢
  have b7 : s7.boot = y := by rw [hs7]
  have m7 : s7.mem.ftl.journal = 0 := by rw [hs7]; show s6.mem.ftl.journal = 0; rw [j6, j5]
  have h8 := (((h3.trans h4).trans h5).trans h6).trans h7
  have h9 := h8.trans (boots_report s7 Codes.bootComplete { data := natLe 1 s7.boot.cause })
  refine ⟨h2.of_boots h9, ?_, ?_, ?_, ?_, ?_, ?_, ?_, ?_, ?_⟩
  · rw [report_boot, b7]; exact k.2.2.2.2.2.2
  · rw [h9.slotB, f2.2]; exact hl.1
  · rw [h9.svn, f2.2]; exact hl.2.2.2.2.1
  · rw [h9.keyIndex, f2.2]; exact hl.2.2.2.2.2
  · exact logged_before ((h2.of_boots h8).grows) (report_logged s7 Codes.bootComplete _)
  · intro d hd; rw [report_boot, b7]; exact dy d hd
  · rw [State.report_mem]; exact m7
  · rw [h9.held]; exact f2.1
  · rw [h9.writeCap, f2.2, hl.2.2.2.1]; exact h1.writeCap

/-- What the statement says of a boot. -/
def BootedTo (s : State) (env : BootEnv) (m : State) : Prop :=
  let good (b : Bool) : Code := verifyImage s.fuses (if b then env.sigB else env.sigA) (s.sec.slotImage b)
  let a := s.sec.recordB
  m.boot.held = false
  ∧ (good a = 0 ∨ good (!a) = 0 →
      let b := if good a = 0 then a else !a
      m.boot.stage = 0xFF ∧ m.sec.slotB = b ∧ m.sec.svn = fieldLe (s.sec.slotImage b) 4 1 ∧ m.sec.keyIndex = fieldLe (s.sec.slotImage b) 2 1
        ∧ Logged s m Codes.bootComplete 0xFFFF ∧ (∀ d, d < 45 → m.boot.dieByte d = 0) ∧ m.mem.ftl.journal = 0)
  ∧ (good a ≠ 0 → Logged s m (good a) 0xFFFF)
  ∧ (good a ≠ 0 → good (!a) ≠ 0 → m.boot.stage = 0xFE ∧ Logged s m (good (!a)) 0xFFFF ∧ Logged s m Codes.fwNoValidImage 0xFFFF)
  ∧ m.sec.writeCap = BitVec.ofNat 32 (max 1 (env.rawBytes / 2097152 * env.rated / 73475865))

theorem bootSteps_spec (s : State) (env : BootEnv) : Reboots s (s.bootSteps env) ∧ BootedTo s env (s.bootSteps env) := by
  obtain ⟨cap, hcap⟩ : ∃ cap, cap = writeCapOf env.rawBytes env.rated := ⟨_, rfl⟩
  obtain ⟨s1, hs1⟩ : ∃ s1 : State, s1 = { s with boot := { s.boot with held := false }, sec := { s.sec with writeCap := cap } } := ⟨_, rfl⟩
  have h1 : Reboots s s1 := by rw [hs1]; exact reboots_set s _ _ rfl ⟨rfl, rfl⟩
  have e1 : s.bootSteps env = match s1.verifySlots env with
      | (some q, s) => s.bootWith env q.1 q.2
      | (none, s) => s.modBoot (fun b => { b with stage := 0xFE }) := by
    have h : ((s.modSec (fun x => { x with writeCap := cap })).modBoot (fun b => { b with held := false })) = s1 := by rw [hs1]; rfl
    unfold State.bootSteps
    dsimp only
    rw [← hcap, h]
    all_goals
      generalize s1.verifySlots env = v
      obtain ⟨q | q, t⟩ := v <;> rfl
  obtain ⟨good, hgood⟩ : ∃ good : Bool → Code, good = fun b => verifyImage s.fuses (if b then env.sigB else env.sigA) (s.sec.slotImage b) := ⟨_, rfl⟩
  obtain ⟨a, ha⟩ : ∃ a, a = s.sec.recordB := ⟨_, rfl⟩
  obtain ⟨im, him⟩ : ∃ im : Bool → List Byte, im = fun b => s.sec.slotImage b := ⟨_, rfl⟩
  have e2 : s1.verifySlots env = if good a = 0 then (some (a, im a), s1)
      else if good (!a) = 0 then (some (!a, im (!a)), s1.report (good a) {})
      else (none, ((s1.report (good a) {}).report (good (!a)) {}).report Codes.fwNoValidImage {}) := by
    rw [hgood, ha, him, hs1]; rfl
  have w1 : s1.sec.writeCap = BitVec.ofNat 32 (max 1 (env.rawBytes / 2097152 * env.rated / 73475865)) := by rw [hs1, hcap]; show writeCapOf _ _ = _; unfold writeCapOf size2MiB; rfl
  have b1 : s1.boot.held = false := by rw [hs1]
  rw [e2] at e1
  show Reboots s _ ∧ (_ ∧ _ ∧ _ ∧ _ ∧ _)
  rw [← ha]
  have eg : ∀ b, verifyImage s.fuses (if b = true then env.sigB else env.sigA) (s.sec.slotImage b) = good b := fun b => by rw [hgood]
  have ei : ∀ b, s.sec.slotImage b = im b := fun b => by rw [him]
  simp only [eg]
  simp only [ei]

  clear hgood him eg ei e2 hs1 ha hcap
  by_cases g : good a = 0
  · rw [if_pos g] at e1
    obtain ⟨q1, q2, q3, q4, q5, q6, q7, q8, q9, q10⟩ := bootWith_spec s1 env a (im a)
    rw [e1]
    refine ⟨h1.trans q1, q9.trans b1, fun _ => ?_, fun h => absurd g h, fun h => absurd g h, q10.trans w1⟩
    rw [if_pos g]
    exact ⟨q2, q3, q4, q5, logged_before h1.grows q6, q7, q8⟩
  · rw [if_neg g] at e1
    have h2 := h1.of_boots (boots_report s1 (good a) {})
    have l2 : Logged s (s1.report (good a) {}) (good a) 0xFFFF := logged_before h1.grows (report_logged s1 (good a) {})
    by_cases g2 : good (!a) = 0
    · rw [if_pos g2] at e1
      obtain ⟨q1, q2, q3, q4, q5, q6, q7, q8, q9, q10⟩ := bootWith_spec (s1.report (good a) {}) env (!a) (im (!a))
      rw [e1]
      refine ⟨h2.trans q1, q9.trans (by rw [report_boot]; exact b1), fun _ => ?_, fun _ => logged_grow l2 q1.grows, fun _ h => absurd g2 h, q10.trans (by rw [report_sec]; exact w1)⟩
      rw [if_neg g]
      exact ⟨q2, q3, q4, q5, logged_before h2.grows q6, q7, q8⟩
    · rw [if_neg g2] at e1
      obtain ⟨z, hz⟩ : ∃ z, z = (s1.report (good a) {}).report (good (!a)) {} := ⟨_, rfl⟩
      obtain ⟨y, hy⟩ : ∃ y, y = z.report Codes.fwNoValidImage {} := ⟨_, rfl⟩
      have bz : Boots (s1.report (good a) {}) z := by rw [hz]; exact boots_report _ _ _
      have by' : Boots z y := by rw [hy]; exact boots_report _ _ _
      have lz : Logged s z (good (!a)) 0xFFFF := by rw [hz]; exact logged_before h2.grows (report_logged _ (good (!a)) {})
      have ly : Logged z y Codes.fwNoValidImage 0xFFFF := by rw [hy]; exact report_logged z Codes.fwNoValidImage {}
      have hyb : y.boot.held = s1.boot.held := by rw [by'.held, bz.held]; exact (boots_report _ _ _).held
      have hys : y.sec.writeCap = s1.sec.writeCap := by rw [by'.writeCap, bz.writeCap]; exact (boots_report _ _ _).writeCap
      rw [← hz, ← hy] at e1
      clear hy hz
      have h3 := (h2.of_boots bz).of_boots by'
      have h4 : Reboots y { y with boot := { y.boot with stage := 0xFE } } := reboots_set y _ y.sec rfl ⟨rfl, rfl⟩
      have e3 : s.bootSteps env = { y with boot := { y.boot with stage := 0xFE } } := e1
      rw [e3]
      refine ⟨h3.trans h4, ?_, fun h => ?_, fun _ => ?_, fun _ _ => ⟨rfl, ?_, ?_⟩, ?_⟩
      · show y.boot.held = false; rw [hyb]; exact b1
      · rcases h with h | h
        · exact absurd h g
        · exact absurd h g2
      · exact logged_grow l2 ((bz.trans by').grows.trans h4.grows)
      · exact logged_grow lz (by'.grows.trans h4.grows)
      · exact logged_grow (logged_before (h2.of_boots bz).grows ly) h4.grows
      · show y.sec.writeCap = _; rw [hys]; exact w1

def EmptyMachine (m : State) : Prop := (∀ j, m.job j = none) ∧ (∀ t, m.tile t = .init) ∧ (∀ d, m.dealer d = .init) ∧ m.mem.bytes = [] ∧ m.mem.pages = [] ∧ m.mem.objects = [] ∧ m.col = .init
    ∧ m.boot.queue = [] ∧ m.boot.resetting = [] ∧ (∀ l : Link, (m.link l).phase = .down ∨ (m.link l).phase = .disabled) ∧ m.grade = 0
def KeepsFlash (f : FtlSt) (m : State) : Prop := m.mem.ftl.store = f.store ∧ m.mem.ftl.taken = f.taken ∧ m.mem.ftl.names = f.names ∧ m.mem.ftl.unjournaled = f.unjournaled
      ∧ m.mem.ftl.journalLost = f.journalLost
def SameOutside (s m : State) : Prop := m.pending = s.pending ∧ m.hostMem = s.hostMem ∧ m.outbox = s.outbox ∧ m.fuses = s.fuses ∧ m.sec.spi = s.sec.spi ∧ m.sec.recordB = s.sec.recordB
def LoweredTo (s : State) (f : FtlSt) (cause : Nat) (m : State) : Prop := EmptyMachine m ∧ m.boot.held = true ∧ m.boot.cause = cause ∧ m.logs = .init ∧ KeepsFlash f m ∧ SameOutside s m ∧ m.sec.staged = 0
      ∧ m.power.tripped = s.power.tripped

theorem reset_empty : EmptyMachine State.reset :=
  ⟨fun _ => rfl, fun _ => rfl, fun _ => rfl, rfl, rfl, rfl, rfl, rfl, rfl, fun _ => Or.inl rfl, rfl⟩

theorem lowered_to (s : State) (cause : Nat) (mg : Bool) : LoweredTo s s.mem.ftl cause (s.lowered cause mg) := by
  unfold State.lowered
  exact ⟨⟨fun _ => rfl, fun _ => rfl, fun _ => rfl, rfl, rfl, rfl, rfl, rfl, rfl, fun _ => Or.inl rfl, rfl⟩, rfl, rfl, rfl, ⟨rfl, rfl, rfl, rfl, rfl⟩, ⟨rfl, rfl, rfl, rfl, rfl, rfl⟩, rfl, rfl⟩

theorem LoweredTo.congr {s t m : State} {f : FtlSt} {c : Nat} (h : LoweredTo t f c m) (k : SameOutside s t) (ht : t.power.tripped = s.power.tripped) : LoweredTo s f c m := by
  obtain ⟨h1, h2, h3, h4, h5, ⟨o1, o2, o3, o4, o5, o6⟩, h7, h8⟩ := h
  obtain ⟨k1, k2, k3, k4, k5, k6⟩ := k
  exact ⟨h1, h2, h3, h4, h5, ⟨o1.trans k1, o2.trans k2, o3.trans k3, o4.trans k4, o5.trans k5, o6.trans k6⟩, h7, h8.trans ht⟩

theorem saveJournal_eq (s : State) : s.saveJournal = s.modFtl (fun f => if f.readOnly then f else f.programJournal) := by
  unfold State.saveJournal
  cases h : s.mem.ftl.readOnly
  · rw [if_neg (by simp)]
    unfold State.modFtl
    dsimp only [State.modMem]
    rw [h]; rfl
  · rw [if_pos rfl]
    unfold State.modFtl
    dsimp only [State.modMem]
    rw [h]; rfl

theorem coldReset_to (s : State) : LoweredTo s (if s.mem.ftl.readOnly then s.mem.ftl else s.mem.ftl.programJournal) 1 s.coldReset := by
  unfold State.coldReset
  rw [saveJournal_eq]
  have h := lowered_to (s.modFtl (fun f => if f.readOnly then f else f.programJournal)) 1 s.boot.marginSt00
  exact h.congr ⟨rfl, rfl, rfl, rfl, rfl, rfl⟩ rfl

/-- What a warm reset leaves before the boot. -/
theorem warmed_to (s : State) (cause : Nat) : EmptyMachine (s.warmed cause) ∧ SameOutside s (s.warmed cause) ∧ (s.warmed cause).boot.cause = cause
    ∧ (s.warmed cause).boot.slot = s.boot.slot ∧ (s.warmed cause).boot.cxl = s.boot.cxl ∧ (s.warmed cause).logs.global = s.logs.global ∧ Grows s (s.warmed cause) := by
  have hl : ∀ l, ((s.warmed cause).link l).phase = .down := by
    intro l
    have e : ((s.warmed cause).link l) = SMap.get .init ((s.links.links.map (fun (q : Nat × LinkSt) => (q.1, q.2.counters))).filter (fun q => q.2 != .init)) l := rfl
    rw [e]
    have hall : ∀ (m : SMap LinkSt), (∀ q ∈ m, q.2.phase = .down) → (SMap.get .init m l).phase = .down := by
      intro m hm
      unfold SMap.get
      split
      · next p hp => exact hm p (List.mem_of_find?_eq_some hp)
      · rfl
    refine hall _ (fun q hq => ?_)
    obtain ⟨hq, -⟩ := List.mem_filter.1 hq
    obtain ⟨p, -, rfl⟩ := List.mem_map.1 hq
    rfl
  refine ⟨⟨fun _ => rfl, fun _ => rfl, fun _ => rfl, rfl, rfl, rfl, rfl, rfl, rfl, fun l => Or.inl (hl l), rfl⟩, ⟨rfl, rfl, rfl, rfl, rfl, rfl⟩, rfl, rfl, rfl, rfl, fun die => ?_⟩
  exact ⟨⟨[], by rw [List.append_nil]; rfl⟩, Nat.le_refl _⟩

theorem deviceReset_fold : ∀ (js : List Nat) (s : State), let m := js.foldl (fun s j => s.report Codes.deviceReset { job := j }) s
    Boots s m ∧ (js ≠ [] → Logged s m Codes.deviceReset 0xFFFF)
  | [], s => ⟨Boots.refl _, fun h => absurd rfl h⟩
  | j :: js, s => by
    have ih := deviceReset_fold js (s.report Codes.deviceReset { job := j })
    have b := boots_report s Codes.deviceReset { job := j }
    exact ⟨b.trans ih.1, fun _ => logged_grow (report_logged s Codes.deviceReset { job := j }) ih.1.grows⟩

theorem Reboots.empty {s m : State} (h : Reboots s m) (k : EmptyMachine s) : EmptyMachine m := by
  obtain ⟨k1, k2, k3, k4, k5, k6, k7, k8, k9, k10, k11⟩ := k
  refine ⟨fun j => ?_, fun t => ?_, fun d => ?_, h.bytes.trans k4, h.pages.trans k5, h.objects.trans k6, h.col.trans k7, h.queue.trans k8, h.resetting.trans k9, fun l => ?_, h.grade.trans k11⟩
  · rw [← k1 j]; unfold State.job; rw [h.sched]
  · rw [← k2 t]; unfold State.tile; rw [h.tiles]
  · rw [← k3 d]; unfold State.dealer; rw [h.dealers]
  · rcases h.links l with e | e
    · rw [e]; exact k10 l
    · exact Or.inr e

theorem BootedTo.congr {s t m : State} {env : BootEnv} (h : BootedTo t env m) (hf : t.fuses = s.fuses) (hs : t.sec.spi = s.sec.spi) (hr : t.sec.recordB = s.sec.recordB) (hg : Grows s t) :
    BootedTo s env m := by
  have him : ∀ b, t.sec.slotImage b = s.sec.slotImage b := fun b => by
    unfold SecSt.slotImage
    rw [hs]
  unfold BootedTo at h ⊢
  dsimp only at h ⊢
  simp only [hf, hr, him] at h
  obtain ⟨h1, h2, h3, h4, h5⟩ := h
  refine ⟨h1, fun g => ?_, fun g => logged_before hg (h3 g), fun g g' => ?_, h5⟩
  · obtain ⟨q1, q2, q3, q4, q5, q6, q7⟩ := h2 g
    exact ⟨q1, q2, q3, q4, logged_before hg q5, q6, q7⟩
  · obtain ⟨q1, q2, q3⟩ := h4 g g'
    exact ⟨q1, logged_before hg q2, logged_before hg q3⟩

theorem warm_to (s : State) (cause : Nat) (env : BootEnv) (h : s.boot.held = false) (g : s.boot.stage ≠ 0xFE) :
    let m := s.warm cause env
    EmptyMachine m ∧ SameOutside s m ∧ BootedTo s env m ∧ m.boot.cause = cause ∧ m.boot.slot = s.boot.slot ∧ m.boot.cxl = s.boot.cxl
      ∧ (∀ j, s.job j ≠ none → Logged s m Codes.deviceReset 0xFFFF) ∧ m.logs.global = s.logs.global := by
  unfold State.warm
  rw [if_neg (by rw [h]; simp [g])]
  dsimp only
  obtain ⟨js, hjs⟩ : ∃ js, js = (s.sched.jobs.filter (fun q => q.2.isSome)).map (·.1) := ⟨_, rfl⟩
  have hj : ∀ j, s.job j ≠ none → js ≠ [] := by
    intro j hn e
    obtain ⟨x, hx⟩ := Option.ne_none_iff_exists'.1 hn
    unfold State.job SMap.get at hx
    cases hf : s.sched.jobs.find? (fun p => p.1 == j) with
    | none => simp [hf] at hx
    | some p =>
      rw [hf] at hx
      have hm : p ∈ s.sched.jobs.filter (fun q => q.2.isSome) := List.mem_filter.2 ⟨List.mem_of_find?_eq_some hf, by
        have e : p.2 = some x := hx
        rw [e]; rfl⟩
      rw [hjs] at e
      have : p.1 ∈ (s.sched.jobs.filter (fun q => q.2.isSome)).map (·.1) := List.mem_map.2 ⟨p, hm, rfl⟩
      rw [e] at this
      exact absurd this (by simp)
  rw [← hjs]
  obtain ⟨b1, l1⟩ := deviceReset_fold js s
  generalize js.foldl (fun s j => s.report Codes.deviceReset { job := j }) s = s1 at b1 l1 ⊢
  obtain ⟨s2, hs2⟩ : ∃ s2, s2 = s1.saveJournal := ⟨_, rfl⟩
  have b2 : Boots s1 s2 := by rw [hs2, saveJournal_eq]; exact boots_modFtl _ _
  rw [← hs2]
  obtain ⟨w1, w2, w3, w4, w5, w6, w7⟩ := warmed_to s2 cause
  generalize s2.warmed cause = s3 at w1 w2 w3 w4 w5 w6 w7 ⊢
  obtain ⟨r, k⟩ := bootSteps_spec s3 env
  generalize s3.bootSteps env = m at r k ⊢
  have b := b1.trans b2
  have gr : Grows s s3 := b.grows.trans w7
  obtain ⟨o1, o2, o3, o4, o5, o6⟩ := w2
  refine ⟨r.empty w1, ⟨?_, ?_, ?_, ?_, ?_, ?_⟩, k.congr (o4.trans b.fuses) (o5.trans b.spi) (o6.trans b.recordB) gr, r.cause.trans w3, r.slot.trans (w4.trans b.slot), r.cxl.trans (w5.trans b.cxl), ?_, ?_⟩
  · exact r.pending.trans (o1.trans b.pending)
  · exact r.hostMem.trans (o2.trans b.hostMem)
  · exact r.outbox.trans (o3.trans b.outbox)
  · exact r.fuses.trans (o4.trans b.fuses)
  · exact r.spi.trans (o5.trans b.spi)
  · exact r.recordB.trans (o6.trans b.recordB)
  · exact fun j hn => logged_grow (l1 (hj j hn)) (b2.grows.trans (w7.trans r.grows))
  · exact r.global.trans (w6.trans b.global)

end Sys2Proof.Machine
end

