-- ==== Sys2Proof/Laws/Dies.lean ====
section
/-!
SUPPORT. Laws/Dies.lean: per-die resets, and what their end leaves.
-/

namespace Sys2Proof.Machine

open Sys2Proof.Claims

/-- What the reset of one die leaves of the rest of the machine. -/
structure Sideways (s m : State) : Prop where
  pending : m.pending = s.pending
  hostMem : m.hostMem = s.hostMem
  outbox : m.outbox = s.outbox
  power : m.power = s.power
  grade : m.grade = s.grade
  col : m.col = s.col
  fuses : m.fuses = s.fuses
  objects : m.mem.objects = s.mem.objects
  ftl : m.mem.ftl = s.mem.ftl
  boot : m.boot = { s.boot with lastCode := m.boot.lastCode }
  activating : m.sec.activating = s.sec.activating
  grows : Grows s m

theorem Sideways.refl (s : State) : Sideways s s := ⟨rfl, rfl, rfl, rfl, rfl, rfl, rfl, rfl, rfl, rfl, rfl, Grows.of_eq rfl⟩

theorem Sideways.trans {a b c : State} (h : Sideways a b) (k : Sideways b c) : Sideways a c :=
  ⟨k.pending.trans h.pending, k.hostMem.trans h.hostMem, k.outbox.trans h.outbox, k.power.trans h.power, k.grade.trans h.grade, k.col.trans h.col, k.fuses.trans h.fuses,
   k.objects.trans h.objects, k.ftl.trans h.ftl, by rw [k.boot, h.boot], k.activating.trans h.activating, h.grows.trans k.grows⟩

theorem sideways_report (s : State) (c : Code) (i : RecInfo) : Sideways s (s.report c i) := by
  obtain ⟨q1, q2, q3, q4, q5, q6, q7⟩ := report_rest s c i
  exact ⟨by simp, by simp, by simp, q7, by simp, q6, by simp, by rw [q2], by rw [q2], by rw [report_boot], by rw [report_sec], grows_report _ _ _⟩

theorem sideways_fold {α : Type} (f : State → α → State) (h : ∀ s a, Sideways s (f s a)) : ∀ (l : List α) (s : State), Sideways s (l.foldl f s)
  | [], s => Sideways.refl s
  | a :: l, s => (h s a).trans (sideways_fold f h l (f s a))

theorem sideways_parts (s : State) (ti : SMap TileSt) (de : SMap DealerSt) (li : LinksSt) (co : SMap EngineSt) (sc : SchedSt) (by_ : SMap Byte) (stk : SMap StackSt) (pg : SMap (Option PageSt)) :
    Sideways s { s with tiles := ti, dealers := de, links := li, codec := co, sched := sc, mem := { s.mem with bytes := by_, stk := stk, pages := pg } } :=
  ⟨rfl, rfl, rfl, rfl, rfl, rfl, rfl, rfl, rfl, rfl, rfl, Grows.of_eq rfl⟩

theorem faultJob_eq (s : State) (j : Nat) (c : Code) : s.faultJob j c = { s with sched := (s.faultJob j c).sched } := by
  unfold State.faultJob State.modJob
  split <;> rfl

theorem jobFaults_eq (s : State) (j : Nat) (c : Code) (i : RecInfo) : Sideways s (s.jobFaults j c i) ∧ (s.jobFaults j c i).tiles = s.tiles ∧ (s.jobFaults j c i).dealers = s.dealers
    ∧ (s.jobFaults j c i).links = s.links ∧ (s.jobFaults j c i).codec = s.codec ∧ (s.jobFaults j c i).mem = s.mem ∧ Logged s (s.jobFaults j c i) c i.unit
    ∧ ∀ k, (s.jobFaults j c i).job k = if k = j then (s.job j).map (fun x => { x with fault := some (x.fault.getD c) }) else s.job k := by
  unfold State.jobFaults
  have hb := sideways_report s c { i with job := j, jobFaults := true }
  have hl := report_logged s c { i with job := j, jobFaults := true }
  have hj := fun k => State.job_report s c { i with job := j, jobFaults := true } k
  obtain ⟨q1, q2, q3, q4, q5, q6, q7⟩ := report_rest s c { i with job := j, jobFaults := true }
  have hc : (s.report c { i with job := j, jobFaults := true }).codec = s.codec := by simp
  generalize s.report c { i with job := j, jobFaults := true } = t at *
  have e := faultJob_eq t j c
  have ee : ∀ k, (t.faultJob j c).job k = _ := faultJob_same t j c
  refine ⟨hb.trans ?_, ?_, ?_, ?_, ?_, ?_, ?_, fun k => ?_⟩
  · rw [e]; exact sideways_parts t _ _ _ _ _ _ _ _
  · rw [e]; exact q1
  · rw [e]; exact q4
  · rw [e]; exact q3
  · rw [e]; exact hc
  · rw [e]; exact q2
  · exact logged_grow hl (by rw [e]; exact Grows.of_eq rfl)
  · rw [ee, hj, hj]

/-- The faults of a list of jobs. -/
theorem jobFaults_fold (c : Code) (i : RecInfo) : ∀ (js : List Nat) (s : State), let m := js.foldl (fun s j => s.jobFaults j c i) s
    Sideways s m ∧ m.tiles = s.tiles ∧ m.dealers = s.dealers ∧ m.links = s.links ∧ m.codec = s.codec ∧ m.mem = s.mem ∧ (js ≠ [] → Logged s m c i.unit)
      ∧ ∀ k, m.job k = if k ∈ js then (s.job k).map (fun x => { x with fault := some (x.fault.getD c) }) else s.job k
  | [], s => ⟨Sideways.refl s, rfl, rfl, rfl, rfl, rfl, fun h => absurd rfl h, fun k => by simp⟩
  | j :: js, s => by
    obtain ⟨a1, a2, a3, a4, a5, a6, a7, a8⟩ := jobFaults_eq s j c i
    obtain ⟨b1, b2, b3, b4, b5, b6, b7, b8⟩ := jobFaults_fold c i js (s.jobFaults j c i)
    refine ⟨a1.trans b1, b2.trans a2, b3.trans a3, b4.trans a4, b5.trans a5, b6.trans a6, fun _ => logged_grow a7 b1.grows, fun k => ?_⟩
    rw [List.foldl_cons, b8, a8]
    by_cases h : k = j
    · rw [if_pos h, h, if_pos List.mem_cons_self]
      split
      · rw [Option.map_map]
        congr 1
      · rfl
    · rw [if_neg h]
      by_cases h2 : k ∈ js
      · rw [if_pos h2, if_pos (List.mem_cons_of_mem _ h2)]
      · rw [if_neg h2, if_neg (by simp [h, h2])]

theorem setTiles_fold (c : Nat) : ∀ (n : Nat) (s : State), let m := (List.range n).foldl (fun s i => s.setTile (12 * c + i) .init) s
    (∀ t, m.tile t = if 12 * c ≤ t ∧ t < 12 * c + n then .init else s.tile t) ∧ m = { s with tiles := m.tiles }
  | 0, s => ⟨fun t => by rw [if_neg (by omega)]; rfl, rfl⟩
  | n + 1, s => by
    obtain ⟨a, b⟩ := setTiles_fold c n s
    rw [List.range_succ, List.foldl_append]
    dsimp only at a b ⊢
    generalize (List.range n).foldl (fun s i => s.setTile (12 * c + i) .init) s = z at a b ⊢
    rw [List.foldl_cons, List.foldl_nil]
    refine ⟨fun t => ?_, ?_⟩
    · rw [State.tile_setTile, a]
      split
      · rw [if_pos (by omega)]
      · split
        · rw [if_pos (by omega)]
        · rw [if_neg (by omega)]
    · unfold State.setTile
      dsimp only
      rw [b]

theorem resetCompute_spec (s : State) (d : Nat) : let m := s.resetCompute d
    Sideways s m ∧ (∀ t, m.tile t = if 12 * d ≤ t ∧ t < 12 * d + 12 then .init else s.tile t) ∧ (∀ e, m.dealer e = if e = d then .init else s.dealer e)
      ∧ m.mem = s.mem ∧ m.links = s.links ∧ m.codec = s.codec ∧ (s.dieJobs d ≠ [] → Logged s m Codes.dieReset 0xFFFF)
      ∧ ∀ k, m.job k = if k ∈ (s.dieJobs d).map (·.1) then (s.job k).map (fun x => { x with fault := some (x.fault.getD Codes.dieReset) }) else s.job k := by
  unfold State.resetCompute
  dsimp only
  have hmap : (s.dieJobs d).foldl (fun s q => s.jobFaults q.1 Codes.dieReset { cls := 2, idx := d }) s
      = ((s.dieJobs d).map (·.1)).foldl (fun s j => s.jobFaults j Codes.dieReset { cls := 2, idx := d }) s := by rw [List.foldl_map]
  rw [hmap]
  have hne : s.dieJobs d ≠ [] → (s.dieJobs d).map (·.1) ≠ [] := fun h e => h (List.map_eq_nil_iff.1 e)
  obtain ⟨b1, b2, b3, b4, b5, b6, b7, b8⟩ := jobFaults_fold Codes.dieReset { cls := 2, idx := d } ((s.dieJobs d).map (·.1)) s
  generalize ((s.dieJobs d).map (·.1)).foldl (fun s j => s.jobFaults j Codes.dieReset { cls := 2, idx := d }) s = t at *
  obtain ⟨c1, c2⟩ := setTiles_fold d 12 t
  generalize (List.range 12).foldl (fun s i => s.setTile (12 * d + i) .init) t = u at *
  have e : u.setDealer d .init = { t with tiles := u.tiles, dealers := t.dealers.set .init d .init } := by
    rw [c2]; rfl
  rw [e]
  have hs := sideways_parts t u.tiles (t.dealers.set .init d .init) t.links t.codec t.sched t.mem.bytes t.mem.stk t.mem.pages
  refine ⟨b1.trans hs, fun x => ?_, fun x => ?_, b6, b4, b5, fun h => logged_grow (b7 (hne h)) hs.grows, b8⟩
  · show u.tile x = _
    rw [c1]
    unfold State.tile
    rw [b2]
  · show SMap.get .init (t.dealers.set .init d .init) x = _
    rw [SMap.get_set, b3]; rfl

theorem zero_fold (k : Nat) : ∀ (ps : List (Nat × Option PageSt)) (s : State),
    let step := fun (s : State) (q : Nat × Option PageSt) => match q.2.bind PageSt.frame with
      | some f => if frameStack f = k then s.modMem (fun m => { m with bytes := m.bytes.clear (q.1 * size2MiB) size2MiB }) else s
      | none => s
    let hit := fun (a : Nat) => ∃ p x, (p, some x) ∈ ps ∧ (∃ f, x.frame = some f ∧ frameStack f = k) ∧ p * size2MiB ≤ a ∧ a < p * size2MiB + size2MiB
    (∀ a, (hit a → (ps.foldl step s).mem.bytes.get 0 a = 0) ∧ (¬hit a → (ps.foldl step s).mem.bytes.get 0 a = s.mem.bytes.get 0 a))
      ∧ ps.foldl step s = { s with mem := { s.mem with bytes := (ps.foldl step s).mem.bytes } }
  | [], s => ⟨fun a => ⟨fun h => by obtain ⟨p, x, h, -⟩ := h; exact absurd h (by simp), fun _ => rfl⟩, rfl⟩
  | q :: ps, s => by
    classical
    dsimp only
    rw [List.foldl_cons]
    obtain ⟨t, ht⟩ : ∃ t, t = (match q.2.bind PageSt.frame with
      | some f => if frameStack f = k then s.modMem (fun m => { m with bytes := m.bytes.clear (q.1 * size2MiB) size2MiB }) else s
      | none => s) := ⟨_, rfl⟩
    rw [← ht]
    obtain ⟨i1, i2⟩ := zero_fold k ps t
    dsimp only at i1 i2
    obtain ⟨qhit, hq⟩ : ∃ qhit : Prop, qhit = ∃ x f, q.2 = some x ∧ x.frame = some f ∧ frameStack f = k := ⟨_, rfl⟩
    have key : (∀ a, t.mem.bytes.get 0 a = if qhit ∧ q.1 * size2MiB ≤ a ∧ a < q.1 * size2MiB + size2MiB then 0 else s.mem.bytes.get 0 a)
        ∧ t = { s with mem := { s.mem with bytes := t.mem.bytes } } := by
      have hn : ¬qhit → t = s → (∀ a, t.mem.bytes.get 0 a = if qhit ∧ q.1 * size2MiB ≤ a ∧ a < q.1 * size2MiB + size2MiB then 0 else s.mem.bytes.get 0 a)
          ∧ t = { s with mem := { s.mem with bytes := t.mem.bytes } } := by
        intro h e
        rw [e]
        exact ⟨fun a => by rw [if_neg (fun g => h g.1)], rfl⟩
      obtain ⟨p, o⟩ := q
      cases o with
      | none => exact hn (by rw [hq]; rintro ⟨x, f, e, -⟩; exact absurd e (by simp)) ht
      | some x =>
        cases hx : x.frame with
        | none =>
          refine hn (by rw [hq]; rintro ⟨y, f, e, e2, -⟩; cases e; rw [hx] at e2; exact absurd e2 (by simp)) ?_
          rw [ht]; dsimp only [Option.bind]; rw [hx]
        | some f =>
          have e0 : t = if frameStack f = k then s.modMem (fun m => { m with bytes := m.bytes.clear (p * size2MiB) size2MiB }) else s := by
            rw [ht]; dsimp only [Option.bind]; rw [hx]
          by_cases hk : frameStack f = k
          · rw [if_pos hk] at e0
            have hqq : qhit := by rw [hq]; exact ⟨x, f, rfl, hx, hk⟩
            rw [e0]
            refine ⟨fun a => ?_, rfl⟩
            show SMap.get 0 (s.mem.bytes.clear (p * size2MiB) size2MiB) a = _
            rw [SMap.get_clear]
            by_cases hr : p * size2MiB ≤ a ∧ a < p * size2MiB + size2MiB
            · rw [if_pos hr, if_pos ⟨hqq, hr⟩]
            · rw [if_neg hr, if_neg (fun g => hr g.2)]
          · rw [if_neg hk] at e0
            refine hn (by rw [hq]; rintro ⟨y, g, e, e2, e3⟩; cases e; rw [hx] at e2; cases e2; exact hk e3) e0
    obtain ⟨k1, k2⟩ := key
    refine ⟨fun a => ⟨fun h => ?_, fun h => ?_⟩, ?_⟩
    · by_cases hh : ∃ p x, (p, some x) ∈ ps ∧ (∃ f, x.frame = some f ∧ frameStack f = k) ∧ p * size2MiB ≤ a ∧ a < p * size2MiB + size2MiB
      · exact (i1 a).1 hh
      · rw [(i1 a).2 hh, k1, if_pos]
        obtain ⟨p, x, hm, ⟨f, hf, hk⟩, hr⟩ := h
        rcases List.mem_cons.1 hm with e | e
        · rw [hq, ← e]
          exact ⟨⟨x, f, rfl, hf, hk⟩, hr⟩
        · exact absurd ⟨p, x, e, ⟨f, hf, hk⟩, hr⟩ hh
    · rw [(i1 a).2 (fun hh => h (by obtain ⟨p, x, hm, hr⟩ := hh; exact ⟨p, x, List.mem_cons_of_mem _ hm, hr⟩)), k1, if_neg]
      rintro ⟨hqh, hr⟩
      rw [hq] at hqh
      obtain ⟨x, f, e1, e2, e3⟩ := hqh
      refine h ⟨q.1, x, ?_, ⟨f, e2, e3⟩, hr⟩
      rw [← e1]
      exact List.mem_cons_self
    · rw [i2]
      rw [k2]

theorem stackJobs_mem (s : State) (k j : Nat) : j ∈ s.stackJobs k ↔
    ∃ p x o, ((p, some x) ∈ s.mem.pages ∧ ∃ f, x.frame = some f ∧ frameStack f = k) ∧ s.object x.object = some o ∧ o.owner = .job j := by
  unfold State.stackJobs
  rw [List.mem_dedup, List.mem_filterMap]
  constructor
  · rintro ⟨⟨p, o⟩, hm, h⟩
    cases o with
    | none => simp at h
    | some x =>
      dsimp only at h
      cases hf : x.frame with
      | none => simp [hf] at h
      | some f =>
        cases ho : s.object x.object with
        | none => simp [hf, ho] at h
        | some o =>
          cases hw : o.owner with
          | job i =>
            simp only [hf, ho, hw] at h
            by_cases hk : frameStack f = k
            · rw [if_pos hk] at h
              cases h
              exact ⟨p, x, o, ⟨hm, f, hf, hk⟩, ho, hw⟩
            · rw [if_neg hk] at h; exact absurd h (by simp)
          | _ => simp [hf, ho, hw] at h
  · rintro ⟨p, x, o, ⟨hm, f, hf, hk⟩, ho, hw⟩
    refine ⟨(p, some x), hm, ?_⟩
    dsimp only
    rw [hf, ho]
    dsimp only
    rw [hw]
    dsimp only
    rw [if_pos hk]

theorem resetStack_spec (s : State) (k : Nat) : let m := s.resetStack k
    let hit := fun (a : Nat) => ∃ p x, (p, some x) ∈ s.mem.pages ∧ (∃ f, x.frame = some f ∧ frameStack f = k) ∧ p * size2MiB ≤ a ∧ a < p * size2MiB + size2MiB
    Sideways s m ∧ (∀ a, (hit a → m.mem.bytes.get 0 a = 0) ∧ (¬hit a → m.mem.bytes.get 0 a = s.mem.bytes.get 0 a))
      ∧ (∀ n, n ≠ k → m.stack n = s.stack n) ∧ (m.stack k).factory = (s.stack k).factory ∧ (m.stack k).good = (s.stack k).good
      ∧ (m.stack k).ue = (s.stack k).ue ∧ (m.stack k).ce = (s.stack k).ce
      ∧ m.tiles = s.tiles ∧ m.dealers = s.dealers ∧ m.links = s.links ∧ m.codec = s.codec ∧ m.mem.pages = s.mem.pages
      ∧ ∀ j, m.job j = if j ∈ s.stackJobs k then (s.job j).map (fun x => { x with fault := some (x.fault.getD Codes.dieReset) }) else s.job j := by
  unfold State.resetStack
  dsimp only
  obtain ⟨b1, b2, b3, b4, b5, b6, b7, b8⟩ := jobFaults_fold Codes.dieReset { cls := 3, idx := k } (s.stackJobs k) s
  generalize (s.stackJobs k).foldl (fun s j => s.jobFaults j Codes.dieReset { cls := 3, idx := k }) s = t at *
  obtain ⟨z1, z2⟩ := zero_fold k t.mem.pages t
  obtain ⟨u, hu⟩ : ∃ u, u = t.zeroStack k := ⟨_, rfl⟩
  have hu' : u = t.mem.pages.foldl (fun (s : State) (q : Nat × Option PageSt) => match q.2.bind PageSt.frame with
      | some f => if frameStack f = k then s.modMem (fun m => { m with bytes := m.bytes.clear (q.1 * size2MiB) size2MiB }) else s
      | none => s) t := hu
  rw [← hu'] at z1 z2
  rw [← hu]
  clear hu hu'
  dsimp only at z1
  obtain ⟨y, hy⟩ : ∃ y : StackSt, y = { (u.stack k).counters with factory := (u.stack k).factory, good := (u.stack k).good, queue := (u.stack k).queue, tempC := (u.stack k).tempC, throttled := (u.stack k).throttled } := ⟨_, rfl⟩
  have hst : ∀ n, u.stack n = s.stack n := fun n => by unfold State.stack; rw [z2, b6]
  have e : u.modStack k (fun x => { x.counters with factory := x.factory, good := x.good, queue := x.queue, tempC := x.tempC, throttled := x.throttled })
      = { t with mem := { t.mem with bytes := u.mem.bytes, stk := t.mem.stk.set .init k y } } := by
    show u.modMem (fun m => { m with stk := m.stk.set .init k _ }) = _
    have : u = { t with mem := { t.mem with bytes := u.mem.bytes } } := z2
    rw [hy]
    unfold State.modMem
    rw [this]
  rw [e]
  have hm : ∀ n, State.stack { t with mem := { t.mem with bytes := u.mem.bytes, stk := t.mem.stk.set .init k y } } n = if n = k then y else s.stack n := by
    intro n
    show SMap.get .init (t.mem.stk.set .init k y) n = _
    rw [SMap.get_set, b6]; rfl
  have hs := sideways_parts t t.tiles t.dealers t.links t.codec t.sched u.mem.bytes (t.mem.stk.set .init k y) t.mem.pages
  rw [hst] at hy
  refine ⟨b1.trans hs, fun a => ⟨fun h => ?_, fun h => ?_⟩, fun n hn => ?_, ?_, ?_, ?_, ?_, b2, b3, b4, b5, by rw [← b6], b8⟩
  · exact (z1 a).1 (by rw [b6]; exact h)
  · exact ((z1 a).2 (by rw [b6]; exact h)).trans (by rw [b6])
  · rw [hm, if_neg hn]
  · rw [hm, if_pos rfl, hy]
  · rw [hm, if_pos rfl, hy]
  · rw [hm, if_pos rfl, hy]; rfl
  · rw [hm, if_pos rfl, hy]; rfl

theorem linkDown_fold (q : Nat) : ∀ (ls : List Nat) (s : State), let m := ls.foldl (fun (s : State) l => if linkEdge l = q then s.linkDown l else s) s
    (∀ l, (l ∈ ls → linkEdge l = q → (m.link l).phase = .down ∧ (m.link l).txq = [] ∧ (m.link l).replay = []) ∧ (l ∉ ls ∨ linkEdge l ≠ q → m.link l = s.link l)) ∧ m = { s with links := m.links }
  | [], s => ⟨fun l => ⟨fun h => absurd h (by simp), fun _ => rfl⟩, rfl⟩
  | a :: ls, s => by
    dsimp only
    rw [List.foldl_cons]
    obtain ⟨i1, i2⟩ := linkDown_fold q ls (if linkEdge a = q then s.linkDown a else s)
    have key : ∀ l, (if linkEdge a = q then s.linkDown a else s).link l
        = if l = a ∧ linkEdge a = q then { (s.link a).fresh with phase := .down, txq := [], retryDue := false, peer := 0, version := 0 } else s.link l := by
      intro l
      by_cases h : linkEdge a = q
      · rw [if_pos h]
        show (s.setLink a _).link l = _
        rw [State.link_setLink]
        by_cases e : l = a
        · rw [if_pos e, if_pos ⟨e, h⟩]
        · rw [if_neg e, if_neg (fun g => e g.1)]
      · rw [if_neg h, if_neg (fun g => h g.2)]
    have eq : (if linkEdge a = q then s.linkDown a else s) = { s with links := (if linkEdge a = q then s.linkDown a else s).links } := by
      split <;> rfl
    generalize (if linkEdge a = q then s.linkDown a else s) = t at *
    refine ⟨fun l => ⟨fun h1 h2 => ?_, fun h => ?_⟩, ?_⟩
    · by_cases hl : l ∈ ls
      · exact (i1 l).1 hl h2
      · have e : l = a := by
          rcases List.mem_cons.1 h1 with e | e
          · exact e
          · exact absurd e hl
        rw [(i1 l).2 (Or.inl hl), key, if_pos ⟨e, by rw [← e]; exact h2⟩]
        exact ⟨rfl, rfl, rfl⟩
    · have h' : l ∉ ls ∨ linkEdge l ≠ q := by
        rcases h with h | h
        · exact Or.inl (fun g => h (List.mem_cons_of_mem _ g))
        · exact Or.inr h
      rw [(i1 l).2 h', key, if_neg]
      rintro ⟨e, g⟩
      rcases h with h | h
      · exact h (by rw [e]; exact List.mem_cons_self)
      · exact h (by rw [e]; exact g)
    · rw [i2, eq]

/-- What stopping a stream leaves. -/
theorem stop_side (s : State) (e slot : Nat) (x : StreamSt) (c : Code) : Sideways s (s.stopStream e slot x c) ∧ (s.stopStream e slot x c).sched = s.sched
    ∧ (s.stopStream e slot x c).tiles = s.tiles ∧ (s.stopStream e slot x c).dealers = s.dealers ∧ (s.stopStream e slot x c).links = s.links
    ∧ (∀ u j, (s.stopStream e slot x c).stream u j = if (u, j) = (e, slot) then some { x with status := 2 } else s.stream u j) ∧ ∃ u, Logged s (s.stopStream e slot x c) c u := by
  unfold State.stopStream State.streamStatus
  dsimp only
  obtain ⟨t, ht⟩ : ∃ t, t = (s.setStream e slot (some { x with status := 2 })).writeMem (x.addr + 0x78) (natLe 2 2 ++ natLe 2 c.toNat) := ⟨_, rfl⟩
  have he : t = { s with codec := t.codec, mem := { s.mem with bytes := t.mem.bytes, pages := t.mem.pages } } := by
    rw [ht, State.writeMem_rest]; rfl
  rw [← ht]
  have hst : ∀ u j, t.stream u j = if (u, j) = (e, slot) then some { x with status := 2 } else s.stream u j := fun u j => by
    rw [ht, stream_congr (codec_writeMem _ _ _), stream_setStream]
  have hs : Sideways s t := by rw [he]; exact sideways_parts s s.tiles s.dealers s.links t.codec s.sched t.mem.bytes s.mem.stk t.mem.pages
  obtain ⟨q1, q2, q3, q4, q5, q6, q7⟩ := report_rest t c (s.streamInfo e slot x)
  refine ⟨hs.trans (sideways_report _ _ _), ?_, ?_, ?_, ?_, fun u j => ?_, ?_⟩
  · rw [q5, he]
  · rw [q1, he]
  · rw [q4, he]
  · rw [q3, he]
  · rw [report_stream, hst]
  · exact ⟨_, logged_before hs.grows (report_logged t c _)⟩

/-- What stopping streams leaves apart from the streams. -/
def StreamSide (s m : State) : Prop := Sideways s m ∧ m.sched = s.sched ∧ m.tiles = s.tiles ∧ m.dealers = s.dealers ∧ m.links = s.links

theorem StreamSide.trans {a b c : State} (h : StreamSide a b) (k : StreamSide b c) : StreamSide a c :=
  ⟨h.1.trans k.1, k.2.1.trans h.2.1, k.2.2.1.trans h.2.2.1, k.2.2.2.1.trans h.2.2.2.1, k.2.2.2.2.trans h.2.2.2.2⟩

theorem StreamSide.refl (s : State) : StreamSide s s := ⟨Sideways.refl s, rfl, rfl, rfl, rfl⟩

theorem stops_fold (e : Nat) (c : Code) : ∀ (ps : List (Nat × StreamSt)) (s : State), let m := ps.foldl (fun (s : State) p => if p.2.status = 2 then s else s.stopStream e p.1 p.2 c) s
    StreamSide s m ∧ (∀ u j, u ≠ e → m.stream u j = s.stream u j)
      ∧ (∀ j, ((∃ x, (j, x) ∈ ps ∧ x.status ≠ 2) → (∃ y, m.stream e j = some y ∧ y.status = 2) ∧ ∃ u, Logged s m c u) ∧ ((¬∃ x, (j, x) ∈ ps ∧ x.status ≠ 2) → m.stream e j = s.stream e j))
  | [], s => ⟨StreamSide.refl s, fun _ _ _ => rfl, fun j => ⟨fun ⟨x, h, _⟩ => absurd h (by simp), fun _ => rfl⟩⟩
  | p :: ps, s => by
    dsimp only
    rw [List.foldl_cons]
    by_cases hp : p.2.status = 2
    · rw [if_pos hp]
      obtain ⟨a, b, d⟩ := stops_fold e c ps s
      refine ⟨a, b, fun j => ⟨fun ⟨x, hm, hx⟩ => (d j).1 ⟨x, ?_, hx⟩, fun h => (d j).2 (fun ⟨x, hm, hx⟩ => h ⟨x, List.mem_cons_of_mem _ hm, hx⟩)⟩⟩
      rcases List.mem_cons.1 hm with g | g
      · rw [← g] at hp; exact absurd hp hx
      · exact g
    · rw [if_neg hp]
      obtain ⟨s1, s2, s3, s4, s5, s6, u, s7⟩ := stop_side s e p.1 p.2 c
      generalize s.stopStream e p.1 p.2 c = t at *
      obtain ⟨a, b, d⟩ := stops_fold e c ps t
      refine ⟨StreamSide.trans ⟨s1, s2, s3, s4, s5⟩ a, fun u j hu => ?_, fun j => ⟨fun h => ⟨?_, u, logged_grow s7 a.1.grows⟩, fun h => ?_⟩⟩
      · rw [b u j hu, s6, if_neg (fun g => hu (Prod.mk.inj g).1)]
      · by_cases hh : ∃ x, (j, x) ∈ ps ∧ x.status ≠ 2
        · exact ((d j).1 hh).1
        · rw [(d j).2 hh]
          obtain ⟨x, hm, hx⟩ := h
          rcases List.mem_cons.1 hm with g | g
          · rw [s6, ← g, if_pos rfl]
            exact ⟨_, rfl, rfl⟩
          · exact absurd ⟨x, g, hx⟩ hh
      · rw [(d j).2 (fun ⟨x, hm, hx⟩ => h ⟨x, List.mem_cons_of_mem _ hm, hx⟩), s6, if_neg]
        intro g
        refine h ⟨p.2, ?_, hp⟩
        have : j = p.1 := (Prod.mk.inj g).2
        rw [this]
        exact List.mem_cons_self

theorem stream_open (s : State) (e j : Nat) (x : StreamSt) (h : s.stream e j = some x) : (j, x) ∈ (s.codec.get .init e).open_ := by
  unfold State.stream State.engine SMap.get at h
  unfold EngineSt.open_
  rw [List.mem_filterMap]
  cases hf : (SMap.get EngineSt.init s.codec e).streams.find? (fun p => p.1 == j) with
  | none =>
    unfold SMap.get at hf
    rw [hf] at h; exact absurd h (by simp)
  | some p =>
    have h1 := List.mem_of_find?_eq_some hf
    have h2 := List.find?_some hf
    unfold SMap.get at hf
    rw [hf] at h
    dsimp only at h
    simp at h2
    exact ⟨p, h1, by rw [h, h2]; rfl⟩

theorem engines_fold (q : Nat) (c : Code) : ∀ (es : List Nat) (s : State), let m := es.foldl (fun (s : State) e => if engineEdge e = q then
      (s.codec.get .init e).open_.foldl (fun (s : State) p => if p.2.status = 2 then s else s.stopStream e p.1 p.2 c) s else s) s
    StreamSide s m ∧ (∀ e j, engineEdge e ≠ q → m.stream e j = s.stream e j) ∧ (∀ e j, e ∉ es → m.stream e j = s.stream e j)
      ∧ ∀ e j x, e ∈ es → engineEdge e = q → s.stream e j = some x → (∃ y, m.stream e j = some y ∧ y.status = 2) ∧ (x.status ≠ 2 → ∃ u, Logged s m c u)
  | [], s => ⟨StreamSide.refl s, fun _ _ _ => rfl, fun _ _ _ => rfl, fun _ _ _ h => absurd h (by simp)⟩
  | a :: es, s => by
    dsimp only
    rw [List.foldl_cons]
    by_cases ha : engineEdge a = q
    · rw [if_pos ha]
      obtain ⟨t1, t2, t3⟩ := stops_fold a c (s.codec.get .init a).open_ s
      have hopen := stream_open s a
      generalize (s.codec.get .init a).open_ = ps at *
      generalize ps.foldl (fun (s : State) p => if p.2.status = 2 then s else s.stopStream a p.1 p.2 c) s = t at *
      obtain ⟨i1, i2, i3, i4⟩ := engines_fold q c es t
      have step : ∀ j x, s.stream a j = some x → (∃ y, t.stream a j = some y ∧ y.status = 2) ∧ (x.status ≠ 2 → ∃ u, Logged s t c u) := by
        intro j x hx
        by_cases hh : ∃ x, (j, x) ∈ ps ∧ x.status ≠ 2
        · exact ⟨((t3 j).1 hh).1, fun _ => ((t3 j).1 hh).2⟩
        · have hs : x.status = 2 := Classical.byContradiction (fun g => hh ⟨x, hopen j x hx, g⟩)
          exact ⟨⟨x, by rw [(t3 j).2 hh, hx], hs⟩, fun g => absurd hs g⟩
      refine ⟨t1.trans i1, fun e j he => ?_, fun e j he => ?_, fun e j x he hq hx => ?_⟩
      · rw [i2 e j he, t2 e j (fun g => he (by rw [g]; exact ha))]
      · rw [i3 e j (fun g => he (List.mem_cons_of_mem _ g)), t2 e j (fun g => he (by rw [g]; exact List.mem_cons_self))]
      · by_cases e1 : e = a
        · subst e1
          obtain ⟨⟨y, hy, hy2⟩, hl⟩ := step j x hx
          refine ⟨?_, fun g => ?_⟩
          · by_cases e2 : e ∈ es
            · exact (i4 e j y e2 hq hy).1
            · exact ⟨y, by rw [i3 e j e2, hy], hy2⟩
          · obtain ⟨u, hu⟩ := hl g
            exact ⟨u, logged_grow hu i1.1.grows⟩
        · have e2 : e ∈ es := by
            rcases List.mem_cons.1 he with g | g
            · exact absurd g e1
            · exact g
          obtain ⟨h1, h2⟩ := i4 e j x e2 hq (by rw [t2 e j e1, hx])
          exact ⟨h1, fun g => by obtain ⟨u, hu⟩ := h2 g; exact ⟨u, logged_before t1.1.grows hu⟩⟩
    · rw [if_neg ha]
      obtain ⟨i1, i2, i3, i4⟩ := engines_fold q c es s
      refine ⟨i1, i2, fun e j he => i3 e j (fun g => he (List.mem_cons_of_mem _ g)), fun e j x he hq hx => ?_⟩
      rcases List.mem_cons.1 he with g | g
      · rw [g] at hq; exact absurd hq ha
      · exact i4 e j x g hq hx

theorem resetEdge_spec (s : State) (q : Nat) : let m := s.resetEdge q
    Sideways s m ∧ (∀ l : Link, if linkEdge l = q then (m.link l).phase = .down ∧ (m.link l).txq = [] ∧ (m.link l).replay = [] else m.link l = s.link l)
      ∧ (∀ e slot, e < 24 → engineEdge e ≠ q → m.stream e slot = s.stream e slot)
      ∧ (∀ e slot x, e < 24 → engineEdge e = q → s.stream e slot = some x → (∃ y, m.stream e slot = some y ∧ y.status = 2) ∧ (x.status ≠ 2 → ∃ u, Logged s m Codes.dieReset u))
      ∧ m.sched = s.sched ∧ m.tiles = s.tiles ∧ m.dealers = s.dealers := by
  unfold State.resetEdge
  dsimp only
  obtain ⟨a1, a2⟩ := linkDown_fold q (List.range 24) s
  generalize (List.range 24).foldl (fun (s : State) l => if linkEdge l = q then s.linkDown l else s) s = t at *
  have hs : Sideways s t := by rw [a2]; exact sideways_parts s s.tiles s.dealers t.links s.codec s.sched s.mem.bytes s.mem.stk s.mem.pages
  have hst : ∀ e j, t.stream e j = s.stream e j := fun e j => by rw [a2]; rfl
  obtain ⟨b1, b2, b3, b4⟩ := engines_fold q Codes.dieReset (List.range 24) t
  generalize (List.range 24).foldl _ t = m at *
  refine ⟨hs.trans b1.1, fun l => ?_, fun e j _ h => ?_, fun e j x he h hx => ?_, ?_, ?_, ?_⟩
  · have hl : m.link l = t.link l := by unfold State.link; rw [b1.2.2.2.2]
    rw [hl]
    split
    · next h => exact (a1 l).1 (List.mem_range.2 l.isLt) h
    · next h => exact (a1 l).2 (Or.inr h)
  · rw [b2 e j h, hst]
  · obtain ⟨h1, h2⟩ := b4 e j x (List.mem_range.2 he) h (by rw [hst, hx])
    exact ⟨h1, fun g => by obtain ⟨u, hu⟩ := h2 g; exact ⟨u, logged_before hs.grows hu⟩⟩
  · rw [b1.2.1, a2]
  · rw [b1.2.2.1, a2]
  · rw [b1.2.2.2.1, a2]

def ComputeReset (s : State) (c : Nat) (m : State) : Prop :=
  (∀ t, m.tile t = if 12 * c ≤ t ∧ t < 12 * c + 12 then .init else s.tile t) ∧ (∀ e, m.dealer e = if e = c then .init else s.dealer e)
  ∧ (∀ j, ((∃ x, (j, x) ∈ s.dieJobs c) → m.job j = (s.job j).map (fun x => { x with fault := some (x.fault.getD Codes.dieReset) })) ∧ (¬(∃ x, (j, x) ∈ s.dieJobs c) → m.job j = s.job j))
  ∧ (∀ j x, s.job j = some x → x.places.any (fun q => q.die == c) = true → x.phase ≠ .waiting → x.phase ≠ .saved →
      Logged s m Codes.dieReset 0xFFFF ∧ ∃ y, m.job j = some y ∧ y.fault.isSome = true)
  ∧ m.mem = s.mem ∧ m.links = s.links ∧ m.codec = s.codec

def InStack (s : State) (k p : Nat) (x : PageSt) : Prop := (p, some x) ∈ s.mem.pages ∧ ∃ f, x.frame = some f ∧ frameStack f = k

def StackReset (s : State) (k : Nat) (m : State) : Prop :=
  (∀ p x a, InStack s k p x → p * 2097152 ≤ a → a < p * 2097152 + 2097152 → m.mem.bytes.get 0 a = 0)
  ∧ (∀ a, (∀ p x, InStack s k p x → ¬(p * 2097152 ≤ a ∧ a < p * 2097152 + 2097152)) → m.mem.bytes.get 0 a = s.mem.bytes.get 0 a)
  ∧ (∀ j, ((∃ p x o, InStack s k p x ∧ s.object x.object = some o ∧ o.owner = .job j) → m.job j = (s.job j).map (fun x => { x with fault := some (x.fault.getD Codes.dieReset) }))
      ∧ (¬(∃ p x o, InStack s k p x ∧ s.object x.object = some o ∧ o.owner = .job j) → m.job j = s.job j))
  ∧ (∀ n, n ≠ k → m.stack n = s.stack n) ∧ (m.stack k).factory = (s.stack k).factory ∧ (m.stack k).good = (s.stack k).good
  ∧ (m.stack k).ue = (s.stack k).ue ∧ (m.stack k).ce = (s.stack k).ce
  ∧ m.tiles = s.tiles ∧ m.dealers = s.dealers ∧ m.links = s.links ∧ m.codec = s.codec ∧ m.mem.pages = s.mem.pages

def EdgeReset (s : State) (q : Nat) (m : State) : Prop :=
  (∀ l : Link, if linkEdge l = q then (m.link l).phase = .down ∧ (m.link l).txq = [] ∧ (m.link l).replay = [] else m.link l = s.link l)
  ∧ (∀ e slot, e < 24 → engineEdge e ≠ q → m.stream e slot = s.stream e slot)
  ∧ (∀ e slot x, e < 24 → engineEdge e = q → s.stream e slot = some x → (∃ y, m.stream e slot = some y ∧ y.status = 2) ∧ (x.status ≠ 2 → ∃ u, Logged s m Codes.dieReset u))
  ∧ m.sched = s.sched ∧ m.tiles = s.tiles ∧ m.dealers = s.dealers

def SidewaysTo (s m : State) : Prop := m.pending = s.pending ∧ m.hostMem = s.hostMem ∧ m.outbox = s.outbox ∧ m.power = s.power ∧ m.grade = s.grade ∧ m.col = s.col
  ∧ m.mem.objects = s.mem.objects ∧ m.mem.ftl = s.mem.ftl

def ResetTo (s : State) (d : Nat) (m : State) : Prop :=
  m.boot.dieByte d = 1 ∧ (∀ e, e ≠ d → m.boot.dieByte e = s.boot.dieByte e) ∧ m.boot.resetting = s.boot.resetting ++ [d]
  ∧ m.boot.queue = s.boot.queue.filter (fun q => !(q.running && q.die == d))
  ∧ ((∃ q ∈ s.boot.queue, q.running = true ∧ q.die = d) → Logged s m Codes.testAborted 0xFFFF)
  ∧ SidewaysTo s m ∧ (d < 5 → EdgeReset s (d - 1) m) ∧ (5 ≤ d → d < 13 → ComputeReset s (d - 5) m) ∧ (13 ≤ d → StackReset s (d - 13) m)

/-- Two states that differ in logs, free values and boot alone. -/
structure Alike (s t : State) : Prop where
  side : t.pending = s.pending ∧ t.hostMem = s.hostMem ∧ t.outbox = s.outbox ∧ t.power = s.power ∧ t.grade = s.grade ∧ t.col = s.col
  mem : t.mem = s.mem
  tiles : t.tiles = s.tiles
  dealers : t.dealers = s.dealers
  links : t.links = s.links
  codec : t.codec = s.codec
  sched : t.sched = s.sched
  grows : Grows s t
  activating : t.sec.activating = s.sec.activating

theorem Alike.trans {a b c : State} (h : Alike a b) (k : Alike b c) : Alike a c := by
  obtain ⟨h1, h2, h3, h4, h5, h6⟩ := h.side
  obtain ⟨k1, k2, k3, k4, k5, k6⟩ := k.side
  exact ⟨⟨k1.trans h1, k2.trans h2, k3.trans h3, k4.trans h4, k5.trans h5, k6.trans h6⟩, k.mem.trans h.mem, k.tiles.trans h.tiles, k.dealers.trans h.dealers, k.links.trans h.links,
    k.codec.trans h.codec, k.sched.trans h.sched, h.grows.trans k.grows, k.activating.trans h.activating⟩

theorem alike_report (s : State) (c : Code) (i : RecInfo) : Alike s (s.report c i) := by
  obtain ⟨q1, q2, q3, q4, q5, q6, q7⟩ := report_rest s c i
  exact ⟨⟨by simp, by simp, by simp, q7, by simp, q6⟩, q2, q1, q4, q3, by simp, q5, grows_report _ _ _, by rw [report_sec]⟩

theorem alike_boot (s : State) (f : BootSt → BootSt) : Alike s (s.modBoot f) := ⟨⟨rfl, rfl, rfl, rfl, rfl, rfl⟩, rfl, rfl, rfl, rfl, rfl, rfl, Grows.of_eq rfl, rfl⟩

theorem alike_refl (s : State) : Alike s s := alike_boot s id

theorem Sideways.to {s m : State} (h : Sideways s m) : SidewaysTo s m := ⟨h.pending, h.hostMem, h.outbox, h.power, h.grade, h.col, h.objects, h.ftl⟩

theorem Alike.sideways {s t m : State} (h : Alike s t) (k : SidewaysTo t m) : SidewaysTo s m := by
  obtain ⟨h1, h2, h3, h4, h5, h6⟩ := h.side
  obtain ⟨k1, k2, k3, k4, k5, k6, k7, k8⟩ := k
  exact ⟨k1.trans h1, k2.trans h2, k3.trans h3, k4.trans h4, k5.trans h5, k6.trans h6, by rw [k7, h.mem], by rw [k8, h.mem]⟩

theorem Alike.job {s t : State} (h : Alike s t) (j : Nat) : t.job j = s.job j := by unfold State.job; rw [h.sched]

theorem Alike.dieJobs {s t : State} (h : Alike s t) (c : Nat) : t.dieJobs c = s.dieJobs c := by unfold State.dieJobs; rw [h.sched]

theorem Alike.compute {s t m : State} {c : Nat} (h : Alike s t) (k : ComputeReset t c m) : ComputeReset s c m := by
  obtain ⟨k1, k2, k3, k4, k5, k6, k7⟩ := k
  refine ⟨fun x => ?_, fun e => ?_, fun j => ?_, fun j x hj h1 h2 h3 => ?_, k5.trans h.mem, k6.trans h.links, k7.trans h.codec⟩
  · rw [k1]; unfold State.tile; rw [h.tiles]
  · rw [k2]; unfold State.dealer; rw [h.dealers]
  · have := k3 j
    rw [h.job, h.dieJobs] at this
    exact this
  · obtain ⟨a, b⟩ := k4 j x (by rw [h.job, hj]) h1 h2 h3
    exact ⟨logged_before h.grows a, b⟩

theorem Alike.stack {s t m : State} {c : Nat} (h : Alike s t) (k : StackReset t c m) : StackReset s c m := by
  have hi : ∀ p x, InStack t c p x = InStack s c p x := fun p x => by unfold InStack; rw [h.mem]
  have ho : ∀ n, t.object n = s.object n := fun n => by unfold State.object; rw [h.mem]
  have hs : ∀ n, t.stack n = s.stack n := fun n => by unfold State.stack; rw [h.mem]
  unfold StackReset at k ⊢
  simp only [hi, ho, hs, h.job, h.mem, h.tiles, h.dealers, h.links, h.codec] at k
  exact k

theorem Alike.edge {s t m : State} {c : Nat} (h : Alike s t) (k : EdgeReset t c m) : EdgeReset s c m := by
  have hl : ∀ n, t.link n = s.link n := fun n => by unfold State.link; rw [h.links]
  obtain ⟨k1, k2, k3, k4, k5, k6⟩ := k
  refine ⟨fun l => ?_, fun e j he hq => ?_, fun e j x he hq hx => ?_, k4.trans h.sched, k5.trans h.tiles, k6.trans h.dealers⟩
  · have := k1 l
    rw [hl] at this
    exact this
  · rw [k2 e j he hq, stream_congr h.codec]
  · obtain ⟨a, b⟩ := k3 e j x he hq (by rw [stream_congr h.codec, hx])
    exact ⟨a, fun g => by obtain ⟨u, hu⟩ := b g; exact ⟨u, logged_before h.grows hu⟩⟩

theorem compute_reset (s : State) (c : Nat) : Sideways s (s.resetCompute c) ∧ ComputeReset s c (s.resetCompute c) := by
  obtain ⟨a1, a2, a3, a4, a5, a6, a7, a8⟩ := resetCompute_spec s c
  have hmem : ∀ j, (∃ x, (j, x) ∈ s.dieJobs c) ↔ j ∈ (s.dieJobs c).map (·.1) := fun j =>
    ⟨fun ⟨x, h⟩ => List.mem_map.2 ⟨(j, x), h, rfl⟩, fun h => by obtain ⟨⟨i, x⟩, h', rfl⟩ := List.mem_map.1 h; exact ⟨x, h'⟩⟩
  refine ⟨a1, a2, a3, fun j => ⟨fun h => ?_, fun h => ?_⟩, fun j x hj h1 h2 h3 => ?_, a4, a5, a6⟩
  · rw [a8, if_pos ((hmem j).1 h)]
  · rw [a8, if_neg (fun g => h ((hmem j).2 g))]
  · have hin : (j, x) ∈ s.dieJobs c := by
      unfold State.dieJobs
      rw [List.mem_filterMap]
      unfold State.job SMap.get at hj
      cases hf : s.sched.jobs.find? (fun p => p.1 == j) with
      | none => rw [hf] at hj; exact absurd hj (by simp)
      | some p =>
        rw [hf] at hj
        have g1 := List.mem_of_find?_eq_some hf
        have g2 := List.find?_some hf
        simp at g2
        refine ⟨p, g1, ?_⟩
        have hj' : p.2 = some x := hj
        rw [hj']
        dsimp only
        rw [if_pos, g2]
        rw [h1]
        simp [h2, h3]
    refine ⟨a7 (fun e => by rw [e] at hin; exact absurd hin (by simp)), ?_⟩
    rw [a8, if_pos ((hmem j).1 ⟨x, hin⟩), hj]
    exact ⟨_, rfl, rfl⟩

theorem stack_reset (s : State) (k : Nat) : Sideways s (s.resetStack k) ∧ StackReset s k (s.resetStack k) := by
  obtain ⟨a1, a2, a3, a4, a5, a6, a7, a8, a9, a10, a11, a12, a13⟩ := resetStack_spec s k
  dsimp only at a2
  generalize s.resetStack k = m at *
  unfold size2MiB at a2
  refine ⟨a1, fun p x a h h1 h2 => (a2 a).1 ⟨p, x, h.1, h.2, h1, h2⟩, fun a h => (a2 a).2 (fun ⟨p, x, h1, h2, h3⟩ => h p x ⟨h1, h2⟩ h3), fun j => ⟨fun h => ?_, fun h => ?_⟩,
    a3, a4, a5, a6, a7, a8, a9, a10, a11, a12⟩
  · rw [a13, if_pos ((stackJobs_mem s k j).2 h)]
  · rw [a13, if_neg (fun g => h ((stackJobs_mem s k j).1 g))]

theorem edge_reset (s : State) (q : Nat) : Sideways s (s.resetEdge q) ∧ EdgeReset s q (s.resetEdge q) := by
  obtain ⟨a, b⟩ := resetEdge_spec s q
  exact ⟨a, b⟩

theorem alike_fold {α : Type} (f : State → α → State) (h : ∀ s a, Alike s (f s a)) : ∀ (l : List α) (s : State), Alike s (l.foldl f s)
  | [], s => alike_refl s
  | a :: l, s => (h s a).trans (alike_fold f h l (f s a))

theorem reports_fold {α : Type} (c : Code) (f : α → RecInfo) (hu : ∀ a, (f a).unit = 0xFFFF) : ∀ (l : List α) (s : State), let m := l.foldl (fun (s : State) a => s.report c (f a)) s
    m.boot = { s.boot with lastCode := m.boot.lastCode } ∧ (l ≠ [] → Logged s m c 0xFFFF)
  | [], _ => ⟨rfl, fun h => absurd rfl h⟩
  | a :: l, s => by
    obtain ⟨i1, i2⟩ := reports_fold c f hu l (s.report c (f a))
    refine ⟨?_, fun _ => ?_⟩
    · rw [List.foldl_cons]
      refine i1.trans ?_
      rw [report_boot]
    · rw [List.foldl_cons]
      have := report_logged s c (f a)
      rw [hu] at this
      exact logged_grow this (alike_fold _ (fun s _ => alike_report s _ _) l _).grows

theorem dropTests_spec (s : State) (d : Nat) : let m := s.dropTests d
    Alike s m ∧ m.boot = { s.boot with lastCode := m.boot.lastCode, queue := s.boot.queue.filter (fun q => !(q.running && q.die == d)) }
      ∧ ((∃ q ∈ s.boot.queue, q.running = true ∧ q.die = d) → Logged s m Codes.testAborted 0xFFFF) := by
  unfold State.dropTests
  dsimp only
  obtain ⟨t, ht⟩ : ∃ t, t = s.modBoot (fun b => { b with queue := b.queue.filter (fun q => !(q.running && q.die == d)) }) := ⟨_, rfl⟩
  have hA : Alike s t := by rw [ht]; exact alike_boot _ _
  have hb : t.boot = { s.boot with queue := s.boot.queue.filter (fun q => !(q.running && q.die == d)) } := by rw [ht]; rfl
  rw [← ht]
  obtain ⟨i1, i2⟩ := reports_fold Codes.testAborted (fun (q : TestReq) => { cls := (dieOf d).1, idx := (dieOf d).2, data := q.data 0 }) (fun _ => rfl)
    (s.boot.queue.filter (fun q => q.running && q.die == d)) t
  have hA2 := alike_fold (fun (s : State) (q : TestReq) => s.report Codes.testAborted { cls := (dieOf d).1, idx := (dieOf d).2, data := q.data 0 }) (fun s _ => alike_report s _ _)
    (s.boot.queue.filter (fun q => q.running && q.die == d)) t
  refine ⟨hA.trans hA2, ?_, fun ⟨q, h1, h2, h3⟩ => logged_before hA.grows (i2 ?_)⟩
  · refine i1.trans ?_
    rw [hb]
  · intro e
    have : q ∈ s.boot.queue.filter (fun q => q.running && q.die == d) := List.mem_filter.2 ⟨h1, by simp [h2, h3]⟩
    rw [e] at this
    exact absurd this (by simp)

theorem dieByte_clear (b : BootSt) (d e : Nat) : ({ b with dies := b.dies.set 0 d 0 } : BootSt).dieByte e = if e = d then 1 else b.dieByte e := by
  unfold BootSt.dieByte
  dsimp only
  rw [SMap.get_set]
  by_cases h : e = d
  · rw [if_pos h, if_pos h]
  · rw [if_neg h, if_neg h]

/-- A reset that starts. -/
theorem resetDie_starts (s : State) (d : Nat) (h1 : d ∉ s.boot.resetting) (h2 : s.sec.activating = false) : ResetTo s d (s.resetDie d) ∧ (s.resetDie d).sec.activating = false ∧ Grows s (s.resetDie d) := by
  unfold State.resetDie
  rw [if_neg (by simpa using h1), if_neg (by simp [h2])]
  dsimp only
  obtain ⟨a1, a2, a3⟩ := dropTests_spec s d
  generalize s.dropTests d = t at *
  obtain ⟨u, hu⟩ : ∃ u, u = t.modBoot (fun b => { b with dies := b.dies.set 0 d 0, resetting := b.resetting ++ [d], waiting := b.waiting.filter (· != d) }) := ⟨_, rfl⟩
  rw [← hu]
  have hA : Alike s u := by rw [hu]; exact a1.trans (alike_boot _ _)
  have tA : Alike t u := by rw [hu]; exact alike_boot _ _
  have hb : u.boot = { t.boot with dies := t.boot.dies.set 0 d 0, resetting := t.boot.resetting ++ [d], waiting := t.boot.waiting.filter (· != d) } := by rw [hu]; rfl
  have hd : ∀ e, u.boot.dieByte e = if e = d then 1 else s.boot.dieByte e := by
    intro e
    have : u.boot.dieByte e = ({ t.boot with dies := t.boot.dies.set 0 d 0 } : BootSt).dieByte e := by rw [hb]; rfl
    rw [this, dieByte_clear, a2]; rfl
  have hr : u.boot.resetting = s.boot.resetting ++ [d] := by rw [hb, a2]
  have hq : u.boot.queue = s.boot.queue.filter (fun q => !(q.running && q.die == d)) := by rw [hb, a2]
  have fin : ∀ m : State, Sideways u m → (d < 5 → EdgeReset u (d - 1) m) → (5 ≤ d → d < 13 → ComputeReset u (d - 5) m) → (13 ≤ d → StackReset u (d - 13) m) → ResetTo s d m ∧ m.sec.activating = false ∧ Grows s m := by
    intro m k k1 k2 k3
    have kb := k.boot
    refine ⟨?_, k.activating.trans (hA.activating.trans h2), hA.grows.trans k.grows⟩
    refine ⟨?_, fun e he => ?_, ?_, ?_, fun g => ?_, hA.sideways k.to, fun g => hA.edge (k1 g), fun g g' => hA.compute (k2 g g'), fun g => hA.stack (k3 g)⟩
    · have := hd d
      rw [if_pos rfl] at this
      rw [kb]; exact this
    · have := hd e
      rw [if_neg he] at this
      rw [kb]; exact this
    · rw [kb]; exact hr
    · rw [kb]; exact hq
    · exact logged_grow (a3 g) (tA.grows.trans k.grows)
  by_cases g1 : d < 5
  · rw [if_pos g1]
    exact fin _ (edge_reset _ _).1 (fun _ => (edge_reset _ _).2) (fun g => absurd g (by omega)) (fun g => absurd g (by omega))
  · rw [if_neg g1]
    by_cases g2 : d < 13
    · rw [if_pos g2]
      exact fin _ (compute_reset _ _).1 (fun g => absurd g g1) (fun _ _ => (compute_reset _ _).2) (fun g => absurd g (by omega))
    · rw [if_neg g2]
      exact fin _ (stack_reset _ _).1 (fun g => absurd g g1) (fun _ g => absurd g g2) (fun _ => (stack_reset _ _).2)

theorem bitOf_set_other (x n e : Nat) (h : e ≠ n) : bitOf (setBit x n) e = bitOf x e := by
  rw [bitOf_test, bitOf_test]
  unfold setBit
  rw [Nat.testBit_or, Nat.testBit_two_pow_of_ne (Ne.symm h), Bool.or_false]

theorem bitOf_clear_other (x n e : Nat) (h : e ≠ n) : bitOf (clearBit x n) e = bitOf x e := by
  unfold clearBit
  split
  · rename_i hb
    rw [bitOf_test, bitOf_test]
    unfold bitOf at hb
    have hp : 0 < 2 ^ n := Nat.two_pow_pos n
    have h1 : x / 2 ^ n % 2 = 1 := by simpa using hb
    obtain ⟨k, hk⟩ : ∃ k, x / 2 ^ n = 2 * k + 1 := ⟨x / 2 ^ n / 2, by omega⟩
    have hr := Nat.mod_lt x hp
    have hx : x = 2 ^ n * (2 * k + 1) + x % 2 ^ n := by rw [← hk]; exact (Nat.div_add_mod x (2 ^ n)).symm
    have hy : x - 2 ^ n = 2 ^ n * (2 * k) + x % 2 ^ n := by
      have : 2 ^ n * (2 * k + 1) = 2 ^ n * (2 * k) + 2 ^ n := by rw [Nat.mul_add, Nat.mul_one]
      omega
    generalize x % 2 ^ n = r at *
    rw [hy, hx, Nat.testBit_two_pow_mul_add _ hr, Nat.testBit_two_pow_mul_add _ hr]
    split
    · rfl
    · obtain ⟨i, hi⟩ : ∃ i, e - n = i + 1 := ⟨e - n - 1, by omega⟩
      rw [hi, Nat.testBit_succ, Nat.testBit_succ]
      congr 1
      omega
  · rfl

theorem resetDie_in (s : State) (d : Nat) (h : s.sec.activating = false) : (∀ e ∈ s.boot.resetting, e ∈ (s.resetDie d).boot.resetting) ∧ d ∈ (s.resetDie d).boot.resetting
    ∧ (s.resetDie d).sec.activating = false := by
  by_cases g : d ∈ s.boot.resetting
  · have e : s.resetDie d = s := by unfold State.resetDie; rw [if_pos (by simpa using g)]
    rw [e]; exact ⟨fun _ h => h, g, h⟩
  · obtain ⟨⟨-, -, a, -⟩, b, -⟩ := resetDie_starts s d g h
    rw [a]
    exact ⟨fun e he => List.mem_append_left _ he, List.mem_append_right _ (by simp), b⟩

theorem resetDie_all : ∀ (ds : List Nat) (s : State), s.sec.activating = false → (∀ e ∈ s.boot.resetting, e ∈ (ds.foldl State.resetDie s).boot.resetting)
    ∧ (∀ d ∈ ds, d ∈ (ds.foldl State.resetDie s).boot.resetting) ∧ (ds.foldl State.resetDie s).sec.activating = false
  | [], s, h => ⟨fun _ g => g, fun _ g => absurd g (by simp), h⟩
  | d :: ds, s, h => by
    obtain ⟨a, b, c⟩ := resetDie_in s d h
    obtain ⟨i, j, k⟩ := resetDie_all ds (s.resetDie d) c
    refine ⟨fun e he => i e (a e he), fun e he => ?_, k⟩
    rcases List.mem_cons.1 he with g | g
    · rw [g]; exact i d b
    · exact j e g

theorem slotImage_congr {x y : SecSt} (h : x.spi = y.spi) (b : Bool) : x.slotImage b = y.slotImage b := by
  unfold SecSt.slotImage; rw [h]

theorem activation_spec (s : State) (h : s.sec.activating = true) : ∃ m : State, exec .activationComplete s = .next m ∧ m.sec.activating = false ∧ ∀ d ∈ s.boot.waiting, d ∈ m.boot.resetting := by
  obtain ⟨ds, hds⟩ : ∃ ds, ds = (List.range 45).filter (fun d => !s.boot.resetting.contains d && !s.boot.waiting.contains d) := ⟨_, rfl⟩
  have keep : ∀ (l : List Nat) (b : BootSt), (l.foldl (fun b d => b.setDieByte d 0) b).waiting = b.waiting := by
    intro l; induction l with
    | nil => intro b; rfl
    | cons d l ih => intro b; rw [List.foldl_cons, ih]; rfl
  have fin : ∀ a : State, a.sec.activating = false → a.boot.waiting = s.boot.waiting → (exec .activationComplete s = .next
        (let s2 := a.modBoot (fun b => ds.foldl (fun b d => b.setDieByte d 0) b); s2.boot.waiting.foldl State.resetDie s2)) →
      ∃ m : State, exec .activationComplete s = .next m ∧ m.sec.activating = false ∧ ∀ d ∈ s.boot.waiting, d ∈ m.boot.resetting := by
    intro a h1 h2 h3
    dsimp only at h3
    have hw : (a.modBoot (fun b => ds.foldl (fun b d => b.setDieByte d 0) b)).boot.waiting = s.boot.waiting := by
      show (ds.foldl (fun b d => b.setDieByte d 0) a.boot).waiting = _
      rw [keep, h2]
    rw [hw] at h3
    obtain ⟨-, i2, i3⟩ := resetDie_all s.boot.waiting (a.modBoot (fun b => ds.foldl (fun b d => b.setDieByte d 0) b)) h1
    exact ⟨_, h3, i3, i2⟩
  by_cases hv : s.sec.verdict = 0
  · obtain ⟨y, hy⟩ : ∃ y : SecSt, y = (({ s.sec with slotB := !s.sec.slotB, recordB := !s.sec.slotB, staged := 0 } : SecSt).load s.sec.image s.boot.userCal) := ⟨_, rfl⟩
    refine fin { s with sec := { y with activating := false, spdm := ⟨false, false⟩, image := [] } } rfl rfl ?_
    show Host.Outcome.next (activationComplete s) = _
    unfold activationComplete
    dsimp only
    rw [h, if_neg (by decide), hv, if_pos rfl, ← hds, hy]
    rfl
  · obtain ⟨z, hz⟩ : ∃ z, z = s.sec.slotImage s.sec.slotB := ⟨_, rfl⟩
    have hz2 : ({ s.sec with staged := 2 } : SecSt).slotImage s.sec.slotB = z := by rw [hz]; exact slotImage_congr rfl _
    obtain ⟨y, hy⟩ : ∃ y : SecSt, y = (({ s.sec with staged := 2 } : SecSt).load z s.boot.userCal) := ⟨_, rfl⟩
    obtain ⟨a, haa⟩ : ∃ a : State, a = { s with sec := { y with activating := false, spdm := ⟨false, false⟩, image := [] } } := ⟨_, rfl⟩
    obtain ⟨r, hr⟩ : ∃ r : State, r = a.report s.sec.verdict {} := ⟨_, rfl⟩
    refine fin r (by rw [hr, report_sec, haa]) (by rw [hr, report_boot, haa]) ?_
    show Host.Outcome.next (activationComplete s) = _
    unfold activationComplete
    dsimp only
    rw [if_neg (by rw [h]; decide), if_neg hv, ← hds, hr, haa, hy, ← hz2]
    rfl

theorem unused_fold (q : Nat) (b : Bool) : ∀ (es : List Nat) (m : SMap EngineSt) (e : Nat),
    (es.foldl (fun (m : SMap EngineSt) e => if engineEdge e = q then m.set .init e { m.get .init e with unused := b } else m) m).get .init e
      = if e ∈ es ∧ engineEdge e = q then { m.get .init e with unused := b } else m.get .init e
  | [], m, e => by simp
  | a :: es, m, e => by
    rw [List.foldl_cons, unused_fold q b es]
    have hk : (if engineEdge a = q then m.set .init a { m.get .init a with unused := b } else m).get .init e
        = if e = a ∧ engineEdge a = q then { m.get .init e with unused := b } else m.get .init e := by
      by_cases h : engineEdge a = q
      · rw [if_pos h, SMap.get_set]
        by_cases g : e = a
        · rw [if_pos g, if_pos ⟨g, h⟩, g]
        · rw [if_neg g, if_neg (fun x => g x.1)]
      · rw [if_neg h, if_neg (fun x => h x.2)]
    rw [hk]
    by_cases h1 : e = a
    · subst h1
      by_cases h2 : engineEdge e = q
      · rw [if_pos (⟨rfl, h2⟩ : e = e ∧ engineEdge e = q), if_pos (⟨List.mem_cons_self, h2⟩ : e ∈ e :: es ∧ engineEdge e = q)]
        split <;> rfl
      · rw [if_neg (fun x => h2 x.2), if_neg (fun x : e = e ∧ engineEdge e = q => h2 x.2), if_neg (fun x => h2 x.2)]
    · rw [if_neg (fun x : e = a ∧ engineEdge a = q => h1 x.1)]
      by_cases h2 : e ∈ es ∧ engineEdge e = q
      · rw [if_pos h2, if_pos ⟨List.mem_cons_of_mem _ h2.1, h2.2⟩]
      · rw [if_neg h2, if_neg]
        rintro ⟨x, y⟩
        rcases List.mem_cons.1 x with g | g
        · exact h1 g
        · exact h2 ⟨g, y⟩

theorem disabled_fold (q : Nat) : ∀ (ls : List Nat) (s : State), let m := ls.foldl (fun (s : State) l => if linkEdge l = q then s.modLink l (fun x => { x with phase := .disabled }) else s) s
    (∀ l, m.link l = if l ∈ ls ∧ linkEdge l = q then { s.link l with phase := .disabled } else s.link l) ∧ m = { s with links := m.links }
  | [], s => ⟨fun l => by simp, rfl⟩
  | a :: ls, s => by
    dsimp only
    rw [List.foldl_cons]
    obtain ⟨i1, i2⟩ := disabled_fold q ls (if linkEdge a = q then s.modLink a (fun x => { x with phase := .disabled }) else s)
    have hk : ∀ l, (if linkEdge a = q then s.modLink a (fun x => { x with phase := .disabled }) else s).link l
        = if l = a ∧ linkEdge a = q then { s.link l with phase := .disabled } else s.link l := by
      intro l
      by_cases h : linkEdge a = q
      · rw [if_pos h]
        unfold State.modLink
        rw [State.link_setLink]
        by_cases g : l = a
        · rw [if_pos g, if_pos ⟨g, h⟩, g]
        · rw [if_neg g, if_neg (fun x => g x.1)]
      · rw [if_neg h, if_neg (fun x => h x.2)]
    have eq : (if linkEdge a = q then s.modLink a (fun x => { x with phase := .disabled }) else s) = { s with links := (if linkEdge a = q then s.modLink a (fun x => { x with phase := .disabled }) else s).links } := by
      split <;> rfl
    generalize (if linkEdge a = q then s.modLink a (fun x => { x with phase := .disabled }) else s) = t at *
    refine ⟨fun l => ?_, by rw [i2, eq]⟩
    rw [i1, hk]
    by_cases h1 : l = a
    · subst h1
      by_cases h2 : linkEdge l = q
      · rw [if_pos (⟨rfl, h2⟩ : l = l ∧ linkEdge l = q), if_pos (⟨List.mem_cons_self, h2⟩ : l ∈ l :: ls ∧ linkEdge l = q)]
        split <;> rfl
      · rw [if_neg (fun x => h2 x.2), if_neg (fun x : l = l ∧ linkEdge l = q => h2 x.2), if_neg (fun x => h2 x.2)]
    · rw [if_neg (fun x : l = a ∧ linkEdge a = q => h1 x.1)]
      by_cases h2 : l ∈ ls ∧ linkEdge l = q
      · rw [if_pos h2, if_pos ⟨List.mem_cons_of_mem _ h2.1, h2.2⟩]
      · rw [if_neg h2, if_neg]
        rintro ⟨x, y⟩
        rcases List.mem_cons.1 x with g | g
        · exact h1 g
        · exact h2 ⟨g, y⟩

/-- Training starts on the links of an edge. -/
theorem training_fold (q : Nat) : ∀ (ls : List Nat) (s : State), let m := ls.foldl (fun (s : State) l => if linkEdge l = q then s.startTraining l else s) s
    (∀ l, linkEdge l ≠ q → m.link l = s.link l) ∧ (∀ l, (m.link l).phase = (s.link l).phase ∨ (m.link l).phase = .detect) ∧ Sideways s m ∧ m.tiles = s.tiles ∧ m.mem = s.mem ∧ m.sched = s.sched ∧ m.codec = s.codec
  | [], s => ⟨fun _ _ => rfl, fun _ => Or.inl rfl, Sideways.refl s, rfl, rfl, rfl, rfl⟩
  | a :: ls, s => by
    have step : ∃ t, t = (if linkEdge a = q then s.startTraining a else s) ∧ (∀ l, linkEdge l ≠ q → t.link l = s.link l) ∧ (∀ l, (t.link l).phase = (s.link l).phase ∨ (t.link l).phase = .detect)
        ∧ Sideways s t ∧ t.tiles = s.tiles ∧ t.mem = s.mem ∧ t.sched = s.sched ∧ t.codec = s.codec := by
      refine ⟨_, rfl, ?_⟩
      by_cases h : linkEdge a = q
      · rw [if_pos h]
        have hs : ∀ y, Sideways s (s.setLink a y) := fun y => sideways_parts s s.tiles s.dealers (s.setLink a y).links s.codec s.sched s.mem.bytes s.mem.stk s.mem.pages
        unfold State.startTraining
        dsimp only
        split
        · exact ⟨fun _ _ => rfl, fun _ => Or.inl rfl, Sideways.refl s, rfl, rfl, rfl, rfl⟩
        · split
          · obtain ⟨t, ht⟩ : ∃ t, t = s.setLink a { s.link a with error := 3 } := ⟨_, rfl⟩
            rw [← ht]
            obtain ⟨q1, q2, q3, q4, q5, q6, q7⟩ := report_rest t Codes.linkRankUnset (s.linkInfo a)
            have hc : (t.report Codes.linkRankUnset (s.linkInfo a)).codec = t.codec := by simp
            have hl : ∀ l, (t.report Codes.linkRankUnset (s.linkInfo a)).link l = if l = a then { s.link a with error := 3 } else s.link l := fun l => by
              rw [State.report_link, ht, State.link_setLink]
            refine ⟨fun l hl' => ?_, fun l => Or.inl ?_, ?_, ?_, ?_, ?_, ?_⟩
            · rw [hl, if_neg (fun g => hl' (by rw [g]; exact h))]
            · rw [hl]
              by_cases g : l = a
              · rw [if_pos g, g]
              · rw [if_neg g]
            · refine Sideways.trans ?_ (sideways_report _ _ _)
              rw [ht]; exact hs _
            · rw [q1, ht]; rfl
            · rw [q2, ht]; rfl
            · rw [q5, ht]; rfl
            · rw [hc, ht]; rfl
          · split
            · refine ⟨fun l hl' => ?_, fun l => ?_, hs _, rfl, rfl, rfl, rfl⟩
              · rw [State.link_setLink, if_neg (fun g => hl' (by rw [g]; exact h))]
              · rw [State.link_setLink]
                by_cases g : l = a
                · rw [if_pos g]; exact Or.inr rfl
                · rw [if_neg g]; exact Or.inl rfl
            · exact ⟨fun _ _ => rfl, fun _ => Or.inl rfl, Sideways.refl s, rfl, rfl, rfl, rfl⟩
      · rw [if_neg h]
        exact ⟨fun _ _ => rfl, fun _ => Or.inl rfl, Sideways.refl s, rfl, rfl, rfl, rfl⟩
    dsimp only
    rw [List.foldl_cons]
    obtain ⟨t, ht, t1, t2, t3, t4, t5, t6, t7⟩ := step
    rw [← ht]
    obtain ⟨i1, i2, i3, i4, i5, i6, i7⟩ := training_fold q ls t
    refine ⟨fun l hl => (i1 l hl).trans (t1 l hl), fun l => ?_, t3.trans i3, i4.trans t4, i5.trans t5, i6.trans t6, i7.trans t7⟩
    rcases i2 l with g | g
    · rw [g]; exact t2 l
    · exact Or.inr g

theorem perDie_idle (v : W32) (s : State) (h : ¬(bitsOf v.toNat 31 16 = 0xB007 ∧ bitOf v.toNat 15 = false ∧ bitsOf v.toNat 6 0 ≠ 0x7F)) : perDieReset v s = s := by
  unfold perDieReset
  dsimp only
  rw [if_pos]
  unfold resetKeyOk
  by_cases h1 : bitsOf v.toNat 31 16 = 0xB007
  · by_cases h2 : bitOf v.toNat 15 = false
    · by_cases h3 : bitsOf v.toNat 6 0 = 0x7F
      · rw [h1, h2, h3]; rfl
      · exact absurd ⟨h1, h2, h3⟩ h
    · rw [Bool.not_eq_false] at h2
      rw [h2]; simp
  · simp [h1]

theorem perDie_go (v : W32) (s : State) (h : bitsOf v.toNat 31 16 = 0xB007 ∧ bitOf v.toNat 15 = false ∧ bitsOf v.toNat 6 0 ≠ 0x7F) :
    perDieReset v s = if bitsOf v.toNat 6 0 = 0 ∨ 44 < bitsOf v.toNat 6 0 then s.report Codes.badRegAccess {} else s.resetDie (bitsOf v.toNat 6 0) := by
  unfold perDieReset
  dsimp only
  rw [if_neg]
  unfold resetKeyOk
  rw [h.1, h.2.1]
  simpa using h.2.2

theorem badReg_spec (s : State) (i : RecInfo) (hi : i.unit = 0xFFFF) : let m := s.report Codes.badRegAccess i
    Logged s m Codes.badRegAccess 0xFFFF ∧ SidewaysTo s m ∧ m.tiles = s.tiles ∧ m.sched = s.sched ∧ m.mem = s.mem ∧ m.boot.resetting = s.boot.resetting ∧ m.boot.dies = s.boot.dies := by
  obtain ⟨q1, q2, q3, q4, q5, q6, q7⟩ := report_rest s Codes.badRegAccess i
  have l := report_logged s Codes.badRegAccess i
  rw [hi] at l
  exact ⟨l, (sideways_report _ _ _).to, q1, q5, q2, by rw [report_boot], by rw [report_boot]⟩

theorem complete_spec (s : State) (d : Nat) (ok : Bool) (h : d ∈ s.boot.resetting) (hj : ∀ q ∈ s.sched.jobs, ∀ x, q.2 = some x → x.phase ≠ .waiting ∧ x.phase ≠ .saved) :
    let m := perDieResetComplete d ok s
    m.boot.dieByte d = 0 ∧ m.boot.resetting = s.boot.resetting.filter (· != d) ∧ (∀ e, bitOf m.boot.bistFail e = if e = d then !ok else bitOf s.boot.bistFail e)
      ∧ (ok = false → Logged s m Codes.bistFail 0xFFFF) ∧ m.tiles = s.tiles ∧ m.mem = s.mem ∧ m.sched = s.sched
      ∧ (∀ l : Link, if d < 5 ∧ linkEdge l = d - 1 then (if ok then (m.link l).phase = (s.link l).phase ∨ (m.link l).phase = .detect else (m.link l).phase = .disabled) else m.link l = s.link l)
      ∧ ∀ e, e < 24 → m.codec.get .init e = if d < 5 ∧ engineEdge e = d - 1 then { s.codec.get .init e with unused := !ok } else s.codec.get .init e := by
  unfold perDieResetComplete
  rw [if_neg (by simpa using h)]
  dsimp only
  obtain ⟨s1, hs1⟩ : ∃ s1 : State, s1 = s.modBoot (fun b => { b with resetting := b.resetting.filter (· != d) }.setDieByte d 0) := ⟨_, rfl⟩
  rw [← hs1]
  have A1 : Alike s s1 := by rw [hs1]; exact alike_boot _ _
  have b1 : s1.boot.dieByte d = 0 := by
    rw [hs1]
    show (BootSt.setDieByte _ d 0).dieByte d = 0
    rw [dieByte_set, if_pos rfl]
  have c1 : s1.boot.resetting = s.boot.resetting.filter (· != d) ∧ s1.boot.bistFail = s.boot.bistFail := by rw [hs1]; exact ⟨rfl, rfl⟩
  obtain ⟨s2, hs2⟩ : ∃ s2 : State, s2 = (if ok then s1.modBoot (fun b => { b with bistFail := clearBit b.bistFail d })
      else s1.markBist d { cls := (dieOf d).1, idx := (dieOf d).2 }) := ⟨_, rfl⟩
  rw [← hs2]
  have key : Alike s1 s2 ∧ s2.boot.dieByte d = 0 ∧ s2.boot.resetting = s.boot.resetting.filter (· != d) ∧ (∀ e, bitOf s2.boot.bistFail e = if e = d then !ok else bitOf s.boot.bistFail e)
      ∧ (ok = false → Logged s s2 Codes.bistFail 0xFFFF) := by
    cases ok
    · rw [if_neg (by decide)] at hs2
      unfold State.markBist at hs2
      obtain ⟨t, ht⟩ : ∃ t, t = s1.modBoot (fun b => { b with bistFail := setBit b.bistFail d }) := ⟨_, rfl⟩
      rw [← ht] at hs2
      have At : Alike s1 t := by rw [ht]; exact alike_boot _ _
      have tb : t.boot.dieByte d = s1.boot.dieByte d ∧ t.boot.resetting = s1.boot.resetting ∧ t.boot.bistFail = setBit s1.boot.bistFail d := by rw [ht]; exact ⟨rfl, rfl, rfl⟩
      have hb := report_boot t Codes.bistFail { cls := (dieOf d).1, idx := (dieOf d).2 }
      rw [← hs2] at hb
      refine ⟨?_, ?_, ?_, fun e => ?_, fun _ => ?_⟩
      · rw [hs2]; exact At.trans (alike_report _ _ _)
      · rw [hb]; exact tb.1.trans b1
      · rw [hb]; exact tb.2.1.trans c1.1
      · rw [hb]
        show bitOf t.boot.bistFail e = _
        rw [tb.2.2, c1.2]
        by_cases g : e = d
        · rw [if_pos g, g]; exact bitOf_set _ _
        · rw [if_neg g]; exact bitOf_set_other _ _ _ g
      · rw [hs2]; exact logged_before (A1.trans At).grows (report_logged t Codes.bistFail { cls := (dieOf d).1, idx := (dieOf d).2 })
    · rw [if_pos rfl] at hs2
      refine ⟨by rw [hs2]; exact alike_boot _ _, ?_, ?_, fun e => ?_, fun g => absurd g (by decide)⟩
      · rw [hs2]; exact b1
      · rw [hs2]; exact c1.1
      · rw [hs2]
        show bitOf (clearBit s1.boot.bistFail d) e = _
        rw [c1.2]
        by_cases g : e = d
        · rw [if_pos g, g]; exact bitOf_clear _ _
        · rw [if_neg g]; exact bitOf_clear_other _ _ _ g
  obtain ⟨A2, k2, k3, k4, k5⟩ := key
  have A := A1.trans A2
  clear hs1 hs2
  have hl2 : ∀ l, s2.link l = s.link l := fun l => by unfold State.link; rw [A.links]
  by_cases g : d < 5
  · rw [if_pos g]
    have fin : ∀ (m : State) (b : Bool), Sideways s2 m → m.tiles = s2.tiles → m.mem = s2.mem → m.sched = s2.sched → (∀ l : Link, if linkEdge l = d - 1 then (if ok then (m.link l).phase = (s.link l).phase ∨ (m.link l).phase = .detect else (m.link l).phase = .disabled) else m.link l = s.link l) →
        b = !ok → (m.codec = (List.range 24).foldl (fun (m : SMap EngineSt) e => if engineEdge e = d - 1 then m.set .init e { m.get .init e with unused := b } else m) s2.codec) →
        m.boot.dieByte d = 0 ∧ m.boot.resetting = s.boot.resetting.filter (· != d) ∧ (∀ e, bitOf m.boot.bistFail e = if e = d then !ok else bitOf s.boot.bistFail e)
          ∧ (ok = false → Logged s m Codes.bistFail 0xFFFF) ∧ m.tiles = s.tiles ∧ m.mem = s.mem ∧ m.sched = s.sched
          ∧ (∀ l : Link, if d < 5 ∧ linkEdge l = d - 1 then (if ok then (m.link l).phase = (s.link l).phase ∨ (m.link l).phase = .detect else (m.link l).phase = .disabled) else m.link l = s.link l)
          ∧ ∀ e, e < 24 → m.codec.get .init e = if d < 5 ∧ engineEdge e = d - 1 then { s.codec.get .init e with unused := !ok } else s.codec.get .init e := by
      intro m b h0 h1 h2 h3 h4 h5 h6
      refine ⟨?_, ?_, fun e => ?_, fun x => logged_grow (k5 x) h0.grows, h1.trans A.tiles, h2.trans A.mem, h3.trans A.sched, fun l => ?_, fun e he => ?_⟩
      · rw [h0.boot]; exact k2
      · rw [h0.boot]; exact k3
      · rw [h0.boot]; exact k4 e
      · have := h4 l
        by_cases x : linkEdge l = d - 1
        · rw [if_pos ⟨g, x⟩]; rw [if_pos x] at this; exact this
        · rw [if_neg (fun y => x y.2)]; rw [if_neg x] at this; exact this
      · rw [h6, unused_fold, A.codec, h5]
        by_cases x : engineEdge e = d - 1
        · rw [if_pos ⟨List.mem_range.2 he, x⟩, if_pos ⟨g, x⟩]
        · rw [if_neg (fun y => x y.2), if_neg (fun y => x y.2)]
    cases ok
    · rw [if_neg (by decide)]
      obtain ⟨m, hm⟩ : ∃ m, m = s2.failEdge (d - 1) := ⟨_, rfl⟩
      rw [← hm]
      obtain ⟨a1, a2⟩ := disabled_fold (d - 1) (List.range 24) s2
      obtain ⟨t, ht⟩ : ∃ t, t = (List.range 24).foldl (fun (s : State) l => if linkEdge l = d - 1 then s.modLink l (fun x => { x with phase := .disabled }) else s) s2 := ⟨_, rfl⟩
      rw [← ht] at a1 a2
      have e : m = { t with codec := (List.range 24).foldl (fun (m : SMap EngineSt) e => if engineEdge e = d - 1 then m.set .init e { m.get .init e with unused := true } else m) s2.codec } := by
        have hc : t.codec = s2.codec := by rw [a2]
        rw [hm, ← hc, ht]; rfl
      refine fin m true ?_ ?_ ?_ ?_ (fun l => ?_) rfl ?_
      · have : Sideways s2 t := by rw [a2]; exact sideways_parts s2 s2.tiles s2.dealers t.links s2.codec s2.sched s2.mem.bytes s2.mem.stk s2.mem.pages
        refine this.trans ?_
        rw [e]
        exact sideways_parts t t.tiles t.dealers t.links _ t.sched t.mem.bytes t.mem.stk t.mem.pages
      · rw [e]; show t.tiles = _; rw [a2]
      · rw [e]; show t.mem = _; rw [a2]
      · rw [e]; show t.sched = _; rw [a2]
      · have hml : m.link l = t.link l := by rw [e]; rfl
        rw [hml, a1, hl2]
        by_cases x : linkEdge l = d - 1
        · rw [if_pos x, if_neg (by decide), if_pos ⟨List.mem_range.2 l.isLt, x⟩]
        · rw [if_neg x, if_neg (fun y => x y.2)]
      · rw [e]
    · rw [if_pos rfl]
      obtain ⟨u, hu⟩ : ∃ u : State, u = { s2 with codec := (List.range 24).foldl (fun (m : SMap EngineSt) e => if engineEdge e = d - 1 then m.set .init e { m.get .init e with unused := false } else m) s2.codec } := ⟨_, rfl⟩
      rw [← hu]
      obtain ⟨a1, a2, a3, a4, a5, a6, a7⟩ := training_fold (d - 1) (List.range 24) u
      have hul : ∀ l, u.link l = s.link l := fun l => by rw [← hl2, hu]; rfl
      generalize (List.range 24).foldl (fun (s : State) l => if linkEdge l = d - 1 then s.startTraining l else s) u = t at *
      refine fin t false ?_ (by rw [a4, hu]) (by rw [a5, hu]) (by rw [a6, hu]) (fun l => ?_) rfl (by rw [a7, hu])
      · refine Sideways.trans ?_ a3
        rw [hu]
        exact sideways_parts s2 s2.tiles s2.dealers s2.links _ s2.sched s2.mem.bytes s2.mem.stk s2.mem.pages
      · by_cases x : linkEdge l = d - 1
        · rw [if_pos x, if_pos rfl, ← hul]; exact a2 l
        · rw [if_neg x, ← hul]; exact a1 l x
  · rw [if_neg g, reapply_idle s2 (by rw [A.sched]; exact hj)]
    refine ⟨k2, k3, k4, k5, A.tiles, A.mem, A.sched, fun l => ?_, fun e _ => ?_⟩
    · rw [if_neg (fun y => g y.1)]; exact hl2 l
    · rw [if_neg (fun y => g y.1), A.codec]

theorem ResetTo.congr {s t m : State} {d : Nat} (h : Alike s t) (hb : t.boot = { s.boot with lastCode := t.boot.lastCode }) (k : ResetTo t d m) : ResetTo s d m := by
  obtain ⟨k1, k2, k3, k4, k5, k6, k7, k8, k9⟩ := k
  refine ⟨k1, fun e he => ?_, ?_, ?_, fun g => logged_before h.grows (k5 ?_), h.sideways k6, fun g => h.edge (k7 g), fun g g' => h.compute (k8 g g'), fun g => h.stack (k9 g)⟩
  · rw [k2 e he, hb]; rfl
  · rw [k3, hb]
  · rw [k4, hb]
  · rw [hb]; exact g

end Sys2Proof.Machine
end

