-- ==== Sys2Proof/Laws/Rings.lean ====
section
/-!
SUPPORT. Laws/Rings.lean: completions, doorbells, ENABLE, cancelled jobs and register writes.
-/

namespace Sys2Proof.Machine

open Sys2Proof.Claims

/-- What a ring's commands leave. -/
def RingRest (s m : State) : Prop := m.tiles = s.tiles ∧ m.dealers = s.dealers ∧ m.links = s.links ∧ m.col = s.col ∧ m.power = s.power ∧ m.grade = s.grade ∧ m.codec = s.codec

theorem RingRest.trans {a b c : State} (h : RingRest a b) (k : RingRest b c) : RingRest a c := by
  obtain ⟨h1, h2, h3, h4, h5, h6, h7⟩ := h
  obtain ⟨k1, k2, k3, k4, k5, k6, k7⟩ := k
  exact ⟨k1.trans h1, k2.trans h2, k3.trans h3, k4.trans h4, k5.trans h5, k6.trans h6, k7.trans h7⟩

theorem ringRest_report (s : State) (c : Code) (i : RecInfo) : RingRest s (s.report c i) := by
  obtain ⟨q1, q2, q3, q4, q5, q6, q7⟩ := report_rest s c i
  exact ⟨q1, q4, q3, q6, q7, by simp, by simp⟩


theorem report_ring (s : State) (c : Code) (i : RecInfo) (q : Nat) : (s.report c i).ring q = s.ring q := by
  unfold State.ring
  rw [(report_rest s c i).2.2.2.2.1]

theorem Completion.bytes_length (c : Completion) (b : Bool) (h : W32) : (c.bytes b h).length = 32 := by
  unfold Completion.bytes
  simp only [List.length_append, natLe_length]

theorem locRead_locWrite (s : State) (u : Bool) (a : Nat) (bs : List Byte) : (s.locWrite u a bs).locRead u a bs.length = bs := by
  unfold State.locWrite State.locRead
  cases u
  · rw [if_neg (by decide), if_neg (by decide)]
    exact SMap.getRange_setRange _ _ _ _
  · rw [if_pos rfl, if_pos rfl]
    exact State.readMem_writeMem _ _ _

theorem locWrite_rest (s : State) (u : Bool) (a : Nat) (bs : List Byte) : RingRest s (s.locWrite u a bs) ∧ (s.locWrite u a bs).sched = s.sched ∧ (s.locWrite u a bs).outbox = s.outbox
    ∧ (s.locWrite u a bs).logs = s.logs := by
  unfold State.locWrite
  cases u
  · rw [if_neg (by decide)]
    exact ⟨⟨rfl, rfl, rfl, rfl, rfl, rfl, rfl⟩, rfl, rfl, rfl⟩
  · rw [if_pos rfl, State.writeMem_rest]
    exact ⟨⟨rfl, rfl, rfl, rfl, rfl, rfl, rfl⟩, rfl, rfl, rfl⟩

/-- What a completion that is written leaves (R402). -/
theorem complete_wrote (s : State) (r : Nat) (c : Completion) (ha : (s.ring r).active = true) (hc : (s.ring r).closing = false) :
    let x := s.ring r
    let m := s.complete r c
    m.ring r = { x with cqTail := x.cqTail + 1, owed := x.owed - 1 } ∧ (∀ q, q ≠ r → m.ring q = s.ring q)
      ∧ m.locRead (ringLoc x.cq) (ringBase x.cq + 32 * (x.cqTail.toNat % x.cqSize)) 32 = c.bytes (x.cqTail.toNat / x.cqSize % 2 == 0) x.sqHead
      ∧ (let k := x.func * 2048 + x.vector
         if s.sched.msix.get 0 k = 1 then m.outbox = s.outbox ++ [.msix x.func x.vector] else m.outbox = s.outbox ∧ m.sched.msix.get 0 k = 2)
      ∧ RingRest s m ∧ m.logs = s.logs ∧ ∀ j, m.job j = s.job j := by
  dsimp only
  unfold State.complete
  dsimp only
  rw [if_neg (by simp [ha, hc])]
  obtain ⟨A, hA⟩ : ∃ A, A = ringBase (s.ring r).cq + 32 * ((s.ring r).cqTail.toNat % (s.ring r).cqSize) := ⟨_, rfl⟩
  obtain ⟨B, hB⟩ : ∃ B, B = c.bytes ((s.ring r).cqTail.toNat / (s.ring r).cqSize % 2 == 0) (s.ring r).sqHead := ⟨_, rfl⟩
  rw [← hA, ← hB]
  have hlen : B.length = 32 := by rw [hB]; exact Completion.bytes_length _ _ _
  have hr := locRead_locWrite s (ringLoc (s.ring r).cq) A B
  rw [hlen] at hr
  obtain ⟨w1, w2, w3, w4⟩ := locWrite_rest s (ringLoc (s.ring r).cq) A B
  generalize s.locWrite (ringLoc (s.ring r).cq) A B = t at *
  have hring : ∀ q, t.ring q = s.ring q := fun q => by unfold State.ring; rw [w2]
  obtain ⟨u, hu⟩ : ∃ u, u = t.modRing r (fun x => { x with cqTail := x.cqTail + 1, owed := x.owed - 1 }) := ⟨_, rfl⟩
  rw [← hu]
  have u1 : u.ring r = { s.ring r with cqTail := (s.ring r).cqTail + 1, owed := (s.ring r).owed - 1 } := by
    rw [hu]; unfold State.modRing; rw [State.ring_setRing, if_pos rfl, hring]
  have u2 : ∀ q, q ≠ r → u.ring q = s.ring q := fun q hq => by
    rw [hu]; unfold State.modRing; rw [State.ring_setRing, if_neg hq, hring]
  have u3 : RingRest t u ∧ u.mem = t.mem ∧ u.hostMem = t.hostMem ∧ u.outbox = t.outbox ∧ u.logs = t.logs ∧ u.sched.msix = t.sched.msix ∧ ∀ j, u.job j = t.job j := by
    rw [hu]; exact ⟨⟨rfl, rfl, rfl, rfl, rfl, rfl, rfl⟩, rfl, rfl, rfl, rfl, rfl, fun _ => rfl⟩
  obtain ⟨u4, u5, u6, u7, u8, u9, u10⟩ := u3
  have hj : ∀ j, t.job j = s.job j := fun j => by unfold State.job; rw [w2]
  clear hu
  have hmx : u.sched.msix = s.sched.msix := by rw [u9, w2]
  unfold State.msix
  dsimp only
  rw [hmx]
  by_cases g : s.sched.msix.get 0 ((s.ring r).func * 2048 + (s.ring r).vector) = 1
  · rw [if_pos g, if_pos g]
    refine ⟨u1, u2, ?_, ?_, w1.trans u4, u8.trans w4, fun j => (u10 j).trans (hj j)⟩
    · rw [← hr]
      unfold State.send State.locRead State.readMem
      rw [u5, u6]
    · show u.outbox ++ _ = _
      rw [u7, w3]
  · rw [if_neg g, if_neg g]
    refine ⟨u1, u2, ?_, ⟨u7.trans w3, ?_⟩, w1.trans u4, u8.trans w4, fun j => (u10 j).trans (hj j)⟩
    · rw [← hr]
      unfold State.locRead State.readMem
      rw [u5, u6]
    · show SMap.get 0 (SMap.set 0 s.sched.msix _ 2) _ = 2
      rw [SMap.get_set, if_pos rfl]

theorem frontEntry_live (s : State) (r : Nat) (e : List Byte) (h : s.frontEntry r = some e) : (s.ring r).active = true ∧ (s.ring r).closing = false := by
  unfold State.frontEntry at h
  dsimp only at h
  split at h
  · next g => simp at g; exact ⟨g.1.1.1.1, g.1.1.2⟩
  · cases h

/-- The state in which an entry of a ring has been completed. -/
def Completes (s m : State) (r kind : Nat) (c : Code) (job : Nat) (e : List Byte) : Prop :=
  let x := s.ring r
  let n := x.cqTail.toNat
  m.ring r = { x with sqHead := x.sqHead + 1, cqTail := x.cqTail + 1 } ∧ (∀ q, q ≠ r → m.ring q = s.ring q)
  ∧ m.locRead (ringLoc x.cq) (ringBase x.cq + 32 * (n % 2 ^ (6 + bitsOf x.cfg.toNat 7 4))) 32
      = natLe 2 0x209A ++ natLe 1 (decide (n / 2 ^ (6 + bitsOf x.cfg.toNat 7 4) % 2 = 0)).toNat ++ natLe 1 kind ++ natLe 2 c.toNat ++ natLe 2 job
        ++ natLe 8 (entryTag e).toNat ++ natLe 4 (x.sqHead + 1).toNat ++ natLe 4 0 ++ natLe 8 0
  ∧ (let f := x.owner.toNat; let v := bitsOf x.cfg.toNat 26 16; let k := f * 2048 + v
     if s.sched.msix.get 0 k = 1 then m.outbox = s.outbox ++ [.msix f v] else m.outbox = s.outbox ∧ m.sched.msix.get 0 k = 2)
  ∧ RingRest s m

/-- An entry is consumed, and completed after what the step from `s.consume r` to `t` did. -/
theorem completes_of (s t : State) (r kind : Nat) (c : Code) (job : Nat) (e : List Byte) (h : s.frontEntry r = some e)
    (h1 : ∀ q, t.ring q = (s.consume r).ring q) (h2 : RingRest s t) (h3 : t.outbox = s.outbox) (h4 : t.sched.msix = s.sched.msix) :
    Completes s (t.complete r { kind := kind, status := c, job := job, tag := entryTag e }) r kind c job e
      ∧ (t.complete r { kind := kind, status := c, job := job, tag := entryTag e }).logs = t.logs
      ∧ ∀ j, (t.complete r { kind := kind, status := c, job := job, tag := entryTag e }).job j = t.job j := by
  obtain ⟨a1, a2⟩ := frontEntry_live s r e h
  have hr : t.ring r = { s.ring r with sqHead := (s.ring r).sqHead + 1, owed := (s.ring r).owed + 1 } := by
    rw [h1]
    unfold State.consume State.modRing
    rw [State.ring_setRing, if_pos rfl]
  have ho : ∀ q, q ≠ r → t.ring q = s.ring q := fun q hq => by
    rw [h1]
    unfold State.consume State.modRing
    rw [State.ring_setRing, if_neg hq]
  obtain ⟨c1, c2, c3, c4, c5, c6, c7⟩ := complete_wrote t r { kind := kind, status := c, job := job, tag := entryTag e } (by rw [hr]; exact a1) (by rw [hr]; exact a2)
  dsimp only at c1 c3 c4
  generalize t.complete r { kind := kind, status := c, job := job, tag := entryTag e } = m at *
  rw [hr] at c1 c3 c4
  rw [h4, h3] at c4
  refine ⟨⟨?_, fun q hq => (c2 q hq).trans (ho q hq), ?_, c4, h2.trans c5⟩, c6, c7⟩
  · rw [c1]; simp
  · refine c3.trans ?_
    unfold Completion.bytes
    dsimp only
    have hb : ∀ n, (n % 2 == 0) = decide (n % 2 = 0) := fun n => rfl
    rw [hb]
    rfl

theorem finish_spec (s : State) (r : Nat) (c : Code) (e : List Byte) (h : s.frontEntry r = some e) : let m := (s.consume r).finishEntry r e c
    Completes s m r (fieldLe e 0 1) c 0 e ∧ (c ≠ 0 → Logged s m c 0xFFFF) ∧ (c = 0 → m.logs = s.logs) ∧ ∀ j, m.job j = s.job j := by
  dsimp only
  unfold State.finishEntry
  dsimp only
  obtain ⟨i, hi⟩ : ∃ i : RecInfo, i = { func := ((s.consume r).ring r).func } := ⟨_, rfl⟩
  have hu : i.unit = 0xFFFF := by rw [hi]
  rw [← hi]
  by_cases hc : c = 0
  · rw [if_pos hc]
    obtain ⟨a, b, d⟩ := completes_of s (s.consume r) r (fieldLe e 0 1) c 0 e h (fun _ => rfl) ⟨rfl, rfl, rfl, rfl, rfl, rfl, rfl⟩ rfl rfl
    exact ⟨a, fun g => absurd hc g, fun _ => b, d⟩
  · rw [if_neg hc]
    have h2 : RingRest s ((s.consume r).report c i) := RingRest.trans (b := s.consume r) ⟨rfl, rfl, rfl, rfl, rfl, rfl, rfl⟩ (ringRest_report _ _ _)
    have hl := report_logged (s.consume r) c i
    rw [hu] at hl
    obtain ⟨a, b, d⟩ := completes_of s ((s.consume r).report c i) r (fieldLe e 0 1) c 0 e h (fun q => report_ring _ _ _ _) h2 (by simp; rfl)
      (by rw [(report_rest (s.consume r) c i).2.2.2.2.1]; rfl)
    refine ⟨a, fun _ => ?_, fun g => absurd g hc, fun j => (d j).trans (by rw [State.job_report]; rfl)⟩
    exact logged_grow (logged_before (Grows.of_eq rfl) hl) (Grows.of_eq b)

theorem entryCode_ne (s : State) (r : Nat) (e : List Byte) (c : Code) (h : s.entryCode r e = some c) : c ≠ 0 := by
  unfold State.entryCode at h
  dsimp only at h
  repeat' split at h
  all_goals first | cases h; decide | cases h

theorem take_bad (s : State) (r ty : Nat) (go : List Byte → State → State) (e : List Byte) (c : Code) (h : s.frontEntry r = some e) (hc : s.entryCode r e = some c) :
    s.takeEntry r ty go = (s.consume r).finishEntry r e c := by
  unfold State.takeEntry
  rw [h]
  dsimp only
  rw [hc]

theorem take_none (s : State) (r ty : Nat) (go : List Byte → State → State) (h : s.frontEntry r = none) : s.takeEntry r ty go = s := by
  unfold State.takeEntry
  rw [h]

theorem liveOn_iff (s : State) (r j : Nat) : s.liveOn r j = true ↔ ∃ x, s.job j = some x ∧ x.ring = r := by
  unfold State.liveOn
  cases h : s.job j with
  | none => simp
  | some x => simp

theorem ringJobs_mem (s : State) (r j : Nat) : j ∈ s.ringJobs r ↔ ∃ x, s.job j = some x ∧ x.ring = r := by
  unfold State.ringJobs
  rw [List.mem_filter, liveOn_iff]
  exact ⟨fun h => h.2, fun h => ⟨by obtain ⟨x, hx, _⟩ := h; exact jobs_mem s j x hx, h⟩⟩

theorem ringRest_faults (s : State) (j : Nat) (c : Code) (i : RecInfo) : RingRest s (s.jobFaults j c i) ∧ (s.jobFaults j c i).sched.msix = s.sched.msix ∧ (s.jobFaults j c i).hostMem = s.hostMem
    ∧ (s.jobFaults j c i).outbox = s.outbox ∧ ∀ q, (s.jobFaults j c i).ring q = s.ring q := by
  obtain ⟨a1, a2, a3, a4, a5, a6, a7, a8⟩ := jobFaults_eq s j c i
  refine ⟨⟨a2, a3, a4, a1.col, a1.power, a1.grade, a5⟩, ?_, a1.hostMem, a1.outbox, fun q => ?_⟩
  · unfold State.jobFaults State.faultJob State.modJob
    split
    · show (State.sched _).msix = _
      rw [show ∀ (t : State) (k : Nat) (y : Option JobSt), (t.setJob k y).sched.msix = t.sched.msix from fun _ _ _ => rfl, (report_rest s c _).2.2.2.2.1]
    · rw [(report_rest s c _).2.2.2.2.1]
  · unfold State.jobFaults State.faultJob State.modJob
    split
    · show (State.setJob _ _ _).ring q = _
      rw [show ∀ (t : State) (k : Nat) (y : Option JobSt), (t.setJob k y).ring q = t.ring q from fun _ _ _ => rfl]
      exact report_ring _ _ _ _
    · exact report_ring _ _ _ _

/-- Jobs cancelled one after another. -/
theorem cancel_fold : ∀ (js : List Nat) (s : State), let m := js.foldl State.cancelJob s
    RingRest s m ∧ m.sched.msix = s.sched.msix ∧ m.hostMem = s.hostMem ∧ m.outbox = s.outbox ∧ m.mem = s.mem ∧ (∀ q, m.ring q = s.ring q) ∧ Grows s m
      ∧ ∀ k, m.job k = if k ∈ js then (s.job k).map (fun x => { x with fault := some (x.fault.getD Codes.schedCancelled) }) else s.job k
  | js, s => by
    obtain ⟨b1, b2, b3, b4, b5, b6, b7, b8⟩ := jobFaults_fold Codes.schedCancelled {} js s
    have hr : ∀ (l : List Nat) (t : State), (l.foldl State.cancelJob t).sched.msix = t.sched.msix ∧ ∀ q, (l.foldl State.cancelJob t).ring q = t.ring q := by
      intro l
      induction l with
      | nil => exact fun _ => ⟨rfl, fun _ => rfl⟩
      | cons a l ih =>
        intro t
        obtain ⟨i1, i2⟩ := ih (t.cancelJob a)
        obtain ⟨-, j1, -, -, j2⟩ := ringRest_faults t a Codes.schedCancelled {}
        exact ⟨i1.trans j1, fun q => (i2 q).trans (j2 q)⟩
    exact ⟨⟨b2, b3, b4, b1.col, b1.power, b1.grade, b5⟩, (hr js s).1, b1.hostMem, b1.outbox, b6, (hr js s).2, b1.grows, b8⟩

theorem cancel_spec (s : State) (r : Nat) (e : List Byte) (h : s.frontEntry r = some e) (j : Nat) :
    let m := ((s.consume r).cancelJob j).complete r { kind := 0x94, job := j, tag := entryTag e }
    Completes s m r 0x94 0 j e ∧ (∀ k x, s.job k = some x → (k = j → m.job k = some { x with fault := some (x.fault.getD Codes.schedCancelled) }) ∧ (¬k = j → m.job k = some x))
      ∧ Logged s m Codes.schedCancelled 0xFFFF := by
  dsimp only
  obtain ⟨a1, a2, a3, a4, a5, a6, a7, a8⟩ := jobFaults_eq (s.consume r) j Codes.schedCancelled {}
  obtain ⟨b1, b2, b3, b4, b5⟩ := ringRest_faults (s.consume r) j Codes.schedCancelled {}
  have e1 : (s.consume r).cancelJob j = (s.consume r).jobFaults j Codes.schedCancelled {} := rfl
  rw [e1]
  generalize (s.consume r).jobFaults j Codes.schedCancelled {} = t at *
  obtain ⟨c, d, f⟩ := completes_of s t r 0x94 0 j e h b5 (RingRest.trans (b := s.consume r) ⟨rfl, rfl, rfl, rfl, rfl, rfl, rfl⟩ b1) b4 b2
  refine ⟨c, fun k x hk => ⟨fun g => ?_, fun g => ?_⟩, logged_grow (logged_before (Grows.of_eq rfl) a7) (Grows.of_eq d)⟩
  · rw [f, a8, if_pos g]
    have : (s.consume r).job j = some x := by rw [← g]; exact hk
    rw [this]; rfl
  · rw [f, a8, if_neg g]
    exact hk

/-- A ring is disabled (R398). -/
theorem disable_spec (s : State) (r : Nat) : let x := s.ring r
    let m := s.disableRing r
    RingRest s m ∧ (∀ q, q ≠ r → m.ring q = s.ring q) ∧ (m.ring r).enable = false ∧ (m.ring r).held = false ∧ (m.ring r).ownerValid = x.ownerValid ∧ (m.ring r).owner = x.owner
      ∧ (x.active = false → m.ring r = { x with enable := false, held := false, closing := false } ∧ ∀ j, m.job j = s.job j)
      ∧ (x.active = true → x.closing = false →
          (∀ j y, s.job j = some y → ((∃ z, s.job j = some z ∧ z.ring = r) → m.job j = some { y with fault := some (y.fault.getD Codes.schedCancelled) }) ∧ (¬(∃ z, s.job j = some z ∧ z.ring = r) → m.job j = some y))
          ∧ ((∃ j z, s.job j = some z ∧ z.ring = r) → m.ring r = { x with enable := false, held := false, closing := true })
          ∧ ((¬∃ j z, s.job j = some z ∧ z.ring = r) → m.ring r = { x with enable := false, held := false, closing := false, active := false }))
      ∧ ((∀ j z, s.job j = some z → z.ring = r → z.fault.isSome = true) → ∀ j, m.job j = s.job j) := by
  dsimp only
  unfold State.disableRing
  dsimp only
  obtain ⟨s1, hs1⟩ : ∃ s1, s1 = s.setRing r { s.ring r with enable := false, held := false, closing := (s.ring r).active } := ⟨_, rfl⟩
  rw [← hs1]
  have r1 : s1.ring r = { s.ring r with enable := false, held := false, closing := (s.ring r).active } := by rw [hs1, State.ring_setRing, if_pos rfl]
  have r2 : ∀ q, q ≠ r → s1.ring q = s.ring q := fun q hq => by rw [hs1, State.ring_setRing, if_neg hq]
  have r3 : RingRest s s1 := by rw [hs1]; exact ⟨rfl, rfl, rfl, rfl, rfl, rfl, rfl⟩
  have r4 : ∀ j, s1.job j = s.job j := fun j => by rw [hs1]; rfl
  clear hs1
  by_cases g : (s.ring r).active = true ∧ (s.ring r).closing = false
  · rw [if_pos (by simp [g.1, g.2])]
    obtain ⟨js, hjs⟩ : ∃ js, js = (s.ringJobs r).filter (fun j => match s.job j with
      | some y => y.fault.isNone
      | none => false) := ⟨_, rfl⟩
    have hm : ∀ j, j ∈ js ↔ ∃ z, s.job j = some z ∧ z.ring = r ∧ z.fault.isNone = true := by
      intro j
      rw [hjs, List.mem_filter, ringJobs_mem]
      constructor
      · rintro ⟨⟨z, h1, h2⟩, h3⟩
        rw [h1] at h3
        exact ⟨z, h1, h2, h3⟩
      · rintro ⟨z, h1, h2, h3⟩
        refine ⟨⟨z, h1, h2⟩, ?_⟩
        rw [h1]; exact h3
    generalize hq : List.filter _ (s.ringJobs r) = q
    have hqj : q = js := by rw [hjs, ← hq] <;> rfl
    rw [hqj]
    obtain ⟨c1, c2, c3, c4, c5, c6, -, c7⟩ := cancel_fold js s1
    generalize js.foldl State.cancelJob s1 = t at *
    have hjob : ∀ j y, s.job j = some y → ((∃ z, s.job j = some z ∧ z.ring = r) → t.job j = some { y with fault := some (y.fault.getD Codes.schedCancelled) })
        ∧ (¬(∃ z, s.job j = some z ∧ z.ring = r) → t.job j = some y) := by
      intro j y hy
      refine ⟨fun ⟨z, h1, h2⟩ => ?_, fun h => ?_⟩
      · rw [c7, r4, hy]
        rw [hy] at h1
        cases h1
        by_cases hf : y.fault.isNone = true
        · rw [if_pos ((hm j).2 ⟨y, hy, h2, hf⟩)]; rfl
        · rw [if_neg]
          · cases hq : y.fault with
            | none => rw [hq] at hf; exact absurd rfl hf
            | some c =>
              congr 1
              rw [show ((some c).getD Codes.schedCancelled) = c from rfl, ← hq]
          · rintro hmem
            obtain ⟨z, k1, -, k3⟩ := (hm j).1 hmem
            rw [hy] at k1
            cases k1
            exact hf k3
      · rw [c7, r4, hy, if_neg]
        rintro hmem
        obtain ⟨z, k1, k2, -⟩ := (hm j).1 hmem
        exact h ⟨z, k1, k2⟩
    have hnone : ∀ j, s.job j = none → t.job j = none := by
      intro j hj
      rw [c7, r4, hj]
      split <;> rfl
    have hlive : ∀ j, (∃ z, t.job j = some z ∧ z.ring = r) ↔ ∃ z, s.job j = some z ∧ z.ring = r := by
      intro j
      cases hy : s.job j with
      | none => rw [hnone j hy]
      | some y =>
        obtain ⟨h1, h2⟩ := hjob j y hy
        by_cases hl : ∃ z, s.job j = some z ∧ z.ring = r
        · rw [h1 hl]
          obtain ⟨z, k1, k2⟩ := hl
          rw [hy] at k1
          cases k1
          exact ⟨fun _ => ⟨y, rfl, k2⟩, fun _ => ⟨_, rfl, k2⟩⟩
        · rw [h2 hl]
    have hempty : (t.ringJobs r).isEmpty = true ↔ ¬∃ j z, s.job j = some z ∧ z.ring = r := by
      rw [List.isEmpty_iff]
      constructor
      · rintro h ⟨j, hj⟩
        have : j ∈ t.ringJobs r := (ringJobs_mem t r j).2 ((hlive j).2 hj)
        rw [h] at this
        exact absurd this (by simp)
      · intro h
        rw [List.eq_nil_iff_forall_not_mem]
        intro j hj
        exact h ⟨j, (hlive j).1 ((ringJobs_mem t r j).1 hj)⟩
    have tr : t.ring r = { s.ring r with enable := false, held := false, closing := true } := by rw [c6, r1, g.1]
    have to' : ∀ q, q ≠ r → t.ring q = s.ring q := fun q hq => (c6 q).trans (r2 q hq)
    unfold State.settleRing
    dsimp only
    rw [tr]
    dsimp only
    by_cases he : (t.ringJobs r).isEmpty = true
    · rw [if_pos (by rw [he]; rfl), if_neg (by decide)]
      have ur : (t.setRing r { s.ring r with enable := false, held := false, closing := false, active := false }).ring r = { s.ring r with enable := false, held := false, closing := false, active := false } := by
        rw [State.ring_setRing, if_pos rfl]
      refine ⟨r3.trans c1, fun q hq => ?_, ?_, ?_, ?_, ?_, fun h => ?_, fun _ _ => ⟨hjob, fun h => absurd h (hempty.1 he), fun _ => ur⟩, fun h j => ?_⟩
      · rw [State.ring_setRing, if_neg hq, to' q hq]
      · rw [State.ring_setRing, if_pos rfl]
      · rw [State.ring_setRing, if_pos rfl]
      · rw [State.ring_setRing, if_pos rfl]
      · rw [State.ring_setRing, if_pos rfl]
      · rw [g.1] at h; exact absurd h (by decide)
      · show t.job j = _
        rw [c7, r4, if_neg]
        rintro hmem
        obtain ⟨z, k1, k2, k3⟩ := (hm j).1 hmem
        have := h j z k1 k2
        cases hz : z.fault with
        | none => rw [hz] at this; exact absurd this (by decide)
        | some c => rw [hz] at k3; exact absurd k3 (by simp)
    · rw [if_neg (by simpa using he)]
      refine ⟨r3.trans c1, to', ?_, ?_, ?_, ?_, fun h => ?_, fun _ _ => ⟨hjob, fun _ => tr, fun h => absurd (hempty.2 h) he⟩, fun h j => ?_⟩
      · rw [tr]
      · rw [tr]
      · rw [tr]
      · rw [tr]
      · rw [g.1] at h; exact absurd h (by decide)
      · rw [c7, r4, if_neg]
        rintro hmem
        obtain ⟨z, k1, k2, k3⟩ := (hm j).1 hmem
        have := h j z k1 k2
        cases hz : z.fault with
        | none => rw [hz] at this; exact absurd this (by decide)
        | some c => rw [hz] at k3; exact absurd k3 (by simp)
  · rw [if_neg (by
      intro h
      simp at h
      exact g h)]
    refine ⟨r3, r2, by rw [r1], by rw [r1], by rw [r1], by rw [r1], fun h => ⟨?_, r4⟩, fun h1 h2 => absurd ⟨h1, h2⟩ g, fun _ => r4⟩
    rw [r1]
    generalize s.ring r = x at h ⊢
    cases x
    dsimp only at h
    subst h
    rfl

theorem disable_fold (f : Nat) (s0 : State) (hf : ∀ j z, s0.job j = some z → (s0.ring z.ring).ownerValid = true → (s0.ring z.ring).owner.toNat = f → z.fault.isSome = true) :
    ∀ (rs : List Nat) (s : State), (∀ j, s.job j = s0.job j) → (∀ q, (s.ring q).ownerValid = (s0.ring q).ownerValid ∧ (s.ring q).owner = (s0.ring q).owner) →
      (∀ q ∈ rs, (s0.ring q).ownerValid = true ∧ (s0.ring q).owner.toNat = f) →
      let m := rs.foldl State.disableRing s
      RingRest s m ∧ (∀ j, m.job j = s.job j) ∧ ∀ q, (q ∈ rs → (m.ring q).enable = false ∧ (m.ring q).held = false) ∧ (q ∉ rs → m.ring q = s.ring q)
  | [], s, _, _, _ => ⟨⟨rfl, rfl, rfl, rfl, rfl, rfl, rfl⟩, fun _ => rfl, fun q => ⟨fun h => absurd h (by simp), fun _ => rfl⟩⟩
  | r :: rs, s, h1, h2, h3 => by
    obtain ⟨d1, d2, d3, d4, d5, d6, d7, d8, d9⟩ := disable_spec s r
    have hfault : ∀ j z, s.job j = some z → z.ring = r → z.fault.isSome = true := by
      intro j z hj hz
      rw [h1] at hj
      obtain ⟨o1, o2⟩ := h3 r List.mem_cons_self
      exact hf j z hj (by rw [hz]; exact o1) (by rw [hz]; exact o2)
    have d10 := d9 hfault
    clear d7 d8 d9
    dsimp only
    rw [List.foldl_cons]
    generalize s.disableRing r = t at *
    obtain ⟨i1, i2, i3⟩ := disable_fold f s0 hf rs t (fun j => (d10 j).trans (h1 j))
      (fun q => by
        by_cases g : q = r
        · rw [g, d5, d6]; exact h2 r
        · rw [d2 q g]; exact h2 q) (fun q hq => h3 q (List.mem_cons_of_mem _ hq))
    refine ⟨d1.trans i1, fun j => (i2 j).trans (d10 j), fun q => ⟨fun h => ?_, fun h => ?_⟩⟩
    · by_cases g : q ∈ rs
      · exact (i3 q).1 g
      · rcases List.mem_cons.1 h with e | e
        · rw [(i3 q).2 g, e]; exact ⟨d3, d4⟩
        · exact absurd e g
    · rw [(i3 q).2 (fun g => h (List.mem_cons_of_mem _ g)), d2 q (fun g => h (by rw [g]; exact List.mem_cons_self))]

/-- FLR of a virtual function. -/
theorem flr_spec (s : State) (f : Nat) (hf : f ≠ 0) (hf' : f < 64) (hr : ∀ r, s.ring r ≠ .init → r < 256)
    (hj : ∀ j x, s.job j = some x → (s.ring x.ring).ownerValid = true → (s.ring x.ring).owner.toNat = f → x.func = f) :
    let m := vfFlr f s
    RingRest s m ∧ (∀ j x, s.job j = some x → ((∃ z, s.job j = some z ∧ z.func = f) → m.job j = some { x with fault := some (x.fault.getD Codes.schedCancelled) }) ∧ (¬(∃ z, s.job j = some z ∧ z.func = f) → m.job j = some x))
      ∧ ∀ r, if (s.ring r).ownerValid = true ∧ (s.ring r).owner.toNat = f then (m.ring r).enable = false ∧ (m.ring r).held = false else m.ring r = s.ring r := by
  unfold vfFlr
  rw [if_neg hf]
  dsimp only
  obtain ⟨js, hjs⟩ : ∃ js, js = (s.sched.jobs.map (·.1)).filter (fun j => s.jobFunc j == f) := ⟨_, rfl⟩
  have hm : ∀ j, j ∈ js ↔ ∃ z, s.job j = some z ∧ z.func = f := by
    intro j
    rw [hjs, List.mem_filter, beq_iff_eq]
    unfold State.jobFunc
    constructor
    · rintro ⟨-, h⟩
      cases hy : s.job j with
      | none => rw [hy] at h; dsimp only at h; omega
      | some z => rw [hy] at h; exact ⟨z, rfl, h⟩
    · rintro ⟨z, h1, h2⟩
      refine ⟨jobs_mem s j z h1, ?_⟩
      rw [h1]; exact h2
  obtain ⟨rs, hrs⟩ : ∃ rs, rs = (List.range 256).filter (fun r => s.ringOwned f r) := ⟨_, rfl⟩
  have hmr : ∀ r, r ∈ rs ↔ (s.ring r).ownerValid = true ∧ (s.ring r).owner.toNat = f := by
    intro r
    rw [hrs, List.mem_filter, List.mem_range]
    unfold State.ringOwned
    rw [Bool.and_eq_true, beq_iff_eq]
    refine ⟨fun h => h.2, fun h => ⟨hr r (fun e => ?_), h⟩⟩
    rw [e] at h
    exact absurd h.1 (by decide)
  rw [← hjs, ← hrs]
  obtain ⟨c1, c2, c3, c4, c5, c6, -, c7⟩ := cancel_fold js s
  generalize js.foldl State.cancelJob s = t at *
  have hown : ∀ q, (t.ring q).ownerValid = (s.ring q).ownerValid ∧ (t.ring q).owner = (s.ring q).owner := fun q => by rw [c6]; exact ⟨rfl, rfl⟩
  obtain ⟨i1, i2, i3⟩ := disable_fold f t (fun j z h1 h2 h3 => by
      rw [(hown _).1] at h2
      rw [(hown _).2] at h3
      rw [c7] at h1
      cases hy : s.job j with
      | none => rw [hy] at h1; split at h1 <;> cases h1
      | some y =>
        rw [hy] at h1
        by_cases g : j ∈ js
        · rw [if_pos g] at h1
          cases h1; rfl
        · rw [if_neg g] at h1
          cases h1
          exact absurd ((hm j).2 ⟨z, hy, hj j z hy h2 h3⟩) g) rs t (fun _ => rfl) (fun _ => ⟨rfl, rfl⟩) (fun q hq => by rw [c6]; exact (hmr q).1 hq)
  generalize rs.foldl State.disableRing t = m at *
  refine ⟨c1.trans i1, fun j x hx => ⟨fun h => ?_, fun h => ?_⟩, fun r => ?_⟩
  · rw [i2, c7, if_pos ((hm j).2 h), hx]; rfl
  · rw [i2, c7, if_neg (fun g => h ((hm j).1 g)), hx]
  · by_cases g : (s.ring r).ownerValid = true ∧ (s.ring r).owner.toNat = f
    · rw [if_pos g]
      exact (i3 r).1 ((hmr r).2 g)
    · rw [if_neg g, (i3 r).2 (fun h => g ((hmr r).1 h)), c6]

def StillRing (s m : State) : Prop := RingRest s m ∧ m.mem = s.mem ∧ m.hostMem = s.hostMem ∧ m.sched = s.sched ∧ m.outbox = s.outbox

theorem refused_report (s : State) (c : Code) (i : RecInfo) (hu : i.unit = 0xFFFF) : ∃ m, (Host.Outcome.next (s.report c i) : Host.Outcome State Fault Refusal) = .next m ∧ StillRing s m ∧ Logged s m c 0xFFFF := by
  refine ⟨_, rfl, ⟨ringRest_report _ _ _, (report_rest s c i).2.1, by simp, (report_rest s c i).2.2.2.2.1, by simp⟩, ?_⟩
  rw [← hu]
  exact report_logged s c i

def RingTo (s m : State) (r : Nat) (y : RingSt) : Prop := m.ring r = y ∧ (∀ q, q ≠ r → m.ring q = s.ring q) ∧ RingRest s m ∧ m.mem = s.mem ∧ m.hostMem = s.hostMem

theorem ringTo_set (s : State) (r : Nat) (y : RingSt) : RingTo s (s.setRing r y) r y :=
  ⟨by rw [State.ring_setRing, if_pos rfl], fun q hq => by rw [State.ring_setRing, if_neg hq], ⟨rfl, rfl, rfl, rfl, rfl, rfl, rfl⟩, rfl, rfl⟩

theorem RingTo.mod {s m : State} {r : Nat} {y : RingSt} (h : RingTo s m r y) (f : RingSt → RingSt) : RingTo s (m.modRing r f) r (f y) := by
  obtain ⟨h1, h2, h3, h4, h5⟩ := h
  unfold State.modRing
  rw [h1]
  exact ⟨by rw [State.ring_setRing, if_pos rfl], fun q hq => by rw [State.ring_setRing, if_neg hq, h2 q hq], h3, h4, h5⟩

theorem RingTo.report {s m : State} {r : Nat} {y : RingSt} (h : RingTo s m r y) (c : Code) (i : RecInfo) : RingTo s (m.report c i) r y := by
  obtain ⟨h1, h2, h3, h4, h5⟩ := h
  exact ⟨(report_ring _ _ _ _).trans h1, fun q hq => (report_ring _ _ _ _).trans (h2 q hq), h3.trans (ringRest_report _ _ _), (report_rest m c i).2.1.trans h4, by simp [h5]⟩

theorem ringError_spec {s m : State} {r : Nat} {y : RingSt} (h : RingTo s m r y) (hg : Grows s m) (c : Code) : RingTo s (m.ringError r c) r { y with error := c } ∧ Logged s (m.ringError r c) c 0xFFFF
    ∧ ∀ j, (m.ringError r c).job j = m.job j := by
  unfold State.ringError
  have hl := report_logged (m.modRing r (fun x => { x with error := c })) c { func := (m.ring r).func }
  have hg2 : Grows s (m.modRing r (fun x => { x with error := c })) := hg.trans (Grows.of_eq rfl)
  refine ⟨(h.mod (fun x => { x with error := c })).report _ _, logged_before hg2 hl, fun j => ?_⟩
  rw [State.job_report]; rfl

theorem owned_iff (s : State) (f r : Nat) : s.ringOwned f r = true ↔ (s.ring r).ownerValid = true ∧ (s.ring r).owner.toNat = f := by
  unfold State.ringOwned RingSt.func
  rw [Bool.and_eq_true, beq_iff_eq]

theorem onRing_may (s : State) (f r : Nat) (go : State) (h : f = 0 ∨ (s.ring r).ownerValid = true ∧ (s.ring r).owner.toNat = f) : s.onRing f r go = go := by
  unfold State.onRing
  rw [if_pos]
  rcases h with h | h
  · simp [h]
  · rw [(owned_iff s f r).2 h]; simp

theorem onRing_not (s : State) (f r : Nat) (go : State) (h : ¬(f = 0 ∨ (s.ring r).ownerValid = true ∧ (s.ring r).owner.toNat = f)) : s.onRing f r go = s.report Codes.schedNotOwner { func := f } := by
  unfold State.onRing
  rw [if_neg]
  intro g
  rw [Bool.or_eq_true, decide_eq_true_eq] at g
  rcases g with g | g
  · exact h (Or.inl g)
  · exact h (Or.inr ((owned_iff s f r).1 g))

theorem ringBad_iff (s : State) (r : Nat) : let x := s.ring r
    s.ringBad r = false ↔ (x.ownerValid = true ∧ bitsOf x.cfg.toNat 31 28 = 2 ∧ bitsOf x.cfg.toNat 3 0 ≤ 10 ∧ bitsOf x.cfg.toNat 7 4 ≤ 10
          ∧ bitsOf x.cfg.toNat 26 16 ≠ 0 ∧ bitsOf x.cfg.toNat 26 16 < (if x.owner.toNat = 0 then 2048 else 64)
          ∧ (ringLoc x.sq = true → s.pinnedFor (.func x.owner.toNat) (ringBase x.sq, 64 * 2 ^ (6 + bitsOf x.cfg.toNat 3 0)) = true)
          ∧ (ringLoc x.cq = true → s.pinnedFor (.func x.owner.toNat) (ringBase x.cq, 32 * 2 ^ (6 + bitsOf x.cfg.toNat 7 4)) = true)) := by
  unfold State.ringBad RingSt.reqGen RingSt.vector RingSt.sqSize RingSt.cqSize RingSt.func vectorsOf
  dsimp only
  generalize s.pinnedFor _ _ = p1
  generalize s.pinnedFor _ _ = p2
  generalize ringLoc _ = l1
  generalize ringLoc (s.ring r).cq = l2
  generalize (s.ring r).ownerValid = ov
  generalize bitsOf (s.ring r).cfg.toNat 31 28 = a
  generalize bitsOf (s.ring r).cfg.toNat 3 0 = b
  generalize bitsOf (s.ring r).cfg.toNat 7 4 = c
  generalize bitsOf (s.ring r).cfg.toNat 26 16 = d
  generalize (if (s.ring r).owner.toNat = 0 then 2048 else 64) = e
  simp only [Bool.or_eq_false_iff, Bool.not_eq_false', bne_eq_false_iff_eq, decide_eq_false_iff_not, beq_eq_false_iff_ne, Bool.and_eq_false_iff, not_lt, not_le]
  constructor
  · rintro ⟨⟨⟨⟨⟨⟨⟨h1, h2⟩, h3⟩, h4⟩, h5⟩, h6⟩, h7⟩, h8⟩
    refine ⟨h1, h2, h3, h4, h5, h6, fun g => ?_, fun g => ?_⟩
    · rcases h7 with h | h
      · rw [g] at h; exact absurd h (by decide)
      · exact h
    · rcases h8 with h | h
      · rw [g] at h; exact absurd h (by decide)
      · exact h
  · rintro ⟨h1, h2, h3, h4, h5, h6, h7, h8⟩
    refine ⟨⟨⟨⟨⟨⟨⟨h1, h2⟩, h3⟩, h4⟩, h5⟩, h6⟩, ?_⟩, ?_⟩
    · cases l1
      · exact Or.inl rfl
      · exact Or.inr (h7 rfl)
    · cases l2
      · exact Or.inl rfl
      · exact Or.inr (h8 rfl)

theorem doorbell_spec (s : State) (f r : Nat) (tail head : Option W32) :
    let x := s.ring r
    let y := { x with sqTail := tail.getD x.sqTail, cqHead := head.getD x.cqHead }
    let owned : Prop := x.ownerValid = true ∧ x.owner.toNat = f
    let fits : Prop := cntDiff y.sqTail x.sqHead ≤ 2 ^ (6 + bitsOf x.cfg.toNat 3 0) ∧ cntDiff x.cqTail y.cqHead ≤ 2 ^ (6 + bitsOf x.cfg.toNat 7 4)
    (¬owned → doorbell f r tail head s = s.report Codes.schedNotOwner { func := f })
    ∧ (owned → x.active = false ∨ x.closing = true ∨ x.stopped = true ∨ y = x → doorbell f r tail head s = s)
    ∧ (owned → x.active = true → x.closing = false → x.stopped = false → fits → RingTo s (doorbell f r tail head s) r y ∧ ∀ j, (doorbell f r tail head s).job j = s.job j)
    ∧ (owned → x.active = true → x.closing = false → x.stopped = false → y ≠ x → ¬fits →
        RingTo s (doorbell f r tail head s) r { y with stopped := true, error := Codes.schedRingOverflow } ∧ Logged s (doorbell f r tail head s) Codes.schedRingOverflow 0xFFFF
          ∧ ∀ j, (doorbell f r tail head s).job j = s.job j) := by
  dsimp only
  have e : ∀ y : RingSt, y = { s.ring r with sqTail := tail.getD (s.ring r).sqTail, cqHead := head.getD (s.ring r).cqHead } → doorbell f r tail head s =
      if !s.ringOwned f r then s.report Codes.schedNotOwner { func := f }
      else if !(s.ring r).active || (s.ring r).closing || (s.ring r).stopped then s
      else if y = s.ring r then s
      else if (s.ring r).sqSize < cntDiff y.sqTail y.sqHead ∨ (s.ring r).cqSize < cntDiff y.cqTail y.cqHead then
        (s.setRing r { y with stopped := true }).ringError r Codes.schedRingOverflow
      else s.setRing r y := by
    rintro _ rfl
    rfl
  obtain ⟨y, hy⟩ : ∃ y : RingSt, y = { s.ring r with sqTail := tail.getD (s.ring r).sqTail, cqHead := head.getD (s.ring r).cqHead } := ⟨_, rfl⟩
  rw [e y hy]
  have y1 : y.sqTail = tail.getD (s.ring r).sqTail := by rw [hy]
  have y2 : y.cqHead = head.getD (s.ring r).cqHead := by rw [hy]
  have y3 : y.sqHead = (s.ring r).sqHead ∧ y.cqTail = (s.ring r).cqTail := by rw [hy]; exact ⟨rfl, rfl⟩
  have e5 : ({ s.ring r with sqTail := tail.getD (s.ring r).sqTail, cqHead := head.getD (s.ring r).cqHead } : RingSt) = y := hy.symm
  have e6 : ({ s.ring r with stopped := true, error := Codes.schedRingOverflow, sqTail := tail.getD (s.ring r).sqTail, cqHead := head.getD (s.ring r).cqHead } : RingSt) = { y with stopped := true, error := Codes.schedRingOverflow } := by rw [hy]
  rw [e5, e6, ← y1, ← y2]
  clear hy e e5 e6
  refine ⟨fun h => ?_, fun h g => ?_, fun h g1 g2 g3 g4 => ?_, fun h g1 g2 g3 g4 g5 => ?_⟩
  · rw [if_pos]
    rw [Bool.not_eq_true', ← Bool.not_eq_true, owned_iff]
    exact h
  · rw [if_neg (by rw [(owned_iff s f r).2 h]; decide)]
    rcases g with g | g | g | g
    · rw [if_pos (by simp [g])]
    · rw [if_pos (by simp [g])]
    · rw [if_pos (by simp [g])]
    · rw [if_pos g]
      split <;> rfl
  · rw [if_neg (by rw [(owned_iff s f r).2 h]; decide), if_neg (by simp [g1, g2, g3])]
    split
    · next e => rw [e]; exact ⟨⟨rfl, fun _ _ => rfl, ⟨rfl, rfl, rfl, rfl, rfl, rfl, rfl⟩, rfl, rfl⟩, fun _ => rfl⟩
    · rw [if_neg]
      · exact ⟨ringTo_set s r y, fun _ => rfl⟩
      · rw [y3.1, y3.2]
        unfold RingSt.sqSize RingSt.cqSize
        omega
  · rw [if_neg (by rw [(owned_iff s f r).2 h]; decide), if_neg (by simp [g1, g2, g3]), if_neg g4, if_pos]
    · obtain ⟨a, b, c⟩ := ringError_spec (ringTo_set s r { y with stopped := true }) (Grows.of_eq rfl) Codes.schedRingOverflow
      exact ⟨a, b, fun j => (c j).trans rfl⟩
    · rw [y3.1, y3.2]
      unfold RingSt.sqSize RingSt.cqSize
      omega

theorem enable_spec (s : State) (r : Nat) :
    let x := s.ring r
    let m := (let s1 := s.modRing r (fun x => { x with enable := true })
      if (s.ring r).closing then s1.modRing r (fun x => { x with held := true })
      else if (s.ring r).active then s1
      else s1.answerRing r)
    (∀ j, m.job j = s.job j)
      ∧ (x.closing = true → RingTo s m r { x with enable := true, held := true })
      ∧ (x.closing = false → x.active = true → RingTo s m r { x with enable := true })
      ∧ (x.closing = false → x.active = false → s.ringBad r = false → RingTo s m r { x with enable := true, active := true, stopped := false, negGen := 2, negMinor := 0, cqTail := 0, sqHead := 0, sqTail := 0, cqHead := 0, submitted := 0, completed := 0, preempted := 0, faulted := 0, owed := 0, closing := false, held := false })
      ∧ (x.closing = false → x.active = false → ¬s.ringBad r = false → RingTo s m r { x with enable := true, error := Codes.schedRingConfig } ∧ Logged s m Codes.schedRingConfig 0xFFFF) := by
  dsimp only
  have h1 := ringTo_set s r { s.ring r with enable := true }
  have e1 : s.modRing r (fun x => { x with enable := true }) = s.setRing r { s.ring r with enable := true } := rfl
  rw [e1]
  have hbad : (s.setRing r { s.ring r with enable := true }).ringBad r = s.ringBad r := by
    unfold State.ringBad
    dsimp only
    rw [h1.1]
    have hp : ∀ o q, (s.setRing r { s.ring r with enable := true }).pinnedFor o q = s.pinnedFor o q := fun _ _ => rfl
    rw [hp, hp]
    rfl
  by_cases c : (s.ring r).closing = true
  · rw [if_pos c]
    refine ⟨fun _ => rfl, fun _ => h1.mod _, fun h => ?_, fun h => ?_, fun h => ?_⟩ <;> (rw [c] at h; exact absurd h (by decide))
  · rw [if_neg c]
    by_cases a : (s.ring r).active = true
    · rw [if_pos a]
      refine ⟨fun _ => rfl, fun h => absurd h c, fun _ _ => h1, fun _ h => ?_, fun _ h => ?_⟩ <;> (rw [a] at h; exact absurd h (by decide))
    · rw [if_neg a]
      unfold State.answerRing
      rw [hbad]
      by_cases b : s.ringBad r = true
      · rw [if_pos b]
        obtain ⟨p, q, t⟩ := ringError_spec h1 (Grows.of_eq rfl) Codes.schedRingConfig
        refine ⟨fun j => (t j).trans rfl, fun h => absurd h c, fun _ h => absurd h a, fun _ _ h => ?_, fun _ _ _ => ⟨p, q⟩⟩
        rw [b] at h; exact absurd h (by decide)
      · rw [if_neg b]
        refine ⟨fun _ => rfl, fun h => absurd h c, fun _ h => absurd h a, fun _ _ _ => ?_, fun _ _ h => absurd (by simpa using b) h⟩
        have := h1.mod (fun x => { x with active := true, stopped := false, negGen := 2, negMinor := min x.reqMinor 0, cqTail := 0, sqHead := 0, sqTail := 0, cqHead := 0, submitted := 0, completed := 0, preempted := 0, faulted := 0, owed := 0, closing := false, held := false })
        simpa using this

/-- The unmasking of a vector. -/
theorem msix_spec (s : State) (f i o : Nat) (v : W64) (ho : o = 16 * i + 12) (hi : i < (if f = 0 then 2048 else 64)) :
    let k := f * 2048 + i
    let m := msixWrite f o v s
    RingRest s m ∧ m.mem = s.mem ∧ (bitOf v.toNat 0 = true → m.outbox = s.outbox ∧ m.sched.msix.get 0 k = (if s.sched.msix.get 0 k = 1 then 0 else s.sched.msix.get 0 k))
      ∧ (bitOf v.toNat 0 = false → m.sched.msix.get 0 k = 1 ∧ m.outbox = (if s.sched.msix.get 0 k = 2 then s.outbox ++ [.msix f i] else s.outbox)) := by
  have h1 : o / 16 = i := by omega
  have h2 : o % 16 = 12 := by omega
  unfold msixWrite vectorsOf
  dsimp only
  rw [h1, h2, if_neg (by omega)]
  have rr : ∀ c, RingRest s { s with sched := { s.sched with msix := c } } := fun _ => ⟨rfl, rfl, rfl, rfl, rfl, rfl, rfl⟩
  by_cases b : bitOf v.toNat 0 = true
  · rw [if_pos b]
    by_cases w : s.sched.msix.get 0 (f * 2048 + i) = 1
    · rw [if_pos w, if_pos w]
      refine ⟨rr _, rfl, fun _ => ⟨rfl, ?_⟩, fun h => ?_⟩
      · show SMap.get 0 (SMap.set 0 s.sched.msix _ 0) _ = 0
        rw [SMap.get_set, if_pos rfl]
      · rw [b] at h; exact absurd h (by decide)
    · rw [if_neg w, if_neg w]
      exact ⟨⟨rfl, rfl, rfl, rfl, rfl, rfl, rfl⟩, rfl, fun _ => ⟨rfl, rfl⟩, fun h => by rw [b] at h; exact absurd h (by decide)⟩
  · rw [if_neg b]
    by_cases w : s.sched.msix.get 0 (f * 2048 + i) = 2
    · rw [if_pos w, if_pos w]
      refine ⟨⟨rfl, rfl, rfl, rfl, rfl, rfl, rfl⟩, rfl, fun h => absurd h b, fun _ => ⟨?_, rfl⟩⟩
      show SMap.get 0 (SMap.set 0 s.sched.msix _ 1) _ = 1
      rw [SMap.get_set, if_pos rfl]
    · rw [if_neg w, if_neg w]
      refine ⟨rr _, rfl, fun h => absurd h b, fun _ => ⟨?_, rfl⟩⟩
      show SMap.get 0 (SMap.set 0 s.sched.msix _ 1) _ = 1
      rw [SMap.get_set, if_pos rfl]

theorem window_bad (s : State) (b : Bool) (off width : Nat) (v : W64) (h : regAt off = none ∨ ∃ x, regAt off = some (some x) ∧ (x.wide width = false ∨ (b = true ∧ x.boardMay = false))) :
    windowWrite b off width v s = s.report Codes.badRegAccess {} := by
  unfold windowWrite
  dsimp only
  rcases h with h | ⟨x, h, g⟩
  · rw [h]
  · rw [h]
    dsimp only
    rw [if_pos]
    rcases g with g | g
    · simp [g]
    · simp [g.1, g.2]

theorem window_go (s : State) (b : Bool) (off width : Nat) (v : W64) (x : Reg) (h : regAt off = some (some x)) (hw : x.wide width = true) (hb : b = false ∨ x.boardMay = true) :
    windowWrite b off width v s = x.write v s := by
  unfold windowWrite
  rw [h]
  dsimp only
  rw [if_neg]
  rcases hb with g | g
  · simp [g, hw]
  · simp [g, hw]

theorem host_write (s : State) (off : BitVec 40) (width : Nat) (v : W64) (b : Bool) : exec (.registerWrite (if b then .board else .host 0) off width v) s = .next (windowWrite b off.toNat width v s) := by
  cases b
  · rw [if_neg (by decide)]; rfl
  · rw [if_pos rfl]; rfl

end Sys2Proof.Machine
end

