-- ==== Sys2Proof/Laws/Jobs.lean ====
section
/-!
SUPPORT. Laws/Jobs.lean: the end of a job, saves, swaps, ageing, admission and partitions.
-/

namespace Sys2Proof.Machine

open Sys2Proof.Claims

/-- What the memory side of the machine may do leaves the scheduler, the tiles and the power as they are. -/
structure Backs (s m : State) : Prop where
  tiles : m.tiles = s.tiles
  dealers : m.dealers = s.dealers
  sched : m.sched = s.sched
  power : m.power = s.power
  outbox : m.outbox = s.outbox
  grade : m.grade = s.grade
  fuses : m.fuses = s.fuses
  grows : Grows s m

theorem Backs.refl (s : State) : Backs s s := ⟨rfl, rfl, rfl, rfl, rfl, rfl, rfl, Grows.of_eq rfl⟩
theorem Backs.trans {a b c : State} (h : Backs a b) (k : Backs b c) : Backs a c :=
  ⟨k.tiles.trans h.tiles, k.dealers.trans h.dealers, k.sched.trans h.sched, k.power.trans h.power, k.outbox.trans h.outbox, k.grade.trans h.grade, k.fuses.trans h.fuses, h.grows.trans k.grows⟩
theorem Backs.job {s m : State} (h : Backs s m) (j : Nat) : m.job j = s.job j := by unfold State.job; rw [h.sched]
theorem Backs.ring {s m : State} (h : Backs s m) (r : Nat) : m.ring r = s.ring r := by unfold State.ring; rw [h.sched]
theorem Backs.tile {s m : State} (h : Backs s m) (t : Nat) : m.tile t = s.tile t := by unfold State.tile; rw [h.tiles]

theorem backs_report (s : State) (c : Code) (i : RecInfo) : Backs s (s.report c i) := by
  obtain ⟨q1, q2, q3, q4, q5, q6, q7⟩ := report_rest s c i
  exact ⟨q1, q4, q5, q7, by simp, by simp, by simp, grows_report _ _ _⟩

theorem backs_fold {α : Type} (f : State → α → State) (h : ∀ s a, Backs s (f s a)) : ∀ (l : List α) (s : State), Backs s (l.foldl f s)
  | [], s => Backs.refl s
  | a :: l, s => (h s a).trans (backs_fold f h l (f s a))

theorem backs_mem (s : State) (f : MemSt → MemSt) : Backs s (s.modMem f) := ⟨rfl, rfl, rfl, rfl, rfl, rfl, rfl, Grows.of_eq rfl⟩
theorem backs_ftl (s : State) (f : FtlSt → FtlSt) : Backs s (s.modFtl f) := backs_mem _ _
theorem backs_setPage (s : State) (p : Nat) (x : Option PageSt) : Backs s (s.setPage p x) := ⟨rfl, rfl, rfl, rfl, rfl, rfl, rfl, Grows.of_eq rfl⟩
theorem backs_setObject (s : State) (p : Nat) (x : Option ObjectSt) : Backs s (s.setObject p x) := ⟨rfl, rfl, rfl, rfl, rfl, rfl, rfl, Grows.of_eq rfl⟩
theorem backs_writeMem (s : State) (a : Nat) (bs : List Byte) : Backs s (s.writeMem a bs) := by rw [State.writeMem_rest]; exact ⟨rfl, rfl, rfl, rfl, rfl, rfl, rfl, Grows.of_eq rfl⟩
theorem backs_touch (s : State) (ps : List Nat) : Backs s (s.touchPages ps) := by rw [State.touchPages_rest]; exact ⟨rfl, rfl, rfl, rfl, rfl, rfl, rfl, Grows.of_eq rfl⟩

theorem backs_calStore (s : State) (bs : List Byte) : Backs s (s.calStore bs) := by
  unfold State.calStore
  dsimp only
  repeat' split
  all_goals first | exact Backs.refl _ | exact ⟨rfl, rfl, rfl, rfl, rfl, rfl, rfl, Grows.of_eq rfl⟩

theorem backs_freeFrame (s : State) (f : Nat) : Backs s (s.freeFrame f) := by
  unfold State.freeFrame
  dsimp only
  have h := backs_mem s (fun m => { m with frames := m.frames.set 0 f 0 })
  generalize s.modMem (fun m => { m with frames := m.frames.set 0 f 0 }) = t at h ⊢
  split
  · unfold State.retireFrame
    dsimp only
    refine h.trans (Backs.trans ?_ (backs_report _ _ _))
    generalize decide (t.retiredFrames.length < 4096) = k
    have h2 := backs_mem t (fun m => { m with badFrames := m.badFrames.set 0 f (if k then 2 else 3) })
    generalize t.modMem (fun m => { m with badFrames := m.badFrames.set 0 f (if k then 2 else 3) }) = u at h2 ⊢
    split
    · exact h2.trans (backs_calStore _ _)
    · exact h2
  · exact h

theorem backs_dropObject (s : State) (b : Nat) (o : ObjectSt) : Backs s (s.dropObject b o) := by
  unfold State.dropObject
  dsimp only
  refine Backs.trans ?_ (backs_fold _ (fun s _ => backs_ftl s _) _ _)
  have h1 : ∀ (s : State) (p : Nat), Backs s (match s.page p with
      | some x => State.modMem ((match x.frame with
        | some f => s.freeFrame f
        | none => s).setPage p none) (fun m => { m with waiters := m.waiters.filter (fun w => w.page != p), queue := m.queue.filter (fun q => q.page != p) })
      | none => s) := by
    intro s p
    cases s.page p with
    | none => exact Backs.refl _
    | some x =>
      dsimp only
      refine Backs.trans (Backs.trans ?_ (backs_setPage _ p none)) (backs_mem _ _)
      cases x.frame with
      | none => exact Backs.refl _
      | some f => exact backs_freeFrame _ _
  have h2 := backs_fold _ h1 (o.pageList b) s
  have h3 := (h2.trans (backs_setObject _ b none)).trans (backs_mem _ (fun m => { m with bytes := m.bytes.clear (b * size2MiB) (o.pages * size2MiB) }))
  split
  · exact h3.trans (backs_ftl _ _)
  · exact h3

theorem backs_settle (s : State) (b : Nat) (o : ObjectSt) (h : s.object b = some o) (hp : ∀ p, o.freeing = some p → p.ring = none) : Backs s (s.settleFree b) := by
  unfold State.settleFree
  rw [h]
  dsimp only
  split
  · next p hf _ =>
    split
    · exact Backs.refl _
    · have hr := hp p hf
      unfold State.finishObject
      rw [hr]
      exact backs_dropObject _ _ _
  · exact Backs.refl _

theorem backs_freeOwned (s : State) (which : Nat → ObjectSt → Bool) : Backs s (s.freeOwned which) := by
  unfold State.freeOwned
  dsimp only
  refine backs_fold _ (fun s b => ?_) _ _
  cases h : s.object b with
  | none => exact Backs.refl _
  | some o =>
    dsimp only
    unfold State.freeObject
    have e : (s.setObject b (some { o with owner := .conductor })).object b = some { o with owner := .conductor } := by
      show SMap.get none (s.mem.objects.set none b _) b = _
      rw [SMap.get_set, if_pos rfl]
    rw [e]
    dsimp only
    refine ((backs_setObject s b _).trans (backs_setObject _ b _)).trans (backs_settle _ b { o with owner := .conductor, freeing := some ⟨none, 0, 0, 0⟩, removeName := false, syncing := if o.attr = 2 then some ⟨none, 0, 0, 0⟩ else none } ?_ ?_)
    · show SMap.get none (SMap.set none _ b _) b = _
      rw [SMap.get_set, if_pos rfl]
    · intro p hp
      cases hp; rfl

theorem backs_draw (s : State) : Backs s s.draw.2 := ⟨rfl, rfl, rfl, rfl, rfl, rfl, rfl, Grows.of_eq rfl⟩

theorem backs_programPage (s m : State) (p l : Nat) (h : s.programPage p l = some m) : Backs s m := by
  unfold State.programPage at h
  split at h
  · cases h
  · next f _ =>
    injection h with h
    have h1 := backs_mem s (fun m => { m with ftl := { f with store := f.store.paste (l * size2MiB) size2MiB (m.bytes.slice (p * size2MiB) size2MiB) } })
    rw [← h]
    refine h1.trans ?_
    generalize s.modMem _ = t
    unfold State.programWear
    dsimp only
    have h2 := backs_draw t
    generalize t.draw.2 = u at h2 ⊢
    split
    · refine h2.trans ?_
      split
      · exact (backs_ftl _ _).trans (backs_report _ _ _)
      · exact backs_ftl _ _
    · exact h2

theorem backs_evict (s : State) (v : Victim) : Backs s (s.evict v) := by
  unfold State.evict
  split
  · split
    · exact backs_setPage _ _ _
    · exact (backs_setPage _ _ _).trans (backs_freeFrame _ _)
  · exact Backs.refl _

theorem backs_modPage (s : State) (p : Nat) (f : PageSt → PageSt) : Backs s (s.modPage p f) := by
  unfold State.modPage
  split
  · exact backs_setPage _ _ _
  · exact Backs.refl _

theorem backs_frameOrEvict : ∀ (n : Nat) (s : State) (set : List Nat) (j f : Nat) (m : State), State.frameOrEvict n s set j = .ok (f, m) → Backs s m
  | 0, s, set, j, f, m, h => by unfold State.frameOrEvict at h; cases h
  | n + 1, s, set, j, f, m, h => by
    unfold State.frameOrEvict at h
    split at h
    · cases h; exact Backs.refl _
    · split at h
      · split at h <;> cases h
      · split at h
        · cases h
        · split at h
          · split at h
            · cases h
            · split at h
              · split at h
                · next s1 hs1 =>
                  exact ((backs_programPage _ _ _ _ hs1).trans (backs_modPage _ _ _)).trans ((backs_freeFrame _ _).trans (backs_frameOrEvict n _ set j f m h))
                · cases h
              · cases h
          · exact (backs_evict _ _).trans (backs_frameOrEvict n _ set j f m h)

theorem backs_arrive (s : State) (p f : Nat) : Backs s (s.arrive p f) := by
  unfold State.arrive
  exact (backs_mem _ _).trans (backs_modPage _ _ _)

theorem backs_pinPages (set : List Nat) (b : Nat) : ∀ (js : List Nat) (s m : State), State.pinPages set b js s = .ok m → Backs s m
  | [], s, m, h => by unfold State.pinPages at h; cases h; exact Backs.refl _
  | j :: js, s, m, h => by
    unfold State.pinPages at h
    split at h
    · next f s1 h1 =>
      refine (backs_frameOrEvict _ _ _ _ _ _ h1).trans (Backs.trans ?_ (backs_pinPages set b js _ m h))
      exact Backs.trans (Backs.trans (backs_mem _ _) (backs_setPage _ _ _)) (backs_arrive _ _ _)
    · cases h

theorem backs_alloc (s m : State) (o : ObjectSt) (b : Nat) (h0 : o.attr = 0) (h : s.allocObject o = .done b m) : Backs s m := by
  unfold State.allocObject at h
  dsimp only at h
  split at h
  · cases h
  · split at h
    · cases h
    · split at h
      · cases h
      · split at h
        · next b' hb s1 hs1 =>
          cases h
          exact (backs_setObject _ _ _).trans (backs_pinPages _ _ _ _ _ hs1)
        · cases h
        · cases h

theorem backs_allocSaves (j f n : Nat) : ∀ (ps done : List DiePlace) (s : State) (qs : List DiePlace) (m : State), State.allocSaves j f n done ps s = .ok qs m → Backs s m
  | [], done, s, qs, m, h => by unfold State.allocSaves at h; cases h; exact Backs.refl _
  | p :: ps, done, s, qs, m, h => by
    unfold State.allocSaves at h
    split at h
    · next b s1 h1 => exact (backs_alloc _ _ _ _ rfl h1).trans (backs_allocSaves j f n ps _ s1 qs m h)
    · cases h
    · cases h

theorem backs_abandonStreams (s : State) (j : Nat) : Backs s (s.abandonStreams j) := by
  unfold State.abandonStreams
  refine backs_fold _ (fun s p => ?_) _ _
  unfold State.closeStream State.streamStatus
  refine Backs.trans (b := s.setStream p.1 p.2.1 none) ⟨rfl, rfl, rfl, rfl, rfl, rfl, rfl, Grows.of_eq rfl⟩ (backs_writeMem _ _ _)

theorem backs_colAbandon (s : State) (j : Nat) : Backs s (s.colAbandon j) := by
  unfold State.colAbandon
  refine backs_fold _ (fun s c => ?_) _ _
  dsimp only
  split
  · exact ⟨rfl, rfl, rfl, rfl, rfl, rfl, rfl, Grows.of_eq rfl⟩
  · exact ⟨rfl, rfl, rfl, rfl, rfl, rfl, rfl, Grows.of_eq rfl⟩

theorem backs_modStack (s : State) (k : Nat) (f : StackSt → StackSt) : Backs s (s.modStack k f) := by
  unfold State.modStack State.setStack
  exact ⟨rfl, rfl, rfl, rfl, rfl, rfl, rfl, Grows.of_eq rfl⟩

theorem backs_dropCommands (s : State) (j : Nat) : Backs s (s.dropCommands j) := by
  unfold State.dropCommands
  generalize List.range 32 = l
  exact backs_fold (fun s k => s.modStack k (fun x => { x with queue := x.queue.filter (fun c => c.job != j) })) (fun s k => backs_modStack s k _) l s

/-- What releasing tiles leaves: it changes tiles and Dealers alone. -/
structure Releases (s m : State) : Prop where
  eq : m = { s with tiles := m.tiles, dealers := m.dealers }
  free : ∀ t, (s.tile t).hand = none → (s.tile t).run = .idle → (m.tile t).hand = none ∧ (m.tile t).run = .idle

theorem Releases.refl (s : State) : Releases s s := ⟨rfl, fun _ a b => ⟨a, b⟩⟩
theorem Releases.trans {a b c : State} (h : Releases a b) (k : Releases b c) : Releases a c :=
  ⟨by rw [k.eq, h.eq], fun t x y => by obtain ⟨p, q⟩ := h.free t x y; exact k.free t p q⟩

theorem modDealer_eq (s : State) (d : Nat) (f : DealerSt → DealerSt) : s.modDealer d f = { s with dealers := (s.modDealer d f).dealers } := rfl

theorem releases_tile (s : State) (t : Nat) : Releases s ((s.dropHolds t).modTile t TileSt.release)
    ∧ (((s.dropHolds t).modTile t TileSt.release).tile t).hand = none ∧ (((s.dropHolds t).modTile t TileSt.release).tile t).run = .idle := by
  have hd : s.dropHolds t = { s with dealers := (s.dropHolds t).dealers } := by
    unfold State.dropHolds
    exact modDealer_eq s _ _
  have ht : ∀ u, (s.dropHolds t).tile u = s.tile u := fun u => by rw [hd]; rfl
  generalize s.dropHolds t = z at hd ht ⊢
  refine ⟨⟨?_, fun u x y => ?_⟩, ?_, ?_⟩
  · unfold State.modTile State.setTile
    dsimp only
    rw [hd]
  · rw [State.tile_modTile]
    split
    · exact ⟨rfl, rfl⟩
    · rw [ht]; exact ⟨x, y⟩
  · rw [State.tile_modTile, if_pos rfl]; rfl
  · rw [State.tile_modTile, if_pos rfl]; rfl

theorem releases_die (d : Nat) : ∀ (is : List Nat) (s : State), let m := is.foldl (fun (s : State) i => (s.dropHolds (12 * d + i)).modTile (12 * d + i) TileSt.release) s
    Releases s m ∧ ∀ i ∈ is, (m.tile (12 * d + i)).hand = none ∧ (m.tile (12 * d + i)).run = .idle
  | [], s => ⟨Releases.refl s, fun _ h => absurd h (by simp)⟩
  | i :: is, s => by
    obtain ⟨a, b, c⟩ := releases_tile s (12 * d + i)
    obtain ⟨e, f⟩ := releases_die d is ((s.dropHolds (12 * d + i)).modTile (12 * d + i) TileSt.release)
    refine ⟨a.trans e, fun k hk => ?_⟩
    rw [List.foldl_cons]
    rcases List.mem_cons.1 hk with g | g
    · rw [g]; exact e.free _ b c
    · exact f k g

theorem releases_all (j : Nat) : ∀ (ps : List DiePlace) (s : State), Releases s (s.releaseTiles j ps)
    ∧ ∀ p ∈ ps, ∀ i ∈ maskBits p.mask 12, ((s.releaseTiles j ps).tile (12 * p.die + i)).hand = none ∧ ((s.releaseTiles j ps).tile (12 * p.die + i)).run = .idle
  | [], s => ⟨Releases.refl s, fun _ h => absurd h (by simp)⟩
  | p :: ps, s => by
    obtain ⟨t, ht, h1, h2⟩ : ∃ t : State, s.releaseTiles j (p :: ps) = t.releaseTiles j ps ∧ Releases s t ∧ ∀ i ∈ maskBits p.mask 12, (t.tile (12 * p.die + i)).hand = none ∧ (t.tile (12 * p.die + i)).run = .idle := by
      refine ⟨_, rfl, ?_⟩
      obtain ⟨a, b⟩ := releases_die p.die (maskBits p.mask 12) s
      dsimp only
      generalize (maskBits p.mask 12).foldl _ s = u at a b ⊢
      split
      · next q _ => exact ⟨a.trans ⟨rfl, fun _ x y => ⟨x, y⟩⟩, b⟩
      · exact ⟨a, b⟩
    obtain ⟨e, f⟩ := releases_all j ps t
    rw [ht]
    refine ⟨h1.trans e, fun q hq i hi => ?_⟩
    rcases List.mem_cons.1 hq with g | g
    · rw [g] at hi ⊢
      obtain ⟨x, y⟩ := h2 i hi
      exact e.free _ x y
    · exact f q g i hi

theorem maskBits_mem (m n i : Nat) (hi : i < n) (h : bitOf m i = true) : i ∈ maskBits m n := by
  unfold maskBits
  rw [List.mem_filter, List.mem_range]
  exact ⟨hi, h⟩

/-! Placing again. -/

theorem fold_id {α : Type} (f : State → α → State) (s : State) : ∀ (l : List α), (∀ a ∈ l, f s a = s) → l.foldl f s = s
  | [], _ => rfl
  | a :: l, h => by rw [List.foldl_cons, h a List.mem_cons_self, fold_id f s l (fun b hb => h b (List.mem_cons_of_mem _ hb))]

theorem placeFirst_none (s : State) : ∀ (l : List Nat), (∀ j ∈ l, s.tryPlace j = (none, s)) → State.placeFirst l s = (false, s)
  | [], _ => rfl
  | a :: l, h => by
    unfold State.placeFirst
    rw [h a List.mem_cons_self]
    exact placeFirst_none s l (fun b hb => h b (List.mem_cons_of_mem _ hb))

/-- While a change of grade is awaited nothing is placed. -/
theorem reapply_target (s : State) (h : s.power.target.isSome = true) : s.reapply = s := by
  have h1 : s.startReady = s := by
    unfold State.startReady
    dsimp only
    refine fold_id _ s _ (fun j _ => ?_)
    cases s.job j with
    | none => rfl
    | some x =>
      dsimp only
      rw [if_neg]
      cases ht : s.power.target with
      | none => rw [ht] at h; exact absurd h (by decide)
      | some g => simp
  have h2 : ∀ j, s.tryPlace j = (none, s) := by
    intro j
    unfold State.tryPlace
    cases s.job j with
    | none => rfl
    | some x =>
      dsimp only
      rw [if_pos (Or.inr h)]
  unfold State.reapply
  dsimp only
  rw [h1]
  unfold State.placeAll
  rw [placeFirst_none s _ (fun j _ => h2 j)]
  dsimp only
  unfold State.wantGrade
  rw [if_pos (by rw [h]; simp)]

def Idle (s : State) : Prop := s.power.target.isSome = true ∨ ∀ q ∈ s.sched.jobs, ∀ x, q.2 = some x → x.phase ≠ .waiting ∧ x.phase ≠ .saved

theorem reapply_id (s : State) (h : Idle s) : s.reapply = s := by
  rcases h with h | h
  · exact reapply_target s h
  · exact reapply_idle s h

def older (x : JobSt) : JobSt := if x.desc.cls = 0 ∧ (x.phase = .waiting ∨ x.phase = .saved) then { x with age := x.age + 1 } else x

theorem older_phase (x : JobSt) : (older x).phase = x.phase := by
  unfold older; split <;> rfl

theorem find_map (f : Option JobSt → Option JobSt) (k : Nat) : ∀ (l : List (Nat × Option JobSt)),
    (l.map (fun p => (p.1, f p.2))).find? (fun p => p.1 == k) = (l.find? (fun p => p.1 == k)).map (fun p => (p.1, f p.2))
  | [] => rfl
  | a :: l => by
    rw [List.map_cons, List.find?_cons, List.find?_cons]
    dsimp only
    cases h : (a.1 == k)
    · exact find_map f k l
    · rfl

theorem job_ageJobs (s : State) (k : Nat) : s.ageJobs.job k = (s.job k).map older := by
  unfold State.ageJobs State.job SMap.get
  dsimp only
  have e : (fun (p : Nat × Option JobSt) => (p.1, p.2.map (fun x => if x.desc.cls == 0 && (x.phase == .waiting || x.phase == .saved) then { x with age := x.age + 1 } else x)))
      = fun p => (p.1, (fun o => Option.map older o) p.2) := by
    funext p
    dsimp only
    congr 1
    congr 1
    funext x
    unfold older
    simp
  rw [e, find_map]
  cases s.sched.jobs.find? (fun p => p.1 == k) <;> rfl

theorem idle_ageJobs (s : State) (h : Idle s) : Idle s.ageJobs := by
  rcases h with h | h
  · exact Or.inl h
  · refine Or.inr (fun q hq x hx => ?_)
    unfold State.ageJobs at hq
    dsimp only at hq
    obtain ⟨p, hp, rfl⟩ := List.mem_map.1 hq
    dsimp only at hx
    cases hy : p.2 with
    | none => rw [hy] at hx; cases hx
    | some y =>
      have := h p hp y hy
      rw [hy] at hx
      simp only [Option.map_some, Option.some.injEq] at hx
      rw [← hx]
      split
      · exact this
      · exact this

def IdleBut (s : State) (j : Nat) : Prop := s.power.target.isSome = true ∨ ∀ q ∈ s.sched.jobs, q.1 ≠ j → ∀ x, q.2 = some x → x.phase ≠ .waiting ∧ x.phase ≠ .saved

theorem mem_setNone (m : SMap (Option JobSt)) (j : Nat) (q : Nat × Option JobSt) (h : q ∈ SMap.set none m j none) : q ∈ m ∧ q.1 ≠ j := by
  unfold SMap.set SMap.splice at h
  rw [if_pos rfl, List.append_nil, List.mem_append, List.mem_filter, List.mem_filter, decide_eq_true_eq, decide_eq_true_eq] at h
  rcases h with h | h
  · exact ⟨h.1, by omega⟩
  · exact ⟨h.1, by omega⟩

theorem idle_setNone (s : State) (j : Nat) (h : IdleBut s j) : Idle (s.setJob j none) := by
  rcases h with h | h
  · exact Or.inl h
  · refine Or.inr (fun q hq x hx => ?_)
    obtain ⟨a, b⟩ := mem_setNone _ _ _ hq
    exact h q a b x hx

/-- A ring's completion as its 32 bytes (R402). -/
def Wrote (s m : State) (r kind : Nat) (c : Code) (job : Nat) (tag : W64) (head pre : Nat) : Prop :=
  let x := s.ring r
  let n := x.cqTail.toNat
  m.locRead (ringLoc x.cq) (ringBase x.cq + 32 * (n % 2 ^ (6 + bitsOf x.cfg.toNat 7 4))) 32
    = natLe 2 0x209A ++ natLe 1 (decide (n / 2 ^ (6 + bitsOf x.cfg.toNat 7 4) % 2 = 0)).toNat ++ natLe 1 kind ++ natLe 2 c.toNat ++ natLe 2 job
      ++ natLe 8 tag.toNat ++ natLe 4 head ++ natLe 4 (pre % 2 ^ 32) ++ natLe 8 0
  ∧ (let f := x.owner.toNat; let v := bitsOf x.cfg.toNat 26 16; let k := f * 2048 + v
     if s.sched.msix.get 0 k = 1 then m.outbox = s.outbox ++ [.msix f v] else m.outbox = s.outbox ∧ m.sched.msix.get 0 k = 2)

theorem wrote_of (s t : State) (r kind : Nat) (c : Code) (job : Nat) (tag : W64) (pre : Nat) (y : RingSt)
    (ha : (s.ring r).active = true) (hc : (s.ring r).closing = false) (h1 : t.ring r = y)
    (e1 : y.active = (s.ring r).active) (e2 : y.closing = (s.ring r).closing) (e3 : y.cq = (s.ring r).cq) (e4 : y.cqTail = (s.ring r).cqTail) (e5 : y.cfg = (s.ring r).cfg) (e6 : y.owner = (s.ring r).owner)
    (h2 : t.outbox = s.outbox) (h3 : t.sched.msix = s.sched.msix) (m : State) (hm : m = t.complete r { kind := kind, status := c, job := job, tag := tag, preempts := pre }) :
    Wrote s m r kind c job tag y.sqHead.toNat pre ∧ m.ring r = { y with cqTail := y.cqTail + 1, owed := y.owed - 1 } ∧ (∀ q, q ≠ r → m.ring q = t.ring q) ∧ RingRest t m ∧ m.logs = t.logs
      ∧ ∀ j, m.job j = t.job j := by
  obtain ⟨c1, c2, c3, c4, c5, c6, c7⟩ := complete_wrote t r { kind := kind, status := c, job := job, tag := tag, preempts := pre } (by rw [h1, e1]; exact ha) (by rw [h1, e2]; exact hc)
  dsimp only at c1 c3 c4
  rw [← hm] at c1 c2 c3 c4 c5 c6 c7
  rw [h1] at c1 c3 c4
  rw [h3, h2] at c4
  refine ⟨⟨?_, ?_⟩, c1, c2, c5, c6, c7⟩
  · rw [e3, e4] at c3
    rw [show y.cqSize = (s.ring r).cqSize by unfold RingSt.cqSize; rw [e5]] at c3
    refine c3.trans ?_
    unfold Completion.bytes
    dsimp only
    have hb : ∀ n, (n % 2 == 0) = decide (n % 2 = 0) := fun n => rfl
    rw [hb]
    unfold RingSt.cqSize
    rfl
  · rw [show y.func = (s.ring r).owner.toNat by unfold RingSt.func; rw [e6], show y.vector = bitsOf (s.ring r).cfg.toNat 26 16 by unfold RingSt.vector; rw [e5]] at c4
    exact c4

theorem settle_id (s : State) (r : Nat) (h : (s.ring r).closing = false) : s.settleRing r = s := by
  unfold State.settleRing
  dsimp only
  rw [if_neg (by simp [h])]

/-- What the end of a job leaves up to its completion. -/
structure Drops (s m : State) (j : Nat) (x : JobSt) (c : Code) : Prop where
  gone : m.job j = none
  others : ∀ k, k ≠ j → m.job k = if c = 0 then (s.job k).map older else s.job k
  ante : m.sched.ante = if s.sched.ante = j then 0 else s.sched.ante
  ring : m.ring x.ring = { s.ring x.ring with completed := if c = 0 then count32 (s.ring x.ring).completed else (s.ring x.ring).completed, faulted := if c = 0 then (s.ring x.ring).faulted else count32 (s.ring x.ring).faulted }
  rings : ∀ q, q ≠ x.ring → m.ring q = s.ring q
  outbox : m.outbox = s.outbox
  msix : m.sched.msix = s.sched.msix
  idle : Idle m
  released : x.phase ≠ .waiting → x.phase ≠ .saved → ∀ p ∈ x.places, ∀ i, i < 12 → bitOf p.mask i = true → (m.tile (12 * p.die + i)).hand = none ∧ (m.tile (12 * p.die + i)).run = .idle

theorem job_setJob' (s : State) (j k : Nat) (o : Option JobSt) : (s.setJob j o).job k = if k = j then o else s.job k := by
  show SMap.get none (SMap.set none s.sched.jobs j o) k = _
  rw [SMap.get_set]; rfl

theorem job_modRing (s : State) (r k : Nat) (f : RingSt → RingSt) : (s.modRing r f).job k = s.job k := rfl

/-- Between the release of a job's tiles and its completion. -/
theorem drops_tail (s1 s3 : State) (j : Nat) (x : JobSt) (c : Code) (col : ColSt) (mem : MemSt) (h : IdleBut s1 j) (hs : s3.sched = s1.sched) (hp : s3.power = s1.power) (ho : s3.outbox = s1.outbox)
    (hr : x.phase ≠ .waiting → x.phase ≠ .saved → ∀ p ∈ x.places, ∀ i, i < 12 → bitOf p.mask i = true → (s3.tile (12 * p.die + i)).hand = none ∧ (s3.tile (12 * p.die + i)).run = .idle) :
    let s4 := { s3 with mem := mem, col := col }
    let s5 := { s4 with sched := { s4.sched with ante := if s4.sched.ante = j then 0 else s4.sched.ante } }
    let s6 := (s5.setJob j none).modRing x.ring (fun r => if c = 0 then { r with completed := count32 r.completed } else { r with faulted := count32 r.faulted })
    Drops s1 (if c = 0 then s6.ageJobs else s6) j x c := by
  intro s4 s5 s6
  have hj : ∀ k, s5.job k = s1.job k := fun k => by show SMap.get none s3.sched.jobs k = _; rw [hs]; rfl
  have hg : ∀ q, s5.ring q = s1.ring q := fun q => by show SMap.get .init s3.sched.rings q = _; rw [hs]; rfl
  have j6 : ∀ k, s6.job k = if k = j then none else s1.job k := fun k => by
    show ((s5.setJob j none).modRing x.ring _).job k = _
    rw [job_modRing, job_setJob', hj]
  have r6 : ∀ q, s6.ring q = if q = x.ring then (if c = 0 then { s1.ring x.ring with completed := count32 (s1.ring x.ring).completed } else { s1.ring x.ring with faulted := count32 (s1.ring x.ring).faulted }) else s1.ring q := fun q => by
    show ((s5.setJob j none).modRing x.ring _).ring q = _
    unfold State.modRing
    rw [State.ring_setRing]
    have : ∀ q, (s5.setJob j none).ring q = s1.ring q := fun q => hg q
    rw [this, this]
  have a6 : s6.sched.ante = if s1.sched.ante = j then 0 else s1.sched.ante := by show (if s3.sched.ante = j then 0 else s3.sched.ante) = _; rw [hs]
  have x6 : s6.sched.msix = s1.sched.msix := by show s3.sched.msix = _; rw [hs]
  have o6 : s6.outbox = s1.outbox := ho
  have t6 : s6.tiles = s3.tiles := rfl
  have i6 : Idle s6 := by
    have : Idle (s5.setJob j none) := by
      refine idle_setNone s5 j ?_
      rcases h with h | h
      · left; show s3.power.target.isSome = true; rw [hp]; exact h
      · right; show ∀ q ∈ s3.sched.jobs, _; rw [hs]; exact h
    rcases this with t | t
    · exact Or.inl t
    · exact Or.inr t
  clear_value s6
  have tt : ∀ t, s6.tile t = s3.tile t := fun t => by unfold State.tile; rw [t6]
  by_cases hc : c = 0
  · rw [if_pos hc]
    refine ⟨?_, fun k hk => ?_, a6, ?_, fun q hq => ?_, o6, x6, idle_ageJobs _ i6, fun w1 w2 p hp i hi hb => ?_⟩
    · rw [job_ageJobs, j6, if_pos rfl]; rfl
    · rw [job_ageJobs, j6, if_neg hk, if_pos hc]
    · show s6.ring _ = _
      rw [r6, if_pos rfl, if_pos hc, if_pos hc, if_pos hc]
    · show s6.ring _ = _
      rw [r6, if_neg hq]
    · show (s6.tile _).hand = none ∧ (s6.tile _).run = .idle
      rw [tt]; exact hr w1 w2 p hp i hi hb
  · rw [if_neg hc]
    refine ⟨?_, fun k hk => ?_, a6, ?_, fun q hq => ?_, o6, x6, i6, fun w1 w2 p hp i hi hb => ?_⟩
    · rw [j6, if_pos rfl]
    · rw [j6, if_neg hk, if_neg hc]
    · rw [r6, if_pos rfl, if_neg hc, if_neg hc, if_neg hc]
    · rw [r6, if_neg hq]
    · rw [tt]; exact hr w1 w2 p hp i hi hb

def JobEnded (s m : State) (j : Nat) (x : JobSt) (c : Code) : Prop :=
  let y := s.ring x.ring
  m.job j = none ∧ (∀ k, k ≠ j → m.job k = if c = 0 then (s.job k).map older else s.job k) ∧ m.sched.ante = (if s.sched.ante = j then 0 else s.sched.ante)
    ∧ (x.phase ≠ .waiting → x.phase ≠ .saved → ∀ p ∈ x.places, ∀ i, i < 12 → bitOf p.mask i = true → (m.tile (12 * p.die + i)).hand = none ∧ (m.tile (12 * p.die + i)).run = .idle)
    ∧ m.ring x.ring = { y with cqTail := y.cqTail + 1, owed := y.owed - 1, completed := if c = 0 then count32 y.completed else y.completed, faulted := if c = 0 then y.faulted else count32 y.faulted }
    ∧ (∀ q, q ≠ x.ring → m.ring q = s.ring q) ∧ Wrote s m x.ring 0x90 c j x.tag y.sqHead.toNat x.preempts

theorem complete_sched (s : State) (r : Nat) (c : Completion) : (s.complete r c).sched.ante = s.sched.ante ∧ (s.complete r c).sched.jobs = s.sched.jobs ∧ (s.complete r c).power = s.power := by
  unfold State.complete
  dsimp only
  split
  · exact ⟨rfl, rfl, rfl⟩
  · obtain ⟨w1, w2, w3, w4⟩ := locWrite_rest s (ringLoc (s.ring r).cq) (ringBase (s.ring r).cq + 32 * ((s.ring r).cqTail.toNat % (s.ring r).cqSize)) (c.bytes ((s.ring r).cqTail.toNat / (s.ring r).cqSize % 2 == 0) (s.ring r).sqHead)
    generalize s.locWrite _ _ _ = t at *
    unfold State.msix
    dsimp only
    split
    · exact ⟨by show t.sched.ante = _; rw [w2], by show t.sched.jobs = _; rw [w2], by show t.power = _; exact w1.2.2.2.2.1⟩
    · exact ⟨by show t.sched.ante = _; rw [w2], by show t.sched.jobs = _; rw [w2], by show t.power = _; exact w1.2.2.2.2.1⟩

theorem endJob_spec (s : State) (j : Nat) (x : JobSt) (c : Code) (ha : (s.ring x.ring).active = true) (hc : (s.ring x.ring).closing = false) (h : IdleBut s j) : JobEnded s (s.endJob j x c) j x c := by
  obtain ⟨s1, h1, b1⟩ : ∃ s1 : State, ((s.abandonStreams j).colAbandon j).dropCommands j = s1 ∧ Backs s s1 :=
    ⟨_, rfl, ((backs_abandonStreams s j).trans (backs_colAbandon _ j)).trans (backs_dropCommands _ j)⟩
  obtain ⟨s2, h2, e2, f2⟩ : ∃ s2 : State, (if x.phase = .saved ∨ x.phase = .waiting then s1 else s1.releaseTiles j x.places) = s2 ∧ Releases s1 s2
      ∧ (x.phase ≠ .waiting → x.phase ≠ .saved → ∀ p ∈ x.places, ∀ i ∈ maskBits p.mask 12, (s2.tile (12 * p.die + i)).hand = none ∧ (s2.tile (12 * p.die + i)).run = .idle) := by
    obtain ⟨q1, q2⟩ := releases_all j x.places s1
    by_cases g : x.phase = .saved ∨ x.phase = .waiting
    · rw [if_pos g]
      exact ⟨_, rfl, Releases.refl _, fun k1 k2 => (g.elim k2 k1).elim⟩
    · rw [if_neg g]
      exact ⟨_, rfl, q1, fun _ _ => q2⟩
  obtain ⟨s3, h3, b3⟩ : ∃ s3 : State, s2.freeOwned (fun _ o => o.owner == .job j) = s3 ∧ Backs s2 s3 := ⟨_, rfl, backs_freeOwned _ _⟩
  have hs : s3.sched = s1.sched := by rw [b3.sched, e2.eq]
  have hp : s3.power = s1.power := by rw [b3.power, e2.eq]
  have ho : s3.outbox = s1.outbox := by rw [b3.outbox, e2.eq]
  have hi : IdleBut s1 j := by unfold IdleBut; rw [b1.sched, b1.power]; exact h
  have D := drops_tail s1 s3 j x c { s3.col with buckets := s3.col.buckets.filter (fun b => b.job != j), steps := s3.col.steps.set 0 j 0 } { s3.mem with waiters := s3.mem.waiters.filter (fun w => w.job != j) }
    hi hs hp ho (fun w1 w2 p hp i hi hb => by rw [b3.tile]; exact f2 w1 w2 p hp i (maskBits_mem _ _ _ hi hb))
  unfold State.endJob
  dsimp only
  rw [h1, h2, h3]
  dsimp only at D
  revert D
  generalize (if c = 0 then State.ageJobs _ else _) = z
  intro D
  have zr : z.ring x.ring = { s.ring x.ring with completed := if c = 0 then count32 (s.ring x.ring).completed else (s.ring x.ring).completed, faulted := if c = 0 then (s.ring x.ring).faulted else count32 (s.ring x.ring).faulted } := by
    rw [D.ring, b1.ring]
  obtain ⟨c1, c2, c3, c4, c5, c6⟩ := wrote_of s z x.ring 0x90 c j x.tag x.preempts _ ha hc zr rfl rfl rfl rfl rfl rfl (by rw [D.outbox, b1.outbox]) (by rw [D.msix, b1.sched]) _ rfl
  obtain ⟨c7, c8, c9⟩ := complete_sched z x.ring { kind := 0x90, status := c, job := j, tag := x.tag, preempts := x.preempts }
  have ci : Idle (z.complete x.ring { kind := 0x90, status := c, job := j, tag := x.tag, preempts := x.preempts }) := by
    unfold Idle; rw [c8, c9]; exact D.idle
  generalize z.complete x.ring { kind := 0x90, status := c, job := j, tag := x.tag, preempts := x.preempts } = m at *
  rw [settle_id m x.ring (by rw [c2]; exact hc), reapply_id m ci]
  refine ⟨(c6 j).trans D.gone, fun k hk => ?_, ?_, fun w1 w2 p hp i hi hb => ?_, ?_, fun q hq => ?_, c1⟩
  · rw [c6, D.others k hk, b1.job]
  · rw [c7, D.ante, b1.sched]
  · have : ∀ t, m.tile t = z.tile t := fun t => by unfold State.tile; rw [c4.1]
    rw [this]; exact D.released w1 w2 p hp i hi hb
  · rw [c2]
  · rw [c3 q hq, D.rings q hq, b1.ring]

theorem boundary_keeps (x : TileSt) : x.boundary.dmas = x.dmas ∧ x.boundary.appends = x.appends := by
  unfold TileSt.boundary
  dsimp only
  split <;> exact ⟨rfl, rfl⟩

theorem stop_fold : ∀ (l : List Nat) (s : State), let m := l.foldl (fun s t => s.modTile t TileSt.stopEnding) s
    m = { s with tiles := m.tiles } ∧ (∀ t, t ∉ l → m.tile t = s.tile t) ∧ (∀ t ∈ l, ∀ d ∈ (m.tile t).dmas, d.waiting = false)
      ∧ ∀ t, ((m.tile t).dmas.any (fun d => !d.waiting) || !(m.tile t).appends.isEmpty) = ((s.tile t).dmas.any (fun d => !d.waiting) || !(s.tile t).appends.isEmpty)
  | [], s => ⟨rfl, fun _ _ => rfl, fun t h => absurd h (by simp), fun _ => rfl⟩
  | a :: l, s => by
    obtain ⟨h1, h2, h3, h4⟩ := stop_fold l (s.modTile a TileSt.stopEnding)
    dsimp only
    rw [List.foldl_cons]
    generalize l.foldl (fun s t => s.modTile t TileSt.stopEnding) (s.modTile a TileSt.stopEnding) = m at *
    refine ⟨by rw [h1]; rfl, fun t ht => ?_, fun t ht d hd => ?_, fun t => ?_⟩
    · rw [h2 t (fun g => ht (List.mem_cons_of_mem _ g)), State.tile_modTile, if_neg (fun g => ht (by rw [g]; exact List.mem_cons_self))]
    · by_cases g : t ∈ l
      · exact h3 t g d hd
      · have : t = a := by rcases List.mem_cons.1 ht with k | k; exacts [k, absurd k g]
        rw [h2 t g, State.tile_modTile, if_pos this] at hd
        unfold TileSt.stopEnding at hd
        dsimp only at hd
        have := (List.mem_filter.1 hd).2
        simpa using this
    · rw [h4 t, State.tile_modTile]
      split
      · next g =>
        rw [← g]
        unfold TileSt.stopEnding
        dsimp only
        rw [(boundary_keeps _).1, (boundary_keeps _).2, List.any_filter]
        congr 1
        congr 1
        funext d
        simp
      · rfl

theorem colMember_id (s : State) (j : Nat) (h : ∀ n : Chan, ∀ y, (s.chan n).run = some y → y.job ≠ j) : s.colMemberFault j = s := by
  unfold State.colMemberFault
  refine fold_id _ s _ (fun c hc => ?_)
  have hlt : c < 16 := List.mem_range.1 hc
  cases g : (s.chan c).run with
  | none => rfl
  | some y =>
    dsimp only
    rw [if_neg (h ⟨c, hlt⟩ y g)]

theorem jobFault_running (s : State) (j : Nat) (x : JobSt) (c : Code) (hx : s.job j = some x) (hf : x.fault = some c) (hp : x.phase = .running) (z : JobSt) (hz : z = { x with phase := .ending }) :
    jobFault j s = (
        let s1 := x.tiles.foldl (fun s t => s.modTile t TileSt.stopEnding) (s.setJob j (some z))
        let s2 := (s1.colMemberFault j).dropCommands j
        match s2.job j with
        | some y => if s2.inFlight y then s2 else s2.endJob j y c
        | none => s2) := by
  unfold jobFault
  simp only [hx]
  rw [← hz]
  simp only [hf, hp]
  all_goals
    generalize State.dropCommands _ j = s2
    cases s2.job j <;> rfl

theorem jobFault_spec (s : State) (j : Nat) (x : JobSt) (hx : s.job j = some x) :
    (x.fault = none ∨ x.phase = .saving ∨ (x.phase = .ending ∧ s.inFlight x = true) → jobFault j s = s)
    ∧ (∀ c, x.fault = some c → x.phase = .running → (∀ n : Chan, ∀ y, (s.chan n).run = some y → y.job ≠ j) → s.inFlight x = true →
        let m := jobFault j s
        m.job j = some { x with phase := .ending } ∧ (∀ k, k ≠ j → m.job k = s.job k) ∧ (∀ t ∈ x.tiles, ∀ d ∈ (m.tile t).dmas, d.waiting = false) ∧ ∀ t, t ∉ x.tiles → m.tile t = s.tile t)
    ∧ (∀ c, x.fault = some c → x.phase ≠ .saving → (∀ n : Chan, ∀ y, (s.chan n).run = some y → y.job ≠ j) → (x.phase = .running ∨ x.phase = .ending → s.inFlight x = false) →
        (s.ring x.ring).active = true → (s.ring x.ring).closing = false → IdleBut s j → JobEnded s (jobFault j s) j x c) := by
  have key : ∀ c, x.fault = some c → x.phase = .running → (∀ n : Chan, ∀ y, (s.chan n).run = some y → y.job ≠ j) →
      ∃ s2, jobFault j s = (if s2.inFlight { x with phase := .ending } then s2 else s2.endJob j { x with phase := .ending } c) ∧ s2.inFlight { x with phase := .ending } = s.inFlight x
        ∧ s2.job j = some { x with phase := .ending } ∧ (∀ k, k ≠ j → s2.job k = s.job k) ∧ (∀ t ∈ x.tiles, ∀ d ∈ (s2.tile t).dmas, d.waiting = false) ∧ (∀ t, t ∉ x.tiles → s2.tile t = s.tile t)
        ∧ s2.sched = { s.sched with jobs := s.sched.jobs.set none j (some { x with phase := .ending }) } ∧ s2.power = s.power ∧ s2.outbox = s.outbox := by
    intro c hf hp hn
    obtain ⟨p1, p2, p3, p4⟩ := stop_fold x.tiles (s.setJob j (some { x with phase := .ending }))
    rw [jobFault_running s j x c hx hf hp _ rfl]
    dsimp only
    generalize x.tiles.foldl (fun s t => s.modTile t TileSt.stopEnding) (s.setJob j (some { x with phase := .ending })) = s1 at *
    rw [colMember_id s1 j (by rw [p1]; exact hn)]
    have b := backs_dropCommands s1 j
    generalize s1.dropCommands j = s2 at *
    have jj : ∀ k, s2.job k = if k = j then some { x with phase := .ending } else s.job k := fun k => by
      rw [b.job, p1]
      exact job_setJob' s j k _
    have hs : s2.sched = { s.sched with jobs := s.sched.jobs.set none j (some { x with phase := .ending }) } := by rw [b.sched, p1]; rfl
    refine ⟨s2, ?_, ?_, ?_, fun k hk => ?_, fun t ht => ?_, fun t ht => ?_, hs, ?_, ?_⟩
    · have e : s2.job j = some { x with phase := .ending } := by rw [jj, if_pos rfl]
      rw [e]
    · unfold State.inFlight
      show List.any x.tiles _ = _
      congr 1
      funext t
      rw [b.tile]
      exact p4 t
    · rw [jj, if_pos rfl]
    · rw [jj, if_neg hk]
    · rw [b.tile]; exact p3 t ht
    · rw [b.tile]; exact p2 t ht
    · rw [b.power, p1]; rfl
    · rw [b.outbox, p1]; rfl
  refine ⟨fun h => ?_, fun c hf hp hn hi => ?_, fun c hf hs hn hi ha hc hb => ?_⟩
  · unfold jobFault
    rw [hx]
    dsimp only
    cases hf : x.fault with
    | none => rfl
    | some c =>
      dsimp only
      rcases h with h | h | h
      · rw [hf] at h; cases h
      · rw [h]
      · rw [h.1]
        dsimp only
        rw [if_pos h.2]
  · obtain ⟨s2, e, f, g1, g2, g3, g4, -⟩ := key c hf hp hn
    dsimp only
    rw [e, if_pos (f.trans hi)]
    exact ⟨g1, g2, g3, g4⟩
  · by_cases hp : x.phase = .running
    · obtain ⟨s2, e, f, g1, g2, g3, g4, g5, g6, g7⟩ := key c hf hp hn
      rw [e, if_neg (by rw [f, hi (Or.inl hp)]; decide)]
      have hr : ∀ q, s2.ring q = s.ring q := fun q => by unfold State.ring; rw [g5]
      have E := endJob_spec s2 j { x with phase := .ending } c (by rw [hr]; exact ha) (by rw [hr]; exact hc) (by
        rcases hb with hb | hb
        · left; rw [g6]; exact hb
        · right
          intro q hq hne y hy
          rw [g5] at hq
          have : q ∈ s.sched.jobs := by
            revert hq
            show q ∈ SMap.set none s.sched.jobs j _ → _
            unfold SMap.set SMap.splice
            rw [if_neg (by simp)]
            simp only [List.mem_append, List.mem_filter, List.mem_singleton]
            rintro ((h | h) | h)
            · exact h.1
            · rw [h] at hne; exact absurd rfl hne
            · exact h.1
          exact hb q this hne y hy)
      obtain ⟨d1, d2, d3, d4, d5, d6, d7⟩ := E
      dsimp only at d3 d4 d5 d6 d7
      have ea : s2.sched.ante = s.sched.ante := by rw [g5]
      rw [hr] at d5 d7
      rw [ea] at d3
      refine ⟨d1, fun k hk => by rw [d2 k hk, g2 k hk], d3, fun _ _ => d4 (fun h => by cases h) (fun h => by cases h), d5, fun q hq => (d6 q hq).trans (hr q), ?_⟩
      obtain ⟨w1, w2⟩ := d7
      rw [hr] at w1 w2
      rw [g5, g7] at w2
      exact ⟨w1, w2⟩
    · have e : jobFault j s = s.endJob j x c := by
        unfold jobFault
        rw [hx]
        dsimp only
        rw [hf]
        dsimp only
        cases hq : x.phase with
        | saving => exact absurd hq hs
        | running => exact absurd hq hp
        | ending =>
          dsimp only
          rw [if_neg]
          rw [hi (Or.inr hq)]; decide
        | waiting => dsimp only; rw [colMember_id s j hn]
        | saved => dsimp only; rw [colMember_id s j hn]
      rw [e]
      exact endJob_spec s j x c ha hc hb

theorem summary_id (s : State) (t : Nat) (h : (s.tile t).hand = none ∨ (s.tile t).regs.sums.blocks = 0) : s.handSummary t false = s := by
  unfold State.handSummary
  dsimp only
  rcases h with h | h
  · rw [h]
  · cases (s.tile t).hand with
    | none => rfl
    | some y => dsimp only; rw [if_pos h, if_neg (by simp)]

/-- What the save of a die leaves of a job and of the rest. -/
structure Saves (s m : State) (j : Nat) (x : JobSt) : Prop where
  tiles : m.tiles = s.tiles
  dealers : m.dealers = s.dealers
  power : m.power = s.power
  grows : Grows s m
  mine : ∀ ts qs, s.job j = some { x with savedTiles := ts, savedQueues := qs } → ∃ ts qs, m.job j = some { x with savedTiles := ts, savedQueues := qs }
  others : ∀ k, k ≠ j → m.job k = s.job k

theorem Saves.trans {a b c : State} {j : Nat} {x : JobSt} (h : Saves a b j x) (k : Saves b c j x) : Saves a c j x :=
  ⟨k.tiles.trans h.tiles, k.dealers.trans h.dealers, k.power.trans h.power, h.grows.trans k.grows, fun ts qs e => by obtain ⟨t2, q2, e2⟩ := h.mine ts qs e; exact k.mine _ _ e2,
    fun n hn => (k.others n hn).trans (h.others n hn)⟩

theorem Saves.of_backs {s m : State} (h : Backs s m) (j : Nat) (x : JobSt) : Saves s m j x :=
  ⟨h.tiles, h.dealers, h.power, h.grows, fun ts qs e => ⟨ts, qs, (h.job j).trans e⟩, fun k _ => h.job k⟩

theorem saves_modJob (s : State) (j : Nat) (x : JobSt) (f : JobSt → JobSt) (h : ∀ ts qs, ∃ ts' qs', f { x with savedTiles := ts, savedQueues := qs } = { x with savedTiles := ts', savedQueues := qs' }) : Saves s (s.modJob j f) j x := by
  unfold State.modJob
  cases e : s.job j with
  | none => exact ⟨rfl, rfl, rfl, Grows.of_eq rfl, fun ts qs g => (by rw [e] at g; cases g), fun _ _ => rfl⟩
  | some y =>
    refine ⟨rfl, rfl, rfl, Grows.of_eq rfl, fun ts qs g => ?_, fun k hk => ?_⟩
    · rw [e] at g
      injection g with g
      obtain ⟨a, b, hf⟩ := h ts qs
      refine ⟨a, b, ?_⟩
      show (s.setJob j (some (f y))).job j = _
      rw [job_setJob', if_pos rfl, g, hf]
    · show (s.setJob j (some (f y))).job k = _
      rw [job_setJob', if_neg hk]

theorem saves_fold {α : Type} (j : Nat) (x : JobSt) (f : State → α → State) (h : ∀ s a, Saves s (f s a) j x) : ∀ (l : List α) (s : State), Saves s (l.foldl f s) j x
  | [], s => Saves.of_backs (Backs.refl s) j x
  | a :: l, s => (h s a).trans (saves_fold j x f h l (f s a))

theorem backs_pasteMem (s : State) (a n : Nat) (w : SMap Byte) : Backs s (s.pasteMem a n w) := by
  unfold State.pasteMem
  exact Backs.trans (b := { s with mem := { s.mem with bytes := s.mem.bytes.paste a n w } }) ⟨rfl, rfl, rfl, rfl, rfl, rfl, rfl, Grows.of_eq rfl⟩ (backs_touch _ _)

theorem saves_die (s : State) (j : Nat) (x y : JobSt) (k : Nat) (p : DiePlace) : Saves s (s.saveDie j y k p) j x := by
  unfold State.saveDie
  split
  · next a q _ _ =>
    dsimp only
    refine Saves.trans (Saves.trans ?_ (saves_modJob _ j x _ (fun ts qs => ⟨ts, _, rfl⟩))) (saves_fold j x _ (fun s u => ?_) _ _)
    · refine Saves.of_backs ?_ j x
      refine Backs.trans (Backs.trans ?_ (backs_writeMem _ _ _)) (backs_writeMem _ _ _)
      unfold State.dealerRecord
      dsimp only
      split
      · exact Backs.refl _
      · exact ⟨rfl, rfl, rfl, rfl, rfl, rfl, rfl, Grows.of_eq rfl⟩
    · exact Saves.trans (Saves.of_backs ((backs_pasteMem _ _ _ _).trans (backs_writeMem _ _ _)) j x) (saves_modJob _ j x _ (fun ts qs => ⟨_, qs, rfl⟩))
  · exact Saves.of_backs (Backs.refl _) j x

theorem releases_job {s m : State} (h : Releases s m) (k : Nat) : m.job k = s.job k := by rw [h.eq]; rfl
theorem releases_grows {s m : State} (h : Releases s m) : Grows s m := Grows.of_eq (by rw [h.eq])

theorem saveComplete_id (s : State) (j : Nat) (late : Bool) (x : JobSt) (hx : s.job j = some x) (h : x.phase ≠ .saving ∨ s.inFlight x = true) : saveComplete j late s = s := by
  unfold saveComplete
  rw [hx]
  dsimp only
  rw [if_pos h]

theorem saveComplete_spec (s : State) (j : Nat) (late : Bool) (x : JobSt) (hx : s.job j = some x) (hp : x.phase = .saving) (hi : s.inFlight x = false) (hd : s.jobDone j x = false)
    (hs : ∀ t ∈ x.tiles, (s.tile t).hand = none ∨ (s.tile t).regs.sums.blocks = 0) (ht : s.power.target.isSome = true) :
    let m := saveComplete j late s
    ∃ ts qs, m.job j = some { x with phase := .saved, age := 0, savedTiles := ts, savedQueues := qs } ∧ (∀ k, k ≠ j → m.job k = s.job k)
      ∧ (∀ p ∈ x.places, ∀ i, i < 12 → bitOf p.mask i = true → (m.tile (12 * p.die + i)).hand = none ∧ (m.tile (12 * p.die + i)).run = .idle)
      ∧ (late = true → Logged s m Codes.schedPreemptLate 0xFFFF) := by
  dsimp only
  unfold saveComplete
  rw [hx]
  dsimp only
  rw [if_neg (by rw [hp, hi]; decide), if_neg (by rw [hd]; decide)]
  have ha : x.tiles.any (fun t => (s.tile t).hand.isSome && (s.tile t).regs.sums.blocks != 0) = false := by
    rw [List.any_eq_false]
    intro t ht
    rcases hs t ht with h | h <;> simp [h]
  rw [ha, if_neg (by decide)]
  dsimp only
  rw [fold_id (fun s t => s.handSummary t false) s x.tiles (fun t ht => summary_id s t (hs t ht))]
  have S := saves_fold j x (fun s (q : DiePlace × Nat) => s.saveDie j x q.2 q.1) (fun s q => saves_die s j x x q.2 q.1) x.places.zipIdx s
  generalize x.places.zipIdx.foldl (fun s (q : DiePlace × Nat) => s.saveDie j x q.2 q.1) s = s2 at *
  obtain ⟨ts, qs, hj⟩ := S.mine x.savedTiles x.savedQueues hx
  obtain ⟨R, F⟩ := releases_all j x.places s2
  generalize s2.releaseTiles j x.places = s3 at *
  have h3 : s3.job j = some { x with savedTiles := ts, savedQueues := qs } := (releases_job R j).trans hj
  have e : s3.modJob j (fun y => { y with phase := .saved, age := 0 }) = s3.setJob j (some { x with phase := .saved, age := 0, savedTiles := ts, savedQueues := qs }) := by
    unfold State.modJob
    rw [h3]
  rw [e]
  have j4 : ∀ k, (s3.setJob j (some { x with phase := .saved, age := 0, savedTiles := ts, savedQueues := qs })).job k = if k = j then some { x with phase := .saved, age := 0, savedTiles := ts, savedQueues := qs } else s.job k := fun k => by
    rw [job_setJob']
    split
    · rfl
    · next g => rw [releases_job R, S.others k g]
  have t4 : ∀ t, (s3.setJob j (some { x with phase := .saved, age := 0, savedTiles := ts, savedQueues := qs })).tile t = s3.tile t := fun _ => rfl
  have p4 : (s3.setJob j (some { x with phase := .saved, age := 0, savedTiles := ts, savedQueues := qs })).power = s.power := by show s3.power = _; rw [R.eq]; exact S.power
  have g4 : Grows s (s3.setJob j (some { x with phase := .saved, age := 0, savedTiles := ts, savedQueues := qs })) := S.grows.trans ((releases_grows R).trans (Grows.of_eq rfl))
  generalize s3.setJob j (some { x with phase := .saved, age := 0, savedTiles := ts, savedQueues := qs }) = s4 at *
  refine ⟨ts, qs, ?_⟩
  cases late
  · rw [if_neg (by decide), reapply_target s4 (by rw [p4]; exact ht)]
    refine ⟨by rw [j4, if_pos rfl], fun k hk => by rw [j4, if_neg hk], fun p hp i hi hb => ?_, fun h => by cases h⟩
    rw [t4]; exact F p hp i (maskBits_mem _ _ _ hi hb)
  · rw [if_pos rfl]
    have b := backs_report s4 Codes.schedPreemptLate { job := j }
    have l : Logged s4 (s4.report Codes.schedPreemptLate { job := j }) Codes.schedPreemptLate 0xFFFF := report_logged s4 Codes.schedPreemptLate { job := j }
    generalize s4.report Codes.schedPreemptLate { job := j } = s5 at *
    rw [reapply_target s5 (by rw [b.power, p4]; exact ht)]
    refine ⟨by rw [b.job, j4, if_pos rfl], fun k hk => by rw [b.job, j4, if_neg hk], fun p hp i hi hb => ?_, fun _ => logged_before g4 l⟩
    rw [b.tile, t4]; exact F p hp i (maskBits_mem _ _ _ hi hb)

theorem fold_one (f : State → Nat → State) (d : Nat) (h : ∀ s e, e ≠ d → f s e = s) : ∀ (l : List Nat) (s : State), l.Nodup → d ∈ l → l.foldl f s = f s d
  | [], _, _, hd => absurd hd (by simp)
  | a :: l, s, hn, hd => by
    rw [List.foldl_cons]
    have hn' := List.nodup_cons.1 hn
    by_cases g : a = d
    · rw [g]
      exact fold_id f _ l (fun b hb => h _ b (fun k => hn'.1 (by rw [g, ← k]; exact hb)))
    · rw [h s a g]
      rcases List.mem_cons.1 hd with k | k
      · exact absurd k.symm g
      · exact fold_one f d h l s hn'.2 k

theorem victim_other (s : State) (long : List (Nat × Nat × Nat)) (d e : Nat) (h : ∀ q ∈ long, q.1 = d) (he : e ≠ d) : s.swapVictim long e = none := by
  unfold State.swapVictim
  dsimp only
  cases hj : s.dieJobs e with
  | nil => rfl
  | cons a l =>
    rw [if_pos]
    have : long.find? (fun q => q.1 == e && q.2.1 == a.1) = none := by
      rw [List.find?_eq_none]
      intro q hq
      have := h q hq
      simp [this, Ne.symm he]
    simp [this]

theorem boundary_fold : ∀ (l : List Nat) (s : State), let m := l.foldl (fun s t => s.modTile t TileSt.boundary) s
    m = { s with tiles := m.tiles }
  | [], s => rfl
  | a :: l, s => by
    have h := boundary_fold l (s.modTile a TileSt.boundary)
    dsimp only at h ⊢
    rw [List.foldl_cons]
    generalize l.foldl (fun s t => s.modTile t TileSt.boundary) (s.modTile a TileSt.boundary) = m at *
    rw [h]; rfl

theorem startSave_spec (s : State) (reason order j : Nat) (x : JobSt) (hx : s.job j = some x) :
    let m := s.startSave reason order j
    m.job j = some { x with phase := .saving, reason := reason, preempts := x.preempts + 1, waitOrder := order } ∧ (∀ k, k ≠ j → m.job k = s.job k)
      ∧ m.ring x.ring = { s.ring x.ring with preempted := count32 (s.ring x.ring).preempted } ∧ (∀ q, q ≠ x.ring → m.ring q = s.ring q) ∧ Grows s m := by
  dsimp only
  unfold State.startSave
  rw [hx]
  dsimp only
  obtain ⟨z, hz⟩ : ∃ z : JobSt, z = { x with phase := .saving, reason := reason, preempts := x.preempts + 1, waitOrder := order } := ⟨_, rfl⟩
  rw [← hz]
  obtain ⟨s1, h1, j1, r1, l1⟩ : ∃ s1 : State, (s.setJob j (some z)).modRing x.ring (fun r => { r with preempted := BitVec.ofNat 32 (satAdd (2 ^ 32 - 1) r.preempted.toNat 1) }) = s1
      ∧ (∀ k, s1.job k = if k = j then some z else s.job k) ∧ (∀ q, s1.ring q = if q = x.ring then { s.ring x.ring with preempted := count32 (s.ring x.ring).preempted } else s.ring q) ∧ s1.logs = s.logs := by
    refine ⟨_, rfl, fun k => ?_, fun q => ?_, rfl⟩
    · rw [job_modRing, job_setJob']
    · unfold State.modRing
      rw [State.ring_setRing]; rfl
  rw [h1]
  have h2 := boundary_fold x.tiles s1
  dsimp only at h2
  generalize x.tiles.foldl (fun s t => s.modTile t TileSt.boundary) s1 = s2 at *
  have j2 : ∀ k, s2.job k = s1.job k := fun k => by rw [h2]; rfl
  have r2 : ∀ q, s2.ring q = s1.ring q := fun q => by rw [h2]; rfl
  have l2 : s2.logs = s1.logs := by rw [h2]
  have B : Backs s2 (x.places.foldl (fun s p =>
      match p.save with
      | some a => s.writeMem a (saveHeader 1 reason j p.mask 0 (x.preempts + 1))
      | none => s) s2) := by
    refine backs_fold _ (fun s p => ?_) _ _
    split
    · exact backs_writeMem _ _ _
    · exact Backs.refl _
  generalize x.places.foldl _ s2 = m at *
  refine ⟨?_, fun k hk => ?_, ?_, fun q hq => ?_, (Grows.of_eq (l2.trans l1)).trans B.grows⟩
  · rw [B.job, j2, j1, if_pos rfl]
  · rw [B.job, j2, j1, if_neg hk]
  · rw [B.ring, r2, r1, if_pos rfl]
  · rw [B.ring, r2, r1, if_neg hq]

theorem swap_id (s : State) (long : List (Nat × Nat × Nat)) (h : s.sched.swapWait = 0 ∨ ∀ d, d < 8 → s.swapVictim long d = none) : swapEvaluation long s = s := by
  unfold swapEvaluation
  rcases h with h | h
  · rw [if_pos h]
  · split
    · rfl
    · refine fold_id (fun s d => s.swapDie long d) s _ (fun d hd => ?_)
      unfold State.swapDie
      rw [h d (List.mem_range.1 hd)]

theorem swap_spec (s : State) (long : List (Nat × Nat × Nat)) (d v : Nat) (x : JobSt) (hd : d < 8) (h0 : s.sched.swapWait ≠ 0) (hl : ∀ q ∈ long, q.1 = d) (hv : s.swapVictim long d = some v)
    (hf : s.fitsWithout v = true) (hx : s.job v = some x) :
    let m := swapEvaluation long s
    m.job v = some { x with phase := .saving, reason := 2, preempts := x.preempts + 1, waitOrder := s.sched.waitCtr } ∧ (∀ k, k ≠ v → m.job k = s.job k)
      ∧ m.ring x.ring = { s.ring x.ring with preempted := count32 (s.ring x.ring).preempted } ∧ (∀ q, q ≠ x.ring → m.ring q = s.ring q) ∧ Logged s m Codes.schedSwapped 0xFFFF := by
  dsimp only
  unfold swapEvaluation
  rw [if_neg h0, fold_one (fun s d => s.swapDie long d) d (fun t e he => ?_) _ s List.nodup_range (List.mem_range.2 hd)]
  · unfold State.swapDie
    rw [hv]
    dsimp only
    rw [if_pos hf]
    unfold State.preemptJobs
    dsimp only
    rw [List.foldl_cons, List.foldl_nil]
    obtain ⟨a, b, c, e, g⟩ := startSave_spec { s with sched := { s.sched with waitCtr := s.sched.waitCtr + 1 } } 2 s.sched.waitCtr v x hx
    dsimp only at a b c e g
    generalize State.startSave _ _ _ _ = t at *
    have B := backs_report t Codes.schedSwapped { job := v }
    have L : Logged t (t.report Codes.schedSwapped { job := v }) Codes.schedSwapped 0xFFFF := report_logged t Codes.schedSwapped { job := v }
    refine ⟨(B.job v).trans a, fun k hk => (B.job k).trans (b k hk), (B.ring _).trans c, fun q hq => (B.ring q).trans (e q hq), logged_before ?_ L⟩
    exact (Grows.of_eq rfl).trans g
  · show t.swapDie long e = t
    unfold State.swapDie
    rw [victim_other t long d e hl he]

def Least {α : Type} (key : α → Nat) (l : List α) : Prop := ∀ b l', l = b :: l' → ∀ y ∈ l, key b ≤ key y

theorem mem_insertKey {α : Type} (key : α → Nat) (a y : α) : ∀ (l : List α), y ∈ insertKey key a l ↔ y = a ∨ y ∈ l
  | [] => by unfold insertKey; simp
  | b :: bs => by
    unfold insertKey
    split
    · simp
    · rw [List.mem_cons, mem_insertKey key a y bs, List.mem_cons]
      constructor
      · rintro (h | h | h)
        · exact Or.inr (Or.inl h)
        · exact Or.inl h
        · exact Or.inr (Or.inr h)
      · rintro (h | h | h)
        · exact Or.inr (Or.inl h)
        · exact Or.inl h
        · exact Or.inr (Or.inr h)

theorem least_insertKey {α : Type} (key : α → Nat) (a : α) (l : List α) (h : Least key l) : Least key (insertKey key a l) := by
  intro c l' e y hy
  cases l with
  | nil =>
    unfold insertKey at e hy
    cases e
    rcases List.mem_cons.1 hy with g | g
    · rw [g]
    · exact absurd g (by simp)
  | cons b bs =>
    unfold insertKey at e hy
    split at e
    · next g =>
      rw [if_pos g] at hy
      cases e
      rcases List.mem_cons.1 hy with k | k
      · rw [k]
      · exact Nat.le_of_lt (Nat.lt_of_lt_of_le g (h b bs rfl y k))
    · next g =>
      rw [if_neg g] at hy
      obtain ⟨e1, e2⟩ := List.cons.inj e
      rw [← e1]
      rcases List.mem_cons.1 hy with k | k
      · rw [k]
      · rcases (mem_insertKey key a y bs).1 k with k | k
        · rw [k]; omega
        · exact h b bs rfl y (List.mem_cons_of_mem _ k)

theorem sortKey_fold {α : Type} (key : α → Nat) : ∀ (xs acc : List α), Least key acc → Least key (xs.foldl (fun acc a => insertKey key a acc) acc)
    ∧ ∀ y, y ∈ xs.foldl (fun acc a => insertKey key a acc) acc ↔ y ∈ xs ∨ y ∈ acc
  | [], acc, h => ⟨h, fun y => by simp⟩
  | a :: xs, acc, h => by
    obtain ⟨p, q⟩ := sortKey_fold key xs (insertKey key a acc) (least_insertKey key a acc h)
    rw [List.foldl_cons]
    refine ⟨p, fun y => ?_⟩
    rw [q, mem_insertKey, List.mem_cons]
    constructor
    · rintro (h | h | h)
      · exact Or.inl (Or.inr h)
      · exact Or.inl (Or.inl h)
      · exact Or.inr h
    · rintro ((h | h) | h)
      · exact Or.inr (Or.inl h)
      · exact Or.inl h
      · exact Or.inr (Or.inr h)

theorem sortKey_spec {α : Type} (key : α → Nat) (xs : List α) : (∀ y, y ∈ sortKey key xs ↔ y ∈ xs) ∧ Least key (sortKey key xs) := by
  unfold sortKey
  obtain ⟨p, q⟩ := sortKey_fold key xs [] (fun b l' e => by cases e)
  exact ⟨fun y => by rw [q]; simp, p⟩

/-- The ante slot (R422). -/
theorem ante_spec (s : State) :
    let aged (j : Nat) (x : JobSt) : Prop := (j, some x) ∈ s.sched.jobs ∧ x.desc.cls = 0 ∧ (x.phase = .waiting ∨ x.phase = .saved) ∧ s.sched.ageLimit.toNat ≤ x.age
    let may : Prop := s.sched.ante = 0 ∧ s.sched.ageLimit ≠ 0 ∧ ∃ j x, aged j x
    (¬may → antePromotion s = s)
    ∧ (may → ∃ m j x, antePromotion s = m ∧ aged j x ∧ (∀ k y, aged k y → x.waitOrder * 4096 + j ≤ y.waitOrder * 4096 + k) ∧ m.sched = { s.sched with ante := j }
        ∧ Logged s m Codes.schedAged 0xFFFF ∧ m.tiles = s.tiles ∧ m.mem = s.mem) := by
  intro aged may
  obtain ⟨js, hjs⟩ : ∃ js : List (Nat × Nat), js = s.sched.jobs.filterMap (fun p => match p.2 with
      | some x =>
        if x.desc.cls == 0 && (x.phase == .waiting || x.phase == .saved) && decide (s.sched.ageLimit.toNat ≤ x.age) then
          some (x.waitOrder * 4096 + p.1, p.1)
        else none
      | none => none) := ⟨_, rfl⟩
  have mem : ∀ q : Nat × Nat, q ∈ js ↔ ∃ j x, aged j x ∧ q = (x.waitOrder * 4096 + j, j) := by
    intro q
    rw [hjs, List.mem_filterMap]
    constructor
    · rintro ⟨⟨j, o⟩, hp, h⟩
      cases o with
      | none => cases h
      | some x =>
        dsimp only at h
        split at h
        · next g =>
          simp at g h
          exact ⟨j, x, ⟨hp, g.1.1, g.1.2, g.2⟩, h.symm⟩
        · cases h
    · rintro ⟨j, x, ⟨h1, h2, h3, h4⟩, rfl⟩
      refine ⟨(j, some x), h1, ?_⟩
      dsimp only
      rw [if_pos]
      simp [h2, h3, h4]
  have e : antePromotion s = if s.sched.ante ≠ 0 ∨ s.sched.ageLimit = 0 then s else
      match sortKey Prod.fst js with
      | q :: _ => ({ s with sched := { s.sched with ante := q.2 } } : State).report Codes.schedAged { job := q.2 }
      | [] => s := by
    rw [hjs]; rfl
  rw [e]
  obtain ⟨m1, m2⟩ := sortKey_spec Prod.fst js
  refine ⟨fun h => ?_, fun h => ?_⟩
  · by_cases g : s.sched.ante ≠ 0 ∨ s.sched.ageLimit = 0
    · rw [if_pos g]
    · rw [if_neg g]
      cases hq : sortKey Prod.fst js with
      | nil => rfl
      | cons q l =>
        obtain ⟨j, x, hx, -⟩ := (mem q).1 ((m1 q).1 (by rw [hq]; exact List.mem_cons_self))
        exact absurd ⟨by omega, fun k => g (Or.inr k), j, x, hx⟩ h
  · obtain ⟨h1, h2, j0, x0, h3⟩ := h
    rw [if_neg (by rintro (k | k); exacts [k h1, h2 k])]
    cases hq : sortKey Prod.fst js with
    | nil =>
      have := (m1 (x0.waitOrder * 4096 + j0, j0)).2 ((mem _).2 ⟨j0, x0, h3, rfl⟩)
      rw [hq] at this
      exact absurd this (by simp)
    | cons q l =>
      obtain ⟨j, x, hx, hqe⟩ := (mem q).1 ((m1 q).1 (by rw [hq]; exact List.mem_cons_self))
      dsimp only
      refine ⟨_, j, x, rfl, hx, fun k y hy => ?_, ?_, ?_, ?_, ?_⟩
      · have := m2 q l hq (y.waitOrder * 4096 + k, k) ((m1 _).2 ((mem _).2 ⟨k, y, hy, rfl⟩))
        rw [hqe] at this
        exact this
      · rw [hqe]
        exact (report_rest _ _ _).2.2.2.2.1
      · exact logged_before (Grows.of_eq rfl) (report_logged { s with sched := { s.sched with ante := q.2 } } Codes.schedAged { job := q.2 })
      · exact (report_rest _ _ _).1
      · exact (report_rest _ _ _).2.1

/-- The ring's side of a JOB entry that is taken. -/
def takeJob (s : State) (r : Nat) : State := (s.consume r).modRing r (fun y => { y with submitted := count32 y.submitted })

theorem takeJob_ring (s : State) (r : Nat) : (takeJob s r).ring r = { s.ring r with sqHead := (s.ring r).sqHead + 1, owed := (s.ring r).owed + 1, submitted := count32 (s.ring r).submitted }
    ∧ ∀ q, q ≠ r → (takeJob s r).ring q = s.ring q := by
  unfold takeJob State.consume State.modRing
  refine ⟨?_, fun q hq => ?_⟩
  · rw [State.ring_setRing, if_pos rfl, State.ring_setRing, if_pos rfl]
  · rw [State.ring_setRing, if_neg hq, State.ring_setRing, if_neg hq]

theorem takeJob_rest (s : State) (r : Nat) : ∃ w, takeJob s r = { s with sched := { s.sched with rings := w } } := ⟨_, rfl⟩

/-- The answer to a JOB entry that is refused. -/
def Refused (s m : State) (r : Nat) (e : List Byte) (j : Nat) (c : Code) : Prop :=
  (∀ k, m.job k = s.job k) ∧ Logged s m c 0xFFFF ∧ Wrote s m r 0x90 c j (entryTag e) ((s.ring r).sqHead + 1).toNat 0
    ∧ m.ring r = { s.ring r with sqHead := (s.ring r).sqHead + 1, cqTail := (s.ring r).cqTail + 1, submitted := count32 (s.ring r).submitted, faulted := count32 (s.ring r).faulted } ∧ ∀ q, q ≠ r → m.ring q = s.ring q

theorem refuseJob_spec (s : State) (r j : Nat) (e : List Byte) (x : JobSt) (c : Code) (hx : x.tag = entryTag e) (hj : s.job j = none) (ha : (s.ring r).active = true) (hc : (s.ring r).closing = false) :
    Refused s ((takeJob s r).refuseJob r j x c) r e j c := by
  obtain ⟨z1, z2⟩ := takeJob_ring s r
  have z3 : (takeJob s r).logs = s.logs ∧ (takeJob s r).outbox = s.outbox ∧ (takeJob s r).sched.msix = s.sched.msix ∧ ∀ k, (takeJob s r).job k = s.job k := ⟨rfl, rfl, rfl, fun _ => rfl⟩
  generalize takeJob s r = z at *
  obtain ⟨z3, z4, z5, z6⟩ := z3
  unfold State.refuseJob
  dsimp only
  have B := backs_report (z.setJob j (some x)) c { job := j, jobFaults := true }
  have L : Logged (z.setJob j (some x)) ((z.setJob j (some x)).report c { job := j, jobFaults := true }) c 0xFFFF := report_logged _ _ _
  generalize (z.setJob j (some x)).report c { job := j, jobFaults := true } = s1 at *
  have r1 : ∀ q, s1.ring q = z.ring q := fun q => B.ring q
  have j1 : ∀ k, s1.job k = if k = j then some x else z.job k := fun k => (B.job k).trans (job_setJob' _ _ _ _)
  have o1 : s1.outbox = s.outbox := B.outbox.trans z4
  have m1 : s1.sched.msix = s.sched.msix := by rw [B.sched]; exact z5
  have L1 : Logged s s1 c 0xFFFF := logged_before (Grows.of_eq z3) L
  clear B L
  have r2 : ∀ q, ((s1.setJob j none).modRing r (fun y => { y with faulted := count32 y.faulted })).ring q = if q = r then { s.ring r with sqHead := (s.ring r).sqHead + 1, owed := (s.ring r).owed + 1, submitted := count32 (s.ring r).submitted, faulted := count32 (s.ring r).faulted } else s.ring q := fun q => by
    unfold State.modRing
    rw [State.ring_setRing]
    have : ∀ q, (s1.setJob j none).ring q = z.ring q := fun q => r1 q
    rw [this, this, z1]
    split
    · rfl
    · next g => exact z2 q g
  have j2 : ∀ k, ((s1.setJob j none).modRing r (fun y => { y with faulted := count32 y.faulted })).job k = s.job k := fun k => by
    rw [job_modRing, job_setJob', j1, z6]
    split
    · next g => rw [g, hj]
    · rfl
  have L2 : Logged s ((s1.setJob j none).modRing r (fun y => { y with faulted := count32 y.faulted })) c 0xFFFF := L1
  have o2 : ((s1.setJob j none).modRing r (fun y => { y with faulted := count32 y.faulted })).outbox = s.outbox := o1
  have m2 : ((s1.setJob j none).modRing r (fun y => { y with faulted := count32 y.faulted })).sched.msix = s.sched.msix := m1
  generalize (s1.setJob j none).modRing r (fun y => { y with faulted := count32 y.faulted }) = s2 at *
  rw [hx]
  obtain ⟨y, hy⟩ : ∃ y : RingSt, y = { s.ring r with sqHead := (s.ring r).sqHead + 1, owed := (s.ring r).owed + 1, submitted := count32 (s.ring r).submitted, faulted := count32 (s.ring r).faulted } := ⟨_, rfl⟩
  have ry : s2.ring r = y := by rw [r2, if_pos rfl, hy]
  obtain ⟨c1, c2, c3, c4, c5, c6⟩ := wrote_of s s2 r 0x90 c j (entryTag e) 0 y ha hc ry (by rw [hy]) (by rw [hy]) (by rw [hy]) (by rw [hy]) (by rw [hy]) (by rw [hy]) o2 m2 _ rfl
  refine ⟨fun k => (c6 k).trans (j2 k), logged_grow L2 (Grows.of_eq c5), by rw [hy] at c1; exact c1, ?_, fun q hq => by rw [c3 q hq, r2, if_neg hq]⟩
  rw [c2, hy]
  simp

theorem job_pick (s : State) (r : Ring) (e : List Byte) (twin : Bool) (vote : Vote) (j : Nat) (h : s.frontEntry r = some e) (hc : s.entryCode r e = none) (ht : fieldLe e 0 1 = 0x90)
    (hs : s.sec.activating = false) (hp : s.power.target = none) (hj : s.freeJobNo = some j)
    (hb : (s.jobCode (s.ring r).func (fieldLe e 0x10 8) (s.readMem (fieldLe e 0x10 8) 256) (jobDescOf (s.readMem (fieldLe e 0x10 8) 256)) twin).isSome = true
      ∨ s.absentPages (jobDescOf (s.readMem (fieldLe e 0x10 8) 256)).streams (16 * (jobDescOf (s.readMem (fieldLe e 0x10 8) 256)).dies) = []) :
    exec (.job r twin vote) s = .next (s.admitJob r j e vote twin) := by
  show execJob r twin vote s = _
  unfold execJob
  rw [if_neg (by rw [hs, hp]; decide)]
  unfold State.takeEntry
  rw [h]
  dsimp only
  rw [hc]
  dsimp only
  rw [if_pos ht, hj]
  have : (if (s.jobCode (s.ring r).func (fieldLe e 0x10 8) (s.readMem (fieldLe e 0x10 8) 256) (jobDescOf (s.readMem (fieldLe e 0x10 8) 256)) twin).isSome = true then ([] : List Nat)
      else s.absentPages (jobDescOf (s.readMem (fieldLe e 0x10 8) 256)).streams (16 * (jobDescOf (s.readMem (fieldLe e 0x10 8) 256)).dies)) = [] := by
    rcases hb with hb | hb
    · rw [if_pos hb]
    · split
      · rfl
      · exact hb
  rw [this]

theorem freeJob_none (s : State) (j : Nat) (h : s.freeJobNo = some j) : s.job j = none := by
  unfold State.freeJobNo at h
  have := List.find?_some h
  simpa using this

/-- The entry of R405 once it is taken, in terms of the state before it. -/
theorem admit_eq (s : State) (r j : Nat) (e : List Byte) (v : Vote) (twin : Bool) : s.admitJob r j e v twin =
    (let f := (s.ring r).func
     let a := fieldLe e 0x10 8
     let d := jobDescOf (s.readMem a 256)
     let z := takeJob s r
     let x := JobSt.new r e f d s.sched.admitCtr s.sched.waitCtr 0
     match s.jobCode f a (s.readMem a 256) d twin with
     | some c => z.refuseJob r j x c
     | none =>
       match s.agreedGrade v with
       | .error c => z.refuseJob r j x c
       | .ok g =>
         let x := { x with grade := g }
         let y := { z with sched := { z.sched with admitCtr := s.sched.admitCtr + 1, waitCtr := s.sched.waitCtr + 1 } }
         let target (t : State) : State := if g = s.grade then t else t.modPower (fun p => { p with target := some g })
         if d.cls = 0 then (target (y.setJob j (some x))).reapply
         else if d.wcet.getD g 0 = 0 then z.refuseJob r j x Codes.schedNoBound
         else
           match s.anteKeeps.bind (fun kept => s.placeLc f d kept) with
           | none => z.refuseJob r j x Codes.schedLcCapacity
           | some ps => (target y).admitLc j x ps) := by
  rfl

theorem filterMap_setSome {β : Type} (g : Nat × Option JobSt → Option β) (m : SMap (Option JobSt)) (j : Nat) (x : JobSt) (h : ∀ p ∈ m, g p = none) :
    (SMap.set none m j (some x)).filterMap g = (g (j, some x)).toList := by
  unfold SMap.set SMap.splice
  rw [if_neg (by simp), List.filterMap_append, List.filterMap_append]
  have h1 : ∀ q : Nat × Option JobSt → Bool, (m.filter q).filterMap g = [] := fun q => by
    rw [List.filterMap_eq_nil_iff]
    exact fun p hp => h p (List.mem_filter.1 hp).1
  rw [h1, h1, List.append_nil, List.nil_append]
  rw [List.filterMap_cons, List.filterMap_nil]
  cases g (j, some x) <;> rfl

def AtRest (s : State) : Prop := ∀ q ∈ s.sched.jobs, ∀ x, q.2 = some x → x.phase ≠ .waiting ∧ x.phase ≠ .saved

theorem calm_set (s : State) (j : Nat) (x : JobSt) (h : AtRest s) (hx : x.phase ≠ .waiting ∧ x.phase ≠ .saved) : AtRest (s.setJob j (some x)) := by
  intro q hq y hy
  have : q ∈ SMap.set none s.sched.jobs j (some x) := hq
  unfold SMap.set SMap.splice at this
  rw [if_neg (by simp), List.mem_append, List.mem_append, List.mem_filter, List.mem_filter, List.mem_singleton] at this
  rcases this with (g | g) | g
  · exact h q g.1 y hy
  · rw [g] at hy; injection hy with hy; rw [← hy]; exact hx
  · exact h q g.1 y hy

theorem calm_mod (s : State) (j : Nat) (f : JobSt → JobSt) (h : AtRest s) (hf : ∀ x, (f x).phase = x.phase) : AtRest (s.modJob j f) := by
  unfold State.modJob
  cases e : s.job j with
  | none => exact h
  | some x =>
    refine calm_set s j (f x) h ?_
    rw [hf]
    unfold State.job SMap.get at e
    split at e
    · next p hp => exact h p (List.mem_of_find?_eq_some hp) x e
    · cases e

theorem waitList_calm (s : State) (h : AtRest s) : s.waitList = [] := by
  unfold State.waitList
  dsimp only
  rw [show s.sched.jobs.filterMap _ = [] from ?_]
  · rfl
  · rw [List.filterMap_eq_nil_iff]
    intro p hp
    cases hx : p.2 with
    | none => rfl
    | some x =>
      obtain ⟨a, b⟩ := h p hp x hx
      simp [a, b]

theorem placeAll_calm (s : State) (h : AtRest s) : ∀ n, State.placeAll n s = s
  | 0 => rfl
  | n + 1 => by
    unfold State.placeAll
    rw [waitList_calm s h]
    unfold State.placeFirst
    dsimp only
    unfold State.wantGrade
    rw [waitList_calm s h]
    split <;> rfl

/-- One waiting best-effort job beside jobs that do not wait. -/
theorem one_waits (s : State) (j : Nat) (x : JobSt) (h : AtRest s) (hp : x.phase = .waiting) (hc : x.desc.cls = 0) (hf : x.fault = none) :
    (s.setJob j (some x)).waitList = [j] ∧ (s.setJob j (some x)).startReady = s.setJob j (some x) := by
  refine ⟨?_, ?_⟩
  · unfold State.waitList
    dsimp only
    generalize hq : List.filterMap _ (s.setJob j (some x)).sched.jobs = js
    have e : js = [(j, x)] := by
      rw [← hq]
      refine (filterMap_setSome _ s.sched.jobs j x (fun p hp => ?_)).trans ?_
      · cases hx : p.2 with
        | none => rfl
        | some y =>
          obtain ⟨a, b⟩ := h p hp y hx
          simp [a, b]
      · simp [hp, hc, hf]
    rw [e]
    by_cases g : (j == (s.setJob j (some x)).sched.ante) = true
    · rw [List.filter_cons, List.filter_nil]
      dsimp only
      rw [if_pos g, List.filter_cons, List.filter_nil]
      dsimp only
      rw [if_neg (by rw [bne, g]; decide)]
      rfl
    · rw [List.filter_cons, List.filter_nil]
      dsimp only
      rw [if_neg g, List.filter_cons, List.filter_nil]
      dsimp only
      rw [if_pos (by rw [bne]; simpa using g)]
      simp [hp, sortKey, insertKey]
  · unfold State.startReady
    dsimp only
    generalize hq : List.filterMap _ (s.setJob j (some x)).sched.jobs = js
    have e : js = [] := by
      rw [← hq]
      refine (filterMap_setSome _ s.sched.jobs j x (fun p hp => ?_)).trans ?_
      · cases hx : p.2 with
        | none => rfl
        | some y =>
          obtain ⟨a, b⟩ := h p hp y hx
          simp [a]
      · simp [hc]
    rw [e]
    rfl

def Keeps (s m : State) : Prop := m.sched = s.sched ∧ m.power = s.power
theorem Keeps.trans {a b c : State} (h : Keeps a b) (k : Keeps b c) : Keeps a c := ⟨k.1.trans h.1, k.2.trans h.2⟩
theorem keeps_of {s m : State} (h : Backs s m) : Keeps s m := ⟨h.sched, h.power⟩

theorem keeps_fold {α : Type} (f : State → α → State) (h : ∀ s a, Keeps s (f s a)) : ∀ (l : List α) (s : State), Keeps s (l.foldl f s)
  | [], _ => ⟨rfl, rfl⟩
  | a :: l, s => (h s a).trans (keeps_fold f h l (f s a))

theorem keeps_setQueue (s : State) (d q : Nat) (x : DealQueue) : Keeps s (s.setQueue d q x) := by
  unfold State.setQueue
  exact ⟨rfl, rfl⟩

theorem keeps_assign (s : State) (d q m : Nat) : Keeps s (s.assignCtx d q m) := by
  unfold State.assignCtx
  exact ⟨rfl, rfl⟩

theorem keeps_take (s : State) (j : Nat) (x : JobSt) (ps : List DiePlace) : Keeps (s.setJob j (some { x with phase := .running, places := ps })) (s.takeTiles j x ps) := by
  unfold State.takeTiles
  dsimp only
  refine keeps_fold _ (fun s q => ?_) _ _
  refine Keeps.trans (Keeps.trans ?_ (keeps_setQueue _ _ _ _)) (keeps_assign _ _ _ _)
  unfold State.maskRecords
  refine keeps_fold _ (fun s i => ?_) _ _
  dsimp only
  split
  · exact ⟨rfl, rfl⟩
  · unfold State.writeLe
    exact keeps_of (backs_writeMem _ _ _)

/-- The admission of a best-effort job while no other waits. -/
theorem place_one (s : State) (j : Nat) (x : JobSt) (h : AtRest s) (hp : x.phase = .waiting) (hc : x.desc.cls = 0) (hf : x.fault = none) (hg : x.grade = s.grade) (ht : s.power.target = none) :
    let t := s.setJob j (some x)
    (t.walk x.func x.desc t.tileFree = none → t.reapply = t)
    ∧ (∀ ps qs u, t.walk x.func x.desc t.tileFree = some ps → State.allocSaves j x.func (savePages x.desc.tpd) [] ps t = .ok qs u →
        t.reapply = (u.takeTiles j x qs).startChecks j) := by
  obtain ⟨w1, w2⟩ := one_waits s j x h hp hc hf
  have hj : (s.setJob j (some x)).job j = some x := by rw [job_setJob', if_pos rfl]
  have gg : (s.setJob j (some x)).grade = s.grade := rfl
  have tt : (s.setJob j (some x)).power.target = none := ht
  dsimp only
  refine ⟨fun hw => ?_, fun ps qs u hw ha => ?_⟩
  · generalize s.setJob j (some x) = t at *
    have e : t.tryPlace j = (none, t) := by
      unfold State.tryPlace
      rw [hj]
      dsimp only
      rw [if_neg (by rw [hg, gg, tt]; simp), hw]
    unfold State.reapply
    dsimp only
    rw [w2]
    unfold State.placeAll
    rw [w1]
    unfold State.placeFirst
    rw [e]
    dsimp only
    unfold State.placeFirst
    dsimp only
    unfold State.wantGrade
    rw [w1]
    split
    · rfl
    · rw [List.findSome?_cons, hj]
      rw [Option.bind_some, if_neg (by rw [hg, gg]; simp)]
      rfl
  · have ct : AtRest s := h
    have hu := backs_allocSaves j x.func (savePages x.desc.tpd) ps [] (s.setJob j (some x)) qs u ha
    obtain ⟨r, hr⟩ : ∃ r : State, r = (u.takeTiles j x qs).startChecks j := ⟨_, rfl⟩
    have cr : AtRest r := by
      have c1 : AtRest (u.setJob j (some { x with phase := .running, places := qs })) := by
        intro q hq y hy
        have : q ∈ SMap.set none (SMap.set none s.sched.jobs j (some x)) j (some { x with phase := .running, places := qs }) := by
          have e : u.sched.jobs = SMap.set none s.sched.jobs j (some x) := by rw [hu.sched]; rfl
          rw [← e]; exact hq
        unfold SMap.set SMap.splice at this
        rw [if_neg (by simp), if_neg (by simp)] at this
        simp only [List.mem_append, List.mem_filter, List.mem_singleton, decide_eq_true_eq] at this
        rcases this with (g | g) | g
        · obtain ⟨(g | g) | g, k⟩ := g
          · exact h q g.1 y hy
          · rw [g] at k; exact absurd k (by simp)
          · exact h q g.1 y hy
        · rw [g] at hy; injection hy with hy; rw [← hy]; exact ⟨by simp, by simp⟩
        · obtain ⟨(g | g) | g, k⟩ := g
          · exact h q g.1 y hy
          · rw [g] at k; simp at k
          · exact h q g.1 y hy
      have c2 : AtRest (u.takeTiles j x qs) := by
        unfold AtRest
        rw [(keeps_take u j x qs).1]
        exact c1
      rw [hr]
      unfold State.startChecks
      split
      · next y hy =>
        split
        · unfold State.jobFaults State.faultJob
          have c3 : AtRest ((u.takeTiles j x qs).report Codes.stashLayout { job := j, jobFaults := true }) := by
            unfold AtRest; rw [(report_rest _ _ _).2.2.2.2.1]; exact c2
          exact calm_mod _ j _ c3 (fun y => by split <;> rfl)
        · exact c2
      · exact c2
    generalize s.setJob j (some x) = t at *
    have e : t.tryPlace j = (some r, u) := by
      unfold State.tryPlace
      rw [hj]
      dsimp only
      rw [if_neg (by rw [hg, gg, tt]; simp), hw]
      dsimp only
      rw [ha]
      dsimp only
      rw [if_neg (by rw [hp]; decide), hr]
    rw [← hr]
    unfold State.reapply
    dsimp only
    rw [w2]
    unfold State.placeAll
    rw [w1]
    unfold State.placeFirst
    rw [e]
    dsimp only
    exact placeAll_calm r cr _

theorem complete_more (s : State) (r : Nat) (c : Completion) : (s.complete r c).sched.partition = s.sched.partition ∧ (s.complete r c).sched.scrubs = s.sched.scrubs
    ∧ (ringLoc (s.ring r).cq = false → (s.complete r c).mem = s.mem) := by
  unfold State.complete
  dsimp only
  split
  · exact ⟨rfl, rfl, fun _ => rfl⟩
  · obtain ⟨w1, w2, w3, w4⟩ := locWrite_rest s (ringLoc (s.ring r).cq) (ringBase (s.ring r).cq + 32 * ((s.ring r).cqTail.toNat % (s.ring r).cqSize)) (c.bytes ((s.ring r).cqTail.toNat / (s.ring r).cqSize % 2 == 0) (s.ring r).sqHead)
    have w5 : ringLoc (s.ring r).cq = false → (s.locWrite (ringLoc (s.ring r).cq) (ringBase (s.ring r).cq + 32 * ((s.ring r).cqTail.toNat % (s.ring r).cqSize)) (c.bytes ((s.ring r).cqTail.toNat / (s.ring r).cqSize % 2 == 0) (s.ring r).sqHead)).mem = s.mem := by
      intro h
      unfold State.locWrite
      rw [if_neg (by rw [h]; decide)]
    generalize s.locWrite _ _ _ = t at *
    unfold State.msix
    dsimp only
    split
    · exact ⟨by show t.sched.partition = _; rw [w2], by show t.sched.scrubs = _; rw [w2], fun h => by show t.mem = _; exact w5 h⟩
    · exact ⟨by show t.sched.partition = _; rw [w2], by show t.sched.scrubs = _; rw [w2], fun h => by show t.mem = _; exact w5 h⟩

theorem part_done (s : State) (r : Nat) (e : List Byte) (c : Code) (h : s.frontEntry r = some e) (ht : fieldLe e 0 1 = 0x95) : let m := (s.consume r).finishEntry r e c
    Wrote s m r 0x95 c 0 (entryTag e) ((s.ring r).sqHead + 1).toNat 0 ∧ m.ring r = { s.ring r with sqHead := (s.ring r).sqHead + 1, cqTail := (s.ring r).cqTail + 1 }
      ∧ (∀ q, q ≠ r → m.ring q = s.ring q) ∧ m.sched.partition = s.sched.partition ∧ m.tiles = s.tiles ∧ (c ≠ 0 → Logged s m c 0xFFFF) := by
  obtain ⟨⟨a1, a2, a3, a4, a5⟩, b, -, -⟩ := finish_spec s r c e h
  rw [ht] at a3
  refine ⟨⟨a3, a4⟩, a1, a2, ?_, a5.1, b⟩
  unfold State.finishEntry
  dsimp only
  rw [(complete_more _ _ _).1]
  split
  · rfl
  · rw [(report_rest _ _ _).2.2.2.2.1]; rfl

theorem partition_take (s : State) (r : Ring) (e : List Byte) (h : s.frontEntry r = some e) (hc : s.entryCode r e = none) (ht : fieldLe e 0 1 = 0x95) :
    exec (.partition r) s = .next (let f := fieldLe e 0x10 1
      let mask := fieldLe e 0x11 1
      if s.sched.scrubs.any (fun q => q.func == f || q.scrubbing.any (fun d => bitOf mask d)) then s
      else if s.partitionBad f mask then (s.consume r).finishEntry r e Codes.schedPartition
      else if (s.changedDies f mask).isEmpty then (s.consume r).finishEntry r e 0
      else (s.consume r).startPartition f mask ⟨some r, entryTag e, 0x95, 0⟩) := by
  show execPartition r s = _
  unfold execPartition State.takeEntry
  rw [h]
  dsimp only
  rw [hc]
  dsimp only
  rw [if_pos ht]

theorem zeros_fold : ∀ (ds : List Nat) (m : SMap Nat) (d : Nat), (ds.foldl (fun m d => SMap.set 0 m d 0) m).get 0 d = if d ∈ ds then 0 else m.get 0 d
  | [], m, d => by simp
  | a :: ds, m, d => by
    rw [List.foldl_cons, zeros_fold ds, SMap.get_set]
    by_cases h : d = a
    · simp [h]
    · simp [h]

theorem puts_fold (v : Nat) : ∀ (ds : List Nat) (m : SMap Nat) (d : Nat), (ds.foldl (fun m d => SMap.set 0 m d v) m).get 0 d = if d ∈ ds then v else m.get 0 d
  | [], m, d => by simp
  | a :: ds, m, d => by
    rw [List.foldl_cons, puts_fold v ds, SMap.get_set]
    by_cases h : d = a
    · simp [h]
    · simp [h]

theorem start_part (s : State) (f mask : Nat) (p : Pending) : let m := s.startPartition f mask p
    let ds := s.changedDies f mask
    (∀ q, m.ring q = s.ring q) ∧ (∀ d, m.sched.partition.get 0 d = if d ∈ ds then 0 else s.sched.partition.get 0 d) ∧ m.sched.scrubs = s.sched.scrubs ++ [⟨f, mask, ds, p⟩]
      ∧ (∀ j, m.job j = s.job j) ∧ m.tiles = s.tiles := by
  dsimp only
  unfold State.startPartition
  dsimp only
  have B := backs_fold State.freeDie (fun s d => by unfold State.freeDie; exact backs_freeOwned _ _) (s.changedDies f mask) s
  generalize (s.changedDies f mask).foldl State.freeDie s = t at *
  refine ⟨fun q => B.ring q, fun d => ?_, ?_, fun j => B.job j, B.tiles⟩
  · show SMap.get 0 (List.foldl _ t.sched.partition _) d = _
    rw [B.sched]; exact zeros_fold _ _ _
  · show t.sched.scrubs ++ _ = _
    rw [B.sched]

theorem partitionShape_iff (mask : Nat) : partitionShape mask = true ↔ (mask = 0 ∨ ∃ k ∈ [1, 2, 4, 8], ∃ i, i < 8 / k ∧ mask = (2 ^ k - 1) * 2 ^ (k * i)) := by
  unfold partitionShape
  rw [Bool.or_eq_true, beq_iff_eq, List.any_eq_true]
  simp only [List.any_eq_true, List.mem_range, beq_iff_eq]

theorem busy_iff (s : State) (f mask : Nat) : s.sched.scrubs.any (fun q => q.func == f || q.scrubbing.any (fun d => bitOf mask d)) = true
    ↔ ∃ q ∈ s.sched.scrubs, q.func = f ∨ ∃ d ∈ q.scrubbing, bitOf mask d = true := by
  rw [List.any_eq_true]
  simp only [Bool.or_eq_true, beq_iff_eq, List.any_eq_true]

theorem changed_eq (s : State) (f mask : Nat) : s.changedDies f mask = (List.range 8).filter (fun d => (if bitOf mask d then f + 1 else if s.sched.partition.get 0 d = f + 1 then 0 else s.sched.partition.get 0 d) != s.sched.partition.get 0 d) := rfl

theorem partBad_iff (s : State) (f mask : Nat) : s.partitionBad f mask = true ↔ (64 ≤ f ∨ ¬(mask = 0 ∨ ∃ k ∈ [1, 2, 4, 8], ∃ i, i < 8 / k ∧ mask = (2 ^ k - 1) * 2 ^ (k * i))
      ∨ (∃ d, d < 8 ∧ bitOf mask d = true ∧ s.sched.partition.get 0 d ≠ 0 ∧ s.sched.partition.get 0 d ≠ f + 1)
      ∨ ∃ d ∈ s.changedDies f mask, ∃ q ∈ s.sched.jobs, ∃ y, q.2 = some y ∧ y.places.any (fun p => p.die == d) = true) := by
  unfold State.partitionBad
  rw [← partitionShape_iff]
  have hd : ∀ d, s.dieHeld d = true ↔ ∃ q ∈ s.sched.jobs, ∃ y, q.2 = some y ∧ y.places.any (fun p => p.die == d) = true := by
    intro d
    unfold State.dieHeld
    rw [List.any_eq_true]
    constructor
    · rintro ⟨q, hq, h⟩
      cases hy : q.2 with
      | none => rw [hy] at h; cases h
      | some y => rw [hy] at h; exact ⟨q, hq, y, hy, h⟩
    · rintro ⟨q, hq, y, hy, h⟩
      exact ⟨q, hq, by rw [hy]; exact h⟩
  simp only [Bool.or_eq_true, decide_eq_true_eq, Bool.not_eq_true', List.any_eq_true, List.mem_range, Bool.and_eq_true, bne_iff_ne, ne_eq, hd, Bool.not_eq_true]
  constructor
  · rintro (((h | h) | h) | h)
    · exact Or.inl h
    · exact Or.inr (Or.inl h)
    · obtain ⟨d, a, ⟨b, c⟩, e⟩ := h; exact Or.inr (Or.inr (Or.inl ⟨d, a, b, c, e⟩))
    · exact Or.inr (Or.inr (Or.inr h))
  · rintro (h | h | h | h)
    · exact Or.inl (Or.inl (Or.inl h))
    · exact Or.inl (Or.inl (Or.inr h))
    · obtain ⟨d, a, b, c, e⟩ := h; exact Or.inl (Or.inr ⟨d, a, ⟨b, c⟩, e⟩)
    · exact Or.inr h

/-! The scrub of a partition (R466). -/

structure Scrubs (s m : State) (ds : List Nat) : Prop where
  sched : m.sched = s.sched
  power : m.power = s.power
  outbox : m.outbox = s.outbox
  pages : m.mem.pages = s.mem.pages
  keeps : ∀ a, s.mem.bytes.get 0 a = 0 → m.mem.bytes.get 0 a = 0
  zero : ∀ d ∈ ds, ∀ p z a, (p, some z) ∈ s.mem.pages → (∃ k, z.frame = some k ∧ frameStack k / 4 = d) → p * 2097152 ≤ a → a < p * 2097152 + 2097152 → m.mem.bytes.get 0 a = 0
  clear : ∀ t, (s.tile t).spad = [] ∧ (s.tile t).acc = [] → (m.tile t).spad = [] ∧ (m.tile t).acc = []
  tiles : ∀ d ∈ ds, ∀ i, i < 12 → (m.tile (12 * d + i)).spad = [] ∧ (m.tile (12 * d + i)).acc = []

theorem pages_fold (d : Nat) : ∀ (l : List (Nat × Option PageSt)) (s : State),
    let m := l.foldl (fun s (q : Nat × Option PageSt) => (match q.2.bind PageSt.frame with
      | some f => if frameStack f / 4 = d then { s with mem := { s.mem with bytes := s.mem.bytes.clear (q.1 * size2MiB) size2MiB } } else s
      | none => s : State)) s
    m = { s with mem := { s.mem with bytes := m.mem.bytes } } ∧ (∀ a, s.mem.bytes.get 0 a = 0 → m.mem.bytes.get 0 a = 0)
      ∧ ∀ p z a, (p, some z) ∈ l → (∃ k, z.frame = some k ∧ frameStack k / 4 = d) → p * 2097152 ≤ a → a < p * 2097152 + 2097152 → m.mem.bytes.get 0 a = 0
  | [], s => ⟨rfl, fun _ h => h, fun _ _ _ h => absurd h (by simp)⟩
  | q :: l, s => by
    obtain ⟨t, ht, t1, t2, t3⟩ : ∃ t : State, t = (match q.2.bind PageSt.frame with
        | some f => if frameStack f / 4 = d then { s with mem := { s.mem with bytes := s.mem.bytes.clear (q.1 * size2MiB) size2MiB } } else s
        | none => s) ∧ t = { s with mem := { s.mem with bytes := t.mem.bytes } } ∧ (∀ a, s.mem.bytes.get 0 a = 0 → t.mem.bytes.get 0 a = 0)
        ∧ ∀ z a, q.2 = some z → (∃ k, z.frame = some k ∧ frameStack k / 4 = d) → q.1 * 2097152 ≤ a → a < q.1 * 2097152 + 2097152 → t.mem.bytes.get 0 a = 0 := by
      cases hf : q.2.bind PageSt.frame with
      | none =>
        refine ⟨_, rfl, rfl, fun _ h => h, fun z a hz hk => ?_⟩
        obtain ⟨k, hk, -⟩ := hk
        rw [hz, Option.bind_some, hk] at hf
        cases hf
      | some f =>
        by_cases g : frameStack f / 4 = d
        · refine ⟨{ s with mem := { s.mem with bytes := s.mem.bytes.clear (q.1 * size2MiB) size2MiB } }, by dsimp only; rw [if_pos g], rfl, fun a h => ?_, fun z a _ _ h1 h2 => ?_⟩
          · show SMap.get 0 (SMap.clear _ _ _) a = 0
            rw [SMap.get_clear]; split
            · rfl
            · exact h
          · show SMap.get 0 (SMap.clear _ _ _) a = 0
            rw [SMap.get_clear, if_pos]
            unfold size2MiB
            exact ⟨h1, h2⟩
        · refine ⟨s, by dsimp only; rw [if_neg g], rfl, fun _ h => h, fun z a hz hk => ?_⟩
          obtain ⟨k, hk, hg⟩ := hk
          rw [hz, Option.bind_some, hk] at hf
          injection hf with hf
          rw [hf] at hg
          exact absurd hg g
    obtain ⟨m1, m2, m3⟩ := pages_fold d l t
    dsimp only at m1 m2 m3 ⊢
    rw [List.foldl_cons, ← ht]
    generalize List.foldl _ t l = m at *
    refine ⟨by rw [m1, t1], fun a h => m2 a (t2 a h), fun p z a hm hk h1 h2 => ?_⟩
    rcases List.mem_cons.1 hm with g | g
    · rw [← g] at t3
      exact m2 a (t3 z a rfl hk h1 h2)
    · exact m3 p z a g hk h1 h2

theorem wipe_fold (d : Nat) (f : TileSt → TileSt) (hf : ∀ x, (f x).spad = [] ∧ (f x).acc = []) : ∀ (is : List Nat) (s : State), let m := is.foldl (fun s i => s.modTile (12 * d + i) f) s
    m = { s with tiles := m.tiles } ∧ (∀ t, (s.tile t).spad = [] ∧ (s.tile t).acc = [] → (m.tile t).spad = [] ∧ (m.tile t).acc = []) ∧ ∀ i ∈ is, (m.tile (12 * d + i)).spad = [] ∧ (m.tile (12 * d + i)).acc = []
  | [], s => ⟨rfl, fun _ h => h, fun _ h => absurd h (by simp)⟩
  | i :: is, s => by
    obtain ⟨m1, m2, m3⟩ := wipe_fold d f hf is (s.modTile (12 * d + i) f)
    dsimp only at m1 m2 m3 ⊢
    rw [List.foldl_cons]
    generalize List.foldl _ (s.modTile (12 * d + i) f) is = m at *
    refine ⟨by rw [m1]; rfl, fun t h => m2 t ?_, fun k hk => ?_⟩
    · rw [State.tile_modTile]
      split
      · exact hf _
      · exact h
    · rcases List.mem_cons.1 hk with g | g
      · rw [g]
        refine m2 _ ?_
        rw [State.tile_modTile, if_pos rfl]
        exact hf _
      · exact m3 k g

theorem scrubs_die (s : State) (d : Nat) : Scrubs s (s.scrubDie d) [d] := by
  unfold State.scrubDie
  dsimp only
  obtain ⟨p1, p2, p3⟩ := pages_fold d s.mem.pages s
  generalize s.mem.pages.foldl _ s = s1 at *
  obtain ⟨q1, q2, q3⟩ := wipe_fold d (fun x => { x with spad := [], acc := [], units := [], ctx := [] }) (fun _ => ⟨rfl, rfl⟩) (List.range 12) s1
  generalize List.foldl _ s1 (List.range 12) = s2 at *
  have e1 : s2.mem = s1.mem := by rw [q1]
  have e2 : ∀ t, (s1.tile t) = s.tile t := fun t => by rw [p1]; rfl
  refine ⟨?_, ?_, ?_, ?_, fun a h => ?_, fun e he p z a hm hk h1 h2 => ?_, fun t h => ?_, fun e he i hi => ?_⟩
  · show s2.sched = _; rw [q1, p1]
  · show s2.power = _; rw [q1, p1]
  · show s2.outbox = _; rw [q1, p1]
  · show s2.mem.pages = _; rw [e1, p1]
  · show s2.mem.bytes.get 0 a = 0; rw [e1]; exact p2 a h
  · show s2.mem.bytes.get 0 a = 0
    rw [e1]
    rw [List.mem_singleton] at he
    rw [he] at hk
    exact p3 p z a hm hk h1 h2
  · show (s2.tile t).spad = [] ∧ (s2.tile t).acc = []
    exact q2 t (by rw [e2]; exact h)
  · rw [List.mem_singleton] at he
    rw [he]
    exact q3 i (List.mem_range.2 hi)

theorem scrubs_fold : ∀ (ds : List Nat) (s : State), Scrubs s (ds.foldl State.scrubDie s) ds
  | [], s => ⟨rfl, rfl, rfl, rfl, fun _ h => h, fun d h => absurd h (by simp), fun _ h => h, fun d h => absurd h (by simp)⟩
  | d :: ds, s => by
    have A := scrubs_die s d
    have B := scrubs_fold ds (s.scrubDie d)
    rw [List.foldl_cons]
    refine ⟨B.sched.trans A.sched, B.power.trans A.power, B.outbox.trans A.outbox, B.pages.trans A.pages, fun a h => B.keeps a (A.keeps a h), fun e he p z a hm hk h1 h2 => ?_, fun t h => B.clear t (A.clear t h), fun e he i hi => ?_⟩
    · rcases List.mem_cons.1 he with g | g
      · exact B.keeps a (A.zero e (List.mem_singleton.2 g) p z a hm hk h1 h2)
      · exact B.zero e g p z a (by rw [A.pages]; exact hm) hk h1 h2
    · rcases List.mem_cons.1 he with g | g
      · exact B.clear _ (A.tiles e (List.mem_singleton.2 g) i hi)
      · exact B.tiles e g i hi

theorem scrub_spec (s : State) (f : Nat) (q : ScrubSt) (r : Nat) (hq : s.sched.scrubs.find? (fun q => q.func == f) = some q) (hr : q.pend.ring = some r)
    (ha : (s.ring r).active = true) (hc : (s.ring r).closing = false) (hi : Idle s) : let m := partitionScrubComplete f s
    let y := s.ring r
    (∀ d, m.sched.partition.get 0 d = if d ∈ q.scrubbing ∧ bitOf q.dies d = true then f + 1 else s.sched.partition.get 0 d)
      ∧ m.sched.scrubs = s.sched.scrubs.filter (fun z => z.func != f)
      ∧ (∀ d ∈ q.scrubbing, ∀ i, i < 12 → (m.tile (12 * d + i)).spad = [] ∧ (m.tile (12 * d + i)).acc = [])
      ∧ (ringLoc y.cq = false → ∀ d ∈ q.scrubbing, ∀ p z a, (p, some z) ∈ s.mem.pages → (∃ k, z.frame = some k ∧ frameStack k / 4 = d) → p * 2097152 ≤ a → a < p * 2097152 + 2097152 → m.mem.bytes.get 0 a = 0)
      ∧ m.ring r = { y with cqTail := y.cqTail + 1, owed := y.owed - 1 } ∧ (∀ k, k ≠ r → m.ring k = s.ring k) ∧ Wrote s m r q.pend.kind 0 0 q.pend.tag y.sqHead.toNat 0 ∧ ∀ j, m.job j = s.job j := by
  dsimp only
  unfold partitionScrubComplete
  rw [hq]
  dsimp only
  rw [hr]
  dsimp only
  have S := scrubs_fold q.scrubbing s
  generalize q.scrubbing.foldl State.scrubDie s = s1 at *
  obtain ⟨s2, h2⟩ : ∃ s2 : State, s2 = { s1 with sched := { s1.sched with
      partition := (q.scrubbing.filter (fun d => bitOf q.dies d)).foldl (fun m d => m.set 0 d (f + 1)) s1.sched.partition,
      scrubs := s1.sched.scrubs.filter (fun y => y.func != f) } } := ⟨_, rfl⟩
  rw [← h2]
  have r2 : ∀ k, s2.ring k = s.ring k := fun k => by rw [h2]; show SMap.get .init s1.sched.rings k = _; rw [S.sched]; rfl
  have j2 : ∀ k, s2.job k = s.job k := fun k => by rw [h2]; show SMap.get none s1.sched.jobs k = _; rw [S.sched]; rfl
  have o2 : s2.outbox = s.outbox := by rw [h2]; exact S.outbox
  have x2 : s2.sched.msix = s.sched.msix := by rw [h2]; show s1.sched.msix = _; rw [S.sched]
  have p2 : s2.power = s.power := by rw [h2]; exact S.power
  have n2 : s2.sched.jobs = s.sched.jobs := by rw [h2]; show s1.sched.jobs = _; rw [S.sched]
  have t2 : s2.tiles = s1.tiles := by rw [h2]
  have m2 : s2.mem = s1.mem := by rw [h2]
  have pa2 : s2.sched.partition = (q.scrubbing.filter (fun d => bitOf q.dies d)).foldl (fun m d => m.set 0 d (f + 1)) s.sched.partition := by rw [h2]; show List.foldl _ s1.sched.partition _ = _; rw [S.sched]
  have sc2 : s2.sched.scrubs = s.sched.scrubs.filter (fun y => y.func != f) := by rw [h2]; show List.filter _ s1.sched.scrubs = _; rw [S.sched]
  clear h2
  obtain ⟨c1, c2, c3, c4, c5, c6⟩ := wrote_of s s2 r q.pend.kind 0 0 q.pend.tag 0 (s.ring r) ha hc (r2 r) rfl rfl rfl rfl rfl rfl o2 x2 _ rfl
  obtain ⟨d1, d2, d3⟩ := complete_sched s2 r { kind := q.pend.kind, status := 0, job := 0, tag := q.pend.tag, preempts := 0 }
  obtain ⟨e1, e2, e3⟩ := complete_more s2 r { kind := q.pend.kind, status := 0, job := 0, tag := q.pend.tag, preempts := 0 }
  have ce : ({ kind := q.pend.kind, tag := q.pend.tag } : Completion) = { kind := q.pend.kind, status := 0, job := 0, tag := q.pend.tag, preempts := 0 } := rfl
  rw [ce]
  generalize s2.complete r { kind := q.pend.kind, status := 0, job := 0, tag := q.pend.tag, preempts := 0 } = m at *
  have im : Idle m := by unfold Idle; rw [d2, d3, n2, p2]; exact hi
  rw [reapply_id m im]
  refine ⟨fun d => ?_, e2.trans sc2, fun d hd i hi => ?_, fun hl d hd p z a hm hk h1 h2 => ?_, c2, fun k hk => (c3 k hk).trans (r2 k), c1, fun j => (c6 j).trans (j2 j)⟩
  · rw [e1, pa2, puts_fold]
    simp only [List.mem_filter]
  · have : ∀ t, m.tile t = s1.tile t := fun t => by unfold State.tile; rw [c4.1, t2]
    rw [this]
    exact S.tiles d hd i hi
  · rw [e3 (by rw [r2]; exact hl), m2]
    exact S.zero d hd p z a hm hk h1 h2

/-- What the taking of an admitted best-effort job leaves. -/
def Admits (s m : State) (r j : Nat) (e : List Byte) (d : JobDesc) (y : JobSt) : Prop :=
  m.job j = some y ∧ (∀ k, k ≠ j → m.job k = s.job k) ∧ y.ring = r ∧ y.tag = entryTag e ∧ y.func = (s.ring r).owner.toNat ∧ y.desc = d ∧ y.admitted = s.sched.admitCtr
    ∧ m.ring r = { s.ring r with sqHead := (s.ring r).sqHead + 1, owed := (s.ring r).owed + 1, submitted := count32 (s.ring r).submitted } ∧ ∀ q, q ≠ r → m.ring q = s.ring q

theorem place_frame (t u : State) (j f n : Nat) (x : JobSt) (ps qs : List DiePlace) (ha : State.allocSaves j f n [] ps t = .ok qs u) :
    ∃ y, (y = { x with phase := .running, places := qs } ∨ ∃ c, x.desc.interleave ≠ 0 ∧ y = { x with phase := .running, places := qs, fault := some c }) ∧ ((u.takeTiles j x qs).startChecks j).job j = some y
      ∧ (∀ k, k ≠ j → ((u.takeTiles j x qs).startChecks j).job k = t.job k) ∧ ∀ q, ((u.takeTiles j x qs).startChecks j).ring q = t.ring q := by
  have hu := backs_allocSaves j f n ps [] t qs u ha
  have hk := keeps_take u j x qs
  have k1 : ∀ k, (u.takeTiles j x qs).job k = if k = j then some { x with phase := .running, places := qs } else t.job k := fun k => by
    have : (u.takeTiles j x qs).job k = (u.setJob j (some { x with phase := .running, places := qs })).job k := by unfold State.job; rw [hk.1]
    rw [this, job_setJob', hu.job]
  have k2 : ∀ q, (u.takeTiles j x qs).ring q = t.ring q := fun q => by
    have : (u.takeTiles j x qs).ring q = (u.setJob j (some { x with phase := .running, places := qs })).ring q := by unfold State.ring; rw [hk.1]
    rw [this, ← hu.ring]; rfl
  generalize u.takeTiles j x qs = v at *
  unfold State.startChecks
  rw [k1, if_pos rfl]
  dsimp only
  split
  · next g =>
    obtain ⟨a1, a2, a3, a4, a5, a6, a7, a8⟩ := jobFaults_eq v j Codes.stashLayout {}
    obtain ⟨-, -, -, -, b⟩ := ringRest_faults v j Codes.stashLayout {}
    refine ⟨{ x with phase := .running, places := qs, fault := some (x.fault.getD Codes.stashLayout) }, Or.inr ⟨_, ?_, rfl⟩, ?_, fun k hk => ?_, fun q => (b q).trans (k2 q)⟩
    · intro h
      rw [h] at g
      simp at g
    · rw [a8, if_pos rfl, k1, if_pos rfl]; rfl
    · rw [a8, if_neg hk, k1, if_neg hk]
  · exact ⟨_, Or.inl rfl, by rw [k1, if_pos rfl], fun k hk => by rw [k1, if_neg hk], k2⟩

theorem admit_spec (s : State) (r j : Nat) (e : List Byte) (v : Vote) (twin : Bool) (h : s.frontEntry r = some e) (hj : s.freeJobNo = some j) (hp : s.power.target = none) :
    let x := s.ring r
    let f := x.func
    let a := fieldLe e 0x10 8
    let d := jobDescOf (s.readMem a 256)
    let m := s.admitJob r j e v twin
    (∀ c, s.jobCode f a (s.readMem a 256) d twin = some c → Refused s m r e j c)
    ∧ (s.jobCode f a (s.readMem a 256) d twin = none →
        (∀ c, v = .aborted c → Refused s m r e j c)
        ∧ ∀ n xs, v = .sums n xs →
          (s.offered.filter (fun g => xs.getD g 0 == n) = [] → Refused s m r e j Codes.gradeNoCommon)
          ∧ ∀ g, (s.offered.filter (fun g => xs.getD g 0 == n)).getLast? = some g →
            (d.cls ≠ 0 → d.wcet.getD g 0 = 0 → Refused s m r e j Codes.schedNoBound)
            ∧ (d.cls ≠ 0 → d.wcet.getD g 0 ≠ 0 → s.anteKeeps.bind (fun kept => s.placeLc f d kept) = none → Refused s m r e j Codes.schedLcCapacity)
            ∧ (d.cls = 0 → AtRest s →
                let z := takeJob s r
                let t := State.setJob { z with sched := { z.sched with admitCtr := z.sched.admitCtr + 1, waitCtr := z.sched.waitCtr + 1 } } j (some { JobSt.new r e f d s.sched.admitCtr s.sched.waitCtr 0 with grade := g })
                (g ≠ s.grade → ∃ y, Admits s m r j e d y ∧ y.phase = .waiting ∧ y.grade = g ∧ m.power = { s.power with target := some g })
                ∧ (g = s.grade → t.walk f d t.tileFree = none → ∃ y, Admits s m r j e d y ∧ y.phase = .waiting ∧ y.grade = g ∧ m.power = s.power)
                ∧ ∀ ps qs u, g = s.grade → t.walk f d t.tileFree = some ps → State.allocSaves j f (savePages d.tpd) [] ps t = .ok qs u →
                    ∃ y, Admits s m r j e d y ∧ y.phase = .running ∧ y.places = qs ∧ y.grade = g ∧ (d.interleave = 0 → y.fault = none))) := by
  intro x f a d m
  have hm : m = s.admitJob r j e v twin := rfl
  obtain ⟨ha, hc⟩ := frontEntry_live s r e h
  have hjn := freeJob_none s j hj
  have R : ∀ (w : JobSt) c, w.tag = entryTag e → Refused s ((takeJob s r).refuseJob r j w c) r e j c := fun w c hw => refuseJob_spec s r j e w c hw hjn ha hc
  rw [admit_eq] at hm
  dsimp only at hm
  obtain ⟨w, hw, hwt⟩ : ∃ w : JobSt, w = JobSt.new r e (s.ring r).func (jobDescOf (s.readMem (fieldLe e 0x10 8) 256)) s.sched.admitCtr s.sched.waitCtr 0 ∧ w.tag = entryTag e := ⟨_, rfl, rfl⟩
  rw [← hw] at hm
  clear_value m
  have e1 : f = (s.ring r).func := rfl
  have e2 : d = jobDescOf (s.readMem (fieldLe e 0x10 8) 256) := rfl
  have e3 : a = fieldLe e 0x10 8 := rfl
  rw [← e1, ← e3] at hm hw
  rw [← e2] at hm hw
  clear_value f d a
  refine ⟨fun c hcode => ?_, fun hcode => ⟨fun c hv => ?_, fun n xs hv => ⟨fun ho => ?_, fun g hg => ?_⟩⟩⟩
  · rw [hcode] at hm
    rw [hm]; exact R _ _ hwt
  · rw [hcode, hv] at hm
    rw [hm]; exact R _ _ hwt
  · rw [hcode, hv] at hm
    unfold State.agreedGrade at hm
    dsimp only at hm
    rw [ho] at hm
    rw [hm]; exact R _ _ hwt
  · rw [hcode, hv] at hm
    unfold State.agreedGrade at hm
    dsimp only at hm
    rw [hg] at hm
    dsimp only at hm
    refine ⟨fun h1 h2 => ?_, fun h1 h2 h3 => ?_, fun h1 hr => ?_⟩
    · rw [if_neg h1, if_pos h2] at hm
      rw [hm]; exact R _ _ hwt
    · rw [if_neg h1, if_neg h2, h3] at hm
      rw [hm]; exact R _ _ hwt
    · rw [if_pos h1] at hm
      obtain ⟨z, hz⟩ : ∃ z : State, z = { takeJob s r with sched := { (takeJob s r).sched with admitCtr := s.sched.admitCtr + 1, waitCtr := s.sched.waitCtr + 1 } } := ⟨_, rfl⟩
      obtain ⟨W, hW⟩ : ∃ W : JobSt, W = { w with grade := g } := ⟨_, rfl⟩
      rw [← hz, ← hW] at hm
      have eW : ({ JobSt.new r e f d s.sched.admitCtr s.sched.waitCtr 0 with grade := g } : JobSt) = W := by rw [hW, hw]
      have ez : ({ takeJob s r with sched := { (takeJob s r).sched with admitCtr := (takeJob s r).sched.admitCtr + 1, waitCtr := (takeJob s r).sched.waitCtr + 1 } } : State) = z := by rw [hz]; rfl
      dsimp only
      rw [eW, ez]
      obtain ⟨z1, z2⟩ := takeJob_ring s r
      have zr : z.ring r = { s.ring r with sqHead := (s.ring r).sqHead + 1, owed := (s.ring r).owed + 1, submitted := count32 (s.ring r).submitted } := by rw [hz]; exact z1
      have zo : ∀ q, q ≠ r → z.ring q = s.ring q := fun q hq => by rw [hz]; exact z2 q hq
      have zj : ∀ k, z.job k = s.job k := fun k => by rw [hz]; rfl
      have zp : z.power = s.power := by rw [hz]; rfl
      have zg : z.grade = s.grade := by rw [hz]; rfl
      have za : AtRest z := by rw [hz]; exact hr
      have w1 : W.ring = r ∧ W.tag = entryTag e ∧ W.func = (s.ring r).owner.toNat ∧ W.desc = d ∧ W.admitted = s.sched.admitCtr ∧ W.phase = .waiting ∧ W.grade = g ∧ W.fault = none := by
        rw [hW, hw, e1]; exact ⟨rfl, rfl, rfl, rfl, rfl, rfl, rfl, rfl⟩
      clear_value x
      clear hz hW eW ez hw z1 z2
      obtain ⟨w1, w2, w3, w4, w5, w6, w7, w8⟩ := w1
      have wf : W.func = f := by rw [w3, e1]; rfl
      have A : ∀ m' : State, (∀ k, m'.job k = (z.setJob j (some W)).job k) → (∀ q, m'.ring q = z.ring q) → Admits s m' r j e d W := fun m' q1 q2 =>
        ⟨by rw [q1, job_setJob', if_pos rfl], fun k hk => by rw [q1, job_setJob', if_neg hk, zj], w1, w2, w3, w4, w5, by rw [q2, zr], fun q hq => by rw [q2, zo q hq]⟩
      have P := place_one z j W za w6 (by rw [w4]; exact h1) w8
      rw [wf, w4] at P
      refine ⟨fun h2 => ?_, fun h2 hw => ?_, fun ps qs u h2 hw hal => ?_⟩
      · rw [if_neg h2, reapply_target _ (by rfl)] at hm
        rw [hm]
        exact ⟨W, A _ (fun _ => rfl) (fun _ => rfl), w6, w7, by rw [← zp]; rfl⟩
      · rw [if_pos h2, (P (by rw [w7, h2, zg]) (by rw [zp]; exact hp)).1 hw] at hm
        rw [hm]
        exact ⟨W, A _ (fun _ => rfl) (fun _ => rfl), w6, w7, zp⟩
      · rw [if_pos h2, (P (by rw [w7, h2, zg]) (by rw [zp]; exact hp)).2 ps qs u hw hal] at hm
        obtain ⟨y, hy, y1, y2, y3⟩ := place_frame (z.setJob j (some W)) u j f (savePages d.tpd) W ps qs hal
        rw [← hm] at y1 y2 y3
        obtain ⟨-, b, -, -, -, -, -, b8, b9⟩ := A _ (fun _ => rfl) (fun _ => rfl)
        have y5 : y.ring = W.ring ∧ y.tag = W.tag ∧ y.func = W.func ∧ y.desc = W.desc ∧ y.admitted = W.admitted ∧ y.phase = .running ∧ y.places = qs ∧ y.grade = W.grade ∧ (d.interleave = 0 → y.fault = none) := by
          rcases hy with hy | ⟨c, hi, hy⟩
          · rw [hy]; exact ⟨rfl, rfl, rfl, rfl, rfl, rfl, rfl, rfl, fun _ => w8⟩
          · rw [hy]; refine ⟨rfl, rfl, rfl, rfl, rfl, rfl, rfl, rfl, fun k => ?_⟩
            rw [w4] at hi
            exact absurd k hi
        obtain ⟨v1, v2, v3, v4, v5, v6, v7, v8, v9⟩ := y5
        exact ⟨y, ⟨y1, fun k hk => by rw [y2 k hk, b k hk], v1.trans w1, v2.trans w2, v3.trans w3, v4.trans w4, v5.trans w5, by rw [y3, b8], fun q hq => by rw [y3, b9 q hq]⟩, v6, v7, v8.trans w7, v9⟩

end Sys2Proof.Machine
end

