-- ==== Sys2Proof/Laws/Matrix.lean ====
section
/-!
SUPPORT. Laws/Matrix.lean: what writes of an accumulator tile do to each word, and what changes of its state and history
leave alone.
-/

namespace Sys2Proof.Machine

/-- Word (row, column) of an accumulator tile. -/
theorem accTile_bounds {quart : Bool} {i : Nat} {a : AccTile} (h : accTile quart i = some a) :
    a.col0 + a.cols ≤ 512 ∧ a.full < 8 ∧ (a.cols = if quart then 128 else 512) := by
  unfold accTile at h
  cases quart
  · simp only [Bool.false_eq_true, if_false] at h ⊢
    split at h
    · cases h; refine ⟨?_, ?_, rfl⟩ <;> dsimp only <;> omega
    · cases h
  · simp only [if_true] at h ⊢
    split at h
    · cases h; refine ⟨?_, ?_, rfl⟩ <;> dsimp only <;> omega
    · cases h

theorem AccTile.key_inj {a : AccTile} (h : a.col0 + a.cols ≤ 512) {r r' c c' : Nat} (hc : c < a.cols) (hc' : c' < a.cols)
    (e : a.key r c = a.key r' c') : r = r' ∧ c = c' := by
  unfold AccTile.key at e
  omega

theorem TileSt.accRow_getD (x : TileSt) (a : AccTile) (r c : Nat) (hc : c < a.cols) :
    (x.accRow a r).getD c 0 = x.acc.get 0 (a.key r c) := by
  unfold TileSt.accRow
  rw [SMap.getRange_getD _ _ _ _ _ hc]
  unfold AccTile.key
  rw [Nat.add_zero]

@[simp] theorem TileSt.accRow_length (x : TileSt) (a : AccTile) (r : Nat) : (x.accRow a r).length = a.cols :=
  SMap.getRange_length _ _ _ _

/-- A row's write: its own words take the row, every other word keeps its value. -/
theorem TileSt.acc_setAccRow (x : TileSt) (a : AccTile) (r : Nat) (ws : List W32) (k : Nat) :
    (x.setAccRow a r ws).acc.get 0 k
      = if a.key r 0 ≤ k ∧ k < a.key r 0 + ws.length then ws.getD (k - a.key r 0) 0 else x.acc.get 0 k := by
  unfold TileSt.setAccRow
  rw [SMap.get_setRange]

theorem TileSt.setAccRows_rest (a : AccTile) (ps : List (List W32 × Nat)) (x : TileSt) :
    ps.foldl (fun x p => x.setAccRow a p.2 p.1) x = { x with acc := (ps.foldl (fun x p => x.setAccRow a p.2 p.1) x).acc } := by
  induction ps generalizing x with
  | nil => rfl
  | cons p ps ih => simp only [List.foldl_cons]; rw [ih]; rfl

theorem TileSt.setAcc_rest (x : TileSt) (a : AccTile) (rows : List (List W32)) :
    x.setAcc a rows = { x with acc := (x.setAcc a rows).acc } := TileSt.setAccRows_rest a _ x

/-- A write of the rows: word (r, c) takes element c of row r. -/
theorem TileSt.acc_setAcc (x : TileSt) (a : AccTile) (h : a.col0 + a.cols ≤ 512) (rows : List (List W32))
    (hl : ∀ ws ∈ rows, ws.length = a.cols) (r c : Nat) (hr : r < rows.length) (hc : c < a.cols) :
    (x.setAcc a rows).acc.get 0 (a.key r c) = (rows.getD r []).getD c 0 := by
  unfold TileSt.setAcc
  have key : ∀ (ps : List (List W32 × Nat)), (∀ p ∈ ps, p.1.length = a.cols) → ∀ x : TileSt,
      ((ps.foldl (fun x p => x.setAccRow a p.2 p.1) x).acc.get 0 (a.key r c) = x.acc.get 0 (a.key r c) ∧ ∀ p ∈ ps, p.2 ≠ r)
        ∨ ∃ p ∈ ps, p.2 = r ∧ (ps.foldl (fun x p => x.setAccRow a p.2 p.1) x).acc.get 0 (a.key r c) = p.1.getD c 0 := by
    intro ps hps
    induction ps with
    | nil => intro x; exact .inl ⟨rfl, by simp⟩
    | cons p ps ih =>
      intro x
      simp only [List.foldl_cons]
      rcases ih (fun q hq => hps q (by simp [hq])) (x.setAccRow a p.2 p.1) with ⟨h1, h2⟩ | ⟨q, hq, h1, h2⟩
      · have hpl := hps p (by simp)
        by_cases hp : p.2 = r
        · refine .inr ⟨p, by simp, hp, ?_⟩
          rw [h1, TileSt.acc_setAccRow, if_pos]
          · congr 1; unfold AccTile.key; rw [hp]; omega
          · unfold AccTile.key; rw [hp, hpl]; omega
        · refine .inl ⟨?_, ?_⟩
          · rw [h1, TileSt.acc_setAccRow, if_neg]
            intro hk
            apply hp
            unfold AccTile.key at hk
            rw [hpl] at hk
            omega
          · intro q hq
            rcases List.mem_cons.1 hq with rfl | hq
            · exact hp
            · exact h2 q hq
      · exact .inr ⟨q, by simp [hq], h1, h2⟩
  have hz : ∀ p ∈ rows.zipIdx, p.1.length = a.cols := by
    intro p hp
    exact hl _ (List.fst_mem_of_mem_zipIdx hp)
  rcases key rows.zipIdx hz x with ⟨-, h2⟩ | ⟨p, hp, h1, h2⟩
  · exfalso
    have : (rows[r], r) ∈ rows.zipIdx := by
      rw [List.mem_zipIdx_iff_getElem?]
      simp [hr]
    exact h2 _ this rfl
  · rw [h2]
    have : rows[r]? = some p.1 := by
      have := List.mem_zipIdx_iff_getElem?.1 hp
      rw [h1] at this; exact this
    rw [List.getD_eq_getElem?_getD, List.getD_eq_getElem?_getD, List.getD_eq_getElem?_getD, this]
    rfl

/-- Words outside the accumulator tile keep their values. -/
theorem TileSt.acc_setAcc_other (x : TileSt) (a : AccTile) (rows : List (List W32))
    (hl : ∀ ws ∈ rows, ws.length = a.cols) (k : Nat) (hk : ∀ r c, r < rows.length → c < a.cols → k ≠ a.key r c) :
    (x.setAcc a rows).acc.get 0 k = x.acc.get 0 k := by
  unfold TileSt.setAcc
  have key : ∀ (ps : List (List W32 × Nat)), (∀ p ∈ ps, p.1.length = a.cols ∧ p.2 < rows.length) → ∀ x : TileSt,
      (ps.foldl (fun x p => x.setAccRow a p.2 p.1) x).acc.get 0 k = x.acc.get 0 k := by
    intro ps hps
    induction ps with
    | nil => intro x; rfl
    | cons p ps ih =>
      intro x
      simp only [List.foldl_cons]
      rw [ih (fun q hq => hps q (by simp [hq])), TileSt.acc_setAccRow, if_neg]
      intro h
      have hp := hps p (by simp)
      refine hk p.2 (k - a.key p.2 0) hp.2 (by omega) ?_
      unfold AccTile.key at *
      omega
  apply key
  intro p hp
  refine ⟨hl _ (List.fst_mem_of_mem_zipIdx hp), ?_⟩
  have := List.mem_zipIdx_iff_getElem?.1 hp
  exact (List.getElem?_eq_some_iff.1 this).1

/-! States and histories of units. -/

theorem TileSt.foldUnits_rest (us : List Nat) (f : AccUnit → AccUnit) (x : TileSt) :
    us.foldl (fun x u => x.modUnit u f) x = { x with units := (us.foldl (fun x u => x.modUnit u f) x).units } := by
  induction us generalizing x with
  | nil => rfl
  | cons u us ih => simp only [List.foldl_cons]; rw [ih]; rfl

theorem TileSt.setAccState_rest (x : TileSt) (a : AccTile) (st : AccState) :
    x.setAccState a st = { x with units := (x.setAccState a st).units } := TileSt.foldUnits_rest _ _ x

theorem TileSt.modHist_rest (x : TileSt) (quart : Bool) (a : AccTile) (f : AccHist → AccHist) :
    x.modHist quart a f = { x with units := (x.modHist quart a f).units } := by
  have h := TileSt.foldUnits_rest a.units (fun y => { y with quart := f y.quart }) x
  unfold TileSt.modHist
  dsimp only
  rw [h]
  rfl

theorem TileSt.unit_modUnit (x : TileSt) (u v : Nat) (f : AccUnit → AccUnit) :
    (x.modUnit u f).unit v = if v = u then f (x.unit u) else x.unit v := by
  unfold TileSt.modUnit TileSt.unit
  exact SMap.get_set _ _ _ _ _

theorem TileSt.unit_foldUnits (us : List Nat) (f : AccUnit → AccUnit) (hf : ∀ y, f (f y) = f y) (x : TileSt) (v : Nat) :
    (us.foldl (fun x u => x.modUnit u f) x).unit v = if v ∈ us then f (x.unit v) else x.unit v := by
  induction us generalizing x with
  | nil => simp
  | cons u us ih =>
    simp only [List.foldl_cons, List.mem_cons]
    rw [ih, TileSt.unit_modUnit]
    by_cases h : v = u
    · subst h; simp only [if_true, true_or, hf, ite_self]
    · rw [if_neg h]; simp only [h, false_or]

/-- State of each unit after the state of an accumulator tile is set. -/
theorem TileSt.unit_setAccState (x : TileSt) (a : AccTile) (st : AccState) (v : Nat) :
    (x.setAccState a st).unit v = if v ∈ a.units then { x.unit v with state := st } else x.unit v :=
  TileSt.unit_foldUnits _ (fun y => { y with state := st }) (fun _ => rfl) x v

theorem TileSt.state_foldUnits (us : List Nat) (f : AccUnit → AccUnit) (hf : ∀ y, (f y).state = y.state) (x : TileSt)
    (v : Nat) : ((us.foldl (fun x u => x.modUnit u f) x).unit v).state = (x.unit v).state := by
  induction us generalizing x with
  | nil => rfl
  | cons u us ih =>
    simp only [List.foldl_cons]
    rw [ih, TileSt.unit_modUnit]
    by_cases h : v = u
    · subst h; rw [if_pos rfl, hf]
    · rw [if_neg h]

/-- A change of histories leaves every state. -/
theorem TileSt.state_modHist (x : TileSt) (quart : Bool) (a : AccTile) (f : AccHist → AccHist) (v : Nat) :
    ((x.modHist quart a f).unit v).state = (x.unit v).state := by
  unfold TileSt.modHist
  dsimp only
  rw [TileSt.unit_modUnit]
  have e := TileSt.state_foldUnits a.units (fun y => { y with quart := f y.quart }) (fun _ => rfl) x
  split
  · next h => subst h; exact e _
  · exact e _

theorem TileSt.accState_congr {x y : TileSt} (a : AccTile) (h : ∀ v, (y.unit v).state = (x.unit v).state) :
    y.accState a = x.accState a := by
  unfold TileSt.accState
  simp only [h]

theorem TileSt.accState_setAccState (x : TileSt) (a : AccTile) (st : AccState) (h : a.units ≠ []) :
    (x.setAccState a st).accState a = some st := by
  unfold TileSt.accState
  have : a.units.map (fun u => ((x.setAccState a st).unit u).state) = List.replicate a.units.length st := by
    rw [List.eq_replicate_iff]
    refine ⟨by simp, ?_⟩
    intro b hb
    obtain ⟨u, hu, rfl⟩ := List.mem_map.1 hb
    rw [TileSt.unit_setAccState, if_pos hu]
  rw [this]
  cases hn : a.units.length with
  | zero => exact absurd (List.length_eq_zero_iff.1 hn) h
  | succ n => simp [List.replicate_succ]

theorem accTile_units {quart : Bool} {i : Nat} {a : AccTile} (h : accTile quart i = some a) : a.units ≠ [] := by
  unfold accTile at h
  split at h
  · split at h <;> cases h; simp
  · split at h <;> cases h; simp

end Sys2Proof.Machine
end

