-- ==== Sys2Proof/WellFormed.lean ====
section
/-!
DEFINITION. WellFormed.lean: which commands can be given: the checks on operands that the types of Syntax.lean leave open.
-/

namespace Sys2Proof

/-- A job number (R401). -/
def jobNo (j : Nat) : Bool := decide (1 ≤ j) && decide (j ≤ 4095)

/-- A range page: MEM.CAP.RANGE_PAGES has 27 bits (R273, R318). -/
def pageNo (p : Nat) : Bool := decide (p < 2 ^ 27)

/-- A die other than the conductor, in the order of R461. -/
def dieNo (d : Nat) : Bool := decide (1 ≤ d) && decide (d ≤ 44)

/-- A die class and an index that exists (R3); the module-wide class has index 0. -/
def dieClass (cls idx : Nat) : Bool :=
  match cls with
  | 0 => idx == 0
  | 1 => decide (idx < 4)
  | 2 => decide (idx < 8)
  | 3 => decide (idx < 32)
  | 4 => idx == 0
  | _ => false

/-- Bytes of an access to a register. -/
def widthOk (n : Nat) : Bool := [1, 2, 4, 8].contains n

/-- BAR0 has 2 MiB (R392); BAR2 has the 40 bits of R3. -/
def Iface.offOk (who : Iface) (off : Nat) : Bool :=
  match who with
  | .bar0 _ => decide (off < 0x200000)
  | .host _ => true
  | .board => true

/-- Bytes of an element (Table 4 of 09). -/
def MsTy.bytes : MsTy → Nat
  | .fp32 => 4
  | .bf16 => 2
  | .fp16 => 2
  | .int32 => 4
  | .int64 => 8

/-- Passing steps that a sweep can count (R302, R358). -/
def Margins.wf (m : Margins) : Bool := decide (m.left ≤ 32) && decide (m.right ≤ 31) && decide (m.low ≤ 16) && decide (m.high ≤ 15)

/-- A flash tier of at most 64 TiB that has superblocks when it has channels (R304, R305). -/
def BootEnv.wf (e : BootEnv) : Bool :=
  decide (e.rawBytes ≤ 2 ^ 46) && (e.flashChans == 0 || decide (0 < e.superblocks)) && e.st00.all Margins.wf

/-- A command whose operands lie in their ranges. -/
def Instr.wf : Instr → Bool
  | .registerWrite who off width _ => widthOk width && who.offOk off.toNat
  | .barrierWaveRelease n wave => jobNo n && decide (wave < 32)
  | .attnBwdSetStart _ n => jobNo n
  | .unitBoundary n => jobNo n
  | .stashPageMap n => jobNo n
  | .stashReleasePhysical n _ => jobNo n
  | .stashWrite _ _ data => !data.isEmpty
  | .stashRead _ _ count _ _ => decide (0 < count)
  | .trainingStepStart n => jobNo n
  | .updateUnitStart n => jobNo n
  | .reserveStepPages n => jobNo n
  | .stepBoundary n _ _ => jobNo n
  | .memorySideOperation _ _ ty _ data => !data.isEmpty && data.length % ty.bytes == 0
  | .evictionComplete page => pageNo page
  | .migrationComplete page _ => pageNo page
  | .seMargin _ _ results => decide (results.length ≤ 32) && results.all Margins.wf
  | .nearFlitReceive _ _ flit => flit.length == 256
  | .linkWriteReceive _ h data => data.length == h.len.toNat
  | .reply _ version => version == 1 || version == 2
  | .linkMarginDone _ results => results.length == 8 && results.all Margins.wf
  | .allReduce n _ => jobNo n
  | .broadcast n _ => jobNo n
  | .allGather n _ => jobNo n
  | .shuffle n _ => jobNo n
  | .collectiveBarrier n _ => jobNo n
  | .digest n _ => jobNo n
  | .post _ _ header => header.length == 128
  | .potChunk _ _ _ _ _ _ _ data => !data.isEmpty
  | .shuffleData _ _ _ _ _ _ _ data => !data.isEmpty
  | .saveComplete j _ => jobNo j
  | .swapEvaluation blocked => blocked.all (fun q => jobNo q.2.1)
  | .jobComplete j => jobNo j
  | .jobFault j => jobNo j
  | .pfFlr env => env.wf
  | .meterSample mv cur w => decide (mv < 65536) && decide (cur < 65536) && decide (w < 65536)
  | .getCertificate slot => decide (slot < 8)
  | .challenge slot => decide (slot < 8)
  | .getMeasurements index _ => decide (index < 256)
  | .coldBoot env => env.wf
  | .perstAssert env => env.wf
  | .hotReset env => env.wf
  | .warmReset _ _ env => env.wf
  | .conductorWatchdog env => env.wf
  | .perDieResetComplete die _ => dieNo die
  | .dieWatchdogExpiry die => dieNo die
  | .testComplete ticket _ results => decide (ticket < 256) && results.all Margins.wf
  | .errorLogCollection cls idx => dieClass cls idx
  | .nop .. | .halt .. | .handEnd .. | .br .. | .brr .. | .loop .. | .wait .. | .isaWaitTimeout .. | .signal ..
  | .barrier .. | .fence .. | .trap .. | .runPastEnd .. | .add .. | .sub .. | .mul .. | .and .. | .or .. | .xor ..
  | .shl .. | .shr .. | .sra .. | .mins .. | .maxs .. | .minu .. | .maxu .. | .cmp .. | .ld .. | .st .. | .mfe ..
  | .dload .. | .dset .. | .dcopy .. | .dgather .. | .dwin .. | .dmaComplete .. | .dmaFaultReport .. | .mma ..
  | .mzero .. | .mstore .. | .mload .. | .abind .. | .afwd .. | .abwd .. | .aappend .. | .appendPageWrite ..
  | .averify .. | .vadd .. | .vsub .. | .vmul .. | .vfma .. | .vmin .. | .vmax .. | .vcmp .. | .vsel .. | .vld ..
  | .vst .. | .vbcast .. | .vred .. | .vstat .. | .vcvt .. | .exp2 .. | .exp .. | .log2 .. | .rcp .. | .rsqrt ..
  | .sigmoid .. | .tanh .. | .gelu .. | .silu .. | .softplus .. | .erf .. | .sin .. | .cos .. | .ante ..
  | .phaseExpiry .. | .trace .. | .cntrd .. | .gemm .. | .attnFwd .. | .attnBwd .. | .conv .. | .regroup ..
  | .crop .. | .detect .. | .sync .. | .rawHand .. | .hostAtomicFetchAdd .. | .unifiedAccess .. | .migrationStart ..
  | .alloc .. | .free .. | .objectSync .. | .attach .. | .hostBar4Access .. | .patrolRead .. | .seCopy ..
  | .seFill .. | .seAdd .. | .seMin .. | .seMax .. | .sePack .. | .seUnpack .. | .seGather .. | .seWalk ..
  | .sePrefetch .. | .seUpdate .. | .seEvict .. | .seScrub .. | .seCommandComplete .. | .garbageCollection ..
  | .staticWearLevelling .. | .readDisturbCollect .. | .journalProgram .. | .mapCheckpoint .. | .writeBudgetWindow ..
  | .codecOpen .. | .codecClose .. | .decodeAccessUnit .. | .pictureOutput .. | .encodeFrame .. | .lnkRankWrite ..
  | .linkEnable .. | .trainingStepComplete .. | .trainingStepTimeout .. | .trainingRetry .. | .negotiateFlit ..
  | .replayTimeout .. | .retrain .. | .farFrameReceive .. | .farResendTimeout .. | .hello .. | .finish ..
  | .handshakeTimeout .. | .handshakeRetry .. | .rekey .. | .contributionReady .. | .packageTrickComplete ..
  | .ready .. | .go .. | .deadlineExpiry .. | .twinSetExchange .. | .complete .. | .abort .. | .finalAbort ..
  | .colStallExpiry .. | .digestRecord .. | .doorbell .. | .ringEnable .. | .ringDisable .. | .job ..
  | .anteSlotPromotion .. | .cancel .. | .partition .. | .partitionScrubComplete .. | .nopEntry .. | .vfFlr ..
  | .controlInterval .. | .gradeUnholdable .. | .gradeChange .. | .powerRecovery .. | .droopTrip ..
  | .droopSuppressionEnd .. | .rampEnd .. | .comparatorTrip .. | .comparatorRelease .. | .analogThermalTrip ..
  | .recalibration .. | .capWrite .. | .demoteClear .. | .verify .. | .stagingComplete .. | .activate ..
  | .activationComplete .. | .commit .. | .writeBudgetSet .. | .getVersion .. | .dualSig .. | .pldmFirmwareUpdate ..
  | .powerOn .. | .bootStageTimeout .. | .resetNPulse .. | .perDieReset .. | .tileSelfTestRequest ..
  | .stackSelfTestRequest .. | .stackMarginRequest .. | .linkRetrainRequest .. | .linkMarginRequest ..
  | .testCancel .. | .testQueueScan .. | .calWrite .. | .calWriteComplete .. | .errorVectorSend ..
  | .errStatusRead .. | .inputPowerLoss .. | .objectSyncComplete .. | .linkReferenceClockLoss .. => true

end Sys2Proof
end

namespace Sys2Proof.Machine

open Sys2Proof.Claims

/-! Rings and registers: the outcomes of each command, from the laws of rings. -/

/-- A command is refused: it leaves a record of the code, and all else as it was. -/
def RefusedWith (s : State) (o : Host.Outcome State Fault Refusal) (c : Code) : Prop :=
  ∃ m, o = .next m ∧ StillRing s m ∧ Logged s m c 0xFFFF

theorem refusedWith_report {s : State} {o : Host.Outcome State Fault Refusal} {c : Code} {i : RecInfo}
    (h : o = .next (s.report c i)) (hu : i.unit = 0xFFFF) : RefusedWith s o c := by
  rw [h]
  exact refused_report s c i hu

/-- Job `j` is live on ring `r`. -/
def LiveRing (s : State) (r j : Nat) : Prop := ∃ x, s.job j = some x ∧ x.ring = r

/-- The live jobs that `hit` names have a fault, SCHED_CANCELLED where they had none; the other live jobs are as they were. -/
def Cancelled (s m : State) (hit : Nat → Prop) : Prop :=
  ∀ j x, s.job j = some x →
    (hit j → m.job j = some { x with fault := some (x.fault.getD Codes.schedCancelled) }) ∧ (¬hit j → m.job j = some x)

/-- A function reaches a ring's control register: the physical function, or the ring's owner (R397). -/
def ReachesRing (s : State) (f r : Nat) : Prop := f = 0 ∨ (s.ring r).ownerValid = true ∧ (s.ring r).owner.toNat = f

/-! ENABLE. -/

theorem exec_ringEnable_refused {s : State} {f : Func} {r : Ring} (h : ¬ReachesRing s f r) :
    RefusedWith s (exec (.ringEnable f r) s) Codes.schedNotOwner :=
  refusedWith_report (congrArg Host.Outcome.next (onRing_not s f r _ h)) rfl

theorem exec_ringDisable_refused {s : State} {f : Func} {r : Ring} (h : ¬ReachesRing s f r) :
    RefusedWith s (exec (.ringDisable f r) s) Codes.schedNotOwner :=
  refusedWith_report (congrArg Host.Outcome.next (onRing_not s f r _ h)) rfl

theorem exec_ringDisable {s : State} {f : Func} {r : Ring} (h : ReachesRing s f r) :
    exec (.ringDisable f r) s = .next (s.disableRing r) :=
  congrArg Host.Outcome.next (onRing_may s f r _ h)

/-! Entries. -/

/-- The commands that take the next entry of a ring. -/
def entryCommands (r : Ring) : List Instr := [.nopEntry r, .cancel r, .partition r, .alloc r, .codecOpen r, .codecClose r]

/-- Each of them is `takeEntry` for its TYPE. -/
theorem exec_entryCommand (s : State) (r : Ring) :
    ∀ i ∈ entryCommands r, ∃ type go, exec i s = .next (s.takeEntry r type go) := by
  simp only [entryCommands, List.forall_mem_cons, List.not_mem_nil, false_imp_iff, implies_true, and_true]
  exact ⟨⟨_, _, rfl⟩, ⟨_, _, rfl⟩, ⟨_, _, rfl⟩, ⟨_, _, rfl⟩, ⟨_, _, rfl⟩, ⟨_, _, rfl⟩⟩

theorem takeEntry_go {s : State} {r type : Nat} {go : List Byte → State → State} {e : List Byte}
    (h : s.frontEntry r = some e) (hc : s.entryCode r e = none) (ht : fieldLe e 0 1 = type) : s.takeEntry r type go = go e s := by
  unfold State.takeEntry
  simp only [h, hc, if_pos ht]

/-- A bad entry completes with its code, whatever command takes it (R400). -/
theorem exec_bad_entry {s : State} {r : Ring} {e : List Byte} {c : Code} (h : s.frontEntry r = some e)
    (hc : s.entryCode r e = some c) : ∀ i ∈ entryCommands r,
      ∃ m, exec i s = .next m ∧ Completes s m r (fieldLe e 0 1) c 0 e ∧ Logged s m c 0xFFFF ∧ ∀ j, m.job j = s.job j := by
  intro i hi
  obtain ⟨type, go, hexec⟩ := exec_entryCommand s r i hi
  obtain ⟨hdone, hlog, -, hjobs⟩ := finish_spec s r c e h
  exact ⟨_, hexec.trans (congrArg _ (take_bad s r type go e c h hc)), hdone, hlog (entryCode_ne s r e c hc), hjobs⟩

theorem exec_entry_none {s : State} {r : Ring} (h : s.frontEntry r = none) : ∀ i ∈ entryCommands r, exec i s = .next s := by
  intro i hi
  obtain ⟨type, go, hexec⟩ := exec_entryCommand s r i hi
  exact hexec.trans (congrArg _ (take_none s r type go h))

theorem exec_nopEntry {s : State} {r : Ring} {e : List Byte} (h : s.frontEntry r = some e) (hc : s.entryCode r e = none)
    (ht : fieldLe e 0 1 = 0x96) :
    ∃ m, exec (.nopEntry r) s = .next m ∧ Completes s m r 0x96 0 0 e ∧ (∀ j, m.job j = s.job j) ∧ m.logs = s.logs := by
  obtain ⟨hdone, -, hlogs, hjobs⟩ := finish_spec s r 0 e h
  rw [ht] at hdone
  exact ⟨_, congrArg Host.Outcome.next (takeEntry_go h hc ht), hdone, hjobs, hlogs rfl⟩

/-- CANCEL of a live job of the ring (R400, R424). -/
theorem exec_cancel_live {s : State} {r : Ring} {e : List Byte} (h : s.frontEntry r = some e) (hc : s.entryCode r e = none)
    (ht : fieldLe e 0 1 = 0x94) (hl : LiveRing s r (fieldLe e 0x18 4)) :
    ∃ m, exec (.cancel r) s = .next m ∧ Completes s m r 0x94 0 (fieldLe e 0x18 4) e
      ∧ Cancelled s m (fun k => k = fieldLe e 0x18 4) ∧ Logged s m Codes.schedCancelled 0xFFFF := by
  have hexec : exec (.cancel r) s = .next _ :=
    congrArg Host.Outcome.next ((takeEntry_go h hc ht).trans (if_pos ((liveOn_iff s r _).2 hl)))
  exact ⟨_, hexec, cancel_spec s r e h _⟩

/-- CANCEL of any other number (R400). -/
theorem exec_cancel_no_job {s : State} {r : Ring} {e : List Byte} (h : s.frontEntry r = some e) (hc : s.entryCode r e = none)
    (ht : fieldLe e 0 1 = 0x94) (hl : ¬LiveRing s r (fieldLe e 0x18 4)) :
    ∃ m, exec (.cancel r) s = .next m ∧ Completes s m r 0x94 Codes.schedNoJob 0 e ∧ (∀ k, m.job k = s.job k)
      ∧ Logged s m Codes.schedNoJob 0xFFFF := by
  have hexec : exec (.cancel r) s = .next _ :=
    congrArg Host.Outcome.next ((takeEntry_go h hc ht).trans (if_neg (fun g => hl ((liveOn_iff s r _).1 g))))
  obtain ⟨hdone, hlog, -, hjobs⟩ := finish_spec s r Codes.schedNoJob e h
  rw [ht] at hdone
  exact ⟨_, hexec, hdone, hjobs, hlog (by decide)⟩

/-! The register window. -/

section Window

variable {s : State} {off : BitVec 40} {width : Nat} {v : W64}

theorem exec_registerWrite_vf {f : Func} (hf : f.val ≠ 0) :
    RefusedWith s (exec (.registerWrite (.host f) off width v) s) Codes.badRegAccess :=
  refusedWith_report (congrArg Host.Outcome.next (if_neg (fun h => hf (congrArg Fin.val h)))) rfl

/-- No register, a wrong width, or a register that board management may not write (R4, R5, R431). -/
theorem exec_registerWrite_bad (board : Bool)
    (h : regAt off.toNat = none ∨ ∃ x, regAt off.toNat = some (some x) ∧ (x.wide width = false ∨ board = true ∧ x.boardMay = false)) :
    RefusedWith s (exec (.registerWrite (if board then .board else .host 0) off width v) s) Codes.badRegAccess :=
  refusedWith_report ((host_write s off width v board).trans (congrArg _ (window_bad s board off.toNat width v h))) rfl

theorem exec_registerWrite_go (board : Bool) {x : Reg} (h : regAt off.toNat = some (some x)) (hw : x.wide width = true)
    (hb : board = false ∨ x.boardMay = true) :
    exec (.registerWrite (if board then .board else .host 0) off width v) s = .next (x.write v s) :=
  (host_write s off width v board).trans (congrArg _ (window_go s board off.toNat width v x h hw hb))

theorem exec_registerWrite_host {x : Reg} (h : regAt off.toNat = some (some x)) (hw : x.wide width = true) :
    exec (.registerWrite (.host 0) off width v) s = .next (x.write v s) := exec_registerWrite_go false h hw (.inl rfl)

theorem exec_registerWrite_boardMay {x : Reg} (h : regAt off.toNat = some (some x)) (hw : x.wide width = true)
    (hb : x.boardMay = true) {who : Iface} (hwho : who = .host 0 ∨ who = .board) :
    exec (.registerWrite who off width v) s = .next (x.write v s) := by
  rcases hwho with rfl | rfl
  · exact exec_registerWrite_host h hw
  · exact exec_registerWrite_go true h hw (.inr hb)

/-- RING.OWNER of an active ring (R398). -/
theorem exec_ringOwner_active {r : Nat} (h : regAt off.toNat = some (some (.ringOwner r))) (hw : (Reg.ringOwner r).wide width = true)
    (ha : (s.ring r).active = true) : RefusedWith s (exec (.registerWrite (.host 0) off width v) s) Codes.badRegAccess :=
  refusedWith_report ((exec_registerWrite_host h hw).trans (congrArg Host.Outcome.next (if_pos ha))) rfl

theorem exec_ringOwner {r : Nat} (h : regAt off.toNat = some (some (.ringOwner r))) (hw : (Reg.ringOwner r).wide width = true)
    (ha : (s.ring r).active = false) : ∃ m, exec (.registerWrite (.host 0) off width v) s = .next m
      ∧ RingTo s m r { s.ring r with ownerValid := bitOf v.toNat 7, owner := BitVec.ofNat 6 (bitsOf v.toNat 5 0) } := by
  have hwrite : (Reg.ringOwner r).write v s = s.modRing r _ := if_neg (by simp [ha])
  exact ⟨_, (exec_registerWrite_host h hw).trans (congrArg _ hwrite), ringTo_set s r _⟩

/-- A write that changes one tile's registers. -/
theorem exec_registerWrite_tile {x : Reg} {t : Nat} (f : TileRegs → TileRegs) (h : regAt off.toNat = some (some x))
    (hw : x.wide width = true) (hx : x.write v s = s.modRegs t f) : ∃ m, exec (.registerWrite (.host 0) off width v) s = .next m
      ∧ OnlyTile s m t ∧ m.tile t = { s.tile t with regs := f (s.tile t).regs } :=
  ⟨_, (exec_registerWrite_host h hw).trans (congrArg _ hx), onlyTile_modTile s t _, State.tile_setTile_same s t _⟩

theorem exec_tileFault {t : Nat} (h : regAt off.toNat = some (some (.tileFault t))) (hw : (Reg.tileFault t).wide width = true)
    (hv : bitOf v.toNat 31 = true) : ∃ m, exec (.registerWrite (.host 0) off width v) s = .next m ∧ OnlyTile s m t
      ∧ m.tile t = { s.tile t with regs := { (s.tile t).regs with fault := { (s.tile t).regs.fault with valid := false } } } :=
  exec_registerWrite_tile (fun y => { y with fault := { y.fault with valid := false } }) h hw (if_pos hv)

theorem exec_memScrub {k : Nat} (h : regAt off.toNat = some (some (.memScrub k))) (hw : (Reg.memScrub k).wide width = true) :
    ∃ m, exec (.registerWrite (.host 0) off width v) s = .next m
      ∧ m.stack k = { s.stack k with interval := bitsOf v.toNat 15 0, ceLimit := bitsOf v.toNat 31 16 }
      ∧ ∀ i, i ≠ k → m.stack i = s.stack i := by
  have hwrite : (Reg.memScrub k).write v s
      = s.modStack k (fun y => { y with interval := bitsOf v.toNat 15 0, ceLimit := bitsOf v.toNat 31 16 }) := rfl
  exact ⟨_, (exec_registerWrite_host h hw).trans (congrArg _ hwrite), State.stack_modStack_same s k _,
    fun i hi => (State.stack_modStack s k i _).trans (if_neg hi)⟩

theorem exec_lnkCtrl {l : Nat} (h : regAt off.toNat = some (some (.lnkCtrl l))) (hw : (Reg.lnkCtrl l).wide width = true) :
    ∃ m, exec (.registerWrite (.host 0) off width v) s = .next m
      ∧ m.link l = { s.link l with rto := BitVec.ofNat 32 (bitsOf v.toNat 63 32), etype := bitsOf v.toNat 31 16, encap := bitsOf v.toNat 5 4, media := bitsOf v.toNat 3 2 }
      ∧ ∀ i, i ≠ l → m.link i = s.link i :=
  ⟨_, exec_registerWrite_host h hw, State.link_setLink_same s l _, fun i hi => State.link_setLink_other s l i _ hi⟩

theorem exec_dlrReject {d : Nat} (h : regAt off.toNat = some (some (.dlrReject d))) (hw : (Reg.dlrReject d).wide width = true)
    (hv : bitOf v.toNat 31 = true) : ∃ m, exec (.registerWrite (.host 0) off width v) s = .next m
      ∧ m.dealer d = { s.dealer d with reject := { (s.dealer d).reject with valid := false } } ∧ ∀ i, i ≠ d → m.dealer i = s.dealer i := by
  have hwrite : (Reg.dlrReject d).write v s = s.modDealer d _ := if_pos hv
  exact ⟨_, (exec_registerWrite_host h hw).trans (congrArg _ hwrite), State.dealer_setDealer_same s d _,
    fun i hi => (State.dealer_setDealer s d i _).trans (if_neg hi)⟩

/-! BAR0. -/

/-- The doorbell page of a ring belongs to its owner (R397). -/
theorem exec_bar0_not_owner {f : Func} (ho : off.toNat < 0x100000)
    (h : ¬((s.ring (off.toNat / 4096)).ownerValid = true ∧ (s.ring (off.toNat / 4096)).owner.toNat = f.val)) :
    RefusedWith s (exec (.registerWrite (.bar0 f) off width v) s) Codes.schedNotOwner := by
  have hown : (!s.ringOwned f (off.toNat / 4096)) = true := by simpa using mt (owned_iff s f _).1 h
  have hwrite : bar0Write f off.toNat width v s = s.report Codes.schedNotOwner { func := f } :=
    ((if_neg (by omega)).trans (if_pos ho)).trans (if_pos hown)
  exact refusedWith_report (congrArg Host.Outcome.next hwrite) rfl

/-- The mask word of vector `i` in the MSI-X table (R393). -/
theorem exec_bar0_msix {f : Func} {i : Nat} (hi : i < (if f.val = 0 then 2048 else 64)) (ho : off.toNat = 0x100000 + 16 * i + 12) :
    exec (.registerWrite (.bar0 f) off width v) s = .next (msixWrite f.val (16 * i + 12) v s) := by
  have hlt : i < 2048 := by split at hi <;> omega
  have hwrite : bar0Write f off.toNat width v s = msixWrite f.val (off.toNat - 0x100000) v s := if_pos (by omega)
  rw [show off.toNat - 0x100000 = 16 * i + 12 by omega] at hwrite
  exact congrArg Host.Outcome.next hwrite

end Window

/-- Settles O58: each command's clause is an outcome that one of the laws of rings and registers states. -/
theorem ringsAndRegisters : Obligations.RingsAndRegisters := by
  unfold Obligations.RingsAndRegisters
  intro s
  refine ⟨fun f r tail head => ?doorbell, fun f r => ⟨fun h => ⟨exec_ringEnable_refused h, exec_ringDisable_refused h⟩, ?enable, ?disable⟩,
    fun r e he => ⟨fun c hc => exec_bad_entry he hc, exec_nopEntry he, fun hc ht => ⟨exec_cancel_live he hc ht, exec_cancel_no_job he hc ht⟩⟩,
    fun r he i hi => exec_entry_none he i ?taker, fun f => ⟨fun hf => congrArg Host.Outcome.next (if_pos hf), fun hf hr hj => ⟨_, rfl, flr_spec s f hf f.isLt hr hj⟩⟩,
    fun off width v => ⟨fun f hf => exec_registerWrite_vf hf,
      fun h => ⟨exec_registerWrite_bad false (.inl h), exec_registerWrite_bad true (.inl h)⟩,
      fun x hx => ⟨?narrow, ?kept, ?conductor, ?units⟩, fun f => ⟨exec_bar0_not_owner, ?msix⟩⟩⟩
  case doorbell =>
    obtain ⟨hnot, hsame, hmove, hover⟩ := doorbell_spec s f r tail head
    exact ⟨fun h => refusedWith_report (congrArg _ (hnot h)) rfl, fun h g => congrArg _ (hsame h g),
      fun h ha hc hs hfit => ⟨_, rfl, hmove h ha hc hs hfit⟩, fun h ha hc hs hne hfit => ⟨_, rfl, hover h ha hc hs hne hfit⟩⟩
  case enable =>
    intro h
    have hexec : exec (.ringEnable f r) s = .next _ := congrArg Host.Outcome.next (onRing_may s f r _ h)
    obtain ⟨hjobs, hheld, hactive, hgood, hbad⟩ := enable_spec s r
    exact ⟨_, hexec, hjobs, hheld, hactive, fun hc ha g => hgood hc ha ((ringBad_iff s r).2 g),
      fun hc ha g => hbad hc ha (mt (ringBad_iff s r).1 g)⟩
  case disable =>
    intro h
    obtain ⟨hrest, hothers, -, -, -, -, hidle, hlive, -⟩ := disable_spec s r
    exact ⟨_, exec_ringDisable h, hothers, hrest, hidle, hlive⟩
  case taker =>
    simp only [List.mem_cons, List.not_mem_nil, or_false] at hi
    rcases hi with rfl | rfl | rfl <;> simp [entryCommands]
  case narrow =>
    exact fun hw => ⟨exec_registerWrite_bad false (.inr ⟨x, hx, .inl hw⟩), exec_registerWrite_bad true (.inr ⟨x, hx, .inl hw⟩)⟩
  case kept =>
    exact fun hb => exec_registerWrite_bad true (.inr ⟨x, hx, .inr ⟨rfl, hb⟩⟩)
  case conductor =>
    refine ⟨fun hw r => ⟨?_, ?_⟩, fun hw => ⟨?_, ?_, ?_, ?_, ?_, ?_, fun who hwho => ⟨?_, ?_, ?_⟩⟩⟩
    · rintro rfl ha; exact exec_ringOwner_active hx hw ha
    · rintro rfl ha; exact exec_ringOwner hx hw ha
    iterate 5 { rintro rfl; exact exec_registerWrite_host hx hw }
    · rintro rfl; exact refusedWith_report (exec_registerWrite_host hx hw) rfl
    all_goals rintro rfl; exact exec_registerWrite_boardMay hx hw rfl hwho
  case units =>
    refine fun hw => ⟨?_, ?_, ?_, ?_, ?_, ?_⟩
    · rintro t rfl; exact exec_registerWrite_tile (fun y => { y with waitLimit := v.truncate 32 }) hx hw rfl
    · rintro t rfl; exact exec_registerWrite_tile (fun y => { y with seed := v }) hx hw rfl
    · rintro t rfl hv; exact exec_tileFault hx hw hv
    · rintro k rfl; exact exec_memScrub hx hw
    · rintro l rfl; exact exec_lnkCtrl hx hw
    · rintro d rfl hv; exact exec_dlrReject hx hw hv
  case msix =>
    exact fun i hi ho => ⟨_, exec_bar0_msix hi ho, msix_spec s f.val i _ v rfl hi⟩

end Sys2Proof.Machine

namespace Sys2Proof.Machine

/-! A decoder of slots (Tables 5, 9, 11, 13, 15, 18, 20, 22, 24 of 02): the left inverse of `encodeSlot`. -/

/-- The field of `n` bits whose lowest bit is `lo`. -/
def fieldAt (n lo w : Nat) : BitVec n := BitVec.ofNat n (w / 2 ^ lo)

/-- Count field of LOOP and WAIT, whose SX stands at `lo`. -/
def decCnt (lo mod o : Nat) : Cnt := if mod = 1 then .imm (fieldAt 32 32 o) else .reg (fieldAt 5 lo o)

/-- op2 of a scalar instruction. -/
def decOp2 (mod o : Nat) : Op2 := if mod % 2 = 1 then .imm (fieldAt 64 0 o) else .reg (fieldAt 5 97 o)

/-- A descriptor operand that MOD[3] says is there. -/
def decOpt (lo mod o : Nat) : Option (BitVec 6) := if bitOf mod 3 then some (fieldAt 6 lo o) else none

def decControl (t : Tile) (op : Nat) (g : Guard) (mod o : Nat) : Option Instr :=
  match op with
  | 0x00 => some (.nop t g)
  | 0x01 => some (.halt t g)
  | 0x02 => some (.br t g (fieldAt 12 100 o))
  | 0x03 => some (.brr t g (fieldAt 5 107 o))
  | 0x04 => some (.loop t g (fieldAt 12 100 o) (decCnt 95 mod o))
  | 0x05 => some (.wait t g (fieldAt 4 108 o) (decCnt 103 mod o))
  | 0x06 => some (.signal t g (fieldAt 4 108 o) (fieldAt 7 101 o) (fieldAt 16 85 o))
  | 0x07 => some (.barrier t g (fieldAt 4 108 o))
  | 0x08 => some (.fence t g (fieldAt 2 0 mod))
  | 0x09 => some (.trap t g (fieldAt 16 96 o))
  | _ => none

def decScalar (t : Tile) (op : Nat) (g : Guard) (cond : BitVec 3) (rd rs1 rs2 : BitVec 5) (imm : W64) (y : Op2) : Option Instr :=
  match op with
  | 0x00 => some (.add t g rd rs1 y)
  | 0x01 => some (.sub t g rd rs1 y)
  | 0x02 => some (.mul t g rd rs1 y)
  | 0x03 => some (.and t g rd rs1 y)
  | 0x04 => some (.or t g rd rs1 y)
  | 0x05 => some (.xor t g rd rs1 y)
  | 0x06 => some (.shl t g rd rs1 y)
  | 0x07 => some (.shr t g rd rs1 y)
  | 0x08 => some (.sra t g rd rs1 y)
  | 0x09 => some (.mins t g rd rs1 y)
  | 0x0A => some (.maxs t g rd rs1 y)
  | 0x0B => some (.minu t g rd rs1 y)
  | 0x0C => some (.maxu t g rd rs1 y)
  | 0x0D => some (.cmp t g cond rd rs1 y)
  | 0x0E => some (.ld t g rd rs1 imm)
  | 0x0F => some (.st t g rs1 rs2 imm)
  | 0x10 => some (.mfe t g rd rs1)
  | _ => none

def decDma (t : Tile) (op : Nat) (g : Guard) (mod o : Nat) : Option Instr :=
  let dd := fieldAt 6 106 o
  let ds := fieldAt 6 100 o
  match op with
  | 0x00 => some (.dload t g dd (fieldAt 5 101 o) (fieldAt 64 0 o))
  | 0x01 => some (.dset t g dd (fieldAt 5 101 o) (fieldAt 6 95 o))
  | 0x02 => some (.dcopy t g (bitOf mod 0) (fieldAt 2 1 mod) dd ds (fieldAt 5 95 o) (fieldAt 5 90 o) (fieldAt 4 86 o))
  | 0x03 => some (.dgather t g dd ds (fieldAt 5 95 o) (fieldAt 5 90 o) (fieldAt 4 86 o))
  | 0x04 => some (.dwin t g dd ds (fieldAt 6 94 o) (fieldAt 5 89 o) (fieldAt 4 85 o))
  | _ => none

def decMatrix (t : Tile) (op : Nat) (g : Guard) (mod o : Nat) : Option Instr :=
  let quart := bitOf mod 0
  match op with
  | 0x00 => some (.mma t g quart (bitOf mod 1) (bitOf mod 2) (fieldAt 6 106 o) (fieldAt 6 100 o) (fieldAt 5 95 o)
      (fieldAt 5 90 o) (fieldAt 5 85 o) (fieldAt 5 80 o) (decOpt 74 mod o))
  | 0x01 => some (.mzero t g quart (fieldAt 5 107 o))
  | 0x02 => some (.mstore t g quart (fieldAt 2 1 mod) (fieldAt 5 107 o) (fieldAt 6 101 o) (fieldAt 5 96 o) (decOpt 90 mod o))
  | 0x03 => some (.mload t g quart (fieldAt 5 107 o) (fieldAt 6 101 o) (fieldAt 5 96 o))
  | _ => none

def decAttention (t : Tile) (op : Nat) (g : Guard) (mod o : Nat) : Option Instr :=
  let ctx := fieldAt 2 110 o
  let da := fieldAt 6 104 o
  let db := fieldAt 6 98 o
  let dc := fieldAt 6 92 o
  match op with
  | 0x00 => some (.abind t g (bitOf mod 0) ctx da db dc)
  | 0x01 => some (.afwd t g (bitOf mod 0) (bitOf mod 1) ctx da db dc (fieldAt 5 87 o) (fieldAt 5 82 o) (fieldAt 5 77 o))
  | 0x02 => some (.abwd t g ctx da db dc (fieldAt 5 87 o) (fieldAt 5 82 o) (fieldAt 5 77 o) (fieldAt 6 71 o))
  | 0x03 => some (.aappend t g (bitOf mod 0) ctx (fieldAt 5 105 o) (fieldAt 5 100 o) (fieldAt 5 95 o) (fieldAt 6 89 o))
  | 0x04 => some (.averify t g ctx da db (fieldAt 5 93 o))
  | _ => none

def decVector (t : Tile) (op : Nat) (g : Guard) (mod : Nat) (vd va vb vc : BitVec 4) (pd : BitVec 3) (sx : BitVec 5)
    (ds fmt : BitVec 6) : Option Instr :=
  match op with
  | 0x00 => some (.vadd t g vd va vb)
  | 0x01 => some (.vsub t g vd va vb)
  | 0x02 => some (.vmul t g vd va vb)
  | 0x03 => some (.vfma t g vd va vb vc)
  | 0x04 => some (.vmin t g vd va vb)
  | 0x05 => some (.vmax t g vd va vb)
  | 0x06 => some (.vcmp t g (fieldAt 3 0 mod) pd va vb)
  | 0x07 => some (.vsel t g vd va vb pd)
  | 0x08 => some (.vld t g vd sx ds)
  | 0x09 => some (.vst t g (fieldAt 2 1 mod) va sx ds)
  | 0x0A => some (.vbcast t g vd sx)
  | 0x0B => some (.vred t g (fieldAt 2 0 mod) va sx)
  | 0x0C => some (.vstat t g vd sx ds)
  | 0x0D => some (.vcvt t g (fieldAt 2 1 mod) vd va fmt)
  | _ => none

def decSpecial (t : Tile) (op : Nat) (g : Guard) (k1 : Bool) (vd va : BitVec 4) : Option Instr :=
  match op with
  | 0x00 => some (.exp2 t g k1 vd va)
  | 0x01 => some (.exp t g k1 vd va)
  | 0x02 => some (.log2 t g k1 vd va)
  | 0x03 => some (.rcp t g k1 vd va)
  | 0x04 => some (.rsqrt t g k1 vd va)
  | 0x05 => some (.sigmoid t g k1 vd va)
  | 0x06 => some (.tanh t g k1 vd va)
  | 0x07 => some (.gelu t g k1 vd va)
  | 0x08 => some (.silu t g k1 vd va)
  | 0x09 => some (.softplus t g k1 vd va)
  | 0x0A => some (.erf t g k1 vd va)
  | 0x0B => some (.sin t g k1 vd va)
  | 0x0C => some (.cos t g k1 vd va)
  | _ => none

def decPower (t : Tile) (op : Nat) (g : Guard) (o : Nat) : Option Instr :=
  match op with
  | 0x00 => some (.ante t g (fieldAt 8 104 o) (fieldAt 7 97 o) (fieldAt 20 77 o))
  | 0x01 => some (.trace t g (fieldAt 16 96 o) (fieldAt 5 91 o))
  | 0x02 => some (.cntrd t g (fieldAt 5 107 o) (fieldAt 8 99 o))
  | _ => none

/-- The instruction with the given common fields (Table 5 of 02), MOD and operand bits. -/
def decFields (t : Tile) (cls op : Nat) (g : Guard) (mod o : Nat) : Option Instr :=
  match cls with
  | 0 => decControl t op g mod o
  | 1 => decScalar t op g (fieldAt 3 1 mod) (fieldAt 5 107 o) (fieldAt 5 102 o) (fieldAt 5 97 o) (fieldAt 64 0 o) (decOp2 mod o)
  | 2 => decDma t op g mod o
  | 3 => decMatrix t op g mod o
  | 4 => decAttention t op g mod o
  | 5 => decVector t op g mod (fieldAt 4 108 o) (fieldAt 4 104 o) (fieldAt 4 100 o) (fieldAt 4 96 o) (fieldAt 3 93 o) (fieldAt 5 88 o)
      (fieldAt 6 82 o) (fieldAt 6 76 o)
  | 6 => decSpecial t op g (bitOf mod 0) (fieldAt 4 108 o) (fieldAt 4 104 o)
  | _ => decPower t op g o

/-- The tile instruction that a slot spells. -/
def decodeSlot (t : Tile) (w : Slot) : Option Instr :=
  let n := w.toNat
  decFields t (bitsOf n 127 125) (bitsOf n 124 120) ⟨fieldAt 3 117 n, bitOf n 116⟩ (bitsOf n 115 112) (n % 2 ^ 112)

theorem fieldAt_eq {n lo w : Nat} {x : BitVec n} (h : w / 2 ^ lo % 2 ^ n = x.toNat) : fieldAt n lo w = x :=
  BitVec.eq_of_toNat_eq (by rw [fieldAt, BitVec.toNat_ofNat, h])

/-- A flag is a field of one bit, `BitVec.ofBool` of it, so that its bound is its width. -/
theorem bitOf_eq {n w : Nat} {b : Bool} (h : w / 2 ^ n % 2 = (BitVec.ofBool b).toNat) : bitOf w n = b := by
  unfold bitOf
  rw [h]
  cases b <;> rfl

/-- The common fields of a slot, whatever its operands. -/
theorem decodeSlot_slotWord (t : Tile) {cls op : Nat} (g : Guard) {mod o : Nat} (hc : cls < 8) (hop : op < 32)
    (hm : mod < 16) (ho : o < 2 ^ 112) : decodeSlot t (slotWord cls op g mod o) = decFields t cls op g mod o := by
  obtain ⟨p, b⟩ := g
  have hw : (slotWord cls op ⟨p, b⟩ mod o).toNat
      = cls * 2 ^ 125 + op * 2 ^ 120 + p.toNat * 2 ^ 117 + (BitVec.ofBool b).toNat * 2 ^ 116 + mod * 2 ^ 112 + o := by
    simp only [slotWord, at_, BitVec.toNat_ofNat, ← BitVec.toNat_ofBool]
    omega
  have hcls : bitsOf (slotWord cls op ⟨p, b⟩ mod o).toNat 127 125 = cls := by rw [hw]; simp only [bitsOf]; omega
  have hope : bitsOf (slotWord cls op ⟨p, b⟩ mod o).toNat 124 120 = op := by rw [hw]; simp only [bitsOf]; omega
  have hmod : bitsOf (slotWord cls op ⟨p, b⟩ mod o).toNat 115 112 = mod := by rw [hw]; simp only [bitsOf]; omega
  have hreg : fieldAt 3 117 (slotWord cls op ⟨p, b⟩ mod o).toNat = p := fieldAt_eq (by rw [hw]; omega)
  have hinv : bitOf (slotWord cls op ⟨p, b⟩ mod o).toNat 116 = b := bitOf_eq (by rw [hw]; omega)
  have hops : (slotWord cls op ⟨p, b⟩ mod o).toNat % 2 ^ 112 = o := by rw [hw]; omega
  simp only [decodeSlot, hcls, hope, hmod, hreg, hinv, hops]


/-! Operands that take one of two forms, by MOD. -/

theorem decOp2_reg {mod o : Nat} {r : BitVec 5} (hm : mod % 2 = 0) (h : o / 2 ^ 97 % 2 ^ 5 = r.toNat) :
    decOp2 mod o = .reg r := by
  rw [decOp2, if_neg (by omega), fieldAt_eq h]

theorem decOp2_imm {mod o : Nat} {v : W64} (hm : mod % 2 = 1) (h : o / 2 ^ 0 % 2 ^ 64 = v.toNat) : decOp2 mod o = .imm v := by
  rw [decOp2, if_pos hm, fieldAt_eq h]

theorem decCnt_reg {lo o : Nat} {r : BitVec 5} (h : o / 2 ^ lo % 2 ^ 5 = r.toNat) : decCnt lo 0 o = .reg r :=
  congrArg Cnt.reg (fieldAt_eq h)

theorem decCnt_imm {lo o : Nat} {v : W32} (h : o / 2 ^ 32 % 2 ^ 32 = v.toNat) : decCnt lo 1 o = .imm v :=
  congrArg Cnt.imm (fieldAt_eq h)

theorem decOpt_eq {lo mod o : Nat} {d : Option (BitVec 6)} (hm : mod / 2 ^ 3 % 2 = (BitVec.ofBool d.isSome).toNat)
    (h : o / 2 ^ lo % 2 ^ 6 = (d.getD 0).toNat) : decOpt lo mod o = d := by
  rw [decOpt, bitOf_eq hm]
  cases d with
  | none => rfl
  | some x => exact congrArg some (fieldAt_eq h)

/-! The encodings that several instructions share. -/

theorem decodeSlot_encScalar {t : Tile} {op : Nat} {g : Guard} {rd rs1 : BitVec 5} {y : Op2} {i : Instr} (hop : op < 32)
    (hi : ∀ cond rs2 imm, decScalar t op g cond rd rs1 rs2 imm y = some i) : decodeSlot t (encScalar op g rd rs1 y) = some i := by
  cases y with
  | reg rs2 =>
    simp only [encScalar, at_]
    rw [decodeSlot_slotWord t g (by omega) hop (by omega) (by omega), decFields, fieldAt_eq (x := rd) (by omega),
      fieldAt_eq (x := rs1) (by omega), decOp2_reg (r := rs2) (by omega) (by omega), hi]
  | imm v =>
    simp only [encScalar, at_]
    rw [decodeSlot_slotWord t g (by omega) hop (by omega) (by omega), decFields, fieldAt_eq (x := rd) (by omega),
      fieldAt_eq (x := rs1) (by omega), decOp2_imm (v := v) (by omega) (by omega), hi]

theorem decodeSlot_encCmp (t : Tile) (g : Guard) (cond : BitVec 3) (rd rs1 : BitVec 5) (y : Op2) :
    decodeSlot t (encCmp g cond rd rs1 y) = some (.cmp t g cond rd rs1 y) := by
  cases y with
  | reg rs2 =>
    simp only [encCmp, at_]
    rw [decodeSlot_slotWord t g (by omega) (by omega) (by omega) (by omega), decFields, fieldAt_eq (x := cond) (by omega),
      fieldAt_eq (x := rd) (by omega), fieldAt_eq (x := rs1) (by omega), decOp2_reg (r := rs2) (by omega) (by omega)]
    rfl
  | imm v =>
    simp only [encCmp, at_]
    rw [decodeSlot_slotWord t g (by omega) (by omega) (by omega) (by omega), decFields, fieldAt_eq (x := cond) (by omega),
      fieldAt_eq (x := rd) (by omega), fieldAt_eq (x := rs1) (by omega), decOp2_imm (v := v) (by omega) (by omega)]
    rfl

theorem fieldAt_ofNat {n lo w v : Nat} (h : w / 2 ^ lo % 2 ^ n = v) : fieldAt n lo w = BitVec.ofNat n v :=
  fieldAt_eq (by rw [BitVec.toNat_ofNat, ← h, Nat.mod_mod])

theorem decodeSlot_encVec (t : Tile) {op : Nat} (g : Guard) {mod vd va vb vc pd sx ds fmt : Nat} (hop : op < 32) (hm : mod < 16)
    (h : vd < 16 ∧ va < 16 ∧ vb < 16 ∧ vc < 16 ∧ pd < 8 ∧ sx < 32 ∧ ds < 64 ∧ fmt < 64) :
    decodeSlot t (encVec op g mod vd va vb vc pd sx ds fmt)
      = decVector t op g mod (.ofNat 4 vd) (.ofNat 4 va) (.ofNat 4 vb) (.ofNat 4 vc) (.ofNat 3 pd) (.ofNat 5 sx) (.ofNat 6 ds)
          (.ofNat 6 fmt) := by
  simp only [encVec, at_]
  rw [decodeSlot_slotWord t g (by omega) hop hm (by omega)]
  change decVector _ _ _ _ _ _ _ _ _ _ _ _ = _
  congr 1 <;> exact fieldAt_ofNat (by omega)

theorem decodeSlot_encSfu (t : Tile) {op : Nat} (g : Guard) (k1 : Bool) (vd va : BitVec 4) (hop : op < 32) :
    decodeSlot t (encSfu op g k1 vd va) = decSpecial t op g k1 vd va := by
  simp only [encSfu, at_, ← BitVec.toNat_ofBool]
  rw [decodeSlot_slotWord t g (by omega) hop (by omega) (by omega), decFields, bitOf_eq (b := k1) (by omega),
    fieldAt_eq (x := vd) (by omega), fieldAt_eq (x := va) (by omega)]

/-- Every operand of every tile instruction is read back from its slot. -/
theorem decodeSlot_encodeSlot {i : Instr} {t : Tile} {w : Slot} (h : encodeSlot i = some (t, w)) : decodeSlot t w = some i := by
  cases i
  case exp2 | exp | log2 | rcp | rsqrt | sigmoid | tanh | gelu | silu | softplus | erf | sin | cos =>
    cases h
    exact decodeSlot_encSfu t _ _ _ _ (by omega)
  case vadd | vsub | vmul | vfma | vmin | vmax | vsel | vld | vbcast | vstat =>
    cases h
    rw [decodeSlot_encVec t _ (by omega) (by omega) (by omega)]
    simp only [decVector, BitVec.ofNat_toNat, BitVec.setWidth_eq]
  case vcmp | vst | vred | vcvt =>
    cases h
    rw [decodeSlot_encVec t _ (by omega) (by omega) (by omega)]
    simp only [decVector, BitVec.ofNat_toNat, BitVec.setWidth_eq]
    congr
    exact fieldAt_eq (by omega)
  case add | sub | mul | and | or | xor | shl | shr | sra | mins | maxs | minu | maxu =>
    cases h
    exact decodeSlot_encScalar (by omega) fun _ _ _ => rfl
  case cmp t g cond rd rs1 y =>
    cases h
    exact decodeSlot_encCmp t g cond rd rs1 y
  case loop | wait =>
    rename_i cnt
    cases cnt with
    | reg sx =>
      simp only [encodeSlot, cntField, at_] at h
      cases h
      rw [decodeSlot_slotWord _ _ (by omega) (by omega) (by omega) (by omega)]
      change some _ = some _
      congr
      · exact fieldAt_eq (by omega)
      · exact decCnt_reg (by omega)
    | imm v =>
      simp only [encodeSlot, cntField, at_] at h
      cases h
      rw [decodeSlot_slotWord _ _ (by omega) (by omega) (by omega) (by omega)]
      change some _ = some _
      congr
      · exact fieldAt_eq (by omega)
      · exact decCnt_imm (by omega)
  case mma | mstore =>
    simp only [encodeSlot, at_, ← BitVec.toNat_ofBool] at h
    cases h
    rw [decodeSlot_slotWord _ _ (by omega) (by omega) (by omega) (by omega)]
    change some _ = some _
    congr
    any_goals exact fieldAt_eq (by omega)
    any_goals exact bitOf_eq (by omega)
    exact decOpt_eq (by omega) (by omega)
  case dcopy | mzero | mload | abind | afwd | aappend =>
    simp only [encodeSlot, encAtt, at_, ← BitVec.toNat_ofBool] at h
    cases h
    rw [decodeSlot_slotWord _ _ (by omega) (by omega) (by omega) (by omega)]
    change some _ = some _
    congr
    any_goals exact fieldAt_eq (by omega)
    all_goals exact bitOf_eq (by omega)
  case nop | halt | br | brr | signal | barrier | fence | trap | ld | st | mfe | dload | dset | dgather | dwin | abwd | averify | ante
      | trace | cntrd =>
    simp only [encodeSlot, encAtt, at_] at h
    cases h
    rw [decodeSlot_slotWord _ _ (by omega) (by omega) (by omega) (by omega)]
    change some _ = some _
    congr <;> exact fieldAt_eq (by omega)
  -- The commands that are no tile instruction have no slot.
  all_goals cases h

theorem slotOf_of_encodeSlot {i : Instr} {t : Tile} {w : Slot} (h : encodeSlot i = some (t, w)) : slotOf i = w := by
  simp [slotOf, h]

/-- An instruction that stands is spelled by the slot at the program counter. -/
theorem ibuf_of_stands {s : State} {i : Instr} {t : Tile} (h : Claims.Stands s t i) :
    (s.tile t).ibuf.get 0 (s.tile t).pc = slotOf i := by
  simp only [Claims.Stands, TileSt.canIssue, Bool.and_eq_true, beq_iff_eq] at h
  exact h.2

/-- Settles O60: `decodeSlot` inverts `encodeSlot`, and what stands at a program counter is spelled by the slot there. -/
theorem slotsAreDistinct : Obligations.SlotsAreDistinct := by
  unfold Obligations.SlotsAreDistinct
  have distinct : ∀ (i j : Instr) (t : Tile) (w : Slot), encodeSlot i = some (t, w) → encodeSlot j = some (t, w) → i = j :=
    fun i j t w hi hj => Option.some.inj ((decodeSlot_encodeSlot hi).symm.trans (decodeSlot_encodeSlot hj))
  refine ⟨distinct, fun s i j t v w hi hj hsi hsj => distinct i j t w ?_ hj⟩
  have hvw : v = w :=
    calc v = slotOf i := (slotOf_of_encodeSlot hi).symm
      _ = slotOf j := (ibuf_of_stands hsi).symm.trans (ibuf_of_stands hsj)
      _ = w := slotOf_of_encodeSlot hj
  rw [hi, hvw]

end Sys2Proof.Machine

namespace Sys2Proof.Machine

open Claims

variable {s : State} {t : Tile} {g : Guard}

/-! Class 1: scalar instructions (Tables 10 and 11 of 02). -/

/-- A scalar instruction that runs writes f(rs1, op2) to rd. -/
theorem writesScalar_scalarOp {i : Instr} {w : Slot} {rd rs1 : BitVec 5} {y : Op2} (f : W64 → W64 → W64) (hr : Runs s t g i)
    (hw : w = slotOf i) :
    WritesScalar s t rd (f ((s.tile t).sreg rs1) ((s.tile t).op2 y)) (scalarOp w f t g rd rs1 y s) :=
  writesScalar_issue (v := fun x => f (x.sreg rs1) (x.op2 y)) hr hw rfl

/-- The same, of a value that is equal to f(rs1, op2). -/
theorem writesScalar_of_eq {i : Instr} {w : Slot} {rd rs1 : BitVec 5} {y : Op2} {v : W64} (f : W64 → W64 → W64) (hr : Runs s t g i)
    (hw : w = slotOf i) (hv : f ((s.tile t).sreg rs1) ((s.tile t).op2 y) = v) :
    WritesScalar s t rd v (scalarOp w f t g rd rs1 y s) :=
  hv ▸ writesScalar_scalarOp f hr hw

theorem mins_eq (a b : W64) : (if b.slt a then b else a) = if a.toInt ≤ b.toInt then a else b := by
  simp only [BitVec.slt, decide_eq_true_eq, ← Int.not_lt, ite_not]

theorem maxs_eq (a b : W64) : (if a.slt b then b else a) = if a.toInt ≤ b.toInt then b else a := by
  by_cases h : a.toInt = b.toInt
  · simp [BitVec.slt, BitVec.eq_of_toInt_eq h]
  · have hlt : a.toInt < b.toInt ↔ a.toInt ≤ b.toInt := by omega
    simp only [BitVec.slt, decide_eq_true_eq, hlt]

theorem minu_eq (a b : W64) : (if b.ult a then b else a) = if a.toNat ≤ b.toNat then a else b := by
  simp only [BitVec.ult, decide_eq_true_eq, ← Nat.not_lt, ite_not]

theorem maxu_eq (a b : W64) : (if a.ult b then b else a) = if a.toNat ≤ b.toNat then b else a := by
  by_cases h : a.toNat = b.toNat
  · simp [BitVec.ult, BitVec.eq_of_toNat_eq h]
  · have hlt : a.toNat < b.toNat ↔ a.toNat ≤ b.toNat := by omega
    simp only [BitVec.ult, decide_eq_true_eq, hlt]

/-- Settles O2: each of the thirteen is `scalarOp` of its function, which writes rd alone. -/
theorem scalarArithmetic : Obligations.ScalarArithmetic := by
  unfold Obligations.ScalarArithmetic
  intro s t g rd rs1 y
  refine ⟨?_, ?_, ?_, ?_, ?_, ?_, ?_, ?_, ?_, ?_, ?_, ?_, ?_⟩
  case refine_10 => exact fun hr => ⟨_, rfl, writesScalar_of_eq _ hr rfl (mins_eq _ _)⟩
  case refine_11 => exact fun hr => ⟨_, rfl, writesScalar_of_eq _ hr rfl (maxs_eq _ _)⟩
  case refine_12 => exact fun hr => ⟨_, rfl, writesScalar_of_eq _ hr rfl (minu_eq _ _)⟩
  case refine_13 => exact fun hr => ⟨_, rfl, writesScalar_of_eq _ hr rfl (maxu_eq _ _)⟩
  all_goals exact fun hr => ⟨_, rfl, writesScalar_scalarOp _ hr rfl⟩

/-- The truth of a condition of CMP, as the statement O3 words it. -/
def cmpHolds (cond : BitVec 3) (a b : W64) : Prop := match cond.toNat with
  | 0 => a = b
  | 1 => a ≠ b
  | 2 => a.toInt < b.toInt
  | 3 => a.toNat < b.toNat
  | 4 => b.toInt ≤ a.toInt
  | _ => b.toNat ≤ a.toNat

/-- The conditions 000 to 101 decide `cmpHolds`. -/
theorem cmpCond_some {cond : BitVec 3} (h : cond.toNat ≤ 5) (a b : W64) :
    ∃ c : Bool, cmpCond cond a b = some c ∧ (c = true ↔ cmpHolds cond a b) := by
  unfold cmpCond cmpHolds
  generalize cond.toNat = n at h
  match n, h with
  | 0, _ | 1, _ | 2, _ | 3, _ | 4, _ | 5, _ => exact ⟨_, rfl, by simp [BitVec.slt, BitVec.ult]⟩

theorem cmpCond_none {cond : BitVec 3} (h : 5 < cond.toNat) (a b : W64) : cmpCond cond a b = none := by
  unfold cmpCond
  generalize cond.toNat = n at h
  match n, h with
  | n + 6, _ => rfl

theorem cmpEff_bad {cond : BitVec 3} {rd rs1 : BitVec 5} {y : Op2} (h : 7 < rd.toNat ∨ 5 < cond.toNat) :
    cmpEff t cond rd rs1 y s = .fault Codes.isaFieldRange := by
  unfold cmpEff
  dsimp only
  split
  · rfl
  · next b hb =>
    have hrd : 7 < rd.toNat := h.resolve_right fun hc => by simp [cmpCond_none hc] at hb
    exact if_pos hrd

theorem cmpEff_good {cond : BitVec 3} {rd rs1 : BitVec 5} {y : Op2} {b : Bool} (h : rd.toNat ≤ 7)
    (hb : cmpCond cond ((s.tile t).sreg rs1) ((s.tile t).op2 y) = some b) :
    cmpEff t cond rd rs1 y s = .done (s.modTile t (fun x => x.setP (rd.truncate 3) (if b then BitVec.allOnes 512 else 0))) := by
  unfold cmpEff
  simp only [hb, if_neg (Nat.not_lt.2 h)]
  rfl

/-- Settles O3: below the bounds the condition is decided and written to every lane, above them it is a fault. -/
theorem compareSetsPredicate : Obligations.CompareSetsPredicate := by
  unfold Obligations.CompareSetsPredicate
  intro s t g cond rd rs1 y a b holds hr
  refine ⟨_, rfl, fun hrd hcond => ?_, fun h => faults_issue hr (cmpEff_bad h)⟩
  obtain ⟨c, hc, hholds⟩ : ∃ c : Bool, cmpCond cond a b = some c ∧ (c = true ↔ holds) := cmpCond_some hcond a b
  have hw := writesPred_issue hr rfl (cmpEff_good hrd hc)
  exact ⟨fun h => by rwa [if_pos (hholds.2 h)] at hw, fun h => by rwa [if_neg (fun hc => h (hholds.1 hc))] at hw⟩

/-! LD, ST and MFE. -/

theorem spadFault_none {n : Nat} {a : W64} (ha : a.toNat % n = 0) (h : a.toNat < 25165824) : spadFault n a = none := by
  unfold spadFault
  rw [if_neg (by omega), if_neg (by unfold spadSize; omega)]

theorem spadFault_misalign {n : Nat} {a : W64} (h : a.toNat % n ≠ 0) : spadFault n a = some Codes.isaMisalign := if_pos h

theorem spadFault_range {n : Nat} {a : W64} (ha : a.toNat % n = 0) (h : 25165824 ≤ a.toNat) :
    spadFault n a = some Codes.isaAddrRange := by
  unfold spadFault
  rw [if_neg (by omega), if_pos (by unfold spadSize; omega)]

section LoadStore

variable {rd rs1 rs2 : BitVec 5} {imm : W64}

theorem ldEff_fault {c : Code} (h : spadFault 8 ((s.tile t).sreg rs1 + imm) = some c) : ldEff t rd rs1 imm s = .fault c := by
  unfold ldEff
  simp only [h]

theorem ldEff_done (h : spadFault 8 ((s.tile t).sreg rs1 + imm) = none) : ldEff t rd rs1 imm s = .done (s.modTile t (fun x =>
    x.setS rd (BitVec.ofNat 64 (leNat (x.spad.getRange 0 ((s.tile t).sreg rs1 + imm).toNat 8))))) := by
  unfold ldEff
  simp only [h]
  rfl

theorem stEff_fault {c : Code} (h : spadFault 8 ((s.tile t).sreg rs1 + imm) = some c) : stEff t rs1 rs2 imm s = .fault c := by
  unfold stEff
  simp only [h]

theorem stEff_done (h : spadFault 8 ((s.tile t).sreg rs1 + imm) = none) : stEff t rs1 rs2 imm s = .done (s.modTile t (fun x =>
    { x with spad := x.spad.setRange 0 ((s.tile t).sreg rs1 + imm).toNat (natLe 8 (x.sreg rs2).toNat) })) := by
  unfold stEff
  simp only [h]
  rfl

end LoadStore

/-- The bytes that a store of `n` little-endian bytes leaves. -/
theorem get_setRange_natLe (m : SMap Byte) (a n v : Nat) {i : Nat} (h : i < n) :
    (m.setRange 0 a (natLe n v)).get 0 (a + i) = BitVec.ofNat 8 (v / 256 ^ i) := by
  rw [SMap.get_setRange, natLe_length, if_pos (by omega), Nat.add_sub_cancel_left, natLe_getD n v i h]

theorem get_setRange_outside (m : SMap Byte) (a : Nat) (vs : List Byte) {k : Nat} (h : k < a ∨ a + vs.length ≤ k) :
    (m.setRange 0 a vs).get 0 k = m.get 0 k := by
  rw [SMap.get_setRange, if_neg (by omega)]

/-- Settles O4: the check of the address decides between the fault and the access. -/
theorem scratchpadLoadStore : Obligations.ScratchpadLoadStore := by
  unfold Obligations.ScratchpadLoadStore
  intro s t g rd rs1 rs2 imm a
  refine ⟨fun hr => ⟨_, rfl, fun ha hlt => ?load, fun ha => ?_, fun ha hle => ?_⟩,
    fun hr => ⟨_, rfl, fun ha hlt => ?store, fun ha => ?_, fun ha hle => ?_⟩,
    fun hr => ⟨_, rfl, fun h => ?event, fun h => faults_issue hr (if_pos h)⟩⟩
  case load =>
    refine ⟨_, writesScalar_issue hr rfl (ldEff_done (spadFault_none ha hlt)), fun i hi => ?_⟩
    rw [← leNat_byte64 _ (SMap.getRange_length _ _ _ _) i hi]
    exact (SMap.getRange_getD _ _ _ _ _ hi).symm
  case store =>
    obtain ⟨hto, htile⟩ := tileTo_issue _ hr rfl (stEff_done (spadFault_none ha hlt)) rfl rfl rfl
    have hspad : ((issue t g (slotOf (.st t g rs1 rs2 imm)) (stEff t rs1 rs2 imm) s).tile t).spad
        = (s.tile t).spad.setRange 0 a (natLe 8 ((s.tile t).sreg rs2).toNat) := by rw [htile]; rfl
    refine ⟨?_, fun i hi => ?_, fun k hk => ?_⟩
    · change TileTo s t { s.tile t with spad := (State.tile (issue _ _ _ _ _) t).spad } _
      rw [hspad]; exact hto
    · exact (congrArg (SMap.get 0 · (a + i)) hspad).trans (get_setRange_natLe _ _ _ _ hi)
    · exact (congrArg (SMap.get 0 · k) hspad).trans (get_setRange_outside _ _ _ (by simpa using hk))
  case event => exact writesScalar_issue (v := fun x => (x.ereg rs1.toNat).zeroExtend 64) hr rfl (if_neg (Nat.not_lt.2 h))
  · exact faults_issue hr (ldEff_fault (spadFault_misalign ha))
  · exact faults_issue hr (ldEff_fault (spadFault_range ha hle))
  · exact faults_issue hr (stEff_fault (spadFault_misalign ha))
  · exact faults_issue hr (stEff_fault (spadFault_range ha hle))

end Sys2Proof.Machine

namespace Sys2Proof.Machine

open Claims

variable {s : State} {t : Tile} {g : Guard}

/-! Class 0: control and sync (Tables 8 and 9 of 02). -/

/-! BR and BRR. -/

theorem brEff_moved {dest : Nat} (h1 : 1 ≤ dest) (h2 : dest ≤ (s.tile t).insnCount) :
    brEff t dest s = .moved (s.setTile t ((s.tile t).jump dest)) := if_pos ⟨h1, h2⟩

theorem brEff_fault {dest : Nat} (h : dest = 0 ∨ (s.tile t).insnCount < dest) : brEff t dest s = .fault Codes.isaPcRange :=
  if_neg (by omega)

/-- A branch that runs goes to its target, or faults outside the hand (R45, R46). -/
theorem branch_spec {i : Instr} {body : State → Eff} {dest : Nat} (hr : Runs s t g i) (hb : body s = brEff t dest s) :
    let x := s.tile t
    let m := issue t g (slotOf i) body s
    (1 ≤ dest → dest ≤ x.insnCount → OnlyTile s m t
        ∧ m.tile t = { x with pc := dest, issued := (x.issued + 1) % 2 ^ 64, loops := (m.tile t).loops }
        ∧ (∃ gone, x.loops = gone ++ (m.tile t).loops ∧ ∀ l ∈ gone, ¬(l.start ≤ dest ∧ dest ≤ l.stop))
        ∧ ∀ l ∈ (m.tile t).loops.head?, l.start ≤ dest ∧ dest ≤ l.stop)
      ∧ (dest = 0 ∨ x.insnCount < dest → Faults s t Codes.isaPcRange m) := by
  refine ⟨fun h1 h2 => ?_, fun h => faults_issue hr (hb.trans (brEff_fault h))⟩
  obtain ⟨honly, htile⟩ := moved_tile hr (hb.trans (brEff_moved h1 h2))
  refine ⟨honly, ?_⟩
  rw [htile]
  exact ⟨rfl, popLoops_spec _ _⟩

theorem pastEnd_eq (hrun : (s.tile t).run = .running) (h0 : (s.tile t).insnCount ≠ 0)
    (hpc : (s.tile t).pc = (s.tile t).insnCount + 1) :
    pastEnd t s = s.tileFault t (s.tile t).insnCount Codes.isaPcRange :=
  if_pos (by simp [hrun, h0, hpc])

/-- Settles O5: both branches are `brEff` of their target; past the last slot stands a precise fault. -/
theorem branchesStayInTheHand : Obligations.BranchesStayInTheHand := by
  unfold Obligations.BranchesStayInTheHand
  intro s t g target sx
  refine ⟨fun hr => ⟨_, rfl, branch_spec hr rfl⟩, fun hr => ⟨_, rfl, branch_spec hr rfl⟩, fun hrun h0 hpc => ?_⟩
  refine ⟨_, rfl, ?_⟩
  rw [pastEnd_eq hrun h0 hpc]
  simp +contextual [State.tileFault, State.tileFaultTrap, State.tile_setTile]

/-! WAIT and SIGNAL. -/

/-- A tile put to wait on a counter that has reached its target goes on at once. -/
theorem wake_reached {x : TileSt} {e : Nat} {v : W32} (hrun : x.run = .running) (h : (x.ereg e - v).toNat < 2 ^ 31) :
    ({ x with run := .waitEvt e v } : TileSt).wake = x.advance := by
  cases x
  cases hrun
  exact (TileSt.wake_run _ e v rfl).trans (if_pos h)

theorem wake_waits {x : TileSt} {e : Nat} {v : W32} (h : 2 ^ 31 ≤ (x.ereg e - v).toNat) :
    ({ x with run := .waitEvt e v } : TileSt).wake = { x with run := .waitEvt e v } :=
  (TileSt.wake_run _ e v rfl).trans (if_neg (Nat.not_lt.2 h))

theorem waitEff_reached {evt : Nat} {tgt : Cnt} (hrun : (s.tile t).run = .running)
    (h : ((s.tile t).ereg evt - (s.tile t).cnt tgt).toNat < 2 ^ 31) :
    waitEff t evt tgt s = .moved (s.setTile t (s.tile t).advance) :=
  congrArg (fun y => Eff.moved (s.setTile t y)) (wake_reached hrun h)

theorem waitEff_waits {evt : Nat} {tgt : Cnt} (h : 2 ^ 31 ≤ ((s.tile t).ereg evt - (s.tile t).cnt tgt).toNat) :
    waitEff t evt tgt s = .moved (s.setTile t { s.tile t with run := .waitEvt evt ((s.tile t).cnt tgt) }) :=
  congrArg (fun y => Eff.moved (s.setTile t y)) (wake_waits h)

theorem wait_spec {evt : BitVec 4} {tgt : Cnt} (hr : Runs s t g (.wait t g evt tgt)) :
    let x := s.tile t
    let m := issue t g (slotOf (.wait t g evt tgt)) (waitEff t evt.toNat tgt) s
    ((x.ereg evt.toNat - x.cnt tgt).toNat < 2 ^ 31 → TileTo s t x m)
      ∧ (2 ^ 31 ≤ (x.ereg evt.toNat - x.cnt tgt).toNat → OnlyTile s m t
          ∧ m.tile t = { x with run := .waitEvt evt.toNat (x.cnt tgt), issued := (x.issued + 1) % 2 ^ 64 }) := by
  refine ⟨fun h => ?_, fun h => moved_tile hr (waitEff_waits h)⟩
  obtain ⟨honly, htile⟩ := moved_tile hr (waitEff_reached (running_of_issue hr.1) h)
  refine ⟨honly, ?_⟩
  rw [htile]
  exact ⟨⟨rfl, rfl⟩, rfl⟩

theorem waitTimeout_eq {e : Nat} {v : W32} {h : Hand} (hrun : (s.tile t).run = .waitEvt e v) (hh : (s.tile t).hand = some h)
    (hl : h.waitLimit ≠ 0) : waitTimeout t s = s.tileFault t (s.tile t).pc Codes.isaWaitTimeout := by
  have hlimit : (h.waitLimit != 0) = true := by simpa using hl
  simp only [waitTimeout, hrun, hh, hlimit, Bool.and_self, if_true]

theorem bump_ereg (x : TileSt) (e inc k : Nat) :
    (x.bump e inc).ereg k = if k = e then x.ereg e + BitVec.ofNat 32 inc else x.ereg k := by
  have hwake : ∀ y : TileSt, y.wake.ereg k = y.ereg k := by
    intro y
    unfold TileSt.wake
    split
    · split <;> rfl
    · rfl
  rw [TileSt.bump, hwake, TileSt.ereg_setE]

theorem bump_run {x : TileSt} {e inc : Nat} {v : W32} (h : x.run = .waitEvt e v) :
    (x.bump e inc).run = .running ↔ (x.ereg e + BitVec.ofNat 32 inc - v).toNat < 2 ^ 31 := by
  have hrun : (x.setE e (x.ereg e + BitVec.ofNat 32 inc)).run = .waitEvt e v := h
  rw [TileSt.bump, TileSt.wake_run _ e v hrun, TileSt.ereg_setE, if_pos rfl]
  split
  · next hlt => exact iff_of_true rfl hlt
  · next hlt => exact iff_of_false (fun hc => by rw [hrun] at hc; cases hc) hlt

theorem bump_running {x : TileSt} {e inc : Nat} (h : x.run = .running) :
    x.bump e inc = x.setE e (x.ereg e + BitVec.ofNat 32 inc) :=
  TileSt.wake_other _ fun k v hc => by rw [show (x.setE e _).run = x.run from rfl, h] at hc; cases hc

/-- SIGNAL to a tile of the job: that tile's counter is bumped, the signalling tile passes (R48). -/
theorem signal_held {i : Instr} {body : State → Eff} {u evt inc : Nat} (hr : Runs s t g i)
    (hb : body s = .done (s.modTile u (fun y => y.bump evt inc))) :
    let m := issue t g (slotOf i) body s
    let y := s.tile u
    (∀ k, k ≠ u → k ≠ t.val → m.tile k = s.tile k) ∧ m = { s with tiles := m.tiles } ∧ Passed (s.tile t) (m.tile t)
      ∧ (∀ k, (m.tile u).ereg k = if k = evt then y.ereg evt + BitVec.ofNat 32 inc else y.ereg k)
      ∧ ∀ v, y.run = .waitEvt evt v → ((m.tile u).run = .running ↔ (y.ereg evt + BitVec.ofNat 32 inc - v).toNat < 2 ^ 31) := by
  have hrun := running_of_issue hr.1
  intro m y
  have hm : m = (s.modTile u (fun y => y.bump evt inc)).modTile t (fun y => y.countIssue.advance) := issue_done hr.1 hr.2 hb
  have htile : ∀ k, m.tile k = if k = t.val then (if k = u then y.bump evt inc else s.tile t).countIssue.advance
      else if k = u then y.bump evt inc else s.tile k := by
    intro k
    rw [hm, State.tile_modTile, State.tile_modTile, State.tile_modTile]
    by_cases hkt : k = t.val
    · subst hkt; rfl
    · rw [if_neg hkt, if_neg hkt]
  refine ⟨fun k hku hkt => by rw [htile, if_neg hkt, if_neg hku], by rw [hm]; rfl, ?_, fun k => ?_, fun v hv => ?_⟩
  · rw [htile, if_pos rfl]
    by_cases htu : t.val = u
    · subst htu
      rw [if_pos rfl, bump_running hrun]
      exact passed_advance _ _ rfl rfl rfl
    · rw [if_neg htu]
      exact passed_advance _ _ rfl rfl rfl
  · rw [← bump_ereg, htile]
    by_cases hut : u = t.val
    · rw [if_pos hut, if_pos rfl]; rfl
    · rw [if_neg hut, if_pos rfl]
  · have hut : u ≠ t.val := fun h => by subst h; rw [hrun] at hv; cases hv
    rw [htile, if_neg hut, if_pos rfl, bump_run hv]

theorem signalEff_bad {evt u inc : Nat} (h : 95 < u ∨ inc = 0) : signalEff t evt u inc s = .fault Codes.isaFieldRange := if_pos h

theorem signalEff_stranger {evt u inc : Nat} (hu : u ≤ 95) (hi : inc ≠ 0) (h : u ∉ s.jobTiles (s.tile t).job) :
    signalEff t evt u inc s = .fault Codes.isaSignalTarget := by
  rw [signalEff, if_neg (by omega), if_neg (by simpa using h)]

theorem signalEff_held {evt u inc : Nat} (hu : u ≤ 95) (hi : inc ≠ 0) (h : u ∈ s.jobTiles (s.tile t).job) :
    signalEff t evt u inc s = .done (s.modTile u (fun y => y.bump evt inc)) := by
  rw [signalEff, if_neg (by omega), if_pos (by simpa using h)]

/-- Settles O7: WAIT and SIGNAL are each one case of `wake`, whose condition is that of the WAIT. -/
theorem waitAndSignal : Obligations.WaitAndSignal := by
  unfold Obligations.WaitAndSignal
  intro s t g evt tgt u inc x
  have hinc : inc.zeroExtend 32 = BitVec.ofNat 32 inc.toNat := BitVec.eq_of_toNat_eq (by simp)
  have hzero : inc = 0 ↔ inc.toNat = 0 := BitVec.toNat_inj.symm
  refine ⟨fun hr => ⟨_, rfl, wait_spec hr⟩, fun e v h hrun hh hl => ⟨_, rfl, ?timeout⟩,
    fun hr => ⟨_, rfl, fun h => faults_issue hr (signalEff_bad (h.imp_right hzero.1)),
      fun hu hi h => faults_issue hr (signalEff_stranger hu (mt hzero.2 hi) h), fun hu hi h => ?held⟩⟩
  case timeout =>
    rw [waitTimeout_eq hrun hh hl]
    exact faults_tileFaultTrap s t _ 0
  case held =>
    obtain ⟨hother, hrest, hpassed, hereg, hgoes⟩ := signal_held hr (signalEff_held hu (mt hzero.2 hi) h)
    rw [hinc]
    exact ⟨hother, hrest, hpassed, (hereg _).trans (if_pos rfl), fun k hk => (hereg k).trans (if_neg hk), hgoes⟩

end Sys2Proof.Machine

namespace Sys2Proof.Machine

open Claims

variable {s : State} {t : Tile} {g : Guard}

/-! BARRIER and the release of its waves (R49, R441, R442). -/

/-- A fold that visits tiles, `F` telling what a visit makes of one: a second visit adds nothing. -/
theorem visitTiles {step : State → Nat → State} {F : Nat → TileSt → TileSt} {s0 : State}
    (hrest : ∀ s u, s = { s0 with tiles := s.tiles } → step s u = { s0 with tiles := (step s u).tiles })
    (htile : ∀ s u, s = { s0 with tiles := s.tiles } → ∀ k, (step s u).tile k = if k = u then F u (s.tile u) else s.tile k)
    (hF : ∀ u x, F u (F u x) = F u x) (l : List Nat) : ∀ s : State, s = { s0 with tiles := s.tiles } →
      l.foldl step s = { s0 with tiles := (l.foldl step s).tiles }
        ∧ ∀ k, (l.foldl step s).tile k = if k ∈ l then F k (s.tile k) else s.tile k := by
  induction l with
  | nil => exact fun s hs => ⟨hs, fun k => by simp⟩
  | cons u l ih =>
    intro s hs
    obtain ⟨hrest', htile'⟩ := ih (step s u) (hrest s u hs)
    refine ⟨hrest', fun k => ?_⟩
    rw [List.foldl_cons, htile', htile s u hs]
    by_cases hku : k = u
    · subst hku
      by_cases hkl : k ∈ l <;> simp [hkl, hF]
    · simp [hku]

/-- All tiles of a list are held. -/
theorem holdTiles (l : List Nat) (s : State) :
    let m := l.foldl (fun s u => s.modTile u (fun x => { x with run := .held })) s
    m = { s with tiles := m.tiles } ∧ ∀ k, m.tile k = if k ∈ l then { s.tile k with run := .held } else s.tile k :=
  visitTiles (F := fun _ x => { x with run := .held }) (fun s' u hs => by rw [hs]; rfl)
    (fun s' u _ k => State.tile_modTile _ _ _ _) (fun _ _ => rfl) l s rfl

theorem barrierFull_iff {j bid : Nat} :
    barrierFull (s.modTile t (fun x => { x with run := .waitBar bid })) j bid = true
      ↔ ∀ u ∈ s.jobTiles j, u ≠ t.val → (s.tile u).run = .waitBar bid := by
  have hjob : (s.modTile t (fun x => { x with run := .waitBar bid })).jobTiles j = s.jobTiles j := rfl
  simp only [barrierFull, hjob, List.all_eq_true, beq_iff_eq, State.tile_modTile]
  refine forall₂_congr fun u _ => ?_
  split
  · next h => exact iff_of_true rfl (fun hne => absurd h hne)
  · next h => exact ⟨fun hrun _ => hrun, fun hrun => hrun h⟩

/-- The last tile to come completes the barrier for all; an earlier one only waits. -/
theorem barrier_spec {bid : BitVec 4} (hr : Runs s t g (.barrier t g bid)) :
    let j := (s.tile t).job
    let m := issue t g (slotOf (.barrier t g bid)) (barrierEff t bid.toNat) s
    m = { s with tiles := m.tiles }
      ∧ ((∀ u ∈ s.jobTiles j, u ≠ t.val → (s.tile u).run = .waitBar bid.toNat) → ∀ u ∈ s.jobTiles j, (m.tile u).run = .held)
      ∧ ((∃ u ∈ s.jobTiles j, u ≠ t.val ∧ (s.tile u).run ≠ .waitBar bid.toNat) →
          (m.tile t).run = .waitBar bid.toNat ∧ ∀ u, u ≠ t.val → m.tile u = s.tile u) := by
  intro j m
  let w := s.modTile t (fun x => { x with run := .waitBar bid.toNat })
  by_cases hfull : barrierFull w j bid.toNat = true
  · obtain ⟨hrest, htile⟩ := holdTiles (s.jobTiles j) w
    have hm : m = _ := issue_moved hr.1 hr.2 (if_pos hfull)
    refine ⟨by rw [hm]; exact congrArg (fun z => State.modTile z t TileSt.countIssue) hrest, fun _ u hu => ?_,
      fun ⟨u, hu, hne, hrun⟩ => absurd (barrierFull_iff.1 hfull u hu hne) hrun⟩
    have hheld : (((s.jobTiles j).foldl (fun s u => s.modTile u (fun x => { x with run := .held })) w).tile u).run = .held := by
      rw [htile, if_pos hu]
    rw [hm, State.tile_modTile]
    split
    · next h => subst h; exact hheld
    · exact hheld
  · have hm : m = w.modTile t TileSt.countIssue := issue_moved hr.1 hr.2 (if_neg hfull)
    refine ⟨by rw [hm]; rfl, fun h => absurd (barrierFull_iff.2 h) hfull, fun _ => ⟨?_, fun u hu => ?_⟩⟩
    · rw [hm, State.modTile_modTile]; rfl
    · rw [hm, State.tile_modTile, if_neg hu, State.tile_modTile, if_neg hu]

/-- What the release of wave `w` makes of tile `u`. -/
def released (waves w u : Nat) (x : TileSt) : TileSt :=
  if x.run == .held && u % waves == w then
    ({ x with run := .running, pwr := { x.pwr with ramp := some 0 } } : TileSt).advance
  else x

theorem released_twice (waves w u : Nat) (x : TileSt) : released waves w u (released waves w u x) = released waves w u x := by
  by_cases h : (x.run == .held && u % waves == w) = true
  · have hx : released waves w u x = _ := if_pos h
    rw [hx]
    exact if_neg (by rw [show (TileSt.advance _).run = .running from rfl]; exact Bool.false_ne_true)
  · have hx : released waves w u x = x := if_neg h
    rw [hx, hx]

/-- The release of a wave changes the held tiles of the job in the wave, and nothing else. -/
theorem waveRelease_spec (s : State) (j w : Nat) :
    let m := waveRelease j w s
    m = { s with tiles := m.tiles }
      ∧ ∀ k, m.tile k = if k ∈ s.jobTiles j then released s.power.live.waveCount w k (s.tile k) else s.tile k := by
  refine visitTiles (F := released s.power.live.waveCount w) (fun s' u hs => ?_) (fun s' u hs k => ?_)
    (released_twice _ _) (s.jobTiles j) s rfl
  · split
    · rw [hs]; rfl
    · exact hs
  · have hpower : s'.power = s.power := by rw [hs]
    rw [hpower]
    split
    · next h => rw [State.tile_modTile, released, if_pos h]
    · next h =>
      split
      · next hk => subst hk; rw [released, if_neg h]
      · rfl

/-- Settles O8: the barrier's condition is that of its last tile, and holding and releasing are folds over the job's tiles. -/
theorem barrierCompletesTogether : Obligations.BarrierCompletesTogether := by
  unfold Obligations.BarrierCompletesTogether
  intro s t g bid job wave x
  refine ⟨fun hr _ => ⟨_, rfl, barrier_spec hr⟩, _, rfl, ?_⟩
  obtain ⟨hrest, htile⟩ := waveRelease_spec s job wave
  refine ⟨hrest, fun u hu => by rw [htile, if_neg hu], fun u hu hheld hwave => ?_, fun u hu hwave => ?_⟩
  · rw [htile, if_pos hu, released, if_pos (by simp [hheld, hwave])]
    exact ⟨rfl, rfl, rfl⟩
  · rw [htile, if_pos hu, released, if_neg (by simp [hwave])]

/-! FENCE, TRAP and HALT. -/

/-- What a FENCE of a scope waits for. -/
def fenceBusy (x : TileSt) (scope : Nat) : Prop :=
  (∃ r ∈ x.dmas, inScope scope r.dst = true) ∨ (scope ≠ 1 ∧ x.appends ≠ [])

theorem fenceBusy_iff (x : TileSt) (scope : Nat) :
    (x.dmas.any (fun r => inScope scope r.dst) || (scope != 1 && !x.appends.isEmpty)) = true ↔ fenceBusy x scope := by
  simp [fenceBusy]

theorem fenceEff_passes {scope : Nat} (h : ¬fenceBusy (s.tile t) scope) : fenceEff t scope s = .done s :=
  if_neg (mt (fenceBusy_iff _ _).1 h)

theorem fenceEff_stalls {scope : Nat} (h : fenceBusy (s.tile t) scope) : fenceEff t scope s = .stall s :=
  if_pos ((fenceBusy_iff _ _).2 h)

/-- Only a hand dealt as an image issues instructions. -/
theorem noPlan_of_stands {h : Hand} {i : Instr} (hs : Stands s t i) (hh : (s.tile t).hand = some h) : h.gen = none := by
  simp only [Stands, TileSt.canIssue, hh, Bool.and_eq_true, Option.isNone_iff_eq_none] at hs
  obtain ⟨⟨⟨⟨_, hgen⟩, _⟩, _⟩, _⟩ := hs
  exact hgen

theorem halt_image {h : Hand} (hh : (s.tile t).hand = some h) (hgen : h.gen = none) :
    halt t g s = issue t g (slotOf (.halt t g)) (haltEff t) s := by
  simp only [halt, hh, hgen]

/-- A hand without outstanding work or counted blocks ends without a log entry. -/
theorem handEnd_quiet {h : Hand} (hh : (s.tile t).hand = some h) (hrun : (s.tile t).run = .halting)
    (hd : (s.tile t).dmas = []) (ha : (s.tile t).appends = []) (hb : (s.tile t).regs.sums.blocks = 0) :
    handEnd t s = ((s.handSummary t true).dropHolds t).modTile t TileSt.release := by
  simp [handEnd, hh, hrun, hd, ha, hb]

theorem handSummary_tile {h : Hand} (hh : (s.tile t).hand = some h) (hb : (s.tile t).regs.sums.blocks = 0) (u : Nat) :
    (s.handSummary t true).tile u = s.tile u := by
  simp only [State.handSummary, hh, hb, if_true]
  split
  · exact State.tile_report _ _ _ _
  · rfl

/-- Settles O9: each instruction by its own effect; a hand dealt as an image has no plan and so ends as the state has it. -/
theorem fenceTrapHalt : Obligations.FenceTrapHalt := by
  unfold Obligations.FenceTrapHalt
  intro s t g scope code x busy
  refine ⟨fun hr => ⟨_, rfl, fun h => done_same hr (fenceEff_passes h), fun h => issue_stall hr.1 hr.2 (fenceEff_stalls h)⟩,
    fun hr => ⟨_, rfl, ?trap⟩, fun h hr hh => ⟨_, congrArg Host.Outcome.next (halt_image hh (noPlan_of_stands hr.1 hh)), moved_tile (y := { x with run := .halting }) hr rfl⟩,
    fun h hh hrun hd ha hb => ⟨_, congrArg Host.Outcome.next (handEnd_quiet hh hrun hd ha hb), ?ends⟩⟩
  case trap =>
    rw [issue_trap hr.1 hr.2 rfl]
    exact faults_tileFaultTrap s t _ _
  case ends =>
    have htile : ∀ u, ((s.handSummary t true).dropHolds t).tile u = s.tile u := handSummary_tile hh hb
    rw [State.tile_modTile_same, htile]
    exact ⟨rfl, rfl, rfl, fun u hu => by rw [State.tile_modTile, if_neg hu, htile]⟩

end Sys2Proof.Machine

namespace Sys2Proof.Machine

open Claims

variable {s : State} {t : Tile} {g : Guard}

/-! Class 5: vector arithmetic, comparison and reduction (R63, R65, R136, R137, R140). -/

/-- Lane `i` of a register, as the effects read it. -/
theorem lane_vreg (x : TileSt) (r : BitVec 4) {i : Nat} (hi : i < 512) : lane (x.vreg r) i = Claims.lane x r i :=
  vreg_getD x r i hi

theorem writesLanes_congr {vd : BitVec 4} {f h : Nat → W32} {m : State} (hw : WritesLanes s t g vd f m)
    (hf : ∀ i, i < 512 → f i = h i) : WritesLanes s t g vd h m := by
  obtain ⟨hto, hvd, hother⟩ := hw
  exact ⟨hto, fun i hi => by rw [hvd i hi, hf i hi], hother⟩

/-- A lane-by-lane instruction, by the value of each lane. -/
theorem writesLanes_of_lanes {i : Instr} {body : BitVec 512 → State → Eff} {vd : BitVec 4} {f : TileSt → Nat → W32} {h : Nat → W32}
    (hr : Stands s t i)
    (hb : body ((s.tile t).lanes g) s
      = .done (s.modTile t (fun x => x.setV vd (lanesOf ((s.tile t).lanes g) (x.vreg vd) (f x)))))
    (hf : ∀ k, k < 512 → f (s.tile t) k = h k) : WritesLanes s t g vd h (issueLanes t g (slotOf i) body s) :=
  writesLanes_congr (writesLanes_issue hr rfl hb) hf

theorem writesLanes_op2 {i : Instr} {vd va vb : BitVec 4} (f : W32 → W32 → W32) (hr : Stands s t i) :
    WritesLanes s t g vd (fun k => f (Claims.lane (s.tile t) va k) (Claims.lane (s.tile t) vb k))
      (issueLanes t g (slotOf i) (laneOp2 f t vd va vb) s) :=
  writesLanes_of_lanes hr rfl fun k hk => by rw [lane_vreg _ va hk, lane_vreg _ vb hk]

/-- Settles O10: each of the eight is one function of the lanes as they stood before. -/
theorem vectorArithmetic : Obligations.VectorArithmetic := by
  unfold Obligations.VectorArithmetic
  intro s t g vd va vb vc pd sx
  refine ⟨fun hr => ⟨_, rfl, writesLanes_op2 fadd hr⟩, fun hr => ⟨_, rfl, writesLanes_op2 fsub hr⟩,
    fun hr => ⟨_, rfl, writesLanes_op2 fmul hr⟩,
    fun hr => ⟨_, rfl, writesLanes_of_lanes hr rfl fun k hk => ?fma⟩, fun hr => ⟨_, rfl, writesLanes_op2 fmin32 hr⟩,
    fun hr => ⟨_, rfl, writesLanes_op2 fmax32 hr⟩, fun hr => ⟨_, rfl, writesLanes_of_lanes hr rfl fun k hk => ?sel⟩,
    fun hr => ⟨_, rfl, writesLanes_of_lanes hr rfl fun k hk => rfl⟩⟩
  case fma => rw [lane_vreg _ va hk, lane_vreg _ vb hk, lane_vreg _ vc hk]; rfl
  case sel => rw [lane_vreg _ va hk, lane_vreg _ vb hk]

/-- A write of a scalar or predicate register moves no program counter. -/
theorem TileSt.setS_issue (x : TileSt) (r : BitVec 5) (v : W64) :
    (x.setS r v).loops = x.loops ∧ (x.setS r v).pc = x.pc ∧ (x.setS r v).issued = x.issued := by
  rw [TileSt.setS_eq]; exact ⟨rfl, rfl, rfl⟩

theorem TileSt.setP_issue (x : TileSt) (r : BitVec 3) (v : BitVec 512) :
    (x.setP r v).loops = x.loops ∧ (x.setP r v).pc = x.pc ∧ (x.setP r v).issued = x.issued := by
  rw [TileSt.setP_eq]; exact ⟨rfl, rfl, rfl⟩

/-! VCMP. -/

/-- The order of two values that are not NaN, under each condition of VCMP (Table 20 of 02). -/
def ordered (cond : BitVec 3) (order : Int) : Prop :=
  if cond = 0 then order = 0 else if cond = 2 then order < 0 else if cond = 3 then order ≤ 0
    else if cond = 4 then 0 < order else 0 ≤ order

theorem vcmpCond_nan {n : Nat} {a b : W32} (h : isNaN32 a = true ∨ isNaN32 b = true) : vcmpCond n a b = (n == 1) :=
  if_pos (by simpa using h)

theorem vcmpCond_iff {cond : BitVec 3} (hc : cond.toNat ≤ 5) (a b : W32) :
    vcmpCond cond.toNat a b = true ↔
      (if cond = 1 then (isNaN32 a = true ∨ isNaN32 b = true) ∨ FV.cmp (val32 a) (val32 b) ≠ 0
      else ¬(isNaN32 a = true ∨ isNaN32 b = true) ∧ ordered cond (FV.cmp (val32 a) (val32 b))) := by
  by_cases hnan : isNaN32 a = true ∨ isNaN32 b = true
  · rw [vcmpCond_nan hnan, beq_iff_eq, show cond.toNat = 1 ↔ cond = 1 from BitVec.toNat_inj (y := 1#3)]
    by_cases h1 : cond = 1 <;> simp [h1, hnan]
  · have hb : ¬(isNaN32 a || isNaN32 b) = true := by simpa using hnan
    rw [vcmpCond, if_neg hb]
    obtain ⟨n, hn, rfl⟩ : ∃ n, n ≤ 5 ∧ cond = BitVec.ofNat 3 n := ⟨cond.toNat, hc, by simp⟩
    match n, hn with
    | 0, _ | 1, _ | 2, _ | 3, _ | 4, _ | 5, _ => simp [ordered, hnan]

theorem predBits_getLsbD (mask old : BitVec 512) (f : Nat → Bool) {i : Nat} (hi : i < 512) :
    (predBits mask old f).getLsbD i = if mask.getLsbD i then f i else old.getLsbD i := by
  rw [predBits, BitVec.getLsbD_setWidth, BitVec.getLsbD_ofBoolListLE]
  simp [hi]

theorem vcmp_spec {cond pd : BitVec 3} {va vb : BitVec 4} (hc : cond.toNat ≤ 5) (hr : Stands s t (.vcmp t g cond pd va vb)) :
    let x := s.tile t
    let m := issueLanes t g (slotOf (.vcmp t g cond pd va vb)) (vcmpEff t cond.toNat pd va vb) s
    TileTo s t { x with p := (m.tile t).p } m ∧ (∀ r, r ≠ pd → (m.tile t).preg r = x.preg r)
      ∧ (pd ≠ 0 → ∀ i, i < 512 → ((m.tile t).preg pd).getLsbD i
          = if (x.lanes g).getLsbD i then vcmpCond cond.toNat (Claims.lane x va i) (Claims.lane x vb i) else (x.preg pd).getLsbD i) := by
  intro x m
  let v := predBits (x.lanes g) (x.preg pd) (fun i => vcmpCond cond.toNat (lane (x.vreg va) i) (lane (x.vreg vb) i))
  have hset : x.setP pd v = { x with p := (x.setP pd v).p } := TileSt.setP_eq x pd v
  have hbody : vcmpEff t cond.toNat pd va vb (x.lanes g) s = .done (s.modTile t fun y => y.setP pd
      (predBits (x.lanes g) (y.preg pd) (fun i => vcmpCond cond.toNat (lane (y.vreg va) i) (lane (y.vreg vb) i)))) :=
    if_neg (Nat.not_lt.2 hc)
  obtain ⟨hloops, hpc, hissued⟩ := TileSt.setP_issue x pd v
  obtain ⟨hto, htile⟩ := tileTo_issueLanes _ hr rfl hbody hloops hpc hissued
  have hp : (m.tile t).p = (x.setP pd v).p := (congrArg TileSt.p htile).trans rfl
  have hpreg : ∀ r, (m.tile t).preg r = if r = pd then (if pd = 0 then BitVec.allOnes 512 else v) else x.preg r := by
    intro r
    rw [← TileSt.preg_setP, TileSt.preg, TileSt.preg, hp]
  refine ⟨?_, fun r hne => by rw [hpreg, if_neg hne], fun h0 i hi => ?_⟩
  · rw [hp]
    exact hset ▸ hto
  · rw [hpreg, if_pos rfl, if_neg h0, predBits_getLsbD _ _ _ hi, lane_vreg _ va hi, lane_vreg _ vb hi]

/-! VRED. -/

/-- A node depends on the leaves below it alone. -/
theorem treeNode_congr (op : W32 → W32 → W32) {f h : Nat → W32} (n i : Nat) (hf : ∀ k, k < 2 ^ n * (i + 1) → f k = h k) :
    treeNode op f n i = treeNode op h n i := by
  induction n generalizing i with
  | zero => exact hf i (by omega)
  | succ n ih =>
    have hsub : ∀ j, j ≤ 2 * i + 1 → treeNode op f n j = treeNode op h n j := fun j hj =>
      ih j fun k hk => hf k (Nat.lt_of_lt_of_le hk (by
        rw [Nat.pow_succ, Nat.mul_assoc]; exact Nat.mul_le_mul_left _ (by omega)))
    rw [treeNode, treeNode, hsub _ (by omega), hsub _ (by omega)]

theorem treeNode_const (op : W32 → W32 → W32) {e : W32} (he : op e e = e) (n i : Nat) : treeNode op (fun _ => e) n i = e := by
  induction n generalizing i with
  | zero => rfl
  | succ n ih => rw [treeNode, ih, ih, he]

/-- An identity combined with itself is itself. -/
theorem redOp_identity {n : Nat} (hn : n ≤ 2) : redOp n (redIdentity n) (redIdentity n) = redIdentity n := by
  match n, hn with
  | 0, _ | 1, _ | 2, _ => decide

theorem zipIdx_pick_getD (xs : List W32) (mask : BitVec 512) (e : W32) {i : Nat} (hi : i < xs.length) :
    (xs.zipIdx.map (fun p => if mask.getLsbD p.2 then p.1 else e)).getD i 0 = if mask.getLsbD i then xs.getD i 0 else e := by
  simp [List.getD, hi]

theorem vredEff_done {op : Nat} {va : BitVec 4} {sx : BitVec 5} {mask : BitVec 512} (h : op ≤ 2) :
    vredEff t op va sx mask s = .done (s.modTile t fun x => x.setS sx ((treeNode (redOp op)
      (fun i => if mask.getLsbD i then Claims.lane x va i else redIdentity op) 9 0).setWidth 64)) := by
  rw [vredEff, if_neg (Nat.not_lt.2 h)]
  refine congrArg (fun f => Eff.done (s.modTile t f)) (funext fun x => ?_)
  dsimp only
  rw [tree512_eq _ _ (by simp)]
  refine congrArg (fun w => x.setS sx (w.setWidth 64)) (treeNode_congr _ 9 0 fun k hk => ?_)
  rw [zipIdx_pick_getD _ _ _ (by simpa using hk), vreg_getD _ _ _ (by simpa using hk)]

/-- An instruction that always issues and whose effect is one scalar register. -/
theorem writesScalar_issueLanes {i : Instr} {body : BitVec 512 → State → Eff} {rd : BitVec 5} {v : TileSt → W64} (hr : Stands s t i)
    (hb : body ((s.tile t).lanes g) s = .done (s.modTile t (fun x => x.setS rd (v x)))) :
    WritesScalar s t rd (v (s.tile t)) (issueLanes t g (slotOf i) body s) := by
  have hset := TileSt.setS_eq (s.tile t) rd (v (s.tile t))
  obtain ⟨hloops, hpc, hissued⟩ := TileSt.setS_issue (s.tile t) rd (v (s.tile t))
  obtain ⟨hto, htile⟩ := tileTo_issueLanes (fun x => x.setS rd (v x)) hr rfl hb hloops hpc hissued
  have hs : ((issueLanes t g (slotOf i) body s).tile t).s = ((s.tile t).setS rd (v (s.tile t))).s :=
    (congrArg TileSt.s htile).trans rfl
  have hsreg : ∀ r, ((issueLanes t g (slotOf i) body s).tile t).sreg r
      = if r = rd then (if rd = 0 then 0 else v (s.tile t)) else (s.tile t).sreg r := by
    intro r
    rw [← TileSt.sreg_setS, TileSt.sreg, TileSt.sreg, hs]
  refine ⟨?_, by rw [hsreg, if_pos rfl], fun r hne => by rw [hsreg, if_neg hne]⟩
  rw [hs, ← hset]
  exact hto

theorem redIdentity_eq {op : BitVec 2} (h : op.toNat ≤ 2) :
    redIdentity op.toNat = if op = 0 then 0 else if op = 1 then 0xFF800000#32 else 0x7F800000#32 := by
  obtain ⟨n, hn, rfl⟩ : ∃ n, n ≤ 2 ∧ op = BitVec.ofNat 2 n := ⟨op.toNat, h, by simp⟩
  match n, hn with
  | 0, _ | 1, _ | 2, _ => rfl

theorem redOp_eq {op : BitVec 2} (h : op.toNat ≤ 2) :
    redOp op.toNat = if op = 0 then fadd else if op = 1 then fmax32 else fmin32 := by
  obtain ⟨n, hn, rfl⟩ : ∃ n, n ≤ 2 ∧ op = BitVec.ofNat 2 n := ⟨op.toNat, h, by simp⟩
  match n, hn with
  | 0, _ | 1, _ | 2, _ => rfl

/-- Settles O11: VCMP writes its lanes' comparisons, and VRED is the tree of `treeNode` over the executing lanes. -/
theorem vectorCompareAndReduce : Obligations.VectorCompareAndReduce := by
  unfold Obligations.VectorCompareAndReduce
  intro s t g cond pd va vb op sx x act nan order holds ident comb
  refine ⟨fun hr => ⟨_, rfl, fun hc => ?compare, fun h => faults_issueLanes hr (if_pos h)⟩,
    fun hr => ⟨_, rfl, fun hop => ?reduce, fun h => faults_issueLanes hr (if_pos (by omega))⟩⟩
  case compare =>
    obtain ⟨hto, hother, hbits⟩ := vcmp_spec hc hr
    refine ⟨hto, hother, fun h0 i hi => ⟨fun hact => ?_, fun hact => ?_⟩⟩
    · rw [hbits h0 i hi, if_pos hact]
      exact vcmpCond_iff hc _ _
    · rw [hbits h0 i hi, if_neg (Bool.eq_false_iff.1 hact)]
  case reduce =>
    have hw := writesScalar_issueLanes (g := g) (body := vredEff t op.toNat va sx) hr (vredEff_done hop)
    rw [redIdentity_eq hop, redOp_eq hop] at hw
    refine ⟨hw, fun hnone => ?_⟩
    have hident : treeNode comb (fun i => if act i then Claims.lane x va i else ident) 9 0 = ident := by
      rw [treeNode_congr comb (h := fun _ => ident) 9 0 fun k hk => by rw [hnone k (by simpa using hk)]; rfl]
      have hself := redOp_identity hop
      rw [redIdentity_eq hop, redOp_eq hop] at hself
      exact treeNode_const comb hself 9 0
    rw [← hident]
    exact hw

end Sys2Proof.Machine

namespace Sys2Proof.Machine

open Claims

variable {s : State} {t : Tile} {g : Guard}

/-! Class 6: special functions (R67, R148, R152, R160, Table 6 of 05). -/

/-- SFU.COMPAT_COUNT after an instruction of the mode (R160). -/
def compatAfter (k1 : Bool) (x : TileSt) : Nat := if k1 then min (2 ^ 32 - 1) (x.regs.compat + 1) else x.regs.compat

theorem countCompat_eq (k1 : Bool) (x : TileSt) :
    countCompat k1 x = { x with regs := { x.regs with compat := compatAfter k1 x } } := by
  cases k1 <;> rfl

/-- A special-function instruction writes its lanes and counts in compatibility mode. -/
theorem sfu_spec {i : Instr} (k1 : Bool) (f : W32 → W32) (vd va : BitVec 4) (hr : Stands s t i) :
    let x := s.tile t
    let m := issueLanes t g (slotOf i) (sfuEff k1 f t vd va) s
    TileTo s t { x with v := (m.tile t).v, regs := { x.regs with compat := compatAfter k1 x } } m
      ∧ (∀ k, k < 512 →
          Claims.lane (m.tile t) vd k = if (x.lanes g).getLsbD k then f (Claims.lane x va k) else Claims.lane x vd k)
      ∧ ∀ r, r ≠ vd → ∀ k, k < 512 → Claims.lane (m.tile t) r k = Claims.lane x r k := by
  intro x m
  let y : TileSt := x.setV vd (lanesOf (x.lanes g) (x.vreg vd) (fun k => f (lane (x.vreg va) k)))
  have hloops : (countCompat k1 y).loops = x.loops ∧ (countCompat k1 y).pc = x.pc ∧ (countCompat k1 y).issued = x.issued := by
    rw [countCompat_eq]; exact ⟨rfl, rfl, rfl⟩
  obtain ⟨hl, hp, hi⟩ := hloops
  have hlen : (lanesOf (x.lanes g) (x.vreg vd) (fun k => f (lane (x.vreg va) k))).length = 512 := by simp
  obtain ⟨hto, htile⟩ := tileTo_issueLanes (fun x : TileSt =>
    countCompat k1 (x.setV vd (lanesOf ((s.tile t).lanes g) (x.vreg vd) (fun k => f (lane (x.vreg va) k))))) hr rfl
    (body := sfuEff k1 f t vd va) rfl hl hp hi
  have hv : (m.tile t).v = y.v := by
    rw [show m.tile t = (countCompat k1 y).countIssue.advance from htile, countCompat_eq]; rfl
  have hlane : ∀ r k, Claims.lane (m.tile t) r k = Claims.lane y r k := by
    intro r k; rw [Claims.lane, Claims.lane, hv]
  refine ⟨?_, fun k hk => ?_, fun r hne k hk => ?_⟩
  · rw [hv]
    have hy : countCompat k1 y = { x with v := y.v, regs := { x.regs with compat := compatAfter k1 x } } := countCompat_eq k1 y
    exact hy ▸ hto
  · rw [hlane, lane_setV _ _ _ _ _ hlen hk, if_pos rfl, lanesOf_getD _ _ _ _ (by simpa using hk), vreg_getD _ _ _ hk,
      lane_vreg _ va hk]
  · rw [hlane, lane_setV _ _ _ _ _ hlen hk, if_neg hne]

/-! Special inputs. -/

/-- A NaN has all exponent bits set, so that no mode reads it as a zero. -/
theorem exponent_of_isNaN32 {w : W32} (h : isNaN32 w = true) : w.toNat / 2 ^ 23 % 256 = 255 := by
  have hmag : ¬ w.toNat % 2 ^ 31 ≤ 0x7F7FFFFF := by
    intro hle
    have hfin : val32 w = if w.toNat % 2 ^ 31 / 2 ^ 23 = 0 then _ else _ := if_pos hle
    rw [isNaN32, hfin] at h
    split at h <;> cases h
  omega

theorem val32_of_isNaN32 {w : W32} (h : isNaN32 w = true) : val32 w = .nan := by
  unfold isNaN32 at h
  cases hv : val32 w with
  | nan => rfl
  | inf n => rw [hv] at h; cases h
  | fin n m e => rw [hv] at h; cases h

theorem sfuIn_of_isNaN32 {w : W32} (k1 : Bool) (h : isNaN32 w = true) : sfuIn k1 w = .nan := by
  rw [sfuIn, exponent_of_isNaN32 h, if_neg (by simp), val32_of_isNaN32 h]

/-- Table 6 of 05, the NaN column. -/
theorem sfu_nan {w : W32} (k1 : Bool) (h : isNaN32 w = true) : ∀ f ∈ [sfuExp2 k1, sfuExp k1, sfuLog2 k1, sfuRcp k1, sfuRsqrt k1,
    sfuSigmoid k1, sfuTanh k1, sfuGelu k1, sfuSilu k1, sfuSoftplus, sfuErf, sfuSin k1, sfuCos k1], f w = nan32 := by
  have hin := sfuIn_of_isNaN32 k1 h
  have hval := val32_of_isNaN32 h
  simp [sfuExp2, sfuExp, sfuLog2, sfuRcp, sfuRsqrt, sfuSigmoid, sfuTanh, sfuGelu, sfuSilu, sfuSoftplus, sfuErf, sfuSin, sfuCos, hin,
    hval]

theorem forall_mem_pair {α : Type} {p : α → Prop} {a b : α} (ha : p a) (hb : p b) : ∀ x ∈ [a, b], p x := by
  simpa using ⟨ha, hb⟩

/-- Settles O12: the instructions are `sfuEff` of their functions; the special inputs are finitely many but for the NaNs. -/
theorem specialFunctions : Obligations.SpecialFunctions := by
  unfold Obligations.SpecialFunctions
  refine ⟨fun s t g k1 vd va => ?_, fun k1 => ⟨forall_mem_pair ?_ ?_, ?_, ?_, ?_, ?_, forall_mem_pair ?_ ?_,
    forall_mem_pair ?_ ?_, ?_, ?_, ?_, fun w h => sfu_nan k1 h⟩⟩
  · refine ⟨?_, ?_, ?_, ?_, ?_, ?_, ?_, ?_, ?_, ?_, ?_, ?_, ?_⟩ <;> exact fun hr => ⟨_, rfl, sfu_spec k1 _ vd va hr⟩
  all_goals revert k1; decide

end Sys2Proof.Machine

namespace Sys2Proof.Machine

open Claims

variable {s : State} {t : Tile} {g : Guard}

/-! Class 5: VLD, VST, VSTAT and VCVT (R64, R66, R138, R139). -/

/-! The checks. -/

theorem lowest_none : ∀ {l : List (Bool × Code)}, (∀ p ∈ l, p.1 = false) → lowest l = none
  | [], _ => rfl
  | (b, c) :: l, h => by
    obtain rfl : b = false := h (b, c) (by simp)
    rw [lowest, lowest_none fun p hp => h p (by simp [hp])]

theorem lowest_head {l : List (Bool × Code)} {c : Code} (h : lowest l = none) : lowest ((true, c) :: l) = some c := by
  simp only [lowest, h]

theorem nameFault_none {type : Nat} {d : Desc} (h0 : descHdr d ≠ 0) (ht : descType d = type) : nameFault type d = none := by
  rw [nameFault, if_neg h0, if_pos ht]

/-- The descriptor of a vector access: a tensor in scratchpad or accumulator memory, of an accepted format, aligned. -/
structure VecTensor (d : Desc) (off : W64) : Prop where
  hdr : descHdr d ≠ 0
  type : descType d = 0x10
  space : (tensorOf d).space = 0 ∨ (tensorOf d).space = 2
  notInt8 : (tensorOf d).fmt ≠ 6
  notMx : fmtMx (tensorOf d).fmt = false
  aligned : (tensorOf d).aligned = true
  offset : off.toNat % 2 ^ 32 % (tensorOf d).block = 0

theorem VecTensor.name {d : Desc} {off : W64} (h : VecTensor d off) : nameFault 0x10 d = none := nameFault_none h.hdr h.type

theorem VecTensor.faults {d : Desc} {off : W64} (h : VecTensor d off) : lowest (vecDescFaults (tensorOf d) off) = none := by
  have hspace : ((tensorOf d).space == 1) = false := by rcases h.space with e | e <;> rw [e] <;> rfl
  have hfmt : ((tensorOf d).fmt == 6) = false := by simpa using h.notInt8
  have hoff : (tensorOf d).blockMisaligned off = false := by simpa [Tensor.blockMisaligned, off0] using h.offset
  refine lowest_none ?_
  simp [vecDescFaults, hspace, hfmt, h.notMx, h.aligned, hoff]

/-! VLD. -/

theorem rawFmt_iff (n : Nat) : rawFmt n = true ↔ n = 0 ∨ n = 5 ∨ n = 7 := by simp [rawFmt, or_assoc]

theorem vecElem_eq (d : Tensor) (r : RowIx) (k : Nat) : s.vecElem t d r k
    = if d.fmt = 0 ∨ d.fmt = 5 ∨ d.fmt = 7 then (if d.hasRow r = true ∧ k < d.e0 then BitVec.ofNat 32 (s.elemBits t d r k) else 0)
      else to32 (s.elemVal t d r k) := by
  simp only [State.vecElem, rawFmt_iff, Bool.and_eq_true, decide_eq_true_eq]

theorem vldEff_done {vd : BitVec 4} {sx : BitVec 5} {ds : BitVec 6} {mask : BitVec 512}
    (h : VecTensor ((s.tile t).dreg ds) ((s.tile t).sreg sx)) :
    vldEff t vd sx ds mask s = .done (s.modTile t (fun y => y.setV vd (lanesOf mask (y.vreg vd) (fun i =>
      s.vecElem t (tensorOf ((s.tile t).dreg ds)) ⟨off1 ((s.tile t).sreg sx), 0, 0, 0⟩ (off0 ((s.tile t).sreg sx) + i))))) := by
  unfold vldEff
  simp only [h.name, h.faults]
  rfl

/-! VST: what its writes leave of the tile. -/

/-- `m` differs from `s` by bytes of one space of tile `t`: 0 its scratchpad, 2 its accumulator memory. -/
structure SpaceWrites (t space : Nat) (s m : State) : Prop where
  only : OnlyTile s m t
  tile : m.tile t = { s.tile t with spad := (m.tile t).spad, acc := (m.tile t).acc }
  spad : space = 2 → (m.tile t).spad = (s.tile t).spad
  acc : space = 0 → (m.tile t).acc = (s.tile t).acc

theorem SpaceWrites.refl (t space : Nat) (s : State) : SpaceWrites t space s s := ⟨.refl s t, rfl, fun _ => rfl, fun _ => rfl⟩

theorem SpaceWrites.trans {t space : Nat} {a b c : State} (h : SpaceWrites t space a b) (k : SpaceWrites t space b c) :
    SpaceWrites t space a c := by
  refine ⟨h.only.trans k.only, ?_, fun e => (k.spad e).trans (h.spad e), fun e => (k.acc e).trans (h.acc e)⟩
  have hk := k.tile
  rw [h.tile] at hk
  exact hk

theorem spaceWrites_poke {t space : Nat} (hs : space = 0 ∨ space = 2) (s : State) (addr : Nat) (bs : List Byte) :
    SpaceWrites t space s (s.poke t space addr bs) := by
  rcases hs with rfl | rfl
  · exact ⟨onlyTile_modTile s t _, by simp [State.poke], fun e => (by cases e), fun _ => by simp [State.poke]⟩
  · exact ⟨onlyTile_modTile s t _, by simp [State.poke], fun _ => by simp [State.poke], fun e => (by cases e)⟩

theorem spaceWrites_putBlock {t : Nat} {d : Tensor} (hs : d.space = 0 ∨ d.space = 2) (s : State) (r : RowIx) (k : Nat) (q : QBlock) :
    SpaceWrites t d.space s (s.putBlock t d r k q) := (spaceWrites_poke hs s _ _).trans (spaceWrites_poke hs _ _ _)

/-- A fold whose every step writes to the space writes to the space. -/
theorem spaceWrites_foldl {α β : Type} {t space : Nat} {f : β → α → β} (state : β → State)
    (hf : ∀ p a, SpaceWrites t space (state p) (state (f p a))) (l : List α) (p : β) :
    SpaceWrites t space (state p) (state (l.foldl f p)) := by
  induction l generalizing p with
  | nil => exact .refl t space _
  | cons a l ih => exact (hf p a).trans (ih _)

theorem spaceWrites_vstBlocks {t : Nat} {d : Tensor} (hs : d.space = 0 ∨ d.space = 2) (s : State) (m : RndMode) (th : W32) (r : RowIx)
    (o : Nat) (mask : BitVec 512) (ws : List W32) : SpaceWrites t d.space s (s.vstBlocks t d m th r o mask ws).1 := by
  refine spaceWrites_foldl Prod.fst (fun p i => ?_) (blockStarts d) (s, Sums.zeros)
  dsimp only
  split
  · exact spaceWrites_putBlock hs _ _ _ _
  · exact .refl _ _ _

theorem spaceWrites_vstElems {t : Nat} {d : Tensor} (hs : d.space = 0 ∨ d.space = 2) (s : State) (m : RndMode) (r : RowIx)
    (o : Nat) (mask : BitVec 512) (ws : List W32) : SpaceWrites t d.space s (s.vstElems t d m r o mask ws) := by
  refine spaceWrites_foldl id (fun p i => ?_) (List.range 512) s
  dsimp only [id]
  split
  · exact spaceWrites_poke hs _ _ _
  · exact .refl _ _ _

/-! VST: the bytes of a format without scales in the scratchpad. -/

/-- The bits that lane `i` stores. -/
def vstBits (d : Tensor) (m : RndMode) (r : RowIx) (o : Nat) (ws : List W32) (i : Nat) : Nat :=
  if rawFmt d.fmt then (lane ws i).toNat else encodeElem d.fmt (m.at d.space (d.bitAddr r (o + i))) (val32 (lane ws i))

/-- The scratchpad after the first `n` lanes of a VST. -/
def vstSpad (d : Tensor) (m : RndMode) (r : RowIx) (o : Nat) (mask : BitVec 512) (ws : List W32) (n : Nat) (p : SMap Byte) : SMap Byte :=
  (List.range n).foldl (fun p i => if vstLive d r o mask i then
    p.setRange 0 (d.rowAddr r + (o + i) * (fmtBits d.fmt / 8)) (natLe (fmtBits d.fmt / 8) (vstBits d m r o ws i)) else p) p

theorem vstSpad_succ (d : Tensor) (m : RndMode) (r : RowIx) (o : Nat) (mask : BitVec 512) (ws : List W32) (n : Nat) (p : SMap Byte) :
    vstSpad d m r o mask ws (n + 1) p = if vstLive d r o mask n then
      (vstSpad d m r o mask ws n p).setRange 0 (d.rowAddr r + (o + n) * (fmtBits d.fmt / 8))
        (natLe (fmtBits d.fmt / 8) (vstBits d m r o ws n)) else vstSpad d m r o mask ws n p := by
  rw [vstSpad, List.range_succ, List.foldl_append]
  rfl

theorem spad_vstElems {d : Tensor} (hs : d.space = 0) (m : RndMode) (r : RowIx) (o : Nat) (mask : BitVec 512) (ws : List W32) :
    ((s.vstElems t d m r o mask ws).tile t).spad = vstSpad d m r o mask ws 512 (s.tile t).spad := by
  have hpoke : ∀ (p : State) (a : Nat) (bs : List Byte), ((p.poke t d.space a bs).tile t).spad = (p.tile t).spad.setRange 0 a bs := by
    intro p a bs; rw [hs]; simp [State.poke]
  unfold State.vstElems vstSpad
  generalize List.range 512 = l
  induction l generalizing s with
  | nil => rfl
  | cons i l ih =>
    rw [List.foldl_cons, List.foldl_cons, ih]
    congr 1
    split
    · exact hpoke _ _ _
    · rfl

/-- Bytes outside the stored elements keep their values. -/
theorem get_vstSpad_outside {d : Tensor} {m : RndMode} {r : RowIx} {o : Nat} {mask : BitVec 512} {ws : List W32} {p : SMap Byte}
    {a n : Nat} (ha : ∀ i, i < n → vstLive d r o mask i = true → a < d.rowAddr r + (o + i) * (fmtBits d.fmt / 8)
      ∨ d.rowAddr r + (o + i + 1) * (fmtBits d.fmt / 8) ≤ a) :
    (vstSpad d m r o mask ws n p).get 0 a = p.get 0 a := by
  induction n with
  | zero => rfl
  | succ n ih =>
    have hn := ih fun i hi => ha i (by omega)
    rw [vstSpad_succ]
    split
    · next hlive =>
      have hout := ha n (by omega) hlive
      rw [Nat.add_mul (o + n) 1] at hout
      rw [get_setRange_outside _ _ _ (by rw [natLe_length]; omega), hn]
    · exact hn

/-- Each stored element holds the bits of its lane. -/
theorem get_vstSpad_inside {d : Tensor} {m : RndMode} {r : RowIx} {o : Nat} {mask : BitVec 512} {ws : List W32} {p : SMap Byte}
    {i k n : Nat} (hi : i < n) (hlive : vstLive d r o mask i = true) (hk : k < fmtBits d.fmt / 8) :
    (vstSpad d m r o mask ws n p).get 0 (d.rowAddr r + (o + i) * (fmtBits d.fmt / 8) + k)
      = BitVec.ofNat 8 (vstBits d m r o ws i / 256 ^ k) := by
  induction n with
  | zero => omega
  | succ n ih =>
    rw [vstSpad_succ]
    rcases Nat.lt_succ_iff_lt_or_eq.1 hi with hlt | rfl
    · split
      · have hstep : (o + i + 1) * (fmtBits d.fmt / 8) ≤ (o + n) * (fmtBits d.fmt / 8) := Nat.mul_le_mul_right _ (by omega)
        rw [Nat.add_mul (o + i) 1] at hstep
        rw [get_setRange_outside _ _ _ (Or.inl (by omega)), ih hlt]
      · exact ih hlt
    · rw [if_pos hlive, get_setRange_natLe _ _ _ _ hk]

theorem fmtBits_of_raw {n : Nat} (h : n = 0 ∨ n = 5 ∨ n = 7) : fmtBits n / 8 = 4 := by
  rcases h with rfl | rfl | rfl <;> rfl

theorem vstLive_iff (d : Tensor) (r : RowIx) (o : Nat) (mask : BitVec 512) (i : Nat) :
    vstLive d r o mask i = true ↔ mask.getLsbD i = true ∧ d.hasRow r = true ∧ o + i < d.e0 := by
  simp [vstLive, and_assoc]

/-! VST: its outcomes. -/

/-- An instruction that always issues and leaves every unit but its tile. -/
theorem tileTo_doneLanes {s1 : State} {i : Instr} {body : BitVec 512 → State → Eff} (hr : Stands s t i)
    (hb : body ((s.tile t).lanes g) s = .done s1) (ho : OnlyTile s s1 t) (hl : (s1.tile t).loops = (s.tile t).loops)
    (hp : (s1.tile t).pc = (s.tile t).pc) (hi : (s1.tile t).issued = (s.tile t).issued) :
    TileTo s t (s1.tile t) (issueLanes t g (slotOf i) body s)
      ∧ (issueLanes t g (slotOf i) body s).tile t = (s1.tile t).countIssue.advance := by
  have htile : (issueLanes t g (slotOf i) body s).tile t = (s1.tile t).countIssue.advance := by
    rw [issueLanes_done hr hb, State.tile_modTile_same]
  refine ⟨⟨?_, ?_, ?_⟩, htile⟩
  · rw [issueLanes_done hr hb]; exact ho.modTile _
  · rw [htile]; exact passed_advance _ _ hl hp hi
  · rw [htile]; rfl

section Vst

variable {rnd : Nat} {va : BitVec 4} {sx : BitVec 5} {ds : BitVec 6} {mask : BitVec 512}

theorem vstEff_rounding (h : VecTensor ((s.tile t).dreg ds) ((s.tile t).sreg sx)) (hr : 1 < rnd) :
    vstEff t rnd va sx ds mask s = .fault Codes.isaFieldRange := by
  simp [vstEff, h.name, hr, lowestOf, lowest]

theorem vstEff_partial (h : VecTensor ((s.tile t).dreg ds) ((s.tile t).sreg sx)) (hr : rnd ≤ 1)
    (hp : vstPartial (tensorOf ((s.tile t).dreg ds)) ⟨off1 ((s.tile t).sreg sx), 0, 0, 0⟩ (off0 ((s.tile t).sreg sx)) mask = true) :
    vstEff t rnd va sx ds mask s = .fault Codes.isaMisalign := by
  have hname : lowestOf [if 1 < rnd then some Codes.isaFieldRange else none, nameFault 0x10 ((s.tile t).dreg ds)] = none := by
    simp [h.name, Nat.not_lt.2 hr, lowestOf, lowest]
  unfold vstEff
  simp only [hname, hp, lowest_head h.faults]

/-- What a VST leaves: its elements, or its blocks and their counts. -/
def State.vstDone (s : State) (t : Tile) (rnd : Nat) (va : BitVec 4) (sx : BitVec 5) (ds : BitVec 6) (mask : BitVec 512) : State :=
  let x := s.tile t
  let d := tensorOf (x.dreg ds)
  let r : RowIx := ⟨off1 (x.sreg sx), 0, 0, 0⟩
  if fmtScaled d.fmt then
    let p := s.vstBlocks t d ⟨rnd == 1, x.seed⟩ x.thresh r (off0 (x.sreg sx)) mask (x.vreg va)
    p.1.addSums t p.2
  else s.vstElems t d ⟨rnd == 1, x.seed⟩ r (off0 (x.sreg sx)) mask (x.vreg va)

theorem vstEff_done (h : VecTensor ((s.tile t).dreg ds) ((s.tile t).sreg sx)) (hr : rnd ≤ 1)
    (hp : vstPartial (tensorOf ((s.tile t).dreg ds)) ⟨off1 ((s.tile t).sreg sx), 0, 0, 0⟩ (off0 ((s.tile t).sreg sx)) mask = false) :
    vstEff t rnd va sx ds mask s = .done (s.vstDone t rnd va sx ds mask) := by
  have hname : lowestOf [if 1 < rnd then some Codes.isaFieldRange else none, nameFault 0x10 ((s.tile t).dreg ds)] = none := by
    simp [h.name, Nat.not_lt.2 hr, lowestOf, lowest]
  have hlow : lowest ((false, Codes.isaMisalign) :: vecDescFaults (tensorOf ((s.tile t).dreg ds)) ((s.tile t).sreg sx)) = none := by
    rw [lowest, h.faults]
  unfold vstEff State.vstDone
  simp only [hname, hp, hlow]
  split <;> rfl

theorem vstDone_plain (h : fmtScaled (tensorOf ((s.tile t).dreg ds)).fmt = false) :
    s.vstDone t rnd va sx ds mask = s.vstElems t (tensorOf ((s.tile t).dreg ds)) ⟨rnd == 1, (s.tile t).seed⟩
      ⟨off1 ((s.tile t).sreg sx), 0, 0, 0⟩ (off0 ((s.tile t).sreg sx)) mask ((s.tile t).vreg va) :=
  if_neg (by simp [h])

/-- A VST leaves every unit but its tile, and of its tile all but the written space and, in a block format, the counts. -/
theorem vstDone_frame (h : VecTensor ((s.tile t).dreg ds) ((s.tile t).sreg sx)) :
    let x := s.tile t
    let d := tensorOf (x.dreg ds)
    let m := s.vstDone t rnd va sx ds mask
    OnlyTile s m t ∧ m.tile t = { x with spad := (m.tile t).spad, acc := (m.tile t).acc,
                                         regs := { x.regs with sums := (m.tile t).regs.sums } }
      ∧ (d.space = 0 → (m.tile t).acc = x.acc) ∧ (d.space = 2 → (m.tile t).spad = x.spad)
      ∧ (fmtScaled d.fmt = false → (m.tile t).regs.sums = x.regs.sums) := by
  unfold State.vstDone
  dsimp only
  split
  · next hscaled =>
    obtain ⟨honly, htile, hspad, hacc⟩ := spaceWrites_vstBlocks (t := t) h.space s ⟨rnd == 1, (s.tile t).seed⟩ (s.tile t).thresh
      ⟨off1 ((s.tile t).sreg sx), 0, 0, 0⟩ (off0 ((s.tile t).sreg sx)) mask ((s.tile t).vreg va)
    refine ⟨honly.modTile _, ?_, ?_, ?_, fun hf => absurd hscaled (by simp [hf])⟩
    · rw [State.addSums, State.tile_modTile_same]
      generalize State.tile (Prod.fst _) (t : Nat) = y at htile ⊢
      rw [htile]
    · rw [State.addSums, State.tile_modTile_same]; exact hacc
    · rw [State.addSums, State.tile_modTile_same]; exact hspad
  · obtain ⟨honly, htile, hspad, hacc⟩ := spaceWrites_vstElems (t := t) h.space s ⟨rnd == 1, (s.tile t).seed⟩
      ⟨off1 ((s.tile t).sreg sx), 0, 0, 0⟩ (off0 ((s.tile t).sreg sx)) mask ((s.tile t).vreg va)
    refine ⟨honly, ?_, hacc, hspad, fun _ => ?_⟩
    · generalize State.tile _ (t : Nat) = y at htile ⊢
      rw [htile]
    · rw [htile]

end Vst

/-! VSTAT. -/

theorem zipIdx_map_getD (xs : List W32) (f : W32 × Nat → W32) {i : Nat} (hi : i < xs.length) :
    (xs.zipIdx.map f).getD i 0 = f (xs.getD i 0, i) := by
  simp [List.getD, hi]

/-- A row takes part in VSTAT (R66). -/
def statLive (d : Tensor) (off : W64) (mask : BitVec 512) (i : Nat) : Bool := mask.getLsbD i && decide (off1 off + i < d.e1)

theorem statLive_iff (d : Tensor) (off : W64) (mask : BitVec 512) (i : Nat) :
    statLive d off mask i = true ↔ mask.getLsbD i = true ∧ off1 off + i < d.e1 := by simp [statLive]

/-- Mean and variance of the row of lane `i`, from the offset to the end of the extent (R66, R153, R154). -/
def State.rowStat (s : State) (t : Nat) (d : Tensor) (off : W64) (i : Nat) : W32 × W32 :=
  rowStats ((List.range (d.e0 - off0 off)).map (fun j => s.vecElem t d ⟨off1 off + i, 0, 0, 0⟩ (off0 off + j)))

/-- The lanes of a result register of VSTAT: `f` of a row's mean and variance, the old lane where the row takes no part. -/
def State.statLanes (s : State) (t : Nat) (d : Tensor) (off : W64) (mask : BitVec 512) (f : W32 × W32 → W32) (old : List W32) :
    List W32 :=
  old.zipIdx.map (fun p => if statLive d off mask p.2 then
    f (((List.range 512).map (fun i => if statLive d off mask i then s.rowStat t d off i else (0, 0))).getD p.2 (0, 0)) else p.1)

theorem statLanes_getD (d : Tensor) (off : W64) (mask : BitVec 512) (f : W32 × W32 → W32) {old : List W32} (hlen : old.length = 512)
    {i : Nat} (hi : i < 512) :
    (s.statLanes t d off mask f old).getD i 0 = if statLive d off mask i then f (s.rowStat t d off i) else old.getD i 0 := by
  rw [State.statLanes, zipIdx_map_getD _ _ (by omega)]
  by_cases hl : statLive d off mask i = true
  · simp [hl, List.getD, hi]
  · rw [if_neg hl, if_neg hl]

theorem vstatEff_done {vd : BitVec 4} {sx : BitVec 5} {ds : BitVec 6} {mask : BitVec 512}
    (h : VecTensor ((s.tile t).dreg ds) ((s.tile t).sreg sx)) (heven : vd.toNat % 2 = 0)
    (hlo : off0 ((s.tile t).sreg sx) < (tensorOf ((s.tile t).dreg ds)).e0)
    (hhi : (tensorOf ((s.tile t).dreg ds)).e0 ≤ off0 ((s.tile t).sreg sx) + 2 ^ 20) :
    vstatEff t vd sx ds mask s = .done (s.modTile t (fun y =>
      (y.setV vd (s.statLanes t (tensorOf ((s.tile t).dreg ds)) ((s.tile t).sreg sx) mask Prod.fst (y.vreg vd))).setV (vd + 1)
        (s.statLanes t (tensorOf ((s.tile t).dreg ds)) ((s.tile t).sreg sx) mask Prod.snd (y.vreg (vd + 1))))) := by
  have hname : lowestOf [if vd.toNat % 2 = 1 then some Codes.isaFieldRange else none, nameFault 0x10 ((s.tile t).dreg ds)] = none := by
    rw [if_neg (by omega), h.name]; rfl
  have hrange : decide ((tensorOf ((s.tile t).dreg ds)).e0 ≤ off0 ((s.tile t).sreg sx)
      ∨ off0 ((s.tile t).sreg sx) + 2 ^ 20 < (tensorOf ((s.tile t).dreg ds)).e0) = false := by
    rw [decide_eq_false_iff_not]; omega
  have hlow : lowest ((false, Codes.isaFieldRange) :: vecDescFaults (tensorOf ((s.tile t).dreg ds)) ((s.tile t).sreg sx)) = none := by
    rw [lowest, h.faults]
  unfold vstatEff
  simp only [hname, hrange, hlow]
  rfl

theorem succ_ne : ∀ vd : BitVec 4, vd ≠ vd + 1 := by decide

/-- VSTAT writes the mean and the variance of each live row, and nothing else. -/
theorem vstat_spec {vd : BitVec 4} {sx : BitVec 5} {ds : BitVec 6} (hr : Stands s t (.vstat t g vd sx ds))
    (h : VecTensor ((s.tile t).dreg ds) ((s.tile t).sreg sx)) (heven : vd.toNat % 2 = 0)
    (hlo : off0 ((s.tile t).sreg sx) < (tensorOf ((s.tile t).dreg ds)).e0)
    (hhi : (tensorOf ((s.tile t).dreg ds)).e0 ≤ off0 ((s.tile t).sreg sx) + 2 ^ 20) :
    let x := s.tile t
    let d := tensorOf (x.dreg ds)
    let m := issueLanes t g (slotOf (.vstat t g vd sx ds)) (vstatEff t vd sx ds) s
    TileTo s t { x with v := (m.tile t).v } m ∧ ∀ q i, i < 512 → Claims.lane (m.tile t) q i =
      if statLive d (x.sreg sx) (x.lanes g) i then
        (if q = vd then (s.rowStat t d (x.sreg sx) i).1 else if q = vd + 1 then (s.rowStat t d (x.sreg sx) i).2 else Claims.lane x q i)
      else Claims.lane x q i := by
  intro x d m
  let ys := s.statLanes t d (x.sreg sx) (x.lanes g) Prod.fst (x.vreg vd)
  let zs := s.statLanes t d (x.sreg sx) (x.lanes g) Prod.snd (x.vreg (vd + 1))
  have hys : ys.length = 512 := by simp [ys, State.statLanes]
  have hzs : zs.length = 512 := by simp [zs, State.statLanes]
  obtain ⟨hto, htile⟩ := tileTo_issueLanes (g := g) (body := vstatEff t vd sx ds) _ hr rfl (vstatEff_done h heven hlo hhi) rfl rfl rfl
  have hv : (m.tile t).v = ((x.setV vd ys).setV (vd + 1) zs).v := (congrArg TileSt.v htile).trans rfl
  refine ⟨by rw [hv]; exact hto, fun q i hi => ?_⟩
  have hlane : Claims.lane (m.tile t) q i = Claims.lane ((x.setV vd ys).setV (vd + 1) zs) q i := by
    rw [Claims.lane, Claims.lane, hv]
  rw [hlane, lane_setV _ _ _ _ _ hzs hi, lane_setV _ _ _ _ _ hys hi, statLanes_getD _ _ _ _ (by simp) hi,
    statLanes_getD _ _ _ _ (by simp) hi, vreg_getD _ _ _ hi, vreg_getD _ _ _ hi]
  by_cases hq : q = vd
  · subst hq
    rw [if_neg (succ_ne q), if_pos rfl, if_pos rfl]
  · by_cases hq1 : q = vd + 1
    · subst hq1
      rw [if_pos rfl, if_neg hq, if_pos rfl]
    · rw [if_neg hq1, if_neg hq, if_neg hq, if_neg hq1, ite_self]

/-! VCVT. -/

theorem vcvtEff_field {rnd fmt : Nat} {vd va : BitVec 4} {mask : BitVec 512} (h : 1 < rnd ∨ fmtEnc fmt = none) :
    vcvtEff t rnd vd va fmt mask s = .fault Codes.isaFieldRange :=
  if_pos (h.imp_right fun e => by rw [e]; rfl)

theorem vcvtEff_format {rnd fmt : Nat} {vd va : BitVec 4} {mask : BitVec 512} (hr : rnd ≤ 1) (h : 4 < fmt) (he : fmtEnc fmt ≠ none) :
    vcvtEff t rnd vd va fmt mask s = .fault Codes.isaFormat := by
  rw [vcvtEff, if_neg (by simpa [hr] using he), if_pos h]

theorem fmtEnc_low {n : Nat} (h : n ≤ 4) : fmtEnc n ≠ none := by
  match n, h with
  | 0, _ | 1, _ | 2, _ | 3, _ | 4, _ => exact Option.some_ne_none _

theorem vcvtEff_done {rnd fmt : Nat} {vd va : BitVec 4} {mask : BitVec 512} (hr : rnd ≤ 1) (h : fmt ≤ 4) :
    vcvtEff t rnd vd va fmt mask s = laneOp1 (cvtLane fmt (rnd == 1) (s.tile t).seed) t vd va mask s := by
  rw [vcvtEff, if_neg (by simpa [hr] using fmtEnc_low h), if_neg (Nat.not_lt.2 h)]

theorem cvtLane_eq (fmt : BitVec 6) (rnd : BitVec 2) (seed : W64) (i : Nat) (w : W32) :
    cvtLane fmt.toNat (rnd.toNat == 1) seed i w = if fmt = 0 then w else to32 (decodeElem fmt.toNat (encodeElem fmt.toNat
      (if rnd = 1 then .sr (srBits seed 15 (w.toNat * 512 + i)) else .rne) (val32 w)) 127) := by
  have hfmt : fmt.toNat = 0 ↔ fmt = 0 := BitVec.toNat_inj (y := 0#6)
  have hrnd : rnd.toNat = 1 ↔ rnd = 1 := BitVec.toNat_inj (y := 1#2)
  simp only [cvtLane, hfmt, beq_iff_eq, hrnd]

/-- Settles O13: with a usable descriptor the checks pass, and each instruction is its own effect. -/
theorem vectorMemoryAndConversion : Obligations.VectorMemoryAndConversion := by
  unfold Obligations.VectorMemoryAndConversion
  intro s t g vd va sx ds rnd fmt x d o r usable inside
  have tensor : usable → VecTensor (x.dreg ds) (x.sreg sx) := fun ⟨h0, ht, hs, h6, hmx, ha, ho⟩ => ⟨h0, ht, hs, h6, hmx, ha, ho⟩
  refine ⟨fun hu hr => ⟨_, rfl, writesLanes_of_lanes hr (vldEff_done (tensor hu)) fun k _ => vecElem_eq _ _ _⟩,
    fun hu hr => ⟨_, rfl, fun h => faults_issueLanes hr (vstEff_rounding (tensor hu) h),
      fun h hp => faults_issueLanes hr (vstEff_partial (tensor hu) h hp), fun h hp => ?store⟩,
    fun hu heven hlo hhi hr => ⟨_, rfl, ?stat⟩,
    fun hr => ⟨_, rfl, fun hrnd hfmt => ?convert, fun h => faults_issueLanes hr (vcvtEff_field h),
      fun hrnd h he => faults_issueLanes hr (vcvtEff_format hrnd h he)⟩⟩
  case store =>
    obtain ⟨honly, htile, hacc, hspad, hsums⟩ := vstDone_frame (rnd := rnd.toNat) (va := va) (mask := x.lanes g) (tensor hu)
    obtain ⟨hto, hissued⟩ := tileTo_doneLanes (g := g) (body := vstEff t rnd.toNat va sx ds) hr (vstEff_done (tensor hu) h hp) honly
      (by rw [htile]) (by rw [htile]) (by rw [htile])
    have hsame : ∀ {α : Type} (f : TileSt → α), (∀ y : TileSt, f y.countIssue.advance = f y) →
        f ((issueLanes t g (slotOf (.vst t g rnd va sx ds)) (vstEff t rnd.toNat va sx ds) s).tile t)
          = f ((s.vstDone t rnd.toNat va sx ds (x.lanes g)).tile t) := fun f hf => by rw [hissued, hf]
    rw [hsame TileSt.spad fun _ => rfl, hsame TileSt.acc fun _ => rfl, hsame (fun y => y.regs.sums) fun _ => rfl, ← htile]
    refine ⟨hto, hacc, hspad, hsums, fun hscaled hspace => ?_⟩
    have hbyte : ∀ a, byteAt (issueLanes t g (slotOf (.vst t g rnd va sx ds)) (vstEff t rnd.toNat va sx ds) s) t 0 a
        = (vstSpad d ⟨rnd.toNat == 1, x.seed⟩ ⟨r, 0, 0, 0⟩ o (x.lanes g) (x.vreg va) 512 x.spad).get 0 a := by
      intro a
      rw [byteAt, if_pos rfl, hsame TileSt.spad fun _ => rfl, vstDone_plain hscaled, spad_vstElems hspace]
      rfl
    refine ⟨fun a ha => ?_, fun hraw i k hi hin hk => ?_⟩
    · rw [hbyte]
      exact get_vstSpad_outside fun i hi hlive => ha i hi ((vstLive_iff _ _ _ _ _).1 hlive)
    · rw [hbyte, ← fmtBits_of_raw hraw, get_vstSpad_inside hi ((vstLive_iff _ _ _ _ _).2 hin) (by rw [fmtBits_of_raw hraw]; exact hk),
        vstBits, if_pos ((rawFmt_iff _).2 hraw), lane_vreg _ va hi]
  case stat =>
    obtain ⟨hto, hlane⟩ := vstat_spec hr (tensor hu) heven hlo hhi
    refine ⟨hto, fun i hi => ⟨fun hlive => ?_, fun hlive => ?_, fun q h0 h1 => ?_⟩⟩
    · have hl : statLive d (x.sreg sx) (x.lanes g) i = true := (statLive_iff _ _ _ _).2 hlive
      rw [hlane _ _ hi, hlane _ _ hi, if_pos hl, if_pos hl, if_pos rfl, if_neg (succ_ne vd).symm, if_pos rfl]
      exact ⟨rfl, rfl⟩
    · have hl : ¬statLive d (x.sreg sx) (x.lanes g) i = true := mt (statLive_iff _ _ _ _).1 hlive
      rw [hlane _ _ hi, hlane _ _ hi, if_neg hl, if_neg hl]
      exact ⟨rfl, rfl⟩
    · rw [hlane _ _ hi, if_neg h0, if_neg h1, ite_self]
  case convert =>
    refine writesLanes_of_lanes hr (vcvtEff_done hrnd hfmt) fun k hk => ?_
    rw [lane_vreg _ va hk, cvtLane_eq]

end Sys2Proof.Machine

namespace Sys2Proof.Machine

open Claims

variable {s : State} {t : Tile} {g : Guard}

/-! Class 2: descriptors and DMA (R38, R51 to R54, R186, Tables 12 and 13 of 02). -/

/-! DLOAD and DSET. -/

/-- Descriptor register `dd` takes `d`, and nothing else changes (the word of O14). -/
theorem setD_issue {i : Instr} {body : State → Eff} {dd : BitVec 6} {d : Desc} (hr : Runs s t g i)
    (hb : body s = .done (s.modTile t (fun x => x.setD dd d))) :
    let m := issue t g (slotOf i) body s
    TileTo s t { s.tile t with d := (m.tile t).d } m ∧ (m.tile t).dreg dd = d ∧ ∀ q, q ≠ dd → (m.tile t).dreg q = (s.tile t).dreg q := by
  intro m
  obtain ⟨hto, htile⟩ := tileTo_issue _ hr rfl hb rfl rfl rfl
  have hd : (m.tile t).d = ((s.tile t).setD dd d).d := (congrArg TileSt.d htile).trans rfl
  have hdreg : ∀ q, (m.tile t).dreg q = if q = dd then d else (s.tile t).dreg q := by
    intro q; rw [← TileSt.dreg_setD, TileSt.dreg, TileSt.dreg, hd]
  refine ⟨by rw [hd]; exact hto, by rw [hdreg, if_pos rfl], fun q hq => by rw [hdreg, if_neg hq]⟩

/-- The descriptor that DLOAD reads from a scratchpad. -/
def loadedDesc (p : SMap Byte) (a : Nat) : Desc := BitVec.ofNat 512 (leNat (p.getRange 0 a 64))

theorem loadedDesc_byte (p : SMap Byte) (a : Nat) {i : Nat} (hi : i < 64) :
    p.get 0 (a + i) = BitVec.ofNat 8 ((loadedDesc p a).toNat / 256 ^ i) := by
  have hlt := leNat_lt (p.getRange 0 a 64)
  rw [SMap.getRange_length] at hlt
  rw [loadedDesc, BitVec.toNat_ofNat, Nat.mod_eq_of_lt (Nat.lt_of_lt_of_eq hlt (Nat.pow_mul 2 8 64).symm),
    ← leNat_byte _ i (by rw [SMap.getRange_length]; exact hi), SMap.getRange_getD _ _ _ _ _ hi]

section Load

variable {dd : BitVec 6} {sx : BitVec 5} {imm : W64}

theorem dloadEff_address {c : Code} (h : spadFault 64 ((s.tile t).sreg sx + imm) = some c) :
    dloadEff t dd sx imm s = .fault c := by
  unfold dloadEff
  simp only [h]

theorem dloadEff_bad {c : Code} (h : spadFault 64 ((s.tile t).sreg sx + imm) = none)
    (hc : s.descFault (loadedDesc (s.tile t).spad ((s.tile t).sreg sx + imm).toNat) = some c) : dloadEff t dd sx imm s = .fault c := by
  unfold dloadEff
  rw [loadedDesc] at hc
  simp only [h, hc]

theorem dloadEff_good (h : spadFault 64 ((s.tile t).sreg sx + imm) = none)
    (hc : s.descFault (loadedDesc (s.tile t).spad ((s.tile t).sreg sx + imm).toNat) = none) : dloadEff t dd sx imm s
      = .done (s.modTile t (fun x => x.setD dd (loadedDesc (s.tile t).spad ((s.tile t).sreg sx + imm).toNat))) := by
  unfold dloadEff
  rw [loadedDesc] at hc ⊢
  simp only [h, hc]
  rfl

end Load

/-- One field replaced: the bits of the value there, the old bits elsewhere. -/
theorem putField_getLsbD (d : Desc) {lo w v i : Nat} (hv : v < 2 ^ w) (hi : i < 512) :
    (putField d lo w v).getLsbD i = if lo ≤ i ∧ i < lo + w then v.testBit (i - lo) else d.getLsbD i := by
  have hsum : d.toNat % 2 ^ lo + v * 2 ^ lo + d.toNat / 2 ^ (lo + w) * 2 ^ (lo + w)
      = 2 ^ lo * (2 ^ w * (d.toNat / 2 ^ (lo + w)) + v) + d.toNat % 2 ^ lo := by rw [Nat.pow_add]; ring
  have hlow : d.toNat % 2 ^ lo < 2 ^ lo := Nat.mod_lt _ (Nat.two_pow_pos lo)
  rw [putField, BitVec.getLsbD_ofNat, hsum, Nat.testBit_two_pow_mul_add _ hlow, Nat.testBit_two_pow_mul_add _ hv, decide_eq_true hi,
    Bool.true_and]
  by_cases h1 : i < lo
  · rw [if_pos h1, if_neg (by omega), Nat.testBit_mod_two_pow, decide_eq_true h1, Bool.true_and]; rfl
  · by_cases h2 : i < lo + w
    · rw [if_neg h1, if_pos (by omega), if_pos (by omega)]
    · rw [if_neg h1, if_neg (by omega), if_neg (by omega), Nat.testBit_div_two_pow]
      rw [show i - lo - w + (lo + w) = i by omega]; rfl

section Set

variable {dd fsel : BitVec 6} {sx : BitVec 5}

theorem dsetField_none {n : Nat} (h : 15 < n) : dsetField n = none := by
  match n, h with
  | n + 16, _ => rfl

theorem dsetEff_noField (h : 15 < fsel.toNat) : dsetEff t dd sx fsel s = .fault Codes.isaFieldRange := by
  unfold dsetEff
  simp only [dsetField_none h]

theorem dsetEff_wide {lo w : Nat} (hf : dsetField fsel.toNat = some (lo, w)) (hv : 2 ^ w ≤ ((s.tile t).sreg sx).toNat) :
    dsetEff t dd sx fsel s = .fault Codes.isaFieldRange := by
  unfold dsetEff
  simp only [hf, if_pos hv]

theorem dsetEff_fits {lo w : Nat} (hf : dsetField fsel.toNat = some (lo, w)) (hv : ((s.tile t).sreg sx).toNat < 2 ^ w) :
    dsetEff t dd sx fsel s =
      if descHdr ((s.tile t).dreg dd) = 0x2010 ∧ s.tensorValid (putField ((s.tile t).dreg dd) lo w ((s.tile t).sreg sx).toNat) = true
      then .done (s.modTile t (fun x => x.setD dd (putField ((s.tile t).dreg dd) lo w ((s.tile t).sreg sx).toNat)))
      else .fault Codes.isaDescInvalid := by
  unfold dsetEff
  simp only [hf, if_neg (Nat.not_le.2 hv)]
  rfl

end Set

/-- Settles O14: the address, the check of the descriptor and the width of the field decide each case. -/
theorem descriptorLoadAndSet : Obligations.DescriptorLoadAndSet := by
  unfold Obligations.DescriptorLoadAndSet
  intro s t g dd fsel sx imm x a v writes
  refine ⟨fun hr => ⟨_, rfl, fun ha => faults_issue hr (dloadEff_address (spadFault_misalign ha)),
      fun ha hle => faults_issue hr (dloadEff_address (spadFault_range ha hle)),
      fun ha hlt => ⟨loadedDesc x.spad a, fun i hi => loadedDesc_byte _ _ hi,
        fun hc => setD_issue hr (dloadEff_good (spadFault_none ha hlt) hc),
        fun c hc => faults_issue hr (dloadEff_bad (spadFault_none ha hlt) hc)⟩⟩,
    fun hr => ⟨_, rfl, fun h => faults_issue hr (dsetEff_noField h),
      fun lo w hf => ⟨fun hv => faults_issue hr (dsetEff_wide hf hv),
        fun hv => ⟨putField (x.dreg dd) lo w v, fun i hi => putField_getLsbD _ hv hi,
          fun hok => setD_issue hr ((dsetEff_fits hf hv).trans (if_pos hok)),
          fun hbad => faults_issue hr ((dsetEff_fits hf hv).trans (if_neg hbad))⟩⟩⟩⟩

/-! The issue of a DMA. -/

/-- A DMA that passes its checks stands behind those of its tile, or stalls behind 32. -/
theorem pushDma_spec {i : Instr} {body : State → Eff} {r : DmaRec} (hr : Runs s t g i) (hb : body s = pushDma t r s) :
    let x := s.tile t
    let m := issue t g (slotOf i) body s
    (x.dmas.length < 32 → TileTo s t { x with dmas := x.dmas ++ [r] } m) ∧ (32 ≤ x.dmas.length → m = s) := by
  refine ⟨fun h => ?_, fun h => issue_stall hr.1 hr.2 (hb.trans (if_pos h))⟩
  exact And.left (tileTo_issue (fun x => { x with dmas := x.dmas ++ [r] }) hr rfl (hb.trans (if_neg (Nat.not_le.2 h))) rfl rfl rfl)

/-- An instruction whose checks all pass issues its DMA. -/
theorem pushDma_exec {i : Instr} {body : State → Eff} {r : DmaRec} (hexec : exec i s = .next (issue t g (slotOf i) body s))
    (hb : body s = pushDma t r s) (hr : Runs s t g i) : ∃ m, exec i s = .next m
      ∧ ((s.tile t).dmas.length < 32 → TileTo s t { s.tile t with dmas := (s.tile t).dmas ++ [r] } m)
      ∧ (32 ≤ (s.tile t).dmas.length → m = s) := ⟨_, hexec, pushDma_spec hr hb⟩

theorem nameFault_cases (type : Nat) (d : Desc) :
    nameFault type d = none ∨ nameFault type d = some Codes.isaDescInvalid ∨ nameFault type d = some Codes.isaDescType := by
  unfold nameFault
  split
  · exact .inr (.inl rfl)
  · split
    · exact .inl rfl
    · exact .inr (.inr rfl)

/-- An operand register holds a descriptor of a TYPE. -/
def Typed (x : TileSt) (type : Nat) (r : BitVec 6) : Prop := descHdr (x.dreg r) ≠ 0 ∧ descType (x.dreg r) = type

theorem Typed.name {x : TileSt} {type : Nat} {r : BitVec 6} (h : Typed x type r) : nameFault type (x.dreg r) = none :=
  nameFault_none h.1 h.2

theorem nameFault_of_not_typed {x : TileSt} {type : Nat} {r : BitVec 6} (h : ¬Typed x type r) : ∃ c, nameFault type (x.dreg r) = some c := by
  rcases nameFault_cases type (x.dreg r) with e | e | e
  · refine absurd ⟨fun h0 => ?_, by_contra fun ht => ?_⟩ h
    · rw [nameFault, if_pos h0] at e; cases e
    · rw [nameFault] at e
      split at e
      · cases e
      · cases e
  · exact ⟨_, e⟩
  · exact ⟨_, e⟩

section Copy

variable {trans : Bool} {rnd : Nat} {dd ds : BitVec 6} {so sd : BitVec 5} {evt : Nat}

/-- The rounding field is the lowest of what the names of a DCOPY may raise (R71). -/
theorem dcopyEff_rounding (h : 1 < rnd) : dcopyEff t trans rnd dd ds so sd evt s = .fault Codes.isaFieldRange := by
  have hlow : lowestOf [if 1 < rnd then some Codes.isaFieldRange else none, nameFault 0x10 ((s.tile t).dreg dd),
      nameFault 0x10 ((s.tile t).dreg ds)] = some Codes.isaFieldRange := by
    rw [if_pos h]
    rcases nameFault_cases 0x10 ((s.tile t).dreg dd) with e | e | e <;> rw [e] <;>
      rcases nameFault_cases 0x10 ((s.tile t).dreg ds) with e | e | e <;> rw [e] <;> rfl
  unfold dcopyEff dcopyFault
  simp only [hlow]

/-- Operands that a DCOPY accepts, the rule of transposed reads apart (R43, R44, R53). -/
structure CopyOk (s : State) (t : Tile) (dd ds : BitVec 6) (so sd : BitVec 5) : Prop where
  dst : Typed (s.tile t) 0x10 dd
  src : Typed (s.tile t) 0x10 ds
  convertible : convertible (tensorOf ((s.tile t).dreg ds)).fmt (tensorOf ((s.tile t).dreg dd)).fmt = true
  space : (tensorOf ((s.tile t).dreg dd)).space ≠ 2
  pair : mxPairOk (tensorOf ((s.tile t).dreg ds)).fmt (tensorOf ((s.tile t).dreg dd)).fmt = true
  stash : s.inStash (s.tile t).job (tensorOf ((s.tile t).dreg ds)) = false
  srcAligned : (tensorOf ((s.tile t).dreg ds)).aligned = true
  dstAligned : (tensorOf ((s.tile t).dreg dd)).aligned = true
  srcOffset : ((s.tile t).sreg so).toNat % 2 ^ 32 % (tensorOf ((s.tile t).dreg ds)).block = 0
  dstOffset : ((s.tile t).sreg sd).toNat % 2 ^ 32 % (tensorOf ((s.tile t).dreg dd)).block = 0

theorem dcopyFault_eq (h : CopyOk s t dd ds so sd) (hr : rnd ≤ 1) : dcopyFault s t trans rnd dd ds so sd
    = if trans = true ∧ (tensorOf ((s.tile t).dreg ds)).space ≠ 1 then some Codes.isaTranspose else none := by
  have hname : lowestOf [if 1 < rnd then some Codes.isaFieldRange else none, nameFault 0x10 ((s.tile t).dreg dd),
      nameFault 0x10 ((s.tile t).dreg ds)] = none := by
    rw [if_neg (Nat.not_lt.2 hr), h.dst.name, h.src.name]; rfl
  have hspace : ((tensorOf ((s.tile t).dreg dd)).space == 2) = false := by simpa using h.space
  have hso : (tensorOf ((s.tile t).dreg ds)).blockMisaligned ((s.tile t).sreg so) = false := by
    simpa [Tensor.blockMisaligned, off0] using h.srcOffset
  have hsd : (tensorOf ((s.tile t).dreg dd)).blockMisaligned ((s.tile t).sreg sd) = false := by
    simpa [Tensor.blockMisaligned, off0] using h.dstOffset
  unfold dcopyFault
  simp only [hname, h.convertible, hspace, h.pair, h.stash, h.srcAligned, h.dstAligned, hso, hsd]
  by_cases hsp : (tensorOf ((s.tile t).dreg ds)).space = 1
  · simp [lowest, hsp]
  · have hb : ((tensorOf ((s.tile t).dreg ds)).space != 1) = true := by simpa using hsp
    cases trans <;> simp [lowest, hsp, hb]

theorem dcopyEff_push (h : CopyOk s t dd ds so sd) (hr : rnd ≤ 1)
    (ht : trans = true → (tensorOf ((s.tile t).dreg ds)).space = 1) : dcopyEff t trans rnd dd ds so sd evt s
      = pushDma t ⟨.copy trans (rnd == 1), (s.tile t).pc, evt, (s.tile t).dreg dd, (s.tile t).dreg ds, 0, (s.tile t).sreg so,
        (s.tile t).sreg sd, false⟩ s := by
  unfold dcopyEff
  simp only [(dcopyFault_eq h hr).trans (if_neg fun ⟨htr, hsp⟩ => hsp (ht htr))]

theorem dcopyEff_transpose (h : CopyOk s t dd ds so sd) (hr : rnd ≤ 1) (htr : trans = true)
    (hsp : (tensorOf ((s.tile t).dreg ds)).space ≠ 1) : dcopyEff t trans rnd dd ds so sd evt s = .fault Codes.isaTranspose := by
  unfold dcopyEff
  simp only [(dcopyFault_eq h hr).trans (if_pos ⟨htr, hsp⟩)]

end Copy

section Gather

variable {dd dp : BitVec 6} {st sn : BitVec 5} {evt : Nat}

/-- Operands that a DGATHER accepts (R183, R186). -/
theorem dgatherEff_push (hd : Typed (s.tile t) 0x10 dd) (hp : Typed (s.tile t) 0x11 dp)
    (hvalid : s.pageListValid ((s.tile t).dreg dp) = true) (hlocus : (pageListOf ((s.tile t).dreg dp)).locus ≠ 2)
    (hspace : (tensorOf ((s.tile t).dreg dd)).space = 0) (hrank : (tensorOf ((s.tile t).dreg dd)).rank = 3)
    (hext : (tensorOf ((s.tile t).dreg dd)).e0 = 128)
    (hfmt : (tensorOf ((s.tile t).dreg dd)).fmt = (pageListOf ((s.tile t).dreg dp)).fmt)
    (hfirst : ((s.tile t).sreg st).toNat < 2 ^ 40)
    (hheads : ((s.tile t).sreg st).toNat / 2 ^ 32 % 2 ^ 8 + (tensorOf ((s.tile t).dreg dd)).e2
      ≤ (pageListOf ((s.tile t).dreg dp)).heads)
    (hn0 : ((s.tile t).sreg sn).toNat ≠ 0) (hn : ((s.tile t).sreg sn).toNat ≤ (tensorOf ((s.tile t).dreg dd)).e1) :
    dgatherEff t dd dp st sn evt s = pushDma t ⟨.gather, (s.tile t).pc, evt, (s.tile t).dreg dd, (s.tile t).dreg dp, 0,
      (s.tile t).sreg st, (s.tile t).sreg sn, false⟩ s := by
  have hname : lowestOf [nameFault 0x10 ((s.tile t).dreg dd), nameFault 0x11 ((s.tile t).dreg dp)] = none := by
    rw [hd.name, hp.name]; rfl
  have hrange : (decide ((pageListOf ((s.tile t).dreg dp)).heads < bitsOf ((s.tile t).sreg st).toNat 39 32
      + (tensorOf ((s.tile t).dreg dd)).e2) || ((s.tile t).sreg sn).toNat == 0
      || decide ((tensorOf ((s.tile t).dreg dd)).e1 < ((s.tile t).sreg sn).toNat)
      || decide (2 ^ 40 ≤ ((s.tile t).sreg st).toNat)) = false := by
    have hbits : bitsOf ((s.tile t).sreg st).toNat 39 32 = ((s.tile t).sreg st).toNat / 2 ^ 32 % 2 ^ 8 := rfl
    rw [hbits]
    simp only [Bool.or_eq_false_iff, decide_eq_false_iff_not, beq_eq_false_iff_ne]
    omega
  have hlocus' : ((pageListOf ((s.tile t).dreg dp)).locus == 2) = false := by simpa using hlocus
  have hfault : dgatherFault s t dd dp st sn = none := by
    unfold dgatherFault
    simp only [hname, hrange]
    exact lowest_none (by simp [hvalid, hlocus', hspace, hrank, hext, hfmt])
  unfold dgatherEff
  simp only [hfault]

/-- A DGATHER whose page list register holds no page list faults. -/
theorem dgatherEff_untyped (h : ¬Typed (s.tile t) 0x11 dp) : ∃ c, dgatherEff t dd dp st sn evt s = .fault c := by
  obtain ⟨c, hc⟩ := nameFault_of_not_typed h
  obtain ⟨c', hlow⟩ : ∃ c', lowestOf [nameFault 0x10 ((s.tile t).dreg dd), nameFault 0x11 ((s.tile t).dreg dp)] = some c' := by
    rw [hc]
    rcases nameFault_cases 0x10 ((s.tile t).dreg dd) with e | e | e <;> rw [e]
    · exact ⟨c, rfl⟩
    all_goals simp only [lowestOf, List.map_cons, List.map_nil, lowest, Option.isSome_some]; split <;> exact ⟨_, rfl⟩
  refine ⟨c', ?_⟩
  unfold dgatherEff dgatherFault
  simp only [hlow]

end Gather

/-- Operands that a DWIN accepts (R246, Table 1 of 08). -/
theorem dwinEff_push {dd ds dw : BitVec 6} {so : BitVec 5} {evt : Nat} (hd : Typed (s.tile t) 0x10 dd) (hs : Typed (s.tile t) 0x10 ds)
    (hw : Typed (s.tile t) 0x12 dw) (hsrc : (tensorOf ((s.tile t).dreg ds)).space ≤ 1)
    (hdst : (tensorOf ((s.tile t).dreg dd)).space = 0) (hrank : (tensorOf ((s.tile t).dreg dd)).rank = 2)
    (hfmt : (tensorOf ((s.tile t).dreg ds)).fmt = (tensorOf ((s.tile t).dreg dd)).fmt)
    (hlow : (tensorOf ((s.tile t).dreg ds)).fmt ≤ 4) (hstash : s.inStash (s.tile t).job (tensorOf ((s.tile t).dreg ds)) = false) :
    dwinEff t dd ds dw so evt s = pushDma t ⟨.window, (s.tile t).pc, evt, (s.tile t).dreg dd, (s.tile t).dreg ds, (s.tile t).dreg dw,
      (s.tile t).sreg so, 0, false⟩ s := by
  have hname : lowestOf [nameFault 0x10 ((s.tile t).dreg dd), nameFault 0x10 ((s.tile t).dreg ds),
      nameFault 0x12 ((s.tile t).dreg dw)] = none := by
    rw [hd.name, hs.name, hw.name]; rfl
  have hok : dwinFmtOk (winOpOf ((s.tile t).dreg dw)).mode (tensorOf ((s.tile t).dreg ds)).fmt = true := by
    rw [dwinFmtOk, decide_eq_true hlow, Bool.true_or]
  have hfault : dwinFault s t dd ds dw = none := by
    unfold dwinFault
    simp only [hname]
    exact lowest_none (by simp [hsrc, hdst, hrank, hfmt, hfmt ▸ hok, hstash])
  unfold dwinEff
  simp only [hfault]

/-- Settles O15: operands that pass every check end in `pushDma`, which adds one DMA or stalls. -/
theorem dmaIssue : Obligations.DmaIssue := by
  unfold Obligations.DmaIssue
  intro s t g trans rnd dd ds dw so sd evt x a b typed issues clean pages first count
  have ok : clean → CopyOk s t dd ds so sd := fun ⟨hd, hs, hc, hsp, hp, hst, ha, hb, hso, hsd⟩ => ⟨hd, hs, hc, hsp, hp, hst, ha, hb, hso, hsd⟩
  refine ⟨fun hc hr ht => pushDma_exec rfl (dcopyEff_push (ok hc) hr ht),
    fun h hr => ⟨_, rfl, faults_issue hr (dcopyEff_rounding h)⟩,
    fun hc hr htr hsp h => ⟨_, rfl, faults_issue h (dcopyEff_transpose (ok hc) hr htr hsp)⟩,
    fun hd hp hv hl hs hrk he hf hfirst hh h0 hn => pushDma_exec rfl (dgatherEff_push hd hp hv hl hs hrk he hf hfirst hh h0 hn),
    fun hd hs hw ha hb hrk hf hlow hst => pushDma_exec rfl (dwinEff_push hd hs hw ha hb hrk hf hlow hst), fun h hr => ?_⟩
  obtain ⟨c, hc⟩ := dgatherEff_untyped (dd := dd) (st := so) (sn := sd) (evt := evt.toNat) h
  obtain ⟨htile, -⟩ := faults_issue hr hc
  exact ⟨_, rfl, (congrArg TileSt.dmas htile).trans rfl, (congrArg TileSt.run htile).trans rfl⟩

/-! The completion of a DMA. -/

theorem waitOn_same {α : Type} (p : State → α) (h : ∀ (s : State) m, p { s with mem := m } = p s) (s : State) (j cls i : Nat)
    (ps : List Nat) : p (s.waitOn j cls i ps) = p s := by
  unfold State.waitOn
  refine fold_same _ p ?_ ps s
  intro _ _
  exact h _ _

theorem waitOn_bytes (s : State) (j cls i : Nat) (ps : List Nat) : (s.waitOn j cls i ps).mem.bytes = s.mem.bytes := by
  unfold State.waitOn
  refine fold_same _ (fun s : State => s.mem.bytes) ?_ ps s
  intro _ _
  rfl

/-- An uncorrectable error is noted in the memory's own state (R287). -/
theorem noteUe_keeps (s : State) (addr : Nat) :
    (∀ u, (s.noteUe addr).tile u = s.tile u) ∧ ∀ j, (s.noteUe addr).job j = s.job j := by
  unfold State.noteUe State.noteUeAt
  dsimp only
  split
  · exact ⟨fun _ => rfl, fun _ => rfl⟩
  · exact ⟨fun _ => rfl, fun _ => rfl⟩

/-- A failed DMA leaves the outstanding ones without counting, and its job faults (R54). -/
theorem dmaFail_spec (s : State) (t n : Nat) (d : DmaRec) (e : AccErr) :
    let x := s.tile t
    let m := s.dmaFail t n d e
    (m.tile t).dmas = x.dmas.eraseIdx n ∧ (m.tile t).e = x.e
      ∧ ∀ y, s.job x.job = some y → m.job x.job = some { y with fault := some (y.fault.getD e.code) } := by
  have hfree := stores_freeRegion t s d
  have htile : ∃ f, ((s.dmaFail t n d e).tile t)
      = { (((s.freeRegion t d).modTile t (fun x => x.dropDma n)).tile t) with
          regs := { (((s.freeRegion t d).modTile t (fun x => x.dropDma n)).tile t).regs with fault := f } } :=
    (State.tileReport_spec _ t d.slot e.code (s.tile t).job _ e.data).1
  have hjob := (State.tileReport_spec ((s.freeRegion t d).modTile t (fun x => x.dropDma n)) t d.slot e.code (s.tile t).job
    (match (s.tile t).hand with | some h => h.id | none => 0) e.data).2.2.2
  obtain ⟨f, htile⟩ := htile
  rw [State.tile_modTile_same, hfree.this] at htile
  refine ⟨by rw [htile]; rfl, by rw [htile]; rfl, fun y hy => hjob y ?_⟩
  rw [State.job_modTile, hfree.job, hy]

section Completion

variable {n : Nat} {d : DmaRec}

theorem dmaComplete_waits (hd : (s.tile t).dmas[n]? = some d) (ha : s.dmaAbsent t d ≠ []) : dmaComplete t n s
    = (s.waitOn (s.tile t).job reqTile t (s.dmaAbsent t d)).modTile t (fun x => { x with dmas := x.dmas.set n { d with waiting := true } }) := by
  obtain ⟨p, ps, hps⟩ := List.exists_cons_of_ne_nil ha
  simp only [dmaComplete, hd, hps]

theorem dmaComplete_ok {s1 : State} (hd : (s.tile t).dmas[n]? = some d) (ha : s.dmaAbsent t d = []) (h : s.dmaDo t d = .ok s1) :
    dmaComplete t n s = s1.modTile t (fun x => (x.dropDma n).bump d.evt 1) := by
  simp only [dmaComplete, hd, ha, h]

theorem dmaComplete_error {e : AccErr} (hd : (s.tile t).dmas[n]? = some d) (ha : s.dmaAbsent t d = []) (h : s.dmaDo t d = .error e) :
    dmaComplete t n s = s.dmaFail t n d e := by
  simp only [dmaComplete, hd, ha, h]

theorem dmaFaultReport_read {s1 : State} {a : Nat} {rest : List Nat} (hd : (s.tile t).dmas[n]? = some d) (h : s.dmaDo t d = .ok s1)
    (ha : s.dmaReads t d = a :: rest) : dmaFaultReport t n .uncorrectable s
      = (s.noteUe a).dmaFail t n d ⟨Codes.memUncorrectable, s.memData a⟩ := by
  simp only [dmaFaultReport, hd, h, ha]

end Completion

/-- Counting an event changes no more of a tile than its event counters, and a WAIT that goes on. -/
theorem bump_keeps (x : TileSt) (e inc : Nat) :
    x.bump e inc = { x with e := (x.bump e inc).e, run := (x.bump e inc).run, loops := (x.bump e inc).loops, pc := (x.bump e inc).pc } := by
  unfold TileSt.bump TileSt.wake
  split
  · split <;> rfl
  · rfl

/-- A DMA that stored and then leaves the outstanding ones changes its tile's memories and registers alone. -/
theorem dropDma_of_stores {s1 : State} {i : Nat} (h : Stores i s s1) (n : Nat) : (s1.tile i).dropDma n
    = { s.tile i with dmas := (s.tile i).dmas.eraseIdx n, spad := (s1.tile i).spad, acc := (s1.tile i).acc, regs := (s1.tile i).regs } := by
  generalize hy : s1.tile i = y
  have hthis := h.this
  rw [hy] at hthis
  rw [TileSt.dropDma, congrArg TileSt.dmas hthis, hthis]

/-- Settles O16: by the outcome of the transfer, its stores, its wait or its failure. -/
theorem dmaCompletion : Obligations.DmaCompletion := by
  unfold Obligations.DmaCompletion
  intro s t n d hd x fails
  refine ⟨fun ha => ⟨_, rfl, fun s1 h => ?ok, fun e h => ?error⟩, fun ha => ⟨_, rfl, ?absent⟩, fun s1 h hreads => ⟨_, rfl, ?report⟩⟩
  case ok =>
    have hst := stores_dmaDo h
    rw [dmaComplete_ok hd ha h, State.tile_modTile_same]
    have hx := dropDma_of_stores hst n
    have hereg : ∀ k, ((s1.tile t).dropDma n).ereg k = x.ereg k := fun k => by rw [hx]; rfl
    have hcount : ∀ k, (((s1.tile t).dropDma n).bump d.evt 1).ereg k = if k = d.evt then x.ereg d.evt + 1 else x.ereg k := fun k => by
      rw [bump_ereg, hereg, hereg]; rfl
    have hbump := bump_keeps ((s1.tile t).dropDma n) d.evt 1
    refine ⟨(congrArg TileSt.dmas hbump).trans (congrArg TileSt.dmas hx :), (hcount _).trans (if_pos rfl), fun k hk => (hcount k).trans (if_neg hk), rfl,
      (congrArg TileSt.spad hbump).trans rfl, (congrArg TileSt.s hbump).trans (congrArg TileSt.s hx :), (congrArg TileSt.v hbump).trans (congrArg TileSt.v hx :),
      (congrArg TileSt.p hbump).trans (congrArg TileSt.p hx :), (congrArg TileSt.d hbump).trans (congrArg TileSt.d hx :), (congrArg TileSt.hand hbump).trans (congrArg TileSt.hand hx :),
      hst.sched, fun hw => ?_, fun u hu => by rw [State.tile_modTile, if_neg hu, hst.other u hu]⟩
    have hwake : ((s1.tile t).dropDma n).bump d.evt 1 = ((s1.tile t).dropDma n).setE d.evt _ :=
      TileSt.wake_other _ fun k v => by rw [hx]; exact hw k v
    rw [hwake, hx]
    exact ⟨rfl, rfl⟩
  case error =>
    rw [dmaComplete_error hd ha h]
    exact dmaFail_spec s t n d e
  case absent =>
    rw [dmaComplete_waits hd ha, State.tile_modTile_same,
      waitOn_same (fun s => s.tile t) (fun _ _ => rfl)]
    exact ⟨rfl, waitOn_bytes _ _ _ _ _⟩
  case report =>
    obtain ⟨a, rest, hcons⟩ := List.exists_cons_of_ne_nil hreads
    obtain ⟨htile, hjob⟩ := noteUe_keeps s a
    rw [dmaFaultReport_read hd h hcons]
    have hfail := dmaFail_spec (s.noteUe a) t n d ⟨Codes.memUncorrectable, s.memData a⟩
    dsimp only at hfail
    rw [htile, hjob] at hfail
    exact hfail

end Sys2Proof.Machine

namespace Sys2Proof.Machine

open Claims

variable {s : State} {t : Tile} {g : Guard}

/-! Class 7: power and trace (R68, R69, R438). -/

/-! ANTE. -/

theorem anteSet_on (p : TilePower) (phase : Nat) {density : Nat} (h : 1 ≤ density) :
    anteSet p phase density = { p with phase := phase, phaseValid := true, density := density } := if_neg (by omega)

theorem anteSet_cancels {p : TilePower} {phase : Nat} (hv : p.phaseValid = true) (h : p.phase = phase) :
    anteSet p phase 0 = { p with phaseValid := false, density := 0 } := by
  simp [anteSet, hv, h]

theorem anteSet_other {p : TilePower} {phase : Nat} (h : p.phaseValid = false ∨ p.phase ≠ phase) : anteSet p phase 0 = p := by
  rcases h with h | h <;> simp [anteSet, h]

theorem ante_issues {phase : BitVec 8} {density : BitVec 7} {durK : BitVec 20} (hr : Runs s t g (.ante t g phase density durK))
    (h : ¬(64 < density.toNat ∨ (1 ≤ density.toNat ∧ durK.toNat = 0))) :
    TileTo s t { s.tile t with pwr := anteSet (s.tile t).pwr phase.toNat density.toNat }
      (issue t g (slotOf (.ante t g phase density durK)) (anteEff t phase.toNat density.toNat durK.toNat) s) :=
  (tileTo_issue (fun x => { x with pwr := anteSet x.pwr phase.toNat density.toNat }) hr rfl (if_neg h) rfl rfl rfl).1

/-! Instructions whose effect draws a free value. -/

/-- An effect that draws on `s`, and then sets its tile, is the same effect on the state after the draw. -/
theorem issue_draw {i : Instr} {body : State → Eff} {f : TileSt → TileSt} (hr : Runs s t g i)
    (hb : body s = .done ({ s with freeCtr := s.freeCtr + 1 }.modTile t f)) :
    issue t g (slotOf i) body s = issue t g (slotOf i) (fun s => .done (s.modTile t f)) { s with freeCtr := s.freeCtr + 1 } := by
  have hr' : Runs { s with freeCtr := s.freeCtr + 1 } t g i := hr
  exact (issue_done hr.1 hr.2 hb).trans (issue_done (body := fun s => .done (s.modTile t f)) hr'.1 hr'.2 rfl).symm

/-! TRACE. -/

theorem traceRecord_toNat (tag : BitVec 16) (slot clk : Nat) (v : W64) : (traceRecord tag.toNat slot clk v).toNat
    = 2 ^ 112 * tag.toNat + (2 ^ 100 * (slot % 4096) + (2 ^ 64 * (clk % 2 ^ 36) + v.toNat)) := by
  have htag := tag.isLt
  have hv := v.isLt
  rw [traceRecord, BitVec.toNat_ofNat, Nat.mod_eq_of_lt] <;> simp only [at_] <;> omega

theorem traceRecord_value (tag : BitVec 16) (slot clk : Nat) (v : W64) :
    (traceRecord tag.toNat slot clk v).extractLsb' 0 64 = v := by
  have hv := v.isLt
  apply BitVec.eq_of_toNat_eq
  rw [BitVec.extractLsb'_toNat, traceRecord_toNat, Nat.shiftRight_zero]
  omega

theorem traceRecord_slot (tag : BitVec 16) (slot clk : Nat) (v : W64) :
    (traceRecord tag.toNat slot clk v).extractLsb' 100 12 = BitVec.ofNat 12 slot := by
  have hv := v.isLt
  apply BitVec.eq_of_toNat_eq
  rw [BitVec.extractLsb'_toNat, traceRecord_toNat, Nat.shiftRight_eq_div_pow, BitVec.toNat_ofNat]
  omega

theorem traceRecord_tag (tag : BitVec 16) (slot clk : Nat) (v : W64) :
    (traceRecord tag.toNat slot clk v).extractLsb' 112 16 = tag := by
  have htag := tag.isLt
  have hv := v.isLt
  apply BitVec.eq_of_toNat_eq
  rw [BitVec.extractLsb'_toNat, traceRecord_toNat, Nat.shiftRight_eq_div_pow]
  omega

/-! CNTRD. -/

section Counter

variable {sx : BitVec 5} {sel : Nat}

theorem cntrdEff_time (h : sel = 0 ∨ sel = 2) : cntrdEff t sx sel s
    = .done ({ s with freeCtr := s.freeCtr + 1 }.modTile t (fun x => x.setS sx (Config.freeWord s.freeCtr))) := by
  rcases h with h | h <;> subst h <;> rfl

theorem cntrdEff_range (h : 3 < sel) : cntrdEff t sx sel s = .fault Codes.isaFieldRange := by
  unfold cntrdEff
  split
  · omega
  · omega
  · exact if_pos h

end Counter

/-- Settles O17: TRACE and the counters of time act as on the state after their draw. -/
theorem powerAndTrace : Obligations.PowerAndTrace := by
  unfold Obligations.PowerAndTrace
  intro s t g phase density durK tag sx sel x
  refine ⟨fun hr => ⟨_, rfl, fun h1 h64 hdur => ?on, fun h0 hv hp => ?cancel, fun h0 h => ?other, fun h => faults_issue hr (if_pos ?bad)⟩,
    fun hv => ⟨_, congrArg Host.Outcome.next (if_pos hv), onlyTile_modTile s t _, State.tile_modTile_same s t _⟩,
    fun hr => ?trace, fun hr => ⟨_, rfl, fun h => ?busy, fun h => ?issued, fun h => ?time, fun h => faults_issue hr (cntrdEff_range h)⟩⟩
  case on =>
    have hok := ante_issues hr (by bv_omega)
    rwa [anteSet_on _ _ h1] at hok
  case cancel =>
    subst h0
    have hok := ante_issues hr (by simp)
    rwa [show (0 : BitVec 7).toNat = 0 from rfl, anteSet_cancels hv hp] at hok
  case other =>
    subst h0
    have hok := ante_issues hr (by simp)
    rwa [show (0 : BitVec 7).toNat = 0 from rfl, anteSet_other h] at hok
  case bad => bv_omega
  case trace =>
    have hr' : Runs { s with freeCtr := s.freeCtr + 1 } t g (.trace t g tag sx) := hr
    let f (x : TileSt) : TileSt := x.appendTrace (traceRecord tag.toNat x.pc (Config.freeWord s.freeCtr).toNat (x.sreg sx))
    obtain ⟨hto, htile⟩ := tileTo_issue (body := fun s => .done (s.modTile t f)) f hr' rfl rfl rfl rfl rfl
    have htrace := (congrArg TileSt.trace htile).trans (rfl :
      _ = x.trace.set 0 x.regs.traceNext (traceRecord tag.toNat x.pc (Config.freeWord s.freeCtr).toNat (x.sreg sx)))
    refine ⟨_, traceRecord tag.toNat x.pc (Config.freeWord s.freeCtr).toNat (x.sreg sx),
      congrArg Host.Outcome.next (issue_draw hr rfl), ?_, ?_, traceRecord_value _ _ _ _, traceRecord_slot _ _ _ _,
      traceRecord_tag _ _ _ _, fun k hk => ?_⟩
    · rw [htrace]; exact hto
    · rw [htrace, SMap.get_set_same]
    · rw [htrace, SMap.get_set_other (h := hk)]
  case busy =>
    subst h
    exact writesScalar_issue (v := fun x => BitVec.ofNat 64 x.busy) hr rfl rfl
  case issued =>
    subst h
    exact writesScalar_issue (v := fun x => BitVec.ofNat 64 x.issued) hr rfl rfl
  case time =>
    have hr' : Runs { s with freeCtr := s.freeCtr + 1 } t g (.cntrd t g sx sel) := hr
    have hsel : sel.toNat = 0 ∨ sel.toNat = 2 := by bv_omega
    rw [issue_draw hr (cntrdEff_time hsel)]
    exact ⟨_, writesScalar_issue (v := fun _ => Config.freeWord s.freeCtr) hr' rfl rfl⟩

end Sys2Proof.Machine

namespace Sys2Proof.Machine

open Claims

variable {s : State} {t : Tile} {g : Guard}

/-! Class 3: matrix instructions (R55 to R59, R115 to R119). -/

/-- Two settings of one tile in turn are the last one. -/
theorem tileTo_setTile_modTile {i : Instr} {body : State → Eff} {y : TileSt} {f : TileSt → TileSt} (hr : Runs s t g i)
    (hb : body s = .done ((s.setTile t y).modTile t f)) (hl : (f y).loops = (s.tile t).loops) (hp : (f y).pc = (s.tile t).pc)
    (hi : (f y).issued = (s.tile t).issued) :
    TileTo s t (f y) (issue t g (slotOf i) body s) ∧ (issue t g (slotOf i) body s).tile t = (f y).countIssue.advance := by
  rw [issue_done hr.1 hr.2 hb]
  have e : (((s.setTile t y).modTile t f).modTile t (fun y => y.countIssue.advance)).tile t = (f y).countIssue.advance := by simp
  refine ⟨⟨((onlyTile_setTile s t y).modTile f).modTile _, ?_, ?_⟩, e⟩
  · rw [e]; exact passed_advance _ _ hl hp hi
  · rw [e]; rfl

/-! The groups of K elements (R115). -/

/-- A group holds K elements of its range alone. -/
theorem groupsFrom_bound (a b : Tensor) (sa sb : W64) {bound : Nat} : ∀ (fuel k hi : Nat) (cur : List Nat), hi ≤ bound →
    (∀ n ∈ cur, n < bound) → ∀ gr ∈ groupsFrom a b sa sb fuel k hi cur, ∀ n ∈ gr, n < bound
  | 0, k, hi, cur, _, hcur, gr, hgr, n, hn => by
    rw [groupsFrom] at hgr
    split at hgr
    · cases hgr
    · obtain rfl := List.mem_singleton.1 hgr
      exact hcur n (List.mem_reverse.1 hn)
  | fuel + 1, k, hi, cur, hle, hcur, gr, hgr, n, hn => by
    rw [groupsFrom] at hgr
    split at hgr
    · split at hgr
      · cases hgr
      · obtain rfl := List.mem_singleton.1 hgr
        exact hcur n (List.mem_reverse.1 hn)
    · next hk =>
      have hnext : ∀ n ∈ k :: cur, n < bound := by
        intro n hn
        rcases List.mem_cons.1 hn with rfl | hn
        · omega
        · exact hcur n hn
      split at hgr
      · exact groupsFrom_bound a b sa sb fuel (k + 1) hi _ hle hnext gr hgr n hn
      · rcases List.mem_cons.1 hgr with rfl | hgr
        · exact hnext n (List.mem_reverse.1 hn)
        · exact groupsFrom_bound a b sa sb fuel (k + 1) hi [] hle (by simp) gr hgr n hn

theorem groups_bound {a b : Tensor} {sa sb : W64} {lo hi bound : Nat} (h : hi ≤ bound) :
    ∀ gr ∈ groups a b sa sb lo hi, ∀ n ∈ gr, n < bound := groupsFrom_bound a b sa sb _ lo hi [] h (by simp)

/-- An accumulation reads its operands at the K elements of its groups alone. -/
theorem accumGroups_congr {va va' vb vb' : Nat → FV} {bound : Nat} (ha : ∀ n, n < bound → va n = va' n)
    (hb : ∀ n, n < bound → vb n = vb' n) : ∀ (gs : List (List Nat)) (acc : W32), (∀ gr ∈ gs, ∀ n ∈ gr, n < bound) →
      accumGroups va vb acc gs = accumGroups va' vb' acc gs
  | [], _, _ => rfl
  | gr :: gs, acc, h => by
    have hgr : gr.map (fun k => (va k).mul (vb k)) = gr.map (fun k => (va' k).mul (vb' k)) :=
      List.map_congr_left fun n hn => by
        have hlt := h gr (List.mem_cons_self ..) n hn
        rw [ha n hlt, hb n hlt]
    rw [accumGroups, List.foldl_cons, hgr]
    exact accumGroups_congr ha hb gs _ fun gr' hgr' => h gr' (List.mem_cons_of_mem _ hgr')

section Product

variable {quart : Bool} {a b : Tensor} {sa sb : W64} {k : Nat} {va va' vb vb' : Nat → FV}

theorem engineShare_le (k j : Nat) : (engineShare k j).2 ≤ k := Nat.min_le_left _ _

theorem dotPlain_congr (ha : ∀ n, n < k → va n = va' n) (hb : ∀ n, n < k → vb n = vb' n) (acc : W32) :
    dotPlain quart a b sa sb k va vb acc = dotPlain quart a b sa sb k va' vb' acc := by
  unfold dotPlain
  dsimp only
  split
  · simp only [accumGroups_congr ha hb _ _ (groups_bound (engineShare_le k _))]
  · exact accumGroups_congr ha hb _ _ (groups_bound (Nat.le_refl k))

theorem dotPaired_congr (ha : ∀ n, n < k → va n = va' n) (hb : ∀ n, n < k → vb n = vb' n) (even odd : W32) :
    dotPaired quart a b sa sb k va vb even odd = dotPaired quart a b sa sb k va' vb' even odd := by
  have hah : ∀ n, n < k → splitHi (va n) = splitHi (va' n) := fun n hn => by rw [ha n hn]
  have hal : ∀ n, n < k → splitLo (va n) = splitLo (va' n) := fun n hn => by rw [ha n hn]
  have hbh : ∀ n, n < k → splitHi (vb n) = splitHi (vb' n) := fun n hn => by rw [hb n hn]
  have hbl : ∀ n, n < k → splitLo (vb n) = splitLo (vb' n) := fun n hn => by rw [hb n hn]
  unfold dotPaired
  dsimp only
  split
  · simp only [accumGroups_congr hah hbh _ _ (groups_bound (engineShare_le k _)), accumGroups_congr hah hbl _ _ (groups_bound (engineShare_le k _)),
      accumGroups_congr hal hbh _ _ (groups_bound (engineShare_le k _)), accumGroups_congr hal hbl _ _ (groups_bound (engineShare_le k _))]
  · simp only [accumGroups_congr hah hbh _ _ (groups_bound (Nat.le_refl k)), accumGroups_congr hah hbl _ _ (groups_bound (Nat.le_refl k)),
      accumGroups_congr hal hbh _ _ (groups_bound (Nat.le_refl k)), accumGroups_congr hal hbl _ _ (groups_bound (Nat.le_refl k))]

end Product

/-! The rows of a product. -/

theorem nth_opRow (s : State) (t : Nat) (d : Tensor) (off : W64) (tr : Bool) (k i : Nat) {n : Nat} (h : n < k) :
    nth (s.opRow t d off tr k i) n = s.opVal t d off tr n i := by
  simp [nth, State.opRow, List.getD_eq_getElem?_getD, h]

/-- The columns of B that a product reads. -/
def opCols (s : State) (t : Nat) (b : Tensor) (sb : W64) (trb : Bool) (k n : Nat) : List (List FV) :=
  (List.range n).map (fun c => s.opRow t b sb trb k c)

section Row

variable {i : Nat} {quart : Bool} {a b : Tensor} {sa sb : W64} {k n : Nat} {arow : List FV} {old : List W32} {trb : Bool}

theorem zipIdx_opCols (s : State) (i : Nat) (b : Tensor) (sb : W64) (trb : Bool) (k n : Nat) :
    (opCols s i b sb trb k n).zipIdx = (List.range n).map (fun c => (s.opRow i b sb trb k c, c)) := by
  apply List.ext_getElem?
  intro i
  by_cases h : i < n <;> simp [opCols, h]

/-- A plain row, by its words. -/
theorem mmaRow_plain (ha : a.fmt ≠ 0) : mmaRow quart a b sa sb k arow (opCols s i b sb trb k n) old
    = (List.range n).map (fun c => dotPlain quart a b sa sb k (nth arow) (nth (s.opRow i b sb trb k c)) (old.getD c 0)) := by
  rw [mmaRow, if_neg ha, zipIdx_opCols, List.map_map]
  rfl

/-- A paired row, by its pairs of words. -/
theorem mmaRow_paired (ha : a.fmt = 0) : mmaRow quart a b sa sb k arow (opCols s i b sb trb k n) old
    = (List.range n).flatMap (fun c =>
        let r := dotPaired quart a b sa sb k (nth arow) (nth (s.opRow i b sb trb k c)) (old.getD (2 * c) 0) (old.getD (2 * c + 1) 0)
        [r.1, r.2]) := by
  rw [mmaRow, if_pos ha, zipIdx_opCols, List.flatMap_map]

end Row

/-- A list of pairs laid out in turn: its length, and its words. -/
theorem flatPairs_length (f : Nat → W32 × W32) (n : Nat) : ((List.range n).flatMap (fun c => [(f c).1, (f c).2])).length = 2 * n := by
  induction n with
  | zero => rfl
  | succ n ih => rw [List.range_succ, List.flatMap_append, List.length_append, ih]; simp; omega

theorem flatPairs_getD (f : Nat → W32 × W32) {n c : Nat} (h : c < n) :
    (((List.range n).flatMap (fun c => [(f c).1, (f c).2])).getD (2 * c) 0,
      ((List.range n).flatMap (fun c => [(f c).1, (f c).2])).getD (2 * c + 1) 0) = f c := by
  induction n with
  | zero => omega
  | succ n ih =>
    have hlen := flatPairs_length f n
    rw [List.range_succ, List.flatMap_append]
    by_cases hc : c < n
    · rw [List.getD_append _ _ _ _ (by omega), List.getD_append _ _ _ _ (by omega), ih hc]
    · obtain rfl : c = n := by omega
      rw [List.getD_append_right _ _ _ _ (by omega), List.getD_append_right _ _ _ _ (by omega), hlen]
      simp

/-- The rows that an MMA writes. -/
def mmaRows (s : State) (t : Nat) (quart tra trb : Bool) (a b : Tensor) (sa sb : W64) (k : Nat) (p : AccTile) : List (List W32) :=
  (List.range 128).map (fun r => mmaRow quart a b sa sb k (s.opRow t a sa tra k r)
    (opCols s t b sb trb k (resultCols a.fmt p.cols)) ((s.tile t).accRow p r))

section Rows

variable {i : Nat} {quart tra trb : Bool} {a b : Tensor} {sa sb : W64} {k : Nat} {p : AccTile}

theorem mmaDo_eq : s.mmaDo i quart tra trb a b sa sb k p
    = s.setTile i ((s.tile i).setAcc p (mmaRows s i quart tra trb a b sa sb k p)) := rfl

theorem mmaRows_count : (mmaRows s i quart tra trb a b sa sb k p).length = 128 := by
  rw [mmaRows, List.length_map, List.length_range]

theorem mmaRows_getD {r : Nat} (h : r < 128) : (mmaRows s i quart tra trb a b sa sb k p).getD r []
    = mmaRow quart a b sa sb k (s.opRow i a sa tra k r) (opCols s i b sb trb k (resultCols a.fmt p.cols)) ((s.tile i).accRow p r) := by
  simp [mmaRows, List.getD_eq_getElem?_getD, h]

/-- Each row has the columns of the accumulator tile, an even number of them. -/
theorem mmaRows_width (heven : 2 ∣ p.cols) : ∀ ws ∈ mmaRows s i quart tra trb a b sa sb k p, ws.length = p.cols := by
  intro ws hws
  obtain ⟨r, -, rfl⟩ := List.mem_map.1 hws
  by_cases ha : a.fmt = 0
  · rw [mmaRow_paired ha, resultCols, if_pos ha]
    rw [flatPairs_length]
    omega
  · rw [mmaRow_plain ha, resultCols, if_neg ha, List.length_map, List.length_range]

/-- Words of a plain product. -/
theorem mmaRows_plain {r c : Nat} (hr : r < 128) (hc : c < p.cols) (ha : a.fmt ≠ 0) :
    ((mmaRows s i quart tra trb a b sa sb k p).getD r []).getD c 0
      = dotPlain quart a b sa sb k (fun n => s.opVal i a sa tra n r) (fun n => s.opVal i b sb trb n c) ((s.tile i).acc.get 0 (p.key r c)) := by
  rw [mmaRows_getD hr, mmaRow_plain ha, resultCols, if_neg ha, List.getD_eq_getElem?_getD, List.getElem?_map, List.getElem?_range hc,
    Option.map_some, Option.getD_some, TileSt.accRow_getD _ _ _ _ hc]
  exact dotPlain_congr (fun n hn => nth_opRow s i a sa tra k r hn) (fun n hn => nth_opRow s i b sb trb k c hn) _

/-- Pairs of words of an emulated product. -/
theorem mmaRows_paired {r c : Nat} (hr : r < 128) (hc : 2 * c < p.cols) (heven : 2 ∣ p.cols) (ha : a.fmt = 0) :
    (((mmaRows s i quart tra trb a b sa sb k p).getD r []).getD (2 * c) 0, ((mmaRows s i quart tra trb a b sa sb k p).getD r []).getD (2 * c + 1) 0)
      = dotPaired quart a b sa sb k (fun n => s.opVal i a sa tra n r) (fun n => s.opVal i b sb trb n c)
          ((s.tile i).acc.get 0 (p.key r (2 * c))) ((s.tile i).acc.get 0 (p.key r (2 * c + 1))) := by
  rw [mmaRows_getD hr, mmaRow_paired ha, resultCols, if_pos ha, flatPairs_getD _ (by omega : c < p.cols / 2),
    TileSt.accRow_getD _ _ _ _ hc, TileSt.accRow_getD _ _ _ _ (by omega)]
  exact dotPaired_congr (fun n hn => nth_opRow s i a sa tra k r hn) (fun n hn => nth_opRow s i b sb trb k c hn) _ _

end Rows

/-! The state and the history after an MMA (R119, R127). -/

section Note

variable {quart tra trb fp32 : Bool} {p : AccTile} {da db : Nat} {sa sb : W64} {k : Nat} {dr : Option Nat} {x : TileSt}

theorem mmaNote_eq : mmaNote quart tra trb fp32 p da db sa sb k dr x
    = (if x.accState p = some .empty then x.setAccState p (if fp32 then .paired else .plain) else x).modHist quart p
        (fun h => match dr with
          | some r => h.add ⟨da, r, sa, sb, k, quart, tra, trb, db⟩
          | none => { h with bad := true }) := by
  unfold mmaNote
  rcases x.accState p with _ | _ | _ | _ <;> cases dr <;> rfl

theorem mmaNote_rest : mmaNote quart tra trb fp32 p da db sa sb k dr x
    = { x with units := (mmaNote quart tra trb fp32 p da db sa sb k dr x).units } := by
  rw [mmaNote_eq, TileSt.modHist_rest]
  split
  · rw [TileSt.setAccState_rest]
  · rfl

/-- The tile is in the layout of the product afterwards, from empty or from that layout. -/
theorem mmaNote_accState (hu : p.units ≠ [])
    (h : x.accState p = some .empty ∨ x.accState p = some (if fp32 then .paired else .plain)) :
    (mmaNote quart tra trb fp32 p da db sa sb k dr x).accState p = some (if fp32 then .paired else .plain) := by
  rw [mmaNote_eq, TileSt.accState_congr p (fun v => TileSt.state_modHist _ _ _ _ v)]
  split
  · exact TileSt.accState_setAccState _ _ _ hu
  · next hne => exact h.resolve_left hne

end Note

/-! Faults of an MMA. -/

/-- The lowest of a list's codes is one of them. -/
theorem lowest_mem : ∀ {l : List (Bool × Code)} {c : Code}, lowest l = some c → ∃ p ∈ l, p.2 = c
  | (b, c') :: l, c, h => by
    have tail : lowest l = some c → ∃ p ∈ (b, c') :: l, p.2 = c := fun h =>
      let ⟨p, hp, e⟩ := lowest_mem h
      ⟨p, List.mem_cons_of_mem _ hp, e⟩
    simp only [lowest] at h
    split at h
    · exact tail h
    · exact ⟨_, List.mem_cons_self .., Option.some.inj h⟩
    · next hl =>
      split at h
      · exact tail (hl.trans h)
      · exact ⟨_, List.mem_cons_self .., Option.some.inj h⟩

/-- A code that holds and is no greater than the others is the one raised (R71). -/
theorem lowest_least {l : List (Bool × Code)} {c : Code} (h : ∀ p ∈ l, c.toNat ≤ p.2.toNat) : lowest ((true, c) :: l) = some c := by
  cases hl : lowest l with
  | none => exact lowest_head hl
  | some c' =>
    simp only [lowest, hl]
    obtain ⟨p, hp, rfl⟩ := lowest_mem hl
    exact if_neg (Nat.not_lt.2 (h p hp))

section Faults

variable {quart tra trb : Bool} {da db : BitVec 6} {acc sa sb sk : BitVec 5} {dr : Option (BitVec 6)}

theorem mmaFault_zero (hk : ((s.tile t).sreg sk).toNat % 2 ^ 32 = 0) :
    mmaFault s t quart tra trb da db acc sa sb sk dr = some Codes.isaFieldRange := by
  unfold mmaFault
  simp only [hk]
  split
  · rfl
  · exact lowest_least (by simp; decide)

/-- The operands of an MMA pass its checks (R56, R57, R59, R119, R125). -/
structure MmaOk (s : State) (t : Tile) (tra trb : Bool) (da db : BitVec 6) (sa sb sk : BitVec 5) (dr : Option (BitVec 6)) (p : AccTile) :
    Prop where
  left : Typed (s.tile t) 0x10 da
  right : Typed (s.tile t) 0x10 db
  leftSpace : (tensorOf ((s.tile t).dreg da)).space = 0
  rightSpace : (tensorOf ((s.tile t).dreg db)).space = 0
  pair : pairOk (tensorOf ((s.tile t).dreg da)).fmt (tensorOf ((s.tile t).dreg db)).fmt = true
  elements : 1 ≤ ((s.tile t).sreg sk).toNat % 2 ^ 32
  limit : ((s.tile t).sreg sk).toNat % 2 ^ 32 ≤ kMax (pairLane (tensorOf ((s.tile t).dreg da)).fmt (tensorOf ((s.tile t).dreg db)).fmt)
  layout : (s.tile t).accState p = some .empty
    ∨ (s.tile t).accState p = some (if (tensorOf ((s.tile t).dreg da)).fmt = 0 then .paired else .plain)
  leftTransposed : tra = true → transposeOk (tensorOf ((s.tile t).dreg da)) ((s.tile t).sreg sa) = true
  rightTransposed : trb = true → transposeOk (tensorOf ((s.tile t).dreg db)) ((s.tile t).sreg sb) = true
  leftAligned : (tensorOf ((s.tile t).dreg da)).aligned = true
  rightAligned : (tensorOf ((s.tile t).dreg db)).aligned = true
  leftOffset : ((s.tile t).sreg sa).toNat % 2 ^ 32 % (tensorOf ((s.tile t).dreg da)).block = 0
  rightOffset : ((s.tile t).sreg sb).toNat % 2 ^ 32 % (tensorOf ((s.tile t).dreg db)).block = 0
  replay : ∀ r, dr = some r → Typed (s.tile t) 0x10 r ∧ replayOk (tensorOf ((s.tile t).dreg db)) (tensorOf ((s.tile t).dreg r)) = true
    ∧ pairOk (tensorOf ((s.tile t).dreg da)).fmt (tensorOf ((s.tile t).dreg r)).fmt = true

theorem notTransposed {tr : Bool} {d : Tensor} {w : W64} (h : tr = true → transposeOk d w = true) : (tr && !transposeOk d w) = false := by
  cases tr with
  | false => rfl
  | true => rw [h rfl]; rfl

theorem not_blockMisaligned {d : Tensor} {w : W64} (h : w.toNat % 2 ^ 32 % d.block = 0) : d.blockMisaligned w = false := by
  rw [Tensor.blockMisaligned, off0, h]; rfl

theorem mmaFault_none {p : AccTile} (hp : accTile quart acc.toNat = some p) (h : MmaOk s t tra trb da db sa sb sk dr p) :
    mmaFault s t quart tra trb da db acc sa sb sk dr = none := by
  have hpos : (((s.tile t).sreg sk).toNat % 2 ^ 32 == 0) = false := by simpa using Nat.ne_of_gt h.elements
  have hlayout : (s.tile t).accState p = some .empty
      ∨ ((s.tile t).accState p = some .paired ∧ ((tensorOf ((s.tile t).dreg da)).fmt != 0) = false)
      ∨ ((s.tile t).accState p = some .plain ∧ ((tensorOf ((s.tile t).dreg da)).fmt == 0) = false) := by
    refine h.layout.imp_right fun e => ?_
    by_cases h0 : (tensorOf ((s.tile t).dreg da)).fmt = 0
    · exact .inl ⟨by rw [e, if_pos h0], by simpa using h0⟩
    · exact .inr ⟨by rw [e, if_neg h0], by simpa using h0⟩
  unfold mmaFault
  simp only [h.left.name, h.right.name, hp, h.pair, hpos, h.leftSpace, h.rightSpace, notTransposed h.leftTransposed,
    notTransposed h.rightTransposed, h.leftAligned, h.rightAligned, not_blockMisaligned h.leftOffset, not_blockMisaligned h.rightOffset,
    decide_eq_false (Nat.not_lt.2 h.limit)]
  cases dr with
  | none =>
    rcases hlayout with e | ⟨e, h0⟩ | ⟨e, h0⟩
    · simp only [e]; rfl
    all_goals simp only [e, h0]; rfl
  | some r =>
    obtain ⟨hr, hwide, hpr⟩ := h.replay r rfl
    simp only [hr.name, hwide, hpr]
    rcases hlayout with e | ⟨e, h0⟩ | ⟨e, h0⟩
    · simp only [e]; rfl
    all_goals simp only [e, h0]; rfl

/-- What an MMA without a fault leaves of its tile. -/
def mmaTile (s : State) (t : Tile) (quart tra trb : Bool) (da db : BitVec 6) (sa sb sk : BitVec 5) (dr : Option (BitVec 6))
    (p : AccTile) (y : TileSt) : TileSt :=
  let x := s.tile t
  let a := tensorOf (x.dreg da)
  let b := tensorOf (x.dreg db)
  let k := (x.sreg sk).toNat % 2 ^ 32
  { (mmaNote quart tra trb (a.fmt == 0) p da.toNat db.toNat (x.sreg sa) (x.sreg sb) k (dr.map (·.toNat)) y) with
    busy := (y.busy + mmaCycles quart (pairLane a.fmt b.fmt) k) % 2 ^ 64 }

theorem mmaEff_done {p : AccTile} (hp : accTile quart acc.toNat = some p) (h : mmaFault s t quart tra trb da db acc sa sb sk dr = none) :
    mmaEff t quart tra trb da db acc sa sb sk dr s = .done ((s.setTile t ((s.tile t).setAcc p
      (mmaRows s t quart tra trb (tensorOf ((s.tile t).dreg da)) (tensorOf ((s.tile t).dreg db)) ((s.tile t).sreg sa) ((s.tile t).sreg sb)
        (((s.tile t).sreg sk).toNat % 2 ^ 32) p))).modTile t (mmaTile s t quart tra trb da db sa sb sk dr p)) := by
  unfold mmaEff
  simp only [h, hp, mmaDo_eq]
  rfl

theorem mmaTile_rest {p : AccTile} (y : TileSt) : mmaTile s t quart tra trb da db sa sb sk dr p y
    = { y with units := (mmaTile s t quart tra trb da db sa sb sk dr p y).units,
               busy := (mmaTile s t quart tra trb da db sa sb sk dr p y).busy } := by
  unfold mmaTile
  dsimp only
  rw [mmaNote_rest]

end Faults

/-! MZERO. -/

/-- The rows of zeros that MZERO writes. -/
def zeroRows (p : AccTile) : List (List W32) := List.replicate 128 (List.replicate p.cols 0)

theorem zeroRows_width (p : AccTile) : ∀ ws ∈ zeroRows p, ws.length = p.cols := by
  intro ws hws
  rw [List.eq_of_mem_replicate hws, List.length_replicate]

theorem zeroRows_getD (p : AccTile) (r c : Nat) : ((zeroRows p).getD r []).getD c 0 = 0 := by
  simp only [zeroRows, List.getD_eq_getElem?_getD, List.getElem?_replicate]
  split
  · simp only [Option.getD_some, List.getElem?_replicate]
    split <;> rfl
  · rfl

section Zero

variable {quart : Bool} {p : AccTile} (x : TileSt)

theorem mzero_rest : x.mzero quart p = { x with acc := (x.setAcc p (zeroRows p)).acc, units := (x.mzero quart p).units } := by
  unfold TileSt.mzero
  dsimp only
  rw [TileSt.modHist_rest, TileSt.setAccState_rest, TileSt.setAcc_rest]
  rfl

theorem mzero_accState (hu : p.units ≠ []) : (x.mzero quart p).accState p = some .empty := by
  unfold TileSt.mzero
  rw [TileSt.accState_congr p (fun v => TileSt.state_modHist _ _ _ _ v), TileSt.accState_setAccState _ _ _ hu]

end Zero

/-- A matrix instruction changes its tile's accumulators, their units and the busy count alone. -/
theorem matrixOnly {y : TileSt} {m : State} (h : TileTo s t y m)
    (hrest : y = { s.tile t with acc := y.acc, units := y.units, busy := y.busy }) :
    TileTo s t { s.tile t with acc := (m.tile t).acc, units := (m.tile t).units, busy := (m.tile t).busy } m := by
  obtain ⟨ho, hpassed, hm⟩ := h
  have hacc : (m.tile t).acc = y.acc := (congrArg TileSt.acc hm).trans rfl
  have hunits : (m.tile t).units = y.units := (congrArg TileSt.units hm).trans rfl
  have hbusy : (m.tile t).busy = y.busy := (congrArg TileSt.busy hm).trans rfl
  refine ⟨ho, hpassed, ?_⟩
  rw [hacc, hunits, hbusy]
  exact hm.trans (congrArg (fun z => { z with loops := (m.tile t).loops, pc := (m.tile t).pc, issued := (m.tile t).issued }) hrest)

theorem setAcc_accState (x : TileSt) (a : AccTile) (rows : List (List W32)) (p : AccTile) :
    (x.setAcc a rows).accState p = x.accState p := by
  rw [TileSt.setAcc_rest]
  exact TileSt.accState_congr p fun _ => rfl

theorem accState_countIssue_advance (y : TileSt) (p : AccTile) : y.countIssue.advance.accState p = y.accState p := rfl

/-- Settles O18: an MMA writes `mmaRows`, whose words are the products; MZERO writes rows of zeros. -/
theorem matrixMultiply : Obligations.MatrixMultiply := by
  unfold Obligations.MatrixMultiply
  intro s t g quart tra trb da db acc sa sb sk dr x a b oa ob k named va vb only word part
  refine ⟨fun p hp => ⟨?mma, ?mzero⟩, fun hr hk => ⟨_, rfl, faults_issue hr ?kzero⟩, fun hp hr => ⟨_, rfl, faults_issue hr ?range⟩⟩
  case kzero =>
    unfold mmaEff
    simp only [mmaFault_zero (s := s) (t := t) (sk := sk) hk]
  case range =>
    unfold mzeroEff
    simp only [hp]
  all_goals
    obtain ⟨hcol, -, hcols⟩ := accTile_bounds hp
    have heven : 2 ∣ p.cols := by rw [hcols]; cases quart <;> decide
  case mma =>
    intro hr hna hnb ha0 hb0 hpair hk1 hk hst hta htb haa hba hoa hob hdr
    have hok : MmaOk s t tra trb da db sa sb sk dr p :=
      ⟨hna, hnb, ha0, hb0, hpair, hk1, hk, hst, hta, htb, haa, hba, hoa, hob, hdr⟩
    let y := x.setAcc p (mmaRows s t quart tra trb a b oa ob k p)
    have hwidth := mmaRows_width (s := s) (i := t) (quart := quart) (tra := tra) (trb := trb) (a := a) (b := b) (sa := oa) (sb := ob)
      (k := k) heven
    have hcount := mmaRows_count (s := s) (i := t) (quart := quart) (tra := tra) (trb := trb) (a := a) (b := b) (sa := oa) (sb := ob)
      (k := k) (p := p)
    have hy : y = { x with acc := y.acc } := TileSt.setAcc_rest _ _ _
    have hrest := mmaTile_rest (s := s) (t := t) (quart := quart) (tra := tra) (trb := trb) (da := da) (db := db) (sa := sa) (sb := sb)
      (sk := sk) (dr := dr) (p := p) y
    obtain ⟨hto, htile⟩ := tileTo_setTile_modTile hr (mmaEff_done hp (mmaFault_none hp hok))
      (by rw [hrest, hy]) (by rw [hrest, hy]) (by rw [hrest, hy])
    have hacc := ((congrArg TileSt.acc htile).trans (congrArg TileSt.acc hrest :)).trans (rfl : _ = y.acc)
    have hword : ∀ r c, r < 128 → c < p.cols → (((issue t g (slotOf (.mma t g quart tra trb da db acc sa sb sk dr))
        (mmaEff t quart tra trb da db acc sa sb sk dr) s).tile t).acc.get 0 (p.key r c))
        = ((mmaRows s t quart tra trb a b oa ob k p).getD r []).getD c 0 := fun r c hr hc => by
      rw [hacc]
      exact TileSt.acc_setAcc x p hcol _ hwidth r c (by rwa [hcount]) hc
    refine ⟨_, rfl, matrixOnly hto (by rw [hrest, hy]), ?_, fun q hq => ?_, fun r c hr => ⟨fun ha hc => ?_, fun ha hc => ?_⟩⟩
    · rw [htile, accState_countIssue_advance]
      have hlayout : y.accState p = x.accState p := setAcc_accState x p _ p
      have hif : (if (a.fmt == 0) = true then AccState.paired else .plain) = if a.fmt = 0 then .paired else .plain := by simp
      have hnote := mmaNote_accState (quart := quart) (tra := tra) (trb := trb) (fp32 := a.fmt == 0) (da := da.toNat) (db := db.toNat)
        (sa := oa) (sb := ob) (k := k) (dr := dr.map (·.toNat)) (accTile_units hp) (by rw [hlayout, hif]; exact hst)
      rw [hif] at hnote
      exact hnote
    · rw [hacc]
      exact TileSt.acc_setAcc_other x p _ hwidth q (by rwa [hcount])
    · refine (hword r c hr hc).trans ((mmaRows_plain hr hc ha).trans ?_)
      cases quart <;> rfl
    · exact (Prod.ext (hword r (2 * c) hr hc) (hword r (2 * c + 1) hr (by omega)) :
        (_, _) = (_, _)).trans (mmaRows_paired hr hc heven ha)
  case mzero =>
    intro hr
    have hrest := mzero_rest (quart := quart) (p := p) x
    obtain ⟨hto, htile⟩ := tileTo_issue (fun x => x.mzero quart p) hr rfl (body := mzeroEff t quart acc) (by unfold mzeroEff; rw [hp]; rfl)
      (by rw [hrest]) (by rw [hrest]) (by rw [hrest])
    have hacc := (congrArg TileSt.acc htile).trans (congrArg TileSt.acc hrest :)
    refine ⟨_, rfl, matrixOnly hto (by rw [hrest]), ?_, ?_, fun q hq => ?_, fun r c hr hc => ?_⟩
    · rw [htile, accState_countIssue_advance, mzero_accState x (accTile_units hp)]
    · exact (congrArg TileSt.busy htile).trans (congrArg TileSt.busy hrest :)
    · rw [hacc]
      exact TileSt.acc_setAcc_other x p _ (zeroRows_width p) q hq
    · exact (congrArg (fun m => m.get 0 (p.key r c)) hacc).trans
        ((TileSt.acc_setAcc x p hcol _ (zeroRows_width p) r c hr hc).trans (zeroRows_getD p r c))

end Sys2Proof.Machine

namespace Sys2Proof.Machine

open Claims

variable {s : State}

/-! The Dealer (R76 to R96, R204). -/

/-! Folds that set tiles, one after the other. -/

/-- Of the state only the tiles and the count of draws differ. -/
def OnlyTiles (s s' : State) : Prop := s' = { s with tiles := s'.tiles, freeCtr := s'.freeCtr }

theorem OnlyTiles.refl (s : State) : OnlyTiles s s := rfl

theorem OnlyTiles.trans {a b c : State} (h : OnlyTiles a b) (k : OnlyTiles b c) : OnlyTiles a c := by
  unfold OnlyTiles at *
  rw [h] at k
  exact k

theorem OnlyTiles.mem {s s' : State} (h : OnlyTiles s s') : s'.mem = s.mem := (congrArg State.mem h :).trans rfl

theorem OnlyTiles.dealers {s s' : State} (h : OnlyTiles s s') : s'.dealers = s.dealers := (congrArg State.dealers h :).trans rfl

theorem OnlyTiles.queue {s s' : State} (h : OnlyTiles s s') (d q : Nat) : s'.queue d q = s.queue d q := by
  rw [State.queue, State.dealer, h.dealers]; rfl

theorem OnlyTiles.setTile (s : State) (u : Nat) (y : TileSt) : OnlyTiles s (s.setTile u y) := rfl

/-- A fold whose every step sets one tile of its own. -/
theorem foldTiles {α : Type} {key : α → Nat} {f : State → α → State} (hrest : ∀ s a, OnlyTiles s (f s a))
    (hother : ∀ s a u, u ≠ key a → (f s a).tile u = s.tile u) : ∀ (l : List α), (l.map key).Nodup → ∀ s : State,
      OnlyTiles s (l.foldl f s) ∧ (∀ u, u ∉ l.map key → (l.foldl f s).tile u = s.tile u)
        ∧ ∀ a ∈ l, ∃ s0, OnlyTiles s s0 ∧ s0.tile (key a) = s.tile (key a) ∧ (l.foldl f s).tile (key a) = (f s0 a).tile (key a)
  | [], _, s => ⟨.refl s, fun _ _ => rfl, fun a ha => nomatch ha⟩
  | a :: l, hn, s => by
    obtain ⟨ha, hl⟩ := List.nodup_cons.1 hn
    obtain ⟨hr, ho, hm⟩ := foldTiles hrest hother l hl (f s a)
    refine ⟨(hrest s a).trans hr, fun u hu => ?_, fun b hb => ?_⟩
    · obtain ⟨hua, hul⟩ := not_or.1 (fun h => hu (List.mem_cons.2 h))
      rw [List.foldl_cons, ho u hul, hother s a u hua]
    · rcases List.mem_cons.1 hb with rfl | hb
      · exact ⟨s, .refl s, rfl, ho _ ha⟩
      · obtain ⟨s0, h0, ht, he⟩ := hm b hb
        have hne : key b ≠ key a := fun h => ha (h ▸ List.mem_map_of_mem hb)
        exact ⟨s0, (hrest s a).trans h0, ht.trans (hother s a _ hne), he⟩

/-- The tiles of a mask, each at its place. -/
theorem tiles_keys_nodup (d mask n : Nat) : ((maskBits mask n).zipIdx.map (fun p => 12 * d + p.1)).Nodup := by
  have hmap : (maskBits mask n).zipIdx.map (fun p => 12 * d + p.1) = (maskBits mask n).map (12 * d + ·) :=
    List.map_map.symm.trans (congrArg _ (List.zipIdx_map_fst 0 _))
  rw [hmap]
  exact (List.nodup_range.filter _).map fun a b h => Nat.add_left_cancel h

theorem not_mem_keys {ts : List Nat} {d u : Nat} (h : ∀ i ∈ ts, u ≠ 12 * d + i) : u ∉ ts.zipIdx.map (fun p => 12 * d + p.1) := by
  intro hu
  obtain ⟨p, hp, rfl⟩ := List.mem_map.1 hu
  exact h _ (List.fst_mem_of_mem_zipIdx hp) rfl

theorem mem_zipIdx_of_getElem? {ts : List Nat} {i t : Nat} (h : ts[i]? = some t) : (t, i) ∈ ts.zipIdx :=
  List.mem_zipIdx_iff_getElem?.2 h

/-! The start of a hand (R26, R75, R123, R442). -/

/-- What a tile is at the start of a hand. -/
structure HandStarted (h : HandStart) (y : TileSt) : Prop where
  run : y.run = .running
  pc : y.pc = 1
  v : y.v = []
  p : y.p = []
  e : y.e = []
  loops : y.loops = []
  dmas : y.dmas = []
  sums : y.regs.sums = .zeros
  ramp : y.pwr.ramp = some 0
  s : y.s = SMap.setRange 0 [] 1 h.params
  hand : ∃ k, y.hand = some k ∧ k.job = h.job ∧ k.record = h.record ∧ k.phase = h.phase ∧ k.gen = h.gen

theorem anteSet_ramp (p : TilePower) (phase density : Nat) : (anteSet p phase density).ramp = p.ramp := by
  unfold anteSet
  split
  · split <;> rfl
  · rfl

theorem start_ramp (p : TilePower) (phase : Nat) (density : Option Nat) : (p.start phase density).ramp = some 0 := by
  cases density with
  | none => rfl
  | some n => exact anteSet_ramp _ _ _

theorem load_sums (r : TileRegs) (entry : Option Nat) (seed : W64) (phase : Nat) : (r.load entry seed phase).sums = .zeros := by
  cases entry <;> rfl

theorem startHand_started (s : State) (u : Nat) (h : HandStart) : HandStarted h ((s.startHand u h).tile u) := by
  rw [State.startHand]
  rw [State.tile_setTile_same]
  exact ⟨rfl, rfl, rfl, rfl, rfl, rfl, rfl, load_sums _ _ _ _, start_ramp _ _ _, rfl, _, rfl, rfl, rfl, rfl, rfl⟩

theorem startHand_other (s : State) {u k : Nat} (h : HandStart) (hk : k ≠ u) : (s.startHand u h).tile k = s.tile k := by
  rw [State.startHand]
  rw [State.tile_setTile, if_neg hk]

/-- The five parameters of a generated hand are its scalar registers 1 to 5. -/
theorem HandStarted.sreg {h : HandStart} {y : TileSt} (hy : HandStarted h y) {r : BitVec 5} (h1 : 1 ≤ r.toNat)
    (h2 : r.toNat < 1 + h.params.length) : y.sreg r = h.params.getD (r.toNat - 1) 0 := by
  have hr : r ≠ 0 := fun h0 => by rw [h0] at h1; exact absurd h1 (by decide)
  rw [TileSt.sreg, if_neg hr, hy.s, SMap.get_setRange, if_pos ⟨h1, h2⟩]

/-! A set of hands of a generated record (R84). -/

/-- One step of a set: the start of the hand of tile `q.1`, at place `q.2` of the mask. -/
def setHand (j record : Nat) (p : GenPlan) (units : Nat) (w : W64) (q : Nat × Nat) : HandStart :=
  { job := j, record := record, phase := p.rec_.phase, id := w, count := 0,
    gen := some { p with ordinal := q.2, ntiles := p.rec_.tiles.length, first := (share units p.rec_.tiles.length q.2).1,
                         count := (share units p.rec_.tiles.length q.2).2 },
    params := [q.2, p.rec_.tiles.length, p.m, p.n, p.k].map (BitVec.ofNat 64), slots := [], descs := [] }

/-- What a set of hands leaves: the tiles of the mask that have units run their share, no other tile changes. -/
def SetStarted (s : State) (d j record : Nat) (p : GenPlan) (units : Nat) (m : State) : Prop :=
  OnlyTiles s m ∧ (∀ u, (∀ i ∈ p.rec_.tiles, u ≠ 12 * d + i) → m.tile u = s.tile u)
    ∧ ∀ i t, p.rec_.tiles[i]? = some t →
        ((share units p.rec_.tiles.length i).2 = 0 → m.tile (12 * d + t) = s.tile (12 * d + t))
          ∧ ((share units p.rec_.tiles.length i).2 ≠ 0 → ∃ w, HandStarted (setHand j record p units w (t, i)) (m.tile (12 * d + t)))

theorem startSet_spec (s : State) (d j record : Nat) (p : GenPlan) (units : Nat) :
    SetStarted s d j record p units (s.startSet d j record p units) := by
  let step (s : State) (q : Nat × Nat) : State :=
    if (share units p.rec_.tiles.length q.2).2 = 0 then s
    else { s with freeCtr := s.freeCtr + 1 }.startHand (12 * d + q.1) (setHand j record p units (Config.freeWord s.freeCtr) q)
  have hrest : ∀ s q, OnlyTiles s (step s q) := fun s q => by
    dsimp only [step]
    split
    · exact .refl s
    · exact rfl
  have hother : ∀ s q u, u ≠ 12 * d + q.1 → (step s q).tile u = s.tile u := fun s q u hu => by
    dsimp only [step]
    split
    · rfl
    · exact startHand_other _ _ hu
  obtain ⟨hr, ho, hm⟩ := foldTiles (key := fun q : Nat × Nat => 12 * d + q.1) hrest hother p.rec_.tiles.zipIdx
    (tiles_keys_nodup d _ _) s
  refine ⟨hr, fun u hu => ho u (not_mem_keys hu), fun i t ht => ?_⟩
  obtain ⟨s0, -, hs0, he⟩ := hm (t, i) (mem_zipIdx_of_getElem? ht)
  have hstep : (s.startSet d j record p units).tile (12 * d + t) = (step s0 (t, i)).tile (12 * d + t) := he
  refine ⟨fun h0 => ?_, fun h0 => ⟨Config.freeWord s0.freeCtr, ?_⟩⟩
  · rw [hstep]
    dsimp only [step]
    rw [if_pos h0]
    exact hs0
  · rw [hstep]
    dsimp only [step]
    rw [if_neg h0]
    exact startHand_started _ _ _

/-! The queue of a record. -/

theorem queue_setQueue_same (s : State) (d q : Nat) (x : DealQueue) : (s.setQueue d q x).queue d q = x := by
  rw [State.queue, State.setQueue, State.dealer_modDealer_same]
  exact SMap.get_set_same _ _ _ _

/-- A dealt record moves its queue on, and round robin remembers its job. -/
theorem dealt_spec (s : State) (d q : Nat) : s.dealt d q = { s with dealers := (s.dealt d q).dealers }
    ∧ (s.dealt d q).queue d q = { s.queue d q with next := (s.queue d q).next + 1 } := by
  have hset := queue_setQueue_same s d q { s.queue d q with next := (s.queue d q).next + 1 }
  unfold State.dealt
  dsimp only
  split
  · next y _ =>
    refine ⟨rfl, ?_⟩
    rw [State.queue, State.dealer_modDealer_same]
    split <;> exact hset
  · exact ⟨rfl, hset⟩

/-- A rejected record: DLR.REJECT unless it holds a rejection, and the job's fault (R96). -/
theorem dealReject_spec (s : State) (d q j macroId tile : Nat) (c : Code) :
    let m := s.dealReject d j macroId tile c
    m.queue d q = s.queue d q ∧ m.tiles = s.tiles
      ∧ (m.dealer d).reject = (if (s.dealer d).reject.valid then (s.dealer d).reject else ⟨BitVec.ofNat 32 macroId, true, tile, c⟩)
      ∧ ∀ y, s.job j = some y → m.job j = some { y with fault := some (y.fault.getD c) } := by
  intro m
  have hdealer : m.dealer d = if (s.dealer d).reject.valid then s.dealer d
      else { s.dealer d with reject := ⟨BitVec.ofNat 32 macroId, true, tile, c⟩ } := by
    show State.dealer (State.jobFaults _ _ _ _) d = _
    rw [State.dealer_jobFaults, State.dealer_modDealer_same]
  refine ⟨?_, State.jobFaults_tiles _ _ _ _, ?_, fun y hy => job_jobFaults _ _ _ _ _ hy⟩
  · rw [State.queue, hdealer]
    split <;> rfl
  · rw [hdealer]
    split <;> rfl

/-! The dealing of a record (R76 to R96). -/

section Deal

variable {d : Die} {q : Nat}

/-- What a Dealer does with a record, by its operation. -/
def dealRecord (opc : Nat) (d q : Nat) (r : DealRec) (s : State) : State :=
  match opc with
  | 0x0E => s.dealSync d q r
  | 0x0F => s.dealRaw d q r
  | _ => s.dealGenerated d q r

/-- A head record of the operation named, resident and of a known header, is dealt by its operation's rule. -/
theorem deal_eq {opc : Nat} (hq : s.dealPick d = some q) (hpage : s.absentPages (s.queue d q).head 128 = [])
    (hhdr : hdrOk (dealOf (s.readMem (s.queue d q).head 128)).hdr 0x41 = true)
    (hmem : (dealOf (s.readMem (s.queue d q).head 128)).opc ∈ dealOpcs)
    (hopc : (dealOf (s.readMem (s.queue d q).head 128)).opc = opc) :
    deal opc d s = dealRecord opc d q (dealOf (s.readMem (s.queue d q).head 128)) s := by
  have hknown : (!hdrOk (dealOf (s.readMem (s.queue d q).head 128)).hdr 0x41
      || !dealOpcs.contains (dealOf (s.readMem (s.queue d q).head 128)).opc) = false := by
    rw [hhdr, List.contains_iff_mem.2 hmem]; rfl
  have hsame : ((dealOf (s.readMem (s.queue d q).head 128)).opc != opc) = false := by
    rw [hopc, bne_self_eq_false]
  unfold deal
  simp only [hq, hpage, hknown, hsame, Bool.false_eq_true, if_false]
  rfl

/-- Bytes of the precision control entry that a record reads. -/
def precReads (s : State) (j phase : Nat) : List (Nat × Nat) :=
  match s.precEntry j phase with
  | some a => [(a, 8)]
  | none => []

/-- Pages that the Dealer reads for a record with hands of its own are all resident. -/
def ReadsResident (s : State) (d : Die) (j : Nat) (r : DealRec) : Prop :=
  s.absentOf (boundSpan r.bM ++ boundSpan r.bN ++ boundSpan r.bK ++ precReads s j r.phase ++ (s.recordCheck d j r).2.1.reads) = []

/-- The plan of a record's hands. -/
def dealPlan (r : DealRec) (c : List (Bool × Code) × OpCheck × Bounds) (density : Nat) : GenPlan :=
  { record := r.raw, aux := c.2.1.aux, pieces := c.2.1.pieces, m := c.2.2.m, n := c.2.2.n, k := c.2.2.k,
    ordinal := 0, ntiles := 0, first := 0, count := 0, set := 0, density := density }

variable {r : DealRec} (habs : ReadsResident s d (s.queue d q).job r)

include habs

theorem dealGenerated_reject {c : Code} (h : lowest (s.recordCheck d (s.queue d q).job r).1 = some c) :
    s.dealGenerated d q r = s.dealReject d (s.queue d q).job r.macroId 0xF c := by
  unfold State.dealGenerated
  dsimp only
  split
  · next he => exact nomatch habs.symm.trans he
  · rw [h]

variable (h : lowest (s.recordCheck d (s.queue d q).job r).1 = none)

include h

theorem dealGenerated_empty (hempty : (s.recordCheck d (s.queue d q).job r).2.1.empty = true) :
    s.dealGenerated d q r = s.dealt d q := by
  unfold State.dealGenerated
  dsimp only
  split
  · next he => exact nomatch habs.symm.trans he
  · rw [h]
    exact if_pos hempty

/-- The hands of a record, of set 0: the density may be a draw. -/
theorem dealGenerated_hands (hempty : (s.recordCheck d (s.queue d q).job r).2.1.empty = false) : ∃ w k,
    s.dealGenerated d q r = (if r.opc = 3 then
      (State.startSet { s.dealt d q with freeCtr := k } d (s.queue d q).job (s.queue d q).next
          (dealPlan r (s.recordCheck d (s.queue d q).job r) w) (dealPlan r (s.recordCheck d (s.queue d q).job r) w).setUnits).setQueue d q
        { (s.dealt d q).queue d q with inHand := some ⟨0, dealPlan r (s.recordCheck d (s.queue d q).job r) w⟩ }
      else State.startSet { s.dealt d q with freeCtr := k } d (s.queue d q).job (s.queue d q).next
        (dealPlan r (s.recordCheck d (s.queue d q).job r) w) (s.recordCheck d (s.queue d q).job r).2.1.units) := by
  unfold State.dealGenerated
  dsimp only
  split
  · next he => exact nomatch habs.symm.trans he
  · rw [h]
    dsimp only
    rw [hempty]
    cases (s.recordCheck d (s.queue d q).job r).2.1.density with
    | some n => exact ⟨n, (s.dealt d q).freeCtr, rfl⟩
    | none => exact ⟨1 + (Config.freeWord (s.dealt d q).freeCtr).toNat % 64, (s.dealt d q).freeCtr + 1, rfl⟩

end Deal

/-! SYNC (R79). -/

section Sync

variable {d q : Nat} {r : DealRec}

theorem dealSync_reject {c : Code} (h : lowest (s.commonCodes d (s.queue d q).job r) = some c) :
    s.dealSync d q r = s.dealReject d (s.queue d q).job r.macroId 0xF c := by
  unfold State.dealSync
  simp only [h]

theorem dealSync_counts (h : lowest (s.commonCodes d (s.queue d q).job r) = none) :
    (s.dealSync d q r).tiles = s.tiles
      ∧ (s.dealSync d q r).queue d q = { s.queue d q with next := (s.queue d q).next + 1, syncs := (s.queue d q).syncs + 1 } := by
  obtain ⟨hrest, hqueue⟩ := dealt_spec s d q
  have heq : s.dealSync d q r = (s.dealt d q).setQueue d q { (s.dealt d q).queue d q with syncs := (s.queue d q).syncs + 1 } := by
    unfold State.dealSync
    simp only [h]
  rw [heq, queue_setQueue_same, hqueue]
  exact ⟨(congrArg State.tiles hrest :).trans rfl, rfl⟩

end Sync

/-! RAW_HAND (R79, R87 to R96). -/

section Raw

variable {d q : Nat} {r : DealRec}

theorem postCmds_rest (s : State) (t j : Nat) (id : W64) (cmds : List (List Byte)) :
    (s.postCmds t j id cmds).tiles = s.tiles ∧ (s.postCmds t j id cmds).dealers = s.dealers := by
  unfold State.postCmds
  exact ⟨fold_same _ State.tiles (by intro _ _; rfl) cmds s, fold_same _ State.dealers (by intro _ _; rfl) cmds s⟩

/-- The start of the hand of an image on tile `t.1`, at place `t.2` of the mask. -/
def rawHand (d j record phase : Nat) (ntiles : Nat) (im : Image) (s : State) (t : Nat × Nat) : State :=
  let h := handHeader (im.slots.headD 0)
  (s.modTile (12 * d + t.1) (fun y =>
    { y with spad := y.spad.setRange 0 spadFree (im.descs.flatMap (fun x => natLe 64 x.toNat)) })).startHand (12 * d + t.1)
    { job := j, record := record, phase := phase, id := h.id, count := h.count, gen := none,
      params := [BitVec.ofNat 64 t.2, BitVec.ofNat 64 ntiles] ++ ((planOf im.plan).params.drop 2).map (BitVec.ofNat 64),
      slots := im.slots.map (BitVec.ofNat 128), descs := im.descs }

theorem rawHand_rest (d j record phase ntiles : Nat) (im : Image) (s : State) (t : Nat × Nat) :
    OnlyTiles s (rawHand d j record phase ntiles im s t) := rfl

theorem rawHand_other (d j record phase ntiles : Nat) (im : Image) (s : State) (t : Nat × Nat) (u : Nat) (hu : u ≠ 12 * d + t.1) :
    (rawHand d j record phase ntiles im s t).tile u = s.tile u :=
  (startHand_other _ _ hu).trans (by rw [State.tile_modTile, if_neg hu])

/-- The hands of an image, one on each tile of the mask; the commands of the image are posted first. -/
theorem rawHands_spec (s : State) (d j record phase ntiles : Nat) (im : Image) (mask n : Nat) (id : W64) (cmds : List (List Byte)) :
    let ts := maskBits mask n
    let m := ts.zipIdx.foldl (rawHand d j record phase ntiles im) (ts.foldl (fun m t => m.postCmds (12 * d + t) j id cmds) s)
    (∀ e q, m.queue e q = s.queue e q) ∧ (∀ u, (∀ i ∈ ts, u ≠ 12 * d + i) → m.tile u = s.tile u)
      ∧ ∀ t ∈ ts, ∃ h : HandStart, HandStarted h (m.tile (12 * d + t)) ∧ h.job = j ∧ h.gen = none ∧ h.phase = phase := by
  intro ts m
  have htiles : (ts.foldl (fun m t => m.postCmds (12 * d + t) j id cmds) s).tiles = s.tiles :=
    fold_same _ State.tiles (fun s t => (postCmds_rest s _ _ _ _).1) ts s
  have hdealers : (ts.foldl (fun m t => m.postCmds (12 * d + t) j id cmds) s).dealers = s.dealers :=
    fold_same _ State.dealers (fun s t => (postCmds_rest s _ _ _ _).2) ts s
  obtain ⟨hr, ho, hm⟩ := foldTiles (key := fun q : Nat × Nat => 12 * d + q.1) (rawHand_rest d j record phase ntiles im)
    (rawHand_other d j record phase ntiles im) ts.zipIdx (tiles_keys_nodup d mask n) (ts.foldl (fun m t => m.postCmds (12 * d + t) j id cmds) s)
  refine ⟨fun e q => (hr.queue e q).trans (by rw [State.queue, State.dealer, hdealers]; rfl), fun u hu => (ho u (not_mem_keys hu)).trans (by rw [State.tile, htiles]; rfl), fun t ht => ?_⟩
  obtain ⟨i, hi⟩ := List.getElem?_of_mem ht
  obtain ⟨s0, -, -, he⟩ := hm (t, i) (mem_zipIdx_of_getElem? hi)
  have hstart := startHand_started (s0.modTile (12 * d + t) (fun y =>
    { y with spad := y.spad.setRange 0 spadFree (im.descs.flatMap (fun x => natLe 64 x.toNat)) })) (12 * d + t)
    { job := j, record := record, phase := phase, id := (handHeader (im.slots.headD 0)).id, count := (handHeader (im.slots.headD 0)).count,
      gen := none, params := [BitVec.ofNat 64 i, BitVec.ofNat 64 ntiles] ++ ((planOf im.plan).params.drop 2).map (BitVec.ofNat 64),
      slots := im.slots.map (BitVec.ofNat 128), descs := im.descs }
  exact ⟨_, he ▸ hstart, rfl, rfl, rfl⟩

/-- A RAW_HAND record that passes its checks, with its image. -/
theorem dealRaw_starts
    (habs : s.absentOf (precReads s (s.queue d q).job r.phase ++ [(r.aux, 272)] ++ s.imageSpans r.aux) = [])
    (hin : ((r.aux, 272) :: (s.imageSpans r.aux).take 1).all (fun p => (s.checkRange (.job (s.queue d q).job) p.1 p.2).isNone) = true)
    (hrec : lowest (s.commonCodes d (s.queue d q).job r ++ s.precCodes (s.queue d q).job r ++ [(false, Codes.addrWindow)]) = none)
    (him : lowest (s.imageCodes (s.queue d q).job (s.imageAt (s.queue d q).job r.aux)) = none) :
    let im := s.imageAt (s.queue d q).job r.aux
    s.dealRaw d q r = r.tiles.zipIdx.foldl (rawHand d (s.queue d q).job (s.queue d q).next r.phase r.tiles.length im)
      (r.tiles.foldl (fun m t => m.postCmds (12 * d + t) (s.queue d q).job (handHeader (im.slots.headD 0)).id
        (im.cmds.filterMap (fun c => c))) (s.dealt d q)) := by
  intro im
  have hnone : ∀ o : Option Code, o.isSome = !o.isNone := fun o => by cases o <;> rfl
  rw [List.all_cons, Bool.and_eq_true] at hin
  obtain ⟨hhead, himage⟩ := hin
  have hhead' : [(r.aux, 272)].any (fun p => (s.checkRange (.job (s.queue d q).job) p.1 p.2).isSome) = false := by
    rw [List.any_cons, hnone, hhead]; rfl
  have himage' : ((s.imageSpans r.aux).take 1).any (fun p => (s.checkRange (.job (s.queue d q).job) p.1 p.2).isSome) = false := by
    rw [List.any_eq_not_all_not]
    simp only [hnone, Bool.not_not, himage, Bool.not_true]
  unfold State.dealRaw
  simp only [hhead', himage', Bool.not_false, if_true, Bool.or_false, Bool.not_true, Bool.and_true]
  split
  · next he => exact nomatch habs.symm.trans he
  · rw [hrec, him]
    rfl

end Raw

/-- What a set of hands leaves after a dealt record, in the words of O22. -/
theorem setStarted_dealt {d q j record units k : Nat} {p : GenPlan} {m : State}
    (h : SetStarted { s.dealt d q with freeCtr := k } d j record p units m) :
    m.mem = s.mem ∧ (∀ u, (∀ i ∈ p.rec_.tiles, u ≠ 12 * d + i) → m.tile u = s.tile u)
      ∧ ∀ i t, p.rec_.tiles[i]? = some t →
          ((share units p.rec_.tiles.length i).2 = 0 → m.tile (12 * d + t) = s.tile (12 * d + t))
            ∧ ((share units p.rec_.tiles.length i).2 ≠ 0 → ∃ w, HandStarted (setHand j record p units w (t, i)) (m.tile (12 * d + t))) := by
  obtain ⟨hdealt, -⟩ := dealt_spec s d q
  obtain ⟨hrest, hother, hset⟩ := h
  have htile : ∀ u, State.tile { s.dealt d q with freeCtr := k } u = s.tile u := fun u => by rw [hdealt]; rfl
  refine ⟨hrest.mem.trans (by rw [hdealt]), fun u hu => (hother u hu).trans (htile u), fun i t ht => ?_⟩
  obtain ⟨hnone, hsome⟩ := hset i t ht
  exact ⟨fun h0 => (hnone h0).trans (htile _), hsome⟩

/-- Settles O22: a record is dealt by its operation's rule (`deal_eq`), and its hands are a fold over the tiles of its mask. -/
theorem dealRecords : Obligations.DealRecords := by
  unfold Obligations.DealRecords
  intro s d q hq x r prec check ready started rejects
  have rejected : ∀ {i : Instr} {codes : List (Bool × Code)} {m : State}, exec i s = .next m →
      (∀ c, lowest codes = some c → m = s.dealReject d x.job r.macroId 0xF c) → rejects i codes := by
    intro i codes m he hm c hc
    obtain ⟨hqueue, htiles, hreject, hjob⟩ := dealReject_spec s d q x.job r.macroId 0xF c
    exact ⟨m, he, by rw [hm c hc]; exact ⟨hqueue, htiles, hreject, hjob⟩⟩
  have starts : ∀ {units k w : Nat} {m : State},
      SetStarted { s.dealt d q with freeCtr := k } d x.job x.next (dealPlan r check w) units m → started units 0 m := by
    intro units k w m h
    obtain ⟨hmem, hother, hset⟩ := setStarted_dealt h
    refine ⟨hmem, hother, fun i t ht => ?_⟩
    obtain ⟨hnone, hsome⟩ := hset i t ht
    refine ⟨hnone, fun h0 => ?_⟩
    obtain ⟨w', hy⟩ := hsome h0
    obtain ⟨hand, hhand, hjob, hrecord, hphase, hgen⟩ := hy.hand
    exact ⟨hy.run, hy.pc, hy.v, hy.p, hy.e, hy.loops, hy.dmas, hy.sums, hy.ramp,
      hy.sreg (r := 1) (by decide) (show (1 : BitVec 5).toNat < 6 by decide), hy.sreg (r := 2) (by decide) (show (2 : BitVec 5).toNat < 6 by decide), hy.sreg (r := 3) (by decide) (show (3 : BitVec 5).toNat < 6 by decide),
      hy.sreg (r := 4) (by decide) (show (4 : BitVec 5).toNat < 6 by decide), hy.sreg (r := 5) (by decide) (show (5 : BitVec 5).toNat < 6 by decide),
      hand, _, hhand, hjob, hrecord, hphase, hgen, rfl, rfl, rfl, rfl, rfl⟩
  have hqueue := (dealt_spec s d q).2
  refine ⟨fun i op hi hopc hready => ?generated, fun hopc hready => ?backward, fun hopc hready => ?sync,
    fun hopc hpage hhdr habs hin hrec him => ?raw⟩
  case generated =>
    obtain ⟨hpage, hhdr, hmem, habs⟩ := hready
    have hdeal := deal_eq hq hpage hhdr hmem hopc
    have hexec : exec i s = .next (deal op d s) ∧ dealRecord op d q r s = s.dealGenerated d q r ∧ op ≠ 3 := by
      simp only [List.mem_cons, Prod.mk.injEq, List.not_mem_nil, or_false] at hi
      rcases hi with ⟨rfl, rfl⟩ | ⟨rfl, rfl⟩ | ⟨rfl, rfl⟩ | ⟨rfl, rfl⟩ | ⟨rfl, rfl⟩ | ⟨rfl, rfl⟩ <;> exact ⟨rfl, rfl, by decide⟩
    obtain ⟨hexec, hgen, hne⟩ := hexec
    refine ⟨rejected hexec fun c hc => hdeal.trans (hgen.trans (dealGenerated_reject habs hc)), fun hlow => ⟨_, hexec, ?_⟩⟩
    rw [hdeal.trans hgen]
    cases hempty : check.2.1.empty with
    | true =>
      rw [dealGenerated_empty habs hlow hempty]
      exact ⟨hqueue, fun _ => by rw [(dealt_spec s d q).1], fun h => absurd h (by decide)⟩
    | false =>
      obtain ⟨w, k, hhands⟩ := dealGenerated_hands habs hlow hempty
      rw [if_neg (hopc ▸ hne)] at hhands
      have hset := startSet_spec { s.dealt d q with freeCtr := k } d x.job x.next (dealPlan r check w) check.2.1.units
      rw [hhands]
      exact ⟨(hset.1.queue d q).trans hqueue, fun h => absurd h (by decide), fun _ => starts hset⟩
  case backward =>
    obtain ⟨hpage, hhdr, hmem, habs⟩ := hready
    have hdeal := deal_eq hq hpage hhdr hmem hopc
    refine ⟨rejected rfl fun c hc => hdeal.trans (dealGenerated_reject habs hc), fun hlow hempty => ?_⟩
    obtain ⟨w, k, hhands⟩ := dealGenerated_hands habs hlow hempty
    rw [if_pos hopc] at hhands
    have hset := starts (startSet_spec { s.dealt d q with freeCtr := k } d x.job x.next (dealPlan r check w)
      (dealPlan r check w).setUnits)
    refine ⟨_, congrArg Host.Outcome.next (hdeal.trans hhands), hset, ?_⟩
    rw [queue_setQueue_same, hqueue]
    exact ⟨rfl, _, rfl, rfl⟩
  case sync =>
    obtain ⟨hpage, hhdr, hmem, -⟩ := hready
    have hdeal := deal_eq hq hpage hhdr hmem hopc
    refine ⟨rejected rfl fun c hc => hdeal.trans (dealSync_reject hc), fun hlow => ?_⟩
    obtain ⟨htiles, hq'⟩ := dealSync_counts hlow
    exact ⟨_, congrArg Host.Outcome.next hdeal, htiles, hq'⟩
  case raw =>
    have hdeal := deal_eq hq hpage hhdr (by rw [hopc]; decide) hopc
    obtain ⟨hqueues, hother, hstart⟩ := rawHands_spec (s.dealt d q) d x.job x.next r.phase r.tiles.length (s.imageAt x.job r.aux)
      r.mask 12 (handHeader ((s.imageAt x.job r.aux).slots.headD 0)).id ((s.imageAt x.job r.aux).cmds.filterMap (fun c => c))
    have htile : ∀ u, (s.dealt d q).tile u = s.tile u := fun u => by rw [(dealt_spec s d q).1]; rfl
    refine ⟨_, congrArg Host.Outcome.next (hdeal.trans (dealRaw_starts habs hin hrec him)), (hqueues d q).trans hqueue,
      fun u hu => (hother u hu).trans (htile u), fun t ht => ?_⟩
    obtain ⟨h, hy, hjob, hgen, hphase⟩ := hstart t ht
    obtain ⟨hand, hhand, hj, -, hp, hg⟩ := hy.hand
    exact ⟨hy.run, hy.pc, hand, hhand, hj.trans hjob, hg.trans hgen, hp.trans hphase⟩

end Sys2Proof.Machine

namespace Sys2Proof.Machine

open Claims

variable {s : State}

/-! Stack-engine commands (R185, R295 to R303). -/

/-! The two ways in which a command reaches its engine (R296). -/

/-- The command of the conductor, or the front one of the engine's queue; what is done with the state that a command leaves
(`fin`), and with that of a command that waits (`hold`). -/
def Delivers (s : State) (k : Stack) (src : SeSrc) (job : Nat) (hand : Bool) (cmd : BitVec 512) (fin hold : State → State) : Prop :=
  (src = .conductor job cmd ∧ hand = false ∧ fin = id ∧ hold = id)
    ∨ (∃ q rest, src = .queued ∧ (s.stack k).queue = q :: rest ∧ q.done = false ∧ q.job = job ∧ q.tile.isSome = hand
        ∧ q.cmd = cmd ∧ (hold = fun m => m.modStack k (fun x => { x with queue := { q with waiting := true } :: x.queue.drop 1 }))
        ∧ fin = fun m => m.modStack k (fun x => { x with queue := { q with done := true, waiting := false } :: x.queue.drop 1 }))

section Delivery

variable {k : Stack} {src : SeSrc} {job op : Nat} {hand : Bool} {cmd : BitVec 512} {fin hold : State → State} {m : State}

theorem seStep_done (h : Delivers s k src job hand cmd fin hold) (hop : (seOf cmd).op = op)
    (hrun : s.seRun k job hand (seOf cmd) = .done m) : seStep op k src s = fin m := by
  have hne : ((seOf cmd).op != op) = false := by rw [hop, bne_self_eq_false]
  rcases h with ⟨rfl, rfl, rfl, rfl⟩ | ⟨q, rest, rfl, hqueue, hdone, rfl, rfl, rfl, rfl, rfl⟩
  · simp only [seStep, State.seDirect, hne, hrun]
    rfl
  · simp only [seStep, State.seFront, hqueue, hdone, hne, hrun]
    rfl

theorem seStep_wait (h : Delivers s k src job hand cmd fin hold) (hop : (seOf cmd).op = op)
    (hrun : s.seRun k job hand (seOf cmd) = .wait m) : seStep op k src s = hold m := by
  have hne : ((seOf cmd).op != op) = false := by rw [hop, bne_self_eq_false]
  rcases h with ⟨rfl, rfl, rfl, rfl⟩ | ⟨q, rest, rfl, hqueue, hdone, rfl, rfl, rfl, rfl, rfl⟩
  · simp only [seStep, State.seDirect, hne, hrun]
    rfl
  · simp only [seStep, State.seFront, hqueue, hdone, hne, hrun]
    rfl

end Delivery

/-! WALK (R185). -/

/-- Rows in order, where each is permitted and has its effect. -/
theorem seRows_of (c : SeFields) (job : Nat) : ∀ (l : List Nat) (s : State),
    (∀ l1 r l2, l = l1 ++ r :: l2 →
      (l1.foldl (rowEff c) s).checkAccesses (seWho job) ((l1.foldl (rowEff c) s).seRowSpans c r) = none
        ∧ (l1.foldl (rowEff c) s).seRow c r = .ok (rowEff c (l1.foldl (rowEff c) s) r)) →
    s.seRows job c l = (l.foldl (rowEff c) s, none)
  | [], _, _ => rfl
  | r :: l, s, h => by
    obtain ⟨hcheck, hrow⟩ := h [] r l rfl
    have htail := seRows_of c job l (rowEff c s r) fun l1 r' l2 e => h (r :: l1) r' l2 (by rw [e]; rfl)
    simp only [List.foldl_nil] at hcheck hrow
    rw [State.seRows, hcheck, hrow]
    exact htail

/-- The page list of a WALK, and the position, the page entry, the address and the row of DST of its row `r`. -/
def walkList (s : State) (c : SeFields) : PageList := pageListOf (s.descAt c.aux)
def walkPos (c : SeFields) (r : Nat) : Nat := bitsOf c.src 31 0 + r
def walkEntry (s : State) (c : SeFields) (r : Nat) : Nat :=
  s.pageEntryAddr (walkList s c).seqBase (walkList s c).isV.toNat (walkList s c).layer (bitsOf c.src 39 32) (walkPos c r / 512)
def walkAddr (s : State) (c : SeFields) (r : Nat) : Nat :=
  (walkList s c).poolBase + s.readLe (walkEntry s c r) 4 * 65536 + walkPos c r % 512 * 128
def walkLen (s : State) (c : SeFields) : Nat := 128 * (walkList s c).elemBytes
def walkDst (c : SeFields) (r : Nat) : Nat := c.dst + r * c.dstLd

/-- Row `r` of a WALK finds its page through a valid entry (R185). -/
structure WalkRow (s : State) (c : SeFields) (job r : Nat) : Prop where
  inList : walkPos c r / 512 < (walkList s c).entries
  inPool : s.readLe (walkEntry s c r) 4 < (walkList s c).poolPages
  mapped : s.readLe (walkEntry s c r) 4 ≠ 0xFFFFFFFF
  permitted : s.checkRange (seWho job) (walkAddr s c r) (walkLen s c) = none
  resident : s.absentPages (walkAddr s c r) 128 = []

/-- The row that a WALK writes lies apart from the bytes that tell where its rows are. -/
structure WalkApart (s : State) (c : SeFields) (r : Nat) : Prop where
  list : walkDst c r + walkLen s c ≤ c.aux ∨ c.aux + 64 ≤ walkDst c r
  record : walkDst c r + walkLen s c ≤ (walkList s c).seqBase ∨ (walkList s c).seqBase + 64 ≤ walkDst c r
  entries : ∀ j < c.rows, walkDst c r + walkLen s c ≤ walkEntry s c j ∨ walkEntry s c j + 4 ≤ walkDst c r

/-- A state in which a WALK finds what it finds in `s`. -/
structure WalkKept (s : State) (c : SeFields) (y : State) : Prop where
  map : SameMap s y
  list : ∀ b, c.aux ≤ b → b < c.aux + 64 → y.mem.bytes.get 0 b = s.mem.bytes.get 0 b
  record : ∀ b, (walkList s c).seqBase ≤ b → b < (walkList s c).seqBase + 64 → y.mem.bytes.get 0 b = s.mem.bytes.get 0 b
  entries : ∀ j < c.rows, ∀ b, walkEntry s c j ≤ b → b < walkEntry s c j + 4 → y.mem.bytes.get 0 b = s.mem.bytes.get 0 b

section Walk

variable {c : SeFields} {job r : Nat} {y : State}

theorem WalkKept.descAt (h : WalkKept s c y) : y.descAt c.aux = s.descAt c.aux := by
  rw [State.descAt, readMem_ext s y c.aux 64 h.list]; rfl

/-- The fields of the sequence record that a page entry's address needs. -/
theorem WalkKept.entryAddr (h : WalkKept s c y) (kv layer head e : Nat) :
    y.pageEntryAddr (walkList s c).seqBase kv layer head e = s.pageEntryAddr (walkList s c).seqBase kv layer head e := by
  have hfield : ∀ o n, o + n ≤ 64 → y.readLe ((walkList s c).seqBase + o) n = s.readLe ((walkList s c).seqBase + o) n := fun o n ho => by
    rw [State.readLe, readMem_ext s y _ _ fun b h1 h2 => h.record b (by omega) (by omega)]; rfl
  rw [State.pageEntryAddr, State.pageEntryAddr, State.seqLayers, State.seqHeads, State.seqEntries, hfield 4 1 (by omega),
    hfield 5 1 (by omega), hfield 0x18 4 (by omega)]
  rfl

theorem WalkKept.posAddr (h : WalkKept s c y) (hr : r < c.rows) (hl : (walkList s c).locus = 0) (hrow : WalkRow s c job r) :
    y.posAddr (walkList s c) (bitsOf c.src 39 32) (walkPos c r) = .ok (1, walkAddr s c r) := by
  have hentry : y.readLe (walkEntry s c r) 4 = s.readLe (walkEntry s c r) 4 := by
    rw [State.readLe, readMem_ext s y _ _ (h.entries r hr)]; rfl
  unfold State.posAddr
  dsimp only
  rw [if_pos hl, if_neg (Nat.not_le.2 hrow.inList), h.entryAddr]
  rw [← walkEntry, hentry, if_neg hrow.mapped, if_neg (Nat.not_le.2 hrow.inPool), ← walkAddr, h.map.absentPages, if_pos hrow.resident]

theorem WalkKept.seRow (h : WalkKept s c y) (h9 : c.op = 9) (hr : r < c.rows) (hl : (walkList s c).locus = 0) (hrow : WalkRow s c job r) :
    y.seRow c r = .ok (y.writeMem (walkDst c r) (y.readMem (walkAddr s c r) (walkLen s c))) := by
  have hpos := h.posAddr hr hl hrow
  unfold State.seRow
  rw [h9]
  dsimp only
  rw [h.descAt, ← walkList, ← walkPos, hpos]
  rfl

theorem WalkKept.spans (h : WalkKept s c y) (h9 : c.op = 9) (hr : r < c.rows) (hl : (walkList s c).locus = 0) (hrow : WalkRow s c job r) :
    y.seRowSpans c r = [(walkAddr s c r, walkLen s c)] := by
  have hpos := h.posAddr hr hl hrow
  unfold State.seRowSpans
  rw [h9]
  dsimp only
  rw [h.descAt, ← walkList, ← walkPos, hpos]
  rfl

/-- A row keeps what the next rows find. -/
theorem WalkKept.write (h : WalkKept s c y) (hapart : WalkApart s c r) {bs : List Byte} (hbs : bs.length = walkLen s c) :
    WalkKept s c (y.writeMem (walkDst c r) bs) := by
  have hout : ∀ b, b < walkDst c r ∨ walkDst c r + walkLen s c ≤ b →
      (y.writeMem (walkDst c r) bs).mem.bytes.get 0 b = y.mem.bytes.get 0 b := fun b hb => by
    rw [State.byte_writeMem, if_neg (by rw [hbs]; omega)]
  have hlist := hapart.list
  have hrecord := hapart.record
  refine ⟨h.map.trans (sameMap_writeMem _ _ _), fun b h1 h2 => ?_, fun b h1 h2 => ?_, fun j hj b h1 h2 => ?_⟩
  · rw [hout b (by omega), h.list b h1 h2]
  · rw [hout b (by omega), h.record b h1 h2]
  · have hentry := hapart.entries j hj
    rw [hout b (by omega), h.entries j hj b h1 h2]

theorem rowsAfter_walk (h9 : c.op = 9) (hl : (walkList s c).locus = 0) (hrows : ∀ r < c.rows, WalkRow s c job r)
    (hapart : ∀ r < c.rows, WalkApart s c r) : ∀ r ≤ c.rows, WalkKept s c (rowsAfter c s r) := by
  intro r
  induction r with
  | zero => exact fun _ => ⟨.refl s, fun _ _ _ => rfl, fun _ _ _ => rfl, fun _ _ _ _ _ => rfl⟩
  | succ r ih =>
    intro hr
    have hkept := ih (by omega)
    have hlen : ((rowsAfter c s r).readMem (walkAddr s c r) (walkLen s c)).length = walkLen s c := readMem_len _ _ _
    rw [rowsAfter_succ, rowEff, hkept.seRow h9 hr hl (hrows r hr)]
    exact hkept.write (hapart r hr) hlen

/-- A range of the unified memory that a command may use at once. -/
def SpanOk (s : State) (job a n : Nat) : Prop := s.checkRange (seWho job) a n = none ∧ s.absentPages a n = []

theorem seRun_walk {k : Nat} {hand : Bool} (hv : c.valid hand = true) (h9 : c.op = 9) (hhdr : hdrOk (descHdr (s.descAt c.aux)) 0x11 = true)
    (hlist : s.pageListValid (s.descAt c.aux) = true) (hl : (walkList s c).locus = 0) (haux : SpanOk s job c.aux 64)
    (hrecord : SpanOk s job (walkList s c).seqBase 64) (hrows : ∀ r < c.rows, WalkRow s c job r)
    (hdst : ∀ r < c.rows, SpanOk s job (walkDst c r) (walkLen s c)) (hapart : ∀ r < c.rows, WalkApart s c r) :
    s.seRun k job hand c = .done (rowsAfter c s c.rows) := by
  have hpaged : pagedList (s.descAt c.aux) = true := beq_iff_eq.2 hl
  have hspans : ∀ p ∈ [((walkList s c).seqBase, 64)] ++ (List.range c.rows).flatMap (fun r => [(walkDst c r, walkLen s c)]),
      SpanOk s job p.1 p.2 := by
    intro p hp
    rcases List.mem_append.1 hp with hp | hp
    · rw [List.mem_singleton.1 hp]; exact hrecord
    · obtain ⟨r, hr, hp⟩ := List.mem_flatMap.1 hp
      rw [List.mem_singleton.1 hp]
      exact hdst r (List.mem_range.1 hr)
  have habs : s.absentOf ([(c.aux, 64)] ++ [((walkList s c).seqBase, 64)]
      ++ (List.range c.rows).flatMap (fun r => [(walkDst c r, walkLen s c)])) = [] := by
    refine absentOf_nil s _ fun p hp => ?_
    rw [List.append_assoc] at hp
    rcases List.mem_append.1 hp with hp | hp
    · rw [List.mem_singleton.1 hp]; exact haux.2
    · exact (hspans p hp).2
  have hacc := checkAccesses_none s (seWho job) _ fun p hp => (hspans p hp).1
  have hseRows : s.seRows job c (List.range c.rows) = (rowsAfter c s c.rows, none) := by
    refine seRows_of c job _ s fun l1 r l2 hsplit => ?_
    obtain ⟨rfl, hr⟩ := range_split _ _ _ _ hsplit
    have hkept := rowsAfter_walk h9 hl hrows hapart r (Nat.le_of_lt hr)
    have hrow := hkept.seRow h9 hr hl (hrows r hr)
    change (rowsAfter c s r).checkAccesses _ ((rowsAfter c s r).seRowSpans c r) = none ∧ (rowsAfter c s r).seRow c r = .ok (rowEff c (rowsAfter c s r) r)
    rw [hkept.spans h9 hr hl (hrows r hr), rowEff, hrow]
    refine ⟨checkAccesses_none _ _ _ fun p hp => ?_, rfl⟩
    rw [List.mem_singleton.1 hp, hkept.map.checkRange]
    exact (hrows r hr).permitted
  unfold State.seRun
  rw [if_neg (by rw [hv]; decide)]
  split
  case h_5 =>
    dsimp only
    simp only [if_pos h9]
    rw [checkAccesses_none s (seWho job) [(c.aux, 64)] (fun p hp => by rw [List.mem_singleton.1 hp]; exact haux.1)]
    dsimp only
    rw [hhdr, hlist, hpaged, if_neg (by simp)]
    split
    · next he => exact nomatch habs.symm.trans he
    · split
      · next he => exact nomatch hacc.symm.trans he
      · rw [hseRows]
  all_goals omega

/-- What each row of a WALK does: it copies its position's row to its row of DST (R185). -/
theorem rowsAfter_walk_row (h9 : c.op = 9) (hl : (walkList s c).locus = 0) (hrows : ∀ r < c.rows, WalkRow s c job r)
    (hapart : ∀ r < c.rows, WalkApart s c r) (hr : r < c.rows) :
    (rowsAfter c s (r + 1)).readMem (walkDst c r) (walkLen s c) = (rowsAfter c s r).readMem (walkAddr s c r) (walkLen s c)
      ∧ (rowsAfter c s (r + 1)).tiles = (rowsAfter c s r).tiles
      ∧ ∀ b, (b < walkDst c r ∨ walkDst c r + walkLen s c ≤ b) →
          (rowsAfter c s (r + 1)).mem.bytes.get 0 b = (rowsAfter c s r).mem.bytes.get 0 b := by
  have hkept := rowsAfter_walk h9 hl hrows hapart r (Nat.le_of_lt hr)
  have hlen : ((rowsAfter c s r).readMem (walkAddr s c r) (walkLen s c)).length = walkLen s c := readMem_len _ _ _
  have hwrite := State.readMem_writeMem (rowsAfter c s r) (walkDst c r) ((rowsAfter c s r).readMem (walkAddr s c r) (walkLen s c))
  rw [hlen] at hwrite
  rw [rowsAfter_succ, rowEff, hkept.seRow h9 hr hl (hrows r hr)]
  refine ⟨hwrite, (sameMap_writeMem _ _ _).rest.1, fun b hb => ?_⟩
  rw [State.byte_writeMem, if_neg (by rw [hlen]; omega)]

end Walk

/-! PREFETCH (R296). -/

/-- A page is among the waiters once a wait names it. -/
theorem waitOn_waits (job cls i : Nat) : ∀ (ps : List Nat) (s : State),
    (∀ w ∈ s.mem.waiters, w ∈ (s.waitOn job cls i ps).mem.waiters) ∧ ∀ p ∈ ps, ⟨p, job, cls, i⟩ ∈ (s.waitOn job cls i ps).mem.waiters
  | [], _ => ⟨fun _ h => h, fun _ h => absurd h List.not_mem_nil⟩
  | p :: ps, s => by
    obtain ⟨m, hm, hold, hnew⟩ : ∃ m : State, s.waitOn job cls i (p :: ps) = m.waitOn job cls i ps
        ∧ (∀ w ∈ s.mem.waiters, w ∈ m.mem.waiters) ∧ ⟨p, job, cls, i⟩ ∈ m.mem.waiters := by
      refine ⟨_, rfl, ?_, ?_⟩
      · intro w hw
        dsimp only
        split
        · exact hw
        · exact List.mem_append_left _ hw
      · dsimp only
        split
        · next h => exact List.contains_iff_mem.1 h
        · exact List.mem_append_right _ (List.mem_singleton.2 rfl)
    obtain ⟨hkeep, hps⟩ := waitOn_waits job cls i ps m
    rw [hm]
    refine ⟨fun w hw => hkeep w (hold w hw), fun q hq => ?_⟩
    rcases List.mem_cons.1 hq with rfl | hq
    · exact hkeep _ hnew
    · exact hps q hq

section Prefetch

variable {c : SeFields} {job k : Nat} {hand : Bool}

/-- Pages of the range of a PREFETCH that are not resident. -/
def prefetchAbsent (s : State) (c : SeFields) : List Nat := (sePages c).flatMap (fun p => s.absentPages (p * size2MiB) 1)

/-- The range of a command that names pages is permitted. -/
theorem pageRange_ok (hr : s.checkRange (seWho job) (c.src / size2MiB * size2MiB) (c.rows * size2MiB) = none) :
    s.checkAccesses (seWho job) [(c.src / size2MiB * size2MiB, c.rows * size2MiB)] = none :=
  checkAccesses_none s (seWho job) _ (List.forall_mem_singleton.2 hr)

variable (hv : c.valid hand = true) (ho : c.op = 0xA)
  (hr : s.checkRange (seWho job) (c.src / size2MiB * size2MiB) (c.rows * size2MiB) = none)

include hv ho hr

theorem seRun_prefetch_done (h : prefetchAbsent s c = []) : s.seRun k job hand c = .done s := by
  unfold prefetchAbsent at h
  unfold State.seRun
  rw [if_neg (by rw [hv]; decide)]
  simp only [ho, pageRange_ok hr, h]

theorem seRun_prefetch_wait (h : prefetchAbsent s c ≠ []) :
    s.seRun k job hand c = .wait (s.waitOn job reqEngine k (prefetchAbsent s c)) := by
  obtain ⟨p, ps, hps⟩ := List.exists_cons_of_ne_nil h
  rw [hps]
  unfold prefetchAbsent at hps
  unfold State.seRun
  rw [if_neg (by rw [hv]; decide)]
  simp only [ho, pageRange_ok hr, hps]

end Prefetch

/-! EVICT (R279, R296). -/

section Evict

/-- What an eviction makes of page `p`: a resident page that is not pinned moves out, to flash at once when it was not written. -/
def evictedPage (s : State) (p : Nat) : Option PageSt :=
  match s.page p with
  | some x =>
    match x.place, s.object x.object with
    | .resident f, some o =>
      if o.attr = 0 then some x else some { x with place := if x.written then .migratingOut f else .flash }
    | _, _ => some x
  | none => none

/-- One step of an EVICT. -/
def evictStep (s : State) (p : Nat) : State :=
  match s.page p with
  | some x =>
    match x.place, s.object x.object with
    | .resident f, some o => if o.attr = 0 then s else s.evict ⟨0, false, 0, p, f⟩
    | _, _ => s
  | none => s

theorem evictPages_eq (s : State) (ps : List Nat) : s.evictPages ps = ps.foldl evictStep s := rfl

/-- The eviction of a page changes the map at that page alone, and no byte. -/
theorem evict_spec {x : PageSt} {f b d : Nat} {lr : Bool} {p : Nat} (hx : s.page p = some x) :
    let m := s.evict ⟨b, lr, d, p, f⟩
    (∀ q, m.page q = if q = p then some { x with place := if x.written then .migratingOut f else .flash } else s.page q)
      ∧ m.mem.bytes = s.mem.bytes ∧ m.mem.objects = s.mem.objects := by
  intro m
  by_cases hw : x.written = true
  · have hm : m = s.setPage p (some { x with place := .migratingOut f }) := by
      simp only [m, State.evict, hx, if_pos hw]
    rw [hm, if_pos hw]
    exact ⟨fun q => State.page_setPage s p q _, rfl, rfl⟩
  · have hm : m = (s.setPage p (some { x with place := .flash })).freeFrame f := by
      simp only [m, State.evict, hx, if_neg hw]
    have hmem := (freeFrame_spec (s.setPage p (some { x with place := .flash })) f).1
    rw [hm, if_neg hw, hmem]
    refine ⟨fun q => ?_, rfl, rfl⟩
    rw [State.page, hmem]
    exact State.page_setPage s p q _

/-- A page is evicted, or it and everything else stay. -/
theorem evictStep_cases (s : State) (p : Nat) :
    (∃ x f, s.page p = some x ∧ evictStep s p = s.evict ⟨0, false, 0, p, f⟩
        ∧ evictedPage s p = some { x with place := if x.written then .migratingOut f else .flash })
      ∨ (evictStep s p = s ∧ evictedPage s p = s.page p) := by
  unfold evictStep evictedPage
  cases hx : s.page p with
  | none => exact .inr ⟨rfl, rfl⟩
  | some x =>
    cases hplace : x.place with
    | resident f =>
      cases hobj : s.object x.object with
      | none => simp [hplace, hobj]
      | some o =>
        by_cases h0 : o.attr = 0
        · simp [hplace, hobj, h0]
        · exact .inl ⟨x, f, rfl, by simp only [hplace, hobj, if_neg h0], by simp only [hplace, hobj, if_neg h0]⟩
    | _ => simp [hplace]

theorem evictStep_spec (s : State) (p : Nat) :
    (∀ q, (evictStep s p).page q = if q = p then evictedPage s p else s.page q)
      ∧ (evictStep s p).mem.bytes = s.mem.bytes ∧ (evictStep s p).mem.objects = s.mem.objects ∧ (evictStep s p).tiles = s.tiles := by
  rcases evictStep_cases s p with ⟨x, f, hx, hstep, hpage⟩ | ⟨hstep, hpage⟩
  · obtain ⟨hmap, hbytes, hobjects⟩ := evict_spec (f := f) (lr := false) (d := 0) (b := 0) hx
    rw [hstep, hpage]
    exact ⟨hmap, hbytes, hobjects, (backs_evict s _).tiles⟩
  · rw [hstep, hpage]
    refine ⟨fun q => ?_, rfl, rfl, rfl⟩
    split
    · next hq => rw [hq]
    · rfl

/-- An EVICT of distinct pages moves each of them out, as it finds it. -/
theorem evictPages_spec : ∀ (ps : List Nat), ps.Nodup → ∀ s : State,
    (∀ p ∈ ps, (ps.foldl evictStep s).page p = evictedPage s p) ∧ (∀ q, q ∉ ps → (ps.foldl evictStep s).page q = s.page q)
      ∧ (ps.foldl evictStep s).mem.bytes = s.mem.bytes ∧ (ps.foldl evictStep s).tiles = s.tiles
  | [], _, _ => ⟨fun _ h => absurd h List.not_mem_nil, fun _ _ => rfl, rfl, rfl⟩
  | p :: ps, hn, s => by
    obtain ⟨hp, hps⟩ := List.nodup_cons.1 hn
    obtain ⟨hpage, hbytes, hobjects, htiles⟩ := evictStep_spec s p
    obtain ⟨hin, hout, hb, ht⟩ := evictPages_spec ps hps (evictStep s p)
    refine ⟨fun q hq => ?_, fun q hq => ?_, hb.trans hbytes, ht.trans htiles⟩
    · rcases List.mem_cons.1 hq with rfl | hq
      · exact (hout q hp).trans ((hpage q).trans (if_pos rfl))
      · have hne : q ≠ p := fun h => hp (h ▸ hq)
        have hsame : (evictStep s p).page q = s.page q := (hpage q).trans (if_neg hne)
        have hobj : ∀ b, (evictStep s p).object b = s.object b := fun b => by rw [State.object, hobjects]; rfl
        refine (hin q hq).trans ?_
        simp only [evictedPage, hsame, hobj]
    · obtain ⟨hqp, hqps⟩ := not_or.1 (fun h => hq (List.mem_cons.2 h))
      exact (hout q hqps).trans ((hpage q).trans (if_neg hqp))

theorem sePages_nodup (c : SeFields) : (sePages c).Nodup :=
  List.nodup_range.map fun _ _ h => Nat.add_right_cancel h

theorem mem_sePages {c : SeFields} {p : Nat} : p ∈ sePages c ↔ ∃ i < c.rows, c.src / size2MiB + i = p := by
  simp [sePages, Nat.add_comm]

variable {c : SeFields} {job k : Nat} {hand : Bool} (hv : c.valid hand = true) (ho : c.op = 0x11)
  (hr : s.checkRange (seWho job) (c.src / size2MiB * size2MiB) (c.rows * size2MiB) = none)

include hv ho hr

theorem seRun_evict_wait (h : ∃ p ∈ sePages c, ∃ x f, (s.evictPages (sePages c)).page p = some x ∧ x.place = .migratingOut f) :
    s.seRun k job hand c = .wait (s.evictPages (sePages c)) := by
  obtain ⟨p, hp, x, f, hx, hf⟩ := h
  unfold State.seRun
  rw [if_neg (by rw [hv]; decide)]
  simp only [ho, pageRange_ok hr]
  refine if_pos (List.any_eq_true.2 ⟨p, hp, ?_⟩)
  simp only [hx, hf]

theorem seRun_evict_done (h : ∀ p ∈ sePages c, ∀ x f, (s.evictPages (sePages c)).page p = some x → x.place ≠ .migratingOut f) :
    s.seRun k job hand c = .done (s.evictPages (sePages c)) := by
  unfold State.seRun
  rw [if_neg (by rw [hv]; decide)]
  simp only [ho, pageRange_ok hr]
  refine if_neg fun hany => ?_
  obtain ⟨p, hp, hout⟩ := List.any_eq_true.1 hany
  cases hx : (s.evictPages (sePages c)).page p with
  | none => rw [hx] at hout; cases hout
  | some x =>
    rw [hx] at hout
    dsimp only at hout
    split at hout
    · next f hf => exact h p hp x f hx hf
    · cases hout

end Evict

/-! SCRUB (R296). -/

section Scrub

theorem seRun_scrub {c : SeFields} {job k : Nat} {hand : Bool} (hv : c.valid hand = true) (ho : c.op = 0x12) :
    s.seRun k job hand c = .done (s.scrubFrames c.src c.rows) := by
  unfold State.seRun
  rw [if_neg (by rw [hv]; decide)]
  simp only [ho]

/-- One step of a SCRUB. -/
def scrubStep (f : Nat) (s : State) (i : Nat) : State :=
  match s.framePage (f + i) with
  | some p => s.modMem (fun m => { m with bytes := m.bytes.clear (p * size2MiB) size2MiB })
  | none => s

theorem scrubFrames_eq (s : State) (f n : Nat) : s.scrubFrames f n = (List.range n).foldl (scrubStep f) s := rfl

theorem scrubStep_spec (f : Nat) (s : State) (i : Nat) :
    (scrubStep f s i).tiles = s.tiles ∧ (scrubStep f s i).mem.frames = s.mem.frames
      ∧ ∀ b, (scrubStep f s i).mem.bytes.get 0 b = if s.mem.frames.get 0 (f + i) = b / size2MiB + 1 then 0 else s.mem.bytes.get 0 b := by
  cases hf : s.mem.frames.get 0 (f + i) with
  | zero =>
    have hstep : scrubStep f s i = s := by simp only [scrubStep, State.framePage, hf]
    rw [hstep]
    exact ⟨rfl, rfl, fun b => (if_neg fun h => Nat.succ_ne_zero _ h.symm).symm⟩
  | succ p =>
    have hstep : scrubStep f s i = s.modMem (fun m => { m with bytes := m.bytes.clear (p * size2MiB) size2MiB }) := by
      simp only [scrubStep, State.framePage, hf]; rfl
    rw [hstep]
    refine ⟨rfl, rfl, fun b => (SMap.get_clear 0 s.mem.bytes (p * size2MiB) size2MiB b).trans (if_congr ?_ rfl rfl)⟩
    simp only [size2MiB]
    omega

theorem scrubFrames_spec (f : Nat) : ∀ (l : List Nat) (s : State),
    (l.foldl (scrubStep f) s).tiles = s.tiles ∧ ∀ b, (l.foldl (scrubStep f) s).mem.bytes.get 0 b
      = if ∃ i ∈ l, s.mem.frames.get 0 (f + i) = b / size2MiB + 1 then 0 else s.mem.bytes.get 0 b
  | [], s => ⟨rfl, fun b => (if_neg fun ⟨_, h, _⟩ => absurd h List.not_mem_nil).symm⟩
  | i :: l, s => by
    obtain ⟨htiles, hframes, hbytes⟩ := scrubStep_spec f s i
    obtain ⟨ht, hb⟩ := scrubFrames_spec f l (scrubStep f s i)
    refine ⟨ht.trans htiles, fun b => (hb b).trans ?_⟩
    rw [hframes, hbytes]
    simp only [List.exists_mem_cons_iff]
    by_cases hi : s.mem.frames.get 0 (f + i) = b / size2MiB + 1 <;> simp [hi]

end Scrub

/-! MARGIN (R301 to R303). -/

section Margin

/-- One result of a MARGIN: that of channel `p.1`, the one at place `p.2` of the good ones. -/
def marginStep (x : StackSt) (k : Nat) (results : List Margins) (s : State) (p : Nat × Nat) : State :=
  let c := (x.chans.get .init p.1).margin x.limitDq x.limitVddq (results.getD p.2 ⟨0, 0, 0, 0⟩)
  let s := s.modStack k (fun y => { y with chans := y.chans.set .init p.1 c })
  if c.pass then s else s.report Codes.marginFail { cls := 3, idx := k, unit := p.1 }

theorem marginStep_spec (x : StackSt) (k : Nat) (results : List Margins) (s : State) (p : Nat × Nat) :
    (marginStep x k results s p).mem.bytes = s.mem.bytes
      ∧ ∀ ch, ((marginStep x k results s p).stack k).chans.get .init ch
        = if ch = p.1 then (x.chans.get .init p.1).margin x.limitDq x.limitVddq (results.getD p.2 ⟨0, 0, 0, 0⟩)
          else (s.stack k).chans.get .init ch := by
  unfold marginStep
  dsimp only
  split
  · refine ⟨rfl, fun ch => ?_⟩
    rw [State.stack_modStack_same]
    exact SMap.get_set _ _ _ _ _
  · refine ⟨by rw [State.report_mem]; rfl, fun ch => ?_⟩
    rw [State.stack_report, State.stack_modStack_same]
    exact SMap.get_set _ _ _ _ _

/-- Distinct channels take their own results each. -/
theorem marginFold_spec (x : StackSt) (k : Nat) (results : List Margins) : ∀ (l : List (Nat × Nat)), (l.map (·.1)).Nodup →
    ∀ s : State, let m := l.foldl (marginStep x k results) s
      m.mem.bytes = s.mem.bytes
        ∧ (∀ p ∈ l, (m.stack k).chans.get .init p.1
            = (x.chans.get .init p.1).margin x.limitDq x.limitVddq (results.getD p.2 ⟨0, 0, 0, 0⟩))
        ∧ ∀ ch, ch ∉ l.map (·.1) → (m.stack k).chans.get .init ch = (s.stack k).chans.get .init ch
  | [], _, _ => ⟨rfl, fun _ h => absurd h List.not_mem_nil, fun _ _ => rfl⟩
  | p :: l, hn, s => by
    obtain ⟨hp, hl⟩ := List.nodup_cons.1 hn
    obtain ⟨hbytes, hchans⟩ := marginStep_spec x k results s p
    obtain ⟨hb, hin, hout⟩ := marginFold_spec x k results l hl (marginStep x k results s p)
    refine ⟨hb.trans hbytes, fun q hq => ?_, fun ch hch => ?_⟩
    · rcases List.mem_cons.1 hq with rfl | hq
      · exact (hout _ hp).trans ((hchans _).trans (if_pos rfl))
      · exact hin q hq
    · obtain ⟨hcp, hcl⟩ := not_or.1 (fun h => hch (List.mem_cons.2 h))
      exact (hout ch hcl).trans ((hchans ch).trans (if_neg hcp))

theorem seMargin_eq {k : Stack} {job : Nat} {cmd : BitVec 512} {results : List Margins} (ho : (seOf cmd).op = 0x13)
    (hsrc : (seOf cmd).src = k) (hv : (seOf cmd).valid false = true) (hready : s.marginReady k = true) :
    seMargin k (.conductor job cmd) results s = (s.stack k).good32.zipIdx.foldl (marginStep (s.stack k) k results) s := by
  have hk := k.isLt
  have hstack : bitsOf (seOf cmd).src 4 0 = k.val := by
    rw [hsrc, bitsOf]
    simp only [Nat.reduceAdd, Nat.reduceSub, Nat.pow_zero, Nat.div_one, Nat.reducePow]
    omega
  have hrun : ((seOf cmd).op != 0x13 || bitsOf (seOf cmd).src 4 0 != k || !s.marginReady k) = false := by
    rw [ho, hstack, hready, bne_self_eq_false, bne_self_eq_false]; rfl
  have hok : (!(seOf cmd).valid false || decide (32 ≤ (seOf cmd).src)) = false := by
    rw [hv, hsrc, decide_eq_false (by omega)]; rfl
  unfold seMargin
  simp only [hrun, hok]
  rfl

end Margin

/-! A command that is refused, and the completion of one (R38, R297, R298). -/

section Complete

variable {k : Stack}

/-- An invalid command of the conductor faults its job and changes no byte. -/
theorem seStep_invalid {op job : Nat} {cmd : BitVec 512} {x : JobSt} (hx : s.job job = some x) (hj : 0 < job)
    (hv : (seOf cmd).valid false = false) (ho : (seOf cmd).op = op) :
    let m := seStep op k (.conductor job cmd) s
    m.mem = s.mem ∧ m.tiles = s.tiles ∧ m.job job = some { x with fault := some (x.fault.getD Codes.seCommand) } := by
  have hrun : s.seRun k job false (seOf cmd) = .fail s ⟨Codes.seCommand, []⟩ := by
    unfold State.seRun
    exact if_pos (by rw [hv]; rfl)
  have hstep : seStep op k (.conductor job cmd) s = s.jobFaults job Codes.seCommand { cls := 3, idx := k, data := [] } := by
    have hne : ((seOf cmd).op != op) = false := by rw [ho, bne_self_eq_false]
    simp only [seStep, State.seDirect, hne, hrun]
    exact if_neg (Nat.ne_of_gt hj)
  intro m
  simp only [m, hstep]
  exact ⟨State.jobFaults_mem _ _ _ _, State.jobFaults_tiles _ _ _ _, job_jobFaults _ _ _ _ _ hx⟩

variable {q : SeCmd} {rest : List SeCmd} (hqueue : (s.stack k).queue = q :: rest) (hdone : q.done = true)

include hqueue hdone

/-- The command of a hand still on its tile counts its event counter. -/
theorem seCommandComplete_hand {t : Nat} (ht : q.tile = some t) (hhand : (s.tile t).handId = q.hand) (hjob : (s.tile t).job = q.job) :
    seCommandComplete k s = (s.modStack k (fun x => { x with queue := rest })).modTile t (fun y => y.bump ((seOf q.cmd).evt % 16) 1) := by
  have hsame : ((s.tile t).handId == q.hand && (s.tile t).job == q.job) = true := by
    rw [hhand, hjob, beq_self_eq_true, beq_self_eq_true]; rfl
  unfold seCommandComplete
  simp only [hqueue, hdone, ht, State.tile_modStack, hsame]
  rfl

/-- The command of a job counts nothing, while updates of the job are left where it is one of them. -/
theorem seCommandComplete_job (ht : q.tile = none) (hleft : (seOf q.cmd).op ≠ 0x10
      ∨ ∃ i < 32, ∃ c ∈ (if i = k.val then rest else (s.stack i).queue), c.job = q.job ∧ (seOf c.cmd).op = 0x10) :
    seCommandComplete k s = s.modStack k (fun x => { x with queue := rest }) := by
  have hnone : (seOf q.cmd).op = 0x10 → (s.modStack k (fun x => { x with queue := rest })).updatesDone q.job
      = s.modStack k (fun x => { x with queue := rest }) := fun hop => by
    obtain ⟨i, hi, c, hc, hcj, hco⟩ := hleft.resolve_left (fun h => h hop)
    have hmem : c ∈ ((s.modStack k (fun x => { x with queue := rest })).stack i).queue := by
      rw [State.stack_modStack]
      split at hc
      · next h => rw [if_pos h]; exact hc
      · next h => rw [if_neg h]; exact hc
    have hupd : (s.modStack k (fun x => { x with queue := rest })).updatesLeft q.job = true :=
      List.any_eq_true.2 ⟨i, List.mem_range.2 hi, List.any_eq_true.2 ⟨c, hmem, by simp [hcj, hco]⟩⟩
    unfold State.updatesDone
    split
    · rw [hupd, Bool.not_true, Bool.and_false]; rfl
    · rfl
  unfold seCommandComplete
  simp only [hqueue, hdone, ht]
  by_cases hop : (seOf q.cmd).op = 0x10
  · exact (if_pos hop).trans (hnone hop)
  · exact if_neg hop

end Complete

/-- Settles O38: each command by what `seRun` makes of it, delivered to its engine by `seStep_done` and `seStep_wait`. -/
theorem engineOthers : Obligations.EngineOthers := by
  unfold Obligations.EngineOthers
  intro s k
  refine ⟨fun src job hand cmd fin hold hd => ?commands, fun job cmd results ho hsrc hv hready => ?margin,
    fun job cmd x i hx hj hv hi => ?invalid, fun q rest hqueue hdone => ⟨fun t ht hhand hjob => ?hand, fun ht hleft => ?job⟩⟩
  case commands =>
    have hd : Delivers s k src job hand cmd fin hold := hd
    intro c d l n head pos entry a dst apart ok p0 hv
    refine ⟨fun ho hhdr hlist hl haux hrecord hrows hapart => ?walk, fun ho hr => ?prefetch, fun ho hr => ?evict, fun ho => ?scrub⟩
    case walk =>
      have hw : ∀ r < c.rows, WalkRow s c job r := fun r hr => by
        obtain ⟨hin, hpool, hmapped, hperm, hres, -⟩ := hrows r hr
        exact ⟨hin, hpool, hmapped, hperm.1, hres⟩
      have ha : ∀ r < c.rows, WalkApart s c r := fun r hr => by
        obtain ⟨hlist, hrec, hentries⟩ := hapart r hr
        exact ⟨hlist, hrec, hentries⟩
      have hdst : ∀ r < c.rows, SpanOk s job (walkDst c r) (walkLen s c) := fun r hr => (hrows r hr).2.2.2.2.2
      exact ⟨rowsAfter c s, congrArg Host.Outcome.next (seStep_done hd ho (seRun_walk hv ho hhdr hlist hl haux hrecord hw hdst ha)), rfl,
        fun r hr => rowsAfter_walk_row ho hl hw ha hr⟩
    case prefetch =>
      refine ⟨fun h => congrArg Host.Outcome.next (seStep_done hd ho (seRun_prefetch_done hv ho hr h)), fun h => ?_⟩
      exact ⟨_, congrArg Host.Outcome.next (seStep_wait hd ho (seRun_prefetch_wait hv ho hr h)), waitOn_bytes _ _ _ _ _,
        waitOn_same State.tiles (fun _ _ => rfl) _ _ _ _ _, (waitOn_waits job reqEngine k _ s).2⟩
    case evict =>
      obtain ⟨hin, hout, hbytes, htiles⟩ := evictPages_spec (sePages c) (sePages_nodup c) s
      rw [← evictPages_eq] at hbytes htiles
      simp only [← evictPages_eq] at hin hout
      refine ⟨s.evictPages (sePages c), hbytes, htiles, fun h => ?_, fun h => ?_, fun p hp => hout p fun hmem => ?_, fun i hi x hx => ?_⟩
      · obtain ⟨i, hi, hex⟩ := h
        exact congrArg Host.Outcome.next (seStep_wait hd ho (seRun_evict_wait hv ho hr ⟨p0 + i, mem_sePages.2 ⟨i, hi, rfl⟩, hex⟩))
      · refine congrArg Host.Outcome.next (seStep_done hd ho (seRun_evict_done hv ho hr fun p hp => ?_))
        obtain ⟨i, hi, rfl⟩ := mem_sePages.1 hp
        exact h i hi
      · obtain ⟨i, hi, hip⟩ := mem_sePages.1 hmem
        simp only [p0] at hp
        omega
      · have hpage := hin (p0 + i) (mem_sePages.2 ⟨i, hi, rfl⟩)
        refine ⟨fun f o hf hobj h0 => ?_, fun hf => ?_, fun ⟨o, hobj, h0⟩ => ?_⟩
        all_goals refine hpage.trans ?_
        · simp only [evictedPage, hx, hf, hobj, if_neg h0]
        · simp only [evictedPage, hx]
          split
          · next f o h _ => exact absurd h (hf f)
          · rfl
        · simp only [evictedPage, hx, hobj]
          split
          · next f o' _ h => cases h; rw [if_pos h0]
          · rfl
    case scrub =>
      obtain ⟨htiles, hbytes⟩ := scrubFrames_spec c.src (List.range c.rows) s
      rw [← scrubFrames_eq] at htiles hbytes
      refine ⟨_, congrArg Host.Outcome.next (seStep_done hd ho (seRun_scrub hv ho)), htiles, fun b => (hbytes b).trans ?_⟩
      simp only [List.mem_range]
  case margin =>
    have hnodup : ((s.stack k).good32.zipIdx.map (·.1)).Nodup := by
      rw [show (s.stack k).good32.zipIdx.map (·.1) = (s.stack k).good32 from List.zipIdx_map_fst 0 _]
      exact List.nodup_range.filter _
    obtain ⟨hbytes, hin, hout⟩ := marginFold_spec (s.stack k) k results _ hnodup s
    refine ⟨_, congrArg Host.Outcome.next (seMargin_eq ho hsrc hv hready), hbytes, fun ch => ?_⟩
    intro x y
    refine ⟨fun i hi => ?_, fun hch => hout ch ?_⟩
    · have hy : y = _ := hin (ch, i) (mem_zipIdx_of_getElem? hi)
      intro r
      rw [hy]
      refine ⟨rfl, rfl, ?_⟩
      simp only [ChanSt.margin, Bool.and_eq_true, decide_eq_true_eq, and_assoc]
      rfl
    · rw [show (s.stack k).good32.zipIdx.map (·.1) = (s.stack k).good32 from List.zipIdx_map_fst 0 _]
      exact hch
  case invalid =>
    have hexec : exec i s = .next (seStep (seOf cmd).op k (.conductor job cmd) s) := by
      simp only [List.mem_cons, Prod.mk.injEq, List.not_mem_nil, or_false] at hi
      rcases hi with ⟨rfl, ho⟩ | ⟨rfl, ho⟩ | ⟨rfl, ho⟩ | ⟨rfl, ho⟩ | ⟨rfl, ho⟩ | ⟨rfl, ho⟩ <;> rw [ho] <;> rfl
    exact ⟨_, hexec, seStep_invalid hx hj hv rfl⟩
  case hand =>
    refine ⟨_, congrArg Host.Outcome.next (seCommandComplete_hand hqueue hdone ht hhand hjob), ?_, rfl, ?_, fun f hf hne => ?_, fun v hv => ?_⟩
    · exact (congrArg StackSt.queue (State.stack_modStack_same s k (fun x => { x with queue := rest })) :)
    · rw [State.tile_modTile_same, bump_ereg, State.tile_modStack, if_pos rfl]
      rfl
    · rw [State.tile_modTile_same, bump_ereg, State.tile_modStack, if_neg hne]
    · rw [State.tile_modTile, if_neg hv, State.tile_modStack]
  case job =>
    exact congrArg Host.Outcome.next (seCommandComplete_job hqueue hdone ht hleft)

end Sys2Proof.Machine

namespace Sys2Proof.Machine

/-! Rows of the commands that write one row of DST each: COPY, FILL, ADD, MIN, MAX, UNPACK and GATHER (R292, R296). -/

/-- Row `r` of DST holds the low bytes of `f e` at each element `e`, and no other byte differs. -/
def RowWrites (c : SeFields) (x y : State) (r : Nat) (f : Nat → Nat) : Prop :=
  (∀ e < c.rowLen, y.readLe (c.dst + r * c.dstLd + dstWidth c * e) (dstWidth c) = f e % 256 ^ dstWidth c)
    ∧ ∀ n, (n < c.dst + r * c.dstLd ∨ c.dst + r * c.dstLd + c.rowLen * dstWidth c ≤ n) →
        y.mem.bytes.get 0 n = x.mem.bytes.get 0 n

/-- Element `e` of the row of SRC that starts at `a`, and of row `r` of DST. -/
def srcElem (c : SeFields) (x : State) (a e : Nat) : Nat := x.readLe (a + srcWidth c * e) (srcWidth c)
def dstElem (c : SeFields) (x : State) (r e : Nat) : Nat := x.readLe (c.dst + r * c.dstLd + dstWidth c * e) (dstWidth c)

/-- Source bits `v` in the destination's format, as element `e` of row `r` (R53, R113, R114). -/
def convElem (c : SeFields) (r e v : Nat) : Nat :=
  if c.srcFmt = c.dstFmt then v
  else encodeElem c.dstFmt (c.rnd (c.dst + r * c.dstLd + e * dstWidth c)) (decodeElem c.srcFmt v 127)

/-- Element `e` of row `r` of an UNPACK: the packed bits at the scale of their block, rounded to nearest even (R113). -/
def unpackElem (c : SeFields) (x : State) (r e : Nat) : Nat :=
  encodeElem c.dstFmt .rne (decodeElem c.srcFmt
    (leNat (x.readMem (c.src + r * c.srcLd) (packedRow c c.srcFmt)) / 2 ^ (e * fmtBits c.srcFmt) % 2 ^ fmtBits c.srcFmt)
    (x.readLe (scaleRow c r + e / blockLen c.fine) 1))

section Rows

variable {c : SeFields} {x y : State} {r : Nat} {f g : Nat → Nat}

/-- Only the bytes that an element occupies matter. -/
theorem RowWrites.congr (h : RowWrites c x y r f) (hfg : ∀ e, f e % 256 ^ dstWidth c = g e % 256 ^ dstWidth c) :
    RowWrites c x y r g :=
  ⟨fun e he => (h.1 e he).trans (hfg e), h.2⟩

theorem rowEff_of_seRow (h : x.seRow c r = .ok y) : rowEff c x r = y := by
  rw [rowEff, h]

/-- A row whose effect is one write of its elements. -/
theorem rowWrites_of_seRow
    (h : x.seRow c r = .ok (x.writeMem (c.dst + r * c.dstLd) (((List.range c.rowLen).map f).flatMap (natLe (dstWidth c))))) :
    RowWrites c x (rowEff c x r) r f := by
  rw [rowEff_of_seRow h]
  exact elems_write x (c.dst + r * c.dstLd) (dstWidth c) c.rowLen f

theorem rowWrites_copy (ho : c.op = 1) :
    RowWrites c x (rowEff c x r) r (fun e => convElem c r e (srcElem c x (c.src + r * c.srcLd) e)) := by
  refine rowWrites_of_seRow ?_
  have hrow : x.seRow c r = .ok (x.writeMem (c.dst + r * c.dstLd) (seConvert c (c.dst + r * c.dstLd)
      (elemsOf (srcWidth c) c.rowLen (x.readMem (c.src + r * c.srcLd) (c.rowLen * srcWidth c))))) := by
    unfold State.seRow; rw [ho]; rfl
  rw [hrow, elems_read, conv_range]
  rfl

theorem rowWrites_fill (ho : c.op = 2) : RowWrites c x (rowEff c x r) r (fun _ => c.aux) := by
  refine rowWrites_of_seRow ?_
  rw [List.flatMap_map]
  unfold State.seRow
  rw [ho]
  rfl

theorem rowWrites_unpack (ho : c.op = 7) : RowWrites c x (rowEff c x r) r (unpackElem c x r) := by
  refine rowWrites_of_seRow ?_
  have hrow : x.seRow c r = .ok (x.unpackRow c r) := by
    unfold State.seRow; rw [ho]; rfl
  rw [hrow, State.unpackRow, List.flatMap_map, List.flatMap_map]
  rfl

theorem rowWrites_gather (ho : c.op = 8) :
    RowWrites c x (rowEff c x r) r (fun e => convElem c r e
      (if x.gatherIx c r = 0xFFFFFFFF then 0 else srcElem c x (c.src + x.gatherIx c r * c.srcLd) e)) := by
  rw [rowEff_gather c x r ho]
  exact elems_write x (c.dst + r * c.dstLd) (dstWidth c) c.rowLen _

/-! ADD, MIN and MAX: the memory-side operation of the same name on the row (R292). -/

/-- The memory-side operation of an opcode. -/
def sideOp (op : Nat) : MsOp := if op = 3 then .add else if op = 4 then .min else .max

/-- The operands have one format, one of those that memory-side operations have as types. -/
structure SideFmt (c : SeFields) : Prop where
  same : c.srcFmt = c.dstFmt
  width : msBytes (seTy c.srcFmt) = dstWidth c

theorem sideFmt_of_valid {hand : Bool} (hv : c.valid hand = true) (ho : c.op = 3 ∨ c.op = 4 ∨ c.op = 5) : SideFmt c := by
  have hfmt := valid_fmt c hand hv
  have hcases : c.srcFmt = c.dstFmt ∧ (c.srcFmt ≤ 2 ∨ c.srcFmt = 5) := by
    unfold SeFields.fmtOk at hfmt
    rcases ho with ho | ho | ho <;> simp [ho] at hfmt <;> omega
  obtain ⟨hsame, hsrc⟩ := hcases
  refine ⟨hsame, ?_⟩
  have hty : c.srcFmt = 0 ∨ c.srcFmt = 1 ∨ c.srcFmt = 2 ∨ c.srcFmt = 5 := by omega
  rw [dstWidth, ← hsame]
  rcases hty with h | h | h | h <;> rw [h] <;> rfl

theorem rowWrites_side {hand : Bool} {op fmt : Nat} (hv : c.valid hand = true) (ho : c.op = op) (hop : op = 3 ∨ op = 4 ∨ op = 5)
    (hf : c.srcFmt = fmt) : RowWrites c x (rowEff c x r) r (fun e =>
      msElem (sideOp op) (seTy fmt) (dstElem c x r e) (srcElem c x (c.src + r * c.srcLd) e)) := by
  subst ho hf
  obtain ⟨hsame, hwidth⟩ := sideFmt_of_valid hv hop
  have hrow : x.seRow c r = .ok (x.memSide (sideOp c.op) (seTy c.srcFmt) (c.dst + r * c.dstLd)
      (x.readMem (c.src + r * c.srcLd) (c.rowLen * srcWidth c))) := by
    unfold State.seRow
    rcases hop with ho | ho | ho <;> rw [ho] <;> rfl
  have hsrc : srcWidth c = dstWidth c := by rw [srcWidth, hsame, dstWidth]
  rw [rowEff_of_seRow hrow]
  simp only [srcElem, hsrc]
  exact mem_row x _ _ (c.dst + r * c.dstLd) (c.src + r * c.srcLd) c.rowLen (dstWidth c) hwidth

theorem dstWidth_int32 (hs : SideFmt c) (h5 : c.srcFmt = 5) : dstWidth c = 4 := by
  rw [← hs.width, h5]; rfl

/-- An integer sum wraps at the width of its element. -/
theorem msElem_add_int32 (old v : Nat) : msElem .add .int32 old v % 256 ^ 4 = (old + v) % 256 ^ 4 :=
  Nat.mod_mod _ _

/-- A floating sum is rounded once, to nearest even. -/
theorem msElem_add_float {fmt : Nat} (h : fmt ≤ 2) (old v : Nat) :
    msElem .add (seTy fmt) old v = encodeElem fmt .rne ((decodeElem fmt old 127).add (decodeElem fmt v 127)) := by
  have hfmt : fmt = 0 ∨ fmt = 1 ∨ fmt = 2 := by omega
  rcases hfmt with rfl | rfl | rfl <;> rfl

/-! PACK (R109 to R112, R296). -/

/-- Block `i` of row `r` of a PACK, quantised (R109 to R112). -/
def packBlock (c : SeFields) (x : State) (r i : Nat) : QBlock :=
  quantBlock c.dstFmt ((List.range (blockLen c.fine)).map (fun v =>
    (decodeElem c.srcFmt (srcElem c x (c.src + r * c.srcLd) (i * blockLen c.fine + v)) 127,
      if c.stoch then .sr (srBits c.seed 1 ((c.dst + r * c.dstLd) * 8 + (i * blockLen c.fine + v) * fmtBits c.dstFmt)) else .rne)))

/-- Bytes of a packed block. -/
def packBytes (c : SeFields) : Nat := blockLen c.fine * fmtBits c.dstFmt / 8

/-- Blocks of whole bytes fill a packed row. -/
theorem packedRow_eq (hb : c.rowLen % blockLen c.fine = 0) :
    c.rowLen / blockLen c.fine * packBytes c = packedRow c c.dstFmt := by
  obtain ⟨-, h8⟩ := blockLen_pos c.fine
  have hlen := Nat.div_mul_cancel (Nat.dvd_of_mod_eq_zero hb)
  rw [packBytes, packedRow, ← Nat.mul_div_assoc _ (h8.mul_right _), ← Nat.mul_assoc, hlen]

theorem rowEff_pack (ho : c.op = 6) (hb : c.rowLen % blockLen c.fine = 0) :
    rowEff c x r = (List.range (c.rowLen / blockLen c.fine)).foldl
      (packStep (packBlock c x r) (fmtBits c.dstFmt) (c.dst + r * c.dstLd) (packBytes c) (scaleRow c r) c.aux) x := by
  have hrow : x.seRow c r = .ok (x.packRow c r) := by
    unfold State.seRow; rw [ho]; rfl
  rw [rowEff_of_seRow hrow, pack_fold c x r hb]
  rfl

end Rows

/-! The command as a whole (R296, R298). -/

section Command

variable {s : State} {c : SeFields} {job : Nat}

/-- No row before it changes which bytes a row reads and writes, as the index list of a GATHER stays. -/
theorem seRowSpans_rowsAfter (ho : 1 ≤ c.op ∧ c.op ≤ 8)
    (hlist : c.op = 8 → ∀ r < c.rows, ∀ n < c.rows, c.dst + r * c.dstLd + c.rowLen * dstWidth c ≤ c.aux + 4 * n
      ∨ c.aux + 4 * n + 4 ≤ c.dst + r * c.dstLd) {r : Nat} (hr : r < c.rows) :
    (rowsAfter c s r).seRowSpans c r = s.seRowSpans c r :=
  spans_eq c s _ r (fun h8 => gather_keep c s h8 (hlist h8) r hr r (Nat.le_of_lt hr)) (fun h9 => by omega)

/-- A valid command with every access permitted and resident completes, each row having had its effect. -/
theorem seRun_rowsAfter {k : Nat} {hand : Bool} (hv : c.valid hand = true) (ho : 1 ≤ c.op ∧ c.op ≤ 8)
    (hspans : ∀ r < c.rows, ∀ p ∈ s.seRowSpans c r, SpanOk s job p.1 p.2)
    (hlist : c.op = 8 → ∀ r < c.rows, ∀ n < c.rows, c.dst + r * c.dstLd + c.rowLen * dstWidth c ≤ c.aux + 4 * n
      ∨ c.aux + 4 * n + 4 ≤ c.dst + r * c.dstLd) :
    s.seRun k job hand c = .done (rowsAfter c s c.rows) := by
  refine seRun_rows s k job hand c hv ho (absentOf_nil s _ fun p hp => ?_) _ ?_
  · obtain ⟨r, hr, hp⟩ := List.mem_flatMap.1 hp
    exact (hspans r (List.mem_range.1 hr) p hp).2
  · refine seRows_rowsAfter c (by omega) job _ s fun l1 r l2 hsplit => ?_
    obtain ⟨rfl, hr⟩ := range_split _ _ _ _ hsplit
    change (rowsAfter c s r).checkAccesses (seWho job) ((rowsAfter c s r).seRowSpans c r) = none
    rw [seRowSpans_rowsAfter ho hlist hr]
    refine checkAccesses_none _ _ _ fun p hp => ?_
    rw [(sameMap_rowsAfter c s r).checkRange]
    exact (hspans r hr p hp).1

end Command

/-- Settles O36: the command completes by `seRun_rowsAfter`, its states row by row are `rowsAfter`, and each opcode's row has its law. -/
theorem engineRows : Obligations.EngineRows := by
  unfold Obligations.EngineRows
  intro s k src job hand cmd fin hd c sw dw dst b scales hv hspans hlist i hi
  obtain ⟨hold, hd⟩ : ∃ hold, Delivers s k src job hand cmd fin hold := by
    rcases hd with ⟨hsrc, hhand, hfin⟩ | ⟨q, rest, hsrc, hqueue, hdone, hjob, htile, hcmd, hfin⟩
    · exact ⟨id, .inl ⟨hsrc, hhand, hfin, rfl⟩⟩
    · exact ⟨_, .inr ⟨q, rest, hsrc, hqueue, hdone, hjob, htile, hcmd, rfl, hfin⟩⟩
  have hop : exec i s = .next (seStep c.op k src s) ∧ 1 ≤ c.op ∧ c.op ≤ 8 := by
    simp only [List.mem_cons, Prod.mk.injEq, List.not_mem_nil, or_false] at hi
    rcases hi with ⟨rfl, ho⟩ | ⟨rfl, ho⟩ | ⟨rfl, ho⟩ | ⟨rfl, ho⟩ | ⟨rfl, ho⟩ | ⟨rfl, ho⟩ | ⟨rfl, ho⟩ | ⟨rfl, ho⟩ <;>
      rw [ho] <;> exact ⟨rfl, by decide, by decide⟩
  obtain ⟨hexec, ho⟩ := hop
  have hdone := seStep_done hd rfl (seRun_rowsAfter (k := k) hv ho hspans hlist)
  refine ⟨rowsAfter c s, hexec.trans (congrArg Host.Outcome.next hdone), rfl, fun r _ x y hx hy => ?_⟩
  rw [rowsAfter_succ, ← hx] at hy
  subst hy
  clear hx
  intro elem writes conv old ix
  obtain ⟨htiles, hdealers, hsched, houtbox⟩ := (sameMap_rowEff c x r).rest
  refine ⟨htiles, hdealers, hsched, houtbox, rowWrites_copy, rowWrites_fill, fun ho h5 => ?addInt, fun ho hf => ?addFloat,
    fun ho h5 => rowWrites_side hv ho (by decide) h5, fun ho h5 => rowWrites_side hv ho (by decide) h5,
    fun ho h0 => rowWrites_side hv ho (by decide) h0, fun ho h0 => rowWrites_side hv ho (by decide) h0, rowWrites_unpack,
    rowWrites_gather, fun ho => ?pack⟩
  case addInt =>
    refine (rowWrites_side hv ho (by decide) h5).congr fun e => ?_
    rw [dstWidth_int32 (sideFmt_of_valid hv (.inl ho)) h5]
    exact msElem_add_int32 _ _
  case addFloat =>
    exact (rowWrites_side hv ho (by decide) rfl).congr fun e => congrArg (· % _) (msElem_add_float hf _ _)
  case pack =>
    intro w len n q hscales haux
    have hb := valid_part c hand hv (.inl ho)
    have hlen : len = n * packBytes c := (packedRow_eq hb).symm
    rw [hlen] at hscales haux ⊢
    rw [rowEff_pack ho hb]
    exact pstep_fold (packBlock c x r) w (dst r) (packBytes c) (scales r) c.aux x n hscales haux n (Nat.le_refl n)

/-! A command that meets the hypotheses of O36. -/

/-- A GATHER of two rows of four FP32 elements, from 0x1000 to 0x2000, with its index list at 0x3000. -/
def gatherCommand : BitVec 512 :=
  BitVec.ofNat 512 (0x2060 + 8 * 2 ^ 16 + 0x1000 * 2 ^ 64 + 0x2000 * 2 ^ 128 + 2 * 2 ^ 192 + 4 * 2 ^ 224 + 64 * 2 ^ 256
    + 64 * 2 ^ 288 + 0x3000 * 2 ^ 384)

/-- A state with one page, resident and the conductor's, whose index list asks for zeros and then for row 0. -/
def gatherState : State :=
  let page : PageSt := { object := 0, place := .resident 0, written := false, arrived := 0, logical := none }
  let object : ObjectSt := { pages := 1, attr := 0, place := 0, arg := 0, name := 0, owner := .conductor, func := 0,
                             freeing := none, syncing := none, removeName := false }
  (((State.reset.modFtl (fun f => { f with logicalPages := 1 })).setPage 0 (some page)).setObject 0 (some object)).writeLe
    0x3000 4 0xFFFFFFFF

theorem gatherState_spans : ∀ r < 2, ∀ p ∈ gatherState.seRowSpans (seOf gatherCommand) r, SpanOk gatherState 0 p.1 p.2 := by
  unfold SpanOk
  decide

/-- O36 applies to the GATHER, whose first row becomes zeros. -/
theorem engineRows_gather : ∃ m : Nat → State, exec (.seGather 0 (.conductor 0 gatherCommand)) gatherState = .next (m 2)
    ∧ m 0 = gatherState ∧ ∀ e < 4, (m 1).readLe (0x2000 + 4 * e) 4 = 0 := by
  obtain ⟨m, hexec, hfirst, hrows⟩ := engineRows gatherState 0 (.conductor 0 gatherCommand) 0 false gatherCommand id
    (.inl ⟨rfl, rfl, rfl⟩) (by decide) gatherState_spans (fun _ => by decide) (.seGather 0 (.conductor 0 gatherCommand)) (by decide)
  obtain ⟨-, -, -, -, -, -, -, -, -, -, -, -, -, hgather, -⟩ := hrows 0 (by decide) _ _ rfl rfl
  refine ⟨m, hexec, hfirst, fun e he => ?_⟩
  have hindex : (m 0).readLe 0x3000 4 = 0xFFFFFFFF := by rw [hfirst]; decide
  refine ((hgather (by decide)).1 e he).trans ?_
  change convElem (seOf gatherCommand) 0 e (if (m 0).readLe 0x3000 4 = 0xFFFFFFFF then 0 else _) % _ = 0
  rw [if_pos hindex]
  rfl

end Sys2Proof.Machine

namespace Sys2Proof.Machine

open Claims

variable {s : State} {t : Tile} {g : Guard}

/-! Class 4: appends to paged K/V and candidate verification (R187 to R193). -/

/-- An attention instruction that no append of its context holds back issues like any other (R189). -/
theorem attIssue_ready {w : Slot} {c : Nat} {body : State → Eff} (hw : (s.tile t).appendWaits c = false) :
    attIssue t g w c body s = issue t g w body s := by
  simp only [attIssue, issue, hw, Bool.false_eq_true, if_false]

/-! AAPPEND. -/

/-- An AAPPEND that passes its checks queues its rows and counts 32 busy cycles of the array. -/
theorem aappendEff_queues {isV : Bool} {c : Nat} {acc st sn : BitVec 5} {head : BitVec 6} {b : Binding} {p : AccTile}
    (hf : aappendFault s t isV c acc sn head = none) (hb : (s.tile t).binding c = some b)
    (hp : accTile true acc.toNat = some p) :
    aappendEff t isV c acc st sn head s = .done (s.modTile t (fun y => { y with
      busy := (y.busy + 32) % 2 ^ 64,
      appends := y.appends ++ [⟨(s.tile t).pc, c, if isV then b.vl else b.kl, ((s.tile t).sreg st).toNat, head.toNat,
        (List.range ((s.tile t).sreg sn).toNat).map (fun i => (s.tile t).accRow p i)⟩] })) := by
  simp only [aappendEff, hf, hb, hp, onTile]

/-! The sequence notes of the conductor. -/

/-- Noting a record's STATE changes the conductor's own state alone. -/
theorem State.seqNote_rest (s : State) (j rec : Nat) : s.seqNote j rec = { s with sched := (s.seqNote j rec).sched } := by
  unfold State.seqNote
  split
  · rfl
  · dsimp only
    split <;> rfl

@[simp] theorem State.seqNote_mem (s : State) (j rec : Nat) : (s.seqNote j rec).mem = s.mem := by rw [State.seqNote_rest]

@[simp] theorem State.seqNote_tiles (s : State) (j rec : Nat) : (s.seqNote j rec).tiles = s.tiles := by rw [State.seqNote_rest]

@[simp] theorem State.seqNote_dealers (s : State) (j rec : Nat) : (s.seqNote j rec).dealers = s.dealers := by
  rw [State.seqNote_rest]

@[simp] theorem State.tile_seqNote (s : State) (j rec u : Nat) : (s.seqNote j rec).tile u = s.tile u := by
  rw [State.seqNote_rest]; rfl

@[simp] theorem State.tile_setSeqState (s : State) (j rec v u : Nat) : (s.setSeqState j rec v).tile u = s.tile u := by
  rw [State.setSeqState, State.tile_seqNote, State.tile_writeLe]

/-- Setting STATE is a write of one byte of the record. -/
theorem State.setSeqState_bytes (s : State) (j rec v : Nat) :
    (s.setSeqState j rec v).mem.bytes = (s.writeLe (rec + 2) 1 v).mem.bytes := by
  rw [State.setSeqState, State.seqNote_mem]

/-! APPEND_PAGE_WRITE. -/

/-- The append cannot be served in full: its sequence does not run, or a slot of it is not backed by a page (R188). -/
def State.AppendUnbacked (s : State) (a : AppendRec) : Prop :=
  let l := pageListOf a.list
  s.seqState l.seqBase ≠ 2 ∨ s.seqReserve l.seqBase < a.first + a.rows.length
    ∨ s.entryMissing l a.head a.first a.rows.length = true

/-- A failed append leaves the outstanding ones and is reported against its slot. -/
def State.appendFails (s : State) (t n : Nat) (a : AppendRec) (e : AccErr) : State :=
  (s.modTile t (fun y => y.dropAppend n)).tileReport t a.slot e.code (s.tile t).job (s.tile t).handId e.data

/-- Append `n` of the tile is no longer outstanding; registers and memories of the tile are as they were. -/
def AppendServed (s : State) (t n : Nat) (s' : State) : Prop :=
  (s'.tile t).appends = (s.tile t).appends.eraseIdx n ∧ (s'.tile t).s = (s.tile t).s ∧ (s'.tile t).acc = (s.tile t).acc
    ∧ (s'.tile t).spad = (s.tile t).spad

section Append

variable {n : Nat} {a : AppendRec}

theorem appendPageWrite_committed (ha : (s.tile t).appends[n]? = some a)
    (hc : s.checkAccesses (.job (s.tile t).job) [((pageListOf a.list).seqBase, 64)] = none)
    (h : a.first < s.seqTail (pageListOf a.list).seqBase) :
    ∃ data, appendPageWrite t n s = s.appendFails t n a ⟨Codes.appendCommitted, data⟩ :=
  ⟨pageData (s.seqId (pageListOf a.list).seqBase) a.first, by simp only [appendPageWrite, ha, hc, h, if_true, State.appendFails]⟩

theorem appendPageWrite_unbacked (ha : (s.tile t).appends[n]? = some a)
    (hc : s.checkAccesses (.job (s.tile t).job) [((pageListOf a.list).seqBase, 64)] = none)
    (h : s.seqTail (pageListOf a.list).seqBase ≤ a.first) (hu : s.AppendUnbacked a) :
    appendPageWrite t n s = (s.appendUnbacked t (s.tile t).job a).modTile t (fun y => y.dropAppend n) := by
  unfold State.AppendUnbacked at hu
  simp only [appendPageWrite, ha, hc, Nat.not_lt.2 h, if_false]
  exact if_pos hu

/-- With every slot backed, the rows are written when the accesses pass; otherwise the append fails. -/
theorem appendPageWrite_backed (ha : (s.tile t).appends[n]? = some a)
    (hc : s.checkAccesses (.job (s.tile t).job) [((pageListOf a.list).seqBase, 64)] = none)
    (h : s.seqTail (pageListOf a.list).seqBase ≤ a.first) (hu : ¬ s.AppendUnbacked a) :
    let l := pageListOf a.list
    appendPageWrite t n s = match s.checkAccesses (.job (s.tile t).job) (s.appendAccesses l a.head a.first a.rows.length),
        s.appendRows l a.head a.first 0 a.rows with
      | some e, _ => s.appendFails t n a e
      | none, .error e => s.appendFails t n a e
      | none, .ok s1 => s1.modTile t (fun y => y.dropAppend n) := by
  unfold State.AppendUnbacked at hu
  simp only [appendPageWrite, ha, hc, Nat.not_lt.2 h, if_false]
  exact (if_neg hu).trans rfl

theorem State.appendFails_served (s : State) (t n : Nat) (a : AppendRec) (e : AccErr) :
    AppendServed s t n (s.appendFails t n a e) := by
  obtain ⟨⟨f, htile⟩, -⟩ := State.tileReport_spec (s.modTile t (fun y => y.dropAppend n)) t a.slot e.code (s.tile t).job
    (s.tile t).handId e.data
  rw [State.tile_modTile_same] at htile
  unfold AppendServed State.appendFails
  rw [htile]
  exact ⟨rfl, rfl, rfl, rfl⟩

/-- What an unbacked append leaves: STATE of a running record is 3, no other byte changes, and it is counted. -/
theorem State.appendUnbacked_spec (s : State) (t j : Nat) (a : AppendRec) :
    let r := (pageListOf a.list).seqBase
    let m := s.appendUnbacked t j a
    (∀ k, k ≠ r + 2 → m.mem.bytes.get 0 k = s.mem.bytes.get 0 k)
      ∧ m.mem.bytes.get 0 (r + 2) = (if s.seqState r = 2 then 3 else s.mem.bytes.get 0 (r + 2))
      ∧ m.tile t = { s.tile t with regs := { (s.tile t).regs with
          appendDropped := satAdd (2 ^ 32 - 1) (s.tile t).regs.appendDropped 1 } } := by
  unfold State.appendUnbacked
  dsimp only
  split
  · refine ⟨fun k hk => ?_, ?_, by simp⟩ <;>
      rw [State.modTile_mem, State.report_mem, State.setSeqState_bytes, State.byte_writeLe]
    · exact if_neg (by omega)
    · rw [if_pos (by omega), Nat.sub_self]; rfl
  · exact ⟨fun k _ => by simp, by simp, by simp⟩

/-- The rows of an append go to memory: no tile changes. -/
theorem appendRows_tile {l : PageList} {head first : Nat} (u : Nat) : ∀ (rows : List (List W32)) (i : Nat) (s s1 : State),
    s.appendRows l head first i rows = .ok s1 → s1.tile u = s.tile u
  | [], i, s, s1, h => by
    simp only [State.appendRows, Except.ok.injEq] at h
    rw [h]
  | ws :: rest, i, s, s1, h => by
    unfold State.appendRows at h
    split at h
    · cases h
    · rw [appendRows_tile u rest _ _ _ h, State.tile_writeMem]

theorem appendServed_modTile {m : State} (h : m.tile t = s.tile t) : AppendServed s t n (m.modTile t (fun y => y.dropAppend n)) := by
  unfold AppendServed
  rw [State.tile_modTile_same, h]
  exact ⟨rfl, rfl, rfl, rfl⟩

theorem appendPageWrite_served (ha : (s.tile t).appends[n]? = some a)
    (hc : s.checkAccesses (.job (s.tile t).job) [((pageListOf a.list).seqBase, 64)] = none) :
    AppendServed s t n (appendPageWrite t n s) := by
  rcases Nat.lt_or_ge a.first (s.seqTail (pageListOf a.list).seqBase) with h | h
  · obtain ⟨data, heq⟩ := appendPageWrite_committed ha hc h
    rw [heq]
    exact State.appendFails_served ..
  · by_cases hu : s.AppendUnbacked a
    · obtain ⟨-, -, htile⟩ := State.appendUnbacked_spec s t (s.tile t).job a
      unfold AppendServed
      rw [appendPageWrite_unbacked ha hc h hu, State.tile_modTile_same, htile]
      exact ⟨rfl, rfl, rfl, rfl⟩
    · rw [appendPageWrite_backed ha hc h hu]
      split
      · exact State.appendFails_served ..
      · exact State.appendFails_served ..
      · next hrows => exact appendServed_modTile (appendRows_tile _ _ _ _ _ hrows)

end Append

/-! AVERIFY. -/

section Verify

variable {c : Nat} {dc ds : BitVec 6} {rd : BitVec 5} {b : Binding} {tree : CandTree}

theorem averifyEff_runs (hf : averifyFault s t c dc ds = none) (hb : (s.tile t).binding c = some b)
    (htree : candTree (s.words32 t (tensorOf ((s.tile t).dreg dc)) 16) = some tree) :
    averifyEff t c dc ds rd s
      = averifyRun t b tree (fun i => s.elemBits t (tensorOf ((s.tile t).dreg ds)) ⟨0, 0, 0, 0⟩ i) rd s := by
  simp only [averifyEff, hf, hb, htree]

variable {choice : Nat → Nat}

/-- AVERIFY of a sequence that does not run reports it and clears RD. -/
theorem averifyRun_paused (hc : s.checkAccesses (.job (s.tile t).job) [((pageListOf b.kl).seqBase, 64)] = none)
    (h : s.seqState (pageListOf b.kl).seqBase ≠ 2) :
    ∃ info, averifyRun t b tree choice rd s
      = .done ((s.report Codes.verifyPaused info).modTile t (fun y => y.setS rd 0)) := by
  refine ⟨tileInfo s t (pageData (s.seqId (pageListOf b.kl).seqBase) (s.seqTail (pageListOf b.kl).seqBase)), ?_⟩
  simp only [averifyRun, hc]
  exact if_pos h

/-- AVERIFY of a running sequence: the moves, then TAIL, ACCEPTED and RD. -/
theorem averifyRun_moved {s1 : State} (hc : s.checkAccesses (.job (s.tile t).job) [((pageListOf b.kl).seqBase, 64)] = none)
    (h : s.seqState (pageListOf b.kl).seqBase = 2)
    (hm : s.movePath (s.tile t).job (pageListOf b.kl)
      (if pagedList b.vl then pageListOf b.vl else { pageListOf b.kl with isV := true })
      (s.seqTail (pageListOf b.kl).seqBase) 0 (accepted tree choice) = .ok s1) :
    let r := (pageListOf b.kl).seqBase
    let n := (accepted tree choice).length
    averifyRun t b tree choice rd s = .done (((s1.writeLe (r + 8) 8 (s.seqTail r + n)).writeLe (r + 0x2C) 1 n).modTile t
      (fun y => y.setS rd (BitVec.ofNat 64 n))) := by
  simp only [averifyRun, hc, h, hm, ne_eq, not_true_eq_false, if_false]

/-- TAIL and ACCEPTED of a record after they are written, and the other bytes. -/
theorem tail_accepted_written (m : State) (r len n : Nat) :
    let m' := (m.writeLe (r + 8) 8 len).writeLe (r + 0x2C) 1 n
    m'.readLe (r + 8) 8 = len % 2 ^ 64 ∧ m'.readLe (r + 0x2C) 1 = n % 256
      ∧ ∀ k, ¬ (r + 8 ≤ k ∧ k < r + 16) → k ≠ r + 0x2C → m'.mem.bytes.get 0 k = m.mem.bytes.get 0 k := by
  refine ⟨?_, State.readLe_writeLe _ _ _ _, fun k htail hacc => ?_⟩
  · rw [State.readLe_writeLe_other _ _ _ _ _ _ (by omega), State.readLe_writeLe]
    norm_num
  · rw [byte_writeLe_other _ _ _ _ _ (by omega), byte_writeLe_other _ _ _ _ _ (by omega)]

theorem passed_setS (x : TileSt) (rd : BitVec 5) (v : W64) : Passed x (x.setS rd v).countIssue.advance := by
  have hkeep := TileSt.setS_eq x rd v
  exact passed_advance x (x.setS rd v) (congrArg TileSt.loops hkeep :) (congrArg TileSt.pc hkeep :)
    (congrArg TileSt.issued hkeep :)

end Verify

/-- Settles O21: an append is served in one of the ways of R188, and AVERIFY is `averifyRun` on the checked candidates. -/
theorem pagedAppendAndVerify : Obligations.PagedAppendAndVerify := by
  unfold Obligations.PagedAppendAndVerify
  intro s t g isV c acc st sn rd head dc ds n x
  refine ⟨fun b p hr hw hf hb hp => ⟨_, rfl, ?queues⟩, ?append, ?verify⟩
  case queues =>
    rw [attIssue_ready hw]
    exact (tileTo_issue _ hr rfl (aappendEff_queues hf hb hp) rfl rfl rfl).1
  case append =>
    intro a ha l unbacked hc
    obtain ⟨happ, hs, hacc, hspad⟩ := appendPageWrite_served ha hc
    refine ⟨_, rfl, happ, hs, hacc, hspad, fun h => ?committed, fun h hu => ?unbacked, fun h hu hcheck s1 hrows => ?rows⟩
    case committed =>
      obtain ⟨data, heq⟩ := appendPageWrite_committed ha hc h
      obtain ⟨-, -, hmem, hjob⟩ := State.tileReport_spec (s.modTile t (fun y => y.dropAppend n)) t a.slot Codes.appendCommitted
        x.job x.handId data
      rw [heq]
      exact ⟨hmem, hjob⟩
    case unbacked =>
      obtain ⟨hframe, hstate, htile⟩ := State.appendUnbacked_spec s t x.job a
      rw [appendPageWrite_unbacked ha hc h hu, State.tile_modTile_same, htile]
      exact ⟨hframe, hstate, rfl⟩
    case rows =>
      rw [appendPageWrite_backed ha hc h hu, hcheck, hrows]
      rfl
  case verify =>
    intro b tree hr hw hf hb htree kl vl path hc
    have hrun := averifyEff_runs (rd := rd) hf hb htree
    refine ⟨_, congrArg Host.Outcome.next (attIssue_ready hw), fun h => ?paused, fun h s1 hm => ?moved⟩
    case paused =>
      obtain ⟨info, hpaused⟩ := averifyRun_paused (tree := tree) (rd := rd) hc h
      rw [issue_done hr.1 hr.2 (hrun.trans hpaused), State.modTile_modTile, State.tile_report]
      exact ⟨(TileSt.sreg_setS x rd rd 0).trans (by simp), by simp, passed_setS x rd 0⟩
    case moved =>
      rw [issue_done hr.1 hr.2 (hrun.trans (averifyRun_moved hc h hm)), State.modTile_modTile]
      exact ⟨(TileSt.sreg_setS _ rd rd _).trans (if_pos rfl), tail_accepted_written s1 kl.seqBase _ path.length⟩

end Sys2Proof.Machine

namespace Sys2Proof.Machine

open Claims

/-! The writes of the conductor in the sequence records of a job (Table 5 of 06, R197 to R200). -/

/-- Bytes of a sequence record, its page entries included (R184). -/
def State.seqBytes (s : State) (r : Nat) : Nat := 64 + 8 * s.seqLayers r * s.seqHeads r * s.seqEntries r

/-- Byte `a` is in a page entry of record `r`, or at one of the offsets `W` of its header. The record's size is that in `b`. -/
def State.InRecord (b : State) (W : Nat → Prop) (r a : Nat) : Prop :=
  r ≤ a ∧ a < r + b.seqBytes r ∧ (a < r + 64 → W (a - r))

/-- The records do not overlap. -/
def RecordsApart (b : State) (T : List Nat) : Prop := T.Pairwise (fun a c => a + b.seqBytes a ≤ c ∨ c + b.seqBytes c ≤ a)

/-- In memory only page entries and header bytes `W` of the records `rs` change; no tile, Dealer or job descriptor does. -/
structure Serves (b : State) (W : Nat → Prop) (rs : List Nat) (s s' : State) : Prop where
  tiles   : s'.tiles = s.tiles
  dealers : s'.dealers = s.dealers
  desc    : ∀ j, (s'.job j).map (·.desc) = (s.job j).map (·.desc)
  bytes   : ∀ a, (∀ r ∈ rs, ¬ b.InRecord W r a) → s'.mem.bytes.get 0 a = s.mem.bytes.get 0 a

/-- LAYERS, HEADS and ENTRIES of record `r` are those in `b`. -/
structure Shaped (b s : State) (r : Nat) : Prop where
  layers  : s.seqLayers r = b.seqLayers r
  heads   : s.seqHeads r = b.seqHeads r
  entries : s.seqEntries r = b.seqEntries r

/-- Every byte of record `r` is the same. -/
def SameRecord (b : State) (r : Nat) (s s' : State) : Prop :=
  ∀ a, r ≤ a → a < r + b.seqBytes r → s'.mem.bytes.get 0 a = s.mem.bytes.get 0 a

/-- The offsets leave LAYERS, HEADS and ENTRIES alone. -/
def KeepsShape (W : Nat → Prop) : Prop := ∀ o, W o → o ≠ 4 ∧ o ≠ 5 ∧ ¬ (0x18 ≤ o ∧ o < 0x1C)

theorem Shaped.refl (b : State) (r : Nat) : Shaped b b r := ⟨rfl, rfl, rfl⟩

theorem State.seqBytes_header (s : State) (r : Nat) : 64 ≤ s.seqBytes r := Nat.le_add_right _ _

theorem State.byte_inRecord {b : State} {W : Nat → Prop} {r o a : Nat} (ho : r + o = a) (h64 : o < 64) (hW : W o) :
    b.InRecord W r a := by
  have := b.seqBytes_header r
  subst ho
  exact ⟨by omega, by omega, fun _ => by rwa [Nat.add_sub_cancel_left]⟩

section Apart

variable {b : State} {T : List Nat}

theorem RecordsApart.ne (hT : RecordsApart b T) {r q : Nat} (hr : r ∈ T) (hq : q ∈ T) (hne : r ≠ q) :
    r + b.seqBytes r ≤ q ∨ q + b.seqBytes q ≤ r := by
  have : Std.Symm (fun a c => a + b.seqBytes a ≤ c ∨ c + b.seqBytes c ≤ a) := ⟨fun _ _ h => h.symm⟩
  exact List.Pairwise.forall hT hr hq hne

theorem RecordsApart.nodup (hT : RecordsApart b T) : T.Nodup := by
  refine List.Pairwise.imp (fun {r q} h => ?_) hT
  have := b.seqBytes_header r
  have := b.seqBytes_header q
  omega

theorem recordsApart_singleton (b : State) (r : Nat) : RecordsApart b [r] := List.pairwise_singleton _ _

end Apart

section Serves

variable {b s s' s'' : State} {W V : Nat → Prop} {rs qs T : List Nat} {r : Nat}

theorem Serves.of_mem (htiles : s'.tiles = s.tiles) (hdealers : s'.dealers = s.dealers)
    (hdesc : ∀ j, (s'.job j).map (·.desc) = (s.job j).map (·.desc)) (hmem : s'.mem.bytes = s.mem.bytes) :
    Serves b W rs s s' := ⟨htiles, hdealers, hdesc, fun _ _ => by rw [hmem]⟩

theorem Serves.refl (b : State) (W : Nat → Prop) (rs : List Nat) (s : State) : Serves b W rs s s :=
  .of_mem rfl rfl (fun _ => rfl) rfl

theorem Serves.trans (h : Serves b W rs s s') (k : Serves b W rs s' s'') : Serves b W rs s s'' :=
  ⟨k.tiles.trans h.tiles, k.dealers.trans h.dealers, fun j => (k.desc j).trans (h.desc j),
    fun a ha => (k.bytes a ha).trans (h.bytes a ha)⟩

theorem Serves.mono (h : Serves b W rs s s') (hW : ∀ o, W o → V o) (hrs : ∀ q ∈ rs, q ∈ qs) : Serves b V qs s s' :=
  ⟨h.tiles, h.dealers, h.desc, fun a ha => h.bytes a fun q hq ⟨hlo, hhi, hw⟩ =>
    ha q (hrs q hq) ⟨hlo, hhi, fun h64 => hW _ (hw h64)⟩⟩

/-- A header field that no write may touch keeps its value, in every record. -/
theorem Serves.field (h : Serves b W rs s s') (hT : RecordsApart b T) (hrs : ∀ q ∈ rs, q ∈ T) (hr : r ∈ T) {o n : Nat}
    (ho : o + n ≤ 64) (hW : ∀ i, o ≤ i → i < o + n → ¬ W i) : s'.readLe (r + o) n = s.readLe (r + o) n := by
  refine readLe_ext _ _ _ _ fun a hlo hhi => h.bytes a fun q hq ⟨hqlo, hqhi, hw⟩ => ?_
  by_cases hne : r = q
  · subst hne
    exact hW (a - r) (by omega) (by omega) (hw (by omega))
  · have := b.seqBytes_header r
    have := hT.ne hr (hrs q hq) hne
    omega

/-- A record that is not served keeps all its bytes. -/
theorem Serves.other (h : Serves b W rs s s') (hT : RecordsApart b T) (hrs : ∀ q ∈ rs, q ∈ T) (hr : r ∈ T) (hnot : r ∉ rs) :
    SameRecord b r s s' := by
  refine fun a hlo hhi => h.bytes a fun q hq ⟨hqlo, hqhi, _⟩ => ?_
  have := hT.ne hr (hrs q hq) (fun heq => hnot (heq ▸ hq))
  omega

theorem Serves.shaped (h : Serves b W rs s s') (hW : KeepsShape W) (hT : RecordsApart b T) (hrs : ∀ q ∈ rs, q ∈ T) (hr : r ∈ T)
    (hs : Shaped b s r) : Shaped b s' r := by
  obtain ⟨hlayers, hheads, hentries⟩ := hs
  refine ⟨(h.field hT hrs hr (by omega) ?_).trans hlayers, (h.field hT hrs hr (by omega) ?_).trans hheads,
    (h.field hT hrs hr (by omega) ?_).trans hentries⟩ <;>
  · intro i hlo hhi hw
    have := hW i hw
    omega

theorem SameRecord.refl (b : State) (r : Nat) (s : State) : SameRecord b r s s := fun _ _ _ => rfl

theorem SameRecord.trans (h : SameRecord b r s s') (k : SameRecord b r s' s'') : SameRecord b r s s'' :=
  fun a hlo hhi => (k a hlo hhi).trans (h a hlo hhi)

theorem SameRecord.field (h : SameRecord b r s s') {o n : Nat} (ho : o + n ≤ 64) : s'.readLe (r + o) n = s.readLe (r + o) n := by
  have := b.seqBytes_header r
  exact readLe_ext _ _ _ _ fun a hlo hhi => h a (by omega) (by omega)

theorem SameRecord.shaped (h : SameRecord b r s s') (hs : Shaped b s r) : Shaped b s' r :=
  ⟨(h.field (by omega)).trans hs.layers, (h.field (by omega)).trans hs.heads, (h.field (by omega)).trans hs.entries⟩

end Serves

/-! Folds over records. -/

section Fold

variable {α : Type} {b : State} {W : Nat → Prop} {T : List Nat} {f : State → α → State} {key : α → Nat}

/-- A fold that serves one record at a time serves them all. -/
theorem serves_foldl (hT : RecordsApart b T) (hW : KeepsShape W) (l : List α) (s : State) (hkey : ∀ a ∈ l, key a ∈ T)
    (hf : ∀ m, ∀ a ∈ l, Shaped b m (key a) → Serves b W [key a] m (f m a)) (hs : ∀ r ∈ T, Shaped b s r) :
    Serves b W (l.map key) s (l.foldl f s) := by
  induction l generalizing s with
  | nil => exact .refl b W _ s
  | cons a l ih =>
    rw [List.forall_mem_cons] at hkey
    have ha := hf s a (by simp) (hs _ hkey.1)
    have hshape : ∀ r ∈ T, Shaped b (f s a) r := fun r hr => ha.shaped hW hT (by simpa using hkey.1) hr (hs r hr)
    have hl := ih (f s a) hkey.2 (fun m x hx => hf m x (by simp [hx])) hshape
    exact (ha.mono (fun _ hw => hw) (by simp)).trans (hl.mono (fun _ hw => hw) fun q hq => List.mem_cons_of_mem _ hq)

/-- In such a fold over distinct records, each record is as its own step leaves it. -/
theorem foldl_sameRecord (hT : RecordsApart b T) (hW : KeepsShape W) (l : List α) (s : State) (hkey : ∀ a ∈ l, key a ∈ T)
    (hnodup : (l.map key).Nodup) (hf : ∀ m, ∀ a ∈ l, Shaped b m (key a) → Serves b W [key a] m (f m a))
    (hs : ∀ r ∈ T, Shaped b s r) {a : α} (ha : a ∈ l) :
    ∃ m, SameRecord b (key a) s m ∧ SameRecord b (key a) (f m a) (l.foldl f s) := by
  induction l generalizing s with
  | nil => cases ha
  | cons x l ih =>
    rw [List.forall_mem_cons] at hkey
    rw [List.map_cons, List.nodup_cons] at hnodup
    have hfl : ∀ m, ∀ y ∈ l, Shaped b m (key y) → Serves b W [key y] m (f m y) := fun m y hy => hf m y (by simp [hy])
    have hstep := hf s x (by simp) (hs _ hkey.1)
    have hx : ∀ q ∈ [key x], q ∈ T := by simpa using hkey.1
    have hshape : ∀ r ∈ T, Shaped b (f s x) r := fun r hr => hstep.shaped hW hT hx hr (hs r hr)
    rcases List.mem_cons.1 ha with rfl | ha
    · have hrest := serves_foldl hT hW l (f s a) hkey.2 hfl hshape
      exact ⟨s, .refl b _ s, hrest.other hT (List.forall_mem_map.2 hkey.2) hkey.1 hnodup.1⟩
    · obtain ⟨m, hm, hfold⟩ := ih (f s x) hkey.2 hnodup.2 hfl hshape ha
      have hne : key a ∉ [key x] := fun h => hnodup.1 (List.mem_singleton.1 h ▸ List.mem_map_of_mem ha)
      exact ⟨m, (hstep.other hT hx (hkey.2 a ha) hne).trans hm, hfold⟩

end Fold

/-! Single writes and notes. -/

section Writes

variable {b s : State} {W : Nat → Prop} {rs : List Nat} {r : Nat}

theorem serves_writeLe {o n : Nat} (v : Nat) (ho : o + n ≤ 64) (hW : ∀ i, o ≤ i → i < o + n → W i) :
    Serves b W [r] s (s.writeLe (r + o) n v) := by
  refine ⟨by simp, by simp, fun j => by simp, fun a ha => byte_writeLe_other _ _ _ _ _ ?_⟩
  by_contra hin
  exact ha r (by simp) (State.byte_inRecord (o := a - r) (by omega) (by omega) (hW _ (by omega) (by omega)))

theorem serves_seqNote (j q : Nat) : Serves b W rs s (s.seqNote j q) := by
  refine .of_mem (by simp) (by simp) (fun k => ?_) (by simp)
  unfold State.seqNote
  split
  · rfl
  · next x hx =>
    dsimp only
    split
    · rfl
    · refine (congrArg _ (State.job_setJob s j k _)).trans ?_
      split
      · next hk => subst hk; rw [hx]; rfl
      · rfl

theorem serves_setSeqState (j v : Nat) (hW : W 2) : Serves b W [r] s (s.setSeqState j r v) := by
  refine (serves_writeLe v (by omega) fun i hlo hhi => ?_).trans (serves_seqNote j r)
  rwa [show i = 2 by omega]

theorem serves_report (c : Code) (i : RecInfo) : Serves b W rs s (s.report c i) :=
  .of_mem (by simp) (by simp) (fun j => by simp) (by simp)

theorem serves_modJob (j : Nat) (f : JobSt → JobSt) (hf : ∀ x, (f x).desc = x.desc) : Serves b W rs s (s.modJob j f) := by
  refine .of_mem (by simp) (by simp) (fun k => ?_) (by simp)
  rw [State.job_modJob]
  split
  · next hk =>
    subst hk
    cases s.job k <;> simp [hf]
  · rfl

theorem State.seqObserve_mem (s : State) (j : Nat) : (s.seqObserve j).mem = s.mem :=
  fold_same _ State.mem (fun _ _ => State.seqNote_mem _ _ _) _ s

theorem serves_seqObserve (j : Nat) : Serves b W rs s (s.seqObserve j) := by
  unfold State.seqObserve
  generalize s.seqTable j = l
  induction l generalizing s with
  | nil => exact .refl b W rs s
  | cons q l ih => exact (serves_seqNote j q).trans ih

/-- A job's table depends on its descriptor and on the bytes the table lies in. -/
theorem State.seqTable_congr {s' : State} {j : Nat} (hdesc : (s'.job j).map (·.desc) = (s.job j).map (·.desc))
    (hbytes : ∀ x, s.job j = some x → ∀ a, x.desc.seqTable ≤ a → a < x.desc.seqTable + 8 * x.desc.seqCount →
      s'.mem.bytes.get 0 a = s.mem.bytes.get 0 a) : s'.seqTable j = s.seqTable j := by
  unfold State.seqTable
  cases hx : s.job j <;> cases hx' : s'.job j <;> rw [hx, hx'] at hdesc <;> simp only [Option.map_none, Option.map_some,
    reduceCtorEq, Option.some.injEq] at hdesc ⊢
  rw [hdesc]
  refine List.map_congr_left fun i hi => readLe_ext _ _ _ _ fun a hlo hhi => hbytes _ hx a (by omega) ?_
  have := List.mem_range.1 hi
  omega

/-- Serving the records of a table that lies apart from them keeps the table. -/
theorem Serves.table_kept {m : State} {j : Nat} (h : Serves s W (s.seqTable j) s m)
    (htable : ∀ x, s.job j = some x → ∀ r ∈ s.seqTable j,
      x.desc.seqTable + 8 * (s.seqTable j).length ≤ r ∨ r + s.seqBytes r ≤ x.desc.seqTable) : m.seqTable j = s.seqTable j := by
  refine State.seqTable_congr (h.desc j) fun x hx a hlo hhi => h.bytes a fun r hr ⟨hrlo, hrhi, _⟩ => ?_
  have hlen : (s.seqTable j).length = x.desc.seqCount := by simp only [State.seqTable, hx, List.length_map, List.length_range]
  have := htable x hx r hr
  omega

theorem State.seqTable_seqObserve (s : State) (j : Nat) : (s.seqObserve j).seqTable j = s.seqTable j :=
  State.seqTable_congr ((serves_seqObserve (b := s) (W := fun _ => True) (rs := []) j).desc j) fun _ _ _ _ _ => by
    rw [State.seqObserve_mem]

theorem State.kvFreePages_seqObserve (s : State) (j : Nat) : (s.seqObserve j).kvFreePages j = s.kvFreePages j := by
  have hdesc := (serves_seqObserve (b := s) (W := fun _ => True) (rs := []) (s := s) j).desc j
  have hmem := State.seqObserve_mem s j
  unfold State.kvFreePages
  rw [State.seqTable_seqObserve]
  generalize s.seqObserve j = o at hdesc hmem
  cases hx : s.job j <;> cases ho : o.job j <;> rw [hx, ho] at hdesc <;> simp only [Option.map_none, Option.map_some,
    reduceCtorEq, Option.some.injEq] at hdesc ⊢
  unfold State.seqState State.seqLayers State.seqHeads State.seqEntries State.readLe State.readMem
  rw [hdesc, hmem]

end Writes

/-! The order of the sequences (R197). -/

theorem insertKey_perm {α : Type} (key : α → Nat) (a : α) (l : List α) : (insertKey key a l).Perm (a :: l) := by
  induction l with
  | nil => exact .refl _
  | cons x l ih =>
    unfold insertKey
    split
    · exact .refl _
    · exact (ih.cons x).trans (.swap a x l)

theorem sortKey_perm {α : Type} (key : α → Nat) (l : List α) : (sortKey key l).Perm l := by
  have hfold : ∀ (l acc : List α), (l.foldl (fun acc a => insertKey key a acc) acc).Perm (l ++ acc) := by
    intro l
    induction l with
    | nil => exact fun acc => .refl _
    | cons a l ih => exact fun acc => (ih _).trans (((insertKey_perm key a acc).append_left l).trans List.perm_middle)
  simpa [sortKey] using hfold l []

theorem State.mem_seqTable_of_seqOrder {s : State} {j r : Nat} (h : r ∈ s.seqOrder j) : r ∈ s.seqTable j := by
  unfold State.seqOrder at h
  split at h
  · cases h
  · simp only [List.mem_append, (sortKey_perm _ _).mem_iff, List.mem_filter] at h
    tauto

/-- A record has one STATE, so it stands once in the order. -/
theorem State.seqOrder_nodup {s : State} {j : Nat} (h : (s.seqTable j).Nodup) : (s.seqOrder j).Nodup := by
  unfold State.seqOrder
  split
  · exact List.nodup_nil
  · have hpart (key : Nat → Nat) (v : Nat) : (sortKey key ((s.seqTable j).filter (fun r => s.seqState r == v))).Nodup :=
      (sortKey_perm _ _).nodup_iff.2 (h.filter _)
    simp only [List.nodup_append', hpart, true_and, List.disjoint_left, List.mem_append, (sortKey_perm _ _).mem_iff,
      List.mem_filter, beq_iff_eq]
    constructor
    · rintro r ⟨-, h2⟩ ⟨-, h3⟩
      omega
    · rintro r (⟨-, h2⟩ | ⟨-, h3⟩) ⟨-, h1⟩ <;> omega

/-! Page rows (R197). -/

/-- Address of the entry of cell `c` (K and V, layer, head) in page row `e` of a record. -/
def State.cellAddr (b : State) (r e c : Nat) : Nat := r + 0x40 + 4 * (c * b.seqEntries r + e)

/-- Writes pages into the cells of a row. -/
def State.putPages (b s : State) (r e : Nat) (cells : List (Nat × Nat)) : State :=
  cells.foldl (fun m c => m.writeLe (b.cellAddr r e c.1) 4 c.2) s

section Rows

variable {b s : State} {W : Nat → Prop} {r e : Nat}

/-- The order K and V, layer, head counts the cells. -/
theorem State.pageEntryAddr_cell (h : Shaped b s r) (e c : Nat) : s.pageEntryAddr r (c / (b.seqLayers r * b.seqHeads r))
    (c / b.seqHeads r % b.seqLayers r) (c % b.seqHeads r) e = b.cellAddr r e c := by
  unfold State.pageEntryAddr State.cellAddr
  rw [h.layers, h.heads, h.entries, Nat.mul_comm (b.seqLayers r), ← Nat.div_div_eq_div_mul, Nat.div_add_mod', Nat.div_add_mod']

/-- The four bytes of a cell are among the page entries of its record. -/
theorem State.cellAddr_inRecord {c : Nat} (hc : c < 2 * b.seqLayers r * b.seqHeads r) (he : e < b.seqEntries r) :
    r + 64 ≤ b.cellAddr r e c ∧ b.cellAddr r e c + 4 ≤ r + b.seqBytes r := by
  have hcell : (c + 1) * b.seqEntries r ≤ 2 * b.seqLayers r * b.seqHeads r * b.seqEntries r := Nat.mul_le_mul_right _ hc
  have hsize : b.seqBytes r = 64 + 4 * (2 * b.seqLayers r * b.seqHeads r * b.seqEntries r) := by
    unfold State.seqBytes; ring
  rw [Nat.succ_mul] at hcell
  unfold State.cellAddr
  omega

theorem serves_cell {c : Nat} (v : Nat) (hc : c < 2 * b.seqLayers r * b.seqHeads r) (he : e < b.seqEntries r) :
    Serves b W [r] s (s.writeLe (b.cellAddr r e c) 4 v) := by
  refine ⟨by simp, by simp, fun j => by simp, fun a ha => byte_writeLe_other _ _ _ _ _ ?_⟩
  by_contra hin
  obtain ⟨hlo, hhi⟩ := State.cellAddr_inRecord hc he
  exact ha r (by simp) ⟨by omega, by omega, fun h => by omega⟩

theorem SameRecord.cell {s' : State} {c : Nat} (h : SameRecord b r s s') (hc : c < 2 * b.seqLayers r * b.seqHeads r)
    (he : e < b.seqEntries r) : s'.readLe (b.cellAddr r e c) 4 = s.readLe (b.cellAddr r e c) 4 := by
  obtain ⟨hlo, hhi⟩ := State.cellAddr_inRecord hc he
  exact readLe_ext _ _ _ _ fun a halo hahi => h a (by omega) (by omega)

theorem serves_putPages (cells : List (Nat × Nat)) (hc : ∀ p ∈ cells, p.1 < 2 * b.seqLayers r * b.seqHeads r)
    (he : e < b.seqEntries r) : Serves b W [r] s (b.putPages s r e cells) := by
  unfold State.putPages
  induction cells generalizing s with
  | nil => exact .refl b W _ s
  | cons p cells ih =>
    rw [List.forall_mem_cons] at hc
    exact (serves_cell p.2 hc.1 he).trans (ih hc.2)

theorem State.readLe_cell_other {c d : Nat} (v : Nat) (he : e < b.seqEntries r) (hne : c ≠ d) :
    (s.writeLe (b.cellAddr r e c) 4 v).readLe (b.cellAddr r e d) 4 = s.readLe (b.cellAddr r e d) 4 := by
  refine State.readLe_writeLe_other _ _ _ _ _ _ ?_
  unfold State.cellAddr
  rcases Nat.lt_or_gt_of_ne hne with h | h
  · have := Nat.mul_le_mul_right (b.seqEntries r) (Nat.succ_le_of_lt h)
    rw [Nat.succ_mul] at this
    omega
  · have := Nat.mul_le_mul_right (b.seqEntries r) (Nat.succ_le_of_lt h)
    rw [Nat.succ_mul] at this
    omega

/-- Distinct cells hold the pages written to them. -/
theorem State.readLe_putPages (cells : List (Nat × Nat)) (hnodup : (cells.map Prod.fst).Nodup) (he : e < b.seqEntries r) :
    (∀ d, d ∉ cells.map Prod.fst → (b.putPages s r e cells).readLe (b.cellAddr r e d) 4 = s.readLe (b.cellAddr r e d) 4)
      ∧ ∀ p ∈ cells, (b.putPages s r e cells).readLe (b.cellAddr r e p.1) 4 = p.2 % 2 ^ 32 := by
  unfold State.putPages
  induction cells generalizing s with
  | nil => exact ⟨fun _ _ => rfl, fun _ h => by cases h⟩
  | cons q cells ih =>
    rw [List.map_cons, List.nodup_cons] at hnodup
    obtain ⟨hother, hread⟩ := ih (s := s.writeLe (b.cellAddr r e q.1) 4 q.2) hnodup.2
    refine ⟨fun d hd => ?_, List.forall_mem_cons.2 ⟨?_, hread⟩⟩
    · rw [List.map_cons, List.mem_cons, not_or] at hd
      exact (hother d hd.2).trans (State.readLe_cell_other _ he (Ne.symm hd.1))
    · exact (hother q.1 hnodup.1).trans (State.readLe_writeLe _ _ _ _)

/-- A row is given in full, its cells taking the lowest free pages in order, or not at all. -/
theorem State.giveRow_eq (h : Shaped b s r) (j e : Nat) : s.giveRow j r e
    = if (s.kvFreePages j).length < 2 * b.seqLayers r * b.seqHeads r ∨ b.seqEntries r ≤ e then none
      else some (b.putPages s r e ((List.range (2 * b.seqLayers r * b.seqHeads r)).zip (s.kvFreePages j))) := by
  unfold State.giveRow
  simp only [h.layers, h.heads, h.entries, List.length_range]
  refine if_ctx_congr Iff.rfl (fun _ => rfl) fun hroom => congrArg some ?_
  have he : e < b.seqEntries r := by omega
  have hcells : ∀ p ∈ (List.range (2 * b.seqLayers r * b.seqHeads r)).zip (s.kvFreePages j),
      p.1 < 2 * b.seqLayers r * b.seqHeads r := fun p hp => List.mem_range.1 (List.of_mem_zip hp).1
  unfold State.putPages
  generalize (List.range (2 * b.seqLayers r * b.seqHeads r)).zip (s.kvFreePages j) = cells at hcells
  clear hroom
  induction cells generalizing s with
  | nil => rfl
  | cons p cells ih =>
    rw [List.forall_mem_cons] at hcells
    rw [List.foldl_cons, List.foldl_cons, State.pageEntryAddr_cell h]
    have hstep : Serves b (fun _ => False) [r] s (s.writeLe (b.cellAddr r e p.1) 4 p.2) := serves_cell _ hcells.1 he
    exact ih (hstep.shaped (fun _ hw => hw.elim) (recordsApart_singleton b r) (fun _ hq => hq) (by simp) h) hcells.2

end Rows

/-! Reservations (R197). -/

/-- The bytes of RESERVE_END. -/
def ReserveBytes (o : Nat) : Prop := 0x10 ≤ o ∧ o < 0x18

theorem keepsShape_reserveBytes : KeepsShape ReserveBytes := by
  unfold KeepsShape ReserveBytes
  omega

section Reserve

variable {b s : State} {r j : Nat}

theorem serves_reserveEnd (v : Nat) : Serves b ReserveBytes [r] s (s.writeLe (r + 0x10) 8 v) :=
  serves_writeLe v (by omega) fun _ hlo hhi => ⟨hlo, hhi⟩

theorem serves_giveRow {s' : State} {e : Nat} (h : Shaped b s r) (hg : s.giveRow j r e = some s') : Serves b ReserveBytes [r] s s' := by
  rw [State.giveRow_eq h] at hg
  split at hg
  · cases hg
  · next hroom =>
    obtain rfl := Option.some.inj hg
    exact serves_putPages _ (fun p hp => List.mem_range.1 (List.of_mem_zip hp).1) (by omega)

/-- Raising a reservation touches RESERVE_END and page entries of its record. -/
theorem serves_reserveTo (target fuel : Nat) (h : Shaped b s r) : Serves b ReserveBytes [r] s (s.reserveTo j r target fuel) := by
  have hkeep {m m' : State} (hm : Serves b ReserveBytes [r] m m') : Shaped b m r → Shaped b m' r :=
    hm.shaped keepsShape_reserveBytes (recordsApart_singleton b r) (fun _ hq => hq) (by simp)
  induction fuel generalizing s with
  | zero => exact .refl b _ _ s
  | succ fuel ih =>
    unfold State.reserveTo
    dsimp only
    split
    · exact .refl b _ _ s
    · split
      · exact (serves_reserveEnd _).trans (ih (hkeep (serves_reserveEnd _) h))
      · split
        · exact .refl b _ _ s
        · next m hg =>
          have hrow := (serves_giveRow h hg).trans (serves_reserveEnd (s.seqReserve r + 512))
          exact hrow.trans (ih (hkeep hrow h))

/-- Reservations in a given order touch RESERVE_END and page entries of its records. -/
theorem serves_reservations {T rs : List Nat} (target : State → Nat → Nat) (hT : RecordsApart b T) (hrs : ∀ r ∈ rs, r ∈ T)
    (hs : ∀ r ∈ T, Shaped b s r) :
    Serves b ReserveBytes rs s (rs.foldl (fun s r => s.reserveTo j r (target s r) (target s r / 512 + 2)) s) := by
  simpa using serves_foldl (key := id) hT keepsShape_reserveBytes rs s hrs (fun m r _ h => serves_reserveTo _ _ h) hs

theorem serves_reserveAll {T : List Nat} (target : State → Nat → Nat) (hT : RecordsApart b T) (horder : ∀ r ∈ s.seqOrder j, r ∈ T)
    (hs : ∀ r ∈ T, Shaped b s r) : Serves b ReserveBytes T s (s.reserveAll j target) :=
  (serves_reservations target hT horder hs).mono (fun _ hw => hw) horder

/-- The sequences that follow the first leave its record as its own reservation left it. -/
theorem reserveAll_first {T rest : List Nat} (target : State → Nat → Nat) (hT : RecordsApart b T) (hs : ∀ q ∈ T, Shaped b s q)
    (hfirst : s.seqOrder j = r :: rest) (hnodup : (s.seqOrder j).Nodup) (horder : ∀ q ∈ s.seqOrder j, q ∈ T) :
    SameRecord b r (s.reserveTo j r (target s r) (target s r / 512 + 2)) (s.reserveAll j target) := by
  rw [hfirst] at hnodup horder
  rw [List.forall_mem_cons] at horder
  have hr : ∀ q ∈ [r], q ∈ T := by simpa using horder.1
  have hstep : Serves b ReserveBytes [r] s (s.reserveTo j r (target s r) (target s r / 512 + 2)) :=
    serves_reserveTo _ _ (hs r horder.1)
  unfold State.reserveAll
  rw [hfirst, List.foldl_cons]
  exact (serves_reservations target hT horder.2 fun q hq => hstep.shaped keepsShape_reserveBytes hT hr hq (hs q hq)).other hT
    horder.2 horder.1 (List.nodup_cons.1 hnodup).1

/-- Too few free pages for a row: the reservation stays. -/
theorem State.reserveTo_starved {target fuel : Nat} (h : Shaped b s r) (he : s.seqReserve r % 512 = 0) (ht : s.seqReserve r < target)
    (hfree : (s.kvFreePages j).length < 2 * b.seqLayers r * b.seqHeads r) : s.reserveTo j r target (fuel + 1) = s := by
  have hg : s.giveRow j r (s.seqReserve r / 512) = none := by rw [State.giveRow_eq h, if_pos (.inl hfree)]
  unfold State.reserveTo
  simp only [Nat.not_le.2 ht, he, hg, ne_eq, not_true_eq_false, if_false]

/-- Pages enough for the one row that meets the target: the row is given and RESERVE_END raised by 512. -/
theorem State.reserveTo_row {target fuel : Nat} (h : Shaped b s r) (he : s.seqReserve r % 512 = 0) (ht : s.seqReserve r < target)
    (hfree : 2 * b.seqLayers r * b.seqHeads r ≤ (s.kvFreePages j).length) (hentry : s.seqReserve r / 512 < b.seqEntries r)
    (hmeets : target ≤ s.seqReserve r + 512) (hfit : s.seqReserve r + 512 < 2 ^ 64) :
    s.reserveTo j r target (fuel + 2) = (b.putPages s r (s.seqReserve r / 512)
      ((List.range (2 * b.seqLayers r * b.seqHeads r)).zip (s.kvFreePages j))).writeLe (r + 0x10) 8 (s.seqReserve r + 512) := by
  have hg := (State.giveRow_eq h j (s.seqReserve r / 512)).trans (if_neg (by omega))
  generalize hm : (State.putPages _ _ _ _ _).writeLe _ _ _ = m
  have hend : m.seqReserve r = s.seqReserve r + 512 := by
    rw [← hm]
    exact (State.readLe_writeLe _ _ _ _).trans (Nat.mod_eq_of_lt hfit)
  rw [State.reserveTo]
  simp only [Nat.not_le.2 ht, he, hg, hm, ne_eq, not_true_eq_false, if_false]
  rw [State.reserveTo]
  simp only [hend, hmeets, if_true]

end Reserve

/-- Settles O29: the first sequence is served by `reserveTo_row` or `reserveTo_starved`, and the others leave its record alone. -/
theorem stepReservations : Obligations.StepReservations := by
  unfold Obligations.StepReservations
  refine fun s j => ⟨fun hrun => congrArg Host.Outcome.next (if_neg (by simp [hrun])), fun hrun => ?_⟩
  intro len hT
  change RecordsApart s (s.seqTable j) at hT
  have hexec : reserveStepPages j s = (s.seqObserve j).reserveAll j State.reserveTarget := if_pos hrun
  have hobs : Serves s ReserveBytes (s.seqTable j) s (s.seqObserve j) := serves_seqObserve j
  have hbytes : (s.seqObserve j).mem.bytes = s.mem.bytes := congrArg _ (State.seqObserve_mem s j)
  have hfree := State.kvFreePages_seqObserve s j
  have htable := State.seqTable_seqObserve s j
  generalize s.seqObserve j = o at hexec hobs hbytes hfree htable
  have hread (a n : Nat) : o.readLe a n = s.readLe a n := State.readLe_congr hbytes a n
  have hshape (r : Nat) : Shaped s o r := ⟨hread _ _, hread _ _, hread _ _⟩
  have horder : ∀ r ∈ o.seqOrder j, r ∈ s.seqTable j := fun r hr => htable ▸ State.mem_seqTable_of_seqOrder hr
  have hall := serves_reserveAll (j := j) State.reserveTarget hT horder (fun r _ => hshape r)
  have hserves := hexec ▸ hobs.trans hall
  have hfield {r : Nat} (hr : r ∈ s.seqTable j) {i n : Nat} (hi : i + n ≤ 64) (hW : i + n ≤ 0x10 ∨ 0x18 ≤ i) :
      (reserveStepPages j s).readLe (r + i) n = s.readLe (r + i) n :=
    hserves.field hT (fun _ hq => hq) hr hi fun k hlo hhi hw => by unfold ReserveBytes at hw; omega
  refine ⟨_, rfl, hserves.tiles, hserves.dealers, fun a ha => hserves.bytes a fun r hr hin => ?frame, fun r hr => ?fields, ?first⟩
  case frame =>
    have := hin.1
    have := hin.2.1
    have : a < r ∨ r + s.seqBytes r ≤ a := ha r hr
    omega
  case fields =>
    exact ⟨hfield hr (by omega) (by omega), hfield hr (by omega) (by omega), hfield hr (by omega) (by omega),
      hfield hr (by omega) (by omega), hfield hr (by omega) (by omega), hfield hr (by omega) (by omega)⟩
  case first =>
    intro r hfirst e cells he ht
    have hnodup : (o.seqOrder j).Nodup := State.seqOrder_nodup (htable ▸ hT.nodup)
    have hsame := hexec ▸ reserveAll_first State.reserveTarget hT (fun q _ => hshape q) hfirst hnodup horder
    have hend : o.seqReserve r = e := hread _ _
    have htarget : o.reserveTarget r = s.reserveTarget r := by
      unfold State.reserveTarget State.seqTail State.seqStepAppend State.seqState
      simp only [hread]
    rw [htarget] at hsame
    rw [← hend] at he ht ⊢
    rw [← hfree]
    constructor
    · intro hstarved
      rw [State.reserveTo_starved (hshape r) he ht hstarved] at hsame
      exact hsame.field (by omega)
    · intro hroom hentry hmeets hfit
      rw [State.reserveTo_row (hshape r) he ht hroom hentry hmeets hfit] at hsame
      refine ⟨((hsame.field (by omega)).trans (State.readLe_writeLe _ _ _ _)).trans (Nat.mod_eq_of_lt hfit), fun i hi => ?_⟩
      obtain ⟨hlo, -⟩ := State.cellAddr_inRecord hi hentry
      refine (hsame.cell hi hentry).trans ((State.readLe_writeLe_other _ _ _ _ _ _ (by omega)).trans ?_)
      have hlen : i < ((List.range cells).zip (o.kvFreePages j)).length := by
        rw [List.length_zip, List.length_range]
        omega
      have hcell := List.getElem_mem hlen
      rw [List.getElem_zip, List.getElem_range] at hcell
      have hkeys : (((List.range cells).zip (o.kvFreePages j)).map Prod.fst).Nodup := by
        rw [List.map_fst_zip (by rw [List.length_range]; exact hroom)]
        exact List.nodup_range
      refine ((State.readLe_putPages _ hkeys hentry).2 _ hcell).trans ?_
      rw [List.getD_eq_getElem _ _ (by omega)]

/-! The end of a step (R198, R199). -/

/-- The bytes of TAIL and of the step of the last append. -/
def TailBytes (o : Nat) : Prop := 8 ≤ o ∧ o < 0x10 ∨ 0x20 ≤ o ∧ o < 0x28

/-- The bytes of STATE and of the count of paused steps. -/
def StateBytes (o : Nat) : Prop := o = 2 ∨ 0x30 ≤ o ∧ o < 0x34

/-- The header bytes that the end of a step may change. -/
def StepBytes (o : Nat) : Prop := TailBytes o ∨ StateBytes o ∨ ReserveBytes o

theorem keepsShape_stepBytes : KeepsShape StepBytes := by
  unfold KeepsShape StepBytes TailBytes StateBytes ReserveBytes
  omega

theorem keepsShape_tailBytes : KeepsShape TailBytes := fun o h => keepsShape_stepBytes o (.inl h)

theorem keepsShape_stateBytes : KeepsShape StateBytes := fun o h => keepsShape_stepBytes o (.inr (.inl h))

/-- TAIL of a running sequence takes the step's append, unless the step verified it (R198); `p` is the record and its index. -/
def State.advanceTail (n : Nat) (verified : List Nat) (s : State) (p : Nat × Nat) : State :=
  if s.seqState p.1 = 2 then
    (if verified.contains p.2 then s
      else s.writeLe (p.1 + 8) 8 ((s.seqTail p.1 + s.seqStepAppend p.1) % 2 ^ 64)).writeLe (p.1 + 0x20) 8 n
  else s

def State.freeLeaving (j : Nat) (s : State) (r : Nat) : State := if s.seqState r = 4 then s.setSeqState j r 0 else s

/-- The stages of the end of a step, in their order. -/
theorem stepBoundary_stages {s : State} {j : Nat} (verified : List Nat) (batch : Nat) (h : s.jobRuns j = true) :
    ∃ n s1 s2 s3 s4 s5, s1 = (s.seqObserve j).modJob j (fun x => { x with stepNo := n })
      ∧ s2 = (s1.seqTable j).zipIdx.foldl (State.advanceTail n verified) s1
      ∧ s3 = (s2.seqTable j).foldl (State.freeLeaving j) s2
      ∧ s4 = s3.reserveAll j (fun s r => s.seqTail r + s.seqStepAppend r)
      ∧ s5 = (s4.seqTable j).foldl (fun s r => s.nextSeqState j r) s4
      ∧ stepBoundary j verified batch s = s5.writeBatch j batch :=
  ⟨match (s.seqObserve j).job j with | some x => x.stepNo + 1 | none => 0, _, _, _, _, _, rfl, rfl, rfl, rfl, rfl, if_pos h⟩

/-- STATE for the next step of a record whose reservation covers it or not (R199). -/
def stateAfter (covered : Bool) (v : Nat) : Nat :=
  if v = 2 ∨ v = 3 then (if covered then 2 else 3) else if v = 1 then (if covered then 2 else 1) else v

section Fields

variable {b s s' : State} {W : Nat → Prop} {T : List Nat} {r : Nat}

theorem Serves.seqState (h : Serves b W T s s') (hT : RecordsApart b T) (hr : r ∈ T) (hW : ¬ W 2) :
    s'.seqState r = s.seqState r :=
  h.field hT (fun _ hq => hq) hr (by omega) fun i hlo hhi => by rwa [show i = 2 by omega]

theorem Serves.seqTail (h : Serves b W T s s') (hT : RecordsApart b T) (hr : r ∈ T) (hW : ∀ i, 8 ≤ i → i < 0x10 → ¬ W i) :
    s'.seqTail r = s.seqTail r := h.field hT (fun _ hq => hq) hr (by omega) hW

theorem Serves.seqReserve (h : Serves b W T s s') (hT : RecordsApart b T) (hr : r ∈ T) (hW : ∀ i, 0x10 ≤ i → i < 0x18 → ¬ W i) :
    s'.seqReserve r = s.seqReserve r := h.field hT (fun _ hq => hq) hr (by omega) hW

theorem Serves.seqStepAppend (h : Serves b W T s s') (hT : RecordsApart b T) (hr : r ∈ T)
    (hW : ∀ i, 0x28 ≤ i → i < 0x2C → ¬ W i) : s'.seqStepAppend r = s.seqStepAppend r :=
  h.field hT (fun _ hq => hq) hr (by omega) hW

end Fields

section Stages

variable {b s : State} {r j : Nat}

theorem serves_advanceTail (n : Nat) (verified : List Nat) (p : Nat × Nat) :
    Serves b TailBytes [p.1] s (s.advanceTail n verified p) := by
  have hstep (m : State) : Serves b TailBytes [p.1] m (m.writeLe (p.1 + 0x20) 8 n) :=
    serves_writeLe n (by omega) fun i hlo hhi => .inr ⟨hlo, hhi⟩
  unfold State.advanceTail
  split
  · split
    · exact hstep s
    · exact (serves_writeLe _ (by omega) fun i hlo hhi => .inl ⟨hlo, hhi⟩).trans (hstep _)
  · exact .refl b _ _ s

theorem State.seqTail_advanceTail (s : State) (n : Nat) (verified : List Nat) (r i : Nat) :
    (s.advanceTail n verified (r, i)).seqTail r = if s.seqState r = 2 ∧ i ∉ verified
      then (s.seqTail r + s.seqStepAppend r) % 2 ^ 64 else s.seqTail r := by
  unfold State.advanceTail
  by_cases hrun : s.seqState r = 2
  · have hkeep (m : State) : (m.writeLe (r + 0x20) 8 n).seqTail r = m.seqTail r :=
      State.readLe_writeLe_other _ _ _ _ _ _ (by omega)
    simp only [hrun, if_true, true_and, hkeep, List.contains_iff_mem]
    by_cases hv : i ∈ verified
    · simp only [hv, if_true, not_true_eq_false, if_false]
    · simp only [hv, if_false, not_false_eq_true, if_true]
      exact (State.readLe_writeLe _ _ _ _).trans (Nat.mod_mod _ _)
  · simp only [hrun, if_false, false_and]

theorem State.seqState_setSeqState (s : State) (j r v : Nat) : (s.setSeqState j r v).seqState r = v % 256 :=
  (State.readLe_congr (State.setSeqState_bytes s j r v) _ _).trans (State.readLe_writeLe _ _ _ _)

theorem serves_freeLeaving (j r : Nat) : Serves b StateBytes [r] s (s.freeLeaving j r) := by
  unfold State.freeLeaving
  split
  · exact serves_setSeqState j 0 (.inl rfl)
  · exact .refl b _ _ s

theorem State.seqState_freeLeaving (s : State) (j r : Nat) :
    (s.freeLeaving j r).seqState r = if s.seqState r = 4 then 0 else s.seqState r := by
  unfold State.freeLeaving
  split
  · exact State.seqState_setSeqState s j r 0
  · rfl

theorem serves_pausedStep (v : Nat) : Serves b StateBytes [r] s (s.writeLe (r + 0x30) 4 v) :=
  serves_writeLe v (by omega) fun i hlo hhi => .inr ⟨hlo, hhi⟩

theorem State.seqState_pausedStep (s : State) (r v : Nat) : (s.writeLe (r + 0x30) 4 v).seqState r = s.seqState r :=
  State.readLe_writeLe_other _ _ _ _ _ _ (by omega)

theorem State.seqState_seqReport (s : State) (j r : Nat) (c : Code) : (s.seqReport j r c).seqState r = s.seqState r :=
  State.readLe_congr (by rw [State.seqReport, State.report_mem]) _ _

theorem serves_nextSeqState (j r : Nat) : Serves b StateBytes [r] s (s.nextSeqState j r) := by
  have hset (m : State) (v : Nat) : Serves b StateBytes [r] m (m.setSeqState j r v) := serves_setSeqState j v (.inl rfl)
  unfold State.nextSeqState
  dsimp only
  split
  · split
    · exact .refl b _ _ s
    · exact ((hset s 3).trans (serves_pausedStep _)).trans (serves_report _ _)
  · split
    · exact hset s 2
    · exact serves_pausedStep _
  · split
    · exact hset s 2
    · exact serves_report _ _
  · exact .refl b _ _ s

theorem State.seqState_nextSeqState (s : State) (j r : Nat) :
    (s.nextSeqState j r).seqState r = stateAfter (s.covered r) (s.seqState r) := by
  unfold State.nextSeqState stateAfter
  dsimp only
  split
  · next h =>
    simp only [h, true_or, if_true]
    split
    · exact h
    · rw [State.seqState_seqReport, State.seqState_pausedStep, State.seqState_setSeqState]
  · next h =>
    simp only [h, or_true, if_true]
    split
    · exact State.seqState_setSeqState s j r 2
    · rw [State.seqState_pausedStep, h]
  · next h =>
    simp only [h, if_true]
    split
    · exact State.seqState_setSeqState s j r 2
    · rw [State.seqState_seqReport, h]
      rfl
  · next h2 h3 h1 => rw [if_neg (by tauto), if_neg h1]

end Stages

/-! The stages of the end of a step, over the whole table. -/

section Table

variable {b s : State} {T : List Nat} {j r i : Nat}

theorem serves_advanceTails (hT : RecordsApart b T) (hs : ∀ q ∈ T, Shaped b s q) (n : Nat) (verified : List Nat) :
    Serves b TailBytes T s (T.zipIdx.foldl (State.advanceTail n verified) s) := by
  have h := serves_foldl (f := State.advanceTail n verified) (key := Prod.fst) hT keepsShape_tailBytes T.zipIdx s
    (fun p hp => List.fst_mem_of_mem_zipIdx hp) (fun m p _ _ => serves_advanceTail n verified p) hs
  rwa [List.zipIdx_map_fst] at h

theorem State.seqTail_advanceTails (hT : RecordsApart b T) (hs : ∀ q ∈ T, Shaped b s q) (n : Nat) (verified : List Nat)
    (hi : T[i]? = some r) : (T.zipIdx.foldl (State.advanceTail n verified) s).seqTail r
      = if s.seqState r = 2 ∧ i ∉ verified then (s.seqTail r + s.seqStepAppend r) % 2 ^ 64 else s.seqTail r := by
  obtain ⟨m, hm, hfold⟩ := foldl_sameRecord (f := State.advanceTail n verified) (key := Prod.fst) hT keepsShape_tailBytes
    T.zipIdx s (fun p hp => List.fst_mem_of_mem_zipIdx hp) (by rw [List.zipIdx_map_fst]; exact hT.nodup)
    (fun m p _ _ => serves_advanceTail n verified p) hs (a := (r, i)) (List.mem_zipIdx_iff_getElem?.2 hi)
  refine ((hfold.field (by omega)).trans (State.seqTail_advanceTail m n verified r i)).trans ?_
  unfold State.seqState State.seqTail State.seqStepAppend
  rw [hm.field (by omega), hm.field (by omega), hm.field (by omega)]

variable {f : State → Nat → State}

theorem serves_table (hT : RecordsApart b T) (hs : ∀ q ∈ T, Shaped b s q) (hf : ∀ m q, Serves b StateBytes [q] m (f m q)) :
    Serves b StateBytes T s (T.foldl f s) := by
  simpa using serves_foldl (key := id) hT keepsShape_stateBytes T s (fun _ hq => hq) (fun m q _ _ => hf m q) hs

/-- A pass over the table puts each record where its own step puts it. -/
theorem table_sameRecord (hT : RecordsApart b T) (hs : ∀ q ∈ T, Shaped b s q) (hf : ∀ m q, Serves b StateBytes [q] m (f m q))
    (hr : r ∈ T) : ∃ m, SameRecord b r s m ∧ SameRecord b r (f m r) (T.foldl f s) :=
  foldl_sameRecord (key := id) hT keepsShape_stateBytes T s (fun _ hq => hq) (by simpa using hT.nodup) (fun m q _ _ => hf m q) hs hr

theorem State.seqState_freeAll (hT : RecordsApart b T) (hs : ∀ q ∈ T, Shaped b s q) (hr : r ∈ T) :
    (T.foldl (State.freeLeaving j) s).seqState r = if s.seqState r = 4 then 0 else s.seqState r := by
  obtain ⟨m, hm, hfold⟩ := table_sameRecord hT hs (fun m q => serves_freeLeaving j q) hr
  refine ((hfold.field (by omega)).trans (State.seqState_freeLeaving m j r)).trans ?_
  unfold State.seqState
  rw [hm.field (by omega)]

theorem State.seqState_nextStates (hT : RecordsApart b T) (hs : ∀ q ∈ T, Shaped b s q) (hr : r ∈ T) :
    (T.foldl (fun s r => s.nextSeqState j r) s).seqState r = stateAfter (s.covered r) (s.seqState r) := by
  obtain ⟨m, hm, hfold⟩ := table_sameRecord hT hs (fun m q => serves_nextSeqState j q) hr
  refine ((hfold.field (by omega)).trans (State.seqState_nextSeqState m j r)).trans ?_
  unfold State.covered State.seqState State.seqTail State.seqStepAppend State.seqReserve
  rw [hm.field (by omega), hm.field (by omega), hm.field (by omega), hm.field (by omega)]

end Table

/-! The batch list (R198). -/

/-- Indices in a table of its running sequences. -/
def State.runningIn (s : State) (T : List Nat) : List Nat :=
  T.zipIdx.filterMap (fun p => if s.seqState p.1 = 2 then some p.2 else none)

theorem State.runningIn_length (s : State) (T : List Nat) : (s.runningIn T).length ≤ T.length :=
  (List.length_filterMap_le _ _).trans (by rw [List.length_zipIdx])

theorem State.runningIn_congr {s s' : State} {T : List Nat} (h : ∀ r ∈ T, s'.seqState r = s.seqState r) :
    s'.runningIn T = s.runningIn T :=
  List.filterMap_congr fun p hp => by rw [h p.1 (List.fst_mem_of_mem_zipIdx hp)]

theorem State.batch_length (ix : List Nat) : (natLe 4 ix.length ++ ix.flatMap (natLe 4)).length = 4 + 4 * ix.length := by
  rw [List.length_append, natLe_length, flat_len]

/-- The batch list is written at its address and nowhere else. -/
theorem State.writeBatch_spec (m : State) (j addr : Nat) :
    let ix := m.runningIn (m.seqTable j)
    let s' := m.writeBatch j addr
    s'.tiles = m.tiles ∧ s'.dealers = m.dealers
      ∧ (∀ a, a < addr ∨ addr + 4 + 4 * (m.seqTable j).length ≤ a → s'.mem.bytes.get 0 a = m.mem.bytes.get 0 a)
      ∧ s'.readMem addr (4 + 4 * ix.length) = natLe 4 ix.length ++ ix.flatMap (natLe 4) := by
  intro ix s'
  have hwrite : s' = m.writeMem addr (natLe 4 ix.length ++ ix.flatMap (natLe 4)) := rfl
  have hlen : ix.length ≤ (m.seqTable j).length := m.runningIn_length _
  obtain ⟨htiles, hdealers, -⟩ := (sameMap_writeMem m addr (natLe 4 ix.length ++ ix.flatMap (natLe 4))).rest
  refine ⟨htiles, hdealers, fun a ha => ?_, ?_⟩
  · rw [hwrite, State.byte_writeMem, State.batch_length, if_neg (by omega)]
  · rw [hwrite, ← State.batch_length, State.readMem_writeMem]

/-! All stages together. -/

/-- The end of a step but for the batch list: what the records hold then. -/
theorem stepBoundary_records {s : State} {j : Nat} (verified : List Nat) (batch : Nat) (hrun : s.jobRuns j = true)
    (hT : RecordsApart s (s.seqTable j))
    (htable : ∀ x, s.job j = some x → ∀ r ∈ s.seqTable j,
      x.desc.seqTable + 8 * (s.seqTable j).length ≤ r ∨ r + s.seqBytes r ≤ x.desc.seqTable) :
    ∃ m : State, stepBoundary j verified batch s = m.writeBatch j batch ∧ m.seqTable j = s.seqTable j
      ∧ Serves s StepBytes (s.seqTable j) s m
      ∧ ∀ i r, (s.seqTable j)[i]? = some r →
          m.seqTail r = (if s.seqState r = 2 ∧ i ∉ verified then (s.seqTail r + s.seqStepAppend r) % 2 ^ 64 else s.seqTail r)
            ∧ m.seqStepAppend r = s.seqStepAppend r
            ∧ m.seqState r = stateAfter (m.covered r) (if s.seqState r = 4 then 0 else s.seqState r) := by
  obtain ⟨n, s1, s2, s3, s4, s5, hs1, hs2, hs3, hs4, hs5, hstages⟩ := stepBoundary_stages verified batch hrun
  have hkept {m : State} (h : Serves s StepBytes (s.seqTable j) s m) : m.seqTable j = s.seqTable j := h.table_kept htable
  have hshape {m : State} (h : Serves s StepBytes (s.seqTable j) s m) : ∀ r ∈ s.seqTable j, Shaped s m r := fun r hr =>
    h.shaped keepsShape_stepBytes hT (fun _ hq => hq) hr (.refl s r)
  have h1 : Serves s (fun _ => False) (s.seqTable j) s s1 := hs1 ▸ (serves_seqObserve j).trans (serves_modJob j _ fun _ => rfl)
  have g1 : Serves s StepBytes (s.seqTable j) s s1 := h1.mono (fun _ hw => hw.elim) fun _ hq => hq
  rw [hkept g1] at hs2
  have h2 : Serves s TailBytes (s.seqTable j) s1 s2 := hs2 ▸ serves_advanceTails hT (hshape g1) n verified
  have g2 := g1.trans (h2.mono (fun _ hw => .inl hw) fun _ hq => hq)
  rw [hkept g2] at hs3
  have h3 : Serves s StateBytes (s.seqTable j) s2 s3 := hs3 ▸ serves_table hT (hshape g2) fun m q => serves_freeLeaving j q
  have g3 := g2.trans (h3.mono (fun _ hw => .inr (.inl hw)) fun _ hq => hq)
  have h4 : Serves s ReserveBytes (s.seqTable j) s3 s4 := hs4 ▸ serves_reserveAll _ hT
    (fun r hr => hkept g3 ▸ State.mem_seqTable_of_seqOrder hr) (hshape g3)
  have g4 := g3.trans (h4.mono (fun _ hw => .inr (.inr hw)) fun _ hq => hq)
  rw [hkept g4] at hs5
  have h5 : Serves s StateBytes (s.seqTable j) s4 s5 := hs5 ▸ serves_table hT (hshape g4) fun m q => serves_nextSeqState j q
  have g5 := g4.trans (h5.mono (fun _ hw => .inr (.inl hw)) fun _ hq => hq)
  refine ⟨s5, hstages, hkept g5, g5, fun i r hi => ?_⟩
  have hr := List.mem_of_getElem? hi
  have happend : s4.seqStepAppend r = s.seqStepAppend r := by
    rw [h4.seqStepAppend hT hr (by unfold ReserveBytes; omega), h3.seqStepAppend hT hr (by unfold StateBytes; omega),
      h2.seqStepAppend hT hr (by unfold TailBytes; omega), h1.seqStepAppend hT hr (fun _ _ _ hw => hw)]
  have htail : s4.seqTail r = if s.seqState r = 2 ∧ i ∉ verified then (s.seqTail r + s.seqStepAppend r) % 2 ^ 64
      else s.seqTail r := by
    rw [h4.seqTail hT hr (by unfold ReserveBytes; omega), h3.seqTail hT hr (by unfold StateBytes; omega), hs2,
      State.seqTail_advanceTails hT (hshape g1) n verified hi, h1.seqState hT hr id, h1.seqTail hT hr (fun _ _ _ hw => hw),
      h1.seqStepAppend hT hr (fun _ _ _ hw => hw)]
  have hstate : s4.seqState r = if s.seqState r = 4 then 0 else s.seqState r := by
    rw [h4.seqState hT hr (by unfold ReserveBytes; omega), hs3, State.seqState_freeAll hT (hshape g2) hr,
      h2.seqState hT hr (by unfold TailBytes; omega), h1.seqState hT hr id]
  have htail5 := h5.seqTail hT hr (by unfold StateBytes; omega)
  have happend5 := h5.seqStepAppend hT hr (by unfold StateBytes; omega)
  have hcovered : s5.covered r = s4.covered r := by
    unfold State.covered
    rw [htail5, happend5, h5.seqReserve hT hr (by unfold StateBytes; omega)]
  refine ⟨htail5.trans htail, happend5.trans happend, ?_⟩
  rw [hcovered, ← hstate, hs5]
  exact State.seqState_nextStates hT (hshape g4) hr

/-- A leaving sequence becomes free; a running, paused or joining one is decided by its reservation (R199). -/
theorem stateAfter_freed (covered : Bool) (v : Nat) : stateAfter covered (if v = 4 then 0 else v)
    = if v = 2 ∨ v = 3 then (if covered then 2 else 3) else if v = 1 then (if covered then 2 else 1)
      else if v = 4 then 0 else v := by
  by_cases h4 : v = 4
  · subst h4
    rfl
  · simp only [h4, if_false, stateAfter]

/-- Settles O30: the records by `stepBoundary_records`, and the batch list, written apart from them, by `writeBatch_spec`. -/
theorem stepBoundaries : Obligations.StepBoundaries := by
  unfold Obligations.StepBoundaries
  refine fun s j verified batch => ⟨fun hrun => congrArg Host.Outcome.next (if_neg (by simp [hrun])), fun hrun => ?_⟩
  intro len n hT hbatch htable
  obtain ⟨m, hexec, hsame, hserves, hrecords⟩ := stepBoundary_records verified batch.toNat hrun hT htable
  obtain ⟨htiles, hdealers, hframe, hlist⟩ := m.writeBatch_spec j batch.toNat
  rw [← hexec, hsame] at hframe hlist
  rw [← hexec] at htiles hdealers
  have hrecord : ∀ r ∈ s.seqTable j, SameRecord s r m (stepBoundary j verified batch.toNat s) := fun r hr a hlo hhi => by
    have : batch.toNat + 4 + 4 * (s.seqTable j).length ≤ r ∨ r + s.seqBytes r ≤ batch.toNat := hbatch r hr
    exact hframe a (by omega)
  refine ⟨_, rfl, htiles.trans hserves.tiles, hdealers.trans hserves.dealers, fun a hout hlist => ?frame, fun i r hi => ?record,
    fun ix hix => ?list⟩
  case frame =>
    refine (hframe a hlist).trans (hserves.bytes a fun r hr hin => ?_)
    have := hin.1
    have := hin.2.1
    have : a < r ∨ r + s.seqBytes r ≤ a := hout r hr
    omega
  case record =>
    obtain ⟨htail, happend, hstate⟩ := hrecords i r hi
    have hkeep := hrecord r (List.mem_of_getElem? hi)
    have htail' : (stepBoundary j verified batch.toNat s).seqTail r = m.seqTail r := hkeep.field (by omega)
    have happend' : (stepBoundary j verified batch.toNat s).seqStepAppend r = m.seqStepAppend r := hkeep.field (by omega)
    have hreserve' : (stepBoundary j verified batch.toNat s).seqReserve r = m.seqReserve r := hkeep.field (by omega)
    have hstate' : (stepBoundary j verified batch.toNat s).seqState r = m.seqState r := hkeep.field (by omega)
    have hcovered' : (stepBoundary j verified batch.toNat s).covered r = m.covered r := by
      unfold State.covered
      rw [htail', happend', hreserve']
    refine ⟨htail'.trans htail, happend'.trans happend, ?_⟩
    rw [hstate', hstate, stateAfter_freed, ← hcovered']
  case list =>
    have hrunning := State.runningIn_congr (T := s.seqTable j) fun r hr => (hrecord r hr).field (o := 2) (n := 1) (by omega)
    obtain rfl : ix = m.runningIn (s.seqTable j) := hix.trans hrunning
    exact hlist

/-! A serving job that meets the hypotheses of O29 and O30, and an append that meets those of O21. -/

/-- Record of a sequence of one layer and one head with two page rows (Table 5 of 06): its first row holds pages 0 and 1. -/
def sampleRecord (state tail reserve stepAppend : Nat) : List Byte :=
  natLe 2 0x2035 ++ natLe 1 state ++ natLe 1 0 ++ natLe 1 1 ++ natLe 1 1 ++ natLe 2 0 ++ natLe 8 tail ++ natLe 8 reserve
    ++ natLe 4 2 ++ natLe 4 7 ++ natLe 8 0 ++ natLe 4 stepAppend ++ natLe 4 0 ++ natLe 8 0 ++ natLe 8 0
    ++ natLe 4 0 ++ natLe 4 0xFFFFFFFF ++ natLe 4 1 ++ natLe 4 0xFFFFFFFF

/-- Job 1 serves one running sequence, whose record is at 0x1000, from a pool of four pages. -/
def servingState : State :=
  let desc : JobDesc := { jobDescOf [] with kvPages := 4, seqCount := 1, seqTable := 0x800 }
  let job : JobSt := { JobSt.new 0 [] 0 desc 0 0 0 with phase := .running }
  ((State.reset.setJob 1 (some job)).writeLe 0x800 8 0x1000).writeMem 0x1000 (sampleRecord 2 500 512 16)

theorem servingState_table : servingState.seqTable 1 = [0x1000] := by decide

/-- O29 applies: the sequence, which may append up to position 532 by the end of its next step, gets pages 2 and 3. -/
theorem stepReservations_page : ∃ s', exec (.reserveStepPages 1) servingState = .next s' ∧ s'.seqReserve 0x1000 = 1024
    ∧ s'.readLe 0x1044 4 = 2 ∧ s'.readLe 0x104C 4 = 3 := by
  obtain ⟨s', hexec, -, -, -, -, hfirst⟩ := (stepReservations servingState 1).2 (by decide) (by rw [servingState_table]; simp)
  obtain ⟨-, hrow⟩ := hfirst 0x1000 (by decide) (by decide) (by decide)
  obtain ⟨hend, hcells⟩ := hrow (by decide) (by decide) (by decide) (by decide)
  exact ⟨s', hexec, hend.trans (by decide), (hcells 0 (by decide)).trans (by decide), (hcells 1 (by decide)).trans (by decide)⟩

/-- O30 applies: TAIL grows by the 16 positions of the step, and the record's reservation decides STATE. -/
theorem stepBoundaries_tail : ∃ s', exec (.stepBoundary 1 [] 0x3000) servingState = .next s' ∧ s'.seqTail 0x1000 = 516
    ∧ s'.seqState 0x1000 = if s'.covered 0x1000 then 2 else 3 := by
  obtain ⟨s', hexec, -, -, -, hrecords, -⟩ := (stepBoundaries servingState 1 [] 0x3000).2 (by decide)
    (by rw [servingState_table]; simp) (by rw [servingState_table]; decide) (by
      intro x hx
      obtain rfl := Option.some.inj hx
      rw [servingState_table]
      decide)
  obtain ⟨htail, -, hstate⟩ := hrecords 0 0x1000 (by rw [servingState_table]; rfl)
  exact ⟨s', hexec, htail.trans (by decide), hstate.trans (if_pos (by decide))⟩

/-- One row at position 510, in a list whose sequence record is at 0x1000. -/
def sampleAppend : AppendRec := ⟨1, 0, BitVec.ofNat 512 (0x1000 * 2 ^ 80), 510, 0, [List.replicate 128 0]⟩

theorem sampleAppend_seqBase : (pageListOf sampleAppend.list).seqBase = 0x1000 := by
  have hsmall : 0x1000 * 2 ^ 80 < 2 ^ 93 := by norm_num
  have hlist : sampleAppend.list.toNat = 0x1000 * 2 ^ 80 :=
    (BitVec.toNat_ofNat ..).trans (Nat.mod_eq_of_lt (hsmall.trans (Nat.pow_lt_pow_right (by decide) (by decide))))
  simp only [pageListOf, hlist, bitsOf]
  norm_num

/-- Tile 0 has that append outstanding, and job 0 reaches the page that holds the record. -/
def appendState : State :=
  let page : PageSt := { object := 0, place := .resident 0, written := false, arrived := 0, logical := none }
  let object : ObjectSt := { pages := 1, attr := 0, place := 0, arg := 0, name := 0, owner := .job 0, func := 0,
                             freeing := none, syncing := none, removeName := false }
  let mapped := ((State.reset.modFtl (fun f => { f with logicalPages := 1 })).setPage 0 (some page)).setObject 0 (some object)
  (mapped.writeMem 0x1000 (sampleRecord 2 500 510 16)).modTile 0 (fun x => { x with appends := [sampleAppend] })

/-- O21 applies: the append reaches past RESERVE_END, so the sequence is paused, and the append is counted and gone. -/
theorem pagedAppendAndVerify_pauses : ∃ s', exec (.appendPageWrite 0 0) appendState = .next s' ∧ (s'.tile 0).appends = []
    ∧ s'.mem.bytes.get 0 0x1002 = 3 ∧ (s'.tile 0).regs.appendDropped = 1 := by
  obtain ⟨-, happend, -⟩ := pagedAppendAndVerify appendState 0 ⟨0, false⟩ false 0 0 0 0 0 0 0 0 0
  have htile : appendState.tile 0 = { TileSt.init with appends := [sampleAppend] } := State.tile_modTile_same ..
  rw [show ((0 : Tile) : Nat) = 0 from rfl, htile] at happend
  obtain ⟨s', hexec, hgone, -, -, -, -, hunbacked, -⟩ := happend sampleAppend rfl (by rw [sampleAppend_seqBase]; decide)
  rw [sampleAppend_seqBase] at hunbacked
  obtain ⟨-, hstate, hcount⟩ := hunbacked (by decide) (.inr (.inl (by decide)))
  exact ⟨s', hexec, hgone, hstate.trans (if_pos (by decide)), hcount⟩

end Sys2Proof.Machine

namespace Sys2Proof.Machine

/-! Values of bytes, and fields of them. -/

theorem leNat_append (a b : List Byte) : leNat (a ++ b) = leNat a + 256 ^ a.length * leNat b := by
  induction a with
  | nil => simp [leNat]
  | cons x a ih => simp only [List.cons_append, leNat, ih, List.length_cons, Nat.pow_succ]; ring

theorem natLe_drop (n o x : Nat) : (natLe (o + n) x).drop o = natLe n (x / 256 ^ o) := by
  induction o generalizing x with
  | zero => simp
  | succ o ih => rw [Nat.add_right_comm, natLe, List.drop_succ_cons, ih, Nat.div_div_eq_div_mul, Nat.pow_succ, Nat.mul_comm]

theorem natLe_take (n w x : Nat) : (natLe (w + n) x).take w = natLe w x := by
  induction w generalizing x with
  | zero => simp [natLe]
  | succ w ih => rw [Nat.add_right_comm, natLe, List.take_succ_cons, ih, natLe]

/-- A field of the bytes of a value. -/
theorem fieldLe_natLe {n o w : Nat} (x : Nat) (h : o + w ≤ n) : fieldLe (natLe n x) o w = x / 256 ^ o % 256 ^ w := by
  obtain ⟨m, rfl⟩ := Nat.exists_eq_add_of_le h
  rw [fieldLe, Nat.add_assoc, natLe_drop, natLe_take, leNat_natLe]

theorem bitsOf_bytes (x o : Nat) {n : Nat} (hn : 0 < n) : bitsOf x (8 * (o + n) - 1) (8 * o) = x / 256 ^ o % 256 ^ n := by
  rw [bitsOf, show 8 * (o + n) - 1 + 1 - 8 * o = 8 * n by omega, Nat.pow_mul, Nat.pow_mul]

theorem State.readLe_byte (s : State) (a : Nat) : s.readLe a 1 = (s.mem.bytes.get 0 a).toNat := by
  simp [State.readLe, State.readMem, SMap.getRange_eq, leNat]

theorem State.readLe_zero {s : State} {a n : Nat} (h : ∀ k, a ≤ k → k < a + n → s.mem.bytes.get 0 k = 0) : s.readLe a n = 0 := by
  refine leNat_zero _ fun b hb => ?_
  rw [State.readMem, SMap.getRange_eq, List.mem_map] at hb
  obtain ⟨i, hi, rfl⟩ := hb
  exact h _ (Nat.le_add_right _ _) (Nat.add_lt_add_left (List.mem_range.1 hi) _)

theorem byte_writeLe_zero (s : State) (a n k : Nat) :
    (s.writeLe a n 0).mem.bytes.get 0 k = if a ≤ k ∧ k < a + n then 0 else s.mem.bytes.get 0 k := by
  rw [State.byte_writeLe, Nat.zero_div]
  rfl

/-! Writes of bytes leave the map of pages (`SameMap`), and what else they leave. -/

theorem sameMap_writeLe (s : State) (a n v : Nat) : SameMap s (s.writeLe a n v) := sameMap_writeMem _ _ _

theorem sameMap_writeLes (ws : List (Nat × Nat × Nat)) (s : State) : SameMap s (ws.foldl (fun s w => s.writeLe w.1 w.2.1 w.2.2) s) :=
  sameMap_fold _ (fun s w => sameMap_writeLe s w.1 w.2.1 w.2.2) ws s

theorem SameMap.job {s s' : State} (h : SameMap s s') (k : Nat) : s'.job k = s.job k := by
  obtain ⟨-, -, hsched, -⟩ := h.rest
  rw [State.job, hsched, State.job]

theorem SameMap.dealer {s s' : State} (h : SameMap s s') (d : Nat) : s'.dealer d = s.dealer d := by
  obtain ⟨-, hdealers, -, -⟩ := h.rest
  rw [State.dealer, hdealers, State.dealer]

theorem SameMap.stack {s s' : State} (h : SameMap s s') (k : Nat) : s'.stack k = s.stack k := by
  obtain ⟨⟨b, pg, e⟩, -⟩ := h
  rw [e]
  rfl

theorem SameMap.stashPhys {s s' : State} (h : SameMap s s') (j : Nat) (e : StashEnt) (o : Nat) :
    s'.stashPhys j e o = s.stashPhys j e o := by
  rw [State.stashPhys, State.stashPhys, h.job]

theorem SameMap.ownerStack {s s' : State} (h : SameMap s s') (d a : Nat) : s'.ownerStack d a = s.ownerStack d a := by
  have hpage := h.2 (a / size2MiB)
  unfold State.ownerStack
  cases hp : s.page (a / size2MiB) with
  | none =>
    rw [hp, Option.map_none, Option.map_eq_none_iff] at hpage
    rw [hpage]
  | some x =>
    rw [hp, Option.map_some, Option.map_eq_some_iff] at hpage
    obtain ⟨y, hy, hcore⟩ := hpage
    have hplace : y.place = x.place := congrArg Prod.snd hcore
    rw [hy]
    simp only [PageSt.frame, hplace]

theorem SameMap.allHalted {s s' : State} (h : SameMap s s') (x : JobSt) (j : Nat) : s'.allHalted x j = s.allHalted x j := by
  obtain ⟨⟨b, pg, e⟩, -⟩ := h
  rw [e]
  rfl

/-- A fold whose steps each put one value under a condition of their own. -/
theorem foldl_fill {σ α β : Type} {f : σ → α → σ} {get : σ → β} {P : α → Prop} [DecidablePred P] {v : β}
    (h : ∀ s a, get (f s a) = if P a then v else get s) (l : List α) (s : σ) :
    get (l.foldl f s) = if ∃ a ∈ l, P a then v else get s := by
  induction l generalizing s with
  | nil => simp
  | cons a l ih =>
    rw [List.foldl_cons, ih, h, ← ite_or]
    exact if_congr (by rw [List.exists_mem_cons_iff, or_comm]) rfl rfl

/-! A training step (R215 to R229): its state in the job, and the faults of the job. -/

section Job

variable {s : State} {j : Nat} {x : JobSt}

theorem JobSt.live_of (hphase : x.phase = .running) (hfault : x.fault = none) : x.live = true := by
  simp [JobSt.live, hphase, hfault]

@[simp] theorem State.mem_modTrain (s : State) (j : Nat) (f : TrainSt → TrainSt) : (s.modTrain j f).mem = s.mem :=
  State.modJob_mem _ _ _

@[simp] theorem State.tiles_modTrain (s : State) (j : Nat) (f : TrainSt → TrainSt) : (s.modTrain j f).tiles = s.tiles :=
  State.modJob_tiles _ _ _

@[simp] theorem State.dealers_modTrain (s : State) (j : Nat) (f : TrainSt → TrainSt) : (s.modTrain j f).dealers = s.dealers :=
  State.modJob_dealers _ _ _

theorem State.job_modTrain (f : TrainSt → TrainSt) (h : s.job j = some x) :
    (s.modTrain j f).job j = some { x with train := f x.train } := by
  rw [State.modTrain, State.job_modJob, if_pos rfl, h, Option.map_some]

/-- A faulted job keeps its first code; one without a fault takes the new one (R424). -/
theorem State.job_jobFaults_unfaulted (c : Code) (i : RecInfo) (h : s.job j = some x) (hfault : x.fault = none) :
    ∃ y, (s.jobFaults j c i).job j = some y ∧ y.fault = some c :=
  ⟨_, job_jobFaults s j c i x h, by rw [hfault, Option.getD_none]⟩

end Job

end Sys2Proof.Machine

namespace Sys2Proof.Machine

open Claims

/-! The sign update of a stack engine (R230 to R237). -/

/-- Two spans of bytes, as address and length, have no byte in common. -/
def SpansApart (p q : Nat × Nat) : Prop := p.1 + p.2 ≤ q.1 ∨ q.1 + q.2 ≤ p.1

section Group

variable {s : State} {k a : Nat} {u : UpdGroup}

/-- The spans of a group that every update reads or writes. -/
def updCore (a : Nat) (u : UpdGroup) : List (Nat × Nat) :=
  [(a, 128), (u.hi, 2 * u.count), (u.ext, u.count), (u.g, u.count * (if u.gFp32 then 4 else 2))]

theorem updCore_sublist (a : Nat) (u : UpdGroup) : (updCore a u).Sublist (updSpans a u) :=
  (List.sublist_append_left _ _).trans (List.sublist_append_left _ _)

/-- Those of an embedding group, its powers and step counts with them (R235). -/
theorem updRows_sublist (a : Nat) (hmode : u.mode = 1) (hlen : u.rowLen ≠ 0) :
    (updCore a u ++ [(u.aux, 128 + 4 * (u.count / u.rowLen))]).Sublist (updSpans a u) := by
  simp only [updSpans, if_pos hmode, if_neg hlen]
  exact (List.sublist_append_left _ _).append (List.Sublist.refl _)

theorem updCore_apart (h : (updSpans a u).Pairwise SpansApart) : (updCore a u).Pairwise SpansApart :=
  h.sublist (updCore_sublist a u)

theorem State.byte_addInt64 (s : State) (v : Nat) {b n : Nat} (h : n < b ∨ b + 8 ≤ n) :
    (s.addInt64 b v).mem.bytes.get 0 n = s.mem.bytes.get 0 n := byte_writeLe_other _ _ _ _ _ h

theorem State.readLe_addInt64 (s : State) (b v : Nat) : (s.addInt64 b v).readLe b 8 = (s.readLe b 8 + v) % 2 ^ 64 := by
  unfold State.addInt64
  rw [State.readLe_writeLe]
  exact Nat.mod_mod _ _

theorem putAt_addInt64 {m : State} {i x b : Nat} (v : Nat) (h : putAt u m i x) (hhi : u.hi + 2 * i + 2 ≤ b ∨ b + 8 ≤ u.hi + 2 * i)
    (hext : u.ext + i + 1 ≤ b ∨ b + 8 ≤ u.ext + i) : putAt u (m.addInt64 b v) i x := by
  obtain ⟨h1, h2⟩ := h
  exact ⟨(State.readLe_writeLe_other _ _ _ _ _ _ hhi).trans h1, (State.readLe_writeLe_other _ _ _ _ _ _ hext).trans h2⟩

/-- The elements that an engine updates of a dense group, and the rows of an embedding group (R232, R237). -/
def State.updElems (s : State) (k : Nat) (u : UpdGroup) : List Nat := (s.denseOwn k u).filter (s.touched u)

def State.updRows (s : State) (k : Nat) (u : UpdGroup) : List Nat := (s.rowsOwn k u).filter (fun r => s.touched u (r * u.rowLen))

theorem State.updElems_nodup (s : State) (k : Nat) (u : UpdGroup) : (s.updElems k u).Nodup :=
  (List.nodup_range.filter _).filter _

theorem State.updRows_nodup (s : State) (k : Nat) (u : UpdGroup) : (s.updRows k u).Nodup :=
  (List.nodup_range.filter _).filter _

theorem State.mem_updElems {i : Nat} :
    i ∈ s.updElems k u ↔ i < u.count ∧ s.ownerStack 0 (u.hi + 2 * i) = k ∧ s.touched u i = true := by
  simp only [State.updElems, State.denseOwn, List.mem_filter, List.mem_range, beq_iff_eq, and_assoc]

theorem State.mem_updRows {r : Nat} : r ∈ s.updRows k u
    ↔ r < u.count / u.rowLen ∧ s.ownerStack 0 (u.aux + 128 + 4 * r) = k ∧ s.touched u (r * u.rowLen) = true := by
  simp only [State.updRows, State.rowsOwn, List.mem_filter, List.mem_range, beq_iff_eq, and_assoc]

/-- MODE 0 (R233): each of the elements takes the value that the update gives it at the start; TOUCHED counts them. -/
theorem updatePart_dense (hmode : u.mode = 0) (h : (updSpans a u).Pairwise SpansApart) :
    (s.updatePart k a u).readLe (a + 0x50) 8 = (s.readLe (a + 0x50) 8 + (s.updElems k u).length) % 2 ^ 64
      ∧ (∀ i ∈ s.updElems k u, putAt u (s.updatePart k a u) i
          (rnd24 (rndAt u i) (updDense (val32 u.eta) (val32 u.lambda) (s.updVal u i) (s.updGrad u i))))
      ∧ ∀ n, (∀ i ∈ s.updElems k u, outAt u i n) → (n < a + 0x50 ∨ a + 0x58 ≤ n) →
          (s.updatePart k a u).mem.bytes.get 0 n = s.mem.bytes.get 0 n := by
  have hap := updCore_apart h
  simp only [updCore, SpansApart, List.pairwise_cons, List.mem_cons, List.not_mem_nil, or_false, forall_eq_or_imp, forall_eq] at hap
  obtain ⟨⟨hahi, haext, -⟩, ⟨hhiext, hhig⟩, hextg, -⟩ := hap
  have hlt : ∀ i ∈ s.updElems k u, i < u.count := fun i hi => (State.mem_updElems.1 hi).1
  have hpart : s.updatePart k a u = ((s.updElems k u).foldl (fun s i =>
      s.updPut u i (updDense (val32 u.eta) (val32 u.lambda) (s.updVal u i) (s.updGrad u i))) s).addInt64 (a + 0x50)
        (s.updElems k u).length := if_pos hmode
  obtain ⟨hput, hframe⟩ := put_fold u u.count hhiext
    (fun s i => updDense (val32 u.eta) (val32 u.lambda) (s.updVal u i) (s.updGrad u i))
    (fun s s' i hi hsame => by
      rw [updVal_congr s s' u i (fun n hn => hsame n (by omega)),
        updGrad_congr s s' u i u.count hi (fun n h1 h2 => hsame n (by omega))])
    _ s (s.updElems_nodup k u) hlt
  rw [hpart]
  refine ⟨?_, fun i hi => ?_, fun n hn hcount => ?_⟩
  · rw [State.readLe_addInt64, readLe_ext s _ _ _ fun n h1 h2 => hframe n fun i hi => ?_]
    have := hlt i hi
    unfold outAt
    omega
  · have := hlt i hi
    exact putAt_addInt64 _ (hput i hi) (by omega) (by omega)
  · rw [State.byte_addInt64 _ _ (by omega), hframe n hn]

/-- MODE 1 (R235): the same of each element of the rows, whose step counts take STEP. -/
theorem updatePart_rows (hmode : u.mode = 1) (hlen : u.rowLen ≠ 0) (hdvd : u.count % u.rowLen = 0) (hstep : u.step < 2 ^ 32)
    (h : (updSpans a u).Pairwise SpansApart) :
    (s.updatePart k a u).readLe (a + 0x50) 8 = (s.readLe (a + 0x50) 8 + (s.updRows k u).length * u.rowLen) % 2 ^ 64
      ∧ (∀ r ∈ s.updRows k u, (s.updatePart k a u).readLe (u.aux + 128 + 4 * r) 4 = u.step
          ∧ ∀ e, r * u.rowLen ≤ e → e < (r + 1) * u.rowLen → putAt u (s.updatePart k a u) e (rnd24 (rndAt u e)
              (((s.updVal u e).mul (s.rowDecay u r)).sub ((val32 u.eta).mul (signVal (s.updGrad u e))))))
      ∧ ∀ n, (∀ r ∈ s.updRows k u, (n < u.aux + 128 + 4 * r ∨ u.aux + 128 + 4 * r + 4 ≤ n)
            ∧ ∀ e, r * u.rowLen ≤ e → e < (r + 1) * u.rowLen → outAt u e n) → (n < a + 0x50 ∨ a + 0x58 ≤ n) →
          (s.updatePart k a u).mem.bytes.get 0 n = s.mem.bytes.get 0 n := by
  have hap := h.sublist (updRows_sublist a hmode hlen)
  simp only [updCore, SpansApart, List.cons_append, List.nil_append, List.pairwise_cons, List.mem_cons, List.not_mem_nil, or_false,
    forall_eq_or_imp, forall_eq] at hap
  obtain ⟨⟨hahi, haext, -, haaux⟩, ⟨hhiext, hhig, hhiaux⟩, ⟨hextg, hextaux⟩, hgaux, -⟩ := hap
  have hcount : u.count / u.rowLen * u.rowLen = u.count := Nat.div_mul_cancel (Nat.dvd_of_mod_eq_zero hdvd)
  have hlt : ∀ r ∈ s.updRows k u, r < u.count / u.rowLen := fun r hr => (State.mem_updRows.1 hr).1
  have hend : ∀ r ∈ s.updRows k u, (r + 1) * u.rowLen ≤ u.count := fun r hr =>
    (Nat.mul_le_mul_right _ (hlt r hr)).trans hcount.le
  have hpart : s.updatePart k a u = ((s.updRows k u).foldl (fun s r => s.updRow u r) s).addInt64 (a + 0x50)
      ((s.updRows k u).length * u.rowLen) := if_neg (by omega)
  obtain ⟨hrows, hframe⟩ := rows_fold u u.count (u.count / u.rowLen) hcount hhiext _ rfl (by omega) (by omega) _ rfl (by omega)
    (by omega) hgaux hstep _ s (s.updRows_nodup k u) hlt
  rw [hpart]
  refine ⟨?_, fun r hr => ?_, fun n hn hout => ?_⟩
  · rw [State.readLe_addInt64, readLe_ext s _ _ _ fun n h1 h2 => hframe n fun r hr => ?_]
    have := hlt r hr
    refine ⟨by omega, fun e _ he => ?_⟩
    have := hend r hr
    unfold outAt
    omega
  · have := hlt r hr
    have := hend r hr
    obtain ⟨hcountr, hput⟩ := hrows r hr
    exact ⟨(State.readLe_writeLe_other _ _ _ _ _ _ (by omega)).trans hcountr, fun e he1 he2 =>
      putAt_addInt64 _ (hput e he1 he2) (by omega) (by omega)⟩
  · rw [State.byte_addInt64 _ _ (by omega), hframe n hn]

end Group

/-- What Table 8 of 07 says of MODE, MASK, ROW_LEN and COUNT. -/
theorem updValid_shape {bs : List Byte} (h : updValid bs = true) : (updOf bs).mode ≤ 1
    ∧ ((updOf bs).mode = 1 → (updOf bs).rowLen ≠ 0 ∧ (updOf bs).count % (updOf bs).rowLen = 0) := by
  simp only [updValid, Bool.and_eq_true] at h
  obtain ⟨⟨⟨⟨⟨⟨⟨⟨hhead, hrows⟩, -⟩, -⟩, -⟩, -⟩, -⟩, -⟩, -⟩ := h
  obtain ⟨⟨⟨⟨⟨⟨⟨⟨-, hmode⟩, -⟩, -⟩, -⟩, -⟩, -⟩, -⟩, -⟩ := hhead
  refine ⟨of_decide_eq_true hmode, fun h1 => ?_⟩
  simpa [h1] using hrows

theorem updOf_mask_lt (bs : List Byte) : (updOf bs).mask < 4 := Nat.mod_lt _ (by decide)

theorem updOf_step_lt (bs : List Byte) : (updOf bs).step < 2 ^ 32 := fieldLe_bound bs 0x48 4

/-- A valid UPDATE whose accesses are permitted and resident completes, with the engine's part of the group done. -/
theorem seRun_update {s : State} {k job : Nat} {c : SeFields} (hv : c.valid false = true) (ho : c.op = 0x10)
    (hu : updValid (s.readMem c.aux 128) = true)
    (hspans : ∀ p ∈ updSpans c.aux (updOf (s.readMem c.aux 128)), SpanOk s job p.1 p.2) :
    s.seRun k job false c = .done (s.updatePart k c.aux (updOf (s.readMem c.aux 128))) := by
  have hgroup : (c.aux, 128) ∈ updSpans c.aux (updOf (s.readMem c.aux 128)) := (updCore_sublist _ _).subset (.head _)
  refine seRun_upd s k job c hv ho hu (checkAccesses_none _ _ _ fun p hp => ?_)
    (checkAccesses_none _ _ _ fun p hp => (hspans p hp).1) (absentOf_nil _ _ fun p hp => (hspans p hp).2)
  rw [List.mem_singleton.1 hp]
  exact (hspans _ hgroup).1

/-- Settles O37: the command completes by `seRun_update`, and each mode of the group has its law. -/
theorem engineUpdates : Obligations.EngineUpdates := by
  unfold Obligations.EngineUpdates
  intro s k src job cmd fin hd c u hv hop hu hspans hapart eta lam w g rnd bit touched steps holds adds outside
  obtain ⟨hold, hd⟩ : ∃ hold, Delivers s k src job false cmd fin hold := by
    rcases hd with ⟨hsrc, hfin⟩ | ⟨q, rest, hsrc, hqueue, hdone, hjob, htile, hcmd, hfin⟩
    · exact ⟨id, .inl ⟨hsrc, rfl, hfin, rfl⟩⟩
    · exact ⟨_, .inr ⟨q, rest, hsrc, hqueue, hdone, hjob, by rw [htile]; rfl, hcmd, rfl, hfin⟩⟩
  have hdone := seStep_done hd hop (seRun_update (k := k) hv hop hu hspans)
  obtain ⟨htiles, hdealers, hsched, -⟩ := (sameMap_updatePart s k c.aux u).rest
  obtain ⟨-, hshape⟩ := updValid_shape hu
  have htouched : ∀ i, s.touched u i = true ↔ touched i := fun i => touched_iff s u i (updOf_mask_lt _)
  refine ⟨s.updatePart k c.aux u, congrArg Host.Outcome.next hdone, htiles, hdealers, hsched, fun h0 => ?dense, fun h1 => ?rows⟩
  case dense =>
    obtain ⟨hcount, hput, hframe⟩ := updatePart_dense (s := s) (k := k) h0 hapart
    refine ⟨s.updElems k u, ⟨s.updElems_nodup k u, ?_⟩, fun i => ?_, hput, hframe⟩
    · rw [hcount, Nat.mul_one]
    · rw [State.mem_updElems, htouched]
  case rows =>
    obtain ⟨hlen, hdvd⟩ := hshape h1
    obtain ⟨hcount, hput, hframe⟩ := updatePart_rows (s := s) (k := k) h1 hlen hdvd (updOf_step_lt _) hapart
    exact ⟨s.updRows k u, ⟨s.updRows_nodup k u, hcount⟩, fun r => by rw [State.mem_updRows, htouched], hput, hframe⟩

/-! A group that meets the hypotheses of O37. -/

/-- Page 0 is resident and the conductor's. -/
def mappedState : State :=
  let page : PageSt := { object := 0, place := .resident 0, written := false, arrived := 0, logical := none }
  let object : ObjectSt := { pages := 1, attr := 0, place := 0, arg := 0, name := 0, owner := .conductor, func := 0,
                             freeing := none, syncing := none, removeName := false }
  ((State.reset.modFtl (fun f => { f with logicalPages := 1 })).setPage 0 (some page)).setObject 0 (some object)

/-- A dense group of one element, at 0x2000 and 0x2100, with its gradient at 0x2200, eta 1 and lambda 0. -/
def denseGroup : Nat :=
  0x2050 + 0x3F800000 * 256 ^ 4 + 256 ^ 16 + 0x2000 * 256 ^ 24 + 0x2100 * 256 ^ 32 + 0x2200 * 256 ^ 40

/-- The element is zero, its gradient is 1, and the group stands at 0x1000. -/
def updateState : State := (mappedState.writeLe 0x2200 2 0x3F80).writeLe 0x1000 128 denseGroup

theorem updateState_group : updateState.readMem 0x1000 128 = natLe 128 denseGroup := by
  have h := State.readMem_writeMem (mappedState.writeLe 0x2200 2 0x3F80) 0x1000 (natLe 128 denseGroup)
  rwa [natLe_length] at h

theorem updOf_denseGroup : updOf (natLe 128 denseGroup)
    = ⟨0, false, false, 0, 0x3F800000, 0, 0, 1, 0x2000, 0x2100, 0x2200, 0, 0, 0, 0⟩ := by
  simp only [updOf, fieldLe_natLe, Nat.reduceAdd, Nat.reduceLeDiff]
  norm_num [denseGroup, bitOf, bitsOf]
  decide

theorem updValid_denseGroup : updValid (natLe 128 denseGroup) = true := by
  simp only [updValid, updOf_denseGroup, fieldLe_natLe, Nat.reduceAdd, Nat.reduceLeDiff]
  norm_num [denseGroup]
  decide

theorem updateCmd_toNat {a : Nat} (h : a < 256 ^ 8) : (updateCmd a).toNat = 0x102060 + 256 ^ 48 * a := by
  have hword : leNat (natLe 2 0x2060 ++ natLe 1 0x10 ++ natLe 45 0 ++ natLe 8 a ++ natLe 8 0) = 0x102060 + 256 ^ 48 * a := by
    simp only [leNat_append, leNat_natLe, natLe_length, List.length_append]
    norm_num
    omega
  have hlt : 0x102060 + 256 ^ 48 * a < 256 ^ 64 := by
    norm_num at h ⊢
    omega
  rw [updateCmd, hword, BitVec.toNat_ofNat, Nat.mod_eq_of_lt (hlt.trans_eq (Nat.pow_mul 2 8 64).symm)]

/-- The UPDATE command of a group names the group, and its other fields are clear. -/
theorem seOf_updateCmd {a : Nat} (h : a < 256 ^ 8) :
    seOf (updateCmd a) = ⟨0x2060, 0x10, 0, 0, 0, 0, 0, 0, 0, 0, 0, 0, 0, 0, a, 0⟩ := by
  simp only [seOf, bitsOf_bytes, Nat.ofNat_pos, Nat.one_pos, updateCmd_toNat h, SeFields.mk.injEq]
  norm_num [← BitVec.toNat_inj, show (0 : W64).toNat = 0 from rfl] at h ⊢
  omega

theorem updateState_map : SameMap mappedState updateState := (sameMap_writeMem _ _ _).trans (sameMap_writeMem _ _ _)

theorem updateState_spans : ∀ p ∈ updSpans 0x1000 (updOf (natLe 128 denseGroup)), SpanOk updateState 0 p.1 p.2 := by
  rw [updOf_denseGroup]
  unfold SpanOk
  simp only [updateState_map.checkRange, updateState_map.absentPages]
  decide

theorem updateState_readLe {b n : Nat} (h : b + n ≤ 0x1000 ∨ 0x1000 + 128 ≤ b) :
    updateState.readLe b n = (mappedState.writeLe 0x2200 2 0x3F80).readLe b n := by
  unfold updateState
  exact State.readLe_writeLe_other _ _ _ _ _ _ h

/-- O37 applies to the group: its element becomes -1, the sign of the gradient subtracted. -/
theorem engineUpdates_dense : ∃ m, exec (.seUpdate 0 (.conductor 0 (updateCmd 0x1000))) updateState = .next m
    ∧ m.readLe 0x2000 2 = 0xBF80 ∧ m.readLe 0x2100 1 = 0 := by
  have h := engineUpdates updateState 0 (.conductor 0 (updateCmd 0x1000)) 0 (updateCmd 0x1000) id (.inl ⟨rfl, rfl⟩)
  simp only [seOf_updateCmd (a := 0x1000) (by decide), updateState_group, updOf_denseGroup] at h
  obtain ⟨m, hexec, -, -, -, hdense, -⟩ := h (by decide) trivial updValid_denseGroup
    (by have := updateState_spans; rwa [updOf_denseGroup] at this) (by decide)
  obtain ⟨L, -, hmem, hput, -⟩ := hdense trivial
  have howner : updateState.ownerStack 0 0x2000 = 0 := (updateState_map.ownerStack _ _).trans (by decide)
  obtain ⟨hhi, hext⟩ := hput 0 ((hmem 0).2 ⟨Nat.one_pos, howner, .inl trivial⟩)
  simp only [Nat.mul_zero, Nat.add_zero, updateState_readLe (b := 0x2000) (n := 2) (by decide),
    updateState_readLe (b := 0x2100) (n := 1) (by decide), updateState_readLe (b := 0x2200) (n := 2) (by decide)] at hhi hext
  exact ⟨m, hexec, hhi.trans (by decide), hext.trans (by decide)⟩

end Sys2Proof.Machine

namespace Sys2Proof.Machine

open Claims

variable {s : State} {j : Nat} {x : JobSt} {iv : Interleave}

/-! Physical release (R224). -/

/-- The pages of an entry leave the job's page map. -/
def TrainSt.unmapEntry (t : TrainSt) (e : StashEnt) : TrainSt := { t with map := t.map.clear (stashKey e.idx 0) (2 ^ 24) }

/-- The keys of an entry's pages. -/
theorem stashKey_range (idx k : Nat) : stashKey idx 0 ≤ k ∧ k < stashKey idx 0 + 2 ^ 24 ↔ k / 2 ^ 24 = idx := by
  unfold stashKey
  omega

theorem stashKey_div {i : Nat} (idx : Nat) (h : i < 2 ^ 24) : stashKey idx i / 2 ^ 24 = idx := by
  unfold stashKey
  omega

theorem TrainSt.unmapEntries_rest (l : List StashEnt) (t : TrainSt) :
    l.foldl TrainSt.unmapEntry t = { t with map := (l.foldl TrainSt.unmapEntry t).map } := by
  induction l generalizing t with
  | nil => rfl
  | cons e l ih => rw [List.foldl_cons, ih]; rfl

theorem TrainSt.unmapEntries_get (l : List StashEnt) (t : TrainSt) (k : Nat) :
    (l.foldl TrainSt.unmapEntry t).map.get 0 k = if ∃ e ∈ l, k / 2 ^ 24 = e.idx then 0 else t.map.get 0 k :=
  foldl_fill (get := fun t : TrainSt => t.map.get 0 k) (fun t e => by
    rw [TrainSt.unmapEntry, SMap.get_clear]
    exact if_congr (stashKey_range _ _) rfl rfl) l t

theorem State.job_unmapEntries (l : List StashEnt) (h : s.job j = some x) :
    (l.foldl (fun s e => s.modTrain j (·.unmapEntry e)) s).job j = some { x with train := l.foldl TrainSt.unmapEntry x.train } := by
  induction l generalizing s x with
  | nil => exact h
  | cons e l ih => exact ih (State.job_modTrain _ h)

/-- The entries whose pages a release gives back. -/
def State.releasedEnts (s : State) (iv : Interleave) (u : Nat) : List StashEnt :=
  (s.entriesOf iv (·.releaseUnit) u).filter (fun e => e.state == 4)

theorem State.mem_releasedEnts {u : Nat} {e : StashEnt} :
    e ∈ s.releasedEnts iv u ↔ e ∈ s.entriesOf iv (·.releaseUnit) u ∧ e.state = 4 := by
  rw [State.releasedEnts, List.mem_filter, beq_iff_eq]

theorem stashReleasePhysical_eq {u : Nat} (hjob : s.job j = some x) (hiv : s.jobInterleave j = some iv) (hlive : x.live = true)
    (hactive : x.train.active = true) (hu : u < x.train.unit) : stashReleasePhysical j u s
      = if s.unitSynced x j iv u then (s.releasedEnts iv u).foldl (fun s e => s.modTrain j (·.unmapEntry e)) s else s := by
  simp only [stashReleasePhysical, hjob, hiv, hlive, hactive, hu, decide_true, Bool.and_true, Bool.true_and]
  rfl

/-- Settles O25: the release clears the pages of the released entries from the map, one entry after the other. -/
theorem stashRelease : Obligations.StashRelease := by
  unfold Obligations.StashRelease
  intro s j u x iv hjob hiv hphase hfault hactive hu
  have hexec : exec (.stashReleasePhysical j u) s = .next _ :=
    congrArg Host.Outcome.next (stashReleasePhysical_eq hjob hiv (JobSt.live_of hphase hfault) hactive hu)
  refine ⟨fun hsync => by rw [hexec, hsync]; rfl, fun hsync => ?_⟩
  rw [hsync, if_pos rfl] at hexec
  have hget := TrainSt.unmapEntries_get (s.releasedEnts iv u) x.train
  refine ⟨_, _, hexec, State.job_unmapEntries _ hjob, fold_same _ State.mem (fun _ _ => State.mem_modTrain _ _ _) _ _,
    fold_same _ State.tiles (fun _ _ => State.tiles_modTrain _ _ _) _ _,
    fold_same _ State.dealers (fun _ _ => State.dealers_modTrain _ _ _) _ _,
    congrArg (fun t => { x with train := t }) (TrainSt.unmapEntries_rest _ _), fun e he hstate i hi => ?_, fun k hk => ?_⟩
  · rw [hget, if_pos ⟨e, State.mem_releasedEnts.2 ⟨he, hstate⟩, stashKey_div _ hi⟩]
  · rw [hget, if_neg]
    rintro ⟨e, he, hkey⟩
    obtain ⟨he, hstate⟩ := State.mem_releasedEnts.1 he
    exact hk e he hstate hkey

end Sys2Proof.Machine

namespace Sys2Proof.Machine

open Claims

/-! The queues of a job on its dies (R216, R228). -/

theorem State.queue_setQueue (s : State) (d q : Nat) (y : DealQueue) (e r : Nat) :
    (s.setQueue d q y).queue e r = if e = d ∧ r = q then y else s.queue e r := by
  by_cases he : e = d
  · subst he
    rw [State.queue, State.setQueue, State.dealer_modDealer_same]
    exact (SMap.get_set _ _ _ _ _).trans (if_congr (by simp) rfl rfl)
  · rw [State.queue, State.setQueue, State.dealer_modDealer, if_neg he, if_neg (fun h => he h.1)]
    rfl

section Visits

variable {α : Type} {j : Nat} {die : α → Nat} {g : α → DealQueue → DealQueue}

/-- The queue of job `j` on the die of `a`, where it has one, changes by `g a`. -/
def State.visitQueue (j : Nat) (die : α → Nat) (g : α → DealQueue → DealQueue) (s : State) (a : α) : State :=
  match (s.dealer (die a)).queueOf j with
  | some q => s.setQueue (die a) q (g a (s.queue (die a) q))
  | none => s

theorem State.visitQueue_some {s : State} {a : α} {q : Nat} (h : (s.dealer (die a)).queueOf j = some q) :
    s.visitQueue j die g a = s.setQueue (die a) q (g a (s.queue (die a) q)) := by rw [State.visitQueue, h]

theorem State.visitQueue_rest (s : State) (a : α) : s.visitQueue j die g a = { s with dealers := (s.visitQueue j die g a).dealers } := by
  unfold State.visitQueue
  split <;> rfl

theorem State.visitQueues_rest (l : List α) (s : State) :
    l.foldl (State.visitQueue j die g) s = { s with dealers := (l.foldl (State.visitQueue j die g) s).dealers } := by
  induction l generalizing s with
  | nil => rfl
  | cons a l ih => rw [List.foldl_cons, ih, State.visitQueue_rest]

theorem State.dealer_visitQueue {s : State} {a : α} {d : Nat} (h : d ≠ die a) : (s.visitQueue j die g a).dealer d = s.dealer d := by
  unfold State.visitQueue
  split
  · exact (State.dealer_modDealer _ _ _ _).trans (if_neg h)
  · rfl

theorem State.dealer_visitQueues {d : Nat} (l : List α) (s : State) (h : ∀ a ∈ l, d ≠ die a) :
    (l.foldl (State.visitQueue j die g) s).dealer d = s.dealer d := by
  induction l generalizing s with
  | nil => rfl
  | cons a l ih =>
    rw [List.foldl_cons, ih _ fun b hb => h b (.tail _ hb), State.dealer_visitQueue (h a (.head _))]

/-- With one visit per die, each queue is changed once. -/
theorem State.queue_visitQueues {a : α} {q : Nat} (l : List α) (s : State) (hnodup : (l.map die).Nodup) (ha : a ∈ l)
    (hq : (s.dealer (die a)).queueOf j = some q) :
    (l.foldl (State.visitQueue j die g) s).queue (die a) q = g a (s.queue (die a) q) := by
  induction l generalizing s with
  | nil => cases ha
  | cons b l ih =>
    obtain ⟨hb, hl⟩ := List.nodup_cons.1 hnodup
    rw [List.foldl_cons]
    rcases List.mem_cons.1 ha with rfl | ha
    · have hrest : ∀ c ∈ l, die a ≠ die c := fun c hc he => hb (he ▸ List.mem_map_of_mem hc)
      rw [State.queue, State.dealer_visitQueues l _ hrest, State.visitQueue_some hq]
      exact queue_setQueue_same _ _ _ _
    · have hne : die a ≠ die b := fun he => hb (he ▸ List.mem_map_of_mem ha)
      have hd : (s.visitQueue j die g b).dealer (die a) = s.dealer (die a) := State.dealer_visitQueue hne
      rw [ih _ hl ha (by rw [hd, hq]), State.queue, hd]
      rfl

variable {P : DealQueue → Prop} (hg : ∀ a y, P (g a y))
include hg

theorem State.visitQueue_keeps {s : State} {d q : Nat} (a : α) (h : P (s.queue d q)) : P ((s.visitQueue j die g a).queue d q) := by
  unfold State.visitQueue
  split
  · rw [State.queue_setQueue]
    split
    · exact hg _ _
    · exact h
  · exact h

theorem State.visitQueues_keep {d q : Nat} (l : List α) (s : State) (h : P (s.queue d q)) :
    P ((l.foldl (State.visitQueue j die g) s).queue d q) := by
  induction l generalizing s with
  | nil => exact h
  | cons a l ih => exact ih _ (State.visitQueue_keeps hg a h)

/-- What every visit leaves holds of the queue of each die visited, however often. -/
theorem State.visitQueues_leave {a : α} {q : Nat} (l : List α) (s : State) (ha : a ∈ l)
    (hq : (s.dealer (die a)).queueOf j = some q) : P ((l.foldl (State.visitQueue j die g) s).queue (die a) q) := by
  induction l generalizing s with
  | nil => cases ha
  | cons b l ih =>
    rw [List.foldl_cons]
    by_cases he : die a = die b
    · refine State.visitQueues_keep hg l _ ?_
      rw [he] at hq ⊢
      rw [State.visitQueue_some hq, queue_setQueue_same]
      exact hg _ _
    · have ha : a ∈ l := (List.mem_cons.1 ha).resolve_left fun h => he (congrArg die h)
      exact ih _ ha (by rw [State.dealer_visitQueue he, hq])

end Visits

variable {s : State} {j : Nat} {x : JobSt} {iv : Interleave}

/-! Bytes of a stash map (Table 7 of 07). -/

theorem byte_setEntState (s : State) (e : StashEnt) (v k : Nat) :
    (s.setEntState e v).mem.bytes.get 0 k = if k = e.addr + 5 then BitVec.ofNat 8 v else s.mem.bytes.get 0 k := by
  rw [State.setEntState, State.byte_writeLe]
  by_cases h : k = e.addr + 5
  · rw [if_pos (by omega), if_pos h, h, Nat.sub_self, Nat.pow_zero, Nat.div_one]
  · rw [if_neg (by omega), if_neg h]

theorem sameMap_setEntState (s : State) (e : StashEnt) (v : Nat) : SameMap s (s.setEntState e v) := sameMap_writeLe _ _ _ _

/-- Entries stand behind the 64 bytes of the map's header. -/
theorem State.stashEnts_addr {m : Nat} {e : StashEnt} (h : e ∈ s.stashEnts m) : m + 64 ≤ e.addr := by
  obtain ⟨i, -, rfl⟩ := List.mem_map.1 h
  exact Nat.le_add_right _ _

/-! The start of a step (R226, R228). -/

/-- An entry becomes idle, and its rows and counts clear. -/
def State.idleEntry (s : State) (e : StashEnt) : State := ((s.setEntState e 0).writeLe (e.addr + 0x30) 8 0).writeLe (e.addr + 0x38) 8 0

/-- The bytes of an entry that a step start clears: STATE, RECOMP_ROWS and the counts. -/
abbrev StashEnt.Clears (e : StashEnt) (a : Nat) : Prop := a = e.addr + 5 ∨ e.addr + 0x30 ≤ a ∧ a < e.addr + 0x40

theorem byte_idleEntry (s : State) (e : StashEnt) (a : Nat) :
    (s.idleEntry e).mem.bytes.get 0 a = if e.Clears a then 0 else s.mem.bytes.get 0 a := by
  rw [State.idleEntry, byte_writeLe_zero, byte_writeLe_zero, byte_setEntState, BitVec.ofNat_eq_ofNat, ← ite_or, ← ite_or]
  exact if_congr (by unfold StashEnt.Clears; omega) rfl rfl

theorem sameMap_idleEntry (s : State) (e : StashEnt) : SameMap s (s.idleEntry e) :=
  ((sameMap_setEntState _ _ _).trans (sameMap_writeLe _ _ _ _)).trans (sameMap_writeLe _ _ _ _)

theorem byte_idleEntries (l : List StashEnt) (s : State) (a : Nat) :
    (l.foldl State.idleEntry s).mem.bytes.get 0 a = if ∃ e ∈ l, e.Clears a then 0 else s.mem.bytes.get 0 a :=
  foldl_fill (get := fun s : State => s.mem.bytes.get 0 a) (fun s e => byte_idleEntry s e a) l s

theorem sameMap_resetStash (s : State) (iv : Interleave) : SameMap s (s.resetStash iv) :=
  ((sameMap_fold _ sameMap_idleEntry _ _).trans (sameMap_writeLe _ _ _ _)).trans (sameMap_writeLe _ _ _ _)

/-- What `resetStash` leaves in an entry. -/
theorem State.resetStash_entry {e : StashEnt} (he : e ∈ s.stashEnts iv.map) : (s.resetStash iv).readLe (e.addr + 5) 1 = 0
    ∧ (s.resetStash iv).readLe (e.addr + 0x30) 8 = 0 ∧ (s.resetStash iv).readLe (e.addr + 0x38) 8 = 0 := by
  have haddr := State.stashEnts_addr he
  have hkeep : ∀ o n, (s.resetStash iv).readLe (e.addr + o) n
      = ((s.stashEnts iv.map).foldl State.idleEntry s).readLe (e.addr + o) n := fun o n =>
    (State.readLe_writeLe_other _ _ _ _ _ _ (by omega)).trans (State.readLe_writeLe_other _ _ _ _ _ _ (by omega))
  have hclear : ∀ o n, (∀ k, e.addr + o ≤ k → k < e.addr + o + n → e.Clears k) →
      (s.resetStash iv).readLe (e.addr + o) n = 0 :=
    fun o n h => (hkeep o n).trans (State.readLe_zero fun k h1 h2 => by rw [byte_idleEntries, if_pos ⟨e, he, h k h1 h2⟩])
  exact ⟨hclear _ _ fun k _ _ => .inl (by omega), hclear _ _ fun k _ _ => .inr (by omega), hclear _ _ fun k _ _ => .inr (by omega)⟩

/-- What it leaves in the header: the page and event counts clear, and the step counted. -/
theorem State.resetStash_header (s : State) (iv : Interleave) : (s.resetStash iv).readLe (iv.map + 8) 16 = 0
    ∧ (s.resetStash iv).readLe (iv.map + 0x18) 8 = (s.readLe (iv.map + 0x18) 8 + 1) % 2 ^ 64 := by
  have hstep : (((s.stashEnts iv.map).foldl State.idleEntry s).writeLe (iv.map + 8) 16 0).readLe (iv.map + 0x18) 8
      = s.readLe (iv.map + 0x18) 8 := by
    rw [State.readLe_writeLe_other _ _ _ _ _ _ (by omega)]
    refine readLe_ext _ _ _ _ fun k h1 h2 => ?_
    rw [byte_idleEntries, if_neg]
    rintro ⟨e, he, hclear⟩
    have := State.stashEnts_addr he
    unfold StashEnt.Clears at hclear
    omega
  refine ⟨(State.readLe_writeLe_other _ _ _ _ _ _ (by omega)).trans (State.readLe_writeLe _ _ _ _), ?_⟩
  refine (State.readLe_writeLe _ _ _ _).trans ((Nat.mod_mod _ _).trans ?_)
  exact congrArg (fun v => (v + 1) % 2 ^ 64) hstep

/-- The records of a die are dealt from the first again, none forwarded. -/
def restartQueue (_ : DiePlace) (y : DealQueue) : DealQueue := { y with next := 0, count := 0 }

/-- The state in which a step has started. -/
def State.stepStarted (s : State) (j : Nat) (x : JobSt) (iv : Interleave) : State :=
  (x.places.foldl (State.visitQueue j (·.die) restartQueue) (s.resetStash iv)).modTrain j (fun _ => { TrainSt.init with active := true })

theorem trainingStepStart_eq (hjob : s.job j = some x) (hiv : s.jobInterleave j = some iv) (hlive : x.live = true)
    (hdone : x.train.active = true → iv.units < x.train.unit ∧ s.allHalted x j = true) : trainingStepStart j s
      = if s.stashLayoutBad j then s.jobFaults j Codes.stashLayout {} else s.stepStarted j x iv := by
  have hidle : (x.train.active && !(decide (iv.units < x.train.unit) && s.allHalted x j)) = false := by
    cases hactive : x.train.active with
    | false => rfl
    | true =>
      obtain ⟨hunits, hhalted⟩ := hdone hactive
      rw [decide_eq_true hunits, hhalted]
      rfl
  simp only [trainingStepStart, hjob, hiv, hlive, hidle]
  rfl

/-- Settles O27: a bad layout is `jobFaults`; else the map is `resetStash`, and each queue is restarted by a visit. -/
theorem trainingStart : Obligations.TrainingStart := by
  unfold Obligations.TrainingStart
  intro s j x iv hjob hiv hphase hfault hdone
  have hexec : exec (.trainingStepStart j) s = .next _ :=
    congrArg Host.Outcome.next (trainingStepStart_eq hjob hiv (JobSt.live_of hphase hfault) hdone)
  refine ⟨fun hbad => ?bad, fun hgood => ?good⟩
  case bad =>
    rw [hbad, if_pos rfl] at hexec
    exact ⟨_, hexec, State.jobFaults_tiles _ _ _ _, State.jobFaults_mem _ _ _ _, State.jobFaults_dealers _ _ _ _,
      State.job_jobFaults_unfaulted _ _ hjob hfault⟩
  case good =>
    rw [hgood, if_neg Bool.false_ne_true] at hexec
    have hmap := sameMap_resetStash s iv
    have hvisit := State.visitQueues_rest (j := j) (die := (·.die)) (g := restartQueue) x.places (s.resetStash iv)
    have hmem : (s.stepStarted j x iv).mem = (s.resetStash iv).mem := by
      rw [State.stepStarted, State.mem_modTrain, hvisit]
    have hread : ∀ a n, (s.stepStarted j x iv).readLe a n = (s.resetStash iv).readLe a n := fun a n =>
      State.readLe_congr (congrArg MemSt.bytes hmem) a n
    obtain ⟨hcounts, hstep⟩ := State.resetStash_header s iv
    refine ⟨s.stepStarted j x iv, _, hexec, ?_, State.job_modTrain _ (x := x) ?_, rfl, fun e he => ?_, (hread _ _).trans hcounts,
      (hread _ _).trans hstep, fun p hp q hq => ?_⟩
    · rw [State.stepStarted, State.tiles_modTrain, hvisit]
      exact hmap.rest.1
    · rw [hvisit]
      exact (hmap.job j).trans hjob
    · simpa only [hread] using State.resetStash_entry he
    · have hleave := State.visitQueues_leave (j := j) (die := DiePlace.die) (g := restartQueue)
        (P := fun y => y.next = 0 ∧ y.count = 0) (fun _ _ => ⟨rfl, rfl⟩) x.places (s.resetStash iv) hp (by rw [hmap.dealer, hq])
      rw [State.queue, State.dealer, State.stepStarted, State.dealers_modTrain]
      exact hleave

end Sys2Proof.Machine

namespace Sys2Proof.Machine

open Claims

variable {s : State} {j u : Nat} {x : JobSt} {iv : Interleave}

/-! Logical release (R224). -/

/-- The pages that an entry gives back. -/
def State.releaseCost (s : State) (j : Nat) (e : StashEnt) : Nat := if e.state = 1 then e.pageCount (s.stashRows j e) else 0

/-- One entry is released. -/
def State.releaseEntry (s : State) (j : Nat) (iv : Interleave) (e : StashEnt) : State :=
  (s.writeLe (iv.map + 8) 4 (s.livePages iv.map - s.releaseCost j e)).setEntState e 4

theorem State.releaseLogical_eq (s : State) (j : Nat) (iv : Interleave) (u : Nat) :
    s.releaseLogical j iv u = (s.entriesOf iv (·.releaseUnit) u).foldl (fun s e => s.releaseEntry j iv e) s := rfl

theorem sameMap_releaseEntry (s : State) (j : Nat) (iv : Interleave) (e : StashEnt) : SameMap s (s.releaseEntry j iv e) :=
  (sameMap_writeLe _ _ _ _).trans (sameMap_setEntState _ _ _)

theorem sameMap_releaseLogical (s : State) (j : Nat) (iv : Interleave) (u : Nat) : SameMap s (s.releaseLogical j iv u) :=
  sameMap_fold _ (fun s e => sameMap_releaseEntry s j iv e) _ _

theorem SameMap.releaseCost {s s' : State} (h : SameMap s s') (j : Nat) : s'.releaseCost j = s.releaseCost j := by
  funext e
  rw [State.releaseCost, State.releaseCost, State.stashRows, State.stashRows, h.job]

theorem State.byte_releaseEntry (s : State) (e : StashEnt) {a : Nat} (ha : ¬(iv.map + 8 ≤ a ∧ a < iv.map + 12)) :
    (s.releaseEntry j iv e).mem.bytes.get 0 a = if a = e.addr + 5 then 4 else s.mem.bytes.get 0 a := by
  rw [State.releaseEntry, byte_setEntState, byte_writeLe_other _ _ _ _ _ (by omega)]
  rfl

theorem State.byte_releaseEntries (l : List StashEnt) (s : State) {a : Nat} (ha : ¬(iv.map + 8 ≤ a ∧ a < iv.map + 12)) :
    (l.foldl (fun s e => s.releaseEntry j iv e) s).mem.bytes.get 0 a
      = if ∃ e ∈ l, a = e.addr + 5 then 4 else s.mem.bytes.get 0 a :=
  foldl_fill (get := fun s : State => s.mem.bytes.get 0 a) (fun s e => State.byte_releaseEntry s e ha) l s

theorem State.livePages_lt (s : State) (m : Nat) : s.livePages m < 256 ^ 4 := by
  have h := leNat_lt (s.readMem (m + 8) 4)
  rwa [readMem_len] at h

theorem State.livePages_releaseEntry {e : StashEnt} (he : iv.map + 64 ≤ e.addr) :
    (s.releaseEntry j iv e).livePages iv.map = s.livePages iv.map - s.releaseCost j e := by
  rw [State.livePages, State.releaseEntry, State.setEntState, State.readLe_writeLe_other _ _ _ _ _ _ (by omega), State.readLe_writeLe]
  exact Nat.mod_eq_of_lt (Nat.lt_of_le_of_lt (Nat.sub_le _ _) (State.livePages_lt s iv.map))

theorem State.livePages_releaseEntries (l : List StashEnt) (s : State) (hl : ∀ e ∈ l, iv.map + 64 ≤ e.addr) :
    (l.foldl (fun s e => s.releaseEntry j iv e) s).livePages iv.map = s.livePages iv.map - (l.map (s.releaseCost j)).sum := by
  induction l generalizing s with
  | nil => rfl
  | cons e l ih =>
    rw [List.foldl_cons, ih _ fun e he => hl e (.tail _ he), (sameMap_releaseEntry s j iv e).releaseCost,
      State.livePages_releaseEntry (hl e (.head _)), List.map_cons, List.sum_cons, Nat.sub_sub]

theorem State.entriesOf_addr {f : StashEnt → Nat} {e : StashEnt} (h : e ∈ s.entriesOf iv f u) : iv.map + 64 ≤ e.addr :=
  State.stashEnts_addr (List.mem_filter.1 h).1

/-- STATE of the entries, LIVE_PAGES and the other bytes after a release. -/
theorem State.releaseLogical_spec (s : State) (j : Nat) (iv : Interleave) (u : Nat) :
    (∀ e ∈ s.entriesOf iv (·.releaseUnit) u, (s.releaseLogical j iv u).readLe (e.addr + 5) 1 = 4)
      ∧ (s.releaseLogical j iv u).livePages iv.map
        = s.livePages iv.map - ((s.entriesOf iv (·.releaseUnit) u).map (s.releaseCost j)).sum
      ∧ ∀ a, ¬(iv.map + 8 ≤ a ∧ a < iv.map + 12) → (∀ e ∈ s.entriesOf iv (·.releaseUnit) u, a ≠ e.addr + 5) →
          (s.releaseLogical j iv u).mem.bytes.get 0 a = s.mem.bytes.get 0 a := by
  rw [State.releaseLogical_eq]
  refine ⟨fun e he => ?_, State.livePages_releaseEntries _ _ fun e he => State.entriesOf_addr he, fun a ha hother => ?_⟩
  · have haddr := State.entriesOf_addr he
    rw [State.readLe_byte, State.byte_releaseEntries _ _ (by omega), if_pos ⟨e, he, rfl⟩]
    rfl
  · rw [State.byte_releaseEntries _ _ ha, if_neg]
    rintro ⟨e, he, h⟩
    exact hother e he h

/-! Forwarding (R216, R225). -/

/-- The records of unit `u` are forwarded to the queue of a place, up to the end of the unit there. -/
def State.forwardTo (s : State) (x : JobSt) (iv : Interleave) (u : Nat) (p : DiePlace × Nat) (y : DealQueue) : DealQueue :=
  { y with count := (s.unitSpan x iv u p.2).2 }

/-- The span of a unit is read from memory. -/
theorem State.unitSpan_congr {s s' : State} (h : s'.mem = s.mem) (x : JobSt) (iv : Interleave) (u k : Nat) :
    s'.unitSpan x iv u k = s.unitSpan x iv u k := by
  have hread : ∀ a n, s'.readLe a n = s.readLe a n := fun a n => State.readLe_congr (congrArg MemSt.bytes h) a n
  simp only [State.unitSpan, State.unitAt, State.streamAt, hread]

/-- A visit that reads the span in the state at hand. -/
def State.forwardPlace (j : Nat) (x : JobSt) (iv : Interleave) (u : Nat) (s : State) (p : DiePlace × Nat) : State :=
  s.visitQueue j (·.1.die) (s.forwardTo x iv u) p

theorem State.forwardPlaces_eq {s0 : State} (l : List (DiePlace × Nat)) : ∀ s : State, s.mem = s0.mem →
    l.foldl (State.forwardPlace j x iv u) s = l.foldl (State.visitQueue j (·.1.die) (s0.forwardTo x iv u)) s := by
  induction l with
  | nil => intro s _; rw [List.foldl_nil, List.foldl_nil]
  | cons p l ih =>
    intro s hmem
    have hspan : s.forwardTo x iv u = s0.forwardTo x iv u := by
      funext p y
      rw [State.forwardTo, State.forwardTo, State.unitSpan_congr hmem]
    have hplace : s.forwardPlace j x iv u p = s.visitQueue j (·.1.die) (s0.forwardTo x iv u) p := by
      rw [State.forwardPlace, hspan]
    rw [List.foldl_cons, List.foldl_cons, hplace]
    refine ih _ ?_
    rw [State.visitQueue_rest]
    exact hmem

theorem State.forwardUnit_eq (hjob : s.job j = some x) : s.forwardUnit j iv u
    = (x.places.zipIdx.foldl (State.visitQueue j (·.1.die) (s.forwardTo x iv u)) s).modTrain j
        (fun t => { t with unit := u + 1, phase := .ready, updFault := none }) := by
  rw [← State.forwardPlaces_eq (s0 := s) _ s rfl]
  simp only [State.forwardUnit, hjob]
  rfl

/-- The records of unit `u` have been forwarded: the queue of each die holds records up to the end of the unit there, and the
next boundary is that of the unit after it. -/
def Forwarded (j : Nat) (iv : Interleave) (u : Nat) (m s' : State) : Prop :=
  s'.mem = m.mem ∧ ∀ y, m.job j = some y → (∃ z, s'.job j = some z ∧ z.train.unit = u + 1 ∧ z.train.phase = .ready)
    ∧ ((y.places.map (·.die)).Nodup → ∀ k p q, y.places[k]? = some p → (m.dealer p.die).queueOf j = some q →
        s'.queue p.die q = { m.queue p.die q with count := (m.unitSpan y iv u k).2 })

theorem State.forwarded_forwardUnit (m : State) (j : Nat) (iv : Interleave) (u : Nat) : Forwarded j iv u m (m.forwardUnit j iv u) := by
  cases hjob : m.job j with
  | none =>
    have hsame : m.forwardUnit j iv u = m := by simp only [State.forwardUnit, hjob]
    exact ⟨congrArg State.mem hsame, fun y hy => by rw [hjob] at hy; cases hy⟩
  | some x =>
    rw [State.forwardUnit_eq hjob]
    have hvisit := State.visitQueues_rest (j := j) (die := fun p : DiePlace × Nat => p.1.die) (g := m.forwardTo x iv u) x.places.zipIdx m
    refine ⟨by rw [State.mem_modTrain, hvisit], fun y hy => ?_⟩
    obtain rfl : x = y := Option.some.inj (hjob.symm.trans hy)
    refine ⟨⟨_, State.job_modTrain _ (x := x) (by rw [hvisit]; exact hjob), rfl, rfl⟩, fun hnodup k p q hp hq => ?_⟩
    have hdies : x.places.zipIdx.map (fun p => p.1.die) = x.places.map (·.die) :=
      List.map_map.symm.trans (congrArg (List.map DiePlace.die) (List.zipIdx_map_fst 0 x.places))
    have hqueue := State.queue_visitQueues (g := m.forwardTo x iv u) (a := (p, k)) x.places.zipIdx m (hdies ▸ hnodup)
      (List.mem_zipIdx_iff_getElem?.2 hp) hq
    rw [State.queue, State.dealer, State.dealers_modTrain]
    exact hqueue

/-- What follows the mapping of a unit's pages: it waits for them, or for its updates, or its records are forwarded. -/
def Entered (j : Nat) (iv : Interleave) (u : Nat) (m : State × Bool) (s' : State) : Prop :=
  (m.2 = false → s' = m.1.modTrain j (fun t => { t with phase := .mapping }))
    ∧ (m.2 = true → (m.1.unitAt iv u).kind = 3 → s' = m.1.modTrain j (fun t => { t with phase := .update }))
    ∧ (m.2 = true → (m.1.unitAt iv u).kind ≠ 3 → Forwarded j iv u m.1 s')

theorem entered_afterMap (m : State × Bool) (j : Nat) (iv : Interleave) (u : Nat) : Entered j iv u m (m.1.afterMap j iv u m.2) := by
  refine ⟨fun hwait => ?_, fun hmapped hkind => ?_, fun hmapped hkind => ?_⟩
  · rw [hwait]; rfl
  · rw [State.afterMap, hmapped, if_pos hkind]; rfl
  · have h : m.1.afterMap j iv u m.2 = m.1.forwardUnit j iv u := by rw [State.afterMap, hmapped, if_neg hkind]; rfl
    rw [h]
    exact State.forwarded_forwardUnit m.1 j iv u

/-! Boundaries (R216, R222, R240). -/

/-- The state in which a boundary reserves: the entries that the unit before releases are released. -/
def State.boundaryReleased (s : State) (j : Nat) (iv : Interleave) (u : Nat) : State :=
  if u = 0 then s else s.releaseLogical j iv (u - 1)

theorem sameMap_boundaryReleased (s : State) (j : Nat) (iv : Interleave) (u : Nat) : SameMap s (s.boundaryReleased j iv u) := by
  unfold State.boundaryReleased
  split
  · exact .refl s
  · exact sameMap_releaseLogical s j iv (u - 1)

/-- The entries of a unit are reserved and mapped, or the reservation's code faults the job. -/
def State.enterUnit (s : State) (j : Nat) (iv : Interleave) (u : Nat) : State :=
  match s.reserveUnitEnts j iv u with
  | .error c => s.jobFaults j c {}
  | .ok s2 =>
    let m := (s2.poolStates iv u).mapUnit j iv u
    m.1.afterMap j iv u m.2

theorem State.enterUnit_error {c : Code} (h : s.reserveUnitEnts j iv u = .error c) : s.enterUnit j iv u = s.jobFaults j c {} := by
  rw [State.enterUnit, h]

theorem State.enterUnit_ok {s2 : State} (h : s.reserveUnitEnts j iv u = .ok s2) :
    Entered j iv u ((s2.poolStates iv u).mapUnit j iv u) (s.enterUnit j iv u) := by
  rw [State.enterUnit, h]
  exact entered_afterMap _ j iv u

section Boundary

variable (hjob : s.job j = some x) (hiv : s.jobInterleave j = some iv) (hlive : x.live = true) (hactive : x.train.active = true)
include hjob hiv hlive hactive

theorem unitBoundary_ready (hphase : x.train.phase = .ready) (hu : x.train.unit ≤ iv.units) : unitBoundary j s
    = if x.train.unit = iv.units then (s.boundaryReleased j iv x.train.unit).modTrain j (fun t => { t with unit := x.train.unit + 1 })
      else (s.boundaryReleased j iv x.train.unit).enterUnit j iv x.train.unit := by
  simp only [unitBoundary, hjob, hiv, hlive, hactive, hphase, decide_eq_false (Nat.not_lt.2 hu), Bool.not_true, Bool.or_false,
    bne_self_eq_false, Bool.false_eq_true, if_false]
  refine if_congr Iff.rfl rfl ?_
  unfold State.enterUnit State.boundaryReleased
  cases State.reserveUnitEnts _ _ _ _ <;> rfl

theorem stashPageMap_eq (hphase : x.train.phase = .mapping) : stashPageMap j s
    = (let m := s.mapUnit j iv x.train.unit
      m.1.afterMap j iv x.train.unit m.2) := by
  simp only [stashPageMap, hjob, hiv, hlive, hactive, hphase, beq_self_eq_true, Bool.and_self, if_true]

end Boundary

/-- Settles O24: the release is `releaseLogical_spec`; what follows the mapping is `entered_afterMap`. -/
theorem unitBoundaries : Obligations.UnitBoundaries := by
  unfold Obligations.UnitBoundaries
  intro s j x iv hjob hiv hphase hfault hactive u forwarded entered released s1
  have hlive := JobSt.live_of hphase hfault
  refine ⟨fun hready hpos hlast => ?past, fun hready hlt => ?next, fun hmapping => ?mapped⟩
  case past =>
    have hmap := sameMap_releaseLogical s j iv (u - 1)
    have hboundary : unitBoundary j s = (s.releaseLogical j iv (u - 1)).modTrain j (fun t => { t with unit := u + 1 }) := by
      rw [unitBoundary_ready hjob hiv hlive hactive hready hlast.le, if_pos hlast, State.boundaryReleased, if_neg (Nat.ne_of_gt hpos)]
    obtain ⟨hstate, hpages, hother⟩ := State.releaseLogical_spec s j iv (u - 1)
    have hread : ∀ a n, (unitBoundary j s).readLe a n = (s.releaseLogical j iv (u - 1)).readLe a n := fun a n =>
      State.readLe_congr (by rw [hboundary, State.mem_modTrain]) a n
    refine ⟨unitBoundary j s, rfl, ?_, ?_, ⟨{ x with train := { x.train with unit := u + 1 } }, ?_, rfl⟩,
      fun e he => (hread _ _).trans (hstate e he), (hread _ _).trans hpages, fun a ha he => ?_⟩
    · rw [hboundary, State.tiles_modTrain, hmap.rest.1]
    · rw [hboundary, State.dealers_modTrain, hmap.rest.2.1]
    · rw [hboundary, State.job_modTrain _ ((hmap.job j).trans hjob)]
    · rw [hboundary, State.mem_modTrain]
      exact hother a ha he
  case next =>
    have hmap : SameMap s s1 := sameMap_boundaryReleased s j iv u
    have hboundary : unitBoundary j s = s1.enterUnit j iv u :=
      (unitBoundary_ready hjob hiv hlive hactive hready hlt.le).trans (if_neg (Nat.ne_of_lt hlt))
    refine ⟨fun c hc => ⟨unitBoundary j s, rfl, ?_⟩, fun s2 hs2 => ⟨unitBoundary j s, rfl, ?_⟩⟩
    · rw [hboundary, State.enterUnit_error hc]
      exact ⟨State.jobFaults_mem _ _ _ _, (State.jobFaults_dealers _ _ _ _).trans hmap.rest.2.1,
        (State.jobFaults_tiles _ _ _ _).trans hmap.rest.1, State.job_jobFaults_unfaulted _ _ ((hmap.job j).trans hjob) hfault⟩
    · rw [hboundary]
      exact State.enterUnit_ok hs2
  case mapped =>
    refine ⟨stashPageMap j s, rfl, ?_⟩
    rw [stashPageMap_eq hjob hiv hlive hactive hmapping]
    exact entered_afterMap _ j iv u

end Sys2Proof.Machine

namespace Sys2Proof.Machine

open Claims

variable {s : State} {j : Nat} {x : JobSt} {iv : Interleave}

/-! The start of the updates of a unit (R231, R238). -/

/-- Commands enter the queues of the stacks `ks`. -/
def State.postAll (ks : List Nat) (cs : List SeCmd) (s : State) : State :=
  ks.foldl (fun s k => s.modStack k (fun y => { y with queue := y.queue ++ cs })) s

theorem State.postAll_rest (ks : List Nat) (cs : List SeCmd) (s : State) :
    s.postAll ks cs = { s with mem := { s.mem with stk := (s.postAll ks cs).mem.stk } } := by
  induction ks generalizing s with
  | nil => rfl
  | cons k ks ih => rw [State.postAll, List.foldl_cons, ← State.postAll, ih]; rfl

/-- A stack posted to once has the commands behind those it had. -/
theorem State.stack_postAll (ks : List Nat) (cs : List SeCmd) (s : State) (hnodup : ks.Nodup) (k : Nat) :
    (s.postAll ks cs).stack k = if k ∈ ks then { s.stack k with queue := (s.stack k).queue ++ cs } else s.stack k := by
  induction ks generalizing s with
  | nil => simp [State.postAll]
  | cons l ks ih =>
    obtain ⟨hl, hks⟩ := List.nodup_cons.1 hnodup
    rw [State.postAll, List.foldl_cons, ← State.postAll, ih _ hks, State.stack_modStack]
    by_cases hk : k = l
    · subst hk
      rw [if_neg hl, if_pos rfl, if_pos (.head _)]
    · simp [hk]

/-- The groups of a unit, those that meet Table 8 of 07, and the stacks that have an engine to run them. -/
def State.updGroups (s : State) (u : UnitRec) : List Nat := (List.range u.updCount).map (fun i => s.readLe (u.upd + 8 * i) 8)

def State.goodGroups (s : State) (j : Nat) (u : UnitRec) : List Nat :=
  (s.updGroups u).filter (fun a => (s.checkRange (.job j) a 128).isNone && updValid (s.readMem a 128))

/-- The fault that waits for the end of the unit when a group is left out. -/
def State.groupFault (s : State) (j : Nat) (u : UnitRec) : Option Code :=
  if (s.goodGroups j u).length < (s.updGroups u).length then some Codes.updateDesc else none

def State.engines (s : State) : List Nat := (List.range 32).filter (fun k => (s.stack k).goodCount != 0)

theorem State.mem_engines {k : Nat} : k ∈ s.engines ↔ k < 32 ∧ (s.stack k).goodCount ≠ 0 := by
  rw [State.engines, List.mem_filter, List.mem_range, bne_iff_ne]

section Update

variable {u : UnitRec} (hjob : s.job j = some x) (hiv : s.jobInterleave j = some iv) (hlive : x.live = true)
  (hactive : x.train.active = true) (hphase : x.train.phase = .update) (hhalted : s.allHalted x j = true)
  (hunit : s.unitAt iv x.train.unit = u)
include hjob hiv hlive hactive hphase hhalted hunit

theorem updateUnitStart_good (hgood : s.goodGroups j u ≠ []) : updateUnitStart j s
    = (s.postAll s.engines ((s.goodGroups j u).map (fun a => ⟨updateCmd a, j, none, 0, false, false⟩))).modTrain j
        (fun t => { t with phase := .updating, updFault := s.groupFault j u }) := by
  have hempty : (s.goodGroups j u).isEmpty = false := by rwa [List.isEmpty_eq_false_iff]
  unfold State.groupFault
  unfold State.goodGroups State.updGroups at hempty ⊢
  simp only [updateUnitStart, hjob, hiv, hlive, hactive, hphase, hhalted, hunit, beq_self_eq_true, Bool.and_self, if_true, hempty,
    Bool.false_eq_true, if_false, decide_eq_true_eq]
  rfl

theorem updateUnitStart_bad (hgood : s.goodGroups j u = []) (hgroups : s.updGroups u ≠ []) :
    updateUnitStart j s = s.jobFaults j Codes.updateDesc {} := by
  have hbad : decide (([] : List Nat).length < (s.updGroups u).length) = true := decide_eq_true (List.length_pos_iff.2 hgroups)
  unfold State.goodGroups State.updGroups at *
  simp only [updateUnitStart, hjob, hiv, hlive, hactive, hphase, hhalted, hunit, beq_self_eq_true, Bool.and_self, if_true, hgood,
    List.isEmpty_nil, hbad]

end Update

/-- Settles O28: the good groups are posted by `postAll`; without one the job faults. -/
theorem updateStart : Obligations.UpdateStart := by
  unfold Obligations.UpdateStart
  intro s j x iv hjob hiv hphase hfault hactive hupdate hhalted u groups good
  have hlive := JobSt.live_of hphase hfault
  refine ⟨fun hgood => ⟨updateUnitStart j s, rfl, ?_⟩, fun hgood hgroups => ⟨updateUnitStart j s, rfl, ?_⟩⟩
  · rw [updateUnitStart_good hjob hiv hlive hactive hupdate hhalted rfl hgood]
    have hnodup : s.engines.Nodup := List.nodup_range.filter _
    have hstack := State.stack_postAll s.engines (good.map (fun a => ⟨updateCmd a, j, none, 0, false, false⟩)) s hnodup
    refine ⟨?_, ?_, ?_, fun k hk hcount => ?_, fun k hcount => ?_, State.job_modTrain _ (x := x) ?_⟩
    · rw [State.tiles_modTrain, State.postAll_rest]
    · rw [State.dealers_modTrain, State.postAll_rest]
    · rw [State.mem_modTrain, State.postAll_rest]
    · rw [State.stack, State.mem_modTrain]
      exact (hstack k).trans (if_pos (State.mem_engines.2 ⟨hk, hcount⟩))
    · rw [State.stack, State.mem_modTrain]
      exact (hstack k).trans (if_neg fun h => (State.mem_engines.1 h).2 hcount)
    · rw [State.postAll_rest]
      exact hjob
  · rw [updateUnitStart_bad hjob hiv hlive hactive hupdate hhalted rfl hgood hgroups]
    exact ⟨State.jobFaults_tiles _ _ _ _, State.jobFaults_dealers _ _ _ _, State.jobFaults_mem _ _ _ _,
      State.job_jobFaults_unfaulted _ _ hjob hfault⟩

end Sys2Proof.Machine

namespace Sys2Proof.Machine

open Claims

variable {s : State} {t : Tile} {a : BitVec 48} {e : StashEnt} {h : Hand} {j : Nat}

/-! Accesses of a tile to a stash entry (R220, R221). -/

theorem sameMap_stashPut (j : Nat) (e : StashEnt) (bs : List Byte) : ∀ (s : State) (o : Nat), SameMap s (s.stashPut j e o bs) := by
  induction bs with
  | nil => exact fun s _ => .refl s
  | cons b bs ih => exact fun s o => (sameMap_writeMem s _ _).trans (ih _ _)

theorem byte_stashPut_other {k : Nat} (bs : List Byte) : ∀ (s : State) (o : Nat), (∀ i < bs.length, k ≠ s.stashPhys j e (o + i)) →
    (s.stashPut j e o bs).mem.bytes.get 0 k = s.mem.bytes.get 0 k := by
  induction bs with
  | nil => exact fun _ _ _ => rfl
  | cons b bs ih =>
    intro s o hk
    have hfirst : k ≠ s.stashPhys j e o := hk 0 (Nat.succ_pos _)
    rw [State.stashPut, ih, State.byte_writeMem, if_neg (by rw [List.length_singleton]; omega)]
    intro i hi
    rw [(sameMap_writeMem s _ _).stashPhys, Nat.add_assoc, Nat.add_comm 1]
    exact hk (i + 1) (Nat.succ_lt_succ hi)

/-- Bytes put at places that differ from each other stand there. -/
theorem byte_stashPut (bs : List Byte) : ∀ (s : State) (o : Nat),
    (∀ i k, i < k → k < bs.length → s.stashPhys j e (o + i) ≠ s.stashPhys j e (o + k)) →
    ∀ i < bs.length, (s.stashPut j e o bs).mem.bytes.get 0 (s.stashPhys j e (o + i)) = bs.getD i 0 := by
  induction bs with
  | nil => exact fun _ _ _ i hi => absurd hi (Nat.not_lt_zero _)
  | cons b bs ih =>
    intro s o hdiff i hi
    have hphys := (sameMap_writeMem s (s.stashPhys j e o) [b]).stashPhys j e
    rw [State.stashPut]
    cases i with
    | zero =>
      rw [byte_stashPut_other, State.byte_writeMem, if_pos ⟨Nat.le_refl _, Nat.lt_succ_self _⟩, Nat.add_zero, Nat.sub_self]
      · rfl
      · intro i hi
        rw [hphys, Nat.add_assoc, Nat.add_comm 1]
        exact hdiff 0 (i + 1) (Nat.succ_pos _) (Nat.succ_lt_succ hi)
    | succ i =>
      have hnext := ih (s.writeMem (s.stashPhys j e o) [b]) (o + 1) (fun i k hik hk => by
        rw [hphys, hphys, Nat.add_assoc, Nat.add_assoc, Nat.add_comm 1, Nat.add_comm 1]
        exact hdiff (i + 1) (k + 1) (Nat.succ_lt_succ hik) (Nat.succ_lt_succ hk)) i (Nat.lt_of_succ_lt_succ hi)
      rw [hphys, Nat.add_assoc, Nat.add_comm 1] at hnext
      exact hnext

/-- A write of whole elements of one row below R into an unpacked entry of STATE 1 or 3. -/
theorem stashWriteAt_unpacked {addr : Nat} {bs : List Byte} (hpacked : e.packed = false) (hstate : e.state = 1 ∨ e.state = 3)
    (hoff : (addr - e.logical) % e.srcBytes = 0) (hlen : bs.length % e.srcBytes = 0)
    (hrow : (addr - e.logical) / e.srcBytes % e.rowElems + bs.length / e.srcBytes ≤ e.rowElems)
    (hrows : (addr - e.logical) / e.srcBytes / e.rowElems < s.stashRows j e) : s.stashWriteAt j e addr bs
      = .ok (s.stashPut j e ((addr - e.logical) / e.srcBytes / e.rowElems * e.rowBytes
          + (addr - e.logical) / e.srcBytes % e.rowElems * e.srcBytes) bs) := by
  have hst : (e.state == 1 || e.state == 3) = true := by simpa using hstate
  simp only [State.stashWriteAt, hpacked, hst, hoff, hlen, Bool.false_eq_true, if_false, Nat.mod_one, Nat.not_lt.2 hrow,
    Nat.not_le.2 hrows]
  rfl

theorem sequenceE_ok {α : Type} (vs : List α) : sequenceE (vs.map (Except.ok (ε := Code))) = .ok vs := by
  induction vs with
  | nil => rfl
  | cons v vs ih => rw [List.map_cons, sequenceE, ih]

/-! What the instruction makes of them. -/

theorem TileSt.job_of_hand {y : TileSt} (hhand : y.hand = some h) : y.job = h.job := by rw [TileSt.job, hhand]

theorem exec_stashRead {n : Nat} {f : BitVec 6} {dst : BitVec 25} (hhand : (s.tile t).hand = some h)
    (hfit : dst.toNat + n * (fmtBits f.toNat / 8) ≤ spadSize) :
    exec (.stashRead t a n f dst) s = .next (stashRead t a.toNat n f.toNat dst.toNat s) := by
  show Host.Outcome.next (if (s.tile t).hand.isSome && decide _ then _ else s) = _
  rw [hhand, decide_eq_true hfit]
  rfl

theorem exec_stashWrite {bs : List Byte} (hhand : (s.tile t).hand = some h) :
    exec (.stashWrite t a bs) s = .next (stashWrite t a.toNat bs s) := by
  show Host.Outcome.next (if (s.tile t).hand.isSome then _ else s) = _
  rw [hhand]
  rfl

section Access

variable (hhand : (s.tile t).hand = some h) (hfind : s.stashFind h.job a.toNat = some e)
include hhand hfind

theorem exec_stashWrite_ok {bs : List Byte} {s' : State} (hwrite : s.stashWriteAt h.job e a.toNat bs = .ok s') :
    exec (.stashWrite t a bs) s = .next s' := by
  rw [exec_stashWrite hhand, stashWrite]
  simp only [TileSt.job_of_hand hhand, hfind, hwrite]

theorem exec_stashWrite_error {bs : List Byte} {c : Code} (hwrite : s.stashWriteAt h.job e a.toNat bs = .error c) :
    exec (.stashWrite t a bs) s
      = .next (s.tileReport t (s.tile t).pc c h.job (s.tile t).handId (s.memData a.toNat)) := by
  rw [exec_stashWrite hhand, stashWrite]
  simp only [TileSt.job_of_hand hhand, hfind, hwrite]

section Read

variable {n : Nat} {f : BitVec 6} {dst : BitVec 25} (hfit : dst.toNat + n * (fmtBits f.toNat / 8) ≤ spadSize)
include hfit

theorem exec_stashRead_format (hfmt : 2 < f.toNat) :
    exec (.stashRead t a n f dst) s = .next (s.tileFault t (s.tile t).pc Codes.isaFormat) := by
  rw [exec_stashRead hhand hfit, stashRead]
  simp only [TileSt.job_of_hand hhand, hfind, stashReadFmt, decide_eq_false (Nat.not_le.2 hfmt)]
  rfl

theorem exec_stashRead_values {vs : List FV} (hfmt : f.toNat ≤ 2)
    (hvs : (List.range n).map (fun i => s.stashValue h.job e (a.toNat + i * e.srcBytes)) = vs.map .ok) :
    exec (.stashRead t a n f dst) s
      = .next (s.poke t 0 dst.toNat (vs.flatMap (fun v => natLe (fmtBits f.toNat / 8) (encodeElem f.toNat .rne v)))) := by
  rw [exec_stashRead hhand hfit, stashRead]
  simp only [TileSt.job_of_hand hhand, hfind, stashReadFmt, decide_eq_true hfmt, hvs, sequenceE_ok]
  rfl

end Read

end Access

/-- Settles O26: a write is `stashWriteAt` and an unpacked one `byte_stashPut`; a read is one write of the scratchpad. -/
theorem stashAccesses : Obligations.StashAccesses := by
  unfold Obligations.StashAccesses
  intro s t a e h hhand hfind
  refine ⟨fun bs => ⟨fun s' => exec_stashWrite_ok hhand hfind, fun c hc => ?refused⟩, fun bs => ?unpacked,
    fun n f dst hfit => ⟨fun hfmt => ?format, fun vs hfmt hvs => ?values⟩⟩
  case refused =>
    obtain ⟨-, -, hmem, hfault⟩ := State.tileReport_spec s t (s.tile t).pc c h.job (s.tile t).handId (s.memData a.toNat)
    exact ⟨_, exec_stashWrite_error hhand hfind hc, hmem, hfault⟩
  case unpacked =>
    intro o at_ hpacked hstate hoff hlen hrow hrows hdiff
    refine ⟨_, exec_stashWrite_ok hhand hfind (stashWriteAt_unpacked hpacked hstate hoff hlen hrow hrows),
      (sameMap_stashPut _ _ _ _ _).rest.1, byte_stashPut bs s _ hdiff, fun k hk => byte_stashPut_other bs s _ hk⟩
  case format =>
    exact ⟨_, exec_stashRead_format hhand hfind hfit hfmt, faults_tileFaultTrap s t _ 0⟩
  case values =>
    exact ⟨_, exec_stashRead_values hhand hfind hfit hfmt hvs, onlyTile_modTile s t _, State.tile_modTile_same _ _ _⟩

end Sys2Proof.Machine

namespace Sys2Proof.Machine

open Claims

/-! A training job that meets the hypotheses of O24 to O28. -/

/-- A job of one die whose interleave is at 0x1000 and whose deal stream is named at 0x1800. -/
def trainingJob (train : TrainSt) : JobSt :=
  { JobSt.new 0 [] 0 { jobDescOf [] with dies := 1, streams := 0x1800, interleave := 0x1000 } 0 0 0 with
    phase := .running, places := [⟨0, 1, none⟩], train := train }

/-- The job's pages, on a module whose stack 0 has one good channel: 0 with its descriptors, 1 its stash, 2 the range of its entry. -/
def trainingPages : State :=
  let page (p : Nat) : PageSt := { object := p, place := .resident p, written := false, arrived := 0, logical := none }
  let object : ObjectSt := { pages := 1, attr := 0, place := 0, arg := 0, name := 0, owner := .job 1, func := 0,
                             freeing := none, syncing := none, removeName := false }
  [0, 1, 2].foldl (fun s p => (s.setPage p (some (page p))).setObject p (some object))
    (State.reset.modStack 0 (fun y => { y with good := 1 }))

/-- Its one unit, of KIND 0, has one record, a SYNC, and one update group, at 0x4000. Its stash map at 0x3000 has LIVE_PAGES `live`
and one entry of STATE `state`: a row of four BF16 elements, unpacked, with its range at 0x400000. -/
def trainingWords (state live : Nat) : List (Nat × Nat × Nat) :=
  [(0x1000, 2, 0x2053), (0x1004, 4, 1), (0x1008, 8, 0x2000), (0x1010, 8, 0x3000), (0x1018, 4, 1), (0x1020, 8, 0x200000),
    (0x1800, 8, 0x5000), (0x1808, 8, 1), (0x5002, 1, 0x0E), (0x2006, 2, 1), (0x2028, 8, 0x2800), (0x2800, 8, 0x4000),
    (0x3000, 2, 0x2051), (0x3004, 4, 1), (0x3008, 4, live), (0x3040, 2, 0x2052), (0x3042, 2, 0x101), (0x3045, 1, state),
    (0x304C, 4, 4), (0x3050, 8, 1), (0x3058, 8, 0x400000), (0x306C, 4, 1)]

/-- Job 1 is at a given point of a step, with `dealt` records forwarded and dealt. -/
def trainingBase (train : TrainSt) (dealt : Nat) : State :=
  (trainingPages.setJob 1 (some (trainingJob train))).setQueue 0 0 { DealQueue.init with job := 1, count := dealt, next := dealt }

def trainingState (train : TrainSt) (state live dealt : Nat) : State :=
  (trainingWords state live).foldl (fun s w => s.writeLe w.1 w.2.1 w.2.2) (trainingBase train dealt)

theorem trainingState_map (train : TrainSt) (state live dealt : Nat) :
    SameMap (trainingBase train dealt) (trainingState train state live dealt) :=
  sameMap_writeLes _ _

def trainingInterleave : Interleave := ⟨0x2053, true, 1, 0x2000, 0x3000, 1, 0, 0x200000, 0, 0⟩

/-- O27 applies: the first step starts, and the step count becomes 1. -/
theorem trainingStart_first : ∃ s', exec (.trainingStepStart 1) (trainingState .init 4 1 0) = .next s'
    ∧ s'.job 1 = some (trainingJob { TrainSt.init with active := true }) ∧ s'.readLe 0x3045 1 = 0 ∧ s'.readLe 0x3018 8 = 1 := by
  obtain ⟨-, hgood⟩ := trainingStart (trainingState .init 4 1 0) 1 (trainingJob .init) trainingInterleave (by decide) (by decide)
    rfl rfl (fun h => by cases h)
  obtain ⟨s', y, hexec, -, hjob, rfl, hents, -, hcount, -⟩ := hgood (by decide)
  exact ⟨s', hexec, hjob, (hents _ (.head _)).1, hcount.trans (by decide)⟩

/-- O24 applies past the last unit: the entry is released, and its page leaves LIVE_PAGES. -/
theorem unitBoundaries_past :
    let train : TrainSt := { TrainSt.init with active := true, unit := 1, rows := [(0, 1)], map := [(0, 2)] }
    ∃ s', exec (.unitBoundary 1) (trainingState train 1 1 1) = .next s' ∧ s'.readLe 0x3045 1 = 4 ∧ s'.livePages 0x3000 = 0 := by
  intro train
  obtain ⟨hpast, -⟩ := unitBoundaries (trainingState train 1 1 1) 1 (trainingJob train) trainingInterleave (by decide)
    (by decide) rfl rfl rfl
  obtain ⟨s', hexec, -, -, -, hstate, hlive, -⟩ := hpast rfl (by decide) rfl
  exact ⟨s', hexec, hstate ((trainingState train 1 1 1).stashEnt 0x3000 0) (by decide), hlive.trans (by decide)⟩

/-- O24 applies to a mapping that waited: the entry's page is there, and the record of unit 0 is forwarded. -/
theorem unitBoundaries_mapped :
    let train : TrainSt := { TrainSt.init with active := true, phase := .mapping, rows := [(0, 1)] }
    ∃ s', exec (.stashPageMap 1) (trainingState train 1 1 0) = .next s' ∧ (s'.queue 0 0).count = 1 := by
  intro train
  obtain ⟨-, -, hmapped⟩ := unitBoundaries (trainingState train 1 1 0) 1 (trainingJob train) trainingInterleave (by decide)
    (by decide) rfl rfl rfl
  obtain ⟨s', hexec, -, -, hforward⟩ := hmapped rfl
  obtain ⟨-, hjobs⟩ := hforward (by decide) (by decide)
  obtain ⟨-, hqueues⟩ := hjobs (trainingJob { train with map := [(0, 2)] }) (by decide)
  exact ⟨s', hexec, (congrArg DealQueue.count (hqueues (by decide) 0 ⟨0, 1, none⟩ 0 rfl (by decide))).trans (by decide)⟩

/-- O25 applies: the SYNC has been dealt, and the entry's page goes back. -/
theorem stashRelease_page :
    let train : TrainSt := { TrainSt.init with active := true, unit := 1, map := [(0, 2)] }
    ∃ s' y, exec (.stashReleasePhysical 1 0) (trainingState train 4 0 1) = .next s' ∧ s'.job 1 = some y
      ∧ y.train.map.get 0 (stashKey 0 0) = 0 := by
  intro train
  obtain ⟨-, hrelease⟩ := stashRelease (trainingState train 4 0 1) 1 0 (trainingJob train) trainingInterleave (by decide)
    (by decide) rfl rfl rfl (by decide)
  obtain ⟨s', y, hexec, hjob, -, -, -, -, hgone, -⟩ := hrelease (by decide)
  exact ⟨s', y, hexec, hjob, hgone ((trainingState train 4 0 1).stashEnt 0x3000 0) (by decide) (by decide) 0 (by decide)⟩

def trainingHand : Hand := ⟨0, 1, 1, 0, none, 0, 0, 0, 0, 0, false, false⟩

/-- A hand of the job is on tile 0, and the entry has its page. -/
def accessState : State :=
  (trainingState { TrainSt.init with active := true, unit := 1, rows := [(0, 1)], map := [(0, 2)] } 1 1 1).modTile 0
    (fun y => { y with hand := some trainingHand })

/-- O26 applies to a write of the entry's second element: its bytes enter the page. -/
theorem stashAccesses_write : ∃ s', exec (.stashWrite 0 0x400002 [0x80, 0x3F]) accessState = .next s'
    ∧ s'.mem.bytes.get 0 0x200002 = 0x80 ∧ s'.mem.bytes.get 0 0x200003 = 0x3F := by
  obtain ⟨-, hwrite, -⟩ := stashAccesses accessState 0 0x400002 (accessState.stashEnt 0x3000 0) trainingHand (by decide) (by decide)
  obtain ⟨s', hexec, -, hbytes, -⟩ := hwrite [0x80, 0x3F] (by decide) (by decide) (by decide) (by decide) (by decide) (by decide)
    fun i k hik hk => by
      obtain ⟨rfl, rfl⟩ : i = 0 ∧ k = 1 := by rw [List.length_cons, List.length_singleton] at hk; omega
      decide
  exact ⟨s', hexec, hbytes 0 (by decide), hbytes 1 (by decide)⟩

/-- The unit's updates are to start. -/
def updatesTrain : TrainSt := { TrainSt.init with active := true, phase := .update }

def updatesBase : State := trainingState updatesTrain 0 0 0

/-- The unit's group is `denseGroup`. -/
def updatesState : State := updatesBase.writeLe 0x4000 128 denseGroup

theorem updatesState_map : SameMap updatesBase updatesState := sameMap_writeLe _ _ _ _

theorem updatesState_readLe {b n : Nat} (h : b + n ≤ 0x4000 ∨ 0x4000 + 128 ≤ b) :
    updatesState.readLe b n = updatesBase.readLe b n := by
  unfold updatesState
  exact State.readLe_writeLe_other _ _ _ _ _ _ h

theorem updatesState_group : updatesState.readMem 0x4000 128 = natLe 128 denseGroup := by
  have h := State.readMem_writeMem updatesBase 0x4000 (natLe 128 denseGroup)
  rwa [natLe_length] at h

theorem updatesState_interleave : updatesState.jobInterleave 1 = some trainingInterleave := by
  have hjob : updatesState.job 1 = some (trainingJob updatesTrain) := (updatesState_map.job 1).trans (by decide)
  have hat : updatesState.interleaveAt 0x1000 = updatesBase.interleaveAt 0x1000 := by
    simp (disch := decide) only [State.interleaveAt, updatesState_readLe]
  simp only [State.jobInterleave, hjob]
  rw [if_neg (by decide)]
  exact congrArg some (hat.trans (by decide))

theorem updatesState_unit : updatesState.unitAt trainingInterleave 0 = ⟨0, true, 1, List.replicate 8 0, 0x2800⟩ := by
  have hfirst : ∀ i ∈ List.range 8, updatesState.readLe (trainingInterleave.base + 48 * 0 + 8 + 4 * i) 4
      = updatesBase.readLe (trainingInterleave.base + 48 * 0 + 8 + 4 * i) 4 := fun i hi => by
    have := List.mem_range.1 hi
    exact updatesState_readLe (.inl (by rw [show trainingInterleave.base = 0x2000 from rfl]; omega))
  have hat : updatesState.unitAt trainingInterleave 0 = updatesBase.unitAt trainingInterleave 0 := by
    simp (disch := decide) only [State.unitAt, updatesState_readLe, List.map_congr_left hfirst]
  rw [hat]
  decide

theorem updatesState_groups : updatesState.updGroups ⟨0, true, 1, List.replicate 8 0, 0x2800⟩ = [0x4000] := by
  rw [State.updGroups, List.range_one, List.map_singleton, updatesState_readLe (by decide)]
  exact congrArg (fun a => [a]) (show updatesBase.readLe 0x2800 8 = 0x4000 by decide)

theorem updatesState_good : updatesState.goodGroups 1 ⟨0, true, 1, List.replicate 8 0, 0x2800⟩ = [0x4000] := by
  have hrange : updatesState.checkRange (.job 1) 0x4000 128 = none := by
    rw [updatesState_map.checkRange, updatesBase, (trainingState_map _ _ _ _).checkRange]
    decide
  rw [State.goodGroups, updatesState_groups, List.filter_cons_of_pos]
  · rfl
  · rw [hrange, updatesState_group, updValid_denseGroup]
    rfl

theorem updatesState_halted : updatesState.allHalted (trainingJob updatesTrain) 1 = true := by
  rw [updatesState_map.allHalted, updatesBase, (trainingState_map _ _ _ _).allHalted]
  decide

theorem updatesState_stack (k : Nat) : updatesState.stack k = trainingPages.stack k :=
  (updatesState_map.stack k).trans ((trainingState_map _ _ _ _).stack k)

/-- O28 applies: the UPDATE command of the group enters the queue of stack 0, and of no other. -/
theorem updateStart_posts : ∃ s', exec (.updateUnitStart 1) updatesState = .next s'
    ∧ (s'.stack 0).queue = [⟨updateCmd 0x4000, 1, none, 0, false, false⟩] ∧ s'.stack 1 = .init := by
  have hjob : updatesState.job 1 = some (trainingJob updatesTrain) := (updatesState_map.job 1).trans (by decide)
  have hgood : updatesState.goodGroups 1 (updatesState.unitAt trainingInterleave 0) = [0x4000] := by
    rw [updatesState_unit, updatesState_good]
  obtain ⟨hposts, -⟩ := updateStart updatesState 1 (trainingJob updatesTrain) trainingInterleave hjob updatesState_interleave
    rfl rfl rfl rfl updatesState_halted
  change updatesState.goodGroups 1 (updatesState.unitAt trainingInterleave 0) ≠ [] → _ at hposts
  obtain ⟨s', hexec, -, -, -, hposted, hother, -⟩ := hposts (by rw [hgood]; decide)
  have hqueue := congrArg StackSt.queue (hposted 0 (by decide) (by rw [updatesState_stack]; decide))
  change _ = (updatesState.stack 0).queue ++ (updatesState.goodGroups 1 (updatesState.unitAt trainingInterleave 0)).map _ at hqueue
  rw [hgood, updatesState_stack] at hqueue
  exact ⟨s', hexec, hqueue, (hother 1 (by rw [updatesState_stack]; decide)).trans ((updatesState_stack 1).trans (by decide))⟩

end Sys2Proof.Machine

namespace Sys2Proof.Machine

open Claims

/-! Accesses at the fabric ports (R274, R280, R287, R291 to R293). -/

section Requests

variable {s : State} {rq : Requester} {j cls idx : Nat} (hrq : s.requester rq = some (j, cls, idx))
include hrq

/-- An access error leaves memory and Dealers as they are and faults the job of the requester (R54, R274). -/
theorem accessError_spec (m : State) (hm : m.tiles = s.tiles) (c : Code) (data : List Byte) :
    (m.accessError rq c data).mem = m.mem ∧ (m.accessError rq c data).dealers = m.dealers
      ∧ ∀ x, m.job j = some x → (m.accessError rq c data).job j = some { x with fault := some (x.fault.getD c) } := by
  cases rq with
  | tile t =>
    have hj : (m.tile t).job = j := by
      rw [show m.tile t = s.tile t by rw [State.tile, hm]; rfl]
      simp only [State.requester] at hrq
      split at hrq
      · exact congrArg Prod.fst (Option.some.inj hrq)
      · cases hrq
    obtain ⟨-, -, hmem, hfault⟩ := State.tileReport_spec m t (m.tile t).pc c (m.tile t).job (m.tile t).handId data
    refine ⟨hmem, ?_, hj ▸ hfault⟩
    show (State.tileReport _ _ _ _ _ _ _).dealers = _
    rw [State.tileReport]
    dsimp only
    rw [State.jobFaults_dealers, apply_ite State.dealers]
    exact ite_self _
  | dealer d k =>
    obtain rfl : k = j := congrArg Prod.fst (Option.some.inj hrq)
    exact ⟨State.jobFaults_mem .., State.jobFaults_dealers .., job_jobFaults m k c _⟩
  | engine d k =>
    obtain rfl : k = j := congrArg Prod.fst (Option.some.inj hrq)
    exact ⟨State.jobFaults_mem .., State.jobFaults_dealers .., job_jobFaults m k c _⟩
  | codec k =>
    obtain rfl : k = j := congrArg Prod.fst (Option.some.inj hrq)
    exact ⟨State.jobFaults_mem .., State.jobFaults_dealers .., job_jobFaults m k c _⟩

variable {a n : Nat} {ecc : Ecc} {go : Nat → State → State}

theorem guardAccess_error {c : Code} (hc : s.checkRange (.job j) a n = some c) :
    s.guardAccess rq a n ecc go = s.accessError rq c (s.memData a) := by
  simp only [State.guardAccess, hrq, hc]

theorem guardAccess_wait (hc : s.checkRange (.job j) a n = none) (ha : s.absentPages a n ≠ []) :
    s.guardAccess rq a n ecc go = s.waitOn j cls idx (s.absentPages a n) := by
  simp only [State.guardAccess, hrq, hc]
  cases h : s.absentPages a n with
  | nil => exact absurd h ha
  | cons p ps => rfl

theorem guardAccess_uncorrectable (hc : s.checkRange (.job j) a n = none) (ha : s.absentPages a n = []) :
    s.guardAccess rq a n .uncorrectable go = ((s.noteUe a).accessError rq Codes.memUncorrectable (s.memData a)).faultJob
      (s.pageJob (a / size2MiB)) Codes.memUncorrectable := by
  simp only [State.guardAccess, hrq, hc, ha]

theorem guardAccess_clean (hc : s.checkRange (.job j) a n = none) (ha : s.absentPages a n = []) :
    s.guardAccess rq a n .clean go = go j s := by
  simp only [State.guardAccess, hrq, hc, ha]

end Requests

theorem noteUe_rest (s : State) (addr : Nat) : (s.noteUe addr).tiles = s.tiles ∧ (s.noteUe addr).mem.bytes = s.mem.bytes := by
  rw [State.noteUe, State.noteUeAt]
  dsimp only
  split <;> exact ⟨rfl, rfl⟩

/-- A second fault of a job leaves the first in place, and one of another job leaves it alone (R424). -/
theorem job_faultJob_faulted {m : State} {j : Nat} {y : JobSt} {c : Code} (hy : m.job j = some y) (hf : y.fault = some c)
    (k : Nat) (d : Code) : ∃ z, (m.faultJob k d).job j = some z ∧ z.fault = some c := by
  rw [faultJob_same]
  split
  · next h => exact ⟨_, by rw [← h, hy]; rfl, by simp [hf]⟩
  · exact ⟨y, hy, hf⟩

/-- Elements fit in their bytes, so a choice between two of them needs no wrap (R292). -/
theorem leNat_mod_of_le {bs : List Byte} {w : Nat} (h : bs.length ≤ w) : leNat bs % 256 ^ w = leNat bs :=
  Nat.mod_eq_of_lt ((leNat_lt bs).trans_le (Nat.pow_le_pow_right (by decide) h))

/-- What a memory-side operation leaves in one element, without the wrap of the bytes that store it (R292, Table 4 of 09). -/
theorem msElem_cases (op : MsOp) (ty : MsTy) {old x : Nat} (hold : old % 256 ^ msBytes ty = old) (hx : x % 256 ^ msBytes ty = x) :
    let w := msBytes ty
    let y := msElem op ty old x % 256 ^ w
    (op = .add → (ty = .int32 ∨ ty = .int64) → y = (old + x) % 2 ^ (8 * w))
      ∧ (op = .min → (ty = .int32 ∨ ty = .int64) → y = if sintVal (8 * w) x < sintVal (8 * w) old then x else old)
      ∧ (op = .max → (ty = .int32 ∨ ty = .int64) → y = if sintVal (8 * w) old < sintVal (8 * w) x then x else old)
      ∧ (op = .min → ty = .fp32 → y = (fmin32 (BitVec.ofNat 32 old) (BitVec.ofNat 32 x)).toNat)
      ∧ (op = .max → ty = .fp32 → y = (fmax32 (BitVec.ofNat 32 old) (BitVec.ofNat 32 x)).toNat)
      ∧ ∀ f, op = .add → (ty, f) ∈ [(MsTy.fp32, 0), (.bf16, 1), (.fp16, 2)]
          → y = encodeElem f .rne ((decodeElem f old 127).add (decodeElem f x 127)) % 2 ^ (8 * w) := by
  have hpow : (256 : Nat) ^ msBytes ty = 2 ^ (8 * msBytes ty) := by rw [Nat.pow_mul]
  have hchoice (p : Prop) [Decidable p] (u v : Nat) (hu : u % 256 ^ msBytes ty = u) (hv : v % 256 ^ msBytes ty = v) :
      (if p then u else v) % 256 ^ msBytes ty = if p then u else v := by split <;> assumption
  dsimp only
  refine ⟨?_, ?_, ?_, ?_, ?_, ?_⟩
  · rintro rfl (rfl | rfl) <;> exact Nat.mod_mod _ _
  · rintro rfl (rfl | rfl) <;> exact hchoice _ _ _ hx hold
  · rintro rfl (rfl | rfl) <;> exact hchoice _ _ _ hx hold
  · rintro rfl rfl; exact Nat.mod_eq_of_lt (BitVec.isLt _)
  · rintro rfl rfl; exact Nat.mod_eq_of_lt (BitVec.isLt _)
  · intro f hop hf
    subst hop
    simp only [List.mem_cons, Prod.mk.injEq, List.not_mem_nil, or_false] at hf
    rw [hpow]
    obtain ⟨rfl, rfl⟩ | ⟨rfl, rfl⟩ | ⟨rfl, rfl⟩ := hf <;> rfl

/-- An access that a check, a wait or an uncorrectable error holds back: no byte changes, and its job or the waiters of its
pages learn of it (R274, R280, R287). -/
theorem guardAccess_held {s : State} {rq : Requester} {j cls idx : Nat} (hrq : s.requester rq = some (j, cls, idx)) (a n : Nat)
    (ecc : Ecc) (go : Nat → State → State) :
    let m := s.guardAccess rq a n ecc go
    (∀ c, s.checkRange (.job j) a n = some c → m.mem = s.mem ∧ m.dealers = s.dealers
        ∧ ∀ x, s.job j = some x → m.job j = some { x with fault := some (x.fault.getD c) })
      ∧ (s.checkRange (.job j) a n = none → s.absentPages a n ≠ [] → m.mem.bytes = s.mem.bytes ∧ m.tiles = s.tiles
        ∧ m.dealers = s.dealers ∧ ∀ p ∈ s.absentPages a n, ⟨p, j, cls, idx⟩ ∈ m.mem.waiters)
      ∧ (s.checkRange (.job j) a n = none → s.absentPages a n = [] → ecc = .uncorrectable → m.mem.bytes = s.mem.bytes
        ∧ ∀ x, s.job j = some x → ∃ y, m.job j = some y ∧ y.fault = some (x.fault.getD Codes.memUncorrectable)) := by
  refine ⟨fun c hc => ?barred, fun hc ha => ?absent, fun hc ha hecc => ?bad⟩
  case barred =>
    rw [guardAccess_error hrq hc]
    exact accessError_spec hrq s rfl c _
  case absent =>
    rw [guardAccess_wait hrq hc ha]
    exact ⟨waitOn_bytes .., waitOn_same State.tiles (fun _ _ => rfl) .., waitOn_same State.dealers (fun _ _ => rfl) ..,
      (waitOn_waits j cls idx _ s).2⟩
  case bad =>
    obtain ⟨htiles, hbytes⟩ := noteUe_rest s a
    obtain ⟨hmem, -, hfault⟩ := accessError_spec hrq (s.noteUe a) htiles Codes.memUncorrectable (s.memData a)
    rw [hecc, guardAccess_uncorrectable hrq hc ha]
    refine ⟨by rw [State.faultJob_mem, hmem, hbytes], fun x hx => ?_⟩
    exact job_faultJob_faulted (hfault x (((noteUe_keeps s a).2 j).trans hx)) rfl _ _

/-- Settles O31: the guard of an access has one outcome for each state of its pages; a write is then `writeMem`, a memory-side
operation `memSide`, whose elements are `msElem`. -/
theorem unifiedAccesses : Obligations.UnifiedAccesses := by
  unfold Obligations.UnifiedAccesses
  intro s rq a j cls idx hrq stores
  refine ⟨fun acc ecc => ?access, fun op ty bs hshape hc ha => ?side⟩
  case access =>
    cases acc with
    | read n =>
      obtain ⟨hbarred, habsent, hbad⟩ := guardAccess_held hrq a.toNat n ecc (fun _ s => s)
      refine ⟨_, rfl, hbarred, habsent, hbad, fun hc ha hecc _ => ?_, nofun⟩
      rw [hecc]
      exact guardAccess_clean (n := n) (go := fun _ s => s) hrq hc ha
    | write bs =>
      obtain ⟨hbarred, habsent, hbad⟩ := guardAccess_held hrq a.toNat bs.length ecc _
      refine ⟨_, rfl, hbarred, habsent, hbad, nofun, ?_⟩
      rintro _ hc ha rfl ⟨⟩ hstash
      have hrun : unifiedAccess rq a.toNat (.write bs) .clean s = s.writeMem a.toNat bs := by
        rw [unifiedAccess, guardAccess_clean hrq hc ha]
        simp only [State.uniPut, hstash]
      obtain ⟨htiles, hdealers, hsched, -⟩ := (sameMap_writeMem s a.toNat bs).rest
      rw [hrun]
      exact ⟨htiles, hdealers, hsched, s.byte_writeMem a.toNat bs⟩
  case side =>
    have hwidth : bs.length % msBytes ty = 0 := by
      simp only [msShape, Bool.and_eq_true, beq_iff_eq] at hshape
      exact hshape.2
    have hrun : exec (.memorySideOperation rq op ty a bs) s = .next (s.memSide op ty a.toNat bs) := by
      show Host.Outcome.next (if msShape op ty a.toNat bs.length then _ else s) = _
      rw [if_pos hshape, guardAccess_clean hrq hc ha]
    obtain ⟨hframe, helems⟩ := memSide_spec s op ty a.toNat bs hwidth
    obtain ⟨htiles, hdealers, -⟩ := (sameMap_writeMem s a.toNat _).rest
    refine ⟨_, hrun, htiles, hdealers, hframe, fun i hi => ?_⟩
    rw [helems i hi]
    exact msElem_cases op ty (leNat_mod_of_le (readMem_len ..).le) (leNat_mod_of_le (List.length_take_le ..))

end Sys2Proof.Machine

namespace Sys2Proof.Machine

open Claims

/-! Accesses of the host through BAR4 (R283, R294, R393, R463). -/

section Aperture

variable {s : State} {f : Func} {off n : Nat} {absent : State → State} {go : Nat → State → State}

/-- The address of an offset in the aperture of a function (R393). -/
def State.aperturePoint (s : State) (f off : Nat) : Nat := bitsOf (s.sched.aperture.get 0 f).toNat 11 0 * 2 ^ 36 + off

/-- Bytes that a function may not reach at an address (R294, R463). -/
def State.barsHost (s : State) (f : Func) (a n : Nat) : Prop := s.boot.cxl = true ∧ f ≠ 0 ∨ n = 0 ∨ s.checkRange (.func f) a n ≠ none

theorem apertureAddr_off (h : ¬bitOf (s.sched.aperture.get 0 f).toNat 63 = true) : s.apertureAddr f off = none := if_neg h

theorem apertureAddr_on (h : bitOf (s.sched.aperture.get 0 f).toNat 63 = true) :
    s.apertureAddr f off = some (s.aperturePoint f off) := if_pos h

theorem barsHost_iff (a : Nat) :
    ((s.boot.cxl && f.val != 0) || n == 0 || (s.checkRange (.func f) a n).isSome) = true ↔ s.barsHost f a n := by
  simp only [State.barsHost, Bool.or_eq_true, Bool.and_eq_true, bne_iff_ne, beq_iff_eq, Option.isSome_iff_ne_none, or_assoc,
    ne_eq, Fin.ext_iff, Fin.val_zero]

theorem hostAccess_refused (h : ¬bitOf (s.sched.aperture.get 0 f).toNat 63 = true ∨ s.barsHost f (s.aperturePoint f off) n) :
    s.hostAccess f off n absent go = s.send (.hostStatus statusUr) := by
  by_cases hon : bitOf (s.sched.aperture.get 0 f).toNat 63 = true
  · simp only [State.hostAccess, apertureAddr_on hon]
    rw [if_pos ((barsHost_iff _).2 (h.resolve_left (not_not_intro hon)))]
  · simp only [State.hostAccess, apertureAddr_off hon]

variable (hon : bitOf (s.sched.aperture.get 0 f).toNat 63 = true) (hbars : ¬s.barsHost f (s.aperturePoint f off) n)
include hon hbars

theorem hostAccess_absent (ha : s.absentPages (s.aperturePoint f off) n ≠ []) : s.hostAccess f off n absent go
    = absent (s.report Codes.hostNotResident { func := f, data := s.memData (s.aperturePoint f off) }) := by
  simp only [State.hostAccess, apertureAddr_on hon]
  rw [if_neg (fun h => hbars ((barsHost_iff _).1 h)), if_pos (by simpa using ha)]

theorem hostAccess_granted (ha : s.absentPages (s.aperturePoint f off) n = []) :
    s.hostAccess f off n absent go = go (s.aperturePoint f off) s := by
  simp only [State.hostAccess, apertureAddr_on hon]
  rw [if_neg (fun h => hbars ((barsHost_iff _).1 h)), if_neg (by simp [ha])]

end Aperture

/-- Tiles, Dealers, jobs and rings stay as they are. -/
def SameUnits (s m : State) : Prop := m.tiles = s.tiles ∧ m.dealers = s.dealers ∧ m.sched = s.sched

theorem sameUnits_report (s : State) (c : Code) (i : RecInfo) : SameUnits s (s.report c i) :=
  ⟨State.report_tiles .., State.report_dealers .., State.report_sched ..⟩

theorem sameUnits_writeMem (s : State) (a : Nat) (bs : List Byte) : SameUnits s (s.writeMem a bs) :=
  let ⟨htiles, hdealers, hsched, _⟩ := (sameMap_writeMem s a bs).rest
  ⟨htiles, hdealers, hsched⟩

/-- An access keeps the units when its two ways to go on do. -/
theorem sameUnits_hostAccess {s : State} {f off n : Nat} {absent : State → State} {go : Nat → State → State}
    (habsent : ∀ m, SameUnits s m → SameUnits s (absent m)) (hgo : ∀ a, SameUnits s (go a s)) :
    SameUnits s (s.hostAccess f off n absent go) := by
  unfold State.hostAccess
  split
  · exact ⟨rfl, rfl, rfl⟩
  · split
    · exact ⟨rfl, rfl, rfl⟩
    · split
      · exact habsent _ (sameUnits_report ..)
      · exact hgo _

/-- FetchAdd of the host (R294): an integer addition at one element, which wraps. -/
theorem fetchAdd_spec (s : State) (a : Nat) (wide : Bool) (v : W64) :
    let n := if wide then 8 else 4
    let m := s.memSide .add (if wide then .int64 else .int32) a (natLe n v.toNat)
    m.readLe a n = (s.readLe a n + v.toNat) % 2 ^ (8 * n)
      ∧ ∀ k, (k < a ∨ a + n ≤ k) → m.mem.bytes.get 0 k = s.mem.bytes.get 0 k := by
  have key (ty : MsTy) (n : Nat) (hn : msBytes ty = n) (h0 : 0 < n) (hty : msFmt ty = none) :
      (s.memSide .add ty a (natLe n v.toNat)).readLe a n = (s.readLe a n + v.toNat) % 2 ^ (8 * n)
        ∧ ∀ k, (k < a ∨ a + n ≤ k) → (s.memSide .add ty a (natLe n v.toNat)).mem.bytes.get 0 k = s.mem.bytes.get 0 k := by
    obtain ⟨hframe, helem⟩ := memSide_spec s .add ty a (natLe n v.toNat) (by rw [natLe_length, hn, Nat.mod_self])
    rw [hn, natLe_length] at helem
    rw [natLe_length] at hframe
    have hsum := helem 0 (by rw [Nat.div_self h0]; exact Nat.one_pos)
    have hpow : (256 : Nat) ^ n = 2 ^ (8 * n) := by rw [Nat.pow_mul]
    rw [Nat.mul_zero, Nat.add_zero, List.drop_zero, List.take_of_length_le (natLe_length _ _).le, leNat_natLe] at hsum
    refine ⟨hsum.trans ?_, hframe⟩
    simp only [msElem, hty, hn]
    rw [hpow, Nat.mod_mod, Nat.add_mod_mod]
  cases wide
  · exact key .int32 4 rfl (by decide) rfl
  · exact key .int64 8 rfl (by decide) rfl

theorem exec_hostAtomicFetchAdd {s : State} {f : Func} {off : BitVec 36} {wide : Bool} (v : W64)
    (halign : off.toNat % (if wide then 8 else 4) = 0) : exec (.hostAtomicFetchAdd f off wide v) s
      = .next (s.hostAccess f off.toNat (if wide then 8 else 4) (fun s => s.send (.hostStatus statusCa)) (fun a s =>
          (s.memSide .add (if wide then .int64 else .int32) a (natLe (if wide then 8 else 4) v.toNat)).send
            (.readData (s.readMem a (if wide then 8 else 4))))) :=
  congrArg Host.Outcome.next (if_neg (not_not_intro halign))

/-- Settles O32: a host access is refused, meets an absent page or is granted; what it then does is one `send`, `writeMem` or
`memSide`. -/
theorem hostAccesses : Obligations.HostAccesses := by
  unfold Obligations.HostAccesses
  intro s f off w a on bars same command n c hc
  rcases hc with rfl | ⟨d, rfl, rfl⟩ | ⟨wide, v, rfl, halign, rfl⟩
  case inl =>
    refine ⟨s.hostAccess f off.toNat n (fun s => if s.boot.cxl
          then (s.send (.readData (List.replicate n 0xFF#8))).send (.hostStatus statusPoison)
          else s.send (.hostStatus statusCa)) (fun a s => s.send (.readData (s.readMem a n))), rfl,
      sameUnits_hostAccess (fun m hm => ?_) (fun _ => ⟨rfl, rfl, rfl⟩), hostAccess_refused, fun hon hbars ha => ?_,
      fun hon hbars ha => ⟨fun _ => hostAccess_granted hon hbars ha, nofun, nofun⟩⟩
    · split <;> exact hm
    · rw [hostAccess_absent hon hbars ha]
      refine ⟨?_, funext fun j => ?_, fun hcxl _ => ?_, nofun, nofun⟩
      · split <;> exact State.report_mem ..
      · split <;> exact State.job_report ..
      · rw [report_boot, if_neg (by simp [hcxl]), State.send, State.report_outbox]
  case inr.inl =>
    refine ⟨s.hostAccess f off.toNat d.length (fun s => s) (fun a s => s.writeMem a d), rfl,
      sameUnits_hostAccess (fun m hm => hm) (fun a => sameUnits_writeMem s a d), hostAccess_refused, fun hon hbars ha => ?_,
      fun hon hbars ha => ⟨nofun, fun _ hd => ?_, nofun⟩⟩
    · rw [hostAccess_absent hon hbars ha]
      exact ⟨State.report_mem .., funext fun j => State.job_report .., nofun, nofun, fun _ _ => State.report_outbox ..⟩
    · cases hd
      rw [hostAccess_granted hon hbars ha]
      exact s.byte_writeMem a d
  case inr.inr =>
    refine ⟨_, exec_hostAtomicFetchAdd v halign, sameUnits_hostAccess (fun m hm => hm) (fun a => sameUnits_writeMem s a _),
      hostAccess_refused, fun hon hbars ha => ?_, fun hon hbars ha => ⟨nofun, nofun, fun _ _ hcmd => ?_⟩⟩
    · rw [hostAccess_absent hon hbars ha]
      exact ⟨State.report_mem .., funext fun j => State.job_report .., nofun, fun _ _ _ => by rw [State.send, State.report_outbox],
        nofun⟩
    · cases hcmd
      rw [hostAccess_granted hon hbars ha]
      obtain ⟨hsum, hframe⟩ := fetchAdd_spec s a wide v
      exact ⟨congrArg (· ++ _) (sameMap_writeMem s a _).rest.2.2.2, hsum, hframe⟩

end Sys2Proof.Machine

namespace Sys2Proof.Machine

open Claims

/-! Programs of the flash tier (R305, R310, R314). -/

/-- Closing superblocks changes their states alone. -/
theorem closeSbs_rest (is : List Nat) : ∀ f : FtlSt,
    ∃ m, is.foldl (fun f i => f.setSb i { f.sb i with state := .closed }) f = { f with sbs := m } := by
  induction is with
  | nil => exact fun f => ⟨f.sbs, rfl⟩
  | cons i is ih => exact fun f => (ih _).imp fun _ h => h.trans rfl

/-- Opening a superblock changes superblocks alone. -/
theorem openSb_rest {f g : FtlSt} {i : Nat} (h : f.openSb = some (i, g)) : g = { f with sbs := g.sbs } := by
  unfold FtlSt.openSb at h
  split at h
  · cases h; rfl
  · obtain ⟨m, hm⟩ := closeSbs_rest (f.sbsIn .open) f
    dsimp only at h
    rw [hm] at h
    split at h
    · cases h; rfl
    · cases h

/-- A program of a stripe leaves the stored bytes alone (R305). -/
theorem program_store {f g : FtlSt} {l : Nat} (h : f.program l = some g) : g.store = f.store := by
  unfold FtlSt.program at h
  split at h
  · cases h
  · next i f1 hopen =>
    cases h
    rw [openSb_rest hopen]
    rfl

/-- A program of a page: the store takes the page's bytes; nothing else of memory but the flash layer changes. -/
theorem programPage_spec {s m : State} {p l : Nat} (h : s.programPage p l = some m) :
    m.mem = { s.mem with ftl := m.mem.ftl } ∧ m.sched = s.sched
      ∧ m.mem.ftl.store = s.mem.ftl.store.paste (l * size2MiB) size2MiB (s.mem.bytes.slice (p * size2MiB) size2MiB) := by
  unfold State.programPage at h
  split at h
  · cases h
  · next f hf =>
    cases h
    obtain ⟨hmem, hsched⟩ := programWear_spec (s.modMem (fun m =>
      { m with ftl := { f with store := f.store.paste (l * size2MiB) size2MiB (m.bytes.slice (p * size2MiB) size2MiB) } }))
    exact ⟨by rw [hmem]; rfl, hsched, by rw [hmem, ← program_store hf]; rfl⟩

theorem governed_spec (s : State) : s.governed.mem = { s.mem with ftl := s.governed.mem.ftl } ∧ s.governed.sched = s.sched
    ∧ s.governed.tiles = s.tiles := by
  unfold State.governed
  split
  · exact ⟨rfl, rfl, rfl⟩
  · refine ⟨?_, ?_, ?_⟩ <;> simp [State.modFtl, State.modMem]

/-- The page holds nothing that its logical page does not hold (R279, R310). -/
def State.flushed (s : State) (p : Nat) : Prop := ∀ z, s.page p = some z → z.logical ≠ none → z.written = false

theorem State.flushed_congr {s m : State} (h : m.mem.pages = s.mem.pages) (p : Nat) : m.flushed p ↔ s.flushed p := by
  unfold State.flushed
  rw [page_congr h]

/-- Marking a page as unwritten leaves it flushed, and every flushed page. -/
theorem flushed_clear (s : State) (p q : Nat) (h : q = p ∨ s.flushed q) :
    (s.modPage p (fun y => { y with written := false })).flushed q := by
  intro z hz hl
  rw [page_modPage] at hz
  split at hz
  · obtain ⟨y, -, rfl⟩ := Option.map_eq_some_iff.1 hz
    rfl
  · next hne => exact h.resolve_left hne z hz hl

/-- What the programs of a SYNC leave (R310): no byte of the range changes and no page is written anew; when none must wait,
every page is flushed. -/
theorem syncPages_spec (ps : List Nat) : ∀ s : State, (State.syncPages ps s).1.mem.bytes = s.mem.bytes
    ∧ (∀ q, s.flushed q → (State.syncPages ps s).1.flushed q)
    ∧ ((State.syncPages ps s).2 = true → ∀ q ∈ ps, (State.syncPages ps s).1.flushed q) := by
  induction ps with
  | nil => exact fun s => ⟨rfl, fun _ h => h, fun _ _ h => absurd h List.not_mem_nil⟩
  | cons p ps ih =>
    intro s
    have hskip (hp : s.flushed p) : (State.syncPages ps s).1.mem.bytes = s.mem.bytes
        ∧ (∀ q, s.flushed q → (State.syncPages ps s).1.flushed q)
        ∧ ((State.syncPages ps s).2 = true → ∀ q ∈ p :: ps, (State.syncPages ps s).1.flushed q) := by
      obtain ⟨hbytes, hkeep, hps⟩ := ih s
      refine ⟨hbytes, hkeep, fun ht q hq => ?_⟩
      rcases List.mem_cons.1 hq with rfl | hq
      · exact hkeep _ hp
      · exact hps ht q hq
    rw [State.syncPages]
    split
    · next x hx =>
      split
      · next l hw hl =>
        split
        · exact ⟨rfl, fun _ h => h, nofun⟩
        · split
          · split
            · next s1 hprog =>
              obtain ⟨hmem, -, -⟩ := programPage_spec hprog
              obtain ⟨hbytes, hkeep, hps⟩ := ih (s1.modPage p (fun y => { y with written := false }))
              refine ⟨?_, fun q hq => hkeep q (flushed_clear s1 p q (.inr ?_)), fun ht q hq => ?_⟩
              · rw [hbytes, modPage_mem, hmem]
              · exact (State.flushed_congr (by rw [hmem]) q).2 hq
              · rcases List.mem_cons.1 hq with rfl | hq
                · exact hkeep _ (flushed_clear s1 _ _ (.inl rfl))
                · exact hps ht q hq
            · exact ⟨rfl, fun _ h => h, nofun⟩
          · obtain ⟨hmem, -, -⟩ := governed_spec s
            exact ⟨by rw [hmem], fun q hq => (State.flushed_congr (by rw [hmem]) q).2 hq, nofun⟩
      · next hno =>
        refine hskip (fun z hz hl => ?_)
        obtain rfl : x = z := Option.some.inj (hx.symm.trans hz)
        obtain ⟨l, hl⟩ := Option.ne_none_iff_exists'.1 hl
        exact Bool.eq_false_of_not_eq_true fun hw => hno l hw hl
    · next hx => exact hskip (fun z hz => absurd (hx.symm.trans hz) nofun)

theorem programJournal_journal (f : FtlSt) : f.programJournal.journal = 0 := by
  unfold FtlSt.programJournal
  split
  · assumption
  · rfl

/-- The end of a SYNC is that of the object whose first page has the address. -/
theorem exec_objectSyncComplete (s : State) {b : Nat} (hb : b * size2MiB < 2 ^ 48) :
    exec (.objectSyncComplete (BitVec.ofNat 48 (b * size2MiB))) s = .next (s.syncDone b) := by
  have haddr : (BitVec.ofNat 48 (b * size2MiB)).toNat = b * size2MiB := by rw [BitVec.toNat_ofNat, Nat.mod_eq_of_lt hb]
  show Host.Outcome.next (if _ then _ else s) = _
  rw [haddr, if_pos (Nat.mul_mod_left _ _), Nat.mul_div_cancel _ (by decide)]

section SyncDone

variable {s : State} {b : Nat} {y : ObjectSt} {p : Pending} (hy : s.object b = some y) (hfree : y.freeing = none)
include hy

theorem syncDone_idle (h : y.syncing = none) : s.syncDone b = s := by
  simp only [State.syncDone, hy, h]

variable (hsync : y.syncing = some p)
include hfree hsync

theorem syncDone_readOnly (hro : s.mem.ftl.readOnly = true) :
    s.syncDone b = (s.setObject b (some { y with syncing := none })).finishObject p Codes.flashFull none := by
  simp only [State.syncDone, hy, hsync, hfree, hro]
  rw [if_pos (by simp)]

theorem syncDone_waits (hro : s.mem.ftl.readOnly = false)
    (h : (State.syncPages (y.pageList b) s).2 = false ∨ (State.syncPages (y.pageList b) s).1.mem.ftl.frozen = true) :
    s.syncDone b = (State.syncPages (y.pageList b) s).1 := by
  simp only [State.syncDone, hy, hsync, hfree, hro]
  rw [if_neg (by simp), if_pos (by rcases h with h | h <;> simp [h])]

theorem syncDone_ends (hro : s.mem.ftl.readOnly = false) (ht : (State.syncPages (y.pageList b) s).2 = true)
    (hfrozen : (State.syncPages (y.pageList b) s).1.mem.ftl.frozen = false) :
    s.syncDone b = (((State.syncPages (y.pageList b) s).1.modFtl FtlSt.programJournal).setObject b
      (some { y with syncing := none })).finishObject p 0 none := by
  simp only [State.syncDone, hy, hsync, hfree, hro]
  rw [if_neg (by simp), if_neg (by simp [ht, hfrozen]), if_neg (by simp)]

end SyncDone

/-- Settles O35: `syncDone` has one outcome per case, and `syncPages` leaves no page of the object written. -/
theorem syncCompletes : Obligations.SyncCompletes := by
  unfold Obligations.SyncCompletes
  intro s b y hy hfree hb c
  have hc : c = .next (s.syncDone b) := exec_objectSyncComplete s hb
  clear_value c
  subst hc
  refine ⟨fun h => by rw [syncDone_idle hy h], fun p hp => ⟨fun hro => by rw [syncDone_readOnly hy hfree hp hro], fun hro =>
    ⟨fun h => by rw [syncDone_waits hy hfree hp hro h], fun ht hfrozen => ?_⟩⟩⟩
  obtain ⟨hbytes, -, hflushed⟩ := syncPages_spec (y.pageList b) s
  refine ⟨((State.syncPages (y.pageList b) s).1.modFtl FtlSt.programJournal).setObject b (some { y with syncing := none }),
    congrArg _ (syncDone_ends hy hfree hp hro ht hfrozen), State.object_setObject_same .., hbytes, programJournal_journal _,
    fun i z hi hz hl => hflushed ht (b + i) ?_ z hz hl⟩
  exact List.mem_map.2 ⟨i, List.mem_range.2 hi, Nat.add_comm i b⟩

end Sys2Proof.Machine

namespace Sys2Proof.Machine

open Claims

/-! Migrations and evictions (R277 to R280, R287, R305, R313). -/

/-- A slice pasted elsewhere: its keys read what stood at the source, the others are kept. -/
theorem SMap.get_paste_slice {α : Type} (d : α) (m src : SMap α) (at_ off n k : Nat) :
    (m.paste at_ n (src.slice off n)).get d k = if at_ ≤ k ∧ k < at_ + n then src.get d (off + (k - at_)) else m.get d k := by
  rw [SMap.get_paste _ _ _ _ _ (SMap.slice_keys src off n)]
  split
  · next h => rw [SMap.get_slice _ _ _ _ _ (by omega)]
  · rfl

/-- The byte of a page at an offset, after the page has been pasted from elsewhere. -/
theorem get_paste_page {α : Type} (d : α) (m src : SMap α) (p l i : Nat) (hi : i < size2MiB) :
    (m.paste (p * size2MiB) size2MiB (src.slice (l * size2MiB) size2MiB)).get d (p * size2MiB + i)
      = src.get d (l * size2MiB + i) := by
  rw [SMap.get_paste_slice, if_pos ⟨Nat.le_add_right _ _, Nat.add_lt_add_left hi _⟩, Nat.add_sub_cancel_left]

/-- Bytes of no other page are touched by a paste of a page. -/
theorem get_paste_page_other {α : Type} (d : α) (m : SMap α) (p a : Nat) (w : SMap α) (hw : ∀ q ∈ w, q.1 < size2MiB)
    (ha : a / size2MiB ≠ p) : (m.paste (p * size2MiB) size2MiB w).get d a = m.get d a := by
  rw [SMap.get_paste _ _ _ _ _ hw, if_neg]
  rintro ⟨hlo, hhi⟩
  exact ha (Nat.div_eq_of_lt_le hlo (by rw [Nat.succ_mul]; exact hhi))

/-! What the steps of a migration leave. -/

section Steps

variable (s : State) (p q f l j b : Nat) (g : PageSt → PageSt) (c : Code) (i : RecInfo)

@[simp] theorem bytes_modPage : (s.modPage p g).mem.bytes = s.mem.bytes := (soft_modPage ..).bytes
@[simp] theorem object_modPage : (s.modPage p g).object b = s.object b := object_congr (soft_modPage ..).objects b
@[simp] theorem sched_modPage : (s.modPage p g).sched = s.sched := (soft_modPage ..).sched
@[simp] theorem ftl_modPage : (s.modPage p g).mem.ftl = s.mem.ftl := by rw [modPage_mem]
@[simp] theorem frames_modPage : (s.modPage p g).mem.frames = s.mem.frames := by rw [modPage_mem]
@[simp] theorem queue_modPage : (s.modPage p g).mem.queue = s.mem.queue := by rw [modPage_mem]
@[simp] theorem bytes_freeFrame : (s.freeFrame f).mem.bytes = s.mem.bytes := by rw [(freeFrame_spec s f).1]
@[simp] theorem page_freeFrame : (s.freeFrame f).page q = s.page q := page_congr (by rw [(freeFrame_spec s f).1]) q
@[simp] theorem object_freeFrame : (s.freeFrame f).object b = s.object b := object_congr (by rw [(freeFrame_spec s f).1]) b
@[simp] theorem sched_freeFrame : (s.freeFrame f).sched = s.sched := (freeFrame_spec s f).2
@[simp] theorem ftl_freeFrame : (s.freeFrame f).mem.ftl = s.mem.ftl := by rw [(freeFrame_spec s f).1]
@[simp] theorem frames_freeFrame : (s.freeFrame f).mem.frames = s.mem.frames.set 0 f 0 := by rw [(freeFrame_spec s f).1]
@[simp] theorem bytes_wakePage : (s.wakePage p).mem.bytes = s.mem.bytes := rfl
@[simp] theorem page_wakePage : (s.wakePage p).page q = s.page q := rfl
@[simp] theorem object_wakePage : (s.wakePage p).object b = s.object b := rfl
@[simp] theorem sched_wakePage : (s.wakePage p).sched = s.sched := rfl
@[simp] theorem ftl_wakePage : (s.wakePage p).mem.ftl = s.mem.ftl := rfl
@[simp] theorem frames_wakePage : (s.wakePage p).mem.frames = s.mem.frames := rfl
@[simp] theorem mem_pageError : (s.pageError p c i).mem = s.mem := pageError_spec ..
@[simp] theorem page_pageError : (s.pageError p c i).page q = s.page q := page_congr (by rw [mem_pageError]) q
@[simp] theorem object_pageError : (s.pageError p c i).object b = s.object b := object_congr (by rw [mem_pageError]) b

theorem waiters_wakePage : ∀ w ∈ (s.wakePage p).mem.waiters, w.page ≠ p := fun w hw => by
  simpa using (List.mem_filter.1 hw).2

end Steps

theorem State.job_congr {s m : State} (h : m.sched = s.sched) (j : Nat) : m.job j = s.job j := by
  rw [State.job, h]
  rfl

section Start

variable {s : State} {p : Nat} {x : PageSt} {o : ObjectSt} (hx : s.page p = some x) (ho : s.object x.object = some o)
  (hpaused : s.flashPaused = false) (hnext : s.nextMigration = some p)
include hx ho hpaused hnext

theorem migrationStart_takes {f : Nat} (hf : s.findFrame (s.placementSet o.func o.place o.arg) (p - x.object) = some f) :
    migrationStart s = ((s.takeFrame f p).modPage p (fun y => { y with place := .migratingIn f })).modMem (fun m =>
      { m with queue := m.queue.filter (fun q => q.page != p) }) := by
  simp only [migrationStart, hpaused, hnext, hx, ho, hf, Bool.false_eq_true, if_false]

theorem migrationStart_evicts {v : Victim} {y : PageSt}
    (hf : s.findFrame (s.placementSet o.func o.place o.arg) (p - x.object) = none)
    (hidle : s.evicting (s.placementSet o.func o.place o.arg) = false)
    (hv : (rotateSet (s.placementSet o.func o.place o.arg) (p - x.object)).findSome? s.victimOf = some v)
    (hy : s.page v.page = some y) (hw : y.written = true) :
    migrationStart s = s.setPage v.page (some { y with place := .migratingOut v.frame }) := by
  have hevict : s.evict v = s.setPage v.page (some { y with place := .migratingOut v.frame }) := by
    simp only [State.evict, hy, hw, if_true]
  have hstill : (s.setPage v.page (some { y with place := .migratingOut v.frame })).findFrame
      (s.placementSet o.func o.place o.arg) (p - x.object) = none := hf
  simp only [migrationStart, hpaused, hnext, hx, ho, hf, hidle, hv, hevict, hstill, Bool.false_eq_true, if_false]

end Start

/-- A page arrives: it is resident, unwritten and the latest (R279). -/
theorem arrive_spec {s : State} {p : Nat} {x : PageSt} (hx : s.page p = some x) (f : Nat) :
    (∀ q, (s.arrive p f).page q = if q = p
        then some { x with place := .resident f, written := false, arrived := s.mem.arrivals + 1 } else s.page q)
      ∧ (s.arrive p f).mem.bytes = s.mem.bytes ∧ ∀ b, (s.arrive p f).object b = s.object b := by
  refine ⟨fun q => ?_, bytes_modPage .., fun b => object_modPage ..⟩
  rw [State.arrive, page_modPage, show (s.modMem _).page p = s.page p from rfl, hx]
  rfl

/-- A page whose flash read fails goes back to flash: its frame is free, its logical page lost (R313). -/
def State.failMigration (s : State) (p f l : Nat) : State :=
  let s1 := (s.modFtl (fun y => y.noteRead l)).modFtl (fun y => { y with lost := y.lost.set 0 l 1 })
  (((s1.modPage p (fun y => { y with place := .flash })).freeFrame f).wakePage p).pageError p
    Codes.flashUncorrectable { cls := 4, data := s.memData (p * size2MiB) }

/-- The bytes of a stored page as flash holds them (R280). -/
def State.fetchPage (s : State) (p l : Nat) : State :=
  (s.modFtl (fun y => y.noteRead l)).modMem (fun m =>
    { m with bytes := m.bytes.paste (p * size2MiB) size2MiB (m.ftl.store.slice (l * size2MiB) size2MiB) })

theorem failMigration_spec {s : State} {p f l : Nat} {x : PageSt} {o : ObjectSt} (hx : s.page p = some x)
    (ho : s.object x.object = some o) :
    let m := s.failMigration p f l
    (∀ q, m.page q = if q = p then some { x with place := .flash } else s.page q)
      ∧ (∀ w ∈ m.mem.waiters, w.page ≠ p) ∧ m.mem.bytes = s.mem.bytes ∧ (∀ b, m.object b = s.object b)
      ∧ m.mem.frames.get 0 f = 0 ∧ m.mem.ftl.lost.get 0 l = 1
      ∧ ∀ j z, o.owner = .job j → s.job j = some z → 0 < j →
          m.job j = some { z with fault := some (z.fault.getD Codes.flashUncorrectable) } := by
  dsimp only [State.failMigration]
  set s1 := (s.modFtl (fun y => y.noteRead l)).modFtl (fun y => { y with lost := y.lost.set 0 l 1 }) with hs1
  set s2 := ((s1.modPage p (fun y => { y with place := .flash })).freeFrame f).wakePage p with hs2
  have hlost : s1.mem.ftl.lost.get 0 l = 1 := SMap.get_set_same ..
  have hpage (q : Nat) : s2.page q = if q = p then some { x with place := .flash } else s.page q := by
    rw [hs2, page_wakePage, page_freeFrame, page_modPage, show s1.page p = s.page p from rfl, hx]
    rfl
  have hobject (b : Nat) : s2.object b = s.object b := by
    rw [hs2, object_wakePage, object_freeFrame, object_modPage]
    rfl
  have hjob (j : Nat) : s2.job j = s.job j := State.job_congr (by rw [hs2]; simp; rfl) j
  refine ⟨fun q => (page_pageError ..).trans (hpage q), ?_, ?_, fun b => (object_pageError ..).trans (hobject b), ?_, ?_,
    fun j z hown hz hj => ?_⟩
  · rw [mem_pageError]
    exact waiters_wakePage _ p
  · rw [mem_pageError, hs2]
    simp
    rfl
  · rw [mem_pageError, hs2]
    simp
  · rw [mem_pageError, hs2]
    simpa using hlost
  · have howner : s2.pageJob p = j := by
      simp only [State.pageJob, hpage, if_true, hobject, ho, ObjectSt.job, hown]
    rw [State.pageError, howner, if_neg (by omega)]
    exact job_jobFaults _ _ _ _ _ ((hjob j).trans hz)

section Complete

variable {s : State} {p f : Nat} {x : PageSt} {ok : Bool} (hx : s.page p = some x) (hplace : x.place = .migratingIn f)
include hx hplace

theorem migrationComplete_fails (hstored : x.logical ≠ none ∧ s.mem.ftl.stored (x.logical.getD 0) = true)
    (hbad : ok = false ∨ s.mem.ftl.lost.get 0 (x.logical.getD 0) = 1) :
    migrationComplete p ok s = s.failMigration p f (x.logical.getD 0) := by
  simp only [migrationComplete, hx, hplace, Option.isSome_iff_ne_none.2 hstored.1, hstored.2, Bool.and_self, Bool.true_and]
  rw [if_pos (by rcases hbad with h | h <;> simp [h])]
  rfl

theorem migrationComplete_fetches (hstored : x.logical ≠ none ∧ s.mem.ftl.stored (x.logical.getD 0) = true)
    (hgood : ¬(ok = false ∨ s.mem.ftl.lost.get 0 (x.logical.getD 0) = 1)) :
    migrationComplete p ok s = ((s.fetchPage p (x.logical.getD 0)).arrive p f).wakePage p := by
  simp only [migrationComplete, hx, hplace, Option.isSome_iff_ne_none.2 hstored.1, hstored.2, Bool.and_self, Bool.true_and]
  rw [if_neg (by simpa using hgood)]
  rfl

theorem migrationComplete_blank (h : ¬(x.logical ≠ none ∧ s.mem.ftl.stored (x.logical.getD 0) = true)) :
    migrationComplete p ok s = (s.arrive p f).wakePage p := by
  have hstored : (x.logical.isSome && s.mem.ftl.stored (x.logical.getD 0)) = false := by
    rw [Bool.eq_false_iff]
    simpa [Option.isSome_iff_ne_none] using h
  simp only [migrationComplete, hx, hplace, hstored, Bool.false_and, Bool.false_eq_true, if_false]

/-- A migration that does not fail: the page arrives, with the bytes of flash where it is stored (R277, R280). -/
theorem migrationComplete_arrives (h : ¬((x.logical ≠ none ∧ s.mem.ftl.stored (x.logical.getD 0) = true)
      ∧ (ok = false ∨ s.mem.ftl.lost.get 0 (x.logical.getD 0) = 1))) :
    ∃ m : State, migrationComplete p ok s = (m.arrive p f).wakePage p ∧ (∀ q, m.page q = s.page q) ∧ (∀ b, m.object b = s.object b)
      ∧ m.mem.arrivals = s.mem.arrivals
      ∧ (∀ i, i < size2MiB → m.mem.bytes.get 0 (p * size2MiB + i)
          = if x.logical ≠ none ∧ s.mem.ftl.stored (x.logical.getD 0) = true
            then s.mem.ftl.store.get 0 (x.logical.getD 0 * size2MiB + i) else s.mem.bytes.get 0 (p * size2MiB + i))
      ∧ ∀ a, a / size2MiB ≠ p → m.mem.bytes.get 0 a = s.mem.bytes.get 0 a := by
  by_cases hstored : x.logical ≠ none ∧ s.mem.ftl.stored (x.logical.getD 0) = true
  · refine ⟨_, migrationComplete_fetches hx hplace hstored fun hbad => h ⟨hstored, hbad⟩, fun _ => rfl, fun _ => rfl, rfl,
      fun i hi => ?_, fun a ha => get_paste_page_other _ _ _ _ _ (SMap.slice_keys _ _ _) ha⟩
    rw [if_pos hstored]
    exact get_paste_page _ _ _ _ _ _ hi
  · refine ⟨s, migrationComplete_blank hx hplace hstored, fun _ => rfl, fun _ => rfl, rfl, fun i _ => ?_, fun _ _ => rfl⟩
    rw [if_neg hstored]

end Complete

section Evict

variable {s : State} {p f l : Nat} {x : PageSt} (hx : s.page p = some x) (hplace : x.place = .migratingOut f)
  (hl : x.logical = some l)
include hx hplace hl

theorem evictionComplete_readOnly (hro : s.mem.ftl.readOnly = true) :
    evictionComplete p s = (s.setPage p (some { x with place := .resident f })).report Codes.flashFull { cls := 0 } := by
  simp only [evictionComplete, hx, hplace, hl, hro, if_true]

theorem evictionComplete_programs {m : State} (hmay : s.mem.ftl.mayProgram = true) (hprog : s.programPage p l = some m) :
    evictionComplete p s = (m.modPage p (fun y => { y with place := .flash, written := false })).freeFrame f := by
  have hro : s.mem.ftl.readOnly = false := by
    simp only [FtlSt.mayProgram, Bool.and_eq_true, Bool.not_eq_true'] at hmay
    exact hmay.1.1
  simp only [evictionComplete, hx, hplace, hl, hro, hmay, hprog, Bool.false_eq_true, if_false, if_true]

end Evict

/-- An open superblock, or a free one to open, is all that a program needs (R305). -/
theorem programPage_some (s : State) (p l : Nat) (h : s.mem.ftl.openSb ≠ none) : ∃ m, s.programPage p l = some m := by
  obtain ⟨⟨i, g⟩, hopen⟩ := Option.ne_none_iff_exists'.1 h
  simp only [State.programPage, FtlSt.program, hopen]
  exact ⟨_, rfl⟩

section Settle

variable {s : State} {p : Nat} {x : PageSt} {o : ObjectSt} (hx : s.page p = some x) (ho : s.object x.object = some o)
  (hfree : o.freeing = none)
include hx ho hfree

/-- The end of a migration of an object that no FREE waits on settles nothing more (R281). -/
theorem exec_migrationComplete {m : State} {ok : Bool} (hrun : migrationComplete p ok s = m) (hm : ∀ b, m.object b = s.object b) :
    exec (.migrationComplete p ok) s = .next m := by
  show execMigrationComplete p ok s = _
  simp only [execMigrationComplete, objectBase_some s p x hx, hrun, settle_none m x.object o ((hm _).trans ho) hfree]

theorem exec_evictionComplete {m : State} (hrun : evictionComplete p s = m) (hm : ∀ b, m.object b = s.object b) :
    exec (.evictionComplete p) s = .next m := by
  show execEvictionComplete p s = _
  simp only [execEvictionComplete, objectBase_some s p x hx, hrun, settle_none m x.object o ((hm _).trans ho) hfree]

end Settle

/-- Settles O33: the start, the end of a migration and the end of an eviction each have one outcome per case. -/
theorem migrations : Obligations.Migrations := by
  unfold Obligations.Migrations
  intro s p x o hx ho hfree set others
  refine ⟨fun hpaused hnext => ⟨fun f hf => ?takes, fun v y hf hidle hv hy hw => ?evicts⟩, fun f ok hplace => ?arrives,
    fun f l hplace hl => ⟨fun hro => ?stays, fun hmay hopen => ?leaves⟩⟩
  case takes =>
    refine ⟨_, congrArg Host.Outcome.next (migrationStart_takes hx ho hpaused hnext hf), ?_, ?_, fun q hq => ?_, ?_, ?_⟩
    · show ((s.takeFrame f p).modPage p _).page p = _
      rw [page_modPage, if_pos rfl, show (s.takeFrame f p).page p = s.page p from rfl, hx]
      rfl
    · show SMap.get 0 ((s.takeFrame f p).modPage p _).mem.frames f = _
      rw [frames_modPage]
      exact SMap.get_set_same ..
    · show ((s.takeFrame f p).modPage p _).page q = _
      rw [page_modPage, if_neg hq]
      rfl
    · exact bytes_modPage ..
    · exact congrArg (List.filter _) (queue_modPage ..)
  case evicts =>
    refine ⟨_, congrArg Host.Outcome.next (migrationStart_evicts hx ho hpaused hnext hf hidle hv hy hw), State.page_setPage_same .., fun q hq => ?_,
      rfl⟩
    rw [State.page_setPage, if_neg hq]
  case arrives =>
    intro l stored fails
    by_cases hfails : fails
    · obtain ⟨hpage, hwait, hbytes, hobject, hframe, hlost, hjob⟩ := failMigration_spec (f := f) (l := l) hx ho
      exact ⟨_, exec_migrationComplete hx ho hfree (migrationComplete_fails hx hplace hfails.1 hfails.2) hobject,
        fun q hq => (hpage q).trans (if_neg hq), hwait, fun h => absurd hfails h,
        fun _ => ⟨(hpage p).trans (if_pos rfl), hbytes, hframe, hlost, hjob⟩⟩
    · obtain ⟨m, hrun, hpages, hobjects, harr, hhere, hthere⟩ := migrationComplete_arrives hx hplace hfails
      obtain ⟨hpage, hbytes, hobject⟩ := arrive_spec ((hpages p).trans hx) f
      refine ⟨_, exec_migrationComplete hx ho hfree hrun fun b => (hobject b).trans (hobjects b),
        fun q hq => (hpage q).trans ((if_neg hq).trans (hpages q)), waiters_wakePage _ p, fun _ => ⟨?_, fun i hi => ?_, fun a ha => ?_⟩,
        fun h => absurd h hfails⟩
      · rw [page_wakePage, hpage, if_pos rfl, harr]
      · rw [bytes_wakePage, hbytes, hhere i hi]
      · rw [bytes_wakePage, hbytes, hthere a ha]
  case stays =>
    have hpage (q : Nat) : ((s.setPage p (some { x with place := .resident f })).report Codes.flashFull { cls := 0 }).page q
        = if q = p then some { x with place := .resident f } else s.page q := by
      rw [State.page_report, State.page_setPage]
    exact ⟨_, exec_evictionComplete hx ho hfree (evictionComplete_readOnly hx hplace hl hro) (fun b => State.object_report ..),
      fun q hq => (hpage q).trans (if_neg hq), by rw [State.report_mem]; rfl, (hpage p).trans (if_pos rfl)⟩
  case leaves =>
    obtain ⟨m, hprog⟩ := programPage_some s p l hopen
    obtain ⟨hmem, hsched, hstore⟩ := programPage_spec hprog
    have hpage (q : Nat) : m.page q = s.page q := page_congr (by rw [hmem]) q
    refine ⟨_, exec_evictionComplete hx ho hfree (evictionComplete_programs hx hplace hl hmay hprog) (fun b => ?_), fun q hq => ?_,
      ?_, ?_, ?_, fun i hi => ?_⟩
    · rw [object_freeFrame, object_modPage]
      exact object_congr (by rw [hmem]) b
    · rw [page_freeFrame, page_modPage, if_neg hq, hpage]
    · rw [page_freeFrame, page_modPage, if_pos rfl, hpage, hx]
      rfl
    · rw [frames_freeFrame, SMap.get_set_same]
    · rw [bytes_freeFrame, bytes_modPage, hmem]
    · rw [ftl_freeFrame, ftl_modPage, hstore, get_paste_page _ _ _ _ _ _ hi]

end Sys2Proof.Machine

namespace Sys2Proof.Machine

open Claims

/-! Objects of the unified range (R276, R277, R281, R315, R316, R400). -/

/-- A fold over a list with its indices: what a step establishes for its own index and keeps for every other holds of each
index at the end. -/
theorem foldl_zipIdx_holds {σ α : Type} {f : σ → α × Nat → σ} {P : Nat → α → σ → Prop} {I : σ → Prop}
    (hI : ∀ s q, I s → I (f s q)) (hnew : ∀ s l i, I s → P i l (f s (l, i)))
    (hkeep : ∀ s q j l, q.2 ≠ j → P j l s → P j l (f s q)) (ls : List α) :
    ∀ k s, I s → I ((ls.zipIdx k).foldl f s) ∧ (∀ j l, j < k → P j l s → P j l ((ls.zipIdx k).foldl f s))
      ∧ ∀ i l, ls[i]? = some l → P (k + i) l ((ls.zipIdx k).foldl f s) := by
  induction ls with
  | nil => exact fun k s hs => ⟨hs, fun _ _ _ h => h, nofun⟩
  | cons x xs ih =>
    intro k s hs
    obtain ⟨hinv, hold, hlater⟩ := ih (k + 1) (f s (x, k)) (hI s _ hs)
    rw [List.zipIdx_cons, List.foldl_cons]
    refine ⟨hinv, fun j l hj hp => hold j l (by omega) (hkeep _ _ _ _ (by simp; omega) hp), fun i l hi => ?_⟩
    cases i with
    | zero =>
      obtain rfl : x = l := by simpa using hi
      exact hold k x (Nat.lt_succ_self k) (hnew s x k hs)
    | succ i =>
      have := hlater i l (by simpa using hi)
      rwa [Nat.add_assoc, Nat.add_comm 1] at this

/-! Where an object goes. -/

/-- The least of a list is one of it. -/
theorem foldl_min_mem (xs : List Nat) : ∀ (b : Option Nat) (n : Nat), xs.foldl (fun best b =>
    match best with
    | none => some b
    | some x => some (min x b)) b = some n → b = some n ∨ n ∈ xs := by
  induction xs with
  | nil => exact fun _ _ h => .inl h
  | cons x xs ih =>
    intro b n h
    rcases ih _ _ h with hx | hmem
    · cases b with
      | none => exact .inr (by simp at hx; simp [hx])
      | some y =>
        rcases Nat.le_total y x with hle | hle
        · exact .inl (by simpa [Nat.min_eq_left hle] using hx)
        · exact .inr (by simp [Nat.min_eq_right hle] at hx; simp [hx])
    · exact .inr (List.mem_cons_of_mem _ hmem)

/-- The run found for an object lies in the range and apart from every object (R273). -/
theorem findRun_spec {s : State} {n b : Nat} (h : s.findRun n = some b) :
    b + n ≤ s.rangePages ∧ ∀ k y, (k, some y) ∈ s.mem.objects → b + n ≤ k ∨ k + y.pages ≤ b := by
  have hfits := (foldl_min_mem _ none b h).resolve_left nofun
  simp only [List.mem_filter, Bool.and_eq_true, decide_eq_true_eq, List.all_eq_true, List.mem_filterMap] at hfits
  obtain ⟨-, hrange, hapart⟩ := hfits
  exact ⟨hrange, fun k y hy => hapart (k, y.pages) ⟨(k, some y), hy, rfl⟩⟩

theorem freeLogical_spec {s : State} {n : Nat} {ls : List Nat} (h : s.freeLogical n = some ls) :
    ls.length = n ∧ ∀ l ∈ ls, s.mem.ftl.taken.get 0 l = 0 := by
  simp only [State.freeLogical] at h
  split at h
  · next hlen =>
    cases h
    exact ⟨hlen, fun l hl => by simpa using (List.mem_filter.1 (List.mem_of_mem_take hl)).2⟩
  · cases h

/-- The logical pages of an object are taken (R315). -/
theorem reserve_taken (f : FtlSt) (ls : List Nat) (l : Nat) : (f.reserve ls).taken.get 0 l = if l ∈ ls then 1 else f.taken.get 0 l := by
  have h : (f.reserve ls).taken.get 0 l = _ := foldl_fill (f := fun m l => SMap.set 0 m l 1) (get := fun m : SMap Nat => m.get 0 l) (P := fun a => a = l) (v := 1)
    (fun m a => by rw [SMap.get_set]; simp only [eq_comm]) ls f.taken
  simpa using h

/-- Page `i` of an object that holds logical page `l` and nothing newer (R277). -/
def State.freshPage (s : State) (b i l : Nat) : Prop :=
  ∃ y, s.page (b + i) = some y ∧ y.object = b ∧ y.logical = some l ∧ y.written = false

theorem freshPage_newPage (s : State) (b i l : Nat) : (s.newPage b i (some l)).freshPage b i l :=
  ⟨_, State.page_setPage_same .., rfl, rfl, rfl⟩

theorem freshPage_arrive {s : State} {b i l : Nat} (f : Nat) (h : s.freshPage b i l) : (s.arrive (b + i) f).freshPage b i l := by
  obtain ⟨y, hy, hobject, hlogical, -⟩ := h
  exact ⟨_, ((arrive_spec hy f).1 _).trans (if_pos rfl), hobject, hlogical, rfl⟩

theorem freshPage_congr {s m : State} {b j l : Nat} (h : m.page (b + j) = s.page (b + j)) (hs : s.freshPage b j l) :
    m.freshPage b j l := by
  unfold State.freshPage
  rwa [h]

/-- One step of `softPages`: a page of the object, in a frame where it prefers one and one is free (R277, R278). -/
def State.softPage (s : State) (set : List Nat) (b attr : Nat) (q : Nat × Nat) : State :=
  let s1 := s.newPage b q.2 (some q.1)
  if attr = 1 then
    match s.findFrame set q.2 with
    | some f => (s1.takeFrame f (b + q.2)).arrive (b + q.2) f
    | none => s1
  else s1

theorem softPage_spec (s : State) (set : List Nat) (b attr : Nat) (q : Nat × Nat) :
    (s.softPage set b attr q).freshPage b q.2 q.1 ∧ (∀ p, p ≠ b + q.2 → (s.softPage set b attr q).page p = s.page p)
      ∧ (s.softPage set b attr q).mem.bytes = s.mem.bytes ∧ (s.softPage set b attr q).mem.ftl = s.mem.ftl
      ∧ (s.softPage set b attr q).mem.objects = s.mem.objects := by
  have hother (p : Nat) (hp : p ≠ b + q.2) : (s.newPage b q.2 (some q.1)).page p = s.page p := by
    rw [State.newPage, State.page_setPage, if_neg hp]
  have hnew : (s.newPage b q.2 (some q.1)).freshPage b q.2 q.1 := freshPage_newPage ..
  rw [State.softPage]
  split
  · split
    · next f _ =>
      refine ⟨freshPage_arrive f hnew, fun p hp => ?_, bytes_modPage .., ftl_modPage .., (soft_modPage ..).objects⟩
      rw [State.arrive, page_modPage, if_neg hp]
      exact hother p hp
    · exact ⟨hnew, hother, rfl, rfl, rfl⟩
  · exact ⟨hnew, hother, rfl, rfl, rfl⟩

theorem softPages_spec (s : State) (set : List Nat) (b attr : Nat) (ls : List Nat) :
    let m := s.softPages set b attr ls
    (∀ i l, ls[i]? = some l → m.freshPage b i l) ∧ m.mem.bytes = s.mem.bytes ∧ m.mem.ftl = s.mem.ftl ∧ ∀ k, m.object k = s.object k := by
  have hfold : s.softPages set b attr ls = ls.zipIdx.foldl (fun s q => s.softPage set b attr q) s := rfl
  obtain ⟨⟨hbytes, hftl, hobjects⟩, -, hpages⟩ := foldl_zipIdx_holds (f := fun s q => s.softPage set b attr q)
    (P := fun i l m => m.freshPage b i l)
    (I := fun m => m.mem.bytes = s.mem.bytes ∧ m.mem.ftl = s.mem.ftl ∧ m.mem.objects = s.mem.objects)
    (fun m q hm => by
      obtain ⟨-, -, hbytes, hftl, hobjects⟩ := softPage_spec m set b attr q
      exact ⟨hbytes.trans hm.1, hftl.trans hm.2.1, hobjects.trans hm.2.2⟩)
    (fun m l i _ => (softPage_spec m set b attr (l, i)).1)
    (fun m q j l hj hp => freshPage_congr ((softPage_spec m set b attr q).2.1 _ (by omega)) hp) ls 0 s ⟨rfl, rfl, rfl⟩
  rw [hfold]
  exact ⟨fun i l hi => by simpa using hpages i l hi, hbytes, hftl, object_congr hobjects⟩

/-- One step of ATTACH: a page of the object, with the bytes that flash holds (R277, R316). -/
def State.attachPage (s : State) (b : Nat) (q : Nat × Nat) : State :=
  (s.newPage b q.2 (some q.1)).modMem (fun m =>
    { m with bytes := m.bytes.paste ((b + q.2) * size2MiB) size2MiB (m.ftl.store.slice (q.1 * size2MiB) size2MiB) })

theorem attachPages_spec (s : State) (b : Nat) (ls : List Nat) :
    let m := ls.zipIdx.foldl (fun s q => s.attachPage b q) s
    (∀ i l, ls[i]? = some l → m.freshPage b i l
        ∧ ∀ k < size2MiB, m.mem.bytes.get 0 ((b + i) * size2MiB + k) = s.mem.ftl.store.get 0 (l * size2MiB + k))
      ∧ ∀ k, m.object k = s.object k := by
  obtain ⟨⟨-, hobjects⟩, -, hpages⟩ := foldl_zipIdx_holds (f := fun s q => s.attachPage b q)
    (P := fun i l m => m.freshPage b i l
      ∧ ∀ k < size2MiB, m.mem.bytes.get 0 ((b + i) * size2MiB + k) = s.mem.ftl.store.get 0 (l * size2MiB + k))
    (I := fun m => m.mem.ftl.store = s.mem.ftl.store ∧ m.mem.objects = s.mem.objects)
    (fun m q hm => ⟨hm.1, hm.2⟩)
    (fun m l i hm => ⟨freshPage_newPage .., fun k hk => by rw [← hm.1]; exact get_paste_page _ _ _ _ _ _ hk⟩)
    (fun m q j l hj hp => by
      refine ⟨freshPage_congr ((State.page_setPage ..).trans (if_neg (by omega))) hp.1, fun k hk => ?_⟩
      rw [← hp.2 k hk]
      refine get_paste_page_other _ _ _ _ _ (SMap.slice_keys _ _ _) ?_
      rw [Nat.mul_comm, Nat.mul_add_div (by decide), Nat.div_eq_of_lt hk]
      omega) ls 0 s ⟨rfl, rfl⟩
  exact ⟨fun i l hi => by simpa using hpages i l hi, object_congr hobjects⟩

end Sys2Proof.Machine

namespace Sys2Proof.Machine

open Claims

/-! FREE (R277, R281, R315). -/

/-- One step of the removal of an object: its page is unmapped, its frame free. -/
def State.unmapPage (s : State) (p : Nat) : State :=
  match s.page p with
  | some x =>
    let s := match x.frame with
      | some f => s.freeFrame f
      | none => s
    (s.setPage p none).modMem (fun m =>
      { m with waiters := m.waiters.filter (fun w => w.page != p), queue := m.queue.filter (fun q => q.page != p) })
  | none => s

theorem unmapPage_spec (s : State) (p : Nat) : (∀ q, (s.unmapPage p).page q = if p = q then none else s.page q)
    ∧ (s.unmapPage p).mem.bytes = s.mem.bytes ∧ (s.unmapPage p).sched = s.sched := by
  have hset (m : State) (q : Nat) : (m.setPage p none).page q = if p = q then none else m.page q := by
    rw [State.page_setPage]
    simp only [eq_comm]
  unfold State.unmapPage
  split
  · next x hx =>
    dsimp only
    split
    · next f hf => exact ⟨fun q => (hset _ q).trans (by rw [page_freeFrame]), bytes_freeFrame .., sched_freeFrame ..⟩
    · exact ⟨hset s, rfl, rfl⟩
  · next hnone =>
    refine ⟨fun q => ?_, rfl, rfl⟩
    split
    · next h => rw [← h, hnone]
    · rfl

theorem dropObject_spec (s : State) (b : Nat) (o : ObjectSt) :
    (s.dropObject b o).object b = none ∧ (s.dropObject b o).sched = s.sched
      ∧ (∀ i < o.pages, (s.dropObject b o).page (b + i) = none)
      ∧ ∀ k, (s.dropObject b o).mem.bytes.get 0 k
          = if b * size2MiB ≤ k ∧ k < b * size2MiB + o.pages * size2MiB then 0 else s.mem.bytes.get 0 k := by
  obtain ⟨f, ls, hdrop⟩ : ∃ (f : FtlSt → FtlSt) (ls : List Nat), s.dropObject b o = ls.foldl (fun s l => s.modFtl (fun f => f.release l))
      (((((o.pageList b).foldl State.unmapPage s).setObject b none).modMem (fun m =>
        { m with bytes := m.bytes.clear (b * size2MiB) (o.pages * size2MiB) })).modFtl f) := by
    unfold State.dropObject
    dsimp only
    split
    · exact ⟨_, _, rfl⟩
    · exact ⟨id, _, rfl⟩
  have hsame {α : Type} (p : State → α) (h : ∀ (s : State) g, p (s.modFtl g) = p s) : p (s.dropObject b o)
      = p ((((o.pageList b).foldl State.unmapPage s).setObject b none).modMem (fun m =>
        { m with bytes := m.bytes.clear (b * size2MiB) (o.pages * size2MiB) })) := by
    rw [hdrop, fold_same _ p (fun s l => h s _), h]
  have hbytes : ((o.pageList b).foldl State.unmapPage s).mem.bytes = s.mem.bytes :=
    fold_same _ (fun s => s.mem.bytes) (fun s p => (unmapPage_spec s p).2.1) _ s
  refine ⟨(hsame (·.object b) fun _ _ => rfl).trans (State.object_setObject_same ..),
    (hsame (·.sched) fun _ _ => rfl).trans (fold_same _ (·.sched) (fun s p => (unmapPage_spec s p).2.2) _ s), fun i hi => ?_,
    fun k => ?_⟩
  · refine (hsame (·.page (b + i)) fun _ _ => rfl).trans ?_
    have hfill := foldl_fill (f := State.unmapPage) (get := (·.page (b + i))) (P := (· = b + i)) (v := none)
      (fun s p => (unmapPage_spec s p).1 (b + i)) (o.pageList b) s
    refine hfill.trans (if_pos ⟨b + i, List.mem_map.2 ⟨i, List.mem_range.2 hi, Nat.add_comm i b⟩, rfl⟩)
  · rw [hsame (·.mem.bytes) fun _ _ => rfl]
    exact (SMap.get_clear ..).trans (if_congr Iff.rfl rfl (congrArg (SMap.get 0 · k) hbytes))

/-! The entries (R276, R400). -/

section Entry

variable {s : State} {r : Ring} {e : List Byte} (hfront : s.frontEntry r = some e) (hcode : s.entryCode r e = none)
  (htype : fieldLe e 0 1 = 0x91)

/-- The request that an OBJECT entry names, and how it completes. -/
def State.objRequest (s : State) (r : Nat) (e : List Byte) : ObjReq := objReqOf (s.locRead (ringLoc (s.ring r).sq) (fieldLe e 0x10 8) 64)

def objPending (r : Nat) (e : List Byte) : Pending := ⟨some r, entryTag e, 0x91, fieldLe e 0x10 8⟩

variable (hwindow : ringLoc (s.ring r).sq = true → s.checkRange (.func (s.ring r).func) (fieldLe e 0x10 8) 64 = none)
  (hclean : (s.objRequest r e).clean = true)
  (howner : (s.objRequest r e).owner = 0 ∨ s.liveOn r (s.objRequest r e).owner = true)
include hfront hcode htype hwindow hclean howner

theorem objectEntry_go {op : Nat} (hop : (s.objRequest r e).op = op) (go : ObjReq → Pending → State → State) :
    s.objectEntry r op go = go (s.objRequest r e) (objPending r e) s := by
  have hcheck : (if ringLoc (s.ring r).sq then s.checkRange (.func (s.ring r).func) (fieldLe e 0x10 8) 64 else none) = none := by
    split
    · next h => exact hwindow h
    · rfl
  have howned : ¬((s.objRequest r e).owner ≠ 0 ∧ !s.liveOn r (s.objRequest r e).owner) := by
    rintro ⟨h0, hlive⟩
    simp [howner.resolve_left h0] at hlive
  rw [State.objectEntry, takeEntry_go hfront hcode htype]
  simp only [hcheck]
  rw [if_neg (by simpa [State.objRequest] using hclean)]
  exact (if_neg (not_not_intro hop)).trans (if_neg howned)

section Outcomes

variable (hop : (s.objRequest r e).op = 1) (hpages : (s.objRequest r e).pages ≠ 0)
  (hname : (s.objRequest r e).attr = 2 ∨ (s.objRequest r e).name = 0)
include hop hpages hname

theorem exec_alloc {res : ObjRes} (hres : s.allocObject ((s.objRequest r e).object r (s.ring r).func) = res) :
    exec (.alloc r) s = .next (s.objectResult r (objPending r e) res) := by
  subst hres
  refine congrArg Host.Outcome.next ((objectEntry_go hfront hcode htype hwindow hclean howner hop _).trans (if_neg ?_))
  rintro (h | ⟨hattr, hnamed⟩)
  · exact hpages h
  · exact hname.elim hattr hnamed

end Outcomes

theorem exec_attach {res : ObjRes} (hop : (s.objRequest r e).op = 4) (hattr : (s.objRequest r e).attr = 2)
    (hres : s.attachObject ((s.objRequest r e).object r (s.ring r).func) = res) :
    exec (.attach r) s = .next (s.objectResult r (objPending r e) res) :=
  hres ▸ congrArg Host.Outcome.next ((objectEntry_go hfront hcode htype hwindow hclean howner hop _).trans (if_neg (not_not_intro hattr)))

section Owned

variable {y : ObjectSt} (hbase : (s.objRequest r e).base % size2MiB = 0)
  (hy : s.object ((s.objRequest r e).base / size2MiB) = some y) (hown : y.owner = ownerOf r (s.objRequest r e).owner)
  (hfree : y.freeing = none) (hsync : y.syncing = none) (hname : (s.objRequest r e).name = 0)
include hbase hy hown hfree hsync hname

theorem exec_free (hop : (s.objRequest r e).op = 2) : exec (.free r) s
    = .next ((s.consume r).freeObject ((s.objRequest r e).base / size2MiB) (objPending r e) false) := by
  refine congrArg Host.Outcome.next ((objectEntry_go hfront hcode htype hwindow hclean howner hop _).trans ?_)
  simp [State.ownObject, hbase, hy, hown, hfree, ObjReq.nameOk, hname, hsync]

theorem exec_objectSync (hop : (s.objRequest r e).op = 3) : exec (.objectSync r) s
    = .next (if y.attr = 2 then (s.consume r).setObject ((s.objRequest r e).base / size2MiB)
        (some { y with syncing := some (objPending r e) }) else (s.consume r).finishObject (objPending r e) 0 none) := by
  refine congrArg Host.Outcome.next ((objectEntry_go hfront hcode htype hwindow hclean howner hop _).trans ?_)
  simp [State.ownObject, hbase, hy, hown, hfree, ObjReq.nameOk, hname, hsync]

end Owned

end Entry

/-- An object that no page of which migrates and that is not FLASH_BACKED is removed at once (R281). -/
theorem freeObject_now {s : State} {b : Nat} {y : ObjectSt} (hy : s.object b = some y) (hattr : y.attr ≠ 2)
    (hstill : s.migrating b y = false) (p : Pending) : ∃ m : State, s.freeObject b p false = m.finishObject p 0 none
      ∧ m.object b = none ∧ m.sched = s.sched ∧ (∀ i < y.pages, m.page (b + i) = none)
      ∧ ∀ k, m.mem.bytes.get 0 k
          = if b * size2MiB ≤ k ∧ k < b * size2MiB + y.pages * size2MiB then 0 else s.mem.bytes.get 0 k := by
  have hstill' : (s.setObject b (some { y with freeing := some p, removeName := false, syncing := none })).migrating b
      { y with freeing := some p, removeName := false, syncing := none } = false := hstill
  refine ⟨_, ?_, dropObject_spec (s.setObject b (some { y with freeing := some p, removeName := false, syncing := none })) b
    { y with freeing := some p, removeName := false, syncing := none }⟩
  simp only [State.freeObject, hy, if_neg hattr, State.settleFree, State.object_setObject_same, hstill', Bool.false_eq_true, if_false]

/-- An object stands at a run of pages of its own, each with the logical page that it was given. -/
def MapsTo (s m : State) (o : ObjectSt) (n : Nat) (ls : List Nat) (b : Nat) : Prop :=
  b + n ≤ s.rangePages ∧ (∀ k y, (k, some y) ∈ s.mem.objects → b + n ≤ k ∨ k + y.pages ≤ b)
    ∧ m.object b = some { o with pages := n }
    ∧ ∀ i, i < n → ∃ y, m.page (b + i) = some y ∧ y.object = b ∧ y.logical = ls[i]? ∧ y.written = false

theorem mapsTo_of {s m : State} {o : ObjectSt} {n b : Nat} {ls : List Nat} (hrun : s.findRun n = some b) (hlen : ls.length = n)
    (hobject : m.object b = some { o with pages := n }) (hpages : ∀ i l, ls[i]? = some l → m.freshPage b i l) :
    MapsTo s m o n ls b := by
  obtain ⟨hrange, hapart⟩ := findRun_spec hrun
  refine ⟨hrange, hapart, hobject, fun i hi => ?_⟩
  obtain ⟨y, hy, hyobject, hlogical, hwritten⟩ := hpages i ls[i] (List.getElem?_eq_getElem (hlen ▸ hi))
  exact ⟨y, hy, hyobject, hlogical.trans (List.getElem?_eq_getElem (hlen ▸ hi)).symm, hwritten⟩

section Alloc

variable {s : State} {o : ObjectSt}

theorem allocObject_nowhere (hset : s.placementSet o.func o.place o.arg = []) : s.allocObject o = .fail Codes.memObject := by
  simp [State.allocObject, hset]

variable (hset : s.placementSet o.func o.place o.arg ≠ [])
include hset

theorem allocObject_pinned {b : Nat} {m : State} (hattr : o.attr = 0) (hrun : s.findRun o.pages = some b)
    (hpin : State.pinPages (s.placementSet o.func o.place o.arg) b (List.range o.pages) (s.setObject b (some o)) = .ok m) :
    s.allocObject o = .done b m := by
  simp [State.allocObject, hset, hattr, hrun, hpin]

theorem allocObject_soft {b : Nat} {ls : List Nat}
    (hname : o.attr = 2 → s.named o.name = none ∧ s.mem.ftl.names.length < 65536) (hattr : o.attr ≠ 0) (hro : s.mem.ftl.readOnly = false)
    (hls : s.freeLogical o.pages = some ls) (hrun : s.findRun o.pages = some b) :
    ∃ m, s.allocObject o = .done b m ∧ MapsTo s m o o.pages ls b ∧ m.mem.bytes = s.mem.bytes
      ∧ ∀ l ∈ ls, s.mem.ftl.taken.get 0 l = 0 ∧ m.mem.ftl.taken.get 0 l = 1 := by
  have hfree : ¬(o.attr = 2 ∧ ((s.named o.name).isSome = true ∨ 65536 ≤ s.mem.ftl.names.length)) := by
    rintro ⟨h2, hn⟩
    obtain ⟨hnone, hlen⟩ := hname h2
    rcases hn with hn | hn
    · simp [hnone] at hn
    · omega
  obtain ⟨names, halloc⟩ : ∃ names, s.allocObject o = .done b (((s.setObject b (some o)).modFtl (fun f =>
      { f.reserve ls with names := names })).softPages (s.placementSet o.func o.place o.arg) b o.attr ls) := by
    simp only [State.allocObject, List.isEmpty_iff, hset, hfree, hattr, hro, hls, hrun, Bool.false_eq_true, if_false]
    split
    · exact ⟨_, rfl⟩
    · exact ⟨s.mem.ftl.names, rfl⟩
  obtain ⟨hlen, hzero⟩ := freeLogical_spec hls
  obtain ⟨hpages, hbytes, hftl, hobject⟩ := softPages_spec ((s.setObject b (some o)).modFtl (fun f =>
    { f.reserve ls with names := names })) (s.placementSet o.func o.place o.arg) b o.attr ls
  refine ⟨_, halloc, mapsTo_of hrun hlen ((hobject b).trans (State.object_setObject_same ..)) hpages, hbytes,
    fun l hl => ⟨hzero l hl, ?_⟩⟩
  rw [hftl]
  exact (reserve_taken ..).trans (if_pos hl)

end Alloc

theorem attachObject_spec {s : State} {o : ObjectSt} {n : NamedObj} {b : Nat} (hattr : o.attr = 2)
    (hset : s.placementSet o.func o.place o.arg ≠ []) (hn : s.named o.name = some n)
    (hl : ∀ l ∈ n.logical, l < s.mem.ftl.logicalPages) (hlen : n.logical.length = n.pages) (hrun : s.findRun n.pages = some b) :
    ∃ m, s.attachObject o = .done b m ∧ MapsTo s m o n.pages n.logical b
      ∧ ∀ i l k, n.logical[i]? = some l → k < size2MiB →
          m.mem.bytes.get 0 ((b + i) * size2MiB + k) = s.mem.ftl.store.get 0 (l * size2MiB + k) := by
  have hattach : s.attachObject o = .done b (n.logical.zipIdx.foldl (fun s q => s.attachPage b q)
      (s.setObject b (some { o with pages := n.pages }))) := by
    have hrange : (n.logical.any fun l => decide (s.mem.ftl.logicalPages ≤ l)) = false := by
      simpa using hl
    simp only [State.attachObject, hn, hattr, List.isEmpty_iff, hset, hrange, hrun, ne_eq, not_true, or_self, Bool.false_eq_true,
      if_false]
    rfl
  obtain ⟨hpages, hobject⟩ := attachPages_spec (s.setObject b (some { o with pages := n.pages })) b n.logical
  exact ⟨_, hattach, mapsTo_of hrun hlen ((hobject b).trans (State.object_setObject_same ..)) (fun i l hi => (hpages i l hi).1),
    fun i l k hi hk => (hpages i l hi).2 k hk⟩

/-- Settles O34: each entry is one object request, and each request one change of the objects. -/
theorem objectRequests : Obligations.ObjectRequests := by
  unfold Obligations.ObjectRequests
  intro s r e hfront hcode htype a loc q p o b ends maps hwindow hclean howner
  refine ⟨fun hop hpages hname => ⟨fun hset => ?nowhere, fun hset hnamed =>
    ⟨fun at_ ls hattr hro hls hrun => ?soft, fun at_ m hattr hrun hpin => ?pinned⟩⟩,
    fun hop hattr hset n at_ hn hl hlen hrun => ?attach, fun hop hbase y hy hown hfree hsync hattr hname hstill => ?free,
    fun hop hbase y hy hown hfree hsync hname => ⟨fun hattr => ?syncs, fun hattr => ?at_once⟩⟩
  case nowhere => exact exec_alloc hfront hcode htype hwindow hclean howner hop hpages hname (allocObject_nowhere hset)
  case soft =>
    obtain ⟨m, halloc, hmaps, hbytes, htaken⟩ := allocObject_soft (o := o) hset hnamed hattr hro hls hrun
    exact ⟨m, exec_alloc hfront hcode htype hwindow hclean howner hop hpages hname halloc, hmaps, hbytes, htaken⟩
  case pinned =>
    exact exec_alloc hfront hcode htype hwindow hclean howner hop hpages hname (allocObject_pinned hset hattr hrun hpin)
  case attach =>
    obtain ⟨m, hattach, hmaps, hbytes⟩ := attachObject_spec (o := o) hattr hset hn hl hlen hrun
    exact ⟨m, exec_attach hfront hcode htype hwindow hclean howner hop hattr hattach, hmaps, hbytes⟩
  case free =>
    obtain ⟨m, hrun, hobject, hsched, hpages, hbytes⟩ := freeObject_now (s := s.consume r) hy hattr hstill p
    refine ⟨m, by rw [exec_free hfront hcode htype hwindow hclean howner hbase hy hown hfree hsync hname hop, ← hrun]; rfl, ?_,
      hobject, hpages, hbytes⟩
    rw [State.ring, hsched]
    exact congrArg RingSt.sqHead (State.ring_modRing_same ..)
  case syncs =>
    rw [exec_objectSync hfront hcode htype hwindow hclean howner hbase hy hown hfree hsync hname hop, if_pos hattr]
    rfl
  case at_once =>
    rw [exec_objectSync hfront hcode htype hwindow hclean howner hbase hy hown hfree hsync hname hop, if_neg hattr]
    rfl

end Sys2Proof.Machine

namespace Sys2Proof.Machine

open Claims

/-! Which superblock is taken (R307 to R309). -/

/-- The order of `leastBy`: by the first key, then by the second. -/
def keyLt (k1 k2 : Nat → Nat) (a b : Nat) : Prop := k1 a < k1 b ∨ k1 a = k1 b ∧ k2 a < k2 b

/-- One step of `leastBy`. -/
def leastStep (k1 k2 : Nat → Nat) (b : Option Nat) (i : Nat) : Option Nat :=
  match b with
  | none => some i
  | some j => if k1 i < k1 j ∨ (k1 i = k1 j ∧ k2 i < k2 j) then some i else some j

/-- An element stays chosen while none later is below it. -/
theorem leastBy_keeps (k1 k2 : Nat → Nat) (i : Nat) (xs : List Nat) (h : ∀ m ∈ xs, ¬keyLt k1 k2 m i) :
    xs.foldl (leastStep k1 k2) (some i) = some i := by
  induction xs with
  | nil => rfl
  | cons x xs ih =>
    rw [List.foldl_cons, show leastStep k1 k2 (some i) x = some i from if_neg (h x List.mem_cons_self)]
    exact ih fun m hm => h m (List.mem_cons_of_mem _ hm)

/-- An element is chosen when all before it are above it and none after it is below it. -/
theorem leastBy_chooses (k1 k2 : Nat → Nat) (i : Nat) (bs : List Nat) (hbs : ∀ m ∈ bs, ¬keyLt k1 k2 m i) (as : List Nat)
    (has : ∀ m ∈ as, keyLt k1 k2 i m) : ∀ b, (∀ m ∈ b, keyLt k1 k2 i m) → (as ++ i :: bs).foldl (leastStep k1 k2) b = some i := by
  induction as with
  | nil =>
    intro b hb
    rw [List.nil_append, List.foldl_cons]
    cases b with
    | none => exact leastBy_keeps k1 k2 i bs hbs
    | some j =>
      rw [show leastStep k1 k2 (some j) i = some i from if_pos (hb j rfl)]
      exact leastBy_keeps k1 k2 i bs hbs
  | cons a as ih =>
    intro b hb
    rw [List.cons_append, List.foldl_cons]
    refine ih (fun m hm => has m (List.mem_cons_of_mem _ hm)) _ fun m hm => ?_
    have ha := has a List.mem_cons_self
    cases b with
    | none => obtain rfl : a = m := by simpa [leastStep] using hm
              exact ha
    | some j =>
      simp only [leastStep] at hm
      split at hm
      · obtain rfl : a = m := by simpa using hm
        exact ha
      · exact hb m hm

/-- The least of an ascending list, the lower index first where both keys agree. -/
theorem leastBy_eq {k1 k2 : Nat → Nat} {xs : List Nat} {i : Nat} (hsorted : xs.Pairwise (· < ·)) (hi : i ∈ xs)
    (h : ∀ m ∈ xs, k1 i < k1 m ∨ k1 i = k1 m ∧ (k2 i < k2 m ∨ k2 i = k2 m ∧ i ≤ m)) : leastBy k1 k2 xs = some i := by
  obtain ⟨as, bs, rfl⟩ := List.append_of_mem hi
  obtain ⟨-, -, hlow⟩ := List.pairwise_append.1 hsorted
  refine leastBy_chooses k1 k2 i bs (fun m hm => ?_) as (fun m hm => ?_) none nofun
  · have := h m (by simp [hm])
    unfold keyLt
    omega
  · have hlt : m < i := hlow m hm i List.mem_cons_self
    have := h m (by simp [hm])
    unfold keyLt
    omega

theorem sbsIn_sorted (f : FtlSt) (st : SbState) : (f.sbsIn st).Pairwise (· < ·) := List.pairwise_lt_range.filter _

theorem foldl_max_ge (xs : List Nat) : ∀ b, b ≤ xs.foldl max b ∧ ∀ x ∈ xs, x ≤ xs.foldl max b := by
  induction xs with
  | nil => exact fun b => ⟨Nat.le_refl b, nofun⟩
  | cons y ys ih =>
    intro b
    obtain ⟨hb, hys⟩ := ih (max b y)
    refine ⟨(Nat.le_max_left b y).trans hb, fun x hx => ?_⟩
    rcases List.mem_cons.1 hx with rfl | hx
    · exact (Nat.le_max_right b x).trans hb
    · exact hys x hx

/-! Programs of stripes (R305). -/

/-- The stripes of a superblock once logical page `l` is written elsewhere. -/
def Superblock.without (x : Superblock) (l : Nat) : Superblock :=
  { x with stripes := x.stripes.map (fun y => if y = some l then none else y) }

theorem without_mem {x : Superblock} {l m : Nat} : some m ∈ (x.without l).stripes ↔ some m ∈ x.stripes ∧ m ≠ l := by
  simp only [Superblock.without, List.mem_map]
  constructor
  · rintro ⟨y, hy, hm⟩
    split at hm
    · cases hm
    · next hne => subst hm; exact ⟨hy, fun h => hne (by rw [h])⟩
  · rintro ⟨hm, hne⟩
    exact ⟨some m, hm, if_neg (by simpa using hne)⟩

theorem SMap.get_mapValues {α : Type} (d : α) (g : α → α) (hd : g d = d) (m : SMap α) (k : Nat) :
    SMap.get d (m.map (fun q => (q.1, g q.2))) k = g (SMap.get d m k) := by
  unfold SMap.get
  rw [List.find?_map]
  have hkey : (fun p : Nat × α => p.1 == k) ∘ (fun q : Nat × α => (q.1, g q.2)) = fun p : Nat × α => p.1 == k := rfl
  rw [hkey]
  cases m.find? (fun p => p.1 == k) with
  | none => exact hd.symm
  | some p => rfl

/-- The open superblock with room takes the stripe. -/
theorem openSb_open {f : FtlSt} {j : Nat} (hopen : f.sbsIn .open = [j]) (hroom : (f.sb j).stripes.length < f.stripesPerSb) :
    f.openSb = some (j, f) := by
  have hfind : (f.sbsIn .open).find? (fun i => decide ((f.sb i).stripes.length < f.stripesPerSb)) = some j := by
    rw [hopen]
    exact List.find?_cons_of_pos (by simpa using hroom)
  simp only [FtlSt.openSb, hfind]

/-- A stripe of page `l` written to superblock `j` (R305). -/
theorem program_into {f : FtlSt} {j : Nat} (hopen : f.sbsIn .open = [j]) (hroom : (f.sb j).stripes.length < f.stripesPerSb)
    (l : Nat) : ∃ g, f.program l = some g
      ∧ (∀ k, g.sb k = if k = j then { (f.sb j).without l with stripes := ((f.sb j).without l).stripes ++ [some l] }
          else (f.sb k).without l)
      ∧ g.superblocks = f.superblocks ∧ g.stripesPerSb = f.stripesPerSb ∧ g.store = f.store ∧ g.spent = f.spent + 1 := by
  obtain ⟨g, hg⟩ : ∃ g, f.program l = some g := by
    rw [FtlSt.program, openSb_open hopen hroom]
    exact ⟨_, rfl⟩
  refine ⟨g, hg, ?_⟩
  rw [FtlSt.program, openSb_open hopen hroom] at hg
  cases hg
  refine ⟨fun k => ?_, rfl, rfl, rfl, rfl⟩
  have hmap (k : Nat) : SMap.get .init (f.sbs.map (fun q => (q.1, q.2.without l))) k = (f.sb k).without l :=
    SMap.get_mapValues .init (fun x => x.without l) rfl f.sbs k
  refine (SMap.get_set ..).trans ?_
  split
  · next h => exact congrArg (fun x : Superblock => { x with stripes := x.stripes ++ [some l] }) (hmap j)
  · exact hmap k

/-- What a row of programs into superblock `j` has kept so far of the tier `f`, with `vs` written (R307): each superblock's
state and erases, every stripe somewhere, and those of `vs` in `j`. -/
structure Copied (f : FtlSt) (j : Nat) (vs : List Nat) (g : FtlSt) : Prop where
  kept : ∀ k, (g.sb k).state = (f.sb k).state ∧ (g.sb k).erases = (f.sb k).erases
  superblocks : g.superblocks = f.superblocks
  room : g.stripesPerSb = f.stripesPerSb
  store : g.store = f.store
  spent : g.spent = f.spent + vs.length
  length : (g.sb j).stripes.length = (f.sb j).stripes.length + vs.length
  here : ∀ l ∈ vs, some l ∈ (g.sb j).stripes
  held : ∀ k l, some l ∈ (f.sb k).stripes → l ∈ vs ∨ some l ∈ (g.sb k).stripes

theorem Copied.refl (f : FtlSt) (j : Nat) : Copied f j [] f :=
  ⟨fun _ => ⟨rfl, rfl⟩, rfl, rfl, rfl, rfl, rfl, nofun, fun _ _ h => .inr h⟩

theorem sbsIn_congr {f g : FtlSt} (hs : ∀ k, (g.sb k).state = (f.sb k).state) (hn : g.superblocks = f.superblocks) (st : SbState) :
    g.sbsIn st = f.sbsIn st := by
  unfold FtlSt.sbsIn
  rw [hn]
  simp only [hs]

theorem Copied.step {f g : FtlSt} {j l : Nat} {vs : List Nat} (h : Copied f j vs g) (hopen : f.sbsIn .open = [j])
    (hroom : (f.sb j).stripes.length + vs.length < f.stripesPerSb) : ∃ g', g.program l = some g' ∧ Copied f j (vs ++ [l]) g' := by
  have hopen' : g.sbsIn .open = [j] := (sbsIn_congr (fun k => (h.kept k).1) h.superblocks _).trans hopen
  have hroom' : (g.sb j).stripes.length < g.stripesPerSb := by
    rw [h.length, h.room]
    exact hroom
  obtain ⟨g', hprog, hsb, hn, hper, hstore, hspent⟩ := program_into hopen' hroom' l
  have hmem (k m : Nat) : some m ∈ (g'.sb k).stripes ↔ (some m ∈ (g.sb k).stripes ∧ m ≠ l) ∨ k = j ∧ m = l := by
    rw [hsb]
    split
    · next hk => simp [hk, without_mem]
    · next hk => simp [hk, without_mem]
  refine ⟨g', hprog, fun k => ?_, hn.trans h.superblocks, hper.trans h.room, hstore.trans h.store, ?_, ?_, fun m hm => ?_,
    fun k m hm => ?_⟩
  · rw [hsb]
    split
    · next hk => exact hk ▸ h.kept k
    · exact h.kept k
  · rw [hspent, h.spent, List.length_append, List.length_singleton, Nat.add_assoc]
  · rw [hsb, if_pos rfl, List.length_append, List.length_append, Superblock.without, List.length_map, h.length,
      List.length_singleton, List.length_singleton, Nat.add_assoc]
  · rw [hmem]
    by_cases hml : m = l
    · exact .inr ⟨rfl, hml⟩
    · exact .inl ⟨h.here m ((List.mem_append.1 hm).resolve_right (by simpa using hml)), hml⟩
  · rw [hmem, List.mem_append, List.mem_singleton]
    by_cases hml : m = l
    · exact .inl (.inr hml)
    · exact (h.held k m hm).imp .inl fun hg => .inl ⟨hg, hml⟩

/-- One program of a row of them, as long as each finds a superblock. -/
def programStep (r : Option FtlSt) (l : Nat) : Option FtlSt :=
  match r with
  | none => none
  | some f => f.program l

/-- A row of programs for which the open superblock has room (R307). -/
theorem programs_copy {f : FtlSt} {j : Nat} (hopen : f.sbsIn .open = [j]) (ls : List Nat) : ∀ (vs : List Nat) (g : FtlSt),
    Copied f j vs g → (f.sb j).stripes.length + vs.length + ls.length ≤ f.stripesPerSb →
    ∃ g', ls.foldl programStep (some g) = some g' ∧ Copied f j (vs ++ ls) g' := by
  induction ls with
  | nil => exact fun vs g h _ => ⟨g, rfl, by rwa [List.append_nil]⟩
  | cons l ls ih =>
    intro vs g h hroom
    rw [List.length_cons] at hroom
    obtain ⟨g1, hprog, hg1⟩ := h.step (l := l) hopen (by omega)
    obtain ⟨g', hfold, hg'⟩ := ih (vs ++ [l]) g1 hg1 (by rw [List.length_append, List.length_singleton]; omega)
    refine ⟨g', ?_, by rwa [List.append_assoc] at hg'⟩
    rw [List.foldl_cons, programStep, hprog]
    exact hfold

/-- Superblock `i` has been collected into `j` (R307): it is erased, what it held is in `j`, and no stripe is lost. -/
structure Collected (f : FtlSt) (i j : Nat) (g : FtlSt) : Prop where
  erased : g.sb i = { state := .free, stripes := [], erases := (f.sb i).erases + 1, reads := 0 }
  here : ∀ l, some l ∈ (f.sb i).stripes → some l ∈ (g.sb j).stripes
  held : ∀ m l, some l ∈ (f.sb m).stripes → ∃ n, some l ∈ (g.sb n).stripes
  kept : ∀ m, m ≠ i → (g.sb m).state = (f.sb m).state ∧ (g.sb m).erases = (f.sb m).erases
  store : g.store = f.store
  spent : g.spent = f.spent + ((f.sb i).stripes.filterMap id).length
  unjournaled : g.unjournaled = f.unjournaled

theorem collect_spec {f : FtlSt} {i j : Nat} (hi : (f.sb i).state = .closed) (hopen : f.sbsIn .open = [j])
    (hroom : (f.sb j).stripes.length + ((f.sb i).stripes.filterMap id).length ≤ f.stripesPerSb) :
    ∃ g, f.collect i = some g ∧ Collected f i j g := by
  have hj : (f.sb j).state = .open := by
    have : j ∈ f.sbsIn .open := by simp [hopen]
    simpa using (List.mem_filter.1 this).2
  have hij : j ≠ i := fun h => by simp [← h, hj] at hi
  obtain ⟨g, hfold, hg⟩ := programs_copy hopen ((f.sb i).stripes.filterMap id) [] f (.refl f j) (by simpa using hroom)
  rw [List.nil_append] at hg
  have hsb (k : Nat) : (g.setSb i { g.sb i with state := .free, stripes := [], erases := (g.sb i).erases + 1, reads := 0 }).sb k
      = if k = i then { state := .free, stripes := [], erases := (g.sb i).erases + 1, reads := 0 } else g.sb k := SMap.get_set ..
  have hvs (l : Nat) : l ∈ (f.sb i).stripes.filterMap id ↔ some l ∈ (f.sb i).stripes := by simp
  have hcollect : f.collect i = some { (g.setSb i
      { g.sb i with state := .free, stripes := [], erases := (g.sb i).erases + 1, reads := 0 }) with unjournaled := f.unjournaled } := by
    unfold FtlSt.collect
    split
    · next h => exact absurd (h.symm.trans hfold) nofun
    · next g' h =>
      obtain rfl : g' = g := Option.some.inj (h.symm.trans hfold)
      rfl
  refine ⟨_, hcollect, ?_, fun l hl => ?_, fun m l hl => ?_, fun m hm => ?_, hg.store, hg.spent, rfl⟩
  · refine (hsb i).trans ((if_pos rfl).trans ?_)
    rw [(hg.kept i).2]
  · exact ((hsb j).trans (if_neg hij)) ▸ hg.here l ((hvs l).2 hl)
  · by_cases hmem : l ∈ (f.sb i).stripes.filterMap id
    · exact ⟨j, ((hsb j).trans (if_neg hij)) ▸ hg.here l hmem⟩
    · have hmi : m ≠ i := fun h => hmem ((hvs l).2 (h ▸ hl))
      exact ⟨m, ((hsb m).trans (if_neg hmi)) ▸ (hg.held m l hl).resolve_left hmem⟩
  · exact ((hsb m).trans (if_neg hm)) ▸ hg.kept m

end Sys2Proof.Machine

namespace Sys2Proof.Machine

open Claims

/-! Upkeep of the flash tier (R307 to R310, R314). -/

/-- Bytes, pages and tiles stay as they are. -/
def SameRange (s m : State) : Prop := m.mem.bytes = s.mem.bytes ∧ m.mem.pages = s.mem.pages ∧ m.tiles = s.tiles

theorem SameRange.trans {s t m : State} (h : SameRange s t) (k : SameRange t m) : SameRange s m := by
  obtain ⟨hbytes, hpages, htiles⟩ := h
  obtain ⟨kbytes, kpages, ktiles⟩ := k
  exact ⟨kbytes.trans hbytes, kpages.trans hpages, ktiles.trans htiles⟩

theorem programWear_rest (s : State) : SameRange s s.programWear ∧ s.programWear.mem.ftl
    = { s.mem.ftl with spares := s.programWear.mem.ftl.spares, readOnly := s.programWear.mem.ftl.readOnly } := by
  obtain ⟨hmem, -⟩ := programWear_spec s
  refine ⟨⟨by rw [hmem], by rw [hmem], ?_⟩, congrArg MemSt.ftl hmem⟩
  unfold State.programWear State.draw
  dsimp only
  split
  · split <;> simp [State.modFtl, State.modMem]
  · rfl

theorem sb_congr {f g : FtlSt} (h : g.sbs = f.sbs) (k : Nat) : g.sb k = f.sb k := by
  unfold FtlSt.sb
  rw [h]

section Collect

variable {s : State} {i : Nat}

/-- Where writes are allowed and the open superblock has room, a superblock is collected. -/
theorem collectSb_collects {j : Nat} (hi : (s.mem.ftl.sb i).state = .closed) (hro : s.mem.ftl.readOnly = false)
    (hfrozen : s.mem.ftl.frozen = false) (hspent : s.mem.ftl.spent < s.mem.ftl.budget.toNat) (hpaused : s.flashPaused = false)
    (hopen : s.mem.ftl.sbsIn .open = [j])
    (hroom : (s.mem.ftl.sb j).stripes.length + ((s.mem.ftl.sb i).stripes.filterMap id).length ≤ s.mem.ftl.stripesPerSb) :
    SameRange s (s.collectSb i) ∧ Collected s.mem.ftl i j (s.collectSb i).mem.ftl := by
  obtain ⟨g, hcollect, hg⟩ := collect_spec hi hopen hroom
  have hmay : s.mem.ftl.mayProgram = true := by simp [FtlSt.mayProgram, hro, hfrozen, hspent]
  have hrun : s.collectSb i = (s.modFtl (fun _ => g)).programWear := by
    simp only [State.collectSb, hpaused, hmay, hcollect, Bool.false_eq_true, if_false, if_true]
  obtain ⟨hsame, hftl⟩ := programWear_rest (s.modFtl (fun _ => g))
  have hsb (k : Nat) : (s.collectSb i).mem.ftl.sb k = g.sb k := sb_congr (by rw [hrun, hftl]; rfl) k
  refine ⟨hrun ▸ hsame, ⟨(hsb i).trans hg.erased, fun l hl => (hsb j).symm ▸ hg.here l hl,
    fun m l hl => (hg.held m l hl).imp fun n hn => (hsb n).symm ▸ hn, fun m hm => (hsb m).symm ▸ hg.kept m hm, ?_, ?_, ?_⟩⟩
  · rw [hrun, hftl]; exact hg.store
  · rw [hrun, hftl]; exact hg.spent
  · rw [hrun, hftl]; exact hg.unjournaled

/-- With the budget spent nothing is programmed (R314). -/
theorem collectSb_spent (hspent : s.mem.ftl.budget.toNat ≤ s.mem.ftl.spent) : SameRange s (s.collectSb i)
    ∧ (s.collectSb i).mem.ftl.sbs = s.mem.ftl.sbs ∧ (s.collectSb i).mem.ftl.store = s.mem.ftl.store
    ∧ (s.collectSb i).mem.ftl.spent = s.mem.ftl.spent := by
  have hmay : s.mem.ftl.mayProgram = false := by simp [FtlSt.mayProgram, Nat.not_lt.2 hspent]
  by_cases hpaused : s.flashPaused = true
  · rw [State.collectSb, if_pos hpaused]
    exact ⟨⟨rfl, rfl, rfl⟩, rfl, rfl, rfl⟩
  · rw [State.collectSb, if_neg hpaused, hmay, if_neg Bool.false_ne_true, State.governed]
    split
    · exact ⟨⟨rfl, rfl, rfl⟩, rfl, rfl, rfl⟩
    · obtain ⟨htiles, hmem, -⟩ := report_rest (s.modFtl (fun f => { f with governed := true })) Codes.flashGoverned { cls := 0 }
      rw [SameRange, hmem, htiles]
      exact ⟨⟨rfl, rfl, rfl⟩, rfl, rfl, rfl⟩

theorem garbageCollection_picks (hlow : (s.mem.ftl.sbsIn .free).length < s.mem.ftl.gcLow) (hi : i ∈ s.mem.ftl.sbsIn .closed)
    (h : ∀ m ∈ s.mem.ftl.sbsIn .closed, validStripes (s.mem.ftl.sb i) < validStripes (s.mem.ftl.sb m)
      ∨ validStripes (s.mem.ftl.sb i) = validStripes (s.mem.ftl.sb m) ∧ ((s.mem.ftl.sb i).erases < (s.mem.ftl.sb m).erases
        ∨ (s.mem.ftl.sb i).erases = (s.mem.ftl.sb m).erases ∧ i ≤ m)) : garbageCollection s = s.collectSb i := by
  have hleast : leastBy (fun i => validStripes (s.mem.ftl.sb i)) (fun i => (s.mem.ftl.sb i).erases) (s.mem.ftl.sbsIn .closed) = some i :=
    leastBy_eq (sbsIn_sorted _ _) hi h
  simp only [garbageCollection, hlow, if_true, hleast]

theorem staticWear_picks (hi : i < s.mem.ftl.superblocks) (hclosed : (s.mem.ftl.sb i).state = .closed)
    (h : ∀ m < s.mem.ftl.superblocks, (s.mem.ftl.sb i).erases < (s.mem.ftl.sb m).erases
      ∨ (s.mem.ftl.sb i).erases = (s.mem.ftl.sb m).erases ∧ i ≤ m)
    (hworn : ∃ m < s.mem.ftl.superblocks, s.mem.ftl.wlDelta < (s.mem.ftl.sb m).erases - (s.mem.ftl.sb i).erases) :
    staticWear s = s.collectSb i := by
  have hleast : leastBy (fun i => (s.mem.ftl.sb i).erases) (fun _ => 0) (List.range s.mem.ftl.superblocks) = some i :=
    leastBy_eq List.pairwise_lt_range (List.mem_range.2 hi) fun m hm => (h m (List.mem_range.1 hm)).imp_right fun ⟨he, hle⟩ =>
      ⟨he, .inr ⟨rfl, hle⟩⟩
  obtain ⟨m, hm, hdelta⟩ := hworn
  have hmax := (foldl_max_ge ((List.range s.mem.ftl.superblocks).map fun i => (s.mem.ftl.sb i).erases) 0).2 _
    (List.mem_map_of_mem (List.mem_range.2 hm))
  simp only [staticWear, hleast]
  exact if_pos ⟨by omega, hclosed⟩

theorem readDisturb_picks (hclosed : (s.mem.ftl.sb i).state = .closed) (hlimit : 0 < s.mem.ftl.rdLimit)
    (hreads : s.mem.ftl.rdLimit * 1024 ≤ (s.mem.ftl.sb i).reads) : readDisturb i s = s.collectSb i :=
  if_pos ⟨by rwa [Nat.max_eq_right hlimit], hclosed⟩

end Collect

/-! The patrol (R286, R287). -/

/-- Sets what the patrol holds of one channel. -/
def State.setPatrol (s : State) (k ch : Nat) (c : ChanSt) : State := s.modStack k (fun y => { y with chans := y.chans.set .init ch c })

/-- The patrol goes on to the next word, or starts a new sweep after the last (R286). -/
def ChanSt.patrolled (c : ChanSt) : ChanSt :=
  if c.patrol + 1 < channelWords then { c with patrol := c.patrol + 1 } else { c with patrol := 0, ce := 0, logged := false }

theorem patrolled_ce (c : ChanSt) {n m : Nat} (h : c.ce = n + m) : if c.patrol + 1 < 33554432
    then c.patrolled.patrol = c.patrol + 1 ∧ c.patrolled.ce = n + m
    else c.patrolled.patrol = 0 ∧ c.patrolled.ce = 0 ∧ c.patrolled.logged = false := by
  unfold ChanSt.patrolled channelWords
  split
  · exact ⟨rfl, h⟩
  · exact ⟨rfl, rfl, rfl⟩

theorem setPatrol_spec (s : State) (k ch : Nat) (c : ChanSt) : SameRange s (s.setPatrol k ch c)
    ∧ ((s.setPatrol k ch c).stack k).chans.get .init ch = c ∧ ((s.setPatrol k ch c).stack k).ce = (s.stack k).ce := by
  refine ⟨⟨rfl, rfl, rfl⟩, ?_, ?_⟩
  · rw [State.setPatrol, State.stack_modStack_same, SMap.get_set_same]
  · rw [State.setPatrol, State.stack_modStack_same]

section Patrol

variable {s : State} {k : Stack} {ch : Fin 32} (hgood : ch.val ∈ maskBits (s.stack k).good.toNat 32)

/-- Offset in its stack of the word that the patrol reads next (R270). -/
def State.patrolAt (s : State) (k ch : Nat) : Nat :=
  channelLinear (s.stack k).goodCount (((s.stack k).good32.findIdx? (· == ch)).getD 0) (64 * ((s.stack k).chans.get .init ch).patrol)

/-- Frame of that word. -/
def State.patrolFrame (s : State) (k ch : Nat) : Nat := k * 32768 + s.patrolAt k ch / size2MiB

include hgood

theorem patrolRead_clean : patrolRead k ch .clean s = s.setPatrol k ch ((s.stack k).chans.get .init ch).patrolled := by
  have hgood' : (s.stack k).good32.contains ch.val = true := List.contains_iff_mem.2 hgood
  simp only [patrolRead, hgood', Bool.not_true, Bool.false_eq_true, if_false]
  unfold ChanSt.patrolled State.setPatrol
  split <;> rfl

theorem patrolRead_corrected (n : Nat) : ∃ (m : State) (logged : Bool), SameRange s m
    ∧ (m.stack k).ce = min (2 ^ 32 - 1) ((s.stack k).ce + n)
    ∧ patrolRead k ch (.corrected n) s = m.setPatrol k ch
        ({ (s.stack k).chans.get .init ch with ce := ((s.stack k).chans.get .init ch).ce + n, logged := logged } : ChanSt).patrolled := by
  have hgood' : (s.stack k).good32.contains ch.val = true := List.contains_iff_mem.2 hgood
  let c := (s.stack k).chans.get .init ch
  let hit := (s.stack k).ceLimit != 0 && decide ((s.stack k).ceLimit ≤ c.ce + n) && !c.logged
  let counted := s.modStack k (fun y => { y with ce := satAdd (2 ^ 32 - 1) y.ce n })
  let p := k.val * 2 ^ 36 + s.patrolAt k ch
  let m := if hit then counted.report Codes.memCeThreshold
    { cls := 3, idx := k, unit := ch, data := natLe 8 p ++ natLe 8 0 ++ natLe 4 (s.patrolFrame k ch) } else counted
  have hcounted : (counted.stack k).ce = min (2 ^ 32 - 1) ((s.stack k).ce + n) :=
    congrArg StackSt.ce (State.stack_modStack_same s k (fun y => { y with ce := satAdd (2 ^ 32 - 1) y.ce n }))
  refine ⟨m, c.logged || hit, ?same, ?count, ?run⟩
  case run =>
    simp only [patrolRead, hgood', Bool.not_true, Bool.false_eq_true, if_false]
    unfold ChanSt.patrolled State.setPatrol
    split <;> rfl
  case same =>
    rcases Bool.eq_false_or_eq_true hit with h | h <;> simp only [m, h] <;> simp [SameRange, counted, State.modStack, State.setStack]
  case count =>
    rcases Bool.eq_false_or_eq_true hit with h | h <;> simp only [m, h] <;> simpa using hcounted

omit hgood in
theorem framePage_congr {m : State} (h : m.mem.frames = s.mem.frames) (f : Nat) : m.framePage f = s.framePage f := by
  rw [State.framePage, State.framePage, h]

omit hgood in
theorem noteUeAt_rest (s : State) (p f : Nat) : SameRange s (s.noteUeAt p f) ∧ (s.noteUeAt p f).mem.frames = s.mem.frames
    ∧ (s.noteUeAt p f).mem.objects = s.mem.objects ∧ (s.noteUeAt p f).sched = s.sched := by
  unfold State.noteUeAt
  dsimp only
  split <;> exact ⟨⟨rfl, rfl, rfl⟩, rfl, rfl, rfl⟩

/-- The error is counted and the patrol moved on, before the error is reported (R287). -/
def State.patrolUe (s : State) (k ch : Nat) : State :=
  (s.noteUeAt (k * 2 ^ 36 + s.patrolAt k ch) (s.patrolFrame k ch)).setPatrol k ch ((s.stack k).chans.get .init ch).patrolled

omit hgood in
theorem patrolUe_rest (s : State) (k ch : Nat) : SameRange s (s.patrolUe k ch)
    ∧ (∀ f, (s.patrolUe k ch).framePage f = s.framePage f) ∧ (∀ b, (s.patrolUe k ch).object b = s.object b)
    ∧ (s.patrolUe k ch).sched = s.sched
    ∧ ((s.patrolUe k ch).stack k).chans.get .init ch = ((s.stack k).chans.get .init ch).patrolled := by
  obtain ⟨hsame, hframes, hobjects, hsched⟩ := noteUeAt_rest s (k * 2 ^ 36 + s.patrolAt k ch) (s.patrolFrame k ch)
  exact ⟨hsame, framePage_congr hframes, object_congr hobjects, hsched, (setPatrol_spec _ k ch _).2.1⟩

omit hgood in
theorem setPatrol_patrolled (m : State) (k ch : Nat) (c : ChanSt) : (if c.patrol + 1 < channelWords
    then m.modStack k (fun y => { y with chans := y.chans.set .init ch { c with patrol := c.patrol + 1 } })
    else m.modStack k (fun y => { y with chans := y.chans.set .init ch { c with patrol := 0, ce := 0, logged := false } }))
    = m.setPatrol k ch c.patrolled := by
  unfold ChanSt.patrolled State.setPatrol
  split <;> rfl

/-- An uncorrectable error of a frame that holds a page is the page's error (R287). -/
theorem patrolRead_owned {pg : Nat} (hpage : s.framePage (s.patrolFrame k ch) = some pg) :
    ∃ i, patrolRead k ch .uncorrectable s = (s.patrolUe k ch).pageError pg Codes.memUncorrectable i := by
  have hgood' : (s.stack k).good32.contains ch.val = true := List.contains_iff_mem.2 hgood
  rw [← (patrolUe_rest s k ch).2.1] at hpage
  simp only [patrolRead, hgood', Bool.not_true, Bool.false_eq_true, if_false, setPatrol_patrolled]
  simp only [State.patrolUe, State.patrolFrame, State.patrolAt] at hpage ⊢
  rw [hpage]
  exact ⟨_, rfl⟩

/-- An uncorrectable error of a frame that holds no page is reported, and may retire the frame (R288). -/
theorem patrolRead_unowned (hpage : s.framePage (s.patrolFrame k ch) = none) :
    ∃ i, patrolRead k ch .uncorrectable s = (s.patrolUe k ch).report Codes.memUncorrectable i
      ∨ patrolRead k ch .uncorrectable s = ((s.patrolUe k ch).report Codes.memUncorrectable i).retireFrame (s.patrolFrame k ch) := by
  have hgood' : (s.stack k).good32.contains ch.val = true := List.contains_iff_mem.2 hgood
  rw [← (patrolUe_rest s k ch).2.1] at hpage
  simp only [patrolRead, hgood', Bool.not_true, Bool.false_eq_true, if_false, setPatrol_patrolled]
  simp only [State.patrolUe, State.patrolFrame, State.patrolAt] at hpage ⊢
  rw [hpage]
  refine ⟨{ cls := 3, idx := k, unit := ch, data := natLe 8 (k.val * 2 ^ 36 + s.patrolAt k ch) ++ natLe 8 0
    ++ natLe 4 (s.patrolFrame k ch) }, ?_⟩
  dsimp only
  split
  · exact .inl rfl
  · exact .inr rfl

omit hgood in
theorem stack_congr {m : State} (h : m.mem.stk = s.mem.stk) (k : Nat) : m.stack k = s.stack k := by rw [State.stack, h]; rfl

omit hgood in
theorem retireFrame_same (s : State) (f : Nat) : SameRange s (s.retireFrame f) ∧ (s.retireFrame f).mem.stk = s.mem.stk := by
  obtain ⟨hmem, -⟩ := retireFrame_spec s f
  refine ⟨⟨by rw [hmem], by rw [hmem], ?_⟩, by rw [hmem]⟩
  unfold State.retireFrame
  dsimp only
  split <;> simp [State.modMem, State.calStore, State.modSec]

omit hgood in
theorem tiles_pageError (s : State) (p : Nat) (c : Code) (i : RecInfo) : (s.pageError p c i).tiles = s.tiles := by
  unfold State.pageError
  split <;> simp

omit hgood in
theorem sameRange_report (s : State) (c : Code) (i : RecInfo) : SameRange s (s.report c i) ∧ (s.report c i).mem.stk = s.mem.stk :=
  ⟨⟨congrArg MemSt.bytes (State.report_mem ..), congrArg MemSt.pages (State.report_mem ..), State.report_tiles ..⟩,
    congrArg MemSt.stk (State.report_mem ..)⟩

omit hgood in
theorem sameRange_pageError (s : State) (p : Nat) (c : Code) (i : RecInfo) :
    SameRange s (s.pageError p c i) ∧ (s.pageError p c i).mem.stk = s.mem.stk :=
  ⟨⟨congrArg MemSt.bytes (mem_pageError ..), congrArg MemSt.pages (mem_pageError ..), tiles_pageError ..⟩,
    congrArg MemSt.stk (mem_pageError ..)⟩

/-- However the error is reported, the channel is patrolled and the range stays as it is (R287, R288). -/
theorem patrolRead_uncorrectable : SameRange s (patrolRead k ch .uncorrectable s)
    ∧ ((patrolRead k ch .uncorrectable s).stack k).chans.get .init ch = ((s.stack k).chans.get .init ch).patrolled := by
  obtain ⟨hsame, -, -, -, hchan⟩ := patrolUe_rest s k ch
  have hafter {m : State} (hm : SameRange (s.patrolUe k ch) m ∧ m.mem.stk = (s.patrolUe k ch).mem.stk) :
      SameRange s m ∧ (m.stack k).chans.get .init ch = ((s.stack k).chans.get .init ch).patrolled :=
    ⟨hsame.trans hm.1, (congrArg (fun y : StackSt => y.chans.get .init ch) (stack_congr hm.2 k)).trans hchan⟩
  cases hpage : s.framePage (s.patrolFrame k ch) with
  | some pg =>
    obtain ⟨i, hrun⟩ := patrolRead_owned hgood hpage
    exact hrun ▸ hafter (sameRange_pageError ..)
  | none =>
    obtain ⟨i, hrun | hrun⟩ := patrolRead_unowned hgood hpage
    · exact hrun ▸ hafter (sameRange_report ..)
    · obtain ⟨hreport, hreportStk⟩ := sameRange_report (s.patrolUe k ch) Codes.memUncorrectable i
      obtain ⟨hretire, hretireStk⟩ := retireFrame_same ((s.patrolUe k ch).report Codes.memUncorrectable i) (s.patrolFrame k ch)
      exact hrun ▸ hafter ⟨hreport.trans hretire, hretireStk.trans hreportStk⟩

/-- The job that owns the page of the frame faults (R287). -/
theorem patrolRead_uncorrectable_job {p j : Nat} {q : PageSt} {o : ObjectSt} {z : JobSt}
    (hframe : s.mem.frames.get 0 (s.patrolFrame k ch) = p + 1) (hq : s.page p = some q) (ho : s.object q.object = some o)
    (howner : o.owner = .job j) (hj : 0 < j) (hz : s.job j = some z) : (patrolRead k ch .uncorrectable s).job j
      = some { z with fault := some (z.fault.getD Codes.memUncorrectable) } := by
  obtain ⟨⟨-, hpages, -⟩, -, hobject, hsched, -⟩ := patrolUe_rest s k ch
  have hpage : s.framePage (s.patrolFrame k ch) = some p := by rw [State.framePage, hframe]; rfl
  have hpagejob : (s.patrolUe k ch).pageJob p = j := by
    rw [State.pageJob, page_congr hpages, hq]
    simp only [hobject, ho, ObjectSt.job, howner]
  obtain ⟨i, hrun⟩ := patrolRead_owned hgood hpage
  rw [hrun, State.pageError, hpagejob, if_neg (Nat.pos_iff_ne_zero.1 hj)]
  exact job_jobFaults _ _ _ _ _ ((State.job_congr hsched j).trans hz)

end Patrol

theorem journalProgram_programs {s : State} (hro : s.mem.ftl.readOnly = false) (hpaused : s.flashPaused = false)
    (hjournal : 0 < s.mem.ftl.journal) : exec .journalProgram s
      = .next (s.modFtl (fun f => { f with journal := 0, programs := f.programs + 1, unjournaled := [] })) := by
  have hwrite : (s.mem.ftl.readOnly || s.flashPaused) = false := by rw [hro, hpaused]; rfl
  have hprogram : s.mem.ftl.programJournal = { s.mem.ftl with journal := 0, programs := s.mem.ftl.programs + 1, unjournaled := [] } :=
    if_neg (Nat.ne_of_gt hjournal)
  calc exec .journalProgram s
    _ = .next (s.modFtl FtlSt.programJournal) := congrArg Host.Outcome.next (if_neg (by rw [hwrite]; exact Bool.false_ne_true))
    _ = _ := congrArg (fun f => Host.Outcome.next (s.modFtl fun _ => f)) hprogram

theorem Collected.clauses {f g : FtlSt} {i j : Nat} (h : Collected f i j g) : (g.sb i).state = .free ∧ (g.sb i).stripes = []
    ∧ (g.sb i).erases = (f.sb i).erases + 1 ∧ (g.sb i).reads = 0 ∧ (∀ l, some l ∈ (f.sb i).stripes → some l ∈ (g.sb j).stripes)
    ∧ (∀ m l, some l ∈ (f.sb m).stripes → ∃ n, some l ∈ (g.sb n).stripes)
    ∧ (∀ m, m ≠ i → (g.sb m).state = (f.sb m).state ∧ (g.sb m).erases = (f.sb m).erases)
    ∧ g.store = f.store ∧ g.spent = f.spent + ((f.sb i).stripes.filterMap id).length ∧ g.unjournaled = f.unjournaled := by
  rw [h.erased]
  exact ⟨rfl, rfl, rfl, rfl, h.here, h.held, h.kept, h.store, h.spent, h.unjournaled⟩

/-- Settles O39: the superblock that a rule picks is collected, its stripes copied into the open one first; a patrol read steps
the channel, and an uncorrectable error is the error of the page that its frame holds. -/
theorem flashUpkeep : Obligations.FlashUpkeep := by
  unfold Obligations.FlashUpkeep
  intro s
  have hcollects {i : Nat} (hclosed : (s.mem.ftl.sb i).state = .closed) := fun j
    (⟨hro, hfrozen, hspent, hpaused, hopen, hroom⟩ : s.mem.ftl.readOnly = false ∧ s.mem.ftl.frozen = false
      ∧ s.mem.ftl.spent < s.mem.ftl.budget.toNat ∧ s.flashPaused = false ∧ s.mem.ftl.sbsIn .open = [j]
      ∧ (s.mem.ftl.sb j).stripes.length + ((s.mem.ftl.sb i).stripes.filterMap id).length ≤ s.mem.ftl.stripesPerSb) =>
    (collectSb_collects hclosed hro hfrozen hspent hpaused hopen hroom).imp_right Collected.clauses
  refine ⟨?gc, ?wear, ?disturb, ?programs, rfl, ?patrol⟩
  case gc =>
    intro i hi hlow hleast
    have hexec : exec .garbageCollection s = .next (s.collectSb i) :=
      congrArg Host.Outcome.next (garbageCollection_picks hlow hi hleast)
    exact ⟨fun j hj => ⟨_, hexec, hcollects (of_decide_eq_true (List.mem_filter.1 hi).2) j hj⟩, fun hspent => ⟨_, hexec, collectSb_spent hspent⟩⟩
  case wear =>
    intro i hi hclosed hleast hworn
    have hexec : exec .staticWearLevelling s = .next (s.collectSb i) :=
      congrArg Host.Outcome.next (staticWear_picks hi hclosed hleast hworn)
    exact ⟨fun j hj => ⟨_, hexec, hcollects hclosed j hj⟩, fun hspent => ⟨_, hexec, collectSb_spent hspent⟩⟩
  case disturb =>
    intro i hclosed hlimit hreads
    have hexec : exec (.readDisturbCollect i) s = .next (s.collectSb i) :=
      congrArg Host.Outcome.next (readDisturb_picks hclosed hlimit hreads)
    exact ⟨fun j hj => ⟨_, hexec, hcollects hclosed j hj⟩, fun hspent => ⟨_, hexec, collectSb_spent hspent⟩⟩
  case programs =>
    intro hro hpaused
    exact ⟨journalProgram_programs hro hpaused,
      fun hprograms => congrArg Host.Outcome.next (if_pos ⟨hprograms, hro, hpaused⟩)⟩
  case patrol =>
    intro k ch ecc hgood
    refine ⟨patrolRead k ch ecc s, rfl, ?_⟩
    cases ecc with
    | clean =>
      rw [patrolRead_clean hgood]
      obtain ⟨hsame, hchan, hce⟩ := setPatrol_spec s k ch ((s.stack k).chans.get .init ch).patrolled
      refine ⟨hsame, ?_, nofun, fun _ => ⟨hce, rfl⟩, nofun⟩
      rw [hchan]
      exact patrolled_ce _ rfl
    | corrected n =>
      obtain ⟨m, logged, hm, hcount, hrun⟩ := patrolRead_corrected hgood n
      obtain ⟨hsame, hchan, hce⟩ := setPatrol_spec m k ch
        ({ (s.stack k).chans.get .init ch with ce := ((s.stack k).chans.get .init ch).ce + n, logged := logged } : ChanSt).patrolled
      rw [hrun]
      refine ⟨SameRange.trans hm hsame, ?_, ?_, nofun, nofun⟩
      · rw [hchan]
        exact patrolled_ce { (s.stack k).chans.get .init ch with ce := ((s.stack k).chans.get .init ch).ce + n, logged := logged } rfl
      · rintro _ ⟨⟩
        exact hce.trans hcount
    | uncorrectable =>
      obtain ⟨hsame, hchan⟩ := patrolRead_uncorrectable hgood
      refine ⟨hsame, ?_, nofun, nofun, fun _ p q o j z hframe hq ho howner hj hz =>
        patrolRead_uncorrectable_job hgood hframe hq ho howner hj hz⟩
      rw [hchan]
      exact patrolled_ce _ rfl

end Sys2Proof.Machine

namespace Sys2Proof.Machine

open Claims

/-! The calibration region and the error records (R288, R483, R487, R488). -/

/-- Nothing differs but boot, security, the logs and what the module sends. -/
def RecordsOnly (s m : State) : Prop := m.tiles = s.tiles ∧ m.dealers = s.dealers ∧ m.mem = s.mem ∧ m.sched = s.sched
  ∧ m.links = s.links ∧ m.col = s.col ∧ m.power = s.power ∧ m.codec = s.codec

theorem recordsOnly_refl (s : State) : RecordsOnly s s := ⟨rfl, rfl, rfl, rfl, rfl, rfl, rfl, rfl⟩

theorem RecordsOnly.trans {s t m : State} (h : RecordsOnly s t) (k : RecordsOnly t m) : RecordsOnly s m := by
  obtain ⟨a1, a2, a3, a4, a5, a6, a7, a8⟩ := h
  obtain ⟨b1, b2, b3, b4, b5, b6, b7, b8⟩ := k
  exact ⟨b1.trans a1, b2.trans a2, b3.trans a3, b4.trans a4, b5.trans a5, b6.trans a6, b7.trans a7, b8.trans a8⟩

theorem recordsOnly_report (s : State) (c : Code) (i : RecInfo) : RecordsOnly s (s.report c i) := by simp [RecordsOnly]

theorem recordsOnly_modBoot (s : State) (f : BootSt → BootSt) : RecordsOnly s (s.modBoot f) := recordsOnly_refl s

/-- What is not security's alone leaves security's registers. -/
theorem sec_report_of_class {s : State} {c : Code} {i : RecInfo} (h : c.toNat / 256 ≠ 9) : (s.report c i).sec = s.sec := by
  rw [report_sec, if_neg h]

/-- Only the physical function reaches what is physical (R4). -/
theorem physical_host (s : State) (go : State → State) : s.physical (.host 0) go = go s := rfl

theorem physical_not (s : State) {w : Iface} (go : State → State) (h : w ≠ .host 0) :
    ∃ i : RecInfo, i.unit = 0xFFFF ∧ s.physical w go = s.report Codes.badRegAccess i := by
  cases w with
  | board => exact ⟨{}, rfl, rfl⟩
  | host f => exact ⟨{ func := f.val }, rfl, if_neg fun hf => h (by rw [hf])⟩
  | bar0 f => exact ⟨{ func := f.val }, rfl, rfl⟩

section Write

variable (s : State) (a : W64)

theorem calWrite_busy (hbusy : s.boot.cal = 1) : calWrite a.toNat s = s.report Codes.calRejected {} := if_pos hbusy

theorem calWrite_starts (hidle : s.boot.cal ≠ 1) (hgood : a.toNat % 2 ^ 48 % 256 = 0
    ∧ s.pinnedFor (.func 0) (a.toNat % 2 ^ 48, 0x10000) = true ∧ calImageOk (s.readMem (a.toNat % 2 ^ 48) 0x10000) = true) :
    calWrite a.toNat s = s.modBoot (fun b =>
      { b with calAddr := a.toNat % 2 ^ 48, cal := 1, calImage := s.readMem (a.toNat % 2 ^ 48) 0x10000 }) := by
  have haddr : bitsOf a.toNat 47 0 = a.toNat % 2 ^ 48 := by rw [bitsOf, Nat.pow_zero, Nat.div_one]
  rw [calWrite, if_neg hidle, haddr, calSize, if_pos hgood]
  rfl

theorem calWrite_rejects (hidle : s.boot.cal ≠ 1) (hbad : ¬(a.toNat % 2 ^ 48 % 256 = 0
    ∧ s.pinnedFor (.func 0) (a.toNat % 2 ^ 48, 0x10000) = true ∧ calImageOk (s.readMem (a.toNat % 2 ^ 48) 0x10000) = true)) :
    calWrite a.toNat s = (s.modBoot (fun b => { b with calAddr := a.toNat % 2 ^ 48, cal := 3 })).report Codes.calRejected {} := by
  have haddr : bitsOf a.toNat 47 0 = a.toNat % 2 ^ 48 := by rw [bitsOf, Nat.pow_zero, Nat.div_one]
  rw [calWrite, if_neg hidle, haddr, calSize, if_neg hbad]
  rfl

end Write

theorem exec_calWrite_host {s m : State} {a : W64} (h : calWrite a.toNat s = m) : exec (.calWrite (.host 0) a) s = .next m :=
  congrArg Host.Outcome.next ((physical_host s _).trans h)

/-! The region's two copies (R483). -/

theorem putBytes_length {bs v : List Byte} {o : Nat} (h : o + v.length ≤ bs.length) : (putBytes bs o v).length = bs.length := by
  simp only [putBytes, List.length_append, List.length_take, List.length_drop]
  omega

theorem natLe_flatMap_length (n : Nat) (rs : List Nat) : (rs.flatMap (natLe n)).length = n * rs.length := by
  rw [List.length_flatMap, List.map_congr_left (fun r _ => natLe_length n r), List.map_const', List.sum_replicate, smul_eq_mul, Nat.mul_comm]

/-- The four fields that finishing an image writes all lie inside it. -/
theorem calFinish_length {bs : List Byte} (h : bs.length = calSize) (frames : List Nat) (seq : Nat) :
    (calFinish bs frames seq).length = calSize := by
  let rs := (calRetired bs ++ frames.filter (fun f => !(calRetired bs).contains f)).take 4096
  have hrs : rs.length ≤ 4096 := List.length_take_le ..
  have h1 : (putBytes bs 0x928 (natLe 4 rs.length)).length = calSize :=
    (putBytes_length (by rw [natLe_length, h]; decide)).trans h
  have h2 : (putBytes (putBytes bs 0x928 (natLe 4 rs.length)) 0x1000 (rs.flatMap (natLe 4))).length = calSize :=
    (putBytes_length (by rw [natLe_flatMap_length, h1, calSize]; omega)).trans h1
  have h3 := (putBytes_length (v := natLe 8 seq) (o := 8) (by rw [natLe_length, h2]; decide)).trans h2
  exact (putBytes_length (by rw [natLe_length, h3]; decide)).trans h3

/-- The copy that an image is stored over: the one that is not the newest (R483). -/
def State.calOlder (s : State) : Nat := if s.calNewest = some 0 then 1 else 0

theorem calOlder_lt (s : State) : s.calOlder < 2 := by
  unfold State.calOlder
  split <;> decide

theorem calStore_other (s : State) {bs : List Byte} (h : bs.length = calSize) {j : Nat} (hne : j ≠ s.calOlder) :
    (s.calStore bs).calCopy j = s.calCopy j := by
  have holder := calOlder_lt s
  refine SMap.getRange_setRange_other 0 s.sec.spi (calBase s.calOlder) _ (calBase j) calSize ?_
  rw [calFinish_length h]
  simp only [calBase, calSize]
  omega

theorem calStore_older (s : State) {bs : List Byte} (h : bs.length = calSize) {n : Nat} (hn : s.calNewest = some n) :
    (s.calStore bs).calCopy s.calOlder = calFinish bs s.retiredFrames (calSeq (s.calCopy n) + 1) := by
  have hget := SMap.getRange_setRange 0 s.sec.spi (calBase s.calOlder)
    (calFinish bs s.retiredFrames (calSeq (s.calCopy n) + 1))
  rw [calFinish_length h] at hget
  have hspi : (s.calStore bs).sec.spi = s.sec.spi.setRange 0 (calBase s.calOlder)
      (calFinish bs s.retiredFrames (calSeq (s.calCopy n) + 1)) := by
    unfold State.calStore State.calOlder
    rw [hn]
    rfl
  rw [State.calCopy, hspi, hget]

/-! Collection of the local logs (R487). -/

/-- A collected record takes the next sequence number, and no local log changes. -/
theorem collect_rest (s : State) (r : ErrRec) : RecordsOnly s (s.collect r) ∧ (s.collect r).logs.locals = s.logs.locals
    ∧ (s.collect r).logs.global.seq = s.logs.global.seq + 1 := by
  unfold State.collect
  dsimp only
  split <;> split <;> split <;> exact ⟨recordsOnly_refl s, rfl, rfl⟩

theorem collects_rest (rs : List ErrRec) : ∀ s : State, RecordsOnly s (rs.foldl State.collect s)
    ∧ (rs.foldl State.collect s).logs.locals = s.logs.locals
    ∧ (rs.foldl State.collect s).logs.global.seq = s.logs.global.seq + rs.length := by
  induction rs with
  | nil => exact fun s => ⟨recordsOnly_refl s, rfl, rfl⟩
  | cons r rs ih =>
    intro s
    obtain ⟨hrest, hlocals, hseq⟩ := collect_rest s r
    obtain ⟨irest, ilocals, iseq⟩ := ih (s.collect r)
    exact ⟨hrest.trans irest, ilocals.trans hlocals, by rw [List.foldl_cons, iseq, hseq, List.length_cons]; omega⟩

section Collection

variable (s : State) (cls idx : Nat)

/-- The state once a local log is emptied and its records are collected. -/
def State.emptied (s : State) (cls idx : Nat) : State :=
  (s.logs.locals.get .init (cls * 64 + idx)).recs.foldl State.collect
    { s with logs := { s.logs with locals := s.logs.locals.set .init (cls * 64 + idx) .init } }

theorem emptied_rest : RecordsOnly s (s.emptied cls idx)
    ∧ (∀ k, (s.emptied cls idx).logs.locals.get .init k = if k = cls * 64 + idx then .init else s.logs.locals.get .init k)
    ∧ (s.emptied cls idx).logs.global.seq = s.logs.global.seq + (s.logs.locals.get .init (cls * 64 + idx)).recs.length := by
  obtain ⟨hrest, hlocals, hseq⟩ := collects_rest (s.logs.locals.get .init (cls * 64 + idx)).recs
    { s with logs := { s.logs with locals := s.logs.locals.set .init (cls * 64 + idx) .init } }
  exact ⟨hrest, fun k => (congrArg (·.get .init k) hlocals).trans (SMap.get_set ..), hseq⟩

theorem errorLogCollection_whole (hdropped : (s.logs.locals.get .init (cls * 64 + idx)).dropped = 0) :
    errorLogCollection cls idx s = s.emptied cls idx := if_pos hdropped

theorem errorLogCollection_overrun (hdropped : (s.logs.locals.get .init (cls * 64 + idx)).dropped ≠ 0) :
    ∃ i : RecInfo, i.cls = cls ∧ i.idx = idx ∧ errorLogCollection cls idx s = (s.emptied cls idx).report Codes.logOverrun i :=
  ⟨_, rfl, rfl, if_neg hdropped⟩

/-- A report's record enters the local log of its die, and no other log changes. -/
theorem locals_report (c : Code) (i : RecInfo) : ∃ r : ErrRec, r.code = c ∧ (s.report c i).logs.global = s.logs.global
    ∧ ∀ k, (s.report c i).logs.locals.get .init k = if k = i.cls * 64 + i.idx then
        if (s.logs.locals.get .init k).recs.length < 16
        then { s.logs.locals.get .init k with recs := (s.logs.locals.get .init k).recs ++ [r] }
        else { s.logs.locals.get .init k with dropped := (s.logs.locals.get .init k).dropped + 1 }
      else s.logs.locals.get .init k := by
  obtain ⟨r, hreport, hcode, hcls, hidx⟩ : ∃ r : ErrRec, s.report c i = (s.draw.2.logRec r).noteCode c ∧ r.code = c ∧ r.cls = i.cls
    ∧ r.idx = i.idx := ⟨_, rfl, rfl, rfl, rfl⟩
  refine ⟨r, hcode, ?_, fun k => ?_⟩
  · rw [hreport, State.logs_noteCode]; rfl
  · rw [hreport, State.logs_noteCode, logs_logRec, hcls, hidx]; rfl

end Collection

theorem errorVectorSend_idle (s : State) (f : Nat) (h : (s.logs.funcs.get .init f).pending = false) : errorVectorSend f s = s :=
  if_neg (by rw [h]; exact Bool.false_ne_true)

theorem errorVectorSend_sends (s : State) (f : Nat) (h : (s.logs.funcs.get .init f).pending = true) :
    (errorVectorSend f s).logs.funcs.get .init f = { s.logs.funcs.get .init f with pending := false }
    ∧ (errorVectorSend f s).tiles = s.tiles ∧ (errorVectorSend f s).mem = s.mem
    ∧ (s.sched.msix.get 0 (f * 2048) = 1 → (errorVectorSend f s).outbox = s.outbox ++ [.msix f 0]) := by
  have hget : (s.modFuncLog f (fun l => { l with pending := false })).logs.funcs.get .init f
      = { s.logs.funcs.get .init f with pending := false } := SMap.get_set_same ..
  rw [errorVectorSend, if_pos h, State.msix, Nat.add_zero]
  dsimp only
  split
  · exact ⟨hget, rfl, rfl, fun _ => rfl⟩
  · next hmask => exact ⟨hget, rfl, rfl, fun hset => absurd hset hmask⟩

/-- Settles O51: what each write, its end, each collection and each vector does, a clause each. -/
theorem calibrationAndRecords : Obligations.CalibrationAndRecords := by
  unfold Obligations.CalibrationAndRecords
  intro s
  refine ⟨fun w a => ⟨?starts, ?rejects, ?busy, ?foreign⟩, ?complete, fun cls idx => ?collection, fun f => ⟨?idle, ?sends⟩, ?status⟩
  case starts =>
    rintro rfl hidle hgood
    refine ⟨_, exec_calWrite_host (calWrite_starts s a hidle hgood), rfl, ?_, rfl, rfl, rfl, recordsOnly_refl s⟩
    simp only [State.modBoot]
  case rejects =>
    rintro rfl hidle hbad
    have hlogged := report_logged (s.modBoot (fun b => { b with calAddr := a.toNat % 2 ^ 48, cal := 3 })) Codes.calRejected {}
    refine ⟨_, exec_calWrite_host (calWrite_rejects s a hidle hbad), ?_, hlogged, sec_report_of_class (by decide),
      (recordsOnly_modBoot ..).trans (recordsOnly_report ..)⟩
    rw [report_boot]
    rfl
  case busy =>
    rintro rfl hbusy
    refine ⟨_, exec_calWrite_host (calWrite_busy s a hbusy), ?_, ?_, ?_, report_logged .., sec_report_of_class (by decide),
      recordsOnly_report ..⟩ <;> rw [report_boot]
    exact hbusy
  case foreign =>
    intro hw
    obtain ⟨i, hunit, hrun⟩ := physical_not s (calWrite a.toNat) hw
    refine ⟨_, congrArg Host.Outcome.next hrun, ?_, ?_, hunit ▸ report_logged .., sec_report_of_class (by decide),
      recordsOnly_report ..⟩ <;> rw [report_boot]
  case complete =>
    intro hcal hlen
    refine ⟨(s.calStore s.boot.calImage).modBoot (fun b => { b with cal := 2, calImage := [] }), s.calOlder,
      congrArg Host.Outcome.next (if_neg (not_not_intro hcal)), calOlder_lt s, rfl, recordsOnly_refl s, fun j _ hne => calStore_other s hlen hne,
      fun hn => if_pos hn, fun hn => if_neg (by rw [hn]; decide), fun n hn => calStore_older s hlen hn⟩
  case collection =>
    obtain ⟨hrest, hlocals, hseq⟩ := emptied_rest s cls idx
    by_cases hdropped : (s.logs.locals.get .init (cls * 64 + idx)).dropped = 0
    · refine ⟨_, congrArg Host.Outcome.next (errorLogCollection_whole s cls idx hdropped), hseq, hrest,
        fun _ => (hlocals _).trans (if_pos rfl), fun h => absurd hdropped h, fun k hk => (hlocals k).trans (if_neg hk)⟩
    · obtain ⟨i, hcls, hidx, hrun⟩ := errorLogCollection_overrun s cls idx hdropped
      obtain ⟨r, hcode, hglobal, hreport⟩ := locals_report (s.emptied cls idx) Codes.logOverrun i
      rw [hcls, hidx] at hreport
      refine ⟨_, congrArg Host.Outcome.next hrun, (congrArg GlobalLog.seq hglobal).trans hseq,
        hrest.trans (recordsOnly_report ..), fun h => absurd h hdropped, fun _ => ⟨r, ?_, hcode⟩, fun k hk => ?_⟩
      · rw [hreport, if_pos rfl, hlocals, if_pos rfl]
        rfl
      · rw [hreport, if_neg hk, hlocals, if_neg hk]
  case idle => exact fun h => congrArg Host.Outcome.next (errorVectorSend_idle s f h)
  case sends => exact fun h => ⟨_, rfl, errorVectorSend_sends s f h⟩
  case status =>
    exact fun w hw => ⟨_, congrArg Host.Outcome.next (privileged_may s w errStatusRead hw), rfl, recordsOnly_refl s, rfl⟩

end Sys2Proof.Machine

namespace Sys2Proof.Machine

open Claims

/-! Requested tests (R303, R358, R479, R480, R484 to R486). -/

/-- No Dealer, job, channel or power control differs. -/
def TestSame (s m : State) : Prop := m.dealers = s.dealers ∧ m.sched = s.sched ∧ m.col = s.col ∧ m.power = s.power

/-- Nothing differs but boot, security, the logs and what is sent. -/
def TestRest (s m : State) : Prop := m.tiles = s.tiles ∧ m.mem = s.mem ∧ m.links = s.links ∧ TestSame s m

theorem TestSame.col {s m : State} (h : TestSame s m) : m.col = s.col :=
  let ⟨_, _, hcol, _⟩ := h
  hcol

theorem TestRest.col {s m : State} (h : TestRest s m) : m.col = s.col :=
  let ⟨_, _, _, hsame⟩ := h
  TestSame.col hsame

theorem testRest_of_boot {s m : State} (h : m = { s with boot := m.boot }) : TestRest s m := by
  rw [h]
  exact ⟨rfl, rfl, rfl, rfl, rfl, rfl, rfl⟩

theorem testRest_report (s : State) (c : Code) (i : RecInfo) : TestRest s (s.report c i) :=
  (kept_report s c i).rest (State.report_mem ..)

theorem testSame_of_linksOnly {s m : State} (h : LinksOnly s m) : TestSame s m := by
  obtain ⟨-, hdealers, -, hsched, -, hcol, hpower, -⟩ := h
  exact ⟨hdealers, hsched, hcol, hpower⟩

/-- Nothing runs or waits on any channel. -/
def State.quiet (s : State) : Prop := ∀ c : Chan, (s.chan c).run = none ∧ (s.chan c).queue = []

/-- What the requests of one kind of test do, the acknowledgement being that of the interface asked. -/
def Asks (s : State) (e : Iface → BitVec 8 → Instr) (op limit : Nat) : Prop := ∀ (w : Iface) (t : BitVec 8),
  let b := decide (w = .board)
  let refused (status : Nat) (code : Code) : Prop := ∃ m, exec (e w t) s = .next m ∧ m.boot.queue = s.boot.queue
    ∧ m.ackOf b = ⟨true, (s.ackOf b).ticket, 0, status⟩ ∧ Logged s m code 0xFFFF ∧ TestRest s m
  (w = .board ∨ w = .host 0 → t.toNat < limit → s.boot.queue.length < 64 → (∀ q ∈ s.boot.queue, q.ticket ≠ s.boot.ticket) →
    ∃ m, exec (e w t) s = .next m ∧ m.boot.queue = s.boot.queue ++ [⟨s.boot.ticket, op, t.toNat, b, false⟩]
      ∧ m.boot.ticket = (s.boot.ticket + 1) % 256 ∧ m.logs = s.logs ∧ TestRest s m
      ∧ m.ackOf b = ⟨true, s.boot.ticket, 1 + (s.boot.queue.filter (fun q => !q.running)).length, 0⟩)
  ∧ (w = .board ∨ w = .host 0 → limit ≤ t.toNat → refused 2 Codes.badRegAccess)
  ∧ (w = .board ∨ w = .host 0 → t.toNat < limit → 64 ≤ s.boot.queue.length → refused 1 Codes.testQueueFull)
  ∧ (¬(w = .board ∨ w = .host 0) → ∃ m, exec (e w t) s = .next m ∧ m.boot.queue = s.boot.queue ∧ m.boot.ackHost = s.boot.ackHost
      ∧ m.boot.ackBoard = s.boot.ackBoard ∧ Logged s m Codes.badRegAccess 0xFFFF ∧ TestRest s m)

theorem asks_clause (s : State) (e : Iface → BitVec 8 → Instr) {op limit : Nat} (hok : ∀ t, testTargetOk op t = decide (t < limit))
    (he : ∀ w t, exec (e w t) s = .next (s.testRequest w op t.toNat)) : Asks s e op limit := by
  intro w t
  obtain ⟨hqueue, habsent, hfull, hforeign⟩ := asks_spec s e op limit hok he w t
  have hrefuse (b : Bool) (status : Nat) (code : Code) : (s.refuseTest b status code).boot.queue = s.boot.queue
      ∧ (s.refuseTest b status code).ackOf b = ⟨true, (s.ackOf b).ticket, 0, status⟩
      ∧ Logged s (s.refuseTest b status code) code 0xFFFF ∧ TestRest s (s.refuseTest b status code) := by
    obtain ⟨h1, h2, h3, htiles, hmem, hlinks, hsame⟩ := refuse_spec s b status code
    exact ⟨h1, h2, h3, htiles, hmem, hlinks, hsame⟩
  refine ⟨fun hw hlt hroom hfresh => ?_, fun hw hle => ⟨_, habsent hw hle, hrefuse ..⟩,
    fun hw hlt hlen => ⟨_, hfull hw hlt hlen, hrefuse ..⟩, fun hw => ?_⟩
  · obtain ⟨m, hexec, hm, hticket, hboot, hack⟩ := hqueue hw hlt hroom hfresh
    exact ⟨m, hexec, hm, hticket, by rw [hboot], testRest_of_boot hboot, hack⟩
  · obtain ⟨i, hunit, hexec⟩ := hforeign hw
    refine ⟨_, hexec, ?_, ?_, ?_, hunit ▸ report_logged .., testRest_report ..⟩ <;> rw [report_boot]

/-! Cancellation. -/

section Cancel

variable {s : State} {b : Bool} {t : Nat}

/-- The request's ticket has left the queue, and the acknowledgement says so. -/
def Withdrawn (s : State) (b : Bool) (t : Nat) (m : State) : Prop :=
  m.boot.queue = s.boot.queue.filter (fun q => q.ticket != t) ∧ m.ackOf b = ⟨true, t, 0, 0⟩

/-- The state of a cancellation before what runs is abandoned. -/
def State.uncued (s : State) (b : Bool) (t : Nat) : State := (s.setAck b ⟨true, t, 0, 0⟩).dropTicket t

theorem uncued_spec (s : State) (b : Bool) (t : Nat) : Withdrawn s b t (s.uncued b t) ∧ TestRest s (s.uncued b t) := by
  obtain ⟨hack, hqueue, -, -, hboot⟩ := setAck_spec s b ⟨true, t, 0, 0⟩
  refine ⟨⟨?_, ?_⟩, testRest_of_boot ?_⟩
  · exact congrArg (List.filter fun q : TestReq => q.ticket != t) hqueue
  · cases b <;> exact hack
  · unfold State.uncued State.dropTicket
    rw [hboot]
    rfl

theorem testCancel_absent (hfound : s.boot.queue.find? (fun q => q.ticket == t) = none) :
    Withdrawn s b t (testCancel b t s) ∧ TestRest s (testCancel b t s) := by
  obtain ⟨hack, hqueue, -, -, hboot⟩ := setAck_spec s b ⟨true, t, 0, 0⟩
  have hnone : s.boot.queue.filter (fun q => q.ticket != t) = s.boot.queue :=
    List.filter_eq_self.2 fun q hq => by simpa using List.find?_eq_none.1 hfound q hq
  have hrun : testCancel b t s = s.setAck b ⟨true, t, 0, 0⟩ := by rw [testCancel, hfound]
  rw [hrun]
  exact ⟨⟨hqueue.trans hnone.symm, hack⟩, testRest_of_boot hboot⟩

theorem testCancel_waiting {q : TestReq} (hfound : s.boot.queue.find? (fun q => q.ticket == t) = some q) (hwaits : q.running = false) :
    testCancel b t s = s.uncued b t := by
  simp only [testCancel, hfound, hwaits, Bool.false_eq_true, if_false]
  rfl

/-- With every channel quiet, abandoning the test is all that a cancelled running test leaves to do. -/
theorem testCancel_running {q : TestReq} (hfound : s.boot.queue.find? (fun q => q.ticket == t) = some q) (hruns : q.running = true)
    (hquiet : s.quiet) (hcol : ((s.uncued b t).abandon q).col = s.col) : testCancel b t s = (s.uncued b t).abandon q := by
  simp only [testCancel, hfound, hruns, if_true]
  exact colSettle_same hquiet hcol

theorem abandon_other {q : TestReq} (h3 : q.op ≠ 3) (h5 : q.op ≠ 5) : s.abandon q = s := by
  unfold State.abandon
  split <;> trivial

theorem abandon_margin {q : TestReq} (h : q.op = 3) : s.abandon q = s.modStack q.target (fun x => { x with margining := false }) := by
  simp only [State.abandon, h]

theorem abandon_link {q : TestReq} (h : q.op = 5) (hphase : (s.link q.target).phase = .margin) : s.abandon q = s.linkUp q.target := by
  simp only [State.abandon, h, hphase, if_true]

theorem testCancel_quiet (h : ∀ q, s.boot.queue.find? (fun q => q.ticket == t) = some q →
    q.running = false ∨ s.quiet ∧ q.op ≠ 3 ∧ q.op ≠ 5) : Withdrawn s b t (testCancel b t s) ∧ TestRest s (testCancel b t s) := by
  obtain ⟨hgone, hrest⟩ := uncued_spec s b t
  cases hfound : s.boot.queue.find? (fun q => q.ticket == t) with
  | none => exact testCancel_absent hfound
  | some q =>
    have hrun : testCancel b t s = s.uncued b t := by
      rcases Bool.eq_false_or_eq_true q.running with hruns | hwaits
      · obtain ⟨hquiet, h3, h5⟩ := (h q hfound).resolve_left (by simp [hruns])
        have habandon := abandon_other (s := s.uncued b t) h3 h5
        exact (testCancel_running hfound hruns hquiet (habandon.symm ▸ hrest.col)).trans habandon
      · exact testCancel_waiting hfound hwaits
    rw [hrun]
    exact ⟨hgone, hrest⟩

theorem testCancel_margin {q : TestReq} (hfound : s.boot.queue.find? (fun q => q.ticket == t) = some q) (hruns : q.running = true)
    (hquiet : s.quiet) (hop : q.op = 3) : Withdrawn s b t (testCancel b t s)
      ∧ ((testCancel b t s).stack q.target).margining = false ∧ TestSame s (testCancel b t s) := by
  obtain ⟨hgone, -, -, -, hsame⟩ := uncued_spec s b t
  have habandon := abandon_margin (s := s.uncued b t) hop
  rw [(testCancel_running hfound hruns hquiet (habandon.symm ▸ hsame.col)).trans habandon]
  refine ⟨hgone, ?_, hsame⟩
  rw [State.stack_modStack_same]

theorem testCancel_link {q : TestReq} (hfound : s.boot.queue.find? (fun q => q.ticket == t) = some q) (hruns : q.running = true)
    (hquiet : s.quiet) (hop : q.op = 5) (hphase : (s.link q.target).phase = .margin) : Withdrawn s b t (testCancel b t s)
      ∧ ((testCancel b t s).link q.target).phase = .up ∧ TestSame s (testCancel b t s) := by
  obtain ⟨hgone, -, -, hlinks, bdealers, bsched, bcol, bpower⟩ := uncued_spec s b t
  have hlink : (s.uncued b t).link q.target = s.link q.target := State.link_congr hlinks _
  have habandon := abandon_link (s := s.uncued b t) hop (by rw [hlink]; exact hphase)
  obtain ⟨⟨honly, -, -, hup, -⟩, hpumped⟩ := State.linkUp_spec (s.uncued b t) q.target
  obtain ⟨hdealers, hsched, hcol, hpower⟩ := testSame_of_linksOnly honly
  rw [(testCancel_running hfound hruns hquiet (habandon.symm ▸ hcol.trans bcol)).trans habandon]
  refine ⟨⟨(congrArg BootSt.queue hup).trans hgone.1, ?_⟩, hpumped.same.1, hdealers.trans bdealers, hsched.trans bsched,
    hcol.trans bcol, hpower.trans bpower⟩
  rw [State.ackOf, hup]
  exact hgone.2

end Cancel

/-! The scan and the end of a test. -/

section Scan

variable {s : State} {q : TestReq} (hqueue : s.boot.queue = [q]) (hwaits : q.running = false)

include hqueue

theorem scan_idle (hbusy : s.testIdle q = false) :
    ∃ m, exec .testQueueScan s = .next m ∧ m.boot.queue = s.boot.queue ∧ TestRest s m := by
  obtain ⟨t, m, ht, hexec, hm, hboot⟩ := scan_one s q hqueue
  rw [hbusy, Bool.and_false, if_neg Bool.false_ne_true] at ht
  subst ht
  exact ⟨m, hexec, hm, testRest_of_boot hboot⟩

include hwaits

theorem scan_starts (hidle : s.testIdle q = true) : ∃ m, exec .testQueueScan s = .next m
    ∧ m.boot.queue = (s.startTest q).boot.queue ∧ m = { s.startTest q with boot := m.boot } := by
  obtain ⟨t, m, ht, hexec, hm, hboot⟩ := scan_one s q hqueue
  rw [hidle, hwaits, Bool.not_false, Bool.and_true, if_pos rfl] at ht
  subst ht
  exact ⟨m, hexec, hm, hboot⟩

end Scan

/-- A tile's memories read zero, and no other tile changes. -/
def Zeroed (s : State) (t : Nat) (m : State) : Prop :=
  (m.tile t).spad = [] ∧ (m.tile t).acc = [] ∧ ∀ u, u ≠ t → m.tile u = s.tile u

/-- What ends without a tile or a memory changing: the ticket's request is gone and the result is logged. -/
def TestEnded (s : State) (t : Nat) (pass : Bool) (m : State) : Prop := m.boot.queue = s.boot.queue.filter (fun q => q.ticket != t)
  ∧ Logged s m (if pass then Codes.testDone else Codes.testFailed) 0xFFFF

theorem tile_congr {s m : State} (h : m.tiles = s.tiles) (u : Nat) : m.tile u = s.tile u := by rw [State.tile, h]; rfl

/-- The record of a result over a state that has dropped the ticket. -/
theorem testResult_ended {s m : State} {t : Nat} (q : TestReq) (pass : Bool) (hqueue : m.boot.queue = s.boot.queue.filter (fun q => q.ticket != t))
    (hgrows : Grows s m) : TestEnded s t pass (m.testResult q pass) := by
  obtain ⟨rqueue, -, -, -, -, -, -, -, -, -, -, -, rlogged⟩ := testResult_spec m q pass
  exact ⟨rqueue.trans hqueue, logged_before hgrows rlogged⟩

theorem testResult_rest (s : State) (q : TestReq) (pass : Bool) : TestRest s (s.testResult q pass) := by
  obtain ⟨-, -, -, htiles, hmem, hlinks, hdealers, hsched, hcol, hpower, -⟩ := testResult_spec s q pass
  exact ⟨htiles, hmem, hlinks, hdealers, hsched, hcol, hpower⟩

theorem TestRest.trans {s t m : State} (h : TestRest s t) (k : TestRest t m) : TestRest s m := by
  obtain ⟨a1, a2, a3, a4, a5, a6, a7⟩ := h
  obtain ⟨b1, b2, b3, b4, b5, b6, b7⟩ := k
  exact ⟨b1.trans a1, b2.trans a2, b3.trans a3, b4.trans a4, b5.trans a5, b6.trans a6, b7.trans a7⟩

theorem TestRest.zeroed {s m m' : State} {t : Nat} (h : Zeroed s t m) (k : TestRest m m') : Zeroed s t m' := by
  obtain ⟨hspad, hacc, hother⟩ := h
  exact ⟨(congrArg TileSt.spad (tile_congr k.1 t)).trans hspad, (congrArg TileSt.acc (tile_congr k.1 t)).trans hacc,
    fun u hu => (tile_congr k.1 u).trans (hother u hu)⟩

theorem TestSame.trans {s t m : State} (h : TestSame s t) (k : TestSame t m) : TestSame s m := by
  obtain ⟨a1, a2, a3, a4⟩ := h
  obtain ⟨b1, b2, b3, b4⟩ := k
  exact ⟨b1.trans a1, b2.trans a2, b3.trans a3, b4.trans a4⟩

/-- The tile under test with its memories zero. -/
def State.zeroTile (s : State) (t : Nat) : State := s.modTile t (fun x => { x with spad := [], acc := [], units := [] })

theorem zeroTile_zeroed (s : State) (t : Nat) : Zeroed s t (s.zeroTile t) := by
  refine ⟨?_, ?_, fun u hu => (State.tile_modTile s t u _).trans (if_neg hu)⟩ <;> rw [State.zeroTile, State.tile_modTile_same]

theorem markBist_spec (s : State) (d : Nat) (i : RecInfo) : TestRest s (s.markBist d i) ∧ (s.markBist d i).boot.queue = s.boot.queue
    ∧ bitOf (s.markBist d i).boot.bistFail d = true ∧ Grows s (s.markBist d i) ∧ Logged s (s.markBist d i) Codes.bistFail i.unit := by
  have hgrows := grows_report (s.modBoot (fun b => { b with bistFail := setBit b.bistFail d })) Codes.bistFail i
  have hlogged := report_logged (s.modBoot (fun b => { b with bistFail := setBit b.bistFail d })) Codes.bistFail i
  have hrest := testRest_report (s.modBoot (fun b => { b with bistFail := setBit b.bistFail d })) Codes.bistFail i
  refine ⟨hrest, ?_, ?_, hgrows, hlogged⟩ <;> rw [State.markBist, report_boot]
  · rfl
  · exact bitOf_set ..

section Complete

variable (s : State) (t : Nat) (q : TestReq) (rs : List Margins)

theorem endTest_tile_fails (hop : q.op = 1) : ∃ m, (s.dropTicket t).endTest q false rs = m ∧ TestEnded s t false m ∧ Zeroed s q.target m
    ∧ bitOf m.boot.bistFail (5 + q.target / 12) = true ∧ Logged s m Codes.bistFail (q.target % 12) ∧ TestSame s m := by
  let x := (s.dropTicket t).zeroTile q.target
  let y := x.markBist (5 + q.target / 12) { cls := 2, idx := q.target / 12, unit := q.target % 12 }
  obtain ⟨hrest, hqueue, hbit, hgrows, hlogged⟩ := markBist_spec x (5 + q.target / 12)
    { cls := 2, idx := q.target / 12, unit := q.target % 12 }
  obtain ⟨-, hfail, -, -, -, -, -, -, -, -, -, rgrows, -⟩ := testResult_spec y q false
  have hzero : Zeroed s q.target x := zeroTile_zeroed (s.dropTicket t) q.target
  refine ⟨y.testResult q false, by simp only [State.endTest, hop]; rfl, testResult_ended q false hqueue hgrows,
    (hrest.trans (testResult_rest ..)).zeroed hzero, hfail ▸ hbit, logged_grow hlogged rgrows, ?_⟩
  obtain ⟨-, -, -, hsame⟩ := hrest.trans (testResult_rest y q false)
  exact hsame

theorem endTest_tile_passes (hop : q.op = 1) (hidle : ∀ p ∈ s.sched.jobs, ∀ x, p.2 = some x → x.phase ≠ .waiting ∧ x.phase ≠ .saved) :
    ∃ m, (s.dropTicket t).endTest q true rs = m ∧ TestEnded s t true m ∧ Zeroed s q.target m
      ∧ bitOf m.boot.bistFail (5 + q.target / 12) = false ∧ TestSame s m := by
  let x := (s.dropTicket t).zeroTile q.target
  let y := x.modBoot (fun b => { b with bistFail := clearBit b.bistFail (5 + q.target / 12) })
  obtain ⟨-, hfail, -⟩ := testResult_spec y q true
  have hzero : Zeroed s q.target y := zeroTile_zeroed (s.dropTicket t) q.target
  have hend : (s.dropTicket t).endTest q true rs = y.reapply.testResult q true := by simp only [State.endTest, hop]; rfl
  rw [reapply_idle y hidle] at hend
  obtain ⟨-, -, -, hsame⟩ := testResult_rest y q true
  exact ⟨_, hend, testResult_ended q true rfl (Grows.of_eq rfl), (testResult_rest ..).zeroed hzero, hfail ▸ bitOf_clear .., hsame⟩

theorem endTest_stack_passes (hop : q.op = 2) : ∃ m, (s.dropTicket t).endTest q true rs = m ∧ TestEnded s t true m
    ∧ bitOf m.boot.bistFail (13 + q.target) = false ∧ TestRest s m := by
  let y := (s.dropTicket t).modBoot (fun b => { b with bistFail := clearBit b.bistFail (13 + q.target) })
  obtain ⟨-, hfail, -⟩ := testResult_spec y q true
  exact ⟨y.testResult q true, by simp only [State.endTest, hop]; rfl, testResult_ended q true rfl (Grows.of_eq rfl),
    hfail ▸ bitOf_clear .., testResult_rest y q true⟩

theorem endTest_stack_fails (hop : q.op = 2) : ∃ m, (s.dropTicket t).endTest q false rs = m ∧ TestEnded s t false m
    ∧ bitOf m.boot.bistFail (13 + q.target) = true ∧ Logged s m Codes.bistFail 0xFFFF ∧ TestRest s m := by
  let y := (s.dropTicket t).failStack q.target
  obtain ⟨hkept, hmem, hlogged⟩ := failStack_spec (s.dropTicket t) q.target
  obtain ⟨-, hfail, -, -, -, -, -, -, -, -, -, rgrows, -⟩ := testResult_spec y q false
  have hbit : bitOf y.boot.bistFail (13 + q.target) = true := hkept.fail ▸ bitOf_set ..
  exact ⟨y.testResult q false, by simp only [State.endTest, hop]; rfl, testResult_ended q false hkept.queue hkept.grows,
    hfail ▸ hbit, logged_grow hlogged rgrows, TestRest.trans (hkept.rest hmem) (testResult_rest y q false)⟩

theorem stackPasses_congr {s m : State} (h : m.mem = s.mem) (k : Nat) : m.stackPasses k = s.stackPasses k := by
  rw [State.stackPasses, stack_congr (congrArg MemSt.stk h)]
  rfl

theorem endTest_margin (hop : q.op = 3) (pass : Bool) : ∃ m, (s.dropTicket t).endTest q pass rs = m ∧ TestEnded s t (m.stackPasses q.target) m
    ∧ (m.stack q.target).margining = false ∧ m.tiles = s.tiles ∧ TestSame s m := by
  let x := (s.dropTicket t).modStack q.target (fun x => { x with margining := false })
  let y := x.marginStack q.target rs
  obtain ⟨hkept, hmargin⟩ := kept_marginStack x q.target rs
  obtain ⟨-, -, -, htiles, hmem, -⟩ := testResult_spec y q (y.stackPasses q.target)
  have hoff : (x.stack q.target).margining = false := congrArg StackSt.margining (State.stack_modStack_same ..)
  refine ⟨y.testResult q (y.stackPasses q.target), by simp only [State.endTest, hop]; rfl, ?_, ?_, htiles.trans hkept.tiles, ?_⟩
  · rw [stackPasses_congr hmem]
    exact testResult_ended q _ hkept.queue hkept.grows
  · rw [stack_congr (congrArg MemSt.stk hmem), hmargin, hoff]
  · obtain ⟨-, -, -, hsame⟩ := testResult_rest y q (y.stackPasses q.target)
    exact TestSame.trans hkept.same hsame

theorem endTest_retrain (hop : q.op = 4) (hquiet : s.quiet) (pass : Bool) : ∃ m, (s.dropTicket t).endTest q pass rs = m
    ∧ TestEnded s t ((s.link q.target).phase == .up) m ∧ TestRest s m := by
  let y := (s.dropTicket t).testResult q ((s.link q.target).phase == .up)
  have hrest : TestRest s y := testResult_rest (s.dropTicket t) q _
  obtain ⟨-, -, -, -, -, hcol, -⟩ := id hrest
  have hend : (s.dropTicket t).endTest q pass rs = y.colResume := by simp only [State.endTest, hop]; rfl
  exact ⟨y, hend.trans (colSettle_same hquiet hcol), testResult_ended q _ rfl (Grows.of_eq rfl), hrest⟩

end Complete

theorem linkMarginDone_spec {s : State} {l : Nat} {rs : List Margins} (hphase : (s.link l).phase = .margin) (hlen : rs.length = 8)
    (hquiet : s.quiet) (hfree : ∀ q ∈ s.boot.queue, ¬(q.running = true ∧ q.op = 5 ∧ q.target = l)) :
    linkMarginDone l rs s = s.marginLink l rs := by
  obtain ⟨honly, hqueue, -⟩ := marginLink_spec s l rs hlen
  obtain ⟨-, -, hcol, -⟩ := testSame_of_linksOnly honly
  have hnone : s.boot.queue.find? (fun q => q.running && q.op == 5 && q.target == l) = none :=
    List.find?_eq_none.2 fun q hq => by simpa [and_assoc] using hfree q hq
  simp only [linkMarginDone, hphase, ne_eq, not_true_eq_false, if_false, hnone]
  exact colSettle_same hquiet hcol

/-- Settles O50: the five requests ask alike; a cancellation, a scan and each end of a test are a clause each. -/
theorem requestedTests : Obligations.RequestedTests := by
  unfold Obligations.RequestedTests
  intro s
  refine ⟨asks_clause s _ (fun _ => rfl) (fun _ _ => rfl), asks_clause s _ (fun _ => rfl) (fun _ _ => rfl),
    asks_clause s _ (fun _ => rfl) (fun _ _ => rfl), asks_clause s _ (fun _ => rfl) (fun _ _ => rfl),
    asks_clause s _ (fun _ => rfl) (fun _ _ => rfl), ?cancel, ?scan, ?complete, ?margin⟩
  case cancel =>
    intro w t hw
    have hexec : exec (.testCancel w t) s = .next (testCancel (decide (w = .board)) t.toNat s) :=
      congrArg Host.Outcome.next (privileged_may s w _ hw)
    refine ⟨fun h => ?_, fun q hfound hruns hquiet => ⟨fun hop => ?_, fun hop hphase => ?_⟩⟩
    · exact ⟨_, hexec, testCancel_quiet h⟩
    · exact ⟨_, hexec, testCancel_margin hfound hruns hquiet hop⟩
    · exact ⟨_, hexec, testCancel_link hfound hruns hquiet hop hphase⟩
  case scan =>
    intro q hqueue hwaits
    refine ⟨scan_idle hqueue, fun hidle hop => ?_⟩
    obtain ⟨m, hexec, hm, hboot⟩ := scan_starts hqueue hwaits hidle
    obtain ⟨hqueued, hdealers, hsched, hcol, hpower, hother, hmem, hmargin, hretrain, hsweep, hlinks⟩ := startTest_spec s q hqueue hop
    refine ⟨m, hexec, hm.trans hqueued, ?_⟩
    rw [hboot]
    exact ⟨⟨hdealers, hsched, hcol, hpower⟩, hother, hmem, hmargin, hretrain, hsweep, hlinks⟩
  case complete =>
    intro t pass rs q hfound
    have hgo (hretrain : q.op = 4 → (s.link q.target).phase ≠ .retrain) (h5 : q.op ≠ 5) {m : State}
        (hm : (s.dropTicket t).endTest q pass rs = m) : exec (.testComplete t pass rs) s = .next m :=
      (testComplete_go s t pass rs q hfound ⟨fun ⟨h4, h⟩ => hretrain h4 h, h5⟩).trans (congrArg _ hm)
    refine ⟨fun hop hpass => ?_, fun hop hpass hidle => ?_, fun hop hpass => ?_, fun hop hpass => ?_, fun hop => ?_, fun hop hquiet hretrain => ?_⟩
    · subst hpass
      obtain ⟨m, hm, ⟨hgone, hlogged⟩, hzero, hbit, hbist, hsame⟩ := endTest_tile_fails s t q rs hop
      exact ⟨m, hgo (by omega) (by omega) hm, hgone, hzero, hbit, hbist, hlogged, hsame⟩
    · subst hpass
      obtain ⟨m, hm, ⟨hgone, hlogged⟩, hzero, hbit, hsame⟩ := endTest_tile_passes s t q rs hop hidle
      exact ⟨m, hgo (by omega) (by omega) hm, hgone, hzero, hbit, hlogged, hsame⟩
    · subst hpass
      obtain ⟨m, hm, ⟨hgone, hlogged⟩, hbit, hrest⟩ := endTest_stack_passes s t q rs hop
      exact ⟨m, hgo (by omega) (by omega) hm, hgone, hbit, hlogged, hrest⟩
    · subst hpass
      obtain ⟨m, hm, ⟨hgone, hlogged⟩, hbit, hbist, hrest⟩ := endTest_stack_fails s t q rs hop
      exact ⟨m, hgo (by omega) (by omega) hm, hgone, hbit, hbist, hlogged, hrest⟩
    · obtain ⟨m, hm, ⟨hgone, hlogged⟩, hoff, htiles, hsame⟩ := endTest_margin s t q rs hop pass
      exact ⟨m, hgo (by omega) (by omega) hm, hgone, hoff, hlogged, htiles, hsame⟩
    · obtain ⟨m, hm, ⟨hgone, hlogged⟩, hrest⟩ := endTest_retrain s t q rs hop hquiet pass
      refine ⟨m, hgo (fun _ => hretrain) (by omega) hm, hgone, ?_, hrest⟩
      simpa only [beq_iff_eq] using hlogged
  case margin =>
    intro l rs hphase hlen hquiet hfree
    obtain ⟨honly, -, hup, hother, hlanes⟩ := marginLink_spec s l rs hlen
    obtain ⟨htiles, -, hmem, -⟩ := id honly
    exact ⟨_, congrArg Host.Outcome.next (linkMarginDone_spec hphase hlen hquiet hfree), hup, htiles, hmem,
      testSame_of_linksOnly honly, fun k hk => hother k (fun h => hk (Fin.ext h)), hlanes⟩

end Sys2Proof.Machine

namespace Sys2Proof.Machine

open Claims

/-! Power events (R311, R431, R434, R435, R442 to R446, R448). -/

/-- No Dealer, link, channel, codec engine or grade differs. -/
def PowerRest (s m : State) : Prop := m.dealers = s.dealers ∧ m.links = s.links ∧ m.col = s.col ∧ m.codec = s.codec ∧ m.grade = s.grade

/-- No tile, byte, page or job differs either. -/
def PowerSame (s m : State) : Prop := m.tiles = s.tiles ∧ m.mem = s.mem ∧ m.sched = s.sched ∧ PowerRest s m

/-- Every job that had no fault has this one. -/
def AllFaulted (s m : State) (c : Code) : Prop := ∀ j x, s.job j = some x → m.job j = some { x with fault := some (x.fault.getD c) }

theorem PowerRest.trans {s t m : State} (h : PowerRest s t) (k : PowerRest t m) : PowerRest s m := by
  obtain ⟨a1, a2, a3, a4, a5⟩ := h
  obtain ⟨b1, b2, b3, b4, b5⟩ := k
  exact ⟨b1.trans a1, b2.trans a2, b3.trans a3, b4.trans a4, b5.trans a5⟩

theorem powerSame_report (s : State) (c : Code) (i : RecInfo) : PowerSame s (s.report c i) := by simp [PowerSame, PowerRest]

theorem powerSame_modPower (s : State) (f : PowerSt → PowerSt) : PowerSame s (s.modPower f) := ⟨rfl, rfl, rfl, rfl, rfl, rfl, rfl, rfl⟩

theorem PowerSame.trans {s t m : State} (h : PowerSame s t) (k : PowerSame t m) : PowerSame s m := by
  obtain ⟨a1, a2, a3, a4⟩ := h
  obtain ⟨b1, b2, b3, b4⟩ := k
  exact ⟨b1.trans a1, b2.trans a2, b3.trans a3, a4.trans b4⟩

theorem PowerSame.rest {s m : State} (h : PowerSame s m) : PowerRest s m :=
  let ⟨_, _, _, hrest⟩ := h
  hrest

theorem powerRest_faultAll (s : State) (c : Code) : PowerRest s (s.faultAll c) := by
  rw [faultAll_rest]
  exact ⟨rfl, rfl, rfl, rfl, rfl⟩

/-- An access by one that may not is logged, and changes nothing (R4). -/
theorem privileged_refused (s : State) {w : Iface} (go : State → State) (hw : ¬(w = .board ∨ w = .host 0)) :
    (s.privileged w go).power = s.power ∧ PowerSame s (s.privileged w go) ∧ Logged s (s.privileged w go) Codes.badRegAccess 0xFFFF := by
  obtain ⟨i, hunit, hrun⟩ := privileged_not s w go hw
  rw [hrun]
  exact ⟨State.report_power .., powerSame_report .., hunit ▸ report_logged ..⟩

/-! Droop and the comparator (R442, R443, R445). -/

theorem droopTrip_spec (s : State) (t : Nat) : (droopTrip t s).tile t
      = { s.tile t with pwr := { (s.tile t).pwr with suppressed := true, droops := min 65535 ((s.tile t).pwr.droops + 1) } }
    ∧ (∀ u, u ≠ t → (droopTrip t s).tile u = s.tile u)
    ∧ (droopTrip t s).dealer (t / 12) = { s.dealer (t / 12) with trips := (s.dealer (t / 12)).trips + 1 }
    ∧ (∀ e, e ≠ t / 12 → (droopTrip t s).dealer e = s.dealer e)
    ∧ droopTrip t s = { s with tiles := (droopTrip t s).tiles, dealers := (droopTrip t s).dealers } := by
  refine ⟨?_, fun u hu => ?_, ?_, fun e he => ?_, rfl⟩ <;> rw [droopTrip]
  · rw [State.tile_modDealer, State.tile_modTile_same]; rfl
  · rw [State.tile_modDealer, State.tile_modTile, if_neg hu]
  · rw [State.dealer_modDealer_same]; rfl
  · rw [State.dealer_modDealer, if_neg he]; rfl

theorem effBudget_ceiling (s : State) (t c : Nat) (h : s.power.ceiling = true) : s.effBudget t c ≤ 16 := by
  simp only [State.effBudget, h, if_true]
  split
  · exact Nat.zero_le _
  · split
    · exact Nat.le_trans (Nat.min_le_left _ _) (Nat.min_le_left _ _)
    · exact Nat.min_le_left _ _

theorem comparatorTrip_trips (s : State) (h : s.power.ceiling = false) :
    comparatorTrip s = (s.modPower (fun p => { p with ceiling := true })).report Codes.pwrCeiling {} :=
  if_neg (by rw [h]; exact Bool.false_ne_true)

/-- A ramp starts where a hand runs. -/
def TileSt.rampStart (x : TileSt) : TileSt := if x.hand.isSome then { x with pwr := { x.pwr with ramp := some 0 } } else x

theorem comparatorRelease_ramps (s : State) (h : s.power.ceiling = true) :
    (comparatorRelease s).power = { s.power with ceiling := false } ∧ (comparatorRelease s).mem = s.mem
    ∧ (comparatorRelease s).sched = s.sched ∧ PowerRest s (comparatorRelease s)
    ∧ ∀ t, t < 96 → (comparatorRelease s).tile t = (s.tile t).rampStart := by
  obtain ⟨htile, hrest⟩ := tiles_fold (fun _ => TileSt.rampStart) 96 (s.modPower (fun p => { p with ceiling := false }))
  have hrun : comparatorRelease s = (List.range 96).foldl (fun s t => s.modTile t TileSt.rampStart)
      (s.modPower (fun p => { p with ceiling := false })) := if_pos h
  have hramps (t : Nat) (ht : t < 96) : (comparatorRelease s).tile t = (s.tile t).rampStart := hrun ▸ (htile t).trans (if_pos ht)
  rw [← hrun] at hrest
  exact ⟨(congrArg State.power hrest :), (congrArg State.mem hrest :), (congrArg State.sched hrest :),
    ⟨(congrArg State.dealers hrest :), (congrArg State.links hrest :), (congrArg State.col hrest :), (congrArg State.codec hrest :),
      (congrArg State.grade hrest :)⟩, hramps⟩

/-! The hardware limits and the input (R311, R445, R446). -/

theorem allFaulted_faultAll {s m : State} (h : m.sched = s.sched) (c : Code) : AllFaulted s (m.faultAll c) c :=
  fun j x hx => faultAll_job m c j x ((State.job_congr h j).trans hx)

/-- Reporting a code and faulting every job with it: jobs and logs alone differ (R424). -/
theorem report_faultAll_spec (s : State) (c : Code) : ((s.report c {}).faultAll c).power = s.power
    ∧ ((s.report c {}).faultAll c).tiles = s.tiles ∧ ((s.report c {}).faultAll c).mem = s.mem
    ∧ PowerRest s ((s.report c {}).faultAll c) ∧ AllFaulted s ((s.report c {}).faultAll c) c
    ∧ Logged s ((s.report c {}).faultAll c) c 0xFFFF := by
  have hfault := faultAll_rest (s.report c {}) c
  have hlogged := report_logged s c {}
  refine ⟨?_, ?_, ?_, (powerSame_report ..).rest.trans (powerRest_faultAll ..), allFaulted_faultAll (State.report_sched ..) c,
    logged_grow hlogged (Grows.of_eq ?_)⟩ <;> rw [hfault]
  · exact State.report_power ..
  · exact State.report_tiles ..
  · exact State.report_mem ..

/-- Power is removed from every tile (R445). -/
def State.powerCut (s : State) : State := (List.range 96).foldl (fun s t => s.modTile t TileSt.powerOff) s

theorem powerCut_spec (s : State) : s.powerCut = { s with tiles := s.powerCut.tiles }
    ∧ ∀ t, t < 96 → s.powerCut.tile t = (s.tile t).powerOff := by
  obtain ⟨htile, hrest⟩ := tiles_fold (fun _ => TileSt.powerOff) 96 s
  exact ⟨hrest, fun t ht => (htile t).trans (if_pos ht)⟩

/-- Every page loses its bytes (R445). -/
def State.losePages (s : State) : State := (s.mem.pages.map (·.1)).foldl State.losePage s

theorem losePages_spec (s : State) : s.losePages
    = { s with freeCtr := s.losePages.freeCtr, mem := { s.mem with bytes := s.losePages.mem.bytes } } := losePages_rest ..

/-- An analog trip faults every job, cuts the power and loses the pages (R445). -/
theorem analogTrip_steps (s : State) (h : s.power.tripped = false) : analogTrip s
    = ((s.report Codes.thermalTrip {}).faultAll Codes.thermalTrip).powerCut.losePages.modPower (fun p => { p with tripped := true }) :=
  if_neg (by rw [h]; exact Bool.false_ne_true)

theorem analogTrip_spec (s : State) (h : s.power.tripped = false) : (analogTrip s).power = { s.power with tripped := true }
    ∧ AllFaulted s (analogTrip s) Codes.thermalTrip ∧ Logged s (analogTrip s) Codes.thermalTrip 0xFFFF ∧ PowerRest s (analogTrip s)
    ∧ ∀ t, t < 96 → (analogTrip s).tile t = (s.tile t).powerOff := by
  rw [analogTrip_steps s h]
  obtain ⟨hpower, htiles, -, hrest, hfaulted, hlogged⟩ := report_faultAll_spec s Codes.thermalTrip
  generalize (s.report Codes.thermalTrip {}).faultAll Codes.thermalTrip = s1 at *
  obtain ⟨hcut, hoff⟩ := powerCut_spec s1
  have hlose := losePages_spec s1.powerCut
  generalize s1.powerCut.losePages = s3 at *
  generalize s1.powerCut = s2 at *
  have hsched : s3.sched = s1.sched := by rw [hlose, hcut]
  have hlogs : s3.logs = s1.logs := by rw [hlose, hcut]
  have hlost : PowerRest s1 s3 := by rw [hlose, hcut]; exact ⟨rfl, rfl, rfl, rfl, rfl⟩
  refine ⟨?_, fun j x hx => (State.job_congr hsched j).trans (hfaulted j x hx), logged_grow hlogged (Grows.of_eq hlogs),
    hrest.trans hlost, fun t ht => ?_⟩
  · rw [State.modPower, hlose, hcut, ← hpower]
  · have h32 : s3.tile t = s2.tile t := tile_congr (by rw [hlose]) t
    exact h32.trans ((hoff t ht).trans (congrArg TileSt.powerOff (tile_congr htiles t)))

theorem powerOff_run (x : TileSt) : x.powerOff.run = (if x.hand.isSome then .faulted else .idle) ∧ x.powerOff.dmas = [] := ⟨rfl, rfl⟩

theorem inputFails_spec (s : State) : s.inputFails.power = { s.power with powerFail := true } ∧ s.inputFails.mem.ftl.frozen = true
    ∧ AllFaulted s s.inputFails Codes.powerFail ∧ Logged s s.inputFails Codes.powerFail 0xFFFF ∧ PowerRest s s.inputFails
    ∧ ∀ t, t < 96 → s.inputFails.tile t = { s.tile t with pwr := { (s.tile t).pwr with budget := 0 } } := by
  obtain ⟨hbudget, hset⟩ := setBudgets_spec s []
  unfold State.inputFails
  dsimp only
  generalize s.setBudgets [] = s1 at *
  obtain ⟨s2, hs2⟩ : ∃ s2, s2 = (s1.modPower (fun p => { p with powerFail := true })).modFtl
    (fun f => { (if f.readOnly then f else f.programJournal) with frozen := true }) := ⟨_, rfl⟩
  obtain ⟨hpower, htiles, hmem, hrest, hfaulted, hlogged⟩ := report_faultAll_spec s2 Codes.powerFail
  rw [← hs2]
  generalize (s2.report Codes.powerFail {}).faultAll Codes.powerFail = s3 at *
  have hsched : s2.sched = s.sched := by rw [hs2, hset]; rfl
  have hlogs : s2.logs = s.logs := by rw [hs2, hset]; rfl
  have hkept : PowerRest s s2 := by rw [hs2, hset]; exact ⟨rfl, rfl, rfl, rfl, rfl⟩
  refine ⟨?_, ?_, fun j x hx => hfaulted j x ((State.job_congr hsched j).trans hx), logged_before (Grows.of_eq hlogs) hlogged,
    hkept.trans hrest, fun t ht => ?_⟩
  · rw [hpower, hs2, hset]; rfl
  · rw [hmem, hs2]; rfl
  · have h31 : s3.tiles = s1.tiles := by rw [htiles, hs2]; rfl
    exact (tile_congr h31 t).trans (hbudget t ht)

/-- The input's controls after one sample (R429, R446). -/
def PowerSt.sampled (p : PowerSt) (mv cur w : Nat) : PowerSt :=
  { p with volt := mv, current := cur, watt := w, sumW := p.sumW + w, samples := p.samples + 1,
           good := if mv < 44000 then 0 else if p.volt < 44000 then 0 else p.good + 1024, overVolt := decide (58000 < mv) }

/-- One sample taken, an excess noted, before it is found whether the input fails. -/
def State.sampled (s : State) (mv cur w : Nat) : State :=
  let s1 := s.modPower (fun p => p.sampled mv cur w)
  if 58000 < mv ∧ s.power.overVolt = false then s1.report Codes.inputRange {} else s1

theorem meterSample_eq (s : State) (mv cur w : Nat) : meterSample mv cur w s
    = if s.trimmed mv < 42000 ∧ s.power.powerFail = false then (s.sampled (s.trimmed mv) (s.trimmed cur) (s.trimmed w)).inputFails
      else s.sampled (s.trimmed mv) (s.trimmed cur) (s.trimmed w) := by
  unfold meterSample
  rfl

theorem sampled_spec (s : State) (mv cur w : Nat) : (s.sampled mv cur w).power = s.power.sampled mv cur w
    ∧ PowerSame s (s.sampled mv cur w) ∧ Grows s (s.sampled mv cur w)
    ∧ (58000 < mv → s.power.overVolt = false → Logged s (s.sampled mv cur w) Codes.inputRange 0xFFFF) := by
  have hlogged := report_logged (s.modPower (fun p => p.sampled mv cur w)) Codes.inputRange {}
  have hgrows := grows_report (s.modPower (fun p => p.sampled mv cur w)) Codes.inputRange {}
  by_cases h : 58000 < mv ∧ s.power.overVolt = false
  · have hrun : s.sampled mv cur w = (s.modPower (fun p => p.sampled mv cur w)).report Codes.inputRange {} := if_pos h
    rw [hrun]
    exact ⟨State.report_power .., (powerSame_modPower ..).trans (powerSame_report ..), hgrows, fun _ _ => hlogged⟩
  · have hrun : s.sampled mv cur w = s.modPower (fun p => p.sampled mv cur w) := if_neg h
    rw [hrun]
    exact ⟨rfl, powerSame_modPower .., Grows.of_eq rfl, fun hv ho => absurd ⟨hv, ho⟩ h⟩

theorem sampled_good (p : PowerSt) (mv cur w : Nat) : (mv < 44000 → (p.sampled mv cur w).good = 0)
    ∧ (44000 ≤ mv → 44000 ≤ p.volt → (p.sampled mv cur w).good = p.good + 1024) :=
  ⟨fun h => if_pos h, fun h hp => (if_neg (Nat.not_lt.2 h)).trans (if_neg (Nat.not_lt.2 hp))⟩

theorem meterSample_holds (s : State) (mv cur w : Nat) (h : 42000 ≤ s.trimmed mv ∨ s.power.powerFail = true) :
    meterSample mv cur w s = s.sampled (s.trimmed mv) (s.trimmed cur) (s.trimmed w) := by
  rw [meterSample_eq, if_neg]
  rintro ⟨hlow, hfail⟩
  rcases h with h | h
  · omega
  · simp [hfail] at h

theorem meterSample_fails (s : State) (mv cur w : Nat) (hlow : s.trimmed mv < 42000) (hfail : s.power.powerFail = false) :
    meterSample mv cur w s = (s.sampled (s.trimmed mv) (s.trimmed cur) (s.trimmed w)).inputFails := by
  rw [meterSample_eq, if_pos ⟨hlow, hfail⟩]

theorem powerRecovery_recovers (s : State) (hfail : s.power.powerFail = true) (hgood : 2000000 ≤ s.power.good) : powerRecovery s
    = (s.modPower (fun p => { p with powerFail := false })).modFtl (fun f => { f with frozen := false }) := if_pos ⟨hfail, hgood⟩

theorem powerRecovery_waits (s : State) (hgood : s.power.good < 2000000) : powerRecovery s = s :=
  if_neg fun h => Nat.not_lt.2 h.2 hgood

/-! The grade and the caps (R431, R434, R435, R444, R448). -/

/-- Jobs with a hand that have not had GRADE_UNHOLDABLE. -/
def State.unheld (s : State) : List Nat := (s.handJobs (List.range 96)).filter (fun j => match s.job j with
  | some x => !x.logged.contains Codes.gradeUnholdable.toNat
  | none => false)

theorem mem_unheld {s : State} {j : Nat} {x : JobSt} (hx : s.job j = some x) :
    j ∈ s.unheld ↔ j ∈ s.handJobs (List.range 96) ∧ Codes.gradeUnholdable.toNat ∉ x.logged := by
  simp [State.unheld, hx]

theorem gradeUnholdable_raises {s : State} {j : Nat} (hj : j ∈ s.unheld) (hbelow : s.power.live.holdWindow.toNat ≤ s.power.below) :
    gradeUnholdable s = (s.onceEach s.unheld Codes.gradeUnholdable {}).modPower (fun p => { p with demote := true, demotedAt := s.grade }) :=
  if_pos ⟨hbelow, by
    have hne : s.unheld.isEmpty = false := List.isEmpty_eq_false_iff.2 (List.ne_nil_of_mem hj)
    exact Bool.not_eq_true' _ ▸ hne⟩

theorem gradeUnholdable_spec {s : State} {j : Nat} {x : JobSt} (hj : j ∈ s.handJobs (List.range 96)) (hx : s.job j = some x)
    (hnew : Codes.gradeUnholdable.toNat ∉ x.logged) (hbelow : s.power.live.holdWindow.toNat ≤ s.power.below) :
    (gradeUnholdable s).power = { s.power with demote := true, demotedAt := s.grade }
      ∧ Logged s (gradeUnholdable s) Codes.gradeUnholdable 0xFFFF ∧ (gradeUnholdable s).tiles = s.tiles
      ∧ (gradeUnholdable s).mem = s.mem ∧ PowerRest s (gradeUnholdable s)
      ∧ ∀ k y, s.job k = some y → ∃ l, (gradeUnholdable s).job k = some { y with logged := l }
        ∧ (k ∈ s.handJobs (List.range 96) → Codes.gradeUnholdable.toNat ∈ l) := by
  have hmem := (mem_unheld hx).2 ⟨hj, hnew⟩
  obtain ⟨htiles, hmemory, hlinks, hdealers, hcol, hpower, hcodec, hgrade, -⟩ := onceEach_rest Codes.gradeUnholdable {} s.unheld s
  have hlogged : Logged s (s.onceEach s.unheld Codes.gradeUnholdable {}) Codes.gradeUnholdable 0xFFFF :=
    onceEach_logged Codes.gradeUnholdable {} s.unheld s j x hmem hx hnew
  rw [gradeUnholdable_raises hmem hbelow]
  refine ⟨?_, hlogged, htiles, hmemory, ⟨hdealers, hlinks, hcol, hcodec, hgrade⟩, fun k y hy => ?_⟩
  · rw [State.modPower, hpower]
  · obtain ⟨l, hl, hin, hkeep⟩ := onceEach_job Codes.gradeUnholdable {} s.unheld s k y hy
    refine ⟨l, hl, fun hk => ?_⟩
    by_cases hold : Codes.gradeUnholdable.toNat ∈ y.logged
    · exact hkeep _ hold
    · exact hin ((mem_unheld hy).2 ⟨hk, hold⟩)

theorem gradeChange_takes {s : State} {g : Nat} (htarget : s.power.target = some g) (hfree : s.holdsTiles = false)
    (hidle : ∀ q ∈ s.sched.jobs, ∀ x, q.2 = some x → x.phase ≠ .waiting ∧ x.phase ≠ .saved) :
    gradeChange s = { s with grade := g, power := { s.power with target := none } } := by
  simp only [gradeChange, htarget, hfree, Bool.false_eq_true, if_false]
  exact reapply_idle _ hidle

theorem gradeChange_waits {s : State} (hholds : s.holdsTiles = true) : gradeChange s = s := by
  cases htarget : s.power.target with
  | none => simp only [gradeChange, htarget]
  | some g => simp only [gradeChange, htarget, hholds, if_true]

theorem recalibrate_spec (s : State) : ∃ raw, (recalibrate s).power = { s.power with calK := max 0x2000 (min 0x8000 raw) }
    ∧ PowerSame s (recalibrate s) ∧ (raw < 0x2000 ∨ 0x8000 < raw → Logged s (recalibrate s) Codes.pwrCalibration 0xFFFF) := by
  let raw := s.draw.1.toNat % 2 ^ 32
  let s1 := s.draw.2.modPower (fun p => { p with calK := clampNat 0x2000 0x8000 raw })
  have hsame : PowerSame s s1 := powerSame_modPower ..
  have hlogged : Logged s (s1.report Codes.pwrCalibration {}) Codes.pwrCalibration 0xFFFF := report_logged s1 Codes.pwrCalibration {}
  refine ⟨raw, ?_⟩
  by_cases h : clampNat 0x2000 0x8000 raw = raw
  · have hrun : recalibrate s = s1 := if_pos h
    rw [hrun]
    exact ⟨rfl, hsame, fun hout => absurd h (by rw [clampNat]; omega)⟩
  · have hrun : recalibrate s = s1.report Codes.pwrCalibration {} := if_neg h
    rw [hrun]
    exact ⟨State.report_power .., hsame.trans (powerSame_report ..), fun _ => hlogged⟩

theorem capWrite_spec (s : State) (v : W32) : (capWrite v s).power
      = { s.power with cfg := { s.power.cfg with capW := clampNat 2000 s.fuses.fusedW (bitsOf v.toNat 12 0) } }
    ∧ PowerSame s (capWrite v s)
    ∧ (clampNat 2000 s.fuses.fusedW (bitsOf v.toNat 12 0) ≠ bitsOf v.toNat 12 0 → Logged s (capWrite v s) Codes.pwrCapRange 0xFFFF)
    ∧ (clampNat 2000 s.fuses.fusedW (bitsOf v.toNat 12 0) = bitsOf v.toNat 12 0 → (capWrite v s).logs = s.logs) := by
  let s1 := s.modPower (fun p => { p with cfg := { p.cfg with capW := clampNat 2000 s.fuses.fusedW (bitsOf v.toNat 12 0) } })
  have hsame : PowerSame s s1 := powerSame_modPower ..
  have hlogged : Logged s (s1.report Codes.pwrCapRange {}) Codes.pwrCapRange 0xFFFF := report_logged s1 Codes.pwrCapRange {}
  by_cases h : clampNat 2000 s.fuses.fusedW (bitsOf v.toNat 12 0) = bitsOf v.toNat 12 0
  · have hrun : capWrite v s = s1 := if_pos h
    rw [hrun]
    exact ⟨rfl, hsame, fun hne => absurd h hne, fun _ => rfl⟩
  · have hrun : capWrite v s = s1.report Codes.pwrCapRange {} := if_neg h
    rw [hrun]
    exact ⟨State.report_power .., hsame.trans (powerSame_report ..), fun _ => hlogged, fun he => absurd he h⟩

/-- Settles O52: each event's own lemma, an analog trip and an input failure in the order of their steps. -/
theorem powerEvents : Obligations.PowerEvents := by
  unfold Obligations.PowerEvents
  intro s
  refine ⟨fun t => ⟨?droop, ?droopEnd, ?rampEnd⟩, ?trip, ?release, ?analog, fun mv cur w => ?meter, ?recover, ?wait, ?unholdable,
    ?grade, ?held, ?calibration, fun w v => ⟨?cap, ?foreign⟩, fun w => ⟨?clear, ?clearForeign⟩⟩
  case droop =>
    obtain ⟨htile, hother, hdealer, hdealers, hrest⟩ := droopTrip_spec s t
    exact ⟨_, rfl, htile, hother, hdealer, hdealers, hrest, fun c => effBudget_zero _ _ _ (.inl (by rw [htile]))⟩
  case droopEnd => exact ⟨_, rfl, onlyTile_modTile .., State.tile_modTile_same ..⟩
  case rampEnd => exact ⟨_, rfl, onlyTile_modTile .., State.tile_modTile_same ..⟩
  case trip =>
    intro h
    have hlogged := report_logged (s.modPower (fun p => { p with ceiling := true })) Codes.pwrCeiling {}
    have hpower := State.report_power (s := s.modPower (fun p => { p with ceiling := true })) Codes.pwrCeiling {}
    refine ⟨_, congrArg Host.Outcome.next (comparatorTrip_trips s h), hpower, hlogged,
      (powerSame_modPower ..).trans (powerSame_report ..), fun t c => effBudget_ceiling _ t c ?_⟩
    rw [hpower]
    rfl
  case release =>
    exact fun h => ⟨congrArg Host.Outcome.next (if_pos h), _, rfl, comparatorRelease_ramps s h⟩
  case analog =>
    intro h
    obtain ⟨hpower, hfaulted, hlogged, hrest, htile⟩ := analogTrip_spec s h
    refine ⟨_, rfl, hpower, hfaulted, hlogged, hrest, fun t c => effBudget_zero _ _ _ (.inr (.inr (by rw [hpower]))), fun t ht => ?_⟩
    rw [htile t ht]
    exact powerOff_run _
  case meter =>
    obtain ⟨hpower, hsame, hgrows, hlogged⟩ := sampled_spec s (s.trimmed mv) (s.trimmed cur) (s.trimmed w)
    obtain ⟨hlow, hgood⟩ := sampled_good s.power (s.trimmed mv) (s.trimmed cur) (s.trimmed w)
    by_cases h : s.trimmed mv < 42000 ∧ s.power.powerFail = false
    case neg =>
      have hholds : 42000 ≤ s.trimmed mv ∨ s.power.powerFail = true := by
        rcases Nat.lt_or_ge (s.trimmed mv) 42000 with hv | hv
        · exact .inr (by simpa using fun hf => h ⟨hv, hf⟩)
        · exact .inl hv
      refine ⟨_, congrArg Host.Outcome.next (meterSample_holds s mv cur w hholds), ?_⟩
      rw [hpower]
      exact ⟨hsame.rest, rfl, rfl, rfl, rfl, rfl, rfl, hlow, hgood, hlogged, fun _ => ⟨hsame, rfl⟩, fun hv hf => absurd ⟨hv, hf⟩ h⟩
    case pos =>
      obtain ⟨hv, hfail⟩ := h
      obtain ⟨fpower, ffrozen, ffaulted, flogged, frest, ftile⟩ :=
        inputFails_spec (s.sampled (s.trimmed mv) (s.trimmed cur) (s.trimmed w))
      obtain ⟨htiles, -, hsched, hrest⟩ := hsame
      refine ⟨_, congrArg Host.Outcome.next (meterSample_fails s mv cur w hv hfail), hrest.trans frest, ?_⟩
      have hzero (t c : Nat) : (s.sampled (s.trimmed mv) (s.trimmed cur) (s.trimmed w)).inputFails.effBudget t c = 0 :=
        effBudget_zero _ _ _ (.inr (.inl (by rw [fpower])))
      rw [fpower, hpower]
      refine ⟨rfl, rfl, rfl, rfl, rfl, rfl, hlow, hgood, fun hover _ => absurd hover (by omega), fun h => ?_, fun _ _ => ⟨rfl, ?_, ?_, ffrozen, hzero, ?_⟩⟩
      · rcases h with h | h
        · omega
        · simp [hfail] at h
      · exact fun j x hx => ffaulted j x ((State.job_congr hsched j).trans hx)
      · exact logged_before hgrows flogged
      · exact fun t ht => (ftile t ht).trans (by rw [tile_congr htiles])
  case recover => exact fun hfail hgood => ⟨_, congrArg Host.Outcome.next (powerRecovery_recovers s hfail hgood), rfl, rfl, rfl, rfl,
      rfl, rfl, rfl, rfl, rfl⟩
  case wait => exact fun _ hgood => congrArg Host.Outcome.next (powerRecovery_waits s hgood)
  case unholdable => exact fun hbelow ⟨j, hj, x, hx, hnew⟩ => ⟨_, rfl, gradeUnholdable_spec hj hx hnew hbelow⟩
  case grade => exact fun g htarget hfree hidle => congrArg Host.Outcome.next (gradeChange_takes htarget hfree hidle)
  case held => exact fun hholds => congrArg Host.Outcome.next (gradeChange_waits hholds)
  case calibration =>
    obtain ⟨raw, h⟩ := recalibrate_spec s
    exact ⟨_, raw, rfl, h⟩
  case cap => exact fun hw => ⟨_, congrArg Host.Outcome.next (privileged_may s w (capWrite v) hw), capWrite_spec s v⟩
  case foreign => exact fun hw => ⟨_, rfl, privileged_refused s (capWrite v) hw⟩
  case clear => exact fun hw => congrArg Host.Outcome.next (privileged_may s w _ hw)
  case clearForeign => exact fun hw => ⟨_, rfl, privileged_refused s _ hw⟩

end Sys2Proof.Machine

namespace Sys2Proof.Machine

open Claims

/-! Cold and warm resets, and boot (R456, R473, R475 to R477, R495, R499). -/

/-- What an instruction that resets warm does: nothing in reset or recovery, else a boot of an empty machine that keeps the log. -/
def ResetsWarm (s : State) (env : BootEnv) (c : Instr) (cause : Nat) : Prop :=
  (s.boot.held = true ∨ s.boot.stage = 0xFE → exec c s = .next s)
  ∧ (s.boot.held = false → s.boot.stage ≠ 0xFE → ∃ m : State, exec c s = .next m ∧ EmptyMachine m ∧ SameOutside s m ∧ BootedTo s env m
      ∧ m.boot.cause = cause ∧ m.boot.slot = s.boot.slot ∧ m.boot.cxl = s.boot.cxl
      ∧ (∀ j, s.job j ≠ none → Logged s m Codes.deviceReset 0xFFFF) ∧ m.logs.global = s.logs.global)

theorem resetsWarm_of_exec {s : State} {env : BootEnv} {c : Instr} {cause : Nat} (h : exec c s = .next (s.warm cause env)) :
    ResetsWarm s env c cause :=
  ⟨fun hoff => h.trans (congrArg Host.Outcome.next (if_pos hoff)), fun hheld hstage => ⟨_, h, warm_to s cause env hheld hstage⟩⟩

theorem inputPowerLoss_to (s : State) : LoweredTo s
    { s.mem.ftl with journalLost := s.mem.ftl.journalLost || !s.mem.ftl.unjournaled.isEmpty } 0 (inputPowerLoss s) :=
  (lowered_to (s.modFtl (fun f => { f with journalLost := f.journalLost || !f.unjournaled.isEmpty })) 0 false).congr
    ⟨rfl, rfl, rfl, rfl, rfl, rfl⟩ rfl

theorem resetNPulse_ignored (s : State) {ns : Nat} (h : s.boot.held = true ∨ ns < 1000) : resetNPulse ns s = s := if_pos h

theorem resetNPulse_resets (s : State) {ns : Nat} (hheld : s.boot.held = false) (hns : 1000000 ≤ ns) :
    resetNPulse ns s = s.coldReset := by
  rw [resetNPulse, if_neg (by simp [hheld]; omega), if_pos hns]

theorem resetNPulse_either (s : State) {ns : Nat} (hheld : s.boot.held = false) (hlong : 1000 ≤ ns) (hshort : ns < 1000000) :
    resetNPulse ns s = s.draw.2.coldReset ∨ resetNPulse ns s = s.draw.2 := by
  rw [resetNPulse, if_neg (by simp [hheld]; omega), if_neg (by omega)]
  dsimp only
  split
  · exact .inl rfl
  · exact .inr rfl

/-- A cold boot starts from the straps read and the trip noted (R475, R495). -/
def State.powered (s : State) (env : BootEnv) : State :=
  (s.modBoot (fun b => { b with slot := env.slotPins, cxl := env.hostMode })).modPower
    (fun p => { p with tripSeen := p.tripped, tripped := false })

theorem coldBoot_boots (s : State) (env : BootEnv) (hheld : s.boot.held = true) : coldBoot env s = (s.powered env).bootSteps env :=
  if_neg (by rw [hheld]; exact Bool.false_ne_true)

theorem coldBoot_spec (s : State) (env : BootEnv) (hheld : s.boot.held = true) : BootedTo s env (coldBoot env s)
    ∧ SameOutside s (coldBoot env s) ∧ (coldBoot env s).boot.slot = env.slotPins ∧ (coldBoot env s).boot.cxl = env.hostMode
    ∧ (coldBoot env s).boot.cause = s.boot.cause ∧ (coldBoot env s).power.tripSeen = s.power.tripped
    ∧ (coldBoot env s).power.tripped = false ∧ (coldBoot env s).tiles = s.tiles ∧ (coldBoot env s).sched = s.sched
    ∧ (coldBoot env s).mem.bytes = s.mem.bytes := by
  obtain ⟨hkept, hbooted⟩ := bootSteps_spec (s.powered env) env
  rw [coldBoot_boots s env hheld]
  exact ⟨hbooted.congr rfl rfl rfl (Grows.of_eq rfl),
    ⟨hkept.pending, hkept.hostMem, hkept.outbox, hkept.fuses, hkept.spi, hkept.recordB⟩, hkept.slot, hkept.cxl, hkept.cause,
    congrArg PowerSt.tripSeen hkept.power, congrArg PowerSt.tripped hkept.power, hkept.tiles, hkept.sched, hkept.bytes⟩

theorem bootStageTimeout_stops (s : State) (hheld : s.boot.held = true) : ∃ k, 1 ≤ k ∧ k ≤ 11
    ∧ (bootStageTimeout s).boot.stage = k ∧ (bootStageTimeout s).boot.held = false
    ∧ Logged s (bootStageTimeout s) Codes.bootStageTimeout 0xFFFF ∧ (bootStageTimeout s).tiles = s.tiles
    ∧ (bootStageTimeout s).mem = s.mem ∧ (bootStageTimeout s).sched = s.sched := by
  let k := 1 + s.draw.1.toNat % 11
  let s1 := s.draw.2.modBoot (fun b => { b with held := false, stage := k })
  have hrun : bootStageTimeout s = s1.report Codes.bootStageTimeout { data := natLe 1 k } := if_pos hheld
  have hlogged := report_logged s1 Codes.bootStageTimeout { data := natLe 1 k }
  rw [hrun, report_boot]
  exact ⟨k, Nat.le_add_right _ _, by omega, rfl, rfl, hlogged, State.report_tiles .., State.report_mem .., State.report_sched ..⟩

theorem exec_warmReset_may (s : State) {w : Iface} (v : W32) (env : BootEnv) (hw : w = .board ∨ w = .host 0) :
    exec (.warmReset w v env) s = .next (if (resetKeyOk v && bitOf v.toNat 15) = true then s.warm 5 env else s) :=
  congrArg Host.Outcome.next (privileged_may s w _ hw)

theorem resetKeyOk_iff (v : W32) : (resetKeyOk v && bitOf v.toNat 15) = true
    ↔ bitsOf v.toNat 31 16 = 0xB007 ∧ bitOf v.toNat 15 = true := by
  rw [Bool.and_eq_true, resetKeyOk, beq_iff_eq]

/-- Settles O56: every reset lowers the machine or boots it warm, and every boot runs the same steps. -/
theorem resets : Obligations.Resets := by
  unfold Obligations.Resets
  refine ⟨reset_empty, rfl, rfl, rfl, fun s => ⟨?powerOn, ?powered, ?loss, ?ignored, ?pulse, ?between, ?booted, ?boot, ?timeout, ?late, ?warm⟩⟩
  case powerOn => exact fun hheld => ⟨_, congrArg Host.Outcome.next (if_pos hheld), lowered_to s 0 false⟩
  case powered => exact fun hheld => congrArg Host.Outcome.next (if_neg (by rw [hheld]; exact Bool.false_ne_true))
  case loss => exact ⟨_, rfl, inputPowerLoss_to s⟩
  case ignored => exact fun ns h => congrArg Host.Outcome.next (resetNPulse_ignored s h)
  case pulse => exact fun ns hheld hns => ⟨_, congrArg Host.Outcome.next (resetNPulse_resets s hheld hns), coldReset_to s⟩
  case between =>
    intro ns hheld hlong hshort
    rcases resetNPulse_either s hheld hlong hshort with h | h
    · exact ⟨_, congrArg Host.Outcome.next h, .inr ((coldReset_to s.draw.2).congr ⟨rfl, rfl, rfl, rfl, rfl, rfl⟩ rfl)⟩
    · exact ⟨_, congrArg Host.Outcome.next h, .inl rfl⟩
  case booted => exact fun env hheld => congrArg Host.Outcome.next (if_pos (by rw [hheld]; rfl))
  case boot => exact fun env hheld => ⟨_, rfl, coldBoot_spec s env hheld⟩
  case timeout =>
    intro hheld
    obtain ⟨k, h⟩ := bootStageTimeout_stops s hheld
    exact ⟨_, k, rfl, h⟩
  case late => exact fun hheld => congrArg Host.Outcome.next (if_neg (by rw [hheld]; exact Bool.false_ne_true))
  case warm =>
    refine fun env => ⟨resetsWarm_of_exec rfl, resetsWarm_of_exec rfl, resetsWarm_of_exec rfl, resetsWarm_of_exec rfl,
      fun w v => ⟨fun hw hkey => resetsWarm_of_exec ?_, fun hw hkey => ?_, fun hw => ?_⟩⟩
    · rw [exec_warmReset_may s v env hw, if_pos ((resetKeyOk_iff v).2 hkey)]
    · rw [exec_warmReset_may s v env hw, if_neg fun h => hkey ((resetKeyOk_iff v).1 h)]
    · obtain ⟨i, hunit, hrun⟩ := privileged_not s w
        (fun s => if (resetKeyOk v && bitOf v.toNat 15) = true then s.warm 5 env else s) hw
      refine ⟨_, congrArg Host.Outcome.next hrun, hunit ▸ report_logged .., ?_, State.report_tiles .., State.report_mem ..,
        State.report_sched ..⟩
      rw [report_boot]

end Sys2Proof.Machine

namespace Sys2Proof.Machine

open Claims

/-! States that meet the hypotheses of O31 to O35 and O39. -/

/-- A FLASH_BACKED object of one page, page 0, that job 1 owns, and a SYNC of which may wait. -/
def backedObject (syncing : Option Pending) : ObjectSt :=
  { pages := 1, attr := 2, place := 0, arg := 0, name := 0, owner := .job 1, func := 0, freeing := none, syncing := syncing,
    removeName := false }

def backedPage (place : PageWhere) : PageSt := { object := 0, place := place, written := false, arrived := 0, logical := some 0 }

/-- A flash tier of three superblocks of four stripes: 0 is closed and holds logical page 0, 1 is open and holds page 1. -/
def smallTier : FtlSt :=
  { FtlSt.init with
    logicalPages := 4, superblocks := 3, stripesPerSb := 4, budget := 100, journal := 3,
    sbs := [(0, ⟨.closed, [some 0, none], 5, 0⟩), (1, ⟨.open, [some 1], 0, 0⟩)], store := [(7, 0x2A)] }

/-- A module with the tier and the object, whose job 1 is live and whose function 0 has its aperture on. -/
def tierState (place : PageWhere) (syncing : Option Pending) : State :=
  let s := (State.reset.modFtl (fun _ => smallTier)).setPage 0 (some (backedPage place))
  let s := (s.setObject 0 (some (backedObject syncing))).setJob 1 (some (trainingJob .init))
  { s with sched := { s.sched with aperture := s.sched.aperture.set 0 0 (BitVec.ofNat 64 (2 ^ 63)) } }

/-- O31 applies to a memory-side ADD of the codec's job: an INT32 at its largest unsigned value wraps to 0. -/
theorem unifiedAccesses_wraps :
    let s := (tierState (.resident 0) none).writeLe 0x1000 4 0xFFFFFFFF
    ∃ s', exec (.memorySideOperation (.codec 1) .add .int32 0x1000 [1, 0, 0, 0]) s = .next s' ∧ s'.readLe 0x1000 4 = 0 := by
  intro s
  obtain ⟨-, hside⟩ := unifiedAccesses s (.codec 1) 0x1000 1 reqCodec 0 rfl
  obtain ⟨s', hexec, -, -, -, helem⟩ := hside .add .int32 [1, 0, 0, 0] (by decide) (by decide) (by decide)
  obtain ⟨hadd, -⟩ := helem 0 (by decide)
  exact ⟨s', hexec, (hadd rfl (.inl rfl)).trans (by decide)⟩

/-- O32 applies to a FetchAdd of function 0: it returns the old bytes, and adds. -/
theorem hostAccesses_adds :
    let s := (tierState (.resident 0) none).writeLe 0x1000 4 41
    ∃ s', exec (.hostAtomicFetchAdd 0 0x1000 false 1) s = .next s' ∧ s'.readLe 0x1000 4 = 42
      ∧ s'.outbox = [.readData [41, 0, 0, 0]] := by
  intro s
  obtain ⟨s', hexec, -, -, -, hgranted⟩ := hostAccesses s 0 0x1000 4 (.hostAtomicFetchAdd 0 0x1000 false 1)
    (.inr (.inr ⟨false, 1, rfl, by decide, rfl⟩))
  obtain ⟨-, -, hadd⟩ := hgranted (by decide) (by decide) (by decide)
  obtain ⟨hread, hsum, -⟩ := hadd false 1 rfl
  have haddr : bitsOf (s.sched.aperture.get 0 (0 : Func).val).toNat 11 0 * 2 ^ 36 + (0x1000 : BitVec 36).toNat = 0x1000 := by decide
  rw [haddr] at hsum hread
  exact ⟨s', hexec, hsum.trans (by decide), hread.trans (by decide)⟩

/-- O33 applies to a migration that arrives: the page is resident, with the byte that flash holds. -/
theorem migrations_arrives : ∃ s', exec (.migrationComplete 0 true) (tierState (.migratingIn 600) none) = .next s'
    ∧ (s'.page 0).map (·.place) = some (.resident 600) ∧ s'.mem.bytes.get 0 7 = 0x2A := by
  obtain ⟨-, hin, -⟩ := migrations (tierState (.migratingIn 600) none) 0 (backedPage (.migratingIn 600)) (backedObject none)
    rfl rfl rfl
  obtain ⟨s', hexec, -, -, harrives, -⟩ := hin 600 true rfl
  obtain ⟨hpage, hbytes, -⟩ := harrives (by decide)
  exact ⟨s', hexec, by rw [hpage]; rfl, (hbytes 7 (by decide)).trans (by decide)⟩

/-- O33 applies to a flash read that fails: the page goes back, and job 1 faults. -/
theorem migrations_fails : ∃ s', exec (.migrationComplete 0 false) (tierState (.migratingIn 600) none) = .next s'
    ∧ (s'.page 0).map (·.place) = some .flash
    ∧ s'.job 1 = some { trainingJob .init with fault := some Codes.flashUncorrectable } := by
  obtain ⟨-, hin, -⟩ := migrations (tierState (.migratingIn 600) none) 0 (backedPage (.migratingIn 600)) (backedObject none)
    rfl rfl rfl
  obtain ⟨s', hexec, -, -, -, hfails⟩ := hin 600 false rfl
  obtain ⟨hpage, -, -, -, hjob⟩ := hfails (by decide)
  exact ⟨s', hexec, by rw [hpage]; rfl, hjob 1 (trainingJob .init) rfl rfl (by decide)⟩

/-- O35 applies: the object has no written page, so the SYNC ends with the journal programmed. -/
theorem syncCompletes_ends : ∃ m : State, exec (.objectSyncComplete 0) (tierState (.resident 0) (some ⟨some 0, 7, 0x91, 0⟩))
    = .next (m.finishObject ⟨some 0, 7, 0x91, 0⟩ 0 none) ∧ m.mem.ftl.journal = 0 := by
  obtain ⟨-, hwaits⟩ := syncCompletes (tierState (.resident 0) (some ⟨some 0, 7, 0x91, 0⟩)) 0
    (backedObject (some ⟨some 0, 7, 0x91, 0⟩)) rfl rfl (by decide)
  obtain ⟨-, hends⟩ := hwaits ⟨some 0, 7, 0x91, 0⟩ rfl
  obtain ⟨-, hdone⟩ := hends rfl
  obtain ⟨m, hexec, -, -, hjournal, -⟩ := hdone (by decide) (by decide)
  exact ⟨m, hexec, hjournal⟩

/-- O39 applies: superblock 0 is collected, and its one valid stripe goes to the open superblock 1. -/
theorem flashUpkeep_collects : ∃ s', exec .garbageCollection (tierState (.resident 0) none) = .next s'
    ∧ (s'.mem.ftl.sb 0).erases = 6 ∧ some 0 ∈ (s'.mem.ftl.sb 1).stripes ∧ s'.mem.ftl.spent = 1 := by
  obtain ⟨hgc, -⟩ := flashUpkeep (tierState (.resident 0) none)
  obtain ⟨hroom, -⟩ := hgc 0 (by decide) (by decide) (by decide)
  obtain ⟨s', hexec, -, -, -, herases, -, hcopied, -, -, -, hspent, -⟩ := hroom 1 (by decide)
  exact ⟨s', hexec, herases, hcopied 0 (by decide), hspent⟩

end Sys2Proof.Machine

namespace Sys2Proof.Machine

open Claims

/-! States that meet the hypotheses of O34, O50 to O52 and O56. -/

/-- Ring 0 is active; its next entry, in host memory, is an OBJECT entry whose request asks for a SYNC of the object at 0. -/
def ringState : State :=
  let s := tierState (.resident 0) none
  let s := s.setObject 0 (some { backedObject none with owner := .ring 0 })
  let s := s.setRing 0 { RingSt.init with active := true, sq := 0x2000, sqTail := 1 }
  { s with hostMem := ((s.hostMem.setRange 0 0x2000 [0x91, 0x20]).setRange 0 0x2010 [0x00, 0x30]).setRange 0 0x3000 [0x61, 0x20, 3] }

/-- O34 applies: the entry is taken, and the SYNC waits. -/
theorem objectRequests_waits : ∃ p, exec (.objectSync 0) ringState
    = .next ((ringState.consume 0).setObject 0 (some { backedObject (some p) with owner := .ring 0 })) := by
  have hfront : ringState.frontEntry 0 = some (ringState.entryBytes 0) := by decide
  obtain ⟨-, -, -, hsync⟩ := objectRequests ringState 0 (ringState.entryBytes 0) hfront (by decide) (by decide) (by decide)
    (by decide) (by decide)
  obtain ⟨hwaits, -⟩ := hsync (by decide) (by decide) { backedObject none with owner := .ring 0 } (by decide) (by decide) rfl rfl
    (by decide)
  exact ⟨_, hwaits rfl⟩

/-- Test 3 of the board, of tile 5, is alone in the queue. -/
def testState : State := State.reset.modBoot (fun b => { b with queue := [⟨3, 1, 5, true, false⟩] })

/-- O50 applies: the scan starts it. -/
theorem requestedTests_starts : ∃ m : State, exec .testQueueScan testState = .next m ∧ m.boot.queue = [⟨3, 1, 5, true, true⟩] := by
  obtain ⟨-, -, -, -, -, -, hscan, -⟩ := requestedTests testState
  obtain ⟨-, hstarts⟩ := hscan ⟨3, 1, 5, true, false⟩ rfl rfl
  obtain ⟨m, hexec, hqueue, -⟩ := hstarts (by decide) (by decide)
  exact ⟨m, hexec, hqueue⟩

/-- The local log of compute die 1 holds one record, and has dropped two. -/
def loggedState : State :=
  let r : ErrRec := { code := Codes.bistFail, sev := 0, cls := 2, idx := 1, func := 0, unit := 0, job := 0, data := [], time := 0 }
  { State.reset with logs := { State.reset.logs with locals := State.reset.logs.locals.set .init 129 ⟨[r], 2⟩ } }

/-- O51 applies: the record enters the global ring, and the two dropped are counted by a record of their own. -/
theorem calibrationAndRecords_collects : ∃ (m : State) (r : ErrRec), exec (.errorLogCollection 2 1) loggedState = .next m
    ∧ m.logs.global.seq = 1 ∧ (m.logs.locals.get .init 129).recs = [r] ∧ r.code = Codes.logOverrun := by
  obtain ⟨-, -, hcollects, -⟩ := calibrationAndRecords loggedState
  obtain ⟨m, hexec, hseq, -, -, hoverrun, -⟩ := hcollects 2 1
  obtain ⟨r, hrecs, hcode⟩ := hoverrun (by decide)
  exact ⟨m, r, hexec, hseq, hrecs, hcode⟩

/-- O52 applies to a sample of 41 V: the input fails, and job 1 faults. -/
theorem powerEvents_inputFails : ∃ m : State, exec (.meterSample 41000 5 200) (tierState (.resident 0) none) = .next m
    ∧ m.power.powerFail = true ∧ m.job 1 = some { trainingJob .init with fault := some Codes.powerFail } := by
  obtain ⟨-, -, -, -, hmeter, -⟩ := powerEvents (tierState (.resident 0) none)
  obtain ⟨m, hexec, -, -, -, -, -, -, -, -, -, -, -, hfails⟩ := hmeter 41000 5 200
  obtain ⟨hfail, hfaulted, -⟩ := hfails (by decide) rfl
  exact ⟨m, hexec, hfail, hfaulted 1 (trainingJob .init) rfl⟩

/-- O56 applies to the conductor's watchdog on a running module: job 1 is gone, with its record. -/
theorem resets_watchdog (env : BootEnv) :
    let s := (tierState (.resident 0) none).modBoot (fun b => { b with held := false, stage := 0xFF })
    ∃ m : State, exec (.conductorWatchdog env) s = .next m ∧ m.job 1 = none ∧ Logged s m Codes.deviceReset 0xFFFF
      ∧ m.boot.cause = 6 := by
  intro s
  obtain ⟨-, -, -, -, hresets⟩ := resets
  obtain ⟨-, -, -, -, -, -, -, -, -, -, hwarm⟩ := hresets s
  obtain ⟨-, -, -, ⟨-, hwatchdog⟩, -⟩ := hwarm env
  obtain ⟨m, hexec, ⟨hjobs, -⟩, -, -, hcause, -, -, hlogged, -⟩ := hwatchdog rfl (by decide)
  exact ⟨m, hexec, hjobs 1, hlogged 1 (by decide), hcause⟩

end Sys2Proof.Machine

namespace Sys2Proof.Machine

/-! Streams that open, close and decode (R323 to R325, R328, R333, R339, R400). -/

/-- A stream put in a slot, with its STATUS and ERROR written. -/
theorem putStream_spec (s : State) (v i : Nat) (y : Option StreamSt) (x : StreamSt) (st : Nat) (c : Code) :
    let m := (s.setStream v i y).streamStatus x st c
    m.stream v i = y ∧ m.readLe (x.addr + 0x78) 2 = st % 65536 ∧ m.tiles = s.tiles
      ∧ ∀ u k, (u, k) ≠ (v, i) → m.stream u k = s.stream u k := by
  obtain ⟨hstatus, -, hcodec, htiles, -⟩ := status_word (s.setStream v i y) x st c
  refine ⟨?_, hstatus, htiles, fun u k hne => ?_⟩
  · rw [stream_congr hcodec, stream_setStream, if_pos rfl]
  · rw [stream_congr hcodec, stream_setStream, if_neg hne]

/-- The stream of a descriptor opened in a slot. -/
def State.openStream (s : State) (v i a j : Nat) (d : StreamDesc) : State :=
  (s.setStream v i (some (.opened a j d))).streamStatus (.opened a j d) 0 0

section Entry

variable {s : State} {r : Nat} {e : List Byte}

/-- A descriptor that breaches R323 opens nothing. -/
theorem codecOpen_refused {x : JobSt} (hjob : s.job (fieldLe e 0x18 4) = some x) (hring : x.ring = r)
    (hbad : s.streamBad (fieldLe e 0x18 4) (fieldLe e 0x10 8) = true) :
    codecOpen r e s = (s.consume r).finishEntry r e Codes.codecDesc := by
  simp only [codecOpen, hjob, if_neg (not_not.2 hring), if_pos hbad]

theorem codecOpen_opens {x : JobSt} (hjob : s.job (fieldLe e 0x18 4) = some x) (hring : x.ring = r)
    (hgood : s.streamBad (fieldLe e 0x18 4) (fieldLe e 0x10 8) = false) {v i : Nat}
    (hpick : s.pickEngine (streamDescOf (s.readMem (fieldLe e 0x10 8) 128)).encode ((x.places.head?.map (·.die)).getD 0) = some v)
    (hslot : (List.range 64).find? (fun k => (s.stream v k).isNone) = some i) :
    codecOpen r e s = ((s.consume r).openStream v i (fieldLe e 0x10 8) (fieldLe e 0x18 4)
        (streamDescOf (s.readMem (fieldLe e 0x10 8) 128))).complete r
      { kind := 0x92, job := fieldLe e 0x18 4, tag := entryTag e, result := v * 256 + i } := by
  simp only [codecOpen, hjob, if_neg (not_not.2 hring), hgood, Bool.false_eq_true, if_false, hpick, hslot]
  rfl

/-- The lowest free slot of an engine. -/
theorem find_freeSlot {v i : Nat} (hi : i < 64) (hfree : s.stream v i = none) (hlow : ∀ k < i, s.stream v k ≠ none) :
    (List.range 64).find? (fun k => (s.stream v k).isNone) = some i :=
  find_low _ i 64 hi (by rw [hfree]; rfl) fun k hk => by simpa [Option.isSome_iff_ne_none] using hlow k hk

theorem codecClose_closes (hlive : s.liveOn r (fieldLe e 0x18 4) = true) {x : StreamSt}
    (hx : s.stream (fieldLe e 0x1C 1) (fieldLe e 0x1D 1) = some x) (hjob : x.job = fieldLe e 0x18 4) :
    codecClose r e s = ((s.consume r).closeStream (fieldLe e 0x1C 1) (fieldLe e 0x1D 1) x
        (BitVec.ofNat 16 (s.readLe (x.addr + 0x7A) 2))).complete r
      { kind := 0x93, job := fieldLe e 0x18 4, tag := entryTag e } := by
  simp only [codecClose, hlive, Bool.not_true, Bool.false_eq_true, if_false, hx, if_pos hjob]

end Entry

/-! The input entry that a decoder takes (R324). -/

/-- Address of the next input entry of a stream. -/
def State.inEntry (s : State) (x : StreamSt) : Nat := x.desc.inBase + 16 * (s.inRd x % x.desc.inEntries)

def State.inAddr (s : State) (x : StreamSt) : Nat := s.readLe (s.inEntry x) 8
def State.inLen (s : State) (x : StreamSt) : Nat := s.readLe (s.inEntry x + 8) 4
def State.inFlags (s : State) (x : StreamSt) : Nat := s.readLe (s.inEntry x + 12) 4

/-- The entry is malformed. -/
def State.InputBad (s : State) (x : StreamSt) : Prop :=
  s.inLen x = 0 ∧ s.inFlags x % 2 = 0 ∨ 2 ^ 28 < s.inLen x ∨ s.inFlags x / 2 ≠ 0

/-- The entry names an access unit that the stream's job may read. -/
def State.InputOk (s : State) (x : StreamSt) : Prop :=
  ¬s.InputBad x ∧ s.checkAccesses (.job x.job) [(s.inEntry x, 16), (s.inAddr x, s.inLen x)] = none ∧ s.inLen x ≠ 0

/-- The engine notes the slot that it serves (R325). -/
def State.served (s : State) (v slot : Nat) : State := s.modEngine v (fun y => { y with last := slot })

@[simp] theorem served_frames (s : State) (v slot : Nat) : ((s.served v slot).engine v).frames = (s.engine v).frames := by
  rw [State.served, State.modEngine, engine_setEngine, if_pos rfl]

/-- IN_RD moves past the entry. -/
def State.advance (s : State) (x : StreamSt) (rd : Nat) : State := s.writeLe (x.addr + 0x58) 8 ((rd + 1) % 2 ^ 64)

theorem advance_inRd (s : State) (x : StreamSt) (rd : Nat) : (s.advance x rd).readLe (x.addr + 0x58) 8 = (rd + 1) % 2 ^ 64 := by
  rw [State.advance, State.readLe_writeLe, sub_counter]

theorem advance_other (s : State) (x : StreamSt) (rd : Nat) {a n : Nat} (h : a + n ≤ x.addr + 0x58 ∨ x.addr + 0x60 ≤ a) :
    (s.advance x rd).readLe a n = s.readLe a n := State.readLe_writeLe_other _ _ _ _ _ _ h

section Decoder

variable {s : State} {v slot : Nat} {x : StreamSt} {out : AuOutcome} (hnext : s.nextStream v = some (slot, x))
include hnext

theorem decodeAccessUnit_malformed (hbad : s.InputBad x) :
    decodeAccessUnit v out s = (s.served v slot).stopStream v slot x Codes.codecInput :=
  (step_eq s v out slot x hnext _ _ _ _ _ rfl rfl rfl rfl rfl).1 hbad

/-- An access unit whose decoding stops the stream (R339). -/
theorem decodeAccessUnit_stops (hok : s.InputOk x) {m : State}
    (hau : (s.served v slot).decodeAu v slot x (s.readMem (s.inAddr x) (s.inLen x)) out = .stop m) :
    decodeAccessUnit v out s = m.advance x (s.inRd x) := by
  obtain ⟨hgood, haccess, hlen⟩ := hok
  rw [(step_eq s v out slot x hnext (s.inRd x) (s.inEntry x) (s.inAddr x) (s.inLen x) (s.inFlags x) rfl rfl rfl rfl rfl).2
    hgood haccess hlen, ← State.served, hau]
  rfl

/-- An access unit that does not end its sequence, and leaves the stream as `y`. -/
theorem decodeAccessUnit_goes (hok : s.InputOk x) (hflags : s.inFlags x = 0) {m : State} {y : StreamSt}
    (hau : (s.served v slot).decodeAu v slot x (s.readMem (s.inAddr x) (s.inLen x)) out = .go m y) :
    decodeAccessUnit v out s = (m.advance x (s.inRd x)).setStream v slot (some y) := by
  obtain ⟨hgood, haccess, hlen⟩ := hok
  rw [(step_eq s v out slot x hnext (s.inRd x) (s.inEntry x) (s.inAddr x) (s.inLen x) (s.inFlags x) rfl rfl rfl rfl rfl).2
    hgood haccess hlen, ← State.served, hau]
  exact if_neg (by rw [hflags]; decide)

end Decoder

/-- What the end of an access unit leaves: the stream in its slot, IN_RD past the entry, and the rest as decoding left it. -/
theorem taken_spec (m : State) (v slot rd : Nat) (x y : StreamSt) :
    let m' := (m.advance x rd).setStream v slot (some y)
    m'.tiles = m.tiles ∧ m'.readLe (x.addr + 0x58) 8 = (rd + 1) % 2 ^ 64 ∧ m'.stream v slot = some y
      ∧ (m'.engine v).frames = (m.engine v).frames := by
  refine ⟨State.tiles_writeLe .., advance_inRd .., ?_, ?_⟩
  · rw [stream_setStream, if_pos rfl]
  · rw [State.setStream, State.modEngine, engine_setEngine, if_pos rfl]
    exact congrArg (fun c : SMap EngineSt => (c.get .init v).frames) (codec_writeMem ..)

/-- A discard starts a run, or counts one more access unit in the run (R333). -/
theorem discardAu_spec (s : State) (v slot : Nat) (x : StreamSt) (offset : Nat) :
    let p := s.discardAu v slot x offset
    p.1.tiles = s.tiles
      ∧ (x.run = none → p.2.run = some ⟨1, s.inRd x, offset⟩ ∧ p.2.status = 1 ∧ p.2.seq = none
          ∧ p.1.readLe (x.addr + 0x78) 2 = 1 ∧ ∀ i b, p.2.bufs.get none i = some b → b.ref = false)
      ∧ ∀ z, x.run = some z → p.2.run = some { z with count := z.count + 1 } := by
  unfold State.discardAu
  cases hrun : x.run with
  | none =>
    obtain ⟨hstatus, -, -, htiles, -⟩ := status_word s x 1 0
    exact ⟨(State.report_tiles ..).trans htiles,
      fun _ => ⟨rfl, rfl, rfl, (report_readLe ..).trans hstatus, clearRefs_spec x⟩, nofun⟩
  | some r => exact ⟨rfl, nofun, fun z hz => by cases hz; rfl⟩

/-- The stream with buffer `i` next in its output order. -/
def StreamSt.queued (x : StreamSt) (i : Nat) : StreamSt :=
  { x.modBuf i (fun b => { b with out := true }) with order := x.order ++ [(i, x.frame)], frame := x.frame + 1 }

theorem queued_spec {x : StreamSt} {i : Nat} {b : PicBuf} (hb : x.bufs.get none i = some b) :
    (x.queued i).bufs.get none i = some { b with out := true }
      ∧ (∀ k, k ≠ i → (x.queued i).bufs.get none k = x.bufs.get none k) ∧ (x.queued i).inputs = x.inputs := by
  refine ⟨(bufs_modBuf x i i _).trans ?_, fun k hk => (bufs_modBuf x i k _).trans (if_neg hk), ?_⟩
  · simp only [if_true, hb, Bool.or_true, Bool.true_or]
  · show (x.modBuf i _).inputs = x.inputs
    rw [StreamSt.modBuf, hb]
    rfl

/-- What an access unit of one picture leaves is what the picture leaves, with its outputs enqueued. -/
theorem decodeAu_one {s m : State} {v slot : Nat} {x z : StreamSt} {bytes : List Byte} {p : PicOutcome} (outs : List Nat)
    (hdec : State.decodePic v slot (.go s { x with inputs := x.inputs ++ [bytes] }) p = .go m z) :
    s.decodeAu v slot x bytes (.pictures [p] outs) = .go (m.enqueue v slot z outs).1 (m.enqueue v slot z outs).2 := by
  simp only [State.decodeAu, List.foldl_cons, List.foldl_nil, hdec]

/-- The buffer holds the picture: its marks, and what was concealed in it. -/
structure HoldsPicture (x : StreamSt) (p : PicOutcome) (q : SeqInfo) (b : PicBuf) : Prop where
  ref : b.ref = true
  out : b.out = p.shown
  seq : b.seq = q
  cls : b.cls = p.cls
  concealed : b.concealed = p.concealed
  substitute : b.substitute = p.substitute
  resumed : b.resumed = x.resumed

section Picture

variable {s : State} {v slot : Nat} {x : StreamSt} {bytes : List Byte} {p : PicOutcome} {q : SeqInfo} {i : Nat}
  (hold : p.newSeq = none) (hseq : x.seq = some q) (hopen : x.status = 0) (hdrop : p.dropRefs = []) (href : p.isRef = true)
  (hi : i < x.desc.poolBufs) (hfree : x.bufs.get none i = none) (hlow : ∀ k < i, x.bufs.get none k ≠ none)
include hold hseq hopen hdrop href hi hfree hlow

/-- A reference picture of the active sequence takes the lowest free buffer (R328). -/
theorem decodePic_takes : ∃ (m : State) (z : StreamSt) (b : PicBuf),
    State.decodePic v slot (.go s { x with inputs := x.inputs ++ [bytes] }) p = .go m z
      ∧ m.tiles = s.tiles ∧ (m.engine v).frames = BitVec.ofNat 32 (min (2 ^ 32 - 1) ((s.engine v).frames.toNat + 1))
      ∧ HoldsPicture x p q b ∧ (∀ k, z.bufs.get none k = if k = i then some b else x.bufs.get none k)
      ∧ z.order = x.order ∧ z.frame = x.frame ∧ z.inputs = x.inputs ++ [bytes] := by
  obtain ⟨m, b, lc, hdec, hbref, hout, hbseq, hconcealed, hsubst, hresumed, hcls, htiles, hframes, -⟩ :=
    decodePic_spec v slot s { x with inputs := x.inputs ++ [bytes] } p q i hold hseq hopen hdrop hi hfree hlow
  have hmark : b.ref = true := hbref.trans href
  exact ⟨m, _, b, hdec, htiles, hframes, ⟨hmark, hout, hbseq, hcls, hconcealed, hsubst, hresumed⟩,
    fun k => (bufs_setBuf _ i k b).trans (by rw [hmark]; rfl), rfl, rfl, rfl⟩

/-- It is counted, and enters the output order when the outcome outputs it. -/
theorem decodeAu_picture (shown : Bool) (hcls : p.cls = 0) (horder : ∀ w ∈ x.order, w.1 ≠ i) :
    ∃ (m : State) (y : StreamSt), s.decodeAu v slot x bytes (.pictures [p] (if shown then [i] else [])) = .go m y
      ∧ m.tiles = s.tiles ∧ (m.engine v).frames = BitVec.ofNat 32 (min (2 ^ 32 - 1) ((s.engine v).frames.toNat + 1))
      ∧ (∃ b, y.bufs.get none i = some b ∧ b.ref = true ∧ b.out = (shown || p.shown) ∧ b.seq = q
          ∧ b.concealed = p.concealed ∧ b.substitute = p.substitute ∧ b.resumed = x.resumed)
      ∧ (∀ k, k ≠ i → y.bufs.get none k = x.bufs.get none k)
      ∧ y.order = x.order ++ (if shown then [(i, x.frame)] else []) ∧ y.inputs = x.inputs ++ [bytes] := by
  obtain ⟨m, z, b, hdec, htiles, hframes, hb, hbufs, hord, hframe, hinputs⟩ :=
    decodePic_takes (s := s) (v := v) (slot := slot) (bytes := bytes) hold hseq hopen hdrop href hi hfree hlow
  have hin : z.bufs.get none i = some b := (hbufs i).trans (if_pos rfl)
  cases shown with
  | false =>
    exact ⟨m, z, decodeAu_one [] hdec, htiles, hframes,
      ⟨b, hin, hb.ref, hb.out, hb.seq, hb.concealed, hb.substitute, hb.resumed⟩, fun k hk => (hbufs k).trans (if_neg hk),
      by rw [hord]; exact (List.append_nil _).symm, hinputs⟩
  | true =>
    have hnew : z.order.any (fun w => w.1 == i) = false := by
      rw [hord, List.any_eq_false]
      exact fun w hw => by simpa using horder w hw
    have henq : m.enqueue v slot z [i] = (m, z.queued i) := enqueue_one m v slot z i b hin hnew (hb.cls.trans hcls)
    obtain ⟨hshown, hothers, hkept⟩ := queued_spec hin
    exact ⟨m, z.queued i, (decodeAu_one [i] hdec).trans (by rw [henq]), htiles, hframes,
      ⟨_, hshown, hb.ref, rfl, hb.seq, hb.concealed, hb.substitute, hb.resumed⟩,
      fun k hk => (hothers k hk).trans ((hbufs k).trans (if_neg hk)),
      by rw [← hord, ← hframe]; rfl, hkept.trans hinputs⟩

end Picture

/-- Settles O40: an entry opens or closes one stream, and a decoder takes one input entry with one outcome per case. -/
theorem codecStreams : Obligations.CodecStreams := by
  unfold Obligations.CodecStreams
  intro s word
  refine ⟨fun r e hfront hcode => ⟨fun htype x hx hring => ⟨fun hbad => ?refused,
      fun v i hgood hkind hv hused hbest hi hfree hlow => ?opens⟩,
    fun htype hlive x hx hjob => ?closes⟩, fun v out slot x hnext => ⟨fun hbad => ?malformed, fun hok hout => ?unsupported,
    fun offset hok hflags hout => ?discards,
    fun p q i shown hok hflags hout hold hseq hopen hdrop hcls href hi hfree hlow horder _ => ?picture⟩⟩
  case refused =>
    exact congrArg Host.Outcome.next ((takeEntry_go hfront hcode htype).trans (codecOpen_refused hx hring hbad))
  case opens =>
    have hpick := pickEngine_min s _ _ v hv hkind hused hbest
    obtain ⟨hstream, hstatus, htiles, hothers⟩ := putStream_spec (s.consume r) v i
      (some (.opened (fieldLe e 0x10 8) (fieldLe e 0x18 4) (streamDescOf (s.readMem (fieldLe e 0x10 8) 128))))
      (.opened (fieldLe e 0x10 8) (fieldLe e 0x18 4) (streamDescOf (s.readMem (fieldLe e 0x10 8) 128))) 0 0
    exact ⟨_, congrArg Host.Outcome.next ((takeEntry_go hfront hcode htype).trans
      (codecOpen_opens hx hring hgood hpick (find_freeSlot hi hfree hlow))), hstream, hstatus, htiles, hothers⟩
  case closes =>
    obtain ⟨hstream, hstatus, htiles, hothers⟩ := putStream_spec (s.consume r) (fieldLe e 0x1C 1) (fieldLe e 0x1D 1) none x 3
      (BitVec.ofNat 16 (s.readLe (x.addr + 0x7A) 2))
    exact ⟨_, congrArg Host.Outcome.next ((takeEntry_go hfront hcode htype).trans (codecClose_closes hlive hx hjob)),
      hstream, hstatus, htiles, hothers⟩
  case malformed =>
    obtain ⟨hstream, hstatus, herror, htiles, -⟩ := stop_spec (s.served v slot) v slot x Codes.codecInput
    exact ⟨_, congrArg Host.Outcome.next (decodeAccessUnit_malformed hnext hbad), ⟨hstream, hstatus, herror⟩, htiles⟩
  case unsupported =>
    subst hout
    obtain ⟨hstream, hstatus, herror, htiles, -⟩ := stop_spec (s.served v slot) v slot x Codes.codecUnsupported
    have hword {a n : Nat} := advance_other ((s.served v slot).stopStream v slot x Codes.codecUnsupported) x (s.inRd x) (a := a) (n := n)
    exact ⟨_, congrArg Host.Outcome.next (decodeAccessUnit_stops hnext hok rfl), (State.tiles_writeLe ..).trans htiles,
      ⟨(stream_writeLe ..).trans hstream, (hword (by omega)).trans hstatus, (hword (by omega)).trans herror⟩, advance_inRd ..⟩
  case discards =>
    subst hout
    let x1 : StreamSt := { x with inputs := x.inputs ++ [s.readMem (s.inAddr x) (s.inLen x)] }
    obtain ⟨htiles, hstarts, hgoes⟩ := discardAu_spec (s.served v slot) v slot x1 offset
    obtain ⟨htaken, hread, hstream, -⟩ := taken_spec ((s.served v slot).discardAu v slot x1 offset).1 v slot (s.inRd x) x
      ((s.served v slot).discardAu v slot x1 offset).2
    refine ⟨_, _, congrArg Host.Outcome.next (decodeAccessUnit_goes hnext hok hflags rfl), htaken.trans htiles, hread, hstream,
      fun hrun => ?_, hgoes⟩
    obtain ⟨hnewRun, hstatus, hseq, hword, hrefs⟩ := hstarts hrun
    exact ⟨hnewRun, hstatus, hseq, (advance_other _ x _ (by omega)).trans hword, hrefs⟩
  case picture =>
    subst hout
    obtain ⟨m, y, hau, htiles, hframes, hbuf, hkept, hentered, hinputs⟩ := decodeAu_picture (s := s.served v slot) (v := v)
      (slot := slot) (bytes := s.readMem (s.inAddr x) (s.inLen x)) hold hseq hopen hdrop href hi hfree hlow shown hcls horder
    obtain ⟨htaken, hread, hstream, hcount⟩ := taken_spec m v slot (s.inRd x) x y
    rw [served_frames] at hframes
    exact ⟨_, y, congrArg Host.Outcome.next (decodeAccessUnit_goes hnext hok hflags hau), htaken.trans htiles, hread, hstream,
      hcount.trans hframes, hbuf, hkept, hentered, hinputs⟩

end Sys2Proof.Machine

namespace Sys2Proof.Machine

/-! Writes in order, and the fields of what they write. -/

/-- Two writes that touch no common byte. -/
def WritesApart (p q : Nat × List Byte) : Prop := p.1 + p.2.length ≤ q.1 ∨ q.1 + q.2.length ≤ p.1

theorem writeAll_same (ws : List (Nat × List Byte)) :
    ∀ s : State, (s.writeAll ws).tiles = s.tiles ∧ (s.writeAll ws).codec = s.codec := by
  induction ws with
  | nil => exact fun s => ⟨rfl, rfl⟩
  | cons w ws ih =>
    intro s
    obtain ⟨htiles, hcodec⟩ := ih (s.writeMem w.1 w.2)
    exact ⟨htiles.trans (tiles_writeMem ..), hcodec.trans (codec_writeMem ..)⟩

theorem readMem_writeAll_other {ws : List (Nat × List Byte)} {b n : Nat} :
    ∀ s : State, (∀ w ∈ ws, b + n ≤ w.1 ∨ w.1 + w.2.length ≤ b) → (s.writeAll ws).readMem b n = s.readMem b n := by
  induction ws with
  | nil => exact fun s _ => rfl
  | cons w ws ih =>
    intro s h
    obtain ⟨hw, hws⟩ := List.forall_mem_cons.1 h
    exact (ih (s.writeMem w.1 w.2) hws).trans (State.readMem_writeMem_other _ _ _ _ _ hw)

/-- Writes that are apart each read back. -/
theorem readMem_writeAll {ws : List (Nat × List Byte)} {w : Nat × List Byte} :
    ∀ s : State, ws.Pairwise WritesApart → w ∈ ws → (s.writeAll ws).readMem w.1 w.2.length = w.2 := by
  induction ws with
  | nil => exact fun s _ hw => nomatch hw
  | cons u ws ih =>
    intro s h hw
    obtain ⟨hu, hws⟩ := List.pairwise_cons.1 h
    rcases List.mem_cons.1 hw with rfl | hw
    · exact (readMem_writeAll_other (s.writeMem w.1 w.2) hu).trans (State.readMem_writeMem ..)
    · exact ih (s.writeMem u.1 u.2) hws hw

/-- Rows one pitch apart that fit the pitch. -/
theorem rows_apart {row : Nat → List Byte} {pitch : Nat} (hfit : ∀ y, (row y).length ≤ pitch) (base n : Nat) :
    ((List.range n).map (fun y => (base + y * pitch, row y))).Pairwise WritesApart := by
  rw [List.pairwise_map]
  refine List.pairwise_lt_range.imp fun {y z} hlt => .inl ?_
  have hle : (y + 1) * pitch ≤ z * pitch := Nat.mul_le_mul_right _ hlt
  have hy := hfit y
  simp only [Nat.add_mul, Nat.one_mul] at hle ⊢
  omega

theorem State.readLe_lt (s : State) (a n : Nat) : s.readLe a n < 256 ^ n := by
  have h := leNat_lt (s.readMem a n)
  rwa [State.readMem, SMap.getRange_length] at h

/-- The first field of a record, and a field after the first. -/
theorem fieldLe_head (n v : Nat) (bs : List Byte) : fieldLe (natLe n v ++ bs) 0 n = v % 256 ^ n := by
  rw [fieldLe, List.drop_zero, field_app]

theorem fieldLe_tail (k u o n : Nat) (bs : List Byte) : fieldLe (natLe k u ++ bs) (o + k) n = fieldLe bs o n := by
  rw [fieldLe, Nat.add_comm o k, drop_app, fieldLe]

/-- A field of bytes that memory holds. -/
theorem readLe_field {m : State} {a : Nat} {bs : List Byte} (h : m.readMem a bs.length = bs) {o n : Nat} (ho : o + n ≤ bs.length) :
    m.readLe (a + o) n = fieldLe bs o n := by
  rw [State.readLe, ← readMem_take m a bs.length o n ho, h, fieldLe]

/-! The output unit (R329, R330). -/

/-- Samples of a row of luma, and of a row of interleaved chroma, at surface depth `e`. -/
def StreamSt.lumaRow (x : StreamSt) (b : PicBuf) (e y : Nat) : List Byte :=
  (List.range b.seq.cropW).flatMap (fun p => surfBytes e (toDepth b.seq.depth e (x.sample b 0 p y)))

def StreamSt.chromaRow (x : StreamSt) (b : PicBuf) (e y : Nat) : List Byte :=
  (List.range (ceilDiv b.seq.cropW 2)).flatMap (fun p =>
    (if b.seq.chroma = 0 then [2 ^ (e - 1), 2 ^ (e - 1)]
     else [1, 2].map (fun pl => toDepth b.seq.depth e (x.chroma420 b pl p y))).flatMap (surfBytes e))

/-- Row `y` of the surface: the chroma rows stand below the luma rows. -/
def StreamSt.surfRow (x : StreamSt) (b : PicBuf) (e y : Nat) : List Byte :=
  if y < b.seq.cropH then x.lumaRow b e y else x.chromaRow b e (y - b.seq.cropH)

/-- Rows of the surface. -/
def PicBuf.rows (b : PicBuf) : Nat := b.seq.cropH + ceilDiv b.seq.cropH 2

theorem surfRows_eq (x : StreamSt) (b : PicBuf) (pitch e : Nat) :
    x.surfRows b pitch e = (List.range b.rows).map (fun y => (y * pitch, x.surfRow b e y)) := by
  rw [PicBuf.rows, List.range_add, List.map_append, List.map_map]
  refine congrArg₂ (· ++ ·) (List.map_congr_left fun y hy => ?_) (List.map_congr_left fun y _ => ?_)
  · rw [StreamSt.surfRow, if_pos (List.mem_range.1 hy)]
    rfl
  · rw [Function.comp_apply, StreamSt.surfRow, if_neg (by omega), Nat.add_sub_cancel_left]
    rfl

/-- The writes of a picture's surface at `surf`. -/
def StreamSt.surfWrites (x : StreamSt) (b : PicBuf) (surf pitch e : Nat) : List (Nat × List Byte) :=
  (x.surfRows b pitch e).map (fun w => (surf + w.1, w.2))

theorem surfWrites_eq (x : StreamSt) (b : PicBuf) (surf pitch e : Nat) :
    x.surfWrites b surf pitch e = (List.range b.rows).map (fun y => (surf + y * pitch, x.surfRow b e y)) := by
  rw [StreamSt.surfWrites, surfRows_eq, List.map_map]
  rfl

/-- What the output unit writes in an output entry, from byte 0x10 on. -/
def PicBuf.entry (b : PicBuf) (frame : Nat) : List Byte :=
  natLe 8 frame ++ natLe 2 b.seq.cropW ++ natLe 2 b.seq.cropH
    ++ natLe 4 ((if 0 < b.concealed then 1 else 0) + (if b.substitute then 2 else 0) + (if b.resumed then 4 else 0))
    ++ natLe 4 b.concealed ++ natLe 4 0 ++ natLe 8 0

/-- The next output entry of a stream. -/
def State.outEntry (s : State) (x : StreamSt) : Nat := x.desc.outBase + 64 * (s.outDone x % x.desc.outEntries)

def State.outSurf (s : State) (x : StreamSt) : Nat := s.readLe (s.outEntry x) 8
def State.outPitch (s : State) (x : StreamSt) : Nat := s.readLe (s.outEntry x + 8) 4
def State.outDepth (s : State) (x : StreamSt) : Nat := if s.readLe (s.outEntry x + 12) 1 % 2 = 0 then 8 else 10

/-- The writes of a picture: its surface, and its entry. -/
def State.outputWrites (s : State) (x : StreamSt) (b : PicBuf) (frame : Nat) : List (Nat × List Byte) :=
  x.surfWrites b (s.outSurf x) (s.outPitch x) (s.outDepth x) ++ [(s.outEntry x + 0x10, b.entry frame)]

/-- Surface and entry of a picture written, and OUT_DONE advanced. -/
def State.outputTo (s : State) (x : StreamSt) (b : PicBuf) (frame : Nat) : State :=
  (s.writeAll (s.outputWrites x b frame)).addInt64 (x.addr + 0x68) 1

/-- The rows of the picture fit the pitch, and its surface, its entry and the descriptor are apart. -/
structure OutputLaid (s : State) (x : StreamSt) (b : PicBuf) : Prop where
  fit : ∀ y, (x.lumaRow b (s.outDepth x) y).length ≤ s.outPitch x ∧ (x.chromaRow b (s.outDepth x) y).length ≤ s.outPitch x
  entry : s.outSurf x + b.rows * s.outPitch x ≤ s.outEntry x ∨ s.outEntry x + 64 ≤ s.outSurf x
  desc : s.outSurf x + b.rows * s.outPitch x ≤ x.addr ∨ x.addr + 128 ≤ s.outSurf x
  apart : x.addr + 128 ≤ s.outEntry x ∨ s.outEntry x + 64 ≤ x.addr

theorem entry_length (b : PicBuf) (frame : Nat) : (b.entry frame).length = 32 := by simp [PicBuf.entry]

/-- The fields of an output entry of a picture. -/
theorem entry_fields {m : State} {a frame : Nat} {b : PicBuf} (h : m.readMem (a + 0x10) (b.entry frame).length = b.entry frame) :
    m.readLe (a + 0x10) 8 = frame % 2 ^ 64 ∧ m.readLe (a + 0x18) 2 = b.seq.cropW % 2 ^ 16
      ∧ m.readLe (a + 0x1A) 2 = b.seq.cropH % 2 ^ 16
      ∧ m.readLe (a + 0x1C) 4 = (if 0 < b.concealed then 1 else 0) + (if b.substitute then 2 else 0) + (if b.resumed then 4 else 0)
      ∧ m.readLe (a + 0x20) 4 = b.concealed % 2 ^ 32 := by
  have hfield {o n : Nat} (ho : o + n ≤ 32) : m.readLe (a + 0x10 + o) n = fieldLe (b.entry frame) o n :=
    readLe_field h (by rwa [entry_length])
  simp only [PicBuf.entry, List.append_assoc] at hfield
  refine ⟨(hfield (o := 0) (by omega)).trans (fieldLe_head ..), (hfield (o := 8) (by omega)).trans ?_,
    (hfield (o := 10) (by omega)).trans ?_,
    (hfield (o := 12) (by omega)).trans ?_, (hfield (o := 16) (by omega)).trans ?_⟩
  · rw [fieldLe_tail 8 _ 0, fieldLe_head]
    rfl
  · rw [fieldLe_tail 8 _ 2, fieldLe_tail 2 _ 0, fieldLe_head]
    rfl
  · rw [fieldLe_tail 8 _ 4, fieldLe_tail 2 _ 2, fieldLe_tail 2 _ 0, fieldLe_head, Nat.mod_eq_of_lt (by split_ifs <;> omega)]
  · rw [fieldLe_tail 8 _ 8, fieldLe_tail 2 _ 6, fieldLe_tail 2 _ 4, fieldLe_tail 4 _ 0, fieldLe_head]
    rfl

section Output

variable {s : State} {x : StreamSt} {i frame : Nat} {rest : List (Nat × Nat)} {b : PicBuf}

theorem pictureOutput_outputs {v slot : Nat} (hx : s.stream v slot = some x) (horder : x.order = (i, frame) :: rest)
    (hb : x.bufs.get none i = some b) (hposted : s.outDone x ≠ s.outWr x) (hsurf : x.desc.surf = true)
    (htensor : x.desc.tensor = false) (hstats : x.desc.stats = false)
    (haccess : s.checkAccesses (.job x.job) ((s.outEntry x, 64)
      :: (x.surfWrites b (s.outSurf x) (s.outPitch x) (s.outDepth x)).map (fun w => (w.1, w.2.length))) = none) :
    pictureOutput v slot s = (s.outputTo x b frame).setStream v slot (some (x.outputDone i)) := by
  simp only [pictureOutput, hx, horder, hb, if_neg hposted, hsurf, htensor, hstats, if_true, Bool.false_eq_true, if_false,
    List.append_nil]
  split
  · next err herr => exact nomatch haccess.symm.trans herr
  · rfl

/-- The marks of a buffer whose picture has been output (R328). -/
theorem outputDone_spec (horder : x.order = (i, frame) :: rest) (hb : x.bufs.get none i = some b) :
    (x.outputDone i).order = rest
      ∧ (x.outputDone i).bufs.get none i = if b.ref then some { b with out := false, conv := false } else none := by
  refine ⟨by simp [StreamSt.outputDone, horder], (bufs_modBuf x i i _).trans ?_⟩
  simp only [if_true, hb, Bool.or_false]

variable (h : OutputLaid s x b)
include h

theorem surfRow_fits (y : Nat) : (x.surfRow b (s.outDepth x) y).length ≤ s.outPitch x := by
  unfold StreamSt.surfRow
  split
  · exact (h.fit y).1
  · exact (h.fit _).2

/-- Every write of the surface stays within its rows. -/
theorem surfWrites_within : ∀ w ∈ x.surfWrites b (s.outSurf x) (s.outPitch x) (s.outDepth x),
    s.outSurf x ≤ w.1 ∧ w.1 + w.2.length ≤ s.outSurf x + b.rows * s.outPitch x := by
  intro w hw
  rw [surfWrites_eq] at hw
  obtain ⟨y, hy, rfl⟩ := List.mem_map.1 hw
  have hlen := surfRow_fits h y
  have hle : (y + 1) * s.outPitch x ≤ b.rows * s.outPitch x := Nat.mul_le_mul_right _ (List.mem_range.1 hy)
  rw [Nat.add_mul, Nat.one_mul] at hle
  dsimp only
  omega

theorem outputWrites_apart : (s.outputWrites x b frame).Pairwise WritesApart := by
  refine List.pairwise_append.2 ⟨?_, List.pairwise_singleton _ _, fun w hw u hu => ?_⟩
  · rw [surfWrites_eq]
    exact rows_apart (surfRow_fits h) _ _
  · obtain rfl := List.mem_singleton.1 hu
    have hin := surfWrites_within h w hw
    have hentry := h.entry
    simp only [WritesApart, entry_length]
    omega

/-- The descriptor of the stream is not written but for OUT_DONE. -/
theorem outputWrites_desc : ∀ w ∈ s.outputWrites x b frame, x.addr + 128 ≤ w.1 ∨ w.1 + w.2.length ≤ x.addr := by
  intro w hw
  rcases List.mem_append.1 hw with hw | hw
  · have hin := surfWrites_within h w hw
    have hdesc := h.desc
    omega
  · obtain rfl := List.mem_singleton.1 hw
    have hapart := h.apart
    simp only [entry_length]
    omega

/-- Each of the writes stands in the memory that the output leaves. -/
theorem readMem_outputTo {w : Nat × List Byte} (hw : w ∈ s.outputWrites x b frame) :
    (s.outputTo x b frame).readMem w.1 w.2.length = w.2 := by
  refine (State.readMem_writeMem_other _ _ _ _ _ ?_).trans (readMem_writeAll s (outputWrites_apart h) hw)
  have hdesc := outputWrites_desc h w hw
  rw [natLe_length]
  omega

theorem readMem_surfRow {y : Nat} (hy : y < b.rows) : (s.outputTo x b frame).readMem (s.outSurf x + y * s.outPitch x)
    (x.surfRow b (s.outDepth x) y).length = x.surfRow b (s.outDepth x) y := by
  refine readMem_outputTo h (w := (s.outSurf x + y * s.outPitch x, x.surfRow b (s.outDepth x) y)) (List.mem_append_left _ ?_)
  rw [surfWrites_eq]
  exact List.mem_map_of_mem (List.mem_range.2 hy)

theorem readMem_lumaRow : ∀ y < b.seq.cropH, (s.outputTo x b frame).readMem (s.outSurf x + y * s.outPitch x)
    (x.lumaRow b (s.outDepth x) y).length = x.lumaRow b (s.outDepth x) y := by
  intro y hy
  have hrow := readMem_surfRow (frame := frame) h (y := y) (by rw [PicBuf.rows]; omega)
  rwa [StreamSt.surfRow, if_pos hy] at hrow

theorem readMem_chromaRow : ∀ y < ceilDiv b.seq.cropH 2, (s.outputTo x b frame).readMem
    (s.outSurf x + (b.seq.cropH + y) * s.outPitch x) (x.chromaRow b (s.outDepth x) y).length = x.chromaRow b (s.outDepth x) y := by
  intro y hy
  have hrow := readMem_surfRow (frame := frame) h (y := b.seq.cropH + y) (by rw [PicBuf.rows]; omega)
  rwa [StreamSt.surfRow, if_neg (by omega), Nat.add_sub_cancel_left] at hrow

theorem readMem_entry : (s.outputTo x b frame).readMem (s.outEntry x + 0x10) (b.entry frame).length = b.entry frame :=
  readMem_outputTo h (w := (s.outEntry x + 0x10, b.entry frame)) (List.mem_append_right _ (List.mem_singleton.2 rfl))

/-- OUT_DONE counts the picture. -/
theorem outDone_outputTo : (s.outputTo x b frame).readLe (x.addr + 0x68) 8 = (s.outDone x + 1) % 2 ^ 64 := by
  rw [State.outputTo, State.readLe_addInt64]
  refine congrArg (fun d => (d + 1) % 2 ^ 64) (congrArg leNat (readMem_writeAll_other s fun w hw => ?_))
  have hdesc := outputWrites_desc h w hw
  omega

end Output

/-! The encoder (R337, R338). -/

/-- A field of the parameters of an encoding stream. -/
def State.encParam (s : State) (x : StreamSt) (o n : Nat) : Nat := s.readLe (x.desc.aux + o) n

/-- Flags of the next input entry of an encoding stream. -/
def State.encFlags (s : State) (x : StreamSt) : Nat := s.readLe (s.inEntry x + 8) 8

/-- Where the coded bytes go, and how many fit. -/
def State.encBuf (s : State) (x : StreamSt) : Nat := s.readLe (s.outEntry x) 8
def State.encCap (s : State) (x : StreamSt) : Nat := s.readLe (s.outEntry x + 8) 4

/-- The rows of the frame to code. -/
def State.encRows (s : State) (x : StreamSt) : List (Nat × Nat) :=
  (List.range (s.encParam x 4 2 + s.encParam x 4 2 / 2)).map (fun y =>
    (s.readLe (s.inEntry x) 8 + y * s.encParam x 8 4, s.encParam x 2 2 * (1 + s.encParam x 6 1)))

/-- The next frame is a key frame (R337). -/
def State.encKey (s : State) (x : StreamSt) : Bool :=
  x.sinceKey == 0 || bitOf (s.encFlags x) 1 || (s.encParam x 0xC 4 != 0 && x.sinceKey % s.encParam x 0xC 4 == 0)

/-- Its QP (R337). -/
def State.encQp (s : State) (x : StreamSt) : Nat :=
  if s.encKey x then s.encParam x 0x11 1 else
    match x.lastQp with
    | none => s.encParam x 0x12 1
    | some q => if s.encParam x 0x10 1 = 0 then s.encParam x 0x12 1
        else nextQp q x.lastBits (s.encParam x 0x18 4) (s.encParam x 0x13 1) (s.encParam x 0x14 1)

/-- Length of the coded frame: a free value (log entry 14). -/
def State.encLen (s : State) : Nat := 1 + s.draw.1.toNat % (2 ^ 32 - 1)

/-- What is written of it, and IN_RD past its entry. -/
def State.encoded (s : State) (v slot : Nat) (x : StreamSt) : State :=
  (({ s.served v slot with freeCtr := s.freeCtr + 3 }).writeMem (s.encBuf x)
    ((List.range (min s.encLen (s.encCap x))).map (Config.freeByte (s.freeCtr + 1)))).advance x (s.inRd x)

/-- What an encoder writes in an output entry, from byte 0x10 on. -/
def State.encEntry (s : State) (x : StreamSt) : List Byte :=
  natLe 8 x.frame ++ natLe 4 s.encLen ++ natLe 1 (if s.encKey x then 0 else 1) ++ natLe 1 (s.encQp x)

/-- The stream after a frame that fits. -/
def State.encNext (s : State) (x : StreamSt) : StreamSt :=
  { x with
    frame := x.frame + 1, sinceKey := if bitOf (s.encFlags x) 0 then 0 else x.sinceKey + 1,
    lastQp := if s.encKey x then x.lastQp else some (s.encQp x), lastBits := 8 * s.encLen }

/-- The entry of a frame that fits, and OUT_DONE. -/
def State.encFits (s : State) (v slot : Nat) (x : StreamSt) : State :=
  (((s.encoded v slot x).writeMem (s.outEntry x + 0x10) (s.encEntry x)).writeLe (s.outEntry x + 0x28) 8 0).addInt64 (x.addr + 0x68) 1

/-- The frame counted, and the stream after it. -/
def State.encDone (s : State) (v slot : Nat) (x : StreamSt) : State :=
  ((s.encFits v slot x).modEngine v (fun y => { y with frames := BitVec.ofNat 32 (satAdd (2 ^ 32 - 1) y.frames.toNat 1) })).setStream
    v slot (some (s.encNext x))

/-- The stream stopped by a frame that does not fit. -/
def State.encStopped (s : State) (v slot : Nat) (x : StreamSt) : State :=
  ((s.encoded v slot x).modEngine v (fun y => { y with events := BitVec.ofNat 32 (satAdd (2 ^ 32 - 1) y.events.toNat 1) })).stopStream
    v slot x Codes.codecOutputOverflow

section Encoder

variable {s : State} {v slot : Nat} {x : StreamSt} (hnext : s.nextStream v = some (slot, x))

section Run
include hnext

theorem encodeFrame_reserved (hflags : 4 ≤ s.encFlags x) :
    encodeFrame v s = (s.served v slot).stopStream v slot x Codes.codecInput := by
  simp only [encodeFrame, hnext]
  exact if_pos hflags

variable (hflags : s.encFlags x < 4) (hstats : x.desc.stats = false)
  (haccess : s.checkAccesses (.job x.job) ([(s.inEntry x, 16), (s.outEntry x, 64), (s.encBuf x, min s.encLen (s.encCap x))]
    ++ s.encRows x) = none)
include hflags hstats haccess

theorem encodeFrame_overflows (hover : s.encCap x < s.encLen) :
    encodeFrame v s = s.encStopped v slot x := by
  simp only [encodeFrame, hnext, hstats, Bool.false_eq_true, if_false, List.append_nil]
  refine (if_neg (Nat.not_le.2 hflags)).trans ?_
  split
  · next err herr => exact nomatch haccess.symm.trans herr
  · exact if_pos hover

theorem encodeFrame_fits (hfits : s.encLen ≤ s.encCap x) :
    encodeFrame v s = s.encDone v slot x := by
  simp only [encodeFrame, hnext, hstats, Bool.false_eq_true, if_false, List.append_nil]
  refine (if_neg (Nat.not_le.2 hflags)).trans ?_
  split
  · next err herr => exact nomatch haccess.symm.trans herr
  · exact if_neg (Nat.not_lt.2 hfits)

end Run
theorem encLen_pos (s : State) : 1 ≤ s.encLen := Nat.le_add_right _ _

theorem encLen_lt (s : State) : s.encLen < 2 ^ 32 := by
  rw [State.encLen]
  omega

theorem encKey_iff : s.encKey x = true ↔ x.sinceKey = 0 ∨ s.encFlags x / 2 % 2 = 1
    ∨ s.encParam x 0xC 4 ≠ 0 ∧ x.sinceKey % s.encParam x 0xC 4 = 0 := by
  simp [State.encKey, bitOf, or_assoc]

theorem encNext_sinceKey : (s.encNext x).sinceKey = if s.encFlags x % 2 = 1 then 0 else x.sinceKey + 1 :=
  if_congr (by simp [bitOf]) rfl rfl

theorem encQp_key (hkey : s.encKey x = true) : s.encQp x = s.encParam x 0x11 1 := if_pos hkey

/-- Without rate control, or before an inter frame, the QP of an inter frame is a parameter. -/
theorem encQp_constant (hkey : ¬s.encKey x = true) (h : x.lastQp = none ∨ s.encParam x 0x10 1 = 0) :
    s.encQp x = s.encParam x 0x12 1 := by
  rw [State.encQp, if_neg hkey]
  cases hlast : x.lastQp with
  | none => rfl
  | some q => exact if_pos (h.resolve_left (by simp [hlast]))

theorem encQp_rate (hkey : ¬s.encKey x = true) {q : Nat} (hlast : x.lastQp = some q) (hrate : s.encParam x 0x10 1 ≠ 0) :
    s.encQp x = nextQp q x.lastBits (s.encParam x 0x18 4) (s.encParam x 0x13 1) (s.encParam x 0x14 1) := by
  rw [State.encQp, if_neg hkey, hlast]
  exact if_neg hrate

theorem encQp_lt : s.encQp x < 256 := by
  have hbyte (o : Nat) : s.encParam x o 1 < 256 := State.readLe_lt ..
  by_cases hkey : s.encKey x = true
  · exact (encQp_key hkey).trans_lt (hbyte _)
  · by_cases hconst : x.lastQp = none ∨ s.encParam x 0x10 1 = 0
    · exact (encQp_constant hkey hconst).trans_lt (hbyte _)
    · obtain ⟨hlast, hrate⟩ := not_or.1 hconst
      obtain ⟨q, hq⟩ := Option.ne_none_iff_exists'.1 hlast
      exact (encQp_rate hkey hq hrate).trans_lt ((Nat.min_le_left ..).trans_lt (hbyte _))

theorem encEntry_length : (s.encEntry x).length = 14 := by simp [State.encEntry]

/-- The fields of an output entry of a coded frame. -/
theorem encEntry_fields {m : State} {a : Nat} (h : m.readMem (a + 0x10) (s.encEntry x).length = s.encEntry x) :
    m.readLe (a + 0x10) 8 = x.frame % 2 ^ 64 ∧ m.readLe (a + 0x18) 4 = s.encLen
      ∧ m.readLe (a + 0x1C) 1 = (if s.encKey x then 0 else 1) ∧ m.readLe (a + 0x1D) 1 = s.encQp x := by
  have hfield {o n : Nat} (ho : o + n ≤ 14) : m.readLe (a + 0x10 + o) n = fieldLe (s.encEntry x) o n :=
    readLe_field h (by rwa [encEntry_length])
  simp only [State.encEntry, List.append_assoc] at hfield
  refine ⟨(hfield (o := 0) (by omega)).trans (fieldLe_head ..), (hfield (o := 8) (by omega)).trans ?_,
    (hfield (o := 12) (by omega)).trans ?_,
    (hfield (o := 13) (by omega)).trans ?_⟩
  · rw [fieldLe_tail 8 _ 0, fieldLe_head]
    exact Nat.mod_eq_of_lt (encLen_lt s)
  · rw [fieldLe_tail 8 _ 4, fieldLe_tail 4 _ 0, fieldLe_head]
    split <;> rfl
  · rw [fieldLe_tail 8 _ 5, fieldLe_tail 4 _ 1, fieldLe_tail 1 _ 0, ← List.append_nil (natLe 1 _), fieldLe_head]
    exact Nat.mod_eq_of_lt encQp_lt

theorem encoded_tiles : (s.encoded v slot x).tiles = s.tiles := (State.tiles_writeLe ..).trans (tiles_writeMem ..)

theorem encoded_inRd : (s.encoded v slot x).readLe (x.addr + 0x58) 8 = (s.inRd x + 1) % 2 ^ 64 := advance_inRd ..

section Apart

variable (hdesc : s.encBuf x + s.encCap x ≤ x.addr ∨ x.addr + 128 ≤ s.encBuf x)

include hdesc in
theorem encoded_outDone : (s.encoded v slot x).readLe (x.addr + 0x68) 8 = s.outDone x := by
  refine (advance_other _ x _ (by omega)).trans (readLe_write_other _ _ _ _ _ ?_)
  simp only [List.length_map, List.length_range]
  omega

include hdesc in
/-- A frame that does not fit stops its stream; its entry is taken, and OUT_DONE stays. -/
theorem encStopped_spec : (s.encStopped v slot x).tiles = s.tiles
    ∧ (s.encStopped v slot x).readLe (x.addr + 0x58) 8 = (s.inRd x + 1) % 2 ^ 64
    ∧ (s.encStopped v slot x).stream v slot = some { x with status := 2 }
    ∧ (s.encStopped v slot x).readLe (x.addr + 0x7A) 2 = Codes.codecOutputOverflow.toNat
    ∧ (s.encStopped v slot x).readLe (x.addr + 0x68) 8 = s.outDone x := by
  obtain ⟨hstream, -, herror, htiles, hword⟩ := stop_spec ((s.encoded v slot x).modEngine v (fun y =>
    { y with events := BitVec.ofNat 32 (satAdd (2 ^ 32 - 1) y.events.toNat 1) })) v slot x Codes.codecOutputOverflow
  exact ⟨htiles.trans encoded_tiles, (hword _ _ (by omega)).trans encoded_inRd, hstream, herror,
    (hword _ _ (by omega)).trans (encoded_outDone hdesc)⟩

variable (hapart : x.addr + 128 ≤ s.outEntry x ∨ s.outEntry x + 64 ≤ x.addr)

theorem encDone_readMem (a n : Nat) : (s.encDone v slot x).readMem a n = (s.encFits v slot x).readMem a n := rfl

theorem encDone_readLe (a n : Nat) : (s.encDone v slot x).readLe a n = (s.encFits v slot x).readLe a n := rfl

theorem encDone_tiles : (s.encDone v slot x).tiles = s.tiles :=
  (State.tiles_writeLe ..).trans ((State.tiles_writeLe ..).trans ((tiles_writeMem ..).trans encoded_tiles))

theorem encDone_stream : (s.encDone v slot x).stream v slot = some (s.encNext x) := (stream_setStream ..).trans (if_pos rfl)

include hapart in
theorem encDone_inRd : (s.encDone v slot x).readLe (x.addr + 0x58) 8 = (s.inRd x + 1) % 2 ^ 64 := by
  rw [encDone_readLe, State.encFits, State.addInt64, State.readLe_writeLe_other _ _ _ _ _ _ (by omega),
    State.readLe_writeLe_other _ _ _ _ _ _ (by omega), readLe_write_other, encoded_inRd]
  rw [encEntry_length]
  omega

include hdesc hapart in
theorem encDone_outDone : (s.encDone v slot x).readLe (x.addr + 0x68) 8 = (s.outDone x + 1) % 2 ^ 64 := by
  rw [encDone_readLe, State.encFits, State.readLe_addInt64, State.readLe_writeLe_other _ _ _ _ _ _ (by omega), readLe_write_other,
    encoded_outDone hdesc]
  rw [encEntry_length]
  omega

include hapart in
theorem encDone_entry : (s.encDone v slot x).readMem (s.outEntry x + 0x10) (s.encEntry x).length = s.encEntry x := by
  rw [encDone_readMem, State.encFits, State.addInt64, State.writeLe, State.writeLe, State.readMem_writeMem_other,
    State.readMem_writeMem_other, State.readMem_writeMem]
  all_goals rw [encEntry_length, natLe_length]; omega

end Apart

end Encoder

/-- Settles O41: an output writes rows and an entry that are apart, and a coded frame overflows or fits. -/
theorem codecPictures : Obligations.CodecPictures := by
  unfold Obligations.CodecPictures
  refine fun s => ⟨fun v slot x i frame rest b hx horder hb => ?output, fun v slot x hnext => ⟨fun hflags => ?reserved,
    fun hflags hstats haccess hdesc _ hapart => ?coded⟩⟩
  case output =>
    intro done a surf pitch depth q put luma chroma span hposted hsurf htensor hstats haccess hentry hdesc hapart hfit
    have hrun := pictureOutput_outputs hx horder hb hposted hsurf htensor hstats
      (by rw [StreamSt.surfWrites, List.map_map]; exact haccess)
    have hlaid : OutputLaid s x b := ⟨hfit, hentry, hdesc, hapart⟩
    obtain ⟨hframe, hwidth, hheight, hmarks, hconcealed⟩ := entry_fields (readMem_entry (frame := frame) hlaid)
    obtain ⟨hrest, hbuf⟩ := outputDone_spec horder hb
    exact ⟨_, x.outputDone i, congrArg Host.Outcome.next hrun, (State.tiles_writeLe ..).trans (writeAll_same ..).1,
      readMem_lumaRow hlaid, readMem_chromaRow hlaid, hframe, hwidth, hheight, hmarks, hconcealed, outDone_outputTo hlaid,
      (stream_setStream ..).trans (if_pos rfl), hrest, hbuf⟩
  case reserved =>
    obtain ⟨hstream, -, herror, -, -⟩ := stop_spec (s.served (v + 16) slot) (v + 16) slot x Codes.codecInput
    exact ⟨_, congrArg Host.Outcome.next (encodeFrame_reserved hnext hflags), hstream, herror⟩
  case coded =>
    have hpermitted := haccess (min s.encLen (s.encCap x)) (Nat.min_le_right ..)
    rcases Nat.lt_or_ge (s.encCap x) s.encLen with hover | hfits
    · obtain ⟨htiles, hread, hstream, herror, hdone⟩ := encStopped_spec (v := v + 16) (slot := slot) hdesc
      exact ⟨_, s.encLen, encLen_pos s, encLen_lt s,
        congrArg Host.Outcome.next (encodeFrame_overflows hnext hflags hstats hpermitted hover),
        htiles, hread, fun _ => ⟨hstream, herror, hdone⟩, fun hle => absurd hover (Nat.not_lt.2 hle)⟩
    · obtain ⟨hframe, hlen, htype, hqp⟩ := encEntry_fields (encDone_entry (v := v + 16) (slot := slot) hapart)
      refine ⟨_, s.encLen, encLen_pos s, encLen_lt s, congrArg Host.Outcome.next (encodeFrame_fits hnext hflags hstats hpermitted hfits),
        encDone_tiles, encDone_inRd hapart, fun hlt => absurd hfits (Nat.not_le.2 hlt),
        fun _ => ⟨encDone_outDone hdesc hapart, hframe, hlen,
          ⟨s.encNext x, encDone_stream, rfl, encNext_sinceKey, rfl⟩, fun hkey => ?_, fun hkey => ?_⟩⟩
      · have hkey := encKey_iff.2 hkey
        exact ⟨htype.trans (if_pos hkey), hqp.trans (encQp_key hkey)⟩
      · have hkey := mt encKey_iff.1 hkey
        exact ⟨htype.trans (if_neg hkey), fun hconst => hqp.trans (encQp_constant hkey hconst),
          fun p hlast hrate => hqp.trans (encQp_rate hkey hlast hrate)⟩

end Sys2Proof.Machine

namespace Sys2Proof.Machine

/-! States that meet the hypotheses of O40 and O41. -/

/-- Page 0 holds a pinned object of job 1, which is live on ring 0. -/
def codecModule : State := (tierState (.resident 0) none).setObject 0 (some { backedObject none with attr := 0 })

/-- A decoder with one buffer, and rings of one entry each. -/
def decoderDesc : StreamDesc :=
  { encode := false, codec := 1, surf := true, tensor := false, stats := false, poolBufs := 1, poolBase := 0x4000, bufBytes := 0x100,
    inBase := 0x2000, inEntries := 1, outEntries := 1, outBase := 0x3000, aux := 0, statsBase := 0, logBase := 0x5000, logEntries := 1 }

/-- Its stream, whose active sequence has monochrome pictures of 2 x 2 samples. -/
def decoderStream : StreamSt :=
  { StreamSt.opened 0x1000 1 decoderDesc with seq := some ⟨2, 2, 2, 2, 8, 0, true, 0⟩ }

/-- Four bytes at 0x6000 are its next access unit. -/
def decoderState : State :=
  (((codecModule.writeLe 0x1050 1 1).writeLe 0x2000 2 0x6000).writeLe 0x2008 1 4).setStream 0 0 (some decoderStream)

/-- A reference picture of the active sequence. -/
def refPicture : PicOutcome :=
  { newSeq := none, isRef := true, shown := false, dropRefs := [], cls := 0, concealed := 0, first := 0, offset := 0, substitute := false }

/-- O40 applies to a picture that is output: it takes buffer 0, enters the output order, and the entry is taken. -/
theorem codecStreams_decodes : ∃ (m : State) (y : StreamSt),
    exec (.decodeAccessUnit 0 (.pictures [refPicture] [0])) decoderState = .next m
    ∧ m.stream 0 0 = some y ∧ y.order = [(0, 0)] ∧ m.readLe 0x1058 8 = 1 := by
  obtain ⟨-, hdecodes⟩ := codecStreams decoderState
  obtain ⟨-, -, -, hpicture⟩ := hdecodes 0 (.pictures [refPicture] [0]) 0 decoderStream (by decide)
  obtain ⟨m, y, hexec, -, hread, hstream, -, -, -, horder, -⟩ := hpicture refPicture ⟨2, 2, 2, 2, 8, 0, true, 0⟩ 0 true (by decide)
    (by decide) rfl rfl rfl rfl rfl rfl rfl (by decide) rfl (fun k hk => absurd hk (Nat.not_lt_zero k)) (by decide) (by decide)
  exact ⟨m, y, hexec, hstream, horder, hread.trans (by decide)⟩

/-- Ring 0's next entry closes the stream. -/
def closeState : State :=
  let s := decoderState.setRing 0 { RingSt.init with active := true, sq := 0x8000, sqTail := 1 }
  { s with hostMem := (s.hostMem.setRange 0 0x8000 [0x93, 0x20]).setRange 0 0x8018 [1] }

/-- O40 applies to the close: the slot is free. -/
theorem codecStreams_closes : ∃ (m : State) (c : Completion), exec (.codecClose 0) closeState = .next (m.complete 0 c)
    ∧ m.stream 0 0 = none ∧ m.readLe 0x1078 2 = 3 := by
  obtain ⟨hentry, -⟩ := codecStreams closeState
  obtain ⟨-, hclose⟩ := hentry 0 (closeState.entryBytes 0) (by decide) (by decide)
  obtain ⟨m, hexec, hstream, hstatus, -⟩ := hclose (by decide) (by decide) decoderStream (by decide) (by decide)
  exact ⟨m, _, hexec, hstream, hstatus⟩

/-- A picture of the stream that awaits output, with five blocks concealed in it. -/
def shownPicture : PicBuf :=
  { ref := false, out := true, conv := false, seq := ⟨2, 2, 2, 2, 8, 0, true, 0⟩, au := 0, pic := 0, input := 0, cls := 0,
    concealed := 5, first := 0, offset := 0, substitute := false, resumed := false }

def outputStream : StreamSt := { decoderStream with order := [(0, 7)], bufs := [(0, some shownPicture)] }

/-- It is next in the output order, and the entry at 0x3000 names a surface at 0x6000 of pitch 2. -/
def outputState : State :=
  (((codecModule.writeLe 0x1060 1 1).writeLe 0x3000 2 0x6000).writeLe 0x3008 1 2).setStream 0 0 (some outputStream)

/-- A row of two samples of luma, or of one of each chroma, is as long as the pitch. -/
theorem outputState_fits (y : Nat) : (outputStream.lumaRow shownPicture (outputState.outDepth outputStream) y).length
      ≤ outputState.outPitch outputStream
    ∧ (outputStream.chromaRow shownPicture (outputState.outDepth outputStream) y).length ≤ outputState.outPitch outputStream := by
  rw [show outputState.outDepth outputStream = 8 by decide, show outputState.outPitch outputStream = 2 by decide]
  exact ⟨Nat.le_refl 2, Nat.le_refl 2⟩

/-- O41 applies to the output: its entry names frame 7 and the concealed blocks, OUT_DONE counts it, and its buffer is free. -/
theorem codecPictures_outputs : ∃ (m : State) (z : StreamSt), exec (.pictureOutput 0 0) outputState = .next m
    ∧ m.readLe 0x3010 8 = 7 ∧ m.readLe 0x301C 4 = 1 ∧ m.readLe 0x3020 4 = 5 ∧ m.readLe 0x1068 8 = 1
    ∧ m.stream 0 0 = some z ∧ z.bufs.get none 0 = none := by
  obtain ⟨houtput, -⟩ := codecPictures outputState
  obtain ⟨m, z, hexec, -, -, -, hframe, -, -, hflags, hconcealed, hdone, hstream, -, hbuf⟩ :=
    houtput 0 0 outputStream 0 7 [] shownPicture (by decide) rfl rfl (by decide) rfl rfl rfl (by decide) (by decide) (by decide)
      (by decide) outputState_fits
  exact ⟨m, z, hexec, hframe, hflags, hconcealed, hdone.trans (by decide), hstream, hbuf⟩

/-- An encoder whose parameters, at 0x7000, are zero. -/
def encoderDesc : StreamDesc := { decoderDesc with encode := true, codec := 2, aux := 0x7000 }

/-- An input entry stands at 0x2000, and the entry at 0x3000 has room for sixteen bytes at 0x6000. -/
def encoderState : State :=
  ((((codecModule.writeLe 0x1050 1 1).writeLe 0x1060 1 1).writeLe 0x3000 2 0x6000).writeLe 0x3008 1 16).setStream 16 0
    (some (.opened 0x1000 1 encoderDesc))

/-- O41 applies to the frame: its entry is taken, and OUT_DONE counts it when it fits. -/
theorem codecPictures_encodes : ∃ (m : State) (len : Nat), 1 ≤ len ∧ exec (.encodeFrame 0) encoderState = .next m
    ∧ m.readLe 0x1058 8 = 1 ∧ (len ≤ 16 → m.readLe 0x1068 8 = 1 ∧ m.readLe 0x301C 1 = 0) := by
  obtain ⟨-, hencode⟩ := codecPictures encoderState
  obtain ⟨-, hcodes⟩ := hencode 0 0 (.opened 0x1000 1 encoderDesc) (by decide)
  obtain ⟨m, len, hpos, -, hexec, -, hread, -, hfits⟩ := hcodes (by decide) rfl (by decide) (by decide) (by decide) (by decide)
  refine ⟨m, len, hpos, hexec, hread.trans (by decide), fun hlen => ?_⟩
  obtain ⟨hdone, -, -, -, hkey, -⟩ := hfits (hlen.trans_eq (by decide))
  obtain ⟨htype, -⟩ := hkey (.inl rfl)
  exact ⟨hdone.trans (by decide), htype⟩


/-- The descriptor of a decoder, as one value: `decoderDesc`, with its TYPE. -/
def openDesc : Nat :=
  0x2070 + 256 ^ 3 + 256 ^ 4 + 256 ^ 5 + 0x4000 * 256 ^ 8 + 0x100 * 256 ^ 16 + 0x2000 * 256 ^ 24 + 256 ^ 32 + 256 ^ 36
    + 0x3000 * 256 ^ 40 + 0x5000 * 256 ^ 64 + 256 ^ 72

/-- It stands at 0x1000, and the next entry of ring 0 opens it. -/
def openState : State :=
  let s := codecModule.setRing 0 { RingSt.init with active := true, sq := 0x8000, sqTail := 1 }
  { s with mem := { s.mem with bytes := s.mem.bytes.setRange 0 0x1000 (natLe 128 openDesc) },
           hostMem := ((s.hostMem.setRange 0 0x8000 [0x92, 0x20]).setRange 0 0x8011 [0x10]).setRange 0 0x8018 [1] }

theorem openState_desc : openState.readMem 0x1000 128 = natLe 128 openDesc := by
  have h := SMap.getRange_setRange 0 codecModule.mem.bytes 0x1000 (natLe 128 openDesc)
  rwa [natLe_length] at h

theorem streamDescOf_openDesc : streamDescOf (natLe 128 openDesc) = decoderDesc := by
  simp only [streamDescOf, fieldLe_natLe, Nat.reduceAdd, Nat.reduceLeDiff]
  norm_num [openDesc, bitOf, decoderDesc]

theorem openState_pinned : ∀ p ∈ [(0x1000, 128), (0x4000, 0x100), (0x2000, 16), (0x3000, 64), (0x5000, 32)],
    openState.pinnedAt 1 p.1 p.2 = true := by decide

theorem openState_good : openState.streamBad 1 0x1000 = false := by
  have hpinned := openState_pinned
  simp only [List.forall_mem_cons] at hpinned
  simp only [State.streamBad, openState_desc, streamDescOf_openDesc, fieldLe_natLe, Nat.reduceAdd, Nat.reduceLeDiff]
  norm_num [openDesc, decoderDesc, hdrOk, hpinned]

/-- O40 applies to the open: the stream takes slot 0 of engine 0, the lowest on the edge die of the job's first die. -/
theorem codecStreams_opens : ∃ (m : State) (c : Completion), exec (.codecOpen 0) openState = .next (m.complete 0 c) ∧ c.result = 0
    ∧ m.stream 0 0 = some (.opened 0x1000 1 decoderDesc) := by
  obtain ⟨hentry, -⟩ := codecStreams openState
  obtain ⟨hopen, -⟩ := hentry 0 (openState.entryBytes 0) (by decide) (by decide)
  have haddr : fieldLe (openState.entryBytes 0) 0x10 8 = 0x1000 := by decide
  have hjob : fieldLe (openState.entryBytes 0) 0x18 4 = 1 := by decide
  simp only [haddr, hjob, openState_desc, streamDescOf_openDesc] at hopen
  obtain ⟨-, hopens⟩ := hopen (by decide) (trainingJob .init) (by decide) rfl
  obtain ⟨m, hexec, hstream, -⟩ := hopens 0 0 openState_good (by decide) (by decide) rfl
    (fun u _ _ _ => .inr ⟨rfl, (Nat.eq_zero_or_pos _).elim (fun h => .inr ⟨h.symm, Nat.zero_le u⟩) .inl⟩)
    (by decide) rfl (fun k hk => absurd hk (Nat.not_lt_zero k))
  exact ⟨m, _, hexec, rfl, hstream⟩

end Sys2Proof.Machine

namespace Sys2Proof.Machine

open Sys2Proof.Claims

/-! Training of a link (R342, R346 to R348, R351). -/

theorem near_not_far {l : Nat} (h : l < 18) : isFar l = false := decide_eq_false (Nat.not_le.2 h)

theorem far_of_not_near {l : Nat} (h : ¬l < 18) : isFar l = true := decide_eq_true (Nat.not_lt.1 h)

/-- A record changes no link. -/
theorem linkTo_report {s t : State} {l : Nat} {y : LinkSt} (h : LinkTo s l y t) (c : Code) (i : RecInfo) :
    LinkTo s l y (t.report c i) := by
  obtain ⟨hlink, hothers, honly⟩ := h
  exact ⟨(State.report_link t c i l).trans hlink, fun k hk => (State.report_link t c i k).trans (hothers k hk),
    LinksOnly.trans honly (linksOnly_report t c i)⟩

/-- R342: the bit of the rank in which a near link's two modules differ. -/
theorem peerOf_table (r : Nat) (l : Link) (h : l.val < 18) :
    peerOf r l = r ^^^ [1, 1, 2, 2, 3, 3, 4, 4, 8, 8, 12, 12, 16, 16, 32, 32, 48, 48].getD l.val 0 := by
  obtain ⟨l, hl⟩ := l
  interval_cases l <;> simp [peerOf]

/-- The link is DISABLED with an error, the code is logged, and no link outside its pair changes. -/
def DisabledWith (s : State) (l : Link) (m : State) (err : Nat) (c : Code) : Prop :=
  (m.link l).phase = .disabled ∧ (m.link l).error = err ∧ Logged s m c l ∧ LinksOnly s m
    ∧ ∀ k, k ≠ l.val → k ≠ otherLink l → m.link k = s.link k

theorem linkFails_disabled {s : State} {l : Link} (c : Code) (hn : l.val < 18) (hp : (s.link l).phase ≠ .disabled) :
    DisabledWith s l (s.linkFails l c) (c.toNat % 16) c := by
  obtain ⟨honly, hothers, hphase, herror, hlog, -⟩ := State.linkFails_spec s l c (near_not_far hn) hp
  exact ⟨hphase, herror, hlog, honly, hothers⟩

/-- What lets an enabled link `x` of number `k` leave DOWN (R343): `v` is the rank's VALID bit, and `out` says that the link's edge die
is out of service. -/
def MayTrain (v out : Bool) (k : Nat) (x : LinkSt) : Prop := v = true ∧ x.media ≠ 3 ∧ (k < 18 ∨ x.encap ≠ 3) ∧ out = false

theorem trainTo_detect {v out : Bool} {k : Nat} {x : LinkSt} (hp : x.phase = .down) (he : x.enable = true) (h : MayTrain v out k x) :
    trainTo v out k x = { x with phase := .detect, retryDue := false } := by
  obtain ⟨hv, hmedia, hencap, hout⟩ := h
  have hfar : isFar k = false ∨ x.encap ≠ 3 := hencap.imp_left near_not_far
  simp [trainTo, hp, he, hv, hmedia, hfar, hout]

/-- A link that may not train stays in DOWN. -/
theorem trainTo_down {v out : Bool} {k : Nat} {x : LinkSt} (hp : x.phase = .down) (h : ¬(x.enable = true ∧ MayTrain v out k x)) :
    (trainTo v out k x).phase = .down := by
  unfold trainTo
  split
  · exact hp
  · split
    · exact hp
    · split
      · next hgo =>
        simp only [Bool.and_eq_true, Bool.or_eq_true, Bool.not_eq_true', decide_eq_true_eq, isFar, decide_eq_false_iff_not,
          Nat.not_le] at hgo
        obtain ⟨⟨⟨⟨he, hv⟩, hmedia⟩, hencap⟩, hout⟩ := hgo
        exact absurd ⟨he, hv, hmedia, hencap, hout⟩ h
      · exact hp

section Training

variable {s : State} {l : Link}

theorem stepComplete_detect (h : (s.link l).phase = .detect) :
    LinkTo s l { s.link l with phase := .equalize } (trainingStepComplete l s) := by
  simp only [trainingStepComplete, h]
  exact linkTo_setLink s l _

theorem stepComplete_equalize (h : (s.link l).phase = .equalize) :
    LinkTo s l { s.link l with phase := .align } (trainingStepComplete l s) := by
  simp only [trainingStepComplete, h]
  exact linkTo_setLink s l _

/-- A near link enters NEGOTIATE with its control flit. -/
theorem stepComplete_align_near (h : (s.link l).phase = .align) (hn : l.val < 18) :
    LinkTo s l { (s.link l).fresh with phase := .negotiate } (trainingStepComplete l s)
      ∧ (trainingStepComplete l s).outbox = s.outbox ++ [.control l 6 s.rank] := by
  have hstep : trainingStepComplete l s
      = (s.setLink l { (s.link l).fresh with phase := .negotiate }).send (.control l 6 s.rank) := by
    simp only [trainingStepComplete, h, near_not_far hn]
    rfl
  rw [hstep]
  exact ⟨linkTo_setLink s l _, rfl⟩

/-- A far link is UP after ALIGN where a session stands, and else waits for one. -/
theorem stepComplete_align_far (h : (s.link l).phase = .align) (hf : ¬l.val < 18) :
    LinkStep s l (trainingStepComplete l s)
      ∧ ((trainingStepComplete l s).link l).phase = if s.links.sess.any (fun q => q.2.up) then .up else .negotiate := by
  let t := s.setLink l { (s.link l).fresh with phase := .negotiate }
  have hstep : trainingStepComplete l s
      = if s.links.sess.any (fun q => q.2.up) then t.linkUp l else t.modLink l (fun x => { x with phase := .negotiate }) := by
    simp only [trainingStepComplete, h, far_of_not_near hf]
    rfl
  have ht : LinkStep s l t := linkStep_setLink s l _
  rw [hstep]
  split
  · obtain ⟨hup, hpumped⟩ := State.linkUp_spec t l
    exact ⟨ht.trans hup, hpumped.same.1⟩
  · exact ⟨ht.trans (linkStep_setLink t l _), by unfold State.modLink; rw [State.link_setLink_same]⟩

theorem stepComplete_retrain_first (h : (s.link l).phase = .retrain) (hleft : (s.link l).retrainLeft = 3) :
    LinkTo s l { s.link l with retrainLeft := 2 } (trainingStepComplete l s) := by
  simp only [trainingStepComplete, h, hleft]
  exact linkTo_setLink s l _

theorem stepComplete_retrain_second (h : (s.link l).phase = .retrain) (hleft : (s.link l).retrainLeft = 2) (hn : l.val < 18) :
    LinkTo s l { s.link l with retrainLeft := 1 } (trainingStepComplete l s)
      ∧ (trainingStepComplete l s).outbox = s.outbox ++ [.control l 6 s.rank] := by
  have hstep : trainingStepComplete l s = (s.setLink l { s.link l with retrainLeft := 1 }).send (.control l 6 s.rank) := by
    simp only [trainingStepComplete, h, hleft, near_not_far hn]
    rfl
  rw [hstep]
  exact ⟨linkTo_setLink s l _, rfl⟩

/-- A bound of training that passes takes the link to DOWN with a retry due (R347). -/
theorem stepTimeout_down (h : (s.link l).phase = .detect ∨ (s.link l).phase = .equalize ∨ (s.link l).phase = .align
      ∨ (s.link l).phase = .negotiate ∧ l.val < 18) :
    LinkTo s l { s.link l with phase := .down, trainFail := min 255 ((s.link l).trainFail + 1), retryDue := true }
      (trainingStepTimeout l s) := by
  rcases h with h | h | h | ⟨h, hn⟩
  case inr.inr.inr =>
    simp only [trainingStepTimeout, h, near_not_far hn]
    exact linkTo_setLink s l _
  all_goals
    simp only [trainingStepTimeout, h]
    exact linkTo_setLink s l _

theorem stepTimeout_retrain (h : (s.link l).phase = .retrain) (hn : l.val < 18) :
    DisabledWith s l (trainingStepTimeout l s) 5 Codes.linkFailed := by
  simp only [trainingStepTimeout, h]
  exact linkFails_disabled Codes.linkFailed hn (by simp [h])

theorem startTraining_detect (hp : (s.link l).phase = .down) (he : (s.link l).enable = true)
    (h : MayTrain s.links.rankValid (s.edgeOut (linkEdge l)) l (s.link l)) :
    LinkTo s l { s.link l with phase := .detect, retryDue := false } (s.startTraining l) := by
  obtain ⟨honly, -, -, -, -, hothers, hlink⟩ := startTraining_spec s l
  exact ⟨hlink.trans (trainTo_detect hp he h), hothers, honly⟩

/-- The control flit of a near link's peer in NEGOTIATE (R348). -/
theorem negotiateFlit_near (hn : l.val < 18) (hp : (s.link l).phase = .negotiate) (v r n : Nat) :
    negotiateFlit l v r n s =
      if bitOf v 1 = false ∧ bitOf v 2 = false then s.linkFails l Codes.linkVersion
      else if r ≠ peerOf s.rank l ∨ n ≠ l then s.linkFails l Codes.linkMiswired
      else (s.setLink l { s.link l with version := if bitOf v 2 then 2 else 1, peer := r }).linkUp l := by
  simp [negotiateFlit, near_not_far hn, hp]

/-- What NEGOTIATE decides. -/
theorem negotiateFlit_outcome (hn : l.val < 18) (hp : (s.link l).phase = .negotiate) (v : BitVec 4) (r : BitVec 15) (n : BitVec 5) :
    let common := v.getLsbD 1 = true ∨ v.getLsbD 2 = true
    let right := r.toNat = peerOf s.rank l ∧ n.toNat = l.val
    let m := negotiateFlit l v.toNat r.toNat n.toNat s
    (¬common → DisabledWith s l m 1 Codes.linkVersion)
      ∧ (common → ¬right → DisabledWith s l m 2 Codes.linkMiswired)
      ∧ (common → right → (m.link l).phase = .up ∧ (m.link l).peer = peerOf s.rank l
          ∧ (LinksOnly s m ∧ ∀ k, k ≠ l.val → m.link k = s.link k)
          ∧ (m.link l).version = if v.getLsbD 2 = true then 2 else 1) := by
  intro common right m
  have hm : m = _ := negotiateFlit_near hn hp v.toNat r.toNat n.toNat
  simp only [getLsbD_bit] at hm
  have hnd : (s.link l).phase ≠ .disabled := by simp [hp]
  have hcommon : ¬common ↔ v.getLsbD 1 = false ∧ v.getLsbD 2 = false := by simp [common]
  have hright : ¬right ↔ r.toNat ≠ peerOf s.rank l ∨ n.toNat ≠ l := by simp only [right, not_and_or]
  refine ⟨fun hc => ?_, fun hc hr => ?_, fun hc hr => ?_⟩
  · rw [hm, if_pos (hcommon.1 hc)]
    exact linkFails_disabled Codes.linkVersion hn hnd
  · rw [hm, if_neg (fun h => hcommon.2 h hc), if_pos (hright.1 hr)]
    exact linkFails_disabled Codes.linkMiswired hn hnd
  · rw [hm, if_neg (fun h => hcommon.2 h hc), if_neg (fun h => hright.2 h hr)]
    let y : LinkSt := { s.link l with version := if v.getLsbD 2 then 2 else 1, peer := r.toNat }
    obtain ⟨hup, hpumped⟩ := State.linkUp_spec (s.setLink l y) l
    obtain ⟨hphase, hversion, hpeer, -, -⟩ := hpumped.same
    rw [State.link_setLink_same] at hversion hpeer
    have hstep := (linkStep_setLink s l y).trans hup
    exact ⟨hphase, hpeer.trans hr.1, ⟨hstep.1, hstep.2.1⟩, hversion⟩

/-- What RETRAIN makes of a link (R351). -/
def LinkSt.retrained (x : LinkSt) : LinkSt :=
  { x with phase := .retrain, retrainLeft := 3, retrains := min 255 (x.retrains + 1), recent := x.recent + 1, futile := 0 }

theorem retrainLink_spec (s : State) (l : Link) :
    LinkTo s l (s.link l).retrained (s.retrainLink l) ∧ Logged s (s.retrainLink l) Codes.linkRetrain l := by
  have hrep : s.retrainLink l = (s.setLink l (s.link l).retrained).report Codes.linkRetrain (s.linkInfo l) := rfl
  rw [hrep]
  exact ⟨linkTo_report (linkTo_setLink s l _) _ _,
    logged_report (t := s.setLink l (s.link l).retrained) (i := s.linkInfo l) rfl rfl⟩

theorem retrain_early (hp : (s.link l).phase = .up) (hf : 8 ≤ (s.link l).futile) (hr : (s.link l).recent < 3) :
    retrain l s = s.retrainLink l := by
  simp [retrain, hp, hr, Nat.not_lt.2 hf]

/-- With three RETRAINs behind it, the link retrains or fails: the time is a free value. -/
theorem retrain_late (hp : (s.link l).phase = .up) (hf : 8 ≤ (s.link l).futile) (hr : 3 ≤ (s.link l).recent) :
    retrain l s = s.draw.2.retrainLink l ∨ retrain l s = s.draw.2.linkFails l Codes.linkFailed := by
  have h : retrain l s = if s.draw.1.getLsbD 0 then s.draw.2.linkFails l Codes.linkFailed else s.draw.2.retrainLink l := by
    simp [retrain, hp, Nat.not_lt.2 hf, Nat.not_lt.2 hr]
  rw [h]
  split
  · exact .inr rfl
  · exact .inl rfl

end Training

/-- Settles O42: each command's clause is the outcome of its phase; NEGOTIATE, RETRAIN and its bound end in `linkUp`, `retrainLink` or
`linkFails`. -/
theorem linkTraining : Obligations.LinkTraining := by
  unfold Obligations.LinkTraining
  intro s l x near rest disabled complete timeout retrain fails again
  refine ⟨fun h => ⟨_, rfl, stepComplete_detect h⟩, fun h => ⟨_, rfl, stepComplete_equalize h⟩, ?align, ?alignFar,
    fun h hleft => ⟨_, rfl, stepComplete_retrain_first h hleft⟩, fun h hleft hn => ⟨_, rfl, stepComplete_retrain_second h hleft hn⟩,
    fun h => ⟨_, rfl, stepTimeout_down h⟩, fun h hn => ⟨_, rfl, stepTimeout_retrain h hn⟩, ?retry, ?negotiate, ?futile⟩
  case align =>
    intro h hn
    obtain ⟨⟨hlink, hothers, honly⟩, hsent⟩ := stepComplete_align_near h hn
    exact ⟨_, rfl, by rw [hlink], ⟨honly, hothers⟩, hsent⟩
  case alignFar =>
    intro h hf
    obtain ⟨hstep, hphase⟩ := stepComplete_align_far h hf
    exact ⟨_, rfl, ⟨hstep.1, hstep.2.1⟩, hphase⟩
  case retry =>
    intro hdue hp he hr hm hf ho
    exact ⟨_, congrArg Host.Outcome.next (if_pos hdue), startTraining_detect hp he ⟨hr, hm, hf, ho⟩⟩
  case negotiate =>
    intro hn hp v r n peer common right
    have h := negotiateFlit_outcome hn hp v r n
    rw [peerOf_table s.rank l hn] at h
    exact ⟨_, rfl, h⟩
  case futile =>
    intro hn hp hf
    refine ⟨fun hr => ?_, fun hr => ?_⟩
    · exact ⟨_, congrArg Host.Outcome.next (retrain_early hp hf hr), retrainLink_spec s l⟩
    · refine ⟨_, rfl, ?_⟩
      have hdraw : Grows s s.draw.2 := Grows.of_eq rfl
      rcases retrain_late hp hf hr with h | h <;> rw [h]
      · obtain ⟨⟨hlink, hothers, honly⟩, hlog⟩ := retrainLink_spec s.draw.2 l
        exact .inl ⟨hlink, logged_before hdraw hlog, LinksOnly.trans (linksOnly_draw s) honly, hothers⟩
      · obtain ⟨hphase, herror, hlog, honly, hothers⟩ :=
          linkFails_disabled (s := s.draw.2) (l := l) Codes.linkFailed hn (fun h => absurd (hp.symm.trans h) (by decide))
        exact .inr ⟨hphase, herror, logged_before hdraw hlog, LinksOnly.trans (linksOnly_draw s) honly, hothers⟩

end Sys2Proof.Machine

namespace Sys2Proof.Machine

open Sys2Proof.Claims

/-! The module's rank, and links enabled, disabled and without their clock (R343, R351, R352, R355, R501). -/

theorem lnkRankWrite_refused {s : State} (v : W32) (h : ∃ k < 24, (s.link k).phase ≠ .down) :
    lnkRankWrite v s = s.report Codes.badRegAccess {} := by
  obtain ⟨k, hk, hp⟩ := h
  exact if_pos (List.any_eq_true.2 ⟨k, List.mem_range.2 hk, by simpa using hp⟩)

/-- A write of LNK.RANK with every link in DOWN: the fields, and each link as `trainTo` says. -/
theorem lnkRankWrite_spec {s : State} (v : W32) (h : ∀ k < 24, (s.link k).phase = .down) :
    LinksOnly s (lnkRankWrite v s) ∧ (lnkRankWrite v s).links.rankValid = v.getLsbD 31
      ∧ (lnkRankWrite v s).links.twin = v.getLsbD 14 ∧ (lnkRankWrite v s).links.rrc = v.toNat / 4 % 4096
      ∧ ∀ k < 24, (lnkRankWrite v s).link k = trainTo (v.getLsbD 31) (s.edgeOut (linkEdge k)) k (s.link k) := by
  let t : State := { s with links := { s.links with
    rankValid := bitOf v.toNat 31, twin := bitOf v.toNat 14, rrc := bitsOf v.toNat 13 2 } }
  have hwrite : lnkRankWrite v s = (List.range 24).foldl State.startTraining t :=
    if_neg (by simpa using h)
  obtain ⟨honly, -, hvalid, htwin, hrrc, hlinks⟩ := trainAll (List.range 24) t List.nodup_range
  rw [hwrite]
  refine ⟨honly, hvalid.trans (getLsbD_bit v 31), htwin.trans (getLsbD_bit v 14), hrrc, fun k hk => ?_⟩
  rw [hlinks k, if_pos (List.mem_range.2 hk)]
  exact congrArg (fun b => trainTo b (s.edgeOut (linkEdge k)) k (s.link k)) (getLsbD_bit v 31)

/-- An edge die without its clock takes its links down and no other (R501). -/
theorem clockLoss_spec (s : State) (q : Nat) :
    LinksOnly s (clockLoss q s) ∧ q ∈ (clockLoss q s).boot.noClock
      ∧ ∀ k < 24, (linkEdge k = q → ((clockLoss q s).link k).phase = .down)
          ∧ (linkEdge k ≠ q → (clockLoss q s).link k = s.link k) := by
  let t := s.modBoot (fun b => { b with noClock := if b.noClock.contains q then b.noClock else b.noClock ++ [q] })
  obtain ⟨honly, hboot, hdown, hothers⟩ := downAll q (List.range 24) t
  have ht : q ∈ t.boot.noClock := by
    show q ∈ if s.boot.noClock.contains q then s.boot.noClock else s.boot.noClock ++ [q]
    split
    · next hin => exact List.contains_iff_mem.1 hin
    · exact List.mem_append_right _ (List.mem_singleton_self q)
  have hloss : (clockLoss q s).boot = t.boot := hboot
  exact ⟨honly, hloss ▸ ht, fun k hk => ⟨fun he => hdown k (.inl ⟨List.mem_range.2 hk, he⟩), hothers k⟩⟩

/-- A change of a link that an earlier change of it precedes. -/
theorem linkTo_of_setLink {s m : State} {l : Nat} {y z : LinkSt} (h : LinkTo (s.setLink l y) l z m) : LinkTo s l z m := by
  obtain ⟨hlink, hothers, honly⟩ := h
  exact ⟨hlink, fun k hk => (hothers k hk).trans (State.link_setLink_other s l k y hk), honly⟩

/-- The far link that carries sessions is the first in UP. -/
theorem farLink_first {s : State} {u : Link} (hu : 18 ≤ u.val) (hup : (s.link u).phase = .up)
    (hlow : ∀ k, 18 ≤ k → k < u.val → (s.link k).phase ≠ .up) : s.farLink = some u.val := by
  have hrange : farLinks = List.range' 18 6 := rfl
  rw [State.farLink, hrange, List.find?_range'_eq_some]
  exact ⟨by simp [hup], List.mem_range'_1.2 ⟨hu, u.isLt⟩, fun k hk hlt => by simpa using hlow k hk hlt⟩

section Enable

variable {s : State} {l : Link}

/-- ENABLE = 1 of a link in DOWN. -/
theorem linkEnable_on_down (hp : (s.link l).phase = .down) :
    linkEnable l true s = (s.setLink l { s.link l with enable := true }).startTraining l := by
  simp [linkEnable, hp, State.modLink]

theorem linkEnable_on_trains (hp : (s.link l).phase = .down) (h : MayTrain s.links.rankValid (s.edgeOut (linkEdge l)) l (s.link l)) :
    LinkTo s l { s.link l with enable := true, phase := .detect, retryDue := false } (linkEnable l true s) := by
  let t := s.setLink l { s.link l with enable := true }
  have htl : t.link l = { s.link l with enable := true } := State.link_setLink_same s l _
  have htrain := startTraining_detect (s := t) (l := l) (by rw [htl]; exact hp) (by rw [htl]) (by rw [htl]; exact h)
  rw [linkEnable_on_down hp]
  rw [htl] at htrain
  exact linkTo_of_setLink htrain

/-- Without a valid rank the link stays in DOWN (R343). -/
theorem linkEnable_on_unranked (hp : (s.link l).phase = .down) (hv : s.links.rankValid = false) :
    LinkTo s l { s.link l with enable := true, error := 3 } (linkEnable l true s)
      ∧ Logged s (linkEnable l true s) Codes.linkRankUnset l := by
  let t := s.setLink l { s.link l with enable := true }
  have htl : t.link l = { s.link l with enable := true } := State.link_setLink_same s l _
  have hreport : t.startTraining l
      = (t.setLink l { s.link l with enable := true, error := 3 }).report Codes.linkRankUnset (t.linkInfo l) := by
    have htv : t.links.rankValid = false := hv
    simp [State.startTraining, htl, hp, htv]
  rw [linkEnable_on_down hp, hreport]
  exact ⟨linkTo_report (linkTo_of_setLink (linkTo_setLink t l _)) _ _, logged_report (i := t.linkInfo l) rfl rfl⟩

/-- ENABLE = 1 of a link in DISABLED whose edge die works. -/
theorem linkEnable_on_disabled (hp : (s.link l).phase = .disabled)
    (h : MayTrain s.links.rankValid (s.edgeOut (linkEdge l)) l (s.link l)) :
    ∃ y : LinkSt, LinkTo s l y (linkEnable l true s) ∧ y.phase = .detect ∧ y.enable = true ∧ y.replay = [] := by
  have hbist : bitOf s.boot.bistFail (1 + linkEdge l) = false := by
    obtain ⟨-, -, -, hout⟩ := h
    simp only [State.edgeOut, Bool.or_eq_false_iff] at hout
    exact hout.2
  let x : LinkSt := { s.link l with enable := true }
  let t := (s.setLink l x).setLink l { x.fresh with phase := .down, txq := [] }
  have htl : t.link l = { x.fresh with phase := .down, txq := [] } := State.link_setLink_same _ l _
  have henable : linkEnable l true s = t.startTraining l := by
    simp [linkEnable, hp, State.modLink, hbist, State.link_setLink_same, t, x]
  have htrain := startTraining_detect (s := t) (l := l) (by rw [htl]) (by rw [htl]; rfl) (by rw [htl]; exact h)
  rw [henable]
  rw [htl] at htrain
  exact ⟨_, linkTo_of_setLink (linkTo_of_setLink htrain), rfl, rfl, rfl⟩

/-- A link as ENABLE = 0 leaves it, before its traffic moves. -/
def LinkSt.switchedOff (x : LinkSt) : LinkSt := { x with enable := false, phase := .disabled, retryDue := false, asm := [] }

/-- ENABLE = 0: the link is DISABLED, and then its traffic moves. -/
theorem linkEnable_off (hp : (s.link l).phase ≠ .disabled) :
    ∃ u, LinkTo s l (s.link l).switchedOff u ∧ u.logs = s.logs ∧ u.outbox = s.outbox ∧ u.links.sess = s.links.sess
      ∧ linkEnable l false s = if isFar l then u.moveSessions else u.failOver l := by
  let t := s.setLink l { s.link l with enable := false }
  have htl : t.link l = { s.link l with enable := false } := State.link_setLink_same s l _
  refine ⟨t.setLink l (s.link l).switchedOff, linkTo_of_setLink (linkTo_setLink t l _), rfl, rfl, rfl, ?_⟩
  have hoff : linkEnable l false s = t.disableLink l := rfl
  rw [hoff]
  simp only [State.disableLink, State.modLink, htl, hp, if_false]
  rfl

/-- What ENABLE = 0 leaves of the link and of all else. -/
def Off (s : State) (l : Link) (m : State) : Prop := (m.link l).phase = .disabled ∧ (m.link l).enable = false ∧ LinksOnly s m

/-- The peer is lost where the pair's other link is DISABLED too (R352). -/
theorem linkEnable_off_lost (hn : l.val < 18) (hp : (s.link l).phase ≠ .disabled) (ho : (s.link (otherLink l)).phase = .disabled) :
    let m := linkEnable l false s
    Off s l m ∧ m.outbox = s.outbox ∧ Logged s m Codes.linkPeerLost l ∧ (m.link l).txq = [] ∧ (m.link (otherLink l)).txq = []
      ∧ (m.link l).replay = [] := by
  intro m
  obtain ⟨u, ⟨hul, huothers, huonly⟩, hulogs, huout, -, hm⟩ := linkEnable_off hp
  rw [near_not_far hn, if_neg Bool.false_ne_true] at hm
  have huo := huothers (otherLink l) (otherLink_ne l)
  obtain ⟨honly, -, hlink, hlost, -, -⟩ := State.failOver_spec u l
  obtain ⟨hlog, hout, hother⟩ := hlost (by rw [huo]; exact ho)
  rw [← hm] at honly hlink hlog hout hother
  exact ⟨⟨by rw [hlink, hul]; rfl, by rw [hlink, hul]; rfl, LinksOnly.trans huonly honly⟩, hout.trans huout,
    logged_before (Grows.of_eq hulogs) hlog, by rw [hlink], by rw [hother], by rw [hlink]⟩

/-- The pair goes on with its other link (R352): first what was unacknowledged, then that link's own traffic. -/
theorem linkEnable_off_failover (hn : l.val < 18) (hp : (s.link l).phase ≠ .disabled)
    (ho : (s.link (otherLink l)).phase ≠ .disabled) :
    let m := linkEnable l false s
    let y := s.link (otherLink l)
    Off s l m ∧ Logged s m Codes.linkFailover l
      ∧ (y.phase ≠ .up → (m.link (otherLink l)).txq = handed (s.link l) y ∧ m.outbox = s.outbox)
      ∧ ∀ vc tx, y.maySend vc tx = true → handed (s.link l) y = [(vc, tx)] →
          m.outbox = s.outbox ++ [.near (otherLink l) ((y.txSeq + 1) % 4096) tx] := by
  intro m y
  obtain ⟨u, ⟨hul, huothers, huonly⟩, hulogs, huout, -, hm⟩ := linkEnable_off hp
  rw [near_not_far hn, if_neg Bool.false_ne_true] at hm
  have huo : u.link (otherLink l) = y := huothers (otherLink l) (otherLink_ne l)
  have hhanded : handed (u.link l) y = handed (s.link l) y := by rw [hul]; rfl
  obtain ⟨honly, -, hlink, -, hover, hsent⟩ := State.failOver_spec u l
  rw [huo, hhanded] at hover hsent
  obtain ⟨hlog, hwait⟩ := hover ho
  rw [← hm] at honly hlink hlog hwait hsent
  rw [huout] at hsent
  refine ⟨⟨by rw [hlink, hul]; rfl, by rw [hlink, hul]; rfl, LinksOnly.trans huonly honly⟩,
    logged_before (Grows.of_eq hulogs) hlog, fun hnup => ?_, hsent⟩
  obtain ⟨hout, hother⟩ := hwait hnup
  exact ⟨by rw [hother], hout.trans huout⟩

/-- A far link that leaves service: the sessions' frames are resent on the first other far link in UP (R355). -/
theorem linkEnable_off_far (hf : 18 ≤ l.val) (hp : (s.link l).phase ≠ .disabled) :
    let m := linkEnable l false s
    Off s l m ∧ ∀ u : Link, 18 ≤ u.val → u ≠ l → (s.link u).phase = .up →
      (∀ k : Link, 18 ≤ k.val → k < u → k ≠ l → (s.link k).phase ≠ .up) →
      ∀ p i, i ∈ (s.sess p).unacked → .far u i.seq i.tx ∈ m.outbox := by
  intro m
  obtain ⟨t, ⟨htl, htothers, htonly⟩, -, -, htsess, hm⟩ := linkEnable_off hp
  rw [far_of_not_near (Nat.not_lt.2 hf), if_pos rfl] at hm
  change m = t.moveSessions at hm
  obtain ⟨hstep, hlinks, hresent⟩ := State.moveSessions_spec t l
  have hml : m.link l = (s.link l).switchedOff := by rw [hm, State.link_congr hlinks, htl]
  refine ⟨⟨by rw [hml]; rfl, by rw [hml]; rfl, by rw [hm]; exact LinksOnly.trans htonly hstep.1⟩, fun u hu hne hup hlow p i hi => ?_⟩
  have hfirst : t.farLink = some u.val := by
    refine farLink_first hu ((congrArg LinkSt.phase (htothers u (Fin.val_ne_of_ne hne))).trans hup) (fun k hk hlt => ?_)
    by_cases hkl : k = l.val
    · rw [hkl, htl]
      exact LinkPhase.noConfusion
    · rw [htothers k hkl]
      exact hlow ⟨k, hlt.trans u.isLt⟩ hk hlt (fun h => hkl (congrArg Fin.val h))
  have htp : t.sess p = s.sess p := by unfold State.sess; rw [htsess]
  rw [hm]
  exact hresent u hfirst p i (by rw [htp]; exact hi)

end Enable

/-- A link in UP with the credits and the room may send what its version carries (R350, R353). -/
theorem maySend_of {x : LinkSt} {vc : Nat} {tx : OutTx} (hup : x.phase = .up) (hversion : x.version ≠ 1 ∨ tx.type = 1)
    (hcredit : tx.flits ≤ x.credits.getD vc 0) (hroom : x.outstanding + tx.flits ≤ 2048) : x.maySend vc tx = true := by
  have hv : (x.version != 1 || tx.type == 1) = true := by simpa using hversion
  simp only [LinkSt.maySend, hup, hcredit, hroom, hv, decide_true]
  rfl

/-- Settles O43: LNK.RANK by `trainAll`, the lost clock by `downAll`, ENABLE = 1 by `startTraining` and ENABLE = 0 by `failOver` or
`moveSessions`. -/
theorem linkControl : Obligations.LinkControl := by
  unfold Obligations.LinkControl
  intro s trains
  refine ⟨fun v => ⟨fun h => ?refused, fun h => ?rank⟩, fun q => ⟨_, rfl, clockLoss_spec s q⟩, ?links⟩
  case refused =>
    exact ⟨_, congrArg Host.Outcome.next (lnkRankWrite_refused v h), State.report_links _ _ _, linksOnly_report _ _ _,
      report_logged s _ _⟩
  case rank =>
    obtain ⟨honly, hvalid, htwin, hrrc, hlinks⟩ := lnkRankWrite_spec v h
    refine ⟨_, rfl, honly, hvalid, htwin, hrrc, fun k hk => ?_⟩
    rw [hlinks k hk]
    exact ⟨fun he htrains => by rw [trainTo_detect (h k hk) he htrains], trainTo_down (h k hk)⟩
  case links =>
    intro l x o y off down
    refine ⟨fun hp h => ⟨_, rfl, linkEnable_on_trains hp h⟩, fun hp hv => ⟨_, rfl, linkEnable_on_unranked hp hv⟩, fun hp h => ?enable,
      fun hn hp ho => ⟨_, rfl, linkEnable_off_lost hn hp ho⟩, fun hn hp ho => ?failover,
      fun hf hp => ⟨_, rfl, linkEnable_off_far hf hp⟩⟩
    case enable =>
      obtain ⟨z, ⟨hlink, -, honly⟩, hphase, henable, hreplay⟩ := linkEnable_on_disabled hp h
      exact ⟨_, rfl, by rw [hlink]; exact hphase, by rw [hlink]; exact henable, by rw [hlink]; exact hreplay, honly⟩
    case failover =>
      obtain ⟨hoff, hlog, hwait, hsent⟩ := linkEnable_off_failover hn hp ho
      refine ⟨_, rfl, hoff, hlog, hwait, fun vc n tx f hup hversion hyq hxq hreplay hcredit hroom => ?_⟩
      have hmay : y.maySend vc tx = true := maySend_of hup (.inl (by rw [hversion]; decide)) hcredit hroom
      exact hsent vc tx hmay (by simp only [handed]; rw [hyq, hxq, hreplay]; rfl)

end Sys2Proof.Machine

namespace Sys2Proof.Machine

open Sys2Proof.Claims

/-! Flits and transactions of a near link (R349, R350, R352, R353, R465). -/

/-- A flit that is not bad: corrected, whole, of the right CRC, of a defined KIND and with RSVD 0 (R350). -/
def GoodFlit (bad : Bool) (bs : List Byte) : Prop :=
  bad = false ∧ bs.length = 256 ∧ leNat (bs.drop 248) = (crc64 (bs.take 248)).toNat ∧ (flitOf bs).kind ≠ 3
    ∧ leNat (bs.take 8) % 2 ^ 22 = 0

theorem flitBad_eq_false_iff (bad : Bool) (bs : List Byte) : flitBad bad bs = false ↔ GoodFlit bad bs := by
  have hrsvd : (flitOf bs).rsvd = leNat (bs.take 8) % 2 ^ 22 := by simp [flitOf, bitsOf]
  have hcrc : bs.length = 256 → (bs.drop 248).take 8 = bs.drop 248 := fun h => List.take_of_length_le (by simp [h])
  simp only [flitBad, Bool.or_eq_false_iff, bne_eq_false_iff_eq, beq_eq_false_iff_ne, hrsvd, GoodFlit]
  constructor
  · rintro ⟨⟨⟨⟨hb, hl⟩, hc⟩, hk⟩, hr⟩
    exact ⟨hb, hl, hcrc hl ▸ hc, hk, hr⟩
  · rintro ⟨hb, hl, hc, hk, hr⟩
    exact ⟨⟨⟨⟨hb, hl⟩, (hcrc hl).symm ▸ hc⟩, hk⟩, hr⟩

/-- A resend of all that is unacknowledged, oldest first. -/
theorem replayLink_spec (s : State) (l : Nat) :
    let x := s.link l
    LinkTo s l { x with replays := min 65535 (x.replays + 1), futile := x.futile + 1 } (s.replayLink l)
      ∧ LO s (s.replayLink l) ∧ (s.replayLink l).outbox = s.outbox ++ x.replay.map (fun i => .near l i.first i.tx) := by
  intro x
  have hreplay : s.replayLink l = x.replay.foldl (fun s i => s.send (.near l i.first i.tx))
      (s.setLink l { x with replays := min 65535 (x.replays + 1), futile := x.futile + 1 }) := rfl
  have hsend := State.send_all (fun i : TxItem => OutMsg.near l i.first i.tx) x.replay
    (s.setLink l { x with replays := min 65535 (x.replays + 1), futile := x.futile + 1 })
  refine ⟨?_, ?_, ?_⟩
  · rw [hreplay, hsend]
    exact linkTo_setLink s l _
  · rw [hreplay]
    exact ((LO.refl s).setLink l _).fold _ _
  · rw [hreplay, hsend]
    rfl

/-! NAK. -/

theorem sendNak_again {t : State} {l : Nat} (h : (t.link l).naked = true) : t.sendNak l = t := if_pos h

theorem sendNak_first {t : State} {l : Nat} (h : (t.link l).naked = false) :
    LinkTo t l { t.link l with naked := true } (t.sendNak l) ∧ (t.sendNak l).outbox = t.outbox ++ [.nak l (t.link l).rxSeq] := by
  have hsend : t.sendNak l = (t.setLink l { t.link l with naked := true }).send (.nak l (t.link l).rxSeq) := if_neg (by simp [h])
  rw [hsend]
  exact ⟨linkTo_setLink t l _, rfl⟩

/-- In either case the link waits for the replay, and nothing is taken back of what was sent. -/
theorem sendNak_spec (t : State) (l : Nat) :
    (t.sendNak l).link l = { t.link l with naked := true } ∧ (t.sendNak l).mem = t.mem
      ∧ ∀ o ∈ t.outbox, o ∈ (t.sendNak l).outbox := by
  cases h : (t.link l).naked
  · obtain ⟨⟨hlink, -, honly⟩, hout⟩ := sendNak_first h
    exact ⟨hlink, honly.2.2.1, fun o ho => hout ▸ List.mem_append_left _ ho⟩
  · rw [sendNak_again h]
    refine ⟨?_, rfl, fun _ ho => ho⟩
    rw [← h]

/-! A good flit: its ACK and its credits. -/

/-- What a good flit `f` acknowledges of link `x`, and the credits it returns, as link `y` shows them (R349, R350). -/
def Returned (x : LinkSt) (f : Flit) (y : LinkSt) : Prop :=
  let acked := (f.ack + 4096 - x.acked) % 4096
  y.credits = x.credits.set f.cvc (min (vcBuffers.getD f.cvc 0) (x.credits.getD f.cvc 0 + f.cred))
    ∧ (acked = 0 → y.acked = x.acked ∧ y.replay = x.replay)
    ∧ (0 < acked → acked ≤ x.outstanding → y.acked = f.ack ∧ y.outstanding = x.outstanding - acked)

theorem Returned.of_eq {x y z : LinkSt} {f : Flit} (h : Returned x f y) (hc : z.credits = y.credits) (ha : z.acked = y.acked)
    (hr : z.replay = y.replay) : Returned x f z := by
  unfold Returned LinkSt.outstanding at *
  rw [hc, ha, hr]
  exact h

theorem returned_ackTo_credit (x : LinkSt) (f : Flit) : Returned x f ((x.ackTo f.ack).credit f.cvc f.cred) := by
  have hcredits : (x.ackTo f.ack).credits = x.credits := by unfold LinkSt.ackTo; dsimp only; split <;> rfl
  have hcredit : ((x.ackTo f.ack).credit f.cvc f.cred).credits
      = (x.ackTo f.ack).credits.set f.cvc (min (vcBuffers.getD f.cvc 0) ((x.ackTo f.ack).credits.getD f.cvc 0 + f.cred)) := rfl
  refine ⟨hcredits ▸ hcredit, fun h0 => ?_, fun hpos hle => ?_⟩
  · have hstay : x.ackTo f.ack = x := if_pos (.inl h0)
    rw [hstay]
    exact ⟨rfl, rfl⟩
  · have hmove : x.ackTo f.ack = { x with
        acked := f.ack, futile := 0, replay := dropAcked ((f.ack + 4096 - x.acked) % 4096) x.replay } := if_neg (by omega)
    rw [hmove]
    exact ⟨rfl, dropAcked_total _ _ hle⟩

/-- A good flit's acknowledgement has been taken: state `t` after it and, with NAK set, after the resend. -/
structure Acknowledged (s : State) (l : Nat) (f : Flit) (t : State) : Prop where
  rest : LO s t
  returned : Returned (s.link l) f (t.link l)
  rxSeq : (t.link l).rxSeq = (s.link l).rxSeq
  naked : (t.link l).naked = (s.link l).naked
  owed : (t.link l).owed = (s.link l).owed
  asm : (t.link l).asm = (s.link l).asm
  quiet : f.nak = false → t.outbox = s.outbox
  resent : f.nak = true → (f.ack + 4096 - (s.link l).acked) % 4096 = 0 →
    ∀ o ∈ (s.link l).replay.map (fun i => OutMsg.near l i.first i.tx), o ∈ t.outbox

theorem Acknowledged.mem {s t : State} {l : Nat} {f : Flit} (h : Acknowledged s l f t) : t.mem = s.mem := h.rest.only.2.2.1

/-- What follows the acknowledgement: the flit is in order or a NAK goes out. -/
def flitTaken (l : Nat) (bs : List Byte) (t : State) : State :=
  let f := flitOf bs
  if f.kind = 0 then if f.seq = (t.link l).rxSeq then t else t.sendNak l
  else if f.seq ≠ ((t.link l).rxSeq + 1) % 4096 then t.sendNak l
  else
    let u := t.setLink l { t.link l with rxSeq := f.seq, naked := false }
    if f.kind = 1 then u.takePayload l f.vc ((bs.drop 8).take 240) else u

section Flit

variable {s : State} {l : Nat} {bad : Bool} {bs : List Byte}

theorem nearFlit_bad (hn : l < 18) (hup : (s.link l).phase = .up) (hbad : ¬GoodFlit bad bs) : nearFlit l bad bs s = s.sendNak l := by
  have hflit : flitBad bad bs = true := by
    rw [← Bool.not_eq_false, flitBad_eq_false_iff]
    exact hbad
  simp [nearFlit, near_not_far hn, hup, hflit]

/-- The link whose acknowledged flits and credits have been taken: only these fields differ. -/
theorem ackTo_credit_same (x : LinkSt) (f : Flit) :
    let y := (x.ackTo f.ack).credit f.cvc f.cred
    y.rxSeq = x.rxSeq ∧ y.naked = x.naked ∧ y.owed = x.owed ∧ y.asm = x.asm := by
  unfold LinkSt.credit LinkSt.ackTo
  dsimp only
  split <;> exact ⟨rfl, rfl, rfl, rfl⟩

theorem nearFlit_acknowledged (hn : l < 18) (hup : (s.link l).phase = .up) (hgood : GoodFlit bad bs) (hq : (s.link l).txq = []) :
    ∃ t, Acknowledged s l (flitOf bs) t ∧ nearFlit l bad bs s = flitTaken l bs t := by
  obtain ⟨y, s1, hrest, hlink, hy, hout, hflit⟩ :=
    nearFlit_good s l bad bs (s.link l) rfl (near_not_far hn) hup ((flitBad_eq_false_iff bad bs).2 hgood) hq
  have hreturned : Returned (s.link l) (flitOf bs) y := hy ▸ returned_ackTo_credit _ _
  obtain ⟨hrx, hnaked, howed, hasm⟩ := ackTo_credit_same (s.link l) (flitOf bs)
  rw [← hy] at hrx hnaked howed hasm
  rw [hflit]
  refine ⟨if (flitOf bs).nak then s1.replayLink l else s1, ?_, rfl⟩
  cases hnak : (flitOf bs).nak
  · exact ⟨hrest, hlink ▸ hreturned, hlink ▸ hrx, hlink ▸ hnaked, hlink ▸ howed, hlink ▸ hasm, fun _ => hout,
      fun h => absurd (hnak.symm.trans h) Bool.false_ne_true⟩
  · obtain ⟨⟨hzlink, -, -⟩, hzrest, hzout⟩ := replayLink_spec s1 l
    rw [hlink] at hzlink hzout
    have hlo : LO s (s1.replayLink l) := by
      obtain ⟨L, O, rfl, h1, h2, h3⟩ := hrest
      obtain ⟨L', O', hm, h1', h2', h3'⟩ := hzrest
      exact ⟨L', O', hm, h1'.trans h1, h2'.trans h2, h3'.trans h3⟩
    refine ⟨hlo, ?_, ?_, ?_, ?_, ?_, fun h => absurd (h.symm.trans hnak) Bool.false_ne_true, fun _ h0 o ho => ?_⟩
    · simp only [if_true, hzlink]
      exact hreturned.of_eq rfl rfl rfl
    all_goals simp only [if_true]
    iterate 4 rw [hzlink]; assumption
    rw [hzout, (hreturned.2.1 h0).2]
    exact List.mem_append_right _ ho

/-- A flit that delivers nothing: its KIND carries no data, or it is not the next (R350). -/
theorem flitTaken_no_data {t : State} (h : Acknowledged s l (flitOf bs) t) :
    let x := s.link l
    let f := flitOf bs
    let next := f.seq = (x.rxSeq + 1) % 4096
    let m := flitTaken l bs t
    f.kind ≠ 1 ∨ ¬next → Returned x f (m.link l)
      ∧ (f.kind = 0 → f.seq = x.rxSeq → f.nak = false → (m.link l).rxSeq = x.rxSeq ∧ m.mem = s.mem ∧ m.outbox = s.outbox)
      ∧ (f.kind ≠ 0 → next → (m.link l).rxSeq = f.seq ∧ (m.link l).naked = false ∧ m.mem = s.mem)
      ∧ ((if f.kind = 0 then f.seq ≠ x.rxSeq else ¬next) → x.naked = false → (m.link l).rxSeq = x.rxSeq ∧ m.mem = s.mem
          ∧ (m.link l).naked = true ∧ .nak l x.rxSeq ∈ m.outbox)
      ∧ (f.nak = true → (f.ack + 4096 - x.acked) % 4096 = 0 →
          ∀ o ∈ x.replay.map (fun i => OutMsg.near l i.first i.tx), o ∈ m.outbox) := by
  intro x f next m hdata
  have hnext : f.seq = ((t.link l).rxSeq + 1) % 4096 ↔ next := by rw [h.rxSeq]
  have hmem := h.mem
  obtain ⟨hlink, hnmem, hkeeps⟩ := sendNak_spec t l
  have hfirst : x.naked = false → .nak l x.rxSeq ∈ (t.sendNak l).outbox := fun hn => by
    rw [(sendNak_first (h.naked.trans hn)).2, h.rxSeq]
    exact List.mem_append_right _ (List.mem_singleton_self _)
  have hnak : m = t.sendNak l → Returned x f (m.link l) ∧ (m.link l).rxSeq = x.rxSeq ∧ m.mem = s.mem ∧ (m.link l).naked = true
      ∧ (x.naked = false → .nak l x.rxSeq ∈ m.outbox) ∧ ∀ o ∈ t.outbox, o ∈ m.outbox := fun hm => by
    rw [hm, hlink]
    exact ⟨h.returned.of_eq rfl rfl rfl, h.rxSeq, hnmem.trans hmem, rfl, hfirst, hkeeps⟩
  by_cases hk : f.kind = 0
  · by_cases hs : f.seq = x.rxSeq
    · have hm : m = t := (if_pos hk).trans (if_pos (hs.trans h.rxSeq.symm))
      rw [hm]
      exact ⟨h.returned, fun _ _ hq => ⟨h.rxSeq, hmem, h.quiet hq⟩, fun hne => absurd hk hne,
        fun hout => absurd hs (by simpa [hk] using hout), h.resent⟩
    · obtain ⟨hret, hrx, hmm, hnk, hsent, hall⟩ := hnak ((if_pos hk).trans (if_neg (fun e => hs (e.trans h.rxSeq))))
      exact ⟨hret, fun _ e => absurd e hs, fun hne => absurd hk hne, fun _ hn => ⟨hrx, hmm, hnk, hsent hn⟩,
        fun hn h0 o ho => hall o (h.resent hn h0 o ho)⟩
  · by_cases hx : next
    · have hk1 : f.kind ≠ 1 := hdata.resolve_right (not_not_intro hx)
      have hm : m = t.setLink l { t.link l with rxSeq := f.seq, naked := false } :=
        (if_neg hk).trans ((if_neg (not_not_intro (hnext.2 hx))).trans (if_neg hk1))
      rw [hm, State.link_setLink_same]
      exact ⟨h.returned.of_eq rfl rfl rfl, fun e => absurd e hk, fun _ _ => ⟨rfl, rfl, hmem⟩,
        fun hout => absurd hx (by simpa [hk] using hout), h.resent⟩
    · obtain ⟨hret, hrx, hmm, hnk, hsent, hall⟩ := hnak ((if_neg hk).trans (if_pos (mt hnext.1 hx)))
      exact ⟨hret, fun e => absurd e hk, fun _ e => absurd e hx, fun _ hn => ⟨hrx, hmm, hnk, hsent hn⟩,
        fun hn h0 o ho => hall o (h.resent hn h0 o ho)⟩

end Flit

/-! A WRITE that is delivered. -/

/-- A WRITE to this module that the filter of its partition tag lets store `n` bytes (R353, R465). -/
def Passes (s : State) (h : TxHeader) (n : Nat) : Prop :=
  h.type = 1 ∧ h.dst.toNat = s.rank ∧ h.tag ≠ 0
    ∧ (∃ f, s.tagFunc h.tag.toNat = some f ∧ s.checkRange (.func f) h.addr.toNat n = none) ∧ s.absentPages h.addr.toNat n = []

/-- The bytes are stored at the address, and no tile and no other byte differs. -/
def Stored (s : State) (h : TxHeader) (data : List Byte) (m : State) : Prop :=
  m.readMem h.addr.toNat data.length = data ∧ m.tiles = s.tiles
    ∧ ∀ a n, a + n ≤ h.addr.toNat ∨ h.addr.toNat + data.length ≤ a → m.readMem a n = s.readMem a n

theorem receiveTx_passes {s t : State} (ht : LO s t) (l vc : Nat) {h : TxHeader} {data : List Byte} (hlen : data.length = h.len.toNat)
    (hp : Passes s h data.length) : t.receiveTx l vc h data = t.writeMem h.addr.toNat data := by
  obtain ⟨htype, hdst, htag, ⟨f, hfunc, hrange⟩, hpages⟩ := hp
  exact receive_write ht l vc h data htype hdst htag f hfunc (hlen ▸ hrange) hpages

@[simp] theorem State.links_writeMem (s : State) (a : Nat) (bs : List Byte) : (s.writeMem a bs).links = s.links := by
  rw [State.writeMem_rest]

@[simp] theorem State.outbox_writeMem (s : State) (a : Nat) (bs : List Byte) : (s.writeMem a bs).outbox = s.outbox := by
  rw [State.writeMem_rest]

theorem State.link_writeMem (s : State) (a : Nat) (bs : List Byte) (k : Nat) : (s.writeMem a bs).link k = s.link k :=
  State.link_congr (State.links_writeMem s a bs) k

theorem stored_writeMem {s t : State} (htiles : t.tiles = s.tiles) (hmem : t.mem = s.mem) (h : TxHeader) (data : List Byte) :
    Stored s h data (t.writeMem h.addr.toNat data) := by
  refine ⟨State.readMem_writeMem t _ data, (tiles_writeMem t _ _).trans htiles, fun a n hapart => ?_⟩
  rw [State.readMem_writeMem_other t _ data a n hapart]
  exact congrArg (fun q : MemSt => q.bytes.getRange 0 a n) hmem

/-- The link that has taken a data flit of VC `vc`: it owes one credit more, and no part of a transaction is left. -/
def LinkSt.taken (x : LinkSt) (vc : Nat) : LinkSt :=
  { x with owed := x.owed.set vc (x.owed.getD vc 0 + 1), asm := x.asm.set [] vc [] }

/-- A payload that holds one whole WRITE to this module, on a VC with nothing left of an earlier flit. -/
theorem takePayload_write {s t : State} (ht : LO s t) (l vc : Nat) {payload : List Byte} (hasm : (t.link l).asm.get [] vc = [])
    (hlen : 16 + (txHeaderOf payload).len.toNat ≤ payload.length)
    (hpass : Passes s (txHeaderOf payload) (txHeaderOf payload).len.toNat)
    (hzero : ∀ b ∈ payload.drop (16 + (txHeaderOf payload).len.toNat), b = 0) :
    let m := t.takePayload l vc payload
    m.link l = (t.link l).taken vc ∧ Stored s (txHeaderOf payload) ((payload.drop 16).take (txHeaderOf payload).len.toNat) m
      ∧ m.outbox = t.outbox := by
  intro m
  let x := t.link l
  let data := (payload.drop 16).take (txHeaderOf payload).len.toNat
  let u := t.setLink l { x with owed := x.owed.set vc (x.owed.getD vc 0 + 1) }
  let w := u.writeMem (txHeaderOf payload).addr.toNat data
  have hdata : data.length = (txHeaderOf payload).len.toNat := by simp only [data, List.length_take, List.length_drop]; omega
  have hu : LO s u := ht.setLink l _
  have hone : u.takeTxs l vc 16 payload = (w, []) := by
    rw [take_one u l vc payload hpass.1 hlen hzero, receiveTx_passes hu l vc hdata (by rw [hdata]; exact hpass)]
  have hm : m = w.modLink l (fun x => { x with asm := x.asm.set [] vc [] }) := by
    have htake : m = (u.takeTxs l vc 16 (x.asm.get [] vc ++ payload)).1.modLink l
        (fun y => { y with asm := y.asm.set [] vc (u.takeTxs l vc 16 (x.asm.get [] vc ++ payload)).2 }) := rfl
    rw [htake, show x.asm.get [] vc = [] from hasm, List.nil_append, hone]
  have hwl : w.link l = { x with owed := x.owed.set vc (x.owed.getD vc 0 + 1) } :=
    (State.link_writeMem u _ data l).trans (State.link_setLink_same t l _)
  have hstored : Stored s (txHeaderOf payload) data w := stored_writeMem hu.only.1 hu.only.2.2.1 _ data
  rw [hm]
  refine ⟨?_, hstored, State.outbox_writeMem u _ data⟩
  rw [State.modLink, State.link_setLink_same, hwl]
  rfl

/-- The next data flit, which holds one whole WRITE to this module (R349, R353). -/
theorem flitTaken_write {s t : State} {l : Nat} {bs : List Byte} (ha : Acknowledged s l (flitOf bs) t) (hbs : bs.length = 256) :
    let x := s.link l
    let f := flitOf bs
    let payload := (bs.drop 8).take 240
    let h := txHeaderOf payload
    let m := flitTaken l bs t
    f.kind = 1 → f.seq = (x.rxSeq + 1) % 4096 → x.asm.get [] f.vc = [] → h.len.toNat ≤ 224 → Passes s h h.len.toNat →
      (∀ b ∈ payload.drop (16 + h.len.toNat), b = 0) →
      Returned x f (m.link l) ∧ Stored s h ((payload.drop 16).take h.len.toNat) m ∧ (m.link l).rxSeq = f.seq
        ∧ (m.link l).naked = false ∧ (m.link l).owed = x.owed.set f.vc (x.owed.getD f.vc 0 + 1) ∧ m.outbox = t.outbox := by
  intro x f payload h m hk hnext hasm hlen hpass hzero
  have hfit : 16 + h.len.toNat ≤ payload.length := by simp [payload, hbs]; omega
  let y : LinkSt := { t.link l with rxSeq := f.seq, naked := false }
  let u := t.setLink l y
  have hul : u.link l = y := State.link_setLink_same t l y
  have htake : m = u.takePayload l f.vc payload := by
    have hseq : ¬f.seq ≠ ((t.link l).rxSeq + 1) % 4096 := not_not_intro (by rw [ha.rxSeq]; exact hnext)
    exact (if_neg (by simp [f, hk])).trans ((if_neg hseq).trans (if_pos hk))
  obtain ⟨hlink, hstored, hout⟩ :=
    takePayload_write (ha.rest.setLink l y) l f.vc (by rw [hul]; exact ha.asm ▸ hasm) hfit hpass hzero
  rw [hul] at hlink
  rw [htake, hlink]
  refine ⟨ha.returned.of_eq rfl rfl rfl, hstored, rfl, rfl, ?_, hout⟩
  show (t.link l).owed.set f.vc ((t.link l).owed.getD f.vc 0 + 1) = _
  rw [ha.owed]

/-! WRITEs that arrive otherwise. -/

section Write

variable {s : State} {l : Link} {h : TxHeader} {data : List Byte}

theorem exec_linkWrite (hn : l.val < 18) (hup : (s.link l).phase = .up) (hlen : data.length = h.len.toNat) :
    exec (.linkWriteReceive l h data) s = .next (s.receiveTx l 2 h data) :=
  congrArg Host.Outcome.next (if_pos (by simp [near_not_far hn, hup, hlen]))

theorem badType_write (s : State) (l : Nat) (htype : h.type = 1) : s.badType l h = false := by
  simp [State.badType, htype]

/-- A discarded transaction is counted, and logged once per 2^20 of them (R353). -/
theorem filterOut_spec (s : State) (l : Nat) :
    LinkTo s l { s.link l with filtered := (s.link l).filtered + 1 } (s.filterOut l)
      ∧ (((s.link l).filtered + 1) % 2 ^ 20 = 0 → Logged s (s.filterOut l) Codes.linkFiltered l) := by
  let t := s.setLink l { s.link l with filtered := (s.link l).filtered + 1 }
  have hout : s.filterOut l
      = if ((s.link l).filtered + 1) % 2 ^ 20 = 0 then t.report Codes.linkFiltered (t.linkInfo l) else t := rfl
  have ht : LinkTo s l { s.link l with filtered := (s.link l).filtered + 1 } t := linkTo_setLink s l _
  rw [hout]
  split
  · exact ⟨linkTo_report ht _ _, fun _ => logged_report (t := t) (i := t.linkInfo l) rfl rfl⟩
  · next hne => exact ⟨ht, fun h0 => absurd h0 hne⟩

/-- A WRITE to this module whose tag names no function, or none with the window, does not pass. -/
theorem passFilter_write_refused (htype : h.type = 1) (hlen : data.length = h.len.toNat)
    (hbad : h.tag = 0 ∨ s.tagFunc h.tag.toNat = none
      ∨ ∃ f e, s.tagFunc h.tag.toNat = some f ∧ s.checkRange (.func f) h.addr.toNat data.length = some e) :
    s.passFilter 2 h = false := by
  unfold State.passFilter
  by_cases htag : h.tag = 0
  · simp [htag, htype]
  · rw [if_neg htag]
    rcases hbad with h0 | hnone | ⟨f, e, hfunc, hrange⟩
    · exact absurd h0 htag
    · rw [hnone]
    · rw [hfunc, ← hlen]
      simp [htype, hrange]

theorem receiveTx_filtered (htype : h.type = 1) (hdst : h.dst.toNat = s.rank) (hfilter : s.passFilter 2 h = false) :
    s.receiveTx l 2 h data = s.filterOut l := by
  simp [State.receiveTx, badType_write s l htype, hdst, hfilter]

/-- A WRITE for another module as it is passed on (R353). -/
def forwarded (h : TxHeader) (data : List Byte) : OutTx :=
  { type := 1, chan := h.chan.toNat, src := h.src.toNat, dst := h.dst.toNat, tag := h.tag.toNat, addr := h.addr.toNat, kind := 0,
    nums := [], data := data }

theorem receiveTx_forwarded (htype : h.type = 1) (hdst : h.dst.toNat ≠ s.rank) {b : Nat}
    (hpair : pairOf s.rank h.dst.toNat = some b) :
    s.receiveTx l 2 h data = s.sendNear b 2 (forwarded h data) := by
  have hsend : s.sendTx 2 (forwarded h data) = s.sendNear b 2 (forwarded h data) := by
    simp [State.sendTx, forwarded, hpair]
  rw [← hsend]
  simp [State.receiveTx, badType_write s l htype, hdst, htype, forwarded]

end Write

/-- A WRITE goes out at once on the link of a pair whose turn it is, when that link is UP, nothing waits there and it has the credits
and the room. -/
theorem sendNear_write (s : State) (b vc : Nat) {tx : OutTx} (htype : tx.type = 1) :
    let k := b + (s.link b).odd.toNat
    (s.link k).phase = .up → (s.link k).txq = [] → tx.flits ≤ (s.link k).credits.getD vc 0 →
      (s.link k).outstanding + tx.flits ≤ 2048 →
      (s.sendNear b vc tx).mem = s.mem
        ∧ (s.sendNear b vc tx).outbox = s.outbox ++ [.near k (((s.link k).txSeq + 1) % 4096) tx] := by
  intro k hup hq hcredit hroom
  let t := s.modLink b (fun x => { x with odd := !(s.link b).odd })
  have htk : ∃ o, t.link k = { s.link k with odd := o } := by
    by_cases hkb : k = b
    · exact ⟨!(s.link b).odd, by rw [hkb]; exact State.link_setLink_same s b _⟩
    · exact ⟨(s.link k).odd, State.link_setLink_other s b k _ hkb⟩
  obtain ⟨o, htk⟩ := htk
  let u := t.modLink k (fun x => { x with txq := x.txq ++ [(vc, tx)] })
  have huk : u.link k = { s.link k with odd := o, txq := [(vc, tx)] } := by
    refine (State.link_setLink_same t k _).trans ?_
    rw [htk]
    simp [hq]
  have hsend : s.sendNear b vc tx = u.pump k := by
    simp only [State.sendNear, htype, if_true]
    exact if_pos (by simp [k] at hup; simp [hup])
  have hmay : (u.link k).maySend vc tx = true := by
    rw [huk]
    exact maySend_of hup (.inr htype) hcredit hroom
  have hseq : (u.link k).txSeq = (s.link k).txSeq := by rw [huk]
  rw [hsend, State.pump_one u k vc tx (by rw [huk]) hmay, hseq]
  exact ⟨rfl, rfl⟩

/-- Settles O44: a flit is bad or acknowledged; then it is in order or a NAK goes out. A WRITE is stored, filtered or passed on. -/
theorem linkTraffic : Obligations.LinkTraffic := by
  unfold Obligations.LinkTraffic
  intro s l hn hup x naks passes stored sent
  refine ⟨fun hreplay => ?replay, fun bad bs => ?flit, fun h data hlen htype => 
    ⟨fun hpass => ?stored, fun hdst hbad => ?filtered, fun b hdst hpair => ?forwarded⟩⟩
  case replay =>
    obtain ⟨hlink, -, hout⟩ := replayLink_spec s l
    exact ⟨_, congrArg Host.Outcome.next (if_pos (by simpa [hup] using hreplay)), hout, hlink⟩
  case flit =>
    intro w seq ack nak kind vc cvc cred good acked total payload h next e returned
    have hnak : nak ↔ (flitOf bs).nak = true := by simp [flitOf, bitOf, nak, w]
    refine ⟨fun hbad => ⟨_, rfl, ?nak⟩, fun hgood hq hdata => ?noData, fun hgood hq hk hnext hasm hlen hpass hzero => ?write⟩
    case nak =>
      have hsend : nearFlit l bad bs s = s.sendNak l := nearFlit_bad hn hup hbad
      rw [hsend]
      by_cases hx : x.naked = true
      · exact (if_pos hx).mpr (sendNak_again hx)
      · exact (if_neg hx).mpr (sendNak_first (Bool.not_eq_true _ ▸ hx))
    case noData =>
      obtain ⟨t, ht, hflit⟩ := nearFlit_acknowledged hn hup hgood hq
      obtain ⟨hret, hidle, hnext, hout, hresent⟩ := flitTaken_no_data ht hdata
      rw [← hflit] at hret hidle hnext hout hresent
      exact ⟨_, rfl, hret, fun hk hs hno => hidle hk hs (Bool.not_eq_true _ ▸ mt hnak.2 hno), hnext, hout,
        fun hyes => hresent (hnak.1 hyes)⟩
    case write =>
      obtain ⟨t, ht, hflit⟩ := nearFlit_acknowledged hn hup hgood hq
      obtain ⟨hret, hstored, hrx, hnaked, howed, hout⟩ := flitTaken_write ht hgood.2.1 hk hnext hasm hlen hpass hzero
      rw [← hflit] at hret hstored hrx hnaked howed hout
      exact ⟨_, rfl, hret, hstored, hrx, hnaked, howed, fun hyes h0 o ho => hout ▸ ht.resent (hnak.1 hyes) h0 o ho⟩
  case stored =>
    have hwrite := receiveTx_passes (LO.refl s) l 2 hlen hpass
    exact ⟨_, (exec_linkWrite hn hup hlen).trans (congrArg _ hwrite), State.links_writeMem _ _ _, stored_writeMem rfl rfl h data⟩
  case filtered =>
    have hfilter := receiveTx_filtered (l := l) (data := data) htype hdst (passFilter_write_refused htype hlen hbad)
    exact ⟨_, (exec_linkWrite hn hup hlen).trans (congrArg _ hfilter), filterOut_spec s l⟩
  case forwarded =>
    intro k n hkup hkq hcredit hroom
    have hforward := receiveTx_forwarded (l := l) (data := data) htype hdst hpair
    exact ⟨_, (exec_linkWrite hn hup hlen).trans (congrArg _ hforward), sendNear_write s b 2 rfl hkup hkq hcredit hroom⟩

end Sys2Proof.Machine

namespace Sys2Proof.Machine

open Sys2Proof.Claims

/-! Far sessions (R354 to R357). -/

/-- Nothing but the session with peer `p`, the logs and what is sent differs. -/
def SessOnly (s : State) (p : Nat) (m : State) : Prop :=
  LinksOnly s m ∧ m.links.links = s.links.links ∧ ∀ q, q ≠ p → m.sess q = s.sess q

theorem SessOnly.refl (s : State) (p : Nat) : SessOnly s p s := ⟨LinksOnly.refl s, rfl, fun _ _ => rfl⟩

theorem SessOnly.trans {a b c : State} {p : Nat} (h : SessOnly a p b) (k : SessOnly b p c) : SessOnly a p c := by
  obtain ⟨honly, hlinks, hsess⟩ := h
  obtain ⟨konly, klinks, ksess⟩ := k
  exact ⟨LinksOnly.trans honly konly, klinks.trans hlinks, fun q hq => (ksess q hq).trans (hsess q hq)⟩

theorem sessOnly_setSess (s : State) (p : Nat) (x : FarSess) : SessOnly s p (s.setSess p x) :=
  ⟨LinksOnly.refl s, rfl, fun q hq => (sess_setSess s p q x).trans (if_neg hq)⟩

theorem sessOnly_send (s : State) (p : Nat) (o : OutMsg) : SessOnly s p (s.send o) := ⟨LinksOnly.refl s, rfl, fun _ _ => rfl⟩

theorem sessOnly_report (s : State) (p : Nat) (c : Code) (i : RecInfo) : SessOnly s p (s.report c i) :=
  ⟨linksOnly_report s c i, congrArg LinksSt.links (State.report_links s c i),
    fun q _ => State.sess_congr (State.report_links s c i) q⟩

/-! Handshakes. -/

/-- A handshake that establishes nothing (R357). -/
theorem handshakeFails_spec (s : State) (p : Nat) :
    (s.handshakeFails p).sess p = { s.sess p with hs := .failed } ∧ SessOnly s p (s.handshakeFails p)
      ∧ Logged s (s.handshakeFails p) Codes.linkAuth 0xFFFF := by
  let t := s.setSess p { s.sess p with hs := .failed }
  have hfail : s.handshakeFails p = t.report Codes.linkAuth (peerInfo p) := rfl
  rw [hfail]
  exact ⟨(State.sess_congr (State.report_links t _ _) p).trans (sess_setSess_same s p _),
    (sessOnly_setSess s p _).trans (sessOnly_report t p _ _), logged_report (t := t) (i := peerInfo p) rfl rfl⟩

/-- A handshake that starts with this module's HELLO (R356). -/
theorem startHandshake_spec (s : State) (p : Nat) (r : Bool) :
    (s.startHandshake p r).outbox = s.outbox ++ [.handshake p 1] ∧ SessOnly s p (s.startHandshake p r)
      ∧ (s.startHandshake p r).sess p = { s.sess p with hs := .helloSent, initiator := true, rekey := r } :=
  ⟨rfl, (sessOnly_setSess s p _).trans (sessOnly_send _ p _), sess_setSess_same s p _⟩

theorem commonVersion_eq (v : BitVec 4) :
    commonVersion v.toNat = if v.getLsbD 2 = true then 2 else if v.getLsbD 1 = true then 1 else 0 := by
  unfold commonVersion
  rw [getLsbD_bit, getLsbD_bit]

/-- HELLO of a peer: it crosses this module's own, has no common version, or is answered (R356, R357). -/
theorem hello_spec (s : State) (p : Nat) (v : BitVec 4) :
    let x := s.sess p
    let m := hello p v.toNat s
    let crosses := x.hs = .helloSent ∧ s.rank < p
    (crosses → m = s)
      ∧ (¬crosses → v.getLsbD 1 = false → v.getLsbD 2 = false → m = s.handshakeFails p)
      ∧ (¬crosses → v.getLsbD 1 = true ∨ v.getLsbD 2 = true → SessOnly s p m
          ∧ m.sess p = { x with hs := .finishing, initiator := false, rekey := x.up, version := if v.getLsbD 2 = true then 2 else 1 }
          ∧ m.outbox = s.outbox ++ [.handshake p 2, .handshake p 3]) := by
  intro x m crosses
  refine ⟨fun h => if_pos h, fun h h1 h2 => ?_, fun h hcommon => ?_⟩
  · exact (if_neg h).trans (if_pos (by rw [commonVersion_eq, h1, h2]; rfl))
  · have hversion : commonVersion v.toNat = if v.getLsbD 2 = true then 2 else 1 := by
      rw [commonVersion_eq]
      rcases hcommon with h1 | h2
      · rw [if_pos h1]
      · rw [if_pos h2, if_pos h2]
    have hne : commonVersion v.toNat ≠ 0 := by rw [hversion]; split <;> decide
    let y : FarSess := { x with hs := .finishing, initiator := false, rekey := x.up, version := commonVersion v.toNat }
    have hm : m = ((s.setSess p y).send (.handshake p 2)).send (.handshake p 3) := (if_neg h).trans (if_neg hne)
    rw [hm, ← hversion]
    exact ⟨((sessOnly_setSess s p _).trans (sessOnly_send _ p _)).trans (sessOnly_send _ p _), sess_setSess_same s p _,
      List.append_assoc _ _ _⟩

/-- REPLY to this module's HELLO. -/
theorem reply_spec {s : State} {p : Nat} (h : (s.sess p).hs = .helloSent) (v : Nat) :
    let m := reply p v s
    (v ≠ 1 ∧ v ≠ 2 → m = s.handshakeFails p)
      ∧ (v = 1 ∨ v = 2 → SessOnly s p m ∧ m.sess p = { s.sess p with hs := .finishing, version := v }
          ∧ m.outbox = s.outbox ++ [.handshake p 3]) := by
  intro m
  have hsent : ¬(s.sess p).hs ≠ .helloSent := not_not_intro h
  refine ⟨fun hv => (if_neg hsent).trans (if_pos hv), fun hv => ?_⟩
  have hm : m = (s.setSess p { s.sess p with hs := .finishing, version := v }).send (.handshake p 3) :=
    (if_neg hsent).trans (if_neg (by omega))
  rw [hm]
  exact ⟨(sessOnly_setSess s p _).trans (sessOnly_send _ p _), sess_setSess_same s p _, rfl⟩

/-- The checks of a FINISH pass (R356, R453). -/
def FinishOk (s : State) (c : FinishMsg) : Prop :=
  c.edSig = true ∧ c.mlSig = true ∧ c.chainRoot = true ∧ c.inList = true ∧ s.sec.chainOk.all id = true

/-- The session that a FINISH establishes, with the identifier `id` that the two agree on. -/
def FarSess.established (x : FarSess) (id : BitVec 32) : FarSess :=
  { FarSess.init with up := true, id := id, initiator := x.initiator, version := x.version, txq := x.txq }

section Finish

variable {s : State} {p : Nat} {c : FinishMsg}

theorem finish_refused (h : (s.sess p).hs = .finishing) (hbad : ¬FinishOk s c) : finish p c s = s.handshakeFails p := by
  have hchecks : (!(c.edSig && c.mlSig && c.chainRoot && c.inList && s.sec.chainOk.all id)) = true := by
    rw [← Bool.not_eq_false, Bool.not_eq_false', Bool.and_eq_true, Bool.and_eq_true, Bool.and_eq_true, Bool.and_eq_true]
    exact fun ⟨⟨⟨⟨h1, h2⟩, h3⟩, h4⟩, h5⟩ => hbad ⟨h1, h2, h3, h4, h5⟩
  exact (if_neg (not_not_intro h)).trans (if_pos hchecks)

theorem finish_accepted (h : (s.sess p).hs = .finishing) (hok : FinishOk s c) :
    finish p c s = if ((s.sess p).rekey && (s.sess p).up) = true then
        s.setSess p { s.sess p with hs := .idle, rekey := false, newKeys := true, txNew := true }
      else
        ((farLinks.filter (fun l => (s.link l).phase == .negotiate)).foldl State.linkUp
          (s.draw.2.setSess p ((s.sess p).established (s.draw.1.truncate 32)))).flushFar p := by
  obtain ⟨h1, h2, h3, h4, h5⟩ := hok
  have hchecks : ¬(!(c.edSig && c.mlSig && c.chainRoot && c.inList && s.sec.chainOk.all id)) = true := by
    rw [h1, h2, h3, h4, h5]; decide
  exact (if_neg (not_not_intro h)).trans (if_neg hchecks)

/-- A rekey ends: its new keys wait for the frames under the old ones (R357). -/
theorem finish_rekeyed (h : (s.sess p).hs = .finishing) (hok : FinishOk s c) (hr : (s.sess p).rekey = true)
    (hup : (s.sess p).up = true) :
    SessOnly s p (finish p c s)
      ∧ (finish p c s).sess p = { s.sess p with hs := .idle, rekey := false, newKeys := true, txNew := true } := by
  rw [finish_accepted h hok, if_pos (by rw [hr, hup]; rfl)]
  exact ⟨sessOnly_setSess s p _, sess_setSess_same s p _⟩

/-- A session is established with nothing to send: the far links that waited for one are UP (R346, R357). -/
theorem finish_established (h : (s.sess p).hs = .finishing) (hok : FinishOk s c)
    (hnew : ¬((s.sess p).rekey = true ∧ (s.sess p).up = true)) (hq : ∀ q, (s.sess q).txq = []) :
    LinksOnly s (finish p c s) ∧ (finish p c s).sess p = (s.sess p).established (s.draw.1.truncate 32)
      ∧ ∀ u : Link, 18 ≤ u.val → (s.link u).phase = .negotiate → ((finish p c s).link u).phase = .up := by
  let t := s.draw.2.setSess p ((s.sess p).established (s.draw.1.truncate 32))
  let far := farLinks.filter (fun l => (s.link l).phase == .negotiate)
  have hfar : ∀ k ∈ far, isFar k = true := fun k hk => by
    have hin : k ∈ farLinks := List.mem_of_mem_filter hk
    fin_cases hin <;> rfl
  have htp : t.sess p = (s.sess p).established (s.draw.1.truncate 32) := sess_setSess_same s.draw.2 p _
  have htq : ∀ q, (t.sess q).txq = [] := fun q => by
    by_cases hqp : q = p
    · rw [hqp, htp]
      exact hq p
    · rw [show t.sess q = s.sess q from (sess_setSess s.draw.2 p q _).trans (if_neg hqp)]
      exact hq q
  obtain ⟨honly, hsess, hphase⟩ := linkUps_idle far t hfar htq
  have hsessq : ∀ q, (far.foldl State.linkUp t).sess q = t.sess q := fun q => by unfold State.sess; rw [hsess]
  have hm : finish p c s = far.foldl State.linkUp t := by
    rw [finish_accepted h hok, if_neg (by rw [Bool.and_eq_true]; exact hnew)]
    exact flushFar_idle _ p (by rw [hsessq]; exact htq p)
  rw [hm]
  refine ⟨LinksOnly.trans (linksOnly_draw s) honly, (hsessq p).trans htp, fun u hu hneg => ?_⟩
  have hin : u.val ∈ far := by
    refine List.mem_filter.2 ⟨?_, by simp [hneg]⟩
    rw [show farLinks = List.range' 18 6 from rfl, List.mem_range'_1]
    exact ⟨hu, u.isLt⟩
  rw [hphase u, if_pos hin]

end Finish

theorem exec_handshakeTimeout {s : State} {p : BitVec 15} (h : (s.sess p.toNat).hs = .helloSent ∨ (s.sess p.toNat).hs = .finishing) :
    exec (.handshakeTimeout p) s = .next (s.handshakeFails p.toNat) := by
  show execHandshakeTimeout p s = _
  rcases h with h | h <;> simp only [execHandshakeTimeout, h]

/-! Resends. -/

section Resend

variable {s : State} {p seq : Nat} {i : FarItem}

theorem farResend_again (hfind : (s.sess p).unacked.find? (fun i => i.seq == seq) = some i) (hi : i.resends < 16) {u : Nat}
    (hu : s.farLink = some u) : farResend p seq s = (s.setSess p { s.sess p with
      unacked := (s.sess p).unacked.map (fun (j : FarItem) => if j.seq = seq then { j with resends := j.resends + 1 } else j) }).send
        (.far u seq i.tx) := by
  simp only [farResend, hfind, hu, if_neg (Nat.not_le.2 hi)]

/-- The session is lost, and a handshake starts (R355). -/
theorem farResend_lost (hfind : (s.sess p).unacked.find? (fun i => i.seq == seq) = some i) (hi : 16 ≤ i.resends) :
    let m := farResend p seq s
    SessOnly s p m ∧ (m.sess p).up = false ∧ (m.sess p).unacked = [] ∧ (m.sess p).hs = .helloSent
      ∧ Logged s m Codes.linkSessionLost 0xFFFF ∧ m.outbox = s.outbox ++ [.handshake p 1] := by
  intro m
  let lost : FarSess := { s.sess p with up := false, unacked := [], held := [], newKeys := false, txNew := false }
  let t := (s.setSess p lost).report Codes.linkSessionLost (peerInfo p)
  have hm : m = t.startHandshake p false := by simp only [m, farResend, hfind, if_pos hi]; rfl
  have htp : t.sess p = lost := (State.sess_congr (State.report_links _ _ _) p).trans (sess_setSess_same s p lost)
  have htout : t.outbox = s.outbox := State.report_outbox _ _ _
  have hlog : Logged s t Codes.linkSessionLost 0xFFFF := logged_report (t := s.setSess p lost) (i := peerInfo p) rfl rfl
  obtain ⟨hout, honly, hsess⟩ := startHandshake_spec t p false
  rw [hm, hsess, htp]
  exact ⟨((sessOnly_setSess s p lost).trans (sessOnly_report _ p _ _)).trans honly, rfl, rfl, rfl,
    logged_grow hlog (Grows.of_eq rfl), hout.trans (by rw [htout])⟩

end Resend

/-! Frames that arrive. -/

/-- A frame that no session takes is counted, and logged once per 2^20 (R354). -/
theorem authFails_spec (s : State) (l : Nat) :
    LinkTo s l { s.link l with authFail := (s.link l).authFail + 1 } (s.authFails l) ∧ (s.authFails l).links.sess = s.links.sess
      ∧ (((s.link l).authFail + 1) % 2 ^ 20 = 0 → Logged s (s.authFails l) Codes.linkPlaintext l) := by
  let t := s.setLink l { s.link l with authFail := (s.link l).authFail + 1 }
  have hout : s.authFails l
      = if ((s.link l).authFail + 1) % 2 ^ 20 = 0 then t.report Codes.linkPlaintext (t.linkInfo l) else t := rfl
  have ht : LinkTo s l { s.link l with authFail := (s.link l).authFail + 1 } t := linkTo_setLink s l _
  rw [hout]
  split
  · exact ⟨linkTo_report ht _ _, (congrArg LinksSt.sess (State.report_links t _ _)).trans rfl,
      fun _ => logged_report (t := t) (i := t.linkInfo l) rfl rfl⟩
  · next hne => exact ⟨ht, rfl, fun h0 => absurd h0 hne⟩

/-! A frame that a session takes. -/

/-- Nothing is delivered, and nothing is sent. -/
theorem frame_settles {t : State} {l p : Nat} (hturn : (t.sess p).held.find? (fun q => q.1 == (t.sess p).rxNext) = none)
    (hq : (t.sess p).txq = []) : (t.drainFar l p 1).flushFar p = t := by
  have hdrain : t.drainFar l p 1 = t := by simp only [State.drainFar, hturn]
  rw [hdrain, flushFar_idle t p hq]

theorem lo_setSess {s t : State} (h : LO s t) (p : Nat) (x : FarSess) : LO s (t.setSess p x) := by
  obtain ⟨L, O, rfl, hvalid, htwin, hrrc⟩ := h
  exact ⟨_, _, rfl, hvalid, htwin, hrrc⟩

/-- A frame that holds one whole WRITE to this module. -/
theorem takeFrame_write {s t : State} (ht : LO s t) (l n : Nat) {h : TxHeader} {payload : List Byte} (hh : txHeaderOf payload = h)
    (hlen : payload.length = 16 + h.len.toNat) (hpass : Passes s h h.len.toNat) :
    t.takeFrame_ l (n + 1 + 1) payload = t.writeMem h.addr.toNat (payload.drop 16) := by
  have hdata : (payload.drop 16).length = h.len.toNat := by simp [hlen]
  have htake : payload.take (16 + h.len.toNat) = payload := List.take_of_length_le (by omega)
  have hrest : payload.drop (16 + h.len.toNat) = [] := List.drop_of_length_le (by omega)
  have hfirst : t.takeFrame_ l (n + 1 + 1) payload
      = (t.receiveTx l (vcOf h.type.toNat) h (payload.drop 16)).takeFrame_ l (n + 1) [] := by
    rw [State.takeFrame_, if_neg (by omega)]
    simp only [hh]
    rw [if_neg (by omega), htake, hrest]
  rw [hfirst, receiveTx_passes ht l _ hdata (by rw [hdata]; exact hpass)]
  rfl

/-- The frame whose turn it is, delivered with nothing else held and nothing to send. -/
theorem frame_delivers {s t : State} (ht : LO s t) {l p : Nat} {y : FarSess} {h : TxHeader} {payload : List Byte}
    (hy : t.sess p = { y with held := [(y.rxNext, payload)] }) (hq : y.txq = []) (hh : txHeaderOf payload = h)
    (hlen : payload.length = 16 + h.len.toNat) (hpass : Passes s h h.len.toNat) :
    (((t.drainFar l p 1).flushFar p).sess p).rxNext = y.rxNext + 1
      ∧ Stored s h (payload.drop 16) ((t.drainFar l p 1).flushFar p) := by
  let z : FarSess := { y with rxNext := y.rxNext + 1, held := [] }
  let u := t.setSess p z
  let w := u.writeMem h.addr.toNat (payload.drop 16)
  have hu : LO s u := lo_setSess ht p z
  have hturn : t.drainFar l p 1 = (u.takeFrame_ l 576 payload).drainFar l p 0 := by
    simp [State.drainFar, hy, u, z]
  have hdrain : t.drainFar l p 1 = w := by
    rw [hturn, takeFrame_write hu l 574 hh hlen hpass]
    rfl
  have hwp : w.sess p = z := (State.sess_congr (State.links_writeMem u _ _) p).trans (sess_setSess_same t p z)
  rw [hdrain, flushFar_idle w p (by rw [hwp]; exact hq), hwp]
  exact ⟨rfl, stored_writeMem hu.only.1 hu.only.2.2.1 h _⟩

theorem farFrame_refused {s : State} {l : Link} {f : FarFrame} (hl : 18 ≤ l.val) (hup : (s.link l).phase = .up)
    (h : f.authentic = false ∨ (s.sess f.src.toNat).up = false ∨ f.session ≠ (s.sess f.src.toNat).id ∨ f.dst.toNat ≠ s.rank) :
    farFrame l f s = s.authFails l := by
  have hfar := far_of_not_near (Nat.not_lt.2 hl)
  rcases h with h | h | h | h <;> simp [farFrame, hfar, hup, h]

/-- The session after the header of a frame that it takes under its present keys: acknowledged frames leave (R355). -/
def FarSess.acks (x : FarSess) (f : FarFrame) : FarSess :=
  { x with unacked := x.unacked.filter (fun i => decide (f.ack < i.seq)), rxFrames := x.rxFrames + 1 }

section Frame

variable {s : State} {l : Link} {f : FarFrame} {x : FarSess} (hx : s.sess f.src.toNat = x) (hl : 18 ≤ l.val)
  (hup : (s.link l).phase = .up)
  (htaken : f.authentic = true ∧ x.up = true ∧ f.session = x.id ∧ f.dst.toNat = s.rank ∧ f.newKeys = false)
  (hq : x.txq = []) (hheld : x.held = [])

include hx hl hup htaken hheld

/-- A taken frame of a session that holds none: held where it lies in the window, and then delivered if it is its turn. -/
theorem farFrame_taken :
    farFrame l f s = ((s.setSess f.src.toNat
      (if f.seq < x.rxNext ∨ x.rxNext + 4096 ≤ f.seq then x.acks f else { x.acks f with held := [(f.seq, f.payload)] })).drainFar
        l f.src.toNat 1).flushFar f.src.toNat := by
  obtain ⟨ha, hsess, hid, hdst, hkeys⟩ := htaken
  have hfar := far_of_not_near (Nat.not_lt.2 hl)
  simp [farFrame, hfar, hup, hx, ha, hsess, hid, hdst, hkeys, hheld, FarSess.acks]

include hq

/-- A duplicate, or a frame outside the window of 4,096, delivers nothing. -/
theorem farFrame_outside (h : f.seq < x.rxNext ∨ x.rxNext + 4096 ≤ f.seq) : farFrame l f s = s.setSess f.src.toNat (x.acks f) := by
  rw [farFrame_taken hx hl hup htaken hheld, if_pos h]
  refine frame_settles ?_ ?_ <;> rw [sess_setSess_same]
  · rw [show (x.acks f).held = [] from hheld]
    rfl
  · exact hq

/-- A frame ahead of its turn is held. -/
theorem farFrame_held (hlt : x.rxNext < f.seq) (hwin : f.seq < x.rxNext + 4096) :
    farFrame l f s = s.setSess f.src.toNat { x.acks f with held := [(f.seq, f.payload)] } := by
  rw [farFrame_taken hx hl hup htaken hheld, if_neg (by omega)]
  refine frame_settles ?_ ?_ <;> rw [sess_setSess_same]
  · have hne : ¬f.seq = (x.acks f).rxNext := Nat.ne_of_gt hlt
    simp [hne]
  · exact hq

/-- The next in order, one whole WRITE to this module, is stored. -/
theorem farFrame_next {h : TxHeader} (hnext : f.seq = x.rxNext) (hh : txHeaderOf f.payload = h)
    (hlen : f.payload.length = 16 + h.len.toNat) (hpass : Passes s h h.len.toNat) :
    ((farFrame l f s).sess f.src.toNat).rxNext = x.rxNext + 1 ∧ Stored s h (f.payload.drop 16) (farFrame l f s) := by
  rw [farFrame_taken hx hl hup htaken hheld, if_neg (by omega), hnext]
  exact frame_delivers (y := x.acks f) (lo_setSess (LO.refl s) _ _) (sess_setSess_same s _ _) hq hh hlen hpass

end Frame

/-- Settles O45: a frame is refused, held or delivered, a resend is counted or loses the session, and each handshake message has
its outcome. -/
theorem farSessions : Obligations.FarSessions := by
  unfold Obligations.FarSessions
  intro s p x only failed greets
  have hfailed : failed (s.handshakeFails p.toNat) := handshakeFails_spec s p.toNat
  refine ⟨?frames, ?resends, ?hello, ?reply, ?finish, fun h => ⟨_, exec_handshakeTimeout h, hfailed⟩,
    fun h => ⟨_, congrArg Host.Outcome.next (if_pos h), startHandshake_spec s p.toNat x.up⟩,
    fun hup h => ⟨_, congrArg Host.Outcome.next (if_pos ⟨hup, h⟩), startHandshake_spec s p.toNat true⟩⟩
  case frames =>
    rintro l f rfl hl hup taken e
    refine ⟨fun h => ⟨_, congrArg Host.Outcome.next (farFrame_refused hl hup h), authFails_spec s l⟩, ?_⟩
    intro htaken hq hheld _
    refine ⟨_, rfl, fun hout => ?outside, fun hlt hwin => ?held, fun h hnext hh hlen htype hdst htag hrange hpages => ?next⟩
    case outside =>
      have hframe : farFrame l f s = _ := farFrame_outside rfl hl hup htaken hq hheld hout
      rw [hframe]
      exact ⟨sessOnly_setSess s _ _, rfl, sess_setSess_same s _ _⟩
    case held =>
      have hframe : farFrame l f s = _ := farFrame_held rfl hl hup htaken hq hheld hlt hwin
      rw [hframe, sess_setSess_same]
      exact ⟨sessOnly_setSess s _ _, rfl, rfl⟩
    case next =>
      have hdata : (f.payload.drop 16).length = h.len.toNat := by simp [hlen]
      obtain ⟨hrx, hmem, htiles, -⟩ := farFrame_next rfl hl hup htaken hq hheld hnext hh hlen ⟨htype, hdst, htag, hrange, hpages⟩
      exact ⟨hrx, htiles, hdata ▸ hmem⟩
  case resends =>
    intro seq i hfind
    refine ⟨fun hi u hu => ⟨_, congrArg Host.Outcome.next (farResend_again hfind hi hu), ?_, rfl, ?_⟩,
      fun hi => ⟨_, rfl, farResend_lost hfind hi⟩⟩
    · exact (sessOnly_setSess s _ _).trans (sessOnly_send _ _ _)
    · exact congrArg FarSess.unacked (sess_setSess_same s p.toNat _)
  case hello =>
    intro v
    obtain ⟨hcross, hnone, hanswer⟩ := hello_spec s p.toNat v
    exact ⟨_, rfl, fun h hlt => hcross ⟨h, hlt⟩, fun h h1 h2 => (hnone h h1 h2) ▸ hfailed, hanswer⟩
  case reply =>
    intro h v
    obtain ⟨hnone, hanswer⟩ := reply_spec h v
    exact ⟨_, rfl, fun hv => (hnone hv) ▸ hfailed, hanswer⟩
  case finish =>
    intro h c ok
    refine ⟨_, rfl, fun hbad => ?_, finish_rekeyed h, fun hok hnew hq hothers => ?_⟩
    · have hfinish : finish p.toNat c s = s.handshakeFails p.toNat := finish_refused h hbad
      exact hfinish ▸ hfailed
    · have hall : ∀ q, (s.sess q).txq = [] := fun q => by
        by_cases hqp : q = p.toNat
        · rw [hqp]; exact hq
        · exact hothers q hqp
      obtain ⟨honly, hsess, hphase⟩ := finish_established h hok hnew hall
      refine ⟨?_, ?_, ?_, ?_, ?_, honly, hphase⟩ <;> rw [hsess] <;> rfl

end Sys2Proof.Machine

namespace Sys2Proof.Machine

open Sys2Proof.Claims

/-! Messages of a collective (R371, R372, R375, R376, R382). -/

/-- A peer's COMPLETE on a channel that holds nothing back for it (R372). -/
theorem complete_note (s : State) (c : Chan) (p : BitVec 14) (seq : Nat) (hjob : (s.chan c).job ≠ 0) (hhold : (s.chan c).hold = []) :
    ∃ m, exec (.complete c p seq) s = .next m ∧ m.mem = s.mem ∧ m.tiles = s.tiles ∧ (∀ e : Chan, e ≠ c → m.chan e = s.chan e)
      ∧ m.chan c = { s.chan c with peers := (m.chan c).peers, hold := [] }
      ∧ (m.chan c).peers.get 0 p.toNat = max seq ((s.chan c).peers.get 0 p.toNat) := by
  have hdone : s.colPeerDone c p.toNat seq = s.setChan c { s.chan c with
      peers := (s.chan c).peers.set 0 p.toNat (max seq ((s.chan c).peers.get 0 p.toNat)), hold := [] } := by
    simp [State.colPeerDone, hhold]
  have hexec : exec (.complete c p seq) s = .next (s.colPeerDone c p.toNat seq) := congrArg Host.Outcome.next (if_neg hjob)
  refine ⟨_, hexec.trans (congrArg _ hdone), rfl, rfl, fun e he => State.chan_setChan_other s c e _ (Fin.val_ne_of_ne he), ?_, ?_⟩
  · rw [State.chan_setChan_same]
  · rw [State.chan_setChan_same]
    exact SMap.get_set_same _ _ _ _

/-- Settles O48: a collective that has sent its POST waits (`Fresh`), and each message leaves a row that waits again. -/
theorem colMessages : Obligations.ColMessages := by
  unfold Obligations.ColMessages
  intro s c x hrun hqueue hmember hinbox hform hphase hop hcount
  have hx : Fresh s c x := ⟨hrun, hqueue, hmember, hinbox, hform, hphase, hop, hcount⟩
  refine ⟨fun q k => post_note hx q k, fun k u n rs => ⟨ready_note hx k u n rs, root_note hx k u n rs⟩,
    fun k us n rs => ⟨go_note hx k us n rs, twin_note hx k us⟩, ?chunks, ?shuffle, complete_note s c⟩
  case chunks =>
    rintro k q off n tag data ⟨htag, hjob, hfunc⟩ hop1 hq t value ob hgroup hn
    exact ⟨up_note hx k q off n tag data htag hjob hfunc hop1 hq hgroup hn,
      down_note hx k q off n ob tag data htag hjob hfunc hop1 hq hgroup hn rfl⟩
  case shuffle =>
    rintro src dst n sent tag data ⟨htag, hjob, hfunc⟩ hop4 hfmt hdst hsrc hn hcap hsent e i slot row
    exact shuffle_note hx src dst n sent e tag data htag hjob hfunc hop4 hfmt hdst hsrc hn hcap rfl hsent

end Sys2Proof.Machine

namespace Sys2Proof.Machine

open Claims

/-! States that meet the hypotheses of O42 to O45 and O48. -/

/-- A module of rank 0 with the given links and session with peer 5: tag 5 names function 0, which has die 0 and reaches page 0. -/
def linkedState (links : SMap LinkSt) (peer : FarSess) : State :=
  let s := tierState (.resident 0) none
  { s with
    links := { LinksSt.init with rankValid := true, links := links, sess := [(5, peer)] }
    sec := { s.sec with tags := s.sec.tags.set 0 0 0x80000005, chainOk := [true, true] }
    sched := { s.sched with partition := s.sched.partition.set 0 0 1 } }

/-- A link in UP at version 2. -/
def upLink : LinkSt := { LinkSt.init with phase := .up, version := 2, enable := true }

/-- O42 applies to link 0 in NEGOTIATE: its peer is the module of rank 1, and version 2 is common. -/
theorem linkTraining_negotiates :
    let s := linkedState [(0, { upLink with phase := .negotiate })] .init
    ∃ m : State, exec (.negotiateFlit 0 6 1 0) s = .next m ∧ (m.link 0).phase = .up ∧ (m.link 0).peer = 1 ∧ (m.link 0).version = 2 := by
  intro s
  obtain ⟨-, -, -, -, -, -, -, -, -, hnegotiate, -⟩ := linkTraining s 0
  obtain ⟨m, hexec, -, -, hup⟩ := hnegotiate (by decide) rfl 6 1 0
  obtain ⟨hphase, hpeer, -, hversion⟩ := hup (by decide) (by decide)
  exact ⟨m, hexec, hphase, hpeer.trans (by decide), hversion⟩

/-- A WRITE of four bytes at 0x1000 to the module of rank 0, under tag 5. -/
def writeTx : OutTx := forwarded ⟨1, 0, 1, 0, 4, 5, 0x1000⟩ [1, 2, 3, 4]

/-- O43 applies to a link that is taken out of service: its unacknowledged WRITE goes out on the pair's other link. -/
theorem linkControl_failsOver :
    let s := linkedState [(0, { upLink with replay := [⟨2, 1, 1, writeTx⟩] }), (1, upLink)] .init
    ∃ m : State, exec (.linkEnable 0 false) s = .next m ∧ (m.link 0).phase = .disabled ∧ m.outbox = [.near 1 1 writeTx] := by
  intro s
  obtain ⟨-, -, hlinks⟩ := linkControl s
  obtain ⟨-, -, -, -, hover, -⟩ := hlinks 0
  obtain ⟨m, hexec, ⟨hphase, -⟩, -, -, hsent⟩ := hover (by decide) (by decide) (by decide)
  exact ⟨m, hexec, hphase, hsent 2 1 writeTx 1 rfl rfl rfl rfl rfl (by decide) (by decide)⟩

/-- The bytes of a data flit of SEQ 1 on VC 2 before its CRC: it holds the WRITE of `writeTx`. -/
def flitBody : List Byte :=
  natLe 8 (2 ^ 52 + 2 ^ 37 + 2 ^ 36)
    ++ (natLe 16 (2 ^ 124 + 2 ^ 105 + 4 * 2 ^ 77 + 5 * 2 ^ 64 + 0x1000) ++ [1, 2, 3, 4] ++ List.replicate 220 0)

theorem flitBody_length : flitBody.length = 248 := by
  simp only [flitBody, List.length_append, natLe_length, List.length_replicate, List.length_cons, List.length_nil]

/-- The flit with its CRC. -/
def writeFlit : List Byte := flitBody ++ natLe 8 (crc64 flitBody).toNat

theorem writeFlit_crc : leNat (writeFlit.drop 248) = (crc64 (writeFlit.take 248)).toNat := by
  have htake : writeFlit.take 248 = flitBody := List.take_left' flitBody_length
  have hdrop : writeFlit.drop 248 = natLe 8 (crc64 flitBody).toNat := List.drop_left' flitBody_length
  rw [htake, hdrop, leNat_natLe]
  exact Nat.mod_eq_of_lt (crc64 flitBody).isLt

theorem writeFlit_word : writeFlit.take 8 = flitBody.take 8 :=
  List.take_append_of_le_length (by rw [flitBody_length]; omega)

theorem writeFlit_payload : (writeFlit.drop 8).take 240 = flitBody.drop 8 := by
  have hlen : (flitBody.drop 8).length = 240 := by rw [List.length_drop, flitBody_length]
  rw [writeFlit, List.drop_append_of_le_length (by rw [flitBody_length]; omega), List.take_left' hlen]

/-- O44 applies to the flit: its bytes are stored, and SEQ 1 is the last in order. -/
theorem linkTraffic_stores :
    ∃ m : State, exec (.nearFlitReceive 0 false writeFlit) (linkedState [(0, upLink)] .init) = .next m
      ∧ m.readMem 0x1000 4 = [1, 2, 3, 4] ∧ (m.link 0).rxSeq = 1 := by
  obtain ⟨-, hflit, -⟩ := linkTraffic (linkedState [(0, upLink)] .init) 0 (by decide) rfl
  obtain ⟨-, -, hwrite⟩ := hflit false writeFlit
  dsimp only at hwrite
  rw [writeFlit_word, writeFlit_payload] at hwrite
  have hlen : writeFlit.length = 256 := by rw [writeFlit, List.length_append, natLe_length, flitBody_length]
  have hgood : GoodFlit false writeFlit :=
    ⟨rfl, hlen, writeFlit_crc, by rw [flitOf, writeFlit_word]; decide, by rw [writeFlit_word]; decide⟩
  have hpass : Passes (linkedState [(0, upLink)] .init) (txHeaderOf (flitBody.drop 8)) 4 :=
    ⟨by decide, by decide, by decide, ⟨0, by decide, by decide⟩, by decide⟩
  obtain ⟨m, hexec, -, ⟨hmem, -⟩, hseq, -⟩ :=
    hwrite (writeFlit_word ▸ hgood) rfl (by decide) (by decide) rfl (by decide) hpass (by decide)
  exact ⟨m, hexec, hmem, hseq⟩

/-- O45 applies to a FINISH whose checks pass: the session with peer 5 is up at version 2, and far link 18 is UP. -/
theorem farSessions_establishes :
    let s := linkedState [(18, { upLink with phase := .negotiate })] { FarSess.init with hs := .finishing, version := 2 }
    ∃ m : State, exec (.finish 5 ⟨true, true, true, true⟩) s = .next m
      ∧ (m.sess 5).up = true ∧ (m.sess 5).version = 2 ∧ (m.link 18).phase = .up := by
  intro s
  have hothers : ∀ q, q ≠ (5 : BitVec 15).toNat → (s.sess q).txq = [] := fun q hq => by
    have hkey : ((5 : Nat) == q) = false := beq_false_of_ne (Ne.symm hq)
    simp [s, linkedState, State.sess, SMap.get, hkey, FarSess.init]
  obtain ⟨-, -, -, -, hfinish, -⟩ := farSessions s 5
  obtain ⟨m, hexec, -, -, hup⟩ := hfinish rfl ⟨true, true, true, true⟩
  obtain ⟨hsess, -, -, -, hversion, -, hlinks⟩ := hup ⟨rfl, rfl, rfl, rfl, rfl⟩ (by decide) rfl hothers
  exact ⟨m, hexec, hsess, hversion, hlinks 18 (by decide) rfl⟩

/-- An ALL_REDUCE of one element, SEQ 1, of the modules of ranks 0 and 1 of a tray. -/
def pairRun : ColRun :=
  let bytes := [0, 0, 1, 0, 0, 0, 0, 0, 1, 0, 0, 0, 0, 0, 0, 0, 1] ++ List.replicate 111 0
  { ColRun.start 1 (colDescOf bytes) [0, 1] with posted := true }

/-- It is posted on channel 3 of the module of rank 0. -/
def pairState : State := State.reset.setChan 3 { ChanCol.init with job := 1, posted := 1, run := some pairRun }

/-- O48 applies to the other member's POST: its unit is marked at the decider of the tray trick. -/
theorem colMessages_posts : ∃ m : State, exec (.post 3 1 pairRun.desc.header) pairState = .next m
    ∧ (m.chan 3).run = some { pairRun with posts := [(1, 1)] } := by
  obtain ⟨hpost, -⟩ :=
    colMessages pairState 3 pairRun rfl rfl (by decide) (by decide) rfl (by decide) (by decide) (by decide)
  obtain ⟨m, hexec, ⟨hchan, -⟩, -⟩ := hpost 1 1 (by decide) (by decide) (by decide) (by decide) (by decide)
  exact ⟨m, hexec, congrArg ChanCol.run hchan⟩

end Sys2Proof.Machine

namespace Sys2Proof.Machine

/-! Posting a collective (R361 to R365, R388, R389). -/

/-- A job that may post has a descriptor for an idle channel that carries its sequence, and nothing of it has arrived. -/
structure Posting (s : State) (c : Chan) (j a : Nat) (jb : JobSt) (d : ColDesc) (ms : List Nat) : Prop where
  desc : d = colDescOf (s.readMem a 128)
  members : ms = s.colMembers d
  idle : (s.chan c).run = none
  queue : (s.chan c).queue = []
  tests : s.boot.queue = []
  job : s.job j = some jb
  may : jb.mayPost = true
  own : (s.chan c).job = j
  chan : d.chan = c.val
  inbox : ∀ q ∈ (s.chan c).inbox, q.1 ≠ d.seq

/-- The checks of R365 pass. -/
def State.postOk (s : State) (c : Chan) (j : Nat) (jb : JobSt) (d : ColDesc) (ms : List Nat) : Prop :=
  s.colDescBad (s.chan c) j jb d ms = false ∧ s.colPathBad ms = false

/-- A check of R365 fails, with its code. -/
def State.postFails (s : State) (c : Chan) (j : Nat) (jb : JobSt) (d : ColDesc) (ms : List Nat) (bad : Code) : Prop :=
  bad = Codes.colDesc ∧ s.colDescBad (s.chan c) j jb d ms = true
    ∨ bad = Codes.colPath ∧ s.colDescBad (s.chan c) j jb d ms = false ∧ s.colPathBad ms = true

/-- The row of a channel with a collective that has just been posted. -/
def ChanCol.withPost (y : ChanCol) (d : ColDesc) (x : ColRun) : ChanCol :=
  { y with run := some x, aborted := false, posted := d.seq }

theorem JobSt.fault_of_mayPost {jb : JobSt} (h : jb.mayPost = true) : jb.fault = none := by
  simp only [JobSt.mayPost, Bool.and_eq_true, Option.isNone_iff_eq_none] at h
  exact h.1.1.2

section Posting

variable {s : State} {c : Chan} {j a : Nat} {jb : JobSt} {d : ColDesc} {ms : List Nat} (h : Posting s c j a jb d ms)
include h

theorem Posting.colPost_eq : s.colPost d.op j a = (s.colPostNow c j jb a).colSettle c :=
  colPost_go s c d.op j a jb h.idle h.queue h.tests h.job h.may (h.desc ▸ h.chan) (h.desc ▸ rfl)

/-- A post that passes has put the collective on its channel; then the channel makes progress. -/
theorem Posting.passes (hop : d.op ≠ 6) (hok : s.postOk c j jb d ms) :
    ∃ m, s.colPost d.op j a = (m.colRun c).colSettle c ∧ ChanTo s c ((s.chan c).withPost d (ColRun.start j d ms)) m := by
  have hnow := colPostNow_ok s c j a jb h.own
  simp only [← h.desc, ← h.members] at hnow
  obtain ⟨m, hpost, hrow⟩ := hnow hop hok.1 hok.2
  exact ⟨m, by rw [h.colPost_eq, hpost], hrow⟩

theorem Posting.waits_lowest (hop : d.op ≠ 6) (hok : s.postOk c j jb d ms) (hlowest : ms.head? = some s.me) :
    ChanTo s c ((s.chan c).withPost d (ColRun.start j d ms)) (s.colPost d.op j a) := by
  obtain ⟨m, hpost, hrow⟩ := h.passes hop hok
  obtain ⟨hmember, hcount, hops⟩ := descOk _ _ _ _ _ _ hok.1
  rw [hpost, start_head s m c j d ms _ hrow rfl h.inbox h.queue hlowest hmember hcount hops]
  exact hrow

theorem Posting.sends_post (hop : d.op ≠ 6) (hok : s.postOk c j jb d ms) (htray : postTrick ms s.me = some 1) :
    ChanSends s c ((s.chan c).withPost d { ColRun.start j d ms with posted := true }) (s.colPost d.op j a) := by
  obtain ⟨m, hpost, hrow⟩ := h.passes hop hok
  obtain ⟨hmember, hcount, hops⟩ := descOk _ _ _ _ _ _ hok.1
  rw [hpost]
  exact start_posts s m c j d ms _ hrow rfl h.inbox h.queue htray hmember hcount hops

/-- A post that fails on a module alone: the collective had entered the channel's row, and has ended. -/
theorem Posting.fails {bad : Code} (hbad : s.postFails c j jb d ms bad) (halone : ∀ q ∈ ms, q = s.me) :
    ∃ m y, ChanTo s c y m ∧ Ended m c (ColRun.start j d ms) bad (s.colPost d.op j a) := by
  have hnow := colPostNow_bad s c j a jb bad h.own
  simp only [← h.desc, ← h.members] at hnow
  obtain ⟨m, y, hfail, hrow, hqueue, hrun⟩ := hnow hbad
  rw [h.colPost_eq, hfail]
  exact ⟨m, y, hrow, abort_started s m c j d ms y hrow bad hrun (hqueue.trans h.queue) halone⟩

theorem Posting.colPostNow_digest (hop : d.op = 6) (hok : s.postOk c j jb d ms) :
    ∃ m, s.colPostNow c j jb a = (m.digestStart c (ColRun.start j d ms)).colRun c
      ∧ ChanTo s c ((s.chan c).withPost d (ColRun.start j d ms)) m := by
  obtain ⟨hdescOk, hpathOk⟩ := hok
  refine ⟨_, ?_, (chanTo_setChan s c { s.chan c with run := some (ColRun.start j d ms), aborted := false }).mod
    (fun y => { y with posted := d.seq })⟩
  simp only [State.colPostNow, ← h.desc, ← h.members, h.own, if_true, hdescOk, hpathOk, hop, Bool.false_eq_true, if_false]

/-- A DIGEST that passes has closed the step digest; outside twin mode, on a job's only module, it has completed. -/
theorem Posting.digests (hop : d.op = 6) (hok : s.postOk c j jb d ms) (htwin : jb.desc.twin = false) (halone : ms = [s.me])
    (hincl : d.incl = 0) :
    ∃ m, ChanTo s c ((s.chan c).withPost d (ColRun.start j d ms)) m ∧ s.colPost d.op j a = m.digestStart c (ColRun.start j d ms) := by
  obtain ⟨m, hnow, hrow⟩ := h.colPostNow_digest hop hok
  refine ⟨m, hrow, ?_⟩
  obtain ⟨hchan, -⟩ := digest_alone s m c j jb d ms _ hrow hop h.job htwin halone hincl
  have hstop : (m.digestStart c (ColRun.start j d ms)).colStep c = none := colStep_none _ _ (by rw [hchan])
  rw [h.colPost_eq, hnow, colRun_stop _ c hstop, colSettle_stop _ c hstop]
  rw [hchan]
  exact h.queue

end Posting

/-- Buckets of a job, in the order in which a DIGEST hashes them. -/
theorem closeDigest_digest (s : State) (j : Nat) (bs : List Bucket) (hperm : bs.Perm (s.col.buckets.filter (fun b => b.job == j)))
    (hsorted : bs.Pairwise (fun a b => a.chan * 2 ^ 64 + a.seq < b.chan * 2 ^ 64 + b.seq)) :
    (s.closeDigest j).2.col.digest = sha3 (bs.flatMap (·.h)) :=
  congrArg (fun l : List Bucket => sha3 (l.flatMap Bucket.h)) (sort_unique bs _ hperm hsorted)

/-- Settles O46: each post of a descriptor's operation is `colPost`, which `Posting` follows to the end of the checks. -/
theorem colPost : Obligations.ColPost := by
  unfold Obligations.ColPost
  intro s c hidle hqueue htests y others j addr jb hjob hmay hown hj d ms hchan hinbox ok run posts
  have h : Posting s c j addr.toNat jb d ms := ⟨rfl, rfl, hidle, hqueue, htests, hjob, hmay, hown, hchan, hinbox⟩
  have hposts : ∀ e, d.op ≠ 6 → exec e s = .next (s.colPost d.op j addr.toNat) → posts e := by
    intro e hop hexec
    refine ⟨fun hok hlowest => ⟨_, hexec, ?lowest⟩, fun hok htray => ⟨_, hexec, ?tray⟩,
      fun bad hbad halone => ⟨_, hexec, ?fails⟩⟩
    case lowest =>
      have hrow := (h.waits_lowest hop hok hlowest).sends
      exact ⟨hrow.chan, ⟨hrow.tiles, fun e he => hrow.others e (Fin.val_ne_of_ne he)⟩, hrow.mem, hrow.sched⟩
    case tray =>
      have hrow := h.sends_post hop hok htray
      exact ⟨hrow.chan, ⟨hrow.tiles, fun e he => hrow.others e (Fin.val_ne_of_ne he)⟩, hrow.mem, hrow.sched⟩
    case fails =>
      obtain ⟨m, z, hrow, hended⟩ := h.fails hbad halone
      obtain ⟨x, hx, hfault⟩ := hended.job jb (by rw [hrow.rest]; exact hjob)
      rw [JobSt.fault_of_mayPost hmay] at hfault
      refine ⟨by rw [hended.chan], by rw [hended.chan], ⟨?_, fun e he => ?_⟩, x, hx, hfault⟩
      · rw [hended.tiles, hrow.rest]
      · have hne := Fin.val_ne_of_ne he
        rw [hended.others e hne, hrow.others e hne]
  refine ⟨fun hop => ?_, fun hop => ?_, fun hop => ?_, fun hop => ?_, fun hop => ?_,
    fun hop hok htwin halone hincl => ?digest⟩
  case digest =>
    obtain ⟨m, hrow, hpost⟩ := h.digests hop hok htwin halone hincl
    obtain ⟨hrun, hothers, htiles, hmem, hstep, hsteps, hbuckets, hdigest⟩ :=
      digest_alone s m c j jb d ms _ hrow hop hjob htwin halone hincl
    have hexec : exec (.digest j addr) s = .next (m.digestStart c (ColRun.start j d ms)) := by rw [← hpost, hop]; rfl
    refine ⟨_, hexec, by rw [hrun], by rw [hrun]; rfl, by rw [hrun], ⟨htiles, fun e he => hothers e (Fin.val_ne_of_ne he)⟩, hmem,
      hstep, hsteps, fun b hb => ?_, fun bs hperm hsorted => hdigest.trans (closeDigest_digest s j bs hperm hsorted)⟩
    rw [hbuckets, List.mem_filter] at hb
    exact bne_iff_ne.1 hb.2
  all_goals exact hposts _ (by rw [hop]; decide) (by rw [hop]; rfl)

end Sys2Proof.Machine

namespace Sys2Proof.Machine

/-! A contribution ready, and the package trick of a job on one module (R363, R369, R370, R372, R379). -/

/-- The final root's value where one module is included (R369). -/
theorem ColRun.final_alone (x : ColRun) (hop : x.desc.op = 1) (v : W32) :
    x.final 1 v = (let mean := if x.desc.flags / 2 % 2 = 1 then colDiv v x.desc.div else v
      if x.desc.outFmt = 5 then mean.toNat else encodeElem x.desc.outFmt .rne (val32 mean)) := by
  have havg : x.desc.avg = decide (x.desc.flags / 2 % 2 = 1) := rfl
  simp only [ColRun.final, hop, ne_eq, not_true_eq_false, if_false, havg, decide_eq_true_eq, Nat.one_mul]

/-- Two regions of memory have no byte in common. -/
def Apart (a n b k : Nat) : Prop := a + n ≤ b ∨ b + k ≤ a

/-- Bytes of the inclusion record of a descriptor. -/
def ColDesc.inclLen (d : ColDesc) : Nat := if d.incl = 0 then 0 else 2080

/-- Memory with the inclusion record of a collective on one module. -/
def State.withIncl (s : State) (c : Nat) (d : ColDesc) : State :=
  if d.incl = 0 then s else s.writeMem d.incl (inclRecord c d.seq 1 [s.me])

theorem State.readMem_withIncl_apart (s : State) (c : Nat) (d : ColDesc) {a n : Nat} (h : Apart a n d.incl d.inclLen) :
    (s.withIncl c d).readMem a n = s.readMem a n := by
  unfold State.withIncl
  split
  · rfl
  · rename_i hincl
    rw [ColDesc.inclLen, if_neg hincl] at h
    exact State.readMem_writeMem_other _ _ _ _ _ (by rw [inclRecord_length]; exact h)

theorem State.readLe_withIncl (s : State) (c : Nat) (d : ColDesc) (hincl : d.incl ≠ 0) :
    (s.withIncl c d).readLe (d.incl + 4) 4 = 1 ∧ (s.withIncl c d).readLe (d.incl + 8) 8 = d.seq % 2 ^ 64 := by
  have hslice : ∀ i n, i + n ≤ 2080 → (s.withIncl c d).readLe (d.incl + i) n
      = leNat (((inclRecord c d.seq 1 [s.me]).drop i).take n) := fun i n hin => by
    rw [State.withIncl, if_neg hincl]
    exact congrArg leNat (readMem_slice _ _ _ _ _ (by rw [inclRecord_length]; exact hin))
  rw [hslice 4 4 (by decide), hslice 8 8 (by decide), inclRecord_count, inclRecord_seq]
  exact ⟨rfl, rfl⟩

/-- The result of an ALL_REDUCE on one module, element by element (R369, R370). -/
def State.reduced (s : State) (x : ColRun) : List Nat :=
  (List.range x.desc.count).map (fun e => x.final 1 (colSum x.desc.inFmt ((List.range x.desc.parts).map (fun i =>
    colIn x.desc.inFmt (elemAt s x.desc.inFmt (x.desc.src + i * x.desc.stride) e)))))

theorem State.reduced_bytes_length (s : State) (x : ColRun) (hop : x.desc.op = 1) :
    ((s.reduced x).flatMap (natLe x.outBytes)).length = x.desc.count * colBytes x.desc.outFmt := by
  have hout : x.outBytes = colBytes x.desc.outFmt := by rw [ColRun.outBytes, hop]; rfl
  rw [flatMap_natLe_length, State.reduced, List.length_map, List.length_range, hout]

/-- What the end of the package trick of an ALL_REDUCE leaves on a job's only module. -/
structure Packaged (s : State) (c : Chan) (x : ColRun) (m : State) : Prop where
  chan : (m.chan c).run = none ∧ (m.chan c).done = x.desc.seq
  others : ∀ e : Chan, e ≠ c → m.chan e = s.chan e
  tiles : m.tiles = s.tiles
  result : m.readMem x.desc.dst (x.desc.count * colBytes x.desc.outFmt) = (s.reduced x).flatMap (natLe x.outBytes)
  incl : x.desc.incl ≠ 0 → m.readLe (x.desc.incl + 4) 4 = 1 ∧ m.readLe (x.desc.incl + 8) 8 = x.desc.seq % 2 ^ 64
  apart : ∀ a n, Apart a n x.desc.dst (x.desc.count * colBytes x.desc.outFmt) → Apart a n x.desc.scratch (8 * x.desc.count) →
    Apart a n x.desc.incl x.desc.inclLen → m.readMem a n = s.readMem a n
  job : (∀ q ∈ s.col.chans, q.1 ≠ c.val → q.2.run = none) → ∀ jb, s.job x.job = some jb →
    m.job x.job = some { jb with heldBack := false }

section Contribution

variable {s : State} {c : Chan} {x : ColRun} (hrun : (s.chan c).run = some x) (hqueue : (s.chan c).queue = [])
  (hinbox : ∀ q ∈ (s.chan c).inbox, q.1 ≠ x.desc.seq)
  (hfresh : x = { ColRun.start x.job x.desc x.members with posted := x.posted, phase := x.phase })
include hrun hqueue hinbox hfresh

/-- A contribution ready leaves a collective that waits again, in its running phase (R363). -/
theorem contributionReady_runs (hmember : s.me ∈ x.members) (hphase : x.phase = .posted)
    (hpost : x.posted = true ∨ x.members.head? = some s.me) (hcount : x.desc.op ≤ 2 → 0 < x.desc.count)
    (hop : 1 ≤ x.desc.op ∧ x.desc.op ≤ 5) :
    exec (.contributionReady c) s = .next ((s.setRun c { x with phase := .running }).setHeldBack x.job) := by
  obtain ⟨hchan, -, -, -, hme, -⟩ := ready_spec s c { x with phase := .running } rfl
  have hwaits : Waits { x with phase := .running } s.me := by
    rw [hfresh]
    exact waits_start x.job x.desc x.members s.me x.posted .running (by decide) hmember (hpost.imp_right (postTrick_head _ _)) hcount
      ⟨hop.1, by omega⟩
  have hstop : ((s.setRun c { x with phase := .running }).setHeldBack x.job).colStep c = none := by
    refine colStep_waits _ c { x with phase := .running } ?_ ?_ ?_
    · rw [hchan]
    · rw [hme]; exact hwaits
    · rw [hchan]; exact hinbox
  refine congrArg Host.Outcome.next ?_
  rw [onRun_some s c x _ hrun (by rw [hphase]; decide), if_pos ⟨hphase, by omega⟩, colSettle_stop _ c hstop]
  rw [hchan]
  exact hqueue

theorem packageTrick_alone (hphase : x.phase = .running) (halone : x.members = [s.me]) (hop : x.desc.op = 1)
    (hdst : Apart x.desc.dst (x.desc.count * colBytes x.desc.outFmt) x.desc.incl x.desc.inclLen) :
    ∃ m, exec (.packageTrickComplete c) s = .next m ∧ Packaged s c x m := by
  obtain ⟨b, z, w, hsettle, hmembers, hdesc, hzjob, -, hbothers, hbtiles, hbsched, hbme, hbchans, hbmem⟩ :=
    package_alone s c x halone hrun hphase hfresh hop hqueue hinbox (s.reduced x) rfl
  obtain ⟨t, ht⟩ : ∃ t, t = (b.setRun c w).writeMem x.desc.dst ((s.reduced x).flatMap (natLe x.outBytes)) := ⟨_, rfl⟩
  have hlen := s.reduced_bytes_length x hop
  have hrest : MemOnly (b.setRun c w) t := ht ▸ memOnly_writeMem _ _ _
  have htcol : t.col = (b.setRun c w).col := by rw [hrest]
  have htme : t.me = s.me := by rw [hrest]; exact hbme
  obtain ⟨hchan, hothers, htiles, hmem, hjob⟩ :=
    complete_alone t c z (by rw [htme, hmembers, halone]) (by rw [hdesc, hop]; decide)
  have hread : ∀ a n, (t.colComplete c z).readMem a n = (t.withIncl c x.desc).readMem a n := fun a n => by
    rw [hdesc] at hmem
    exact congrArg (fun q : MemSt => q.bytes.getRange 0 a n) hmem
  have hexec : exec (.packageTrickComplete c) s = .next (t.colComplete c z) := by
    refine congrArg Host.Outcome.next ?_
    rw [onRun_some s c x _ hrun (by rw [hphase]; decide), if_pos, hsettle, ht]
    refine ⟨hphase, ?_, by rw [hop]; decide⟩
    rw [hfresh]; rfl
  refine ⟨_, hexec, ?chan, fun e he => ?others, ?tiles, ?result, fun hincl => ?incl, fun a n hadst hascr haincl => ?apart,
    fun hidle jb hjb => ?job⟩
  case chan => rw [hchan, hdesc]; exact ⟨rfl, rfl⟩
  case others =>
    have hne := Fin.val_ne_of_ne he
    rw [hothers e hne, State.chan_congr (congrArg ColSt.chans htcol), State.chan_setRun_other _ _ _ _ hne, hbothers e hne]
  case tiles => rw [htiles, hrest]; exact hbtiles
  case result =>
    rw [hread, State.readMem_withIncl_apart _ _ _ hdst, ht, ← hlen]
    exact State.readMem_writeMem _ _ _
  case incl =>
    have hle : ∀ a n, (t.colComplete c z).readLe a n = (t.withIncl c x.desc).readLe a n := fun a n => congrArg leNat (hread a n)
    rw [hle, hle]
    exact State.readLe_withIncl t c x.desc hincl
  case apart =>
    rw [hread, State.readMem_withIncl_apart _ _ _ haincl, ht, State.readMem_writeMem_other _ _ _ _ _ (by rw [hlen]; exact hadst)]
    exact hbmem a n hascr
  case job =>
    have hsched : t.sched = s.sched := by rw [hrest]; exact hbsched
    rw [← hzjob] at hjb ⊢
    refine hjob jb (by rw [State.job, hsched]; exact hjb) fun q hq hne => ?_
    rw [htcol] at hq
    rcases SMap.mem_set _ _ _ _ _ hq with heq | ⟨hmemq, -⟩
    · exact absurd (congrArg Prod.fst heq) hne
    · exact hidle q (hbchans q hmemq hne) hne

end Contribution

/-- Settles O47: a contribution ready by `contributionReady_runs`, the end of the package trick by `packageTrick_alone`. -/
theorem colPackage : Obligations.ColPackage := by
  unfold Obligations.ColPackage
  intro s c x hrun hqueue hinbox hmember y d fresh others
  refine ⟨fun hfresh hphase hpost hcount hop => ?ready, fun hfresh hphase halone hop hparts => ?package⟩
  case ready =>
    obtain ⟨hchan, hothers, htiles, hmem, -, hjob⟩ := ready_spec s c { x with phase := .running } rfl
    exact ⟨_, contributionReady_runs hrun hqueue hinbox hfresh hmember hphase hpost hcount hop, hchan,
      ⟨htiles, fun e he => hothers e (Fin.val_ne_of_ne he)⟩, hmem, hjob⟩
  case package =>
    intro size ib ob part add sum mean result apart inclLen hdst
    obtain ⟨m, hexec, hm⟩ := packageTrick_alone hrun hqueue hinbox hfresh hphase halone hop hdst
    have hout : x.outBytes = ob := by rw [ColRun.outBytes, hop]; rfl
    have hresult : s.reduced x = (List.range d.count).map result := List.map_congr_left fun e _ => by
      rw [x.final_alone hop, colSum_range _ _ _ hparts]
      rfl
    refine ⟨m, hexec, ⟨hm.tiles, hm.others⟩, hm.chan.1, hm.chan.2, hm.result.trans ?_, hm.incl, hm.apart, hm.job⟩
    rw [hresult, hout, List.flatMap_map]

end Sys2Proof.Machine

namespace Sys2Proof.Machine

/-! How a collective ends with an abort, and the comparison of the twins' digests (R376 to R378, R384, R385, R389). -/

/-- An instruction ends the collective here, and COL.ERROR holds the first code (R384, R387). -/
def EndsWith (s : State) (c : Nat) (x : ColRun) (code : Code) (m : State) : Prop := Ended s c x code m ∧ ErrorHolds s c x code m

/-- An abort condition ends the collective on the top decider, and stops it on a module below one (R384). -/
def AbortsWith (s : State) (c : Nat) (x : ColRun) (code : Code) (m : State) : Prop :=
  (nextDecider x.members s.me = none → EndsWith s c x code m)
  ∧ (nextDecider x.members s.me ≠ none → ChanSends s c { s.chan c with run := some { x with phase := .stopped } } m)

section Abort

variable {s : State} {c : Chan} {x : ColRun} (hrun : (s.chan c).run = some x) (hqueue : (s.chan c).queue = [])
include hrun hqueue

/-- A collective that stopped and has no FINAL_ABORT within STALL_LIMIT has lost its root (R385). -/
theorem colStall_stopped (hphase : x.phase = .stopped) : Ended s c x Codes.colRootLost (s.colStall c) := by
  have hended := ended_drop s s c x Codes.colRootLost Codes.colRootLost (colInfo c x.desc.seq 0) (fun _ => rfl) rfl rfl
  have hstall : s.colStall c
      = (((s.colUndefined x Codes.colRootLost).colDrop c x).jobFaults x.job Codes.colRootLost (colInfo c x.desc.seq 0)).colNext c := by
    simp only [State.colStall, hrun, hphase, if_true]
  rw [hstall, colNext_idle _ _ (by rw [hended.chan]; exact hqueue)]
  exact hended

variable (hinbox : ∀ q ∈ (s.chan c).inbox, q.1 ≠ x.desc.seq)
include hinbox

/-- FINAL_ABORT ends the collective in any phase (R384). -/
theorem finalAbort_ends (code : Code) : EndsWith s c x code (s.colMsg c x.desc.seq (.finalAbort code)) := by
  obtain ⟨t, hrow, htakes⟩ := colMsg_takes s c x (.finalAbort code) hrun hinbox
  have htake : t.takeMsg c x (.finalAbort code) = t.colFinal c x code := rfl
  have hended := colFinal_ended t c x code
  rw [htake, colStep_none _ _ (by rw [hended.chan]), hended.chan, hrow.chan] at htakes
  rw [htakes rfl hqueue]
  exact ⟨.of_chan hrow hended, .of_chan hrow (colFinal_error t c x code)⟩

variable (hphase : x.phase ≠ .stopped)
include hphase

theorem abort_aborts (code : Code) : AbortsWith s c x code (s.colMsg c x.desc.seq (.abort code)) :=
  colMsg_aborts s c x _ code hrun hqueue hinbox hphase fun _ _ => rfl

/-- A decider that receives another header than its own (R376). -/
theorem post_misdeals {q : Nat} {k : Nat} {h : List Byte} (hq : q ∈ x.members) (hk : postTrick x.members q = some k)
    (hdecider : deciderOf x.members k q = s.me) (hh : h ≠ x.desc.header) :
    AbortsWith s c x Codes.misdeal (s.colMsg c x.desc.seq (.post q h)) := by
  refine colMsg_aborts s c x _ _ hrun hqueue hinbox hphase fun t hme => ?_
  rw [(takeMsg_run t c x _ hphase).1 q h rfl, takePost_spec t c x q k h hq hk (by rw [hme]; exact hdecider), if_pos (bne_iff_ne.2 hh)]

/-- No progress within STALL_LIMIT after a GO (R385). -/
theorem colStall_running (hgos : x.gos ≠ []) : AbortsWith s c x Codes.colTimeout (s.colStall c) := by
  have hstall : s.colStall c = (s.colAbort c Codes.colTimeout).colSettle c := by
    simp only [State.colStall, hrun, hphase, if_false, List.isEmpty_iff, hgos]
  rw [hstall]
  exact settle_aborts s c x _ hrun hqueue hinbox hphase

end Abort

/-- A decider has a READY of a trick whose GO it has not sent when the trick's deadline expires. -/
structure Overdue (s : State) (x : ColRun) (t : Nat) : Prop where
  trick : 0 < t
  limit : x.desc.deadline.getD (t - 1) 0 ≠ 0
  op : x.desc.op ≠ 6
  decider : deciderOf x.members t s.me = s.me
  ready : x.readies.filter (fun q => q.1 == t) ≠ []
  goSent : t ∉ x.goSent

/-- The units of a trick that are ready at this decider. -/
def State.present (s : State) (x : ColRun) (t : Nat) : List Nat :=
  (unitsOf x.members t s.me).filter (fun u => (x.readies.filter (fun q => q.1 == t)).any (fun q => q.2.unit == u))

theorem Overdue.colDeadline_eq {s : State} {x : ColRun} {t : Nat} (h : Overdue s x t) (c : Nat) :
    s.colDeadline c x t = if t ∈ x.fixed.map (·.1) then s.colAbort c Codes.twinLost
      else if x.desc.tolerant = true ∧ x.allPosted s.me t = true then s.colFix c x t (s.present x t)
      else s.colAbort c Codes.colTimeout := by
  have hfixed : (x.fixed.any fun q => q.1 == t) = decide (t ∈ x.fixed.map (·.1)) := by
    rw [Bool.eq_iff_iff, List.any_eq_true, decide_eq_true_eq, List.mem_map]
    simp only [beq_iff_eq]
  have hready : (x.readies.filter (fun q => q.1 == t)).map (·.2.unit) ≠ [] := fun h0 => h.ready (List.map_eq_nil_iff.1 h0)
  unfold State.colDeadline
  rw [if_neg (fun h0 => h0.elim h.limit h.trick.ne'), if_neg (fun h0 => h.op h0.1)]
  simp only [h.decider, hready, List.contains_iff_mem, h.goSent, hfixed, decide_eq_true_eq, Bool.and_eq_true, ready_set, State.present,
    ne_eq, not_true_eq_false, or_self, if_false]

section Deadline

variable {s : State} {c : Chan} {x : ColRun} {k : Trick} (hrun : (s.chan c).run = some x) (hqueue : (s.chan c).queue = [])
  (hinbox : ∀ q ∈ (s.chan c).inbox, q.1 ≠ x.desc.seq) (hphase : x.phase ≠ .stopped) (hdue : Overdue s x (trickNo k))
include hrun hphase

theorem deadline_exec : exec (.deadlineExpiry c k) s = .next ((s.colDeadline c x (trickNo k)).colSettle c) :=
  congrArg Host.Outcome.next (onRun_some s c x _ hrun hphase)

include hqueue hinbox hdue

/-- The set is fixed, and the twin's has not come (R380). -/
theorem deadline_twinLost (hfixed : trickNo k ∈ x.fixed.map (·.1)) :
    AbortsWith s c x Codes.twinLost ((s.colDeadline c x (trickNo k)).colSettle c) := by
  rw [hdue.colDeadline_eq, if_pos hfixed]
  exact settle_aborts s c x _ hrun hqueue hinbox hphase

/-- A module that must be in the set is late (R377). -/
theorem deadline_timeout (hfixed : trickNo k ∉ x.fixed.map (·.1))
    (hlate : x.desc.tolerant = false ∨ x.allPosted s.me (trickNo k) = false) :
    AbortsWith s c x Codes.colTimeout ((s.colDeadline c x (trickNo k)).colSettle c) := by
  have hnot : ¬(x.desc.tolerant = true ∧ x.allPosted s.me (trickNo k) = true) := fun ⟨ht, ha⟩ => by
    rcases hlate with h | h
    · rw [ht] at h; cases h
    · rw [ha] at h; cases h
  rw [hdue.colDeadline_eq, if_neg hfixed, if_neg hnot]
  exact settle_aborts s c x _ hrun hqueue hinbox hphase

/-- Too few units of a tolerant collective are ready (R378). -/
theorem deadline_quorum (hfixed : trickNo k ∉ x.fixed.map (·.1)) (htolerant : x.desc.tolerant = true)
    (hposted : x.allPosted s.me (trickNo k) = true) (htwin : s.jobTwin x.job = false) (htop : nextDecider x.members s.me = none)
    (hquorum : (s.present x (trickNo k)).length * 64 < x.desc.quorum * (unitsOf x.members (trickNo k) s.me).length) :
    EndsWith s c x Codes.colQuorum ((s.colDeadline c x (trickNo k)).colSettle c) := by
  rw [hdue.colDeadline_eq, if_neg hfixed, if_pos ⟨htolerant, hposted⟩]
  exact fix_quorum s c x _ _ hrun hqueue hinbox hphase htwin htop htolerant hquorum

end Deadline

/-! The record of the twin's digest (R389). -/

/-- Flag of a DIGEST: 0 where the twin's record equals the module's own digest. -/
def State.twinFlag (s : State) (step : Nat) (dig : List Byte) : Nat := if step = s.col.step ∧ dig = s.col.digest then 0 else 1

theorem State.twinFlag_lt (s : State) (step : Nat) (dig : List Byte) : s.twinFlag step dig < 2 := by
  unfold State.twinFlag; split <;> decide

theorem State.twinFlag_eq_zero {s : State} {step : Nat} {dig : List Byte} :
    s.twinFlag step dig = 0 ↔ step = s.col.step ∧ dig = s.col.digest := by
  unfold State.twinFlag; split <;> simp [*]

/-- What a DIGEST with flag `f` leaves on a job's only module. -/
structure Compared (s : State) (c : Chan) (x : ColRun) (f : Nat) (m : State) : Prop where
  chan : m.chan c = { s.chan c with run := none, done := x.desc.seq }
  others : ∀ d, d ≠ c.val → m.chan d = s.chan d
  tiles : m.tiles = s.tiles
  mem : m.mem = s.mem
  steps : m.col.steps.get 0 x.job = s.col.steps.get 0 x.job + 1
  job : ∀ jb, s.job x.job = some jb → ∃ z, m.job x.job = some z
    ∧ z.fault = if f = 0 then jb.fault else some (jb.fault.getD Codes.twinDiverged)

/-- Changes of the channel's row alone do not show in what a DIGEST leaves, nor does the run that completes. -/
theorem Compared.of_chan {s t m : State} {c : Chan} {x z : ColRun} {f : Nat} {y : ChanCol} (hrow : ChanTo s c y t)
    (hy : { y with run := none } = { s.chan c with run := none }) (hdesc : z.desc = x.desc) (hjob : z.job = x.job)
    (h : Compared t c z f m) : Compared s c x f m := by
  obtain ⟨hchan, hothers, htiles, hmem, hsteps, hfault⟩ := h
  have hrest := hrow.rest
  rw [hjob] at hsteps hfault
  refine ⟨?_, fun d hd => (hothers d hd).trans (hrow.others d hd), ?_, ?_, ?_, fun jb hjb => hfault jb (by rw [hrest]; exact hjb)⟩
  · rw [hchan, hrow.chan, hdesc]
    exact congrArg (fun q : ChanCol => { q with done := x.desc.seq }) hy
  · rw [htiles, hrest]
  · rw [hmem, hrest]
  · rw [hsteps, hrest]

/-- A DIGEST with its flag, before its package trick, completes in three steps. -/
theorem DigestRun.compares {s : State} {c : Chan} {x : ColRun} {f : Nat} (h : DigestRun s c x f) (hf : f < 2)
    (hpackaged : x.packaged = false) (hlevel : x.level = 0) (hplaced : x.placed = 0) (hincl : x.desc.incl = 0) (n : Nat) :
    Compared s c x f (s.colDrain c (n + 3)) := by
  obtain ⟨x1, hx1⟩ : ∃ x1 : ColRun, x1 = { x with packaged := true, vals := SMap.setRange 0 [] 0 [BitVec.ofNat 32 f] } := ⟨_, rfl⟩
  have h1 : DigestRun (s.setRun c x1) c x1 f := by
    subst hx1
    exact ⟨by rw [State.chan_setRun], h.alone, h.phase, h.op, h.flag, h.gos, by rw [State.chan_setRun]; exact h.inbox⟩
  obtain ⟨z, hstep2, h2, hzpackaged, hzlevel, hzplaced, hzval, hzdesc, hzjob, -⟩ :=
    digest_step2 h1 (by rw [hx1]) (by rw [hx1]; exact hlevel) (by rw [hx1]; exact hplaced) (by rw [hx1]) hf
  have hdesc : z.desc = x.desc := by rw [hzdesc, hx1]
  have hdone := digest_done _ c z f h2 (by rw [hdesc, hincl]) hzval hf
  have hdrain : s.colDrain c (n + 3) = ((s.setRun c x1).setRun c z).colComplete c z := by
    rw [colDrain_step s (s.setRun c x1) c _ (hx1 ▸ digest_step1 h hpackaged), colDrain_step _ _ c _ hstep2,
      colDrain_step _ _ c _ (digest_step3 h2 hzpackaged hzlevel hzplaced)]
    exact colDrain_stop _ _ _ (colStep_none _ _ (by rw [hdone.1]))
  have hrow := (chanTo_setChan s c { s.chan c with run := some x1 }).run z
  obtain ⟨hchan, hothers, htiles, hmem, hsteps, hjob⟩ := hdone
  rw [hdrain]
  exact .of_chan hrow rfl hdesc (by rw [hzjob, hx1]) ⟨hchan, hothers, htiles, hmem, hsteps, hjob⟩

/-- The twin's record gives a waiting DIGEST of a job's only module its flag, with which it completes. -/
theorem digestRecord_compares {s : State} {c : Chan} {x : ColRun} (hrun : (s.chan c).run = some x) (hqueue : (s.chan c).queue = [])
    (hinbox : ∀ q ∈ (s.chan c).inbox, q.1 ≠ x.desc.seq)
    (hfresh : x = { ColRun.start x.job x.desc x.members with phase := .running }) (halone : x.members = [s.me]) (hop : x.desc.op = 6)
    (hincl : x.desc.incl = 0) (step : Nat) (dig : List Byte) :
    Compared s c x (s.twinFlag step dig) (s.colMsg c x.desc.seq (.digest step dig)) := by
  obtain ⟨t, n, hrow, hmsg⟩ := colMsg_run s c x (.digest step dig) hrun hinbox
  obtain ⟨xf, hxf⟩ : ∃ xf : ColRun, xf = { x with flag := some (s.twinFlag step dig), twinDig := dig } := ⟨_, rfl⟩
  have hphase : x.phase = .running := by rw [hfresh]
  have hflag : x.flag = none := by rw [hfresh]; rfl
  have htake : t.takeMsg c x (.digest step dig) = t.setRun c xf := by
    have hcol : s.twinFlag step dig = t.twinFlag step dig := by rw [hrow.rest]; rfl
    rw [hxf, hcol]
    simp only [State.takeMsg, hphase, hop, hflag, and_self, if_true, reduceCtorEq, if_false]
    rfl
  have hrun1 : DigestRun (t.setRun c xf) c xf (s.twinFlag step dig) := by
    subst hxf
    refine ⟨by rw [State.chan_setRun], ?_, hphase, hop, rfl, ?_, ?_⟩
    · exact halone.trans (by rw [← hrow.me]; rfl)
    · show x.gos = []
      rw [hfresh]; rfl
    · rw [State.chan_setRun, hrow.chan]
      exact hinbox
  have hfields : xf.packaged = false ∧ xf.level = 0 ∧ xf.placed = 0 := by rw [hxf, hfresh]; exact ⟨rfl, rfl, rfl⟩
  obtain ⟨hpackaged, hlevel, hplaced⟩ := hfields
  have hdone := hrun1.compares (s.twinFlag_lt step dig) hpackaged hlevel hplaced (by rw [hxf]; exact hincl) (n + 16)
  have hend : Compared s c x (s.twinFlag step dig) (((t.setRun c xf).colDrain c (n + 16 + 3))) :=
    .of_chan (hrow.run xf) rfl (by rw [hxf]) (by rw [hxf]) hdone
  have hidle : (((t.setRun c xf).colDrain c (n + 16 + 3)).chan c).queue = [] := by rw [hend.chan]; exact hqueue
  rw [hmsg, htake, colNext_idle _ _ hidle, colNext_idle _ _ hidle]
  exact hend

/-- Settles O49: each condition ends or stops the collective by its lemma above; the record of the twin by `digestRecord_compares`. -/
theorem colAborts : Obligations.ColAborts := by
  unfold Obligations.ColAborts
  intro s c x hrun hqueue hinbox y d ms others faults ended errorHolds ends aborts
  have hended : ∀ {m code}, Ended s c x code m → ended m code := fun h =>
    ⟨by rw [h.chan], by rw [h.chan], by rw [h.chan], ⟨h.tiles, fun e he => h.others e (Fin.val_ne_of_ne he)⟩, h.job⟩
  have hends : ∀ {e m code}, exec e s = .next m → EndsWith s c x code m → ends e code := fun hexec h =>
    ⟨_, hexec, hended h.1, h.2⟩
  have haborts : ∀ {e m code}, exec e s = .next m → AbortsWith s c x code m → aborts e code := fun hexec h =>
    ⟨fun htop => hends hexec (h.1 htop), fun hbelow => have hrow := h.2 hbelow
      ⟨_, hexec, hrow.chan, ⟨hrow.tiles, fun e he => hrow.others e (Fin.val_ne_of_ne he)⟩, hrow.mem, hrow.sched⟩⟩
  refine ⟨fun hphase => ⟨?misdeal, fun code => haborts rfl (abort_aborts hrun hqueue hinbox hphase code),
      fun hgos => haborts rfl (colStall_running hrun hqueue hinbox hphase hgos), ?deadline⟩,
    fun code => hends rfl (finalAbort_ends hrun hqueue hinbox code),
    fun hphase => ⟨_, rfl, hended (colStall_stopped hrun hqueue hphase)⟩, ?digest⟩
  case misdeal =>
    intro q k h hq hk hdecider hseq hheader
    have hexec : exec (.post c q h) s = .next (s.colMsg c x.desc.seq (.post q.toNat h)) :=
      congrArg (fun n => Host.Outcome.next (s.colMsg c n (.post q.toNat h))) hseq
    exact haborts hexec (post_misdeals hrun hqueue hinbox hphase hq hk hdecider hheader)
  case deadline =>
    intro k t units present htrick hlimit hop hdecider hready hgo
    have hdue : Overdue s x t := ⟨htrick, hlimit, hop, hdecider, hready, hgo⟩
    have hexec := deadline_exec (k := k) hrun hphase
    exact ⟨fun hfixed => haborts hexec (deadline_twinLost hrun hqueue hinbox hphase hdue hfixed),
      fun hfixed hlate => haborts hexec (deadline_timeout hrun hqueue hinbox hphase hdue hfixed hlate),
      fun hfixed htolerant hposted htwin htop hquorum =>
        hends hexec (deadline_quorum hrun hqueue hinbox hphase hdue hfixed htolerant hposted htwin htop hquorum)⟩
  case digest =>
    intro step dig hfresh halone hop hincl _
    have h := digestRecord_compares hrun hqueue hinbox hfresh halone hop hincl step (natLe 32 dig.toNat)
    refine ⟨_, rfl, by rw [h.chan], by rw [h.chan], by rw [h.chan], ⟨h.tiles, fun e he => h.others e (Fin.val_ne_of_ne he)⟩, h.mem,
      h.steps, ?_⟩
    split
    case isTrue heq =>
      intro jb hjb
      obtain ⟨z, hz, hfault⟩ := h.job jb hjb
      exact ⟨z, hz, hfault.trans (if_pos (State.twinFlag_eq_zero.2 heq))⟩
    case isFalse hne =>
      intro jb hjb
      obtain ⟨z, hz, hfault⟩ := h.job jb hjb
      exact ⟨z, hz, hfault.trans (if_neg (mt State.twinFlag_eq_zero.1 hne))⟩

end Sys2Proof.Machine

namespace Sys2Proof.Machine

/-! States that meet the hypotheses of O46, O47 and O49. -/

/-- A job with a collective plan, to post on channel 3 of the module of rank 0, its only member. -/
def soloJob : JobSt := let job := trainingJob .init; { job with desc := { job.desc with colPlan := 1 } }

/-- The bitmap of rank 0 at 0x100, and the descriptor of a DIGEST at 0x1000: SEQ 1 on channel 3, DIV 1 and one part. -/
def soloBytes : SMap Byte :=
  [(0x100, 1), (0x1000, 0x80), (0x1001, 0x20), (0x1002, 6), (0x1004, 3), (0x1008, 1), (0x1018, 1), (0x101E, 1), (0x1071, 1)]

def soloState : State :=
  let s := (trainingPages.setJob 1 (some soloJob)).setChan 3 { ChanCol.init with job := 1 }
  { s with mem := { s.mem with bytes := soloBytes } }

theorem soloBytes_get {k : Nat} (h : k < 0x1000) (hk : k ≠ 0x100) : soloBytes.get 0 k = 0 := by
  have hkeys : ∀ p ∈ soloBytes, p.1 = 0x100 ∨ 0x1000 ≤ p.1 := by decide
  have hnone : soloBytes.find? (fun p => p.1 == k) = none := List.find?_eq_none.2 fun p hp heq => by
    have := hkeys p hp
    have := beq_iff_eq.1 heq
    omega
  rw [SMap.get, hnone]

theorem soloState_set : soloState.readMem 0x100 2048 = 1 :: List.replicate 2047 0 := by
  show SMap.getRange 0 soloBytes 0x100 2048 = _
  have hfirst : soloBytes.get 0 (0x100 + 0) = 1 := rfl
  rw [SMap.getRange_eq, List.range_succ_eq_map, List.map_cons, List.map_map, hfirst]
  refine congrArg _ (List.eq_replicate_iff.2 ⟨by simp, fun b hb => ?_⟩)
  obtain ⟨i, hi, rfl⟩ := List.mem_map.1 hb
  rw [List.mem_range] at hi
  exact soloBytes_get (by omega) (by omega)

/-- A bitmap whose first byte alone has members. -/
theorem colMembers_firstByte (s : State) (d : ColDesc) (b : Byte) (n : Nat) (h : s.readMem d.mset 2048 = b :: List.replicate n 0) :
    s.colMembers d = (maskBits b.toNat 8).map (fun i => 8 * 0 + i) := by
  have hrest : ((List.replicate n (0 : Byte)).zipIdx (0 + 1)).flatMap
      (fun q => (maskBits q.1.toNat 8).map (fun i => 8 * q.2 + i)) = [] := by
    rw [List.flatMap_eq_nil_iff]
    intro q hq
    rw [List.eq_of_mem_replicate (List.fst_mem_of_mem_zipIdx hq)]
    rfl
  rw [State.colMembers, h, List.zipIdx_cons, List.flatMap_cons, hrest, List.append_nil]

/-- The descriptor of `soloState`. -/
def soloDesc : ColDesc := colDescOf (soloState.readMem 0x1000 128)

theorem soloState_members : soloState.colMembers soloDesc = [0] := colMembers_firstByte _ _ 1 2047 soloState_set

/-- O46 applies to a DIGEST that is the step's only collective: it completes, and the step counts. -/
theorem colPost_digests : ∃ m : State, exec (.digest 1 0x1000) soloState = .next m
    ∧ (m.chan 3).done = 1 ∧ m.col.step = 1 ∧ m.col.digest = sha3 [] := by
  have h := colPost soloState 3 (by decide) (by decide) (by decide) 1 0x1000 soloJob (by decide) (by decide) (by decide) (by decide)
  have hdesc : colDescOf (soloState.readMem (0x1000 : BitVec 48).toNat 128) = soloDesc := rfl
  simp only [hdesc, soloState_members] at h
  obtain ⟨-, -, -, -, -, hdigest⟩ := h (by decide) (by decide)
  obtain ⟨m, hexec, -, -, hdone, -, -, hstep, -, -, hhash⟩ :=
    hdigest (by decide) ⟨by decide, by decide⟩ (by decide) (by decide) (by decide)
  exact ⟨m, hexec, hdone, hstep, hhash [] (by decide) .nil⟩

/-- An ALL_REDUCE of one INT32 in two parts, 0x10 apart, of a job on the module of rank 0, whose contribution is ready. -/
def sumRun : ColRun :=
  let d := colDescOf []
  let sum := { d with
    op := 1, seq := 1, inFmt := 5, outFmt := 5, count := 1, parts := 2, src := 0x2000, stride := 0x10, dst := 0x3000, scratch := 0x4000 }
  { ColRun.start 1 sum [0] with phase := .running }

/-- It runs on channel 3; its parts are 2^31 + 1 and 2^31 + 2. -/
def sumState : State :=
  let s := State.reset.setChan 3 { ChanCol.init with job := 1, posted := 1, run := some sumRun }
  (s.writeMem 0x2000 [1, 0, 0, 0x80]).writeMem 0x2010 [2, 0, 0, 0x80]

/-- O47 applies to its package trick: the sum wraps to 3. -/
theorem colPackage_wraps : ∃ m : State, exec (.packageTrickComplete 3) sumState = .next m
    ∧ m.readMem 0x3000 4 = [3, 0, 0, 0] ∧ (m.chan 3).done = 1 := by
  obtain ⟨-, hpackage⟩ := colPackage sumState 3 sumRun rfl rfl (by decide) (by decide)
  obtain ⟨m, hexec, -, -, hdone, hresult, -⟩ := hpackage rfl rfl rfl rfl (by decide) (by decide)
  exact ⟨m, hexec, hresult.trans (by decide), hdone⟩

/-- O49 applies to a POST whose header is not the decider's: the collective of `pairState` ends with MISDEAL. -/
theorem colAborts_misdeals : ∃ m : State, exec (.post 3 1 (natLe 8 0 ++ natLe 8 1)) pairState = .next m
    ∧ (m.chan 3).run = none ∧ m.col.errCode = Codes.misdeal := by
  obtain ⟨hrunning, -⟩ := colAborts pairState 3 pairRun rfl rfl (by decide)
  obtain ⟨hmisdeal, -⟩ := hrunning (by decide)
  obtain ⟨htop, -⟩ := hmisdeal 1 1 (natLe 8 0 ++ natLe 8 1) (by decide) (by decide) (by decide) (by decide) (by decide)
  obtain ⟨m, hexec, ⟨hrun, -⟩, herror⟩ := htop (by decide)
  obtain ⟨-, hcode, -⟩ := herror
  exact ⟨m, hexec, hrun, hcode⟩

end Sys2Proof.Machine

namespace Sys2Proof.Machine

open Claims

/-! Per-die resets (R461, R473, R474, R478). -/

/-- A request for a die that is in reset is merged with that reset (R473). -/
theorem resetDie_merged {s : State} {d : Nat} (h : d ∈ s.boot.resetting) : s.resetDie d = s :=
  if_pos (List.contains_iff_mem.2 h)

/-- In the window of an activation a request marks its die and waits (R461). -/
theorem resetDie_activating {s : State} {d : Nat} (h : d ∉ s.boot.resetting) (ha : s.sec.activating = true) :
    s.resetDie d = s.modBoot (fun b => { b with
      dies := b.dies.set 0 d 0, waiting := if b.waiting.contains d then b.waiting else b.waiting ++ [d] }) :=
  (if_neg (mt List.contains_iff_mem.1 h)).trans (if_pos ha)

theorem resetDie_waits {s : State} {d : Nat} (h : d ∉ s.boot.resetting) (ha : s.sec.activating = true) :
    let m := s.resetDie d
    m.boot.dieByte d = 1 ∧ d ∈ m.boot.waiting
      ∧ m = { s with boot := { s.boot with dies := m.boot.dies, waiting := m.boot.waiting } } := by
  rw [resetDie_activating h ha]
  refine ⟨(dieByte_clear s.boot d d).trans (if_pos rfl), ?_, rfl⟩
  show d ∈ (if s.boot.waiting.contains d then s.boot.waiting else s.boot.waiting ++ [d])
  split
  case isTrue hin => exact List.contains_iff_mem.1 hin
  case isFalse => exact List.mem_append_right _ (List.mem_singleton_self d)

/-- Whatever a request leads to, no record is lost. -/
theorem grows_resetDie {s : State} {d : Nat} (h : d ∉ s.boot.resetting) : Grows s (s.resetDie d) := by
  cases ha : s.sec.activating with
  | false => exact (resetDie_starts s d h ha).2.2
  | true =>
    rw [resetDie_activating h ha]
    exact Grows.of_eq rfl

/-- What a write of BOOT.RESET has to hold to name a die (R473): its key, not WARM, and not the number that names none. -/
def DieKey (v : W32) : Prop := bitsOf v.toNat 31 16 = 0xB007 ∧ bitOf v.toNat 15 = false ∧ bitsOf v.toNat 6 0 ≠ 0x7F

section Request

variable {s : State} {w : Iface} {v : W32}

theorem exec_perDieReset (hw : w = .board ∨ w = .host 0) : exec (.perDieReset w v) s = .next (perDieReset v s) :=
  congrArg Host.Outcome.next (privileged_may s w (perDieReset v) hw)

theorem exec_perDieReset_ignored (hw : w = .board ∨ w = .host 0) (hk : ¬DieKey v) : exec (.perDieReset w v) s = .next s :=
  (exec_perDieReset hw).trans (congrArg _ (perDie_idle v s hk))

/-- A foreign interface, and a number that is no die's, are a BAD_REG_ACCESS record and nothing else. -/
theorem exec_perDieReset_refused
    (h : ¬(w = .board ∨ w = .host 0) ∨ DieKey v ∧ (bitsOf v.toNat 6 0 = 0 ∨ 44 < bitsOf v.toNat 6 0)) :
    ∃ i : RecInfo, i.unit = 0xFFFF ∧ exec (.perDieReset w v) s = .next (s.report Codes.badRegAccess i) := by
  by_cases hw : w = .board ∨ w = .host 0
  · obtain ⟨hkey, hnone⟩ := h.resolve_left (not_not_intro hw)
    exact ⟨{}, rfl, (exec_perDieReset hw).trans (congrArg _ ((perDie_go v s hkey).trans (if_pos hnone)))⟩
  · obtain ⟨i, hunit, hrun⟩ := privileged_not s w (perDieReset v) hw
    exact ⟨i, hunit, congrArg _ hrun⟩

theorem exec_perDieReset_die (hw : w = .board ∨ w = .host 0) (hk : DieKey v) (hlow : 0 < bitsOf v.toNat 6 0)
    (hhigh : bitsOf v.toNat 6 0 ≤ 44) : exec (.perDieReset w v) s = .next (s.resetDie (bitsOf v.toNat 6 0)) :=
  (exec_perDieReset hw).trans (congrArg _ ((perDie_go v s hk).trans (if_neg (by omega))))

end Request

/-- A watchdog's expiry is a record and then the reset of its die (R474). -/
theorem dieWatchdog_resets {s : State} {d : Nat} (hlow : 0 < d) (hhigh : d ≤ 44) (h : d ∉ s.boot.resetting) :
    dieWatchdog d s = (s.report Codes.dieWatchdog { cls := (dieOf d).1, idx := (dieOf d).2 }).resetDie d :=
  if_neg (by simp [h]; omega)

theorem dieWatchdog_ignored {s : State} {d : Nat} (h : d = 0 ∨ 44 < d ∨ d ∈ s.boot.resetting) : dieWatchdog d s = s :=
  if_pos (by simpa using h)

theorem dieWatchdog_spec {s : State} {d : Nat} (hlow : 0 < d) (hhigh : d ≤ 44) (h : d ∉ s.boot.resetting) :
    Logged s (dieWatchdog d s) Codes.dieWatchdog 0xFFFF ∧ (s.sec.activating = false → ResetTo s d (dieWatchdog d s)) := by
  let i : RecInfo := { cls := (dieOf d).1, idx := (dieOf d).2 }
  have hboot := report_boot s Codes.dieWatchdog i
  have hnot : d ∉ (s.report Codes.dieWatchdog i).boot.resetting := by rw [hboot]; exact h
  rw [dieWatchdog_resets hlow hhigh h]
  refine ⟨logged_grow (report_logged s Codes.dieWatchdog i) (grows_resetDie hnot), fun ha => ?_⟩
  have hact : (s.report Codes.dieWatchdog i).sec.activating = false := by rw [report_sec]; exact ha
  exact (resetDie_starts _ d hnot hact).1.congr (alike_report s Codes.dieWatchdog i) (by rw [hboot])

/-- Settles O57: a request is ignored, refused, merged, left waiting or started, and each start is `resetDie_starts`. -/
theorem dieResets : Obligations.DieResets := by
  unfold Obligations.DieResets
  intro s
  refine ⟨fun w v => ⟨exec_perDieReset_ignored, ?refused, fun hw hkey hlow hhigh => ?request⟩, ?ignored, ?watchdog,
    activation_spec s, fun d ok => ⟨?absent, fun hin hrest => ⟨_, rfl, complete_spec s d ok hin hrest⟩⟩⟩
  case refused =>
    intro h
    obtain ⟨i, hunit, hexec⟩ := exec_perDieReset_refused (s := s) h
    exact ⟨_, hexec, badReg_spec s i hunit⟩
  case request =>
    have hexec := exec_perDieReset_die (s := s) hw hkey hlow hhigh
    exact ⟨fun hin => hexec.trans (congrArg _ (resetDie_merged hin)), fun hout ha => ⟨_, hexec, resetDie_waits hout ha⟩,
      fun hout ha => ⟨_, hexec, (resetDie_starts s _ hout ha).1⟩⟩
  case ignored => exact fun d h => congrArg Host.Outcome.next (dieWatchdog_ignored h)
  case watchdog => exact fun d hlow hhigh hout => ⟨_, rfl, dieWatchdog_spec hlow hhigh hout⟩
  case absent => exact fun hout => congrArg Host.Outcome.next (if_pos (by simpa using hout))

end Sys2Proof.Machine

namespace Sys2Proof.Machine

open Claims

/-! Ends, saves and swaps of jobs (R409, R410, R414, R420, R422 to R424). -/

theorem jobComplete_absent {s : State} {j : Nat} (hj : s.job j = none) : exec (.jobComplete j) s = .next s := by
  show execJobComplete j s = _
  rw [execJobComplete, hj]

theorem jobFault_absent {s : State} {j : Nat} (hj : s.job j = none) : exec (.jobFault j) s = .next s := by
  show Host.Outcome.next (jobFault j s) = _
  rw [jobFault, hj]

theorem saveComplete_absent {s : State} {j : Nat} {late : Bool} (hj : s.job j = none) : exec (.saveComplete j late) s = .next s := by
  show Host.Outcome.next (saveComplete j late s) = _
  rw [saveComplete, hj]

section Job

variable {s : State} {j : Nat} {x : JobSt} (hx : s.job j = some x)
include hx

theorem exec_jobComplete : exec (.jobComplete j) s = .next (if s.jobDone j x then s.endJob j x 0 else s) := by
  show execJobComplete j s = _
  rw [execJobComplete, hx]

theorem jobComplete_waits (h : s.jobDone j x = false) : exec (.jobComplete j) s = .next s :=
  (exec_jobComplete hx).trans (congrArg _ (if_neg (by rw [h]; exact Bool.false_ne_true)))

theorem jobComplete_ends (h : s.jobDone j x = true) : exec (.jobComplete j) s = .next (s.endJob j x 0) :=
  (exec_jobComplete hx).trans (congrArg _ (if_pos h))

/-- A job that has completed by the end of its save ends there (R414). -/
theorem saveComplete_ends (late : Bool) (hp : x.phase = .saving) (hi : s.inFlight x = false) (h : s.jobDone j x = true) :
    exec (.saveComplete j late) s = .next (s.endJob j x 0) := by
  show Host.Outcome.next (saveComplete j late s) = _
  rw [saveComplete, hx]
  exact congrArg _ ((if_neg (by simp [hp, hi])).trans (if_pos h))

end Job

/-- The swap evaluation of one die, in terms of the command's own list. -/
theorem swapEvaluation_swaps {s : State} {long : List (Die × Nat × Nat)} {d : Die} {v : Nat} {x : JobSt}
    (hon : s.sched.swapWait ≠ 0) (hlong : ∀ q ∈ long, q.1 = d)
    (hv : s.swapVictim (long.map (fun q => (q.1.val, q.2))) d = some v) (hfits : s.fitsWithout v = true) (hx : s.job v = some x) :
    ∃ m, exec (.swapEvaluation long) s = .next m
      ∧ m.job v = some { x with phase := .saving, reason := 2, preempts := x.preempts + 1, waitOrder := s.sched.waitCtr }
      ∧ (∀ k, k ≠ v → m.job k = s.job k)
      ∧ m.ring x.ring = { s.ring x.ring with preempted := count32 (s.ring x.ring).preempted }
      ∧ (∀ q, q ≠ x.ring → m.ring q = s.ring q) ∧ Logged s m Codes.schedSwapped 0xFFFF := by
  have hone : ∀ q ∈ long.map (fun q => (q.1.val, q.2)), q.1 = d.val :=
    List.forall_mem_map.2 fun q hq => congrArg Fin.val (hlong q hq)
  exact ⟨_, rfl, swap_spec s _ d v x d.isLt hon hone hv hfits hx⟩

/-! Admission (R400, R403, R405). -/

/-- While an activation or a change of grade runs, and while its ring has no entry, JOB has no effect. -/
theorem job_waits {s : State} {r : Ring} {twin : Bool} {vote : Vote}
    (h : s.sec.activating = true ∨ s.power.target.isSome = true ∨ s.frontEntry r = none) : exec (.job r twin vote) s = .next s := by
  show execJob r twin vote s = _
  rw [execJob]
  split
  case isTrue => rfl
  case isFalse hruns =>
    rw [Bool.or_eq_true, not_or] at hruns
    rw [take_none s r 0x90 _ ((h.resolve_left hruns.1).resolve_left hruns.2)]

/-- The frame of a ring's command, over the ring numbers of the module. -/
theorem rings_kept {s m : State} {r : Ring} (h : ∀ q, q ≠ r.val → m.ring q = s.ring q) :
    ∀ q : Ring, q ≠ r → m.ring q = s.ring q :=
  fun q hq => h q (Fin.val_ne_of_ne hq)

/-- The outcome `o` refuses the JOB entry `e` of ring `r` with code `c`; its number is `j` (R405). -/
def RefusesJob (s : State) (o : Host.Outcome State Fault Refusal) (r : Ring) (e : List Byte) (j : Nat) (c : Code) : Prop :=
  ∃ m, o = .next m ∧ (∀ k, m.job k = s.job k) ∧ Logged s m c 0xFFFF
    ∧ Wrote s m r 0x90 c j (entryTag e) ((s.ring r).sqHead + 1).toNat 0
    ∧ m.ring r = { s.ring r with
        sqHead := (s.ring r).sqHead + 1, cqTail := (s.ring r).cqTail + 1, submitted := count32 (s.ring r).submitted,
        faulted := count32 (s.ring r).faulted }
    ∧ ∀ q : Ring, q ≠ r → m.ring q = s.ring q

theorem refusesJob {s m : State} {o : Host.Outcome State Fault Refusal} {r : Ring} {e : List Byte} {j : Nat} {c : Code}
    (hexec : o = .next m) (h : Refused s m r e j c) : RefusesJob s o r e j c := by
  obtain ⟨hjobs, hlogged, hwrote, hring, hothers⟩ := h
  exact ⟨m, hexec, hjobs, hlogged, hwrote, hring, rings_kept hothers⟩

/-- The outcome `o` is the state `m` with job `y` admitted in number `j`, its entry consumed and its completion owed. -/
def AdmitsJob (s : State) (o : Host.Outcome State Fault Refusal) (r : Ring) (e : List Byte) (j : Nat) (d : JobDesc) (m : State)
    (y : JobSt) : Prop :=
  o = .next m ∧ m.job j = some y ∧ (∀ k, k ≠ j → m.job k = s.job k) ∧ y.ring = r ∧ y.tag = entryTag e
    ∧ y.func = (s.ring r).owner.toNat ∧ y.desc = d ∧ y.admitted = s.sched.admitCtr
    ∧ m.ring r = { s.ring r with
        sqHead := (s.ring r).sqHead + 1, owed := (s.ring r).owed + 1, submitted := count32 (s.ring r).submitted }
    ∧ ∀ q : Ring, q ≠ r → m.ring q = s.ring q

theorem admitsJob {s m : State} {o : Host.Outcome State Fault Refusal} {r : Ring} {e : List Byte} {j : Nat} {d : JobDesc}
    {p : State → JobSt → Prop} (hexec : o = .next m) (h : ∃ y, Admits s m r j e d y ∧ p m y) :
    ∃ m y, AdmitsJob s o r e j d m y ∧ p m y := by
  obtain ⟨y, ⟨hjob, hjobs, hon, htag, hfunc, hdesc, hnumber, hring, hothers⟩, hp⟩ := h
  exact ⟨m, y, ⟨hexec, hjob, hjobs, hon, htag, hfunc, hdesc, hnumber, hring, rings_kept hothers⟩, hp⟩

/-! Partitions (R403, R466). -/

/-- A scrub of the function, or of a die that the mask names, is running. -/
def ScrubRuns (s : State) (f mask : Nat) : Prop := ∃ q ∈ s.sched.scrubs, q.func = f ∨ ∃ d ∈ q.scrubbing, bitOf mask d = true

theorem ring_consume (s : State) (r q : Nat) : (s.consume r).ring q
    = if q = r then { s.ring r with sqHead := (s.ring r).sqHead + 1, owed := (s.ring r).owed + 1 } else s.ring q := by
  rw [State.consume, State.modRing, State.ring_setRing]

/-- The outcome `o` completes the PARTITION entry `e` of ring `r` with code `c`, and assigns no die. -/
def CompletesPartition (s : State) (o : Host.Outcome State Fault Refusal) (r : Ring) (e : List Byte) (c : Code) : Prop :=
  ∃ m, o = .next m ∧ Wrote s m r 0x95 c 0 (entryTag e) ((s.ring r).sqHead + 1).toNat 0
    ∧ m.ring r = { s.ring r with sqHead := (s.ring r).sqHead + 1, cqTail := (s.ring r).cqTail + 1 }
    ∧ (∀ q : Ring, q ≠ r → m.ring q = s.ring q) ∧ m.sched.partition = s.sched.partition ∧ m.tiles = s.tiles
    ∧ (c ≠ 0 → Logged s m c 0xFFFF)

theorem completesPartition {s : State} {o : Host.Outcome State Fault Refusal} {r : Ring} {e : List Byte} {c : Code}
    (h : s.frontEntry r = some e) (ht : fieldLe e 0 1 = 0x95) (hexec : o = .next ((s.consume r).finishEntry r e c)) :
    CompletesPartition s o r e c := by
  obtain ⟨hwrote, hring, hothers, hrest⟩ := part_done s r e c h ht
  exact ⟨_, hexec, hwrote, hring, rings_kept hothers, hrest⟩

section Partition

variable {s : State} {r : Ring} {e : List Byte} (h : s.frontEntry r = some e) (hc : s.entryCode r e = none)
  (ht : fieldLe e 0 1 = 0x95)
include h hc ht

/-- While such a scrub runs the entry waits. -/
theorem partition_waits (hb : ScrubRuns s (fieldLe e 0x10 1) (fieldLe e 0x11 1)) : exec (.partition r) s = .next s :=
  (partition_take s r e h hc ht).trans (congrArg _ (if_pos ((busy_iff s _ _).2 hb)))

variable (hb : ¬ScrubRuns s (fieldLe e 0x10 1) (fieldLe e 0x11 1))
include hb

theorem partition_goes : exec (.partition r) s = .next (
    if s.partitionBad (fieldLe e 0x10 1) (fieldLe e 0x11 1) then (s.consume r).finishEntry r e Codes.schedPartition
    else if (s.changedDies (fieldLe e 0x10 1) (fieldLe e 0x11 1)).isEmpty then (s.consume r).finishEntry r e 0
    else (s.consume r).startPartition (fieldLe e 0x10 1) (fieldLe e 0x11 1) ⟨some r, entryTag e, 0x95, 0⟩) :=
  (partition_take s r e h hc ht).trans (congrArg _ (if_neg (mt (busy_iff s _ _).1 hb)))

theorem partition_refused (hbad : s.partitionBad (fieldLe e 0x10 1) (fieldLe e 0x11 1) = true) :
    CompletesPartition s (exec (.partition r) s) r e Codes.schedPartition :=
  completesPartition h ht ((partition_goes h hc ht hb).trans (congrArg _ (if_pos hbad)))

variable (hgood : ¬s.partitionBad (fieldLe e 0x10 1) (fieldLe e 0x11 1) = true)
include hgood

theorem partition_same (hsame : s.changedDies (fieldLe e 0x10 1) (fieldLe e 0x11 1) = []) :
    CompletesPartition s (exec (.partition r) s) r e 0 :=
  completesPartition h ht
    ((partition_goes h hc ht hb).trans (congrArg _ ((if_neg hgood).trans (if_pos (List.isEmpty_iff.2 hsame)))))

/-- The dies that change hands are the conductor's, and their scrub starts. -/
theorem partition_starts (hch : s.changedDies (fieldLe e 0x10 1) (fieldLe e 0x11 1) ≠ []) :
    let ds := s.changedDies (fieldLe e 0x10 1) (fieldLe e 0x11 1)
    ∃ m, exec (.partition r) s = .next m
      ∧ m.ring r = { s.ring r with sqHead := (s.ring r).sqHead + 1, owed := (s.ring r).owed + 1 }
      ∧ (∀ q : Ring, q ≠ r → m.ring q = s.ring q)
      ∧ (∀ d, m.sched.partition.get 0 d = if d ∈ ds then 0 else s.sched.partition.get 0 d)
      ∧ m.sched.scrubs = s.sched.scrubs ++ [⟨fieldLe e 0x10 1, fieldLe e 0x11 1, ds, ⟨some r, entryTag e, 0x95, 0⟩⟩]
      ∧ (∀ j, m.job j = s.job j) ∧ m.tiles = s.tiles := by
  have hexec := (partition_goes h hc ht hb).trans (congrArg _ ((if_neg hgood).trans (if_neg (mt List.isEmpty_iff.1 hch))))
  obtain ⟨hring, hstarted⟩ :=
    start_part (s.consume r) (fieldLe e 0x10 1) (fieldLe e 0x11 1) ⟨some r, entryTag e, 0x95, 0⟩
  exact ⟨_, hexec, (hring _).trans ((ring_consume s r r).trans (if_pos rfl)),
    rings_kept fun q hq => (hring q).trans ((ring_consume s r q).trans (if_neg hq)), hstarted⟩

end Partition

theorem partitionScrubComplete_none {s : State} {f : Func} (h : s.sched.scrubs.find? (fun q => q.func == f.val) = none) :
    exec (.partitionScrubComplete f) s = .next s := by
  show Host.Outcome.next (partitionScrubComplete f s) = _
  rw [partitionScrubComplete, h]

/-- Settles O59: a job ends by `endJob_spec`, a JOB entry is `admit_spec` once `job_pick` takes it, and PARTITION has one
outcome per case. -/
theorem jobsAndPartitions : Obligations.JobsAndPartitions := by
  unfold Obligations.JobsAndPartitions
  intro s
  refine ⟨fun j hj => ⟨jobComplete_absent hj, jobFault_absent hj, fun late => saveComplete_absent hj⟩,
    fun j x hx => ?job, fun long => ⟨fun h => congrArg _ (swap_id s _ h), fun d v x => swapEvaluation_swaps⟩, ?ante,
    fun r twin vote => job_waits, ?admission, ?partition, fun r h => exec_entry_none h _ (by simp [entryCommands]),
    fun f => ⟨partitionScrubComplete_none, fun q r hq hr hlive hidle => ⟨_, rfl, scrub_spec s f q r hq hr hlive.1 hlive.2 hidle⟩⟩⟩
  case job =>
    obtain ⟨hwaits, hstops, hends⟩ := jobFault_spec s j x hx
    refine ⟨jobComplete_waits hx,
      fun hdone hlive hidle => ⟨_, jobComplete_ends hx hdone, endJob_spec s j x 0 hlive.1 hlive.2 hidle⟩,
      fun h => congrArg _ (hwaits h), fun c hfault hphase hcol hflight => ⟨_, rfl, hstops c hfault hphase hcol hflight⟩,
      fun c hfault _ hphase hcol hflight hlive hidle =>
        ⟨_, rfl, hends c hfault hphase hcol hflight hlive.1 hlive.2 hidle⟩,
      fun late => ⟨fun h => congrArg _ (saveComplete_id s j late x hx h),
        fun hphase hflight hdone hlive hidle =>
          ⟨_, saveComplete_ends hx late hphase hflight hdone, endJob_spec s j x 0 hlive.1 hlive.2 hidle⟩,
        fun hphase hflight hdone hsums htarget => ?_⟩⟩
    obtain ⟨ts, qs, hsaved⟩ := saveComplete_spec s j late x hx hphase hflight hdone hsums htarget
    exact ⟨_, ts, qs, rfl, hsaved⟩
  case ante =>
    obtain ⟨hstays, htakes⟩ := ante_spec s
    refine ⟨fun h => congrArg _ (hstays h), fun h => ?_⟩
    obtain ⟨m, j, x, hrun, hspec⟩ := htakes h
    exact ⟨m, j, x, congrArg _ hrun, hspec⟩
  case admission =>
    intro r e twin vote j hfront hcode htype hactivating htarget hfree
    have htaken := job_pick s r e twin vote j hfront hcode htype hactivating htarget hfree
    obtain ⟨hrefused, hpasses⟩ := admit_spec s r j e vote twin hfront hfree htarget
    refine ⟨fun c hc => refusesJob (htaken (.inl (Option.isSome_iff_exists.2 ⟨c, hc⟩))) (hrefused c hc), fun hnone habsent => ?_⟩
    have hexec := htaken (.inr habsent)
    obtain ⟨haborted, hvoted⟩ := hpasses hnone
    refine ⟨fun c hv _ => refusesJob hexec (haborted c hv), fun n xs hv => ?_⟩
    obtain ⟨hnocommon, hagreed⟩ := hvoted n xs hv
    refine ⟨fun h => refusesJob hexec (hnocommon h), fun g hg => ?_⟩
    obtain ⟨hnobound, hfull, hadmitted⟩ := hagreed g hg
    refine ⟨fun hlc h => refusesJob hexec (hnobound hlc h), fun hlc h hplace => refusesJob hexec (hfull hlc h hplace),
      fun hbe hrest => ?_⟩
    obtain ⟨hgrade, htiles, hruns⟩ := hadmitted hbe hrest
    exact ⟨fun h => admitsJob hexec (hgrade h), fun h hwalk => admitsJob hexec (htiles h hwalk),
      fun ps qs u h hwalk hsaves => admitsJob hexec (hruns ps qs u h hwalk hsaves)⟩
  case partition =>
    intro r e hfront hcode htype
    have hbad := partBad_iff s (fieldLe e 0x10 1) (fieldLe e 0x11 1)
    exact ⟨partition_waits hfront hcode htype,
      fun hb h => partition_refused hfront hcode htype hb (hbad.2 h),
      fun hb h hsame => partition_same hfront hcode htype hb (mt hbad.1 h) hsame,
      fun hb h hch => partition_starts hfront hcode htype hb (mt hbad.1 h) hch⟩

end Sys2Proof.Machine

namespace Sys2Proof.Machine

open Claims

/-! States that meet the hypotheses of O57 and O59. -/

/-- O57 applies to the reset of compute die 0, number 5 in the order of R461: job 1, which holds a tile there, faults. -/
theorem dieResets_compute : ∃ m : State, exec (.perDieReset .board 0xB0070005) (tierState (.resident 0) none) = .next m
    ∧ m.boot.dieByte 5 = 1 ∧ m.job 1 = some { trainingJob .init with fault := some Codes.dieReset } := by
  obtain ⟨hrequest, -⟩ := dieResets (tierState (.resident 0) none)
  obtain ⟨-, -, hdie⟩ := hrequest .board 0xB0070005
  obtain ⟨-, -, hstarts⟩ := hdie (.inl rfl) (by decide) (by decide) (by decide)
  obtain ⟨m, hexec, hbyte, -, -, -, -, -, -, hcompute, -⟩ := hstarts (by decide) rfl
  obtain ⟨-, -, hjobs, -⟩ := hcompute (by decide) (by decide)
  obtain ⟨hfaults, -⟩ := hjobs 1
  exact ⟨m, hexec, hbyte, hfaults ⟨trainingJob .init, by decide⟩⟩

/-- O57 applies to the watchdog of stack 0, number 13: a byte of the page there reads as zero. -/
theorem dieResets_stack :
    let s := (tierState (.resident 0) none).writeLe 0x1000 4 0xFFFFFFFF
    s.mem.bytes.get 0 0x1000 = 0xFF ∧ ∃ m : State, exec (.dieWatchdogExpiry 13) s = .next m
      ∧ Logged s m Codes.dieWatchdog 0xFFFF ∧ m.mem.bytes.get 0 0x1000 = 0 := by
  intro s
  obtain ⟨-, -, hwatchdog, -⟩ := dieResets s
  obtain ⟨m, hexec, hlogged, hreset⟩ := hwatchdog 13 (by decide) (by decide) (by decide)
  obtain ⟨-, -, -, -, -, -, -, -, hstack⟩ := hreset rfl
  obtain ⟨hzero, -⟩ := hstack (by decide)
  have hpage : (0, some { backedPage (.resident 0) with written := true }) ∈ s.mem.pages := by decide
  exact ⟨by decide, m, hexec, hlogged, hzero 0 _ 0x1000 ⟨hpage, 0, rfl, by decide⟩ (by decide) (by decide)⟩

/-- O57 applies to the end of an edge die's reset with a failed test: its link 0 stays DISABLED. -/
theorem dieResets_failedEdge : ∃ m : State,
    exec (.perDieResetComplete 1 false) (State.reset.modBoot (fun b => { b with resetting := [1] })) = .next m
      ∧ m.boot.resetting = [] ∧ bitOf m.boot.bistFail 1 = true ∧ (m.link 0).phase = .disabled := by
  obtain ⟨-, -, -, -, hends⟩ := dieResets (State.reset.modBoot (fun b => { b with resetting := [1] }))
  obtain ⟨-, hend⟩ := hends 1 false
  obtain ⟨m, hexec, -, hresetting, hfail, -, -, -, -, hlinks, -⟩ := hend (by decide) (List.forall_mem_nil _)
  exact ⟨m, hexec, hresetting, hfail 1, hlinks 0⟩

/-- Job 1 of the active ring 0 has all of its stream dealt, and nothing in hand. -/
def dealtState : State := (trainingState .init 4 1 1).setRing 0 { RingSt.init with active := true }

/-- O59 applies to it: the job is gone, and the ring counts its completion. -/
theorem jobsAndPartitions_ends : ∃ m : State, exec (.jobComplete 1) dealtState = .next m ∧ m.job 1 = none
    ∧ (m.ring 0).completed = 1 ∧ (m.ring 0).cqTail = 1 := by
  obtain ⟨-, hjob, -⟩ := jobsAndPartitions dealtState
  obtain ⟨-, hends, -⟩ := hjob 1 (trainingJob .init) rfl
  obtain ⟨m, hexec, hgone, -, -, -, hring, -⟩ := hends (by decide) ⟨rfl, rfl⟩ (.inr (by decide))
  exact ⟨m, hexec, hgone, (congrArg RingSt.completed hring).trans (by decide), (congrArg RingSt.cqTail hring).trans (by decide)⟩

/-- Ring 0 is active with one entry, in host memory at 0x2000, of TYPE `type` and with `body` at 0x10. -/
def entryState (type : Byte) (body : List Byte) : State :=
  let s := State.reset.setRing 0 { RingSt.init with active := true, sq := 0x2000, sqTail := 1 }
  { s with hostMem := (s.hostMem.setRange 0 0x2000 [type, 0x20]).setRange 0 0x2010 body }

theorem freeJobNo_one {s : State} (h : s.job 1 = none) : s.freeJobNo = some 1 := by
  have hfree : (s.job (0 + 1)).isNone = true := by rw [h]; rfl
  rw [State.freeJobNo, List.range_succ_eq_map, List.map_cons]
  exact List.find?_cons_of_pos hfree

/-- O59 applies to a JOB entry while the input fails: it completes with POWER_FAIL. -/
theorem jobsAndPartitions_refuses (vote : Vote) :
    let s := (entryState 0x90 []).modPower (fun p => { p with powerFail := true })
    ∃ m : State, exec (.job 0 false vote) s = .next m ∧ Logged s m Codes.powerFail 0xFFFF ∧ (m.ring 0).faulted = 1 := by
  intro s
  have hfree : s.freeJobNo = some 1 := freeJobNo_one rfl
  have hfront : s.frontEntry 0 = some (s.entryBytes 0) := by
    rw [State.frontEntry, hfree]
    decide
  obtain ⟨-, -, -, -, -, hentry, -⟩ := jobsAndPartitions s
  obtain ⟨hrefused, -⟩ := hentry 0 (s.entryBytes 0) false vote 1 hfront (by decide) (by decide) rfl rfl hfree
  obtain ⟨m, hexec, -, hlogged, -, hring, -⟩ := hrefused Codes.powerFail rfl
  exact ⟨m, hexec, hlogged, (congrArg RingSt.faulted hring).trans (by decide)⟩

/-- O59 applies to a PARTITION entry that gives die 0 to function 2: the scrub of die 0 runs. -/
theorem jobsAndPartitions_scrubs : ∃ m : State, exec (.partition 0) (entryState 0x95 [2, 1]) = .next m
    ∧ m.sched.partition.get 0 0 = 0 ∧ m.sched.scrubs = [⟨2, 1, [0], ⟨some 0, 0, 0x95, 0⟩⟩] := by
  let s := entryState 0x95 [2, 1]
  have hfront : s.frontEntry 0 = some (s.entryBytes 0) := by decide
  have hgood : ¬s.partitionBad (fieldLe (s.entryBytes 0) 0x10 1) (fieldLe (s.entryBytes 0) 0x11 1) = true := by decide
  obtain ⟨-, -, -, -, -, -, hpartition, -⟩ := jobsAndPartitions s
  obtain ⟨-, -, -, hstarts⟩ := hpartition 0 (s.entryBytes 0) hfront (by decide) (by decide)
  obtain ⟨m, hexec, -, -, hdies, hscrubs, -⟩ := hstarts nofun (mt (partBad_iff s _ _).2 hgood) (by decide)
  exact ⟨m, hexec, (hdies 0).trans (if_pos (by decide)), hscrubs.trans (by decide)⟩

/-- The JOB entry's descriptor, at 0x1000, asks for one tile of the one die of function 0; grade 1 is among those offered. -/
def jobEntryState : State :=
  let o : ObjectSt := { backedObject none with attr := 0, owner := .ring 0 }
  let s := ((entryState 0x90 [0x00, 0x10]).setPage 0 (some (backedPage (.resident 0)))).setObject 0 (some o)
  let s := (s.writeMem 0x1000 [0x98, 0x20, 0, 0, 1, 1]).writeMem 0x1028 [0x00, 0x11]
  { (s.modStack 0 (fun y => { y with good := 1 })) with sched := { s.sched with partition := [(0, 1)] } }

/-- Its descriptor has no byte past the address of STREAMS. -/
theorem jobEntryState_byte {k : Nat} (h : 0x1080 ≤ k) : jobEntryState.mem.bytes.get 0 k = 0 := by
  have hkeys : ∀ p ∈ jobEntryState.mem.bytes, p.1 < 0x1080 := by decide
  have hnone := SMap.get_append_right 0 jobEntryState.mem.bytes [] k fun p hp => Nat.ne_of_lt (Nat.lt_of_lt_of_le (hkeys p hp) h)
  rwa [List.append_nil] at hnone

/-- It passes every check. -/
theorem jobEntryState_code : let bs := jobEntryState.readMem 0x1000 256
    jobEntryState.jobCode 0 0x1000 bs (jobDescOf bs) false = none := by
  intro bs
  have hlen : bs.length = 256 := SMap.getRange_length ..
  have hreserved : fieldLe bs 0x80 128 = 0 := by
    rw [← readLe_field (m := jobEntryState) (a := 0x1000) (by rw [hlen]) (by rw [hlen])]
    exact State.readLe_zero fun k hk _ => jobEntryState_byte hk
  have hdesc : jobEntryState.jobDescBad 0 0x1000 bs (jobDescOf bs) = false := by
    rw [State.jobDescBad, hreserved]
    decide
  rw [State.jobCode, hdesc]
  decide

/-- O59 applies to the entry when grade 1 alone is common: the job is admitted, and waits for the change to grade 1. -/
theorem jobsAndPartitions_admits :
    ∃ (m : State) (y : JobSt), exec (.job 0 false (.sums 1 [0, 1])) jobEntryState = .next m ∧ m.job 1 = some y
      ∧ y.phase = .waiting ∧ y.grade = 1 ∧ m.power.target = some 1 ∧ (m.ring 0).owed = 1 := by
  let e := jobEntryState.entryBytes 0
  have hfree : jobEntryState.freeJobNo = some 1 := freeJobNo_one rfl
  have hfront : jobEntryState.frontEntry 0 = some e := by
    rw [State.frontEntry, hfree]
    decide
  obtain ⟨-, -, -, -, -, hentry, -⟩ := jobsAndPartitions jobEntryState
  obtain ⟨-, hpasses⟩ := hentry 0 e false (.sums 1 [0, 1]) 1 hfront (by decide) (by decide) rfl rfl hfree
  obtain ⟨-, hvoted⟩ := hpasses jobEntryState_code (by decide)
  obtain ⟨-, hagreed⟩ := hvoted 1 [0, 1] rfl
  obtain ⟨-, -, hadmits⟩ := hagreed 1 (by decide)
  obtain ⟨hgrade, -⟩ := hadmits (by decide) (List.forall_mem_nil _)
  obtain ⟨m, y, ⟨hexec, hjob, -, -, -, -, -, -, hring, -⟩, hphase, hgrade, hpower⟩ := hgrade (by decide)
  exact ⟨m, y, hexec, hjob, hphase, hgrade, congrArg PowerSt.target hpower, (congrArg RingSt.owed hring).trans (by decide)⟩

/-- Job 1 is being saved while a change of grade is awaited, with a record of its stream left to deal. -/
def savingState : State :=
  ((trainingState .init 4 1 0).setJob 1 (some { trainingJob .init with phase := .saving })).modPower
    (fun p => { p with target := some 1 })

/-- O59 applies to the end of its save: the job is saved, and its one tile is released. -/
theorem jobsAndPartitions_saves : ∃ (m : State) (y : JobSt), exec (.saveComplete 1 true) savingState = .next m ∧ m.job 1 = some y
    ∧ y.phase = .saved ∧ (m.tile 0).run = .idle ∧ Logged savingState m Codes.schedPreemptLate 0xFFFF := by
  obtain ⟨-, hjob, -⟩ := jobsAndPartitions savingState
  obtain ⟨-, -, -, -, -, hsave⟩ := hjob 1 { trainingJob .init with phase := .saving } rfl
  obtain ⟨-, -, hsaves⟩ := hsave true
  obtain ⟨m, ts, qs, hexec, hsaved, -, hreleased, hlate⟩ := hsaves rfl (by decide) (by decide) (by decide) rfl
  obtain ⟨-, hidle⟩ := hreleased ⟨0, 1, none⟩ (.head _) 0 (by decide) (by decide)
  exact ⟨m, _, hexec, hsaved, rfl, hidle, hlate rfl⟩

/-- Function 0 awaits die 0, of which a page of stack 0 and a scratchpad hold old bytes. -/
def scrubState : State :=
  let s := ((tierState (.resident 0) none).writeMem 0x1000 [7]).setTile 3 { TileSt.init with spad := [(0, 9)] }
  let s := (s.setJob 1 none).setRing 0 { RingSt.init with active := true, sqHead := 1, sqTail := 1, owed := 1 }
  { s with sched := { s.sched with scrubs := [⟨0, 1, [0], ⟨some 0, 5, 0x95, 0⟩⟩] } }

/-- O59 applies to the end of the scrub: the die is the function's, and nothing of the old bytes is left. -/
theorem jobsAndPartitions_assigns : ∃ m : State, exec (.partitionScrubComplete 0) scrubState = .next m
    ∧ m.sched.partition.get 0 0 = 1 ∧ (m.tile 3).spad = [] ∧ m.mem.bytes.get 0 0x1000 = 0 ∧ (m.ring 0).owed = 0 := by
  obtain ⟨-, -, -, -, -, -, -, -, hscrub⟩ := jobsAndPartitions scrubState
  obtain ⟨-, hends⟩ := hscrub 0
  obtain ⟨m, hexec, hdies, -, htiles, hpages, hring, -⟩ :=
    hends ⟨0, 1, [0], ⟨some 0, 5, 0x95, 0⟩⟩ 0 rfl rfl ⟨rfl, rfl⟩ (.inr (List.forall_mem_nil _))
  have hpage : (0, some { backedPage (.resident 0) with written := true }) ∈ scrubState.mem.pages := by decide
  exact ⟨m, hexec, (hdies 0).trans (if_pos (by decide)), (htiles 0 (.head _) 3 (by decide)).1,
    hpages rfl 0 (.head _) 0 _ 0x1000 hpage ⟨0, rfl, by decide⟩ (by decide) (by decide), congrArg RingSt.owed hring⟩

/-- Job 2, best-effort, waits for all twelve tiles of die 0, which is function 0's. -/
def waitingJob : JobSt := { JobSt.new 0 [] 0 { jobDescOf [] with dies := 1, tpd := 12 } 2 2 0 with age := 4 }

def queuedState (running : JobSt) : State :=
  let s := ((State.reset.modStack 0 (fun y => { y with good := 1 })).setJob 1 (some running)).setJob 2 (some waitingJob)
  { s with sched := { s.sched with partition := [(0, 1)], swapWait := 3, ageLimit := 4 } }

/-- O59 applies to a swap: job 1, which a step holds back on die 0, is saved with REASON 2. -/
theorem jobsAndPartitions_swaps :
    let x : JobSt := { trainingJob .init with heldBack := true }
    ∃ (m : State) (y : JobSt), exec (.swapEvaluation [(0, 1, 5)]) (queuedState x) = .next m ∧ m.job 1 = some y ∧ y.phase = .saving
      ∧ y.reason = 2 ∧ (m.ring 0).preempted = 1 := by
  intro x
  obtain ⟨-, -, hswap, -⟩ := jobsAndPartitions (queuedState x)
  obtain ⟨-, hswaps⟩ := hswap [(0, 1, 5)]
  obtain ⟨m, hexec, hjob, -, hring, -⟩ := hswaps 0 1 x (by decide) (by decide) (by decide) (by decide) rfl
  exact ⟨m, _, hexec, hjob, rfl, rfl, (congrArg RingSt.preempted hring).trans (by decide)⟩

/-- O59 applies to the free ante slot: job 2 has counted AGE_LIMIT completions. -/
theorem jobsAndPartitions_promotes :
    let s := queuedState (trainingJob .init)
    ∃ m : State, exec .anteSlotPromotion s = .next m ∧ m.sched.ante = 2 ∧ Logged s m Codes.schedAged 0xFFFF := by
  intro s
  have hjobs : s.sched.jobs = [(1, some (trainingJob .init)), (2, some waitingJob)] := by decide
  have haged : (2, some waitingJob) ∈ s.sched.jobs := by rw [hjobs]; exact .tail _ (.head _)
  obtain ⟨-, -, -, hante, -⟩ := jobsAndPartitions s
  obtain ⟨-, htakes⟩ := hante
  obtain ⟨m, j, x, hexec, ⟨hin, -, hwaits, -⟩, -, hsched, hlogged, -⟩ :=
    htakes ⟨rfl, by decide, 2, waitingJob, haged, rfl, .inl rfl, by decide⟩
  simp only [hjobs, List.mem_cons, Prod.mk.injEq, Option.some.injEq, List.not_mem_nil, or_false] at hin
  rcases hin with ⟨-, rfl⟩ | ⟨rfl, -⟩
  · exact absurd hwaits (by decide)
  · exact ⟨m, hexec, congrArg SchedSt.ante hsched, hlogged⟩

end Sys2Proof.Machine

namespace Sys2Proof.Machine

open Claims

/-! The end of a control interval (R430, R431, R437, R439, R440, R443, R446). -/

/-- What the limiter law promises of budgets `b` (R439): each lies between its floor and its want, a level exceeds its units by
floors alone, and where a tile stays below its want a level of it is used up and serves no later group above its floor. -/
def GrantLaw (lv : List CapLevel) (units : CapLevel → Nat) (floor want order b : Nat → Nat) : Prop :=
  (∀ t, t < 96 → floor t ≤ b t ∧ b t ≤ max (floor t) (want t))
  ∧ (∀ l ∈ lv, usedBy l b ≤ max (units l) (usedBy l floor))
  ∧ ∀ t, t < 96 → b t < min 64 (want t) →
      ∃ l ∈ lv, l.tiles.contains t = true ∧ units l ≤ usedBy l b
        ∧ ∀ u, u < 96 → l.tiles.contains u = true → order t < order u → b u = floor u

/-- The law reads wants and budgets of the module's 96 tiles alone. -/
theorem GrantLaw.congr {lv : List CapLevel} {units : CapLevel → Nat} {floor want want' order b b' : Nat → Nat}
    (h : GrantLaw lv units floor want order b) (hwant : ∀ t, t < 96 → want' t = want t) (hb : ∀ t, t < 96 → b' t = b t) :
    GrantLaw lv units floor want' order b' := by
  obtain ⟨hbounds, hlevels, hserved⟩ := h
  have hused (l : CapLevel) : usedBy l b' = usedBy l b := usedBy_congr l b' b hb
  refine ⟨fun t ht => ?_, fun l hl => (hused l).symm ▸ hlevels l hl, fun t ht hlow => ?_⟩
  · rw [hb t ht, hwant t ht]
    exact hbounds t ht
  · rw [hb t ht, hwant t ht] at hlow
    obtain ⟨l, hl, hin, hfull, hlater⟩ := hserved t ht hlow
    exact ⟨l, hl, hin, (hused l).symm ▸ hfull, fun u hu hinu ho => (hb u hu).trans (hlater u hu hinu ho)⟩

/-- A throttle is in force on the tile or on a stack of its die (R440). -/
def State.isHot (s : State) (t : Nat) : Bool :=
  (s.tile t).pwr.throttled || (List.range 4).any (fun i => (s.stack (4 * (t / 12) + i)).throttled)

/-- The want under the intervals that storms have left, before a throttle (R443). -/
def State.stormWant (s : State) (left : Nat → Nat) (t : Nat) : Nat :=
  if left (t / 12) ≠ 0 ∧ s.powerLc t = false then
    max (min (s.tile t).powerRequest s.power.live.beFloorV) ((s.tile t).powerRequest - 8)
  else (s.tile t).powerRequest

theorem wantOf_eq (s : State) {storm : Nat → Bool} {left : Nat → Nat} {t : Nat} (h : storm (t / 12) = (left (t / 12) != 0)) :
    s.wantOf storm t = if s.isHot t then max (s.floorOf t) (min (s.stormWant left t) ((s.tile t).pwr.budget - 8))
      else s.stormWant left t := by
  have hslow : s.stormWant left t = if storm (t / 12) && !s.powerLc t then
      max (min (s.tile t).powerRequest s.power.live.beFloorV) ((s.tile t).powerRequest - 8) else (s.tile t).powerRequest :=
    if_congr (by simp [h]) rfl rfl
  rw [hslow]
  rfl

theorem Calm.floorOf {s m : State} (h : Calm s m) (t : Nat) : m.floorOf t = s.floorOf t := by
  rw [State.floorOf, State.floorOf, calm_req h, calm_lc h, h.live]

theorem Calm.stormWant {s m : State} (h : Calm s m) (left : Nat → Nat) (t : Nat) : m.stormWant left t = s.stormWant left t := by
  rw [State.stormWant, State.stormWant, calm_req h, calm_lc h, h.live]

theorem Calm.budget {s m : State} (h : Calm s m) (t : Nat) : (m.tile t).pwr.budget = (s.tile t).pwr.budget := by
  rw [h.tile t]

theorem Calm.phaseValid {s m : State} (h : Calm s m) (t : Nat) : (m.tile t).pwr.phaseValid = (s.tile t).pwr.phaseValid := by
  rw [h.tile t]

theorem isHot_congr {s m : State} (htile : ∀ t, (m.tile t).pwr.throttled = (s.tile t).pwr.throttled) (hmem : m.mem = s.mem)
    (t : Nat) : m.isHot t = s.isHot t := by
  simp only [State.isHot, State.stack, htile, hmem]

theorem capLevels_congr {s m : State} (hlive : m.power.live = s.power.live) (hinlet : m.power.inlet = s.power.inlet)
    (hpart : m.sched.partition = s.sched.partition) : m.capLevels = s.capLevels := by
  unfold State.capLevels PowerSt.effCap State.funcDies
  rw [hlive, hinlet, hpart]

/-- The grants obey the law with the floors, requests and groups of any state that the records and sensors have led from. -/
theorem grantLaw_of_calm {s q : State} (h : Calm s q) (x : Nat) {storm : Nat → Bool} {left : Nat → Nat}
    (hstorm : ∀ d, d < 8 → storm d = (left d != 0)) :
    GrantLaw q.capLevels (fun l => levelUnits (s.fuses.gradeS.getD s.grade 0) (s.fuses.gradeD.getD s.grade 0) x l.cap l.tiles.length)
      s.floorOf
      (fun t => if q.isHot t then max (s.floorOf t) (min (s.stormWant left t) ((s.tile t).pwr.budget - 8)) else s.stormWant left t)
      (fun t => (if s.powerLc t then 0 else 2) + if (s.tile t).pwr.phaseValid then 0 else 1)
      (fun t => (q.grantIn x storm).run.b.get 0 t) := by
  have hlaw : GrantLaw q.capLevels _ q.floorOf (q.wantOf storm) _ _ := grant_spec q x storm
  simp only [h.fuses, h.grade, calm_lc h, h.phaseValid, funext h.floorOf] at hlaw
  refine hlaw.congr (fun t ht => ?_) (fun t _ => rfl)
  rw [wantOf_eq q (hstorm (t / 12) (by omega)), h.floorOf, h.stormWant, h.budget]

/-- Settles O53: `interval_spec` names the state `q` that the grants are made from; the registers in force, the sensors and the
frame are its clauses, and the budgets are `grantLaw_of_calm`. -/
theorem controlIntervals : Obligations.ControlIntervals := by
  unfold Obligations.ControlIntervals
  intro s r c req lc floor storm throttle
  obtain ⟨m, q, x, stormy, hexec, hx, hcalm, hinlet, hstormy, hdealers, htileC, hstackC, htiles, hbudget, hpassed, hmem, hlinks, hcol,
    hcodec, hgrade, -, hjobs, hpart, hcfg, hlive, hinletKept, hsumW, hsamples⟩ := interval_spec s r
  have hthrottled (t : Nat) : (m.tile t).pwr.throttled = (q.tile t).pwr.throttled := by rw [htiles t]
  have hstack (k : Nat) : m.stack k = q.stack k := by rw [State.stack, State.stack, hmem]
  have hfails : (q.power.powerFail || q.power.tripped) = (s.power.powerFail || s.power.tripped) := by
    rw [hcalm.fail, hcalm.trip]
    rfl
  refine ⟨m, x, hexec, hcfg.trans hcalm.cfg, hlive.trans hcalm.live, hinletKept.trans hinlet, hsamples, hsumW, hx, fun t => ?tile,
    ?bytes, ?pages, hlinks.trans hcalm.links, hcol.trans hcalm.col, hcodec.trans hcalm.codec, hgrade.trans hcalm.grade, fun j => ?job,
    fun d hd => ?dealer, fun hn p hp => ?tileC, fun hn p hp => ?stackC, fun hoff t ht => ?off, fun hon => ?grants⟩
  case tile =>
    rw [htiles t, hcalm.tile t]
    rfl
  case bytes => rw [hmem]; exact hcalm.bytes
  case pages => rw [hmem]; exact hcalm.pages
  case job =>
    obtain ⟨l, hl⟩ := hjobs j
    obtain ⟨l', hl'⟩ := hcalm.job j
    refine ⟨l, ?_⟩
    rw [hl, hl', Option.map_map]
    rfl
  case dealer => rw [hpassed d hd, hdealers d hd]
  case tileC =>
    obtain ⟨htemp, hthrottle⟩ := htileC hn p hp
    rw [htiles p.1]
    exact ⟨htemp, hthrottle.trans (throttle_eq ..)⟩
  case stackC =>
    obtain ⟨htemp, hthrottle⟩ := hstackC hn p hp
    rw [hstack]
    exact ⟨htemp, hthrottle.trans (throttle_eq ..)⟩
  case off => rw [hbudget t ht, hfails, if_pos hoff]
  case grants =>
    have hleft (d : Nat) (hd : d < 8) : stormy d = (storm d != 0) := by rw [hstormy d, hdealers d hd]
    have hlaw := grantLaw_of_calm hcalm x hleft
    rw [← capLevels_congr hlive hinletKept hpart] at hlaw
    refine hlaw.congr (fun t _ => ?_) (fun t ht => ?_)
    · rw [← isHot_congr hthrottled hmem t]
      rfl
    · rw [hbudget t ht, hfails, if_neg (Bool.eq_false_iff.1 hon)]

end Sys2Proof.Machine

namespace Sys2Proof.Machine

open Claims

/-! A module with hands on tiles 0 and 12 alone, which meets the hypotheses of O53. -/

/-- The package is the one level where no quadrant and no partition has a cap. -/
theorem capLevels_package (s : State) (hquad : s.power.live.quadCap = 0) (hpart : s.power.live.partCap = []) :
    s.capLevels = [⟨List.range 96, s.power.effCap⟩] := by
  have hnone : ∀ q ∈ List.range 4, bitsOf (0 : W64).toNat (16 * q + 12) (16 * q) = 0 := by decide
  unfold State.capLevels
  rw [hquad, hpart, List.filterMap_nil, List.append_nil, List.filterMap_eq_nil_iff.2 fun q hq => if_pos (hnone q hq)]

theorem usedBy_two (cap : Nat) (f : Nat → Nat) (h : ∀ t, t < 96 → t ≠ 0 → t ≠ 12 → f t = 0) :
    usedBy ⟨List.range 96, cap⟩ f = f 0 + f 12 := by
  let first (u : Nat) := if u = 0 then 0 + f 0 else 0
  have hzero : usedBy ⟨List.range 96, cap⟩ (fun _ => 0) = 0 := by simp [usedBy]
  calc usedBy ⟨List.range 96, cap⟩ f
      = usedBy ⟨List.range 96, cap⟩ (fun u => if u = 12 then first u + f 12 else first u) := by
        refine usedBy_congr _ _ _ fun t ht => ?_
        by_cases h0 : t = 0
        · simp [first, h0]
        · by_cases h12 : t = 12
          · simp [first, h12]
          · simp [first, h0, h12, h t ht h0 h12]
    _ = f 0 + f 12 := by
        rw [usedBy_bump _ first 12 _ (by decide), usedBy_bump _ (fun _ => 0) 0 _ (by decide), hzero]
        simp

theorem sensor_uncalibrated (s : State) (h : s.boot.userCal = []) (o x : Nat) : s.sensor o x = min 255 x := by
  have hoffset : s.calOffset o = 0 := by rw [State.calOffset, h, fieldLe, List.drop_nil, List.take_nil]; rfl
  rw [State.sensor, hoffset]
  rfl

/-- The law on the package alone, where the tiles but 0 and 12 ask for nothing. -/
theorem GrantLaw.two {cap : Nat} {units : CapLevel → Nat} {floor want order b : Nat → Nat}
    (h : GrantLaw [⟨List.range 96, cap⟩] units floor want order b) (hidle : ∀ t, t ≠ 0 → t ≠ 12 → floor t = 0 ∧ want t = 0) :
    b 0 + b 12 ≤ max (units ⟨List.range 96, cap⟩) (floor 0 + floor 12)
      ∧ (∀ t, t = 0 ∨ t = 12 → floor t ≤ b t ∧ b t ≤ max (floor t) (want t))
      ∧ (∀ t, t = 0 ∨ t = 12 → b t < min 64 (want t) → units ⟨List.range 96, cap⟩ ≤ b 0 + b 12)
      ∧ (b 0 < min 64 (want 0) → order 0 < order 12 → b 12 = floor 12) := by
  obtain ⟨hbounds, hlevels, hserved⟩ := h
  have hfloors := usedBy_two cap floor fun t _ h0 h12 => (hidle t h0 h12).1
  have hused := usedBy_two cap b fun t ht h0 h12 => by
    obtain ⟨-, hhigh⟩ := hbounds t ht
    obtain ⟨hfloor, hwant⟩ := hidle t h0 h12
    omega
  have hcap := hlevels _ (.head _)
  rw [hused, hfloors] at hcap
  refine ⟨hcap, fun t ht => hbounds t (by omega), fun t ht hlow => ?_, fun hlow ho => ?_⟩
  · obtain ⟨l, hl, -, hfull, -⟩ := hserved t (by omega) hlow
    rw [List.mem_singleton.1 hl, hused] at hfull
    exact hfull
  · obtain ⟨l, hl, -, -, hlater⟩ := hserved 0 (by decide) hlow
    rw [List.mem_singleton.1 hl] at hlater
    exact hlater 12 (by decide) (by simp) ho

/-- Job 1, latency-critical, holds tile 0, and job 2, best-effort, tile 12, whose die may have had 257 droop trips. -/
def twoHands (power : PowerSt) (stormy : Bool) : State :=
  let s := State.reset.setJob 1 (some { trainingJob .init with desc := { jobDescOf [] with cls := 1 } })
  let s := (s.setTile 0 { TileSt.init with hand := some trainingHand }).setTile 12
    { TileSt.init with hand := some { trainingHand with job := 2 } }
  { s.setDealer 1 { DealerSt.init with trips := if stormy then 257 else 0 } with power := power }

def capped (cap : Nat) : PowerSt := { PowerSt.init with cfg := { PowerCfg.init with capW := cap } }

/-- Every sensor that the two tiles depend on reads 40, but for tile 0's where it is hot. -/
def twoReadings (hot : Bool) : Readings :=
  ⟨some 20, [(0, if hot then 95 else 40), (12, 40)], (List.finRange 32).map (fun k => (k, 40))⟩

/-- The wants of the two tiles: the last grant less 8 under a throttle, the request less 8 under a storm. -/
def twoWants (hot stormy : Bool) (t : Nat) : Nat :=
  if t = 0 then (if hot then 56 else 64) else if t = 12 then (if stormy then 56 else 64) else 0

theorem twoHands_idle (power : PowerSt) (stormy : Bool) {t : Nat} (h0 : t ≠ 0) (h12 : t ≠ 12) :
    ((twoHands power stormy).tile t).powerRequest = 0 := by
  have htile : (twoHands power stormy).tile t = TileSt.init := by
    show ((State.reset.setTile 0 _).setTile 12 _).tile t = _
    rw [State.tile_setTile, if_neg h12, State.tile_setTile, if_neg h0]
    rfl
  rw [htile]
  rfl

/-- O53 applies while the input fails: no tile has a budget. -/
theorem controlIntervals_off : ∃ m : State,
    exec (.controlInterval (twoReadings false)) (twoHands { PowerSt.init with powerFail := true } false) = .next m
      ∧ ∀ t, t < 96 → (m.tile t).pwr.budget = 0 := by
  obtain ⟨m, -, hexec, -, -, -, -, -, -, -, -, -, -, -, -, -, -, -, -, -, hoff, -⟩ :=
    controlIntervals (twoHands { PowerSt.init with powerFail := true } false) (twoReadings false)
  exact ⟨m, hexec, hoff rfl⟩

/-- Storm intervals of a die once the trips of the interval are counted (R443). -/
def State.stormLeft (s : State) (d : Nat) : Nat :=
  if s.power.cfg.droopLimit < (s.dealer d).trips then 16 else (s.dealer d).storm

/-- The two tiles with the register values that come into force. -/
abbrev twoCapped (cap : Nat) (stormy : Bool) : State := twoHands { capped cap with live := (capped cap).cfg } stormy

theorem twoCapped_idle (cap : Nat) (hot stormy : Bool) (t : Nat) (h0 : t ≠ 0) (h12 : t ≠ 12) :
    (twoCapped cap stormy).floorOf t = 0 ∧ twoWants hot stormy t = 0 :=
  ⟨Nat.le_zero.1 (twoHands_idle _ stormy h0 h12 ▸ floor_le _ t), by rw [twoWants, if_neg h0, if_neg h12]⟩

/-- O53 applies to the two tiles under a package cap. -/
theorem twoHands_law (cap : Nat) (hot stormy : Bool) : ∃ m : State,
    exec (.controlInterval (twoReadings hot)) (twoHands (capped cap) stormy) = .next m
      ∧ GrantLaw [⟨List.range 96, min cap 5000⟩] (fun l => levelUnits 900 1900 0 l.cap l.tiles.length)
        (twoCapped cap stormy).floorOf (twoWants hot stormy)
        (fun t => (if (twoCapped cap stormy).powerLc t then 0 else 2)
          + if ((twoCapped cap stormy).tile t).pwr.phaseValid then 0 else 1)
        (fun t => (m.tile t).pwr.budget) := by
  obtain ⟨m, x, hexec, -, hlive, hinlet, -, -, hx, -, -, -, -, -, -, -, -, -, htileC, hstackC, -, hon⟩ :=
    controlIntervals (twoHands (capped cap) stormy) (twoReadings hot)
  have hlv : m.capLevels = [⟨List.range 96, min cap 5000⟩] := by
    rw [capLevels_package m (by rw [hlive]; rfl) (by rw [hlive]; rfl), PowerSt.effCap, hlive, hinlet]
    rfl
  obtain rfl : x = 0 := by simpa [twoHands, capped, PowerSt.init] using hx
  have hlaw : GrantLaw m.capLevels (fun l => levelUnits 900 1900 0 l.cap l.tiles.length) (twoCapped cap stormy).floorOf
      (fun t => if m.isHot t then max ((twoCapped cap stormy).floorOf t)
          (min ((twoCapped cap stormy).stormWant (twoCapped cap stormy).stormLeft t) (((twoCapped cap stormy).tile t).pwr.budget - 8))
        else (twoCapped cap stormy).stormWant (twoCapped cap stormy).stormLeft t)
      _ (fun t => (m.tile t).pwr.budget) := hon rfl
  rw [hlv] at hlaw
  have htile0 : (m.tile 0).pwr.throttled = hot := by
    obtain ⟨-, h⟩ := htileC (by simp [twoReadings]) (0, if hot then 95 else 40) (.head _)
    exact h.trans (by cases hot <;> rfl)
  have htile12 : (m.tile 12).pwr.throttled = false := by
    obtain ⟨-, h⟩ := htileC (by simp [twoReadings]) (12, 40) (.tail _ (.head _))
    exact h.trans rfl
  have hstacks (k : Nat) (hk : k < 32) : (m.stack k).throttled = false := by
    obtain ⟨-, h⟩ := hstackC (by simpa [twoReadings, Function.comp_def] using List.nodup_finRange 32) (⟨k, hk⟩, 40)
      (List.mem_map_of_mem (List.mem_finRange _))
    refine h.trans ?_
    rw [sensor_uncalibrated _ rfl]
    rfl
  have hhot (t : Nat) (ht : t < 96) : m.isHot t = (m.tile t).pwr.throttled := by
    rw [State.isHot, List.any_eq_false.2, Bool.or_false]
    intro i hi
    rw [hstacks _ (by have := List.mem_range.1 hi; omega)]
    exact Bool.false_ne_true
  refine ⟨m, hexec, hlaw.congr (fun t ht => ?_) (fun _ _ => rfl)⟩
  rw [hhot t ht]
  by_cases h0 : t = 0
  · rw [h0, htile0]
    cases hot <;> cases stormy <;> rfl
  · by_cases h12 : t = 12
    · rw [h12, htile12]
      cases stormy <;> rfl
    · have hidle : ((twoCapped cap stormy).tile t).powerRequest = 0 := twoHands_idle _ stormy h0 h12
      simp [twoWants, h0, h12, State.stormWant, State.floorOf, hidle]

/-- O53 applies where the cap leaves 64 units: of 32 and 4 for the floors, and the rest for the latency-critical tile. -/
theorem controlIntervals_short : ∃ m : State,
    exec (.controlInterval (twoReadings false)) (twoHands (capped 920) false) = .next m
      ∧ (m.tile 0).pwr.budget = 60 ∧ (m.tile 12).pwr.budget = 4 := by
  obtain ⟨m, hexec, hlaw⟩ := twoHands_law 920 false false
  obtain ⟨hcap, hbounds, hserved, hlater⟩ := hlaw.two (twoCapped_idle 920 false false)
  have hunits : levelUnits 900 1900 0 (min 920 5000) 96 = 64 := by decide
  have hfloor0 : (twoCapped 920 false).floorOf 0 = 32 := rfl
  have hfloor12 : (twoCapped 920 false).floorOf 12 = 4 := rfl
  have hwant0 : twoWants false false 0 = 64 := rfl
  obtain ⟨hlow12, -⟩ := hbounds 12 (.inr rfl)
  simp only [List.length_range, hunits, hfloor0, hfloor12, hwant0] at hcap hlow12 hserved hlater
  have hshort : (m.tile 0).pwr.budget < 64 := by omega
  have hfull := hserved 0 (.inl rfl) hshort
  have hbest := hlater hshort (by decide)
  exact ⟨m, hexec, by omega, hbest⟩

/-- O53 applies to a throttle and a storm where units are left: each tile takes its want, 8 less than it had or asks for. -/
theorem controlIntervals_hot : ∃ m : State,
    exec (.controlInterval (twoReadings true)) (twoHands (capped 5000) true) = .next m
      ∧ (m.tile 0).pwr.budget = 56 ∧ (m.tile 12).pwr.budget = 56 := by
  obtain ⟨m, hexec, hlaw⟩ := twoHands_law 5000 true true
  obtain ⟨-, hbounds, hserved, -⟩ := hlaw.two (twoCapped_idle 5000 true true)
  have hunits : levelUnits 900 1900 0 (min 5000 5000) 96 = 6144 := by decide
  have hfloor0 : (twoCapped 5000 true).floorOf 0 = 32 := rfl
  have hfloor12 : (twoCapped 5000 true).floorOf 12 = 4 := rfl
  have hwant0 : twoWants true true 0 = 56 := rfl
  have hwant12 : twoWants true true 12 = 56 := rfl
  obtain ⟨-, hhigh0⟩ := hbounds 0 (.inl rfl)
  obtain ⟨-, hhigh12⟩ := hbounds 12 (.inr rfl)
  have hfull0 := hserved 0 (.inl rfl)
  have hfull12 := hserved 12 (.inr rfl)
  simp only [List.length_range, hunits, hfloor0, hfloor12, hwant0, hwant12] at hhigh0 hhigh12 hfull0 hfull12
  exact ⟨m, hexec, by omega, by omega⟩

end Sys2Proof.Machine

namespace Sys2Proof.Machine

open Claims

/-- Settles O1: both sides are the branches of `step`, one per shape of the queue. -/
theorem stepRunsFrontCommand : Obligations.StepRunsFrontCommand := by
  unfold Obligations.StepRunsFrontCommand
  exact fun s c rest => ⟨rfl, rfl⟩

end Sys2Proof.Machine

namespace Sys2Proof.Machine

open Claims

/-! Firmware images and their updates (R455, R457, R458, R468, R469, R476). -/

theorem recordsOnly_modSec (s : State) (f : SecSt → SecSt) : RecordsOnly s (s.modSec f) := recordsOnly_refl s

/-- A register write that only the physical function may make, from another interface: a BAD_REG_ACCESS record, and no other
effect than LAST_CODE (R458, R472). -/
theorem physical_barred (s : State) {w : Iface} (go : State → State) (h : w ≠ .host 0) :
    let m := s.physical w go
    Logged s m Codes.badRegAccess 0xFFFF ∧ m.fuses = s.fuses ∧ m.sec = { s.sec with lastCode := m.sec.lastCode } ∧ RecordsOnly s m := by
  obtain ⟨i, hunit, hrun⟩ := physical_not s go h
  dsimp only
  rw [hrun]
  exact ⟨hunit ▸ report_logged .., State.report_fuses .., by rw [report_sec], recordsOnly_report ..⟩

/-- A code of the security class is LAST_CODE afterwards (R472). -/
theorem sec_report_security {s : State} {c : Code} {i : RecInfo} (h : c.toNat / 256 = 9) :
    (s.report c i).sec = { s.sec with lastCode := c } := by
  rw [report_sec, if_pos h]

/-- A record of a state whose logs are as before. -/
theorem logged_report_after {s t : State} {c : Code} (h : t.logs = s.logs) : Logged s (t.report c {}) c 0xFFFF :=
  logged_before (Grows.of_eq h) (report_logged t c {})

theorem fwBusy_refuses (s : State) :
    let m := s.report Codes.fwBusy {}
    Logged s m Codes.fwBusy 0xFFFF ∧ m.sec = { s.sec with lastCode := Codes.fwBusy } ∧ RecordsOnly s m :=
  ⟨report_logged .., sec_report_security (by decide), recordsOnly_report ..⟩

theorem SecSt.busy_iff (x : SecSt) : x.busy = true ↔ x.staged = 3 ∨ x.activating = true := by
  simp [SecSt.busy]

section Verify

variable (s : State)

/-- What the manifest at STAGE_ADDR uses of memory. -/
def State.fwAtStage : List Byte := s.readMem s.sec.stageAddr (min 0x2000000 (fwExtent (s.readMem s.sec.stageAddr 0x2000)))

/-- The image at STAGE_ADDR is aligned and lies in PIN_STACK objects of function 0 (R457). -/
def State.FwPinned : Prop := s.sec.stageAddr % 256 = 0 ∧ s.pinnedFor (.func 0) (s.sec.stageAddr, 0x2000) = true
  ∧ s.pinnedFor (.func 0) (s.sec.stageAddr, s.fwAtStage.length) = true

theorem fwAtStage_length : s.fwAtStage.length = min fwSlotSize (fwExtent (s.readMem s.sec.stageAddr 0x2000)) := readMem_len ..

theorem stagedImage_pinned (h : s.FwPinned) : s.stagedImage = some s.fwAtStage := by
  obtain ⟨halign, hheader, hall⟩ := h
  rw [fwAtStage_length] at hall
  have hthere : ¬(s.sec.stageAddr % 256 ≠ 0 ∨ (!s.pinnedFor (.func 0) (s.sec.stageAddr, 0x2000)) = true) := by simp [halign, hheader]
  exact (if_neg hthere).trans (if_pos hall)

theorem stagedImage_unpinned (h : ¬s.FwPinned) : s.stagedImage = none := by
  unfold State.FwPinned at h
  rw [fwAtStage_length] at h
  unfold State.stagedImage
  dsimp only
  split
  case isTrue => rfl
  case isFalse hheader =>
    rw [not_or, not_not, Bool.not_eq_true', Bool.not_eq_false] at hheader
    exact if_neg fun hall => h ⟨hheader.1, hheader.2, hall⟩

variable (sig : SigCheck) (hidle : ¬(s.sec.staged = 3 ∨ s.sec.activating = true))
include hidle

theorem verify_stages (h : s.FwPinned) : verify sig s
    = { s with sec := { s.sec with staged := 3, verdict := verifyImage s.fuses sig s.fwAtStage, image := s.fwAtStage } } := by
  rw [verify, if_neg (mt s.sec.busy_iff.1 hidle), stagedImage_pinned s h]
  rfl

theorem verify_absent (h : ¬s.FwPinned) : verify sig s
    = { s with sec := { s.sec with staged := 3, verdict := Codes.fwFormat, image := [] } } := by
  rw [verify, if_neg (mt s.sec.busy_iff.1 hidle), stagedImage_unpinned s h]
  rfl

theorem activate_starts (hstaged : s.sec.staged = 1) (hjobs : s.anyJob = false) : activate sig s
    = { s with sec := { s.sec with activating := true, verdict := verifyImage s.fuses sig (s.sec.slotImage (!s.sec.slotB)),
                                   image := s.sec.slotImage (!s.sec.slotB) } } := by
  have hfree : ¬(s.sec.busy = true ∨ s.sec.staged ≠ 1 ∨ s.anyJob = true) := by
    rw [s.sec.busy_iff, hjobs]
    exact fun h => h.elim hidle fun h => h.elim (absurd hstaged) Bool.false_ne_true
  exact if_neg hfree

end Verify

theorem verify_busy {s : State} (sig : SigCheck) (h : s.sec.staged = 3 ∨ s.sec.activating = true) :
    verify sig s = s.report Codes.fwBusy {} := if_pos (s.sec.busy_iff.2 h)

theorem activate_busy {s : State} (sig : SigCheck)
    (h : (s.sec.staged = 3 ∨ s.sec.activating = true) ∨ s.sec.staged ≠ 1 ∨ s.anyJob = true) :
    activate sig s = s.report Codes.fwBusy {} := if_pos (h.imp_left s.sec.busy_iff.2)

/-- The host's physical function runs the command itself. -/
theorem exec_verify_host {s m : State} {sig : SigCheck} (h : verify sig s = m) : exec (.verify (.host 0) sig) s = .next m :=
  congrArg Host.Outcome.next ((physical_host s _).trans h)

theorem exec_activate_host {s m : State} {sig : SigCheck} (h : activate sig s = m) : exec (.activate (.host 0) sig) s = .next m :=
  congrArg Host.Outcome.next ((physical_host s _).trans h)

/-- One check of a chain: the chain answers 0 where this check passes and the rest does. -/
theorem check_eq_zero {p : Prop} [Decidable p] {c rest : Code} (hc : c ≠ 0) : (if p then c else rest) = 0 ↔ ¬p ∧ rest = 0 := by
  by_cases h : p
  · rw [if_pos h]
    exact ⟨fun h0 => absurd h0 hc, fun h0 => absurd h h0.1⟩
  · rw [if_neg h]
    exact ⟨fun h0 => ⟨h, h0⟩, And.right⟩

/-- An image verifies just when each of the steps of R455 passes. -/
theorem verifyImage_eq_zero_iff (f : Fuses) (sig : SigCheck) (img : List Byte) :
    verifyImage f sig img = 0 ↔
      fwFormatOk img = true ∧ bitOf f.revoked.toNat (fieldLe img 2 1) = false
        ∧ sha384 ((img.drop 0x410).take 32) = f.fwKeys.getD (2 * fieldLe img 2 1) 0
        ∧ sha384 ((img.drop 0x430).take 1952) = f.fwKeys.getD (2 * fieldLe img 2 1 + 1) 0
        ∧ f.rollback ≤ fieldLe img 4 1 ∧ sig.ed = true ∧ sig.ml = true
        ∧ ∀ c ∈ fwComps img, sha384 ((img.drop c.off).take c.len) = c.digest := by
  have hformat : Codes.fwFormat ≠ 0 := by decide
  have hrevoked : Codes.fwKeyRevoked ≠ 0 := by decide
  have hsignature : Codes.fwSignature ≠ 0 := by decide
  have hrollback : Codes.fwRollback ≠ 0 := by decide
  have hcomponent : Codes.fwComponent ≠ 0 := by decide
  unfold verifyImage
  dsimp only
  rw [check_eq_zero hformat, check_eq_zero hrevoked, check_eq_zero hsignature, check_eq_zero hrollback, check_eq_zero hsignature,
    check_eq_zero hsignature, check_eq_zero hcomponent]
  simp only [Bool.not_eq_true', Bool.not_eq_false, Bool.not_eq_true, Bool.or_eq_false_iff, bne_eq_false_iff_eq, Nat.not_lt,
    List.all_eq_true, beq_iff_eq, and_true, and_assoc]

/-! The slots of the SPI flash. -/

/-- An image written into a slot stands there and leaves every other byte. -/
theorem writeSlot_spi (x : SecSt) (b : Bool) (img : List Byte) :
    (x.writeSlot b img).spi.getRange 0 (fwSlotBase b) img.length = img
      ∧ ∀ a, a < fwSlotBase b ∨ fwSlotBase b + img.length ≤ a → (x.writeSlot b img).spi.get 0 a = x.spi.get 0 a :=
  ⟨SMap.getRange_setRange .., fun a ha => (SMap.get_setRange ..).trans (if_neg (by omega))⟩

section Staging

variable {s : State} (hstaged : s.sec.staged = 3)
include hstaged

theorem stagingComplete_good (h : s.sec.verdict = 0) : stagingComplete s
    = s.modSec (fun x => { x.writeSlot (!x.slotB) x.image with staged := 1, image := [] }) :=
  (if_neg (not_not_intro hstaged)).trans (if_pos h)

theorem stagingComplete_bad (h : s.sec.verdict ≠ 0) : stagingComplete s
    = (s.modSec (fun x => { x with staged := 2, image := [] })).report s.sec.verdict {} :=
  (if_neg (not_not_intro hstaged)).trans (if_neg h)

end Staging

/-! The end of an activation. -/

/-- The end of the window in the security core: no step runs, and the responder is as after reset (R462). -/
def SecSt.closed (x : SecSt) : SecSt := { x with activating := false, spdm := ⟨false, false⟩, image := [] }

/-- The new slot is loaded where it verified, else the old one, with the code logged; the dies are not yet measured (R458). -/
def State.slotLoaded (s : State) : State :=
  if s.sec.verdict = 0 then
    s.modSec (fun x => ({ x with slotB := !x.slotB, recordB := !x.slotB, staged := 0 }.load s.sec.image s.boot.userCal).closed)
  else
    (s.modSec (fun x => ({ x with staged := 2 }.load (x.slotImage x.slotB) s.boot.userCal).closed)).report s.sec.verdict {}

/-- The SVN and the key index in force are the loaded image's own. -/
theorem SecSt.load_svn (x : SecSt) (img cal : List Byte) : (x.load img cal).svn = fieldLe img 4 1 := rfl

theorem SecSt.load_keyIndex (x : SecSt) (img cal : List Byte) : (x.load img cal).keyIndex = fieldLe img 2 1 := rfl

section SlotLoaded

variable (s : State)

/-- Whatever the verdict, no step runs, the SPI flash stands, the responder is as after reset, and of boot LAST_CODE alone
can differ. -/
theorem slotLoaded_spec :
    RecordsOnly s s.slotLoaded ∧ s.slotLoaded.sec.activating = false ∧ s.slotLoaded.sec.spi = s.sec.spi
      ∧ s.slotLoaded.sec.spdm = ⟨false, false⟩ ∧ ∃ c, s.slotLoaded.boot = { s.boot with lastCode := c } := by
  unfold State.slotLoaded
  split
  case isTrue => exact ⟨recordsOnly_modSec .., rfl, rfl, rfl, s.boot.lastCode, rfl⟩
  case isFalse =>
    refine ⟨(recordsOnly_modSec ..).trans (recordsOnly_report ..), ?_, ?_, ?_, _, report_boot ..⟩ <;> rw [report_sec] <;> rfl

/-- A verified slot is active, its SVN and key index in force. -/
theorem slotLoaded_verified (h : s.sec.verdict = 0) :
    let x := s.slotLoaded.sec
    x.slotB = !s.sec.slotB ∧ x.recordB = !s.sec.slotB ∧ x.staged = 0 ∧ x.svn = fieldLe s.sec.image 4 1
      ∧ x.keyIndex = fieldLe s.sec.image 2 1 := by
  rw [State.slotLoaded, if_pos h]
  exact ⟨rfl, rfl, rfl, rfl, rfl⟩

/-- Otherwise the old slot stays active and is loaded again, and the code is logged. -/
theorem slotLoaded_failed (h : s.sec.verdict ≠ 0) :
    let x := s.slotLoaded.sec
    x.slotB = s.sec.slotB ∧ x.recordB = s.sec.recordB ∧ x.staged = 2 ∧ Logged s s.slotLoaded s.sec.verdict 0xFFFF
      ∧ x.svn = fieldLe (s.sec.slotImage s.sec.slotB) 4 1 ∧ x.keyIndex = fieldLe (s.sec.slotImage s.sec.slotB) 2 1 := by
  rw [State.slotLoaded, if_neg h, report_sec]
  dsimp only [State.modSec, SecSt.closed]
  rw [SecSt.load_svn, SecSt.load_keyIndex]
  exact ⟨rfl, rfl, rfl, logged_report_after rfl, rfl, rfl⟩

/-- The dies that the end of an activation measures: those in no reset that runs or waits. -/
def State.measuredDies : List Nat := (List.range 45).filter (fun d => !s.boot.resetting.contains d && !s.boot.waiting.contains d)

/-- The state once they are measured. -/
def State.measured (s : State) : State := s.slotLoaded.modBoot (fun b => s.measuredDies.foldl (fun b d => b.setDieByte d 0) b)

theorem setDieBytes_waiting : ∀ (ds : List Nat) (b : BootSt), (ds.foldl (fun b d => b.setDieByte d 0) b).waiting = b.waiting
  | [], _ => rfl
  | d :: ds, b => setDieBytes_waiting ds (b.setDieByte d 0)

theorem activationComplete_eq (ha : s.sec.activating = true) :
    activationComplete s = s.measured.boot.waiting.foldl State.resetDie s.measured :=
  if_neg (by rw [ha]; decide)

/-- With no reset waiting, the end of an activation is the loaded slot and the measured dies. -/
theorem activationComplete_ends (ha : s.sec.activating = true) (hw : s.boot.waiting = []) : activationComplete s = s.measured := by
  obtain ⟨-, -, -, -, c, hboot⟩ := slotLoaded_spec s
  have hidle : s.measured.boot.waiting = [] := (setDieBytes_waiting ..).trans ((congrArg BootSt.waiting hboot).trans hw)
  rw [activationComplete_eq s ha, hidle, List.foldl_nil]

/-- Every die in no reset is measured anew; the byte of one in reset stays (R461). -/
theorem measured_dieByte (hw : s.boot.waiting = []) (d : Nat) :
    s.measured.boot.dieByte d = if d < 45 ∧ d ∉ s.boot.resetting then 0 else s.boot.dieByte d := by
  obtain ⟨-, -, -, -, c, hboot⟩ := slotLoaded_spec s
  have hdies : s.slotLoaded.boot.dieByte d = s.boot.dieByte d := by rw [hboot]; rfl
  have hmem : d ∈ s.measuredDies ↔ d < 45 ∧ d ∉ s.boot.resetting := by simp [State.measuredDies, hw]
  simp only [State.measured, State.modBoot, dieBytes_fold, hdies, hmem]

end SlotLoaded

/-! The rollback counter, the write budget and recovery. -/

/-- COMMIT raises the rollback counter to the active SVN and never lowers it (R458). -/
theorem commit_eq (s : State) : commit s = { s with fuses := { s.fuses with rollback := max s.fuses.rollback s.sec.svn } } := by
  unfold commit
  split
  case isTrue h => rw [Nat.max_eq_right (Nat.le_of_lt h)]
  case isFalse h => rw [Nat.max_eq_left (Nat.le_of_not_lt h)]

/-- A budget above the cap takes the cap, and a record says so (R468, R469). -/
theorem writeBudgetSet_spec (s : State) (v : W32) :
    let m := writeBudgetSet v s
    m.mem = { s.mem with ftl := { s.mem.ftl with budget := if s.sec.writeCap < v then s.sec.writeCap else v } }
      ∧ (s.sec.writeCap < v → Logged s m Codes.secBudgetClamped 0xFFFF) ∧ m.tiles = s.tiles ∧ m.sched = s.sched ∧ m.fuses = s.fuses := by
  unfold writeBudgetSet
  dsimp only
  by_cases h : s.sec.writeCap < v
  · rw [if_pos h, if_pos h]
    exact ⟨State.report_mem .., fun _ => logged_report_after rfl, State.report_tiles ..,
      State.report_sched .., State.report_fuses ..⟩
  · rw [if_neg h, if_neg h]
    exact ⟨rfl, fun hclamped => absurd hclamped h, rfl, rfl, rfl⟩

theorem pldmUpdate_ignored {s : State} {img : List Byte} {sig : SigCheck} (h : s.boot.held = true ∨ s.boot.stage ≠ 0xFE) :
    pldmUpdate img sig s = s := if_pos h

section Recovery

variable {s : State} {img : List Byte} {sig : SigCheck} (hrec : ¬(s.boot.held = true ∨ s.boot.stage ≠ 0xFE))
include hrec

theorem pldmUpdate_good (hgood : verifyImage s.fuses sig img = 0) : pldmUpdate img sig s
    = (s.modSec (fun x => x.writeSlot false img)).send (.response (natLe 2 (verifyImage s.fuses sig img).toNat)) := by
  unfold pldmUpdate
  dsimp only
  rw [if_neg hrec, if_pos hgood]

theorem pldmUpdate_bad (hbad : verifyImage s.fuses sig img ≠ 0) : pldmUpdate img sig s
    = (s.report (verifyImage s.fuses sig img) {}).send (.response (natLe 2 (verifyImage s.fuses sig img).toNat)) := by
  unfold pldmUpdate
  dsimp only
  rw [if_neg hrec, if_neg hbad]

/-- In recovery a good image stands in slot A alone, and a bad one is logged (R476). -/
theorem pldmUpdate_spec :
    let m := pldmUpdate img sig s
    let c := verifyImage s.fuses sig img
    RecordsOnly s m ∧ m.outbox = s.outbox ++ [.response (natLe 2 c.toNat)] ∧ (c ≠ 0 → m.sec.spi = s.sec.spi ∧ Logged s m c 0xFFFF)
      ∧ (c = 0 → m.sec.spi.getRange 0 0 img.length = img ∧ ∀ a, img.length ≤ a → m.sec.spi.get 0 a = s.sec.spi.get 0 a) := by
  dsimp only
  by_cases h : verifyImage s.fuses sig img = 0
  · obtain ⟨hslot, hother⟩ := writeSlot_spi s.sec false img
    rw [pldmUpdate_good hrec h]
    exact ⟨recordsOnly_refl s, rfl, fun hbad => absurd h hbad,
      fun _ => ⟨hslot, fun a ha => hother a (.inr (by simpa [fwSlotBase] using ha))⟩⟩
  · rw [pldmUpdate_bad hrec h]
    refine ⟨(recordsOnly_report ..).trans (recordsOnly_refl _), congrArg (· ++ _) (State.report_outbox ..),
      fun _ => ⟨?_, logged_grow (report_logged ..) (Grows.of_eq rfl)⟩, fun hgood => absurd hgood h⟩
    rw [State.send_sec, report_sec]

end Recovery

/-- Settles O54: VERIFY and ACTIVATE either start or are FW_BUSY, staging and activation end by the verdict, and the rest are
the commands' own lemmas. -/
theorem firmwareUpdates : Obligations.FirmwareUpdates := by
  unfold Obligations.FirmwareUpdates
  intro s
  refine ⟨fun sig => ⟨fun w hw => ⟨_, rfl, physical_barred s _ hw⟩, fun w hw => ⟨_, rfl, physical_barred s _ hw⟩,
      fun hidle hpinned => exec_verify_host (verify_stages s sig hidle hpinned),
      fun hidle habsent => exec_verify_host (verify_absent s sig hidle habsent),
      fun hbusy => ⟨_, exec_verify_host (verify_busy sig hbusy), fwBusy_refuses s⟩,
      fun hidle hstaged hjobs => exec_activate_host (activate_starts s sig hidle hstaged hjobs),
      fun hbusy => ⟨_, exec_activate_host (activate_busy sig hbusy), fwBusy_refuses s⟩,
      verifyImage_eq_zero_iff s.fuses sig⟩,
    ?staged, ?failed, fun h => congrArg Host.Outcome.next (if_pos h), ?activated, fun w hw => ⟨_, rfl, physical_barred s _ hw⟩,
    congrArg Host.Outcome.next ((physical_host s _).trans (commit_eq s)), fun v => ⟨_, rfl, writeBudgetSet_spec s v⟩, fun img sig =>
      ⟨fun h => congrArg Host.Outcome.next (pldmUpdate_ignored h), fun hheld hstage => ⟨_, rfl, pldmUpdate_spec (by simp [hheld, hstage])⟩⟩⟩
  case staged =>
    intro hstaged hgood
    exact ⟨_, congrArg Host.Outcome.next (stagingComplete_good hstaged hgood), recordsOnly_modSec .., rfl,
      writeSlot_spi s.sec (!s.sec.slotB) s.sec.image⟩
  case failed =>
    intro hstaged hbad
    refine ⟨_, congrArg Host.Outcome.next (stagingComplete_bad hstaged hbad),
      (recordsOnly_modSec ..).trans (recordsOnly_report ..), logged_report_after rfl, ?_, fun hclass => ?_⟩
    · rw [report_sec]
      rfl
    · rw [sec_report_security hclass]
  case activated =>
    intro ha hw
    obtain ⟨hrest, hdone, hspi, hspdm, -⟩ := slotLoaded_spec s
    refine ⟨_, congrArg Host.Outcome.next (activationComplete_ends s ha hw), hrest.trans (recordsOnly_modBoot ..), hdone, hspi, hspdm,
      fun d hd hfree => (measured_dieByte s hw d).trans (if_pos ⟨hd, hfree⟩),
      fun d hd => (measured_dieByte s hw d).trans (if_neg fun h => h.2 hd), slotLoaded_verified s, fun hbad => ?_⟩
    obtain ⟨hslot, hrecord, hcode, hlogged, himage⟩ := slotLoaded_failed s hbad
    exact ⟨hslot, hrecord, hcode, logged_grow hlogged (Grows.of_eq rfl), himage⟩

end Sys2Proof.Machine

namespace Sys2Proof.Machine

open Claims

/-! The SPDM responder (R453, R459 to R462). -/

/-- The outcome `r` sends one message, with `out`, and sets what the responder remembers; but for the free values drawn, nothing
else changes. -/
def Answers (s : State) (r : Host.Outcome State Fault Refusal) (open_ signed : Bool) (out : OutMsg → Prop) : Prop :=
  ∃ (m : State) (o : OutMsg), r = .next m ∧ out o
    ∧ m = { s with freeCtr := m.freeCtr, outbox := s.outbox ++ [o], sec := { s.sec with spdm := ⟨open_, signed⟩ } }

/-- Free values have been drawn, and nothing else has happened. -/
def Drawn (s t : State) : Prop := t = { s with freeCtr := t.freeCtr }

theorem drawn_refl (s : State) : Drawn s s := rfl

theorem Drawn.trans {s t u : State} (h : Drawn s t) (k : Drawn t u) : Drawn s u := by
  unfold Drawn at *
  rw [k, h]

theorem drawn_draw (s : State) : Drawn s s.draw.2 := rfl

theorem drawn_drawBytes (s : State) (n : Nat) : Drawn s (s.drawBytes n).2 := rfl

theorem drawBytes_length (s : State) (n : Nat) : (s.drawBytes n).1.length = n := by
  simp [State.drawBytes]

section Answer

variable {s t : State} (h : Drawn s t)
include h

theorem spdmAnswer_answers {signed : Bool} {o : OutMsg} {out : OutMsg → Prop} (ho : out o) :
    Answers s (.next (t.spdmAnswer signed o)) true signed out := by
  refine ⟨_, o, rfl, ho, ?_⟩
  rw [h]
  rfl

theorem spdmError_answers {code : Nat} {out : OutMsg → Prop} (ho : out (spdmMsg 0x7F code 0 [])) :
    Answers s (.next (t.spdmError code)) s.sec.spdm.open_ false out := by
  refine ⟨_, _, rfl, ho, ?_⟩
  rw [h]
  rfl

end Answer

/-- The responder answers: neither reset nor recovery (R459). -/
def State.MayAnswer (s : State) : Prop := s.boot.held = false ∧ s.boot.stage ≠ 0xFE

section Gate

variable {s : State} (go : State → State)

theorem spdm_silent (h : ¬s.MayAnswer) : s.spdm go = s := by
  refine if_pos ?_
  by_contra hnot
  rw [not_or, Bool.not_eq_true] at hnot
  exact h hnot

variable (hmay : s.MayAnswer)
include hmay

theorem spdm_answers : s.spdm go = if s.sec.activating then s.spdmError spdmBusy else go s := by
  obtain ⟨hheld, hstage⟩ := hmay
  exact if_neg (by simp [hheld, hstage])

theorem spdm_busy (ha : s.sec.activating = true) : s.spdm go = s.spdmError spdmBusy :=
  (spdm_answers go hmay).trans (if_pos ha)

variable (ha : s.sec.activating = false)
include ha

theorem spdm_ready : s.spdm go = go s :=
  (spdm_answers go hmay).trans (if_neg (by rw [ha]; exact Bool.false_ne_true))

theorem spdmOpen_closed (ho : s.sec.spdm.open_ = false) : s.spdmOpen go = s.spdmError spdmUnexpected :=
  (spdm_ready _ hmay ha).trans (if_neg (by rw [ho]; exact Bool.false_ne_true))

theorem spdmOpen_opened (ho : s.sec.spdm.open_ = true) : s.spdmOpen go = go s := (spdm_ready _ hmay ha).trans (if_pos ho)

end Gate

/-- The requests of the responder. -/
def spdmRequests : List Instr :=
  [.getVersion, .dualSig] ++ (List.range 256).flatMap (fun n => [.getCertificate n, .challenge n, .getMeasurements n true, .getMeasurements n false])

/-- Every request but GET_VERSION needs that one first. -/
theorem exec_spdmRequest {c : Instr} (h : c ∈ spdmRequests) (hc : c ≠ .getVersion) (s : State) :
    ∃ go, exec c s = .next (s.spdmOpen go) := by
  rcases List.mem_append.1 h with h | h
  · rcases List.mem_cons.1 h with rfl | h
    · exact absurd rfl hc
    · obtain rfl := List.mem_singleton.1 h
      exact ⟨_, rfl⟩
  · obtain ⟨n, -, hn⟩ := List.mem_flatMap.1 h
    simp only [List.mem_cons, List.not_mem_nil, or_false] at hn
    rcases hn with rfl | rfl | rfl | rfl <;> exact ⟨_, rfl⟩

/-- Every request goes through the gate of R459. -/
theorem exec_spdm {c : Instr} (h : c ∈ spdmRequests) (s : State) : ∃ go, exec c s = .next (s.spdm go) := by
  by_cases hc : c = .getVersion
  · exact hc ▸ ⟨_, rfl⟩
  · obtain ⟨go, hgo⟩ := exec_spdmRequest h hc s
    exact ⟨_, hgo⟩

theorem exec_spdm_busy {s : State} {c : Instr} (h : c ∈ spdmRequests) (hmay : s.MayAnswer) (ha : s.sec.activating = true) :
    Answers s (exec c s) s.sec.spdm.open_ false (· = spdmMsg 0x7F 3 0 []) := by
  obtain ⟨go, hgo⟩ := exec_spdm h s
  rw [hgo, spdm_busy go hmay ha]
  exact spdmError_answers (drawn_refl s) rfl

theorem exec_spdm_closed {s : State} {c : Instr} (h : c ∈ spdmRequests) (hc : c ≠ .getVersion) (hmay : s.MayAnswer)
    (ha : s.sec.activating = false) (ho : s.sec.spdm.open_ = false) :
    Answers s (exec c s) s.sec.spdm.open_ false (· = spdmMsg 0x7F 4 0 []) := by
  obtain ⟨go, hgo⟩ := exec_spdmRequest h hc s
  rw [hgo, spdmOpen_closed go hmay ha ho]
  exact spdmError_answers (drawn_refl s) rfl

theorem getVersion_answers {s : State} (hmay : s.MayAnswer) (ha : s.sec.activating = false) :
    Answers s (exec .getVersion s) true false (· = .response [0x10, 0x04, 0, 0, 0, 1, 0x00, 0x13]) := by
  have hrun : exec .getVersion s
      = .next (s.spdmAnswer false (.response [0x10#8, 0x04#8, 0#8, 0#8, 0#8, 1#8, 0x00#8, 0x13#8])) :=
    congrArg Host.Outcome.next (spdm_ready _ hmay ha)
  rw [hrun]
  exact spdmAnswer_answers (drawn_refl s) rfl

/-! Measurements (R460, R461). -/

/-- A digest as the messages carry it, its first byte most significant. -/
def digestBytes (v : BitVec 384) : List Byte := (natLe 48 v.toNat).reverse

theorem digestBytes_length (v : BitVec 384) : (digestBytes v).length = 48 := by
  rw [digestBytes, List.length_reverse, natLe_length]

/-- `v` is a value of measurement index `i`: index 9 the dies' bytes, index 3 the manifest's digest with the SVN, and another a
digest as last taken where the spec lays out its content, 48 free bytes where not. -/
def MeasureOf (s : State) (i : Nat) (v : List Byte) : Prop :=
  (i = 9 → v = (List.range 45).map (fun d => BitVec.ofNat 8 (s.boot.dieByte d)))
    ∧ (i = 3 → v = digestBytes (s.sec.measures.get 0 3) ++ natLe 1 s.sec.svn)
    ∧ (i ∉ [1, 3, 6, 7, 8, 9] ∨ i = 7 ∧ s.boot.userCal ≠ [] → v = digestBytes (s.sec.measures.get 0 i)) ∧ (i ≠ 9 → i ≠ 3 → v.length = 48)

theorem MeasureOf.of_drawn {s t : State} {i : Nat} {v : List Byte} (h : Drawn s t) (k : MeasureOf t i v) : MeasureOf s i v := by
  rw [h] at k
  exact k

/-- The indices whose content is a free value. -/
def FreeMeasure (s : State) (i : Nat) : Prop := i = 1 ∨ i = 6 ∨ i = 8 ∨ (i = 7 ∧ s.boot.userCal.isEmpty = true)

section Measure

variable {s : State} {i : Nat}

theorem measure_dies (s : State) : s.measure 9 = (s.boot.dieBytes, s) := rfl

theorem measure_free (h : FreeMeasure s i) : s.measure i = s.drawBytes 48 := by
  have h9 : i ≠ 9 := by rcases h with rfl | rfl | rfl | ⟨rfl, -⟩ <;> decide
  exact (if_neg h9).trans (if_pos h)

theorem measure_svn (s : State) : s.measure 3 = (digestBytes (s.sec.measures.get 0 3) ++ natLe 1 s.sec.svn, s) := rfl

theorem measure_digest (h9 : i ≠ 9) (h3 : i ≠ 3) (h : ¬FreeMeasure s i) :
    s.measure i = (digestBytes (s.sec.measures.get 0 i), s) :=
  (if_neg h9).trans ((if_neg h).trans (congrArg (·, s) (if_neg h3)))

/-- What a measurement is, and that taking one draws at most free values. -/
theorem measure_spec (s : State) (i : Nat) : MeasureOf s i (s.measure i).1 ∧ Drawn s (s.measure i).2 := by
  by_cases h9 : i = 9
  · subst h9
    rw [measure_dies]
    exact ⟨⟨fun _ => rfl, nofun, fun h => absurd h (by simp), fun h => absurd rfl h⟩, drawn_refl s⟩
  by_cases h3 : i = 3
  · subst h3
    rw [measure_svn]
    exact ⟨⟨nofun, fun _ => rfl, fun h => absurd h (by simp), fun _ h => absurd rfl h⟩, drawn_refl s⟩
  by_cases hfree : FreeMeasure s i
  · rw [measure_free hfree]
    refine ⟨⟨fun h => absurd h h9, fun h => absurd h h3, fun h => ?_, fun _ _ => drawBytes_length s 48⟩, drawn_drawBytes s 48⟩
    rcases hfree with rfl | rfl | rfl | ⟨rfl, hempty⟩
    iterate 3 exact absurd h (by simp)
    exact absurd h (by simpa using hempty)
  · rw [measure_digest h9 h3 hfree]
    exact ⟨⟨fun h => absurd h h9, fun h => absurd h h3, fun _ => rfl, fun _ _ => digestBytes_length _⟩, drawn_refl s⟩

end Measure

/-- One more block of a list of measurements, after the bytes and draws before it. -/
def measureAfter (a : List Byte × State) (i : Nat) : List Byte × State :=
  let q := a.2.measure i
  (a.1 ++ measureBlock i q.1, q.2)

/-- The blocks of different indices stand one after the other, each with a value of its index. -/
theorem measureAfter_foldl : ∀ (is : List Nat) (a : List Byte × State), is.Nodup →
    ∃ v : Nat → List Byte, (∀ i ∈ is, MeasureOf a.2 i (v i)) ∧ Drawn a.2 (is.foldl measureAfter a).2
      ∧ (is.foldl measureAfter a).1 = a.1 ++ is.flatMap (fun i => measureBlock i (v i))
  | [], a, _ => ⟨fun _ => [], nofun, drawn_refl a.2, (List.append_nil a.1).symm⟩
  | i :: is, a, hnodup => by
    obtain ⟨hnew, hrest⟩ := List.nodup_cons.1 hnodup
    obtain ⟨hvalue, hdrawn⟩ := measure_spec a.2 i
    obtain ⟨v, hvalues, hmore, hbytes⟩ := measureAfter_foldl is (measureAfter a i) hrest
    have hother : ∀ k ∈ is, Function.update v i (a.2.measure i).1 k = v k := fun k hk =>
      Function.update_of_ne (fun e : k = i => hnew (e ▸ hk)) ..
    refine ⟨Function.update v i (a.2.measure i).1, ?_, hdrawn.trans hmore, ?_⟩
    · intro k hk
      rcases List.mem_cons.1 hk with rfl | hk
      · rwa [Function.update_self]
      · rw [hother k hk]
        exact (hvalues k hk).of_drawn hdrawn
    · rw [List.foldl_cons, hbytes, List.flatMap_cons, Function.update_self, measureAfter, List.append_assoc,
        List.flatMap_congr fun k hk => congrArg (measureBlock k) (hother k hk)]

theorem measureBlocks_spec (s : State) {is : List Nat} (h : is.Nodup) :
    ∃ v : Nat → List Byte, (∀ i ∈ is, MeasureOf s i (v i)) ∧ Drawn s (s.measureBlocks is).2
      ∧ (s.measureBlocks is).1 = is.flatMap (fun i => measureBlock i (v i)) := measureAfter_foldl is ([], s) h

/-- The indices that a GET_MEASUREMENTS of index `n` reads. -/
def askedMeasures (n : Nat) : List Nat := if n = 0xFF then measureIndices else measureIndices.filter (· == n)

theorem askedMeasures_nodup (n : Nat) : (askedMeasures n).Nodup := by
  have hall : measureIndices.Nodup := by decide
  unfold askedMeasures
  split
  case isTrue => exact hall
  case isFalse => exact hall.filter _

/-! Each request, once GET_VERSION has opened the responder. -/

section Opened

variable {s : State} (hmay : s.MayAnswer) (ha : s.sec.activating = false) (ho : s.sec.spdm.open_ = true)
include hmay ha ho

/-- An accepted chain is sent whole (R453). -/
theorem getCertificate_chain {n : Nat} (hn : n ≤ 1) (hok : s.sec.chainOk.getD n false = true) :
    let chain := s.sec.chains.getD n []
    Answers s (exec (.getCertificate n) s) true false
      (· = spdmMsg 0x02 n 0 (natLe 2 chain.length ++ natLe 2 0 ++ chain)) := by
  have hrun : exec (.getCertificate n) s = _ :=
    congrArg Host.Outcome.next ((spdmOpen_opened _ hmay ha ho).trans ((if_neg (Nat.not_lt.2 hn)).trans (if_pos hok)))
  rw [hrun]
  exact spdmAnswer_answers (drawn_refl s) rfl

/-- For a chain that boot did not accept there is an error instead. -/
theorem getCertificate_rejected {n : Nat} (hn : n ≤ 1) (hbad : s.sec.chainOk.getD n false = false) :
    Answers s (exec (.getCertificate n) s) true false (fun o => ∃ code, o = spdmMsg 0x7F code 0 []) := by
  have hrun : exec (.getCertificate n) s = _ := congrArg Host.Outcome.next ((spdmOpen_opened _ hmay ha ho).trans
    ((if_neg (Nat.not_lt.2 hn)).trans (if_neg (by rw [hbad]; exact Bool.false_ne_true))))
  rw [hrun, ← ho]
  exact spdmError_answers (drawn_draw s) ⟨_, rfl⟩

theorem getCertificate_noSlot {n : Nat} (hn : 2 ≤ n) :
    Answers s (exec (.getCertificate n) s) s.sec.spdm.open_ false (· = spdmMsg 0x7F 1 0 []) := by
  have hrun : exec (.getCertificate n) s = _ := congrArg Host.Outcome.next ((spdmOpen_opened _ hmay ha ho).trans (if_pos hn))
  rw [hrun]
  exact spdmError_answers (drawn_refl s) rfl

/-- CHALLENGE sends the hash of the slot's chain, then the nonce and the signature. -/
theorem challenge_answers {n : Nat} (hn : n ≤ 1) :
    Answers s (exec (.challenge n) s) true true (fun o => ∃ t : List Byte, t.length = 96
      ∧ o = spdmMsg 0x03 n (2 ^ n) (digestBytes (sha384 (s.sec.chains.getD n [])) ++ t)) := by
  have hrun : exec (.challenge n) s = _ :=
    congrArg Host.Outcome.next ((spdmOpen_opened _ hmay ha ho).trans (if_neg (Nat.not_lt.2 hn)))
  rw [hrun]
  exact spdmAnswer_answers (drawn_drawBytes s 96) ⟨_, drawBytes_length s 96, rfl⟩

theorem challenge_noSlot {n : Nat} (hn : 2 ≤ n) :
    Answers s (exec (.challenge n) s) s.sec.spdm.open_ false (· = spdmMsg 0x7F 1 0 []) := by
  have hrun : exec (.challenge n) s = _ := congrArg Host.Outcome.next ((spdmOpen_opened _ hmay ha ho).trans (if_pos hn))
  rw [hrun]
  exact spdmError_answers (drawn_refl s) rfl

theorem getMeasurements_noIndex {n : Nat} (signed : Bool) (hn : n ≠ 0) (hnone : askedMeasures n = []) :
    Answers s (exec (.getMeasurements n signed) s) s.sec.spdm.open_ false (· = spdmMsg 0x7F 1 0 []) := by
  have hempty : (askedMeasures n).isEmpty = true ∧ n ≠ 0 := ⟨List.isEmpty_iff.2 hnone, hn⟩
  have hrun : exec (.getMeasurements n signed) s = _ :=
    congrArg Host.Outcome.next ((spdmOpen_opened _ hmay ha ho).trans (if_pos hempty))
  rw [hrun]
  exact spdmError_answers (drawn_refl s) rfl

/-- The signature that ends a GET_MEASUREMENTS. -/
def State.measureSig (s : State) (signed : Bool) : List Byte × State := if signed then s.drawBytes 96 else ([], s)

omit hmay ha ho in
theorem measureSig_spec (s : State) (signed : Bool) :
    (s.measureSig signed).1.length = (if signed then 96 else 0) ∧ Drawn s (s.measureSig signed).2 := by
  cases signed with
  | true => exact ⟨drawBytes_length s 96, drawn_drawBytes s 96⟩
  | false => exact ⟨rfl, drawn_refl s⟩

/-- GET_MEASUREMENTS sends the blocks of the indices asked for, and for index 0 their number. -/
theorem getMeasurements_answers {n : Nat} (signed : Bool) (hn : n = 0 ∨ askedMeasures n ≠ []) :
    Answers s (exec (.getMeasurements n signed) s) true signed (fun o => ∃ (v : Nat → List Byte) (t : List Byte),
      (∀ i ∈ askedMeasures n, MeasureOf s i (v i)) ∧ t.length = (if signed then 96 else 0)
        ∧ o = spdmMsg 0x60 (if n = 0 then 53 else 0) 0 (natLe 1 (askedMeasures n).length
          ++ natLe 3 ((askedMeasures n).flatMap (fun i => measureBlock i (v i))).length
          ++ (askedMeasures n).flatMap (fun i => measureBlock i (v i)) ++ t)) := by
  let q := s.measureBlocks (askedMeasures n)
  let g := q.2.measureSig signed
  have hsome : ¬((askedMeasures n).isEmpty = true ∧ n ≠ 0) := fun h =>
    hn.elim h.2 (fun hne => hne (List.isEmpty_iff.1 h.1))
  have hrun : exec (.getMeasurements n signed) s = .next (g.2.spdmAnswer signed (spdmMsg 0x60 (if n = 0 then 53 else 0) 0
      (natLe 1 (askedMeasures n).length ++ natLe 3 q.1.length ++ q.1 ++ g.1))) :=
    congrArg Host.Outcome.next ((spdmOpen_opened _ hmay ha ho).trans (if_neg hsome))
  obtain ⟨v, hvalues, hdrawn, hbytes⟩ := measureBlocks_spec s (askedMeasures_nodup n)
  obtain ⟨hlen, hsig⟩ := measureSig_spec q.2 signed
  rw [hrun]
  exact spdmAnswer_answers (hdrawn.trans hsig) ⟨v, g.1, hvalues, hlen, hbytes ▸ rfl⟩

/-- DUAL_SIG is answered right after a signed response. -/
theorem dualSig_answers (hs : s.sec.spdm.signed = true) :
    Answers s (exec .dualSig s) true false (fun o => ∃ t : List Byte, t.length = 3309 ∧ o = spdmMsg 0x7E 0 0 t) := by
  have hdrawn := drawn_drawBytes s 3309
  have hlen := drawBytes_length s 3309
  show Answers s (.next (dualSig s)) true false _
  rw [dualSig, spdmOpen_opened _ hmay ha ho, if_pos hs]
  generalize s.drawBytes 3309 = q at hdrawn hlen ⊢
  exact spdmAnswer_answers hdrawn ⟨q.1, hlen, rfl⟩

theorem dualSig_unsigned (hs : s.sec.spdm.signed = false) :
    Answers s (exec .dualSig s) s.sec.spdm.open_ false (· = spdmMsg 0x7F 1 0 []) := by
  have hrun : exec .dualSig s = _ := congrArg Host.Outcome.next
    ((spdmOpen_opened _ hmay ha ho).trans (if_neg (by rw [hs]; exact Bool.false_ne_true)))
  rw [hrun]
  exact spdmError_answers (drawn_refl s) rfl

end Opened

/-- Settles O55: the gate keeps reset, recovery, an activation and a closed responder out, and each request has its answers. -/
theorem attestation : Obligations.Attestation := by
  unfold Obligations.Attestation
  intro s
  refine ⟨fun c hc => ⟨fun hnot => ?silent, fun hmay ha => exec_spdm_busy hc hmay ha,
      fun ⟨hmay, ha⟩ ho hversion => exec_spdm_closed hc hversion hmay ha ho⟩,
    fun ⟨hmay, ha⟩ => getVersion_answers hmay ha,
    fun n ⟨⟨hmay, ha⟩, ho⟩ => ⟨getCertificate_chain hmay ha ho, getCertificate_rejected hmay ha ho, challenge_answers hmay ha ho,
      fun hn => ⟨getCertificate_noSlot hmay ha ho hn, challenge_noSlot hmay ha ho hn⟩⟩,
    fun n signed ⟨⟨hmay, ha⟩, ho⟩ => ⟨getMeasurements_noIndex hmay ha ho signed, getMeasurements_answers hmay ha ho signed⟩,
    fun ⟨⟨hmay, ha⟩, ho⟩ => dualSig_answers hmay ha ho, fun ⟨⟨hmay, ha⟩, ho⟩ => dualSig_unsigned hmay ha ho⟩
  case silent =>
    obtain ⟨go, hgo⟩ := exec_spdm hc s
    rw [hgo, spdm_silent go hnot]

end Sys2Proof.Machine

namespace Sys2Proof.Machine

open Claims

/-! States that meet the hypotheses of O54 and O55. -/

/-- A module out of reset at stage `stage` of its boot, with the security core `x`. -/
def bootedState (stage : Nat) (x : SecSt) : State :=
  { State.reset with boot := { BootSt.init with held := false, stage := stage }, sec := x }

/-- The security core while a verified image of three bytes is being staged. -/
def stagingSec : SecSt := { SecSt.init with staged := 3, image := [7, 8, 9], spi := [(0, 5)] }

/-- The security core while slot B is being activated, with SVN 9 and key index 2. -/
def activatingSec : SecSt := { SecSt.init with staged := 1, activating := true, spdm := ⟨true, true⟩, image := [0xA0, 0x20, 2, 6, 9] }

/-- O54 applies to the end of staging: the image stands in slot B, and slot A's first byte is as it was. -/
theorem firmwareUpdates_stages : ∃ m : State, exec .stagingComplete (bootedState 0xFF stagingSec) = .next m ∧ m.sec.staged = 1
    ∧ m.sec.spi.getRange 0 0x2000000 3 = [7, 8, 9] ∧ m.sec.spi.get 0 0 = 5 := by
  obtain ⟨-, hstages, -⟩ := firmwareUpdates (bootedState 0xFF stagingSec)
  obtain ⟨m, hexec, -, hsec, hslot, hother⟩ := hstages rfl rfl
  exact ⟨m, hexec, by rw [hsec], hslot, hother 0 (.inl (by decide))⟩

/-- O54 applies to the end of an activation whose slot verified: slot B is active, with its SVN and key index. -/
theorem firmwareUpdates_activates : ∃ m : State, exec .activationComplete (bootedState 0xFF activatingSec) = .next m
    ∧ m.sec.slotB = true ∧ m.sec.svn = 9 ∧ m.sec.keyIndex = 2 ∧ m.sec.spdm = ⟨false, false⟩ ∧ m.boot.dieByte 44 = 0 := by
  obtain ⟨-, -, -, -, hactivates, -⟩ := firmwareUpdates (bootedState 0xFF activatingSec)
  obtain ⟨m, hexec, -, -, -, hspdm, hdies, -, hverified, -⟩ := hactivates rfl rfl
  obtain ⟨hslot, -, -, hsvn, hkey⟩ := hverified rfl
  exact ⟨m, hexec, hslot, hsvn, hkey, hspdm, hdies 44 (by decide) (by decide)⟩

theorem verifyImage_unformatted (f : Fuses) (sig : SigCheck) {img : List Byte} (h : fwFormatOk img = false) :
    verifyImage f sig img = Codes.fwFormat := by
  unfold verifyImage
  rw [h]
  rfl

/-- O54 applies to a recovery image with no header: it is refused with FW_FORMAT, and the SPI flash stays. -/
theorem firmwareUpdates_recovery : ∃ m : State,
    exec (.pldmFirmwareUpdate [] ⟨true, true⟩) (bootedState 0xFE { SecSt.init with spi := [(0, 5)] }) = .next m
      ∧ m.outbox = [.response (natLe 2 Codes.fwFormat.toNat)] ∧ m.sec.spi = [(0, 5)] := by
  obtain ⟨-, -, -, -, -, -, -, -, hrecovery⟩ := firmwareUpdates (bootedState 0xFE { SecSt.init with spi := [(0, 5)] })
  obtain ⟨-, htakes⟩ := hrecovery [] ⟨true, true⟩
  obtain ⟨m, hexec, -, hsent, hbad, -⟩ := htakes rfl rfl
  have hcode : verifyImage Fuses.typical ⟨true, true⟩ [] = Codes.fwFormat := verifyImage_unformatted _ _ (by decide)
  obtain ⟨hspi, -⟩ := hbad (ne_of_eq_of_ne hcode (by decide))
  exact ⟨m, hexec, hsent.trans (congrArg (fun c : Code => [OutMsg.response (natLe 2 c.toNat)]) hcode), hspi⟩

/-- The security core of a responder that GET_VERSION has opened, with one accepted chain. -/
def openedSec : SecSt := { SecSt.init with spdm := ⟨true, false⟩, chains := [[1, 2, 3], []], chainOk := [true, false] }

/-- O55 applies to GET_CERTIFICATE of slot 0: its chain is sent after its length. -/
theorem attestation_chain : ∃ m : State, exec (.getCertificate 0) (bootedState 0xFF openedSec) = .next m
    ∧ m.outbox = [spdmMsg 0x02 0 0 [3, 0, 0, 0, 1, 2, 3]] := by
  obtain ⟨-, -, hchain, -⟩ := attestation (bootedState 0xFF openedSec)
  obtain ⟨haccepted, -⟩ := hchain 0 ⟨⟨⟨rfl, by decide⟩, rfl⟩, rfl⟩
  obtain ⟨m, o, hexec, ho, hm⟩ := haccepted (by decide) rfl
  refine ⟨m, hexec, ?_⟩
  rw [hm, ho]
  rfl

/-- O55 applies to GET_MEASUREMENTS of index 9: one block, with a byte of each die, 1 for those in reset. -/
theorem attestation_dies : ∃ (m : State) (t : List Byte), exec (.getMeasurements 9 true) (bootedState 0xFF openedSec) = .next m
    ∧ t.length = 96
    ∧ m.outbox = [spdmMsg 0x60 0 0 (natLe 1 1 ++ natLe 3 52 ++ measureBlock 9 (List.replicate 45 1) ++ t)] := by
  obtain ⟨-, -, -, hmeasures, -⟩ := attestation (bootedState 0xFF openedSec)
  obtain ⟨-, hblocks⟩ := hmeasures 9 true ⟨⟨⟨rfl, by decide⟩, rfl⟩, rfl⟩
  obtain ⟨m, o, hexec, ⟨v, t, hvalues, hlen, ho⟩, hm⟩ := hblocks (.inr (by decide))
  have hasked : (if 9 = 0xFF then measureIndices else measureIndices.filter (· == 9)) = [9] := by decide
  rw [hasked] at hvalues ho
  obtain ⟨hdies, -⟩ := hvalues 9 (List.mem_singleton_self 9)
  have hv : v 9 = List.replicate 45 1 := (hdies rfl).trans (by decide)
  refine ⟨m, t, hexec, hlen, ?_⟩
  rw [hm, ho, List.flatMap_singleton, hv]
  rfl

/-- O55 applies in an activation window: CHALLENGE is answered with ERROR Busy, and the responder stays open. -/
theorem attestation_busy : ∃ m : State,
    exec (.challenge 1) (bootedState 0xFF { openedSec with activating := true }) = .next m
      ∧ m.outbox = [spdmMsg 0x7F 3 0 []] ∧ m.sec.spdm.open_ = true := by
  obtain ⟨hgate, -⟩ := attestation (bootedState 0xFF { openedSec with activating := true })
  obtain ⟨-, hbusy, -⟩ := hgate (.challenge 1)
    (List.mem_append_right _ (List.mem_flatMap.2 ⟨1, List.mem_range.2 (by decide), by simp⟩))
  obtain ⟨m, o, hexec, ho, hm⟩ := hbusy ⟨rfl, by decide⟩ rfl
  refine ⟨m, hexec, ?_⟩
  rw [hm, ho]
  exact ⟨rfl, rfl⟩

end Sys2Proof.Machine
